-- ==== Sys2Proof/Word.lean ====
section
/-! DEFINITION. The word types of the machine and their plainest helpers (spec 00 R5, R6: bit 0 is the least
significant bit; a range is written high:low). -/

namespace Sys2Proof

/-- A scalar register's value (07 R97). -/
abbrev Word := BitVec 64

/-- A vector lane, predicate or accumulator element (07 R97). -/
abbrev Lane := BitVec 32

/-- One byte of memory. -/
abbrev Byte := BitVec 8

/-- A place (01 R11), by its 16-bit value. -/
abbrev Place := Nat

/-- A word of all ones: a wait's time-out result (14 R196, R203). -/
def Word.allOnes : Word := BitVec.allOnes 64

/-- `n` bits of `w` starting at bit `lo` (00 R6), as a number. -/
def bitsAt (w lo n : Nat) : Nat := w / 2 ^ lo % 2 ^ n

/-- One bit of `w`. -/
def bitAt (w i : Nat) : Bool := w / 2 ^ i % 2 == 1

/-- 1 for true, 0 for false. -/
def b2n (b : Bool) : Nat := if b then 1 else 0

@[simp] theorem b2n_true : b2n true = 1 := rfl
@[simp] theorem b2n_false : b2n false = 0 := rfl

end Sys2Proof
end

