-- ==== Sys2Proof/Syntax.lean ====
section
/-! DEFINITION. The instructions and machine events of the DL-16: one constructor of `Instr` for each row of the
opcode table. The sequencer instructions carry the fields of their encodings (07 R85-R93); the events of other
agents (arrivals, engine steps, exchanges, host commands) carry the operands that say which agent moves. -/

namespace Sys2Proof

/-- A scalar register number (07 R97). -/
abbrev Reg := Fin 64
/-- A vector register number (07 R97). -/
abbrev VReg := Fin 32

/-- The two sequencers of a core (01 R16). -/
inductive SeqId | as | xs
deriving DecidableEq, Repr

/-- The guard of word 0 (07 R85, R88): GI and GK. -/
structure Guard where
  inv : Bool
  k : Fin 8
deriving DecidableEq, Repr

/-- The type and format codes of 07 R89 that name one element format; the reserved code 0xE has none, and the
planed code 0xF stands in `MFmt`. -/
inductive XT | i64 | i32 | i16 | i8 | z64 | z32 | z16 | z8 | f32 | f16 | bf16 | f64 | e4m3 | e5m2
deriving DecidableEq, Repr

/-- The format of a matrix operand: an X code, or planed with its PSPEC (07 R90). -/
inductive MFmt
  | plain (x : XT)
  | planed (d : Fin 16) (k : Fin 16) (ctr : Bool)
deriving DecidableEq, Repr

/-- What a register field with its kind names (07 R87). -/
inductive Opnd
  | reg (r : Reg)
  | lq (q : Fin 4)
  | nE
  | nW
deriving DecidableEq, Repr

/-- The B operand of a vector instruction: a vector, or under SB a scalar Q operand (12 R172). -/
inductive VSrc
  | vec (v : VReg)
  | sca (o : Opnd)
deriving DecidableEq, Repr

/-- The source of `vbcast` (12 R174): a scalar Q operand, or an element of a vector register. -/
inductive BSrc
  | sca (o : Opnd)
  | lane (v : VReg) (l : Fin 32)
deriving DecidableEq, Repr

/-- The relations of `cmp` (08 R114), in the order of their CC codes. -/
inductive Cond | eq | ne | lt | ge | le | gt
deriving DecidableEq, Repr

/-- The relations of `fcmp` (08 R117), in the order of their CC codes. -/
inductive FCond | eq | lt | le | un | ne
deriving DecidableEq, Repr

/-- The relation of `vcmp` (12 R174): that of `cmp` for an integer X, that of `fcmp` for a float X. -/
inductive VCond
  | int (c : Cond)
  | flt (c : FCond)
deriving DecidableEq, Repr

/-- MODE of `fsgn` (08 R117). -/
inductive SignMode | cpy | neg | xor
deriving DecidableEq, Repr

/-- The windows an atomic reaches (10 R162), in the order of SP. -/
inductive Space | cp | cm | oc | gv
deriving DecidableEq, Repr

/-- AOP of `atom` (10 R162). -/
inductive AtomOp | add | and | or | xor | min | max | swap | fadd
deriving DecidableEq, Repr

/-- ROP of `vred` and `vscan` (12 R181). -/
inductive RedOp | add | min | max | and | or | xor
deriving DecidableEq, Repr

/-- The classes of FROM and TO of `fence` (14 R210). -/
inductive FenceClass | core | cce | bds | bte | coll | mbx | all
deriving DecidableEq, Repr

/-- SCOPE of `fence` (14 R210). -/
inductive FenceScope | core | cluster | partition | system
deriving DecidableEq, Repr

/-- The path classes of 16 R233. -/
inductive Path | core | cce | bds | bte | coll | mbx
deriving DecidableEq, Repr

/-- The virtual networks of 01 R26, in the order of their numbers. -/
inductive Vn | reply | req | amsg | bulk | sync | mgmt
deriving DecidableEq, Repr

/-- The control registers of 07 R100. -/
inductive Csr
  | hid | wid | wfw | self | part | speed | feat | fpstat | fpmode | xferid | holdst | deadline | wdog | lostcnt
  | icinv | utvec | utmask | cause | epc | tval | stvec
deriving DecidableEq, Repr

/-- The fields of the second part of a 128-bit instruction (07 R93). -/
structure Eng where
  place : BitVec 16
  pblk : BitVec 16
  wsem : BitVec 8
  wthr : BitVec 12
  ssem : BitVec 8
  sinc : BitVec 4
deriving DecidableEq, Repr

/-- Why a fetched word is no instruction (07 R94). -/
inductive BadEncoding
  | opcode | function | length | reserved | register | objectIndex | kind | xcode | field
deriving DecidableEq, Repr

/-- A home of the abstract machine (16 R232): a core's CP, a cluster's CM, a station, the replication sequencer. -/
inductive Home
  | cp (p : Place) (bank : Nat)
  | cm (clu bank : Nat)
  | station (n : Nat)
  | repl
deriving DecidableEq, Repr

/-- What a self-test tests (01 R14, 22 R314). -/
inductive TestUnit
  | feature (p : Place) (bit : Fin 5)
  | shared (clu : Nat)
deriving DecidableEq, Repr

/-- The PCI Express function a command came from (24 R322, 22 R312). -/
inductive HostFn
  | pf (port : Fin 2)
  | vf (n : Nat)
deriving DecidableEq, Repr

/-- A host command chain as its queue holds it, and its header (24 R323). `head` is the index of its first descriptor in
the descriptor table and `descs` are its descriptors, in order: whether each is device-writable, and its length in bytes.
`zero` are the header's bytes 2–3 and 11–15 as a number; `rsvd` are the body's reserved bytes, with the bits of one-bit
fields that their bytes do not use, as a number (R326). -/
structure CmdHead where
  fn : HostFn
  tag : BitVec 32
  partn : Nat
  tenant : Nat
  head : Nat
  descs : List (Bool × Nat)
  zero : Nat
  rsvd : Nat
deriving DecidableEq, Repr

/-- The launch parameters of 03 R42, with the reserved bytes of 24 R326 as `rsvd`. -/
structure LaunchParams where
  lid : BitVec 16
  root : BitVec 16
  hidx : BitVec 16
  gen : BitVec 8
  payload : List Word
  wid : Word
  wfw : Word
  base : BitVec 16
  tiles : BitVec 32
  dl : Word
  rsvd : Bool
deriving DecidableEq, Repr

/-- One update of a MEMMAP command or of a table image (24 R326); `bad` has a kind, a reserved byte or a length that the
layout does not allow. -/
inductive MapUpdate
  | map (level addr : Nat) (pte : Word)
  | unmap (level addr : Nat)
  | range (slot index : Nat) (entry : BitVec 256)
  | process (index : Nat) (entry : BitVec 128)
  | bad
deriving DecidableEq, Repr

/-- The body of CREATE (24 R326). `image` holds the MEMMAP updates of the table image at its IMAGE address (22 R313 step
5). -/
structure CreateBody where
  partn : Nat
  clu : Nat
  ncm1 : Nat
  nrm1 : Nat
  shape : Nat
  subn : Nat
  weight : Nat
  scount : Nat
  debugHold : Bool
  tslice : Nat
  wdogDef : Nat
  retryLim : Nat
  avgThr : Nat
  ingress : BitVec 16
  codeb : Nat
  codeSize : Nat
  hcount : Nat
  htab : Nat
  rtab : Nat
  period : Nat
  image : List MapUpdate
  proc0 : Nat
  rsvd : Bool
deriving DecidableEq, Repr

/-- What the power sensors read at a governor sample (24 R335). -/
structure PowerSample where
  amps : Nat
  watts : Nat
deriving DecidableEq, Repr

/-- One instruction of a sequencer, or one event of another agent: a row of the opcode table each. -/
inductive Instr
  -- OP 0x00
  | nop
  | shortNop
  | endPart (g : Guard)
  | illegalEncoding (why : BadEncoding)
  -- OP 0x01, integer register forms (08 R112)
  | add (g : Guard) (x : XT) (d a b : Opnd)
  | sub (g : Guard) (x : XT) (d a b : Opnd)
  | mul (g : Guard) (x : XT) (d a b : Opnd)
  | mulh (g : Guard) (x : XT) (d a b : Opnd)
  | mulhz (g : Guard) (x : XT) (d a b : Opnd)
  | div (g : Guard) (x : XT) (d a b : Opnd)
  | divz (g : Guard) (x : XT) (d a b : Opnd)
  | rem (g : Guard) (x : XT) (d a b : Opnd)
  | remz (g : Guard) (x : XT) (d a b : Opnd)
  | and (g : Guard) (x : XT) (d a b : Opnd)
  | or (g : Guard) (x : XT) (d a b : Opnd)
  | xor (g : Guard) (x : XT) (d a b : Opnd)
  | andn (g : Guard) (x : XT) (d a b : Opnd)
  | shl (g : Guard) (x : XT) (d a b : Opnd)
  | shr (g : Guard) (x : XT) (d a b : Opnd)
  | sra (g : Guard) (x : XT) (d a b : Opnd)
  | rol (g : Guard) (x : XT) (d a b : Opnd)
  | min (g : Guard) (x : XT) (d a b : Opnd)
  | max (g : Guard) (x : XT) (d a b : Opnd)
  | minz (g : Guard) (x : XT) (d a b : Opnd)
  | maxz (g : Guard) (x : XT) (d a b : Opnd)
  -- OP 0x02, integer immediate forms
  | addi (g : Guard) (x : XT) (d a : Reg) (i : BitVec 24)
  | andi (g : Guard) (x : XT) (d a : Reg) (i : BitVec 24)
  | ori (g : Guard) (x : XT) (d a : Reg) (i : BitVec 24)
  | xori (g : Guard) (x : XT) (d a : Reg) (i : BitVec 24)
  | shli (g : Guard) (x : XT) (d a : Reg) (i : BitVec 24)
  | shri (g : Guard) (x : XT) (d a : Reg) (i : BitVec 24)
  | srai (g : Guard) (x : XT) (d a : Reg) (i : BitVec 24)
  | roli (g : Guard) (x : XT) (d a : Reg) (i : BitVec 24)
  | muli (g : Guard) (x : XT) (d a : Reg) (i : BitVec 24)
  -- OP 0x03 and 0x04 (08 R114)
  | movi (g : Guard) (d : Reg) (j : BitVec 32)
  | movw (g : Guard) (d : Reg) (j : BitVec 32)
  | mov (g : Guard) (x : XT) (d a : Opnd)
  | lea (g : Guard) (d a b : Opnd) (sc : Fin 4) (disp : BitVec 10)
  | rdtick (g : Guard) (d : Reg)
  | cmp (g : Guard) (x : XT) (kd : Fin 8) (cc : Cond) (a b : Opnd)
  | sel (g : Guard) (d a b : Opnd) (kc : Fin 8)
  | clz (g : Guard) (x : XT) (d a : Opnd)
  | ctz (g : Guard) (x : XT) (d a : Opnd)
  | popc (g : Guard) (x : XT) (d a : Opnd)
  | bfx (g : Guard) (x : XT) (d a : Opnd) (pos lm1 : Fin 64)
  | bfi (g : Guard) (d : Reg) (a : Opnd) (pos lm1 : Fin 64)
  | sext (g : Guard) (x : XT) (d a : Opnd)
  | zext (g : Guard) (x : XT) (d a : Opnd)
  -- OP 0x05, scalar FP (08 R117)
  | fadd (g : Guard) (x : XT) (d a b : Opnd)
  | fsub (g : Guard) (x : XT) (d a b : Opnd)
  | fmul (g : Guard) (x : XT) (d a b : Opnd)
  | fma (g : Guard) (x : XT) (d a b : Opnd) (c : Reg)
  | fdiv (g : Guard) (x : XT) (d a b : Opnd)
  | fsqrt (g : Guard) (x : XT) (d a : Opnd)
  | fmin (g : Guard) (x : XT) (d a b : Opnd)
  | fmax (g : Guard) (x : XT) (d a b : Opnd)
  | fcmp (g : Guard) (x : XT) (kd : Fin 8) (cc : FCond) (a b : Opnd)
  | fcvt (g : Guard) (x fr : XT) (d a : Opnd)
  | fsgn (g : Guard) (x : XT) (m : SignMode) (d a b : Opnd)
  | fclass (g : Guard) (x : XT) (d a : Opnd)
  -- OP 0x06, control (08 R123)
  | br (g : Guard) (i : BitVec 24)
  | jmp (g : Guard) (d a : Reg) (i : BitVec 24)
  | call (g : Guard) (d : Reg) (i : BitVec 24)
  | ret (g : Guard) (a : Reg)
  | loop (g : Guard) (lc : Fin 2) (a : Reg) (i : BitVec 24)
  | tret (g : Guard)
  | pause (g : Guard) (a : Reg) (i : BitVec 24)
  | pauseExpiry (p : Place) (q : SeqId)
  -- OP 0x07, branch queues (08 R130)
  | bqpush (g : Guard) (k : Fin 8)
  | bqbr (g : Guard) (sense : Bool) (i : BitVec 24)
  -- OP 0x08 and 0x09, loads and stores (10 R140)
  | ld (g : Guard) (x : XT) (cm : Bool) (d : Opnd) (a c : Reg) (disp : BitVec 10)
  | st (g : Guard) (x : XT) (cm sq : Bool) (a : Reg) (b : Opnd) (c : Reg) (disp : BitVec 10)
  | ldo (g : Guard) (x : XT) (d : Opnd) (a c : Reg) (disp : BitVec 10)
  | sto (g : Guard) (x : XT) (sq : Bool) (a : Reg) (b : Opnd) (c : Reg) (disp : BitVec 10)
  | ldg (g : Guard) (x : XT) (d : Opnd) (a c : Reg) (disp : BitVec 10)
  | stg (g : Guard) (x : XT) (sq : Bool) (a : Reg) (b : Opnd) (c : Reg) (disp : BitVec 10)
  | pf (g : Guard) (a c : Reg) (disp : BitVec 10)
  | sqStorePerform (p : Place)
  -- OP 0x0A, atomics (10 R162)
  | atom (g : Guard) (x : XT) (sp : Space) (op : AtomOp) (acq rel : Bool) (d a : Reg) (b : Opnd)
  | atomcas (g : Guard) (x : XT) (sp : Space) (acq rel : Bool) (d a : Reg) (b : Opnd) (c : Reg)
  | atomincw (g : Guard) (x : XT) (sp : Space) (acq rel : Bool) (d a c : Reg)
  | atomfaddb (g : Guard) (x : XT) (sp : Space) (acq rel : Bool) (d : Reg) (pk : Fin 8) (a : Reg) (b : Opnd) (c : Reg)
  | enq (g : Guard) (sp : Space) (acq rel : Bool) (pk : Fin 8) (a : Reg) (b : Opnd)
  | deq (g : Guard) (sp : Space) (acq rel : Bool) (d : Reg) (pk : Fin 8) (a : Reg)
  -- OP 0x0B, messages (10 R147)
  | send (g : Guard) (d a b : Reg) (hidx : BitVec 16) (gen : BitVec 8)
  | sendt (g : Guard) (d a b : Reg) (hidx : BitVec 16) (gen : BitVec 8)
  | reply (g : Guard) (d : Reg)
  | msend (g : Guard) (d a : Reg) (mb : Fin 64)
  | msendt (g : Guard) (d a : Reg) (mb : Fin 64)
  | retryHintExpiry (p : Place) (q : SeqId)
  | answerArrival (p : Place) (q : SeqId)
  -- OP 0x0C, mailboxes and links (10 R156)
  | mcfg (g : Guard) (a : Reg) (mb : Fin 64)
  | mrecv (g : Guard) (d a : Reg) (tmo : BitVec 18) (mb : Fin 64)
  | mpeek (g : Guard) (d : Reg) (mb : Fin 64)
  | mrel (g : Guard) (a : Reg) (mb : Fin 64)
  | nlink (g : Guard) (fe fw clr : Bool)
  | activeMessageArrival (src dst : Place)
  | mailboxDeposit (src dst : Place)
  | replyArrival (src dst : Place)
  | gaussianFirstPacket (src dst : Place)
  | gaussianDeposit (src dst : Place)
  -- OP 0x0D, vector arithmetic (12 R172)
  | vadd (g : Guard) (x : XT) (sat : Bool) (d a : VReg) (b : VSrc)
  | vsub (g : Guard) (x : XT) (sat : Bool) (d a : VReg) (b : VSrc)
  | vmul (g : Guard) (x : XT) (d a : VReg) (b : VSrc)
  | vfma (g : Guard) (x : XT) (d a : VReg) (b : VSrc) (c : VReg)
  | vmin (g : Guard) (x : XT) (d a : VReg) (b : VSrc)
  | vmax (g : Guard) (x : XT) (d a : VReg) (b : VSrc)
  | vabs (g : Guard) (x : XT) (d a : VReg)
  | vneg (g : Guard) (x : XT) (d a : VReg)
  | vand (g : Guard) (x : XT) (d a : VReg) (b : VSrc)
  | vor (g : Guard) (x : XT) (d a : VReg) (b : VSrc)
  | vxor (g : Guard) (x : XT) (d a : VReg) (b : VSrc)
  | vshl (g : Guard) (x : XT) (d a : VReg) (b : VSrc)
  | vshr (g : Guard) (x : XT) (d a : VReg) (b : VSrc)
  | vsra (g : Guard) (x : XT) (d a : VReg) (b : VSrc)
  -- OP 0x0E (12 R174)
  | vcmp (g : Guard) (x : XT) (kd : Fin 8) (cc : VCond) (a : VReg) (b : VSrc)
  | vsel (g : Guard) (d a b : VReg) (kc : Fin 8)
  | vcvt (g : Guard) (x fr : XT) (half : Bool) (d a : VReg)
  | vsplit (g : Guard) (d a : VReg)
  | vbcast (g : Guard) (x : XT) (d : VReg) (src : BSrc)
  | vmov (g : Guard) (d a : VReg)
  | vmovLaneToScalar (g : Guard) (x : XT) (d : Opnd) (a : VReg) (lane : Fin 32)
  | vmovScalarToLane (g : Guard) (x : XT) (d : VReg) (lane : Fin 32) (a : Opnd)
  -- OP 0x0F (12 R176)
  | vld (g : Guard) (x : XT) (cm : Bool) (d : VReg) (a : Reg) (disp : BitVec 10)
  | vst (g : Guard) (x : XT) (cm : Bool) (a : Reg) (b : VReg) (disp : BitVec 10)
  | vgath (g : Guard) (x : XT) (cm : Bool) (d : VReg) (a : Reg) (b : VReg)
  | vscat (g : Guard) (x : XT) (cm : Bool) (a : Reg) (b c : VReg)
  | vstream (g : Guard) (x : XT) (d : Fin 8) (a : Reg)
  | vstop (g : Guard) (d : Fin 8)
  | streamRefill (p : Place) (v : Fin 8)
  -- OP 0x10 (12 R181)
  | vshuf (g : Guard) (d a b : VReg)
  | vred (g : Guard) (x : XT) (op : RedOp) (d : Opnd) (a : VReg)
  | vscan (g : Guard) (x : XT) (op : RedOp) (d a : VReg)
  -- OP 0x11, matrix (12 R184)
  | mma (g : Guard) (f : MFmt) (d : Fin 4)
  | mmaz (g : Guard) (f : MFmt) (d : Fin 4)
  | mlda (g : Guard) (f : MFmt) (cm : Bool) (a b c : Reg)
  | mldb (g : Guard) (f : MFmt) (cm : Bool) (a b c : Reg)
  | mgath (g : Guard) (f : MFmt) (cm : Bool) (a : Reg) (b : VReg) (c : Reg)
  | mldacc (g : Guard) (x : XT) (cm : Bool) (d : Fin 4) (a b : Reg)
  | mstacc (g : Guard) (x : XT) (cm : Bool) (d : Fin 4) (a b : Reg) (e : BitVec 8) (f : Fin 4)
  | mclr (g : Guard) (d : Fin 4)
  | mmask (g : Guard) (mm nm : Fin 32) (km : BitVec 8)
  -- OP 0x12, local barriers (14 R194)
  | lbinit (g : Guard) (a : Reg) (lb : Fin 64)
  | lbarr (g : Guard) (a : Reg) (lb : Fin 64)
  | lbdrop (g : Guard) (a : Reg) (lb : Fin 64)
  | lbjoin (g : Guard) (a : Reg) (lb : Fin 64)
  | lbexp (g : Guard) (a : Reg) (lb : Fin 64)
  | lbwait (g : Guard) (d a : Reg) (tmo : BitVec 17) (par : Bool) (lb : Fin 64)
  | lbtest (g : Guard) (d : Reg) (lb : Fin 64)
  | lbRemoteArrival (src dst : Place)
  -- OP 0x13, mesh barriers (14 R199)
  | mshcfg (g : Guard) (a : Reg) (m : Fin 16)
  | mshar (g : Guard) (m : Fin 16)
  | mshwait (g : Guard) (d a : Reg) (tmo : BitVec 19) (par : Bool) (m : Fin 16)
  | mshstat (g : Guard) (d : Reg) (sel : Fin 4) (m : Fin 16)
  | meshArrivalCombine (clu : Nat) (corner : Place) (m : Fin 16)
  | meshRelease (corner dst : Place) (m : Fin 16)
  | meshWUpdate (corner dst : Place) (m : Fin 16)
  -- OP 0x14, semaphores (14 R202)
  | semwait (g : Guard) (d a b : Reg) (tmo : BitVec 16) (sem : BitVec 8)
  | semsig (g : Guard) (a b : Reg) (sem : BitVec 8)
  | semset (g : Guard) (a : Reg) (sem : BitVec 8)
  | semget (g : Guard) (d : Reg) (sem : BitVec 8)
  | semRemoteSignal (src dst : Place)
  -- OP 0x15, holds and time (14 R204)
  | declare (g : Guard) (a : Reg)
  | hold (g : Guard)
  | holdx (g : Guard) (d a : Reg)
  | rel (g : Guard) (d a : Reg)
  | relEnd (g : Guard) (d a : Reg)
  | holdst (g : Guard) (d a : Reg)
  | holdstObj (g : Guard) (d a : Reg)
  | dline (g : Guard) (a : Reg)
  | dlineRel (g : Guard) (a : Reg)
  -- OP 0x16
  | fence (g : Guard) (src dst : FenceClass) (scope : FenceScope)
  -- OP 0x17, tasks (14 R211)
  | spawn (g : Guard) (a b : Reg)
  | dist (g : Guard) (d : Reg)
  | widx (g : Guard) (d a : Reg) (fld : Fin 6)
  | trig (g : Guard) (a : Reg) (tc : Fin 16)
  | trigDisarm (g : Guard) (tc : Fin 16)
  | trigd (g : Guard) (a b : Reg)
  | triggerIncrement (src dst : Place)
  -- OP 0x18 to 0x1A, engine instructions (14 R214)
  | cpy (g : Guard) (e : Eng)
  | cpyr (g : Guard) (e : Eng)
  | cpym (g : Guard) (e : Eng)
  | cpymFollowOn (cmd : Nat)
  | subscribe (g : Guard) (rg : Fin 16) (e : Eng)
  | drain (g : Guard) (rg : Fin 16) (e : Eng)
  | unsub (g : Guard) (rg : Fin 16) (e : Eng)
  | streamerTile (cmd : Nat)
  | bte (g : Guard) (e : Eng)
  | coll (g : Guard) (e : Eng)
  | collCombine (cmd : Nat)
  | xfer (g : Guard) (e : Eng)
  | engineAccept (cmd : Nat)
  | engineWriteLand (cmd : Nat)
  | engineComplete (cmd : Nat)
  | engineFaultStop (cmd : Nat)
  | engineFaultDelivery (p : Place)
  -- OP 0x1B, GMU (18 R259)
  | gcfg (g : Guard) (d a b : Reg)
  | gld (g : Guard) (d : Fin 4) (a : Reg) (nm1 : Fin 32) (cm : Bool)
  | gldHdr (g : Guard) (d : Fin 4) (a : Reg) (cm : Bool)
  | gst (g : Guard) (a : Reg) (b : Fin 4) (nm1 : Fin 32) (cm : Bool)
  | gzero (g : Guard) (d : Fin 4)
  | gaddp (g : Guard) (d a : Fin 4) (nm1 off : Fin 32)
  | gschur (g : Guard) (d a : Fin 4) (nm1 off : Fin 32) (km1 : Fin 8)
  | gdamp (g : Guard) (d a : Fin 4) (nm1 : Fin 32) (mb : Fin 64)
  | gres (g : Guard) (d : Reg) (a b : Fin 4) (nm1 : Fin 32)
  | gsend (g : Guard) (d a : Reg) (b : Fin 4) (c : Reg) (once : Bool) (mb : Fin 64) (nm1 : Fin 32)
  | gsolve (g : Guard) (d a : Fin 4) (nm1 : Fin 32)
  -- OP 0x1C, RLC (18 R268)
  | rlcrun (g : Guard) (e : Eng)
  | rlcstat (g : Guard) (d : Reg)
  | rlcabort (g : Guard) (d : Reg)
  | rlcRunStart (clu : Nat)
  | rlcFactorColumn (clu : Nat)
  | rlcStep (clu : Nat)
  -- OP 0x1D, pipeline stages (20 R286)
  | stgdecl (g : Guard) (d a : Reg) (stage : BitVec 8)
  | stgq (g : Guard) (mb : Fin 64) (stage : BitVec 8) (bm1 : Fin 16)
  | stgqClr (g : Guard) (mb : Fin 64)
  | stshal (g : Guard) (d : Reg) (ss : Fin 64)
  | stshfr (g : Guard) (a : Reg) (ss : Fin 64)
  | stshfrInit (g : Guard) (a : Reg) (ss : Fin 64)
  | stgstat (g : Guard) (d : Reg) (stage : BitVec 8)
  | stgstatStash (g : Guard) (d : Reg) (ss : Fin 64)
  | stageDispatch (home : Place) (mb : Fin 64) (member : Place)
  -- OP 0x1E, system (22 R317)
  | trap (g : Guard) (code : BitVec 24)
  | eret (g : Guard)
  | csrr (g : Guard) (d : Reg) (n : Csr)
  | csrw (g : Guard) (a : Reg) (n : Csr)
  | csrx (g : Guard) (d a : Reg) (n : Csr)
  | icinvWrite (g : Guard) (a : Reg)
  | deadlineWrite (g : Guard) (a : Reg)
  | wdog (g : Guard) (d a : Reg)
  | feat (g : Guard) (d a : Reg)
  | speed (g : Guard) (d a : Reg)
  | plsetPlace (g : Guard) (d a b : Reg)
  | plsetPerm (g : Guard) (d a b : Reg)
  -- events of the execution model (file 03)
  | activation (p : Place)
  | stealRequest (clu : Nat)
  | stealRetryTimer (clu : Nat)
  | stealRequestArrival (src dst : Place)
  | stealShipment (src dst : Place)
  | stealAck (src dst : Place)
  | transitTimeout (clu : Nat) (number : Nat)
  | transitQueryAnswer (src dst : Place)
  | loadExchange (part : Nat)
  | rootDelivery (part : Nat)
  | launchServicePost (src dst : Place)
  | idleTreeSample (part : Nat)
  | deadlinePass (p : Place)
  | waitTimeout (p : Place) (q : SeqId)
  | watchdog (p : Place)
  -- events of the mesh (file 01) and of the ordering machine (file 16)
  | stuckTimerExpiry (router : Nat) (port : Nat) (vn : Vn) (part : Nat)
  | injectionLimitLift (vn : Vn) (part : Nat)
  | linkDead (link : Nat) (lost : List Nat)
  | rerouteResume
  | accessDispatch (p : Place) (path : Path)
  | accessApply (p : Place) (path : Path) (h : Home)
  | closeApply (p : Place) (h : Home)
  | reduceApply (cmd : Nat)
  | replicaApply (stack : Nat)
  | replicaCommit
  -- events of the system (file 22)
  | pageServiceAnswer (p : Place) (mapped : Bool)
  | tsliceExpiry (part : Nat)
  | tenantSwitch (part : Nat)
  | selfTestStart (u : TestUnit)
  | selfTestEnd (u : TestUnit) (pass : Bool)
  | clusterRetirement (clu : Nat)
  | uncorrectableRead (p : Place) (addr : Nat)
  -- events of the host side (file 24)
  | sublinkDown (port sub : Nat)
  | scaleupMessage (port sub : Nat) (header : Word) (payload : List Word) (rr : Word) (mb : Option (Fin 64))
  | boot
  | governorSample (p : PowerSample)
  | usageRecord (part : Nat)
  | frameScrub (station : Nat)
  | featuresOk (fn : HostFn) (features : Word)
  | launch (h : CmdHead) (b : LaunchParams)
  -- a MEMMAP chain of several updates is the event of its first one's row, with the others in `rest`
  | memmapMap (h : CmdHead) (proc level : Nat) (addr : Nat) (pte : Word) (rest : List MapUpdate)
  | memmapUnmap (h : CmdHead) (proc level : Nat) (addr : Nat) (rest : List MapUpdate)
  | memmapRange (h : CmdHead) (proc slot index : Nat) (entry : BitVec 256) (rest : List MapUpdate)
  | memmapProcess (h : CmdHead) (proc index : Nat) (entry : BitVec 128) (rest : List MapUpdate)
  | query (h : CmdHead)
  | usage (h : CmdHead) (first : Nat) (max : Nat)
  | restore (h : CmdHead) (source : Nat) (image : Nat)
  | keep (h : CmdHead)
  | create (h : CmdHead) (b : CreateBody)
  | destroy (h : CmdHead) (partn : Nat) (keepIt : Bool)
  | bind (h : CmdHead) (partn tenant port vf : Nat) (pmask : Word)
  | unbind (h : CmdHead) (partn tenant port vf : Nat)
  | restitch (h : CmdHead) (partn shape subn : Nat)
  | sublink (h : CmdHead) (port sub partn : Nat)
  | fwact (h : CmdHead) (slot : Nat)
  | powercap (h : CmdHead) (cap : Nat)
  | quote (h : CmdHead) (nonce : List Byte)
  | period (h : CmdHead) (partn ticks : Nat)
  | recover (h : CmdHead) (image : List Byte)
  | scaleupFlit (port sub part : Nat) (flit : List Byte)
  | usageQueueTake (pf : Fin 2)
deriving DecidableEq, Repr

end Sys2Proof
end

