-- ==== Sys2Proof/WellFormed.lean ====
section
/-! DEFINITION. Which terms of `Instr` an encoding can hold: the X codes each instruction accepts (07 R89 and the
instruction chapters), the operand kinds (07 R87) and the field limits. A term that fails `Instr.wf` is no
instruction of the machine: the decoder never makes one and the encoder is claimed right only on the others. -/

namespace Sys2Proof

namespace XT

/-- X codes 0x0 to 0x7 (07 R89). -/
def isInt : XT → Bool
  | .i64 | .i32 | .i16 | .i8 | .z64 | .z32 | .z16 | .z8 => true
  | _ => false
/-- X codes 0x0 to 0x3. -/
def isSigned : XT → Bool
  | .i64 | .i32 | .i16 | .i8 => true
  | _ => false
/-- X codes 0x4 to 0x7. -/
def isUnsigned : XT → Bool
  | .z64 | .z32 | .z16 | .z8 => true
  | _ => false
/-- X codes 0x8 to 0xB, the formats of the scalar FP arithmetic (08 R117). -/
def isFp : XT → Bool
  | .f32 | .f16 | .bf16 | .f64 => true
  | _ => false
/-- X codes 0x8 to 0xD. -/
def isFloat (x : XT) : Bool := !x.isInt
/-- The integer codes a vector accepts: 0x1 to 0x3 and 0x5 to 0x7 (12 R169). -/
def isVInt : XT → Bool
  | .i32 | .i16 | .i8 | .z32 | .z16 | .z8 => true
  | _ => false
/-- 0x1 to 0x3. -/
def isVSigned : XT → Bool
  | .i32 | .i16 | .i8 => true
  | _ => false
/-- The element codes of 12 R172: the vector integers and the FP formats. -/
def isVArith (x : XT) : Bool := x.isVInt || x.isFp
/-- The element codes of 12 R176 and the moves of R174: 0x1 to 0x3 and 0x5 to 0xD. -/
def isVElem (x : XT) : Bool := x.isVInt || x.isFloat
/-- The X codes `atom` accepts for AOP 0 to 6 (10 R162). -/
def isAtomInt : XT → Bool
  | .i64 | .i32 | .z64 | .z32 => true
  | _ => false
/-- 0x4 and 0x5. -/
def isAtomZ : XT → Bool
  | .z64 | .z32 => true
  | _ => false
/-- The formats of a latch (12 R184). -/
def isMat : XT → Bool
  | .i8 | .f16 | .bf16 | .e4m3 | .e5m2 => true
  | _ => false
/-- The formats of an accumulator load or store (12 R184). -/
def isAccMem : XT → Bool
  | .i8 | .f32 | .f16 | .bf16 | .e4m3 | .e5m2 => true
  | _ => false

end XT

namespace Opnd

/-- A link destination L (08 R107): a scalar register, nE or nW, never lq0 to lq3. -/
def isL : Opnd → Bool
  | .lq _ => false
  | _ => true

end Opnd

/-- PSPEC holds a depth from 2 to 8 (07 R90), and a plain format is one of 12 R184. -/
def MFmt.wf : MFmt → Bool
  | .plain x => x.isMat
  | .planed d _ _ => 2 ≤ d.val && d.val ≤ 8

/-- C names the plane stride of a planed load and is reserved otherwise (12 R184). -/
def MFmt.strideWf (f : MFmt) (c : Reg) : Bool :=
  match f with
  | .plain _ => c.val == 0
  | .planed _ _ _ => true

/-- WSEM is zero without a wait and SSEM without a signal (07 R93). -/
def Eng.wf (e : Eng) : Bool :=
  (e.wthr != 0 || e.wsem == 0) && (e.sinc != 0 || e.ssem == 0)

/-- CC fits the element type (12 R174). -/
def VCond.fits (c : VCond) (x : XT) : Bool :=
  match c with
  | .int _ => x.isVInt
  | .flt _ => x.isFp

/-- A lane number of an FP64 element lies below 16 (12 R174). -/
def laneWf (x : XT) (l : Fin 32) : Bool := x != .f64 || l.val < 16

/-- A time-out stands in the instruction only when A names s0 (10 R156, 14 R194, R199, R202). -/
def tmoWf {n : Nat} (a : Reg) (t : BitVec n) : Bool := a.val == 0 || t == 0

/-- The term is one an encoding holds. Events of other agents have no encoding and no check. -/
def Instr.wf : Instr → Bool
  | .add _ x d _ _ | .sub _ x d _ _ | .mul _ x d _ _ | .and _ x d _ _ | .or _ x d _ _ | .xor _ x d _ _
  | .andn _ x d _ _ | .shl _ x d _ _ | .shr _ x d _ _ | .sra _ x d _ _ | .rol _ x d _ _ => x.isInt && d.isL
  | .mulh _ x d _ _ | .div _ x d _ _ | .rem _ x d _ _ | .min _ x d _ _ | .max _ x d _ _ => x.isSigned && d.isL
  | .mulhz _ x d _ _ | .divz _ x d _ _ | .remz _ x d _ _ | .minz _ x d _ _ | .maxz _ x d _ _ =>
    x.isUnsigned && d.isL
  | .addi _ x _ _ _ | .andi _ x _ _ _ | .ori _ x _ _ _ | .xori _ x _ _ _ | .shli _ x _ _ _ | .shri _ x _ _ _
  | .srai _ x _ _ _ | .roli _ x _ _ _ | .muli _ x _ _ _ => x.isInt
  | .mov _ x d _ | .clz _ x d _ | .ctz _ x d _ | .popc _ x d _ => x.isInt && d.isL
  | .lea _ d _ _ _ _ | .sel _ d _ _ _ => d.isL
  | .cmp _ x _ _ _ _ => x.isInt
  | .bfx _ x d _ pos lm1 => (x == .i64 || x == .z64) && d.isL && pos.val + lm1.val ≤ 63
  | .bfi _ _ _ pos lm1 => pos.val + lm1.val ≤ 63
  | .sext _ x d _ => x.isSigned && d.isL
  | .zext _ x d _ => x.isUnsigned && d.isL
  | .fadd _ x d _ _ | .fsub _ x d _ _ | .fmul _ x d _ _ | .fma _ x d _ _ _ | .fdiv _ x d _ _
  | .fsqrt _ x d _ | .fmin _ x d _ _ | .fmax _ x d _ _ => x.isFp && d.isL
  | .fcmp _ x _ _ _ _ => x.isFp
  | .fcvt _ x fr d _ => !(x.isInt && fr.isInt) && d.isL
  | .fsgn _ x _ d _ _ | .fclass _ x d _ => x.isFloat && d.isL
  | .loop _ _ _ i => decide (2 ≤ i.toInt)
  | .pause _ a i => a.val == 0 || i == 0
  | .ld _ x _ _ _ _ _ | .st _ x _ _ _ _ _ _ | .ldo _ x _ _ _ _ | .sto _ x _ _ _ _ _ | .ldg _ x _ _ _ _
  | .stg _ x _ _ _ _ _ => x.isInt
  | .atom _ x _ op _ _ _ _ _ => if op = .fadd then x == .f32 else x.isAtomInt
  | .atomcas _ x _ _ _ _ _ _ _ => x.isAtomInt
  | .atomincw _ x _ _ _ _ _ _ | .atomfaddb _ x _ _ _ _ _ _ _ _ => x.isAtomZ
  | .mrecv _ _ a t _ => tmoWf a t
  | .vadd _ x sat _ _ _ | .vsub _ x sat _ _ _ => x.isVArith && (!sat || x.isVInt)
  | .vmul _ x _ _ _ | .vmin _ x _ _ _ | .vmax _ x _ _ _ => x.isVArith
  | .vfma _ x _ _ _ _ => x.isFp
  | .vabs _ x _ _ | .vneg _ x _ _ => x.isVSigned || x.isFp
  | .vand _ x _ _ _ | .vor _ x _ _ _ | .vxor _ x _ _ _ | .vshl _ x _ _ _ | .vshr _ x _ _ _
  | .vsra _ x _ _ _ => x.isVInt
  | .vcmp _ x _ cc _ _ => cc.fits x
  | .vcvt _ x fr half _ _ =>
    x.isVElem && fr.isVElem && !(x.isInt && fr.isInt) && (!half || ((x == .f64) != (fr == .f64)))
  | .vsplit _ d _ => d.val ≤ 29
  | .vbcast _ x _ src => x.isVElem && (match src with | .sca _ => true | .lane _ l => laneWf x l)
  | .vmovLaneToScalar _ x d _ l => x.isVElem && d.isL && laneWf x l
  | .vmovScalarToLane _ x _ l _ => x.isVElem && laneWf x l
  | .vld _ x _ _ _ _ | .vst _ x _ _ _ _ | .vgath _ x _ _ _ _ | .vscat _ x _ _ _ _ => x.isVElem
  | .vstream _ x _ _ => x == .i32 || x == .z32 || x == .f32
  | .vred _ x op d _ => x.isVArith && d.isL && (x.isVInt || op = .add || op = .min || op = .max)
  | .vscan _ x op _ _ => x.isVArith && (x.isVInt || op = .add || op = .min || op = .max)
  | .mma _ f _ | .mmaz _ f _ => f.wf
  | .mlda _ f _ _ _ c | .mldb _ f _ _ _ c | .mgath _ f _ _ _ c => f.wf && f.strideWf c
  | .mldacc _ x _ _ _ _ | .mstacc _ x _ _ _ _ _ _ => x.isAccMem
  | .lbwait _ _ a t _ _ => tmoWf a t
  | .mshwait _ _ a t _ _ => tmoWf a t
  | .semwait _ _ a _ t _ => tmoWf a t
  | .trig _ a _ => a.val != 0
  | .cpy _ e | .cpyr _ e | .cpym _ e | .subscribe _ _ e | .drain _ _ e | .unsub _ _ e | .bte _ e | .coll _ e
  | .xfer _ e | .rlcrun _ e => e.wf
  | .gaddp _ _ _ n o => o.val + n.val + 1 ≤ 32
  | .gschur _ _ _ n o k => o.val + k.val + 1 ≤ n.val + 1 && n.val + 1 - (k.val + 1) ≤ 24
  | .gsend _ _ _ _ _ _ _ n => n.val ≤ 13
  | .stgdecl _ _ _ sg => sg != 0
  | .stgq _ _ sg _ => sg != 0
  | .csrw _ _ n => n != .icinv && n != .deadline
  | .nop | .shortNop | .endPart _ | .movi _ _ _ | .movw _ _ _ | .rdtick _ _ | .br _ _ | .jmp _ _ _ _
  | .call _ _ _ | .ret _ _ | .tret _ | .pauseExpiry _ _ | .bqpush _ _ | .bqbr _ _ _ | .pf _ _ _ _
  | .sqStorePerform _ | .enq _ _ _ _ _ _ _ | .deq _ _ _ _ _ _ _ | .send _ _ _ _ _ _ | .sendt _ _ _ _ _ _
  | .reply _ _ | .msend _ _ _ _ | .msendt _ _ _ _ | .retryHintExpiry _ _ | .answerArrival _ _ | .mcfg _ _ _
  | .mpeek _ _ _ | .mrel _ _ _ | .nlink _ _ _ _ | .activeMessageArrival _ _ | .mailboxDeposit _ _
  | .replyArrival _ _ | .gaussianFirstPacket _ _ | .gaussianDeposit _ _ | .vsel _ _ _ _ _ | .vmov _ _ _
  | .vstop _ _ | .streamRefill _ _ | .vshuf _ _ _ _ | .mclr _ _ | .mmask _ _ _ _ | .lbinit _ _ _ | .lbarr _ _ _
  | .lbdrop _ _ _ | .lbjoin _ _ _ | .lbexp _ _ _ | .lbtest _ _ _ | .lbRemoteArrival _ _ | .mshcfg _ _ _
  | .mshar _ _ | .mshstat _ _ _ _ | .meshArrivalCombine _ _ _ | .meshRelease _ _ _ | .meshWUpdate _ _ _
  | .semsig _ _ _ _ | .semset _ _ _ | .semget _ _ _ | .semRemoteSignal _ _ | .declare _ _ | .hold _
  | .holdx _ _ _ | .rel _ _ _ | .relEnd _ _ _ | .holdst _ _ _ | .holdstObj _ _ _ | .dline _ _ | .dlineRel _ _
  | .fence _ _ _ _ | .spawn _ _ _ | .dist _ _ | .widx _ _ _ _ | .trigDisarm _ _ | .trigd _ _ _
  | .triggerIncrement _ _ | .cpymFollowOn _ | .streamerTile _ | .collCombine _ | .engineAccept _
  | .engineWriteLand _ | .engineComplete _ | .engineFaultStop _ | .engineFaultDelivery _ | .gcfg _ _ _ _
  | .gld _ _ _ _ _ | .gldHdr _ _ _ _ | .gst _ _ _ _ _ | .gzero _ _ | .gdamp _ _ _ _ _ | .gres _ _ _ _ _
  | .gsolve _ _ _ _ | .rlcstat _ _ | .rlcabort _ _ | .rlcRunStart _ | .rlcFactorColumn _ | .rlcStep _
  | .stgqClr _ _ | .stshal _ _ _ | .stshfr _ _ _ | .stshfrInit _ _ _ | .stgstat _ _ _ | .stgstatStash _ _ _
  | .stageDispatch _ _ _ | .trap _ _ | .eret _ | .csrr _ _ _ | .csrx _ _ _ _ | .icinvWrite _ _
  | .deadlineWrite _ _ | .wdog _ _ _ | .feat _ _ _ | .speed _ _ _ | .plsetPlace _ _ _ _ | .plsetPerm _ _ _ _
  | .activation _ | .stealRequest _ | .stealRetryTimer _ | .stealRequestArrival _ _ | .stealShipment _ _
  | .stealAck _ _ | .transitTimeout _ _ | .transitQueryAnswer _ _ | .loadExchange _ | .rootDelivery _
  | .launchServicePost _ _ | .idleTreeSample _ | .deadlinePass _ | .waitTimeout _ _ | .watchdog _
  | .stuckTimerExpiry _ _ _ _ | .injectionLimitLift _ _ | .linkDead _ _ | .rerouteResume | .accessDispatch _ _
  | .accessApply _ _ _ | .closeApply _ _ | .reduceApply _ | .replicaApply _ | .replicaCommit
  | .pageServiceAnswer _ _ | .tsliceExpiry _ | .tenantSwitch _ | .selfTestStart _ | .selfTestEnd _ _
  | .clusterRetirement _ | .uncorrectableRead _ _ | .sublinkDown _ _ | .scaleupMessage _ _ _ _ _ _ | .boot
  | .governorSample _ | .usageRecord _ | .frameScrub _ | .featuresOk _ _ | .launch _ _ | .memmapMap _ _ _ _ _ _
  | .memmapUnmap _ _ _ _ _ | .memmapRange _ _ _ _ _ _ | .memmapProcess _ _ _ _ _ | .query _ | .usage _ _ _
  | .restore _ _ _ | .keep _ | .create _ _ | .destroy _ _ _ | .bind _ _ _ _ _ _ | .unbind _ _ _ _ _
  | .restitch _ _ _ _ | .sublink _ _ _ _ | .fwact _ _ | .powercap _ _ | .quote _ _ | .period _ _ _
  | .recover _ _ | .illegalEncoding _ | .scaleupFlit _ _ _ _ | .usageQueueTake _ => true

end Sys2Proof
end

