-- ==== Sys2Proof/Decode.lean ====
section
/-! DEFINITION. Decoding (07 R82-R94 and the encoding tables of the instruction chapters), total on every word and
rejecting by name; and the encoder, written from the same tables. Word 0 is split into its fields once (`W0.ofNat`)
and put together once (`W0.toNat`); everything else works on the fields. -/

namespace Sys2Proof

/-! ### Word 0 (07 R85) -/

/-- The fields of word 0, as numbers. -/
structure W0 where
  len : Nat
  op : Nat
  fn : Nat
  d : Nat
  a : Nat
  b : Nat
  gk : Nat
  gi : Nat
  x : Nat
  i : Nat
deriving DecidableEq, Repr

/-- The fields of a 64-bit word (07 R85). -/
def W0.ofNat (w : Nat) : W0 where
  len := bitsAt w 0 2
  op := bitsAt w 2 6
  fn := bitsAt w 8 6
  d := bitsAt w 14 6
  a := bitsAt w 20 6
  b := bitsAt w 26 6
  gk := bitsAt w 32 3
  gi := bitsAt w 35 1
  x := bitsAt w 36 4
  i := bitsAt w 40 24

/-- The word with these fields. -/
def W0.toNat (f : W0) : Nat :=
  f.len + 2 ^ 2 * f.op + 2 ^ 8 * f.fn + 2 ^ 14 * f.d + 2 ^ 20 * f.a + 2 ^ 26 * f.b + 2 ^ 32 * f.gk
    + 2 ^ 35 * f.gi + 2 ^ 36 * f.x + 2 ^ 40 * f.i

/-- Every field is in its range. -/
def W0.Bounded (f : W0) : Prop :=
  f.len < 4 ∧ f.op < 64 ∧ f.fn < 64 ∧ f.d < 64 ∧ f.a < 64 ∧ f.b < 64 ∧ f.gk < 8 ∧ f.gi < 2 ∧ f.x < 16
    ∧ f.i < 2 ^ 24

/-- The parts of bits 63:40 in the C layout (07 R86). -/
structure CLay where
  c : Nat
  ak : Nat
  bk : Nat
  dk : Nat
  sub : Nat
deriving DecidableEq, Repr

/-- The C layout read from the 24 bits of I. -/
def CLay.ofNat (i : Nat) : CLay where
  c := bitsAt i 0 6
  ak := bitsAt i 6 2
  bk := bitsAt i 8 2
  dk := bitsAt i 10 2
  sub := bitsAt i 12 12

/-- The C layout as the 24 bits of I. -/
def CLay.toNat (l : CLay) : Nat := l.c + 2 ^ 6 * l.ak + 2 ^ 8 * l.bk + 2 ^ 10 * l.dk + 2 ^ 12 * l.sub

/-- Every part is in its range. -/
def CLay.Bounded (l : CLay) : Prop := l.c < 64 ∧ l.ak < 4 ∧ l.bk < 4 ∧ l.dk < 4 ∧ l.sub < 4096

/-- The second part of a 128-bit instruction (07 R93). -/
def Eng.ofNat (h : Nat) : Eng where
  place := BitVec.ofNat 16 (bitsAt h 0 16)
  pblk := BitVec.ofNat 16 (bitsAt h 16 16)
  wsem := BitVec.ofNat 8 (bitsAt h 32 8)
  wthr := BitVec.ofNat 12 (bitsAt h 40 12)
  ssem := BitVec.ofNat 8 (bitsAt h 52 8)
  sinc := BitVec.ofNat 4 (bitsAt h 60 4)

/-- The second part as a number. -/
def Eng.toNat (e : Eng) : Nat :=
  e.place.toNat + 2 ^ 16 * e.pblk.toNat + 2 ^ 32 * e.wsem.toNat + 2 ^ 40 * e.wthr.toNat + 2 ^ 52 * e.ssem.toNat
    + 2 ^ 60 * e.sinc.toNat

/-! ### Codes -/

/-- The X code of an element format (07 R89). -/
def XT.code : XT → Nat
  | .i64 => 0 | .i32 => 1 | .i16 => 2 | .i8 => 3 | .z64 => 4 | .z32 => 5 | .z16 => 6 | .z8 => 7
  | .f32 => 8 | .f16 => 9 | .bf16 => 10 | .f64 => 11 | .e4m3 => 12 | .e5m2 => 13

/-- The element format of an X code (07 R89); 0xE is reserved and 0xF is planed. -/
def XT.ofCode : Nat → Option XT
  | 0 => some .i64 | 1 => some .i32 | 2 => some .i16 | 3 => some .i8 | 4 => some .z64 | 5 => some .z32
  | 6 => some .z16 | 7 => some .z8 | 8 => some .f32 | 9 => some .f16 | 10 => some .bf16 | 11 => some .f64
  | 12 => some .e4m3 | 13 => some .e5m2 | _ => none

/-- The number of a control register (07 R100). -/
def Csr.number : Csr → Nat
  | .hid => 0x001 | .wid => 0x002 | .wfw => 0x003 | .self => 0x004 | .part => 0x005 | .speed => 0x006
  | .feat => 0x007 | .fpstat => 0x008 | .fpmode => 0x009 | .xferid => 0x00A | .holdst => 0x00B
  | .deadline => 0x00C | .wdog => 0x00D | .lostcnt => 0x00E | .icinv => 0x00F | .utvec => 0x010
  | .utmask => 0x011 | .cause => 0x012 | .epc => 0x013 | .tval => 0x014 | .stvec => 0x100

/-- The control register of a number (07 R100). -/
def Csr.ofNumber (n : Nat) : Option Csr :=
  match n with
  | 0x001 => some .hid | 0x002 => some .wid | 0x003 => some .wfw | 0x004 => some .self | 0x005 => some .part
  | 0x006 => some .speed | 0x007 => some .feat | 0x008 => some .fpstat | 0x009 => some .fpmode
  | 0x00A => some .xferid | 0x00B => some .holdst | 0x00C => some .deadline | 0x00D => some .wdog
  | 0x00E => some .lostcnt | 0x00F => some .icinv | 0x010 => some .utvec | 0x011 => some .utmask
  | 0x012 => some .cause | 0x013 => some .epc | 0x014 => some .tval | 0x100 => some .stvec | _ => none

/-- CC of `cmp` (08 R114). -/
def Cond.code : Cond → Nat
  | .eq => 0 | .ne => 1 | .lt => 2 | .ge => 3 | .le => 4 | .gt => 5
/-- The relation of a CC of `cmp`. -/
def Cond.ofCode : Nat → Option Cond
  | 0 => some .eq | 1 => some .ne | 2 => some .lt | 3 => some .ge | 4 => some .le | 5 => some .gt | _ => none
/-- CC of `fcmp` (08 R117). -/
def FCond.code : FCond → Nat
  | .eq => 0 | .lt => 1 | .le => 2 | .un => 3 | .ne => 4
/-- The relation of a CC of `fcmp`. -/
def FCond.ofCode : Nat → Option FCond
  | 0 => some .eq | 1 => some .lt | 2 => some .le | 3 => some .un | 4 => some .ne | _ => none
/-- CC of `vcmp` (12 R174). -/
def VCond.code : VCond → Nat
  | .int c => c.code
  | .flt c => c.code
/-- MODE of `fsgn` (08 R117). -/
def SignMode.code : SignMode → Nat
  | .cpy => 0 | .neg => 1 | .xor => 2
/-- The mode of a MODE of `fsgn`. -/
def SignMode.ofCode : Nat → Option SignMode
  | 0 => some .cpy | 1 => some .neg | 2 => some .xor | _ => none
/-- SP of an atomic (10 R162). -/
def Space.code : Space → Nat
  | .cp => 0 | .cm => 1 | .oc => 2 | .gv => 3
/-- The window of an SP or SPACE. -/
def Space.ofCode : Nat → Space
  | 0 => .cp | 1 => .cm | 2 => .oc | _ => .gv
/-- AOP of `atom` (10 R162). -/
def AtomOp.code : AtomOp → Nat
  | .add => 0 | .and => 1 | .or => 2 | .xor => 3 | .min => 4 | .max => 5 | .swap => 6 | .fadd => 7
/-- The operation of an AOP. -/
def AtomOp.ofCode : Nat → AtomOp
  | 0 => .add | 1 => .and | 2 => .or | 3 => .xor | 4 => .min | 5 => .max | 6 => .swap | _ => .fadd
/-- ROP of `vred` and `vscan` (12 R181). -/
def RedOp.code : RedOp → Nat
  | .add => 0 | .min => 1 | .max => 2 | .and => 3 | .or => 4 | .xor => 5
/-- The reduction of an ROP; 6 and 7 have none. -/
def RedOp.ofCode : Nat → Option RedOp
  | 0 => some .add | 1 => some .min | 2 => some .max | 3 => some .and | 4 => some .or | 5 => some .xor | _ => none
/-- FROM and TO of `fence` (14 R210). -/
def FenceClass.code : FenceClass → Nat
  | .core => 0 | .cce => 1 | .bds => 2 | .bte => 3 | .coll => 4 | .mbx => 5 | .all => 6
/-- The class of a FROM or TO; 7 is reserved. -/
def FenceClass.ofCode : Nat → Option FenceClass
  | 0 => some .core | 1 => some .cce | 2 => some .bds | 3 => some .bte | 4 => some .coll | 5 => some .mbx
  | 6 => some .all | _ => none
/-- SCOPE of `fence` (14 R210). -/
def FenceScope.code : FenceScope → Nat
  | .core => 0 | .cluster => 1 | .partition => 2 | .system => 3
/-- The scope of a SCOPE. -/
def FenceScope.ofCode : Nat → FenceScope
  | 0 => .core | 1 => .cluster | 2 => .partition | _ => .system

/-! ### Checked field readers: each answers the field's meaning or why it has none (07 R94) -/

/-- The result of decoding: an instruction or the reason there is none. -/
abbrev Dec (α : Type) := Except BadEncoding α

/-- The check `c`, rejected as `e`. -/
def chk (c : Bool) (e : BadEncoding) : Dec Unit := if c then .ok () else .error e

/-- An option, rejected as `e` when absent. -/
def getD? {α : Type} (o : Option α) (e : BadEncoding) : Dec α :=
  match o with
  | some a => .ok a
  | none => .error e

/-- The guard of word 0. -/
def W0.guard (f : W0) : Guard := ⟨f.gi == 1, Fin.ofNat 8 f.gk⟩

/-- A scalar register field. -/
def toReg (n : Nat) : Reg := Fin.ofNat 64 n

/-- A vector register field: 32 to 63 raise ILLEGAL-ENCODING (07 R97). -/
def toV (n : Nat) : Dec VReg := if n < 32 then .ok (Fin.ofNat 32 n) else .error .register

/-- A field that names one of `m` things: a larger value raises ILLEGAL-ENCODING (07 R97, R99). -/
def toFin (m : Nat) [NeZero m] (n : Nat) : Dec (Fin m) :=
  if n < m then .ok (Fin.ofNat m n) else .error .register

/-- An operand with its kind (07 R87). -/
def toOpnd (kind n : Nat) : Dec Opnd :=
  match kind with
  | 0 => .ok (.reg (toReg n))
  | 1 => if n < 4 then .ok (.lq (Fin.ofNat 4 n)) else if n = 4 then .ok .nE else if n = 5 then .ok .nW
         else .error .kind
  | _ => .error .kind

/-- A link destination L (08 R107): lq0 to lq3 raise ILLEGAL-ENCODING. -/
def toL (kind n : Nat) : Dec Opnd := do
  let o ← toOpnd kind n
  chk o.isL .kind
  return o

/-- The B operand of a vector instruction (12 R172). -/
def toVSrc (sb kind n : Nat) : Dec VSrc :=
  if sb = 1 then do return .sca (← toOpnd kind n)
  else do
    chk (kind == 0) .kind
    return .vec (← toV n)

/-- The kind of an operand. -/
def Opnd.kind : Opnd → Nat
  | .reg _ => 0
  | _ => 1

/-- The field value of an operand. -/
def Opnd.field : Opnd → Nat
  | .reg r => r.val
  | .lq q => q.val
  | .nE => 4
  | .nW => 5

/-- SB of a vector B operand. -/
def VSrc.sb : VSrc → Nat
  | .vec _ => 0
  | .sca _ => 1
/-- Kind of a vector B operand. -/
def VSrc.kind : VSrc → Nat
  | .vec _ => 0
  | .sca o => o.kind
/-- Field value of a vector B operand. -/
def VSrc.field : VSrc → Nat
  | .vec v => v.val
  | .sca o => o.field

/-- An X code that some instruction's table lists as `ok`. -/
def W0.xt (f : W0) (ok : XT → Bool) : Dec XT := do
  let x ← getD? (XT.ofCode f.x) .xcode
  chk (ok x) .xcode
  return x

/-- The format of a matrix operand, PSPEC standing in bits 63:55 (07 R90), here bits 11:3 of SUB. -/
def W0.mfmt (f : W0) (sub : Nat) : Dec MFmt :=
  if f.x = 15 then
    let m := MFmt.planed (Fin.ofNat 16 (bitsAt sub 8 4)) (Fin.ofNat 16 (bitsAt sub 4 4)) (bitAt sub 3)
    do chk m.wf .field
       return m
  else do
    chk (bitsAt sub 3 9 == 0) .reserved
    return .plain (← f.xt XT.isMat)

/-- The X code of a matrix format. -/
def MFmt.xcode : MFmt → Nat
  | .plain x => x.code
  | .planed _ _ _ => 15

/-- PSPEC as bits 11:3 of SUB. -/
def MFmt.pspec : MFmt → Nat
  | .plain _ => 0
  | .planed d k c => 2 ^ 3 * b2n c + 2 ^ 4 * k.val + 2 ^ 8 * d.val

/-- All of the listed fields are zero. -/
def zeros (l : List Nat) : Dec Unit := chk (l.all (· == 0)) .reserved

/-- The I field as 24 bits. -/
def W0.imm (f : W0) : BitVec 24 := BitVec.ofNat 24 f.i

/-! ### One decoder for each OP (07 R104), on the fields of word 0 and, where the length allows, the second part -/

/-- OP 0x00 but for the all-zero word. -/
def decMisc (f : W0) : Dec Instr :=
  match f.fn with
  | 1 => do zeros [f.d, f.a, f.b, f.x, f.i]; return .endPart f.guard
  | 0 => .error .function
  | _ => .error .function

/-- An integer register form (08 R112). -/
def decInt3 (f : W0) (ok : XT → Bool) (mk : Guard → XT → Opnd → Opnd → Opnd → Instr) : Dec Instr := do
  let l := CLay.ofNat f.i
  zeros [l.c, l.sub]
  let x ← f.xt ok
  let d ← toL l.dk f.d
  let a ← toOpnd l.ak f.a
  let b ← toOpnd l.bk f.b
  return mk f.guard x d a b

/-- OP 0x01 (08 R112). -/
def decIntReg (f : W0) : Dec Instr :=
  match f.fn with
  | 0x00 => decInt3 f XT.isInt .add
  | 0x01 => decInt3 f XT.isInt .sub
  | 0x02 => decInt3 f XT.isInt .mul
  | 0x03 => decInt3 f XT.isSigned .mulh
  | 0x04 => decInt3 f XT.isUnsigned .mulhz
  | 0x05 => decInt3 f XT.isSigned .div
  | 0x06 => decInt3 f XT.isUnsigned .divz
  | 0x07 => decInt3 f XT.isSigned .rem
  | 0x08 => decInt3 f XT.isUnsigned .remz
  | 0x09 => decInt3 f XT.isInt .and
  | 0x0A => decInt3 f XT.isInt .or
  | 0x0B => decInt3 f XT.isInt .xor
  | 0x0C => decInt3 f XT.isInt .andn
  | 0x0D => decInt3 f XT.isInt .shl
  | 0x0E => decInt3 f XT.isInt .shr
  | 0x0F => decInt3 f XT.isInt .sra
  | 0x10 => decInt3 f XT.isInt .rol
  | 0x11 => decInt3 f XT.isSigned .min
  | 0x12 => decInt3 f XT.isSigned .max
  | 0x13 => decInt3 f XT.isUnsigned .minz
  | 0x14 => decInt3 f XT.isUnsigned .maxz
  | _ => .error .function

/-- An integer immediate form (08 R112). -/
def decInt2 (f : W0) (mk : Guard → XT → Reg → Reg → BitVec 24 → Instr) : Dec Instr := do
  zeros [f.b]
  let x ← f.xt XT.isInt
  return mk f.guard x (toReg f.d) (toReg f.a) f.imm

/-- OP 0x02 (08 R112). -/
def decIntImm (f : W0) : Dec Instr :=
  match f.fn with
  | 0x00 => decInt2 f .addi
  | 0x01 => decInt2 f .andi
  | 0x02 => decInt2 f .ori
  | 0x03 => decInt2 f .xori
  | 0x04 => decInt2 f .shli
  | 0x05 => decInt2 f .shri
  | 0x06 => decInt2 f .srai
  | 0x07 => decInt2 f .roli
  | 0x08 => decInt2 f .muli
  | _ => .error .function

/-- One typed source and an L destination in the C layout: `mov`, `clz`, `ctz`, `popc`, `sext`, `zext`, `fsqrt`,
`fclass`. -/
def decUn (f : W0) (ok : XT → Bool) (mk : Guard → XT → Opnd → Opnd → Instr) : Dec Instr := do
  let l := CLay.ofNat f.i
  zeros [f.b, l.c, l.bk, l.sub]
  let x ← f.xt ok
  let d ← toL l.dk f.d
  let a ← toOpnd l.ak f.a
  return mk f.guard x d a

/-- OP 0x03 (08 R114). -/
def decMove (f : W0) (hi : Nat) : Dec Instr :=
  match f.fn with
  | 0x00 => do zeros [f.a, f.b, f.x, f.i]; return .movi f.guard (toReg f.d) (BitVec.ofNat 32 hi)
  | 0x01 => do zeros [f.a, f.b, f.x, f.i]; return .movw f.guard (toReg f.d) (BitVec.ofNat 32 hi)
  | 0x02 => decUn f XT.isInt .mov
  | 0x03 => do
    let l := CLay.ofNat f.i
    zeros [f.x, l.c]
    let d ← toL l.dk f.d
    let a ← toOpnd l.ak f.a
    let b ← toOpnd l.bk f.b
    return .lea f.guard d a b (Fin.ofNat 4 (bitsAt l.sub 10 2)) (BitVec.ofNat 10 (bitsAt l.sub 0 10))
  | 0x04 => do zeros [f.a, f.b, f.x, f.i]; return .rdtick f.guard (toReg f.d)
  | _ => .error .function

/-- OP 0x04 (08 R114). -/
def decCmp (f : W0) : Dec Instr :=
  match f.fn with
  | 0x00 => do
    let l := CLay.ofNat f.i
    zeros [l.c, l.dk, bitsAt l.sub 0 8]
    let x ← f.xt XT.isInt
    let cc ← getD? (Cond.ofCode (bitsAt l.sub 8 4)) .field
    let kd ← toFin 8 f.d
    let a ← toOpnd l.ak f.a
    let b ← toOpnd l.bk f.b
    return .cmp f.guard x kd cc a b
  | 0x01 => do
    let l := CLay.ofNat f.i
    zeros [f.x, l.sub]
    let d ← toL l.dk f.d
    let a ← toOpnd l.ak f.a
    let b ← toOpnd l.bk f.b
    let kc ← toFin 8 l.c
    return .sel f.guard d a b kc
  | 0x02 => decUn f XT.isInt .clz
  | 0x03 => decUn f XT.isInt .ctz
  | 0x04 => decUn f XT.isInt .popc
  | 0x05 => do
    let l := CLay.ofNat f.i
    zeros [f.b, l.c, l.bk]
    let x ← f.xt (fun x => x == .i64 || x == .z64)
    let d ← toL l.dk f.d
    let a ← toOpnd l.ak f.a
    let pos := bitsAt l.sub 6 6
    let lm1 := bitsAt l.sub 0 6
    chk (pos + lm1 ≤ 63) .field
    return .bfx f.guard x d a (Fin.ofNat 64 pos) (Fin.ofNat 64 lm1)
  | 0x06 => do
    let l := CLay.ofNat f.i
    zeros [f.x, f.b, l.c, l.bk, l.dk]
    let a ← toOpnd l.ak f.a
    let pos := bitsAt l.sub 6 6
    let lm1 := bitsAt l.sub 0 6
    chk (pos + lm1 ≤ 63) .field
    return .bfi f.guard (toReg f.d) a (Fin.ofNat 64 pos) (Fin.ofNat 64 lm1)
  | 0x07 => decUn f XT.isSigned .sext
  | 0x08 => decUn f XT.isUnsigned .zext
  | _ => .error .function

/-- OP 0x05 (08 R117). -/
def decFp (f : W0) : Dec Instr :=
  match f.fn with
  | 0x00 => decInt3 f XT.isFp .fadd
  | 0x01 => decInt3 f XT.isFp .fsub
  | 0x02 => decInt3 f XT.isFp .fmul
  | 0x03 => do
    let l := CLay.ofNat f.i
    zeros [l.sub]
    let x ← f.xt XT.isFp
    let d ← toL l.dk f.d
    let a ← toOpnd l.ak f.a
    let b ← toOpnd l.bk f.b
    return .fma f.guard x d a b (toReg l.c)
  | 0x04 => decInt3 f XT.isFp .fdiv
  | 0x05 => decUn f XT.isFp .fsqrt
  | 0x06 => decInt3 f XT.isFp .fmin
  | 0x07 => decInt3 f XT.isFp .fmax
  | 0x08 => do
    let l := CLay.ofNat f.i
    zeros [l.c, l.dk, bitsAt l.sub 0 8]
    let x ← f.xt XT.isFp
    let cc ← getD? (FCond.ofCode (bitsAt l.sub 8 4)) .field
    let kd ← toFin 8 f.d
    let a ← toOpnd l.ak f.a
    let b ← toOpnd l.bk f.b
    return .fcmp f.guard x kd cc a b
  | 0x09 => do
    let l := CLay.ofNat f.i
    zeros [f.b, l.c, l.bk, bitsAt l.sub 0 8]
    let x ← f.xt (fun _ => true)
    let fr ← getD? (XT.ofCode (bitsAt l.sub 8 4)) .xcode
    chk (!(x.isInt && fr.isInt)) .xcode
    let d ← toL l.dk f.d
    let a ← toOpnd l.ak f.a
    return .fcvt f.guard x fr d a
  | 0x0A => do
    let l := CLay.ofNat f.i
    zeros [l.c, bitsAt l.sub 0 10]
    let x ← f.xt XT.isFloat
    let m ← getD? (SignMode.ofCode (bitsAt l.sub 10 2)) .field
    let d ← toL l.dk f.d
    let a ← toOpnd l.ak f.a
    let b ← toOpnd l.bk f.b
    return .fsgn f.guard x m d a b
  | 0x0B => decUn f XT.isFloat .fclass
  | _ => .error .function

/-- OP 0x06 (08 R123). -/
def decControl (f : W0) : Dec Instr :=
  match f.fn with
  | 0x00 => do zeros [f.d, f.a, f.b, f.x]; return .br f.guard f.imm
  | 0x01 => do zeros [f.b, f.x]; return .jmp f.guard (toReg f.d) (toReg f.a) f.imm
  | 0x02 => do zeros [f.a, f.b, f.x]; return .call f.guard (toReg f.d) f.imm
  | 0x03 => do zeros [f.d, f.b, f.x, f.i]; return .ret f.guard (toReg f.a)
  | 0x04 => do
    zeros [f.b, f.x]
    let lc ← toFin 2 f.d
    chk (decide (2 ≤ f.imm.toInt)) .field
    return .loop f.guard lc (toReg f.a) f.imm
  | 0x05 => do zeros [f.d, f.a, f.b, f.x, f.i]; return .tret f.guard
  | 0x06 => do
    zeros [f.d, f.b, f.x]
    chk (f.a == 0 || f.i == 0) .field
    return .pause f.guard (toReg f.a) f.imm
  | _ => .error .function

/-- OP 0x07 (08 R130). -/
def decBq (f : W0) : Dec Instr :=
  match f.fn with
  | 0x00 => do
    zeros [f.d, f.b, f.x, f.i]
    let k ← toFin 8 f.a
    return .bqpush f.guard k
  | 0x01 => do
    zeros [f.a, f.b, f.x]
    let s ← toFin 2 f.d
    return .bqbr f.guard (s == 1) f.imm
  | _ => .error .function

/-- A load of OP 0x08 or 0x09 (10 R140), SP being the top bit of SUB where `sp` allows it. -/
def decLoad (f : W0) (sp : Bool) (mk : Guard → XT → Bool → Opnd → Reg → Reg → BitVec 10 → Instr) :
    Dec Instr := do
  let l := CLay.ofNat f.i
  zeros [f.b, l.ak, l.bk, bitsAt l.sub 10 1]
  chk (sp || bitsAt l.sub 11 1 == 0) .reserved
  let x ← f.xt XT.isInt
  let d ← toOpnd l.dk f.d
  return mk f.guard x (bitAt l.sub 11) d (toReg f.a) (toReg l.c) (BitVec.ofNat 10 (bitsAt l.sub 0 10))

/-- A store of OP 0x08 or 0x09 (10 R140). -/
def decStore (f : W0) (sp : Bool) (mk : Guard → XT → Bool → Bool → Reg → Opnd → Reg → BitVec 10 → Instr) :
    Dec Instr := do
  let l := CLay.ofNat f.i
  zeros [f.d, l.ak, l.dk]
  chk (sp || bitsAt l.sub 11 1 == 0) .reserved
  let x ← f.xt XT.isInt
  let b ← toOpnd l.bk f.b
  return mk f.guard x (bitAt l.sub 11) (bitAt l.sub 10) (toReg f.a) b (toReg l.c)
    (BitVec.ofNat 10 (bitsAt l.sub 0 10))

/-- OP 0x08 (10 R140). -/
def decLocal (f : W0) : Dec Instr :=
  match f.fn with
  | 0x00 => decLoad f true .ld
  | 0x01 => decStore f true .st
  | _ => .error .function

/-- OP 0x09 (10 R140). -/
def decRemote (f : W0) : Dec Instr :=
  match f.fn with
  | 0x00 => decLoad f false (fun g x _ d a c n => .ldo g x d a c n)
  | 0x01 => decStore f false (fun g x _ q a b c n => .sto g x q a b c n)
  | 0x02 => decLoad f false (fun g x _ d a c n => .ldg g x d a c n)
  | 0x03 => decStore f false (fun g x _ q a b c n => .stg g x q a b c n)
  | 0x04 => do
    let l := CLay.ofNat f.i
    zeros [f.d, f.b, f.x, l.ak, l.bk, l.dk, bitsAt l.sub 10 2]
    return .pf f.guard (toReg f.a) (toReg l.c) (BitVec.ofNat 10 (bitsAt l.sub 0 10))
  | _ => .error .function

/-- OP 0x0A (10 R162). -/
def decAtomic (f : W0) : Dec Instr :=
  let l := CLay.ofNat f.i
  let sp := Space.ofCode (bitsAt l.sub 10 2)
  let acq := bitAt l.sub 6
  let rel := bitAt l.sub 5
  let pk : Fin 8 := Fin.ofNat 8 (bitsAt l.sub 2 3)
  match f.fn with
  | 0x00 => do
    zeros [l.c, l.ak, l.dk, bitsAt l.sub 0 5]
    let op := AtomOp.ofCode (bitsAt l.sub 7 3)
    let x ← f.xt (fun x => if op = .fadd then x == .f32 else x.isAtomInt)
    let b ← toOpnd l.bk f.b
    return .atom f.guard x sp op acq rel (toReg f.d) (toReg f.a) b
  | 0x01 => do
    zeros [l.ak, l.dk, bitsAt l.sub 0 5, bitsAt l.sub 7 3]
    let x ← f.xt XT.isAtomInt
    let b ← toOpnd l.bk f.b
    return .atomcas f.guard x sp acq rel (toReg f.d) (toReg f.a) b (toReg l.c)
  | 0x02 => do
    zeros [f.b, l.ak, l.bk, l.dk, bitsAt l.sub 0 5, bitsAt l.sub 7 3]
    let x ← f.xt XT.isAtomZ
    return .atomincw f.guard x sp acq rel (toReg f.d) (toReg f.a) (toReg l.c)
  | 0x03 => do
    zeros [l.ak, l.dk, bitsAt l.sub 0 2, bitsAt l.sub 7 3]
    let x ← f.xt XT.isAtomZ
    let b ← toOpnd l.bk f.b
    return .atomfaddb f.guard x sp acq rel (toReg f.d) pk (toReg f.a) b (toReg l.c)
  | 0x04 => do
    zeros [f.d, l.c, l.ak, l.dk, bitsAt l.sub 0 2, bitsAt l.sub 7 3]
    chk (f.x == 4) .xcode
    let b ← toOpnd l.bk f.b
    return .enq f.guard sp acq rel pk (toReg f.a) b
  | 0x05 => do
    zeros [f.b, l.c, l.ak, l.bk, l.dk, bitsAt l.sub 0 2, bitsAt l.sub 7 3]
    chk (f.x == 4) .xcode
    return .deq f.guard sp acq rel (toReg f.d) pk (toReg f.a)
  | _ => .error .function

/-- OP 0x0B (10 R147). -/
def decMessage (f : W0) : Dec Instr :=
  match f.fn with
  | 0x00 => do
    zeros [f.x]
    return .send f.guard (toReg f.d) (toReg f.a) (toReg f.b) (BitVec.ofNat 16 f.i) (BitVec.ofNat 8 (bitsAt f.i 16 8))
  | 0x01 => do
    zeros [f.x]
    return .sendt f.guard (toReg f.d) (toReg f.a) (toReg f.b) (BitVec.ofNat 16 f.i)
      (BitVec.ofNat 8 (bitsAt f.i 16 8))
  | 0x02 => do zeros [f.a, f.b, f.x, f.i]; return .reply f.guard (toReg f.d)
  | 0x03 => do
    zeros [f.b, f.x, bitsAt f.i 6 18]
    return .msend f.guard (toReg f.d) (toReg f.a) (Fin.ofNat 64 f.i)
  | 0x04 => do
    zeros [f.b, f.x, bitsAt f.i 6 18]
    return .msendt f.guard (toReg f.d) (toReg f.a) (Fin.ofNat 64 f.i)
  | _ => .error .function

/-- OP 0x0C (10 R156, R161). -/
def decMailbox (f : W0) : Dec Instr :=
  let mb : Fin 64 := Fin.ofNat 64 (bitsAt f.i 0 6)
  match f.fn with
  | 0x00 => do zeros [f.d, f.b, f.x, bitsAt f.i 6 18]; return .mcfg f.guard (toReg f.a) mb
  | 0x01 => do
    zeros [f.b, f.x]
    let t := BitVec.ofNat 18 (bitsAt f.i 6 18)
    chk (tmoWf (toReg f.a) t) .field
    return .mrecv f.guard (toReg f.d) (toReg f.a) t mb
  | 0x02 => do zeros [f.a, f.b, f.x, bitsAt f.i 6 18]; return .mpeek f.guard (toReg f.d) mb
  | 0x03 => do zeros [f.d, f.b, f.x, bitsAt f.i 6 18]; return .mrel f.guard (toReg f.a) mb
  | 0x04 => do
    zeros [f.d, f.a, f.b, f.x, bitsAt f.i 3 21]
    return .nlink f.guard (bitAt f.i 0) (bitAt f.i 1) (bitAt f.i 2)
  | _ => .error .function

/-- A vector arithmetic form with B and SB (12 R172). -/
def decV3 (f : W0) (ok : XT → Bool) (sat : Bool) (mk : Guard → XT → Bool → VReg → VReg → VSrc → Instr) :
    Dec Instr := do
  let l := CLay.ofNat f.i
  zeros [l.c, l.ak, l.dk, bitsAt l.sub 0 10]
  let x ← f.xt ok
  chk (bitsAt l.sub 10 1 == 0 || (sat && x.isVInt)) .field
  let d ← toV f.d
  let a ← toV f.a
  let b ← toVSrc (bitsAt l.sub 11 1) l.bk f.b
  return mk f.guard x (bitAt l.sub 10) d a b

/-- A vector form of one typed source (12 R172). -/
def decV2 (f : W0) (ok : XT → Bool) (mk : Guard → XT → VReg → VReg → Instr) : Dec Instr := do
  zeros [f.b, f.i]
  let x ← f.xt ok
  let d ← toV f.d
  let a ← toV f.a
  return mk f.guard x d a

/-- OP 0x0D (12 R172). -/
def decVArith (f : W0) : Dec Instr :=
  match f.fn with
  | 0x00 => decV3 f XT.isVArith true .vadd
  | 0x01 => decV3 f XT.isVArith true .vsub
  | 0x02 => decV3 f XT.isVArith false (fun g x _ d a b => .vmul g x d a b)
  | 0x03 => do
    let l := CLay.ofNat f.i
    zeros [l.ak, l.dk, bitsAt l.sub 0 11]
    let x ← f.xt XT.isFp
    let d ← toV f.d
    let a ← toV f.a
    let b ← toVSrc (bitsAt l.sub 11 1) l.bk f.b
    let c ← toV l.c
    return .vfma f.guard x d a b c
  | 0x04 => decV3 f XT.isVArith false (fun g x _ d a b => .vmin g x d a b)
  | 0x05 => decV3 f XT.isVArith false (fun g x _ d a b => .vmax g x d a b)
  | 0x06 => decV2 f (fun x => x.isVSigned || x.isFp) .vabs
  | 0x07 => decV2 f (fun x => x.isVSigned || x.isFp) .vneg
  | 0x08 => decV3 f XT.isVInt false (fun g x _ d a b => .vand g x d a b)
  | 0x09 => decV3 f XT.isVInt false (fun g x _ d a b => .vor g x d a b)
  | 0x0A => decV3 f XT.isVInt false (fun g x _ d a b => .vxor g x d a b)
  | 0x0B => decV3 f XT.isVInt false (fun g x _ d a b => .vshl g x d a b)
  | 0x0C => decV3 f XT.isVInt false (fun g x _ d a b => .vshr g x d a b)
  | 0x0D => decV3 f XT.isVInt false (fun g x _ d a b => .vsra g x d a b)
  | _ => .error .function

/-- CC of `vcmp`, read by the element type (12 R174). -/
def toVCond (x : XT) (n : Nat) : Dec VCond :=
  if x.isVInt then do return .int (← getD? (Cond.ofCode n) .field)
  else do return .flt (← getD? (FCond.ofCode n) .field)

/-- OP 0x0E (12 R174). -/
def decVMisc (f : W0) : Dec Instr :=
  let l := CLay.ofNat f.i
  match f.fn with
  | 0x00 => do
    zeros [l.c, l.ak, l.dk, bitsAt l.sub 0 7]
    let x ← f.xt XT.isVArith
    let cc ← toVCond x (bitsAt l.sub 8 4)
    let kd ← toFin 8 f.d
    let a ← toV f.a
    let b ← toVSrc (bitsAt l.sub 7 1) l.bk f.b
    return .vcmp f.guard x kd cc a b
  | 0x01 => do
    zeros [f.x, l.ak, l.bk, l.dk, l.sub]
    let d ← toV f.d
    let a ← toV f.a
    let b ← toV f.b
    let kc ← toFin 8 l.c
    return .vsel f.guard d a b kc
  | 0x02 => do
    zeros [f.b, l.c, l.ak, l.bk, l.dk, bitsAt l.sub 0 7]
    let x ← f.xt XT.isVElem
    let fr ← getD? (XT.ofCode (bitsAt l.sub 8 4)) .xcode
    chk (fr.isVElem && !(x.isInt && fr.isInt)) .xcode
    let half := bitAt l.sub 7
    chk (!half || ((x == .f64) != (fr == .f64))) .field
    let d ← toV f.d
    let a ← toV f.a
    return .vcvt f.guard x fr half d a
  | 0x03 => do
    zeros [f.b, f.i]
    chk (f.x == 10) .xcode
    let d ← toV f.d
    chk (d.val ≤ 29) .register
    let a ← toV f.a
    return .vsplit f.guard d a
  | 0x04 => do
    zeros [f.b, l.c, l.bk, l.dk, bitsAt l.sub 0 6]
    let x ← f.xt XT.isVElem
    let d ← toV f.d
    if bitAt l.sub 11 then do
      zeros [l.ak]
      let a ← toV f.a
      let lane : Fin 32 := Fin.ofNat 32 (bitsAt l.sub 6 5)
      chk (laneWf x lane) .field
      return .vbcast f.guard x d (.lane a lane)
    else do
      zeros [bitsAt l.sub 6 5]
      let a ← toOpnd l.ak f.a
      return .vbcast f.guard x d (.sca a)
  | 0x05 => do
    zeros [f.b, l.c, l.bk, bitsAt l.sub 0 5]
    let lane : Fin 32 := Fin.ofNat 32 (bitsAt l.sub 5 5)
    match bitsAt l.sub 10 2 with
    | 0 => do
      zeros [f.x, l.ak, l.dk, bitsAt l.sub 5 5]
      let d ← toV f.d
      let a ← toV f.a
      return .vmov f.guard d a
    | 1 => do
      zeros [l.ak]
      let x ← f.xt XT.isVElem
      chk (laneWf x lane) .field
      let d ← toL l.dk f.d
      let a ← toV f.a
      return .vmovLaneToScalar f.guard x d a lane
    | 2 => do
      zeros [l.dk]
      let x ← f.xt XT.isVElem
      chk (laneWf x lane) .field
      let d ← toV f.d
      let a ← toOpnd l.ak f.a
      return .vmovScalarToLane f.guard x d lane a
    | _ => .error .field
  | _ => .error .function

/-- OP 0x0F (12 R176, R178). -/
def decVMem (f : W0) : Dec Instr :=
  let l := CLay.ofNat f.i
  let cm := bitAt l.sub 11
  let disp := BitVec.ofNat 10 (bitsAt l.sub 0 10)
  match f.fn with
  | 0x00 => do
    zeros [f.b, l.c, l.ak, l.bk, l.dk, bitsAt l.sub 10 1]
    let x ← f.xt XT.isVElem
    let d ← toV f.d
    return .vld f.guard x cm d (toReg f.a) disp
  | 0x01 => do
    zeros [f.d, l.c, l.ak, l.bk, l.dk, bitsAt l.sub 10 1]
    let x ← f.xt XT.isVElem
    let b ← toV f.b
    return .vst f.guard x cm (toReg f.a) b disp
  | 0x02 => do
    zeros [l.c, l.ak, l.bk, l.dk, bitsAt l.sub 0 11]
    let x ← f.xt XT.isVElem
    let d ← toV f.d
    let b ← toV f.b
    return .vgath f.guard x cm d (toReg f.a) b
  | 0x03 => do
    zeros [f.d, l.ak, l.bk, l.dk, bitsAt l.sub 0 11]
    let x ← f.xt XT.isVElem
    let b ← toV f.b
    let c ← toV l.c
    return .vscat f.guard x cm (toReg f.a) b c
  | 0x04 => do
    zeros [f.b, f.i]
    let x ← f.xt (fun x => x == .i32 || x == .z32 || x == .f32)
    chk (24 ≤ f.d && f.d < 32) .register
    return .vstream f.guard x (Fin.ofNat 8 (f.d - 24)) (toReg f.a)
  | 0x05 => do
    zeros [f.a, f.b, f.x, f.i]
    chk (24 ≤ f.d && f.d < 32) .register
    return .vstop f.guard (Fin.ofNat 8 (f.d - 24))
  | _ => .error .function

/-- A reduction is defined on the element type (12 R181). -/
def redOk (x : XT) (op : RedOp) : Bool := x.isVInt || op = .add || op = .min || op = .max

/-- OP 0x10 (12 R181). -/
def decVRed (f : W0) : Dec Instr :=
  let l := CLay.ofNat f.i
  match f.fn with
  | 0x00 => do
    zeros [f.x, f.i]
    let d ← toV f.d
    let a ← toV f.a
    let b ← toV f.b
    return .vshuf f.guard d a b
  | 0x01 => do
    zeros [f.b, l.c, l.ak, l.bk, bitsAt l.sub 0 9]
    let x ← f.xt XT.isVArith
    let op ← getD? (RedOp.ofCode (bitsAt l.sub 9 3)) .field
    chk (redOk x op) .field
    let d ← toL l.dk f.d
    let a ← toV f.a
    return .vred f.guard x op d a
  | 0x02 => do
    zeros [f.b, l.c, l.ak, l.bk, l.dk, bitsAt l.sub 0 9]
    let x ← f.xt XT.isVArith
    let op ← getD? (RedOp.ofCode (bitsAt l.sub 9 3)) .field
    chk (redOk x op) .field
    let d ← toV f.d
    let a ← toV f.a
    return .vscan f.guard x op d a
  | _ => .error .function

/-- A latch load (12 R184). -/
def decLatch (f : W0) (mk : Guard → MFmt → Bool → Reg → Reg → Reg → Instr) : Dec Instr := do
  let l := CLay.ofNat f.i
  zeros [f.d, l.ak, l.bk, l.dk, bitsAt l.sub 0 1, bitsAt l.sub 2 1]
  let m ← f.mfmt l.sub
  chk (m.strideWf (toReg l.c)) .reserved
  return mk f.guard m (bitAt l.sub 1) (toReg f.a) (toReg f.b) (toReg l.c)

/-- OP 0x11 (12 R184). -/
def decMatrix (f : W0) : Dec Instr :=
  let l := CLay.ofNat f.i
  match f.fn with
  | 0x00 => do
    zeros [f.a, f.b, l.c, l.ak, l.bk, l.dk, bitsAt l.sub 0 3]
    let m ← f.mfmt l.sub
    let d ← toFin 4 f.d
    return .mma f.guard m d
  | 0x01 => do
    zeros [f.a, f.b, l.c, l.ak, l.bk, l.dk, bitsAt l.sub 0 3]
    let m ← f.mfmt l.sub
    let d ← toFin 4 f.d
    return .mmaz f.guard m d
  | 0x02 => decLatch f .mlda
  | 0x03 => decLatch f .mldb
  | 0x04 => do
    zeros [f.d, l.ak, l.bk, l.dk, bitsAt l.sub 0 1, bitsAt l.sub 2 1]
    let m ← f.mfmt l.sub
    chk (m.strideWf (toReg l.c)) .reserved
    let b ← toV f.b
    return .mgath f.guard m (bitAt l.sub 1) (toReg f.a) b (toReg l.c)
  | 0x05 => do
    zeros [l.c, l.ak, l.bk, l.dk, bitsAt l.sub 0 1, bitsAt l.sub 2 10]
    let x ← f.xt XT.isAccMem
    let d ← toFin 4 f.d
    return .mldacc f.guard x (bitAt l.sub 1) d (toReg f.a) (toReg f.b)
  | 0x06 => do
    zeros [l.c, l.ak, l.bk, l.dk, bitsAt l.sub 0 1]
    let x ← f.xt XT.isAccMem
    let d ← toFin 4 f.d
    return .mstacc f.guard x (bitAt l.sub 1) d (toReg f.a) (toReg f.b) (BitVec.ofNat 8 (bitsAt l.sub 4 8))
      (Fin.ofNat 4 (bitsAt l.sub 2 2))
  | 0x07 => do
    zeros [f.a, f.b, f.x, f.i]
    let d ← toFin 4 f.d
    return .mclr f.guard d
  | 0x08 => do
    zeros [f.d, f.a, f.b, f.x, bitsAt f.i 18 6]
    return .mmask f.guard (Fin.ofNat 32 (bitsAt f.i 0 5)) (Fin.ofNat 32 (bitsAt f.i 5 5))
      (BitVec.ofNat 8 (bitsAt f.i 10 8))
  | _ => .error .function

/-- OP 0x12 (14 R194). -/
def decLb (f : W0) : Dec Instr :=
  let lb : Fin 64 := Fin.ofNat 64 (bitsAt f.i 0 6)
  match f.fn with
  | 0x00 => do zeros [f.d, f.b, f.x, bitsAt f.i 6 18]; return .lbinit f.guard (toReg f.a) lb
  | 0x01 => do zeros [f.d, f.b, f.x, bitsAt f.i 6 18]; return .lbarr f.guard (toReg f.a) lb
  | 0x02 => do zeros [f.d, f.b, f.x, bitsAt f.i 6 18]; return .lbdrop f.guard (toReg f.a) lb
  | 0x03 => do zeros [f.d, f.b, f.x, bitsAt f.i 6 18]; return .lbjoin f.guard (toReg f.a) lb
  | 0x04 => do zeros [f.d, f.b, f.x, bitsAt f.i 6 18]; return .lbexp f.guard (toReg f.a) lb
  | 0x05 => do
    zeros [f.b, f.x]
    let t := BitVec.ofNat 17 (bitsAt f.i 7 17)
    chk (tmoWf (toReg f.a) t) .field
    return .lbwait f.guard (toReg f.d) (toReg f.a) t (bitAt f.i 6) lb
  | 0x06 => do zeros [f.a, f.b, f.x, bitsAt f.i 6 18]; return .lbtest f.guard (toReg f.d) lb
  | _ => .error .function

/-- OP 0x13 (14 R199). -/
def decMsh (f : W0) : Dec Instr :=
  let m : Fin 16 := Fin.ofNat 16 (bitsAt f.i 0 4)
  match f.fn with
  | 0x00 => do zeros [f.d, f.b, f.x, bitsAt f.i 4 20]; return .mshcfg f.guard (toReg f.a) m
  | 0x01 => do zeros [f.d, f.a, f.b, f.x, bitsAt f.i 4 20]; return .mshar f.guard m
  | 0x02 => do
    zeros [f.b, f.x]
    let t := BitVec.ofNat 19 (bitsAt f.i 5 19)
    chk (tmoWf (toReg f.a) t) .field
    return .mshwait f.guard (toReg f.d) (toReg f.a) t (bitAt f.i 4) m
  | 0x03 => do
    zeros [f.a, f.b, f.x, bitsAt f.i 6 18]
    return .mshstat f.guard (toReg f.d) (Fin.ofNat 4 (bitsAt f.i 4 2)) m
  | _ => .error .function

/-- OP 0x14 (14 R202). -/
def decSem (f : W0) : Dec Instr :=
  let s := BitVec.ofNat 8 (bitsAt f.i 0 8)
  match f.fn with
  | 0x00 => do
    zeros [f.x]
    let t := BitVec.ofNat 16 (bitsAt f.i 8 16)
    chk (tmoWf (toReg f.a) t) .field
    return .semwait f.guard (toReg f.d) (toReg f.a) (toReg f.b) t s
  | 0x01 => do zeros [f.d, f.x, bitsAt f.i 8 16]; return .semsig f.guard (toReg f.a) (toReg f.b) s
  | 0x02 => do zeros [f.d, f.b, f.x, bitsAt f.i 8 16]; return .semset f.guard (toReg f.a) s
  | 0x03 => do zeros [f.a, f.b, f.x, bitsAt f.i 8 16]; return .semget f.guard (toReg f.d) s
  | _ => .error .function

/-- OP 0x15 (14 R204). -/
def decHold (f : W0) : Dec Instr :=
  let bit0 := bitAt f.i 0
  match f.fn with
  | 0x00 => do zeros [f.d, f.b, f.x, f.i]; return .declare f.guard (toReg f.a)
  | 0x01 => do zeros [f.d, f.a, f.b, f.x, f.i]; return .hold f.guard
  | 0x02 => do zeros [f.b, f.x, f.i]; return .holdx f.guard (toReg f.d) (toReg f.a)
  | 0x03 => do
    zeros [f.b, f.x, bitsAt f.i 1 23]
    return if bit0 then .relEnd f.guard (toReg f.d) (toReg f.a) else .rel f.guard (toReg f.d) (toReg f.a)
  | 0x04 => do
    zeros [f.b, f.x, bitsAt f.i 1 23]
    return if bit0 then .holdstObj f.guard (toReg f.d) (toReg f.a) else .holdst f.guard (toReg f.d) (toReg f.a)
  | 0x05 => do
    zeros [f.d, f.b, f.x, bitsAt f.i 1 23]
    return if bit0 then .dlineRel f.guard (toReg f.a) else .dline f.guard (toReg f.a)
  | _ => .error .function

/-- OP 0x16 (14 R210). -/
def decFence (f : W0) : Dec Instr :=
  match f.fn with
  | 0x00 => do
    zeros [f.d, f.a, f.b, f.x, bitsAt f.i 8 16]
    let fr ← getD? (FenceClass.ofCode (bitsAt f.i 0 3)) .field
    let tt ← getD? (FenceClass.ofCode (bitsAt f.i 3 3)) .field
    return .fence f.guard fr tt (FenceScope.ofCode (bitsAt f.i 6 2))
  | _ => .error .function

/-- OP 0x17 (14 R211). -/
def decTask (f : W0) : Dec Instr :=
  match f.fn with
  | 0x00 => do zeros [f.d, f.x, f.i]; return .spawn f.guard (toReg f.a) (toReg f.b)
  | 0x01 => do zeros [f.a, f.b, f.x, f.i]; return .dist f.guard (toReg f.d)
  | 0x02 => do
    zeros [f.b, f.x, bitsAt f.i 3 21]
    let fld ← toFin 6 (bitsAt f.i 0 3)
    return .widx f.guard (toReg f.d) (toReg f.a) fld
  | 0x03 => do
    zeros [f.d, f.b, f.x, bitsAt f.i 4 20]
    let tc : Fin 16 := Fin.ofNat 16 (bitsAt f.i 0 4)
    return if f.a = 0 then .trigDisarm f.guard tc else .trig f.guard (toReg f.a) tc
  | 0x04 => do zeros [f.d, f.x, f.i]; return .trigd f.guard (toReg f.a) (toReg f.b)
  | _ => .error .function

/-- An engine instruction (14 R214). -/
def decEng (f : W0) (hi : Nat) (mk : Guard → Eng → Instr) : Dec Instr := do
  zeros [f.d, f.a, f.b, f.x, f.i]
  let e := Eng.ofNat hi
  chk e.wf .reserved
  return mk f.guard e

/-- An engine instruction that names a ring (14 R214). -/
def decEngRing (f : W0) (hi : Nat) (mk : Guard → Fin 16 → Eng → Instr) : Dec Instr := do
  zeros [f.d, f.a, f.b, f.x, bitsAt f.i 4 20]
  let e := Eng.ofNat hi
  chk e.wf .reserved
  return mk f.guard (Fin.ofNat 16 (bitsAt f.i 0 4)) e

/-- OP 0x18 (14 R214). -/
def decCopy (f : W0) (hi : Nat) : Dec Instr :=
  match f.fn with
  | 0x00 => decEng f hi .cpy
  | 0x01 => decEng f hi .cpyr
  | 0x02 => decEng f hi .cpym
  | _ => .error .function

/-- OP 0x19 (14 R214). -/
def decStreamer (f : W0) (hi : Nat) : Dec Instr :=
  match f.fn with
  | 0x00 => decEngRing f hi .subscribe
  | 0x01 => decEngRing f hi .drain
  | 0x02 => decEngRing f hi .unsub
  | _ => .error .function

/-- OP 0x1A (14 R214). -/
def decEdge (f : W0) (hi : Nat) : Dec Instr :=
  match f.fn with
  | 0x00 => decEng f hi .bte
  | 0x01 => decEng f hi .coll
  | 0x02 => decEng f hi .xfer
  | _ => .error .function

/-- OP 0x1B (18 R259). -/
def decGmu (f : W0) : Dec Instr :=
  let n : Fin 32 := Fin.ofNat 32 (bitsAt f.i 0 5)
  let n5 : Fin 32 := Fin.ofNat 32 (bitsAt f.i 5 5)
  match f.fn with
  | 0x00 => do zeros [f.x, f.i]; return .gcfg f.guard (toReg f.d) (toReg f.a) (toReg f.b)
  | 0x01 => do
    zeros [f.b, bitsAt f.i 7 17]
    chk (f.x == 8) .xcode
    let d ← toFin 4 f.d
    if bitAt f.i 6 then do
      zeros [bitsAt f.i 0 5]
      return .gldHdr f.guard d (toReg f.a) (bitAt f.i 5)
    else return .gld f.guard d (toReg f.a) n (bitAt f.i 5)
  | 0x02 => do
    zeros [f.d, bitsAt f.i 6 18]
    chk (f.x == 8) .xcode
    let b ← toFin 4 f.b
    return .gst f.guard (toReg f.a) b n (bitAt f.i 5)
  | 0x03 => do
    zeros [f.a, f.b, f.x, f.i]
    let d ← toFin 4 f.d
    return .gzero f.guard d
  | 0x04 => do
    zeros [f.b, f.x, bitsAt f.i 10 14]
    let d ← toFin 4 f.d
    let a ← toFin 4 f.a
    chk (n5.val + n.val + 1 ≤ 32) .field
    return .gaddp f.guard d a n n5
  | 0x05 => do
    zeros [f.b, f.x, bitsAt f.i 13 11]
    let d ← toFin 4 f.d
    let a ← toFin 4 f.a
    let km1 : Fin 8 := Fin.ofNat 8 (bitsAt f.i 10 3)
    chk (n5.val + km1.val + 1 ≤ n.val + 1 && n.val + 1 - (km1.val + 1) ≤ 24) .field
    return .gschur f.guard d a n n5 km1
  | 0x06 => do
    zeros [f.b, f.x, bitsAt f.i 11 13]
    let d ← toFin 4 f.d
    let a ← toFin 4 f.a
    return .gdamp f.guard d a n (Fin.ofNat 64 (bitsAt f.i 5 6))
  | 0x07 => do
    zeros [f.x, bitsAt f.i 5 19]
    let a ← toFin 4 f.a
    let b ← toFin 4 f.b
    return .gres f.guard (toReg f.d) a b n
  | 0x08 => do
    let l := CLay.ofNat f.i
    zeros [f.x, l.ak, l.bk, l.dk]
    let b ← toFin 4 f.b
    let nm1 : Fin 32 := Fin.ofNat 32 (bitsAt l.sub 0 5)
    chk (nm1.val ≤ 13) .field
    return .gsend f.guard (toReg f.d) (toReg f.a) b (toReg l.c) (bitAt l.sub 11)
      (Fin.ofNat 64 (bitsAt l.sub 5 6)) nm1
  | 0x09 => do
    zeros [f.b, f.x, bitsAt f.i 5 19]
    let d ← toFin 4 f.d
    let a ← toFin 4 f.a
    return .gsolve f.guard d a n
  | _ => .error .function

/-- OP 0x1C (18 R268). -/
def decRlc (f : W0) (hi : Nat) : Dec Instr :=
  match f.fn with
  | 0x00 => decEng f hi .rlcrun
  | 0x01 => do zeros [f.a, f.b, f.x, f.i]; return .rlcstat f.guard (toReg f.d)
  | 0x02 => do zeros [f.a, f.b, f.x, f.i]; return .rlcabort f.guard (toReg f.d)
  | _ => .error .function

/-- OP 0x1D (20 R286). -/
def decStage (f : W0) : Dec Instr :=
  let ss : Fin 64 := Fin.ofNat 64 (bitsAt f.i 0 6)
  match f.fn with
  | 0x00 => do
    zeros [f.b, f.x, bitsAt f.i 8 16]
    let stg := BitVec.ofNat 8 (bitsAt f.i 0 8)
    chk (stg != 0) .field
    return .stgdecl f.guard (toReg f.d) (toReg f.a) stg
  | 0x01 => do
    zeros [f.d, f.a, f.b, f.x, bitsAt f.i 19 5]
    let stg := BitVec.ofNat 8 (bitsAt f.i 6 8)
    if bitAt f.i 18 then do
      zeros [bitsAt f.i 6 12]
      return .stgqClr f.guard ss
    else do
      chk (stg != 0) .field
      return .stgq f.guard ss stg (Fin.ofNat 16 (bitsAt f.i 14 4))
  | 0x02 => do zeros [f.a, f.b, f.x, bitsAt f.i 6 18]; return .stshal f.guard (toReg f.d) ss
  | 0x03 => do
    zeros [f.d, f.b, f.x, bitsAt f.i 7 17]
    return if bitAt f.i 6 then .stshfrInit f.guard (toReg f.a) ss else .stshfr f.guard (toReg f.a) ss
  | 0x04 => do
    zeros [f.a, f.b, f.x, bitsAt f.i 9 15]
    if bitAt f.i 8 then do
      zeros [bitsAt f.i 6 2]
      return .stgstatStash f.guard (toReg f.d) ss
    else return .stgstat f.guard (toReg f.d) (BitVec.ofNat 8 (bitsAt f.i 0 8))
  | _ => .error .function

/-- OP 0x1E (22 R317). A `csrw` of ICINV or DEADLINE is the event of its own row. -/
def decSystem (f : W0) : Dec Instr :=
  match f.fn with
  | 0x00 => do zeros [f.d, f.a, f.b, f.x]; return .trap f.guard f.imm
  | 0x01 => do zeros [f.d, f.a, f.b, f.x, f.i]; return .eret f.guard
  | 0x02 => do
    zeros [f.a, f.b, f.x, bitsAt f.i 12 12]
    let n ← getD? (Csr.ofNumber (bitsAt f.i 0 12)) .field
    return .csrr f.guard (toReg f.d) n
  | 0x03 => do
    zeros [f.d, f.b, f.x, bitsAt f.i 12 12]
    let n ← getD? (Csr.ofNumber (bitsAt f.i 0 12)) .field
    return if n = .icinv then .icinvWrite f.guard (toReg f.a)
      else if n = .deadline then .deadlineWrite f.guard (toReg f.a)
      else .csrw f.guard (toReg f.a) n
  | 0x04 => do
    zeros [f.b, f.x, bitsAt f.i 12 12]
    let n ← getD? (Csr.ofNumber (bitsAt f.i 0 12)) .field
    return .csrx f.guard (toReg f.d) (toReg f.a) n
  | 0x05 => do zeros [f.b, f.x, f.i]; return .wdog f.guard (toReg f.d) (toReg f.a)
  | 0x06 => do zeros [f.b, f.x, f.i]; return .feat f.guard (toReg f.d) (toReg f.a)
  | 0x07 => do zeros [f.b, f.x, f.i]; return .speed f.guard (toReg f.d) (toReg f.a)
  | 0x08 => do
    zeros [f.x, bitsAt f.i 2 22]
    match bitsAt f.i 0 2 with
    | 0 => return .plsetPlace f.guard (toReg f.d) (toReg f.a) (toReg f.b)
    | 1 => return .plsetPerm f.guard (toReg f.d) (toReg f.a) (toReg f.b)
    | _ => .error .field
  | _ => .error .function

/-- The length code that a pair of OP and FN allows (07 R82, R104); one that is unassigned allows any. -/
def lenAllowed (op fn : Nat) : Option Nat :=
  if op = 0x03 ∧ fn ≤ 1 then some 1
  else if op = 0x18 ∧ fn ≤ 2 then some 2
  else if op = 0x19 ∧ fn ≤ 2 then some 2
  else if op = 0x1A ∧ fn ≤ 2 then some 2
  else if op = 0x1C ∧ fn = 0 then some 2
  else some 0

/-- One instruction from the fields of word 0 and the second part (bits 95:64 or 127:64). -/
def decodeFields (f : W0) (hi : Nat) : Dec Instr :=
  match f.op with
  | 0x00 => decMisc f
  | 0x01 => decIntReg f
  | 0x02 => decIntImm f
  | 0x03 => decMove f hi
  | 0x04 => decCmp f
  | 0x05 => decFp f
  | 0x06 => decControl f
  | 0x07 => decBq f
  | 0x08 => decLocal f
  | 0x09 => decRemote f
  | 0x0A => decAtomic f
  | 0x0B => decMessage f
  | 0x0C => decMailbox f
  | 0x0D => decVArith f
  | 0x0E => decVMisc f
  | 0x0F => decVMem f
  | 0x10 => decVRed f
  | 0x11 => decMatrix f
  | 0x12 => decLb f
  | 0x13 => decMsh f
  | 0x14 => decSem f
  | 0x15 => decHold f
  | 0x16 => decFence f
  | 0x17 => decTask f
  | 0x18 => decCopy f hi
  | 0x19 => decStreamer f hi
  | 0x1A => decEdge f hi
  | 0x1B => decGmu f
  | 0x1C => decRlc f hi
  | 0x1D => decStage f
  | 0x1E => decSystem f
  | _ => .error .opcode

/-- The length in bytes that a length code gives (07 R82); 0b11 gives none. -/
def lenBytes : Nat → Option Nat
  | 0 => some 8
  | 1 => some 12
  | 2 => some 16
  | _ => none

/-- The instruction in `w`, whose bits 127:0 are the instruction's bytes in order (the lowest address least
significant). `last` says that it starts at the last 32-bit unit of its fetch block, where a zero unit is the short
nop (07 R83). -/
def decode (last : Bool) (w : Nat) : Dec Instr :=
  if last && bitsAt w 0 32 == 0 then .ok .shortNop
  else if bitsAt w 0 64 = 0 then .ok .nop
  else
    let f := W0.ofNat w
    if f.len = 3 then .error .length
    else if lenAllowed f.op f.fn != some f.len then .error .length
    else decodeFields f (if f.len = 1 then bitsAt w 64 32 else bitsAt w 64 64)

/-- A list of bytes, the lowest address first, as a number (00 R5). -/
def leNat : List Byte → Nat
  | [] => 0
  | b :: t => b.toNat + 256 * leNat t

/-- The lowest `n` bytes of a number, the lowest address first (00 R5). -/
def leBytes : Nat → Nat → List Byte
  | 0, _ => []
  | n + 1, w => BitVec.ofNat 8 w :: leBytes n (w / 256)

/-- The instruction read from bytes in memory order. -/
def decodeBytes (last : Bool) (bs : List Byte) : Dec Instr := decode last (leNat bs)

/-- The instruction the decoder reads from an instruction whose bits, numbered as the opcode table numbers them, are
`w`: its bytes are laid out little-endian, `nbits` of them given and the rest of the longest instruction zero. A
32-bit instruction exists only at the end of a fetch block. -/
def decodeTableWord (nbits w : Nat) : Option Instr :=
  match decodeBytes (nbits == 32) (leBytes 16 (w % 2 ^ nbits)) with
  | .ok i => some i
  | .error _ => none

/-- The length of an instruction in bytes; an event of another agent has none. -/
def Instr.len : Instr → Nat
  | .shortNop => 4
  | .movi .. | .movw .. => 12
  | .cpy .. | .cpyr .. | .cpym .. | .subscribe .. | .drain .. | .unsub .. | .bte .. | .coll .. | .xfer ..
  | .rlcrun .. => 16
  | _ => 8

/-! ### The encoder -/

/-- The fields of an encoded instruction: word 0 and the second part. -/
structure Enc where
  w : W0
  hi : Nat
deriving DecidableEq, Repr

/-- Word 0 of an instruction under guard `g`, with no second part. -/
def mkEnc (len op fn : Nat) (g : Guard) (x d a b i : Nat) : Enc where
  w := { len, op, fn, d, a, b, gk := g.k.val, gi := b2n g.inv, x, i }
  hi := 0

/-- The fields of an instruction, from the encoding tables; `nop` and the short nop are words of zeros and the
events of other agents have no encoding. -/
def encodeFields : Instr → Option Enc
  | .endPart g => some (mkEnc 0 0x0 0x1 g (0) (0) (0) (0) (0))
  | .add g x d a b => some (mkEnc 0 0x1 0x0 g (x.code) (d.field) (a.field) (b.field) ((CLay.mk (0) (a.kind) (b.kind) (d.kind) (0)).toNat))
  | .sub g x d a b => some (mkEnc 0 0x1 0x1 g (x.code) (d.field) (a.field) (b.field) ((CLay.mk (0) (a.kind) (b.kind) (d.kind) (0)).toNat))
  | .mul g x d a b => some (mkEnc 0 0x1 0x2 g (x.code) (d.field) (a.field) (b.field) ((CLay.mk (0) (a.kind) (b.kind) (d.kind) (0)).toNat))
  | .mulh g x d a b => some (mkEnc 0 0x1 0x3 g (x.code) (d.field) (a.field) (b.field) ((CLay.mk (0) (a.kind) (b.kind) (d.kind) (0)).toNat))
  | .mulhz g x d a b => some (mkEnc 0 0x1 0x4 g (x.code) (d.field) (a.field) (b.field) ((CLay.mk (0) (a.kind) (b.kind) (d.kind) (0)).toNat))
  | .div g x d a b => some (mkEnc 0 0x1 0x5 g (x.code) (d.field) (a.field) (b.field) ((CLay.mk (0) (a.kind) (b.kind) (d.kind) (0)).toNat))
  | .divz g x d a b => some (mkEnc 0 0x1 0x6 g (x.code) (d.field) (a.field) (b.field) ((CLay.mk (0) (a.kind) (b.kind) (d.kind) (0)).toNat))
  | .rem g x d a b => some (mkEnc 0 0x1 0x7 g (x.code) (d.field) (a.field) (b.field) ((CLay.mk (0) (a.kind) (b.kind) (d.kind) (0)).toNat))
  | .remz g x d a b => some (mkEnc 0 0x1 0x8 g (x.code) (d.field) (a.field) (b.field) ((CLay.mk (0) (a.kind) (b.kind) (d.kind) (0)).toNat))
  | .and g x d a b => some (mkEnc 0 0x1 0x9 g (x.code) (d.field) (a.field) (b.field) ((CLay.mk (0) (a.kind) (b.kind) (d.kind) (0)).toNat))
  | .or g x d a b => some (mkEnc 0 0x1 0xa g (x.code) (d.field) (a.field) (b.field) ((CLay.mk (0) (a.kind) (b.kind) (d.kind) (0)).toNat))
  | .xor g x d a b => some (mkEnc 0 0x1 0xb g (x.code) (d.field) (a.field) (b.field) ((CLay.mk (0) (a.kind) (b.kind) (d.kind) (0)).toNat))
  | .andn g x d a b => some (mkEnc 0 0x1 0xc g (x.code) (d.field) (a.field) (b.field) ((CLay.mk (0) (a.kind) (b.kind) (d.kind) (0)).toNat))
  | .shl g x d a b => some (mkEnc 0 0x1 0xd g (x.code) (d.field) (a.field) (b.field) ((CLay.mk (0) (a.kind) (b.kind) (d.kind) (0)).toNat))
  | .shr g x d a b => some (mkEnc 0 0x1 0xe g (x.code) (d.field) (a.field) (b.field) ((CLay.mk (0) (a.kind) (b.kind) (d.kind) (0)).toNat))
  | .sra g x d a b => some (mkEnc 0 0x1 0xf g (x.code) (d.field) (a.field) (b.field) ((CLay.mk (0) (a.kind) (b.kind) (d.kind) (0)).toNat))
  | .rol g x d a b => some (mkEnc 0 0x1 0x10 g (x.code) (d.field) (a.field) (b.field) ((CLay.mk (0) (a.kind) (b.kind) (d.kind) (0)).toNat))
  | .min g x d a b => some (mkEnc 0 0x1 0x11 g (x.code) (d.field) (a.field) (b.field) ((CLay.mk (0) (a.kind) (b.kind) (d.kind) (0)).toNat))
  | .max g x d a b => some (mkEnc 0 0x1 0x12 g (x.code) (d.field) (a.field) (b.field) ((CLay.mk (0) (a.kind) (b.kind) (d.kind) (0)).toNat))
  | .minz g x d a b => some (mkEnc 0 0x1 0x13 g (x.code) (d.field) (a.field) (b.field) ((CLay.mk (0) (a.kind) (b.kind) (d.kind) (0)).toNat))
  | .maxz g x d a b => some (mkEnc 0 0x1 0x14 g (x.code) (d.field) (a.field) (b.field) ((CLay.mk (0) (a.kind) (b.kind) (d.kind) (0)).toNat))
  | .addi g x d a i => some (mkEnc 0 0x2 0x0 g (x.code) (d.val) (a.val) (0) (i.toNat))
  | .andi g x d a i => some (mkEnc 0 0x2 0x1 g (x.code) (d.val) (a.val) (0) (i.toNat))
  | .ori g x d a i => some (mkEnc 0 0x2 0x2 g (x.code) (d.val) (a.val) (0) (i.toNat))
  | .xori g x d a i => some (mkEnc 0 0x2 0x3 g (x.code) (d.val) (a.val) (0) (i.toNat))
  | .shli g x d a i => some (mkEnc 0 0x2 0x4 g (x.code) (d.val) (a.val) (0) (i.toNat))
  | .shri g x d a i => some (mkEnc 0 0x2 0x5 g (x.code) (d.val) (a.val) (0) (i.toNat))
  | .srai g x d a i => some (mkEnc 0 0x2 0x6 g (x.code) (d.val) (a.val) (0) (i.toNat))
  | .roli g x d a i => some (mkEnc 0 0x2 0x7 g (x.code) (d.val) (a.val) (0) (i.toNat))
  | .muli g x d a i => some (mkEnc 0 0x2 0x8 g (x.code) (d.val) (a.val) (0) (i.toNat))
  | .movi g d j => some { mkEnc 1 0x3 0x0 g 0 d.val 0 0 0 with hi := j.toNat }
  | .movw g d j => some { mkEnc 1 0x3 0x1 g 0 d.val 0 0 0 with hi := j.toNat }
  | .mov g x d a => some (mkEnc 0 0x3 0x2 g (x.code) (d.field) (a.field) (0) ((CLay.mk (0) (a.kind) (0) (d.kind) (0)).toNat))
  | .lea g d a b sc disp => some (mkEnc 0 0x3 0x3 g (0) (d.field) (a.field) (b.field) ((CLay.mk (0) (a.kind) (b.kind) (d.kind) (disp.toNat + 2 ^ 10 * sc.val)).toNat))
  | .rdtick g d => some (mkEnc 0 0x3 0x4 g (0) (d.val) (0) (0) (0))
  | .cmp g x kd cc a b => some (mkEnc 0 0x4 0x0 g (x.code) (kd.val) (a.field) (b.field) ((CLay.mk (0) (a.kind) (b.kind) (0) (2 ^ 8 * cc.code)).toNat))
  | .sel g d a b kc => some (mkEnc 0 0x4 0x1 g (0) (d.field) (a.field) (b.field) ((CLay.mk (kc.val) (a.kind) (b.kind) (d.kind) (0)).toNat))
  | .clz g x d a => some (mkEnc 0 0x4 0x2 g (x.code) (d.field) (a.field) (0) ((CLay.mk (0) (a.kind) (0) (d.kind) (0)).toNat))
  | .ctz g x d a => some (mkEnc 0 0x4 0x3 g (x.code) (d.field) (a.field) (0) ((CLay.mk (0) (a.kind) (0) (d.kind) (0)).toNat))
  | .popc g x d a => some (mkEnc 0 0x4 0x4 g (x.code) (d.field) (a.field) (0) ((CLay.mk (0) (a.kind) (0) (d.kind) (0)).toNat))
  | .bfx g x d a pos lm1 => some (mkEnc 0 0x4 0x5 g (x.code) (d.field) (a.field) (0) ((CLay.mk (0) (a.kind) (0) (d.kind) (lm1.val + 2 ^ 6 * pos.val)).toNat))
  | .bfi g d a pos lm1 => some (mkEnc 0 0x4 0x6 g (0) (d.val) (a.field) (0) ((CLay.mk (0) (a.kind) (0) (0) (lm1.val + 2 ^ 6 * pos.val)).toNat))
  | .sext g x d a => some (mkEnc 0 0x4 0x7 g (x.code) (d.field) (a.field) (0) ((CLay.mk (0) (a.kind) (0) (d.kind) (0)).toNat))
  | .zext g x d a => some (mkEnc 0 0x4 0x8 g (x.code) (d.field) (a.field) (0) ((CLay.mk (0) (a.kind) (0) (d.kind) (0)).toNat))
  | .fadd g x d a b => some (mkEnc 0 0x5 0x0 g (x.code) (d.field) (a.field) (b.field) ((CLay.mk (0) (a.kind) (b.kind) (d.kind) (0)).toNat))
  | .fsub g x d a b => some (mkEnc 0 0x5 0x1 g (x.code) (d.field) (a.field) (b.field) ((CLay.mk (0) (a.kind) (b.kind) (d.kind) (0)).toNat))
  | .fmul g x d a b => some (mkEnc 0 0x5 0x2 g (x.code) (d.field) (a.field) (b.field) ((CLay.mk (0) (a.kind) (b.kind) (d.kind) (0)).toNat))
  | .fdiv g x d a b => some (mkEnc 0 0x5 0x4 g (x.code) (d.field) (a.field) (b.field) ((CLay.mk (0) (a.kind) (b.kind) (d.kind) (0)).toNat))
  | .fmin g x d a b => some (mkEnc 0 0x5 0x6 g (x.code) (d.field) (a.field) (b.field) ((CLay.mk (0) (a.kind) (b.kind) (d.kind) (0)).toNat))
  | .fmax g x d a b => some (mkEnc 0 0x5 0x7 g (x.code) (d.field) (a.field) (b.field) ((CLay.mk (0) (a.kind) (b.kind) (d.kind) (0)).toNat))
  | .fma g x d a b c => some (mkEnc 0 0x5 0x3 g (x.code) (d.field) (a.field) (b.field) ((CLay.mk (c.val) (a.kind) (b.kind) (d.kind) (0)).toNat))
  | .fsqrt g x d a => some (mkEnc 0 0x5 0x5 g (x.code) (d.field) (a.field) (0) ((CLay.mk (0) (a.kind) (0) (d.kind) (0)).toNat))
  | .fcmp g x kd cc a b => some (mkEnc 0 0x5 0x8 g (x.code) (kd.val) (a.field) (b.field) ((CLay.mk (0) (a.kind) (b.kind) (0) (2 ^ 8 * cc.code)).toNat))
  | .fcvt g x fr d a => some (mkEnc 0 0x5 0x9 g (x.code) (d.field) (a.field) (0) ((CLay.mk (0) (a.kind) (0) (d.kind) (2 ^ 8 * fr.code)).toNat))
  | .fsgn g x m d a b => some (mkEnc 0 0x5 0xa g (x.code) (d.field) (a.field) (b.field) ((CLay.mk (0) (a.kind) (b.kind) (d.kind) (2 ^ 10 * m.code)).toNat))
  | .fclass g x d a => some (mkEnc 0 0x5 0xb g (x.code) (d.field) (a.field) (0) ((CLay.mk (0) (a.kind) (0) (d.kind) (0)).toNat))
  | .br g i => some (mkEnc 0 0x6 0x0 g (0) (0) (0) (0) (i.toNat))
  | .jmp g d a i => some (mkEnc 0 0x6 0x1 g (0) (d.val) (a.val) (0) (i.toNat))
  | .call g d i => some (mkEnc 0 0x6 0x2 g (0) (d.val) (0) (0) (i.toNat))
  | .ret g a => some (mkEnc 0 0x6 0x3 g (0) (0) (a.val) (0) (0))
  | .loop g lc a i => some (mkEnc 0 0x6 0x4 g (0) (lc.val) (a.val) (0) (i.toNat))
  | .tret g => some (mkEnc 0 0x6 0x5 g (0) (0) (0) (0) (0))
  | .pause g a i => some (mkEnc 0 0x6 0x6 g (0) (0) (a.val) (0) (i.toNat))
  | .bqpush g k => some (mkEnc 0 0x7 0x0 g (0) (0) (k.val) (0) (0))
  | .bqbr g s i => some (mkEnc 0 0x7 0x1 g (0) (b2n s) (0) (0) (i.toNat))
  | .ld g x cm d a c n => some (mkEnc 0 0x8 0x0 g (x.code) (d.field) (a.val) (0) ((CLay.mk (c.val) (0) (0) (d.kind) (n.toNat + 2 ^ 11 * b2n cm)).toNat))
  | .st g x cm sq a b c n => some (mkEnc 0 0x8 0x1 g (x.code) (0) (a.val) (b.field) ((CLay.mk (c.val) (0) (b.kind) (0) (n.toNat + 2 ^ 10 * b2n sq + 2 ^ 11 * b2n cm)).toNat))
  | .ldo g x d a c n => some (mkEnc 0 0x9 0x0 g (x.code) (d.field) (a.val) (0) ((CLay.mk (c.val) (0) (0) (d.kind) (n.toNat)).toNat))
  | .ldg g x d a c n => some (mkEnc 0 0x9 0x2 g (x.code) (d.field) (a.val) (0) ((CLay.mk (c.val) (0) (0) (d.kind) (n.toNat)).toNat))
  | .sto g x sq a b c n => some (mkEnc 0 0x9 0x1 g (x.code) (0) (a.val) (b.field) ((CLay.mk (c.val) (0) (b.kind) (0) (n.toNat + 2 ^ 10 * b2n sq)).toNat))
  | .stg g x sq a b c n => some (mkEnc 0 0x9 0x3 g (x.code) (0) (a.val) (b.field) ((CLay.mk (c.val) (0) (b.kind) (0) (n.toNat + 2 ^ 10 * b2n sq)).toNat))
  | .pf g a c n => some (mkEnc 0 0x9 0x4 g (0) (0) (a.val) (0) ((CLay.mk (c.val) (0) (0) (0) (n.toNat)).toNat))
  | .atom g x sp op acq rel d a b => some (mkEnc 0 0xa 0x0 g (x.code) (d.val) (a.val) (b.field) ((CLay.mk (0) (0) (b.kind) (0) (2 ^ 5 * b2n rel + 2 ^ 6 * b2n acq + 2 ^ 7 * op.code + 2 ^ 10 * sp.code)).toNat))
  | .atomcas g x sp acq rel d a b c => some (mkEnc 0 0xa 0x1 g (x.code) (d.val) (a.val) (b.field) ((CLay.mk (c.val) (0) (b.kind) (0) (2 ^ 5 * b2n rel + 2 ^ 6 * b2n acq + 2 ^ 10 * sp.code)).toNat))
  | .atomincw g x sp acq rel d a c => some (mkEnc 0 0xa 0x2 g (x.code) (d.val) (a.val) (0) ((CLay.mk (c.val) (0) (0) (0) (2 ^ 5 * b2n rel + 2 ^ 6 * b2n acq + 2 ^ 10 * sp.code)).toNat))
  | .atomfaddb g x sp acq rel d pk a b c => some (mkEnc 0 0xa 0x3 g (x.code) (d.val) (a.val) (b.field) ((CLay.mk (c.val) (0) (b.kind) (0) (2 ^ 2 * pk.val + 2 ^ 5 * b2n rel + 2 ^ 6 * b2n acq + 2 ^ 10 * sp.code)).toNat))
  | .enq g sp acq rel pk a b => some (mkEnc 0 0xa 0x4 g (4) (0) (a.val) (b.field) ((CLay.mk (0) (0) (b.kind) (0) (2 ^ 2 * pk.val + 2 ^ 5 * b2n rel + 2 ^ 6 * b2n acq + 2 ^ 10 * sp.code)).toNat))
  | .deq g sp acq rel d pk a => some (mkEnc 0 0xa 0x5 g (4) (d.val) (a.val) (0) ((CLay.mk (0) (0) (0) (0) (2 ^ 2 * pk.val + 2 ^ 5 * b2n rel + 2 ^ 6 * b2n acq + 2 ^ 10 * sp.code)).toNat))
  | .send g d a b hidx gen => some (mkEnc 0 0xb 0x0 g (0) (d.val) (a.val) (b.val) (hidx.toNat + 2 ^ 16 * gen.toNat))
  | .sendt g d a b hidx gen => some (mkEnc 0 0xb 0x1 g (0) (d.val) (a.val) (b.val) (hidx.toNat + 2 ^ 16 * gen.toNat))
  | .reply g d => some (mkEnc 0 0xb 0x2 g (0) (d.val) (0) (0) (0))
  | .msend g d a mb => some (mkEnc 0 0xb 0x3 g (0) (d.val) (a.val) (0) (mb.val))
  | .msendt g d a mb => some (mkEnc 0 0xb 0x4 g (0) (d.val) (a.val) (0) (mb.val))
  | .mcfg g a mb => some (mkEnc 0 0xc 0x0 g (0) (0) (a.val) (0) (mb.val))
  | .mrecv g d a t mb => some (mkEnc 0 0xc 0x1 g (0) (d.val) (a.val) (0) (mb.val + 2 ^ 6 * t.toNat))
  | .mpeek g d mb => some (mkEnc 0 0xc 0x2 g (0) (d.val) (0) (0) (mb.val))
  | .mrel g a mb => some (mkEnc 0 0xc 0x3 g (0) (0) (a.val) (0) (mb.val))
  | .nlink g fe fw clr => some (mkEnc 0 0xc 0x4 g (0) (0) (0) (0) (b2n fe + 2 ^ 1 * b2n fw + 2 ^ 2 * b2n clr))
  | .vadd g x sat d a b => some (mkEnc 0 0xd 0x0 g (x.code) (d.val) (a.val) (b.field) ((CLay.mk (0) (0) (b.kind) (0) (2 ^ 10 * b2n sat + 2 ^ 11 * b.sb)).toNat))
  | .vsub g x sat d a b => some (mkEnc 0 0xd 0x1 g (x.code) (d.val) (a.val) (b.field) ((CLay.mk (0) (0) (b.kind) (0) (2 ^ 10 * b2n sat + 2 ^ 11 * b.sb)).toNat))
  | .vmul g x d a b => some (mkEnc 0 0xd 0x2 g (x.code) (d.val) (a.val) (b.field) ((CLay.mk (0) (0) (b.kind) (0) (2 ^ 11 * b.sb)).toNat))
  | .vmin g x d a b => some (mkEnc 0 0xd 0x4 g (x.code) (d.val) (a.val) (b.field) ((CLay.mk (0) (0) (b.kind) (0) (2 ^ 11 * b.sb)).toNat))
  | .vmax g x d a b => some (mkEnc 0 0xd 0x5 g (x.code) (d.val) (a.val) (b.field) ((CLay.mk (0) (0) (b.kind) (0) (2 ^ 11 * b.sb)).toNat))
  | .vand g x d a b => some (mkEnc 0 0xd 0x8 g (x.code) (d.val) (a.val) (b.field) ((CLay.mk (0) (0) (b.kind) (0) (2 ^ 11 * b.sb)).toNat))
  | .vor g x d a b => some (mkEnc 0 0xd 0x9 g (x.code) (d.val) (a.val) (b.field) ((CLay.mk (0) (0) (b.kind) (0) (2 ^ 11 * b.sb)).toNat))
  | .vxor g x d a b => some (mkEnc 0 0xd 0xa g (x.code) (d.val) (a.val) (b.field) ((CLay.mk (0) (0) (b.kind) (0) (2 ^ 11 * b.sb)).toNat))
  | .vshl g x d a b => some (mkEnc 0 0xd 0xb g (x.code) (d.val) (a.val) (b.field) ((CLay.mk (0) (0) (b.kind) (0) (2 ^ 11 * b.sb)).toNat))
  | .vshr g x d a b => some (mkEnc 0 0xd 0xc g (x.code) (d.val) (a.val) (b.field) ((CLay.mk (0) (0) (b.kind) (0) (2 ^ 11 * b.sb)).toNat))
  | .vsra g x d a b => some (mkEnc 0 0xd 0xd g (x.code) (d.val) (a.val) (b.field) ((CLay.mk (0) (0) (b.kind) (0) (2 ^ 11 * b.sb)).toNat))
  | .vfma g x d a b c => some (mkEnc 0 0xd 0x3 g (x.code) (d.val) (a.val) (b.field) ((CLay.mk (c.val) (0) (b.kind) (0) (2 ^ 11 * b.sb)).toNat))
  | .vabs g x d a => some (mkEnc 0 0xd 0x6 g (x.code) (d.val) (a.val) (0) (0))
  | .vneg g x d a => some (mkEnc 0 0xd 0x7 g (x.code) (d.val) (a.val) (0) (0))
  | .vcmp g x kd cc a b => some (mkEnc 0 0xe 0x0 g (x.code) (kd.val) (a.val) (b.field) ((CLay.mk (0) (0) (b.kind) (0) (2 ^ 7 * b.sb + 2 ^ 8 * cc.code)).toNat))
  | .vsel g d a b kc => some (mkEnc 0 0xe 0x1 g (0) (d.val) (a.val) (b.val) ((CLay.mk (kc.val) (0) (0) (0) (0)).toNat))
  | .vcvt g x fr half d a => some (mkEnc 0 0xe 0x2 g (x.code) (d.val) (a.val) (0) ((CLay.mk (0) (0) (0) (0) (2 ^ 7 * b2n half + 2 ^ 8 * fr.code)).toNat))
  | .vsplit g d a => some (mkEnc 0 0xe 0x3 g (10) (d.val) (a.val) (0) (0))
  | .vbcast g x d (.sca o) => some (mkEnc 0 0xe 0x4 g (x.code) (d.val) (o.field) (0) ((CLay.mk (0) (o.kind) (0) (0) (0)).toNat))
  | .vbcast g x d (.lane v l) => some (mkEnc 0 0xe 0x4 g (x.code) (d.val) (v.val) (0) ((CLay.mk (0) (0) (0) (0) (2 ^ 6 * l.val + 2 ^ 11)).toNat))
  | .vmov g d a => some (mkEnc 0 0xe 0x5 g (0) (d.val) (a.val) (0) (0))
  | .vmovLaneToScalar g x d a l => some (mkEnc 0 0xe 0x5 g (x.code) (d.field) (a.val) (0) ((CLay.mk (0) (0) (0) (d.kind) (2 ^ 5 * l.val + 2 ^ 10)).toNat))
  | .vmovScalarToLane g x d l a => some (mkEnc 0 0xe 0x5 g (x.code) (d.val) (a.field) (0) ((CLay.mk (0) (a.kind) (0) (0) (2 ^ 5 * l.val + 2 ^ 11)).toNat))
  | .vld g x cm d a n => some (mkEnc 0 0xf 0x0 g (x.code) (d.val) (a.val) (0) ((CLay.mk (0) (0) (0) (0) (n.toNat + 2 ^ 11 * b2n cm)).toNat))
  | .vst g x cm a b n => some (mkEnc 0 0xf 0x1 g (x.code) (0) (a.val) (b.val) ((CLay.mk (0) (0) (0) (0) (n.toNat + 2 ^ 11 * b2n cm)).toNat))
  | .vgath g x cm d a b => some (mkEnc 0 0xf 0x2 g (x.code) (d.val) (a.val) (b.val) ((CLay.mk (0) (0) (0) (0) (2 ^ 11 * b2n cm)).toNat))
  | .vscat g x cm a b c => some (mkEnc 0 0xf 0x3 g (x.code) (0) (a.val) (b.val) ((CLay.mk (c.val) (0) (0) (0) (2 ^ 11 * b2n cm)).toNat))
  | .vstream g x d a => some (mkEnc 0 0xf 0x4 g (x.code) (24 + d.val) (a.val) (0) (0))
  | .vstop g d => some (mkEnc 0 0xf 0x5 g (0) (24 + d.val) (0) (0) (0))
  | .vshuf g d a b => some (mkEnc 0 0x10 0x0 g (0) (d.val) (a.val) (b.val) (0))
  | .vred g x op d a => some (mkEnc 0 0x10 0x1 g (x.code) (d.field) (a.val) (0) ((CLay.mk (0) (0) (0) (d.kind) (2 ^ 9 * op.code)).toNat))
  | .vscan g x op d a => some (mkEnc 0 0x10 0x2 g (x.code) (d.val) (a.val) (0) ((CLay.mk (0) (0) (0) (0) (2 ^ 9 * op.code)).toNat))
  | .mma g f d => some (mkEnc 0 0x11 0x0 g (f.xcode) (d.val) (0) (0) ((CLay.mk (0) (0) (0) (0) (f.pspec)).toNat))
  | .mmaz g f d => some (mkEnc 0 0x11 0x1 g (f.xcode) (d.val) (0) (0) ((CLay.mk (0) (0) (0) (0) (f.pspec)).toNat))
  | .mlda g f cm a b c => some (mkEnc 0 0x11 0x2 g (f.xcode) (0) (a.val) (b.val) ((CLay.mk (c.val) (0) (0) (0) (2 ^ 1 * b2n cm + f.pspec)).toNat))
  | .mldb g f cm a b c => some (mkEnc 0 0x11 0x3 g (f.xcode) (0) (a.val) (b.val) ((CLay.mk (c.val) (0) (0) (0) (2 ^ 1 * b2n cm + f.pspec)).toNat))
  | .mgath g f cm a b c => some (mkEnc 0 0x11 0x4 g (f.xcode) (0) (a.val) (b.val) ((CLay.mk (c.val) (0) (0) (0) (2 ^ 1 * b2n cm + f.pspec)).toNat))
  | .mldacc g x cm d a b => some (mkEnc 0 0x11 0x5 g (x.code) (d.val) (a.val) (b.val) ((CLay.mk (0) (0) (0) (0) (2 ^ 1 * b2n cm)).toNat))
  | .mstacc g x cm d a b e f => some (mkEnc 0 0x11 0x6 g (x.code) (d.val) (a.val) (b.val) ((CLay.mk (0) (0) (0) (0) (2 ^ 1 * b2n cm + 2 ^ 2 * f.val + 2 ^ 4 * e.toNat)).toNat))
  | .mclr g d => some (mkEnc 0 0x11 0x7 g (0) (d.val) (0) (0) (0))
  | .mmask g mm nm km => some (mkEnc 0 0x11 0x8 g (0) (0) (0) (0) (mm.val + 2 ^ 5 * nm.val + 2 ^ 10 * km.toNat))
  | .lbinit g a lb => some (mkEnc 0 0x12 0x0 g (0) (0) (a.val) (0) (lb.val))
  | .lbarr g a lb => some (mkEnc 0 0x12 0x1 g (0) (0) (a.val) (0) (lb.val))
  | .lbdrop g a lb => some (mkEnc 0 0x12 0x2 g (0) (0) (a.val) (0) (lb.val))
  | .lbjoin g a lb => some (mkEnc 0 0x12 0x3 g (0) (0) (a.val) (0) (lb.val))
  | .lbexp g a lb => some (mkEnc 0 0x12 0x4 g (0) (0) (a.val) (0) (lb.val))
  | .lbwait g d a t par lb => some (mkEnc 0 0x12 0x5 g (0) (d.val) (a.val) (0) (lb.val + 2 ^ 6 * b2n par + 2 ^ 7 * t.toNat))
  | .lbtest g d lb => some (mkEnc 0 0x12 0x6 g (0) (d.val) (0) (0) (lb.val))
  | .mshcfg g a m => some (mkEnc 0 0x13 0x0 g (0) (0) (a.val) (0) (m.val))
  | .mshar g m => some (mkEnc 0 0x13 0x1 g (0) (0) (0) (0) (m.val))
  | .mshwait g d a t par m => some (mkEnc 0 0x13 0x2 g (0) (d.val) (a.val) (0) (m.val + 2 ^ 4 * b2n par + 2 ^ 5 * t.toNat))
  | .mshstat g d sel m => some (mkEnc 0 0x13 0x3 g (0) (d.val) (0) (0) (m.val + 2 ^ 4 * sel.val))
  | .semwait g d a b t s => some (mkEnc 0 0x14 0x0 g (0) (d.val) (a.val) (b.val) (s.toNat + 2 ^ 8 * t.toNat))
  | .semsig g a b s => some (mkEnc 0 0x14 0x1 g (0) (0) (a.val) (b.val) (s.toNat))
  | .semset g a s => some (mkEnc 0 0x14 0x2 g (0) (0) (a.val) (0) (s.toNat))
  | .semget g d s => some (mkEnc 0 0x14 0x3 g (0) (d.val) (0) (0) (s.toNat))
  | .declare g a => some (mkEnc 0 0x15 0x0 g (0) (0) (a.val) (0) (0))
  | .hold g => some (mkEnc 0 0x15 0x1 g (0) (0) (0) (0) (0))
  | .holdx g d a => some (mkEnc 0 0x15 0x2 g (0) (d.val) (a.val) (0) (0))
  | .rel g d a => some (mkEnc 0 0x15 0x3 g (0) (d.val) (a.val) (0) (0))
  | .relEnd g d a => some (mkEnc 0 0x15 0x3 g (0) (d.val) (a.val) (0) (1))
  | .holdst g d a => some (mkEnc 0 0x15 0x4 g (0) (d.val) (a.val) (0) (0))
  | .holdstObj g d a => some (mkEnc 0 0x15 0x4 g (0) (d.val) (a.val) (0) (1))
  | .dline g a => some (mkEnc 0 0x15 0x5 g (0) (0) (a.val) (0) (0))
  | .dlineRel g a => some (mkEnc 0 0x15 0x5 g (0) (0) (a.val) (0) (1))
  | .fence g fr tt sc => some (mkEnc 0 0x16 0x0 g (0) (0) (0) (0) (fr.code + 2 ^ 3 * tt.code + 2 ^ 6 * sc.code))
  | .spawn g a b => some (mkEnc 0 0x17 0x0 g (0) (0) (a.val) (b.val) (0))
  | .dist g d => some (mkEnc 0 0x17 0x1 g (0) (d.val) (0) (0) (0))
  | .widx g d a fld => some (mkEnc 0 0x17 0x2 g (0) (d.val) (a.val) (0) (fld.val))
  | .trig g a tc => some (mkEnc 0 0x17 0x3 g (0) (0) (a.val) (0) (tc.val))
  | .trigDisarm g tc => some (mkEnc 0 0x17 0x3 g (0) (0) (0) (0) (tc.val))
  | .trigd g a b => some (mkEnc 0 0x17 0x4 g (0) (0) (a.val) (b.val) (0))
  | .cpy g e => some { mkEnc 2 0x18 0x0 g 0 0 0 0 (0) with hi := e.toNat }
  | .cpyr g e => some { mkEnc 2 0x18 0x1 g 0 0 0 0 (0) with hi := e.toNat }
  | .cpym g e => some { mkEnc 2 0x18 0x2 g 0 0 0 0 (0) with hi := e.toNat }
  | .subscribe g rg e => some { mkEnc 2 0x19 0x0 g 0 0 0 0 (rg.val) with hi := e.toNat }
  | .drain g rg e => some { mkEnc 2 0x19 0x1 g 0 0 0 0 (rg.val) with hi := e.toNat }
  | .unsub g rg e => some { mkEnc 2 0x19 0x2 g 0 0 0 0 (rg.val) with hi := e.toNat }
  | .bte g e => some { mkEnc 2 0x1a 0x0 g 0 0 0 0 (0) with hi := e.toNat }
  | .coll g e => some { mkEnc 2 0x1a 0x1 g 0 0 0 0 (0) with hi := e.toNat }
  | .xfer g e => some { mkEnc 2 0x1a 0x2 g 0 0 0 0 (0) with hi := e.toNat }
  | .gcfg g d a b => some (mkEnc 0 0x1b 0x0 g (0) (d.val) (a.val) (b.val) (0))
  | .gld g d a n cm => some (mkEnc 0 0x1b 0x1 g (8) (d.val) (a.val) (0) (n.val + 2 ^ 5 * b2n cm))
  | .gldHdr g d a cm => some (mkEnc 0 0x1b 0x1 g (8) (d.val) (a.val) (0) (2 ^ 5 * b2n cm + 2 ^ 6))
  | .gst g a b n cm => some (mkEnc 0 0x1b 0x2 g (8) (0) (a.val) (b.val) (n.val + 2 ^ 5 * b2n cm))
  | .gzero g d => some (mkEnc 0 0x1b 0x3 g (0) (d.val) (0) (0) (0))
  | .gaddp g d a n o => some (mkEnc 0 0x1b 0x4 g (0) (d.val) (a.val) (0) (n.val + 2 ^ 5 * o.val))
  | .gschur g d a n o k => some (mkEnc 0 0x1b 0x5 g (0) (d.val) (a.val) (0) (n.val + 2 ^ 5 * o.val + 2 ^ 10 * k.val))
  | .gdamp g d a n mb => some (mkEnc 0 0x1b 0x6 g (0) (d.val) (a.val) (0) (n.val + 2 ^ 5 * mb.val))
  | .gres g d a b n => some (mkEnc 0 0x1b 0x7 g (0) (d.val) (a.val) (b.val) (n.val))
  | .gsend g d a b c once mb n => some (mkEnc 0 0x1b 0x8 g (0) (d.val) (a.val) (b.val) ((CLay.mk (c.val) (0) (0) (0) (n.val + 2 ^ 5 * mb.val + 2 ^ 11 * b2n once)).toNat))
  | .gsolve g d a n => some (mkEnc 0 0x1b 0x9 g (0) (d.val) (a.val) (0) (n.val))
  | .rlcrun g e => some { mkEnc 2 0x1c 0x0 g 0 0 0 0 (0) with hi := e.toNat }
  | .rlcstat g d => some (mkEnc 0 0x1c 0x1 g (0) (d.val) (0) (0) (0))
  | .rlcabort g d => some (mkEnc 0 0x1c 0x2 g (0) (d.val) (0) (0) (0))
  | .stgdecl g d a stg => some (mkEnc 0 0x1d 0x0 g (0) (d.val) (a.val) (0) (stg.toNat))
  | .stgq g mb stg bm1 => some (mkEnc 0 0x1d 0x1 g (0) (0) (0) (0) (mb.val + 2 ^ 6 * stg.toNat + 2 ^ 14 * bm1.val))
  | .stgqClr g mb => some (mkEnc 0 0x1d 0x1 g (0) (0) (0) (0) (mb.val + 2 ^ 18))
  | .stshal g d ss => some (mkEnc 0 0x1d 0x2 g (0) (d.val) (0) (0) (ss.val))
  | .stshfr g a ss => some (mkEnc 0 0x1d 0x3 g (0) (0) (a.val) (0) (ss.val))
  | .stshfrInit g a ss => some (mkEnc 0 0x1d 0x3 g (0) (0) (a.val) (0) (ss.val + 2 ^ 6))
  | .stgstat g d stg => some (mkEnc 0 0x1d 0x4 g (0) (d.val) (0) (0) (stg.toNat))
  | .stgstatStash g d ss => some (mkEnc 0 0x1d 0x4 g (0) (d.val) (0) (0) (ss.val + 2 ^ 8))
  | .trap g i => some (mkEnc 0 0x1e 0x0 g (0) (0) (0) (0) (i.toNat))
  | .eret g => some (mkEnc 0 0x1e 0x1 g (0) (0) (0) (0) (0))
  | .csrr g d n => some (mkEnc 0 0x1e 0x2 g (0) (d.val) (0) (0) (n.number))
  | .csrw g a n => some (mkEnc 0 0x1e 0x3 g (0) (0) (a.val) (0) (n.number))
  | .csrx g d a n => some (mkEnc 0 0x1e 0x4 g (0) (d.val) (a.val) (0) (n.number))
  | .icinvWrite g a => some (mkEnc 0 0x1e 0x3 g (0) (0) (a.val) (0) (0x00F))
  | .deadlineWrite g a => some (mkEnc 0 0x1e 0x3 g (0) (0) (a.val) (0) (0x00C))
  | .wdog g d a => some (mkEnc 0 0x1e 0x5 g (0) (d.val) (a.val) (0) (0))
  | .feat g d a => some (mkEnc 0 0x1e 0x6 g (0) (d.val) (a.val) (0) (0))
  | .speed g d a => some (mkEnc 0 0x1e 0x7 g (0) (d.val) (a.val) (0) (0))
  | .plsetPlace g d a b => some (mkEnc 0 0x1e 0x8 g (0) (d.val) (a.val) (b.val) (0))
  | .plsetPerm g d a b => some (mkEnc 0 0x1e 0x8 g (0) (d.val) (a.val) (b.val) (1))
  | _ => none

/-- The bits of an instruction and how many there are. -/
def encode (i : Instr) : Option (Nat × Nat) :=
  match i with
  | .nop => some (64, 0)
  | .shortNop => some (32, 0)
  | i =>
    match encodeFields i with
    | some e => some (8 * i.len, e.w.toNat + 2 ^ 64 * e.hi)
    | none => none

end Sys2Proof
end

