-- ==== Sys2Proof/Config.lean ====
section
/-! DEFINITION. What an implementation of the DL-16 fixes and the manual leaves open. A constant without a body is a
free value: nothing in Lean can evaluate it, so a statement about it holds for every value it could have. -/

namespace Sys2Proof.Config

/-- The private half of the module's identity key, made at manufacture; it never leaves the security block (24 R329). -/
opaque moduleKey : Nat
/-- The number that the security block draws to sign a message (24 R329). -/
opaque signNonce : List Byte → Nat
/-- Whether a first-stage image carries a good SM2 signature of the Molkai key (24 R330 step 1). -/
opaque firstStageOk : List Byte → Bool
/-- The first-stage image that manufacture left in a firmware slot (24 R330). -/
opaque slotImage : Nat → List Byte
/-- The measurements that boot takes of its later stages, micro-kernels and management table (24 R330, R331). -/
opaque bootMeasures : Nat → List (BitVec 256)
/-- The speed code that boot writes as BIN for a core: the lower of the fused code and the code that its boot checks
confirm (24 R330 step 3), by the number of boots and the physical core. -/
opaque binCode : Nat → Nat → Fin 64
/-- Features of a physical core that are retired before boot (01 R14, R24). -/
opaque lacks : Nat → BitVec 16
/-- What the CP and CM of a spare cluster hold when it takes over a logical cluster whose own state is lost (22 R315):
cells by key. -/
opaque spareCells : Nat → List (Nat × Byte)
/-- The layout version of the running firmware in a slot (22 R303, R304). -/
opaque fwLayout : Nat → BitVec 16
/-- The version of the firmware in a slot (22 R303). -/
opaque fwVersion : Nat → BitVec 32
/-- The byte length of a saved record's body, and its bytes, as a firmware layout lays it out (22 R303): the manual
names what the body covers and not its layout. The argument counts the saves. -/
opaque recordBody : Nat → List Byte
/-- The GV address of an entry of a core's overflow stack (03 R45), by partition, core and place in the stack: the manual
puts the stack in partition memory and does not say where. -/
opaque overflowAddr : Nat → Place → Nat → Nat
/-- The GV address at which a partition reads its metering counters (22 R316). -/
opaque meterAddr : Nat → Nat
/-- The GV address at which a partition reads the speed table (01 R21). -/
opaque speedTableAddr : Nat → Nat
/-- The handle that an image written to NVMe receives (24 R326). -/
opaque imageHandle : Nat → Word
/-- Whether a core's or cluster's state was found unreadable when its cluster retired (22 R315 step 3). -/
opaque unreadable : Nat → Bool
/-- The rank of a row within a tile, which decides the order that 18 R271 leaves open (05 R81). -/
opaque tileOrder : Nat → Nat → Nat
/-- The rank of an element of an n × n factor in the workspace, by row n plus column (18 R270). -/
opaque factorPlace : Nat → Nat → Nat
/-- An order of the applications of a collective's addends, which 14 R230 leaves open (05 R81). -/
opaque addendOrder : Nat → Nat → Nat
/-- The partition of the remote module that owns the peer end of a scale-up sub-link (24 R328), by the number of
boots, the port and the sub-link. -/
opaque peerOwner : Nat → Nat → Nat → Option Nat
/-- The remote modules at the far end of a sub-link (24 R328), by the number of boots, the port and the sub-link. -/
opaque farModules : Nat → Nat → Nat → List Nat
/-- What a flit of a remote module asks to be written, for the flits that write (24 R327: the link protocol is Molkai's
own and is not given): the process, the GV address, the bytes, the number of the remote command, and whether the flit is
its last. -/
opaque flitWrite : List Byte → Option (BitVec 16 × Nat × List Byte × Nat × Bool)
/-- Whether boot halves a group of aligned lanes of a port into two (24 R327): by the number of boots, the port, the
group's lowest lane and its width. -/
opaque halves : Nat → Nat → Nat → Nat → Bool
/-- The HBM frames that boot marks as retired (24 R330 step 2), by the number of boots: a station and a frame each. -/
opaque retiredFrames : Nat → List (Nat × Nat)
/-- The STVEC that firmware gives every core (22 R292), by the number of boots. -/
opaque trapEntry : Nat → Word
/-- The bytes over which a partition's configuration is measured (24 R331): its attributes, VF bindings and sub-links as
numbers. -/
opaque configBytes : List Nat → List Byte
/-- What a remote module's GV memory holds at an address under a process id, as the `n`-th read of it finds it
(14 R231): another machine's memory. -/
opaque remoteByte : Nat → Nat → Nat → Nat → Byte
/-- The byte that an undefined value takes; the first argument counts such values (the assumption log says where). -/
opaque freeValue : Nat → Word
/-- The size in bytes of the firmware code region (22 R292). -/
opaque firmwareSize : Nat
/-- The full address of the firmware code region's first byte (22 R292, 07 R83). -/
opaque firmwareBase : Nat
/-- The router over which the housekeeping kernel's detour entries lead a packet (01 R31 step 4), by the dead links and the
routers of the packet and of its destination: its row and column. -/
opaque detour : List Nat → Nat → Nat → Nat × Nat
/-- Which line an instruction cache that is full gives up for a new one (01 R15), by a count. -/
opaque cacheVictim : Nat → Nat
/-- The bytes that an access of a kind (0 read, 1 write, 2 atomic) and a length puts into the mesh, with its answer; under 3
the packet of a command with its block's length, or its refusal, and under 4 a query of a core with its answer (22 R316): the
manual gives these no packet size. -/
opaque accessBytes : Nat → Nat → Nat
/-- The bytes of a partition's region table, and the base and size of its regions (03 R37): the manual gives the entries a
base and a size, and no layout. -/
opaque regionTableBytes : Nat
opaque regionEntry : List Byte → Nat → Nat × Nat
/-- The entry points of a handler of the micro-kernel, or of the firmware's management table, by its number: of the AS
part and of the XS part, where it has one (22 R292). -/
opaque firmwareHandler : Bool → Nat → Option Nat × Option Nat

end Sys2Proof.Config
end

