-- ==== Sys2Proof/Machine/State.lean ====
section
/-! DEFINITION. The state of one DL-16 module as plain data: the cores and their strands, the clusters, the stations,
the partitions, the packets in the mesh, the abstract machine of 16 R232, and the host side. `State.reset` is the
module after cold reset, before firmware has booted (24 R330). -/

namespace Sys2Proof.Machine

/-- A sparse table by number: strictly rising keys; a missing key reads as the reader's default. -/
abbrev Table (α : Type) := List (Nat × α)

/-- The levels of a sequencer (22 R292). -/
inductive Level | user | supervisor | management
deriving DecidableEq, Repr

/-- The trap causes (22 R294), in the order of their codes. -/
inductive Cause
  | illegalEncoding | illegalSequencer | fetchStraddle | misalignedTarget | privileged | featureAbsent
  | misalignedData | windowBounds | placeInvalid | permission | translation | accessRights | memoryConflict
  | singularBlock | refinement | watchdog | deadline | withheldAbort | queueMisuse | brk | streamFault | format
  | engineFault
deriving DecidableEq, Repr

/-- An exact value of a number format (05 R64, R73): a NaN, an infinity, or `m × 2^e` with its sign. -/
inductive FVal
  | nan (signalling : Bool)
  | inf (neg : Bool)
  | fin (neg : Bool) (m : Nat) (e : Int)
deriving DecidableEq, Repr

/-- The kinds of object of a produce set (03 R55, R59). -/
inductive ObjKind | sem | lb | msh | mbx | ring | tc | reply | handler
deriving DecidableEq, Repr

/-- An object: its kind, the core that owns it, its index. A reply is named by the awaiting core and the send's
number, a completion handler by the issuing core and the command. -/
structure ObjRef where
  kind : ObjKind
  place : Place
  index : Nat
deriving DecidableEq, Repr

/-- The writes of one path class that a completed fence of a strand covers (16 R247): those before the access and the
command that it noted, whose homes its scope includes. -/
structure Cover where
  sid : Nat
  cls : FenceClass
  scope : FenceScope
  num : Nat
  cmd : Nat
deriving DecidableEq, Repr

/-- A published set (16 R245): by sequencer of a strand (2 · sid, and one more for the XS) the number below which its
accesses are in the set; by command how many of its elements; and what fences cover. -/
structure PubSet where
  accs : Table Nat
  cmds : Table Nat
  covers : List Cover
deriving DecidableEq, Repr

def PubSet.none : PubSet := ⟨[], [], []⟩

/-- Where a published set stands (16 R232): what a strand has acquired; what an instruction in progress releases, and what
its atomic was told; a packet on its way or in an inbox; a deposit in its slot; an object, and a barrier's running phase; a
command and its completion; a location; a launch. -/
inductive PubKey
  | strand (sid : Nat)
  | given (sid : Nat) (q : SeqId)
  | told (sid : Nat) (q : SeqId)
  | packet (num : Nat)
  | deposit (order : Nat)
  | obj (o : ObjRef)
  | running (o : ObjRef)
  | cmd (id : Nat)
  | done (id : Nat)
  | loc (key : Nat)
  | launch (part : Nat)
deriving DecidableEq, Repr

/-- A withheld mark (03 R56): the object, the id it carries, and the strand whose production clears it. -/
structure Mark where
  obj : ObjRef
  id : Nat
  sid : Nat
deriving DecidableEq, Repr

/-! ## Ways through the mesh (01 R26 to R31) -/

/-- The outputs of a router: to its four neighbours, to its parent and children in a TREE stitch (01 R29), and to the
cluster, station or edge node at it. -/
inductive Dir | north | south | east | west | up | left | right | home
deriving DecidableEq, Repr

/-- One hop: the router, the output taken there, and whether the hop uses the escape class (01 R28). -/
structure Hop where
  node : Nat
  far : Nat
  dir : Dir
  esc : Bool
deriving DecidableEq, Repr

/-- Where a packet is on its way: the hops that it has still to take, the input port it waits at, its order among what
came to routers, the tick at which it came there (01 R30), and the fabric cycle before which its source may not inject
it. A packet with no hop left has arrived. -/
structure Way where
  path : List Hop
  port : Nat
  since : Nat
  moved : Nat
  after : Nat
deriving DecidableEq, Repr

/-- No way left. -/
def Way.done : Way := ⟨[], 0, 0, 0, 0⟩

/-! ## Accesses (16 R232 to R238) -/

/-- The kind of an access or of a recorder entry (16 R237). -/
inductive AccKind | r | w | a
deriving DecidableEq, Repr

/-- A party (16 R233): a core, or an engine command. -/
inductive Party
  | core (p : Place)
  | cmd (n : Nat)
deriving DecidableEq, Repr

/-- What an atomic unit does (10 R163, R164). -/
inductive AtomReq
  | op (o : AtomOp) (x : XT) (b : Word)
  | cas (x : XT) (b c : Word)
  | incw (x : XT) (c : Word)
  | faddb (x : XT) (b c : Word)
  | enq (b : Word)
  | deq
deriving DecidableEq, Repr

/-- What a home does with an access: read bytes, write bytes, an atomic, or the close of an interval (16 R240). -/
inductive AccOp
  | read
  | write (data : List Byte)
  | atomic (r : AtomReq)
  | close (interval : Nat)
deriving DecidableEq, Repr

/-- Where an access's bytes lie. `keys` names bytes of the module's memory directly (CP, CM); `glob` a global
address that the owning station translates with a process id for a core in a column and row (10 R138); `regs` a
register or object window of the on-chip map (10 R137). -/
inductive Target
  | keys (ks : List Nat)
  | glob (part proc addr n : Nat)
  | regs (place wk off n : Nat)
deriving DecidableEq, Repr

/-- Who receives the answer of an access. -/
inductive Dest
  | seq (p : Place) (q : SeqId)
  | lq (p : Place) (i : Fin 4) (num : Nat)
  | sq (p : Place) (sid : Nat)
  | stream (p : Place) (v : Nat)
  | cmd (n : Nat)
  | none
deriving DecidableEq, Repr

/-- The answer to a request (10 R141, R151). -/
inductive Answer
  | data (bs : List Byte)
  | word (old : Word) (ok : Bool)
  | trap (c : Cause) (tval : Word)
  | msg (stat hint : Nat)
deriving DecidableEq, Repr

/-- A line entry of a conflict recorder (16 R237); the mask's bit i is byte i of the line. -/
structure LineEntry where
  home : Home
  line : Nat
  party : Party
  interval : Nat
  mask : BitVec 64
  kind : AccKind
deriving DecidableEq, Repr

/-- A range entry (16 R237), with the tile it belongs to for `sub` and `drain` (R240). -/
structure RangeEntry where
  home : Home
  cmd : Nat
  lo : Nat
  hi : Nat
  kind : AccKind
  tile : Nat
deriving DecidableEq, Repr

/-- One access of a party. `base` is the key of address 0 of the window its traps report addresses in; `range` the
range entry that an engine's access belongs to. `way` is what is left of its way to its home, and `lost` says that a
dead link has dropped it (01 R31). -/
structure Access where
  num : Nat
  src : Place
  party : Party
  path : Path
  home : Home
  kind : AccKind
  op : AccOp
  tgt : Target
  base : Nat
  interval : Nat
  dest : Dest
  range : Option RangeEntry
  way : Way
  lost : Bool
  seq : Nat := 0
deriving DecidableEq, Repr

/-! ## What packets carry -/

/-- The straggler record of a mesh barrier (14 R201). -/
structure Burr where
  first : Nat
  last : Nat
  held : Nat
  released : Nat
  lastPlace : Place
deriving DecidableEq, Repr

/-- A combined arrival that waits at a cluster of the path (14 R200): the participants it stands for. -/
structure MeshArr where
  members : List Place
  first : Nat
  last : Nat
  lastPlace : Place
deriving DecidableEq, Repr

/-- A task control block (03 R44), with the launch values that a shipment carries (R46) and
the tick of its `spawn`. `regions` are the persistent CP regions that travel with it to another core (R37), `base` its
launch's share quantum. `cell` is the entry of its core's overflow stack that holds a spilled one (R45). -/
structure Tcb where
  word0 : Word
  payload : List Word
  wid : Word
  wfw : Word
  src : Place
  proc : BitVec 16
  born : Nat
  pass : Nat
  up : Nat
  base : Nat
  regions : List (Nat × List Byte)
  cell : Nat := 0
  pub : PubSet := PubSet.none
deriving DecidableEq, Repr

/-- An active message (10 R150); a root carries its extension (03 R42), a trigger or dispatch its class only. `rnum`
names the reservation that awaits its reply (R149); a forwarded message keeps its pass count and the classes it has
moved up (03 R35, R40), and a forwarded completion its transfer id (14 R219). -/
structure Msg where
  hdr : Word
  payload : List Word
  rr : Word
  wid : Word
  dl : Word
  wfw : Word
  proc : BitVec 16
  lid : Nat
  rnum : Nat
  pass : Nat
  up : Nat
  xid : BitVec 32 := 0
deriving DecidableEq, Repr

/-- What a packet carries. `via` is the sender and number of a message that a core has forwarded (03 R35), to which
its answer goes. -/
inductive Body
  | active (m : Msg) (asker : Option SeqId) (via : Option (Place × Nat))
  | post (m : Msg) (asker : Option SeqId)
  | deposit (mb : Nat) (payload : List Word) (asker : Option SeqId)
  | gauss (mb : Nat) (res ver : Lane) (n : Nat) (image : List Lane) (started : Bool) (asker : Option SeqId)
  | reply (mb num : Nat) (abort : Bool) (payload : List Word)
  | answer (q : SeqId) (a : Answer)
  | memory (d : Dest) (num : Nat) (a : Answer)
  | lbArr (op : Nat) (lb : Nat)
  | semSig (sem n : Nat)
  | trigInc (tag : BitVec 16)
  | meshArr (corner : Place) (m : Nat) (tag : BitVec 16) (a : MeshArr)
  | meshRel (m : Nat) (b : Burr)
  | meshW (m : Nat) (w : Bool)
  | stealReq
  | shipment (number : Nat) (tcbs : List Tcb)
  | shipAck (number : Nat)
  | shipQuery (number : Nat)
  | shipKnown (number : Nat) (received : Bool)
  | tcMsg (m : Msg) (tc : Nat)
  | dispatch (m : Msg) (home : Place) (mb slot order : Nat)
deriving DecidableEq, Repr

/-! ## Waits -/

/-- What a sequencer waits for. -/
inductive Why
  | object (o : ObjRef)
  | answer
  | hint
  | queue (n : Nat)
  | link
  | stream
  | array
  | pausing
  | slot
  | fence
  | release
  | spawnStall
  | holdx
deriving DecidableEq, Repr

/-- A wait in progress: its reason, the tick it ends at (`pause`, a hint), the ticks left of its time-out (03 R60;
`none` has no time-out), and the message that a hint's end sends again. -/
structure Wait where
  why : Why
  till : Nat
  left : Option Nat
  pkt : Option (Place × Vn × Body)
deriving DecidableEq, Repr

/-! ## A strand (03 R32, R36; 07 R97 to R101) -/

/-- A loop counter (07 R97). -/
structure LoopCtr where
  count : BitVec 32
  saved : BitVec 32
  start : Nat
  stop : Nat
deriving DecidableEq, Repr

/-- What a trap handler finds set aside of the instruction it interrupted (10 R141, R347): its offset, its answers,
its outstanding request, its tries, its replay latch and its message. -/
structure Shelf where
  pc : Nat
  kept : List Answer
  out : Option Nat
  tries : Nat
  latch : Option Word
  parcel : Option (Place × Vn × Body)
deriving DecidableEq, Repr

/-- One sequencer of a strand: its part, pc and register files, the supervisor's own files (22 R292), and what it
waits for. `latch` is the replay latch (10 R141), or the number of the reservation of a send that awaits a reply (R149);
`kept` and `used` are the answers of its instruction in progress (R347), `out` is its outstanding request, `tries` counts
the attempts of a message (R151), `shelf` holds what trap handlers interrupted, `inTrap` turns the end rule off (08
R127) and `stopped` is set while the other sequencer is in a trap handler (07 R102). Of a waiting instruction `fetched`
keeps the bytes (07 R103), `passed` the parts of it that are over (R93) and `parcel` its message as it issued (10 R147).
`retry` is the cause for which an absent UTVEC has held the instruction (22 R295), and `stores` are those to a register
window that the next instruction finds (10 R137): window, offset, byte. -/
structure Seq where
  present : Bool
  ended : Bool
  pc : Nat
  s : Vector Word 64
  k : Vector Lane 8
  sups : Vector Word 64
  supk : Vector Lane 8
  lc0 : LoopCtr
  lc1 : LoopCtr
  level : Level
  inTrap : Bool
  stopped : Bool
  wait : Option Wait
  latch : Option Word
  kept : List Answer
  used : Nat
  out : Option Nat
  tries : Nat
  shelf : List Shelf
  fetched : List Byte
  passed : Nat
  retry : Option Cause
  stores : List (Nat × Nat × Byte)
  parcel : Option (Place × Vn × Body)
deriving DecidableEq, Repr

/-- A load into a queue, kept so that it can be performed again (10 R142). -/
structure LoadReq where
  win : Space
  addr : Nat
  x : XT
deriving DecidableEq, Repr

/-- An entry of lq0 to lq3 (01 R16, 10 R142). -/
inductive LqEntry
  | pending (num : Nat) (req : LoadReq)
  | full (w : Word)
  | marked (c : Cause) (tval : Word) (req : LoadReq)
  | redo (req : LoadReq)
deriving DecidableEq, Repr

/-- An entry of sq (01 R16). -/
structure SqEntry where
  win : Space
  addr : Nat
  n : Nat
  data : Word
deriving DecidableEq, Repr

/-- A fetched stream vector, or the fault that marks it (12 R179). -/
inductive StreamVec
  | lanes (v : Vector Lane 32)
  | fault (c : Cause) (tval : Word)
deriving DecidableEq, Repr

/-- A stream (12 R178, R179): the descriptor, the X code, the next undelivered vector, the fetched ones in order, whether a
fault has stopped the refill, and, of the vector that the copy engine fetches, the points read and their lanes. -/
structure Stream where
  desc : BitVec 512
  x : XT
  next : Nat
  buf : List StreamVec
  stopped : Bool
  read : Nat := 0
  lanes : Vector Lane 32 := Vector.replicate 32 0
deriving DecidableEq, Repr

/-- A latch of the matrix array (12 R182): its format tag and its elements, each with its block scale applied
(R185); a position without an entry is exact +0. -/
structure Latch where
  tag : Option MFmt
  vals : Table FVal
deriving DecidableEq, Repr

/-- The vector registers and streams (07 R97). -/
structure Vec where
  v : Vector (Vector Lane 32) 32
  streams : Table Stream
deriving DecidableEq, Repr

/-- The matrix array (12 R182). -/
structure Mat where
  acc : Vector (Vector Lane 1024) 4
  la : Latch
  lb : Latch
  mm : Nat
  nm : Nat
  km : Nat
deriving DecidableEq, Repr

/-- A GMU block register: 32 by 32 FP32 Λ, row-major, and 32 FP32 η (07 R97). -/
structure Gb where
  lam : Vector Lane 1024
  eta : Vector Lane 32
deriving DecidableEq, Repr

/-- The GMU's state (18 R258). -/
structure Gmu where
  gb : Vector Gb 4
  tau : Lane
  eps : Lane
deriving DecidableEq, Repr

/-- HOLDST (07 R101), by field. -/
structure HoldSt where
  late : BitVec 32
  holdid : BitVec 16
  stat : BitVec 4
  pois : Bool
  w : Bool
  rsm : Bool
  dlmiss : Bool
deriving DecidableEq, Repr

/-- CAUSE (07 R101), by field. -/
structure CauseReg where
  pprv : Bool
  udel : Bool
  seq : Bool
  code : BitVec 8
deriving DecidableEq, Repr

/-- The control registers of a strand (07 R100): both sequencers share one copy (R101). -/
structure Csrs where
  hid : Word
  wid : Word
  wfw : Word
  proc : BitVec 16
  fpstat : BitVec 5
  fpmode : BitVec 2
  xferid : BitVec 32
  holdst : HoldSt
  deadline : Word
  budget : BitVec 16
  left : BitVec 16
  cyc : Nat
  utvec : Word
  utmask : Word
  cause : CauseReg
  apc : BitVec 32
  xpc : BitVec 32
  tval : Word
deriving DecidableEq, Repr

/-- The queues between the sequencers (01 R16). -/
structure Queues where
  lq : Vector (List LqEntry) 4
  sq : List SqEntry
  bqa : List Bool
  bqx : List Bool
deriving DecidableEq, Repr

/-- The reply that a strand owes (10 R153): the awaiting core, its reply mailbox, the number of its send. -/
structure Owed where
  place : Place
  rmb : Nat
  num : Nat
deriving DecidableEq, Repr

/-- What the machine keeps about the activation itself: the strand's number, handler, launch,
produce list and declared objects (03 R55), the owed reply, the deadline's state (R61), the tick of activation and
the ticks held (R38), traps that wait for an instruction boundary, the `holdx`s not yet applied (14 R206), the features a FEATURE-ABSENT missed (22 R298), the number
below which the AS's accesses are ordered before the XS's next ones (10 R144), CAUSE, EPC and TVAL of the last
user trap, which the micro-kernel restores (22 R296), and the hold ids that the strand has shared (03 R54). -/
structure Act where
  sid : Nat
  hidx : Nat
  freq : BitVec 16
  lid : Nat
  plist : List ObjRef
  declared : List ObjRef
  owed : Option Owed
  dlPassed : Bool
  dlmiss : Bool
  poison : Bool
  t0 : Nat
  held : Nat
  pend : List (SeqId × Cause × Word)
  holdReq : List (Place × Nat)
  lack : BitVec 16
  seen : Nat
  userTrap : Option (CauseReg × BitVec 32 × BitVec 32 × Word)
  sharing : List Nat := []
  seenX : Nat := 0
  shut : Nat := 0
deriving DecidableEq, Repr

/-- One strand whole. -/
structure Strand where
  act : Act
  as : Seq
  xs : Seq
  q : Queues
  csr : Csrs
  vec : Vec
  mat : Mat
  gmu : Gmu
deriving DecidableEq, Repr

/-! ## A core's objects -/

/-- A local barrier (14 R193); W, POIS and HOLDID are read from the marks. -/
structure Lb where
  ph : Bool
  exp : Nat
  pend : Nat
  txb : Nat
  adj : Int
deriving DecidableEq, Repr

/-- A mesh barrier register of a core (14 R198); `block` is the configuration. At the corner core, `arrived` is what
waits at the clusters of the path (cluster, TAG, the arrivals combined there), and `spans` the ticks the phase was withheld. -/
structure Msh where
  block : BitVec 128
  ph : Bool
  arr : Bool
  burr : Burr
  arrived : List (Nat × BitVec 16 × MeshArr)
  w : Bool
  heldSince : Option Nat
  spans : List (Nat × Nat)
deriving DecidableEq, Repr

/-- A mailbox slot (10 R154, R158; 18 R255). -/
inductive Slot
  | free
  | filled (tick order : Nat) (src : Place) (res ver : Lane) (n : Nat) (flying : Bool)
  | taken
  | reserved (num order : Nat)
deriving DecidableEq, Repr

/-- A mailbox descriptor (10 R154): bits 127:0 as `mcfg` wrote them, and what its arbiter keeps. `stage` is the
declaration of `stgq` (20 R288) with its bound; `refused` and the counts serve R285 and R40. -/
structure Mbx where
  cfg : BitVec 128
  slots : List Slot
  wix : Nat
  stage : Option (Nat × Nat)
  refused : Bool
  pass : Nat
  up : Nat
  logged : Bool
deriving DecidableEq, Repr

/-- A ring descriptor (14 R197), with the command in progress on it. -/
structure Ring where
  body : BitVec 128
  cmd : Option Nat
deriving DecidableEq, Repr

/-- A trigger counter (03 R50, 14 R213). -/
structure Trig where
  armed : Bool
  tag : BitVec 16
  thr : Nat
  count : Nat
  target : Place
  handler : Word
  payload : List Word
  lid : Nat
deriving DecidableEq, Repr

/-- A stash (20 R283). -/
structure Stash where
  base : Nat
  cm : Bool
  slotb : Nat
  cap : Nat
  mask : BitVec 64
deriving DecidableEq, Repr

/-- An inbox entry (03 R38, R39, R40). -/
structure InEntry where
  msg : Msg
  sender : Place
  num : Nat
  tick : Nat
  order : Nat
  pass : Nat
  up : Nat
deriving DecidableEq, Repr

/-- A completion activation (14 R219), reserved when its command issues (R218) and filled when it completes. -/
structure CplEntry where
  cmd : Nat
  ready : Bool
  stat : Nat
  tick : Nat
  order : Nat
  pass : Nat
deriving DecidableEq, Repr

/-- TCBs in transit (03 R46). -/
structure Shipment where
  thief : Place
  number : Nat
  tcbs : List Tcb
  sent : Nat
deriving DecidableEq, Repr

/-- The synchronisation objects of a core (07 R99). -/
structure Objs where
  sems : Table (BitVec 32)
  lbs : Table Lb
  mshs : Table Msh
  mbs : Table Mbx
  rings : Table Ring
  tcs : Table Trig
  stashes : Table Stash
deriving DecidableEq, Repr

/-- The work that waits at a core (03 R38 to R47). -/
structure Work where
  inbox : List InEntry
  cplq : List CplEntry
  deque : List Tcb
  overflow : List Tcb
  shipments : List Shipment
  accepted : List (Place × Nat)
  shipNo : Nat
  figure : Nat
  lens : List Nat
  asm : List (Place × Nat)
deriving DecidableEq, Repr

/-- One core (01 R15 to R24). `nE` and `nW` are its receive buffers (10 R161). `filter` is the close filter of
16 R232; `rlcTrap` is the mark of 18 R275; `retiring` holds features
that the next handler boundary takes away (22 R315), and `oldTabs` the place and permission tables that the core goes by
until then (R321). -/
structure Core where
  part : Option Nat
  bin : Fin 64
  cur : Fin 64
  state : BitVec 2
  feat : BitVec 16
  retiring : BitVec 16
  lost : BitVec 32
  stvec : Word
  running : Bool
  parkedFault : Bool
  testing : Bool
  st : Strand
  objs : Objs
  work : Work
  nE : List Word
  nW : List Word
  fe : Bool
  fw : Bool
  interval : Nat
  filter : List Home
  overflowed : Bool
  pendFaults : List (Word × Nat)
  rlcTrap : Option Word
  oldTabs : Option (Table (BitVec 16) × Table Word)
deriving DecidableEq, Repr

/-! ## Engines -/

/-- The commands of engine instructions (14 R214, 18 R269). -/
inductive CmdKind | cpy | cpyr | cpym | sub | drain | unsub | bte | coll | xfer | rlc
deriving DecidableEq, Repr

/-- Where a command stands (14 R218 to R220). -/
inductive Phase
  | sent
  | hinted (till : Nat)
  | accepted
  | landed (stat : Nat)
  | faulted (stat : Nat) (addr : Nat)
  | done
deriving DecidableEq, Repr

/-- An engine command: what its packet carries (`user` says that a user-level sequencer issued it), the ring it runs
on, its frontier in elements, whether `unsub` has asked it to stop, whether a tile is in transfer, its number among the
collectives of its issuer on one mesh barrier (14 R230), and whether its follow-on instruction waits (R225). An `unsub`
keeps in `seqNo` the command that it stops. `got` holds source elements read and not yet written, `early` the elements
beyond the frontier that have landed, `addend` the addends that the landing at a collective's frontier has taken, and `owed` says that a restore has still to
deliver the command's completion steps (R221). -/
structure Cmd where
  id : Nat
  kind : CmdKind
  issuer : Place
  sid : Nat
  part : Nat
  proc : BitVec 16
  wid : Word
  wfw : Word
  lid : Nat
  user : Bool
  eng : Eng
  ring : Nat
  blk : List Byte
  phase : Phase
  front : Nat
  tries : Nat
  stopReq : Bool
  tileOpen : Bool
  seqNo : Nat
  matPending : Bool
  got : List (Nat × List Byte)
  early : List Nat
  addend : Nat
  owed : Bool
deriving DecidableEq, Repr

/-- The run of an RLC (18 R272): the rung's matrix or its factor and A as FP32 words, the vectors as exact values.
`xp` and `rp` are the next x and r between steps 2 and 3, and the previous ones after step 3. -/
structure RlcRun where
  cmd : Nat
  factoring : Bool
  substep : Nat
  col : Nat
  rung : Nat
  used : Nat
  flags : Nat
  iter : Nat
  stag : Nat
  tiles : List Lane
  a : List Lane
  b : List FVal
  x : List FVal
  r : List FVal
  xp : List FVal
  rp : List FVal
  c : List FVal
  nA : FVal
  ref : FVal
deriving DecidableEq, Repr

/-- A cluster's refinement loop controller (18 R267, R276). `abortBy` are the requests of the `rlcabort`s that wait. -/
structure Rlc where
  queue : List Nat
  run : Option RlcRun
  rnorm : Lane
  iter : Nat
  rung : Nat
  exit : Nat
  abortBy : List (Place × Nat)
deriving DecidableEq, Repr

/-- The steal state of a cluster's core 0 (03 R46). -/
structure Steal where
  reports : Table Nat
  asked : Bool
  retryAt : Nat
  distance : Nat
deriving DecidableEq, Repr

/-- One logical cluster (01 R15). `place` and `perm` are its tables (22 R310, R311). -/
structure Cluster where
  icache : Table (List Byte)
  place : Table (BitVec 16)
  perm : Table Word
  rlc : Rlc
  steal : Steal
  testing : Bool
  stopped : Bool
deriving DecidableEq, Repr

/-! ## Packets -/

/-- A packet in the mesh (01 R26), with its number in the module; `seq` is the number that its source gives it among its
packets to that destination on that network (10 R146); `lost` marks one that a dead link dropped and its source has not
sent again (01 R31). -/
structure Packet where
  num : Nat
  src : Place
  dst : Place
  vn : Vn
  part : Nat
  sid : Nat
  tick : Nat
  body : Body
  lost : Bool
  seq : Nat
  way : Way
deriving DecidableEq, Repr

/-- A message that its sender sends again at a tick: trigger messages, roots, forwarded ones (10 R151, 14 R213). -/
structure Retry where
  at_ : Nat
  pkt : Packet
deriving DecidableEq, Repr

/-! ## Partitions -/

/-- The state of a hold-table slot (14 R208). -/
inductive HoldPhase | free | held | ready | running | poison
deriving DecidableEq, Repr

/-- A slot of the hold table (03 R54). -/
structure Hold where
  use : Nat
  phase : HoldPhase
  parent : Nat
  root : Bool
  place : Place
  sid : Nat
deriving DecidableEq, Repr

/-- A parked strand (03 R54, R32): its core, the hold id it reads, the objects it awaits, whether it is held (or
parked on a fault, which keeps the core), and its readiness with the order of 03 R62. -/
structure Parked where
  place : Place
  st : Strand
  hold : Nat
  shares : Bool
  parent : Nat
  depth : Nat
  awaits : List ObjRef
  ready : Bool
  order : Nat
  since : Nat
  pass : Nat
deriving DecidableEq, Repr

/-- A stage-table entry (20 R279), with the last report (R285, R291). -/
structure Stage where
  home : Place
  pipe : Nat
  lo : Nat
  hi : Nat
  pool : List Place
  filled : Nat
  bsum : Nat
  gated : Nat
  ref : Bool
deriving DecidableEq, Repr

/-- Where a launch's completion goes: a host chain, by its head and tag, or a strand's launch block (03 R43). -/
inductive Poster
  | host (fn : HostFn) (head : Nat) (tag : BitVec 32)
  | strand (proc : BitVec 16) (blk : Nat) (place : Place) (ntag : Option (BitVec 16 × Place))
deriving DecidableEq, Repr

/-- A posted launch (03 R42) and, once started, its distributor and completion flags (R48, R52); `rootNum` is the number
that the front end gave its root message. -/
structure Launch where
  prm : LaunchParams
  by_ : Poster
  n : Nat
  delivered : Bool
  rootTick : Nat
  sampled : Option Nat
  fault : Bool
  dlmiss : Bool
  poison : Bool
  retired : Bool
  aborted : Bool
  translation : Bool
  rootNum : Nat := 0
deriving DecidableEq, Repr

/-- The metering counters (22 R316); `cyc` counts in sixteenths of a cycle, which a tick holds a whole number of. -/
structure Meter where
  ptick : Nat
  cyc : Vector Nat 4
  mac16 : Nat
  mac8 : Nat
  macp4 : Nat
  macp2 : Nat
  vecop : Nat
  hbmb : Nat
  meshb : Nat
  scub : Nat
  heldt : Nat
deriving DecidableEq, Repr

/-- A save record (22 R302, R303): its header values and the state it covers. -/
structure Save where
  header : BitVec 512
  body : List Byte
  layout : BitVec 16
  fneed : BitVec 16
  cols : Nat
  rows : Nat
  clu : Nat
  tick : Nat
  mem : List Host.Cell
  cores : Table Core
  holds : Table Hold
  parked : List Parked
  marks : List Mark
  pois : List ObjRef
  stages : Table Stage
  launch : Option Launch
  cmds : List Cmd
deriving DecidableEq, Repr

/-- A tenant of a partition (22 R301): its virtual function, its PMASK, its posted launches, its saved record. -/
structure Tenant where
  vf : Option Nat
  pmask : Word
  queue : List Launch
  saved : Option Save
deriving DecidableEq, Repr

/-- A usage record (24 R332). -/
structure Usage where
  flags : Nat
  seq : Nat
  tstart : Nat
  tend : Nat
  ctr : List Nat
  prev : BitVec 256
  sig : BitVec 512
  taken : Bool
deriving DecidableEq, Repr

/-- The attributes of a partition (22 R312). -/
structure Attrs where
  clu : Nat
  ncols : Nat
  nrows : Nat
  shape : Nat
  subn : Nat
  weight : Nat
  tslice : Nat
  codeb : Nat
  codeSize : Nat
  hcount : Nat
  htab : Nat
  rtab : Nat
  wdogDef : Nat
  retryLim : Nat
  avgThr : Nat
  scount : Nat
  debugHold : Bool
  ingress : Place
  proc0 : BitVec 16
deriving DecidableEq, Repr

/-- One partition (22 R312). `paused` says that its injection pauses (01 R31), `dead` that it must be created again (22
R315). `procs` is the process table (R308) and `ranges` the range entries, by station slot
times 256 plus index (R309). -/
structure Part where
  attrs : Attrs
  procs : Table (BitVec 128)
  ranges : Table (BitVec 256)
  frames : List (Nat × Nat)
  holds : Table Hold
  parked : List Parked
  marks : List Mark
  pois : List ObjRef
  stages : Table Stage
  launch : Option Launch
  tenants : Table Tenant
  tenant : Nat
  switching : Bool
  sliceAt : Nat
  paused : Bool
  dead : Bool
  limited : List (Vn × Nat)
  meter : Meter
  period : Nat
  periodNew : Bool
  exchangeAt : Nat
  usageAt : Nat
  usage : List Usage
  created : Nat
deriving DecidableEq, Repr

/-! ## The host side -/

/-- What the module returns for a command chain (24 R323). -/
structure Result where
  fn : HostFn
  head : Nat
  tag : BitVec 32
  written : Bool
  status : Nat
  flags : Nat
  count : Nat
  lid : Nat
  extra : List Byte
deriving DecidableEq, Repr

/-- A sub-link of a scale-up port (24 R327, R328): its lanes, the partition that owns it, whether it is up, the partition
of the remote module that owns its peer end, and the modules at its far end. -/
structure Sublink where
  lanes : Nat
  owner : Option Nat
  up : Bool
  peer : Option Nat
  far : List Nat
deriving DecidableEq, Repr

/-- A virtqueue as the module sees it (24 R323): its size, the used-ring index, the index at its last interrupt, and the
used ring's elements, the latest last: the head of each chain returned and the bytes written to it. -/
structure VirtQueue where
  size : Nat
  used : Nat
  told : Nat
  elems : List (Nat × Nat)
deriving DecidableEq, Repr

/-- The package governor (24 R335). -/
structure Governor where
  g : Fin 64
  cap : Nat
  samples : List Nat
  below : Nat
  due : Nat
deriving DecidableEq, Repr

/-- Boot and firmware (24 R330). -/
structure Firmware where
  booted : Bool
  recovery : Bool
  active : Fin 2
  next : Fin 2
  slots : Vector (Option (List Byte)) 2
  boots : Nat
  measures : List (BitVec 256)
deriving DecidableEq, Repr

/-- The host-facing functions (24 R322): the FEATURES_OK outcome of each, bound VFs as partition and tenant, results
returned in order, the NVMe images by handle (R334), the usage queues of the two PFs (R333), configuration-change
interrupts raised, and the virtqueues by function and queue. -/
structure HostSide where
  featuresOk : List (HostFn × Bool)
  bindings : Table (Nat × Nat)
  results : List Result
  images : List (Word × Save)
  usageQ0 : List (Nat × Usage)
  usageQ1 : List (Nat × Usage)
  irqs : Nat
  queues : Table VirtQueue
deriving DecidableEq, Repr

/-- A write to a replicated page (16 R249): its stamp, the bytes at each replica, the replicas that acknowledged. -/
structure ReplWrite where
  stamp : Nat
  part : Nat
  party : Party
  cells : List (Nat × List (Nat × Byte))
  applied : List Nat
  src : Place
deriving DecidableEq, Repr

/-- A reduce packet that a home has applied (16 R250): its source engine, as a path and a place, its command id, and its
sequence number. -/
structure Reduced where
  home : Home
  path : Path
  engine : Place
  cmd : Nat
  seq : Nat
deriving DecidableEq, Repr

/-- What the housekeeping kernel and the supervisor are told (01 R30, 03 R34, R44, R55; 14 R195, R200; 22 R314). -/
inductive LogRec
  | stuck (router port : Nat) (vn : Vn) (part : Nat)
  | badDescriptor (part hidx : Nat)
  | badTcb (p : Place) (word0 : Word)
  | badProduce (p : Place) (entry : Lane)
  | badArrival (p : Place) (index : Nat)
  | excess (p : Place) (lb n : Nat)
  | mailboxHandler (p : Place) (mb : Nat)
  | transient (u : TestUnit)
  | lasting (u : TestUnit)
  | limitAtFloor
  | ended (p : Place) (sid : Nat) (c : Cause) (dlmiss : Bool)
deriving DecidableEq, Repr

/-- What an arbiter shares out among partitions by their weights (01 R27): the credits left to each. -/
abbrev Shares := Table Nat

/-- A router output: whose turn it is among SYNC, REQ, AMSG and BULK, and each network's shares (01 R27). -/
structure Outlet where
  turn : Nat
  shares : Table Shares
deriving DecidableEq, Repr

/-- The mesh and the abstract machine's buffers. `seqs` are the next packet numbers by source, destination and network
(10 R146), `floors` the numbers below which every reduce packet of a command has been applied at a home (16 R250),
`outs` the router outputs, `served` the stations' shares (01 R27), `nextInj` the fabric cycle at which a core
under a limit may inject again (R30), and `order` counts the comings of packets to routers. -/
structure Fabric where
  net : List Packet
  retries : List Retry
  issue : List Access
  bufs : List Access
  lines : List LineEntry
  ranges : List RangeEntry
  reduced : List Reduced
  floors : List Reduced
  repl : List ReplWrite
  stamp : Nat
  nextNum : Nat
  draining : Bool
  deadLinks : List Nat
  stucklim : Nat
  seqs : Table Nat
  outs : Table Outlet
  served : Table Shares
  nextInj : Table Nat
  order : Nat
deriving DecidableEq, Repr

/-- Whose turn it is (an agenda entry): a sequencer runs its next instruction; a sequencer runs it with its answers
left to later turns; both sequencers of a core run theirs in one cycle (07 R101); another agent's event happens; ticks
pass; a core's micro-kernel acts on a delivered trap; a cached instruction line is dropped; a router output sends a
packet; every router output sends one, some times over; a MGMT packet or the micro-kernel activates a handler on an idle
core (22 R292); the management plane sets STUCKLIM (01 R30); the driver sets a virtqueue's size, a queue's interrupt
follows its used-ring index, and a chain with an opcode of no command arrives (24 R323); an engine reads a source element of a command ahead of its
write, or lands one ahead of the frontier (16 R235). -/
inductive Turn
  | run (p : Place) (q : SeqId)
  | slow (p : Place) (q : SeqId)
  | event (i : Instr)
  | time (n : Nat)
  | micro (p : Place)
  | evict (clu line : Nat)
  | both (p : Place)
  | hop (node : Nat) (d : Dir)
  | mesh (n : Nat)
  | manage (p : Place) (n : Nat) (payload : List Word)
  | kernel (p : Place) (n : Nat) (payload : List Word)
  | stucklim (n : Nat)
  | fetch (cmd i : Nat)
  | land (cmd i : Nat)
  | queueSize (fn : HostFn) (q n : Nat)
  | interrupt (fn : HostFn) (q : Nat)
  | badOpcode (h : CmdHead)
deriving DecidableEq, Repr

/-- The three members of the family (01 R3, R25). -/
inductive Variant | dl16 | dl12 | dl8
deriving DecidableEq, Repr

/-- Why a step stops the model. -/
inductive Fault where
  /-- Raised by an access through a page or range entry whose frame lies outside its station's memory: the manual
  gives such an address no byte. Safe: nothing is claimed of what follows. -/
  | frameOutsideStation
deriving DecidableEq, Repr

/-- Why an instruction is refused. -/
inductive Refusal where
  /-- Raised by an arm of `exec` whose instruction has no meaning in the model yet. Safe: nothing is claimed. -/
  | notModelled (mnemonic : String)
deriving DecidableEq, Repr

/-- The whole module. `cur` is the sequencer `exec` acts for, `slowTurn` says that its answers are left to later
turns, `agenda` decides which agent moves next, `free` counts undefined values taken. `spares` are the tables of the
clusters that hold no logical one, `badFrames` the HBM frames that boot has marked as retired (24 R330), `worn` the features of physical cores retired since manufacture (22 R315), and
`cycle` is a core as it stood at the start of the cycle in which both its sequencers act (07 R101), and `cpBanks` the number of
banks of a CP (16 R232), which the module fixes. DESIGN CHOICE (log 133): `tick` is a natural number, of which the 64-bit tick
counter is the low 64 bits. Memory's keys are
given by `Key` in `Mem.lean`. -/
structure State where
  variant : Variant
  tick : Nat
  mem : List Host.Cell
  firmwareMem : List Host.Cell
  cores : Table Core
  clusters : Table Cluster
  parts : Table Part
  cmds : List Cmd
  fab : Fabric
  fw : Firmware
  gov : Governor
  host : HostSide
  sublinks : Table Sublink
  retired : List Nat
  badFrames : List (Nat × Nat)
  frames : Table Nat
  scrubbed : List (Nat × Nat)
  dirty : List (Nat × Nat)
  logs : List LogRec
  agenda : List Turn
  cur : Place × SeqId
  slowTurn : Bool
  nextSid : Nat
  nextCmd : Nat
  saves : Nat
  free : Nat
  spares : Table Cluster
  worn : Table (BitVec 16)
  cycle : Option (Place × Core)
  cpBanks : Nat
  pubs : List (PubKey × PubSet)
deriving DecidableEq, Repr

/-! ## Reset values -/

def LoopCtr.reset : LoopCtr := ⟨0, 0, 0, 0⟩

def Seq.reset : Seq where
  present := false
  ended := true
  pc := 0
  s := Vector.replicate 64 0
  k := Vector.replicate 8 0
  sups := Vector.replicate 64 0
  supk := Vector.replicate 8 0
  lc0 := LoopCtr.reset
  lc1 := LoopCtr.reset
  level := .user
  inTrap := false
  stopped := false
  wait := none
  latch := none
  kept := []
  used := 0
  out := none
  tries := 0
  shelf := []
  fetched := []
  passed := 0
  retry := none
  stores := []
  parcel := none

def Latch.empty : Latch := ⟨none, []⟩

def Vec.reset : Vec := ⟨Vector.replicate 32 (Vector.replicate 32 0), []⟩

def Mat.reset : Mat := ⟨Vector.replicate 4 (Vector.replicate 1024 0), Latch.empty, Latch.empty, 32, 32, 256⟩

def Gb.reset : Gb := ⟨Vector.replicate 1024 0, Vector.replicate 32 0⟩

/-- τ is 2^-20 and ε is +0 (18 R258). -/
def Gmu.reset : Gmu := ⟨Vector.replicate 4 Gb.reset, 0x35800000, 0⟩

def HoldSt.reset : HoldSt := ⟨0, 0, 0, false, false, false, false⟩

def CauseReg.reset : CauseReg := ⟨false, false, false, 0⟩

def Csrs.reset : Csrs where
  hid := 0
  wid := 0
  wfw := 0
  proc := 0
  fpstat := 0
  fpmode := 0
  xferid := 0
  holdst := HoldSt.reset
  deadline := 0
  budget := 0
  left := 0
  cyc := 0
  utvec := 0
  utmask := 0
  cause := CauseReg.reset
  apc := 0
  xpc := 0
  tval := 0

def Queues.reset : Queues := ⟨Vector.replicate 4 [], [], [], []⟩

def Act.reset : Act where
  sid := 0
  hidx := 0
  freq := 0
  lid := 0
  plist := []
  declared := []
  owed := none
  dlPassed := false
  dlmiss := false
  poison := false
  t0 := 0
  held := 0
  pend := []
  holdReq := []
  lack := 0
  seen := 0
  userTrap := none

def Strand.reset : Strand where
  act := Act.reset
  as := Seq.reset
  xs := Seq.reset
  q := Queues.reset
  csr := Csrs.reset
  vec := Vec.reset
  mat := Mat.reset
  gmu := Gmu.reset

def Lb.reset : Lb := ⟨false, 0, 0, 0, 0⟩
def Burr.reset : Burr := ⟨0, 0, 0, 0, 0⟩
def Msh.reset : Msh := ⟨0, false, false, Burr.reset, [], false, none, []⟩
def Mbx.reset : Mbx := ⟨0, [], 0, none, false, 0, 0, false⟩
def Ring.reset : Ring := ⟨0, none⟩
def Trig.reset : Trig := ⟨false, 0, 0, 0, 0, 0, [], 0⟩
def Stash.reset : Stash := ⟨0, false, 0, 0, 0⟩
def Objs.reset : Objs := ⟨[], [], [], [], [], [], []⟩
def Work.reset : Work := ⟨[], [], [], [], [], [], 0, 0, [], []⟩

/-- A core before firmware has set it up: every field that R6's dash marks reads as zero. -/
def Core.reset : Core where
  part := none
  bin := 0
  cur := 0
  state := 0
  feat := 0
  retiring := 0
  lost := 0
  stvec := 0
  running := false
  parkedFault := false
  testing := false
  st := Strand.reset
  objs := Objs.reset
  work := Work.reset
  nE := []
  nW := []
  fe := false
  fw := false
  interval := 0
  filter := []
  overflowed := false
  pendFaults := []
  rlcTrap := none
  oldTabs := none

def Rlc.reset : Rlc := ⟨[], none, 0, 0, 0, 0, []⟩
def Cluster.reset : Cluster := ⟨[], [], [], Rlc.reset, ⟨[], false, 0, 1⟩, false, false⟩
def Meter.reset : Meter := ⟨0, Vector.replicate 4 0, 0, 0, 0, 0, 0, 0, 0, 0, 0⟩

/-- A partition number that no CREATE has made. -/
def Attrs.blank : Attrs where
  clu := 0
  ncols := 0
  nrows := 0
  shape := 0
  subn := 0
  weight := 0
  tslice := 100000
  codeb := 0
  codeSize := 0
  hcount := 0
  htab := 0
  rtab := 0
  wdogDef := 256
  retryLim := 64
  avgThr := 4
  scount := 0
  debugHold := false
  ingress := 0
  proc0 := 0

def Part.blank : Part where
  attrs := Attrs.blank
  procs := []
  ranges := []
  frames := []
  holds := []
  parked := []
  marks := []
  pois := []
  stages := []
  launch := none
  tenants := []
  tenant := 0
  switching := false
  sliceAt := 0
  paused := false
  dead := false
  limited := []
  meter := Meter.reset
  period := 100000000
  periodNew := false
  exchangeAt := 0
  usageAt := 0
  usage := []
  created := 0

def Fabric.reset : Fabric := ⟨[], [], [], [], [], [], [], [], [], 0, 0, false, [], 65536, [], [], [], [], 0⟩
def Firmware.reset : Firmware := ⟨false, false, 0, 0, Vector.replicate 2 none, 0, []⟩
/-- G is 0 and the cap 10,000 W (24 R330, R335). -/
def Governor.reset : Governor := ⟨0, 10000, [], 0, 0⟩
def HostSide.reset : HostSide := ⟨[], [], [], [], [], [], 0, []⟩

/-- The module after cold reset (00 R6): no strand runs, no partition exists, every memory byte reads zero, and
firmware has not booted. -/
def State.reset : State where
  variant := .dl16
  tick := 0
  mem := []
  firmwareMem := []
  cores := []
  clusters := []
  parts := []
  cmds := []
  fab := Fabric.reset
  fw := Firmware.reset
  gov := Governor.reset
  host := HostSide.reset
  sublinks := []
  retired := []
  badFrames := []
  frames := []
  scrubbed := []
  dirty := []
  logs := []
  agenda := []
  cur := (0, .as)
  slowTurn := false
  nextSid := 1
  nextCmd := 1
  saves := 0
  free := 0
  spares := []
  worn := []
  cycle := none
  cpBanks := 32
  pubs := []

end Sys2Proof.Machine
end

