-- ==== Sys2Proof/Machine/Float.lean ====
section
/-! DEFINITION. Number formats and arithmetic (spec 05): the formats, exact values, one rounding function for every
format, and the operations, conversions and flags built on it. -/

namespace Sys2Proof.Machine

/-! ## Formats (R64) -/

/-- A floating-point format: exponent and fraction widths. -/
structure Fmt where
  eb : Nat
  mb : Nat
deriving DecidableEq, Repr

def fmtOf : XT → Fmt
  | .f64 => ⟨11, 52⟩
  | .f16 => ⟨5, 10⟩
  | .bf16 => ⟨8, 7⟩
  | .e4m3 => ⟨4, 3⟩
  | .e5m2 => ⟨5, 2⟩
  | _ => ⟨8, 23⟩

/-- The exponent bias. -/
def Fmt.bias (f : Fmt) : Nat := 2 ^ (f.eb - 1) - 1
/-- The width in bits. -/
def Fmt.width (f : Fmt) : Nat := f.eb + f.mb + 1
/-- The exponent of the smallest normal number. -/
def Fmt.emin (f : Fmt) : Int := 1 - f.bias

/-- The canonical NaN of a format (R64). -/
def canonNan (x : XT) : Nat :=
  if x = .e4m3 then 0x7F
  else
    let f := fmtOf x
    (2 ^ f.eb - 1) * 2 ^ f.mb + 2 ^ (f.mb - 1)

/-- The encoding of an infinity; E4M3 has none and its 0x7F stands here (R76). -/
def infBits (x : XT) (neg : Bool) : Nat :=
  if x = .e4m3 then 0x7F
  else
    let f := fmtOf x
    b2n neg * 2 ^ (f.eb + f.mb) + (2 ^ f.eb - 1) * 2 ^ f.mb

/-- The encoding of the largest finite value. -/
def maxBits (x : XT) (neg : Bool) : Nat :=
  let f := fmtOf x
  b2n neg * 2 ^ (f.eb + f.mb)
    + (if x = .e4m3 then 0x7E else (2 ^ f.eb - 2) * 2 ^ f.mb + (2 ^ f.mb - 1))

/-- The exact value of an encoding (R64, R65). -/
def decodeF (x : XT) (w : Nat) : FVal :=
  let f := fmtOf x
  let neg := bitAt w (f.eb + f.mb)
  let ef := bitsAt w f.mb f.eb
  let mf := bitsAt w 0 f.mb
  if ef = 0 then .fin neg mf (f.emin - f.mb)
  else if ef = 2 ^ f.eb - 1 && (x != .e4m3 || mf == 7) then
    if x = .e4m3 then .nan false
    else if mf = 0 then .inf neg
    else .nan (x != .e5m2 && !bitAt mf (f.mb - 1))
  else .fin neg (2 ^ f.mb + mf) (ef - f.bias - f.mb)

/-! ## Flags (R77) and rounding (R75) -/

abbrev Flags := BitVec 5
namespace Flag
def nv : Flags := 16
def dz : Flags := 8
def of : Flags := 4
def uf : Flags := 2
def nx : Flags := 1
end Flag

/-- `n` as a length in bits. -/
def bitLen (n : Nat) : Nat := if n = 0 then 0 else n.log2 + 1

/-- `m × 2^e`, plus a sticky remainder below one unit, in units of `2^q`: the integer by a rounding attribute and
whether it is inexact. `rm` is 0 RNE, 1 RTZ, 2 RUP, 3 RDN. A sticky remainder is exact only where e < q. -/
def roundUnits (rm : Nat) (neg : Bool) (m : Nat) (e q : Int) (sticky : Bool) : Nat × Bool :=
  if q ≤ e then
    let r := m * 2 ^ (e - q).toNat
    (if sticky && ((rm = 2 && !neg) || (rm = 3 && neg)) then r + 1 else r, sticky)
  else
    let d := (q - e).toNat
    let r := m / 2 ^ d
    let rest := m % 2 ^ d
    let half := 2 ^ (d - 1)
    let inexact := rest != 0 || sticky
    let up :=
      match rm with
      | 0 => decide (half < rest) || (rest == half && (sticky || r % 2 == 1))
      | 1 => false
      | 2 => inexact && !neg
      | _ => inexact && neg
    (if up then r + 1 else r, inexact)

/-- The rounding of `m × 2^e` (and a sticky remainder) to a format: its encoding and flags. -/
def roundTo (x : XT) (rm : Nat) (neg : Bool) (m : Nat) (e : Int) (sticky : Bool) : Nat × Flags :=
  let f := fmtOf x
  let sign := b2n neg * 2 ^ (f.eb + f.mb)
  if m = 0 && !sticky then (sign, 0)
  else
    let lead : Int := (bitLen m : Int) - 1 + e
    let qu : Int := lead - f.mb
    let q : Int := max qu (f.emin - f.mb)
    let (r, inexact) := roundUnits rm neg m e q sticky
    let (ru, _) := roundUnits rm neg m e qu sticky
    let tiny := decide (((bitLen ru : Int) - 1 + qu) < f.emin)
    let enc : Nat := ((q + f.mb + f.bias).toNat) * 2 ^ f.mb + r - 2 ^ f.mb
    let top := if x = .e4m3 then 0x7E else (2 ^ f.eb - 1) * 2 ^ f.mb - 1
    if top < enc then
      let big :=
        if x = .e4m3 then maxBits x neg
        else
          match rm with
          | 0 => infBits x neg
          | 1 => maxBits x neg
          | 2 => if neg then maxBits x neg else infBits x neg
          | _ => if neg then infBits x neg else maxBits x neg
      (big, Flag.of ||| Flag.nx)
    else
      (sign + enc,
        (if inexact then Flag.nx else 0) ||| (if tiny && inexact then Flag.uf else 0))

/-- An exact value with the remainder that a division or root leaves below its last bit. -/
structure Exact where
  v : FVal
  sticky : Bool
deriving DecidableEq, Repr

/-- The rounding of an exact value to a float format; a NaN gives the canonical NaN, and an infinity given to E4M3 is
invalid (R76). -/
def roundF (x : XT) (rm : Nat) (a : Exact) : Nat × Flags :=
  match a.v with
  | .nan sg => (canonNan x, if sg then Flag.nv else 0)
  | .inf neg => (infBits x neg, if x = .e4m3 then Flag.nv else 0)
  | .fin neg m e => roundTo x rm neg m e a.sticky

/-! ## Exact arithmetic -/

namespace FVal

def isNan : FVal → Bool
  | .nan _ => true
  | _ => false
def isSNan : FVal → Bool
  | .nan b => b
  | _ => false
def isInf : FVal → Bool
  | .inf _ => true
  | _ => false
def isZero : FVal → Bool
  | .fin _ m _ => m == 0
  | _ => false
def isFinite : FVal → Bool
  | .fin _ _ _ => true
  | _ => false
/-- The sign; a NaN has none. -/
def neg? : FVal → Bool
  | .nan _ => false
  | .inf n => n
  | .fin n _ _ => n
/-- The magnitude. -/
def abs : FVal → FVal
  | .nan b => .nan b
  | .inf _ => .inf false
  | .fin _ m e => .fin false m e
/-- The value with its sign changed. -/
def negate : FVal → FVal
  | .nan b => .nan b
  | .inf n => .inf !n
  | .fin n m e => .fin (!n) m e

/-- +0. -/
def zero : FVal := .fin false 0 0
/-- An integer. -/
def ofInt (i : Int) : FVal := .fin (decide (i < 0)) i.natAbs 0
/-- The mantissa at an exponent no greater than the value's own. -/
def scaled (neg : Bool) (m : Nat) (e e0 : Int) : Int :=
  let k : Int := (m * 2 ^ (e - e0).toNat : Nat)
  if neg then -k else k

/-- a + b, exact. A zero sum of values that are not both zeros of one sign is +0, and −0 in RDN (08 R118). -/
def add (rm : Nat) (a b : FVal) : FVal :=
  match a, b with
  | .nan x, .nan y => .nan (x || y)
  | .nan x, _ => .nan x
  | _, .nan y => .nan y
  | .inf x, .inf y => if x = y then .inf x else .nan false
  | .inf x, _ => .inf x
  | _, .inf y => .inf y
  | .fin n1 m1 e1, .fin n2 m2 e2 =>
    let e0 := min e1 e2
    let k := scaled n1 m1 e1 e0 + scaled n2 m2 e2 e0
    if k = 0 then
      (if m1 = 0 ∧ m2 = 0 ∧ n1 = n2 then .fin n1 0 0 else .fin (rm == 3) 0 0)
    else .fin (decide (k < 0)) k.natAbs e0

/-- a × b, exact. -/
def mul (a b : FVal) : FVal :=
  match a, b with
  | .nan x, .nan y => .nan (x || y)
  | .nan x, _ => .nan x
  | _, .nan y => .nan y
  | .inf x, .inf y => .inf (x != y)
  | .inf x, .fin n m _ => if m = 0 then .nan false else .inf (x != n)
  | .fin n m _, .inf y => if m = 0 then .nan false else .inf (n != y)
  | .fin n1 m1 e1, .fin n2 m2 e2 => .fin (n1 != n2) (m1 * m2) (e1 + e2)

/-- a and b compared; none where either is a NaN. Zeros are equal. -/
def cmp (a b : FVal) : Option Ordering :=
  match a, b with
  | .nan _, _ => none
  | _, .nan _ => none
  | .inf x, .inf y => some (if x = y then .eq else if x then .lt else .gt)
  | .inf x, _ => some (if x then .lt else .gt)
  | _, .inf y => some (if y then .gt else .lt)
  | .fin n1 m1 e1, .fin n2 m2 e2 =>
    let e0 := min e1 e2
    some (compare (scaled n1 m1 e1 e0) (scaled n2 m2 e2 e0))

def lt (a b : FVal) : Bool := a.cmp b == some .lt
def gt (a b : FVal) : Bool := a.cmp b == some .gt
def eqv (a b : FVal) : Bool := a.cmp b == some .eq

/-- The order of min and max: as `lt`, with −0 below +0 (R65). -/
def below (a b : FVal) : Bool := a.lt b || (a.isZero && b.isZero && a.neg? && !b.neg?)

end FVal

/-- a ÷ b: exact but for a sticky remainder below 2^−`bits` of the quotient. Zero divided by zero and infinity by
infinity give NaN; a zero divisor gives an infinity. -/
def divExact (bits : Nat) (a b : FVal) : Exact :=
  match a, b with
  | .nan x, .nan y => ⟨.nan (x || y), false⟩
  | .nan x, _ => ⟨.nan x, false⟩
  | _, .nan y => ⟨.nan y, false⟩
  | .inf _, .inf _ => ⟨.nan false, false⟩
  | .inf x, .fin n _ _ => ⟨.inf (x != n), false⟩
  | .fin n _ _, .inf y => ⟨.fin (n != y) 0 0, false⟩
  | .fin n1 m1 e1, .fin n2 m2 e2 =>
    if m2 = 0 then (if m1 = 0 then ⟨.nan false, false⟩ else ⟨.inf (n1 != n2), false⟩)
    else if m1 = 0 then ⟨.fin (n1 != n2) 0 0, false⟩
    else
      let k := bits + bitLen m2
      ⟨.fin (n1 != n2) (m1 * 2 ^ k / m2) (e1 - e2 - k), m1 * 2 ^ k % m2 != 0⟩

/-- The integer square root, bit by bit from bit `i`. -/
def sqrtBits : Nat → Nat → Nat → Nat
  | 0, _, r => r
  | i + 1, m, r => sqrtBits i m (if (r + 2 ^ i) * (r + 2 ^ i) ≤ m then r + 2 ^ i else r)

/-- √a, exact but for a sticky remainder; a value below −0 gives NaN (R65). -/
def sqrtExact (bits : Nat) (a : FVal) : Exact :=
  match a with
  | .nan b => ⟨.nan b, false⟩
  | .inf n => if n then ⟨.nan false, false⟩ else ⟨.inf false, false⟩
  | .fin n m e =>
    if m = 0 then ⟨.fin n 0 0, false⟩
    else if n then ⟨.nan false, false⟩
    else
      let k := 2 * bits + (if (e - 2 * bits) % 2 = 0 then 0 else 1)
      let mm := m * 2 ^ k
      let r := sqrtBits (bitLen mm / 2 + 1) mm 0
      ⟨.fin false r ((e - k) / 2), r * r != mm⟩

/-- Bits enough for every format's rounding of a quotient or root. -/
def guardBits : Nat := 60

/-! ## Scalar operations on encodings (08 R118) -/

/-- A result: any NaN operand gives the canonical NaN, a signalling one raises NV, and an invalid operation on other
operands gives it and raises NV (R65). -/
def arith (x : XT) (rm : Nat) (ops : List FVal) (r : Exact) : Nat × Flags :=
  let fl : Flags := if ops.any FVal.isSNan then Flag.nv else 0
  if ops.any FVal.isNan then (canonNan x, fl)
  else if r.v.isNan then (canonNan x, Flag.nv)
  else roundF x rm r

def fAdd (x : XT) (rm a b : Nat) : Nat × Flags :=
  let a := decodeF x a
  let b := decodeF x b
  arith x rm [a, b] ⟨a.add rm b, false⟩
def fSub (x : XT) (rm a b : Nat) : Nat × Flags :=
  let a := decodeF x a
  let b := decodeF x b
  arith x rm [a, b] ⟨a.add rm b.negate, false⟩
def fMul (x : XT) (rm a b : Nat) : Nat × Flags :=
  let a := decodeF x a
  let b := decodeF x b
  arith x rm [a, b] ⟨a.mul b, false⟩
def fMa (x : XT) (rm a b c : Nat) : Nat × Flags :=
  let a := decodeF x a
  let b := decodeF x b
  let c := decodeF x c
  arith x rm [a, b, c] ⟨(a.mul b).add rm c, false⟩
def fDiv (x : XT) (rm a b : Nat) : Nat × Flags :=
  let a := decodeF x a
  let b := decodeF x b
  let r := arith x rm [a, b] (divExact guardBits a b)
  (r.1, r.2 ||| (if b.isZero && a.isFinite && !a.isZero then Flag.dz else 0))
def fSqrt (x : XT) (rm a : Nat) : Nat × Flags :=
  let a := decodeF x a
  arith x rm [a] (sqrtExact guardBits a)

/-- Minimum, or maximum: one NaN gives the other operand, two the canonical NaN (R65). -/
def fMinMax (x : XT) (wantMax : Bool) (a b : Nat) : Nat × Flags :=
  let u := decodeF x a
  let v := decodeF x b
  let fl : Flags := if u.isSNan || v.isSNan then Flag.nv else 0
  if u.isNan && v.isNan then (canonNan x, fl)
  else if u.isNan then (b, fl)
  else if v.isNan then (a, fl)
  else if wantMax then (if u.below v then b else a, fl)
  else (if v.below u then b else a, fl)

/-- A comparison and its flags (08 R119). -/
def fCmp (x : XT) (cc : FCond) (a b : Nat) : Bool × Flags :=
  let u := decodeF x a
  let v := decodeF x b
  let sg := u.isSNan || v.isSNan
  let un := u.isNan || v.isNan
  let r :=
    match cc with
    | .eq => u.eqv v
    | .lt => u.lt v
    | .le => u.lt v || u.eqv v
    | .un => un
    | .ne => !u.eqv v
  (r, if sg || (un && (cc == .lt || cc == .le)) then Flag.nv else 0)

/-! ## Conversions (R76) -/

/-- The nearest integer by a rounding attribute, and whether it is inexact. -/
def roundInt (rm : Nat) (neg : Bool) (m : Nat) (e : Int) (sticky : Bool) : Int × Bool :=
  let (r, ix) := roundUnits rm neg m e 0 sticky
  (if neg then -(r : Int) else r, ix)

/-- A value converted to the integers from `lo` to `hi`, clamped: NaN gives 0, and a clamp, an infinity and a NaN
raise NV (R76, R69). -/
def toIntRange (rm : Nat) (lo hi : Int) (a : Exact) : Int × Flags :=
  match a.v with
  | .nan _ => (0, Flag.nv)
  | .inf neg => (if neg then lo else hi, Flag.nv)
  | .fin neg m e =>
    let (r, ix) := roundInt rm neg m e a.sticky
    if r < lo then (lo, Flag.nv)
    else if hi < r then (hi, Flag.nv)
    else (r, if ix then Flag.nx else 0)

/-- The range of an integer code of width `w`. -/
def intRange (x : XT) : Int × Int :=
  let w : Nat :=
    match x with
    | .i64 | .z64 => 64
    | .i32 | .z32 => 32
    | .i16 | .z16 => 16
    | _ => 8
  match x with
  | .i64 | .i32 | .i16 | .i8 => (-(2 ^ (w - 1) : Nat), (2 ^ (w - 1) : Nat) - 1)
  | _ => (0, (2 ^ w : Nat) - 1)

/-- The codes of integers. -/
def isIntCode : XT → Bool
  | .i64 | .i32 | .i16 | .i8 | .z64 | .z32 | .z16 | .z8 => true
  | _ => false

/-- The width in bits of a code (07 R89). -/
def xwidth : XT → Nat
  | .i64 | .z64 | .f64 => 64
  | .i32 | .z32 | .f32 => 32
  | .i16 | .z16 | .f16 | .bf16 => 16
  | .i8 | .z8 | .e4m3 | .e5m2 => 8

/-- The exact value of an element of a code, without a scale. -/
def valueOf (x : XT) (w : Nat) : FVal :=
  if isIntCode x then
    let n := xwidth x
    let u := w % 2 ^ n
    match x with
    | .i64 | .i32 | .i16 | .i8 => FVal.ofInt (if u < 2 ^ (n - 1) then (u : Int) else (u : Int) - (2 ^ n : Nat))
    | _ => FVal.ofInt u
  else decodeF x w

/-- An exact value converted to a code: its low bits and flags. DESIGN CHOICE (log 99): an integer converted to a narrower
integer code by an engine's copy goes to the nearest value of its range; R76 gives no conversion of integers to integers. -/
def convertTo (x : XT) (rm : Nat) (a : Exact) : Nat × Flags :=
  if isIntCode x then
    let (lo, hi) := intRange x
    let (r, fl) := toIntRange rm lo hi a
    ((r % (2 ^ xwidth x : Nat)).toNat, fl)
  else roundF x rm a

/-- `fcvt` and `vcvt` on one element (08 R121): equal float codes leave the operand, but for a NaN. -/
def convertElem (x fr : XT) (rm : Nat) (w : Nat) : Nat × Flags :=
  let v := valueOf fr w
  if x = fr && !isIntCode x && !v.isNan then (w % 2 ^ xwidth x, 0)
  else convertTo x rm ⟨v, false⟩

/-! ## Block scales (R73, R74) -/

/-- The scale of a block: none stands for the NaN scale. -/
def scaleOf (e f : Nat) : Option FVal :=
  if e = 0xFF then none else some (.fin false (4 + f % 4) ((e : Int) - 129))

/-- A decoded value times its block's scale. -/
def scaledVal (e f : Nat) (v : FVal) : FVal :=
  match scaleOf e f with
  | none => .nan false
  | some sc => v.mul sc

/-- A value divided by a scale, for writing. -/
def unscaled (e f : Nat) (v : FVal) : Exact :=
  match scaleOf e f with
  | none => ⟨.nan false, false⟩
  | some sc => divExact 200 v sc

/-- The exponent of the automatic scale (R74): the smallest E from 0 to 254 with amax ≤ fmax × 2^(E−127); 127 for a
block of zeros. -/
def autoScale (fmax : Nat) (amax : FVal) : Nat :=
  if amax.isZero then 127
  else
    ((List.range 255).find? fun (e : Nat) => !(amax.gt (.fin false fmax ((e : Int) - 127)))).getD 254

/-- The largest magnitude of the automatic rule, by format and planed depth (R74). -/
def autoMax (x : XT) : Option Nat :=
  match x with
  | .e4m3 => some 448
  | .e5m2 => some 57344
  | .i8 => some 127
  | _ => none

/-- The largest magnitude of a list; NaNs and infinities take no part. DESIGN CHOICE (log 98): it is 0 where no element is
finite, which R74 does not say, and the block's scale then has E = 127. -/
def amaxOf (vs : List FVal) : FVal :=
  vs.foldl (fun m v => if v.isFinite && v.abs.gt m then v.abs else m) FVal.zero

/-! ## Sums (R78) and FP32 helpers -/

/-- The exact sum of terms from a start, under R78: zero is −0 only where every term is −0. -/
def sumExact (start : FVal) (ts : List FVal) : FVal :=
  let r := ts.foldl (fun s t => s.add 0 t) start
  match r with
  | .fin _ 0 _ => .fin ((start :: ts).all fun t => t.neg? && t.isZero) 0 0
  | v => v

/-- RNE32 of an exact value, with its flags. -/
def rne32 (v : FVal) : Lane × Flags :=
  let (b, fl) := roundF .f32 0 ⟨v, false⟩
  (BitVec.ofNat 32 b, fl)

/-- The exact value of an FP32 word. -/
def fv32 (w : Lane) : FVal := decodeF .f32 w.toNat

end Sys2Proof.Machine
end

