-- ==== Sys2Proof/Machine/Mem.lean ====
section
/-! DEFINITION. Sparse tables, the module's memory, the keys of its bytes, and the translation of global addresses
(22 R306 to R309). -/

namespace Sys2Proof.Machine

/-! ## Tables -/

/-- The value at a key, or `d`. -/
def Table.get {α : Type} (d : α) : Table α → Nat → α
  | [], _ => d
  | (k', v) :: t, k => if k = k' then v else Table.get d t k

/-- The value at a key, if the table lists it. -/
def Table.find {α : Type} : Table α → Nat → Option α
  | [], _ => none
  | (k', v) :: t, k => if k = k' then some v else Table.find t k

/-- The table with a key's value set; the keys stay rising. -/
def Table.set {α : Type} : Table α → Nat → α → Table α
  | [], k, v => [(k, v)]
  | (k', v') :: t, k, v =>
    if k < k' then (k, v) :: (k', v') :: t
    else if k = k' then (k, v) :: t
    else (k', v') :: Table.set t k v

/-- The table without a key. -/
def Table.drop {α : Type} (t : Table α) (k : Nat) : Table α := t.filter (fun e => e.1 != k)

/-! ## Memory -/

/-- Memory as a canonical list of cells. -/
abbrev Memory := List Host.Cell

/-- What an address that memory does not list reads as: a byte that nothing has written since reset. -/
def Memory.unlisted : Byte := 0

/-- The byte at a key. -/
def Memory.get : Memory → Nat → Byte
  | [], _ => Memory.unlisted
  | (a', b) :: m, a => if a = a' then b else Memory.get m a

/-- Memory with one byte written, in canonical form. -/
def Memory.set : Memory → Nat → Byte → Memory
  | [], a, b => if b = Memory.unlisted then [] else [(a, b)]
  | (a', b') :: m, a, b =>
    if a < a' then (if b = Memory.unlisted then (a', b') :: m else (a, b) :: (a', b') :: m)
    else if a = a' then (if b = Memory.unlisted then m else (a, b) :: m)
    else (a', b') :: Memory.set m a b

/-- The canonical form: keys strictly rising above `lo`, no entry equal to what an unlisted key reads as. -/
def Memory.wfFrom : Nat → Memory → Bool
  | _, [] => true
  | lo, (a, b) :: m => decide (lo ≤ a) && (b != Memory.unlisted) && Memory.wfFrom (a + 1) m

/-- The canonical form of the whole memory. -/
def Memory.wf (m : Memory) : Bool := Memory.wfFrom 0 m

/-- Memory after the bytes of a list are written in order. -/
def Memory.setAll (m : Memory) (kvs : List (Nat × Byte)) : Memory := kvs.foldl (fun m kv => m.set kv.1 kv.2) m

/-- The bytes at keys, in order. -/
def Memory.getAll (m : Memory) (ks : List Nat) : List Byte := ks.map m.get

/-- The number that bytes hold, least significant first (00 R5). -/
def leOf : List Byte → Nat
  | [] => 0
  | b :: bs => b.toNat + 256 * leOf bs

/-- `n` bytes of a number, least significant first. -/
def leBytesOf : Nat → Nat → List Byte
  | 0, _ => []
  | n + 1, v => BitVec.ofNat 8 v :: leBytesOf n (v / 256)

/-- `n` consecutive numbers from `a`. -/
def span (a n : Nat) : List Nat := (List.range n).map (a + ·)

/-! ## Keys -/

/-- A byte of a core's scratchpad: its on-chip-map address (10 R136). -/
def Key.cp (p : Place) (off : Nat) : Nat := 2 ^ 63 + p / 8 % 2048 * 2 ^ 37 + p % 8 * 2 ^ 34 + off
/-- A byte of a cluster's memory: its on-chip-map address. -/
def Key.cm (clu off : Nat) : Nat := 2 ^ 63 + clu * 2 ^ 37 + 2 ^ 28 + off
/-- A byte of the HBM behind a station, by its station-local address (22 R306). -/
def Key.hbm (station addr : Nat) : Nat := 2 ^ 64 + station * 2 ^ 52 + addr

/-- The bank of a byte of a CP: consecutive 64-byte lines lie in consecutive banks. DESIGN CHOICE (log 96): the manual gives
neither the number of a CP's banks nor which bytes they hold. -/
def State.cpBank (s : State) (off : Nat) : Nat := off / 64 % s.cpBanks
/-- The bank of a byte of a CM, of its 32 (01 R15), on the same scheme. -/
def cmBank (off : Nat) : Nat := off / 64 % 32

/-- The home of a byte of a core's scratchpad, or of a cluster's memory (16 R232). -/
def State.cpHome (s : State) (p : Place) (off : Nat) : Home := .cp p (s.cpBank off)
def cmHome (clu off : Nat) : Home := .cm clu (cmBank off)

/-- The home of the byte at a key, for an access to a home: of a scratchpad or a cluster's memory, its bank. -/
def State.bankOf (s : State) (h : Home) (k : Nat) : Home :=
  match h with
  | .cp p _ => s.cpHome p (k % 2 ^ 28)
  | .cm clu _ => cmHome clu (k % 2 ^ 28)
  | h => h

/-! ## The module's shape (01 R10, R18, R25) -/


/-- Columns of clusters. -/
def State.cols (s : State) : Nat :=
  match s.variant with
  | .dl16 => 64
  | .dl12 => 48
  | .dl8 => 32

/-- HBM stacks. -/
def State.nStacks (s : State) : Nat :=
  match s.variant with
  | .dl16 => 8
  | .dl12 => 6
  | .dl8 => 4

/-- The module feature mask of the shape table; the mask a query returns is `moduleMask`. -/
def State.variantMask (s : State) : BitVec 16 :=
  match s.variant with
  | .dl8 => 0x1E
  | _ => 0x1F


/-- The bytes of HBM behind one station: 80 GB over the 16 stations of a stack (00 R2, 01 R18). -/
def stationBytes : Nat := 5000000000

/-- The station of a stack's streamer port: north stations are numbered by column, south ones by 64 plus column
(01 R18, R25; 22 R306). -/
def State.stationOf (s : State) (stack port : Nat) : Nat :=
  if stack < s.nStacks / 2 then 16 * stack + port else 64 + 16 * (stack - s.nStacks / 2) + port

/-- The station that slot `j` of the interleave table names (22 R306). -/
def State.slotStation (s : State) (j : Nat) : Nat := s.stationOf (j / 16 % s.nStacks) (j % 16)

/-- The rank of slot `j` (22 R306). -/
def State.rank (s : State) (j : Nat) : Nat := j / 16 / s.nStacks

/-- The slot of an address: a[18:12]. -/
def slotOf (a : Nat) : Nat := bitsAt a 12 7

/-- The stack of a station. -/
def State.stackOf (s : State) (station : Nat) : Nat :=
  if station < 64 then station / 16 else s.nStacks / 2 + (station - 64) / 16

/-- The column and row of a core (01 R10). -/
def colOf (p : Place) : Nat := p / 8 % 64
def rowOf (p : Place) : Nat := p / 512

/-- The stack that owns a replicated page for a core (22 R307): that of the station at the nearer end of its
column. -/
def State.replStack (s : State) (p : Place) : Nat :=
  if rowOf p ≤ 15 then colOf p / 16 else s.nStacks / 2 + colOf p / 16

/-- The place of a station (01 R11). -/
def stationPlace (station : Nat) : Place := 0x4000 + (if station < 64 then station else 0x40 + (station - 64))

/-- A range of at most 4 KiB cut where 4 KiB units meet. -/
def pieces (a n : Nat) : List (Nat × Nat) :=
  let k := min n (4096 - a % 4096)
  if k = n then [(a, n)] else [(a, k), (a + k, n - k)]

/-! ## Page tables (22 R308) -/

/-- A leaf: its frame, the first address it maps, its size and its attributes. -/
structure Leaf where
  frame : Nat
  base : Nat
  size : Nat
  repl : Bool
  sd : Bool
  at_ : Bool
  w : Bool
  r : Bool
deriving DecidableEq, Repr

/-- A page-table entry's reserved bits are zero. -/
def pteOk (e : Nat) : Bool := bitsAt e 59 5 == 0 && bitsAt e 9 3 == 0 && !bitAt e 2 && bitAt e 0

/-- The leaf that an entry gives for an address, with its size; a replicated page above 64 KiB, and a frame with
bit 39 set on a module whose slots name a station twice, give none (R306, R307). -/
def State.leafOf (s : State) (e a size : Nat) : Option Leaf :=
  let f := bitsAt e 12 40 * 4096
  if (bitAt e 7 && decide (65536 < size)) || (s.nStacks != 8 && bitAt f 39) then none
  else some { frame := f, base := a / size * size, size := size, repl := bitAt e 7, sd := bitAt e 6,
              at_ := bitAt e 5, w := bitAt e 4, r := bitAt e 3 }

/-- A 64-bit little-endian word of a station's memory. -/
def State.hbm64 (s : State) (station addr : Nat) : Nat :=
  leOf (Memory.getAll s.mem (span (Key.hbm station addr) 8))

/-- The levels of the walk below level 0: the shift of the index and the size a leaf there maps. -/
def walkLevels : List (Nat × Nat) := [(30, 2 ^ 30), (21, 2 ^ 21), (12, 4096)]

/-- One entry of a table and the levels below it. -/
def State.walkFrom (s : State) (a : Nat) : List (Nat × Nat) → Nat → Nat → Option Leaf
  | [], _, _ => none
  | (sh, size) :: rest, slot, tab =>
    let st := s.slotStation slot
    if stationBytes < tab + 4096 then none
    else
      let e := s.hbm64 st (tab + 8 * bitsAt a sh 9)
      if !pteOk e then none
      else if bitAt e 1 then
        if bitAt e 8 then
          if size = 4096
            && ((List.range 16).all fun i => s.hbm64 st (tab + 8 * (bitsAt a sh 9 / 16 * 16 + i)) == e)
          then s.leafOf e a 65536 else none
        else s.leafOf e a size
      else s.walkFrom a rest (bitsAt e 52 7) (bitsAt e 12 40 * 4096)

/-- The valid process-table entry of a process id (22 R308). -/
def findProc (t : Table (BitVec 128)) (proc : BitVec 16) : Option Nat :=
  (t.find? fun e => e.2.getLsbD 16 && e.2.extractLsb' 0 16 == proc).map (·.2.toNat)

/-- The walk of a process's tree (22 R308). -/
def State.walk (s : State) (procs : Table (BitVec 128)) (proc : BitVec 16) (a : Nat) : Option Leaf :=
  match findProc procs proc with
  | none => none
  | some e =>
    let n := bitsAt e 64 5
    let st := s.slotStation (bitsAt e 69 7)
    let tab := bitsAt e 76 40 * 4096
    let ix := bitsAt a 39 18
    if n = 0 || decide (18 < n) || decide (2 ^ n ≤ ix) || decide (stationBytes < tab + 8 * 2 ^ n)
      || decide (2 ^ 57 ≤ a) then none
    else
      let p := s.hbm64 st (tab + 8 * ix)
      if !pteOk p || bitAt p 1 then none
      else s.walkFrom a walkLevels (bitsAt p 52 7) (bitsAt p 12 40 * 4096)

/-- The key of byte `a` of a page or range that maps `base` to `frame` (22 R306); none outside the station. DESIGN CHOICE (log
111): at a station that the interleave table names twice, each rank has the station's bytes. -/
def State.keyOf (s : State) (base frame a : Nat) : Option Nat :=
  let g := (a - base) / 4096
  let l := frame + s.rank (slotOf a) * 2 ^ 39 + g / 128 * 4096 + a % 4096
  if l - s.rank (slotOf a) * 2 ^ 39 < stationBytes then some (Key.hbm (s.slotStation (slotOf a)) l) else none

/-- The key of byte `a` of a replicated page at one stack (22 R307). -/
def State.replKey (s : State) (stack frame a : Nat) : Option Nat :=
  let l := frame + a % 4096
  if l < stationBytes then some (Key.hbm (s.stationOf stack (bitsAt a 12 4)) l) else none

/-- The key of byte `a` under a leaf, for an access from core `p`. -/
def State.leafKey (s : State) (l : Leaf) (p : Place) (a : Nat) : Option Nat :=
  if l.repl then s.replKey (s.replStack p) l.frame a else s.keyOf l.base l.frame a

/-- The range entry that an engine's address matches at its station (22 R309). -/
def State.rangeOf (s : State) (rs : Table (BitVec 256)) (proc : BitVec 16) (a : Nat) : Option (BitVec 256) :=
  (rs.find? fun e =>
    e.1 / 256 == s.slotStation (slotOf a) && e.2.getLsbD 67 && (e.2.extractLsb' 72 16 == proc)
      && decide ((e.2.extractLsb' 192 64).toNat ≤ a) && decide (a < (e.2.extractLsb' 128 64).toNat)).map (·.2)

/-- The frame and base of a range entry. -/
def rangeFrame (e : BitVec 256) : Nat := (e.extractLsb' 88 40).toNat * 4096
def rangeBase (e : BitVec 256) : Nat := (e.extractLsb' 192 64).toNat

end Sys2Proof.Machine
end

