-- ==== Sys2Proof/Machine/Base.lean ====
section
/-! DEFINITION. The parts of the module and their registers, the monad of an instruction's body, places, neighbour
links, marks and produce sets. -/

namespace Sys2Proof.Machine

/-! ## Parts of the module -/

def State.core (s : State) (p : Place) : Core := Table.get Core.reset s.cores p
def State.setCore (s : State) (p : Place) (c : Core) : State := { s with cores := Table.set s.cores p c }
def State.modCore (s : State) (p : Place) (f : Core → Core) : State := s.setCore p (f (s.core p))
def State.clus (s : State) (n : Nat) : Cluster := Table.get Cluster.reset s.clusters n
def State.setClus (s : State) (n : Nat) (c : Cluster) : State := { s with clusters := Table.set s.clusters n c }
def State.modClus (s : State) (n : Nat) (f : Cluster → Cluster) : State := s.setClus n (f (s.clus n))
def State.part (s : State) (n : Nat) : Part := Table.get Part.blank s.parts n
def State.setPart (s : State) (n : Nat) (c : Part) : State := { s with parts := Table.set s.parts n c }
def State.modPart (s : State) (n : Nat) (f : Part → Part) : State := s.setPart n (f (s.part n))
/-- The partition number of a core; 0 stands for none where no partition exists. -/
def State.partNo (s : State) (p : Place) : Nat := (s.core p).part.getD 0
def State.partOf (s : State) (p : Place) : Part := s.part (s.partNo p)
def State.cmd (s : State) (n : Nat) : Option Cmd := s.cmds.find? (·.id == n)
def State.modCmd (s : State) (n : Nat) (f : Cmd → Cmd) : State :=
  { s with cmds := s.cmds.map fun c => if c.id = n then f c else c }
def State.log (s : State) (r : LogRec) : State := { s with logs := s.logs ++ [r] }

def Strand.seq (t : Strand) : SeqId → Seq
  | .as => t.as
  | .xs => t.xs
def Strand.setSeq (t : Strand) (q : SeqId) (c : Seq) : Strand :=
  match q with
  | .as => { t with as := c }
  | .xs => { t with xs := c }
def otherSeq : SeqId → SeqId
  | .as => .xs
  | .xs => .as

def State.strand (s : State) (p : Place) : Strand := (s.core p).st
def State.modStrand (s : State) (p : Place) (f : Strand → Strand) : State :=
  s.modCore p fun c => { c with st := f c.st }
def State.seqAt (s : State) (p : Place) (q : SeqId) : Seq := (s.strand p).seq q
def State.modSeqAt (s : State) (p : Place) (q : SeqId) (f : Seq → Seq) : State :=
  s.modStrand p fun t => t.setSeq q (f (t.seq q))
/-- The sequencer that the instruction runs on. -/
def State.seq (s : State) : Seq := s.seqAt s.cur.1 s.cur.2
def State.modSeq (s : State) (f : Seq → Seq) : State := s.modSeqAt s.cur.1 s.cur.2 f
def State.me (s : State) : Core := s.core s.cur.1
def State.modMe (s : State) (f : Core → Core) : State := s.modCore s.cur.1 f
def State.my (s : State) : Strand := s.strand s.cur.1
def State.modMy (s : State) (f : Strand → Strand) : State := s.modStrand s.cur.1 f
def State.objs (s : State) (p : Place) : Objs := (s.core p).objs
def State.modObjs (s : State) (p : Place) (f : Objs → Objs) : State :=
  s.modCore p fun c => { c with objs := f c.objs }
def State.modWork (s : State) (p : Place) (f : Work → Work) : State :=
  s.modCore p fun c => { c with work := f c.work }
def State.modCsr (s : State) (p : Place) (f : Csrs → Csrs) : State :=
  s.modStrand p fun t => { t with csr := f t.csr }

/-! ## Registers (07 R97, R98; 22 R292) -/

/-- The scalar file of a sequencer's level. -/
def Seq.file (c : Seq) : Vector Word 64 :=
  match c.level with
  | .user => c.s
  | _ => c.sups

/-- A scalar register; s0 reads as zero. -/
def Seq.readS (c : Seq) (r : Reg) : Word := if r.val = 0 then 0 else c.file[r.val]

/-- A scalar register written; a write to s0 is discarded. -/
def Seq.writeS (c : Seq) (r : Reg) (v : Word) : Seq :=
  if r.val = 0 then c
  else
    match c.level with
    | .user => { c with s := c.s.set r.val v }
    | _ => { c with sups := c.sups.set r.val v }

/-- A predicate register; k0 reads as all ones. -/
def Seq.readK (c : Seq) (k : Fin 8) : Lane :=
  if k.val = 0 then BitVec.allOnes 32
  else
    match c.level with
    | .user => c.k[k.val]
    | _ => c.supk[k.val]

/-- A predicate register written; a write to k0 is discarded. -/
def Seq.writeK (c : Seq) (k : Fin 8) (v : Lane) : Seq :=
  if k.val = 0 then c
  else
    match c.level with
    | .user => { c with k := c.k.set k.val v }
    | _ => { c with supk := c.supk.set k.val v }

/-- The guard as a mask (07 R88). -/
def Seq.mask (c : Seq) (g : Guard) : Lane :=
  if g.inv then ~~~ c.readK g.k else c.readK g.k

/-- The guard as one bit (07 R88). -/
def Seq.passes (c : Seq) (g : Guard) : Bool := (c.mask g).getLsbD 0

/-! ## The body of an instruction -/

/-- What a trap changes although the instruction is not performed: nothing; the replay latch, in the state in which the
request was sent with the value popped (10 R141); the queue entry that the return performs again (10 R142); or the stream
whose marked vector the return fetches again (12 R179). -/
inductive Fix
  | none
  | latch (w : Word) (s : State)
  | redo (i : Fin 4)
  | stream (v : Nat)
deriving DecidableEq, Repr

/-- How a body ends without completing: a trap, with TVAL where the manual gives it one; a wait, with the state to keep where requests have been answered or
sent and none where the instruction is performed again in full; a hold on a withheld object (03 R57); a state it has itself
brought about; a stop of the model. -/
inductive Stop
  | trap (c : Cause) (v : Option Word) (f : Fix)
  | wait (w : Wait) (s : Option State)
  | held (o : ObjRef) (w : Wait) (s : State)
  | own (s : State)
  | fault (f : Fault)

/-- An instruction's body: it reads and changes the state, or stops. -/
abbrev M := StateT State (Except Stop)

/-- Where control goes when a body completes: by the end rule of 08 R126, or to a target. -/
inductive Next
  | fall
  | to (t : Nat)
deriving DecidableEq, Repr

/-- A trap with the value that its cause describes. -/
def trap {α : Type} (c : Cause) (v : Word) : M α := fun _ => .error (.trap c (some v) .none)
/-- A trap for which the manual gives TVAL no value. -/
def trapOpen {α : Type} (c : Cause) : M α := fun _ => .error (.trap c none .none)
def trapIf (b : Bool) (c : Cause) (v : Word) : M Unit := if b then trap c v else pure ()
def waitFor {α : Type} (w : Why) : M α := fun s =>
  .error (.wait ⟨w, 0, none, none⟩ (if s.seq.used = 0 then none else some s))
def readS (r : Reg) : M Word := fun s => .ok (s.seq.readS r, s)
def writeS (r : Reg) (v : Word) : M Unit := fun s => .ok ((), s.modSeq (·.writeS r v))
def readK (k : Fin 8) : M Lane := fun s => .ok (s.seq.readK k, s)
def writeK (k : Fin 8) (v : Lane) : M Unit := fun s => .ok ((), s.modSeq (·.writeK k v))
/-- A predicate that a scalar compare or an atomic writes: bit 0 is the result (07 R98). -/
def writeFlag (k : Fin 8) (b : Bool) : M Unit := writeK k (if b then 1 else 0)
/-- A value that the manual leaves undefined. -/
def fresh : M Word := fun s => .ok (Config.freeValue s.free, { s with free := s.free + 1 })
/-- What a body would give, with the state as it stands: operands of a request whose pops are made when it is
answered. -/
def ghost {α : Type} (m : M α) : M α := fun s => (m s).map fun r => (r.1, s)
def getState : M State := fun s => .ok (s, s)
def setState (s : State) : M Unit := fun _ => .ok ((), s)
def modState (f : State → State) : M Unit := fun s => .ok ((), f s)

/-! ## Answers (10 R347) -/

/-- An answer reaches the sequencer that awaits request `num`: it is kept for the waiting instruction, or with the
instruction that a trap handler interrupted (10 R347). -/
def Seq.receive (c : Seq) (num : Nat) (a : Answer) : Seq :=
  if c.out = some num then { c with out := none, kept := c.kept ++ [a] }
  else { c with shelf := c.shelf.map fun h =>
    if h.out = some num then { h with out := none, kept := h.kept ++ [a] } else h }

def Seq.awaits (c : Seq) (num : Nat) : Bool := c.out == some num || c.shelf.any fun h => h.out == some num
def Strand.receive (t : Strand) (num : Nat) (a : Answer) : Strand :=
  { t with as := t.as.receive num a, xs := t.xs.receive num a }
def Strand.awaits (t : Strand) (num : Nat) : Bool := t.as.awaits num || t.xs.awaits num

/-- A strand that a request of a core's partition belongs to is changed wherever it is: on that core, parked, or on the
core that it has moved to since (22 R298). `mine` tells it. -/
def State.modOwner (s : State) (p : Place) (mine : Strand → Bool) (f : Strand → Strand) : State :=
  let pn := s.partNo p
  if mine (s.strand p) then s.modStrand p f
  else if (s.part pn).parked.any fun k => mine k.st then
    s.modPart pn fun t => { t with parked := t.parked.map fun k => if mine k.st then { k with st := f k.st } else k }
  else
    match s.cores.find? fun e => e.2.part == some pn && e.2.running && mine e.2.st with
    | some e => s.modStrand e.1 f
    | none => s

/-- The core where the strand of a request runs: the one that sent it, or the one it has moved to. -/
def State.ownerAt (s : State) (p : Place) (num : Nat) : Place :=
  if (s.strand p).awaits num then p
  else ((s.cores.find? fun e => e.2.part == some (s.partNo p) && e.2.running && e.2.st.awaits num).map (·.1)).getD p

/-- An answer reaches the strand that sent request `num` (10 R347). -/
def State.receive (s : State) (p : Place) (num : Nat) (a : Answer) : State :=
  s.modOwner p (·.awaits num) (·.receive num a)

/-! ## Places (01 R10, R11; 22 R310, R311) -/

/-- What a place names. -/
inductive Target3
  | core (clu core : Nat)
  | station (n : Nat)
  | west (row : Nat)
  | east (row : Nat)
  | bad
deriving DecidableEq, Repr

/-- The kind of a place and its coordinates; `bad` where a reserved bit is set or a coordinate lies beyond the
module's shape (01 R11). -/
def State.parsePlace (s : State) (w : Nat) : Target3 :=
  if 65536 ≤ w then .bad
  else
    match w / 16384 with
    | 0 => if w / 8 % 64 < s.cols && w / 512 < 32 then .core (w / 8) (w % 8) else .bad
    | 1 =>
      if bitsAt w 7 7 = 0 && w % 64 < s.cols then .station (if bitAt w 6 then 64 + w % 64 else w % 64) else .bad
    | 2 => if bitsAt w 5 9 = 0 then .west (w % 32) else .bad
    | _ => if bitsAt w 5 9 = 0 then .east (w % 32) else .bad

/-- The physical clusters of a die column that are not retired, from north, as numbers (01 R12; 22 R310). -/
def State.standing (s : State) (die col : Nat) : List Nat :=
  ((List.range 9).map fun k => (9 * die + k) * 64 + col).filter fun n => !s.retired.contains n

/-- The physical cluster that holds a logical cluster; none where it is absent (01 R12, R13). -/
def State.pcnOf (s : State) (clu : Nat) : Option Nat := (s.standing (clu / 512) (clu % 64))[clu / 64 % 8]?

/-- The logical cluster that a physical cluster holds. -/
def State.clusterAt (s : State) (pcn : Nat) : Option Nat :=
  ((List.range 8).map fun l => (8 * (pcn / 576) + l) * 64 + pcn % 64).find? fun clu => s.pcnOf clu == some pcn

/-- The place and permission tables that a core goes by: its cluster's, or as they were before a `plset` that it has not
taken up yet (22 R321). -/
def State.tabsOf (s : State) (p : Place) : Table (BitVec 16) × Table Word :=
  (s.core p).oldTabs.getD ((s.clus (p / 8)).place, (s.clus (p / 8)).perm)

/-- The place-table entry of a cluster as a core finds it (22 R310). -/
def State.placeEntry (s : State) (p : Place) (to_ : Nat) : BitVec 16 := Table.get 0 (s.tabsOf p).1 to_

/-- The logical cluster that an entry leads to: the one that its PCN holds (22 R310). -/
def State.steer (s : State) (e : BitVec 16) : Option Nat := s.clusterAt (e.extractLsb' 0 12).toNat

/-- The permission bit (22 R311). -/
def State.permits (s : State) (p : Place) (to_ : Nat) : Bool :=
  (Table.get 0 (s.tabsOf p).2 (to_ / 64)).getLsbD (to_ % 64)

/-- The checks of a place that must be a core of the partition (14 R194, 22 R310, R311), and where its entry leads. An
entry whose PCN holds no logical cluster leads nowhere: DESIGN CHOICE (log 93), as an absent cluster. -/
def State.checkCore (s : State) (w : Nat) : Except Cause Place :=
  match s.parsePlace w with
  | .core clu k =>
    let e := s.placeEntry s.cur.1 clu
    if e.getLsbD 14 then .error .placeInvalid
    else if !e.getLsbD 15 || !s.permits s.cur.1 clu then .error .permission
    else
      match s.steer e with
      | some c => .ok (c * 8 + k)
      | none => .error .placeInvalid
  | _ => .error .placeInvalid

/-- `checkCore` on a register's value. -/
def corePlace (w : Word) : M Place := fun s =>
  match s.checkCore w.toNat with
  | .ok p => .ok (p, s)
  | .error c => trapOpen c s

/-- The rectangle of a partition holds a cluster (22 R312). -/
def Part.holds? (t : Part) (clu : Nat) : Bool :=
  let c0 := t.attrs.clu % 64
  let r0 := t.attrs.clu / 64
  decide (c0 ≤ clu % 64) && decide (clu % 64 < c0 + t.attrs.ncols) && decide (r0 ≤ clu / 64)
    && decide (clu / 64 < r0 + t.attrs.nrows)

/-- A core of the partition. -/
def Part.hasCore (t : Part) (p : Place) : Bool := decide (p < 16384) && t.holds? (p / 8)

/-- The cores of a partition, by place. -/
def Part.coresOf (t : Part) : List Place :=
  (List.range t.attrs.nrows).flatMap fun r =>
    (List.range t.attrs.ncols).flatMap fun c =>
      (List.range 8).map fun k => (t.attrs.clu + 64 * r + c) * 8 + k

/-- The clusters of a partition. -/
def Part.clusOf (t : Part) : List Nat :=
  (List.range t.attrs.nrows).flatMap fun r => (List.range t.attrs.ncols).map fun c => t.attrs.clu + 64 * r + c

/-- Mesh hops between two cores' clusters (01 R28). -/
def hops (p q : Place) : Nat :=
  (if colOf p ≤ colOf q then colOf q - colOf p else colOf p - colOf q)
    + (if rowOf p ≤ rowOf q then rowOf q - rowOf p else rowOf p - rowOf q)

/-! ## Neighbour links (01 R15, R29; 10 R161) -/

/-- The columns that a row ring of a partition's stitch joins around a column (01 R29): first and count. -/
def Part.ring (t : Part) (col : Nat) : Option (Nat × Nat) :=
  let c0 := t.attrs.clu % 64
  match t.attrs.shape with
  | 1 => some (c0, t.attrs.ncols)
  | 2 => some (c0, t.attrs.ncols)
  | 3 =>
    let w := t.attrs.ncols / 2 ^ t.attrs.subn
    if w = 0 then none else some (c0 + (col - c0) / w * w, w)
  | _ => none

/-- The core that nE (`east`) or nW reaches, if the end is joined. -/
def State.neighbour (s : State) (p : Place) (east : Bool) : Option Place :=
  if east && decide (p % 8 < 7) then some (p + 1)
  else if !east && decide (0 < p % 8) then some (p - 1)
  else
    match (s.core p).part with
    | none => none
    | some n =>
      let t := s.part n
      let col := colOf p
      let k := if east then 0 else 7
      let at_ (c : Nat) : Option Place := some ((rowOf p * 64 + c) * 8 + k)
      match t.ring col with
      | some (lo, w) =>
        at_ (if east then (if col + 1 < lo + w then col + 1 else lo)
             else (if lo < col then col - 1 else lo + w - 1))
      | none =>
        if east then (if col + 1 < t.attrs.clu % 64 + t.attrs.ncols then at_ (col + 1) else none)
        else (if t.attrs.clu % 64 < col then at_ (col - 1) else none)

/-- A word pushed to nE or nW: it joins the far core's receive buffer. -/
def pushLink (east : Bool) (w : Word) : M Unit := fun s =>
  match s.neighbour s.cur.1 east with
  | none => trap .placeInvalid (if east then 4 else 5) s
  | some q =>
    let far := if east then (s.core q).nW else (s.core q).nE
    if 4 ≤ far.length then waitFor .link s
    else .ok ((), s.modCore q fun c => if east then { c with nW := far ++ [w] } else { c with nE := far ++ [w] })

/-- A word popped from nE or nW, forwarded where `nlink` says so. -/
def popLink (east : Bool) : M Word := fun s =>
  let c := s.me
  match s.neighbour s.cur.1 east with
  | none => trap .placeInvalid (if east then 4 else 5) s
  | some _ =>
    match (if east then c.nE else c.nW) with
    | [] => waitFor .link s
    | w :: rest =>
      let s' := s.modMe fun c => if east then { c with nE := rest } else { c with nW := rest }
      if (if east then c.fw else c.fe) then
        (pushLink (!east) w s').map fun r => (w, r.2)
      else .ok (w, s')

/-! ## Marks and produce sets (03 R55, R56, R59) -/

/-- The marks on an object, in its partition. -/
def Part.marksOn (t : Part) (o : ObjRef) : List Mark := t.marks.filter (·.obj == o)

def listMin : List Nat → Nat
  | [] => 0
  | a :: as => as.foldl min a

/-- The participants of a mesh barrier's configuration block (14 R198). -/
def meshMembers (b : BitVec 128) : List Place :=
  let n := b.toNat
  let clu := bitsAt n 0 11
  (List.range (bitsAt n 22 5 + 1)).flatMap fun r =>
    (List.range (bitsAt n 16 6 + 1)).flatMap fun c =>
      ((List.range 8).filter fun k => bitAt n (32 + k)).map fun k => (clu + 64 * r + c) * 8 + k

/-- A core lies in the rectangle of a configuration block and is one of its participants, be the rectangle in the module's
shape or not. -/
def meshHas (n : Nat) (p : Place) : Bool :=
  let row := p / 512
  let col := p / 8 % 64
  decide (bitsAt n 6 5 ≤ row) && decide (row ≤ bitsAt n 6 5 + bitsAt n 22 5) && decide (bitsAt n 0 6 ≤ col)
    && decide (col ≤ bitsAt n 0 6 + bitsAt n 16 6) && bitAt n (32 + p % 8)

/-- The corner core: the lowest-numbered participant of cluster CLU. -/
def meshCorner (b : BitVec 128) : Place := (meshMembers b).headD 0

/-- A ring body's barriers take in a local barrier (14 R197). -/
def ringCovers (body : BitVec 128) (lb : Nat) : Bool :=
  let n := bitsAt body.toNat 34 4 + 1
  let f := bitsAt body.toNat 64 6
  let e := bitsAt body.toNat 70 6
  (decide (f ≤ lb) && decide (lb < f + n)) || (decide (e ≤ lb) && decide (lb < e + n))

/-- The rings in progress on a core whose barriers take in one. -/
def State.ringsOf (s : State) (p : Place) (lb : Nat) : List ObjRef :=
  (s.objs p).rings.filterMap fun e =>
    if e.2.cmd.isSome && ringCovers e.2.body lb then some ⟨.ring, p, e.1⟩ else none

/-- The mesh barrier of a collective (14 R230). -/
def Cmd.collMsh (c : Cmd) : Nat := bitsAt (leOf c.blk) 134 4

/-- The collectives that a core has issued on a mesh barrier. DESIGN CHOICE (log 131): since boot. -/
def State.collCount (s : State) (p : Place) (m : Nat) : Nat :=
  (s.cmds.filter fun c => c.kind == .coll && c.issuer == p && c.collMsh == m).length

/-- Mesh barriers of other participants that have not issued the collective whose completion a semaphore awaits
(14 R230). -/
def State.collsFor (s : State) (p : Place) (sem : Nat) : List ObjRef :=
  s.cmds.flatMap fun c =>
    if c.kind == .coll && c.issuer == p && c.eng.sinc != 0 && c.eng.ssem.toNat == sem && c.phase != .done then
      ((meshMembers (Table.get Msh.reset (s.objs p).mshs c.collMsh).block).filter fun q =>
        q != p && decide (s.collCount q c.collMsh ≤ c.seqNo)).map fun q => ⟨.msh, q, c.collMsh⟩
    else []

/-- The objects whose marks an object shows: its own, those of a ring on its barriers (14 R197), those of every
participant of a mesh barrier (14 R201), those that withhold a collective's completion (14 R230). -/
def State.shownBy (s : State) (o : ObjRef) : List ObjRef :=
  match o.kind with
  | .lb => o :: s.ringsOf o.place o.index
  | .msh =>
    o :: ((meshMembers (Table.get Msh.reset (s.objs o.place).mshs o.index).block).filter (· != o.place)).map fun q =>
      ⟨.msh, q, o.index⟩
  | .sem => o :: s.collsFor o.place o.index
  | _ => [o]

/-- The marks that an object shows. -/
def State.shownMarks (s : State) (pn : Nat) (o : ObjRef) : List Mark := (s.shownBy o).flatMap (s.part pn).marksOn

/-- The object reads as withheld: it shows a mark, or, for a mesh barrier, the corner has said so (14 R201). -/
def State.withheld (s : State) (pn : Nat) (o : ObjRef) : Bool :=
  match o.kind with
  | .msh => (Table.get Msh.reset (s.objs o.place).mshs o.index).w || !((s.part pn).marksOn o).isEmpty
  | _ => !(s.shownMarks pn o).isEmpty
/-- The lowest live mark id on an object (R56), 0 for none. -/
def State.markId (s : State) (pn : Nat) (o : ObjRef) : Nat := listMin ((s.shownMarks pn o).map (·.id))
/-- An object is poisoned: itself or what it shows. Each participant's register of a mesh barrier has a bit of its own, which
`State.poisonMarks` sets in all of them. -/
def State.poisoned (s : State) (pn : Nat) (o : ObjRef) : Bool :=
  if o.kind = .msh then (s.part pn).pois.contains o else (s.shownBy o).any (s.part pn).pois.contains

/-- A produce-list entry (03 R55) of a core: the object, if its KIND is one. -/
def entryObj (self : Place) (e : Lane) : Option ObjRef :=
  let n := e.toNat
  let place := if bitAt n 11 then self else bitsAt n 12 16
  let k : Option ObjKind :=
    match bitsAt n 28 4 with
    | 1 => some .sem
    | 2 => some .lb
    | 3 => some .msh
    | 4 => some .mbx
    | 5 => some .ring
    | 6 => some .tc
    | _ => none
  k.map fun k => ⟨k, place, bitsAt n 0 8⟩

/-- The produce-list entry that names an object, for TVAL of WITHHELD-ABORT (03 R63). -/
def objEntry (self : Place) (o : ObjRef) : Word :=
  let k : Nat :=
    match o.kind with
    | .sem => 1
    | .lb => 2
    | .msh => 3
    | .mbx => 4
    | .ring => 5
    | .tc => 6
    | .reply | .handler => 4
  BitVec.ofNat 64 (k * 2 ^ 28 + (if o.place = self then 2 ^ 11 else o.place * 2 ^ 12) + o.index % 256)

/-- The produce set of the strand on a core (03 R55). -/
def State.produceSet (s : State) (p : Place) : List ObjRef :=
  let t := s.strand p
  let msh := (s.objs p).mshs.filterMap fun e =>
    if e.2.block != 0 && !e.2.arr then some (ObjRef.mk .msh p e.1) else none
  let cm := s.cmds.flatMap fun c =>
    if c.sid = t.act.sid && c.phase != .done then
      (if c.eng.sinc != 0 then [ObjRef.mk .sem p c.eng.ssem.toNat] else [])
        ++ (if bitAt (leOf c.blk) 56 then [ObjRef.mk .handler p c.id] else [])
    else []
  let rp := match t.act.owed with
    | some o => [ObjRef.mk .reply o.place o.num]
    | none => []
  (t.act.plist ++ t.act.declared ++ rp ++ msh ++ cm).eraseDups

end Sys2Proof.Machine
end

