-- ==== Sys2Proof/Machine/Publish.lean ====
section
/-! DEFINITION. Published sets (16 R232, R245, R247): which writes a release hands to an object, and which an acquire adds
to those that a strand has acquired. They record the order that the releases, closes and acquires of the machine bring
about; no instruction reads them. -/

namespace Sys2Proof.Machine

/-! ## Sets -/

/-- The larger bound at every key. -/
def boundsJoin (a b : Table Nat) : Table Nat := b.foldl (fun t e => Table.set t e.1 (max e.2 (Table.get 0 t e.1))) a

/-- A fence's cover joins others: the later of one strand, class and scope stands for both. -/
def coversPut (l : List Cover) (c : Cover) : List Cover :=
  let same (x : Cover) : Bool := x.sid == c.sid && x.cls == c.cls && x.scope == c.scope
  if l.any fun x => same x && decide (c.num ≤ x.num) then l else l.filter (fun x => !same x) ++ [c]

/-- The union of two sets. -/
def PubSet.join (a b : PubSet) : PubSet where
  accs := boundsJoin a.accs b.accs
  cmds := boundsJoin a.cmds b.cmds
  covers := b.covers.foldl coversPut a.covers

/-- The key of a sequencer's accesses. -/
def seqKey (sid : Nat) : SeqId → Nat
  | .as => 2 * sid
  | .xs => 2 * sid + 1

/-! ## What the objects hold -/

/-- The set that stands at a key. -/
def State.pubOf (s : State) (k : PubKey) : PubSet := ((s.pubs.find? (·.1 == k)).map (·.2)).getD PubSet.none

/-- A key's set replaced; an empty one is not kept. -/
def State.setPub (s : State) (k : PubKey) (x : PubSet) : State :=
  { s with pubs := (s.pubs.filter fun e => e.1 != k) ++ (if x = PubSet.none then [] else [(k, x)]) }

/-- An object arbiter adds a set to the object's own. -/
def State.addPub (s : State) (k : PubKey) (x : PubSet) : State := s.setPub k ((s.pubOf k).join x)

/-- The set of one key passes on to another. -/
def State.movePub (s : State) (k j : PubKey) : State := (s.addPub j (s.pubOf k)).setPub k PubSet.none

/-! ## Releases and acquires -/

/-- The set of a release by a sequencer of a core's strand (R245): the accesses that it has issued, those of the other
sequencer that 10 R144 orders before it, what the strand has acquired, and what its completed fences cover. -/
def State.publishedBy (s : State) (p : Place) (q : SeqId) : PubSet :=
  let t := s.strand p
  let sid := t.act.sid
  let others := max t.act.shut (match q with | .xs => t.act.seen | .as => t.act.seenX)
  (s.pubOf (.strand sid)).join
    ⟨Table.set [(seqKey sid q, s.fab.nextNum)] (seqKey sid (otherSeq q)) others, [], []⟩

/-- The set that the instruction in progress of a sequencer has released. -/
def State.given (s : State) : PubSet := s.pubOf (.given s.my.act.sid s.cur.2)

/-- The release of the instruction in progress reaches an object. -/
def State.publish (s : State) (k : PubKey) : State := s.addPub k s.given

/-- The current strand acquires what is published at a key. -/
def State.acquire (s : State) (k : PubKey) : State := s.addPub (.strand s.my.act.sid) (s.pubOf k)

/-- A strand has ended: it acquires and releases nothing more. -/
def State.dropPubs (s : State) (sid : Nat) : State :=
  { s with pubs := s.pubs.filter fun e =>
      match e.1 with
      | .strand n | .given n _ | .told n _ => n != sid
      | _ => true }

/-- The set of a command's writes, as far as they have landed. -/
def Cmd.writes (c : Cmd) : PubSet := ⟨[], [(c.id, max 1 c.front)], []⟩

end Sys2Proof.Machine
end

