-- ==== Sys2Proof/Machine/Access.lean ====
section
/-! DEFINITION. Memory accesses: the register windows of the on-chip map (10 R137), the conflict recorder and its
check (16 R237, R238), what a home does with an access (R234), atomics (10 R163, R164), replicated pages (16 R249), and
the sync interval (R236, R240). -/

namespace Sys2Proof.Machine

/-! ## Mailbox descriptors (10 R154) -/

def Mbx.base (m : Mbx) : Nat := (m.cfg.extractLsb' 0 10).toNat * 64
def Mbx.slotSize (m : Mbx) : Nat := (m.cfg.extractLsb' 10 4).toNat * 64
def Mbx.depth (m : Mbx) : Nat := (m.cfg.extractLsb' 14 4).toNat + 1
def Mbx.prio (m : Mbx) : Nat := (m.cfg.extractLsb' 18 2).toNat
def Mbx.gaussian (m : Mbx) : Bool := m.cfg.getLsbD 20
def Mbx.enabled (m : Mbx) : Bool := m.cfg.getLsbD 21
def Mbx.gate (m : Mbx) : Option Nat := if m.cfg.getLsbD 28 then some (m.cfg.extractLsb' 22 6).toNat else none
def Mbx.beta (m : Mbx) : Nat := (m.cfg.extractLsb' 32 8).toNat
def Mbx.rmode (m : Mbx) : Nat := (m.cfg.extractLsb' 40 2).toNat
def Mbx.rthr (m : Mbx) : Lane := m.cfg.extractLsb' 64 32
def Mbx.aidx (m : Mbx) : Nat := (m.cfg.extractLsb' 96 16).toNat
def Mbx.agen (m : Mbx) : Nat := (m.cfg.extractLsb' 112 8).toNat
def Mbx.ahv (m : Mbx) : Bool := m.cfg.getLsbD 120

def Slot.isFree : Slot → Bool
  | .free => true
  | _ => false
def Slot.isFilled : Slot → Bool
  | .filled _ _ _ _ _ _ _ => true
  | _ => false
def Slot.isReserved : Slot → Bool
  | .reserved _ _ => true
  | _ => false

/-- Slots filled or taken, reservations included (10 R154, R157). -/
def Mbx.count (m : Mbx) : Nat := (m.slots.filter fun x => !x.isFree).length

/-- The filled slots that may be a head, with their indices. A slot whose dispatch is in flight is none (20 R282). -/
def Mbx.heads (m : Mbx) : List (Nat × Slot) :=
  (m.slots.zipIdx.filter fun e =>
    match e.1 with
    | .filled _ _ _ _ _ _ flying => !flying
    | _ => false).map fun e => (e.2, e.1)

/-- The order of arrival of a filled slot. -/
def Slot.order : Slot → Nat
  | .filled _ o _ _ _ _ _ => o
  | .reserved _ o => o
  | _ => 0

/-- The earliest arrival among slots. -/
def earliest : List (Nat × Slot) → Option (Nat × Slot)
  | [] => none
  | e :: es => some (es.foldl (fun b x => if x.2.order < b.2.order then x else b) e)

/-- RIX: the oldest filled slot that no take holds (10 R154). -/
def Mbx.rix (m : Mbx) : Nat := ((earliest m.heads).map (·.1)).getD 0

/-! ## Raw windows (10 R137) -/

/-- The mailbox descriptor as window kind 0x07 reads it: a withheld mailbox has its value only, with no W bit and so no
HOLDID (R137). -/
def State.mbxWord (s : State) (p : Place) (i : Nat) : Nat :=
  let m := Table.get Mbx.reset (s.objs p).mbs i
  m.cfg.toNat + m.rix * 2 ^ 128 + m.wix * 2 ^ 132 + m.count * 2 ^ 136
    + b2n (s.poisoned (s.partNo p) ⟨.mbx, p, i⟩) * 2 ^ 142

/-- The 64 bytes of an inbox entry: header, payload, route-and-reply word (10 R150). -/
def InEntry.bytes (e : InEntry) : Nat :=
  leOf ((e.msg.hdr :: e.msg.payload ++ [e.msg.rr]).flatMap fun w => leBytesOf 8 w.toNat)

/-- The register of a window that an offset falls into, as its width in bytes and value; zero where R137 says that a
load returns zero. -/
def State.windowWord (s : State) (p : Place) (wk off : Nat) : Nat × Nat :=
  let c := s.core p
  let t := c.st
  let live (q : SeqId) : Bool := c.running && (t.seq q).present && !(t.seq q).ended
  match wk with
  | 2 => (8, if live .as && decide (8 ≤ off) then (t.as.s[(off / 8) % 64]).toNat else 0)
  | 3 => (8, if live .xs && decide (8 ≤ off) then (t.xs.s[(off / 8) % 64]).toNat else 0)
  | 4 =>
    (4, if live .xs && (Table.find t.vec.streams (off / 128)).isNone then
          (t.vec.v[(off / 128) % 32][(off % 128 / 4) % 32]).toNat else 0)
  | 5 => (4, if live .xs then (t.mat.acc[(off / 4096) % 4][(off % 4096 / 4) % 1024]).toNat else 0)
  | 6 => (8, (Table.get 0 c.objs.sems (off / 8)).toNat)
  | 7 => (32, s.mbxWord p (off / 32))
  | _ => (64, ((c.work.inbox[off / 64]?).map InEntry.bytes).getD 0)

/-- The sequencer whose registers a window reaches. -/
def windowSeq (wk : Nat) : SeqId := if wk = 2 then .as else .xs

/-- The stores to a sequencer's windows that wait for its next instruction. -/
def State.laterOf (s : State) (p : Place) (wk : Nat) : List (Nat × Nat × Byte) :=
  if 2 ≤ wk ∧ wk ≤ 5 then (s.seqAt p (windowSeq wk)).stores else []

/-- One byte of a window: of a store that still waits, if there is one, and of the register otherwise. -/
def State.windowByte (s : State) (p : Place) (wk off : Nat) : Byte :=
  match (s.laterOf p wk).reverse.find? fun e => e.1 == wk && e.2.1 == off with
  | some e => e.2.2
  | none =>
    let (n, w) := s.windowWord p wk off
    BitVec.ofNat 8 (w / 256 ^ (off % n))

/-- A register's bits with byte `k` replaced. -/
def putByte (w k : Nat) (b : Byte) : Nat := w - bitsAt w (8 * k) 8 * 2 ^ (8 * k) + b.toNat * 2 ^ (8 * k)

/-- One byte put into a register window; discarded where R137 says so. -/
def State.windowPut (s : State) (p : Place) (wk off : Nat) (b : Byte) : State :=
  let c := s.core p
  let t := c.st
  let live (q : SeqId) : Bool := c.running && (t.seq q).present && !(t.seq q).ended
  let (n, w) := s.windowWord p wk off
  let w' := putByte w (off % n) b
  match wk with
  | 2 =>
    if live .as && decide (8 ≤ off) then
      s.modSeqAt p .as fun c => { c with s := c.s.set (off / 8 % 64) (BitVec.ofNat 64 w') (Nat.mod_lt _ (by decide)) }
    else s
  | 3 =>
    if live .xs && decide (8 ≤ off) then
      s.modSeqAt p .xs fun c => { c with s := c.s.set (off / 8 % 64) (BitVec.ofNat 64 w') (Nat.mod_lt _ (by decide)) }
    else s
  | 4 =>
    if live .xs && (Table.find t.vec.streams (off / 128)).isNone then
      s.modStrand p fun t =>
        { t with vec := { t.vec with
            v := t.vec.v.set (off / 128 % 32)
              (t.vec.v[off / 128 % 32].set (off % 128 / 4 % 32) (BitVec.ofNat 32 w') (Nat.mod_lt _ (by decide)))
              (Nat.mod_lt _ (by decide)) } }
    else s
  | 5 =>
    if live .xs then
      s.modStrand p fun t =>
        { t with mat := { t.mat with
            acc := t.mat.acc.set (off / 4096 % 4)
              (t.mat.acc[off / 4096 % 4].set (off % 4096 / 4 % 1024) (BitVec.ofNat 32 w') (Nat.mod_lt _ (by decide)))
              (Nat.mod_lt _ (by decide)) } }
    else s
  | _ => s

/-- A store to s0 or to a vector register in stream mode is discarded (R137). -/
def State.windowDrops (s : State) (p : Place) (wk off : Nat) : Bool :=
  if wk = 4 then (Table.find (s.strand p).vec.streams (off / 128)).isSome else (wk == 2 || wk == 3) && decide (off < 8)

/-- One byte stored to a register window: a target that is in an instruction finds it from its next one on (R137). -/
def State.windowSet (s : State) (p : Place) (wk off : Nat) (b : Byte) : State :=
  let q := windowSeq wk
  if s.windowDrops p wk off then s
  else if 2 ≤ wk ∧ wk ≤ 5 ∧ (s.core p).running ∧ (s.seqAt p q).wait.isSome then
    s.modSeqAt p q fun c => { c with stores := c.stores ++ [(wk, off, b)] }
  else s.windowPut p wk off b

/-- Between two instructions, a sequencer's registers take the stores that have waited. -/
def State.takeLater (s : State) (p : Place) (q : SeqId) : State :=
  let c := s.seqAt p q
  if c.wait.isSome || c.stores.isEmpty then s
  else c.stores.foldl (fun s e => s.windowPut p e.1 e.2.1 e.2.2) (s.modSeqAt p q fun c => { c with stores := [] })

/-- Bytes stored to consecutive offsets of a register window. -/
def State.windowSetAll (s : State) (p : Place) (wk off : Nat) (bs : List Byte) : State :=
  bs.zipIdx.foldl (fun s e => s.windowSet p wk (off + e.2) e.1) s

/-! ## The conflict recorder (16 R237, R238, R240, R241) -/

/-- Kinds that clash (R238). -/
def clash (k e : AccKind) : Bool := !(k == .r && e == .r) && !(k == .a && e == .a)

/-- A key that an open entry of another party makes conflict with an access of kind `k` (R238). -/
def State.conflictsAt (s : State) (h : Home) (who : Party) (k : AccKind) (key : Nat) : Bool :=
  let h := s.bankOf h key
  (s.fab.lines.any fun e =>
    e.home == h && e.line == key / 64 && e.party != who && e.mask.getLsbD (key % 64) && clash k e.kind)
  || (s.fab.ranges.any fun e =>
    e.home == h && Party.cmd e.cmd != who && decide (e.lo ≤ key) && decide (key < e.hi) && clash k e.kind)

/-- The byte mask of the keys of one line. -/
def lineMask (line : Nat) (ks : List Nat) : BitVec 64 :=
  ks.foldl (fun m k => if k / 64 = line then m ||| BitVec.ofNat 64 (2 ^ (k % 64)) else m) 0

/-- The recorder after an access of a core merges into its open entry of a line, or opens one; none where the line
already holds 4 entries (R241). -/
def recordLine (es : List LineEntry) (h : Home) (who : Party) (iv : Nat) (k : AccKind) (line : Nat)
    (m : BitVec 64) : Option (List LineEntry) :=
  if es.any fun e => e.home == h && e.line == line && e.party == who then
    some (es.map fun e =>
      if e.home = h ∧ e.line = line ∧ e.party = who then
        { e with mask := e.mask ||| m, interval := iv, kind := if e.kind = k then k else .w }
      else e)
  else if 4 ≤ (es.filter fun e => e.home == h && e.line == line).length then none
  else some (es ++ [⟨h, line, who, iv, m, k⟩])

/-- The recorders after an access over all its lines, each at the home of its line. -/
def recordLines (es : List LineEntry) (h : Nat → Home) (who : Party) (iv : Nat) (k : AccKind) (ks : List Nat) :
    Option (List LineEntry) :=
  (ks.map (· / 64)).eraseDups.foldl
    (fun r line => r.bind fun es => recordLine es (h (64 * line)) who iv k line (lineMask line ks)) (some es)

/-- The recorder after an engine's access, which belongs to a range entry (R241). -/
def recordRange (es : List RangeEntry) (r : RangeEntry) : Option (List RangeEntry) :=
  if es.contains r then some es
  else if 64 ≤ (es.filter fun e => e.home == r.home).length then none
  else some (es ++ [r])

/-- What the recorder becomes, or none where the access must wait. -/
def State.record (s : State) (a : Access) (ks : List Nat) : Option State :=
  match a.range with
  | some r => (recordRange s.fab.ranges r).map fun es => { s with fab := { s.fab with ranges := es } }
  | none =>
    (recordLines s.fab.lines (s.bankOf a.home) a.party a.interval a.kind ks).map fun es =>
      { s with fab := { s.fab with lines := es } }

/-- The close filter after a touch (16 R232, R240). -/
def Core.touch (c : Core) (h : Home) : Core :=
  if c.filter.contains h then c
  else if 32 ≤ c.filter.length then { c with overflowed := true }
  else { c with filter := c.filter ++ [h] }

/-! ## Atomic units (10 R163, R164) -/

/-- The width in bits of a type code (07 R89). -/
def widthOf : XT → Nat
  | .i64 | .z64 | .f64 => 64
  | .i32 | .z32 | .f32 => 32
  | .i16 | .z16 | .f16 | .bf16 => 16
  | .i8 | .z8 | .e4m3 | .e5m2 => 8

/-- The two's-complement value of the low `w` bits (08 R108). -/
def sval (w v : Nat) : Int := if v % 2 ^ w < 2 ^ (w - 1) then (v % 2 ^ w : Nat) else (v % 2 ^ w : Nat) - (2 ^ w : Nat)

/-- A `w`-bit value extended to 64 bits as a code extends it (08 R108). -/
def extendAs (x : XT) (w v : Nat) : Word :=
  if x.isSigned then BitVec.ofInt 64 (sval w v) else BitVec.ofNat 64 (v % 2 ^ w)

/-- The new value that an AOP stores (10 R163); fadd rounds by RNE and gives the canonical NaN for any NaN. -/
def applyAop (o : AtomOp) (x : XT) (w old b : Nat) : Nat :=
  let u := old % 2 ^ w
  let v := b % 2 ^ w
  let below : Bool := if x.isSigned then decide (sval w u < sval w v) else decide (u < v)
  match o with
  | .add => (u + v) % 2 ^ w
  | .and => (BitVec.ofNat 64 u &&& BitVec.ofNat 64 v).toNat
  | .or => (BitVec.ofNat 64 u ||| BitVec.ofNat 64 v).toNat
  | .xor => (BitVec.ofNat 64 u ^^^ BitVec.ofNat 64 v).toNat
  | .min => if below then u else v
  | .max => if below then v else u
  | .swap => v
  | .fadd => (fAdd .f32 0 u v).1

/-- An atomic on one location: the new contents, the answered old value, the success bit (10 R163). -/
def atomicOn (r : AtomReq) (old : Nat) : Nat × Word × Bool :=
  match r with
  | .op o x b =>
    let w := widthOf x
    (applyAop o x w old b.toNat, extendAs x w old, true)
  | .cas x b c =>
    let w := widthOf x
    (if old % 2 ^ w = c.toNat % 2 ^ w then b.toNat % 2 ^ w else old % 2 ^ w, extendAs x w old, true)
  | .incw x c =>
    let w := widthOf x
    (if c.toNat % 2 ^ w ≤ old % 2 ^ w then 0 else old % 2 ^ w + 1, extendAs x w old, true)
  | .faddb x b c =>
    let w := widthOf x
    let ok := decide (old % 2 ^ w + b.toNat % 2 ^ w ≤ c.toNat % 2 ^ w)
    (if ok then old % 2 ^ w + b.toNat % 2 ^ w else old % 2 ^ w, extendAs x w old, ok)
  | _ => (old, 0, false)

/-! ## Commands of remote modules (16 R233; 24 R328)

They are parties as the module's own commands are, with numbers of their own. -/

/-- The party number of a remote command on a sub-link. -/
def remoteCmd (port sub id : Nat) : Nat := (port * 8 + sub + 1) * 2 ^ 64 + id % 2 ^ 64

/-- A party number is that of a remote command on a sub-link. -/
def remoteCmdOn (port sub n : Nat) : Bool := n / 2 ^ 64 == port * 8 + sub + 1

/-- The entries of a command are removed at every home, once its last write is applied. -/
def State.dropRanges (s : State) (n : Nat) : State :=
  { s with fab := { s.fab with
      lines := s.fab.lines.filter fun e => e.party != .cmd n
      ranges := s.fab.ranges.filter fun e => e.cmd != n } }

/-! ## Homes at work (16 R234, R238) -/

/-- What a home makes of the access at a buffer's head: it cannot be applied yet; it is answered; the model stops. -/
inductive Applied
  | blocked
  | done (s : State) (ans : Answer)
  | stop (f : Fault)

/-- The bytes of the read-only windows that hardware maps: the metering counters (22 R316) and the speed table
(01 R21). -/
def Meter.words (m : Meter) : List Nat :=
  [m.ptick, m.cyc[0] / 16, m.cyc[1] / 16, m.cyc[2] / 16, m.cyc[3] / 16, m.mac16, m.mac8, m.macp4, m.macp2, m.vecop, m.hbmb, m.meshb,
   m.scub, m.heldt]

/-- A core's speed-table entry (01 R21). -/
def Core.speedEntry (c : Core) : Nat := c.state.toNat * 2 ^ 14 + c.cur.val * 2 ^ 8 + c.bin.val

/-- A byte of a mapped window, if the address falls in one. -/
def State.mapped (s : State) (pn a : Nat) : Option Byte :=
  let mt := Config.meterAddr pn
  let sp := Config.speedTableAddr pn
  if mt ≤ a ∧ a < mt + 112 then
    some (BitVec.ofNat 8 (((s.part pn).meter.words[(a - mt) / 8]?).getD 0 / 256 ^ ((a - mt) % 8)))
  else if sp ≤ a ∧ a < sp + 32768 then
    some (BitVec.ofNat 8 ((s.core ((a - sp) / 2)).speedEntry / 256 ^ ((a - sp) % 2)))
  else none

/-- The address that a trap reports for byte `i` of a target. -/
def Access.addrOf (a : Access) (i : Nat) : Nat :=
  match a.tgt with
  | .keys ks => (ks[i]?.getD 0) - a.base
  | .glob _ _ addr _ => addr + i
  | .regs _ _ off _ => off + i

/-- The keys of an access's bytes, or the trap of its translation (22 R308, R309): a core's page walk with its rights
checked after it, an engine's range entries. Loads from a replicated page are not `noted` by the recorder (16 R248). -/
inductive Resolved
  | keys (ks : List Nat) (noted : Bool)
  | repl (cells : List (Nat × List Nat))
  | mapped (bs : List Byte)
  | trap (c : Cause) (v : Nat)
  | outside

/-- All keys, where every one exists. -/
def allKeys (ks : List (Option Nat)) : Option (List Nat) := ks.mapM id

/-- The bytes of a replicated page at every stack. -/
def State.replCells (s : State) (frame addr n : Nat) : Resolved :=
  match (List.range s.nStacks).mapM fun st =>
    (allKeys ((span addr n).map (s.replKey st frame))).map fun ks => (st, ks) with
  | some cs => .repl cs
  | none => .outside

/-- The bytes that a leaf maps, as a station returns them to a core. -/
def State.leafCells (s : State) (l : Leaf) (p : Place) (addr n : Nat) : Resolved :=
  match allKeys ((span addr n).map (s.leafKey l p)) with
  | some ks => .keys ks (!l.repl)
  | none => .outside

/-- Resolution of a global address of `n` bytes within one 4 KiB unit. An engine's access to a page that its process's table
maps as replicated goes where a core's goes, once a range entry allows it (16 R248). -/
def State.resolveGlob (s : State) (a : Access) (pn proc addr n : Nat) : Resolved :=
  let t := s.part pn
  match (span addr n).mapM (s.mapped pn) with
  | some bs => if a.kind = .r then .mapped bs else .trap .accessRights addr
  | none =>
    match a.party with
    | .cmd _ =>
      match s.rangeOf t.ranges (BitVec.ofNat 16 proc) addr with
      | none => .trap .translation addr
      | some e =>
        if (a.kind = .r && !e.getLsbD 64) || (a.kind != .r && !e.getLsbD 65) then .trap .accessRights addr
        else if s.nStacks != 8 && bitAt (rangeFrame e) 39 then .trap .translation addr
        else
          match (s.walk t.procs (BitVec.ofNat 16 proc) addr).filter (·.repl) with
          | some l => if a.op = .read then s.leafCells l a.src addr n else s.replCells l.frame addr n
          | none =>
            match allKeys ((span addr n).map (s.keyOf (rangeBase e) (rangeFrame e))) with
            | some ks => .keys ks true
            | none => .outside
    | .core _ =>
      match s.walk t.procs (BitVec.ofNat 16 proc) addr with
      | none => .trap .translation addr
      | some l =>
        let ok :=
          match a.kind with
          | .r => l.r
          | .w => l.w
          | .a => l.w && l.at_ && !l.repl
        if !ok then .trap .accessRights addr
        else if l.repl && a.kind != .r then s.replCells l.frame addr n
        else s.leafCells l a.src addr n

/-- The keys of an access's bytes. -/
def State.resolve (s : State) (a : Access) : Resolved :=
  match a.tgt with
  | .keys ks => .keys ks true
  | .glob pn proc addr n => s.resolveGlob a pn proc addr n
  | .regs _ _ _ _ => .keys [] false

/-- The metering of HBM bytes (22 R316). -/
def State.meterHbm (s : State) (pn : Nat) (ks : List Nat) : State :=
  let n := (ks.filter fun k => decide (2 ^ 64 ≤ k)).length
  if n = 0 then s
  else s.modPart pn fun t => { t with meter := { t.meter with hbmb := t.meter.hbmb + n } }

/-- A byte of a CP's barrier area, which takes no record and is never checked (16 R242). -/
def inBarrierArea (k : Nat) : Bool := decide (k < 2 ^ 64) && bitsAt k 28 6 == 0 && decide (0xFC00 ≤ bitsAt k 0 28)

/-- The conflict check and the record of an access over keys (R238): the lowest conflicting address, or the state
with the record made, or none where it must wait. -/
def State.checked (s : State) (a : Access) (ks : List Nat) : Except Nat (Option State) :=
  match (ks.zipIdx.filter fun e => !inBarrierArea e.1 && s.conflictsAt a.home a.party a.kind e.1).map
    fun e => a.addrOf e.2 with
  | v :: vs => .error (vs.foldl min v)
  | [] => .ok (s.record a (ks.filter fun k => !inBarrierArea k))

/-- A ring control block at an owner (10 R164): its HEAD, TAIL and CAP. -/
def ringBlock (m : Memory) (k : Nat) : Nat × Nat × Nat :=
  (leOf (m.getAll (span k 8)), leOf (m.getAll (span (k + 8) 8)), leOf (m.getAll (span (k + 16) 8)))

/-- A ring control block is well placed: CAP from 1 to 4,096, no more entries than CAP, and the block with its slots
with one owner (10 R164): within its CP or CM window, or within one 4 KiB unit of a global page. -/
def ringOk (global : Bool) (addr win head tail cap : Nat) : Bool :=
  let size := 32 + 8 * cap
  decide (0 < cap) && decide (cap ≤ 4096) && decide ((tail + 2 ^ 64 - head) % 2 ^ 64 ≤ cap)
    && (if global then addr / 4096 == (addr + size - 1) / 4096 else decide (addr % win + size ≤ win))

/-- What a home does with an access it has checked: the bytes read, the bytes written, or the atomic performed. -/
def State.performOn (s : State) (a : Access) (pn : Nat) (ks : List Nat) : State × Answer :=
  match a.op with
  | .read => (s.meterHbm pn ks, .data (Memory.getAll s.mem ks))
  | .write bs => ({ s.meterHbm pn ks with mem := Memory.setAll s.mem (ks.zip bs) }, .data [])
  | .atomic r =>
    let old := leOf (Memory.getAll s.mem ks)
    let (new, ans, ok) := atomicOn r old
    ({ s.meterHbm pn ks with mem := Memory.setAll s.mem (ks.zip (leBytesOf ks.length new)) }, .word ans ok)
  | .close _ => (s, .data [])

/-- A user-level ring access whose bytes touch the supervisor region or the barrier area of a CP (22 R293). -/
def ringForbidden (user : Bool) (ks : List Nat) : Bool :=
  user && ks.any fun k => decide (k < 2 ^ 64) && bitsAt k 28 6 == 0 && decide (0xEC00 ≤ bitsAt k 0 28)

/-- The level of the sequencer that an access answers is user level. -/
def State.userAccess (s : State) (a : Access) : Bool :=
  match a.dest with
  | .seq p q => (s.seqAt p q).level == .user
  | _ => true

/-- `enq` and `deq` at their owner, as one step (10 R164). A full or an empty ring has no slot touched. The
homes of its bytes join the close filter (16 R240). -/
def State.performRing (s : State) (a : Access) (pn : Nat) (deq : Bool) (b : Word) (k addr win : Nat)
    (global : Bool) : Applied :=
  let (head, tail, cap) := ringBlock s.mem k
  if !ringOk global addr win head tail cap then .done s (.trap .windowBounds (BitVec.ofNat 64 addr))
  else
    let slot := k + 32 + 8 * ((if deq then head else tail) % cap)
    let ok := if deq then tail != head else decide ((tail + 2 ^ 64 - head) % 2 ^ 64 < cap)
    let ks := span k 32 ++ (if ok then span slot 8 else [])
    if ringForbidden (s.userAccess a) ks then .done s (.trap .accessRights (BitVec.ofNat 64 addr))
    else
    match s.checked a ks with
    | .error v => .done s (.trap .memoryConflict (BitVec.ofNat 64 v))
    | .ok none => .blocked
    | .ok (some s') =>
      let s' := ks.foldl (fun s k => s.modCore a.src fun c => c.touch (s.bankOf a.home k)) (s'.meterHbm pn ks)
      if !ok then .done s' (.word 0 false)
      else if deq then
        let cells := (span k 8).zip (leBytesOf 8 ((head + 1) % 2 ^ 64))
        let v := leOf (Memory.getAll s.mem (span slot 8))
        .done { s' with mem := Memory.setAll s'.mem cells } (.word (BitVec.ofNat 64 v) true)
      else
        let cells := (span slot 8).zip (leBytesOf 8 b.toNat)
          ++ (span (k + 8) 8).zip (leBytesOf 8 ((tail + 1) % 2 ^ 64))
        .done { s' with mem := Memory.setAll s'.mem cells } (.word 0 true)

/-- The replication sequencer gives a write its stamp (16 R249 step 1). -/
def State.stamped (s : State) (pn : Nat) (who : Party) (src : Place) (cells : List (Nat × List Nat)) (bs : List Byte) : State :=
  let w : ReplWrite := ⟨s.fab.stamp, pn, who, cells.map fun c => (c.1, c.2.zip bs), [], src⟩
  { s with fab := { s.fab with stamp := s.fab.stamp + 1, repl := s.fab.repl ++ [w] } }

/-- A write that the replication sequencer stamps; it completes then (10 R138). The sequencer records every write, whatever
its path, as line entries (16 R248). -/
def State.stampWrite (s : State) (a : Access) (pn : Nat) (cells : List (Nat × List Nat)) (bs : List Byte) : Applied :=
  let ks := (cells.head?.map (·.2)).getD []
  let a' := { a with home := .repl, range := none }
  match s.checked a' ks with
  | .error v => .done s (.trap .memoryConflict (BitVec.ofNat 64 v))
  | .ok none => .blocked
  | .ok (some s') => .done (s'.stamped pn a.party a.src cells bs) (.data [])

/-- A write of an engine command to a replicated page has not committed (16 R249). -/
def State.uncommitted (s : State) (cmd : Nat) : Bool := s.fab.repl.any fun w => w.party == .cmd cmd

/-- A byte that a stamped write has marked pending at a replica and not yet committed (16 R249). -/
def State.pendingKey (s : State) (k : Nat) : Bool :=
  s.fab.repl.any fun w => w.cells.any fun c => w.applied.contains c.1 && c.2.any (·.1 == k)

/-- The key of the first byte, its address and its window's size, for a ring block. -/
def Access.ringAt (a : Access) (ks : List Nat) : Nat × Nat × Nat × Bool :=
  let k := ks.headD 0
  match a.tgt with
  | .glob _ _ addr _ => (k, addr, 4096, true)
  | _ => (k, k - a.base, if k / 2 ^ 28 % 64 = 0 then 65536 else 1048576, false)

/-- A home arbiter takes an access (16 R234, R238), apart from what an atomic leaves and finds published at its location. -/
def State.applyBare (s : State) (a : Access) : Applied :=
  let pn := s.partNo a.src
  match a.op with
  | .close iv =>
    .done { s with fab := { s.fab with lines := s.fab.lines.filter fun e =>
      !(e.home == a.home && e.party == a.party && decide (e.interval ≤ iv)) } } (.data [])
  | op =>
    match a.tgt with
    | .regs p wk off n =>
      match op with
      | .write bs => .done (s.windowSetAll p wk off bs) (.data [])
      | _ => .done s (.data ((span off n).map (s.windowByte p wk)))
    | _ =>
      match s.resolve a with
      | .trap c v => .done s (.trap c (BitVec.ofNat 64 v))
      | .outside => .stop .frameOutsideStation
      | .mapped bs => .done s (.data bs)
      | .repl cells =>
        match op with
        | .write bs => s.stampWrite a pn cells bs
        | _ => .blocked
      | .keys ks noted =>
        match op with
        | .atomic (.enq b) =>
          let (k, addr, win, g) := a.ringAt ks
          s.performRing a pn false b k addr win g
        | .atomic .deq =>
          let (k, addr, win, g) := a.ringAt ks
          s.performRing a pn true 0 k addr win g
        | _ =>
          if op = .read && ks.any s.pendingKey then .blocked
          else if !noted then
            let (s', ans) := s.performOn a pn ks
            .done s' ans
          else
            match s.checked a ks with
            | .error v => .done s (.trap .memoryConflict (BitVec.ofNat 64 v))
            | .ok none => .blocked
            | .ok (some s') =>
              let (s'', ans) := s'.performOn a pn ks
              .done s'' ans

/-- An atomic applied at a location (16 R245): it finds what the most recent atomic with REL left there, and with REL leaves
what its own release published, which stands at its number. -/
def State.tellAtomic (s : State) (a : Access) (q : SeqId) (key : Nat) : State :=
  let sid := (s.strand (s.ownerAt a.src a.num)).act.sid
  let x := s.pubOf (.packet a.num)
  let s := s.setPub (.told sid q) (s.pubOf (.loc key))
  if x = PubSet.none then s else (s.setPub (.loc key) x).setPub (.packet a.num) PubSet.none

/-- A home arbiter takes an access. -/
def State.applyAccess (s : State) (a : Access) : Applied :=
  match a.op, a.dest with
  | .atomic _, .seq _ q =>
    match s.applyBare a, s.resolve a with
    | .done s' (.word old ok), .keys ks _ => .done (s'.tellAtomic a q (ks.headD 0)) (.word old ok)
    | r, _ => r
  | _, _ => s.applyBare a

end Sys2Proof.Machine
end

