-- ==== Sys2Proof/Machine/Mesh.lean ====
section
/-! DEFINITION. The mesh (01 R26 to R31): the ways of packets, what a router output sends next, the sharing of outputs and
stations by weight, and the limits of injection. -/

namespace Sys2Proof.Machine

/-! ## Coordinates (01 R10, R11) -/

/-- The router at a row and a column, both counted from the north-west corner of the whole mesh: row 0 is the north
stations' (row −1), column 0 the west edge nodes' (column −1). -/
def nodeOf (row col : Nat) : Nat := row * 128 + col

/-- The row and column of a place, or of the router of a cluster (`clusterPlace`). -/
def State.spotOf (s : State) (p : Place) : Nat × Nat :=
  if 65536 ≤ p then ((p - 65536) / 64 + 1, p % 64 + 1)
  else
  match p / 16384 with
  | 0 => (rowOf p + 1, colOf p + 1)
  | 1 => (if bitAt p 6 then 33 else 0, p % 64 + 1)
  | 2 => (p % 32 + 1, 0)
  | _ => (p % 32 + 1, s.cols + 1)

/-! ## Ways (01 R28, R29) -/

/-- The positions along one dimension from `c`, in one direction, with the ends `lo` and `lo + w - 1` joined by a wrap
link: each with the position that its hop leads to and whether that hop crosses the link. -/
def stepsFrom (lo w : Nat) (inc : Bool) : Nat → Nat → List (Nat × Nat × Bool)
  | 0, _ => []
  | n + 1, c =>
    let wrap := if inc then c + 1 == lo + w else c == lo
    let next := if wrap then (if inc then lo else lo + w - 1) else if inc then c + 1 else c - 1
    (c, next, wrap) :: stepsFrom lo w inc n next

/-- The positions from `c` to `t`: the shorter way round a ring that holds both, up the numbers where both are equal;
straight where there is none. DESIGN CHOICE (log 116): the manual gives no direction. -/
def legOf (ring : Option (Nat × Nat)) (c t : Nat) : Bool × List (Nat × Nat × Bool) :=
  let straight := if c ≤ t then (true, stepsFrom 0 256 true (t - c) c) else (false, stepsFrom 0 256 false (c - t) c)
  match ring with
  | some (lo, w) =>
    if lo ≤ c ∧ c < lo + w ∧ lo ≤ t ∧ t < lo + w then
      let up := (t + w - c) % w
      let down := (c + w - t) % w
      if up ≤ down then (true, stepsFrom lo w true up c) else (false, stepsFrom lo w false down c)
    else straight
  | none => straight

/-- A hop crosses a wrap link: it leads against its direction. -/
def Hop.wrap (h : Hop) : Bool :=
  match h.dir with
  | .east | .south => decide (h.far < h.node)
  | .west | .north => decide (h.node < h.far)
  | _ => false

/-- Every hop after one that crosses a wrap link uses the escape class. -/
def markEsc : Bool → List (Nat × Nat × Dir × Bool) → List Hop
  | _, [] => []
  | e, (n, f, d, wrap) :: hs => ⟨n, f, d, e⟩ :: markEsc (e || wrap) hs

/-- The hops along a row and then along a column; with `esc` all of them in the escape class. -/
def dimensionHops (rowRing colRing : Option (Nat × Nat)) (esc : Bool) (a b : Nat × Nat) : List Hop :=
  let (east, xs) := legOf rowRing a.2 b.2
  let (south, ys) := legOf colRing a.1 b.1
  markEsc esc ((xs.map fun x => (nodeOf a.1 x.1, nodeOf a.1 x.2.1, if east then Dir.east else Dir.west, x.2.2))
    ++ ys.map fun y => (nodeOf y.1 b.2, nodeOf y.2.1 b.2, if south then Dir.south else Dir.north, y.2.2))

/-- The step out of the mesh at the end of a way, in the class of the hops before it: a hop after one that crosses a wrap
link is in the escape class. -/
def homeHop (hs : List Hop) (b : Nat × Nat) : Hop :=
  ⟨nodeOf b.1 b.2, nodeOf b.1 b.2, .home, match hs.getLast? with | some h => h.esc || h.wrap | none => false⟩

/-- The hops along a row and then along a column, and the step out of the mesh at the end. -/
def dimensionWay (rowRing colRing : Option (Nat × Nat)) (a b : Nat × Nat) : List Hop :=
  let hs := dimensionHops rowRing colRing false a b
  hs ++ [homeHop hs b]

/-- The ring of a partition's rows around a position, in the coordinates of `spotOf` (01 R29). -/
def Part.rowRing (t : Part) (col : Nat) : Option (Nat × Nat) := (t.ring (col - 1)).map fun r => (r.1 + 1, r.2)

/-- The ring of a partition's columns: TORUS and SUBTORUS join each column's south end to its north end. -/
def Part.colRing (t : Part) : Option (Nat × Nat) :=
  if t.attrs.shape = 2 ∨ t.attrs.shape = 3 then some (t.attrs.clu / 64 + 1, t.attrs.nrows) else none

/-- The number of a spot within a partition's rectangle, from its north-west cluster, row by row. -/
def Part.treeNo (t : Part) (a : Nat × Nat) : Nat :=
  (a.1 - 1 - t.attrs.clu / 64) * t.attrs.ncols + (a.2 - 1 - t.attrs.clu % 64)

/-- The router of a number in the rectangle. -/
def Part.treeNode (t : Part) (n : Nat) : Nat :=
  let w := max 1 t.attrs.ncols
  nodeOf (t.attrs.clu / 64 + n / w + 1) (t.attrs.clu % 64 + n % w + 1)

/-- The numbers from a tree node to the root, itself first: node n's parent is (n − 1) / 2. DESIGN CHOICE (log 116): the
manual gives the tree's root alone. -/
def toRoot : Nat → Nat → List Nat
  | 0, n => [n]
  | k + 1, n => if n = 0 then [0] else n :: toRoot k ((n - 1) / 2)

/-- The hops over the SYNC tree of a TREE stitch (01 R29), rooted at the north-west cluster: up to the first common node,
and down. -/
def Part.treeWay (t : Part) (a b : Nat × Nat) : List Hop :=
  let up := toRoot 12 (t.treeNo a)
  let dn := toRoot 12 (t.treeNo b)
  let top := (up.find? dn.contains).getD 0
  let climb := up.takeWhile (· != top)
  let fall := (dn.takeWhile (· != top)).reverse
  (climb.map fun n => ⟨t.treeNode n, t.treeNode ((n - 1) / 2), .up, false⟩)
    ++ ((top :: fall).zip fall).map (fun e =>
      ⟨t.treeNode e.1, t.treeNode e.2, if e.2 = 2 * e.1 + 1 then .left else .right, false⟩)
    ++ [homeHop [] b]

/-- A place is a core of a partition's rectangle. -/
def Part.inside (t : Part) (p : Place) : Bool := decide (p < 16384) && t.holds? (p / 8)

/-- The way of a packet on whole links (R28): rings and the tree are used between cores of one partition; a packet from a
station to an edge node first steps into row 0 or row 31 of its column, in the escape class. -/
def State.plainWay (s : State) (pn : Nat) (src dst : Place) (vn : Vn) : List Hop :=
  let t := s.part pn
  let a := s.spotOf src
  let b := s.spotOf dst
  if t.inside src && t.inside dst then
    if t.attrs.shape = 4 ∧ vn = .sync then t.treeWay a b
    else dimensionWay (t.rowRing a.2) t.colRing a b
  else if src / 16384 = 1 ∧ 2 ≤ dst / 16384 then
    let r := if a.1 = 0 then 1 else 32
    ⟨nodeOf a.1 a.2, nodeOf r a.2, if a.1 = 0 then .south else .north, true⟩ :: dimensionWay none none (r, a.2) b
  else dimensionWay none none a b

/-! ## Dead links (01 R31) -/

/-- The number of a direction. -/
def Dir.num : Dir → Nat
  | .north => 0
  | .south => 1
  | .east => 2
  | .west => 3
  | .up => 4
  | .left => 5
  | .right => 6
  | .home => 7

/-- A hop over the SYNC tree's links. -/
def Hop.tree (h : Hop) : Bool := match h.dir with | .up | .left | .right => true | _ => false

/-- The number of the link that a hop takes, the same from both its ends: the numbers of the two routers that it joins,
and whether it is a link of the mesh, a wrap link or one of the tree's. DESIGN CHOICE (log 118): the manual numbers no
link. -/
def linkNum (a b kind : Nat) : Nat := (min a b * 8192 + max a b) * 4 + kind

def Hop.link (h : Hop) : Nat := linkNum h.node h.far (if h.tree then 2 else if h.wrap then 1 else 0)

/-- The hop crosses a dead link. -/
def State.deadHop (s : State) (h : Hop) : Bool := h.dir != .home && s.fab.deadLinks.contains h.link

/-- The two legs of a detour over a router: each dimension-ordered, the packet routing from there as R28 lets a station's
packet, and the second in the escape class as there. -/
def detourBy (a m b : Nat × Nat) : List Hop :=
  dimensionHops none none false a m ++ dimensionHops none none true m b ++ [⟨nodeOf b.1 b.2, nodeOf b.1 b.2, .home, true⟩]

/-- The routers of the mesh proper. -/
def State.routers (s : State) : List (Nat × Nat) :=
  (List.range 32).flatMap fun r => (List.range s.cols).map fun c => (r + 1, c + 1)

/-- The way of a detour, which the housekeeping kernel's entries give (R31 step 4): by a router that is free (log 118),
where the legs to it and from it are whole, else by the first router over which they are. -/
def State.detour (s : State) (a b : Nat × Nat) : Option (List Hop) :=
  let whole (m : Nat × Nat) : Bool := !(detourBy a m b).any s.deadHop
  let m := Config.detour s.fab.deadLinks (nodeOf a.1 a.2) (nodeOf b.1 b.2)
  (if s.routers.contains m && whole m then some m else s.routers.find? whole).map fun m => detourBy a m b

/-- The way of a packet: along R28's route, or by a detour where that crosses a dead link. A packet for which no detour is
whole waits at the dead link. -/
def State.hopsOf (s : State) (pn : Nat) (src dst : Place) (vn : Vn) : List Hop :=
  let w := s.plainWay pn src dst vn
  if w.any s.deadHop then (s.detour (s.spotOf src) (s.spotOf dst)).getD w else w

/-! ## Injection (01 R30, R31; 10 R146) -/

/-- The key of a source, destination and network. -/
def laneKey (src dst : Place) (vn : Vn) : Nat :=
  (src * 131072 + dst) * 8 + (match vn with | .reply => 0 | .req => 1 | .amsg => 2 | .bulk => 3 | .sync => 4 | .mgmt => 5)

/-- The 12-bit number of a source's next packet to a destination on a network (10 R146). -/
def State.nextSeq (s : State) (src dst : Place) (vn : Vn) : Nat := Table.get 0 s.fab.seqs (laneKey src dst vn)

/-- The next number of a lane taken. -/
def State.takeSeqOf (s : State) (lane : Nat) : State :=
  { s with fab := { s.fab with seqs := Table.set s.fab.seqs lane ((Table.get 0 s.fab.seqs lane + 1) % 4096) } }

/-- The next number taken. -/
def State.takeSeq (s : State) (src dst : Place) (vn : Vn) : State := s.takeSeqOf (laneKey src dst vn)

/-- The fabric cycle of the present tick's first cycle: 13 of them make a tick (01 R30, 00 R8). -/
def State.fabricCycle (s : State) : Nat := 13 * s.tick

/-- A partition's injection on a network is limited (R30). -/
def State.limitedOn (s : State) (pn : Nat) (vn : Vn) : Bool := (s.part pn).limited.any fun e => e.1 == vn

/-- The fabric cycle before which a source may not inject: under a limit, one packet per 16 cycles and core. -/
def State.injectAfter (s : State) (pn : Nat) (src : Place) (vn : Vn) : Nat :=
  if s.limitedOn pn vn then max s.fabricCycle (Table.get 0 s.fab.nextInj (laneKey src 0 vn)) else 0

/-- A source may inject on a network within the present tick. -/
def State.mayInject (s : State) (pn : Nat) (src : Place) (vn : Vn) : Bool :=
  !(s.part pn).paused && decide (s.injectAfter pn src vn < s.fabricCycle + 13)

/-- The limit's next cycle noted. -/
def State.noteInjection (s : State) (pn : Nat) (src : Place) (vn : Vn) : State :=
  if s.limitedOn pn vn then
    { s with fab := { s.fab with
        nextInj := Table.set s.fab.nextInj (laneKey src 0 vn) (s.injectAfter pn src vn + 16) } }
  else s

/-- The way of a packet that its source hands to its router now. Each core, and each station or edge node, has an input
port of its own. -/
def State.wayFor (s : State) (pn : Nat) (src dst : Place) (vn : Vn) : Way :=
  { path := s.hopsOf pn src dst vn, port := 8 + src % 8, since := s.fab.order, moved := s.tick,
    after := s.injectAfter pn src vn }

/-- One more coming of a packet to a router. -/
def State.nextOrder (s : State) : State := { s with fab := { s.fab with order := s.fab.order + 1 } }

/-! ## Sharing by weight (01 R27) -/

/-- The weight of a partition. -/
def State.weight (s : State) (pn : Nat) : Nat := max 1 (s.part pn).attrs.weight

/-- The partition that is served next among those that wait, and the shares afterwards: the lowest-numbered one with
credit left, and where none has, each is given its weight anew; one that waits alone is served and uses no credit. DESIGN
CHOICE (log 117): weighted round robin, and the fair queueing of the stations, fix no order. -/
def State.share (s : State) (sh : Shares) (waiting : List Nat) : Option (Nat × Shares) :=
  let take (sh : Shares) : Option (Nat × Shares) :=
    (waiting.filter fun n => Table.get 0 sh n != 0).min?.map fun n => (n, Table.set sh n (Table.get 0 sh n - 1))
  match waiting with
  | [n] => some (n, sh)
  | _ => (take sh).or (take (waiting.foldl (fun sh n => Table.set sh n (s.weight n)) sh))

/-! ## Router outputs (01 R26, R27) -/

/-- What travels: a packet, or an access or close on its way to its home. -/
structure Flight where
  num : Nat
  vn : Vn
  part : Nat
  way : Way
deriving DecidableEq, Repr

/-- The network of an access: requests of sequencers on REQ, engine data on BULK (R26). -/
def Access.vn (a : Access) : Vn := if a.path = .core then .req else .bulk

/-- Everything in the mesh that is not lost. -/
def State.flights (s : State) : List Flight :=
  ((s.fab.net.filter fun k => !k.lost).map fun k => ⟨k.num, k.vn, k.part, k.way⟩)
    ++ (s.fab.bufs.filter fun a => !a.lost).map fun a => ⟨a.num, a.vn, s.partNo a.src, a.way⟩

/-- Two packets wait in the same buffer of the same router: every network has its own at each input, and its escape class
another. -/
def Flight.sameBuffer (a b : Flight) : Bool :=
  match a.way.path, b.way.path with
  | x :: _, y :: _ => x.node == y.node && x.esc == y.esc && a.way.port == b.way.port && a.vn == b.vn
  | _, _ => false

/-- A packet is at the head of its buffer. -/
def Flight.isHead (fs : List Flight) (f : Flight) : Bool :=
  fs.all fun g => !(f.sameBuffer g) || decide (f.way.since ≤ g.way.since)

/-- A head may leave by its output: the link is whole, and a packet still at its source may be injected. -/
def State.mayHop (s : State) (f : Flight) : Bool :=
  match f.way.path with
  | h :: _ =>
    !s.deadHop h && (f.way.port < 8 || !(s.part f.part).paused && decide (f.way.after < s.fabricCycle + 13))
  | [] => false

/-- The heads that are ready for an output. -/
def State.readyAt (s : State) (node : Nat) (d : Dir) : List Flight :=
  let fs := s.flights
  fs.filter fun f =>
    (match f.way.path with | h :: _ => h.node == node && h.dir == d | [] => false) && s.mayHop f && f.isHead fs

def State.outlet (s : State) (node : Nat) (d : Dir) : Outlet := Table.get ⟨0, []⟩ s.fab.outs (node * 8 + d.num)

/-- The networks in the order in which an output looks at them: REPLY, MGMT, then SYNC, REQ, AMSG and BULK in turn. -/
def Outlet.networks (o : Outlet) : List Vn :=
  [.reply, .mgmt] ++ ([Vn.sync, .req, .amsg, .bulk].drop (o.turn % 4)) ++ ([Vn.sync, .req, .amsg, .bulk].take (o.turn % 4))

/-- The place of a network in the round. -/
def turnOf : Vn → Option Nat
  | .sync => some 0
  | .req => some 1
  | .amsg => some 2
  | .bulk => some 3
  | _ => none

/-- What an output sends next, and the output afterwards: the first network with a ready head, within it the partition
that the shares choose, of it the head that has waited longest. A head that is alone takes no turn. -/
def State.pickAt (s : State) (node : Nat) (d : Dir) : Option (Flight × Outlet) :=
  let o := s.outlet node d
  match s.readyAt node d with
  | [f] => some (f, o)
  | ready =>
    (o.networks.find? fun v => ready.any (·.vn == v)).bind fun v =>
      let mine := ready.filter (·.vn == v)
      (s.share (Table.get [] o.shares (laneKey 0 0 v)) (mine.map (·.part)).eraseDups).bind fun (pn, sh) =>
        let own := mine.filter (·.part == pn)
        (own.find? fun f => own.all fun g => decide (f.way.since ≤ g.way.since)).map fun f =>
          (f, ⟨((turnOf v).map (· + 1)).getD o.turn, Table.set o.shares (laneKey 0 0 v) sh⟩)

/-- A way after its first hop: the packet waits at the next router, at the port that faces this one. -/
def Way.advance (w : Way) (d : Dir) (order tick : Nat) : Way :=
  { w with path := w.path.tail, port := d.num, since := order, moved := tick }

/-- A router output sends what its arbitration chooses. -/
def State.hop (s : State) (node : Nat) (d : Dir) : State :=
  match s.pickAt node d with
  | none => s
  | some (f, o) =>
    let go (w : Way) : Way := w.advance d s.fab.order s.tick
    { s with fab := { s.fab with
        net := s.fab.net.map fun k => if k.num = f.num then { k with way := go k.way } else k
        bufs := s.fab.bufs.map fun a => if a.num = f.num then { a with way := go a.way } else a
        outs := Table.set s.fab.outs (node * 8 + d.num) o
        order := s.fab.order + 1 } }

/-- Every router output that something waits for sends once; `n` times over. -/
def State.mesh : Nat → State → State
  | 0, s => s
  | n + 1, s =>
    let outs := (s.flights.filterMap fun f => f.way.path.head?.map fun h => (h.node, h.dir)).eraseDups
    State.mesh n (outs.foldl (fun s o => s.hop o.1 o.2) s)

/-- A packet finds its way clear: no link of it is dead, and at each router of it nothing waits for the output that it
takes, nor on its network, so that every output sends it as it comes. -/
def State.clearWay (s : State) (vn : Vn) (path : List Hop) : Bool :=
  let fs := s.flights
  fs.isEmpty && s.fab.deadLinks.isEmpty || path.all fun h => !s.deadHop h && fs.all fun f =>
    match f.way.path with
    | g :: _ => g.node != h.node || g.dir != h.dir && f.vn != vn
    | [] => true

/-! ## Stations (01 R27) -/

/-- The partition whose access a station serves next, among those whose accesses wait at it. -/
def State.servedNext (s : State) (station : Nat) : Option (Nat × Shares) :=
  let waiting := (s.fab.bufs.filter fun a => a.home == .station station && a.way.path.isEmpty).map fun a => s.partNo a.src
  s.share (Table.get [] s.fab.served station) waiting.eraseDups

/-- The mesh bytes that a partition injects (22 R316). -/
def State.meterMesh (s : State) (pn n : Nat) : State :=
  s.modPart pn fun t => { t with meter := { t.meter with meshb := t.meter.meshb + n } }

end Sys2Proof.Machine
end

