-- ==== Sys2Proof/Machine/Hold.lean ====
section
/-! DEFINITION. Packets (01 R26), the sync interval of a core (16 R236, R240), holding, marking, producing and
unwinding (03 R54 to R63), and the end of a strand (08 R111). -/

namespace Sys2Proof.Machine

/-! ## Packets -/

/-- The 64-byte packets that a body travels as (10 R150; 18 R255 for a Gaussian deposit). -/
def Body.packets : Body → Nat
  | .gauss _ _ _ n _ _ _ => (32 + 2 * n * (n + 3) + 63) / 64
  | _ => 1

/-- A message whose route-and-reply word holds the number of its packet (10 R150). -/
def Msg.number (m : Msg) (seq : Nat) : Msg :=
  { m with rr := m.rr &&& ~~~ 0xFFF00000#64 ||| BitVec.ofNat 64 (seq % 4096 * 2 ^ 20) }

/-- A body as its packet carries it: the SEQ of a message is its packet's number (R146), but a forwarded message keeps its
word (03 R35). -/
def Body.number (b : Body) (seq : Nat) : Body :=
  match b with
  | .active m q none => .active (m.number seq) q none
  | .post m q => .post (m.number seq) q
  | .tcMsg m tc => .tcMsg (m.number seq) tc
  | .dispatch m h mb k o => .dispatch (m.number seq) h mb k o
  | b => b

/-- The packet that a source hands to its router now. -/
def State.packetOf (s : State) (src dst : Place) (vn : Vn) (pn sid : Nat) (b : Body) : Packet :=
  let seq := s.nextSeq src dst vn
  { num := s.fab.nextNum, src := src, dst := dst, vn := vn, part := pn, sid := sid, tick := s.tick, body := b.number seq,
    lost := false, seq := seq, way := s.wayFor pn src dst vn }

/-- A packet handed to the mesh, metered as mesh bytes (22 R316). -/
def State.inject (s : State) (src dst : Place) (vn : Vn) (pn sid : Nat) (b : Body) : State :=
  let k := s.packetOf src dst vn pn sid b
  let s := (s.takeSeq src dst vn).noteInjection pn src vn
  let s := s.meterMesh pn (64 * b.packets)
  { s with fab := { s.fab with net := s.fab.net ++ [k], nextNum := s.fab.nextNum + 1, order := s.fab.order + 1 } }

/-- The answer to an access leaves its home for the source on REPLY (10 R347); its bytes were metered with the access's. -/
def State.injectAnswer (s : State) (src dst : Place) (pn num : Nat) (d : Dest) (a : Answer) : State :=
  let k := s.packetOf src dst .reply pn num (.memory d num a)
  let s := (s.takeSeq src dst .reply).noteInjection pn src .reply
  { s with fab := { s.fab with net := s.fab.net ++ [k], nextNum := s.fab.nextNum + 1, order := s.fab.order + 1 } }

/-- A packet has arrived at its destination. -/
def Packet.arrived (k : Packet) : Bool := k.way.path.isEmpty && !k.lost

/-- The packet that is next to be applied of one source, destination and virtual network: the earliest one, once it has
arrived (01 R26, R31; 10 R146): a later one that arrives ahead of it waits. -/
def State.nextPacket (s : State) (src dst : Place) (vn : Vn) : Option Packet :=
  match s.fab.net.find? fun k => k.src == src && k.dst == dst && k.vn == vn with
  | some k => if k.arrived then some k else none
  | none => none

/-- The mesh without one packet. -/
def State.dropPacket (s : State) (num : Nat) : State :=
  { s with fab := { s.fab with net := s.fab.net.filter (·.num != num) } }

/-- The answer to a request, on REPLY (10 R151). -/
def State.answerTo (s : State) (k : Packet) (q : SeqId) (a : Answer) : State :=
  let s := match a with | .msg 0 _ => s | _ => s.setPub (.packet k.num) PubSet.none
  let s' := s.inject k.dst k.src .reply k.part 0 (.answer q a)
  { s' with fab := { s'.fab with net := s'.fab.net.map fun p => if p.num = s.fab.nextNum then { p with num := p.num, sid := k.num } else p } }

/-! ## Cores that stand still -/

/-- A strand stalled in `spawn` on its overflow area (03 R32, R45). -/
def Core.spawnStalled (c : Core) : Bool :=
  c.running && ((c.st.as.wait.map (·.why)) == some .spawnStall || (c.st.xs.wait.map (·.why)) == some .spawnStall)

/-- A core runs no instruction while it is withdrawn, under test or its partition aborted, or its strand is parked on a
page fault or stalled in `spawn` (03 R32, 22 R298, R314, R315). -/
def State.coreStill (s : State) (p : Place) : Bool :=
  let c := s.core p
  !c.running || c.parkedFault || c.spawnStalled || c.testing || (s.partOf p).dead

/-- A core whose strand may go on. -/
def State.coreRuns (s : State) (p : Place) : Bool := !s.coreStill p

/-! ## Sending accesses (16 R234, 01 R26) -/

/-- The place that an access to a home travels to: a replicated page's writes go to the station that owns it for the core
(22 R307). -/
def homePlace (src : Place) : Home → Place
  | .cp p _ => p
  | .cm clu _ => clu * 8
  | .station n => stationPlace n
  | .repl => stationPlace (if rowOf src ≤ 15 then colOf src else 64 + colOf src)

/-- An access leaves its source's cluster. -/
def Access.remote (a : Access) : Bool :=
  match a.home with
  | .cp p _ => p / 8 != a.src / 8
  | .cm clu _ => clu != a.src / 8
  | _ => true

/-- An access is a close of an interval. -/
def Access.isClose (a : Access) : Bool :=
  match a.op with
  | .close _ => true
  | _ => false

/-- The bytes that an access reads or writes. -/
def Access.size (a : Access) : Nat :=
  match a.tgt with
  | .keys ks => ks.length
  | .glob _ _ _ n | .regs _ _ _ n => n

/-- The mesh bytes of an access (22 R316). -/
def State.meterAccess (s : State) (a : Access) : State :=
  if a.remote then
    s.meterMesh (s.partNo a.src) (Config.accessBytes (match a.kind with | .r => 0 | .w => 1 | .a => 2) a.size)
  else s

/-- The mesh bytes of a command's packet, of `n` bytes, or of its refusal (n = 0), between its issuing core and an engine
outside its cluster (22 R316). -/
def State.meterCmd (s : State) (c : Cmd) (n : Nat) : State :=
  if c.eng.place.toNat / 8 = c.issuer / 8 then s else s.meterMesh c.part (Config.accessBytes 3 n)

/-- The homes that an access's bytes lie at. -/
def State.homesOf (s : State) (a : Access) : List Home :=
  match a.tgt with
  | .keys ks => (a.home :: ks.map (s.bankOf a.home)).eraseDups
  | _ => [a.home]

/-- Two accesses of one source and path have a home in common, where they are applied in the order dispatched (16 R235). -/
def State.sameBuffer (s : State) (a b : Access) : Bool :=
  b.src == a.src && b.path == a.path && (s.homesOf b).any fun h => (s.homesOf a).contains h

/-- Earlier accesses of the same source, path and home that have not been applied (16 R235). -/
def State.queuedBefore (s : State) (a : Access) : Bool := (s.fab.issue ++ s.fab.bufs).any fun b => s.sameBuffer a b

/-- The number of a home. -/
def homeNum : Home → Nat
  | .cp p b => p * 64 + b
  | .cm clu b => 2 ^ 21 + clu * 64 + b
  | .station n => 2 ^ 22 + n
  | .repl => 2 ^ 23

/-- The number of a path. -/
def pathNum : Path → Nat
  | .core => 0
  | .cce => 1
  | .bds => 2
  | .bte => 3
  | .coll => 4
  | .mbx => 5

/-- The lane in which an access that travels is numbered (10 R146): its source is the unit whose path it takes, its
destination its home. DESIGN CHOICE (log 106). -/
def Access.lane (a : Access) : Nat := ((a.src * 2 ^ 24 + homeNum a.home) * 8 + pathNum a.path) * 8 + 6

/-- What the home of an access waits for before the access: nothing else has come to its station (01 R27). -/
def State.stationFree (s : State) (h : Home) : Bool :=
  match h with
  | .station _ => s.fab.bufs.all fun b => b.home != h
  | _ => true

/-- An access that travels and its answer find their ways clear: the source may inject it, every output of its way sends it
at once, its station serves nobody else, and the answer returns on REPLY in the same way (01 R26, R27, R30, R31). -/
def State.roundTrip (s : State) (a : Access) : Bool :=
  let pn := s.partNo a.src
  let d := homePlace a.src a.home
  s.mayInject pn a.src a.vn && s.mayInject pn d .reply && s.stationFree a.home
    && s.clearWay a.vn (s.hopsOf pn a.src d a.vn) && s.clearWay .reply (s.hopsOf pn d a.src .reply)

/-- An access may pass to its home, and its answer back, within the step that issues it: nothing of its path is queued
before it, and, where it travels, nothing is in its way. -/
def State.passes (s : State) (a : Access) : Bool := !s.queuedBefore a && (!a.remote || s.roundTrip a)

/-- The number of an access that leaves its source (10 R146). -/
def State.numbered (s : State) (a : Access) : Access :=
  if a.remote then { a with seq := Table.get 0 s.fab.seqs a.lane } else a

/-- An access that travels leaves its source: it is injected and metered, and takes its number. -/
def State.departed (s : State) (a : Access) : State :=
  if a.remote then ((s.noteInjection (s.partNo a.src) a.src a.vn).takeSeqOf a.lane).meterAccess a else s

/-- The answer to an access that has travelled leaves its home, and takes its number. -/
def State.returned (s : State) (a : Access) : State :=
  if a.remote then
    let d := homePlace a.src a.home
    (s.noteInjection (s.partNo a.src) d .reply).takeSeq d a.src .reply
  else s

def State.nextNumber (s : State) : State := { s with fab := { s.fab with nextNum := s.fab.nextNum + 1 } }

/-- What becomes of an access that is issued. -/
inductive Sent
  | waits (s : State)
  | answered (s : State) (ans : Answer)
  | stop (f : Fault)

/-- The close filter of a core takes the homes that an access of its interval touches (16 R240). -/
def State.touched (s : State) (a : Access) : State :=
  s.modCore a.src fun c => (s.homesOf a).foldl Core.touch c

/-- An access is issued: dispatched, applied and answered at once, unless the turn leaves that to later events, or it
cannot pass, or its home cannot apply it yet. -/
def State.send (s : State) (a : Access) (slow : Bool) : Sent :=
  let s := if a.party = .core a.src ∧ !a.isClose then s.touched a else s
  if slow || !s.passes a then .waits { s with fab := { s.fab with issue := s.fab.issue ++ [a] } }
  else
    let u := s.departed a
    match u.applyAccess a with
    | .blocked => .waits { u with fab := { u.fab with bufs := u.fab.bufs ++ [s.numbered a] } }
    | .stop f => .stop f
    | .done s' ans => .answered (s'.returned a) ans

/-- An access of an engine: passed to its home and answered within the step, or not made yet. -/
def State.pass (s : State) (a : Access) : Applied :=
  if !s.passes a then .blocked
  else
    match (s.departed a).applyAccess a with
    | .blocked => .blocked
    | .stop f => .stop f
    | .done s' ans => .done (s'.returned a) ans

/-! ## Sync intervals (16 R236, R240, R244) -/

/-- An access or close of the core still on its way (16 R232). -/
def State.inFlight (s : State) (p : Place) : List Access :=
  (s.fab.issue ++ s.fab.bufs).filter fun a => a.src == p && a.path == .core

/-- Every home of a partition and every station that it reaches (16 R240). DEDUCED (log 121): a partition reaches all the
module's stations, and the replication sequencer. -/
def State.reachedHomes (s : State) (pn : Nat) : List Home :=
  let t := s.part pn
  (t.coresOf.flatMap fun p => (List.range s.cpBanks).map (Home.cp p))
    ++ (t.clusOf.flatMap fun c => (List.range 32).map (Home.cm c))
    ++ ((List.range (16 * s.nStacks)).map fun j => Home.station (s.stationOf (j / 16) (j % 16))) ++ [.repl]

/-- The homes that the close of a core's interval goes to: those of its filter, or, where that has overflowed, every home
(16 R240). -/
def State.closeHomes (s : State) (p : Place) : List Home :=
  let c := s.core p
  if c.overflowed then s.reachedHomes (s.partNo p) else c.filter

/-- The close of an interval that a core sends to a home. -/
def State.closeFor (s : State) (p : Place) (h : Home) : Access :=
  { num := s.fab.nextNum, src := p, party := .core p, path := .core, home := h, kind := .r,
    op := .close (s.core p).interval, tgt := .keys [], base := 0, interval := (s.core p).interval, dest := .none,
    range := none, way := Way.done, lost := false }

/-- A close sent, as any access of the core. -/
def State.sendClose (s : State) (p : Place) (h : Home) : State :=
  match s.nextNumber.send (s.closeFor p h) (s.slowTurn && s.cur.1 == p) with
  | .waits s' => s'
  | .answered s' _ => s'
  | .stop _ => s

/-- The end of the core's interval (16 R240): its closes leave, and the next interval starts with an empty filter. -/
def State.closeInterval (s : State) (p : Place) : State :=
  ((s.closeHomes p).foldl (fun s h => s.sendClose p h) s).modCore p fun c =>
    { c with interval := c.interval + 1, filter := [], overflowed := false
             st := { c.st with act := { c.st.act with shut := s.fab.nextNum } } }

/-- A release of a sequencer (R245): its published set is what precedes it, and the interval ends. -/
def State.releases (s : State) (p : Place) (q : SeqId) : State :=
  (s.setPub (.given (s.strand p).act.sid q) (s.publishedBy p q)).closeInterval p

/-- A close of the core that has not been acknowledged: it, or its acknowledgement, is on its way. -/
def State.closing (s : State) (p : Place) : Bool :=
  ((s.inFlight p).any fun a => match a.op with | .close _ => true | _ => false)
    || s.fab.net.any fun k => k.dst == p && match k.body with | .memory .none _ _ => true | _ => false

/-- What a release of a sequencer waits for before its interval ends (16 R245): the accesses before it are answered, loads
into lq included, sq has drained, and the core's writes to replicated pages have committed. Of the other sequencer's
accesses, R144 orders loads into lq before a release of the XS: those that the AS had issued when the XS last popped a
queue, or when the interval last ended. -/
def State.released (s : State) (p : Place) (q : SeqId) : Bool :=
  let t := s.strand p
  t.q.sq.isEmpty
    && (t.q.lq.toList.all fun l => l.all fun e =>
      match e with
      | .pending n _ => q == .xs && decide (max t.act.seen t.act.shut ≤ n)
      | _ => true)
    && (s.fab.repl.all fun w => w.party != .core p)

/-! ## The hold table (03 R54) -/

def Hold.reset : Hold := ⟨0, .free, 0, false, 0, 0⟩
def Part.hold (t : Part) (slot : Nat) : Hold := Table.get Hold.reset t.holds slot
def holdSlot (id : Nat) : Nat := id % 4096
def holdUse (id : Nat) : Nat := id / 4096 % 16

/-- The lowest free slot, of 1 to 4,095. -/
def Part.freeSlot (t : Part) : Option Nat := (span 1 4095).find? fun n => (t.hold n).phase == .free

/-- The hold that an id names, if its slot is in that use. -/
def Part.holdOf (t : Part) (id : Nat) : Option Hold :=
  let h := t.hold (holdSlot id)
  if h.phase != .free && h.use == holdUse id && holdSlot id != 0 then some h else none

/-- The depth of a hold in its tree (03 R62). -/
def Part.depth (t : Part) : Nat → Nat → Nat
  | 0, _ => 0
  | n + 1, id =>
    match t.holdOf id with
    | some h => if h.root then 0 else 1 + t.depth n h.parent
    | none => 0

/-- A slot freed: its next use has the next number. -/
def Part.freeHold (t : Part) (id : Nat) : Part :=
  match t.holdOf id with
  | some h => { t with holds := Table.set t.holds (holdSlot id) { Hold.reset with use := (h.use + 1) % 16 } }
  | none => t

/-! ## Unwinding (03 R62 step 3) -/

/-- An object of an awaited list still holds a consumer back: it reads withheld. -/
def Part.marked (t : Part) (o : ObjRef) : Bool := t.marks.any (·.obj == o)

/-- Parked consumers all of whose awaited objects are unmarked become ready, shallower first and then by id. -/
def Part.wake (t : Part) : Part :=
  let wakes (k : Parked) : Bool := !k.ready && !k.awaits.isEmpty && k.awaits.all fun o => !t.marked o
  let woken := t.parked.filter wakes
  let base := (t.parked.map (·.order)).foldl max 0
  let rank (k : Parked) : Nat :=
    base + 1 + (woken.filter fun j =>
      decide (j.depth < k.depth) || (j.depth == k.depth && decide (j.hold < k.hold))).length
  { t with
    parked := t.parked.map fun k => if wakes k then { k with ready := true, order := rank k } else k
    holds := woken.foldl (fun hs k =>
      if k.shares then hs
      else
        let h := Table.get Hold.reset hs (holdSlot k.hold)
        Table.set hs (holdSlot k.hold) { h with phase := .ready }) t.holds }

/-! ## Mesh barriers' withheld phases (14 R201) -/

/-- The corner keeps the phase's W state and sends each change to every participant. -/
def State.meshRecheck (s : State) (pn : Nat) : State :=
  s.cores.foldl (fun s e =>
    if e.2.part = some pn then
      e.2.objs.mshs.foldl (fun s me =>
        let m := me.2
        if m.block != 0 && meshCorner m.block == e.1 then
          let w := (meshMembers m.block).any fun q => (s.part pn).marked ⟨.msh, q, me.1⟩
          if w = m.heldSince.isSome then s
          else
            let past :=
              match m.heldSince with
              | some t0 => [(t0, s.tick)]
              | none => []
            let m' := { m with heldSince := if w then some s.tick else none, spans := m.spans ++ past }
            let s := s.modObjs e.1 fun o => { o with mshs := Table.set o.mshs me.1 m' }
            (meshMembers m.block).foldl (fun s q => s.inject e.1 q .sync pn 0 (.meshW me.1 w)) s
        else s) s
    else s) s

/-- Marks taken away, and what follows at once. -/
def State.clearMarks (s : State) (pn : Nat) (f : Mark → Bool) : State :=
  (s.modPart pn fun t => ({ t with marks := t.marks.filter fun m => !f m } : Part).wake).meshRecheck pn

/-- A strand produces an object (03 R56): its own mark on it clears. -/
def State.produce (s : State) (pn sid : Nat) (o : ObjRef) : State :=
  if (s.part pn).marks.any fun m => m.obj == o && m.sid == sid then
    s.clearMarks pn fun m => m.obj == o && m.sid == sid
  else s

/-! ## Holding (03 R54, R56) -/

/-- A wait as a parked strand keeps it: those for answers and hints stay (10 R347), and the consumer's own wait keeps
its frozen budget (03 R60); any other is performed again in full, but for what it has sent: the answers to that stay, and
nothing is sent again. -/
def Seq.parkWait (c : Seq) (mine : Bool) : Seq :=
  match c.wait with
  | some w =>
    if w.why = .answer ∨ w.why = .hint ∨ mine then c
    else if w.why = .fence then { c with wait := none, kept := [], used := 0, passed := 0, parcel := none }
    else { c with wait := none, used := 0, passed := 0, parcel := if c.kept.isEmpty then none else c.parcel }
  | none => c

/-- Sequencers of the partition that wait on an object that now reads withheld perform their wait again (03 R57). -/
def State.wakeWaiters (s : State) (pn : Nat) (objs : List ObjRef) : State :=
  let turns := s.cores.flatMap fun e =>
    if e.2.part = some pn && e.2.running && !e.2.parkedFault then
      [SeqId.as, SeqId.xs].filterMap fun q =>
        match (e.2.st.seq q).wait with
        | some w =>
          match w.why with
          | .object o =>
            if objs.contains o || o.kind == .mbx && objs.any (·.kind == .reply) || o.kind == .msh
                || o.kind == .lb && objs.any (·.kind == .ring)
              then some (Turn.run e.1 q) else none
          | _ => none
        | none => none
    else []
  { s with agenda := turns ++ s.agenda }

/-- Every `holdx` that waits for a strand is answered (14 R206). -/
def State.answerHoldx (s : State) (t : Strand) (w : Nat) : State :=
  t.act.holdReq.foldl (fun s r => s.receive r.1 r.2 (.word (BitVec.ofNat 64 w) true)) s

/-- The core's speed code follows the governor's offset (01 R22), at a handler boundary (R20). Features that a self-test
has retired are gone (22 R315), and the core goes by its cluster's tables as they are written (R321). -/
def Core.adopt (c : Core) (g : Nat) : Core :=
  { c with
    feat := c.feat &&& ~~~ c.retiring
    state := if c.retiring = 0 then c.state else 1
    retiring := 0
    cur := ⟨c.bin.val - g, Nat.lt_of_le_of_lt (Nat.sub_le _ _) c.bin.isLt⟩
    oldTabs := none }

/-- A strand's streams as a parked or saved strand keeps them: the buffered vectors are discarded, and fetched again on
resume (12 R179). -/
def Vec.dropStreams (v : Vec) : Vec :=
  { v with streams := v.streams.map fun e => (e.1, { e.2 with buf := [], stopped := false, read := 0, lanes := Vector.replicate 32 0 }) }

/-- The strand of a core is parked whole under an id, its produce set marked with it, and its core goes on. -/
def State.parkAs (s : State) (p : Place) (id : Nat) (shares : Bool) (parent depth : Nat) (awaits : List ObjRef)
    (mine : Option SeqId) : State :=
  let pn := s.partNo p
  let set := s.produceSet p
  let s := s.closeInterval p
  let t := s.strand p
  let t := { t with
    as := t.as.parkWait (mine == some .as)
    xs := t.xs.parkWait (mine == some .xs)
    vec := t.vec.dropStreams
    csr := { t.csr with holdst := { t.csr.holdst with holdid := BitVec.ofNat 16 id } } }
  let s := s.answerHoldx t (0x30000 + id)
  let t := { t with act := { t.act with
    holdReq := [], sharing := if shares then (t.act.sharing ++ [id]).eraseDups else t.act.sharing } }
  let k : Parked := ⟨p, t, id, shares, parent, depth, awaits, false, 0, s.tick, 0⟩
  let s := s.modPart pn fun w => { w with
    parked := w.parked ++ [k]
    marks := w.marks ++ (set.map fun o => ⟨o, id, t.act.sid⟩) }
  let s := s.modCore p fun c => ({ c with running := false, st := Strand.reset } : Core).adopt s.gov.g.val
  (s.meshRecheck pn).wakeWaiters pn set

/-- A root hold: by `hold`, `holdx`, the supervisor, or an absent UTVEC (03 R62). None where no slot is free. -/
def State.holdRoot (s : State) (p : Place) : Option (State × Nat) :=
  let pn := s.partNo p
  match (s.part pn).freeSlot with
  | none => none
  | some slot =>
    let h := (s.part pn).hold slot
    let id := h.use * 4096 + slot
    let s := s.modPart pn fun t =>
      { t with holds := Table.set t.holds slot ⟨h.use, .held, 0, true, p, (s.strand p).act.sid⟩ }
    some (s.parkAs p id false 0 0 [] none, id)

/-- A consumer hold (03 R57) with the lowest mark id of its object as parent; it shares the parent's id where no slot
is free (R54). -/
def State.holdConsumer (s : State) (p : Place) (q : SeqId) (o : ObjRef) (awaits : List ObjRef) : State :=
  let pn := s.partNo p
  let parent := listMin ((awaits.flatMap fun a => (s.part pn).marksOn a).map (·.id))
  let parent := if parent = 0 then s.markId pn o else parent
  let depth := 1 + (s.part pn).depth 4096 parent
  match (s.part pn).freeSlot with
  | none => s.parkAs p parent true parent depth awaits (some q)
  | some slot =>
    let h := (s.part pn).hold slot
    let id := h.use * 4096 + slot
    let s := s.modPart pn fun t =>
      { t with holds := Table.set t.holds slot ⟨h.use, .held, parent, false, p, (s.strand p).act.sid⟩ }
    s.parkAs p id false parent depth awaits (some q)

/-! ## The end of a strand (08 R111, 03 R62 step 4) -/

/-- The flags that a strand's completion record adds to its launch (03 R52, R61; 22 R298). -/
def Launch.note (l : Launch) (lid : Nat) (fault dlmiss poison : Bool) : Launch :=
  if l.prm.lid.toNat = lid then
    { l with fault := l.fault || fault, dlmiss := l.dlmiss || dlmiss, poison := l.poison || poison }
  else l

/-- A reply that the strand still owes is sent with status ABORT and a zero payload (10 R153). -/
def State.abortReply (s : State) (p : Place) (t : Strand) : State :=
  match t.act.owed with
  | some o =>
    let pn := s.partNo p
    (s.inject p o.place .reply pn t.act.sid (.reply o.rmb o.num true (List.replicate 6 0))).produce pn t.act.sid
      ⟨.reply, o.place, o.num⟩
  | none => s

/-- A hold's slot is freed at its strand's end, unless strands that have shared its id are still held or running. -/
def Part.releaseSlot (t : Part) (id sid : Nat) (running : List Nat) : Part :=
  match t.holdOf id with
  | none => t
  | some h =>
    let sharers := (t.parked.any fun k => k.st.act.sharing.contains id && k.st.act.sid != sid) || running.contains id
    if sharers then
      (if h.sid = sid then { t with holds := Table.set t.holds (holdSlot id) { h with phase := .poison } } else t)
    else if h.sid = sid || h.phase == .poison then t.freeHold id
    else t

/-- The ids that running strands have shared. -/
def State.runningIds (s : State) (pn sid : Nat) : List Nat :=
  s.cores.flatMap fun e =>
    if e.2.part = some pn && e.2.running && e.2.st.act.sid != sid then e.2.st.act.sharing else []

/-- The ids of the slots that a strand's holds have taken. -/
def Part.idsOf (t : Part) (sid : Nat) : List Nat :=
  (t.holds.filter fun e => e.2.sid == sid && e.2.phase != .free).map fun e => e.2.use * 4096 + e.1

/-- What the end of a strand brings about, wherever the strand stands: every slot that it took or shared is released. -/
def State.afterEnd (s : State) (p : Place) (t : Strand) (fault : Bool) : State :=
  let pn := s.partNo p
  let s := (s.abortReply p t).dropPubs t.act.sid
  let s := s.clearMarks pn (·.sid == t.act.sid)
  let run := s.runningIds pn t.act.sid
  let s := s.modPart pn fun w =>
    { (t.act.sharing ++ w.idsOf t.act.sid).foldl (fun w id => w.releaseSlot id t.act.sid run) w with
      launch := w.launch.map fun l => l.note t.act.lid fault t.act.dlmiss t.act.poison }
  s.modCore p fun c => { c with work := { c.work with
    lens := (c.work.lens ++ [s.tick - t.act.t0 - t.act.held]).drop (c.work.lens.length + 1 - 16) } }

/-- The strand that runs on a core ends. -/
def State.endStrand (s : State) (p : Place) (fault : Bool) : State :=
  let t := s.strand p
  let s := (s.closeInterval p).answerHoldx t 0x10000
  let s := s.modCore p fun c =>
    ({ c with running := false, parkedFault := false, st := Strand.reset } : Core).adopt s.gov.g.val
  s.afterEnd p t fault

/-- A strand whose end the micro-kernel or `rel.end` brings about: as `end`, its marks poisoned (03 R63, 22 R298). -/
def State.poisonMarks (s : State) (pn sid : Nat) : State :=
  let objs := ((s.part pn).marks.filter (·.sid == sid)).map (·.obj)
  let all := objs.flatMap fun o => if o.kind = .msh then s.shownBy o else [o]
  s.modPart pn fun t => { t with pois := (t.pois ++ all).eraseDups }

end Sys2Proof.Machine
end

