-- ==== Sys2Proof/Machine/Ops.lean ====
section
/-! DEFINITION. The named operations that every meaning is written with: a request and its answer (10 R141, R347), a
wait on an object (03 R57, R60, R63), taking an exception (22 R294 to R296, 07 R102) and returning from one (08 R128,
22 R318), the end rule (08 R126), and how a sequencer performs an instruction (07 R96). -/

namespace Sys2Proof.Machine

/-! ## Requests and answers -/

/-- An access of the current core on the CORE path. -/
def State.coreAccess (s : State) (home : Home) (kind : AccKind) (op : AccOp) (tgt : Target) (base : Nat) : Access :=
  { num := s.fab.nextNum, src := s.cur.1, party := .core s.cur.1, path := .core, home := home, kind := kind, op := op,
    tgt := tgt, base := base, interval := s.me.interval, dest := .seq s.cur.1 s.cur.2, range := none, way := Way.done, lost := false }

/-- The answer as the instruction takes it: a trap ends it, any other is its result. A trapped store keeps its popped
value in the replay latch. -/
def takeAnswer (latch : Option Word) : Answer → M Answer
  | .trap c v => fun s =>
    .error (.trap c (some v) (match latch with | some w => .latch w s | none => .none))
  | a => pure a

/-- The wait for an answer that a later event brings. -/
def waitAnswer (s : State) : Stop := .wait ⟨.answer, 0, none, none⟩ (some s)

/-- A request of the instruction in progress. Its answer is the one kept from an earlier performance, if any; a
request already sent is waited for; otherwise the request is sent (`State.send`), and its answer taken if it comes at
once. -/
def access (a : State → Access) (latch : Option Word) : M Answer := fun s =>
  match s.seq.kept[s.seq.used]? with
  | some ans => takeAnswer s.seq.latch ans (s.modSeq fun c => { c with used := c.used + 1 })
  | none =>
    if s.seq.out.isSome then .error (waitAnswer s)
    else
      let r := a s
      let s1 := s.nextNumber
      match s1.send r s.slowTurn with
      | .waits s' => .error (waitAnswer (s'.modSeq fun c => { c with out := some r.num, latch := latch.or c.latch }))
      | .stop f => .error (.fault f)
      | .answered s' ans =>
        takeAnswer (latch.or s.seq.latch) ans (s'.modSeq fun c => { c with kept := c.kept ++ [ans], used := c.used + 1 })

/-- A request by packet (a message or a deposit), whose answer a later event brings; the packet carries what the
instruction has released (16 R245). -/
def request (dst : Place) (vn : Vn) (b : Body) : M Answer := fun s =>
  match s.seq.kept[s.seq.used]? with
  | some ans => takeAnswer none ans (s.modSeq fun c => { c with used := c.used + 1 })
  | none =>
    if s.seq.out.isSome then .error (waitAnswer s)
    else
      let n := s.fab.nextNum
      let s' := (s.inject s.cur.1 dst vn (s.partNo s.cur.1) s.my.act.sid b).publish (.packet n)
      .error (waitAnswer (s'.modSeq fun c => { c with out := some n, tries := c.tries + 1 }))

/-- The sequencer has already sent a request, or been answered, for the instruction it performs. -/
def Seq.begun (c : Seq) : Bool := c.out.isSome || !c.kept.isEmpty

/-! ## Synchronising instructions (16 R244, R245) -/

/-- The closes of the instruction in progress have left. -/
def Seq.shut (c : Seq) : Bool := decide (4 ≤ c.passed)

/-- The wait of a release. -/
def waitRelease (s : Option State) : Stop := .wait ⟨.release, 0, none, none⟩ s

/-- A release (16 R245): once what precedes it is done the interval ends, and it takes effect when the closes are
acknowledged. -/
def release : M Unit := fun s =>
  let p := s.cur.1
  if s.seq.shut then (if s.closing p then .error (waitRelease (some s)) else .ok ((), s))
  else if s.released p s.cur.2 then
    let s' := s.releases p s.cur.2
    if s'.closing p then .error (waitRelease (some (s'.modSeq fun c => { c with passed := c.passed + 4 }))) else .ok ((), s')
  else .error (waitRelease (if s.seq.used = 0 then none else some s))

/-- A synchronising instruction that releases nothing closes the interval. -/
def syncPoint : M Unit := modState fun s => s.closeInterval s.cur.1

/-- Before the AS performs a synchronising instruction it performs every entry then in sq (10 R143). -/
def drainSq : M Unit := fun s =>
  if s.cur.2 = .as ∧ !s.my.q.sq.isEmpty then .error (.wait ⟨.queue 4, 0, none, none⟩ (if s.seq.used = 0 then none else some s))
  else .ok ((), s)

/-- The release of an instruction that then sends a request: made once, before the request. -/
def releaseOnce : M Unit := fun s => if s.seq.begun then .ok ((), s) else release s

/-- A sequencer that stands at a waiting instruction and may complete it. -/
def State.waitOf (s : State) (p : Place) (q : SeqId) : Option Wait :=
  let c := s.core p
  if c.running && !c.parkedFault && !(s.seqAt p q).stopped then (s.seqAt p q).wait else none

/-! ## Waits on objects (03 R57, R60, R63) -/

/-- The wait as it goes on from the one in progress on the same thing, or as it begins. -/
def Seq.carry (c : Seq) (w : Wait) : Wait :=
  match c.wait with
  | some v => if v.why = w.why then { w with left := v.left, till := v.till } else w
  | none => w

/-- A wait whose condition is unmet: on a poisoned object it raises WITHHELD-ABORT; an expired time-out ends it (the
answer true); on a withheld object the strand is held; otherwise it waits. `awaits` are the marked things a wait on
`o` stands for. -/
def waitOn (o : ObjRef) (awaits : List ObjRef) (tmo : Nat) : M Bool := fun s =>
  let pn := s.partNo s.cur.1
  let w := s.seq.carry ⟨.object o, 0, if tmo = 0 then none else some tmo, none⟩
  if s.poisoned pn o || awaits.any (s.poisoned pn) then trap .withheldAbort (objEntry s.cur.1 o) s
  else if w.left = some 0 then .ok (true, s)
  else if awaits.any fun a => s.withheld pn a && !(s.shownMarks pn a).isEmpty then .error (.held o w s)
  else .error (.wait w (if s.seq.used = 0 then none else some s))

/-! ## Taking an exception (22 R294 to R296) -/

/-- The code of a cause (22 R294). -/
def Cause.code : Cause → Nat
  | .illegalEncoding => 0x01
  | .illegalSequencer => 0x02
  | .fetchStraddle => 0x03
  | .misalignedTarget => 0x04
  | .privileged => 0x05
  | .featureAbsent => 0x06
  | .misalignedData => 0x07
  | .windowBounds => 0x08
  | .placeInvalid => 0x09
  | .permission => 0x0A
  | .translation => 0x0B
  | .accessRights => 0x0C
  | .memoryConflict => 0x0D
  | .singularBlock => 0x0E
  | .refinement => 0x0F
  | .watchdog => 0x10
  | .deadline => 0x11
  | .withheldAbort => 0x12
  | .queueMisuse => 0x13
  | .brk => 0x14
  | .streamFault => 0x15
  | .format => 0x16
  | .engineFault => 0x17

/-- The causes whose route may be UTVEC (22 R294, 07 UTMASK). -/
def Cause.userRoute : Cause → Bool
  | .singularBlock | .refinement | .deadline | .brk | .format => true
  | _ => false

/-- The resume point that EPC records for a sequencer (07 R102). -/
def Seq.epc (c : Seq) : BitVec 32 :=
  if c.present && !c.ended then BitVec.ofNat 32 c.pc else BitVec.allOnes 32

/-- CAUSE, EPC and TVAL as a trap sets them. -/
def Csrs.record (r : Csrs) (c : Cause) (q : SeqId) (pprv udel : Bool) (apc xpc : BitVec 32) (v : Word) : Csrs :=
  { r with cause := ⟨pprv, udel, q == .xs, BitVec.ofNat 8 c.code⟩, apc := apc, xpc := xpc, tval := v }

/-- The EPC field of a sequencer. -/
def Csrs.epcOf (r : Csrs) : SeqId → Nat
  | .as => r.apc.toNat
  | .xs => r.xpc.toNat

/-- What the trapping sequencer sets aside when its handler starts (10 R141, R347). -/
def Seq.setAside (c : Seq) : Shelf := ⟨c.pc, c.kept, c.out, c.tries, c.latch, c.parcel⟩

/-- The trapping sequencer at its handler. -/
def Seq.enter (c : Seq) (l : Level) (target : Nat) : Seq :=
  { c with pc := target, level := l, inTrap := true, stopped := false, wait := none, kept := [], used := 0,
           out := none, tries := 0, latch := none, passed := 0, parcel := none, shelf := c.setAside :: c.shelf }

/-- The other sequencer stops at its boundary; a wait of it that has sent nothing is abandoned. -/
def Seq.halt (c : Seq) : Seq := { c.parkWait false with stopped := true }

/-- A trap delivered to a level at a handler address. -/
def State.deliver (s : State) (p : Place) (q : SeqId) (c : Cause) (v : Word) (pprv udel : Bool) (l : Level)
    (target : Nat) : State :=
  s.modStrand p fun t =>
    let t := { t with csr := t.csr.record c q pprv udel t.as.epc t.xs.epc v }
    (t.setSeq q ((t.seq q).enter l target)).setSeq (otherSeq q) ((t.seq (otherSeq q)).halt)

/-- Delivery to the supervisor (22 R296): UDEL keeps its value; the level is recorded, and control goes to STVEC. A
trap of the management level is delivered as one of the supervisor level. -/
def State.toSupervisor (s : State) (p : Place) (q : SeqId) (c : Cause) (v : Word) : State :=
  let t := s.strand p
  let s := s.deliver p q c v ((t.seq q).level != .user) t.csr.cause.udel .supervisor (s.core p).stvec.toNat
  if c = .withheldAbort then s.modStrand p fun t => { t with act := { t.act with poison := true } } else s

/-- The code region's size of a partition. -/
def State.codeSize (s : State) (p : Place) : Nat := (s.partOf p).attrs.codeSize

/-- What a later `tret` needs of a user trap, kept for the micro-kernel (22 R296). -/
def Strand.noteUserTrap (t : Strand) : Strand :=
  { t with act := { t.act with userTrap := some (t.csr.cause, t.csr.apc, t.csr.xpc, t.csr.tval) } }

/-- A trap taken (22 R295, R296): to UTVEC where the cause's route, UTMASK, the level and UDEL allow it; with UTVEC zero
the strand is held once, and when its instruction raises the cause again that goes to the supervisor; a UTVEC outside the
code region raises WINDOW-BOUNDS to the supervisor, with the user trap open (UDEL 1, R295 steps 2 and 3); every other trap
goes to the supervisor. DESIGN CHOICE (log 86): where no hold slot is free for an absent UTVEC (03 R54), the trap goes to
the supervisor. -/
def State.trapTo (s : State) (p : Place) (q : SeqId) (c : Cause) (v : Word) : State :=
  let t := s.strand p
  let r := t.csr
  if c.userRoute && (t.seq q).level == .user && r.utmask.getLsbD c.code && !r.cause.udel then
    if r.utvec = 0 then
      if (t.seq q).retry = some c then s.toSupervisor p q c v
      else
        let s' := s.modStrand p fun t =>
          { t.setSeq q { t.seq q with retry := some c } with csr := t.csr.record c q false false t.as.epc t.xs.epc v }
        match s'.holdRoot p with
        | some (s'', _) => s''
        | none => s.toSupervisor p q c v
    else if s.codeSize p ≤ r.utvec.toNat then
      (s.modStrand p fun t => ({ t with csr := t.csr.record c q false true t.as.epc t.xs.epc v } : Strand).noteUserTrap).toSupervisor
        p q .windowBounds r.utvec
    else (s.deliver p q c v false true .user r.utvec.toNat).modStrand p Strand.noteUserTrap
  else s.toSupervisor p q c v

/-- A precise trap of the current instruction (07 R96): nothing of it remains but what `f` keeps. TVAL
takes a free value where the manual gives the cause none. -/
def State.takeTrap (s : State) (c : Cause) (v : Option Word) (f : Fix) : State :=
  let s :=
    match f with
    | .latch w s' => s'.modSeq fun x => { x with latch := some w }
    | _ => s
  let s := s.modSeq fun x => { x with kept := [], used := 0, out := none, passed := 0, parcel := none }
  let s :=
    match f with
    | .none | .latch _ _ => s
    | .redo i => s.modMy fun t => { t with q := { t.q with
        lq := t.q.lq.set i.val (markRedo (t.q.lq[i.val])) } }
    | .stream v => s.modMy fun t => { t with vec := { t.vec with
        streams := t.vec.streams.map fun (e : Nat × Stream) => if e.1 = v then (e.1, { e.2 with stopped := false }) else e } }
  match v with
  | some w => s.trapTo s.cur.1 s.cur.2 c w
  | none => ({ s with free := s.free + 1 } : State).trapTo s.cur.1 s.cur.2 c (Config.freeValue s.free)
where
  markRedo : List LqEntry → List LqEntry
    | [] => []
    | .marked _ _ r :: es => .redo r :: es
    | e :: es => e :: markRedo es

/-! ## Returning from an exception (08 R128, 22 R318) -/

/-- The sequencer back at a target and level: what it had set aside for the instruction there is its own again. -/
def Seq.comeBack (c : Seq) (l : Level) (target : Nat) : Seq :=
  let base := { c with pc := target, level := l, inTrap := decide (1 < c.shelf.length), wait := none, kept := [],
                       used := 0, out := none, tries := 0, latch := none, passed := 0, parcel := none
                       shelf := c.shelf.tail }
  match c.shelf.head? with
  | some h =>
    if h.pc = target then { base with kept := h.kept, out := h.out, tries := h.tries, latch := h.latch, parcel := h.parcel }
    else base
  | none => base

/-- The other sequencer goes on at its EPC field, unless the field is 0xFFFF_FFFF, which leaves it as it is. DESIGN CHOICE
(log 92): the field is the target whatever it holds; 07 R84 and 08 R128 check the returning sequencer's own field
only. -/
def Seq.goOn (c : Seq) (epc : BitVec 32) : Seq :=
  if epc = BitVec.allOnes 32 then c else { c with pc := epc.toNat, stopped := false }

/-- Marked vectors of streams that a trap has reported are fetched again on the return (12 R179). -/
def Vec.unmark (v : Vec) : Vec :=
  { v with streams := v.streams.map fun e =>
      if e.2.stopped then e else (e.1, { e.2 with buf := e.2.buf.filter fun x => match x with | .fault _ _ => false | _ => true }) }

/-- The return of a sequencer to a level at a target, the other sequencer resumed. -/
def State.comeBack (s : State) (p : Place) (q : SeqId) (l : Level) (target : Nat) : State :=
  s.modStrand p fun t =>
    let epc := match q with
      | .as => t.csr.xpc
      | .xs => t.csr.apc
    let t := if q = .xs then { t with vec := t.vec.unmark } else t
    (t.setSeq q ((t.seq q).comeBack l target)).setSeq (otherSeq q) ((t.seq (otherSeq q)).goOn epc)

/-! ## Retiring -/

/-- The end rule (08 R126), which a sequencer in a trap handler does not apply (R127). -/
def Seq.endRule (c : Seq) (len : Nat) : Seq :=
  let next := c.pc + len
  if c.inTrap then { c with pc := next }
  else if c.lc0.count != 0 && c.pc == c.lc0.stop then
    let n0 := c.lc0.count - 1
    if n0 != 0 then { c with lc0 := { c.lc0 with count := n0 }, pc := c.lc0.start }
    else if c.lc1.count != 0 && c.pc == c.lc1.stop then
      let n1 := c.lc1.count - 1
      if n1 != 0 then
        { c with lc0 := { c.lc0 with count := c.lc0.saved }, lc1 := { c.lc1 with count := n1 }, pc := c.lc1.start }
      else { c with lc0 := { c.lc0 with count := 0 }, lc1 := { c.lc1 with count := 0 }, pc := next }
    else { c with lc0 := { c.lc0 with count := 0 }, pc := next }
  else if c.lc1.count != 0 && c.pc == c.lc1.stop then
    let n1 := c.lc1.count - 1
    { c with lc1 := { c.lc1 with count := n1 }, pc := if n1 != 0 then c.lc1.start else next }
  else { c with pc := next }

/-- The sequencer with nothing left of the instruction it has completed. -/
def Seq.settle (c : Seq) : Seq :=
  { c with wait := none, latch := none, kept := [], used := 0, out := none, tries := 0, passed := 0, parcel := none
           retry := if c.level = .user then none else c.retry }

/-- An instruction of `len` bytes completes. -/
def Seq.retire (c : Seq) (len : Nat) : Next → Seq
  | .fall => (c.endRule len).settle
  | .to t => { c with pc := t }.settle

def State.retire (s : State) (len : Nat) (n : Next) : State := s.modSeq fun c => c.retire len n

/-- The instruction waits: it is performed again at the sequencer's next turn. -/
def State.stall (s : State) (w : Wait) : State :=
  s.modSeq fun c => { c with wait := some w, used := 0 }

/-- The replies that a mailbox's reservations await: a reply wait on it stands for them (10 R159). -/
def State.mbxReplies (s : State) (o : ObjRef) : List ObjRef :=
  (Table.get Mbx.reset (s.objs o.place).mbs o.index).slots.filterMap fun x =>
    match x with
    | .reserved num _ => some ⟨.reply, o.place, num⟩
    | _ => none

/-- The outcome of a body begun in state `s`. -/
def finish (len : Nat) (s : State) : Except Stop (Next × State) → Host.Outcome State Fault Refusal
  | .ok (n, s') => .next (s'.retire len n)
  | .error (.trap c v f) => .next (s.takeTrap c v f)
  | .error (.wait w s') => .next ((s'.getD s).stall (s.seq.carry w))
  | .error (.held o w s') =>
    .next ((s'.stall w).holdConsumer s.cur.1 s.cur.2 o
      (if o.kind = .mbx then o :: (s'.mbxReplies o) else s'.shownBy o))
  | .error (.own s') => .next s'
  | .error (.fault f) => .fault f

/-! ## Performing an instruction (07 R96) -/

/-- What an instruction asks before its guard: the sequencers that may run it, the level, the FEAT bits. -/
structure Need where
  seqs : SeqId → Bool
  level : Level
  feat : BitVec 16

def Level.rank : Level → Nat
  | .user => 0
  | .supervisor => 1
  | .management => 2

/-- Either sequencer, any level, no feature. -/
def Need.any : Need := ⟨fun _ => true, .user, 0⟩
/-- The XS only. -/
def Need.xs : Need := ⟨fun q => q == .xs, .user, 0⟩

/-- The FEAT bit that an X code of FP64 needs (07 R96). -/
def fp64Bit (x : XT) : BitVec 16 := if x = .f64 then 1 else 0

/-- The requirement that a FEATURE-ABSENT failed, for the micro-kernel (22 R298). -/
def State.lacking (s : State) (f : BitVec 16) : State := s.modMy fun t => { t with act := { t.act with lack := f } }

/-- Steps 3 to 7 of 07 R96: ILLEGAL-SEQUENCER, PRIVILEGED, FEATURE-ABSENT, the guard, the body. `open_` is the guard as
the instruction's group takes it (R88). -/
def performWith (len : Nat) (n : Need) (open_ : Bool) (body : M Next) (s : State) :
    Host.Outcome State Fault Refusal :=
  if !n.seqs s.cur.2 then .next (s.takeTrap .illegalSequencer none .none)
  else if s.seq.level.rank < n.level.rank then .next (s.takeTrap .privileged none .none)
  else if n.feat &&& ~~~ s.me.feat != 0 then .next ((s.lacking n.feat).takeTrap .featureAbsent none .none)
  else if !open_ then .next (s.retire len .fall)
  else finish len s (body s)

/-- An instruction whose guard is one bit. -/
def perform (len : Nat) (n : Need) (g : Guard) (body : M Next) (s : State) : Host.Outcome State Fault Refusal :=
  performWith len n (s.seq.passes g) body s

end Sys2Proof.Machine
end

