-- ==== Sys2Proof/Machine/Operands.lean ====
section
/-! DEFINITION. The operand forms: queue and link sources and destinations (07 R87, 08 R107), and the addresses of the
four windows with their checks (10 R135, R136, 14 R193, 22 R293). -/

namespace Sys2Proof.Machine

/-! ## Queue and link operands -/

/-- A source that a sequencer may name (07 R87). -/
def srcOk (q : SeqId) : Opnd → Bool
  | .lq _ => q == .xs
  | _ => true

/-- A destination that a sequencer may name: lq0 to lq3 are pushed by the AS. -/
def dstOk (q : SeqId) : Opnd → Bool
  | .lq _ => q == .as
  | _ => true

/-- What an instruction with these operands needs. -/
def needOps (srcs dsts : List Opnd) (feat : BitVec 16) : Need :=
  ⟨fun q => srcs.all (srcOk q) && dsts.all (dstOk q), .user, feat⟩

/-- As `needOps`, on the XS only. -/
def needXs (srcs dsts : List Opnd) (feat : BitVec 16) : Need :=
  ⟨fun q => q == .xs && srcs.all (srcOk q) && dsts.all (dstOk q), .user, feat⟩

/-- The part of a sequencer can neither push nor pop any more (01 R17). -/
def Seq.gone (c : Seq) : Bool := !c.present || c.ended

/-- A pop of lq0 to lq3 (10 R142, 01 R17): a marked head raises its trap, and a queue that no load can fill any more is
a misuse. -/
def popLq (i : Fin 4) : M Word := fun s =>
  match s.my.q.lq[i.val] with
  | [] =>
    if s.my.as.gone then trap .queueMisuse (BitVec.ofNat 64 i.val) s else waitFor (.queue i.val) s
  | .full w :: rest =>
    .ok (w, s.modMy fun t => { t with
      q := { t.q with lq := t.q.lq.set i.val rest }, act := { t.act with seen := s.fab.nextNum } })
  | .marked c v _ :: _ => .error (.trap c (some v) (.redo i))
  | .pending _ _ :: _ | .redo _ :: _ => waitFor (.queue i.val) s

/-- Src(F) of 08 R107. -/
def src : Opnd → M Word
  | .reg r => readS r
  | .lq i => popLq i
  | .nE => popLink true
  | .nW => popLink false

/-- Dst(F, v) of 08 R107 for a link destination. -/
def dst (o : Opnd) (v : Word) : M Unit :=
  match o with
  | .reg r => writeS r v
  | .nE => pushLink true v
  | .nW => pushLink false v
  | .lq _ => pure ()

/-- A source that a request carries: popped once, when the request is sent; afterwards the replay latch or the request
itself holds it (10 R141). -/
def srcOnce (o : Opnd) : M Word := fun s =>
  match s.seq.latch with
  | some w => .ok (w, s)
  | none => if s.seq.begun then .ok (0, s) else src o s

/-- What the replay latch keeps of a source: a popped value, never a register's. -/
def latchOf (o : Opnd) (w : Word) : Option Word :=
  match o with
  | .reg _ => none
  | _ => some w

/-! ## Windows -/

/-- Where an access goes: its home, its bytes, and the key of address 0 of the window. -/
structure Loc where
  home : Home
  tgt : Target
  base : Nat
deriving DecidableEq, Repr

/-- The sizes of the on-chip-map windows (10 R136). -/
def windowSize : Nat → Option Nat
  | 0 => some 65536
  | 1 => some 1048576
  | 2 => some 512
  | 3 => some 512
  | 4 => some 4096
  | 5 => some 16384
  | 6 => some 2048
  | 7 => some 2048
  | 8 => some 4096
  | _ => none

/-- The supervisor region and barrier area of a CP (14 R193, 22 R293). -/
def reservedFrom : Nat := 0xEC00

/-- The home of a global address for the current core (10 R138, 22 R306, R307). -/
def State.globHome (s : State) (p : Place) (proc : BitVec 16) (addr : Nat) (kind : AccKind) : Home :=
  match s.walk (s.partOf p).procs proc addr with
  | some l =>
    if l.repl then
      (if kind = .r then .station (s.stationOf (s.replStack p) (bitsAt addr 12 4)) else .repl)
    else .station (s.slotStation (slotOf addr))
  | none => .station (s.slotStation (slotOf addr))

/-- The on-chip-map checks, in the order of 10 R136, then the rights of the window. -/
def State.locateOc (s : State) (addr n : Nat) (kind : AccKind) (user : Bool) : Except (Cause × Nat) Loc :=
  let clu := bitsAt addr 37 11
  let core := bitsAt addr 34 3
  let wk := bitsAt addr 28 6
  let off := bitsAt addr 0 28
  let e := s.placeEntry s.cur.1 clu
  match windowSize wk with
  | none => .error (.windowBounds, addr)
  | some size =>
    if !bitAt addr 63 || bitsAt addr 48 15 != 0 || (wk == 1 && core != 0) then .error (.windowBounds, addr)
    else if s.cols ≤ clu % 64 || e.getLsbD 14 then .error (.placeInvalid, addr)
    else if !e.getLsbD 15 || !s.permits s.cur.1 clu then .error (.permission, addr)
    else if size < off + n then .error (.windowBounds, addr)
    else if (6 ≤ wk && kind != .r) || (kind = .a && 2 ≤ wk) then .error (.accessRights, addr)
    else if wk = 0 ∧ user ∧ reservedFrom < off + n then .error (.accessRights, addr)
    else
      match s.steer e with
      | none => .error (.placeInvalid, addr)
      | some clu =>
        let p := clu * 8 + core
        if wk = 0 then .ok ⟨s.cpHome p off, .keys (span (Key.cp p off) n), 0⟩
        else if wk = 1 then .ok ⟨cmHome clu off, .keys (span (Key.cm clu off) n), 0⟩
        else .ok ⟨s.cpHome p off, .regs p wk off n, 0⟩

/-- A local CP range of the current core (10 R135). -/
def State.locateCp (s : State) (addr n : Nat) (user : Bool) : Except (Cause × Nat) Loc :=
  if 65536 < addr + n then .error (.windowBounds, addr)
  else if user && decide (reservedFrom < addr + n) then .error (.accessRights, addr)
  else .ok ⟨s.cpHome s.cur.1 addr, .keys (span (Key.cp s.cur.1 addr) n), Key.cp s.cur.1 0⟩

/-- A local CM range of the current core's cluster. -/
def State.locateCm (s : State) (addr n : Nat) : Except (Cause × Nat) Loc :=
  if 1048576 < addr + n then .error (.windowBounds, addr)
  else .ok ⟨cmHome (s.cur.1 / 8) addr, .keys (span (Key.cm (s.cur.1 / 8) addr) n), Key.cm (s.cur.1 / 8) 0⟩

/-- A global range (10 R135). -/
def State.locateGv (s : State) (addr n : Nat) (kind : AccKind) : Except (Cause × Nat) Loc :=
  if 2 ^ 57 ≤ addr then .error (.windowBounds, addr)
  else .ok ⟨s.globHome s.cur.1 s.my.csr.proc addr kind, .glob (s.partNo s.cur.1) s.my.csr.proc.toNat addr n, 0⟩

/-- CheckWindow of 10 R141. -/
def State.locate (s : State) (sp : Space) (addr n : Nat) (kind : AccKind) : Except (Cause × Nat) Loc :=
  let user := s.seq.level == .user
  match sp with
  | .cp => s.locateCp addr n user
  | .cm => s.locateCm addr n
  | .oc => s.locateOc addr n kind user
  | .gv => s.locateGv addr n kind

/-- `locate` as an instruction performs it: after the alignment check, each failure precise with the address in TVAL. -/
def check (sp : Space) (addr n align : Nat) (kind : AccKind) : M Loc := fun s =>
  if addr % align ≠ 0 then trap .misalignedData (BitVec.ofNat 64 addr) s
  else
    match s.locate sp addr n kind with
    | .ok l => .ok (l, s)
    | .error (c, v) => trap c (BitVec.ofNat 64 v) s

/-- The bytes of an answer as a number. -/
def Answer.num : Answer → Nat
  | .data bs => leOf bs
  | .word w _ => w.toNat
  | _ => 0
def Answer.bytes : Answer → List Byte
  | .data bs => bs
  | _ => []

/-- A read of `n` bytes at a place that has been checked. -/
def readAt (l : Loc) : M (List Byte) := do
  let a ← access (fun s => s.coreAccess l.home .r .read l.tgt l.base) none
  pure a.bytes

/-- A write at a place that has been checked. -/
def writeAt (l : Loc) (bs : List Byte) (latch : Option Word) : M Unit := do
  let _ ← access (fun s => s.coreAccess l.home .w (.write bs) l.tgt l.base) latch
  pure ()

/-- A configuration block in the own CP, read as one request (10 R157, 14 R198, R213). -/
def readBlock (off n : Nat) : M Nat := fun s =>
  match s.locateCp off n (s.seq.level == .user) with
  | .ok l => (do let bs ← readAt l; pure (leOf bs)) s
  | .error (c, v) => trap c (BitVec.ofNat 64 v) s

end Sys2Proof.Machine
end

