-- ==== Sys2Proof/Machine/Flags.lean ====
section
/-! DEFINITION. FPMODE and FPSTAT (05 R75, R77; 08 R120): the rounding attribute in force and the sticky flags. -/

namespace Sys2Proof.Machine

/-- FPMODE.RM: 0 RNE, 1 RTZ, 2 RUP, 3 RDN. -/
def Csrs.rm (r : Csrs) : Nat := r.fpmode.toNat

/-- The rounding attribute of an XS instruction. -/
def roundMode : M Nat := fun s => .ok (s.my.csr.rm, s)

/-- FPSTAT with an instruction's flags ORed in. -/
def Csrs.raise (r : Csrs) (f : Flags) : Csrs := { r with fpstat := r.fpstat ||| f }

/-- An instruction's flags are ORed into FPSTAT when it completes. -/
def raise (f : Flags) : M Unit := modState fun s => s.modMy fun t => { t with csr := t.csr.raise f }

/-- HOLDST.W after a non-blocking read (03 R58). -/
def setW (b : Bool) : M Unit :=
  modState fun s => s.modMy fun t => { t with csr := { t.csr with holdst := { t.csr.holdst with w := b } } }

/-- An object reads withheld or poisoned. -/
def State.wOrPois (s : State) (o : ObjRef) : Bool :=
  s.withheld (s.partNo s.cur.1) o || s.poisoned (s.partNo s.cur.1) o

end Sys2Proof.Machine
end

