-- ==== Sys2Proof/Machine/Fetch.lean ====
section
/-! DEFINITION. Fetching (07 R82, R83, R103, 08 R109), the passing of ticks (00 R8, 01 R20, 22 R299, 03 R60), and what a
sequencer meets at an instruction boundary: pending traps, a deadline, a `holdx` (03 R61, 14 R206, 22 R297, R300). -/

namespace Sys2Proof.Machine

/-! ## Fetching -/

/-- What a fetch finds. -/
inductive Fetched
  | block (bs : List Byte)
  | trap (c : Cause) (v : Word)
  | stop (f : Fault)

/-- A 32-byte fetch block of the partition's code region, from the cluster's instruction cache or from memory under
the process PROC0. -/
def State.fetchBlock (s : State) (p : Place) (n : Nat) : Fetched :=
  match Table.find (s.clus (p / 8)).icache n with
  | some bs => .block bs
  | none =>
    let t := s.partOf p
    let a := t.attrs.codeb + 32 * n
    match s.walk t.procs t.attrs.proc0 a with
    | none => .trap .translation (BitVec.ofNat 64 a)
    | some l =>
      if !l.r then .trap .accessRights (BitVec.ofNat 64 a)
      else
        match s.leafKey l p a with
        | some k => .block (Memory.getAll s.mem (span k 32))
        | none => .stop .frameOutsideStation

/-- The block at a sequencer's pc: of the firmware code region above user level (22 R292). -/
def State.fetchFrom (s : State) (p : Place) (c : Seq) : Fetched :=
  match c.level with
  | .user => s.fetchBlock p (c.pc / 32)
  | _ => .block (Memory.getAll s.firmwareMem (span (c.pc / 32 * 32) 32))

/-- The size of the code region of a level (22 R292, 08 R109). -/
def State.regionSize (s : State) (p : Place) : Level → Nat
  | .user => s.codeSize p
  | _ => Config.firmwareSize

/-- The bytes of one instruction within its block, and whether its first unit is the block's last (07 R83). -/
def State.fetch (s : State) (p : Place) (q : SeqId) : Fetched × Bool :=
  let c := s.seqAt p q
  if s.regionSize p c.level ≤ c.pc then (.trap .windowBounds (BitVec.ofNat 64 c.pc), false)
  else
    match s.fetchFrom p c with
    | .block bs => (.block (bs.drop (c.pc % 32)), c.pc % 32 == 28)
    | r => (r, false)

/-- The instruction would run past the end of its fetch block (07 R83). -/
def straddles (off len : Nat) : Bool := decide (32 < off % 32 + len)

/-- The 64-byte lines of an instruction cache. -/
def Cluster.lines (k : Cluster) : List Nat := (k.icache.map (·.1 / 2)).eraseDups

/-- A cluster's instruction cache holds 64 KiB (01 R15): 1,024 lines. A full one gives up a line for a new one; which
one is open. -/
def State.roomFor (s : State) (clu line : Nat) : State :=
  let ls := (s.clus clu).lines
  if ls.contains line || decide (ls.length < 1024) then s
  else
    let out := ls.getD (Config.cacheVictim s.free % 1024) 0
    ({ s with free := s.free + 1 } : State).modClus clu fun k => { k with icache := k.icache.filter fun e => e.1 / 2 != out }

/-- The fetched line stays in the cluster's instruction cache. -/
def State.cacheLine (s : State) (p : Place) (c : Seq) : State :=
  match c.level, s.fetchFrom p c with
  | .user, .block bs =>
    if (Table.find (s.clus (p / 8)).icache (c.pc / 32)).isSome then s
    else (s.roomFor (p / 8) (c.pc / 64)).modClus (p / 8) fun k => { k with icache := Table.set k.icache (c.pc / 32) bs }
  | _, _ => s

/-- The instruction as its sequencer has fetched it, where it waits at it (07 R103); its bytes at the pc otherwise. -/
def State.fetched (s : State) (p : Place) (q : SeqId) : Fetched × Bool :=
  let c := s.seqAt p q
  if c.wait.isSome && !c.fetched.isEmpty then (.block c.fetched, c.pc % 32 == 28) else s.fetch p q

/-- The line and the instruction fetched are kept. -/
def State.keepFetched (s : State) (p : Place) (q : SeqId) (bs : List Byte) : State :=
  (s.cacheLine p (s.seqAt p q)).modSeqAt p q fun c => { c with fetched := bs }

/-! ## Ticks -/

/-- The sequencer that a deadline or the watchdog is taken on: the AS where its part is present and not ended, else
the XS (03 R61, 22 R300). -/
def Strand.lead (t : Strand) : SeqId := if t.as.present && !t.as.ended then .as else .xs

/-- The strand's cycles count (22 R299): on its core, at user level, not stalled in `spawn` on a fault. -/
def Core.counts (c : Core) : Bool :=
  c.running && !c.parkedFault && c.st.as.level == .user && c.st.xs.level == .user
    && (c.st.as.wait.map (·.why)) != some .spawnStall && (c.st.xs.wait.map (·.why)) != some .spawnStall

/-- A sequencer's time-out after one tick, which an awaited object that reads withheld freezes (03 R60). -/
def State.tickWait (s : State) (pn : Nat) (c : Seq) : Seq :=
  match c.wait with
  | some w =>
    match w.why, w.left with
    | .object o, some n => if s.withheld pn o then c else { c with wait := some { w with left := some (n - 1) } }
    | _, _ => c
  | none => c

/-- WDOG.LEFT and the cycle count after one tick of `208 + CUR` sixteenths of a cycle (01 R20, 22 R299). -/
def Core.tickWatchdog (c : Core) : Core :=
  if !c.counts then c
  else
    let r := c.st.csr
    let n := r.cyc + 208 + c.cur.val
    let unit := 16384
    if n < unit then { c with st := { c.st with csr := { r with cyc := n } } }
    else
      let left := r.left - 1
      let act := if r.left = 1 then
          { c.st.act with pend := c.st.act.pend ++ [(c.st.lead, .watchdog, r.budget.setWidth 64)] }
        else c.st.act
      { c with st := { c.st with act := act, csr := { r with cyc := n - unit, left := if r.left = 0 then 0 else left } } }

/-- One core after one tick. -/
def State.tickCore (s : State) (c : Core) : Core :=
  let pn := c.part.getD 0
  let c := c.tickWatchdog
  { c with st := { c.st with as := s.tickWait pn c.st.as, xs := s.tickWait pn c.st.xs } }

/-- A partition's counters after one tick (22 R316). -/
def State.tickPart (s : State) (pn : Nat) (t : Part) : Part :=
  let bands := s.cores.filterMap fun e =>
    if e.2.part = some pn && e.2.counts then some (e.2.cur.val) else none
  let cyc := bands.foldl (fun (v : Vector Nat 4) c =>
    v.set (c / 16 % 4) (v[c / 16 % 4] + 208 + c) (Nat.mod_lt _ (by decide))) t.meter.cyc
  let held := (t.parked.filter fun k => k.hold != 0).length
  { t with meter := { t.meter with ptick := t.meter.ptick + 1, cyc := cyc, heldt := t.meter.heldt + held } }

/-- The deadline of the strand on a core has passed and nothing has been made of it yet (03 R61, 07 R101). -/
def State.deadlineDue (s : State) (p : Place) : Bool :=
  let t := s.strand p
  (s.core p).running && t.csr.deadline != 0 && decide (t.csr.deadline.toNat ≤ s.tick) && !t.act.dlPassed

/-- The DLMISS record (03 R61): LATE is the ticks past the deadline, saturating. -/
def Strand.missed (t : Strand) (now : Nat) : Strand :=
  let late := min (now - t.csr.deadline.toNat) (2 ^ 32 - 1)
  { t with
    act := { t.act with dlmiss := true, dlPassed := true }
    csr := { t.csr with holdst := { t.csr.holdst with dlmiss := true, late := BitVec.ofNat 32 late } } }

/-- A deadline passes while its strand is not held (03 R61): DEADLINE becomes pending where UTMASK enables it, and the
DLMISS record is made where it does not. -/
def State.passDeadline (s : State) (p : Place) : State :=
  if !s.deadlineDue p then s
  else
    s.modStrand p fun t =>
      if t.csr.utmask.getLsbD 17 then
        { t with act := { t.act with dlPassed := true, pend := t.act.pend ++ [(t.lead, .deadline, t.csr.deadline)] } }
      else t.missed s.tick

/-- One tick of the module's time base (00 R8). -/
def State.tick1 (s : State) : State :=
  let s' : State := { s with
    tick := s.tick + 1
    cores := s.cores.map fun e => (e.1, s.tickCore e.2)
    parts := s.parts.map fun e => (e.1, s.tickPart e.1 e.2) }
  s'.cores.foldl (fun t e => t.passDeadline e.1) s'

/-- `n` ticks. -/
def State.ticks : Nat → State → State
  | 0, s => s
  | n + 1, s => State.ticks n s.tick1

/-! ## Instruction boundaries -/

/-- DEADLINE and WATCHDOG are for user level; a trap that an sq store met is taken at any level (03 R61; 22 R296, R300). -/
def pendsAt (l : Level) (c : Cause) : Bool := l == .user || (c != .deadline && c != .watchdog)

/-- A matrix instruction, which the array performs. -/
def isMatrix : Instr → Bool
  | .mma _ _ _ | .mmaz _ _ _ | .mlda _ _ _ _ _ _ | .mldb _ _ _ _ _ _ | .mldacc _ _ _ _ _ _ | .mgath _ _ _ _ _ _
  | .mstacc _ _ _ _ _ _ _ _ | .mclr _ _ | .mmask _ _ _ _ => true
  | _ => false

/-- The XS is within a matrix instruction, whose request is out or answered (12 R189). -/
def Seq.inArray (c : Seq) : Bool :=
  c.begun && (match decodeBytes false c.fetched with | .ok i => isMatrix i | .error _ => false)

/-- A pending trap of a sequencer is taken at its boundary; a wait that has sent nothing is abandoned (10 R347). A matrix
instruction that has issued completes first (12 R189), except before a WATCHDOG, which finds a wait at a boundary (22
R300). -/
def State.takePending (s : State) (p : Place) (q : SeqId) : Option State :=
  let t := s.strand p
  match t.act.pend.find? fun e =>
      e.1 == q && pendsAt (t.seq q).level e.2.1 && (e.2.1 == .watchdog || !(t.seq q).inArray) with
  | some (_, c, v) =>
    let s := s.modStrand p fun t => { t with act := { t.act with pend := t.act.pend.erase (q, c, v) } }
    let s := s.modSeqAt p q fun x => x.parkWait false
    some (s.trapTo p q c v)
  | none => none

/-- A pending ENGINE-FAULT is delivered at the boundary of the AS, or of the XS where no AS part is present
(22 R297). -/
def State.takeFault (s : State) (p : Place) (q : SeqId) : Option State :=
  let t := s.strand p
  let lead : SeqId := if t.as.present then .as else .xs
  match (s.core p).pendFaults with
  | [] => none
  | (v, _) :: rest =>
    if q = lead && (t.seq q).level == .user && !(t.seq q).inArray then
      let s := s.modCore p fun c => { c with pendFaults := rest }
      let s := s.modSeqAt p q fun x => x.parkWait false
      some (s.toSupervisor p q .engineFault v)
    else none

/-- The first `holdx` is applied at a user-level boundary (14 R206): its answer is the id and status of the map. Others
that wait for the strand find it held. -/
def State.applyHoldx (s : State) (p : Place) : State :=
  match (s.strand p).act.holdReq with
  | [] => s
  | (rp, num) :: rest =>
    let s := s.modStrand p fun t => { t with act := { t.act with holdReq := rest } }
    match s.holdRoot p with
    | some (s', id) => s'.receive rp num (.word (BitVec.ofNat 64 id) true)
    | none => s.receive rp num (.word 0x20000 true)

/-- What happens at a sequencer's boundary before it performs an instruction; none where nothing does. -/
def State.boundary (s : State) (p : Place) (q : SeqId) : Option State :=
  let s := s.passDeadline p
  match s.takePending p q with
  | some s' => some s'
  | none =>
    match s.takeFault p q with
    | some s' => some s'
    | none =>
      if !(s.strand p).act.holdReq.isEmpty && (s.strand p).as.level == .user && (s.strand p).xs.level == .user then
        some (s.applyHoldx p)
      else none

/-! ## Loads into queues (10 R142) -/

/-- The destination register's value of a load (08 R108). -/
def loadValue (x : XT) (bs : List Byte) : Word := extendAs x (widthOf x) (leOf bs)

/-- A load into lq `i` is issued for the core `p`: the entry it makes, with its answer where the home gives it at
once. -/
def State.issueLq (s : State) (p : Place) (i : Fin 4) (req : LoadReq) (l : Loc) (slow : Bool) :
    Except Fault (State × LqEntry) :=
  let a : Access :=
    { num := s.fab.nextNum, src := p, party := .core p, path := .core, home := l.home, kind := .r, op := .read,
      tgt := l.tgt, base := l.base, interval := (s.core p).interval, dest := .lq p i s.fab.nextNum, range := none,
      way := Way.done, lost := false }
  match s.nextNumber.send a slow with
  | .waits s' => .ok (s', .pending a.num req)
  | .stop f => .error f
  | .answered s' (.data bs) => .ok (s', .full (loadValue req.x bs))
  | .answered s' (.trap c v) => .ok (s', .marked c v req)
  | .answered s' _ => .ok (s', .full 0)

/-- After the return from the trap of a marked entry, its load is performed again before the pop (10 R142). -/
def State.redoLoads (s : State) (p : Place) : State :=
  (List.finRange 4).foldl (fun s i =>
    let es := (s.strand p).q.lq[i.val]
    match es.head? with
    | some (.redo req) =>
      let s0 := { s with cur := (p, .as) }
      match s0.locate req.win req.addr (widthOf req.x / 8) .r with
      | .error (c, v) =>
        s.modStrand p fun t => { t with q := { t.q with
          lq := t.q.lq.set i.val (.marked c (BitVec.ofNat 64 v) req :: es.tail) } }
      | .ok l =>
        match s0.issueLq p i req l false with
        | .error _ => s
        | .ok (s', e) =>
          ({ s' with cur := s.cur }).modStrand p fun t => { t with q := { t.q with
            lq := t.q.lq.set i.val (e :: es.tail) } }
    | _ => s) s

end Sys2Proof.Machine
end

