-- ==== Sys2Proof/Machine/Memory.lean ====
section
/-! DEFINITION. Loads and stores (10 R140 to R145), the performance of sq entries (R143), and atomics (R162 to R165). -/

namespace Sys2Proof.Machine

/-! ## Loads and stores (R141) -/

/-- The address of R141. -/
def memAddress (a c : Reg) (disp : BitVec 10) (n : Nat) : M Nat := do
  let base ← readS a
  let ix ← readS c
  pure (base + ix * BitVec.ofNat 64 n + disp.signExtend 64 * BitVec.ofNat 64 n).toNat

/-- A load into lq `i` (R142): it completes when its local checks have passed and an entry is free. -/
def loadQueue (i : Fin 4) (req : LoadReq) (l : Loc) : M Unit := fun s =>
  let es := s.my.q.lq[i.val]
  if 8 ≤ es.length then
    (if s.my.xs.gone then trap .queueMisuse (BitVec.ofNat 64 i.val) s else waitFor (.queue i.val) s)
  else
    match s.issueLq s.cur.1 i req l s.slowTurn with
    | .error f => .error (.fault f)
    | .ok (s', e) => .ok ((), s'.modMy fun t => { t with q := { t.q with
        lq := t.q.lq.set i.val (t.q.lq[i.val] ++ [e]) } })

/-- A load from a window. -/
def loadBody (sp : Space) (x : XT) (d : Opnd) (a c : Reg) (disp : BitVec 10) : M Next := do
  let n := widthOf x / 8
  let addr ← memAddress a c disp n
  let l ← check sp addr n n .r
  match d with
  | .lq i =>
    loadQueue i ⟨sp, addr, x⟩ l
    pure .fall
  | _ =>
    let bs ← readAt l
    dst d (loadValue x bs)
    pure .fall

/-- A store pushed onto sq; it waits while sq is full, which only the AS can change (01 R17). -/
def sqPush (e : SqEntry) : M Unit := fun s =>
  if 8 ≤ s.my.q.sq.length then (if s.my.as.gone then trap .queueMisuse 4 s else waitFor (.queue 4) s)
  else .ok ((), s.modMy fun t => { t with q := { t.q with sq := t.q.sq ++ [e] } })

/-- A store to a window; its data is popped once, when the request is sent. -/
def storeBody (sp : Space) (x : XT) (sq : Bool) (a : Reg) (b : Opnd) (c : Reg) (disp : BitVec 10) : M Next := do
  let n := widthOf x / 8
  let addr ← memAddress a c disp n
  let l ← check sp addr n n .w
  if sq then
    let v ← src b
    sqPush ⟨sp, addr, n, v⟩
  else
    let v ← srcOnce b
    writeAt l (leBytesOf n v.toNat) (latchOf b v)
  pure .fall

/-- A store onto sq is for the XS only. -/
def storeNeed (sq : Bool) (b : Opnd) : Need := ⟨fun q => srcOk q b && (!sq || q == .xs), .user, 0⟩

def execLd (g : Guard) (x : XT) (cm : Bool) (d : Opnd) (a c : Reg) (disp : BitVec 10) (s : State) :
    Host.Outcome State Fault Refusal :=
  perform 8 (needOps [] [d] 0) g (loadBody (if cm then .cm else .cp) x d a c disp) s

def execLdo (g : Guard) (x : XT) (d : Opnd) (a c : Reg) (disp : BitVec 10) (s : State) :
    Host.Outcome State Fault Refusal :=
  perform 8 (needOps [] [d] 0) g (loadBody .oc x d a c disp) s

def execLdg (g : Guard) (x : XT) (d : Opnd) (a c : Reg) (disp : BitVec 10) (s : State) :
    Host.Outcome State Fault Refusal :=
  perform 8 (needOps [] [d] 0) g (loadBody .gv x d a c disp) s

def execSt (g : Guard) (x : XT) (cm sq : Bool) (a : Reg) (b : Opnd) (c : Reg) (disp : BitVec 10) (s : State) :
    Host.Outcome State Fault Refusal :=
  perform 8 (storeNeed sq b) g (storeBody (if cm then .cm else .cp) x sq a b c disp) s

def execSto (g : Guard) (x : XT) (sq : Bool) (a : Reg) (b : Opnd) (c : Reg) (disp : BitVec 10) (s : State) :
    Host.Outcome State Fault Refusal :=
  perform 8 (storeNeed sq b) g (storeBody .oc x sq a b c disp) s

def execStg (g : Guard) (x : XT) (sq : Bool) (a : Reg) (b : Opnd) (c : Reg) (disp : BitVec 10) (s : State) :
    Host.Outcome State Fault Refusal :=
  perform 8 (storeNeed sq b) g (storeBody .gv x sq a b c disp) s

/-- `pf` (R145): the GV form is checked; the hint changes nothing that a program can see. -/
def execPf (g : Guard) (a c : Reg) (disp : BitVec 10) (s : State) : Host.Outcome State Fault Refusal :=
  perform 8 Need.any g (do
    let addr ← memAddress a c disp 1
    trapIf (decide (2 ^ 57 ≤ addr)) .windowBounds (BitVec.ofNat 64 addr)
    pure .fall) s

/-! ## sq entries (R143) -/

/-- The answer to the store at sq's head: the entry is done, or its trap becomes pending on the AS. -/
def Strand.answerSq (t : Strand) (ans : Answer) : Strand :=
  match ans with
  | .trap c v => { t with act := { t.act with pend := t.act.pend ++ [(.as, c, v)] } }
  | _ => { t with q := { t.q with sq := t.q.sq.tail } }

/-- The answer reaches the strand that stored, wherever it is. -/
def State.answerSq (s : State) (p : Place) (sid : Nat) (ans : Answer) : State :=
  s.modOwner p (·.act.sid == sid) (·.answerSq ans)

/-- A trap that an sq store met waits for the AS's boundary. -/
def Strand.sqTrapPending (t : Strand) : Bool :=
  t.act.pend.any fun e => e.1 == .as && e.2.1 != .watchdog && e.2.1 != .deadline

/-- A request of the core's sq, or its answer, is on its way. -/
def State.sqInFlight (s : State) (p : Place) : Bool :=
  let ours (d : Dest) : Bool := match d with | .sq _ sid => sid == (s.strand p).act.sid | _ => false
  ((s.fab.issue ++ s.fab.bufs).any fun a => ours a.dest)
    || s.fab.net.any fun k => match k.body with | .memory d _ _ => ours d | _ => false

/-- The AS performs the entry at sq's head. -/
def State.performSq (s : State) (p : Place) (e : SqEntry) : Except Fault State :=
  let sid := (s.strand p).act.sid
  let s0 := { s with cur := (p, .as) }
  match s0.locate e.win e.addr e.n .w with
  | .error (c, v) => .ok (s.answerSq p sid (.trap c (BitVec.ofNat 64 v)))
  | .ok l =>
    let a : Access :=
      { num := s.fab.nextNum, src := p, party := .core p, path := .core, home := l.home, kind := .w,
        op := .write (leBytesOf e.n e.data.toNat), tgt := l.tgt, base := l.base, interval := (s.core p).interval,
        dest := .sq p sid, range := none, way := Way.done, lost := false }
    match s.nextNumber.send a false with
    | .waits s' => .ok s'
    | .stop f => .error f
    | .answered s' ans => .ok (s'.answerSq p sid ans)

/-- The event in which the AS of a core performs an sq entry: none happens while no AS part runs. -/
def execSqStorePerform (p : Place) (s : State) : Host.Outcome State Fault Refusal :=
  let t := s.strand p
  if s.coreRuns p && !t.as.gone && !t.sqTrapPending && !s.sqInFlight p then
    match t.q.sq with
    | [] => .next s
    | e :: _ =>
      match s.performSq p e with
      | .ok s' => .next s'
      | .error f => .fault f
  else .next s

/-! ## Atomics (R162 to R165) -/

/-- An atomic at an address: its checks, the release before it, the request, and the end of the interval that its own access
belongs to. B is popped once, and the request is made of it. -/
def atomicBody (sp : Space) (acq rel : Bool) (a : Reg) (n align : Nat) (b : Opnd) (r : Word → M AtomReq)
    (write : Word → Bool → M Unit) : M Next := do
  let addr ← readS a
  let l ← check sp addr.toNat n align .a
  if acq || rel then drainSq
  if rel then releaseOnce
  let v ← srcOnce b
  let req ← r v
  if rel then modState fun s => if s.seq.begun then s else s.publish (.packet s.fab.nextNum)
  let ans ← access (fun s => s.coreAccess l.home .a (.atomic req) l.tgt l.base) (latchOf b v)
  match ans with
  | .word old ok =>
    if acq && ok then modState fun s => s.movePub (.told s.my.act.sid s.cur.2) (.strand s.my.act.sid)
    write old ok
  | _ => pure ()
  if acq || rel then syncPoint
  pure .fall

def execAtom (g : Guard) (x : XT) (sp : Space) (op : AtomOp) (acq rel : Bool) (d a : Reg) (b : Opnd) (s : State) :
    Host.Outcome State Fault Refusal :=
  perform 8 (needOps [b] [] 0) g
    (atomicBody sp acq rel a (widthOf x / 8) (widthOf x / 8) b (fun v => pure (.op op x v))
      (fun old _ => writeS d old)) s

def execAtomcas (g : Guard) (x : XT) (sp : Space) (acq rel : Bool) (d a : Reg) (b : Opnd) (c : Reg) (s : State) :
    Host.Outcome State Fault Refusal :=
  perform 8 (needOps [b] [] 0) g
    (atomicBody sp acq rel a (widthOf x / 8) (widthOf x / 8) b
      (fun v => do
        let e ← readS c
        pure (.cas x v e))
      (fun old _ => writeS d old)) s

def execAtomincw (g : Guard) (x : XT) (sp : Space) (acq rel : Bool) (d a c : Reg) (s : State) :
    Host.Outcome State Fault Refusal :=
  perform 8 Need.any g
    (atomicBody sp acq rel a (widthOf x / 8) (widthOf x / 8) (.reg 0)
      (fun _ => do
        let e ← readS c
        pure (.incw x e))
      (fun old _ => writeS d old)) s

def execAtomfaddb (g : Guard) (x : XT) (sp : Space) (acq rel : Bool) (d : Reg) (pk : Fin 8) (a : Reg) (b : Opnd)
    (c : Reg) (s : State) : Host.Outcome State Fault Refusal :=
  perform 8 (needOps [b] [] 0) g
    (atomicBody sp acq rel a (widthOf x / 8) (widthOf x / 8) b
      (fun v => do
        let e ← readS c
        pure (.faddb x v e))
      (fun old ok => do
        writeS d old
        writeFlag pk ok)) s

def execEnq (g : Guard) (sp : Space) (acq rel : Bool) (pk : Fin 8) (a : Reg) (b : Opnd) (s : State) :
    Host.Outcome State Fault Refusal :=
  perform 8 (needOps [b] [] 0) g
    (atomicBody sp acq rel a 8 64 b (fun v => pure (.enq v)) (fun _ ok => writeFlag pk ok)) s

def execDeq (g : Guard) (sp : Space) (acq rel : Bool) (d : Reg) (pk : Fin 8) (a : Reg) (s : State) :
    Host.Outcome State Fault Refusal :=
  perform 8 Need.any g
    (atomicBody sp acq rel a 8 64 (.reg 0) (fun _ => pure .deq)
      (fun v ok => do
        writeS d v
        writeFlag pk ok)) s

end Sys2Proof.Machine
end

