-- ==== Sys2Proof/Machine/Homes.lean ====
section
/-! DEFINITION. The steps of the ordering machine that no instruction takes by itself: dispatch, apply, close (16 R234,
R240) and the work of the replication sequencer (R249). -/

namespace Sys2Proof.Machine

/-! ## Dispatch -/

/-- The way of an access to its home. -/
def State.accessWay (s : State) (a : Access) : Way :=
  if a.remote then s.wayFor (s.partNo a.src) a.src (homePlace a.src a.home) a.vn else Way.done

/-- The head of an issue queue moves to the path buffer of its home, on its way through the mesh where the home is not in
the cluster. -/
def execAccessDispatch (p : Place) (path : Path) (s : State) : Host.Outcome State Fault Refusal :=
  match s.fab.issue.find? fun a => a.src == p && a.path == path with
  | some a =>
    let b : Access := { s.numbered a with way := s.accessWay a }
    let s := if a.remote then (s.departed a).nextOrder else s
    .next { s with fab := { s.fab with issue := s.fab.issue.erase a, bufs := s.fab.bufs ++ [b] } }
  | none => .next s

/-! ## Answers -/

/-- A queue entry that awaits an access's answer takes it (10 R142). -/
def LqEntry.fill (e : LqEntry) (num : Nat) (ans : Answer) : LqEntry :=
  match e with
  | .pending n req =>
    if n = num then
      match ans with
      | .data bs => .full (loadValue req.x bs)
      | .trap c v => .marked c v req
      | _ => e
    else e
  | _ => e

def Strand.fillLq (t : Strand) (i : Fin 4) (num : Nat) (ans : Answer) : Strand :=
  { t with q := { t.q with lq := t.q.lq.set i.val ((t.q.lq[i.val]).map fun e => e.fill num ans) } }

/-- A queue holds an entry that awaits an answer. -/
def Strand.awaitsLq (t : Strand) (i : Fin 4) (num : Nat) : Bool :=
  t.q.lq[i.val].any fun e => match e with | .pending n _ => n == num | _ => false

/-- The answer to a load into a queue reaches its strand, wherever it is: request numbers are unique. -/
def State.fillLq (s : State) (p : Place) (i : Fin 4) (num : Nat) (ans : Answer) : State :=
  s.modOwner p (·.awaitsLq i num) (·.fillLq i num ans)

/-- The answer to access `n` reaches whoever awaits it, and a waiting instruction goes on with it. -/
def State.deliverAnswer (s : State) (d : Dest) (n : Nat) (ans : Answer) : State :=
  match d with
  | .seq p q =>
    let at_ := s.ownerAt p n
    let s := s.receive p n ans
    if (s.waitOf at_ q).isSome then { s with agenda := .run at_ q :: s.agenda } else s
  | .lq p i num => s.fillLq p i num ans
  | .sq p sid => s.answerSq p sid ans
  | .stream _ _ | .cmd _ | .none => s

/-- The answer to an access leaves its home: on REPLY where it travels, and otherwise at once. -/
def State.answerAccess (s : State) (a : Access) (ans : Answer) : State :=
  if a.remote then s.injectAnswer (homePlace a.src a.home) a.src (s.partNo a.src) a.num a.dest ans
  else s.deliverAnswer a.dest a.num ans

/-! ## Apply and close -/

/-- No access of its source and path that was dispatched before is queued at a home of an access: it is the head of its
buffers (R177 of 12: one request, applied whole). -/
def State.isHead (s : State) (a : Access) : Bool :=
  ((s.fab.bufs.takeWhile (· != a)).all fun b => !s.sameBuffer a b)

/-- The head of a path buffer, once it has arrived. -/
def State.bufHead (s : State) (p : Place) (path : Path) (h : Home) : Option Access :=
  (s.fab.bufs.find? fun a => a.src == p && a.path == path && a.home == h).filter fun a =>
    a.way.path.isEmpty && !a.lost && s.isHead a

def State.dropAccess (s : State) (a : Access) : State := { s with fab := { s.fab with bufs := s.fab.bufs.erase a } }

/-- A home arbiter takes the head of a path buffer; a head that cannot be applied yet stays there. -/
def State.applyHead (s : State) (p : Place) (path : Path) (h : Home) (close : Bool) : Host.Outcome State Fault Refusal :=
  match s.bufHead p path h with
  | none => .next s
  | some a =>
    if a.isClose != close then .next s
    else
      match (s.dropAccess a).applyAccess a with
      | .blocked => .next s
      | .stop f => .fault f
      | .done s' ans => .next (s'.answerAccess a ans)

/-- A station serves the partitions by their weights (01 R27). -/
def execAccessApply (p : Place) (path : Path) (h : Home) (s : State) : Host.Outcome State Fault Refusal :=
  match h with
  | .station n =>
    match s.servedNext n with
    | some (pn, sh) =>
      if pn = s.partNo p then
        ({ s with fab := { s.fab with served := Table.set s.fab.served n sh } } : State).applyHead p path h false
      else .next s
    | none => .next s
  | _ => s.applyHead p path h false

/-- A close travels on the CORE path. -/
def execCloseApply (p : Place) (h : Home) (s : State) : Host.Outcome State Fault Refusal := s.applyHead p .core h true

/-! ## Replicated pages (R249) -/

/-- The first stamped write that a replica has not applied. -/
def State.nextStamp (s : State) (stack : Nat) : Option ReplWrite :=
  s.fab.repl.find? fun w => !w.applied.contains stack && w.cells.any fun c => c.1 == stack

/-- A replica applies the next write in stamp order, marks its bytes pending, and acknowledges. -/
def execReplicaApply (stack : Nat) (s : State) : Host.Outcome State Fault Refusal :=
  match s.nextStamp stack with
  | none => .next s
  | some w =>
    let cells := (w.cells.filter fun c => c.1 == stack).flatMap (·.2)
    .next { s.meterHbm w.part (cells.map (·.1)) with
      mem := Memory.setAll s.mem cells
      fab := { s.fab with repl := s.fab.repl.map fun x => if x.stamp = w.stamp then { x with applied := x.applied ++ [stack] } else x } }

/-- A write that every replica has acknowledged. -/
def ReplWrite.acknowledged (w : ReplWrite) : Bool := w.cells.all fun c => w.applied.contains c.1

/-- The commit of the earliest stamped write, once every replica has acknowledged it. -/
def execReplicaCommit (s : State) : Host.Outcome State Fault Refusal :=
  match s.fab.repl with
  | [] => .next s
  | w :: ws => if w.acknowledged then .next { s with fab := { s.fab with repl := ws } } else .next s

end Sys2Proof.Machine
end

