-- ==== Sys2Proof/Machine/Kernel.lean ====
section
/-! DEFINITION. What each core's micro-kernel does with a trap that user level delivered to it (22 R298): end, hold,
migrate, park on a fault, restart or fail an engine command, and return. -/

namespace Sys2Proof.Machine

/-- The sequencer of the last trap. -/
def Csrs.trapSeq (r : Csrs) : SeqId := if r.cause.seq then .xs else .as

/-- The strand ended by its micro-kernel: as `rel.end` ends a held strand (14 R207), with FAULT and the cause in its
completion record. -/
def State.killStrand (s : State) (p : Place) (c : Cause) : State :=
  let pn := s.partNo p
  let t := s.strand p
  let s := s.poisonMarks pn t.act.sid
  let s := s.log (.ended p t.act.sid c t.act.dlmiss)
  s.endStrand p true

/-- Inside an open user trap the sequencer that is not in its handler stays stopped, the one that is goes on, and CAUSE,
EPC and TVAL are the user trap's again (22 R295, R296). -/
def Strand.reopen (t : Strand) : Strand :=
  match t.act.userTrap with
  | some (c, a, x, v) =>
    if t.csr.cause.udel then
      let q : SeqId := if c.seq then .xs else .as
      let t := t.setSeq (otherSeq q) { t.seq (otherSeq q) with stopped := true }
      { t.setSeq q { t.seq q with stopped := false } with csr := { t.csr with cause := c, apc := a, xpc := x, tval := v } }
    else t
  | none => t

/-- The strand back at its EPC and level. -/
def State.backToUser (s : State) (p : Place) : State :=
  let r := (s.strand p).csr
  (s.comeBack p r.trapSeq .user (r.epcOf r.trapSeq)).modStrand p Strand.reopen

/-- A row that ends the strand, or holds it, in the state given, under DEBUGHOLD. -/
def State.endOr (s : State) (p : Place) (c : Cause) (back : State) : State :=
  if (s.partOf p).attrs.debugHold then
    match back.holdRoot p with
    | some (s', _) => s'
    | none => s.killStrand p c
  else s.killStrand p c

/-- `endOr` of a strand at its trap, which is held back at its EPC. -/
def State.endOrHold (s : State) (p : Place) (c : Cause) : State := s.endOr p c (s.backToUser p)

/-- The nearest core of a partition whose FEAT meets a mask, the lower place first among equals (22 R298). -/
def State.nearest (s : State) (p : Place) (need : BitVec 16) : Option Place :=
  let ok := ((s.partOf p).coresOf.filter fun q => (need &&& ~~~ (s.core q).feat) == 0)
  match ok with
  | [] => none
  | q :: qs => some (qs.foldl (fun b x => if hops p x < hops p b || (hops p x == hops p b && decide (x < b)) then x else b) q)

/-- A strand moved whole to another core, where it resumes when the core activates it (22 R298): its registers, queues,
streams, matrix and GMU state go with it, its CP does not, and its streams' buffers are discarded (12 R179). Its interval
on the core that it leaves closes, as a hold's does (16 R236, R252); it moves once every close is acknowledged, so that it
meets no entry of its own there. `back` leaves the strand as it resumes. -/
def State.migrate (s : State) (p q : Place) (back : State → State) : State :=
  let s := s.closeInterval p
  if s.closing p then s
  else
    let s := back s
    let t := s.strand p
    let pn := s.partNo p
    let order := 1 + ((s.part pn).parked.map (·.order)).foldl max 0
    let s := s.modPart pn fun w => { w with
      parked := w.parked ++ [⟨q, { t with vec := t.vec.dropStreams }, 0, false, 0, 0, [], true, order, s.tick, 0⟩] }
    s.modCore p fun c => ({ c with running := false, parkedFault := false, st := Strand.reset } : Core).adopt s.gov.g.val

/-- A strand parked on a translation fault, back at its EPC (22 R298; 16 R252): its entries stay open, and what its streams
have buffered is discarded (12 R179). -/
def State.parkOnFault (s : State) (p : Place) : State :=
  (s.backToUser p).modCore p fun c => { c with parkedFault := true, st := { c.st with vec := c.st.vec.dropStreams } }

/-- The trap's stream vector was marked by a translation miss (22 R298). -/
def Strand.streamMiss (t : Strand) : Bool :=
  t.vec.streams.any fun e =>
    match e.2.buf.head? with
    | some (.fault .translation _) => true
    | _ => false

/-- The faulted command of a core that an ENGINE-FAULT names (14 R220). -/
def State.faulted (s : State) (p : Place) (xid : Nat) : Option Cmd :=
  s.cmds.find? fun c =>
    c.issuer == p && (leOf c.blk % 2 ^ 32 == xid)
      && (match c.phase with | .faulted _ _ => true | _ => false)

/-- A translation that an engine's fault met is resolved now (22 R298 row 0x17). -/
def State.rangeResolved (s : State) (c : Cmd) (stat addr : Nat) : Bool :=
  stat == 2 && (s.rangeOf (s.part c.part).ranges c.proc addr).isSome

/-- The faulted command restarted from its frontier, or failed with its STAT. -/
def State.settleFault (s : State) (c : Cmd) : State :=
  match c.phase with
  | .faulted stat addr =>
    s.modCmd c.id fun c => { c with phase := if s.rangeResolved c stat addr then .accepted else .landed stat }
  | _ => s

/-- The supervisor's action on the trap that a core's micro-kernel holds (22 R298). -/
def State.microKernel (s : State) (p : Place) : State :=
  let t := s.strand p
  let r := t.csr
  if !(s.core p).running || (t.seq r.trapSeq).level != .supervisor || r.cause.pprv then s
  else
    match r.cause.code.toNat with
    | 0x06 =>
      match s.nearest p (t.act.freq ||| t.act.lack) with
      | some q => if q = p then s.backToUser p else s.migrate p q fun s => s.backToUser p
      | none => s.endOrHold p .featureAbsent
    | 0x0B => s.parkOnFault p
    | 0x15 =>
      if t.streamMiss then s.parkOnFault p
      else s.endOrHold p .streamFault
    | 0x11 => (s.backToUser p).modStrand p fun t => t.missed s.tick
    | 0x14 =>
      match (s.backToUser p).holdRoot p with
      | some (s', _) => s'
      | none => s.backToUser p
    | 0x17 =>
      if r.tval.getLsbD 63 then s.endOrHold p .engineFault
      else
        match s.faulted p r.tval.toNat with
        | some c => (s.settleFault c).backToUser p
        | none => s.backToUser p
    | 0x01 => s.endOrHold p .illegalEncoding
    | 0x02 => s.endOrHold p .illegalSequencer
    | 0x03 => s.endOrHold p .fetchStraddle
    | 0x04 => s.endOrHold p .misalignedTarget
    | 0x05 => s.endOrHold p .privileged
    | 0x07 => s.endOrHold p .misalignedData
    | 0x08 => s.endOrHold p .windowBounds
    | 0x09 => s.endOrHold p .placeInvalid
    | 0x0A => s.endOrHold p .permission
    | 0x0C => s.endOrHold p .accessRights
    | 0x0D => s.endOrHold p .memoryConflict
    | 0x0E => s.endOrHold p .singularBlock
    | 0x0F => s.endOrHold p .refinement
    | 0x10 => s.endOrHold p .watchdog
    | 0x12 => s.endOrHold p .withheldAbort
    | 0x13 => s.endOrHold p .queueMisuse
    | 0x16 => s.endOrHold p .format
    | _ => s

end Sys2Proof.Machine
end

