-- ==== Sys2Proof/Machine/Handler.lean ====
section
/-! DEFINITION. Handler descriptors (03 R33, R34), produce lists (R55), and what an inbox makes of a message
(R35, R38). -/

namespace Sys2Proof.Machine

/-! ## Partition memory read by hardware and firmware -/

/-- A byte of a process's memory as a core's station returns it. -/
def State.readByte (s : State) (pn : Nat) (proc : BitVec 16) (p : Place) (a : Nat) : Option Byte :=
  match s.walk (s.part pn).procs proc a with
  | none => none
  | some l => if l.r then (s.leafKey l p a).map fun k => Memory.get s.mem k else none

/-- `n` bytes of a process's memory; none where one is not mapped or not readable. -/
def State.readGv (s : State) (pn : Nat) (proc : BitVec 16) (p : Place) (addr n : Nat) : Option (List Byte) :=
  match s.walk (s.part pn).procs proc addr with
  | none => none
  | some l =>
    if l.r && decide (addr + n ≤ l.base + l.size) then
      (allKeys ((span addr n).map (s.leafKey l p))).map (Memory.getAll s.mem)
    else (span addr n).mapM (s.readByte pn proc p)

/-- Bytes within one 4 KiB unit written to a process's memory by the module itself, which is no party of the ordering machine
(16 R233): nothing where they are not mapped or not writable; by way of the replication sequencer where the page is
replicated (R248). -/
def State.writeUnit (s : State) (pn : Nat) (proc : BitVec 16) (p : Place) (addr : Nat) (bs : List Byte) : State :=
  match s.walk (s.part pn).procs proc addr with
  | none => s
  | some l =>
    if !l.w then s
    else if l.repl then
      match s.replCells l.frame addr bs.length with
      | .repl cells => s.stamped pn (.cmd 0) p cells bs
      | _ => s
    else
      match allKeys ((span addr bs.length).map (s.leafKey l p)) with
      | some ks => { s.meterHbm pn ks with mem := Memory.setAll s.mem (ks.zip bs) }
      | none => s

/-- `bs`, no longer than 4 KiB, written to a process's memory by the module itself. -/
def State.writeGv (s : State) (pn : Nat) (proc : BitVec 16) (p : Place) (addr : Nat) (bs : List Byte) : State :=
  (pieces addr bs.length).foldl (fun s e => s.writeUnit pn proc p e.1 ((bs.drop (e.1 - addr)).take e.2)) s

/-! ## Descriptors -/

/-- A handler descriptor (R33). -/
structure Desc where
  asent : Nat
  xsent : Nat
  pmask : Nat
  plist : Nat
  freq : BitVec 16
  wdogo : Nat
  stage : Nat
  gen : Nat
  valid : Bool
  asv : Bool
  xsv : Bool
  dlinh : Bool
  clean : Bool
deriving DecidableEq, Repr

def Desc.ofNat (w : Nat) : Desc where
  asent := bitsAt w 0 32
  xsent := bitsAt w 32 32
  pmask := bitsAt w 64 32
  plist := bitsAt w 96 16
  freq := BitVec.ofNat 16 (bitsAt w 112 16)
  wdogo := bitsAt w 128 16
  stage := bitsAt w 144 8
  gen := bitsAt w 152 8
  valid := bitAt w 160
  asv := bitAt w 161
  xsv := bitAt w 162
  dlinh := bitAt w 163
  clean := bitsAt w 164 92 == 0

/-- A descriptor may be activated (R34). -/
def Desc.activatable (d : Desc) : Bool :=
  d.valid && (d.asv || d.xsv) && d.clean && (!d.asv || d.asent % 4 == 0) && (!d.xsv || d.xsent % 4 == 0)

/-- The descriptor of a handler index, if the table has it and memory gives it. An entry whose page is not mapped or not
readable is none: DESIGN CHOICE (log 94), the manual names no outcome, and the handler then is not one (R35: STALE). -/
def State.descAt (s : State) (pn : Nat) (p : Place) (hidx : Nat) : Option Desc :=
  let t := (s.part pn).attrs
  if t.hcount ≤ hidx then none
  else (s.readGv pn t.proc0 p (t.htab + 32 * hidx) 32).map fun bs => Desc.ofNat (leOf bs)

/-- The descriptor that a handler index and generation may activate (R35). -/
def State.handler (s : State) (pn : Nat) (p : Place) (hidx gen : Nat) : Option Desc :=
  (s.descAt pn p hidx).filter fun d => d.activatable && d.gen == gen

/-- A descriptor that is not activatable is logged to the housekeeping kernel (R34). -/
def State.logDesc (s : State) (pn : Nat) (p : Place) (hidx : Nat) : State :=
  match s.descAt pn p hidx with
  | some d => if d.activatable then s else s.log (.badDescriptor pn hidx)
  | none => s

/-- A required mask is met by a core (01 R24). -/
def meets (feat freq : BitVec 16) : Bool := freq &&& ~~~ feat == 0

/-! ## Produce lists (R55) -/

/-- The entries of a produce list, up to the first with KIND 0. -/
def takeEntries : List Lane → List Lane
  | [] => []
  | e :: es => if bitsAt e.toNat 28 4 = 0 then [] else e :: takeEntries es

/-- An entry names an object of the partition and sets no reserved bit. -/
def Part.entryOk (t : Part) (self : Place) (e : Lane) : Bool :=
  match entryObj self e with
  | some o => t.hasCore o.place && bitsAt e.toNat 8 3 == 0
  | none => false

/-- The entries of a handler's produce list. -/
def State.produceList (s : State) (pn : Nat) (p : Place) (d : Desc) : List Lane :=
  let t := (s.part pn).attrs
  if d.plist = 0 then []
  else
    takeEntries ((List.range 64).filterMap fun i =>
      (s.readGv pn t.proc0 p (t.htab + 16 * d.plist + 4 * i) 4).map fun bs => BitVec.ofNat 32 (leOf bs))

/-! ## Header words (R36) -/

def hdrHidx (h : Word) : Nat := (h.extractLsb' 16 16).toNat
def hdrGen (h : Word) : Nat := (h.extractLsb' 32 8).toNat
def hdrPrio (h : Word) : Nat := (h.extractLsb' 40 2).toNat
def hdrSrc (h : Word) : Nat := (h.extractLsb' 0 16).toNat
def hdrRw (h : Word) : Bool := h.getLsbD 47

/-- A header word from its fields. -/
def mkHeader (dlrel : Nat) (rw tg rt sp : Bool) (prio gen hidx src : Nat) : Word :=
  BitVec.ofNat 64 (dlrel * 2 ^ 48 + b2n rw * 2 ^ 47 + b2n tg * 2 ^ 46 + b2n rt * 2 ^ 45 + b2n sp * 2 ^ 44
    + prio * 2 ^ 40 + gen * 2 ^ 32 + hidx * 2 ^ 16 + src)

/-! ## The inbox (R35, R38) -/

/-- The back-off hint of a core: 16 ticks and the mean length of its last 16 ended activations. -/
def Core.hint (c : Core) : Nat :=
  min 255 (16 + if c.work.lens.isEmpty then 0 else c.work.lens.sum / c.work.lens.length)

/-- What an inbox makes of a message. -/
inductive Offer
  | accepted
  | refused (hint : Nat)
  | stale
  | denied
  | forward (q : Place)
deriving DecidableEq, Repr

def State.offer (s : State) (p : Place) (m : Msg) : Offer :=
  let pn := s.partNo p
  match s.handler pn p (hdrHidx m.hdr) (hdrGen m.hdr) with
  | none => .stale
  | some d =>
    if !meets (s.core p).feat d.freq then
      match s.nearest p d.freq with
      | some q => .forward q
      | none => .denied
    else if 64 ≤ (s.core p).work.inbox.length then .refused (s.core p).hint
    else .accepted

/-- A message joins an inbox, with the pass count and the class that a forwarded one keeps (R35). -/
def State.enterInbox (s : State) (p : Place) (m : Msg) (sender num : Nat) : State :=
  let e : InEntry := ⟨m, sender, num, s.tick, s.fab.nextNum, m.pass, m.up⟩
  s.nextNumber.modWork p fun w => { w with inbox := w.inbox ++ [e] }

/-- Acceptance with its side effects: the inbox entry, or the log of a bad descriptor. -/
def State.offered (s : State) (p : Place) (m : Msg) (sender num : Nat) : State × Offer :=
  let r := s.offer p m
  match r with
  | .accepted => (s.enterInbox p m sender num, r)
  | .stale => (s.logDesc (s.partNo p) p (hdrHidx m.hdr), r)
  | _ => (s, r)

/-- The status and hint that answer a message (10 R151). -/
def Offer.answer : Offer → Nat × Nat
  | .accepted => (0, 0)
  | .refused h => (1, h)
  | .stale => (2, 0)
  | .denied => (3, 0)
  | .forward _ => (0, 0)

end Sys2Proof.Machine
end

