-- ==== Sys2Proof/Machine/Mailbox.lean ====
section
/-! DEFINITION. Mailboxes as their arbiter keeps them: slots, heads, gates, deposits and takes (10 R154 to R160, 18
R254 to R256, 20 R281 to R284). -/

namespace Sys2Proof.Machine

/-! ## Stashes (20 R283) -/

/-- The allocated slots of a stash. -/
def Stash.used (t : Stash) : Nat := ((List.range 64).filter fun i => t.mask.getLsbD i).length
/-- A stash is full when every slot is allocated; an unconfigured one never is. -/
def Stash.full (t : Stash) : Bool := t.cap != 0 && t.used == t.cap

def State.stash (s : State) (p : Place) (i : Nat) : Stash := Table.get Stash.reset (s.objs p).stashes i

/-! ## Slots -/

def State.mbx (s : State) (p : Place) (i : Nat) : Mbx := Table.get Mbx.reset (s.objs p).mbs i
def State.setMbx (s : State) (p : Place) (i : Nat) (m : Mbx) : State :=
  s.modObjs p fun o => { o with mbs := Table.set o.mbs i m }

/-- The CP offset of a slot. -/
def Mbx.offset (m : Mbx) (i : Nat) : Nat := m.base + i * m.slotSize

/-- The free slots in circular order from WIX. -/
def Mbx.freeFromWix (m : Mbx) : List Nat :=
  ((List.range m.depth).map fun k => (m.wix + k) % m.depth).filter fun i => (m.slots[i]?.map Slot.isFree).getD false

/-- The slots that a mailbox may fill: DEPTHM1 + 1, or the bound of a stage queue (20 R281). -/
def Mbx.bound (m : Mbx) : Nat :=
  match m.stage with
  | some (_, b) => b
  | none => m.depth

/-- The mailbox's gate is a full stash. -/
def State.gated (s : State) (p : Place) (m : Mbx) : Bool :=
  match m.gate with
  | some g => (s.stash p g).full
  | none => false

/-- A deposit that needs a free slot is refused (R158, 20 R281). -/
def State.refuses (s : State) (p : Place) (m : Mbx) : Bool := decide (m.bound ≤ m.count) || s.gated p m

/-- The ordering key of a residual: its magnitude, a NaN above +∞ (18 R256). -/
def residualKey (r : Lane) : Nat := min (r.toNat % 2 ^ 31) 0x7F800001

/-- A filled slot that comes before another in residual order. -/
def slotBefore (a b : Slot) : Bool :=
  match a, b with
  | .filled t o _ r _ _ _, .filled t' o' _ r' _ _ _ =>
    decide (residualKey r' < residualKey r)
      || (residualKey r == residualKey r' && (decide (t < t') || (t == t' && decide (o < o'))))
  | _, _ => false

/-- A mailbox orders its slots by residual (18 R256). -/
def Mbx.residual (m : Mbx) : Bool := m.gaussian && m.rmode != 0

/-- The head slot (R155, R158). -/
def Mbx.head (m : Mbx) : Option (Nat × Slot) :=
  if m.residual then
    match m.heads with
    | [] => none
    | e :: es => some (es.foldl (fun b x => if slotBefore x.2 b.2 then x else b) e)
  else earliest m.heads

/-- A slot set to a state. -/
def Mbx.putSlot (m : Mbx) (i : Nat) (x : Slot) : Mbx := { m with slots := m.slots.set i x }

/-- A slot taken; the slot of a stage queue is freed in the same step (20 R281). -/
def Mbx.take (m : Mbx) (i : Nat) : Mbx := m.putSlot i (if m.stage.isSome then .free else .taken)

/-- A slot put into a list by order of arrival. -/
def insertSlot (x : Slot) : List Slot → List Slot
  | [] => [x]
  | y :: ys => if x.order ≤ y.order then x :: y :: ys else y :: insertSlot x ys

/-- The reservations of a mailbox, in the order in which they were made. -/
def Mbx.reservations (m : Mbx) : List Slot := (m.slots.filter Slot.isReserved).foldr insertSlot []

/-- CP bytes that the MBX path writes: no record, no check (16 R242). -/
def State.writeCp (s : State) (p : Place) (off : Nat) (bs : List Byte) : State :=
  { s with mem := Memory.setAll s.mem ((span (Key.cp p off) bs.length).zip bs) }

/-- The bytes of a plain slot (R155): payload, information word, arrival tick. -/
def plainSlot (payload : List Word) (src : Place) (kind tick : Nat) : List Byte :=
  ((payload.take 6).flatMap fun w => leBytesOf 8 w.toNat) ++ leBytesOf 8 (src % 65536 + kind * 65536)
    ++ leBytesOf 8 tick

/-! ## Deposits -/

/-- A refusal, which a stage queue remembers until its next report (20 R285). -/
def Mbx.refuse (m : Mbx) : Mbx := { m with refused := m.refused || m.stage.isSome }

/-- A plain deposit as the arbiter applies it: the state, STAT and HINT (R157, R158). -/
def State.depositPlain (s : State) (p : Place) (mb : Nat) (payload : List Word) (src : Place) : State × Nat × Nat :=
  let m := s.mbx p mb
  if !m.enabled || m.gaussian then (s, 4, 0)
  else if s.refuses p m then (s.setMbx p mb m.refuse, 1, (s.core p).hint)
  else
    match m.freeFromWix with
    | [] => (s.setMbx p mb m.refuse, 1, (s.core p).hint)
    | i :: _ =>
      let m' := { m.putSlot i (.filled s.tick s.fab.nextNum src 0 0 0 false) with wix := (i + 1) % m.depth }
      (((s.nextNumber.setMbx p mb m').writeCp p (m.offset i) (plainSlot payload src 0 s.tick)), 0, 0)

/-- The slot reserved for a reply. -/
def Mbx.reservedAt (m : Mbx) (num : Nat) : Option Nat :=
  (m.slots.zipIdx.find? fun e => match e.1 with | .reserved n _ => n == num | _ => false).map (·.2)

/-- A reply lands in the slot reserved for it (R149, R153). -/
def State.depositReply (s : State) (p : Place) (mb num : Nat) (abort : Bool) (payload : List Word) (src : Place) :
    State :=
  let m := s.mbx p mb
  match m.reservedAt num with
  | none => s
  | some i =>
    (s.nextNumber.setMbx p mb (m.putSlot i (.filled s.tick s.fab.nextNum src 0 0 0 false))).writeCp p (m.offset i)
      (plainSlot payload src (if abort then 2 else 1) s.tick)

/-- The bytes of a Gaussian image (18 R253). -/
def imageSize (n : Nat) : Nat := 2 * n * (n + 3)

/-- The header and image of a Gaussian slot (18 R254). -/
def gaussSlot (res ver : Lane) (src : Place) (n tick : Nat) (image : List Lane) : List Byte :=
  leBytesOf 4 res.toNat ++ leBytesOf 4 ver.toNat ++ leBytesOf 2 src ++ leBytesOf 1 n ++ leBytesOf 1 0 ++ leBytesOf 4 0
    ++ leBytesOf 8 tick ++ leBytesOf 8 0 ++ image.flatMap fun w => leBytesOf 4 w.toNat

/-- A slot of a versioned message of one source that no take holds. -/
def Mbx.versioned (m : Mbx) (src : Place) : Option (Nat × Slot) :=
  (m.slots.zipIdx.find? fun e =>
    match e.1 with
    | .filled _ _ c _ v _ _ => c == src && v != 0
    | _ => false).map fun e => (e.2, e.1)

/-- The free slot that a Gaussian deposit fills (18 R255 step 4). -/
def Mbx.gaussFree (m : Mbx) : Option Nat :=
  if m.rmode = 0 then m.freeFromWix.head?
  else (m.slots.zipIdx.find? fun e => e.1.isFree).map (·.2)

/-- A Gaussian deposit as the arbiter applies it (18 R255). -/
def State.depositGauss (s : State) (p : Place) (mb : Nat) (res ver : Lane) (n : Nat) (image : List Lane)
    (src : Place) : State × Nat × Nat :=
  let m := s.mbx p mb
  let fill (i tick order : Nat) (s : State) : State :=
    (s.setMbx p mb (m.putSlot i (.filled tick order src res ver n false))).writeCp p (m.offset i)
      (gaussSlot res ver src n tick image)
  if !m.enabled || !m.gaussian || decide (m.slotSize < 32 + imageSize n) then (s, 4, 0)
  else
    match (if ver = 0 then none else m.versioned src) with
    | some (i, .filled tick order _ _ old _ _) =>
      let d := (ver - old).toNat
      if 1 ≤ d ∧ d < 2 ^ 31 then (fill i tick order s, 0, 0) else (s, 0, 0)
    | _ =>
      if s.refuses p m then (s.setMbx p mb m.refuse, 1, (s.core p).hint)
      else
        match m.gaussFree with
        | none => (s.setMbx p mb m.refuse, 1, (s.core p).hint)
        | some i =>
          let s' := fill i s.tick s.fab.nextNum s.nextNumber
          let s' := if m.rmode = 0 then s'.setMbx p mb { s'.mbx p mb with wix := (i + 1) % m.depth } else s'
          (s', 0, 0)

/-! ## Activation handlers of mailboxes (R159) -/

/-- The descriptor of a mailbox's activation handler, where it may be activated on its core. -/
def State.mbxHandler (s : State) (p : Place) (m : Mbx) : Option Desc :=
  if m.ahv then (s.handler (s.partNo p) p m.aidx m.agen).filter fun d => meets (s.core p).feat d.freq else none

/-- Under RMODE 0b10 a head below RTHR is no candidate; a NaN RTHR leaves every head one (18 R256). -/
def Mbx.aboveThreshold (m : Mbx) (res : Lane) : Bool :=
  if m.residual && m.rmode == 2 then
    decide (0x7F800000 < residualKey m.rthr) || decide (0x7F800000 < residualKey res)
      || !((fv32 (res &&& 0x7FFFFFFF)).lt (fv32 m.rthr))
  else true

/-- The mailbox's condition that R159 has logged once for each `mcfg`. -/
def State.logMbx (s : State) (p : Place) (mb : Nat) : State :=
  let m := s.mbx p mb
  if m.ahv && !m.logged && (s.mbxHandler p m).isNone then
    (s.setMbx p mb { m with logged := true }).log (.mailboxHandler p mb)
  else s

end Sys2Proof.Machine
end

