-- ==== Sys2Proof/Machine/Messages.lean ====
section
/-! DEFINITION. Messages: `send`, `sendt`, `reply`, `msend`, `msendt`, their retries and the arrival of answers (10 R147
to R153, R347). -/

namespace Sys2Proof.Machine

/-! ## The place of a message (R147) -/

/-- Where a message goes. -/
inductive MsgTo
  | core (p : Place)
  | east (row : Nat)
  | service (row : Nat)

/-- The place that its packets travel to: a core by its place-table entry (22 R310), any other as the place names it. -/
def MsgTo.place (t : MsgTo) (w : Nat) : Place :=
  match t with
  | .core p => p
  | _ => w

/-- The partition owns a sub-link of the scale-up port of a row (24 R328). -/
def State.ownsPort (s : State) (pn row : Nat) : Bool := s.sublinks.any fun e => e.1 / 8 == row && e.2.owner == some pn

/-- The place check. `service` says that the handler is the launch service, `far` that an east edge node is accepted. -/
def State.messageTo (s : State) (w : Nat) (service far : Bool) : Except Cause MsgTo :=
  match s.parsePlace w with
  | .core _ _ =>
    match s.checkCore w with
    | .ok p => .ok (.core p)
    | .error c => .error c
  | .east row =>
    if !far then .error .placeInvalid
    else if s.ownsPort (s.partNo s.cur.1) row then .ok (.east row)
    else .error .permission
  | .west row => if service && decide (row < 16) then .ok (.service row) else .error .placeInvalid
  | _ => .error .placeInvalid

/-- The check is made before anything is sent. -/
def placeOnce (w : Word) (service far : Bool) : M MsgTo := fun s =>
  match s.messageTo w.toNat service far with
  | .ok t => .ok (t, s)
  | .error c => if s.seq.begun then .ok (.core w.toNat, s) else trapOpen c s

/-! ## Sending and retrying (R151) -/

/-- The payload s1 to s6. -/
def payloadOf (c : Seq) : List Word := [1, 2, 3, 4, 5, 6].map fun (r : Reg) => c.readS r

/-- The route-and-reply word of a message (R150): its SEQ is filled in as its packet leaves (`Body.number`). -/
def routeWord (tick seq rmb : Nat) : Word :=
  BitVec.ofNat 64 (tick % 2 ^ 32 * 2 ^ 32 + seq % 4096 * 2 ^ 20 + rmb * 2 ^ 14)

/-- A route-and-reply word for a send. -/
def mkRoute (rmb : Nat) : M Word := fun s => .ok (routeWord s.tick 0 rmb, s)

/-- The tick of the route-and-reply word of a packet sent again. -/
def Body.restamp (b : Body) (tick : Nat) : Body :=
  let again (m : Msg) : Msg := { m with rr := m.rr % 2 ^ 32 + BitVec.ofNat 64 (tick % 2 ^ 32 * 2 ^ 32) }
  match b with
  | .active m a v => .active (again m) a v
  | .post m a => .post (again m) a
  | b => b

/-- The hint that a message waits for. -/
def Seq.hintWait (c : Seq) : Option Wait := c.wait.filter fun w => w.why == .hint

/-- The last refusal among kept answers. -/
def lastHint (kept : List Answer) : Nat :=
  (kept.filterMap fun a => match a with | .msg 1 h => some h | _ => none).getLastD 0

/-- A refused message is sent again. -/
def State.resend (s : State) (p : Place) (q : SeqId) : State :=
  match ((s.seqAt p q).hintWait).bind (·.pkt) with
  | some (dst, vn, b) =>
    let sid := (s.strand p).act.sid
    ((s.inject p dst vn (s.partNo p) sid (b.restamp s.tick)).addPub (.packet s.fab.nextNum) (s.pubOf (.given sid q))).modSeqAt p
      q fun c =>
      { c with wait := some ⟨.answer, 0, none, none⟩, kept := c.kept.drop (c.kept.length - 1), used := 0,
               out := some s.fab.nextNum, tries := c.tries + 1 }
  | none => s

/-- The retry limit of the partition allows another try. -/
def State.mayRetry (s : State) (once : Bool) : Bool :=
  let lim := (s.partOf s.cur.1).attrs.retryLim
  !once && (lim == 0 || decide (s.seq.tries < lim))

/-- A message sent, retried after each refusal, and answered: its STAT. `mk` makes the packet, which is kept as it issued
(R147) and sent again as it is. -/
def sendLoop (dst : Place) (vn : Vn) (mk : M Body) (once : Bool) : M Nat := fun s =>
  match s.seq.hintWait with
  | some w => if w.till ≤ s.tick then .error (.own (s.resend s.cur.1 s.cur.2)) else .error (.wait w (some s))
  | none =>
    if s.seq.out.isSome then .error (waitAnswer s)
    else
      match s.seq.kept.getLast? with
      | some (.msg stat hint) =>
        if stat = 1 && s.mayRetry once then .error (.wait ⟨.hint, s.tick + hint, none, s.seq.parcel⟩ (some s))
        else .ok (stat, s)
      | _ => (do
          let b ← mk
          modState fun s => s.modSeq fun c => { c with parcel := some (dst, vn, b) }
          let _ ← request dst vn b
          pure 0) s

/-- The status word (R151). -/
def statusWord (c : Seq) (stat : Nat) : Word :=
  BitVec.ofNat 64 (min c.tries 255 * 2 ^ 16 + lastHint c.kept % 256 * 2 ^ 8 + stat)

/-- D receives the status word. -/
def writeStatus (d : Reg) (stat : Nat) : M Unit := fun s => writeS d (statusWord s.seq stat) s

/-! ## `send` and `sendt` (R148 to R150) -/

/-- The reply mailbox of a send is enabled and plain, or WINDOW-BOUNDS names it (R149). -/
def checkReplyMailbox (mb : Nat) : M Unit := fun s =>
  let m := s.mbx s.cur.1 mb
  if !m.enabled || m.gaussian then trap .windowBounds (BitVec.ofNat 64 mb) s else .ok ((), s)

/-- One slot of the reply mailbox is reserved, with a wait while none is free; the reservation's number is kept with the
instruction. -/
def reserveReply (mb : Nat) : M Unit := fun s =>
  let m := s.mbx s.cur.1 mb
  match m.freeFromWix with
  | [] => waitFor .slot s
  | i :: _ =>
    let num := s.fab.nextNum
    let s := s.nextNumber.setMbx s.cur.1 mb { m.putSlot i (.reserved num num) with wix := (i + 1) % m.depth }
    .ok ((), s.modSeq fun c => { c with latch := some (BitVec.ofNat 64 num) })

/-- The reservation is released when the send ends with any status but ACCEPTED. DESIGN CHOICE (log 124): where the strand has
ended before its answer, nobody releases it. -/
def releaseReply (mb : Nat) : M Unit := fun s =>
  let m := s.mbx s.cur.1 mb
  match s.seq.latch.bind fun n => m.reservedAt n.toNat with
  | some i => .ok ((), s.setMbx s.cur.1 mb (m.putSlot i .free))
  | none => .ok ((), s)

/-- The active message of a `send` (R150): its work id is zero. -/
def mkMessage (cw : Word) (hidx : BitVec 16) (gen : BitVec 8) : M Msg := fun s =>
  let n := cw.toNat
  let rw := bitAt n 14
  let hdr := mkHeader (bitsAt n 16 16) rw false false false (bitsAt n 0 2) gen.toNat hidx.toNat s.cur.1
  (do
    let rr ← mkRoute (if rw then bitsAt n 8 6 else 0)
    let s ← getState
    pure { hdr := hdr, payload := payloadOf s.seq, rr := rr, wid := 0, dl := 0, wfw := s.my.csr.wfw,
           proc := s.my.csr.proc, lid := s.my.act.lid, rnum := if rw then (s.seq.latch.getD 0).toNat else 0, pass := 0, up := 0 : Msg }) s

/-- What is done once, before the first packet of a send leaves. -/
def sendFirst (rw : Bool) (rmb : Nat) : M Unit := fun s =>
  if s.seq.begun || s.seq.hintWait.isSome then .ok ((), s)
  else (do
    if rw then checkReplyMailbox rmb
    drainSq
    release
    if rw then reserveReply rmb) s

/-- The control word of a send in progress is the one it issued with. -/
def issuedReply (c : Seq) (cw : Word) : Bool × Nat :=
  match c.parcel with
  | some (_, _, .active m _ _) | some (_, _, .post m _) => (hdrRw m.hdr, bitsAt m.rr.toNat 14 6)
  | _ => (cw.getLsbD 14, bitsAt cw.toNat 8 6)

/-- `send` and `sendt`. -/
def sendBody (d a b : Reg) (hidx : BitVec 16) (gen : BitVec 8) (once : Bool) : M Next := do
  let w ← readS a
  let cw ← readS b
  let service := hidx == 0xFFFF && gen == 0xFF
  let to_ ← placeOnce w service true
  let s ← getState
  let (rw, rmb) := issuedReply s.seq cw
  sendFirst rw rmb
  let s ← getState
  let mk : M Body := do
    let m ← mkMessage cw hidx gen
    match to_ with
    | .service _ => pure (.post m (some s.cur.2))
    | _ => pure (.active m (some s.cur.2) none)
  let stat ← sendLoop (to_.place w.toNat) .amsg mk once
  if rw && stat != 0 then releaseReply rmb
  writeStatus d stat
  pure .fall

def execSend (g : Guard) (d a b : Reg) (hidx : BitVec 16) (gen : BitVec 8) (s : State) :
    Host.Outcome State Fault Refusal :=
  perform 8 Need.any g (sendBody d a b hidx gen false) s

def execSendt (g : Guard) (d a b : Reg) (hidx : BitVec 16) (gen : BitVec 8) (s : State) :
    Host.Outcome State Fault Refusal :=
  perform 8 Need.any g (sendBody d a b hidx gen true) s

/-! ## `reply` (R153) -/

/-- The owed reply leaves: it is produced, and nothing is owed any more. -/
def State.sendReply (s : State) (p : Place) (o : Owed) (payload : List Word) : State :=
  let pn := s.partNo p
  let sid := (s.strand p).act.sid
  let s := (s.inject p o.place .reply pn sid (.reply o.rmb o.num false payload)).publish (.packet s.fab.nextNum)
  let s := s.modStrand p fun t => { t with act := { t.act with owed := none } }
  s.produce pn sid ⟨.reply, o.place, o.num⟩

/-- `reply`: the status word has STAT 0 or 5. DESIGN CHOICE (log 125): its TRIES and HINT are 0. -/
def replyBody (d : Reg) : M Next := do
  drainSq
  release
  let s ← getState
  match s.my.act.owed with
  | some o =>
    setState (s.sendReply s.cur.1 o (payloadOf s.seq))
    writeS d 0
  | none => writeS d 5
  pure .fall

def execReply (g : Guard) (d : Reg) (s : State) : Host.Outcome State Fault Refusal :=
  perform 8 Need.any g (replyBody d) s

/-! ## `msend` and `msendt` (R158) -/

def msendBody (d a : Reg) (mb : Fin 64) (once : Bool) : M Next := do
  let w ← readS a
  let to_ ← placeOnce w false true
  sendFirst false 0
  let s ← getState
  let stat ← sendLoop (to_.place w.toNat) .amsg (pure (.deposit mb.val (payloadOf s.seq) (some s.cur.2))) once
  writeStatus d stat
  pure .fall

def execMsend (g : Guard) (d a : Reg) (mb : Fin 64) (s : State) : Host.Outcome State Fault Refusal :=
  perform 8 Need.any g (msendBody d a mb false) s

def execMsendt (g : Guard) (d a : Reg) (mb : Fin 64) (s : State) : Host.Outcome State Fault Refusal :=
  perform 8 Need.any g (msendBody d a mb true) s

/-! ## Hints and answers -/

/-- The first message of a core that its network interface sends again by itself and whose hint has run out. -/
def State.dueRetry (s : State) (p : Place) : Option Retry :=
  s.fab.retries.find? fun r => r.pkt.src == p && decide (r.at_ ≤ s.tick)

/-- The first refused engine command of a core whose hint has run out (14 R218). -/
def State.dueCommand (s : State) (p : Place) : Option Cmd :=
  s.cmds.find? fun c => c.issuer == p && (match c.phase with | .hinted t => decide (t ≤ s.tick) | _ => false)

/-- A hint runs out at a core (R151, 14 R213, R218): a waiting sequencer sends its message again, or the network
interface sends again a trigger message, a forwarded message or a command. -/
def execRetryHintExpiry (p : Place) (q : SeqId) (s : State) : Host.Outcome State Fault Refusal :=
  match (s.waitOf p q).filter fun w => w.why == .hint && decide (w.till ≤ s.tick) with
  | some _ => .next (s.resend p q)
  | none =>
    match s.dueRetry p with
    | some r =>
      let s := { s with fab := { s.fab with retries := s.fab.retries.erase r } }
      .next ((s.inject r.pkt.src r.pkt.dst r.pkt.vn r.pkt.part r.pkt.sid r.pkt.body).movePub (.packet r.pkt.num)
        (.packet s.fab.nextNum))
    | none =>
      match s.dueCommand p with
      | some c => .next ((s.meterCmd c c.blk.length).modCmd c.id fun c => { c with phase := .sent })
      | none => .next s

/-- The next answer on its way to a sequencer of a core. -/
def State.answerFor (s : State) (p : Place) (q : SeqId) : Option (Packet × Answer) :=
  s.fab.net.findSome? fun k =>
    match k.body with
    | .answer q' a =>
      if k.dst == p && q' == q && (s.nextPacket k.src p .reply).map (·.num) == some k.num then some (k, a) else none
    | _ => none

end Sys2Proof.Machine
end

