-- ==== Sys2Proof/Machine/Mailboxes.lean ====
section
/-! DEFINITION. The mailbox and link instructions (10 R156 to R161), and the arrival of messages, deposits and replies
(R152, R158, R160, 18 R255). -/

namespace Sys2Proof.Machine

/-! ## `mcfg` (R157) -/

/-- The checks of a mailbox block, with the reservations held and the partition's stash count. -/
def mcfgOk (n reserved scount : Nat) : Bool :=
  let slot := bitsAt n 10 4
  let depth := bitsAt n 14 4 + 1
  let gaussian := bitAt n 20
  bitsAt n 128 128 == 0 && bitsAt n 121 7 == 0 && bitsAt n 42 22 == 0 && bitsAt n 29 3 == 0
    && decide (1 ≤ slot) && decide (slot ≤ 9) && (gaussian || slot == 1)
    && decide (bitsAt n 0 10 * 64 + depth * slot * 64 ≤ 65536)
    && (!bitAt n 28 || decide (bitsAt n 22 6 < scount)) && bitsAt n 40 2 != 3
    && (reserved == 0 || (bitAt n 21 && !gaussian && decide (reserved ≤ depth)))

/-- The descriptor written: slots discarded, reservations kept in the lowest-numbered slots. -/
def Mbx.configure (m : Mbx) (n : Nat) : Mbx :=
  let kept := m.reservations
  let depth := bitsAt n 14 4 + 1
  { cfg := BitVec.ofNat 128 n
    slots := if bitAt n 21 || !kept.isEmpty then kept ++ List.replicate (depth - kept.length) .free else []
    wix := kept.length % depth
    stage := none
    refused := false
    pass := 0
    up := 0
    logged := false }

/-- An object is no longer poisoned. -/
def State.unpoison (s : State) (pn : Nat) (o : ObjRef) : State :=
  s.modPart pn fun t => { t with pois := t.pois.filter (· != o) }

def mcfgBody (a : Reg) (mb : Fin 64) : M Next := do
  let w ← readS a
  trapIf (w.toNat % 32 != 0 || decide (65536 < w.toNat + 32)) .windowBounds w
  let n ← readBlock w.toNat 32
  let s ← getState
  let m := s.mbx s.cur.1 mb.val
  trapIf (!mcfgOk n m.reservations.length (s.partOf s.cur.1).attrs.scount) .windowBounds w
  let s := s.setMbx s.cur.1 mb.val (m.configure n)
  setState (s.unpoison (s.partNo s.cur.1) ⟨.mbx, s.cur.1, mb.val⟩)
  pure .fall

def execMcfg (g : Guard) (a : Reg) (mb : Fin 64) (s : State) : Host.Outcome State Fault Refusal :=
  perform 8 Need.any g (mcfgBody a mb) s

/-! ## `mrecv`, `mpeek`, `mrel` (R159) -/

/-- A time-out operand: ticks in A, or the immediate where A is s0. -/
def timeOut {n : Nat} (a : Reg) (tmo : BitVec n) : M Nat := do
  let w ← readS a
  pure (if a.val = 0 then tmo.toNat else w.toNat)

/-- What the deposit in a slot has published passes on to whoever takes the slot (16 R244). -/
def State.takeDeposit (s : State) (x : Slot) (k : PubKey) : State :=
  match x with
  | .filled _ o _ _ _ _ _ => s.movePub (.deposit o) k
  | _ => s

def mrecvBody (d a : Reg) (tmo : BitVec 18) (mb : Fin 64) : M Next := do
  let n ← timeOut a tmo
  let s ← getState
  let o : ObjRef := ⟨.mbx, s.cur.1, mb.val⟩
  let m := s.mbx s.cur.1 mb.val
  trapIf (!m.enabled) .windowBounds (BitVec.ofNat 64 mb.val)
  drainSq
  match m.head with
  | some (i, x) =>
    setState ((s.setMbx s.cur.1 mb.val (m.take i)).takeDeposit x (.strand s.my.act.sid))
    writeS d (BitVec.ofNat 64 (m.offset i))
  | none =>
    let _ ← waitOn o (o :: s.mbxReplies o) n
    writeS d Word.allOnes
  syncPoint
  pure .fall

def execMrecv (g : Guard) (d a : Reg) (tmo : BitVec 18) (mb : Fin 64) (s : State) :
    Host.Outcome State Fault Refusal :=
  perform 8 Need.any g (mrecvBody d a tmo mb) s

def execMpeek (g : Guard) (d : Reg) (mb : Fin 64) (s : State) : Host.Outcome State Fault Refusal :=
  perform 8 Need.any g (do
    let s ← getState
    let m := s.mbx s.cur.1 mb.val
    match m.head with
    | some (i, _) => writeS d (BitVec.ofNat 64 (m.offset i))
    | none => writeS d Word.allOnes
    setW (s.wOrPois ⟨.mbx, s.cur.1, mb.val⟩)
    pure .fall) s

/-- The taken slot at an offset. -/
def Mbx.takenAt (m : Mbx) (off : Nat) : Option Nat :=
  (m.slots.zipIdx.find? fun e => e.1 == .taken && m.offset e.2 == off).map (·.2)

def execMrel (g : Guard) (a : Reg) (mb : Fin 64) (s : State) : Host.Outcome State Fault Refusal :=
  perform 8 Need.any g (do
    let w ← readS a
    let s ← getState
    let m := s.mbx s.cur.1 mb.val
    match m.takenAt w.toNat with
    | some i => setState (s.setMbx s.cur.1 mb.val (m.putSlot i .free))
    | none => trap .queueMisuse w
    pure .fall) s

/-- `nlink` (R161). -/
def execNlink (g : Guard) (fe fw clr : Bool) (s : State) : Host.Outcome State Fault Refusal :=
  perform 8 Need.any g (do
    modState fun s => s.modMe fun c =>
      { c with fe := fe, fw := fw, nE := if clr then [] else c.nE, nW := if clr then [] else c.nW }
    pure .fall) s

/-! ## Arrivals -/

/-- The status that a remote module answers, which the manual leaves to that module (24 R328): one of those that a
message or a deposit may meet, with any hint after a refusal. -/
def remoteAnswer (stats : List Nat) (s : State) : State × Nat × Nat :=
  let v := (Config.freeValue s.free).toNat
  let stat := stats.getD (v % stats.length) 0
  ({ s with free := s.free + 1 }, stat, if stat = 1 then v / 256 % 256 else 0)

/-- The lowest-numbered sub-link of a port that a partition owns (24 R328). -/
def State.portLink (s : State) (pn row : Nat) : Option Sublink :=
  (s.sublinks.find? fun e => e.1 / 8 == row && e.2.owner == some pn).map (·.2)

/-- The bytes of a flit (24 R327). -/
def flitBytes : Nat := 256

/-- Flits sent or received on a partition's sub-links (22 R316). -/
def State.meterFlits (s : State) (pn n : Nat) : State :=
  s.modPart pn fun t => { t with meter := { t.meter with scub := t.meter.scub + n } }

/-- A packet on a sub-link that is down is lost, and counts in LOSTCNT of its source core (24 R327). -/
def State.lostAway (s : State) (k : Packet) : State :=
  (s.dropPacket k.num).modCore k.src fun c => { c with lost := if c.lost = BitVec.allOnes 32 then c.lost else c.lost + 1 }

/-- A packet for another module leaves on the partition's sub-link and is answered; one on a sub-link that is down is
lost and never answered. Where no partition owns the peer end, the remote module discards the flit (24 R328). -/
def State.sendAway (s : State) (k : Packet) (row : Nat) (q : Option SeqId) (stats : List Nat) : State :=
  match s.portLink k.part row with
  | some l =>
    if !l.up then s.lostAway k
    else
      let s := (s.dropPacket k.num).meterFlits k.part flitBytes
      if l.peer.isNone then s
      else
        let (s, stat, hint) := remoteAnswer stats s
        match q with
        | some q => s.answerTo k q (.msg stat hint)
        | none => s
  | none => s

/-- The row of an east edge node's place. -/
def State.eastRow (s : State) (p : Place) : Option Nat :=
  match s.parsePlace p with
  | .east row => some row
  | _ => none

/-- An active message at an inbox: accepted, answered or forwarded (03 R35, R38). A message that its core's hardware
sent by itself is sent again after a refusal's hint; a root that is turned away on its way is told to its front end (R42). -/
def State.arriveActive (s : State) (k : Packet) (m : Msg) (asker : Option SeqId) (via : Option (Place × Nat)) :
    State :=
  let (snd, num) := via.getD (k.src, k.num)
  let (s, r) := (s.dropPacket k.num).offered k.dst m snd num
  match r with
  | .forward q => s.inject k.dst q .amsg k.part k.sid (.active m asker (some (snd, num)))
  | r =>
    match asker with
    | some q => s.answerTo { k with src := snd, num := num } q (.msg r.answer.1 r.answer.2)
    | none =>
      match r with
      | .refused h => { s with fab := { s.fab with retries := s.fab.retries ++ [⟨s.tick + h, k⟩] } }
      | .stale | .denied =>
        if m.hdr.getLsbD 45 then s.answerTo { k with src := snd, num := num } .as (.msg r.answer.1 r.answer.2) else s
      | _ => s

/-- A trigger counter's message at an inbox (14 R213). -/
def State.arriveTrigger (s : State) (k : Packet) (m : Msg) (tc : Nat) : State :=
  let (s, r) := (s.dropPacket k.num).offered k.dst m k.src k.num
  match r with
  | .forward q => s.inject k.dst q .amsg k.part k.sid (.tcMsg m tc)
  | .refused h => { s with fab := { s.fab with retries := s.fab.retries ++ [⟨s.tick + h, k⟩] } }
  | _ => s

/-- A stage dispatch at a member (20 R282): its slot is freed where the inbox accepts it, and is a candidate again where
it does not. A slot that holds another item by now stays as it is. -/
def State.arriveDispatch (s : State) (k : Packet) (m : Msg) (home : Place) (mb slot order : Nat) : State :=
  let (s, r) := (s.dropPacket k.num).offered k.dst m home k.num
  let b := s.mbx home mb
  match r, b.slots[slot]? with
  | .forward q, _ => s.inject k.dst q .amsg k.part k.sid (.dispatch m home mb slot order)
  | .accepted, some (.filled _ o _ _ _ _ _) => if o = order then s.setMbx home mb (b.putSlot slot .free) else s
  | .accepted, _ => s
  | _, some (.filled t o c rs v n _) =>
    if o = order then (s.setMbx home mb (b.putSlot slot (.filled t o c rs v n false))).movePub (.packet k.num) (.deposit o)
    else s
  | _, _ => s

def execActiveMessageArrival (src dst : Place) (s : State) : Host.Outcome State Fault Refusal :=
  match s.nextPacket src dst .amsg with
  | none => .next s
  | some k =>
    match k.body with
    | .active m asker via =>
      match s.eastRow dst with
      | some row => .next (s.sendAway k row asker [0, 1, 2, 3])
      | none => .next (s.arriveActive k m asker via)
    | .tcMsg m tc => .next (s.arriveTrigger k m tc)
    | .dispatch m home mb slot order => .next (s.arriveDispatch k m home mb slot order)
    | _ => .next s

/-- A deposit answered; an accepted one produces the mailbox (03 R56). -/
def State.answerDeposit (s : State) (k : Packet) (mb : Nat) (q : Option SeqId) (stat hint : Nat) : State :=
  let s := if stat = 0 then s.produce k.part k.sid ⟨.mbx, k.dst, mb⟩ else s
  match q with
  | some q => s.answerTo k q (.msg stat hint)
  | none => s

def execMailboxDeposit (src dst : Place) (s : State) : Host.Outcome State Fault Refusal :=
  match s.nextPacket src dst .amsg with
  | none => .next s
  | some k =>
    match k.body with
    | .deposit mb payload asker =>
      match s.eastRow dst with
      | some row => .next (s.sendAway k row asker [0, 1, 4])
      | none =>
        let (s', stat, hint) := (s.dropPacket k.num).depositPlain dst mb payload src
        .next ((if stat = 0 then s'.movePub (.packet k.num) (.deposit s.fab.nextNum) else s').answerDeposit k mb asker stat hint)
    | _ => .next s

/-- A reply is never refused (R153). -/
def execReplyArrival (src dst : Place) (s : State) : Host.Outcome State Fault Refusal :=
  match s.nextPacket src dst .reply with
  | none => .next s
  | some k =>
    match k.body with
    | .memory d n ans => .next ((s.dropPacket k.num).deliverAnswer d n ans)
    | .reply mb num abort payload =>
      match s.eastRow dst with
      | some row => .next (s.sendAway k row none [0])
      | none =>
        let s' := (s.dropPacket k.num).depositReply dst mb num abort payload src
        .next (if ((s.mbx dst mb).reservedAt num).isSome then s'.movePub (.packet k.num) (.deposit s.fab.nextNum)
          else s'.setPub (.packet k.num) PubSet.none)
    | _ => .next s

/-! ## Gaussian deposits (18 R255) -/

/-- A packet of the mesh with its body changed. -/
def State.setBody (s : State) (num : Nat) (b : Body) : State :=
  { s with fab := { s.fab with net := s.fab.net.map fun k => if k.num = num then { k with body := b } else k } }

/-- The first packet takes one of the 4 assembly buffers, or the deposit is refused. -/
def execGaussianFirstPacket (src dst : Place) (s : State) : Host.Outcome State Fault Refusal :=
  match s.nextPacket src dst .bulk with
  | none => .next s
  | some k =>
    match k.body with
    | .gauss mb res ver n image false asker =>
      if 4 ≤ (s.core dst).work.asm.length then
        .next ((s.dropPacket k.num).answerDeposit k mb asker 1 (s.core dst).hint)
      else
        let s := s.setBody k.num (.gauss mb res ver n image true asker)
        .next (s.modWork dst fun w => { w with asm := w.asm ++ [(src, k.num)] })
    | _ => .next s

/-- The order number of the slot that an accepted Gaussian deposit goes to: of the slot of the same source, or a new one. -/
def State.gaussOrder (s : State) (m : Mbx) (src : Place) (ver : Lane) : Nat :=
  match m.versioned src with
  | some (_, .filled _ o _ _ _ _ _) => if ver = 0 then s.fab.nextNum else o
  | _ => s.fab.nextNum

/-- The last packet has landed: the arbiter applies the deposit as one event. -/
def execGaussianDeposit (src dst : Place) (s : State) : Host.Outcome State Fault Refusal :=
  match s.nextPacket src dst .bulk with
  | none => .next s
  | some k =>
    match k.body with
    | .gauss mb res ver n image started asker =>
      if !started then .next s
      else
        let s := (s.dropPacket k.num).modWork dst fun w => { w with asm := w.asm.erase (src, k.num) }
        let o := s.gaussOrder (s.mbx dst mb) src ver
        let (s', stat, hint) := s.depositGauss dst mb res ver n image src
        .next ((if stat = 0 then s'.movePub (.packet k.num) (.deposit o) else s').answerDeposit k mb asker stat hint)
    | _ => .next s

end Sys2Proof.Machine
end

