-- ==== Sys2Proof/Machine/Sync.lean ====
section
/-! DEFINITION. Local barriers (14 R193 to R196), mesh barriers (R198 to R201) and semaphores (R202, R203), with the
arrivals that other cores send them. -/

namespace Sys2Proof.Machine

/-! ## Objects -/

def State.lb (s : State) (p : Place) (i : Nat) : Lb := Table.get Lb.reset (s.objs p).lbs i
def State.setLb (s : State) (p : Place) (i : Nat) (b : Lb) : State :=
  s.modObjs p fun o => { o with lbs := Table.set o.lbs i b }
def State.msh (s : State) (p : Place) (i : Nat) : Msh := Table.get Msh.reset (s.objs p).mshs i
def State.setMsh (s : State) (p : Place) (i : Nat) (m : Msh) : State :=
  s.modObjs p fun o => { o with mshs := Table.set o.mshs i m }
def State.sem (s : State) (p : Place) (i : Nat) : Nat := (Table.get 0 (s.objs p).sems i).toNat
def State.setSem (s : State) (p : Place) (i n : Nat) : State :=
  s.modObjs p fun o => { o with sems := Table.set o.sems i (BitVec.ofNat 32 n) }

/-- A signal (R203): COUNT saturates. -/
def State.signal (s : State) (p : Place) (i n : Nat) : State := s.setSem p i (min (s.sem p i + n) (2 ^ 32 - 1))

/-- The target place of a signalling instruction: the issuing core where A is s0. -/
def targetPlace (a : Reg) : M Place := do
  let s ← getState
  if a.val = 0 then pure s.cur.1
  else
    let w ← readS a
    corePlace w

/-! ## Local barriers (R195) -/

/-- A phase that has no arrival and no byte outstanding completes. -/
def Lb.flip (b : Lb) : Lb :=
  if b.pend = 0 && b.txb = 0 then
    let e := ((b.exp : Int) + b.adj).toNat
    { b with ph := !b.ph, exp := e, adj := 0, pend := e }
  else b

/-- An arrival: 0 `lbarr`, 1 `lbdrop`, 2 `lbjoin`; none where it is a misuse. -/
def Lb.arrive (b : Lb) (op : Nat) : Option Lb :=
  let adj : Int := if op = 1 then b.adj - 1 else if op = 2 then b.adj + 1 else b.adj
  if b.pend = 0 || (op == 1 && decide ((b.exp : Int) + adj < 0))
    || (op == 2 && decide ((65535 : Int) < b.exp + adj)) then none
  else some { b with pend := b.pend - 1, adj := adj }.flip

/-- Bytes retired: those that TXB holds, with the excess; a retirement that retires none completes no phase. -/
def Lb.retire (b : Lb) (n : Nat) : Lb × Nat :=
  if b.txb = 0 then (b, n) else ({ b with txb := b.txb - n }.flip, n - b.txb)

def Lb.init (e : Nat) : Lb := ⟨false, e, e, 0, 0⟩

/-- A barrier's new state; where its phase has completed, what that phase's arrivals released joins what is published
(16 R244). -/
def State.putLb (s : State) (p : Place) (i : Nat) (b : Lb) : State :=
  let u := s.setLb p i b
  if b.ph = (s.lb p i).ph then u else u.movePub (.running ⟨.lb, p, i⟩) (.obj ⟨.lb, p, i⟩)

/-- An arrival applied; the party's mark on the barrier, and on a ring that it fills or drains, clears (03 R56). -/
def State.arriveLb (s : State) (pn sid : Nat) (p : Place) (i op : Nat) : Option State :=
  ((s.lb p i).arrive op).map fun b =>
    (s.shownBy ⟨.lb, p, i⟩).foldl (fun s o => s.produce pn sid o) (s.putLb p i b)

/-- Bytes of an engine's write retired on a barrier, which releases them (16 R245); the excess is logged. -/
def State.retireLb (s : State) (p : Place) (i n : Nat) (x : PubSet) : State :=
  let r := (s.lb p i).retire n
  let s := (s.addPub (.running ⟨.lb, p, i⟩) x).putLb p i r.1
  if r.2 = 0 then s else s.log (.excess p i r.2)

/-- `lbinit` of a barrier: POIS clears, marks stay. -/
def State.initLb (s : State) (p : Place) (i e : Nat) : State :=
  (((s.setLb p i (Lb.init e)).unpoison (s.partNo p) ⟨.lb, p, i⟩).setPub (.running ⟨.lb, p, i⟩) PubSet.none).setPub
    (.obj ⟨.lb, p, i⟩) PubSet.none

def execLbinit (g : Guard) (a : Reg) (lb : Fin 64) (s : State) : Host.Outcome State Fault Refusal :=
  perform 8 Need.any g (do
    let w ← readS a
    modState fun s => s.initLb s.cur.1 lb.val (bitsAt w.toNat 0 16)
    pure .fall) s

/-- A barrier's phase has completed in the present cycle by the other sequencer's arrival: an arrival of the same cycle
comes before the flip, and meets PEND = 0. -/
def State.flippedNow (s : State) (p : Place) (i : Nat) : Bool :=
  match s.cycle with
  | some (q, c) => q == p && (Table.get Lb.reset c.objs.lbs i).ph != (s.lb p i).ph
  | none => false

/-- `lbarr`, `lbdrop` and `lbjoin`: a local arrival, or one sent on SYNC. -/
def lbArriveBody (a : Reg) (lb op : Nat) : M Next := do
  let p ← targetPlace a
  drainSq
  release
  let s ← getState
  let pn := s.partNo s.cur.1
  if p = s.cur.1 then
    match (if s.flippedNow p lb then none else (s.publish (.running ⟨.lb, p, lb⟩)).arriveLb pn s.my.act.sid p lb op) with
    | some s' => setState s'
    | none => trap .queueMisuse (BitVec.ofNat 64 lb)
  else setState ((s.inject s.cur.1 p .sync pn s.my.act.sid (.lbArr op lb)).publish (.packet s.fab.nextNum))
  pure .fall

def execLbarr (g : Guard) (a : Reg) (lb : Fin 64) (s : State) : Host.Outcome State Fault Refusal :=
  perform 8 Need.any g (lbArriveBody a lb.val 0) s

def execLbdrop (g : Guard) (a : Reg) (lb : Fin 64) (s : State) : Host.Outcome State Fault Refusal :=
  perform 8 Need.any g (lbArriveBody a lb.val 1) s

def execLbjoin (g : Guard) (a : Reg) (lb : Fin 64) (s : State) : Host.Outcome State Fault Refusal :=
  perform 8 Need.any g (lbArriveBody a lb.val 2) s

def execLbexp (g : Guard) (a : Reg) (lb : Fin 64) (s : State) : Host.Outcome State Fault Refusal :=
  perform 8 Need.any g (do
    let w ← readS a
    let s ← getState
    let b := s.lb s.cur.1 lb.val
    trapIf (decide (2 ^ 24 - 1 < b.txb + w.toNat)) .queueMisuse (BitVec.ofNat 64 lb.val)
    setState (s.setLb s.cur.1 lb.val { b with txb := b.txb + w.toNat })
    pure .fall) s

/-- A wait on a phase: D is 0 where it completes and all ones where its time-out runs out. -/
def phaseWait (o : ObjRef) (met : State → Bool) (d : Reg) (n : Nat) : M Unit := do
  drainSq
  let s ← getState
  if met s then
    setState (s.acquire (.obj o))
    writeS d 0
  else
    let _ ← waitOn o [o] n
    writeS d Word.allOnes
  syncPoint

def execLbwait (g : Guard) (d a : Reg) (tmo : BitVec 17) (par : Bool) (lb : Fin 64) (s : State) :
    Host.Outcome State Fault Refusal :=
  perform 8 Need.any g (do
    let n ← timeOut a tmo
    let s ← getState
    phaseWait ⟨.lb, s.cur.1, lb.val⟩ (fun s => (s.lb s.cur.1 lb.val).ph == par) d n
    pure .fall) s

/-- The state word of a barrier (R193). -/
def State.lbWord (s : State) (p : Place) (i : Nat) : Word :=
  let b := s.lb p i
  let o : ObjRef := ⟨.lb, p, i⟩
  BitVec.ofNat 64 (b2n b.ph * 2 ^ 63 + b2n (s.withheld (s.partNo p) o) * 2 ^ 62
    + b2n (s.poisoned (s.partNo p) o) * 2 ^ 61 + b.txb * 2 ^ 32 + b.pend * 2 ^ 16 + b.exp)

def execLbtest (g : Guard) (d : Reg) (lb : Fin 64) (s : State) : Host.Outcome State Fault Refusal :=
  perform 8 Need.any g (do
    let s ← getState
    writeS d (s.lbWord s.cur.1 lb.val)
    setW (s.wOrPois ⟨.lb, s.cur.1, lb.val⟩)
    pure .fall) s

/-- A remote arrival at its barrier; one that is a misuse there is discarded and logged. -/
def execLbRemoteArrival (src dst : Place) (s : State) : Host.Outcome State Fault Refusal :=
  match s.nextPacket src dst .sync with
  | none => .next s
  | some k =>
    match k.body with
    | .lbArr op lb =>
      let s := s.dropPacket k.num
      match (s.movePub (.packet k.num) (.running ⟨.lb, dst, lb⟩)).arriveLb k.part k.sid dst lb op with
      | some s' => .next s'
      | none => .next ((s.setPub (.packet k.num) PubSet.none).log (.badArrival dst lb))
    | _ => .next s

/-! ## Mesh barriers (R198 to R201) -/

/-- The rectangle of a block leaves the module shape. -/
def State.meshLeaves (s : State) (b : Nat) : Bool :=
  decide (s.cols ≤ bitsAt b 0 6 + bitsAt b 16 6) || decide (32 ≤ bitsAt b 6 5 + bitsAt b 22 5)

def execMshcfg (g : Guard) (a : Reg) (m : Fin 16) (s : State) : Host.Outcome State Fault Refusal :=
  perform 8 Need.any g (do
    let w ← readS a
    if w.toNat % 16 != 0 then trapOpen .windowBounds
    let n ← readBlock w.toNat 16
    let s ← getState
    let b := BitVec.ofNat 128 n
    if bitsAt n 64 64 != 0 || bitsAt n 40 8 != 0 || bitsAt n 27 5 != 0 || bitsAt n 11 5 != 0 || bitsAt n 32 8 == 0
        || !meshHas n s.cur.1 then
      trapOpen .windowBounds
    if s.meshLeaves n then trapOpen .placeInvalid
    if !(meshMembers b).all fun q => (s.partOf s.cur.1).hasCore q then trapOpen .permission
    let s := s.setMsh s.cur.1 m.val { s.msh s.cur.1 m.val with
      block := b, ph := false, arr := false, burr := Burr.reset, spans := [] }
    setState (s.unpoison (s.partNo s.cur.1) ⟨.msh, s.cur.1, m.val⟩)
    pure .fall) s

def meshTag (b : BitVec 128) : BitVec 16 := b.extractLsb' 48 16

/-- The number that stands for a cluster's router on an arrival's path: it is no place of 01 R11. -/
def clusterPlace (clu : Nat) : Place := 65536 + clu

def execMshar (g : Guard) (m : Fin 16) (s : State) : Host.Outcome State Fault Refusal :=
  perform 8 Need.any g (do
    let s ← getState
    let p := s.cur.1
    trapIf ((s.msh p m.val).block == 0 || (s.msh p m.val).arr) .queueMisuse (BitVec.ofNat 64 m.val)
    if !s.permits p (meshCorner (s.msh p m.val).block / 8) then trapOpen .permission
    drainSq
    release
    let s ← getState
    let r := s.msh p m.val
    let pn := s.partNo p
    let sid := s.my.act.sid
    let s := s.setMsh p m.val { r with arr := true }
    let s := s.inject p (clusterPlace (p / 8)) .sync pn sid
      (.meshArr (meshCorner r.block) m.val (meshTag r.block) ⟨[p], s.tick, s.tick, p⟩)
    setState ((s.publish (.packet (s.fab.nextNum - 1))).produce pn sid ⟨.msh, p, m.val⟩)
    pure .fall) s

def execMshwait (g : Guard) (d a : Reg) (tmo : BitVec 19) (par : Bool) (m : Fin 16) (s : State) :
    Host.Outcome State Fault Refusal :=
  perform 8 Need.any g (do
    let n ← timeOut a tmo
    let s ← getState
    trapIf ((s.msh s.cur.1 m.val).block == 0) .queueMisuse (BitVec.ofNat 64 m.val)
    phaseWait ⟨.msh, s.cur.1, m.val⟩ (fun s => (s.msh s.cur.1 m.val).ph == par) d n
    pure .fall) s

/-- The words of `mshstat` (R201). -/
def State.mshWord (s : State) (p : Place) (i sel : Nat) : Nat :=
  let m := s.msh p i
  let o : ObjRef := ⟨.msh, p, i⟩
  let pn := s.partNo p
  if m.block == 0 then 0
  else
    match sel with
    | 0 => m.burr.first
    | 1 => m.burr.last
    | 2 => min m.burr.held (2 ^ 32 - 1) * 2 ^ 32 + m.burr.released % 2 ^ 16 * 2 ^ 16 + m.burr.lastPlace
    | _ =>
      s.markId pn o * 2 ^ 48 + b2n (s.poisoned pn o) * 8 + b2n (s.withheld pn o) * 4 + b2n m.arr * 2 + b2n m.ph

def execMshstat (g : Guard) (d : Reg) (sel : Fin 4) (m : Fin 16) (s : State) : Host.Outcome State Fault Refusal :=
  perform 8 Need.any g (do
    let s ← getState
    writeS d (BitVec.ofNat 64 (s.mshWord s.cur.1 m.val sel.val))
    setW (s.wOrPois ⟨.msh, s.cur.1, m.val⟩)
    pure .fall) s

/-- Two arrivals as one: a tie in ticks goes to the higher place. -/
def MeshArr.join (a b : MeshArr) : MeshArr where
  members := a.members ++ b.members
  first := min a.first b.first
  last := max a.last b.last
  lastPlace :=
    if a.last < b.last || (a.last == b.last && decide (a.lastPlace < b.lastPlace)) then b.lastPlace else a.lastPlace

/-- The participants whose arrivals a cluster of the path stands for: those to its east in its row, or, in the west
column, those of its row and of the rows to its south. -/
def meshBehind (b : BitVec 128) (clu : Nat) : List Place :=
  let west := bitsAt b.toNat 0 6
  (meshMembers b).filter fun q =>
    if clu % 64 = west then decide (clu / 64 ≤ rowOf q)
    else rowOf q == clu / 64 && decide (clu % 64 ≤ colOf q)

/-- The arrivals of a mesh barrier that have come to a cluster's router. -/
def State.meshAt (s : State) (clu : Nat) (corner : Place) (m : Nat) : List (Packet × BitVec 16 × MeshArr) :=
  s.fab.net.filterMap fun k =>
    match k.body with
    | .meshArr c i tag a =>
      if c = corner ∧ i = m ∧ k.dst = clusterPlace clu ∧ k.arrived then some (k, tag, a) else none
    | _ => none

/-- Ticks of some spans within [lo, hi). -/
def spanTicks (ss : List (Nat × Nat)) (lo hi : Nat) : Nat :=
  (ss.map fun e => min e.2 hi - max e.1 lo).sum

/-- The corner core completes the phase: the release leaves for every participant with the straggler record. -/
def State.meshComplete (s : State) (pn : Nat) (corner : Place) (m : Nat) (a : MeshArr) : State :=
  let r := s.msh corner m
  let open_ := match r.heldSince with
    | some t0 => [(t0, s.tick)]
    | none => []
  let b : Burr := ⟨a.first, a.last, spanTicks (r.spans ++ open_) a.first s.tick, r.burr.released + 1, a.lastPlace⟩
  let s := s.setMsh corner m { r with spans := [], heldSince := r.heldSince.map fun _ => s.tick }
  let o : ObjRef := ⟨.msh, corner, m⟩
  let x := s.pubOf (.running o)
  ((meshMembers r.block).foldl (fun s q => (s.inject corner q .sync pn 0 (.meshRel m b)).addPub (.packet s.fab.nextNum) x)
    s).setPub (.running o) PubSet.none

/-- An arrival that the corner core's configuration takes: its TAG, and only participants (R200). -/
def meshFits (b : BitVec 128) (tag : BitVec 16) (a : MeshArr) : Bool :=
  tag == meshTag b && a.members.all (meshMembers b).contains

/-- The combined arrival of a cluster goes on, west in its row and then north, or completes the phase at the corner. -/
def State.meshPass (s : State) (pn clu : Nat) (corner : Place) (m : Nat) (tag : BitVec 16) (a : MeshArr) : State :=
  let b := (s.msh corner m).block
  let go (n : Nat) : State :=
    s.inject (clusterPlace clu) (clusterPlace n) .sync pn 0 (.meshArr corner m tag a)
  if clu % 64 ≠ bitsAt b.toNat 0 6 then go (clu - 1)
  else if clu ≠ bitsAt b.toNat 0 11 then go (clu - 64)
  else s.meshComplete pn corner m a

/-- What a mesh arrival released joins the running phase at its corner, unless it is a bad one. -/
def State.arriveMesh (s : State) (corner : Place) (m : Nat) (e : Packet × BitVec 16 × MeshArr) : State :=
  if meshFits (s.msh corner m).block e.2.1 e.2.2 then s.movePub (.packet e.1.num) (.running ⟨.msh, corner, m⟩)
  else s.setPub (.packet e.1.num) PubSet.none

/-- Arrivals combined at a cluster (R200): bad ones are discarded and logged; when all that the cluster stands for are
there, one arrival goes on; until then what has come is kept. -/
def execMeshArrivalCombine (clu : Nat) (corner : Place) (m : Fin 16) (s : State) :
    Host.Outcome State Fault Refusal :=
  match s.meshAt clu corner m.val with
  | [] => .next s
  | k :: ks =>
    let r := s.msh corner m.val
    let kept := (r.arrived.filter (·.1 == clu)).map (·.2)
    let others := r.arrived.filter (·.1 != clu)
    let items := kept ++ (k :: ks).map (·.2)
    let good := items.filter fun e => meshFits r.block e.1 e.2
    let bad := items.filter fun e => !meshFits r.block e.1 e.2
    let s := (k :: ks).foldl (fun s e => (s.dropPacket e.1.num).arriveMesh corner m.val e) s
    let s := bad.foldl (fun s _ => s.log (.badArrival corner m.val)) s
    match good with
    | [] => .next (s.setMsh corner m.val { r with arrived := others })
    | e :: es =>
      let a := es.foldl (fun a x => a.join x.2) e.2
      if (meshBehind r.block clu).all a.members.contains then
        .next ((s.setMsh corner m.val { r with arrived := others }).meshPass k.1.part clu corner m.val e.1 a)
      else .next (s.setMsh corner m.val { r with arrived := others ++ [(clu, e.1, a)] })

/-- The release reaches a participant. -/
def execMeshRelease (corner dst : Place) (m : Fin 16) (s : State) : Host.Outcome State Fault Refusal :=
  match s.nextPacket corner dst .sync with
  | none => .next s
  | some k =>
    match k.body with
    | .meshRel i b =>
      if i = m.val then
        let r := s.msh dst i
        .next (((s.dropPacket k.num).setMsh dst i { r with ph := !r.ph, arr := false, burr := b }).movePub (.packet k.num)
          (.obj ⟨.msh, dst, i⟩))
      else .next s
    | _ => .next s

/-- A change of the phase's W state reaches a participant. -/
def execMeshWUpdate (corner dst : Place) (m : Fin 16) (s : State) : Host.Outcome State Fault Refusal :=
  match s.nextPacket corner dst .sync with
  | none => .next s
  | some k =>
    match k.body with
    | .meshW i w =>
      if i = m.val then
        let s := (s.dropPacket k.num).setMsh dst i { s.msh dst i with w := w }
        .next (if w then s.wakeWaiters k.part [⟨.msh, dst, i⟩] else s)
      else .next s
    | _ => .next s

/-! ## Semaphores (R203) -/

/-- The count operand: 1 where B is s0. -/
def countOf (b : Reg) : M Nat := do
  let w ← readS b
  pure (if b.val = 0 then 1 else bitsAt w.toNat 0 32)

def execSemwait (g : Guard) (d a b : Reg) (tmo : BitVec 16) (sem : BitVec 8) (s : State) :
    Host.Outcome State Fault Refusal :=
  perform 8 Need.any g (do
    let t ← timeOut a tmo
    let n ← countOf b
    drainSq
    let s ← getState
    let c := s.sem s.cur.1 sem.toNat
    let o : ObjRef := ⟨.sem, s.cur.1, sem.toNat⟩
    if n ≤ c then
      setState ((s.setSem s.cur.1 sem.toNat (c - n)).acquire (.obj o))
      writeS d 0
    else
      let _ ← waitOn o [o] t
      writeS d Word.allOnes
    syncPoint
    pure .fall) s

def execSemsig (g : Guard) (a b : Reg) (sem : BitVec 8) (s : State) : Host.Outcome State Fault Refusal :=
  perform 8 Need.any g (do
    let p ← targetPlace a
    let n ← countOf b
    drainSq
    release
    let s ← getState
    let pn := s.partNo s.cur.1
    let o : ObjRef := ⟨.sem, p, sem.toNat⟩
    if p = s.cur.1 then setState (((s.signal p sem.toNat n).publish (.obj o)).produce pn s.my.act.sid o)
    else setState ((s.inject s.cur.1 p .sync pn s.my.act.sid (.semSig sem.toNat n)).publish (.packet s.fab.nextNum))
    pure .fall) s

def execSemset (g : Guard) (a : Reg) (sem : BitVec 8) (s : State) : Host.Outcome State Fault Refusal :=
  perform 8 Need.any g (do
    let w ← readS a
    modState fun s => (s.setSem s.cur.1 sem.toNat (bitsAt w.toNat 0 32)).unpoison (s.partNo s.cur.1)
      ⟨.sem, s.cur.1, sem.toNat⟩
    pure .fall) s

def execSemget (g : Guard) (d : Reg) (sem : BitVec 8) (s : State) : Host.Outcome State Fault Refusal :=
  perform 8 Need.any g (do
    let s ← getState
    writeS d (BitVec.ofNat 64 (s.sem s.cur.1 sem.toNat))
    setW (s.wOrPois ⟨.sem, s.cur.1, sem.toNat⟩)
    pure .fall) s

/-- A remote signal reaches its semaphore. -/
def execSemRemoteSignal (src dst : Place) (s : State) : Host.Outcome State Fault Refusal :=
  match s.nextPacket src dst .sync with
  | none => .next s
  | some k =>
    match k.body with
    | .semSig i n =>
      let o : ObjRef := ⟨.sem, dst, i⟩
      .next ((((s.dropPacket k.num).signal dst i n).movePub (.packet k.num) (.obj o)).produce k.part k.sid o)
    | _ => .next s

end Sys2Proof.Machine
end

