-- ==== Sys2Proof/Machine/Holds.lean ====
section
/-! DEFINITION. The hold and time instructions (14 R204 to R209). -/

namespace Sys2Proof.Machine

/-- A supervisor instruction. -/
def Need.supervisor : Need := ⟨fun _ => true, .supervisor, 0⟩

/-! ## `declare` (R205) -/

/-- The number of objects of a kind (07 R99). -/
def ObjKind.count : ObjKind → Nat
  | .sem => 256
  | .lb | .mbx => 64
  | _ => 16

/-- The checks of an entry in a register. -/
def checkEntry (e : Lane) : M ObjRef := do
  let s ← getState
  match entryObj s.cur.1 e with
  | none => trapOpen .windowBounds
  | some o =>
    if bitsAt e.toNat 8 3 != 0 then trapOpen .windowBounds
    if !(s.partOf s.cur.1).hasCore o.place then trapOpen .permission
    trapIf (decide (o.kind.count ≤ o.index)) .windowBounds (BitVec.ofNat 64 o.index)
    pure o

def execDeclare (g : Guard) (a : Reg) (s : State) : Host.Outcome State Fault Refusal :=
  perform 8 Need.any g (do
    let w ← readS a
    let o ← checkEntry (w.extractLsb' 0 32)
    let s ← getState
    if !(s.produceSet s.cur.1).contains o then
      trapIf (decide (16 ≤ s.my.act.declared.length)) .queueMisuse 16
      setState (s.modMy fun t => { t with act := { t.act with declared := t.act.declared ++ [o] } })
    pure .fall) s

/-! ## `hold` and `holdx` (R206) -/

/-- HOLDST.STAT of a strand. -/
def State.setStat (s : State) (st : BitVec 4) : State :=
  s.modMy fun t => { t with csr := { t.csr with holdst := { t.csr.holdst with stat := st } } }

/-- The strand is parked past its `hold`, with STAT 0x1; with no free slot `hold` completes with STAT 0x2. -/
def holdBody : M Next := fun s =>
  match ((s.setStat 1).retire 8 .fall).holdRoot s.cur.1 with
  | some (s', _) => .error (.own s')
  | none => .ok (.fall, s.setStat 2)

def execHold (g : Guard) (s : State) : Host.Outcome State Fault Refusal := perform 8 Need.any g holdBody s

/-- A question to another part of the module: its answer is the one kept, if any; it is put once. -/
def ask (put : State → Nat → State) : M Answer := fun s =>
  match s.seq.kept[s.seq.used]? with
  | some ans => takeAnswer none ans (s.modSeq fun c => { c with used := c.used + 1 })
  | none =>
    if s.seq.out.isSome then .error (waitAnswer s)
    else
      let n := s.fab.nextNum
      .error (waitAnswer (put (s.nextNumber.modSeq fun c => { c with out := some n }) n))

/-- The `holdx` is left with the strand on a core, behind others that wait for it, which applies it at its boundaries,
or answered NONE. -/
def State.askHoldx (s : State) (p : Place) (num : Nat) : State :=
  if (s.core p).running then s.modStrand p fun t => { t with act := { t.act with holdReq := t.act.holdReq ++ [(s.cur.1, num)] } }
  else s.receive s.cur.1 num (.word 0x10000 true)

def execHoldx (g : Guard) (d a : Reg) (s : State) : Host.Outcome State Fault Refusal :=
  perform 8 Need.supervisor g (do
    let w ← readS a
    let p ← corePlace w
    let s ← getState
    if !(s.partOf s.cur.1).hasCore p then trapOpen .permission
    let ans ← ask (fun s n => s.askHoldx p n)
    writeS d (BitVec.ofNat 64 ans.num)
    pure .fall) s

/-! ## `rel` (R207) -/

/-- The parked strand that owns a held root, if an id names one. -/
def Part.heldRoot (t : Part) (id : Nat) : Option Parked :=
  match t.holdOf id with
  | some h => if h.root && h.phase == .held then t.parked.find? fun k => k.hold == id && !k.shares else none
  | none => none

/-- The root becomes ready to resume (03 R62 step 1). -/
def Part.releaseRoot (t : Part) (id : Nat) : Part :=
  let order := 1 + (t.parked.map (·.order)).foldl max 0
  { t with
    parked := t.parked.map fun k => if k.hold = id ∧ !k.shares then { k with ready := true, order := order } else k
    holds := Table.set t.holds (holdSlot id) { t.hold (holdSlot id) with phase := .ready } }

/-- A parked strand ended (03 R63): what it still marks becomes poisoned, and its end has the effects of `end`. -/
def State.endParked (s : State) (pn : Nat) (k : Parked) (fault : Bool) : State :=
  let s := s.poisonMarks pn k.st.act.sid
  let s := s.modPart pn fun t => { t with parked := t.parked.filter fun j => j.st.act.sid != k.st.act.sid }
  s.afterEnd k.place { k.st with act := { k.st.act with
    held := k.st.act.held + (if k.hold = 0 then 0 else s.tick - k.since) } } fault

def relBody (d a : Reg) (fin : Bool) : M Next := do
  let w ← readS a
  let s ← getState
  let pn := s.partNo s.cur.1
  let id := bitsAt w.toNat 0 16
  match (s.part pn).heldRoot id with
  | none => writeS d 1
  | some k =>
    setState (if fin then s.endParked pn k false else s.modPart pn fun t => t.releaseRoot id)
    writeS d 0
  pure .fall

def execRel (g : Guard) (d a : Reg) (s : State) : Host.Outcome State Fault Refusal :=
  perform 8 Need.supervisor g (relBody d a false) s

def execRelEnd (g : Guard) (d a : Reg) (s : State) : Host.Outcome State Fault Refusal :=
  perform 8 Need.supervisor g (relBody d a true) s

/-! ## `holdst` (R208) -/

def HoldPhase.code : HoldPhase → Nat
  | .free => 0
  | .held => 1
  | .ready => 2
  | .running => 3
  | .poison => 4

/-- The hold-table word of an id. -/
def Part.holdWord (t : Part) (id : Nat) : Word :=
  match t.holdOf id with
  | none => 0
  | some h =>
    BitVec.ofNat 64 ((if h.root then 0 else h.parent) * 2 ^ 48 + id * 2 ^ 32 + h.place * 2 ^ 16 + h.phase.code)

def execHoldst (g : Guard) (d a : Reg) (s : State) : Host.Outcome State Fault Refusal :=
  perform 8 Need.any g (do
    let w ← readS a
    let s ← getState
    writeS d ((s.partOf s.cur.1).holdWord (bitsAt w.toNat 0 16))
    pure .fall) s

/-- The mark word of an object. -/
def State.markWord (s : State) (pn : Nat) (o : ObjRef) : Word :=
  BitVec.ofNat 64 (s.markId pn o * 2 ^ 32 + b2n (s.poisoned pn o) * 2 + b2n (s.withheld pn o))

def execHoldstObj (g : Guard) (d a : Reg) (s : State) : Host.Outcome State Fault Refusal :=
  perform 8 Need.any g (do
    let w ← readS a
    let o ← checkEntry (w.extractLsb' 0 32)
    let s ← getState
    writeS d (s.markWord (s.partNo s.cur.1) o)
    setW (s.wOrPois o)
    pure .fall) s

/-! ## `dline` (R209) -/

/-- DEADLINE takes a value: the strand's deadline, which has not passed yet. -/
def State.setDeadline (s : State) (w : Word) : State :=
  s.modMy fun t => { t with csr := { t.csr with deadline := w }, act := { t.act with dlPassed := false } }

def execDline (g : Guard) (a : Reg) (s : State) : Host.Outcome State Fault Refusal :=
  perform 8 Need.any g (do
    let w ← readS a
    modState fun s => s.setDeadline w
    pure .fall) s

def execDlineRel (g : Guard) (a : Reg) (s : State) : Host.Outcome State Fault Refusal :=
  perform 8 Need.any g (do
    let w ← readS a
    modState fun s => s.setDeadline (BitVec.ofNat 64 (min (s.tick + w.toNat) (2 ^ 64 - 1)))
    pure .fall) s

end Sys2Proof.Machine
end

