-- ==== Sys2Proof/Machine/Stages.lean ====
section
/-! DEFINITION. The pipeline stage and stash instructions (20 R286 to R291). -/

namespace Sys2Proof.Machine

def Stage.reset : Stage := ⟨0, 0, 0, 0, [], 0, 0, 0, false⟩

/-- The stage that a core is a member of. -/
def Part.stageOf (t : Part) (p : Place) : Option Nat := (t.stages.find? fun e => e.2.pool.contains p).map (·.1)

/-! ## `stgdecl` (R287) -/

/-- The distributor's answer to a declaration, with the table after it. -/
def Part.declareStage (t : Part) (p : Place) (id : Nat) (home pipe lo hi : Nat) : Part × Nat :=
  let mine := t.stageOf p
  if mine.isSome && mine != some id then (t, 3)
  else
    match Table.find t.stages id with
    | none =>
      if p = home then ({ t with stages := Table.set t.stages id ⟨home, pipe, lo, hi, [p], 0, 0, 0, false⟩ }, 0)
      else (t, 4)
    | some g =>
      if mine = some id then (t, 1)
      else if g.home != home || g.pipe != pipe || g.lo != lo || g.hi != hi then (t, 2)
      else if hi ≤ g.pool.length then (t, 5)
      else ({ t with stages := Table.set t.stages id { g with pool := g.pool ++ [p] } }, 1)

def stgdeclBody (d a : Reg) (stage : Nat) : M Next := do
  let w ← readS a
  trapIf (w.toNat % 16 != 0) .windowBounds w
  let n ← readBlock w.toNat 16
  let home := bitsAt n 0 16
  let lo := bitsAt n 32 16
  let hi := bitsAt n 48 16
  trapIf (bitsAt n 64 64 != 0 || bitsAt n 20 12 != 0 || lo == 0 || decide (hi < lo)) .windowBounds w
  let _ ← corePlace (BitVec.ofNat 64 home)
  let s ← getState
  if !(s.partOf s.cur.1).hasCore home then trapOpen .permission
  let r := (s.partOf s.cur.1).declareStage s.cur.1 stage home (bitsAt n 16 4) lo hi
  setState (s.modPart (s.partNo s.cur.1) fun _ => r.1)
  writeS d (BitVec.ofNat 64 r.2)
  pure .fall

def execStgdecl (g : Guard) (d a : Reg) (stage : BitVec 8) (s : State) : Host.Outcome State Fault Refusal :=
  perform 8 Need.any g (stgdeclBody d a stage.toNat) s

/-! ## `stgq` (R288) -/

/-- The mailbox may be a stage queue. -/
def State.queueOk (s : State) (p : Place) (m : Mbx) (stage bound : Nat) : Bool :=
  m.enabled && !m.gaussian && m.ahv && decide (bound ≤ m.depth)
    && ((s.descAt (s.partNo p) p m.aidx).map (·.stage)) == some stage

def stgqBody (mb stage bound : Nat) : M Next := do
  let s ← getState
  let p := s.cur.1
  let owns := (Table.find (s.partOf p).stages stage).map (·.home) == some p
  trapIf (!owns) .queueMisuse (BitVec.ofNat 64 stage)
  trapIf (!s.queueOk p (s.mbx p mb) stage bound) .windowBounds (BitVec.ofNat 64 mb)
  setState (s.setMbx p mb { s.mbx p mb with
    stage := some (stage, bound)
    refused := (s.mbx p mb).refused && (s.mbx p mb).stage.map (·.1) == some stage })
  pure .fall

def execStgq (g : Guard) (mb : Fin 64) (stage : BitVec 8) (bm1 : Fin 16) (s : State) :
    Host.Outcome State Fault Refusal :=
  perform 8 Need.any g (stgqBody mb.val stage.toNat (bm1.val + 1)) s

def execStgqClr (g : Guard) (mb : Fin 64) (s : State) : Host.Outcome State Fault Refusal :=
  perform 8 Need.any g (do
    modState fun s => s.setMbx s.cur.1 mb.val { s.mbx s.cur.1 mb.val with stage := none, refused := false }
    pure .fall) s

/-! ## Stashes (R283, R289, R290) -/

def State.setStash (s : State) (p : Place) (i : Nat) (t : Stash) : State :=
  s.modObjs p fun o => { o with stashes := Table.set o.stashes i t }

/-- A stash index lies below the partition's SCOUNT. -/
def checkStash (i : Nat) : M Unit := fun s =>
  if (s.partOf s.cur.1).attrs.scount ≤ i then trap .windowBounds (BitVec.ofNat 64 i) s else .ok ((), s)

/-- The lowest clear bit of the mask below CAP. -/
def Stash.freeSlot (t : Stash) : Option Nat := (List.range t.cap).find? fun i => !t.mask.getLsbD i

/-- The allocated slot at an address. -/
def Stash.slotAt (t : Stash) (a : Nat) : Option Nat :=
  if t.cap = 0 ∨ a < t.base ∨ (a - t.base) % t.slotb ≠ 0 ∨ t.cap ≤ (a - t.base) / t.slotb then none
  else if t.mask.getLsbD ((a - t.base) / t.slotb) then some ((a - t.base) / t.slotb) else none

def execStshal (g : Guard) (d : Reg) (ss : Fin 64) (s : State) : Host.Outcome State Fault Refusal :=
  perform 8 Need.any g (do
    checkStash ss.val
    let s ← getState
    let t := s.stash s.cur.1 ss.val
    match t.freeSlot with
    | some i =>
      setState (s.setStash s.cur.1 ss.val { t with mask := t.mask ||| BitVec.ofNat 64 (2 ^ i) })
      writeS d (BitVec.ofNat 64 (t.base + i * t.slotb))
    | none => writeS d Word.allOnes
    pure .fall) s

def execStshfr (g : Guard) (a : Reg) (ss : Fin 64) (s : State) : Host.Outcome State Fault Refusal :=
  perform 8 Need.any g (do
    checkStash ss.val
    let w ← readS a
    let s ← getState
    let t := s.stash s.cur.1 ss.val
    match t.slotAt w.toNat with
    | some i => setState (s.setStash s.cur.1 ss.val { t with mask := t.mask &&& ~~~ BitVec.ofNat 64 (2 ^ i) })
    | none => trap .queueMisuse w
    pure .fall) s

/-- A stash block is valid. -/
def stashOk (n : Nat) : Bool :=
  let cap := bitsAt n 64 7
  let slotb := bitsAt n 48 16
  let base := bitsAt n 0 32
  bitsAt n 71 57 == 0 && bitsAt n 33 15 == 0 && decide (1 ≤ cap) && decide (cap ≤ 64) && slotb % 64 == 0
    && decide (64 ≤ slotb) && decide (slotb ≤ 32768) && base % 64 == 0
    && decide (base + cap * slotb ≤ (if bitAt n 32 then 1048576 else reservedFrom))

def execStshfrInit (g : Guard) (a : Reg) (ss : Fin 64) (s : State) : Host.Outcome State Fault Refusal :=
  perform 8 Need.any g (do
    checkStash ss.val
    let w ← readS a
    trapIf (w.toNat % 16 != 0) .windowBounds w
    let n ← readBlock w.toNat 16
    trapIf (!stashOk n) .windowBounds w
    modState fun s => s.setStash s.cur.1 ss.val ⟨bitsAt n 0 32, bitAt n 32, bitsAt n 48 16, bitsAt n 64 7, 0⟩
    pure .fall) s

/-! ## `stgstat` (R291) -/

/-- The distributor's word on a stage. -/
def Part.stageWord (t : Part) (i : Nat) : Nat :=
  match Table.find t.stages i with
  | none => 0
  | some g =>
    g.pool.length % 2 ^ 16 * 2 ^ 48 + g.filled % 2 ^ 16 * 2 ^ 32 + g.bsum % 2 ^ 16 * 2 ^ 16 + g.gated % 256 * 256
      + g.pipe % 16 * 16 + b2n g.ref * 2 + 1

def execStgstat (g : Guard) (d : Reg) (stage : BitVec 8) (s : State) : Host.Outcome State Fault Refusal :=
  perform 8 Need.any g (do
    let s ← getState
    writeS d (BitVec.ofNat 64 ((s.partOf s.cur.1).stageWord stage.toNat))
    pure .fall) s

/-- The word on a stash. -/
def Stash.word (t : Stash) : Nat := b2n t.full * 2 ^ 16 + t.used * 2 ^ 8 + t.cap

def execStgstatStash (g : Guard) (d : Reg) (ss : Fin 64) (s : State) : Host.Outcome State Fault Refusal :=
  perform 8 Need.any g (do
    checkStash ss.val
    let s ← getState
    writeS d (BitVec.ofNat 64 (s.stash s.cur.1 ss.val).word)
    pure .fall) s

end Sys2Proof.Machine
end

