-- ==== Sys2Proof/Machine/Tasks.lean ====
section
/-! DEFINITION. The task and trigger instructions (14 R211 to R213, 03 R41, R44, R45, R48, R50). -/

namespace Sys2Proof.Machine

/-! ## `spawn` (03 R44, R45) -/

/-- The entry that the next spill takes: the one above the newest of the stack. -/
def Work.nextCell (w : Work) : Nat := (w.overflow.map (·.cell + 1)).foldl max 0

/-- The next spill of a core's deque meets a mapped, writable overflow area. -/
def State.overflowMapped (s : State) (p : Place) : Bool :=
  let t := s.partOf p
  match s.walk t.procs t.attrs.proc0 (Config.overflowAddr (s.partNo p) p (s.core p).work.nextCell) with
  | some l => l.w
  | none => false

/-- A TCB pushed on a core's deque; a full deque first spills its oldest. -/
def Work.push (w : Work) (t : Tcb) : Work :=
  if 32 ≤ w.deque.length then
    { w with overflow := w.overflow ++ (w.deque.take 1).map fun x => { x with cell := w.nextCell }
             deque := w.deque.drop 1 ++ [t] }
  else { w with deque := w.deque ++ [t] }

/-- The micro-kernel's refill: at 16 entries or fewer, the most recently spilled TCBs return to the oldest end until
the deque holds 24. -/
def Work.refill (w : Work) : Work :=
  if w.deque.length ≤ 16 ∧ w.overflow ≠ [] then
    let n := min (24 - w.deque.length) w.overflow.length
    { w with deque := w.overflow.drop (w.overflow.length - n) ++ w.deque, overflow := w.overflow.take (w.overflow.length - n) }
  else w

/-- The 64 bytes of a TCB (R44). -/
def Tcb.image (t : Tcb) : List Byte := (t.word0 :: t.payload ++ [t.wid]).flatMap fun w => leBytesOf 8 w.toNat

/-- A TCB with what 64 bytes of memory hold of it. -/
def Tcb.ofImage (t : Tcb) (bs : List Byte) : Tcb :=
  let word (k : Nat) : Word := BitVec.ofNat 64 (leOf ((bs.drop (8 * k)).take 8))
  { t with word0 := word 0, payload := (span 1 6).map word, wid := word 7 }

/-- The keys of an entry of a core's overflow stack, in partition memory under PROC0 (R45). -/
def State.overflowKeys (s : State) (p : Place) (k : Nat) : Option (List Nat) :=
  let t := s.partOf p
  let a := Config.overflowAddr (s.partNo p) p k
  match s.walk t.procs t.attrs.proc0 a with
  | some l => if l.r && l.w then allKeys ((span a 64).map (s.leafKey l p)) else none
  | none => none

/-- A TCB pushed on a core's deque: one that is spilled goes into partition memory. -/
def State.pushTcb (s : State) (p : Place) (t : Tcb) : State :=
  let w := (s.core p).work
  let s' := s.modWork p (·.push t)
  match w.deque with
  | old :: _ =>
    if 32 ≤ w.deque.length then
      match s.overflowKeys p w.nextCell with
      | some ks => { s' with mem := Memory.setAll s'.mem (ks.zip old.image) }
      | none => s'
    else s'
  | [] => s'

/-- The work of a core, the TCBs of its overflow stack as partition memory holds them. -/
def State.reread (s : State) (p : Place) : Work :=
  let w := (s.core p).work
  { w with overflow := w.overflow.map fun t =>
      match s.overflowKeys p t.cell with
      | some ks => t.ofImage (Memory.getAll s.mem ks)
      | none => t }

/-- The micro-kernel's refill from partition memory. -/
def State.refillDeque (s : State) (p : Place) : State :=
  s.modWork p fun w => if w.deque.length ≤ 16 then (s.reread p).refill else w

/-- The TCB of a `spawn`. -/
def mkTcb (w wid : Word) : M Tcb := fun s =>
  let t : Tcb :=
    { word0 := BitVec.ofNat 64 (bitsAt w.toNat 0 26 + s.my.act.lid % 2 ^ 16 * 2 ^ 26), payload := payloadOf s.seq,
      wid := wid, wfw := s.my.csr.wfw, src := s.cur.1, proc := s.my.csr.proc, born := s.tick, pass := 0, up := 0
      base := ((s.partOf s.cur.1).launch.map (·.prm.base.toNat)).getD 0, regions := []
      pub := s.given }
  .ok (t, s)

/-- The sequencer is stalled in `spawn` on its core's overflow area. -/
def Seq.spawnWait (c : Seq) : Option Wait := c.wait.filter fun w => w.why == .spawnStall

def spawnBody (a b : Reg) : M Next := do
  let s ← getState
  match s.seq.spawnWait with
  | some w => fun s => .error (.wait w (some s))
  | none =>
    let w ← readS a
    let wid ← readS b
    trapIf (bitsAt w.toNat 26 38 != 0) .windowBounds w
    drainSq
    release
    let t ← mkTcb w wid
    let s ← getState
    if 32 ≤ s.me.work.deque.length && !s.overflowMapped s.cur.1 then
      fun s => .error (.wait ⟨.spawnStall, 0, none, some (s.cur.1, .mgmt, .shipment 0 [t])⟩ (some s))
    else setState (s.pushTcb s.cur.1 t)
    pure .fall

def execSpawn (g : Guard) (a b : Reg) (s : State) : Host.Outcome State Fault Refusal :=
  perform 8 Need.any g (spawnBody a b) s

/-! ## `dist` (03 R48, R49) -/

/-- The faceplate's entry for a speed code. -/
def faceplate (base c : Nat) : Nat := (base * (208 + c) + 104) / 208

/-- The range that a core of code `c` is granted, and the launch after it. -/
def Launch.grant (l : Launch) (c : Nat) : Launch × Nat × Nat :=
  let t := l.prm.tiles.toNat
  let hi := min (l.n + faceplate l.prm.base.toNat c) t
  ({ l with n := hi }, min l.n t, hi)

/-- The distributor of the partition's launch serves the request; no launch has no distributor, and the answer is then
free. -/
def distBody (d : Reg) : M Next := do
  let s ← getState
  let pn := s.partNo s.cur.1
  match (s.part pn).launch with
  | some l =>
    let r := l.grant s.me.cur.val
    setState (s.modPart pn fun t => { t with launch := some r.1 })
    writeS d (BitVec.ofNat 64 (r.2.1 * 2 ^ 32 + r.2.2))
  | none =>
    let v ← fresh
    writeS d v
  pure .fall

def execDist (g : Guard) (d : Reg) (s : State) : Host.Outcome State Fault Refusal :=
  perform 8 Need.any g (distBody d) s

/-! ## `widx` (03 R41) -/

/-- The width of field `i` of a WFW word, and the bit its field starts at. -/
def widthField (w : Word) (i : Nat) : Nat := bitsAt w.toNat (6 * i) 6
def startField (w : Word) (i : Nat) : Nat := ((List.range i).map (widthField w)).sum

def execWidx (g : Guard) (d a : Reg) (fld : Fin 6) (s : State) : Host.Outcome State Fault Refusal :=
  perform 8 Need.any g (do
    let w ← readS a
    let s ← getState
    writeS d (BitVec.ofNat 64 (bitsAt w.toNat (startField s.my.csr.wfw fld.val) (widthField s.my.csr.wfw fld.val)))
    pure .fall) s

/-! ## Trigger counters (R213, 03 R50) -/

def State.trigger (s : State) (p : Place) (i : Nat) : Trig := Table.get Trig.reset (s.objs p).tcs i
def State.setTrigger (s : State) (p : Place) (i : Nat) (t : Trig) : State :=
  s.modObjs p fun o => { o with tcs := Table.set o.tcs i t }

/-- The words of an arm block. -/
def blockWord (n i : Nat) : Nat := bitsAt n (64 * i) 64

/-- A trigger armed. DESIGN CHOICE (log 130): an arm block that is not at a multiple of 64 raises WINDOW-BOUNDS, for which the
rule names no cause. -/
def trigBody (a : Reg) (tc : Nat) : M Next := do
  let w ← readS a
  if w.toNat % 64 != 0 then trapOpen .windowBounds
  drainSq
  let n ← readBlock w.toNat 64
  let s ← getState
  let h := blockWord n 0
  let k := blockWord n 1
  let place := bitsAt h 32 16
  if bitsAt h 16 16 == 0 || bitsAt h 48 16 != 0 || bitsAt k 26 38 != 0 || !(s.partOf s.cur.1).hasCore place then
    trapOpen .windowBounds
  release
  let s ← getState
  let t : Trig := ⟨true, BitVec.ofNat 16 h, bitsAt h 16 16, 0, place, BitVec.ofNat 64 k,
    (span 2 6).map fun i => BitVec.ofNat 64 (blockWord n i), s.my.act.lid⟩
  setState (((s.setTrigger s.cur.1 tc t).unpoison (s.partNo s.cur.1) ⟨.tc, s.cur.1, tc⟩).setPub (.obj ⟨.tc, s.cur.1, tc⟩)
    s.given)
  pure .fall

def execTrig (g : Guard) (a : Reg) (tc : Fin 16) (s : State) : Host.Outcome State Fault Refusal :=
  perform 8 Need.any g (trigBody a tc.val) s

def execTrigDisarm (g : Guard) (tc : Fin 16) (s : State) : Host.Outcome State Fault Refusal :=
  perform 8 Need.any g (do
    modState fun s => s.setTrigger s.cur.1 tc.val { s.trigger s.cur.1 tc.val with armed := false }
    pure .fall) s

def execTrigd (g : Guard) (a b : Reg) (s : State) : Host.Outcome State Fault Refusal :=
  perform 8 Need.any g (do
    let w ← readS a
    let p ← corePlace w
    let tag ← readS b
    drainSq
    release
    modState fun s =>
      (s.inject s.cur.1 p .sync (s.partNo s.cur.1) s.my.act.sid (.trigInc (tag.extractLsb' 0 16))).publish
        (.packet s.fab.nextNum)
    pure .fall) s

/-- The field widths of a partition's launch (03 R36). -/
def State.launchWfw (s : State) (pn : Nat) : Word :=
  match (s.part pn).launch with
  | some l => l.prm.wfw
  | none => 0

/-- The message that a counter sends (R213). -/
def Trig.msg (t : Trig) (p : Place) (tick : Nat) (wfw : Word) (proc : BitVec 16) : Msg :=
  let h := t.handler.toNat
  { hdr := mkHeader 0 false true false false (bitsAt h 24 2) (bitsAt h 16 8) (bitsAt h 0 16) p
    payload := t.payload, rr := routeWord tick 0 0, wid := 0, dl := 0, wfw := wfw, proc := proc, lid := t.lid,
    rnum := 0, pass := 0, up := 0 }

/-- A counter that an increment of a tag reaches: it counts, and at its threshold sends its message and disarms. -/
def State.count (s : State) (pn sid : Nat) (p : Place) (i : Nat) : State :=
  let t := s.trigger p i
  let s := s.produce pn sid ⟨.tc, p, i⟩
  if t.thr ≤ t.count + 1 then
    let m := t.msg p s.tick (s.launchWfw pn) (s.part pn).attrs.proc0
    let s := s.setTrigger p i { t with armed := false, count := t.count + 1 }
    (s.inject p t.target .amsg pn 0 (.tcMsg m i)).movePub (.obj ⟨.tc, p, i⟩) (.packet s.fab.nextNum)
  else s.setTrigger p i { t with count := t.count + 1 }

/-- The armed counters of a core that carry a tag. -/
def State.armedFor (s : State) (p : Place) (tag : BitVec 16) : List Nat :=
  ((s.objs p).tcs.filter fun e => e.2.armed && e.2.tag == tag).map (·.1)

/-- An increment reaches its core: each armed counter with its tag counts it; one that meets none is discarded. -/
def execTriggerIncrement (src dst : Place) (s : State) : Host.Outcome State Fault Refusal :=
  match s.nextPacket src dst .sync with
  | none => .next s
  | some k =>
    match k.body with
    | .trigInc tag =>
      let x := s.pubOf (.packet k.num)
      .next ((s.armedFor dst tag).foldl (fun s i => (s.addPub (.obj ⟨.tc, dst, i⟩) x).count k.part k.sid dst i)
        ((s.dropPacket k.num).setPub (.packet k.num) PubSet.none))
    | _ => .next s

end Sys2Proof.Machine
end

