-- ==== Sys2Proof/Machine/Arbiter.lean ====
section
/-! DEFINITION. The core's arbiter: its candidates and their order (03 R39, R40), activation (R36, 10 R159, 14 R219, 20
R281), resuming (R60 to R62), and the dispatch of stage queues (20 R282). -/

namespace Sys2Proof.Machine

/-! ## Candidates (R39) -/

/-- What a candidate is: a parked strand, a completion, an inbox entry, a mailbox, the newest TCB of the deque. -/
inductive Pick
  | resume (sid : Nat)
  | cpl (cmd : Nat)
  | inbox (order : Nat)
  | mbx (i : Nat)
  | deque
deriving DecidableEq, Repr

/-- A candidate: its class, pass count and age, and its place in R39's order within the class. -/
structure Cand where
  what : Pick
  cls : Nat
  pass : Nat
  tick : Nat
  order : Nat
  group : Nat
  key : List Nat
deriving DecidableEq, Repr

/-- What the arbiter compares: the class, the group, then the group's keys. -/
def Cand.rank (k : Cand) : List Nat :=
  k.cls :: (if 256 ≤ k.pass then [1, k.tick, k.order] else k.group :: k.key)

/-- Lexicographic order. -/
def natsLt : List Nat → List Nat → Bool
  | [], [] => false
  | [], _ :: _ => true
  | _ :: _, [] => false
  | a :: as, b :: bs => decide (a < b) || (a == b && natsLt as bs)

/-- The candidate that the arbiter takes. -/
def bestCand : List Cand → Option Cand
  | [] => none
  | k :: ks => some (ks.foldl (fun b x => if natsLt x.rank b.rank then x else b) k)

/-- A strand of the cluster is stalled in `spawn`, and an entry belongs to its launch (R45). -/
def State.spawnBlocks (s : State) (p : Place) (lid : Nat) : Bool :=
  (List.range 8).any fun k =>
    let c := s.core (p / 8 * 8 + k)
    c.spawnStalled && c.st.act.lid == lid

def Tcb.hidx (t : Tcb) : Nat := bitsAt t.word0.toNat 0 16
def Tcb.gen (t : Tcb) : Nat := bitsAt t.word0.toNat 16 8
def Tcb.prio (t : Tcb) : Nat := bitsAt t.word0.toNat 24 2
def Tcb.lid (t : Tcb) : Nat := bitsAt t.word0.toNat 26 16

/-- The work id of the launch that a core's own activations belong to. -/
def State.launchLid (s : State) (pn : Nat) : Nat :=
  match (s.part pn).launch with
  | some l => l.prm.lid.toNat
  | none => 0

def InEntry.cand (e : InEntry) : Cand :=
  ⟨.inbox e.order, hdrPrio e.msg.hdr - e.up, e.pass, e.tick, e.order, 4, [e.tick, 0, e.order]⟩

def CplEntry.cand (e : CplEntry) : Cand := ⟨.cpl e.cmd, 0, e.pass, e.tick, e.order, 4, [e.tick, 0, e.order]⟩

def Parked.cand (k : Parked) : Cand := ⟨.resume k.st.act.sid, 0, k.pass, k.since, k.order, 2, [k.order]⟩

def Tcb.cand (t : Tcb) : Cand := ⟨.deque, t.prio - t.up, t.pass, t.born, 0, 5, []⟩

/-- A mailbox is a candidate: its handler may be activated, a head is filled, its gate is open, and under RMODE 0b10 the
head reaches RTHR. -/
def State.mbxCand (s : State) (p : Place) (i : Nat) (m : Mbx) : Option Cand :=
  match s.mbxHandler p m, m.head with
  | some _, some (_, .filled tick order _ res _ _ _) =>
    if s.gated p m || !m.aboveThreshold res then none
    else if m.residual then
      some ⟨.mbx i, m.prio - m.up, m.pass, tick, order, 3, [2 ^ 32 - residualKey res, tick, i]⟩
    else some ⟨.mbx i, m.prio - m.up, m.pass, tick, order, 4, [tick, 1, i]⟩
  | _, _ => none

/-- The candidates of a core. -/
def State.candidates (s : State) (p : Place) : List Cand :=
  let c := s.core p
  let pn := s.partNo p
  let ours := s.spawnBlocks p (s.launchLid pn)
  ((s.part pn).parked.filter fun k => k.place == p && k.ready).map Parked.cand
    ++ (c.work.cplq.filter (·.ready)).map CplEntry.cand
    ++ (c.work.inbox.filter fun e => !s.spawnBlocks p e.msg.lid).map InEntry.cand
    ++ (if ours then [] else c.objs.mbs.filterMap fun e => s.mbxCand p e.1 e.2)
    ++ (match c.work.deque.getLast? with
        | some t => if s.spawnBlocks p t.lid then [] else [t.cand]
        | none => [])

/-! ## Pass counts (R40) -/

/-- A pass count and the classes moved up, after a choice of another candidate. -/
def passOver (cls pass up : Nat) : Nat × Nat :=
  if pass + 1 < 256 then (pass + 1, up) else if cls = 0 then (256, up) else (0, up + 1)

/-- The last element of a list changed. -/
def modLast {α : Type} (f : α → α) : List α → List α
  | [] => []
  | [a] => [f a]
  | a :: as => a :: modLast f as

/-- A candidate passed over. -/
def State.passCand (s : State) (p : Place) (k : Cand) : State :=
  match k.what with
  | .resume sid => s.modPart (s.partNo p) fun t => { t with
      parked := t.parked.map fun x => if x.st.act.sid = sid then { x with pass := (passOver 0 x.pass 0).1 } else x }
  | .cpl cmd => s.modWork p fun w => { w with
      cplq := w.cplq.map fun x => if x.cmd = cmd then { x with pass := (passOver 0 x.pass 0).1 } else x }
  | .inbox order => s.modWork p fun w => { w with
      inbox := w.inbox.map fun x =>
        let r := passOver k.cls x.pass x.up
        if x.order = order then { x with pass := r.1, up := r.2 } else x }
  | .mbx i =>
    let m := s.mbx p i
    let r := passOver k.cls m.pass m.up
    s.setMbx p i { m with pass := r.1, up := r.2 }
  | .deque => s.modWork p fun w => { w with
      deque := modLast (fun x =>
        let r := passOver k.cls x.pass x.up
        { x with pass := r.1, up := r.2 }) w.deque }

/-- Every other candidate of the chosen one's class or a higher-numbered one is passed over. -/
def State.passOthers (s : State) (p : Place) (ks : List Cand) (k : Cand) : State :=
  (ks.filter fun x => x.what != k.what && decide (k.cls ≤ x.cls)).foldl (fun s x => s.passCand p x) s

/-! ## Starting a strand (R36) -/

/-- What a new strand is given. -/
structure Start where
  hdr : Word
  payload : List Word
  wid : Word
  wfw : Word
  proc : BitVec 16
  lid : Nat
  deadline : Word
  xid : BitVec 32
  owed : Option Owed
deriving DecidableEq, Repr

/-- s1 to s6 hold the payload, s7 the header, s8 the work id. -/
def Start.regs (x : Start) : Vector Word 64 :=
  let base := ((Vector.replicate 64 (0 : Word)).set 7 x.hdr).set 8 x.wid
  (List.finRange 6).foldl (fun v i => v.set (i.val + 1) (x.payload.getD i.val 0) (by omega)) base

/-- A sequencer at its entry point, if its part is present. -/
def Start.seq (x : Start) (present : Bool) (entry : Nat) : Seq :=
  if present then { Seq.reset with present := true, ended := false, pc := entry, s := x.regs } else Seq.reset

/-- The tick of a send, from the low bits that a route-and-reply word holds: the most recent tick with them. -/
def sendTick (now : Nat) (rr : Word) : Nat :=
  let base := now - now % 2 ^ 32
  let t := base + bitsAt rr.toNat 32 32
  if t ≤ now then t else t - 2 ^ 32

/-- The deadline of a message's activation: a root's DL, or the one that DLREL gives where DLINH is 1. -/
def Desc.deadline (d : Desc) (now : Nat) (m : Msg) : Word :=
  if m.hdr.getLsbD 45 then m.dl
  else
    let rel := bitsAt m.hdr.toNat 48 16
    if d.dlinh && rel != 0 then BitVec.ofNat 64 (min (sendTick now m.rr + 64 * rel) (2 ^ 64 - 1)) else 0

/-- The reply that a message's strand owes. -/
def Msg.owes (m : Msg) : Option Owed :=
  if hdrRw m.hdr then some ⟨hdrSrc m.hdr, bitsAt m.rr.toNat 14 6, m.rnum⟩ else none

/-- The strand as activation leaves it. -/
def Start.strand (x : Start) (s : State) (d : Desc) (budget : Nat) (plist : List ObjRef) : Strand :=
  { Strand.reset with
    act := { Act.reset with
      sid := s.nextSid, hidx := hdrHidx x.hdr, freq := d.freq, lid := x.lid, plist := plist, owed := x.owed, t0 := s.tick }
    as := x.seq d.asv d.asent
    xs := x.seq d.xsv d.xsent
    csr := { Csrs.reset with
      hid := x.hdr, wid := x.wid, wfw := x.wfw, proc := x.proc, xferid := x.xid, deadline := x.deadline
      budget := BitVec.ofNat 16 budget, left := BitVec.ofNat 16 budget } }

/-- Entries of a produce list that are skipped are logged (R55). -/
def State.logEntries (s : State) (p : Place) (es : List Lane) : State :=
  es.foldl (fun s e => s.log (.badProduce p e)) s

/-- A handler's strand starts on a core, at its own speed code from now on. -/
def State.start (s : State) (p : Place) (d : Desc) (x : Start) : State :=
  let pn := s.partNo p
  let t := s.part pn
  let es := s.produceList pn p d
  let s := s.logEntries p (es.filter fun e => !t.entryOk p e)
  let objs := (es.filter (t.entryOk p)).filterMap (entryObj p)
  let budget := if d.wdogo = 0 then t.attrs.wdogDef else d.wdogo
  let st := x.strand s d budget objs.eraseDups
  let s := s.modCore p fun c => ({ c with running := true, st := st, interval := 0 } : Core).adopt s.gov.g.val
  { s with nextSid := s.nextSid + 1 }

/-! ## Activating each kind of candidate -/

/-- A strand at supervisor or management level on an idle core (22 R292): a handler of the micro-kernel, or one of the
management table that a MGMT packet of the housekeeping kernel activates. Its payload stands in the level's own
registers. A core of no partition starts none (R312), nor does one whose cluster is under test (R314) or activates nothing
more (R315). -/
def State.startFirmware (s : State) (p : Place) (mgmt : Bool) (n : Nat) (payload : List Word) : State :=
  let c := s.core p
  let (a, x) := Config.firmwareHandler mgmt n
  let k := s.clus (p / 8)
  if c.running || c.testing || k.testing || k.stopped || c.part.isNone || (a.isNone && x.isNone) then s
  else
    let hdr := mkHeader 0 false false false false 0 0 n p
    let x0 : Start := ⟨hdr, payload, 0, 0, 0, 0, 0, 0, none⟩
    let part (e : Option Nat) : Seq :=
      match e with
      | some pc => { Seq.reset with
          present := true, ended := false, pc := pc, level := if mgmt then .management else .supervisor, sups := x0.regs }
      | none => Seq.reset
    let budget := BitVec.ofNat 16 (s.partOf p).attrs.wdogDef
    let st : Strand := { Strand.reset with
      act := { Act.reset with sid := s.nextSid, hidx := n, t0 := s.tick }
      as := part a
      xs := part x
      csr := { Csrs.reset with hid := hdr, budget := budget, left := budget } }
    let s := s.modCore p fun c => ({ c with running := true, st := st, interval := 0 } : Core).adopt s.gov.g.val
    { s with nextSid := s.nextSid + 1 }

/-- STALE on REPLY to a message's sender (R35). -/
def State.sendStale (s : State) (p : Place) (e : InEntry) : State :=
  s.answerTo ⟨e.num, e.sender, p, .reply, s.partNo p, 0, s.tick, .answer .as (.msg 2 0), false, 0, Way.done⟩ .as (.msg 2 0)

/-- An inbox entry: discarded where its handler no longer is one, forwarded where a retired feature is needed and
another core has it (R35, 22 R315), and activated otherwise. -/
def State.activateInbox (s : State) (p : Place) (e : InEntry) : State :=
  let pn := s.partNo p
  let s := s.modWork p fun w => { w with inbox := w.inbox.filter fun x => x.order != e.order }
  let m := e.msg
  match s.handler pn p (hdrHidx m.hdr) (hdrGen m.hdr) with
  | none => (s.logDesc pn p (hdrHidx m.hdr)).sendStale p e
  | some d =>
    let away := if meets (s.core p).feat d.freq then none else s.nearest p d.freq
    match away with
    | some q => s.inject p q .amsg pn 0 (.active { m with pass := e.pass, up := e.up } none (some (e.sender, e.num)))
    | none =>
      (s.movePub (.packet e.num) (.strand s.nextSid)).start p d
        ⟨m.hdr, m.payload, m.wid, m.wfw, m.proc, m.lid, d.deadline s.tick m, m.xid, m.owes⟩

/-- What the strand of a completion receives (14 R219). -/
def Cmd.completion (c : Cmd) (stat pass : Nat) : Msg :=
  let n := leOf c.blk
  { hdr := mkHeader 0 false false false false 0 (bitsAt n 48 8) (bitsAt n 32 16) c.eng.place.toNat
    payload := [BitVec.ofNat 64 stat, BitVec.ofNat 64 (n % 2 ^ 32), BitVec.ofNat 64 (c.eng.pblk.toNat * 16), 0, 0, 0]
    rr := 0, wid := c.wid, dl := 0, wfw := c.wfw, proc := c.proc, lid := c.lid, rnum := 0, pass := pass, up := 0
    xid := BitVec.ofNat 32 n }

/-- A completion (14 R219): its handler is checked as an active message's is, and where the core lacks a feature of it the
completion goes on as a message to the nearest core that has it. DESIGN CHOICE (log 110): where no core has it, the entry is
discarded; there is no sender to deny. -/
def State.activateCpl (s : State) (p : Place) (e : CplEntry) : State :=
  let pn := s.partNo p
  let s := s.modWork p fun w => { w with cplq := w.cplq.filter fun x => x.cmd != e.cmd }
  match s.cmd e.cmd with
  | none => s
  | some c =>
    let m := c.completion e.stat e.pass
    match s.handler pn p (hdrHidx m.hdr) (hdrGen m.hdr) with
    | none => s.logDesc pn p (hdrHidx m.hdr)
    | some d =>
      if meets (s.core p).feat d.freq then
        (s.movePub (.done c.id) (.strand s.nextSid)).start p d
          ⟨m.hdr, m.payload, m.wid, m.wfw, m.proc, m.lid, 0, m.xid, none⟩
      else
        match s.nearest p d.freq with
        | some q => (s.inject p q .amsg pn c.sid (.active m none none)).movePub (.done c.id) (.packet s.fab.nextNum)
        | none => s

/-- The payload words of a slot. -/
def State.slotPayload (s : State) (p : Place) (off : Nat) : List Word :=
  (List.range 6).map fun k => BitVec.ofNat 64 (leOf (Memory.getAll s.mem (span (Key.cp p (off + 8 * k)) 8)))

/-- A mailbox: its head is taken; a stage queue's strand receives the slot's payload (20 R281), any other the mailbox
index and the slot's offset (10 R159). -/
def State.activateMbx (s : State) (p : Place) (i : Nat) : State :=
  let pn := s.partNo p
  let m := s.mbx p i
  match s.mbxHandler p m, m.head with
  | some d, some (k, .filled _ o src _ _ _ _) =>
    let s := s.movePub (.deposit o) (.strand s.nextSid)
    let off := m.offset k
    let payload :=
      if m.stage.isSome then s.slotPayload p off else [BitVec.ofNat 64 i, BitVec.ofNat 64 off, 0, 0, 0, 0]
    let s := s.setMbx p i { m.take k with pass := 0, up := 0 }
    s.start p d ⟨mkHeader 0 false false false false m.prio m.agen m.aidx src, payload, 0, s.launchWfw pn,
      (s.part pn).attrs.proc0, s.launchLid pn, 0, 0, none⟩
  | _, _ => s.logMbx p i

/-- The newest TCB of the deque (R44), after which the micro-kernel refills the deque (R45). -/
def State.activateTcb (s : State) (p : Place) : State :=
  let pn := s.partNo p
  match (s.core p).work.deque.getLast? with
  | none => s
  | some t =>
    let s := (s.modWork p fun w => { w with deque := w.deque.dropLast }).refillDeque p
    match s.handler pn p t.hidx t.gen with
    | none => (s.logDesc pn p t.hidx).log (.badTcb p t.word0)
    | some d =>
      (s.addPub (.strand s.nextSid) t.pub).start p d ⟨mkHeader 0 false false false true t.prio t.gen t.hidx t.src, t.payload, t.wid, t.wfw, t.proc, t.lid,
        0, 0, none⟩

/-- The strand as it resumes: HOLDST says how, a deadline that passed meanwhile makes its record, and held ticks do not
count in its length (R38, R61). -/
def Parked.resumed (k : Parked) (poisoned : Bool) (now : Nat) : Strand :=
  let t := k.st
  let heldOne := k.hold != 0
  let h := t.csr.holdst
  let t := { t with
    act := { t.act with held := t.act.held + (if heldOne then now - k.since else 0) }
    csr := { t.csr with holdst := { h with rsm := h.rsm || heldOne, pois := if heldOne then poisoned else h.pois } } }
  if heldOne && t.csr.deadline != 0 && decide (t.csr.deadline.toNat ≤ now) && !t.act.dlPassed then t.missed now else t

/-- A parked strand held anew as a root, for a debugger (22 R298); none where no slot is free. -/
def State.holdParked (s : State) (pn : Nat) (k : Parked) : Option State :=
  (s.part pn).freeSlot.map fun slot =>
    let h := (s.part pn).hold slot
    let id := h.use * 4096 + slot
    let t := { k.st with csr := { k.st.csr with holdst := { k.st.csr.holdst with holdid := BitVec.ofNat 16 id } } }
    s.modPart pn fun w => { w with
      holds := Table.set w.holds slot ⟨h.use, .held, 0, true, k.place, k.st.act.sid⟩
      parked := w.parked.map fun x => if x.st.act.sid = k.st.act.sid then
        { x with st := t, hold := id, shares := false, parent := 0, depth := 0, awaits := [], ready := false } else x }

/-- A parked strand resumes on its core, in a new interval (16 R236); one that needs a feature which the core has lost is moved first, or ended where
no core has it (22 R298 row 0x06, R315). -/
def State.resume (s : State) (p : Place) (k : Parked) : State :=
  let pn := s.partNo p
  if !meets (s.core p).feat k.st.act.freq then
    match s.nearest p k.st.act.freq with
    | some q => s.modPart pn fun t => { t with
        parked := t.parked.map fun x => if x.st.act.sid = k.st.act.sid then { x with place := q } else x }
    | none =>
      let done := (s.log (.ended p k.st.act.sid .featureAbsent k.st.act.dlmiss)).endParked pn k true
      if (s.part pn).attrs.debugHold then (s.holdParked pn k).getD done else done
  else
    let pois := k.awaits.any fun o => s.poisoned pn o
    let s := s.modPart pn fun t => { t with
      parked := t.parked.filter fun x => x.st.act.sid != k.st.act.sid
      holds := if k.hold = 0 ∨ k.shares then t.holds
        else Table.set t.holds (holdSlot k.hold) { t.hold (holdSlot k.hold) with phase := .running } }
    (s.modCore p fun c => ({ c with running := true, st := k.resumed pois s.tick } : Core).adopt s.gov.g.val).closeInterval p

/-- The chosen candidate activated. -/
def State.activate (s : State) (p : Place) (k : Cand) : State :=
  match k.what with
  | .resume sid =>
    match (s.partOf p).parked.find? fun x => x.st.act.sid == sid with
    | some x => s.resume p x
    | none => s
  | .cpl cmd =>
    match (s.core p).work.cplq.find? fun x => x.cmd == cmd with
    | some x => s.activateCpl p x
    | none => s
  | .inbox order =>
    match (s.core p).work.inbox.find? fun x => x.order == order with
    | some x => s.activateInbox p x
    | none => s
  | .mbx i => s.activateMbx p i
  | .deque => s.activateTcb p

/-- Completion steps that a restore has still to deliver at a core (14 R221). -/
def State.stepsOwed (s : State) (p : Place) : Bool :=
  s.cmds.any fun c => c.issuer == p && c.owed && c.phase != .done

/-- The core's arbiter may choose: it is a core of a partition that activates its tenant's candidates, it has no
strand, and a restore owes it no completion (R39, 14 R221, 22 R302, R314, R315). -/
def State.mayActivate (s : State) (p : Place) : Bool :=
  let c := s.core p
  let t := s.partOf p
  c.part.isSome && !c.running && !c.testing && !(s.clus (p / 8)).testing && !(s.clus (p / 8)).stopped
    && !t.dead && !t.switching && !t.launch.any (·.translation) && !s.stepsOwed p

/-- The handler boundary of an idle core: a mailbox whose handler cannot be activated is logged; the best candidate is
activated, and the others are passed over. -/
def execActivation (p : Place) (s : State) : Host.Outcome State Fault Refusal :=
  if !s.mayActivate p then .next s
  else
    let s := (s.objs p).mbs.foldl (fun s e => s.logMbx p e.1) s
    let ks := s.candidates p
    match bestCand ks with
    | none => .next s
    | some k => .next ((s.passOthers p ks k).activate p k)

/-! ## Dispatch of a stage queue's head (20 R282) -/

/-- A member that may take a dispatch: idle, with no candidate. -/
def State.freeMember (s : State) (p : Place) : Bool := s.mayActivate p && (s.candidates p).isEmpty

/-- The nearest of some places, the lower one among equals. -/
def nearestOf (p : Place) : List Place → Option Place
  | [] => none
  | q :: qs =>
    some (qs.foldl (fun b x => if hops p x < hops p b || (hops p x == hops p b && decide (x < b)) then x else b) q)

/-- The member that a home's arbiter dispatches a stage's head to. -/
def State.dispatchTo (s : State) (home : Place) (stage : Nat) : Option Place :=
  match Table.find (s.partOf home).stages stage with
  | some g => if g.home = home then nearestOf home (g.pool.filter fun q => q != home && s.freeMember q) else none
  | none => none

/-- The head's slot is in flight, and the message that carries it leaves. -/
def State.dispatch (s : State) (home : Place) (mb : Nat) (m : Mbx) (k : Nat) (x : Slot) (q : Place) : State :=
  match x with
  | .filled t o src r v n _ =>
    let pn := s.partNo home
    let msg : Msg :=
      { hdr := mkHeader 0 false false false false m.prio m.agen m.aidx src
        payload := s.slotPayload home (m.offset k), rr := routeWord s.tick 0 0, wid := 0, dl := 0, wfw := s.launchWfw pn
        proc := (s.part pn).attrs.proc0, lid := s.launchLid pn, rnum := 0, pass := 0, up := 0 }
    ((s.setMbx home mb (m.putSlot k (.filled t o src r v n true))).inject home q .amsg pn 0
      (.dispatch msg home mb k o)).movePub (.deposit o) (.packet s.fab.nextNum)
  | _ => s

def execStageDispatch (home : Place) (mb : Fin 64) (member : Place) (s : State) : Host.Outcome State Fault Refusal :=
  let m := s.mbx home mb.val
  match m.stage, m.head with
  | some (stage, _), some (k, x) =>
    if (s.core home).running && (s.mbxCand home mb.val m).isSome && s.dispatchTo home stage == some member then
      .next (s.dispatch home mb.val m k x member)
    else .next s
  | _, _ => .next s

end Sys2Proof.Machine
end

