-- ==== Sys2Proof/Machine/System.lean ====
section
/-! DEFINITION. The system instructions (22 R317 to R321) and the control registers they reach (07 R100, R101, R103). -/

namespace Sys2Proof.Machine

/-! ## `trap` and `eret` (R318) -/

/-- `trap` completes, and then raises BREAK. -/
def execTrap (g : Guard) (code : BitVec 24) (s : State) : Host.Outcome State Fault Refusal :=
  perform 8 Need.any g
    (fun s => .error (.own ((s.retire 8 .fall).trapTo s.cur.1 s.cur.2 .brk (code.setWidth 64)))) s

/-- The level that CAUSE.PPRV names. -/
def Csrs.priorLevel (r : Csrs) : Level := if r.cause.pprv then .supervisor else .user

def eretBody : M Next := fun s =>
  let r := s.my.csr
  let t := r.epcOf s.cur.2
  if s.seq.level = .user then trap .privileged 0 s
  else if t % 4 ≠ 0 then trap .misalignedTarget (BitVec.ofNat 64 t) s
  else if s.regionSize s.cur.1 r.priorLevel ≤ t then trap .windowBounds (BitVec.ofNat 64 t) s
  else .error (.own (s.comeBack s.cur.1 s.cur.2 r.priorLevel t))

/-- At user level PRIVILEGED is raised before the guard is looked at, with TVAL 0. -/
def execEret (g : Guard) (s : State) : Host.Outcome State Fault Refusal :=
  if s.seq.level = .user then .next (s.takeTrap .privileged (some 0) .none) else perform 8 Need.supervisor g eretBody s

/-! ## Control registers (07 R100, R101) -/

/-- The access column allows an access at a level: only a dash denies one. -/
def csrAllowed (n : Csr) (l : Level) : Bool :=
  match n with
  | .stvec => l != .user
  | _ => true

/-- A write acts at a level; one of a register that is RO there is discarded (00 R6). -/
def csrWritable (n : Csr) (l : Level) : Bool :=
  match n with
  | .fpstat | .fpmode | .deadline | .icinv | .utvec | .utmask => true
  | .lostcnt | .cause | .epc | .tval | .stvec => l != .user
  | .hid | .wid | .wfw | .self | .part | .speed | .feat | .xferid | .holdst | .wdog => false

def HoldSt.word (h : HoldSt) : Word :=
  BitVec.ofNat 64 (h.late.toNat * 2 ^ 32 + h.holdid.toNat * 2 ^ 16 + h.stat.toNat * 16 + b2n h.pois * 8 + b2n h.w * 4
    + b2n h.rsm * 2 + b2n h.dlmiss)

def CauseReg.word (c : CauseReg) : Word :=
  BitVec.ofNat 64 (b2n c.pprv * 2 ^ 10 + b2n c.udel * 2 ^ 9 + b2n c.seq * 2 ^ 8 + c.code.toNat)

def CauseReg.ofWord (w : Word) : CauseReg :=
  ⟨w.getLsbD 10, w.getLsbD 9, w.getLsbD 8, w.extractLsb' 0 8⟩

/-- The core whose registers a read finds: as it stood before a write of the other sequencer in the same cycle. -/
def State.csrCore (s : State) : Core :=
  match s.cycle with
  | some (p, c) => if p = s.cur.1 then c else s.me
  | none => s.me

/-- A control register as the sequencer's strand and core read it. -/
def State.readCsr (s : State) (n : Csr) : Word :=
  let me := s.csrCore
  let r := me.st.csr
  match n with
  | .hid => r.hid
  | .wid => r.wid
  | .wfw => r.wfw
  | .self => BitVec.ofNat 64 s.cur.1
  | .part => BitVec.ofNat 64 (r.proc.toNat * 2 ^ 32 + (s.partOf s.cur.1).tenant % 256 * 2 ^ 24 + s.partNo s.cur.1)
  | .speed => BitVec.ofNat 64 me.speedEntry
  | .feat => me.feat.setWidth 64
  | .fpstat => r.fpstat.setWidth 64
  | .fpmode => r.fpmode.setWidth 64
  | .xferid => r.xferid.setWidth 64
  | .holdst => r.holdst.word
  | .deadline => r.deadline
  | .wdog => BitVec.ofNat 64 (r.left.toNat * 2 ^ 16 + r.budget.toNat)
  | .lostcnt => me.lost.setWidth 64
  | .icinv => 0
  | .utvec => r.utvec
  | .utmask => r.utmask
  | .cause => r.cause.word
  | .epc => BitVec.ofNat 64 (r.xpc.toNat * 2 ^ 32 + r.apc.toNat)
  | .tval => r.tval
  | .stvec => me.stvec

/-- The bits of UTMASK that exist. -/
def utmaskBits : Word := 0x52C000

/-- A trap entry with its reserved bits discarded. -/
def entryBits (w : Word) : Word := w &&& ~~~ 3

/-- A write to ICINV (R103): the line, or the whole cache, leaves the writer's cluster instruction cache. -/
def State.invalidate (s : State) (w : Word) : State :=
  s.modClus (s.cur.1 / 8) fun k => { k with
    icache := if w.getLsbD 0 then [] else k.icache.filter fun e => e.1 / 2 != bitsAt w.toNat 6 26 }

/-- A control register set; the bits of no field are discarded. -/
def State.setCsr (s : State) (n : Csr) (w : Word) : State :=
  let csr (f : Csrs → Csrs) : State := s.modMy fun t => { t with csr := f t.csr }
  match n with
  | .fpstat => csr fun r => { r with fpstat := w.extractLsb' 0 5 }
  | .fpmode => csr fun r => { r with fpmode := w.extractLsb' 0 2 }
  | .deadline => s.setDeadline w
  | .lostcnt => s.modMe fun c => { c with lost := w.extractLsb' 0 32 }
  | .icinv => s.invalidate w
  | .utvec => csr fun r => { r with utvec := entryBits w }
  | .utmask => csr fun r => { r with utmask := w &&& utmaskBits }
  | .cause => csr fun r => { r with cause := CauseReg.ofWord w }
  | .epc => csr fun r => { r with apc := w.extractLsb' 0 32, xpc := w.extractLsb' 32 32 }
  | .tval => csr fun r => { r with tval := w }
  | .stvec => s.modMe fun c => { c with stvec := entryBits w }
  | .hid | .wid | .wfw | .self | .part | .speed | .feat | .xferid | .holdst | .wdog => s

/-- A control register written by the current sequencer. -/
def State.writeCsr (s : State) (n : Csr) (w : Word) : State := if csrWritable n s.seq.level then s.setCsr n w else s

/-- An instruction on a control register whose access column is checked before the guard (07 R96 step 4). -/
def performCsr (ok : Level → Bool) (g : Guard) (body : M Next) (s : State) : Host.Outcome State Fault Refusal :=
  if ok s.seq.level then perform 8 Need.any g body s else .next (s.takeTrap .privileged none .none)

def execCsrr (g : Guard) (d : Reg) (n : Csr) (s : State) : Host.Outcome State Fault Refusal :=
  performCsr (csrAllowed n) g (do
    let s ← getState
    writeS d (s.readCsr n)
    pure .fall) s

def csrwBody (a : Reg) (n : Csr) : M Next := do
  let w ← readS a
  modState fun s => s.writeCsr n w
  pure .fall

def execCsrw (g : Guard) (a : Reg) (n : Csr) (s : State) : Host.Outcome State Fault Refusal :=
  performCsr (csrAllowed n) g (csrwBody a n) s

/-- A `csrw` of ICINV (R103). -/
def execIcinvWrite (g : Guard) (a : Reg) (s : State) : Host.Outcome State Fault Refusal :=
  performCsr (csrAllowed .icinv) g (csrwBody a .icinv) s

/-- A `csrw` of DEADLINE (R101): the deadline may pass at once. -/
def execDeadlineWrite (g : Guard) (a : Reg) (s : State) : Host.Outcome State Fault Refusal :=
  performCsr (csrAllowed .deadline) g (csrwBody a .deadline) s

def execCsrx (g : Guard) (d a : Reg) (n : Csr) (s : State) : Host.Outcome State Fault Refusal :=
  performCsr (csrAllowed n) g (do
    let w ← readS a
    let s ← getState
    setState (s.writeCsr n w)
    writeS d (s.readCsr n)
    pure .fall) s

/-! ## `wdog`, `feat`, `speed` (R320) -/

/-- LEFT as `wdog` leaves it: a strand only shortens its budget. -/
def newLeft (l : Level) (old : BitVec 16) (w : Word) : BitVec 16 :=
  let v := max 1 (min w.toNat 65535)
  BitVec.ofNat 16 (if l = .user then min old.toNat v else v)

def execWdog (g : Guard) (d a : Reg) (s : State) : Host.Outcome State Fault Refusal :=
  perform 8 Need.any g (do
    let w ← readS a
    let s ← getState
    if s.me.running then
      let old := s.my.csr.left
      if a.val ≠ 0 then
        setState (s.modMy fun t => { t with csr := { t.csr with left := newLeft s.seq.level old w } })
      writeS d (old.setWidth 64)
    else writeS d 0
    pure .fall) s

/-- The core that `feat` or `speed` asks about. -/
def askedCore (a : Reg) : M Place := do
  let w ← readS a
  let s ← getState
  if a.val = 0 then pure s.cur.1 else corePlace w

/-- A query of a core: the issuing core's own word at once, another core's as its answer; the query and its answer are
bytes in the mesh (22 R316). -/
def queryBody (d a : Reg) (word : Core → Nat) : M Next := do
  let p ← askedCore a
  let s ← getState
  if p = s.cur.1 then writeS d (BitVec.ofNat 64 (word s.me))
  else
    let ans ← ask fun s n => (s.meterMesh (s.partNo s.cur.1) (Config.accessBytes 4 8)).receive s.cur.1 n (.word (BitVec.ofNat 64 (word (s.core p))) true)
    writeS d (BitVec.ofNat 64 ans.num)
  pure .fall

def execFeat (g : Guard) (d a : Reg) (s : State) : Host.Outcome State Fault Refusal :=
  perform 8 Need.any g (queryBody d a fun c => c.feat.toNat) s

def execSpeed (g : Guard) (d a : Reg) (s : State) : Host.Outcome State Fault Refusal :=
  perform 8 Need.any g (queryBody d a Core.speedEntry) s

/-! ## `plset` (R321) -/

/-- The checks of the selecting register: bits outside `bits` and the PCN. -/
def plsetTarget (a : Reg) (bits : Word) : M (Nat × Word) := do
  let w ← readS a
  trapIf (w &&& ~~~ bits != 0) .windowBounds w
  let pcn := bitsAt w.toNat 0 12
  if 2303 < pcn then trapOpen .placeInvalid
  pure (pcn, w)

/-- A core of a cluster whose tables are written (R321): with a strand it goes by them as they were until its next handler
boundary; where injection is paused it takes the new entry up at once, and keeps only the older ones that it has not taken
up yet. -/
def State.keepTabs (s : State) (clu : Nat) (f : Cluster → Cluster) : State :=
  (List.range 8).foldl (fun s k =>
    let p := clu * 8 + k
    if (s.core p).running && !(s.partOf p).paused then s.modCore p fun c => { c with oldTabs := some (s.tabsOf p) }
    else s.modCore p fun c => { c with oldTabs := c.oldTabs.map fun t =>
      let k := f { Cluster.reset with place := t.1, perm := t.2 }
      (k.place, k.perm) }) s

/-- The tables of the cluster at a PCN written: its router and engines use the new entry at once, its cores from their
next boundary. -/
def State.plset (s : State) (pcn : Nat) (f : Cluster → Cluster) : State :=
  match s.clusterAt pcn with
  | some clu => (s.keepTabs clu f).modClus clu f
  | none => { s with spares := Table.set s.spares pcn (f (Table.get Cluster.reset s.spares pcn)) }

def Need.management : Need := ⟨fun _ => true, .management, 0⟩

def execPlsetPlace (g : Guard) (d a b : Reg) (s : State) : Host.Outcome State Fault Refusal :=
  perform 8 Need.management g (do
    let (pcn, w) ← plsetTarget a 0x07FF0FFF
    let v ← readS b
    modState fun s => s.plset pcn fun k => { k with place := Table.set k.place (bitsAt w.toNat 16 11) (v.extractLsb' 0 16) }
    writeS d 0
    pure .fall) s

def execPlsetPerm (g : Guard) (d a b : Reg) (s : State) : Host.Outcome State Fault Refusal :=
  perform 8 Need.management g (do
    let (pcn, w) ← plsetTarget a 0x001F0FFF
    let v ← readS b
    modState fun s => s.plset pcn fun k => { k with perm := Table.set k.perm (bitsAt w.toNat 16 5) v }
    writeS d 0
    pure .fall) s

end Sys2Proof.Machine
end

