-- ==== Sys2Proof/Machine/Sm.lean ====
section
/-! DEFINITION. The SM3 digest (GB/T 32905) and the SM2 signature (GB/T 32918), which 24 R329 names for the module's
identity. PRESUMED (log 112): the two standards are taken from outside the manual. -/

namespace Sys2Proof.Machine

/-! ## SM3 -/

/-- Words of a block or a chaining value, by number. -/
def laneOfList (ws : List Lane) (i : Nat) : Lane := ws.getD i 0

def sm3P0 (x : Lane) : Lane := x ^^^ x.rotateLeft 9 ^^^ x.rotateLeft 17
def sm3P1 (x : Lane) : Lane := x ^^^ x.rotateLeft 15 ^^^ x.rotateLeft 23

def sm3Start : List Lane :=
  [0x7380166f, 0x4914b2b9, 0x172442d7, 0xda8a0600, 0xa96f30bc, 0x163138aa, 0xe38dee4d, 0xb0fb0e4e]

/-- A number as `n` bytes, the most significant first. -/
def beBytesOf (n v : Nat) : List Byte := (leBytesOf n v).reverse

/-- The number that bytes give, the most significant first. -/
def beOf (bs : List Byte) : Nat := leOf bs.reverse

/-- A message with its padding: whole blocks of 64 bytes. -/
def sm3Pad (m : List Byte) : List Byte :=
  m ++ 0x80 :: List.replicate ((119 - m.length % 64) % 64) 0 ++ beBytesOf 8 (8 * m.length)

/-- The 68 words that a block expands to. -/
def sm3Words (b : List Byte) : List Lane :=
  (List.range 52).foldl (fun ws j =>
    let w := laneOfList ws
    ws ++ [sm3P1 (w j ^^^ w (j + 7) ^^^ (w (j + 13)).rotateLeft 15) ^^^ (w (j + 3)).rotateLeft 7 ^^^ w (j + 10)])
    ((List.range 16).map fun i => BitVec.ofNat 32 (beOf ((b.drop (4 * i)).take 4)))

/-- One round on the eight chaining words. -/
def sm3Round (ws v : List Lane) (j : Nat) : List Lane :=
  let x := laneOfList v
  let first := decide (j < 16)
  let t : Lane := if first then 0x79cc4519 else 0x7a879d8a
  let ss1 := ((x 0).rotateLeft 12 + x 4 + t.rotateLeft (j % 32)).rotateLeft 7
  let ff := if first then x 0 ^^^ x 1 ^^^ x 2 else (x 0 &&& x 1) ||| (x 0 &&& x 2) ||| (x 1 &&& x 2)
  let gg := if first then x 4 ^^^ x 5 ^^^ x 6 else (x 4 &&& x 5) ||| (~~~(x 4) &&& x 6)
  let tt1 := ff + x 3 + (ss1 ^^^ (x 0).rotateLeft 12) + (laneOfList ws j ^^^ laneOfList ws (j + 4))
  let tt2 := gg + x 7 + ss1 + laneOfList ws j
  [tt1, x 0, (x 1).rotateLeft 9, x 2, sm3P0 tt2, x 4, (x 5).rotateLeft 19, x 6]

/-- The chaining words after a block. -/
def sm3Block (v : List Lane) (b : List Byte) : List Lane :=
  let ws := sm3Words b
  List.zipWith (fun a b => a ^^^ b) v ((List.range 64).foldl (sm3Round ws) v)

/-- The digest's 32 bytes, in the order of the standard. -/
def sm3Bytes (m : List Byte) : List Byte :=
  let p := sm3Pad m
  ((List.range (p.length / 64)).foldl (fun v i => sm3Block v ((p.drop (64 * i)).take 64)) sm3Start).flatMap
    fun w => beBytesOf 4 w.toNat

/-- The digest as a field: its bytes rise with their addresses. -/
def sm3 (m : List Byte) : BitVec 256 := BitVec.ofNat 256 (leOf (sm3Bytes m))

/-! ## SM2 -/

/-- The curve: its prime, its second coefficient, its order and its base point; the first coefficient is −3. -/
def sm2P : Nat := 0xFFFFFFFEFFFFFFFFFFFFFFFFFFFFFFFFFFFFFFFF00000000FFFFFFFFFFFFFFFF
def sm2A : Nat := sm2P - 3
def sm2B : Nat := 0x28E9FA9E9D9F5E344D5A9E4BCF6509A7F39789F515AB8F92DDBCBD414D940E93
def sm2N : Nat := 0xFFFFFFFEFFFFFFFFFFFFFFFFFFFFFFFF7203DF6B21C6052B53BBF40939D54123
def sm2G : Nat × Nat :=
  (0x32C4AE2C1F1981195F9904466A39C9948FE30BBFF2660BE1715A4589334C74C7,
   0xBC3736A2F4F6779C59BDCEE36B692153D0A9877CC62A474002DF32E52139F0A0)

/-- The bits of a number of 256 bits, the most significant first. -/
def bits256 (n : Nat) : List Bool := ((List.range 256).map n.testBit).reverse

def powMod (m b e : Nat) : Nat := (bits256 e).foldl (fun a t => if t then a * a % m * b % m else a * a % m) (1 % m)

/-- The inverse modulo a prime. -/
def invMod (m x : Nat) : Nat := powMod m (x % m) (m - 2)

/-- A difference modulo `m`. -/
def subMod (m x y : Nat) : Nat := (x + (m - y % m)) % m

/-- A point of the curve; none is the point at infinity. -/
abbrev CurvePoint := Option (Nat × Nat)

/-- The third point of a line of slope `l`, reflected. -/
def chordPoint (l : Nat) (p q : Nat × Nat) : Nat × Nat :=
  let x := subMod sm2P (l * l) (p.1 + q.1)
  (x, subMod sm2P (l * subMod sm2P p.1 x) p.2)

def curveAdd (p q : CurvePoint) : CurvePoint :=
  match p, q with
  | none, q => q
  | p, none => p
  | some p, some q =>
    if p.1 = q.1 then
      if (p.2 + q.2) % sm2P = 0 then none
      else some (chordPoint ((3 * p.1 * p.1 + sm2A) * invMod sm2P (2 * p.2) % sm2P) p q)
    else some (chordPoint (subMod sm2P q.2 p.2 * invMod sm2P (subMod sm2P q.1 p.1) % sm2P) p q)

def curveMul (k : Nat) (p : CurvePoint) : CurvePoint :=
  (bits256 k).foldl (fun a t => if t then curveAdd (curveAdd a a) p else curveAdd a a) none

/-- The public half of a key pair. -/
def sm2Public (key : Nat) : Nat × Nat := (curveMul key (some sm2G)).getD (0, 0)

/-- The signer identity, 0x4D4F_4C4B: "MOLK" (24 R329). -/
def signerId : List Byte := [0x4D, 0x4F, 0x4C, 0x4B]

/-- The digest that binds the signer's identity and public key. -/
def signerDigest (pub : Nat × Nat) : List Byte :=
  sm3Bytes (beBytesOf 2 (8 * signerId.length) ++ signerId
    ++ [sm2A, sm2B, sm2G.1, sm2G.2, pub.1, pub.2].flatMap (beBytesOf 32))

/-- The number that is signed for a message. -/
def signedNumber (pub : Nat × Nat) (m : List Byte) : Nat := beOf (sm3Bytes (signerDigest pub ++ m))

/-- The signature (r, s) of a message under a key, with the number `k` that the signer drew. -/
def sm2SignWith (key k : Nat) (m : List Byte) : Nat × Nat :=
  let x1 := ((curveMul k (some sm2G)).getD (0, 0)).1
  let r := (signedNumber (sm2Public key) m + x1) % sm2N
  (r, invMod sm2N (1 + key) * subMod sm2N k (r * key) % sm2N)

/-- A signature verifies under a public key. -/
def sm2Verifies (pub : Nat × Nat) (m : List Byte) (r s : Nat) : Bool :=
  let t := (r + s) % sm2N
  match curveAdd (curveMul s (some sm2G)) (curveMul t (some pub)) with
  | some p => r != 0 && s != 0 && t != 0 && (signedNumber pub m + p.1) % sm2N == r
  | none => false

/-- The module's public identity key (24 R329). -/
def modulePublic : Nat × Nat := sm2Public Config.moduleKey

/-- A signature of the module as a field: r in its lower half and s in its upper, each little-endian as every field is
(00 R5; 24 R326). The number that the security block draws for a message is a free value (log 112). -/
def sm2Sign (m : List Byte) : BitVec 512 :=
  let e := sm2SignWith Config.moduleKey (Config.signNonce m) m
  BitVec.ofNat 512 (e.1 + e.2 * 2 ^ 256)

end Sys2Proof.Machine
end

