-- ==== Sys2Proof/Machine/Sharing.lean ====
section
/-! DEFINITION. Work that moves between cores: stealing and shipments (03 R46), the exchange of load figures (R47), the
reports and reassignment of stages (20 R285). -/

namespace Sys2Proof.Machine

/-! ## Unstarted TCBs -/

/-- The unstarted TCBs of a core. -/
def Work.unstarted (w : Work) : Nat := w.deque.length + w.overflow.length

/-- The oldest unstarted TCB: of the overflow stack before the deque. -/
def Work.oldest (w : Work) : Option (Tcb × Work) :=
  match w.overflow with
  | t :: ts => some (t, { w with overflow := ts })
  | [] =>
    match w.deque with
    | t :: ts => some (t, { w with deque := ts })
    | [] => none

/-- Up to `n` oldest TCBs taken from a core. -/
def Work.takeOldest : Nat → Work → List Tcb × Work
  | 0, w => ([], w)
  | n + 1, w =>
    match w.oldest with
    | some (t, w') =>
      let r := Work.takeOldest n w'
      (t :: r.1, r.2)
    | none => ([], w)

/-- The core of a cluster with the most unstarted TCBs, the lower number among equals. -/
def State.richest (s : State) (clu : Nat) : Place :=
  ((List.range 7).map fun k => clu * 8 + k + 1).foldl
    (fun b p => if (s.core b).work.unstarted < (s.core p).work.unstarted then p else b) (clu * 8)

/-- The persistent regions of a TCB's handler, as they stand in the CP of the core that gives it away (03 R37). -/
def State.regionsOf (s : State) (p : Place) (t : Tcb) : List (Nat × List Byte) :=
  let pn := s.partNo p
  let a := (s.part pn).attrs
  let table := (s.readGv pn a.proc0 p a.rtab Config.regionTableBytes).getD []
  match s.descAt pn p t.hidx with
  | none => []
  | some d =>
    ((List.range 32).filter fun i => bitAt d.pmask i).map fun i =>
      let (base, size) := Config.regionEntry table i
      (base, Memory.getAll s.mem (span (Key.cp p base) (min size (65536 - base))))

/-- A TCB as it leaves a core for another. -/
def State.packed (s : State) (p : Place) (t : Tcb) : Tcb := { t with regions := s.regionsOf p t }

/-- A TCB that has come from another core: its regions are put into the CP of its new one (03 R37). -/
def State.unpack (s : State) (p : Place) (t : Tcb) : State :=
  let s := t.regions.foldl (fun s r => { s with mem := Memory.setAll s.mem ((span (Key.cp p r.1) r.2.length).zip r.2) }) s
  s.pushTcb p { t with regions := [] }

/-- TCBs taken one at a time from the richest core. -/
def State.takeRichest : Nat → State → Nat → List Tcb × State
  | 0, s, _ => ([], s)
  | n + 1, s, clu =>
    let p := s.richest clu
    match (s.reread p).oldest with
    | some (t, w) =>
      let r := State.takeRichest n ((s.modWork p fun _ => w).refillDeque p) clu
      (s.packed p t :: r.1, r.2)
    | none => ([], s)

/-! ## Shipments -/

/-- A numbered shipment leaves for a thief, and stays in transit until it is acknowledged; an empty one leaves nothing
in transit. -/
def State.ship (s : State) (p thief : Place) (tcbs : List Tcb) : State :=
  let number := (s.core p).work.shipNo * 8 + p % 8
  let s := s.modWork p fun w => { w with
    shipNo := w.shipNo + 1
    shipments := if tcbs.isEmpty then w.shipments else w.shipments ++ [⟨thief, number, tcbs, s.tick⟩] }
  s.inject p thief .mgmt (s.partNo p) 0 (.shipment number tcbs)

/-! ## Steal requests (R46) -/

/-- None of the cluster's cores has a strand or a candidate. -/
def State.idleForStealing (s : State) (clu : Nat) : Bool :=
  (List.range 8).all fun k => !(s.core (clu * 8 + k)).running && (s.candidates (clu * 8 + k)).isEmpty

/-- The mesh-adjacent clusters of a partition. -/
def Part.adjacent (t : Part) (clu : Nat) : List Nat :=
  ((if 64 ≤ clu then [clu - 64] else []) ++ (if 1 ≤ clu then [clu - 1] else []) ++ [clu + 1, clu + 64]).filter fun n =>
    t.holds? clu && t.holds? n && hops (clu * 8) (n * 8) == 1

/-- The adjacent cluster with the highest report. -/
def mostLoaded (reports : Table Nat) : List Nat → Option Nat
  | [] => none
  | a :: as =>
    let v := as.foldl (fun b x => if Table.get 0 reports b < Table.get 0 reports x then x else b) a
    if Table.get 0 reports v = 0 then none else some v

/-- A number put into a list in ascending order of a key. -/
def insertKey (key : Nat → Nat) (x : Nat) : List Nat → List Nat
  | [] => [x]
  | y :: ys => if key x ≤ key y then x :: y :: ys else y :: insertKey key x ys

/-- The clusters at distance 2 and more, nearest first. -/
def Part.farther (t : Part) (clu : Nat) : List Nat :=
  ((t.clusOf).filter fun n => decide (2 ≤ hops (clu * 8) (n * 8))).foldr
    (insertKey fun n => hops (clu * 8) (n * 8) * 4096 + n) []

def State.modSteal (s : State) (clu : Nat) (f : Steal → Steal) : State :=
  s.modClus clu fun k => { k with steal := f k.steal }

/-- The steal request of a cluster's core 0. -/
def State.askFor (s : State) (clu victim : Nat) : State :=
  s.inject (clu * 8) (victim * 8) .mgmt (s.partNo (clu * 8)) 0 .stealReq

/-- The next cluster of the search at a distance; at the partition's edge the search is over. -/
def State.askFarther (s : State) (clu : Nat) : State :=
  let k := (s.clus clu).steal
  match ((s.partOf (clu * 8)).farther clu)[k.distance]? with
  | some v =>
    (s.modSteal clu fun k => { k with asked := true, distance := k.distance + 1, retryAt := s.tick + 64 }).askFor clu v
  | none => s.modSteal clu fun k => { k with asked := false, distance := 0 }

def execStealRequest (clu : Nat) (s : State) : Host.Outcome State Fault Refusal :=
  let t := s.partOf (clu * 8)
  let k := (s.clus clu).steal
  if k.asked || decide (s.tick < k.retryAt) || !t.holds? clu || t.switching || t.dead || !s.idleForStealing clu then
    .next s
  else
    match mostLoaded k.reports (t.adjacent clu) with
    | some v => .next ((s.modSteal clu fun k => { k with asked := true, retryAt := 0 }).askFor clu v)
    | none => .next ((s.modSteal clu fun k => { k with distance := 0 }).askFarther clu)

/-- 64 ticks after a request at a distance the next cluster is asked; a cluster that has work again searches no more. -/
def execStealRetryTimer (clu : Nat) (s : State) : Host.Outcome State Fault Refusal :=
  let k := (s.clus clu).steal
  if k.asked && k.retryAt != 0 && decide (k.retryAt ≤ s.tick) then
    .next (if s.idleForStealing clu then s.askFarther clu
      else s.modSteal clu fun k => { k with asked := false, distance := 0 })
  else .next s

/-- The victim answers with min(8, ⌈n/2⌉) TCBs. -/
def execStealRequestArrival (src dst : Place) (s : State) : Host.Outcome State Fault Refusal :=
  match s.nextPacket src dst .mgmt with
  | none => .next s
  | some k =>
    match k.body with
    | .stealReq =>
      let clu := dst / 8
      let n := ((List.range 8).map fun i => (s.core (clu * 8 + i)).work.unstarted).sum
      let r := State.takeRichest (min 8 ((n + 1) / 2)) (s.dropPacket k.num) clu
      .next (r.2.ship dst src r.1)
    | _ => .next s

/-- A shipment reaches its thief, which keeps it unless it has accepted it before, and acknowledges it. -/
def execStealShipment (src dst : Place) (s : State) : Host.Outcome State Fault Refusal :=
  match s.nextPacket src dst .mgmt with
  | none => .next s
  | some k =>
    match k.body with
    | .shipment number tcbs =>
      let s := (s.dropPacket k.num).inject dst src .reply k.part 0 (.shipAck number)
      let s := s.modSteal (dst / 8) fun x =>
        if tcbs.isEmpty && x.retryAt != 0 then x else { x with asked := false, retryAt := 0 }
      if (s.core dst).work.accepted.contains (src, number) then .next s
      else .next (tcbs.foldl (fun s t => s.unpack dst t)
        (s.modWork dst fun w => { w with accepted := w.accepted ++ [(src, number)] }))
    | _ => .next s

/-- A shipment is no longer in transit. -/
def State.landShipment (s : State) (p : Place) (number : Nat) : State :=
  s.modWork p fun w => { w with shipments := w.shipments.filter fun x => x.number != number }

def execStealAck (src dst : Place) (s : State) : Host.Outcome State Fault Refusal :=
  match s.nextPacket src dst .reply with
  | none => .next s
  | some k =>
    match k.body with
    | .shipAck number => .next ((s.dropPacket k.num).landShipment dst number)
    | _ => .next s

/-- 4,096 ticks without an acknowledgement: the victim asks the thief. -/
def execTransitTimeout (clu number : Nat) (s : State) : Host.Outcome State Fault Refusal :=
  let p := clu * 8 + number % 8
  match (s.core p).work.shipments.find? fun x => x.number == number with
  | none => .next s
  | some x =>
    if s.tick < x.sent + 4096 then .next s
    else
      let s := s.modWork p fun w => { w with
        shipments := w.shipments.map fun y => if y.number = number then { y with sent := s.tick } else y }
      .next (s.inject p x.thief .mgmt (s.partNo p) 0 (.shipQuery number))

/-- The thief's answer to the victim's question. -/
def State.answerQuery (s : State) (src dst : Place) : Option State :=
  match s.nextPacket src dst .mgmt with
  | none => none
  | some k =>
    match k.body with
    | .shipQuery number =>
      some ((s.dropPacket k.num).inject dst src .reply k.part 0
        (.shipKnown number ((s.core dst).work.accepted.contains (src, number))))
    | _ => none

/-- A TCB joins a core's overflow stack. -/
def State.spill (s : State) (p : Place) (t : Tcb) : State :=
  let k := (s.core p).work.nextCell
  let s' := s.modWork p fun w => { w with overflow := w.overflow ++ [{ t with cell := k }] }
  match s.overflowKeys p k with
  | some ks => { s' with mem := Memory.setAll s'.mem (ks.zip t.image) }
  | none => s'

/-- The thief's answer ends the transit, or returns the TCBs to the victim's overflow stack. -/
def State.hearAnswer (s : State) (src dst : Place) : Option State :=
  match s.nextPacket src dst .reply with
  | none => none
  | some k =>
    match k.body with
    | .shipKnown number received =>
      let back := ((s.core dst).work.shipments.filter fun x => x.number == number).flatMap (·.tcbs)
      let s := (s.dropPacket k.num).landShipment dst number
      some (if received then s
        else (back.foldl (fun s t => s.spill dst { t with regions := [] }) s).refillDeque dst)
    | _ => none

def execTransitQueryAnswer (src dst : Place) (s : State) : Host.Outcome State Fault Refusal :=
  .next (((s.answerQuery src dst).or (s.hearAnswer src dst)).getD s)

/-! ## The exchange of load figures (R47) -/

/-- The neighbours of a core in the exchange: over nE and nW, and in the clusters north and south. -/
def State.exchangeWith (s : State) (p : Place) : List Place :=
  let t := s.partOf p
  (s.neighbour p true).toList ++ (s.neighbour p false).toList
    ++ (((if 64 ≤ p / 8 then [p / 8 - 64] else []) ++ [p / 8 + 64]).filter t.holds?).map fun n => n * 8 + p % 8

/-- The neighbour with the lowest figure, the lower place among equals. -/
def State.lightest (s : State) (p : Place) : Option Place :=
  match s.exchangeWith p with
  | [] => none
  | q :: qs => some (qs.foldl (fun b x =>
      let fb := (s.core b).work.figure
      let fx := (s.core x).work.figure
      if decide (fx < fb) || (fx == fb && decide (x < b)) then x else b) q)

/-- A core whose figure exceeds the lowest by more than the threshold moves half of the difference. -/
def State.average (s : State) (p : Place) : State :=
  match s.lightest p with
  | none => s
  | some q =>
    let d := (s.core p).work.figure - (s.core q).work.figure
    if d ≤ (s.partOf p).attrs.avgThr then s
    else
      let r := Work.takeOldest (d / 2) (s.reread p)
      ((s.modWork p fun _ => r.2).refillDeque p).ship p q (r.1.map (s.packed p))

/-- A cluster's load figure. -/
def State.clusterFigure (s : State) (clu : Nat) : Nat :=
  min 65535 ((List.range 8).map fun k => (s.core (clu * 8 + k)).work.figure).sum

/-- Each cluster hears its adjacent clusters' figures; a search in progress goes on. -/
def State.hearFigures (s : State) (pn clu : Nat) : State :=
  let t := s.part pn
  s.modSteal clu fun k => { k with
    reports := (t.adjacent clu).foldl (fun r n => Table.set r n (s.clusterFigure n)) k.reports }

/-! ## Stage reports and reassignment (20 R285) -/

/-- The queues of a stage at its home. -/
def State.queuesOf (s : State) (home : Place) (stage : Nat) : List (Nat × Mbx) :=
  (s.objs home).mbs.filter fun e => (e.2.stage.map (·.1)) == some stage

/-- A stage with the report of its home. -/
def State.report (s : State) (stage : Nat) (g : Stage) : Stage :=
  let qs := s.queuesOf g.home stage
  { g with
    filled := (qs.map fun e => (e.2.slots.filter Slot.isFilled).length).sum
    bsum := (qs.map fun e => e.2.bound).sum
    gated := (qs.filter fun e => s.gated g.home e.2).length
    ref := qs.any fun e => e.2.refused }

/-- A stage's pressure. -/
def Stage.pressure (g : Stage) : Nat := if g.ref then 256 else if g.bsum = 0 then 0 else g.filled * 256 / g.bsum

/-- All reports of a partition, after which each queue's record of refusals starts anew. -/
def State.reportAll (s : State) (pn : Nat) : State :=
  let stages := (s.part pn).stages
  let s' := s.modPart pn fun t => { t with stages := stages.map fun e => (e.1, s.report e.1 e.2) }
  stages.foldl (fun s e =>
    (s.queuesOf e.2.home e.1).foldl (fun s q => s.setMbx e.2.home q.1 { q.2 with refused := false }) s) s'

/-- A member that may move to a stage. -/
def State.movable (s : State) (pn : Nat) (l h : Nat × Stage) (q : Place) : Bool :=
  let c := s.core q
  q != l.2.home && !c.running && !((s.part pn).parked.any fun k => k.place == q) && c.work.inbox.isEmpty
    && !(c.objs.mbs.any fun e => e.2.stage.isSome && e.2.head.isSome) && (c.objs.stashes.all fun e => e.2.mask == 0)
    && ((s.queuesOf h.2.home h.1).all fun e =>
      match s.descAt pn h.2.home e.2.aidx with
      | some d => meets c.feat d.freq
      | none => true)

/-- The stages of highest and lowest pressure of a pipeline, the lower id among equals. -/
def extremes : List (Nat × Stage) → Option ((Nat × Stage) × (Nat × Stage))
  | [] => none
  | g :: gs => some
    (gs.foldl (fun b x => if b.2.pressure < x.2.pressure then x else b) g,
     gs.foldl (fun b x => if x.2.pressure < b.2.pressure then x else b) g)

/-- The cores that a pipeline's distributor moves from L to H. DESIGN CHOICE (log 132): of two equally near H's home the lower
place goes first. -/
def State.moved (s : State) (pn : Nat) (h l : Nat × Stage) : List Place :=
  let d := h.2.pressure - l.2.pressure
  if d ≤ 64 then []
  else
    let ml := l.2.pool.length
    let mh := h.2.pool.length
    let k := max 1 ((ml + mh) * d / 1024)
    let k := min k (min (ml - l.2.lo) (h.2.hi - mh))
    ((l.2.pool.filter (s.movable pn l h)).foldr (insertKey fun q => hops h.2.home q * 65536 + q) []).take k

/-- One pipeline rebalanced. -/
def State.rebalance (s : State) (pn pipe : Nat) : State :=
  match extremes ((s.part pn).stages.filter fun e => e.2.pipe == pipe) with
  | none => s
  | some (h, l) =>
    let qs := s.moved pn h l
    if qs.isEmpty then s
    else s.modPart pn fun t => { t with
      stages := Table.set (Table.set t.stages l.1 { l.2 with pool := l.2.pool.filter fun q => !qs.contains q }) h.1
        { h.2 with pool := h.2.pool ++ qs } }

/-- The exchange of a partition, due every 1,024 ticks. -/
def execLoadExchange (part : Nat) (s : State) : Host.Outcome State Fault Refusal :=
  let t := s.part part
  if s.tick < t.exchangeAt then .next s
  else
    let s := s.modPart part fun t => { t with exchangeAt := s.tick + 1024 }
    let s := t.coresOf.foldl (fun s p => s.modWork p fun w => { w with figure := min 65535 w.unstarted }) s
    let s := t.clusOf.foldl (fun s clu => s.hearFigures part clu) s
    let s := t.coresOf.foldl State.average s
    let s := s.reportAll part
    .next ((List.range 16).foldl (fun s pipe => s.rebalance part pipe) s)

end Sys2Proof.Machine
end

