-- ==== Sys2Proof/Machine/Chains.lean ====
section
/-! DEFINITION. Host command chains (24 R322, R323, R325): who may give which command, on what it acts, and the result that
the module returns. -/

namespace Sys2Proof

/-- The length of a chain's result descriptor, its last. -/
def CmdHead.resultBytes (h : CmdHead) : Nat := (h.descs.getLast?.map (·.2)).getD 0

/-- The bytes of a command's body: what its device-readable descriptors hold after the header's 16 bytes. -/
def CmdHead.bodyBytes (h : CmdHead) : Nat := ((h.descs.filter fun d => !d.1).map (·.2)).sum - 16

/-- A chain has the shape of R323: device-readable descriptors, at least one, that hold the header, and then one
device-writable descriptor of at least 32 bytes, or of the larger size that R325 gives. -/
def CmdHead.shapeOk (h : CmdHead) (size : Nat) : Bool :=
  match h.descs.reverse with
  | (true, n) :: ds => decide (max 32 size ≤ n) && ds.all (fun d => !d.1) && decide (16 ≤ (ds.map (·.2)).sum)
  | _ => false

end Sys2Proof

namespace Sys2Proof.Machine

/-! ## Results (R323) -/

/-- The result status codes. -/
inductive Status
  | ok | badcmd | denied | badwfw | badbase | placeInvalid | translation | busy | layoutUnsupported | corrupt | shape
  | features | gone | nospace | notfound | stale
deriving DecidableEq, Repr

def Status.code : Status → Nat
  | .ok => 0
  | .badcmd => 1
  | .denied => 2
  | .badwfw => 3
  | .badbase => 4
  | .placeInvalid => 5
  | .translation => 6
  | .busy => 7
  | .layoutUnsupported => 8
  | .corrupt => 9
  | .shape => 10
  | .features => 11
  | .gone => 12
  | .nospace => 13
  | .notfound => 14
  | .stale => 15

/-! The descriptor tables and rings of the virtqueues lie in the host's memory, which is no state of the module: a chain
comes with its command, as its descriptors say it (log 134). -/

/-- The virtqueues by function and queue: queue 0 carries commands, queue 1 of a PF usage records. -/
def queueKey (fn : HostFn) (q : Nat) : Nat :=
  match fn with
  | .pf i => 2 * i.val + q
  | .vf n => 2 * (2 + n) + q

/-- A function has a queue. -/
def hasQueue (fn : HostFn) (q : Nat) : Bool :=
  match fn with
  | .pf _ => decide (q ≤ 1)
  | .vf _ => q == 0

/-- A virtqueue as the device first presents it: PRESUMED (VIRTIO), its largest size. -/
def VirtQueue.fresh : VirtQueue := ⟨1024, 0, 0, []⟩

def State.queue (s : State) (fn : HostFn) (q : Nat) : VirtQueue := Table.get VirtQueue.fresh s.host.queues (queueKey fn q)

def State.modQueue (s : State) (fn : HostFn) (q : Nat) (f : VirtQueue → VirtQueue) : State :=
  { s with host := { s.host with queues := Table.set s.host.queues (queueKey fn q) (f (s.queue fn q)) } }

/-- One more chain is in the used ring, which holds as many elements as the queue has descriptors, and its index advances
over it. -/
def State.noteUsed (s : State) (fn : HostFn) (q head len : Nat) : State :=
  s.modQueue fn q fun x => { x with
    used := (x.used + 1) % 65536
    elems := (x.elems ++ [(head, len)]).drop (x.elems.length + 1 - x.size) }

/-- The interrupt of a queue's MSI-X vector, which follows its used-ring index (R324). -/
def State.interrupt (s : State) (fn : HostFn) (q : Nat) : State :=
  if hasQueue fn q then s.modQueue fn q fun x => { x with told := x.used } else s

/-- A driver sets a queue's size: a power of two from 2 to 1,024. -/
def State.setQueueSize (s : State) (fn : HostFn) (q n : Nat) : State :=
  if hasQueue fn q && (span 1 10).any fun k => n == 2 ^ k then s.modQueue fn q fun x => { x with size := n } else s

/-- The bytes of a result that are written: the 16 bytes that every result has, and the command's own. -/
def Result.length (r : Result) : Nat := if r.written then 16 + r.extra.length else 0

/-- A result returned on a function's command queue. -/
def State.result (s : State) (r : Result) : State :=
  ({ s with host := { s.host with results := s.host.results ++ [r] } } : State).noteUsed r.fn 0 r.head r.length

/-- The result of a command other than LAUNCH. -/
def State.answerCmd (s : State) (h : CmdHead) (st : Status) (count : Nat) (extra : List Byte) : State :=
  s.result ⟨h.fn, h.head, h.tag, true, st.code, 0, count, 0, extra⟩

/-- A command completed with a status and no more. -/
def State.refuseChain (s : State) (h : CmdHead) (st : Status) : State := s.answerCmd h st 0 []

/-- A chain of any other shape is returned with nothing written. -/
def State.badChain (s : State) (h : CmdHead) : State :=
  s.result ⟨h.fn, h.head, h.tag, false, Status.badcmd.code, 0, 0, 0, []⟩

/-! ## Who may command what (R322, R325) -/

/-- The chain's reserved bytes are zero and its body has its length (R323, R325, R326). The header's PARTN and TENANT name
something in tenant commands alone. -/
def chainOk (h : CmdHead) (len : Nat) (management : Bool) : Bool :=
  h.zero == 0 && h.rsvd == 0 && h.bodyBytes == len && (!management || (h.partn == 0 && h.tenant == 0))

/-- A command, as far as its chain, its function and the module's state let it come. `size` is the table's result size and
`len` the length of its body. -/
def State.command (s : State) (h : CmdHead) (size len : Nat) (management : Bool)
    (body : State → Host.Outcome State Fault Refusal) : Host.Outcome State Fault Refusal :=
  if !s.fw.booted then .next s
  else if !h.shapeOk size then .next (s.badChain h)
  else if s.fw.recovery || h.fn == .pf 1 || (management && h.fn != .pf 0) then .next (s.refuseChain h .denied)
  else if !chainOk h len management then .next (s.refuseChain h .badcmd)
  else body s

/-- A chain with an opcode of no command (R323). -/
def State.badOpcode (s : State) (h : CmdHead) : Host.Outcome State Fault Refusal :=
  s.command h 0 h.bodyBytes false fun s => .next (s.refuseChain h .badcmd)

/-- The partition and tenant that a tenant command acts on. -/
def State.tenantOf (s : State) (h : CmdHead) : Except Status (Nat × Nat) :=
  match h.fn with
  | .pf _ =>
    match Table.find s.parts h.partn with
    | some t => if (Table.find t.tenants h.tenant).isSome then .ok (h.partn, h.tenant) else .error .notfound
    | none => .error .notfound
  | .vf n =>
    if h.partn ≠ 0 ∨ h.tenant ≠ 0 then .error .denied
    else
      match Table.find s.host.bindings n with
      | some b => .ok b
      | none => .error .denied

/-- A tenant command. -/
def State.tenantCmd (s : State) (h : CmdHead) (size len : Nat)
    (body : Nat → Nat → State → Host.Outcome State Fault Refusal) : Host.Outcome State Fault Refusal :=
  s.command h size len false fun s =>
    match s.tenantOf h with
    | .ok (pn, tn) => body pn tn s
    | .error e => .next (s.refuseChain h e)

/-- A management command on a partition. -/
def State.partCmd (s : State) (h : CmdHead) (size len pn : Nat) (ok : Bool)
    (body : Part → State → Host.Outcome State Fault Refusal) : Host.Outcome State Fault Refusal :=
  s.command h size len true fun s =>
    if !ok then .next (s.refuseChain h .badcmd)
    else
      match Table.find s.parts pn with
      | some t => body t s
      | none => .next (s.refuseChain h .notfound)

def State.modTenant (s : State) (pn tn : Nat) (f : Tenant → Tenant) : State :=
  s.modPart pn fun t => { t with
    tenants := t.tenants.map fun e => if e.1 = tn then (e.1, f e.2) else e }

end Sys2Proof.Machine
end

