-- ==== Sys2Proof/Machine/Launches.lean ====
section
/-! DEFINITION. Launches: posting by the host and by strands (03 R42, R43; 24 R324), the root's delivery, and completion at
the idle tree (R51, R52). -/

namespace Sys2Proof.Machine

/-! ## Posting (R41, R42) -/

/-- The front end's place: the lowest-numbered west edge node of its port. -/
def frontEnd (port : Nat) : Place := 0x8000 + (if port = 0 then 0 else 8)

/-- The port of the front end that serves a tenant. -/
def Part.portOf (t : Part) (tn : Nat) : Nat :=
  match (Table.find t.tenants tn).bind (·.vf) with
  | some n => n / 192
  | none => 0

/-- The status that launch parameters are refused with, if any. -/
def State.launchStatus (s : State) (pn : Nat) (b : LaunchParams) : Option Status :=
  let root := b.root.toNat
  if b.rsvd || bitsAt b.wfw.toNat 36 28 != 0 then some .badcmd
  else if 64 < ((List.range 6).map (widthField b.wfw)).sum then some .badwfw
  else if b.base = 0 then some .badbase
  else
    match s.parsePlace root with
    | .core clu _ =>
      if !(s.part pn).hasCore root || (s.placeEntry root clu).getLsbD 14 then some .placeInvalid else none
    | _ => some .placeInvalid

def newLaunch (b : LaunchParams) (by_ : Poster) : Launch :=
  { prm := b, by_ := by_, n := 0, delivered := false, rootTick := 0, sampled := none, fault := false, dlmiss := false
    poison := false, retired := false, aborted := false, translation := false }

/-- A launch behind every launch already posted for its tenant. -/
def State.queueLaunch (s : State) (pn tn : Nat) (l : Launch) : State :=
  s.modTenant pn tn fun x => { x with queue := x.queue ++ [l] }

/-! ## Completion (R52) -/

/-- The counters of a partition that are still armed. -/
def State.unfired (s : State) (pn : Nat) : Nat :=
  ((s.part pn).coresOf.map fun p => ((s.objs p).tcs.filter fun e => e.2.armed).length).sum

/-- The counters of a record that are still armed. -/
def Save.unfired (r : Save) : Nat := (r.cores.map fun e => (e.2.objs.tcs.filter fun x => x.2.armed).length).sum

/-- The launches in flight of tenants that are sliced out, with their records (22 R302). -/
def Part.slicedOut (t : Part) : List (Launch × Save) :=
  t.tenants.filterMap fun e =>
    if e.1 = t.tenant then none else e.2.saved.bind fun r => r.launch.map fun l => (l, r)

/-- A launch of the partition is in flight. -/
def Part.inFlight (t : Part) : Bool := t.launch.isSome || !t.slicedOut.isEmpty

/-- FLAGS of a launch's completion (24 R323). -/
def Launch.flags (l : Launch) (unfired : Nat) : Nat :=
  b2n (unfired != 0) + b2n l.dlmiss * 2 + b2n l.poison * 4 + b2n l.fault * 8 + b2n l.retired * 16 + b2n l.aborted * 32

/-- RESULT of a launch block, in the layout of the Result with TAG 0. -/
def resultBytes (st flags count lid : Nat) : List Byte :=
  leBytesOf 4 0 ++ leBytesOf 2 st ++ leBytesOf 2 flags ++ leBytesOf 4 count ++ leBytesOf 4 lid ++ leBytesOf 16 0

/-- The completion of a launch reaches its poster: the chain is returned, or RESULT is written and then NTAG is sent. -/
def State.postResult (s : State) (pn : Nat) (by_ : Poster) (st flags count lid : Nat) : State :=
  match by_ with
  | .host fn head tag => s.result ⟨fn, head, tag, true, st, flags, count, lid, []⟩
  | .strand proc blk place ntag =>
    let s := s.writeGv pn proc place (blk + 96) (resultBytes st flags count lid)
    match ntag with
    | some (tag, np) =>
      if (s.part pn).hasCore np then
        s.inject (frontEnd ((s.part pn).portOf (s.part pn).tenant)) np .sync pn 0 (.trigInc tag)
      else s
    | none => s

/-- A core after its launch: stashes unconfigured (20 R283), stage queues undeclared (20 R288), no REFINEMENT mark (18
R275). -/
def Core.launchOver (c : Core) : Core :=
  { c with
    rlcTrap := none
    objs := { c.objs with
      stashes := []
      mbs := c.objs.mbs.map fun e => (e.1, { e.2 with stage := none }) } }

/-- A party belongs to a partition. -/
def State.partyIn (s : State) (pn : Nat) : Party → Bool
  | .core p => (s.core p).part == some pn
  | .cmd n =>
    if 2 ^ 64 ≤ n then ((Table.find s.sublinks (n / 2 ^ 64 - 1)).bind (·.owner)) == some pn
    else ((s.cmd n).map (·.part)) == some pn

/-- The recorders' entries of a partition are removed, at every home (16 R252). -/
def State.dropEntries (s : State) (pn : Nat) : State :=
  { s with fab := { s.fab with
      lines := s.fab.lines.filter fun e => !s.partyIn pn e.party
      ranges := s.fab.ranges.filter fun e => !s.partyIn pn (.cmd e.cmd) } }

/-- What every completion of a launch leaves behind. -/
def State.endLaunch (s : State) (pn : Nat) : State :=
  let s := (s.dropEntries pn).modPart pn fun t => { t with launch := none, marks := [], pois := [], stages := [] }
  (((s.part pn).coresOf.foldl (fun s p => s.modCore p Core.launchOver) s).modPart pn Part.wake).meshRecheck pn

/-- A launch complete, with a status. -/
def State.completeLaunch (s : State) (pn : Nat) (l : Launch) (st : Status) : State :=
  let n := s.unfired pn
  (s.postResult pn l.by_ st.code (l.flags n) n l.prm.lid.toNat).endLaunch pn

/-- A launch whose root was turned away completes at once, with no flags. -/
def State.failLaunch (s : State) (pn : Nat) (l : Launch) (st : Status) : State :=
  (s.postResult pn l.by_ st.code 0 0 l.prm.lid.toNat).endLaunch pn

/-! ## LAUNCH (24 R324) -/

def execLaunch (h : CmdHead) (b : LaunchParams) (s : State) : Host.Outcome State Fault Refusal :=
  s.tenantCmd h 32 88 fun pn tn s =>
    match s.launchStatus pn b with
    | some st => .next (s.result ⟨h.fn, h.head, h.tag, true, st.code, 0, 0, b.lid.toNat, []⟩)
    | none => .next (s.queueLaunch pn tn (newLaunch b (.host h.fn h.head h.tag)))

/-! ## The launch service (R43) -/

/-- The parameters of a block of 128 bytes, in the layout of the LAUNCH body. -/
def blockParams (n : Nat) : LaunchParams where
  lid := BitVec.ofNat 16 (bitsAt n 0 16)
  root := BitVec.ofNat 16 (bitsAt n 16 16)
  hidx := BitVec.ofNat 16 (bitsAt n 32 16)
  gen := BitVec.ofNat 8 (bitsAt n 48 8)
  payload := (List.range 6).map fun k => BitVec.ofNat 64 (bitsAt n (64 + 64 * k) 64)
  wid := BitVec.ofNat 64 (bitsAt n 448 64)
  wfw := BitVec.ofNat 64 (bitsAt n 512 64)
  base := BitVec.ofNat 16 (bitsAt n 576 16)
  tiles := BitVec.ofNat 32 (bitsAt n 608 32)
  dl := BitVec.ofNat 64 (bitsAt n 640 64)
  rsvd := bitsAt n 56 8 != 0 || bitsAt n 592 16 != 0 || bitsAt n 737 7 != 0 || bitsAt n 744 24 != 0

/-- The strand that posted a block, with the tag that its completion sends. -/
def blockPoster (n : Nat) (m : Msg) (blk : Nat) (p : Place) : Poster :=
  .strand m.proc blk p (if bitAt n 736 then some (BitVec.ofNat 16 (bitsAt n 704 16), bitsAt n 720 16) else none)

/-- What the launch service makes of a post: the answer's status and hint. -/
def State.servePost (s : State) (pn : Nat) (m : Msg) (p : Place) : State × Nat × Nat :=
  let t := s.part pn
  let blk := (m.payload.getD 0 0).toNat
  if hdrRw m.hdr || blk % 64 != 0 then (s, 3, 0)
  else
    match s.readGv pn m.proc p blk 128 with
    | none => (s, 3, 0)
    | some bs =>
      if 64 ≤ ((Table.find t.tenants t.tenant).map (·.queue.length)).getD 0 then (s, 1, 16)
      else
        let b := blockParams (leOf bs)
        let by_ := blockPoster (leOf bs) m blk p
        match s.launchStatus pn b with
        | some st => (s.postResult pn by_ st.code 0 0 b.lid.toNat, 0, 0)
        | none => (s.queueLaunch pn t.tenant (newLaunch b by_), 0, 0)

def execLaunchServicePost (src dst : Place) (s : State) : Host.Outcome State Fault Refusal :=
  match s.nextPacket src dst .amsg with
  | none => .next s
  | some k =>
    match k.body with
    | .post m asker =>
      let (s, stat, hint) := (s.dropPacket k.num).servePost k.part m src
      match asker with
      | some q => .next (s.answerTo k q (.msg stat hint))
      | none => .next s
    | _ => .next s

/-! ## The root (R42) -/

/-- The active message of a launch's root. -/
def Launch.rootMsg (l : Launch) (t : Part) (tick seq : Nat) : Msg where
  hdr := mkHeader 0 false false true false 0 l.prm.gen.toNat l.prm.hidx.toNat (frontEnd (t.portOf t.tenant))
  payload := l.prm.payload
  rr := routeWord tick seq 0
  wid := l.prm.wid
  dl := l.prm.dl
  wfw := l.prm.wfw
  proc := t.attrs.proc0
  lid := l.prm.lid.toNat
  rnum := 0
  pass := 0
  up := 0

/-- 4,096 usage records of a partition that no PF has taken hold its launches back (24 R333). -/
def Part.usageFull (t : Part) : Bool := decide (4096 ≤ (t.usage.filter fun u => !u.taken).length)

/-- The next posted launch of the current tenant starts, if the partition may start one. -/
def State.startLaunch (s : State) (pn : Nat) : State :=
  let t := s.part pn
  if t.launch.isSome || t.switching || t.usageFull then s
  else
    match (Table.find t.tenants t.tenant).map (·.queue) with
    | some (l :: ls) =>
      (s.modTenant pn t.tenant fun x => { x with queue := ls }).modPart pn fun t => { t with launch := some l }
    | _ => s

/-- The front end delivers the root of a launch, and again after each refusal's hint. -/
def State.deliverRoot (s : State) (pn : Nat) (l : Launch) : State :=
  let t := s.part pn
  let root := l.prm.root.toNat
  let fe := frontEnd (t.portOf t.tenant)
  let m := l.rootMsg t s.tick (s.nextSeq fe root .amsg)
  let l := { l with rootNum := s.fab.nextNum }
  let s := (s.takeSeq fe root .amsg).nextNumber
  let set (s : State) (l : Launch) : State := s.modPart pn fun t => { t with launch := some l }
  let (s, r) := s.offered root m fe l.rootNum
  match r with
  | .accepted => set s { l with delivered := true }
  | .refused h => set s { l with rootTick := s.tick + h }
  | .stale => s.failLaunch pn l .stale
  | .denied => s.failLaunch pn l .denied
  | .forward q => set (s.inject root q .amsg pn 0 (.active m none (some (fe, l.rootNum)))) { l with delivered := true }

/-- What a front end hears of root message `num` that was forwarded, or discarded before its activation (R35, R42): the
launch fails. -/
def State.hearRoot (s : State) (pn num : Nat) (a : Answer) : State :=
  match (s.part pn).launch with
  | none => s
  | some l =>
    if l.rootNum ≠ num then s
    else
      match a with
      | .msg 2 _ => s.failLaunch pn l .stale
      | .msg 3 _ => s.failLaunch pn l .denied
      | _ => s

/-- An answer arrives (10 R347): the waiting instruction goes on with it, or it is kept with its strand; a front end hears of
its root. -/
def execAnswerArrival (p : Place) (q : SeqId) (s : State) : Host.Outcome State Fault Refusal :=
  match s.answerFor p q with
  | none => .next s
  | some (k, a) =>
    if p / 16384 = 2 then .next ((s.dropPacket k.num).hearRoot k.part k.sid a)
    else
      let at_ := s.ownerAt p k.sid
      let s := (s.dropPacket k.num).receive p k.sid a
      .next (if (s.waitOf at_ q).isSome then { s with agenda := .run at_ q :: s.agenda } else s)

/-- What waits of a launch at the cores of a partition is discarded. -/
def State.discardWork (s : State) (pn lid : Nat) : State :=
  (s.part pn).coresOf.foldl (fun s p => s.modWork p fun w => { w with
    inbox := w.inbox.filter fun e => e.msg.lid != lid
    cplq := w.cplq.filter fun e => !e.ready || ((s.cmd e.cmd).map (·.lid)) != some lid
    deque := w.deque.filter fun t => t.lid != lid
    overflow := w.overflow.filter fun t => t.lid != lid }) s

/-- The launch of a partition ends without a page of its overflow area (03 R45): its strands are ended, what waits of it is
discarded, and it completes once what is on its way has landed (16 R252). DEDUCED (log 58). -/
def State.stopLaunch (s : State) (pn : Nat) : State :=
  match (s.part pn).launch with
  | none => s
  | some l =>
    let lid := l.prm.lid.toNat
    let s := ((s.part pn).coresOf.filter fun p => (s.core p).running && (s.strand p).act.lid == lid).foldl
      (fun s p => (s.poisonMarks pn (s.strand p).act.sid).endStrand p true) s
    let s := ((s.part pn).parked.filter fun k => k.st.act.lid == lid).foldl (fun s k => s.endParked pn k true) s
    (s.discardWork pn lid).modPart pn fun t => { t with launch := t.launch.map fun l => { l with translation := true } }

def execRootDelivery (part : Nat) (s : State) : Host.Outcome State Fault Refusal :=
  let s := s.startLaunch part
  match (s.part part).launch with
  | some l => .next (if l.delivered || decide (s.tick < l.rootTick) then s else s.deliverRoot part l)
  | none => .next s

/-! ## The idle tree (R51, R52) -/

/-- A core's idle wire. -/
def State.coreIdle (s : State) (p : Place) : Bool :=
  let c := s.core p
  !c.running && (s.candidates p).isEmpty && c.work.inbox.isEmpty && c.work.cplq.isEmpty && c.work.unstarted == 0
    && c.work.shipments.isEmpty

/-- The launch of a partition is ending without its page: no candidate of it is activated. -/
def Part.ending (t : Part) : Bool := t.launch.any (·.translation)

/-- All idle wires of a partition are high: its cores, its routers and its engines. What waits at the cores of a launch that
is ending does not count. -/
def State.wires (s : State) (pn : Nat) : Bool :=
  let t := s.part pn
  (t.coresOf.all fun p => s.coreIdle p || t.ending && !(s.core p).running) && t.parked.isEmpty && (s.cmds.all fun c => c.part != pn || c.phase == .done)
    && (s.fab.net.all fun k => k.part != pn) && (s.fab.retries.all fun r => r.pkt.part != pn)
    && ((s.fab.issue ++ s.fab.bufs).all fun a => (s.core a.src).part != some pn)

/-- Two samples 4,096 fabric cycles apart: 13 fabric cycles to a tick. -/
def sampleGap : Nat := 316

/-- The root of the idle tree samples the wires; two high samples complete the launch. -/
def execIdleTreeSample (part : Nat) (s : State) : Host.Outcome State Fault Refusal :=
  match (s.part part).launch with
  | none => .next s
  | some l =>
    let set (l : Launch) : State := s.modPart part fun t => { t with launch := some l }
    if !l.delivered || !s.wires part then .next (set { l with sampled := none })
    else
      match l.sampled with
      | none => .next (set { l with sampled := some s.tick })
      | some t0 =>
        if s.tick < t0 + sampleGap then .next s
        else if l.translation then .next ((s.discardWork part l.prm.lid.toNat).completeLaunch part l .translation)
        else .next (s.completeLaunch part l .ok)

end Sys2Proof.Machine
end

