-- ==== Sys2Proof/Machine/Timers.lean ====
section
/-! DEFINITION. Timers and the memory service: deadlines (03 R61), time-outs of waits (R60), the watchdog (22 R300), the
page service's answers (22 R298, 03 R45); and the mesh's own events: stuck heads (01 R30), dead links and reroutes (R31). -/

namespace Sys2Proof.Machine

/-! ## Traps of the time base -/

/-- The strand's lead sequencer stands at a boundary at which it may take what is pending. -/
def State.takeLead (s : State) (p : Place) : State :=
  if s.coreRuns p then (s.takePending p (s.strand p).lead).getD s else s

/-- The deadline of a running strand passes: DEADLINE is taken at the boundary where it is enabled, and otherwise the
DLMISS record is made (03 R61). -/
def execDeadlinePass (p : Place) (s : State) : Host.Outcome State Fault Refusal :=
  if s.deadlineDue p then .next ((s.passDeadline p).takeLead p) else .next s

/-- LEFT has reached 0: WATCHDOG is taken at the lead sequencer's boundary, even while it waits (22 R300). -/
def execWatchdog (p : Place) (s : State) : Host.Outcome State Fault Refusal :=
  if (s.strand p).act.pend.any fun e => e.2.1 == .watchdog then .next (s.takeLead p) else .next s

/-- A wait on an object has used up its time-out, and its object does not read withheld (03 R60). -/
def State.timedOut (s : State) (p : Place) (q : SeqId) : Bool :=
  match s.waitOf p q with
  | some w =>
    match w.why with
    | .object o => w.left == some 0 && !s.withheld (s.partNo p) o
    | _ => false
  | none => false

/-- The time-out of a wait runs out: the sequencer performs its instruction again, which completes with the time-out's
result. -/
def execWaitTimeout (p : Place) (q : SeqId) (s : State) : Host.Outcome State Fault Refusal :=
  if s.timedOut p q then .next { s with agenda := .run p q :: s.agenda } else .next s

/-! ## The page service (22 R298, 03 R45) -/

/-- The sequencer stalled in `spawn` on a core, with the TCB that it pushes. -/
def State.stalledSpawn (s : State) (p : Place) : Option (SeqId × Tcb) :=
  [SeqId.as, SeqId.xs].findSome? fun q =>
    match (s.seqAt p q).spawnWait with
    | some w =>
      match w.pkt with
      | some (_, _, .shipment _ (t :: _)) => some (q, t)
      | _ => none
    | none => none

/-- A stalled `spawn` goes on: its TCB is pushed and it completes. -/
def State.resumeSpawn (s : State) (p : Place) (q : SeqId) (t : Tcb) : State :=
  (s.pushTcb p t).modSeqAt p q fun c => c.retire 8 .fall

/-- The cause that a strand parked on a fault is ended with. -/
def State.parkedCause (s : State) (p : Place) : Cause :=
  if (s.strand p).csr.cause.code = 0x15 then .streamFault else .translation

/-- A strand parked on a fault whose core lacks a feature that it needs is moved whole to the nearest capable core, or ended
where there is none (22 R298 row 0x06, R305, R315). -/
def State.rehouse (s : State) (p : Place) : State :=
  match s.nearest p (s.strand p).act.freq with
  | some q => s.migrate p q id
  | none => s.endOr p .featureAbsent (s.modCore p fun c => { c with parkedFault := false })

/-- A strand parked on a fault is ready to resume: it goes on, or is moved first where its core has lost a feature that it
needs (22 R315). -/
def State.unparkFault (s : State) (p : Place) : State :=
  if meets (s.core p).feat (s.strand p).act.freq then s.modCore p fun c => { c with parkedFault := false } else s.rehouse p

/-- The host's memory service answers for the page that a core's strand waits for. -/
def execPageServiceAnswer (p : Place) (mapped : Bool) (s : State) : Host.Outcome State Fault Refusal :=
  if (s.core p).parkedFault then
    .next (if mapped then s.unparkFault p else s.endOr p (s.parkedCause p)
      (s.modCore p fun c => { c with parkedFault := false }))
  else
    match s.stalledSpawn p with
    | none => .next s
    | some (q, t) =>
      if !mapped then
        .next ((s.killStrand p .translation).stopLaunch (s.partNo p))
      else if s.overflowMapped p then .next (s.resumeSpawn p q t)
      else .next s

/-! ## Stuck heads (01 R30) -/

/-- The head packet of a virtual network at a router's input belongs to a partition and has not advanced for STUCKLIM
fabric cycles; 13 of them make a tick. DESIGN CHOICE (log 122): its timer runs from its arrival at the router, not from when
it became the head. -/
def State.stuckHead (s : State) (router port : Nat) (vn : Vn) (part : Nat) : Bool :=
  let fs := s.flights
  fs.any fun f => f.vn == vn && f.part == part && f.way.port == port && (f.way.path.head?.map (·.node)) == some router
    && f.isHead fs && decide (s.fab.stucklim ≤ 13 * (s.tick - f.way.moved))

/-- The router logs the head and limits the partition's injection on the network for 1,024 ticks. -/
def execStuckTimerExpiry (router port : Nat) (vn : Vn) (part : Nat) (s : State) : Host.Outcome State Fault Refusal :=
  if s.stuckHead router port vn part then
    .next ((s.log (.stuck router port vn part)).modPart part fun t => { t with
      limited := (t.limited.filter fun e => e.1 != vn) ++ [(vn, s.tick + 1024)] })
  else .next s

/-- The limit lifts after 1,024 ticks with no further expiry. -/
def execInjectionLimitLift (vn : Vn) (part : Nat) (s : State) : Host.Outcome State Fault Refusal :=
  .next (s.modPart part fun t => { t with limited := t.limited.filter fun e => !(e.1 == vn && decide (e.2 ≤ s.tick)) })

/-! ## Dead links (01 R31) -/

/-- A lost packet is counted at its source core. -/
def State.countLost (s : State) (src : Place) : State :=
  if src < 16384 then s.modCore src fun c => { c with lost := if c.lost = BitVec.allOnes 32 then c.lost else c.lost + 1 }
  else s

/-- A way's next hop is over a dead link. -/
def State.onDeadLink (s : State) (w : Way) : Bool := (w.path.head?.map s.deadHop).getD false

/-- A packet, or an access on its way, is lost on a dead link: its source core counts it once. -/
def State.losePacket (s : State) (num : Nat) : State :=
  match s.fab.net.find? fun k => k.num == num && !k.lost && s.onDeadLink k.way with
  | some k =>
    ({ s with fab := { s.fab with
        net := s.fab.net.map fun x => if x.num = num then { x with lost := true } else x } } : State).countLost k.src
  | none =>
    match s.fab.bufs.find? fun a => a.num == num && !a.lost && s.onDeadLink a.way with
    | some a =>
      ({ s with fab := { s.fab with
          bufs := s.fab.bufs.map fun x => if x.num = num then { x with lost := true } else x } } : State).countLost a.src
    | none => s

/-- A router is one of the partition's rectangle. -/
def Part.holdsNode (t : Part) (n : Nat) : Bool :=
  let r := n / 128
  let c := n % 128
  decide (t.attrs.clu / 64 < r) && decide (r ≤ t.attrs.clu / 64 + t.attrs.nrows)
    && decide (t.attrs.clu % 64 < c) && decide (c ≤ t.attrs.clu % 64 + t.attrs.ncols)

/-- The partition has a route through a link (R28, R29): a column's link carries requests of every partition to the
stations of its column; a row's link carries those from the partition's own rows, the answers along the station rows, what
comes from the edge nodes of its rows, and along rows 0 and 31 what a station sends to an edge node; a wrap link or a link
of the SYNC tree joins routers of the one partition whose rectangle was stitched with it. DEDUCED (log 61). -/
def State.routesOver (s : State) (e : Nat × Part) (link : Nat) : Bool :=
  let a := link / 4 / 8192
  let b := link / 4 % 8192
  let row := a / 128
  if link % 4 = 0 then
    row != b / 128 || row == 0 || row == 33 || row == 1 || row == 9 || row == 32
      || (decide (e.2.attrs.clu / 64 < row) && decide (row ≤ e.2.attrs.clu / 64 + e.2.attrs.nrows))
      || s.sublinks.any fun x => x.2.owner == some e.1 && x.1 / 8 + 1 == row
  else e.2.holdsNode a && e.2.holdsNode b && e.2.attrs.shape != 0 && (link % 4 == 2) == (e.2.attrs.shape == 4)

/-- The partitions with a route through a link pause injection at their sources. -/
def State.pauseOver (s : State) (link : Nat) : State :=
  { s with parts := s.parts.map fun (e : Nat × Part) => (e.1, { e.2 with paused := e.2.paused || s.routesOver e link }) }

/-- Every partition resumes injection. -/
def State.resumeAll (s : State) : State :=
  { s with parts := s.parts.map fun (e : Nat × Part) => (e.1, { e.2 with paused := false }) }

/-- Steps 1 to 3: the link is out of use at both its ends, injection pauses where a route passes it, and packets on it are
discarded. A further link joins the same reroute. -/
def execLinkDead (link : Nat) (lost : List Nat) (s : State) : Host.Outcome State Fault Refusal :=
  if s.fab.deadLinks.contains link then .next s
  else
    let s := { s with fab := { s.fab with deadLinks := s.fab.deadLinks ++ [link], draining := true } }
    .next (lost.foldl State.losePacket (s.pauseOver link))

/-- The way of a packet after a reroute: a lost one starts again at its source, and one with a dead link ahead follows the
detour entries from the router at which it is. -/
def State.reroute (s : State) (pn : Nat) (src dst : Place) (vn : Vn) (lost : Bool) (w : Way) : Way :=
  if lost then s.wayFor pn src dst vn
  else
    match w.path with
    | h :: _ =>
      if w.path.any s.deadHop then
        { w with path := (s.detour (h.node / 128, h.node % 128) (s.spotOf dst)).getD w.path, moved := s.tick }
      else w
    | [] => w

/-- Steps 4 and 5: the detours stand, injection resumes, and every lost packet is sent again in its place. -/
def execRerouteResume (s : State) : Host.Outcome State Fault Refusal :=
  if s.fab.draining then
    .next ({ s with fab := { s.fab with
      draining := false
      net := s.fab.net.map fun k => { k with lost := false, way := s.reroute k.part k.src k.dst k.vn k.lost k.way }
      bufs := s.fab.bufs.map fun a => { a with
        lost := false, way := s.reroute (s.partNo a.src) a.src (homePlace a.src a.home) a.vn a.lost a.way } } } : State).resumeAll
  else .next s

end Sys2Proof.Machine
end

