-- ==== Sys2Proof/Machine/Tenants.lean ====
section
/-! DEFINITION. Tenants of a partition: slices and switches (22 R301, R302), save records (R303), and what a restore makes
of one (R304, R305). -/

namespace Sys2Proof.Machine

/-! ## A partition's on-chip state -/

/-- The cluster that holds an on-chip byte. -/
def chipCluster (k : Nat) : Option Nat := if 2 ^ 63 ≤ k ∧ k < 2 ^ 64 then some (bitsAt k 37 11) else none

/-- A byte of a CP's supervisor region (22 R293). -/
def supervisorKey (k : Nat) : Bool :=
  bitsAt k 28 6 == 0 && decide (0xEC00 ≤ bitsAt k 0 28) && decide (bitsAt k 0 28 < 0xFC00)

/-- A byte of CP or CM in a partition. -/
def Part.hasKey (t : Part) (k : Nat) : Bool :=
  match chipCluster k with
  | some c => t.holds? c
  | none => false

/-- Those outside the supervisor region. -/
def Part.ownsKey (t : Part) (k : Nat) : Bool := t.hasKey k && !supervisorKey k

/-- A home on the partition's clusters. -/
def Part.ownsHome (t : Part) (h : Home) : Bool :=
  match h with
  | .cp p _ => t.hasCore p
  | .cm c _ => t.holds? c
  | _ => false

/-- A core with none of a tenant's state: what hardware and firmware gave it stays. -/
def Core.cleared (c : Core) : Core :=
  { Core.reset with
    part := c.part, bin := c.bin, cur := c.cur, state := c.state, feat := c.feat, retiring := c.retiring, lost := c.lost
    stvec := c.stvec, testing := c.testing }

/-- A core's own fields with a saved tenant's state. -/
def Core.loaded (c saved : Core) : Core :=
  { saved with
    part := c.part, bin := c.bin, cur := c.cur, state := c.state, feat := c.feat, retiring := c.retiring, lost := c.lost
    stvec := c.stvec, testing := c.testing, filter := [], overflowed := false }

/-- CP outside the supervisor region, CM, recorders and all queue state are zeroed (R302 step 6, R313 step 3). -/
def State.zeroChip (s : State) (pn : Nat) : State :=
  let t := s.part pn
  let s := s.dropEntries pn
  let s := { s with
    mem := s.mem.filter fun c => !t.ownsKey c.1
    fab := { s.fab with
      lines := s.fab.lines.filter fun e => !t.ownsHome e.home
      ranges := s.fab.ranges.filter fun e => !t.ownsHome e.home } }
  let s := t.coresOf.foldl (fun s p => s.modCore p Core.cleared) s
  s.modPart pn fun t => { t with holds := [], parked := [], marks := [], pois := [], stages := [], launch := none }

/-! ## Saving (R303) -/

/-- A partition's core whose strand is parked on a fault, or stalled in `spawn`. -/
def Core.onFault (c : Core) : Bool := c.running && (c.parkedFault || c.spawnStalled)

/-- The features that a candidate's handler needs. -/
def State.descFreq (s : State) (pn : Nat) (p : Place) (hidx : Nat) : BitVec 16 :=
  match s.descAt pn p hidx with
  | some d => d.freq
  | none => 0

/-- The handlers of a core's completion-queue entries. -/
def State.cplHandlers (s : State) (p : Place) : List Nat :=
  (s.core p).work.cplq.filterMap fun e => (s.cmd e.cmd).map fun c => bitsAt (leOf c.blk) 32 16

/-- The features that the strand and the candidates of a core need. -/
def State.coreNeeds (s : State) (pn : Nat) (p : Place) : BitVec 16 :=
  let c := s.core p
  let own : BitVec 16 := if c.running then c.st.act.freq else 0
  let hs := (c.work.inbox.map fun e => hdrHidx e.msg.hdr) ++ ((c.work.deque ++ c.work.overflow).map Tcb.hidx)
    ++ ((c.objs.mbs.filter fun e => e.2.ahv && e.2.head.isSome).map fun e => e.2.aidx) ++ s.cplHandlers p
  hs.foldl (fun f h => f ||| s.descFreq pn p h) own

/-- FNEED: the features of every saved strand and candidate. -/
def State.needs (s : State) (pn : Nat) : BitVec 16 :=
  let t := s.part pn
  t.parked.foldl (fun f k => f ||| k.st.act.freq) (t.coresOf.foldl (fun f p => f ||| s.coreNeeds pn p) 0)

/-- The header of a record. -/
def recordHeader (body : List Byte) (version : BitVec 32) (layout : BitVec 16) (nheld : Nat) (fneed : BitVec 16)
    (rows cols pn tn tick : Nat) : BitVec 512 :=
  BitVec.ofNat 512 ((sm3 body).toNat * 2 ^ 256 + body.length % 2 ^ 64 * 2 ^ 192 + version.toNat * 2 ^ 160
    + layout.toNat * 2 ^ 144 + nheld % 2 ^ 16 * 2 ^ 128 + fneed.toNat * 2 ^ 112 + (rows - 1) % 32 * 2 ^ 95
    + (cols - 1) % 64 * 2 ^ 89 + pn % 512 * 2 ^ 80 + tn % 256 * 2 ^ 72 + tick % 2 ^ 64)

/-- The engine commands of a partition that are not complete. -/
def State.openCmds (s : State) (pn : Nat) : List Cmd := s.cmds.filter fun c => c.part == pn && c.phase != .done

/-- A core as a record keeps it: a stream as its descriptor and its next vector (12 R179). -/
def Core.asSaved (c : Core) : Core := { c with st := { c.st with vec := c.st.vec.dropStreams } }

/-- The save record of a partition's present tenant. -/
def State.makeSave (s : State) (pn : Nat) : Save :=
  let t := s.part pn
  let slot := s.fw.active.val
  let body := Config.recordBody s.saves
  let held := t.parked.length + (t.coresOf.filter fun p => (s.core p).onFault).length
  { header := recordHeader body (Config.fwVersion slot) (Config.fwLayout slot) held (s.needs pn) t.attrs.nrows t.attrs.ncols
      pn t.tenant s.tick
    body := body, layout := Config.fwLayout slot, fneed := s.needs pn, cols := t.attrs.ncols, rows := t.attrs.nrows
    clu := t.attrs.clu, tick := s.tick, mem := s.mem.filter fun c => t.hasKey c.1
    cores := (s.cores.filter fun e => t.hasCore e.1).map fun (e : Nat × Core) => (e.1, e.2.asSaved)
    holds := t.holds, parked := t.parked, marks := t.marks, pois := t.pois, stages := t.stages, launch := t.launch
    cmds := s.openCmds pn }

/-- The present tenant's record stays in HBM. -/
def State.saveTenant (s : State) (pn : Nat) : State :=
  let r := s.makeSave pn
  ({ s with saves := s.saves + 1 } : State).modTenant pn (s.part pn).tenant fun x => { x with saved := some r }

/-! ## Ticks moved (R305) -/

/-- An absolute tick moved by the restore tick less the record's, which a record of a module whose ticks run ahead makes
negative. -/
def shiftTick (d : Int) (t : Nat) : Nat := ((t : Int) + d).toNat

/-- Where 0 is no tick. -/
def laterTick (d : Int) (t : Nat) : Nat := if t = 0 then 0 else shiftTick d t

def laterWord (d : Int) (w : Word) : Word :=
  if w = 0 then 0 else BitVec.ofNat 64 (min (shiftTick d w.toNat) (2 ^ 64 - 1))

def Seq.later (d : Int) (c : Seq) : Seq :=
  { c with wait := c.wait.map fun w =>
      { w with till := if w.why = .pausing ∨ w.why = .hint then shiftTick d w.till else w.till } }

def Strand.later (d : Int) (t : Strand) : Strand :=
  { t with
    act := { t.act with t0 := shiftTick d t.act.t0 }
    as := t.as.later d
    xs := t.xs.later d
    csr := { t.csr with deadline := laterWord d t.csr.deadline } }

def Burr.later (d : Int) (b : Burr) : Burr :=
  { b with first := laterTick d b.first, last := laterTick d b.last, released := laterTick d b.released }

def MeshArr.later (d : Int) (a : MeshArr) : MeshArr :=
  { a with first := shiftTick d a.first, last := shiftTick d a.last }

def Msh.later (d : Int) (m : Msh) : Msh :=
  { m with
    burr := m.burr.later d
    arrived := m.arrived.map fun e => (e.1, e.2.1, e.2.2.later d)
    heldSince := m.heldSince.map (shiftTick d)
    spans := m.spans.map fun e => (shiftTick d e.1, shiftTick d e.2) }

def Slot.later (d : Int) (x : Slot) : Slot :=
  match x with
  | .filled t o src r v n f => .filled (shiftTick d t) o src r v n f
  | x => x

/-- A message's send tick and a root's deadline. -/
def Msg.later (d : Int) (m : Msg) : Msg :=
  { m with
    rr := m.rr % 2 ^ 32 + BitVec.ofNat 64 ((((m.rr.toNat / 2 ^ 32 : Nat) : Int) + d) % 2 ^ 32).toNat <<< 32
    dl := laterWord d m.dl }

def Work.later (d : Int) (w : Work) : Work :=
  { w with
    inbox := w.inbox.map fun e => { e with tick := shiftTick d e.tick, msg := e.msg.later d }
    cplq := w.cplq.map fun e => { e with tick := shiftTick d e.tick }
    deque := w.deque.map fun t => { t with born := shiftTick d t.born }
    overflow := w.overflow.map fun t => { t with born := shiftTick d t.born } }

def Core.later (d : Int) (c : Core) : Core :=
  { c with
    st := c.st.later d
    objs := { c.objs with
      mshs := c.objs.mshs.map fun e => (e.1, e.2.later d)
      mbs := c.objs.mbs.map fun e => (e.1, { e.2 with slots := e.2.slots.map (Slot.later d) }) }
    work := c.work.later d }

/-- The bytes of CP in which filled slots hold their arrival ticks. -/
def slotTicks (p : Place) (c : Core) (d : Int) : List (Nat × Byte) :=
  c.objs.mbs.flatMap fun e =>
    e.2.slots.zipIdx.flatMap fun x =>
      match x.1 with
      | .filled t _ _ _ _ _ _ =>
        (span (Key.cp p (e.2.offset x.2 + if e.2.gaussian then 16 else 56)) 8).zip (leBytesOf 8 (shiftTick d t))
      | _ => []

/-! ## Loading -/

/-- A cluster of a record's rectangle, as a cluster of the partition's. -/
def moveClu (from_ to_ clu : Nat) : Nat :=
  (to_ / 64 + (clu / 64 - from_ / 64)) * 64 + (to_ % 64 + (clu % 64 - from_ % 64))

/-- A core of a record's rectangle; any other place is no core of it and stays. -/
def movePlace (from_ to_ : Nat) (p : Place) : Place :=
  if p < 16384 then moveClu from_ to_ (p / 8) * 8 + p % 8 else p

def moveKey (from_ to_ k : Nat) : Nat :=
  match chipCluster k with
  | some c => k - c * 2 ^ 37 + moveClu from_ to_ c * 2 ^ 37
  | none => k

def moveObj (from_ to_ : Nat) (o : ObjRef) : ObjRef := { o with place := movePlace from_ to_ o.place }

/-! The hardware's own references to the cores of a record, in the partition that loads it. DEDUCED (log 65). -/

/-- Sixteen bits of a number that hold a place. -/
def moveField (from_ to_ at_ n : Nat) : Nat :=
  n - bitsAt n at_ 16 * 2 ^ at_ + movePlace from_ to_ (bitsAt n at_ 16) % 65536 * 2 ^ at_

def moveHdr (from_ to_ : Nat) (h : Word) : Word := BitVec.ofNat 64 (moveField from_ to_ 0 h.toNat)

def Wait.moved (w : Wait) (from_ to_ : Nat) : Wait :=
  { w with why := match w.why with
      | .object o => .object (moveObj from_ to_ o)
      | y => y }

def Seq.moved (c : Seq) (from_ to_ : Nat) : Seq := { c with wait := c.wait.map fun w => w.moved from_ to_ }

def Strand.moved (t : Strand) (from_ to_ : Nat) : Strand :=
  { t with
    act := { t.act with
      plist := t.act.plist.map (moveObj from_ to_)
      declared := t.act.declared.map (moveObj from_ to_)
      owed := t.act.owed.map fun o => { o with place := movePlace from_ to_ o.place }
      holdReq := t.act.holdReq.map fun e => (movePlace from_ to_ e.1, e.2) }
    as := t.as.moved from_ to_
    xs := t.xs.moved from_ to_ }

def Msg.moved (m : Msg) (from_ to_ : Nat) : Msg := { m with hdr := moveHdr from_ to_ m.hdr }

def MeshArr.moved (a : MeshArr) (from_ to_ : Nat) : MeshArr :=
  { a with members := a.members.map (movePlace from_ to_), lastPlace := movePlace from_ to_ a.lastPlace }

/-- A mesh barrier's rectangle begins at the cluster that the block's low bits name. -/
def Msh.moved (m : Msh) (from_ to_ : Nat) : Msh :=
  let n := m.block.toNat
  { m with
    block := if n = 0 then m.block
      else BitVec.ofNat 128 (n - bitsAt n 0 11 + moveClu from_ to_ (bitsAt n 0 11))
    burr := { m.burr with lastPlace := if m.burr.released = 0 then m.burr.lastPlace else movePlace from_ to_ m.burr.lastPlace }
    arrived := m.arrived.map fun e => (moveClu from_ to_ e.1, e.2.1, e.2.2.moved from_ to_) }

def Slot.moved (x : Slot) (from_ to_ : Nat) : Slot :=
  match x with
  | .filled t o src r v n f => .filled t o (movePlace from_ to_ src) r v n f
  | x => x

def Objs.moved (o : Objs) (from_ to_ : Nat) : Objs :=
  { o with
    mshs := o.mshs.map fun e => (e.1, e.2.moved from_ to_)
    mbs := o.mbs.map fun e => (e.1, { e.2 with slots := e.2.slots.map fun x => x.moved from_ to_ })
    tcs := o.tcs.map fun e => (e.1, { e.2 with target := movePlace from_ to_ e.2.target }) }

def Tcb.moved (t : Tcb) (from_ to_ : Nat) : Tcb := { t with src := movePlace from_ to_ t.src }

def Work.moved (w : Work) (from_ to_ : Nat) : Work :=
  { w with
    inbox := w.inbox.map fun e => { e with msg := e.msg.moved from_ to_, sender := movePlace from_ to_ e.sender }
    deque := w.deque.map fun t => t.moved from_ to_
    overflow := w.overflow.map fun t => t.moved from_ to_
    shipments := w.shipments.map fun e =>
      { e with thief := movePlace from_ to_ e.thief, tcbs := e.tcbs.map fun t => t.moved from_ to_ }
    accepted := w.accepted.map fun e => (movePlace from_ to_ e.1, e.2)
    asm := w.asm.map fun e => (movePlace from_ to_ e.1, e.2) }

def Core.moved (c : Core) (from_ to_ : Nat) : Core :=
  { c with st := c.st.moved from_ to_, objs := c.objs.moved from_ to_, work := c.work.moved from_ to_ }

/-- A command: its issuer, its engine where that belongs to a core, and the place that it notifies. -/
def Cmd.moved (c : Cmd) (from_ to_ : Nat) : Cmd :=
  { c with
    issuer := movePlace from_ to_ c.issuer
    eng := { c.eng with place := BitVec.ofNat 16 (movePlace from_ to_ c.eng.place.toNat) }
    blk := if bitAt (leOf c.blk) 57 then leBytesOf c.blk.length (moveField from_ to_ 64 (leOf c.blk)) else c.blk }

def Poster.moved (p : Poster) (from_ to_ : Nat) : Poster :=
  match p with
  | .strand proc blk place ntag =>
    .strand proc blk (movePlace from_ to_ place) (ntag.map fun e => (e.1, movePlace from_ to_ e.2))
  | p => p

def Stage.movedTo (g : Stage) (from_ to_ : Nat) : Stage :=
  { g with home := movePlace from_ to_ g.home, pool := g.pool.map (movePlace from_ to_) }

/-- One saved core loaded. -/
def State.loadCore (s : State) (r : Save) (to_ : Nat) (e : Nat × Core) : State :=
  let p := movePlace r.clu to_ e.1
  let d := (s.tick : Int) - r.tick
  let c := e.2.later d
  { s.modCore p (·.loaded (c.moved r.clu to_)) with mem := Memory.setAll s.mem (slotTicks p e.2 d) }

/-- A parked strand of a restored record that its core cannot take is placed on the nearest capable core, or, where there is
none, ended as its micro-kernel would end it (R305, R298 row 0x06); under DEBUGHOLD a held one stays held. -/
def State.placeParked (s : State) (pn : Nat) (k : Parked) : State :=
  if meets (s.core k.place).feat k.st.act.freq then s
  else
    match s.nearest k.place k.st.act.freq with
    | some q => s.modPart pn fun t => { t with
        parked := t.parked.map fun j => if j.st.act.sid = k.st.act.sid then { j with place := q } else j }
    | none =>
      if (s.part pn).attrs.debugHold && k.hold != 0 then s
      else (s.log (.ended k.place k.st.act.sid .featureAbsent k.st.act.dlmiss)).endParked pn k true

/-- A strand parked on a fault keeps its core (16 R252): one that the core cannot take moves whole, or ends. -/
def State.placeOnFault (s : State) (p : Place) : State :=
  if !(s.core p).onFault || meets (s.core p).feat (s.strand p).act.freq then s else s.rehouse p

/-- Every strand of a restored record stands on a core that can take it. -/
def State.placeStrands (s : State) (pn : Nat) : State :=
  (s.part pn).coresOf.foldl State.placeOnFault ((s.part pn).parked.foldl (fun s k => s.placeParked pn k) s)

/-- A record becomes the state of a partition whose cores hold none. -/
def State.loadSave (s : State) (pn : Nat) (r : Save) : State :=
  let to_ := (s.part pn).attrs.clu
  let d := (s.tick : Int) - r.tick
  let s := { s with
    mem := Memory.setAll (s.mem.filter fun c => !(s.part pn).hasKey c.1)
      (r.mem.map fun (c : Host.Cell) => (moveKey r.clu to_ c.1, c.2))
    cmds := s.cmds ++ r.cmds.map fun (c : Cmd) => { c.moved r.clu to_ with
      part := pn
      owed := match c.phase with
        | .landed _ => true
        | _ => false
      phase := match c.phase with
        | .hinted t => .hinted (shiftTick d t)
        | x => x } }
  let s := r.cores.foldl (fun s e => s.loadCore r to_ e) s
  let s := s.modPart pn fun t => { t with
    holds := r.holds.map fun (e : Nat × Hold) => (e.1, { e.2 with place := movePlace r.clu to_ e.2.place })
    parked := r.parked.map fun (k : Parked) => { k with
      place := movePlace r.clu to_ k.place, st := (k.st.later d).moved r.clu to_, since := shiftTick d k.since
      awaits := k.awaits.map (moveObj r.clu to_) }
    marks := r.marks.map fun (m : Mark) => { m with obj := moveObj r.clu to_ m.obj }
    pois := r.pois.map (moveObj r.clu to_)
    stages := r.stages.map fun (e : Nat × Stage) => (e.1, e.2.movedTo r.clu to_)
    launch := r.launch.map fun (l : Launch) => { l with rootTick := laterTick d l.rootTick, sampled := none, by_ := l.by_.moved r.clu to_, prm := { l.prm with
      dl := if l.delivered then l.prm.dl else laterWord d l.prm.dl } } }
  s.placeStrands pn

/-! ## Whether a record qualifies (R304, R305) -/

/-- Every feature of a mask is met by some active core of a partition. -/
def State.featuresMet (s : State) (pn : Nat) (need : BitVec 16) : Bool :=
  (List.range 16).all fun i =>
    !need.getLsbD i || (s.part pn).coresOf.any fun p => (s.core p).state != 2 && (s.core p).feat.getLsbD i

/-- The status that refuses a restore into a partition, if any. -/
def State.restoreStatus (s : State) (pn : Nat) (r : Save) : Option Status :=
  let v := (Config.fwLayout s.fw.active.val).toNat
  let t := s.part pn
  if r.layout.toNat + 1 < v ∨ v < r.layout.toNat then some .layoutUnsupported
  else if r.header.extractLsb' 256 256 != sm3 r.body then some .corrupt
  else if r.cols ≠ t.attrs.ncols ∨ r.rows ≠ t.attrs.nrows then some .shape
  else if !s.featuresMet pn r.fneed then some .features
  else none

/-! ## Slices (R301) -/

/-- A tenant with work to be sliced in for: a posted launch, or one that its record holds. -/
def Tenant.waiting (x : Tenant) : Bool := !x.queue.isEmpty || x.saved.any (·.launch.isSome)

/-- A tenant may be sliced in: its record, where it has one, qualifies (R302 step 7). -/
def State.sliceable (s : State) (pn : Nat) (x : Tenant) : Bool :=
  match x.saved with
  | some r => (s.restoreStatus pn r).isNone
  | none => true

/-- The tenant after the present one, in turn, that waits. -/
def State.nextTenant (s : State) (pn : Nat) : Option Nat :=
  let t := s.part pn
  let others := (t.tenants.filter fun e => e.1 != t.tenant && e.2.waiting && s.sliceable pn e.2).map (·.1)
  match others.find? fun n => decide (t.tenant < n) with
  | some n => some n
  | none => others.head?

/-- TSLICE expires: a slice with no other tenant waiting is extended; otherwise the switch begins (R302 step 1). -/
def execTsliceExpiry (part : Nat) (s : State) : Host.Outcome State Fault Refusal :=
  let t := s.part part
  if t.switching || decide (s.tick < t.sliceAt) then .next s
  else if (s.nextTenant part).isSome then .next (s.modPart part fun t => { t with switching := true })
  else .next (s.modPart part fun t => { t with sliceAt := s.tick + t.attrs.tslice })

/-! ## The switch (R302) -/

/-- A command that is not in an engine: still unsent, or with only its completion steps left (14 R221). -/
def Phase.saveable : Phase → Bool
  | .accepted | .faulted _ _ => false
  | _ => true

/-- Steps 2 to 4 are done: no strand runs but those on faults, accepted commands have made their last write, the fabric is
drained. -/
def State.drained (s : State) (pn : Nat) : Bool :=
  let t := s.part pn
  (t.coresOf.all fun p => !(s.core p).running || (s.core p).onFault)
    && (s.cmds.all fun c => c.part != pn || c.phase.saveable)
    && (s.fab.net.all fun k => k.part != pn) && (s.fab.retries.all fun r => r.pkt.part != pn)
    && ((s.fab.issue ++ s.fab.bufs).all fun a => (s.core a.src).part != some pn)

/-- Steps 5 to 7; the record of the tenant sliced in stays (R303). -/
def State.switchTo (s : State) (pn tn : Nat) : State :=
  let s := s.saveTenant pn
  let s := s.zeroChip pn
  let s : State := { s with cmds := s.cmds.filter fun c => c.part != pn || c.phase == .done }
  let saved := (Table.find (s.part pn).tenants tn).bind (·.saved)
  let s := match saved with
    | some r => s.loadSave pn r
    | none => s
  s.modPart pn fun t => { t with
    tenant := tn, switching := false, sliceAt := s.tick + t.attrs.tslice }

def execTenantSwitch (part : Nat) (s : State) : Host.Outcome State Fault Refusal :=
  let t := s.part part
  if !t.switching || !s.drained part then .next s
  else
    match s.nextTenant part with
    | some n => .next (s.switchTo part n)
    | none => .next (s.modPart part fun t => { t with switching := false, sliceAt := s.tick + t.attrs.tslice })

end Sys2Proof.Machine
end

