-- ==== Sys2Proof/Machine/Health.lean ====
section
/-! DEFINITION. Self-tests (22 R314), retirement of features and clusters (R315, 01 R12 to R14), uncorrectable reads. -/

namespace Sys2Proof.Machine

/-! ## Physical places (01 R12, R13; 22 R310) -/

/-- The place-table entry of a logical cluster of a partition: its physical cluster, or absent. -/
def State.entryOf (s : State) (clu : Nat) : BitVec 16 :=
  match s.pcnOf clu with
  | some n => BitVec.ofNat 16 (0x8000 + n)
  | none => 0x4000

/-- The logical clusters that are absent (01 R13). -/
def State.absent (s : State) : List Nat :=
  if s.retired.isEmpty then []
  else (List.range 2048).filter fun clu => decide (clu % 64 < s.cols) && (s.pcnOf clu).isNone

/-- A place table with the clusters' present places, absent ones included. -/
def State.presentPlaces (s : State) (t : Table (BitVec 16)) : Table (BitVec 16) :=
  s.absent.foldl (fun t c => if t.isEmpty then t else Table.set t c 0x4000)
    (t.map fun x => if x.2.getLsbD 15 then (x.1, s.entryOf x.1) else x)

/-- Every place table of every partition rewritten while injection is paused: every core uses the new entries from its next
instruction boundary (R315 step 6, R321). -/
def State.rewritePlaces (s : State) : State :=
  { s with
    clusters := s.clusters.map fun e => (e.1, { e.2 with place := s.presentPlaces e.2.place })
    cores := s.cores.map fun e => (e.1, { e.2 with oldTabs := e.2.oldTabs.map fun t => (s.presentPlaces t.1, t.2) }) }

/-- The number of a physical core. -/
def physCore (pcn k : Nat) : Nat := pcn * 8 + k

/-- The features that a physical core has lost: before boot, and since (01 R14; 22 R315). The RLC is its cluster's: all 8
cores have it, or none (01 R24). -/
def State.lacks (s : State) (phys : Nat) : BitVec 16 :=
  Config.lacks phys &&& ~~~ 0x10#16 ||| Config.lacks (physCore (phys / 8) 0) &&& 0x10#16 ||| Table.get 0 s.worn phys

/-- What a core has of the physical core that holds it: BIN, the features, the state (01 R21, R24). A core without a
strand adopts its code at once (R20, R22). -/
def State.seatCore (s : State) (p : Place) : State :=
  match s.pcnOf (p / 8) with
  | some n =>
    let lacks := s.lacks (physCore n (p % 8))
    s.modCore p fun c =>
      let c := { c with
        bin := Config.binCode s.fw.boots (physCore n (p % 8)), feat := s.variantMask &&& ~~~ lacks, retiring := 0
        state := if s.variantMask &&& lacks = 0 then 0 else 1 }
      if c.running then c else c.adopt s.gov.g.val
  | none => s.modCore p fun c => { c with feat := 0, state := 2 }

/-! ## Self-tests (R314) -/

/-- The cores whose strands a test waits for. -/
def testCores : TestUnit → List Place
  | .feature p _ => [p]
  | .shared clu => (List.range 8).map fun k => clu * 8 + k

/-- A test begins once the cores concerned have no strand. -/
def execSelfTestStart (u : TestUnit) (s : State) : Host.Outcome State Fault Refusal :=
  if (testCores u).any fun p => (s.core p).running then .next s
  else
    match u with
    | .feature p _ => .next (s.modCore p fun c => { c with testing := true })
    | .shared clu => .next (s.modClus clu fun k => { k with testing := true })

/-- A feature lost by the physical core that holds a logical one. -/
def State.wear (s : State) (p : Place) (bit : Fin 5) : State :=
  match s.pcnOf (p / 8) with
  | some n =>
    let k := physCore n (p % 8)
    { s with worn := Table.set s.worn k (Table.get 0 s.worn k ||| BitVec.ofNat 16 (2 ^ bit.val)) }
  | none => s

/-- The launch of a partition after a retirement. -/
def State.noteRetired (s : State) (pn : Nat) (lostMarks : Bool) : State :=
  s.modPart pn fun t => { t with launch := t.launch.map fun l =>
    { l with retired := true, poison := l.poison || lostMarks } }

/-- The feature of a failed unit: the RLC's is that of all the cluster's cores. A launch in flight carries RETIRED
(03 R53). -/
def retireFeature (s : State) (p : Place) (bit : Fin 5) : State :=
  let s := s.noteRetired (s.partNo p) false
  let mark (s : State) (q : Place) : State :=
    (s.wear q bit).modCore q fun c =>
      let c := { c with retiring := c.retiring ||| BitVec.ofNat 16 (2 ^ bit.val) }
      if c.running then c else c.adopt s.gov.g.val
  if bit.val = 4 then ((List.range 8).map fun k => p / 8 * 8 + k).foldl mark s else mark s p

/-- The test ends: a pass is logged as transient; a fail as lasting, and the unit is retired. -/
def execSelfTestEnd (u : TestUnit) (pass : Bool) (s : State) : Host.Outcome State Fault Refusal :=
  match u with
  | .feature p bit =>
    if !(s.core p).testing then .next s
    else
      let s := s.modCore p fun c => { c with testing := false }
      .next (if pass then s.log (.transient u) else retireFeature (s.log (.lasting u)) p bit)
  | .shared clu =>
    if !(s.clus clu).testing then .next s
    else
      let s := s.modClus clu fun k => { k with testing := false }
      .next (if pass then s.log (.transient u) else (s.log (.lasting u)).modClus clu fun k => { k with stopped := true })

/-! ## Cluster retirement (R315) -/

/-- The logical clusters of a cluster's die column at its row or below. -/
def southOf (clu : Nat) : List Nat :=
  ((List.range 8).map fun l => (clu / 512 * 8 + l) * 64 + clu % 64).filter fun n => decide (clu ≤ n)

/-- The cores of clusters. -/
def coresIn (cs : List Nat) : List Place := cs.flatMap fun c => (List.range 8).map fun k => c * 8 + k

/-- A strand of a partition holds marks. -/
def State.hasMarks (s : State) (pn sid : Nat) : Bool := (s.part pn).marks.any fun m => m.sid == sid

/-- The strands of a core of the retired cluster end, the running one and those held or parked there, their marks
poisoned; the second result says that one held marks. -/
def State.loseStrands (s : State) (p : Place) : State × Bool :=
  let pn := s.partNo p
  let sid := (s.strand p).act.sid
  let r := if (s.core p).running then (((s.poisonMarks pn sid).endStrand p true), s.hasMarks pn sid) else (s, false)
  ((s.part pn).parked.filter (·.place == p)).foldl (fun (x : State × Bool) k =>
    (x.1.endParked pn k true, x.2 || x.1.hasMarks pn k.st.act.sid)) r

/-- The state of a retired cluster that the self-test found unreadable is lost: what waits at its cores, and the bytes of
CP and CM, which then hold what the spare held. -/
def State.loseCluster (s : State) (clu : Nat) : State :=
  let s := (coresIn [clu]).foldl (fun s p => s.modCore p fun c => { c with
    objs := Objs.reset
    work := { c.work with inbox := [], cplq := [], deque := [] }, nE := [], nW := [], pendFaults := [] }) s
  let kept := s.mem.filter fun c => chipCluster c.1 != some clu
  { s with mem := Memory.setAll kept ((Config.spareCells clu).filter fun c => chipCluster c.1 == some clu) }

/-- No spare is left: the launch ends with ABORTED, and the partition must be created again. -/
def State.abortPartition (s : State) (pn : Nat) : State :=
  let s := match (s.part pn).launch with
    | some l => s.completeLaunch pn { l with retired := true, aborted := true } .ok
    | none => s
  s.modPart pn fun t => { t with dead := true }

/-- The steps of a retirement, once the clusters that move stand at handler boundaries. -/
def State.retireCluster (s : State) (clu pn : Nat) : State :=
  let cores := coresIn [clu]
  let r := cores.foldl (fun (x : State × Bool) p =>
    let y := x.1.loseStrands p
    (y.1, x.2 || y.2)) (s, false)
  let s := if Config.unreadable clu then r.1.loseCluster clu else r.1
  let s := s.noteRetired pn r.2
  let pcn := (s.pcnOf clu).getD 0
  let last := (clu / 512 * 8 + 7) * 64 + clu % 64
  let s : State := { s with retired := s.retired ++ [pcn] }
  let s := (coresIn (southOf clu)).foldl State.seatCore s.rewritePlaces
  let s := s.modClus clu fun k => { k with stopped := false }
  if (s.pcnOf last).isSome then s
  else
    match s.parts.find? fun e => e.2.attrs.ncols != 0 && e.2.holds? last with
    | some (q, _) => s.abortPartition q
    | none => s

/-- Clusters that move have no strand but those that are held or on faults. -/
def State.atBoundaries (s : State) (cs : List Nat) : Bool :=
  (coresIn cs).all fun p => !(s.core p).running || (s.core p).onFault

def execClusterRetirement (clu : Nat) (s : State) : Host.Outcome State Fault Refusal :=
  if (s.clus clu).stopped && s.atBoundaries (southOf clu) then .next (s.retireCluster clu (s.partNo (clu * 8)))
  else .next s

/-! ## Uncorrectable reads (R314) -/

/-- A read of a core's sequencers that is on its way and covers an address. -/
def State.readAtAddr (s : State) (p : Place) (addr : Nat) : Option Access :=
  (s.fab.issue ++ s.fab.bufs).find? fun a => a.src == p && a.op == .read && a.addrOf 0 == addr

/-- The read performs nothing and returns no data: ENGINE-FAULT becomes pending at the reading core. -/
def execUncorrectableRead (p : Place) (addr : Nat) (s : State) : Host.Outcome State Fault Refusal :=
  match s.readAtAddr p addr with
  | none => .next s
  | some a =>
    let s := { s with fab := { s.fab with issue := s.fab.issue.erase a, bufs := s.fab.bufs.erase a } }
    .next (s.modCore p fun c => { c with pendFaults := c.pendFaults ++ [(BitVec.ofNat 64 (2 ^ 63 + addr % 2 ^ 63), 0)] })

end Sys2Proof.Machine
end

