-- ==== Sys2Proof/Machine/Block.lean ====
section
/-! DEFINITION. Self-described blocks and planed tensors: where an element lies, its block's code and scale, and its value
(05 R67 to R74, 07 R91). -/

namespace Sys2Proof.Machine

/-- CODE(F) of a declared format (07 R91); none where it has none. -/
def blockCode : MFmt → Option Nat
  | .plain .i32 | .plain .i8 => some 6
  | .plain .f32 => some 1
  | .plain .f16 => some 2
  | .plain .bf16 => some 3
  | .plain .f64 => some 7
  | .plain .e4m3 => some 4
  | .plain .e5m2 => some 5
  | .planed d _ _ => some (16 + d.val)
  | _ => none

/-- The code of an element inside a block: 0x1 stands for INT8 elements (07 R89). -/
def blockElem : XT → XT
  | .i32 => .i8
  | x => x

/-- Elements in a block of a non-planed format (R71). -/
def perBlock (x : XT) : Nat := 62 / (xwidth (blockElem x) / 8)

/-- The offset of the block of element `i` from the tensor's base, or its plane's. -/
def blockOf (f : MFmt) (i : Nat) : Nat :=
  match f with
  | .plain x => i / perBlock x * 64
  | .planed _ _ _ => i / 496 * 64

/-- The bytes of an element within its block: the first and their number. -/
def elemIn (f : MFmt) (i : Nat) : Nat × Nat :=
  match f with
  | .plain x =>
    let n := xwidth (blockElem x) / 8
    (2 + i % perBlock x * n, n)
  | .planed _ _ _ => (2 + i % 496 / 8, 1)

/-- The bytes that a read of element `i` names, from a base and with a plane stride: for each plane read, the block's two
header bytes and the element's. -/
def elemBytesAt (f : MFmt) (base pstride i : Nat) : List Nat :=
  let planes := match f with
    | .plain _ => 1
    | .planed _ k _ => k.val
  (List.range planes).flatMap fun j =>
    let b := base + j * pstride + blockOf f i
    b :: (b + 1) :: span (b + (elemIn f i).1) (elemIn f i).2

/-- The bytes of one element among those read. -/
def elemSize (f : MFmt) : Nat :=
  match f with
  | .plain x => 2 + xwidth (blockElem x) / 8
  | .planed _ k _ => 3 * k.val

/-- The value that the leading k bits of a planed element give, with centring (R68); bits most significant first. -/
def planedValue (d : Nat) (k : Nat) (ctr : Bool) (bits : List Bool) : FVal :=
  let u := bits.foldl (fun n b => 2 * n + b2n b) 0
  let q : Int := if bits.headD false then (u : Int) - (2 ^ k : Nat) else u
  let v : Int := if ctr && decide (k < d) then 2 * q + 1 else 2 * q
  .fin (decide (v < 0)) v.natAbs ((d : Int) - k - 1)

/-- The value of element `i` from the bytes read for it (R68, R73). -/
def elemValue (f : MFmt) (i : Nat) (bs : List Byte) : FVal :=
  let h := (bs.headD 0).toNat
  let e := ((bs.drop 1).headD 0).toNat
  let v : FVal :=
    match f with
    | .plain x => valueOf (blockElem x) (leOf (bs.drop 2))
    | .planed d k ctr =>
      planedValue d.val k.val ctr ((List.range k.val).map fun j =>
        (((bs.drop (3 * j + 2)).headD 0).toNat / 2 ^ (i % 496 % 8)) % 2 == 1)
  match v with
  | .fin n m x => if m = 0 && e != 255 then .fin n 0 x else scaledVal e (h / 64) (.fin n m x)
  | v => scaledVal e (h / 64) v

/-- The blocks of an element carry its format's code (R72): every plane read. -/
def codeOk (f : MFmt) (bs : List Byte) : Bool :=
  match blockCode f with
  | none => false
  | some c =>
    match f with
    | .plain _ => (bs.headD 0).toNat % 64 == c
    | .planed _ k _ => (List.range k.val).all fun j => ((bs.drop (3 * j)).headD 0).toNat % 64 == c

/-- The bytes of consecutive elements cut from one answer. -/
def chunks (n : Nat) : Nat → List Byte → List (List Byte)
  | 0, _ => []
  | k + 1, bs => bs.take n :: chunks n k (bs.drop n)

end Sys2Proof.Machine
end

