-- ==== Sys2Proof/Machine/Vector.lean ====
section
/-! DEFINITION. The vector arithmetic, compare, convert, move, permute, reduce and scan instructions (12 R168 to R175,
R181), on the XS with FEAT.VEC. -/

namespace Sys2Proof.Machine

/-! ## Lanes and elements (R168) -/

abbrev Lanes := Vector Lane 32

/-- Elements of a register. -/
def elemCount (x : XT) : Nat := if x = .f64 then 16 else 32

/-- A lane by number. -/
def laneAt (v : Lanes) (i : Nat) : Lane := (v[i]?).getD 0
/-- A lane replaced. -/
def setLane (v : Lanes) (i : Nat) (w : Lane) : Lanes := if h : i < 32 then v.set i w h else v

/-- The bits of element `e`. -/
def elemAt (x : XT) (v : Lanes) (e : Nat) : Nat :=
  if x = .f64 then (laneAt v (2 * e)).toNat + (laneAt v (2 * e + 1)).toNat * 2 ^ 32
  else (laneAt v e).toNat % 2 ^ widthOf x

/-- The 32-bit lane of a result narrower than 64 bits. -/
def laneOf (x : XT) (r : Nat) : Lane :=
  if x.isSigned then BitVec.ofInt 32 (sval (widthOf x) r) else BitVec.ofNat 32 (r % 2 ^ widthOf x)

/-- Element `e` replaced. -/
def setElem (x : XT) (v : Lanes) (e r : Nat) : Lanes :=
  if x = .f64 then setLane (setLane v (2 * e) (BitVec.ofNat 32 r)) (2 * e + 1) (BitVec.ofNat 32 (r / 2 ^ 32))
  else setLane v e (laneOf x r)

/-- Element `e` is active under a guard mask. -/
def activeElem (x : XT) (m : Lane) (e : Nat) : Bool := m.getLsbD (if x = .f64 then 2 * e else e)

/-- The active elements, in order. -/
def activeElems (x : XT) (m : Lane) : List Nat := (List.range (elemCount x)).filter (activeElem x m)

/-- A register with each active element replaced by `f` of its number, and the flags of all of them. -/
def mapActive (x : XT) (m : Lane) (d : Lanes) (f : Nat → Nat × Flags) : Lanes × Flags :=
  (activeElems x m).foldl (fun r e =>
    let y := f e
    (setElem x r.1 e y.1, r.2 ||| y.2)) (d, 0)

/-! ## Registers in stream mode (R170, R179) -/

/-- The vectors of a stream. -/
def Stream.total (t : Stream) : Nat :=
  let d := t.desc.toNat
  (bitsAt d 416 32 * bitsAt d 352 32 * bitsAt d 288 32 + 31) / 32

/-- A read of a register in stream mode: the next vector; a marked head or the end of the stream raises a trap, and an
empty buffer is waited for. -/
def popStream (r : VReg) (t : Stream) : M Lanes := fun s =>
  if t.total ≤ t.next then trap .streamFault Word.allOnes s
  else
    match t.buf with
    | [] => waitFor .stream s
    | .fault c v :: _ =>
      .error (.trap (if c = .memoryConflict then c else .streamFault) (some v) (.stream r.val))
    | .lanes v :: rest =>
      .ok (v, s.modMy fun m => { m with vec := { m.vec with
        streams := Table.set m.vec.streams r.val { t with buf := rest, next := t.next + 1 } } })

/-- A vector register as a source. -/
def readV (r : VReg) : M Lanes := fun s =>
  match Table.find s.my.vec.streams r.val with
  | some t => popStream r t s
  | none => .ok (s.my.vec.v[r.val], s)

/-- A register that an instruction would write is not in stream mode. -/
def checkVDst (r : VReg) : M Unit := fun s =>
  if (Table.find s.my.vec.streams r.val).isSome then trap .streamFault (BitVec.ofNat 64 r.val) s else .ok ((), s)

/-- A destination as it stands. -/
def oldV (r : VReg) : M Lanes := fun s => .ok (s.my.vec.v[r.val], s)
def writeV (r : VReg) (v : Lanes) : M Unit :=
  modState fun s => s.modMy fun t => { t with vec := { t.vec with v := t.vec.v.set r.val v } }

/-- The guard as the mask of active lanes (07 R88). -/
def guardMask (g : Guard) : M Lane := fun s => .ok (s.seq.mask g, s)

/-- What a vector instruction needs: the XS, VEC, and FP64 for its codes. -/
def needVec (srcs dsts : List Opnd) (feat : BitVec 16) : Need := needXs srcs dsts (2 ||| feat)

/-- A vector instruction: its guard counts as 0 when no lane is active. -/
def performVec (n : Need) (g : Guard) (body : M Next) (s : State) : Host.Outcome State Fault Refusal :=
  performWith 8 n (s.seq.mask g != 0) body s

/-- The operands of a B field. -/
def vsrcOpnds : VSrc → List Opnd
  | .vec _ => []
  | .sca o => [o]

/-- The B operand as a function of the element number; under SB the scalar is read once. -/
def readVSrc (x : XT) (b : VSrc) : M (Nat → Nat) :=
  match b with
  | .vec r => do
    let v ← readV r
    pure (elemAt x v)
  | .sca o => do
    let w ← src o
    pure fun _ => w.toNat % 2 ^ widthOf x

/-- VECOP counts the active elements of an instruction (22 R316). -/
def meterOps (n : Nat) : M Unit :=
  modState fun s => s.modPart (s.partNo s.cur.1) fun t => { t with meter := { t.meter with vecop := t.meter.vecop + n } }

/-! ## Arithmetic (R172, R173) -/

/-- A vector instruction of two sources: `f` gives an element's result from the rounding mode and its operands. -/
def vecBinary (g : Guard) (x : XT) (d a : VReg) (b : VSrc) (f : Nat → Nat → Nat → Nat × Flags) (s : State) :
    Host.Outcome State Fault Refusal :=
  performVec (needVec (vsrcOpnds b) [] (fp64Bit x)) g (do
    checkVDst d
    let va ← readV a
    let vb ← readVSrc x b
    let rm ← roundMode
    let m ← guardMask g
    let old ← oldV d
    let r := mapActive x m old fun e => f rm (elemAt x va e) (vb e)
    writeV d r.1
    meterOps (activeElems x m).length
    raise r.2
    pure .fall) s

/-- An integer element result: reduced to the width, no flag. -/
def intElem (x : XT) (r : Int) : Nat × Flags := ((r % (2 ^ widthOf x : Nat)).toNat, 0)

/-- A value clamped to the range of an integer code. -/
def clampTo (x : XT) (r : Int) : Int := max (intRange x).1 (min (intRange x).2 r)

/-- An element as the saturating forms and comparisons value it. -/
def elemInt (x : XT) (v : Nat) : Int := if x.isSigned then sval (widthOf x) v else v

def vAddElem (x : XT) (sat : Bool) (rm a b : Nat) : Nat × Flags :=
  if x.isInt then intElem x (if sat then clampTo x (elemInt x a + elemInt x b) else (a : Int) + b)
  else fAdd x rm a b

def vSubElem (x : XT) (sat : Bool) (rm a b : Nat) : Nat × Flags :=
  if x.isInt then intElem x (if sat then clampTo x (elemInt x a - elemInt x b) else (a : Int) - b)
  else fSub x rm a b

def execVadd (g : Guard) (x : XT) (sat : Bool) (d a : VReg) (b : VSrc) (s : State) :
    Host.Outcome State Fault Refusal := vecBinary g x d a b (vAddElem x sat) s

def execVsub (g : Guard) (x : XT) (sat : Bool) (d a : VReg) (b : VSrc) (s : State) :
    Host.Outcome State Fault Refusal := vecBinary g x d a b (vSubElem x sat) s

def execVmul (g : Guard) (x : XT) (d a : VReg) (b : VSrc) (s : State) : Host.Outcome State Fault Refusal :=
  vecBinary g x d a b (fun rm u v => if x.isInt then intElem x ((u : Int) * v) else fMul x rm u v) s

def execVmin (g : Guard) (x : XT) (d a : VReg) (b : VSrc) (s : State) : Host.Outcome State Fault Refusal :=
  vecBinary g x d a b (fun _ u v =>
    if x.isInt then intElem x (min (elemInt x u) (elemInt x v)) else fMinMax x false u v) s

def execVmax (g : Guard) (x : XT) (d a : VReg) (b : VSrc) (s : State) : Host.Outcome State Fault Refusal :=
  vecBinary g x d a b (fun _ u v =>
    if x.isInt then intElem x (max (elemInt x u) (elemInt x v)) else fMinMax x true u v) s

/-- `vfma`: three sources, popped in the order A, B, C. -/
def execVfma (g : Guard) (x : XT) (d a : VReg) (b : VSrc) (c : VReg) (s : State) :
    Host.Outcome State Fault Refusal :=
  performVec (needVec (vsrcOpnds b) [] (fp64Bit x)) g (do
    checkVDst d
    let va ← readV a
    let vb ← readVSrc x b
    let vc ← readV c
    let rm ← roundMode
    let m ← guardMask g
    let old ← oldV d
    let r := mapActive x m old fun e => fMa x rm (elemAt x va e) (vb e) (elemAt x vc e)
    writeV d r.1
    meterOps (activeElems x m).length
    raise r.2
    pure .fall) s

/-- A vector instruction of one source. -/
def vecUnary (g : Guard) (x : XT) (d a : VReg) (f : Nat → Nat × Flags) (s : State) :
    Host.Outcome State Fault Refusal :=
  performVec (needVec [] [] (fp64Bit x)) g (do
    checkVDst d
    let va ← readV a
    let m ← guardMask g
    let old ← oldV d
    let r := mapActive x m old fun e => f (elemAt x va e)
    writeV d r.1
    meterOps (activeElems x m).length
    raise r.2
    pure .fall) s

/-- A float element with its sign bit cleared or inverted; a NaN gives the canonical NaN. -/
def vSignElem (x : XT) (invert : Bool) (a : Nat) : Nat × Flags :=
  let top := widthOf x - 1
  match decodeF x a with
  | .nan sg => (canonNan x, if sg then Flag.nv else 0)
  | _ => (a % 2 ^ top + b2n (invert && !bitAt a top) * 2 ^ top, 0)

def execVabs (g : Guard) (x : XT) (d a : VReg) (s : State) : Host.Outcome State Fault Refusal :=
  vecUnary g x d a (fun v => if x.isInt then intElem x (sval (widthOf x) v).natAbs else vSignElem x false v) s

def execVneg (g : Guard) (x : XT) (d a : VReg) (s : State) : Host.Outcome State Fault Refusal :=
  vecUnary g x d a (fun v => if x.isInt then intElem x (-sval (widthOf x) v) else vSignElem x true v) s

/-- A bitwise element result. -/
def bitElem (f : Word → Word → Word) (a b : Nat) : Nat × Flags :=
  ((f (BitVec.ofNat 64 a) (BitVec.ofNat 64 b)).toNat, 0)

def execVand (g : Guard) (x : XT) (d a : VReg) (b : VSrc) (s : State) : Host.Outcome State Fault Refusal :=
  vecBinary g x d a b (fun _ u v => bitElem (· &&& ·) u v) s

def execVor (g : Guard) (x : XT) (d a : VReg) (b : VSrc) (s : State) : Host.Outcome State Fault Refusal :=
  vecBinary g x d a b (fun _ u v => bitElem (· ||| ·) u v) s

def execVxor (g : Guard) (x : XT) (d a : VReg) (b : VSrc) (s : State) : Host.Outcome State Fault Refusal :=
  vecBinary g x d a b (fun _ u v => bitElem (· ^^^ ·) u v) s

def execVshl (g : Guard) (x : XT) (d a : VReg) (b : VSrc) (s : State) : Host.Outcome State Fault Refusal :=
  vecBinary g x d a b (fun _ u v => intElem x ((u * 2 ^ (v % widthOf x) : Nat) : Int)) s

def execVshr (g : Guard) (x : XT) (d a : VReg) (b : VSrc) (s : State) : Host.Outcome State Fault Refusal :=
  vecBinary g x d a b (fun _ u v => intElem x ((u / 2 ^ (v % widthOf x) : Nat) : Int)) s

def execVsra (g : Guard) (x : XT) (d a : VReg) (b : VSrc) (s : State) : Host.Outcome State Fault Refusal :=
  vecBinary g x d a b (fun _ u v => intElem x (sval (widthOf x) u / (2 ^ (v % widthOf x) : Nat))) s

/-! ## Compare, select, convert, split, broadcast, move (R175) -/

/-- The CC relation of an element and its flags. -/
def vCmpElem (x : XT) (cc : VCond) (a b : Nat) : Bool × Flags :=
  match cc with
  | .int c =>
    let u := elemInt x a
    let v := elemInt x b
    (match c with
      | .eq => decide (u = v)
      | .ne => decide (u ≠ v)
      | .lt => decide (u < v)
      | .ge => decide (v ≤ u)
      | .le => decide (u ≤ v)
      | .gt => decide (v < u), 0)
  | .flt c => fCmp x c a b

/-- The predicate of a vector compare: an FP64 element sets two bits, an inactive one none. -/
def vCmpMask (x : XT) (cc : VCond) (m : Lane) (a b : Nat → Nat) : Nat × Flags :=
  (activeElems x m).foldl (fun r e =>
    let y := vCmpElem x cc (a e) (b e)
    (r.1 + b2n y.1 * (if x = .f64 then 3 * 4 ^ e else 2 ^ e), r.2 ||| y.2)) (0, 0)

def execVcmp (g : Guard) (x : XT) (kd : Fin 8) (cc : VCond) (a : VReg) (b : VSrc) (s : State) :
    Host.Outcome State Fault Refusal :=
  performVec (needVec (vsrcOpnds b) [] (fp64Bit x)) g (do
    let va ← readV a
    let vb ← readVSrc x b
    let m ← guardMask g
    let r := vCmpMask x cc m (elemAt x va) vb
    writeK kd (BitVec.ofNat 32 r.1)
    meterOps (activeElems x m).length
    raise r.2
    pure .fall) s

/-- Each active lane of a register replaced. -/
def mapLanes (m : Lane) (d : Lanes) (f : Nat → Lane) : Lanes :=
  Vector.ofFn fun i => if m.getLsbD i.val then f i.val else d[i.val]

def execVsel (g : Guard) (d a b : VReg) (kc : Fin 8) (s : State) : Host.Outcome State Fault Refusal :=
  performVec (needVec [] [] 0) g (do
    checkVDst d
    let va ← readV a
    let vb ← readV b
    let k ← readK kc
    let m ← guardMask g
    let old ← oldV d
    writeV d (mapLanes m old fun i => if k.getLsbD i then laneAt va i else laneAt vb i)
    pure .fall) s

/-- `vcvt`: the source element, the destination element and the guard bit of each conversion. -/
def cvtPairs (x fr : XT) (half : Bool) : List (Nat × Nat × Nat) :=
  let h := if half then 16 else 0
  if x = .f64 && fr = .f64 then (List.range 16).map fun j => (j, j, 2 * j)
  else if fr = .f64 then (List.range 16).map fun j => (j, h + j, h + j)
  else if x = .f64 then (List.range 16).map fun j => (h + j, j, h + j)
  else (List.range 32).map fun j => (j, j, j)

/-- The register after the active conversions, and their flags. -/
def cvtLanes (x fr : XT) (half : Bool) (rm : Nat) (m : Lane) (a d : Lanes) : Lanes × Flags :=
  (cvtPairs x fr half).foldl (fun r p =>
    if m.getLsbD p.2.2 then
      let y := convertElem x fr rm (elemAt fr a p.1)
      (setElem x r.1 p.2.1 y.1, r.2 ||| y.2)
    else r) (d, 0)

def execVcvt (g : Guard) (x fr : XT) (half : Bool) (d a : VReg) (s : State) : Host.Outcome State Fault Refusal :=
  performVec (needVec [] [] (fp64Bit x ||| fp64Bit fr)) g (do
    checkVDst d
    let va ← readV a
    let rm ← roundMode
    let m ← guardMask g
    let old ← oldV d
    let r := cvtLanes x fr half rm m va old
    writeV d r.1
    meterOps ((cvtPairs x fr half).filter fun p => m.getLsbD p.2.2).length
    raise r.2
    pure .fall) s

/-- The three BF16 parts of an FP32 lane, with the flags of the split (05 R80). -/
def splitLane (w : Lane) : (Nat × Nat × Nat) × Flags :=
  match fv32 w with
  | .nan sg => ((0x7FC0, 0, 0), if sg then Flag.nv else 0)
  | .inf n => ((infBits .bf16 n, 0, 0), 0)
  | x =>
    let h0 := (roundF .bf16 0 ⟨x, false⟩).1
    let hi := if (decodeF .bf16 h0).isInf then 0x7F7F + b2n x.neg? * 2 ^ 15 else h0
    let r1 := x.add 0 (decodeF .bf16 hi).negate
    let mid := (roundF .bf16 0 ⟨r1, false⟩).1
    let r2 := r1.add 0 (decodeF .bf16 mid).negate
    let lo := roundF .bf16 0 ⟨r2, false⟩
    ((hi, mid, lo.1), lo.2 &&& (Flag.nx ||| Flag.uf))

def execVsplit (g : Guard) (d a : VReg) (s : State) : Host.Outcome State Fault Refusal :=
  let d1 : VReg := Fin.ofNat 32 (d.val + 1)
  let d2 : VReg := Fin.ofNat 32 (d.val + 2)
  performVec (needVec [] [] 0) g (do
    checkVDst d
    checkVDst d1
    checkVDst d2
    let va ← readV a
    let m ← guardMask g
    let o0 ← oldV d
    let o1 ← oldV d1
    let o2 ← oldV d2
    let part (f : Nat × Nat × Nat → Nat) (i : Nat) : Lane := BitVec.ofNat 32 (f (splitLane (laneAt va i)).1)
    writeV d (mapLanes m o0 (part (·.1)))
    writeV d1 (mapLanes m o1 (part (·.2.1)))
    writeV d2 (mapLanes m o2 (part (·.2.2)))
    meterOps (activeElems .f32 m).length
    raise ((List.range 32).foldl (fun f i => if m.getLsbD i then f ||| (splitLane (laneAt va i)).2 else f) 0)
    pure .fall) s

def execVbcast (g : Guard) (x : XT) (d : VReg) (b : BSrc) (s : State) : Host.Outcome State Fault Refusal :=
  performVec (needVec (match b with | .sca o => [o] | .lane _ _ => []) [] (fp64Bit x)) g (do
    checkVDst d
    let v ← (match b with
      | .sca o => do
        let w ← src o
        pure (w.toNat % 2 ^ widthOf x)
      | .lane r l => do
        let va ← readV r
        pure (elemAt x va l.val) : M Nat)
    let m ← guardMask g
    let old ← oldV d
    writeV d (mapActive x m old fun _ => (v, 0)).1
    pure .fall) s

def execVmov (g : Guard) (d a : VReg) (s : State) : Host.Outcome State Fault Refusal :=
  performVec (needVec [] [] 0) g (do
    checkVDst d
    let va ← readV a
    let m ← guardMask g
    let old ← oldV d
    writeV d (mapLanes m old (laneAt va))
    pure .fall) s

/-- A move of one element has an effect only where the element's guard bit is 1. -/
def laneOpen (g : Guard) (x : XT) (l : Fin 32) (s : State) : Bool := activeElem x (s.seq.mask g) l.val

def execVmovLaneToScalar (g : Guard) (x : XT) (d : Opnd) (a : VReg) (lane : Fin 32) (s : State) :
    Host.Outcome State Fault Refusal :=
  performWith 8 (needVec [] [d] (fp64Bit x)) (laneOpen g x lane s) (do
    let va ← readV a
    dst d (extendAs x (widthOf x) (elemAt x va lane.val))
    pure .fall) s

def execVmovScalarToLane (g : Guard) (x : XT) (d : VReg) (lane : Fin 32) (a : Opnd) (s : State) :
    Host.Outcome State Fault Refusal :=
  performWith 8 (needVec [a] [] (fp64Bit x)) (laneOpen g x lane s) (do
    checkVDst d
    let w ← src a
    let old ← oldV d
    writeV d (setElem x old lane.val (w.toNat % 2 ^ widthOf x))
    pure .fall) s

/-! ## Permute, reduce, scan (R181, 05 R79) -/

def execVshuf (g : Guard) (d a b : VReg) (s : State) : Host.Outcome State Fault Refusal :=
  performVec (needVec [] [] 0) g (do
    checkVDst d
    let va ← readV a
    let vb ← readV b
    let m ← guardMask g
    let old ← oldV d
    writeV d (mapLanes m old fun i =>
      let j := (laneAt vb i).toNat
      if bitAt j 5 then 0 else laneAt va (j % 32))
    pure .fall) s

/-- One step of a reduction. -/
def redStep (x : XT) (op : RedOp) (rm a b : Nat) : Nat × Flags :=
  if x.isInt then
    match op with
    | .add => intElem x ((a : Int) + b)
    | .min => intElem x (min (elemInt x a) (elemInt x b))
    | .max => intElem x (max (elemInt x a) (elemInt x b))
    | .and => bitElem (· &&& ·) a b
    | .or => bitElem (· ||| ·) a b
    | .xor => bitElem (· ^^^ ·) a b
  else
    match op with
    | .min => fMinMax x false a b
    | .max => fMinMax x true a b
    | _ => fAdd x rm a b

/-- The identity of a reduction. -/
def redIdentity (x : XT) (op : RedOp) : Nat :=
  let whole := 2 ^ widthOf x
  match op with
  | .add | .or | .xor => 0
  | .and => whole - 1
  | .min => if x.isInt then ((intRange x).2 % (whole : Nat)).toNat else infBits x false
  | .max => if x.isInt then ((intRange x).1 % (whole : Nat)).toNat else infBits x true

/-- The tree: `w` pairs combined, then half as many, down to one. -/
def redTree (x : XT) (op : RedOp) (rm : Nat) : Nat → List Nat → Flags → Nat × Flags
  | 0, t, f => (t.headD 0, f)
  | n + 1, t, f =>
    let w := 2 ^ n
    let ps := (t.take w).zip (t.drop w)
    let rs := ps.map fun p => redStep x op rm p.1 p.2
    redTree x op rm n (rs.map (·.1)) (rs.foldl (fun f r => f ||| r.2) f)

/-- The elements with inactive ones replaced by the identity. -/
def redInputs (x : XT) (op : RedOp) (m : Lane) (v : Lanes) : List Nat :=
  (List.range (elemCount x)).map fun e => if activeElem x m e then elemAt x v e else redIdentity x op

/-- `vred`: no active element gives the identity; the guard of no active lane is 0 (07 R88). -/
def execVred (g : Guard) (x : XT) (op : RedOp) (d : Opnd) (a : VReg) (s : State) :
    Host.Outcome State Fault Refusal :=
  performVec (needVec [] [d] (fp64Bit x)) g (do
    let va ← readV a
    let rm ← roundMode
    let m ← guardMask g
    let r := redTree x op rm (if x = .f64 then 4 else 5) (redInputs x op m va) 0
    dst d (extendAs x (widthOf x) r.1)
    meterOps (activeElems x m).length
    raise r.2
    pure .fall) s

/-- The inclusive prefixes and their flags. -/
def scanList (x : XT) (op : RedOp) (rm : Nat) : Nat → List Nat → List (Nat × Flags)
  | _, [] => []
  | p, v :: vs =>
    let r := redStep x op rm p v
    r :: scanList x op rm r.1 vs

def execVscan (g : Guard) (x : XT) (op : RedOp) (d a : VReg) (s : State) : Host.Outcome State Fault Refusal :=
  performVec (needVec [] [] (fp64Bit x)) g (do
    checkVDst d
    let va ← readV a
    let rm ← roundMode
    let m ← guardMask g
    let old ← oldV d
    let ps := scanList x op rm (redIdentity x op) (redInputs x op m va)
    writeV d (mapActive x m old fun e => ps.getD e (0, 0)).1
    meterOps (activeElems x m).length
    raise (ps.foldl (fun f r => f ||| r.2) 0)
    pure .fall) s

end Sys2Proof.Machine
end

