-- ==== Sys2Proof/Machine/VectorMem.lean ====
section
/-! DEFINITION. Vector loads and stores, gathers and scatters, and stream mode with its refill (12 R176 to R180). -/

namespace Sys2Proof.Machine

/-! ## Addresses and checks (R177) -/

def spaceOf (cm : Bool) : Space := if cm then .cm else .cp

/-- The size of a local window. -/
def windowOf (cm : Bool) : Nat := if cm then 1048576 else 65536

/-- The first address of a list that fails a test, trapped on. -/
def trapFirst (as : List Nat) (bad : Nat → Bool) (c : Cause) : M Unit :=
  match as.find? bad with
  | some a => trap c (BitVec.ofNat 64 a)
  | none => pure ()

/-- The checks of the elements that an access touches: alignment, then the window, then its rights. -/
def checkElems (cm : Bool) (as : List Nat) (n : Nat) : M Unit := do
  trapFirst as (fun a => a % n != 0) .misalignedData
  trapFirst as (fun a => decide (windowOf cm < a + n)) .windowBounds
  let s ← getState
  trapFirst as (fun a => !cm && s.seq.level == .user && decide (reservedFrom < a + n)) .accessRights

/-- The key of a local address. -/
def State.localKey (s : State) (cm : Bool) (a : Nat) : Nat :=
  if cm then Key.cm (s.cur.1 / 8) a else Key.cp s.cur.1 a

/-- The home of a request in a local window: of its first byte. -/
def State.localHome (s : State) (cm : Bool) (as : List Nat) : Home :=
  if cm then cmHome (s.cur.1 / 8) (as.headD 0) else s.cpHome s.cur.1 (as.headD 0)

/-- The bytes of a request in a local window. -/
def State.localTarget (s : State) (cm : Bool) (as : List Nat) : Target := .keys (as.map (s.localKey cm))

/-- One CORE-path read of bytes of a local window. -/
def readLocal (cm : Bool) (as : List Nat) : M (List Byte) := do
  let a ← access (fun s => s.coreAccess (s.localHome cm as) .r .read (s.localTarget cm as) (s.localKey cm 0)) none
  pure a.bytes

/-- One CORE-path write of bytes of a local window. -/
def writeLocal (cm : Bool) (as : List Nat) (bs : List Byte) : M Unit := do
  let _ ← access (fun s => s.coreAccess (s.localHome cm as) .w (.write bs) (s.localTarget cm as) (s.localKey cm 0)) none
  pure ()

/-- The bytes of elements. -/
def elemSpans (as : List Nat) (n : Nat) : List Nat := as.flatMap fun a => span a n

/-- A register with the active elements loaded from the bytes of their answer. -/
def loadElems (x : XT) (m : Lane) (d : Lanes) (bs : List Byte) : Lanes :=
  let n := widthOf x / 8
  ((activeElems x m).zip (chunks n (activeElems x m).length bs)).foldl (fun v e => setElem x v e.1 (leOf e.2)) d

/-- The bytes of the active elements of a register. -/
def storeElems (x : XT) (m : Lane) (v : Lanes) : List Byte :=
  (activeElems x m).flatMap fun e => leBytesOf (widthOf x / 8) (elemAt x v e)

/-- The addresses of `vld` and `vst`. -/
def denseAddrs (x : XT) (m : Lane) (a : Word) (disp : BitVec 10) : List Nat :=
  let n := widthOf x / 8
  let base := (a + disp.signExtend 64 * BitVec.ofNat 64 n).toNat
  (activeElems x m).map fun e => base + e * n

/-- The addresses of a gather or scatter. -/
def indexAddrs (x : XT) (m : Lane) (a : Word) (ix : Lanes) : List Nat :=
  let n := widthOf x / 8
  (activeElems x m).map fun e => (a.toNat + (laneAt ix e).toNat * n) % 2 ^ 64

def execVld (g : Guard) (x : XT) (cm : Bool) (d : VReg) (a : Reg) (disp : BitVec 10) (s : State) :
    Host.Outcome State Fault Refusal :=
  performVec (needVec [] [] (fp64Bit x)) g (do
    checkVDst d
    let base ← readS a
    let m ← guardMask g
    let as := denseAddrs x m base disp
    checkElems cm as (widthOf x / 8)
    let bs ← readLocal cm (elemSpans as (widthOf x / 8))
    let old ← oldV d
    writeV d (loadElems x m old bs)
    pure .fall) s

/-- The data vector is popped when the store has been answered. -/
def execVst (g : Guard) (x : XT) (cm : Bool) (a : Reg) (b : VReg) (disp : BitVec 10) (s : State) :
    Host.Outcome State Fault Refusal :=
  performVec (needVec [] [] (fp64Bit x)) g (do
    let base ← readS a
    let m ← guardMask g
    let as := denseAddrs x m base disp
    checkElems cm as (widthOf x / 8)
    let v ← ghost (readV b)
    writeLocal cm (elemSpans as (widthOf x / 8)) (storeElems x m v)
    let _ ← readV b
    pure .fall) s

/-- The index vector is popped when the gather has been answered. -/
def execVgath (g : Guard) (x : XT) (cm : Bool) (d : VReg) (a : Reg) (b : VReg) (s : State) :
    Host.Outcome State Fault Refusal :=
  performVec (needVec [] [] (fp64Bit x)) g (do
    checkVDst d
    let base ← readS a
    let m ← guardMask g
    let ix ← ghost (readV b)
    let as := indexAddrs x m base ix
    checkElems cm as (widthOf x / 8)
    let bs ← readLocal cm (elemSpans as (widthOf x / 8))
    let _ ← readV b
    let old ← oldV d
    writeV d (loadElems x m old bs)
    pure .fall) s

/-- The data vector of a scatter, which follows its index vector where both are one stream. -/
def readAfter (b c : VReg) : M Lanes := do
  let _ ← readV b
  readV c

def execVscat (g : Guard) (x : XT) (cm : Bool) (a : Reg) (b c : VReg) (s : State) :
    Host.Outcome State Fault Refusal :=
  performVec (needVec [] [] (fp64Bit x)) g (do
    let base ← readS a
    let m ← guardMask g
    let ix ← ghost (readV b)
    let as := indexAddrs x m base ix
    checkElems cm as (widthOf x / 8)
    let v ← ghost (readAfter b c)
    writeLocal cm (elemSpans as (widthOf x / 8)) (storeElems x m v)
    let _ ← readAfter b c
    pure .fall) s

/-! ## Streams (R178 to R180) -/

/-- A signed field of a descriptor. -/
def sfield (d lo : Nat) : Int := sval 32 (bitsAt d lo 32)

/-- FMT fits X (R178). -/
def streamFmt (x : XT) (fmt : Nat) (sd : Bool) : Bool :=
  match x with
  | .f32 => if sd then [3, 8, 9, 0xA, 0xC, 0xD].contains fmt else [1, 2, 3, 5, 6, 7, 8, 9, 0xA].contains fmt
  | .i32 => !sd && [1, 2, 3].contains fmt
  | _ => !sd && [5, 6, 7].contains fmt

/-- The reserved fields are zero and the counts are not. -/
def streamDescOk (d : Nat) : Bool :=
  bitsAt d 24 232 == 0 && bitsAt d 0 17 == 0 && bitsAt d 416 32 != 0 && bitsAt d 352 32 != 0 && bitsAt d 288 32 != 0

/-- The register of a stream: v24 to v31. -/
def streamReg (d : Fin 8) : Nat := 24 + d.val

def execVstream (g : Guard) (x : XT) (d : Fin 8) (a : Reg) (s : State) : Host.Outcome State Fault Refusal :=
  performVec (needVec [] [] 0) g (do
    let w ← readS a
    trapIf (w.toNat % 64 != 0) .windowBounds w
    let n ← readBlock w.toNat 64
    trapIf (!streamDescOk n) .windowBounds w
    trapIf (!streamFmt x (bitsAt n 20 4) (bitAt n 17)) .format w
    modState fun s => s.modMy fun t => { t with vec := { t.vec with
      streams := Table.set t.vec.streams (streamReg d) { desc := BitVec.ofNat 512 n, x := x, next := 0, buf := [], stopped := false } } }
    pure .fall) s

def execVstop (g : Guard) (d : Fin 8) (s : State) : Host.Outcome State Fault Refusal :=
  performVec (needVec [] [] 0) g (do
    modState fun s => s.modMy fun t =>
      if (Table.find t.vec.streams (streamReg d)).isSome then
        { t with vec :=
          { v := t.vec.v.set (streamReg d) (Vector.replicate 32 0) (by have := d.isLt; simp only [streamReg]; omega)
            streams := Table.drop t.vec.streams (streamReg d) } }
      else t
    pure .fall) s

/-! ## Refill (R179) -/

/-- The element index of a point. -/
def pointIndex (d pt : Nat) : Int :=
  let n0 := bitsAt d 416 32
  let n1 := bitsAt d 352 32
  (pt % n0 : Nat) * sfield d 384 + (pt / n0 % n1 : Nat) * sfield d 320 + (pt / n0 / n1 : Nat) * sfield d 256

/-- What the fetch of a point finds. -/
inductive PointRead
  | bytes (s : State) (bs : List Byte)
  | fault (s : State) (c : Cause) (v : Word)
  | blocked
  | stop (f : Fault)

/-- One read of the copy engine for a stream of the current core. DESIGN CHOICE (log 127): its rights are those of user level,
whatever the level of the XS. -/
def State.streamRead (s : State) (v : Nat) (sp : Space) (addr n : Nat) : PointRead :=
  let l := match sp with
    | .cp => s.locateCp addr n true
    | .cm => s.locateCm addr n
    | .oc => s.locateOc addr n .r true
    | .gv => s.locateGv addr n .r
  match l with
  | .error (c, w) => .fault s c (BitVec.ofNat 64 w)
  | .ok l =>
    let a : Access :=
      { num := s.fab.nextNum, src := s.cur.1, party := .core s.cur.1, path := .cce, home := l.home, kind := .r,
        op := .read, tgt := l.tgt, base := l.base, interval := s.me.interval, dest := .stream s.cur.1 v,
        range := none, way := Way.done, lost := false }
    match (s.nextNumber.touched a).pass a with
    | .blocked => .blocked
    | .stop f => .stop f
    | .done s' (.trap c w) => .fault s' c w
    | .done s' ans => .bytes s' ans.bytes

/-- Several reads of one point, in order. -/
def State.streamReads (s : State) (v : Nat) (sp : Space) : List (Nat × Nat) → PointRead
  | [] => .bytes s []
  | (a, n) :: rest =>
    match s.streamRead v sp a n with
    | .bytes s' bs =>
      match s'.streamReads v sp rest with
      | .bytes s'' bs' => .bytes s'' (bs ++ bs')
      | r => r
    | r => r

/-- The bytes of a point: raw, or a block's header and element. -/
def pointPieces (base : Nat) (sd : Bool) (f : XT) (x : Nat) : List (Nat × Nat) :=
  if sd then
    let b := base + blockOf (.plain f) x
    pieces b 2 ++ pieces (b + (elemIn (.plain f) x).1) (elemIn (.plain f) x).2
  else pieces (base + x * (widthOf f / 8)) (widthOf f / 8)

/-- The lane that a point's bytes give. -/
def pointLane (x f : XT) (sd : Bool) (i : Nat) (bs : List Byte) : Lane :=
  match x with
  | .f32 => (rne32 (if sd then elemValue (.plain f) i bs else valueOf f (leOf bs))).1
  | _ => laneOf f (leOf bs)

def spaceCode : Nat → Space
  | 0 => .cp
  | 1 => .cm
  | 2 => .oc
  | _ => .gv

/-- What a fetch of a vector gives. -/
inductive VecRead
  | lanes (s : State) (v : Lanes)
  | fault (s : State) (c : Cause) (v : Word)
  | blocked
  | stop (f : Fault)

/-- The lane of one point, put in place. -/
def State.fetchPoint (s : State) (r : Nat) (t : Stream) (pt : Nat) (v : Lanes) : VecRead :=
  let d := t.desc.toNat
  let x := pointIndex d pt
  let base := bitsAt d 448 64
  let sd := bitAt d 17
  match XT.ofCode (bitsAt d 20 4) with
  | none => .lanes s v
  | some f =>
    if x < 0 then .fault s .streamFault (BitVec.ofInt 64 x)
    else
      match s.streamReads r (spaceCode (bitsAt d 18 2)) (pointPieces base sd f x.toNat) with
      | .blocked => .blocked
      | .stop e => .stop e
      | .fault s' c w => .fault s' c w
      | .bytes s' bs =>
        if sd && !codeOk (.plain f) bs then
          .fault s' .format (BitVec.ofNat 64 (base + blockOf (.plain f) x.toNat))
        else .lanes s' (setLane v (pt % 32) (pointLane t.x f sd x.toNat bs))

/-- The points that vector `n` of a stream holds. -/
def Stream.points (t : Stream) (n : Nat) : List Nat :=
  let d := t.desc.toNat
  (span (32 * n) 32).filter fun pt => decide (pt < bitsAt d 416 32 * bitsAt d 352 32 * bitsAt d 288 32)

def StreamVec.isFault : StreamVec → Bool
  | .fault _ _ => true
  | _ => false

/-- The stream as its next fetch finds it; none where no fetch is due. A marked vector is fetched again once its trap
has been taken and the XS is back from it. -/
def Stream.due (t : Stream) (inTrap : Bool) : Option Stream :=
  let good := t.buf.filter fun e => !e.isFault
  let marked := t.buf.any StreamVec.isFault
  let t' := { t with buf := good }
  if marked && (t.stopped || inTrap) then none
  else if 4 ≤ good.length || decide (t.total ≤ t.next + good.length) then none
  else some t'

/-- A stream after the read of one more point of its vector, which joins the buffer with its last. -/
def Stream.took (t : Stream) (n : Nat) (l : Lanes) : Stream :=
  if t.read + 1 < n then { t with read := t.read + 1, lanes := l }
  else { t with buf := t.buf ++ [.lanes l], stopped := false, read := 0, lanes := Vector.replicate 32 0 }

/-- The copy engine fetches the next point of a stream's next vector: the reads of a vector are accesses one by one (16
R234). -/
def execStreamRefill (p : Place) (v : Fin 8) (s : State) : Host.Outcome State Fault Refusal :=
  let r := streamReg v
  match Table.find (s.strand p).vec.streams r with
  | none => .next s
  | some t =>
    if !s.coreRuns p then .next s
    else
      match t.due (s.strand p).xs.inTrap with
      | none => .next s
      | some t =>
        let s0 := { s with cur := (p, .xs) }
        let put (s' : State) (t : Stream) : Host.Outcome State Fault Refusal :=
          .next (({ s' with cur := s.cur } : State).modStrand p fun k => { k with vec := { k.vec with
            streams := Table.set k.vec.streams r t } })
        let pts := t.points (t.next + t.buf.length)
        match s0.fetchPoint r t (pts.getD t.read 0) t.lanes with
        | .lanes s' l => put s' (t.took pts.length l)
        | .fault s' c w => put s' { t with
          buf := t.buf ++ [.fault c w], stopped := true, read := 0, lanes := Vector.replicate 32 0 }
        | .blocked => .next s
        | .stop f => .fault f

end Sys2Proof.Machine
end

