-- ==== Sys2Proof/Machine/Matrix.lean ====
section
/-! DEFINITION. The matrix array: latch loads, accumulation, accumulator loads and stores, masks (12 R182 to R188). -/

namespace Sys2Proof.Machine

/-! ## Shapes (R183) -/

/-- The K of a format. -/
def kOf : MFmt → Nat
  | .plain .f16 | .plain .bf16 => 32
  | .plain _ => 64
  | .planed _ k _ => if k.val ≤ 2 then 256 else if k.val ≤ 4 then 128 else 64

/-- A matrix instruction: the XS, MTX. -/
def needMat : Need := ⟨fun q => q == .xs, .user, 4⟩

/-- The format is planed with a k that no read takes (R68). -/
def badPlanes : MFmt → Bool
  | .plain _ => false
  | .planed d k _ => k.val == 0 || decide (d.val < k.val)

/-- The planes that a read of a format fetches. -/
def planesOf : MFmt → Nat
  | .plain _ => 1
  | .planed _ k _ => k.val

/-! ## Self-described reads of a local window (R185, R187) -/

/-- The blocks that elements lie in, in every plane read. -/
def blockAddrs (f : MFmt) (base pstride : Nat) (is : List Nat) : List Nat :=
  ((is.map (blockOf f)).eraseDups.flatMap fun b => (List.range (planesOf f)).map fun j => base + j * pstride + b)

/-- The lowest of some addresses that fails a test, trapped on. -/
def trapLowest (as : List Nat) (bad : Nat → Bool) (c : Cause) : M Unit :=
  match as.filter bad with
  | [] => pure ()
  | a :: rest => trap c (BitVec.ofNat 64 (rest.foldl min a))

/-- The window checks of whole blocks. -/
def checkBlocks (cm : Bool) (bs : List Nat) : M Unit := do
  trapLowest bs (fun a => decide (windowOf cm < a + 64)) .windowBounds
  let s ← getState
  trapLowest bs (fun a => !cm && s.seq.level == .user && decide (reservedFrom < a + 64)) .accessRights

/-- The stride checks of a planed read (R68), with the tensor's count. -/
def strideOk (f : MFmt) (pstride count : Nat) : Bool :=
  match f with
  | .plain _ => true
  | .planed _ _ _ => pstride % 64 == 0 && decide (64 * ((count + 495) / 496) ≤ pstride)

/-- The CODE of the block at an address of a local window. -/
def State.codeAt (s : State) (cm : Bool) (a : Nat) : Nat := (Memory.get s.mem (s.localKey cm a)).toNat % 64

/-- The CODE checks, made before the request. -/
def checkCodes (f : MFmt) (cm : Bool) (bs : List Nat) : M Unit := do
  let s ← getState
  if !s.seq.begun then
    trapLowest bs (fun a => blockCode f != some (s.codeAt cm a)) .format

/-- The largest of some numbers. -/
def listMax (ns : List Nat) : Nat := ns.foldl max 0

/-- The values of elements of a self-described tensor in a local window: the checks in order, then one request. -/
def readTensor (f : MFmt) (cm : Bool) (base : Nat) (pstride : Nat) (is : List Nat) : M (List FVal) := do
  let bs := blockAddrs f base pstride is
  checkBlocks cm bs
  if badPlanes f then trapOpen .format
  if !is.isEmpty && !strideOk f pstride (listMax is + 1) then trapOpen .format
  checkCodes f cm bs
  let data ← readLocal cm (is.flatMap (elemBytesAt f base pstride))
  pure ((is.zip (chunks (elemSize f) is.length data)).map fun e => elemValue f e.1 e.2)

/-! ## Latch loads (R185) -/

/-- Origin and row stride. -/
def orgOf (w : Word) : Nat := bitsAt w.toNat 32 32
def strideOf (w : Word) : Nat := bitsAt w.toNat 0 32

/-- The positions that a latch load fetches: the latch key of each and its element index. -/
def latchPositions (rows cols : Nat) (idx : Nat → Nat → Nat) : List (Nat × Nat) :=
  (List.range rows).flatMap fun r => (List.range cols).map fun k => (r * 256 + k, idx r k)

/-- A latch filled from a self-described tensor at a base, with a plane stride. -/
def latchLoad (f : MFmt) (cm : Bool) (base stride : Word) (ps : List (Nat × Nat)) : M Latch := do
  trapIf (base.toNat % 64 != 0) .misalignedData base
  let vs ← readTensor f cm base.toNat stride.toNat (ps.map (·.2))
  pure ⟨some f, (ps.map (·.1)).zip vs⟩

def setLa (l : Latch) : M Unit := modState fun s => s.modMy fun t => { t with mat := { t.mat with la := l } }
def setLb (l : Latch) : M Unit := modState fun s => s.modMy fun t => { t with mat := { t.mat with lb := l } }

/-- `mlda` with the values of its registers. -/
def mldaBody (f : MFmt) (cm : Bool) (base o stride : Word) : M Next := do
  let s ← getState
  let l ← latchLoad f cm base stride (latchPositions s.my.mat.mm (min s.my.mat.km (kOf f))
    fun r k => orgOf o + r * strideOf o + k)
  setLa l
  pure .fall

/-- `mldb` with the values of its registers: `r` is the column. -/
def mldbBody (f : MFmt) (cm : Bool) (base o stride : Word) : M Next := do
  let s ← getState
  let l ← latchLoad f cm base stride (latchPositions s.my.mat.nm (min s.my.mat.km (kOf f))
    fun r k => orgOf o + k * strideOf o + r)
  setLb l
  pure .fall

def execMlda (g : Guard) (f : MFmt) (cm : Bool) (a b c : Reg) (s : State) : Host.Outcome State Fault Refusal :=
  perform 8 needMat g (do mldaBody f cm (← readS a) (← readS b) (← readS c)) s

def execMldb (g : Guard) (f : MFmt) (cm : Bool) (a b c : Reg) (s : State) : Host.Outcome State Fault Refusal :=
  perform 8 needMat g (do mldbBody f cm (← readS a) (← readS b) (← readS c)) s

/-- The index vector is popped when the load has been answered. -/
def execMgath (g : Guard) (f : MFmt) (cm : Bool) (a : Reg) (b : VReg) (c : Reg) (s : State) :
    Host.Outcome State Fault Refusal :=
  perform 8 needMat g (do
    let base ← readS a
    let stride ← readS c
    trapIf (base.toNat % 64 != 0) .misalignedData base
    let ix ← ghost (readV b)
    let s ← getState
    let l ← latchLoad f cm base stride (latchPositions s.my.mat.mm (min s.my.mat.km (kOf f))
      fun r k => (laneAt ix r).toNat + k)
    let _ ← readV b
    setLa l
    pure .fall) s

/-! ## Accumulation (R186, R78) -/

/-- The flags of an element's sum: NV for a signalling operand or an invalid product or sum. DESIGN CHOICE (log 97): beside a
quiet NaN a sum of both infinities raises no NV, and a product of zero and infinity does; R78 gives the results alone. -/
def sumFlags (start : FVal) (ps : List (FVal × FVal)) (r : FVal) : Flags :=
  let snan := start.isSNan || ps.any fun p => p.1.isSNan || p.2.isSNan
  let noNan := !start.isNan && ps.all fun p => !p.1.isNan && !p.2.isNan
  let badProduct := ps.any fun p => (p.1.isZero && p.2.isInf) || (p.1.isInf && p.2.isZero)
  if snan || badProduct || (noNan && r.isNan) then Flag.nv else 0

/-- One output element of a matrix product: its FP32 value and flags. -/
def accElem (start : Lane) (row col : List FVal) : Lane × Flags :=
  let ps := row.zip col
  let r := sumExact (fv32 start) (ps.map fun p => p.1.mul p.2)
  let y := rne32 r
  (y.1, sumFlags (fv32 start) ps r ||| (if r.isNan then 0 else y.2))

/-- A row of the A latch, or a column of the B latch. -/
def Latch.line (l : Latch) (r n : Nat) : List FVal := (List.range n).map fun k => Table.get FVal.zero l.vals (r * 256 + k)

/-- An element of an accumulator. -/
def accGet (a : Vector Lane 1024) (i j : Nat) : Lane := (a[i * 32 + j]?).getD 0
def accSet (a : Vector Lane 1024) (i j : Nat) (v : Lane) : Vector Lane 1024 :=
  if h : i * 32 + j < 1024 then a.set (i * 32 + j) v h else a

/-- The unmasked output positions. -/
def Mat.outputs (m : Mat) : List (Nat × Nat) :=
  (List.range m.mm).flatMap fun i => (List.range m.nm).map fun j => (i, j)

/-- A product accumulated: the accumulator and the flags of its output elements. -/
def Mat.product (m : Mat) (f : MFmt) (fromZero : Bool) (acc : Vector Lane 1024) : Vector Lane 1024 × Flags :=
  let n := min m.km (kOf f)
  let rows := (List.range m.mm).map fun i => m.la.line i n
  let cols := (List.range m.nm).map fun j => m.lb.line j n
  m.outputs.foldl (fun r p =>
    let y := accElem (if fromZero then 0 else accGet acc p.1 p.2) (rows.getD p.1 []) (cols.getD p.2 [])
    (accSet r.1 p.1 p.2 y.1, r.2 ||| y.2)) (acc, 0)

/-- MAC16 to MACP2 count MM × NM × min(KM, K), by K (22 R316). -/
def Meter.mac (t : Meter) (k n : Nat) : Meter :=
  if k = 32 then { t with mac16 := t.mac16 + n }
  else if k = 64 then { t with mac8 := t.mac8 + n }
  else if k = 128 then { t with macp4 := t.macp4 + n }
  else { t with macp2 := t.macp2 + n }

def State.meterMac (s : State) (pn : Nat) (m : Mat) (f : MFmt) : State :=
  s.modPart pn fun t => { t with meter := t.meter.mac (kOf f) (m.mm * m.nm * min m.km (kOf f)) }

/-- `mma` and `mmaz`. -/
def mmaBody (f : MFmt) (d : Fin 4) (fromZero : Bool) : M Next := do
  let s ← getState
  let m := s.my.mat
  trapIf (m.la.tag != some f) .format 1
  trapIf (m.lb.tag != some f) .format 2
  let r := m.product f fromZero m.acc[d.val]
  modState fun s => (s.modMy fun t => { t with mat := { t.mat with acc := t.mat.acc.set d.val r.1 } }).meterMac
    (s.partNo s.cur.1) m f
  raise r.2
  pure .fall

def execMma (g : Guard) (f : MFmt) (d : Fin 4) (s : State) : Host.Outcome State Fault Refusal :=
  perform 8 needMat g (mmaBody f d false) s

def execMmaz (g : Guard) (f : MFmt) (d : Fin 4) (s : State) : Host.Outcome State Fault Refusal :=
  perform 8 needMat g (mmaBody f d true) s

/-! ## Accumulator loads and stores (R187) -/

def setAcc (d : Fin 4) (a : Vector Lane 1024) : M Unit :=
  modState fun s => s.modMy fun t => { t with mat := { t.mat with acc := t.mat.acc.set d.val a } }

/-- RNE32 of a read value; any NaN gives the canonical one. -/
def loadFlags (v : FVal) : Lane × Flags :=
  match v with
  | .nan sg => (BitVec.ofNat 32 (canonNan .f32), if sg then Flag.nv else 0)
  | v => rne32 v

/-- `mldacc` with the values of its registers. -/
def mldaccBody (x : XT) (cm : Bool) (d : Fin 4) (base o : Word) : M Next := do
  trapIf (base.toNat % 64 != 0) .misalignedData base
  let s ← getState
  let ps := s.my.mat.outputs
  let vs ← readTensor (.plain x) cm base.toNat 0 (ps.map fun p => orgOf o + p.1 * strideOf o + p.2)
  let acc := s.my.mat.acc[d.val]
  setAcc d ((ps.zip vs).foldl (fun r e => accSet r e.1.1 e.1.2 (loadFlags e.2).1) acc)
  raise (vs.foldl (fun f v => f ||| (loadFlags v).2) 0)
  pure .fall

def execMldacc (g : Guard) (x : XT) (cm : Bool) (d : Fin 4) (a b : Reg) (s : State) :
    Host.Outcome State Fault Refusal :=
  perform 8 needMat g (do mldaccBody x cm d (← readS a) (← readS b)) s

/-- The bytes that a store of elements writes: each block's format and scale bytes and, as zero, its bytes beyond the last
element position (05 R71), then the elements in order. Positions that no element is stored to keep their bytes (R187). DESIGN CHOICE (log 126):
of two elements of one index the later one in row order wins. -/
def tensorStore (x : XT) (base e f : Nat) (es : List (Nat × Nat)) : List (Nat × Byte) :=
  let n := xwidth (blockElem x) / 8
  let used := 2 + perBlock x * n
  ((es.map fun p => base + blockOf (.plain x) p.1).eraseDups.flatMap fun b =>
    (b, BitVec.ofNat 8 (f * 64 + (blockCode (.plain x)).getD 0)) :: (b + 1, BitVec.ofNat 8 e)
      :: (span (b + used) (64 - used)).map fun a => (a, 0))
  ++ es.flatMap fun p =>
    (span (base + blockOf (.plain x) p.1 + (elemIn (.plain x) p.1).1) n).zip (leBytesOf n p.2)

/-- `mstacc` with the values of its registers. -/
def mstaccBody (x : XT) (cm : Bool) (d : Fin 4) (base o : Word) (e : BitVec 8) (f : Fin 4) : M Next := do
  trapIf (e == 0xFF) .format 0
  trapIf (base.toNat % 64 != 0) .misalignedData base
  let s ← getState
  let ps := s.my.mat.outputs
  let is := ps.map fun p => orgOf o + p.1 * strideOf o + p.2
  checkBlocks cm (blockAddrs (.plain x) base.toNat 0 is)
  let acc := s.my.mat.acc[d.val]
  let rs := ps.map fun p => convertTo x 0 (unscaled e.toNat f.val (fv32 (accGet acc p.1 p.2)))
  let cells := tensorStore x base.toNat e.toNat f.val (is.zip (rs.map (·.1)))
  writeLocal cm (cells.map (·.1)) (cells.map (·.2))
  raise (rs.foldl (fun f r => f ||| r.2) 0)
  pure .fall

def execMstacc (g : Guard) (x : XT) (cm : Bool) (d : Fin 4) (a b : Reg) (e : BitVec 8) (f : Fin 4) (s : State) :
    Host.Outcome State Fault Refusal :=
  perform 8 needMat g (do mstaccBody x cm d (← readS a) (← readS b) e f) s

/-- `mclr`. -/
def mclrBody (d : Fin 4) : M Next := do
  setAcc d (Vector.replicate 1024 0)
  pure .fall

def execMclr (g : Guard) (d : Fin 4) (s : State) : Host.Outcome State Fault Refusal :=
  perform 8 needMat g (mclrBody d) s

/-! ## Masks (R188) -/

def mmaskBody (mm nm : Fin 32) (km : BitVec 8) : M Next := do
  modState fun s => s.modMy fun t =>
    { t with mat := { t.mat with mm := mm.val + 1, nm := nm.val + 1, km := km.toNat + 1 } }
  pure .fall

def execMmask (g : Guard) (mm nm : Fin 32) (km : BitVec 8) (s : State) : Host.Outcome State Fault Refusal :=
  perform 8 needMat g (mmaskBody mm nm km) s

end Sys2Proof.Machine
end

