-- ==== Sys2Proof/Machine/Engine.lean ====
section
/-! DEFINITION. What engines do with memory: command blocks and patterns (14 R215, R216), the element accesses of a
command with their range entries (16 R237 to R241), conversions (R223, R224), and the checks at acceptance. -/

namespace Sys2Proof.Machine

/-! ## Patterns (R216) -/

/-- A memory pattern. `clean` says that its reserved bits are zero; `pstr` is in bytes. -/
structure Pat where
  addr : Nat
  n0 : Nat
  n1 : Nat
  n2 : Nat
  fmt : Nat
  space : Nat
  sd : Bool
  clean : Bool
  e : Nat
  f : Nat
  sm : Bool
  rop : Nat
  pd : Nat
  s1 : Int
  s2 : Int
  pstr : Nat
deriving DecidableEq, Repr

def Pat.ofNat (w : Nat) : Pat where
  addr := bitsAt w 0 64
  n0 := bitsAt w 64 16
  n1 := bitsAt w 80 16
  n2 := bitsAt w 96 16
  fmt := bitsAt w 112 4
  space := bitsAt w 116 2
  sd := bitAt w 118
  clean := !bitAt w 119 && bitsAt w 138 22 == 0
  e := bitsAt w 120 8
  f := bitsAt w 128 2
  sm := bitAt w 130
  rop := bitsAt w 131 3
  pd := bitsAt w 134 4
  s1 := sval 32 (bitsAt w 160 32)
  s2 := sval 32 (bitsAt w 192 32)
  pstr := bitsAt w 224 32 * 64

def Pat.count (p : Pat) : Nat := p.n0 * p.n1 * p.n2

/-- The element index of the `i`-th element visited. -/
def Pat.index (p : Pat) (i : Nat) : Int :=
  (i % p.n0 : Nat) + (i / p.n0 % p.n1 : Nat) * p.s1 + (i / p.n0 / p.n1 : Nat) * p.s2

/-- The element format: a planed pattern is read and written with all its planes. -/
def Pat.format (p : Pat) : Option MFmt :=
  if p.fmt = 15 then
    (if 2 ≤ p.pd ∧ p.pd ≤ 8 then some (.planed (Fin.ofNat 16 p.pd) (Fin.ofNat 16 p.pd) false) else none)
  else (XT.ofCode p.fmt).map .plain

/-- The bytes of a raw element. -/
def Pat.size (p : Pat) : Nat :=
  match XT.ofCode p.fmt with
  | some x => widthOf x / 8
  | none => 1

/-- A range cut where 64-byte lines meet, so that each part lies in one bank. -/
def linePieces (a n : Nat) : List (Nat × Nat) :=
  let k := min n (64 - a % 64)
  if k = n then [(a, n)] else [(a, k), (a + k, n - k)]

/-- The byte ranges of element `x`: raw, or for each block its two header bytes and the element. -/
def Pat.spans (p : Pat) (x : Nat) : List (Nat × Nat) :=
  match p.sd, p.format with
  | true, some f =>
    (List.range (planesOf f)).flatMap fun j =>
      let b := p.addr + j * p.pstr + blockOf f x
      linePieces b 2 ++ linePieces (b + (elemIn f x).1) (elemIn f x).2
  | _, _ => linePieces (p.addr + x * p.size) p.size

/-- The elements of a pattern's tensor: the largest index that the pattern visits, plus 1. DESIGN CHOICE (log 100): as 12
R185 has it for latch loads. -/
def Pat.elemCount (p : Pat) : Nat := listMax ((List.range p.count).map fun i => (p.index i).toNat) + 1

/-- The element positions of the block of element `x` that lie within the tensor's count, of `n` to a block. -/
def Pat.validIn (p : Pat) (n x : Nat) : Nat := min n (p.elemCount - x / n * n)

/-- The bytes of a plane's block that are zero because no element of the tensor lies in them. -/
def planeTail (valid : Nat) : List Nat := span (2 + (valid + 7) / 8) (62 - (valid + 7) / 8)

/-- The payload bytes of the block of element `x` that a write makes zero: those beyond its last element position, and in the
last block those of the positions beyond the tensor's count (05 R71). -/
def Pat.tail (p : Pat) (x : Nat) : List (Nat × Nat) :=
  match p.sd, p.format with
  | true, some (.plain t) =>
    let used := p.validIn (perBlock t) x * (xwidth (blockElem t) / 8)
    if used < 62 then linePieces (p.addr + blockOf (.plain t) x + 2 + used) (62 - used) else []
  | true, some (.planed d k c) =>
    (List.range d.val).flatMap fun j =>
      (planeTail (p.validIn 496 x)).map fun o => (p.addr + j * p.pstr + blockOf (.planed d k c) x + o, 1)
  | _, _ => []

/-- The byte ranges that an access of a kind to element `x` names: a write of a self-described block also writes the
unused bytes of its payload. -/
def Pat.touches (p : Pat) (kind : AccKind) (x : Nat) : List (Nat × Nat) :=
  p.spans x ++ (if kind = .r then [] else p.tail x)

/-- The pattern's fields are valid by themselves. -/
def Pat.ok (p : Pat) : Bool :=
  p.clean && decide (0 < p.count) && p.format.isSome && (p.fmt != 15 || p.sd)

/-- The largest magnitude of the automatic scale mode; none for a format that it excludes (05 R74). -/
def Pat.autoMax (p : Pat) : Option Nat :=
  match p.format with
  | some (.planed d _ _) => some (2 ^ (d.val - 1) - 1)
  | some (.plain x) => Sys2Proof.Machine.autoMax (blockElem x)
  | none => none

/-- A self-described pattern whose format has no code, or whose plane stride is wrong (07 R91, 05 R68). DESIGN CHOICE (log
101): a destination is held to the plane stride as a source is. -/
def Pat.badFormat (p : Pat) : Bool :=
  p.sd &&
    match p.format with
    | some f =>
      (blockCode f).isNone
        || !strideOk f p.pstr p.elemCount
    | none => false

/-! ## Command blocks (R215, R223, R226, R230, R231) -/

/-- `n` bytes of a command's block. -/
def Cmd.word (c : Cmd) (byte n : Nat) : Nat := bitsAt (leOf c.blk) (8 * byte) (8 * n)

def Cmd.src (c : Cmd) : Pat :=
  match c.kind with
  | .cpy | .cpyr | .cpym | .bte => Pat.ofNat (c.word 16 32)
  | _ => Pat.ofNat (c.word 32 32)
def Cmd.dst (c : Cmd) : Pat :=
  match c.kind with
  | .cpy | .cpyr | .cpym | .bte => Pat.ofNat (c.word 48 32)
  | _ => Pat.ofNat (c.word 64 32)

def Cmd.xid (c : Cmd) : Nat := c.word 0 4
def Cmd.hidx (c : Cmd) : Nat := c.word 4 2
def Cmd.hgen (c : Cmd) : Nat := c.word 6 1
def Cmd.chv (c : Cmd) : Bool := bitAt (leOf c.blk) 56
def Cmd.ntv (c : Cmd) : Bool := bitAt (leOf c.blk) 57
def Cmd.lbv (c : Cmd) : Bool := bitAt (leOf c.blk) 58
def Cmd.nplace (c : Cmd) : Nat := c.word 8 2
def Cmd.ntag (c : Cmd) : BitVec 16 := BitVec.ofNat 16 (c.word 10 2)
def Cmd.lbx (c : Cmd) : Nat := bitsAt (leOf c.blk) 96 6

/-- The header's reserved bits are zero. -/
def Cmd.headerOk (c : Cmd) : Bool :=
  let n := leOf c.blk
  bitsAt n 59 5 == 0 && bitsAt n 102 10 == 0 && bitsAt n 120 8 == 0

/-- The ring body (R226). -/
def Cmd.ringBody (c : Cmd) : BitVec 128 := BitVec.ofNat 128 (c.word 16 16)
def ringBase (b : BitVec 128) : Nat := bitsAt b.toNat 0 32
def ringSpace (b : BitVec 128) : Nat := bitsAt b.toNat 32 2
def ringDepth (b : BitVec 128) : Nat := bitsAt b.toNat 34 4 + 1
def ringSlot (b : BitVec 128) : Nat := bitsAt b.toNat 48 16
def ringFull (b : BitVec 128) : Nat := bitsAt b.toNat 64 6
def ringEmpty (b : BitVec 128) : Nat := bitsAt b.toNat 70 6

/-- The path class of a command (16 R233). -/
def CmdKind.path : CmdKind → Path
  | .cpy | .cpyr | .cpym => .cce
  | .sub | .drain | .unsub => .bds
  | .bte | .xfer => .bte
  | .coll => .coll
  | .rlc => .cce

/-! ## Addresses of elements -/

/-- The STAT that a cause gives (R217, R225). -/
def Cause.stat : Cause → Nat
  | .translation => 2
  | .accessRights => 3
  | .format => 4
  | .memoryConflict => 5
  | .windowBounds => 6
  | .permission => 7
  | .misalignedData => 0x0E
  | _ => 1

/-- Where a range of a command's pattern lies, or the STAT of its failure. -/
def State.engLocate (s : State) (c : Cmd) (space a n : Nat) (kind : AccKind) : Except Nat Loc :=
  let s0 := { s with cur := (c.issuer, .as) }
  let r : Except (Cause × Nat) Loc :=
    if 2 ^ 64 < a + n then .error (.windowBounds, a)
    else
      match spaceCode space with
      | .cp => s0.locateCp a n c.user
      | .cm => s0.locateCm a n
      | .oc => s0.locateOc a n kind c.user
      | .gv =>
        if 2 ^ 57 ≤ a then .error (.windowBounds, a)
        else .ok ⟨.station (s.slotStation (slotOf a)), .glob c.part c.proc.toNat a n, 0⟩
  match r with
  | .ok l => .ok l
  | .error e => .error e.1.stat

/-- The keys of a located range; a global one as its range entry maps it now. -/
def State.locKeys (s : State) (l : Loc) : List Nat :=
  match l.tgt with
  | .keys ks => ks
  | .regs _ _ _ _ => []
  | .glob pn proc a n =>
    match s.rangeOf (s.part pn).ranges (BitVec.ofNat 16 proc) a with
    | some e => (span a n).filterMap (s.keyOf (rangeBase e) (rangeFrame e))
    | none => []

/-- The homes and keys of some ranges of a pattern. -/
def State.rangeKeys (s : State) (c : Cmd) (p : Pat) (kind : AccKind) (es : List (Nat × Nat)) : List (Home × Nat) :=
  es.flatMap fun e =>
    match s.engLocate c p.space e.1 e.2 kind with
    | .ok l => (s.locKeys l).map fun k => (s.bankOf l.home k, k)
    | .error _ => []

/-- The homes and keys that element `i` touches. -/
def State.elemKeys (s : State) (c : Cmd) (p : Pat) (kind : AccKind) (i : Nat) : List (Home × Nat) :=
  s.rangeKeys c p kind (p.touches kind (p.index i).toNat)

/-- The homes that element `i` touches. -/
def State.elemHomes (s : State) (c : Cmd) (p : Pat) (kind : AccKind) (i : Nat) : List Home :=
  ((s.elemKeys c p kind i).map (·.1)).eraseDups

/-- The range entry of some elements of a command at a home (16 R237). -/
def State.homeRange (s : State) (c : Cmd) (p : Pat) (kind : AccKind) (is : List Nat) (tile : Nat) (h : Home) : RangeEntry :=
  let ks := ((is.flatMap (s.elemKeys c p kind)).filter fun e => e.1 == h).map (·.2)
  ⟨h, c.id, listMin ks, listMax ks + 1, kind, tile⟩

/-- The range entries of some elements of a command are removed at the homes that none of those still to come touches
(16 R240), and its entries at the replication sequencer once no element is to come. -/
def State.closeRanges (s : State) (c : Cmd) (p : Pat) (kind : AccKind) (is rest : List Nat) (tile : Nat) : State :=
  let mine := is.flatMap (s.elemHomes c p kind)
  let later := rest.flatMap (s.elemHomes c p kind)
  { s with fab := { s.fab with
      lines := if rest.isEmpty && kind != .r then s.fab.lines.filter fun e => e.party != .cmd c.id else s.fab.lines
      ranges := s.fab.ranges.filter fun e =>
        !(e.cmd == c.id && e.kind == kind && e.tile == tile && mine.contains e.home && !later.contains e.home) } }

/-- What an engine's accesses give. -/
inductive EngRes (α : Type)
  | ok (s : State) (a : α)
  | fault (stat addr : Nat)
  | blocked
  | stop (f : Fault)

/-- The access of a command to a located range: dispatched, applied and answered in one step, once nothing of its path to its
home is before it and its ways there and back are clear (log 106). -/
def State.engAccess (s : State) (c : Cmd) (l : Loc) (kind : AccKind) (op : AccOp) (r : RangeEntry) : Applied :=
  let a : Access :=
    { num := s.fab.nextNum, src := c.issuer, party := .cmd c.id, path := c.kind.path, home := l.home, kind := kind,
      op := op, tgt := l.tgt, base := l.base, interval := 0, dest := .cmd c.id, range := some r, way := Way.done,
      lost := false }
  s.nextNumber.pass a

/-- Ranges of a pattern read, or written with bytes, in order; `range` gives the range entry at a home. -/
def State.engRun (s : State) (c : Cmd) (space : Nat) (kind : AccKind) (range : State → Home → RangeEntry)
    (write : Bool) : List (Nat × Nat) → List Byte → EngRes (List Byte)
  | [], _ => .ok s []
  | (a, n) :: rest, bs =>
    match s.engLocate c space a n kind with
    | .error stat => .fault stat a
    | .ok l =>
      match s.engAccess c l kind (if write then .write (bs.take n) else .read) (range s l.home) with
      | .blocked => .blocked
      | .stop f => .stop f
      | .done _ (.trap cs v) => .fault cs.stat v.toNat
      | .done s' ans =>
        match s'.engRun c space kind range write rest (bs.drop n) with
        | .ok s'' bs' => .ok s'' (ans.bytes ++ bs')
        | e => e

/-! ## Values (R223, R224) -/

/-- The value of a source element from its bytes, or STAT 0x04. DESIGN CHOICE (log 104): under SD = 1 a block of CODE 0x00
fails the check of its code as any other block does; blocks move as opaque bytes where SD = 0. -/
def Pat.value (p : Pat) (x : Nat) (bs : List Byte) : Except Nat FVal :=
  match p.format with
  | none => .error 1
  | some f =>
    if p.sd then (if codeOk f bs then .ok (elemValue f x bs) else .error 4)
    else
      match f with
      | .plain x => .ok (valueOf x (leOf bs))
      | .planed _ _ _ => .error 1

/-- The address of the block of element `i`. -/
def Pat.blockAddr (p : Pat) (i : Nat) : Nat :=
  p.addr + ((p.format.map fun f => blockOf f (p.index i).toNat).getD 0)

/-- The port of an `xfer`'s edge node, its sub-link, direction and remote side (R231). -/
def State.xferPort (s : State) (c : Cmd) : Nat := (s.eastRow c.eng.place.toNat).getD 0
def Cmd.subl (c : Cmd) : Nat := bitsAt (c.word 16 16) 0 3
def Cmd.inbound (c : Cmd) : Bool := bitAt (c.word 16 16) 3
def Cmd.rmod (c : Cmd) : Nat := bitsAt (c.word 16 16) 16 16
def Cmd.rproc (c : Cmd) : Nat := bitsAt (c.word 16 16) 32 16

/-- The command reads its source at the remote module. -/
def Cmd.remoteSrc (c : Cmd) : Bool := c.kind == .xfer && c.inbound
/-- The command writes its destination at the remote module. -/
def Cmd.remoteDst (c : Cmd) : Bool := c.kind == .xfer && !c.inbound

/-- The bytes of a source element at the remote module, as this command finds them. -/
def Cmd.remoteBytes (c : Cmd) (i : Nat) : List Byte :=
  (c.src.spans (c.src.index i).toNat).flatMap fun e =>
    (span e.1 e.2).map fun a => Config.remoteByte c.rmod c.rproc a c.id

/-- The scale exponent and fraction of a block of which some elements receive these values (05 R74). -/
def Pat.scaleOf (p : Pat) (vs : List FVal) : Nat × Nat :=
  match p.sm, p.autoMax with
  | true, some fmax => (if vs.any FVal.isNan then 255 else autoScale fmax (amaxOf vs), 0)
  | _, _ => (p.e, p.f)

/-- The planed integer that is stored for a value (05 R69), as its unsigned bits. -/
def planedBits (d e f : Nat) (v : FVal) : Nat :=
  let q := (toIntRange 0 (-(2 ^ (d - 1) : Nat)) ((2 ^ (d - 1) : Nat) - 1) (unscaled e f v)).1
  (q % (2 ^ d : Nat)).toNat

/-- A byte with one bit set to a value. -/
def putBit (b : Byte) (i : Nat) (v : Bool) : Byte :=
  BitVec.ofNat 8 (b.toNat - bitsAt b.toNat i 1 * 2 ^ i + b2n v * 2 ^ i)

/-! ## What lands together

A write of a self-described tensor gives a block its format and scale bytes with its elements: the elements of a command
that go to one block land together (log 105). Every other element lands by itself. -/

/-- The elements among `is` that go to the block of element `i`, an index visited twice once. -/
def Pat.blockMates (p : Pat) (is : List Nat) (i : Nat) : List Nat :=
  match p.sd, p.format with
  | true, some f =>
    (is.filter fun j => blockOf f (p.index j).toNat == blockOf f (p.index i).toNat).foldl (fun us j =>
      if us.any fun k => p.index k == p.index j then us else us ++ [j]) []
  | _, _ => [i]

/-- The bytes of a plane's block that a landing on elements of some indices writes: those that they lie in, and those that
the tensor's end makes zero, its last byte among them. -/
def Pat.planeBytes (p : Pat) (xs : List Nat) : List Nat :=
  let valid := p.validIn 496 (xs.headD 0)
  (xs.map (fun x => 2 + x % 496 / 8) ++ (if valid % 8 = 0 then [] else [2 + valid / 8]) ++ planeTail valid).eraseDups

/-- The byte ranges of a landing on elements of indices `xs`. -/
def Pat.landSpans (p : Pat) (xs : List Nat) : List (Nat × Nat) :=
  match p.sd, p.format, xs with
  | true, some (.plain t), x :: _ =>
    linePieces (p.addr + blockOf (.plain t) x) 2
      ++ (xs.flatMap fun x =>
        let e := elemIn (.plain t) x
        linePieces (p.addr + blockOf (.plain t) x + e.1) e.2)
      ++ p.tail x
  | true, some (.planed d k c), x :: _ =>
    (List.range d.val).flatMap fun j =>
      let b := p.addr + j * p.pstr + blockOf (.planed d k c) x
      linePieces b 2 ++ (p.planeBytes xs).map fun o => (b + o, 1)
  | _, _, _ => xs.flatMap p.spans

/-- One byte of a plane: the bits of the elements that lie in it, and zeros from position `valid` of the block on. -/
def planeByte (d j o valid : Nat) (us : List (Nat × Nat)) (old : Byte) : Byte :=
  let b := us.foldl (fun b u => if 2 + u.1 % 496 / 8 = o then putBit b (u.1 % 496 % 8) (bitAt u.2 (d - 1 - j)) else b) old
  BitVec.ofNat 8 (b.toNat % 2 ^ min 8 (valid - (o - 2) * 8))

/-- The bytes of a landing, in the order of its ranges, of elements given by index and value; `old` holds the bytes that
stand there. -/
def Pat.landBytes (p : Pat) (sc : Nat × Nat) (vs : List (Nat × FVal)) (old : List Byte) : List Byte :=
  match p.format with
  | none => []
  | some f =>
    let head := [BitVec.ofNat 8 (sc.2 * 64 + (blockCode f).getD 0), BitVec.ofNat 8 sc.1]
    match f with
    | .plain t =>
      if p.sd then
        head
          ++ (vs.flatMap fun v =>
            leBytesOf (xwidth (blockElem t) / 8) (convertTo (blockElem t) 0 (unscaled sc.1 sc.2 v.2)).1)
          ++ List.replicate (((p.tail ((vs.map (·.1)).headD 0)).map (·.2)).sum) 0
      else vs.flatMap fun v => leBytesOf (widthOf t / 8) (convertTo t 0 ⟨v.2, false⟩).1
    | .planed d _ _ =>
      let us := vs.map fun v => (v.1, planedBits d.val sc.1 sc.2 v.2)
      let os := p.planeBytes (vs.map (·.1))
      let valid := p.validIn 496 ((vs.map (·.1)).headD 0)
      (List.range d.val).flatMap fun j =>
        head ++ os.zipIdx.map fun o => planeByte d.val j o.1 valid us ((old.drop (j * (2 + os.length) + 2 + o.2)).headD 0)

/-- The elements of a command with the values that they receive, by index. -/
def Pat.indexed (p : Pat) (vs : List (Nat × FVal)) : List (Nat × FVal) := vs.map fun v => ((p.index v.1).toNat, v.2)

/-- Op of a reduction on raw elements of a format. -/
def reduceRaw (rop : Nat) (x : XT) (a b : Nat) : Nat :=
  if x.isInt then
    let lt := decide (elemInt x (a % 2 ^ widthOf x) < elemInt x (b % 2 ^ widthOf x))
    if rop = 1 then (if lt then a else b) else (if lt then b else a)
  else if rop = 0 then (fAdd x 0 a b).1
  else (fMinMax x (rop == 2) a b).1

/-- Op of a reduction on values. -/
def reduceVal (rop : Nat) (a b : FVal) : FVal :=
  if rop = 0 then a.add 0 b
  else if a.isNan then b
  else if b.isNan then a
  else if rop = 1 then (if b.below a then b else a)
  else (if a.below b then b else a)

/-- A source value converted to the destination format (R224). DEDUCED (log 107): for a self-described destination too the
conversion is to the format itself, before any block scale. -/
def Pat.rounded (p : Pat) (v : FVal) : FVal :=
  match p.format with
  | some (.plain t) =>
    let x := if p.sd then blockElem t else t
    valueOf x (convertTo x 0 ⟨v, false⟩).1
  | _ => v

/-- The bytes of d := Op(d, v) on elements given by index and value, from the bytes of each that stand there (`olds`). The
scale of a block is that of its results. -/
def Pat.reduced (p : Pat) (rop : Nat) (vs : List (Nat × FVal)) (olds : List (List Byte)) : List Byte :=
  match p.sd, p.format with
  | false, some (.plain t) =>
    (vs.zip olds).flatMap fun e =>
      leBytesOf (widthOf t / 8) (reduceRaw rop t (leOf e.2) (convertTo t 0 ⟨e.1.2, false⟩).1)
  | true, some f =>
    let rs := (vs.zip olds).map fun e => (e.1.1, reduceVal rop (elemValue f e.1.1 e.2) (p.rounded e.1.2))
    p.landBytes (p.scaleOf (rs.map (·.2))) rs []
  | _, _ => []

/-! ## Tiles (R227)

DESIGN CHOICE (log 103): the bytes of a self-described pattern are those of its elements, as its blocks hold them, without
headers and scales, and an element of a planed pattern is one byte, its integer. `sub` leaves them as they are; `drain`
writes each block with its format and scale bytes, an element being its value divided by the scale (05 R74). -/

/-- The bytes of an element of a stream's pattern. -/
def Cmd.tileSize (c : Cmd) : Nat :=
  match c.src.sd, c.src.format with
  | true, some (.plain t) => xwidth (blockElem t) / 8
  | true, some (.planed _ _ _) => 1
  | _, _ => c.src.size

/-- Elements of a tile. -/
def Cmd.perTile (c : Cmd) : Nat := ringSlot c.ringBody / c.tileSize
/-- The tile that the frontier stands in, with its slot and lap. -/
def Cmd.tileNo (c : Cmd) : Nat := c.front / c.perTile
def Cmd.slotNo (c : Cmd) : Nat := c.tileNo % ringDepth c.ringBody
def Cmd.lap (c : Cmd) : Nat := c.tileNo / ringDepth c.ringBody

/-- The elements of the tile in transfer. -/
def Cmd.tileElems (c : Cmd) : List Nat :=
  (span (c.tileNo * c.perTile) c.perTile).filter fun i => decide (i < c.src.count)

def Cmd.isTiled (c : Cmd) : Bool := c.kind == .sub || c.kind == .drain

/-- The format of an element in a slot. -/
def Cmd.slotFormat (c : Cmd) : XT :=
  match c.src.sd, c.src.format with
  | true, some (.plain t) => blockElem t
  | _, some (.plain t) => t
  | _, _ => .i8

/-- The slot of the tile in transfer, as a pattern of raw elements: element `i` of the command lies where it stands in the
tile. -/
def Cmd.slotPat (c : Cmd) : Pat :=
  { c.src with
    addr := ringBase c.ringBody + c.slotNo * ringSlot c.ringBody, space := ringSpace c.ringBody, sd := false
    fmt := c.slotFormat.code, n0 := c.perTile, n1 := c.src.count, n2 := 1, s1 := 0, s2 := 0 }

/-- An element of a block as a slot holds it: the block's scale left out. -/
def slotBytes (f : MFmt) (x : Nat) (bs : List Byte) : List Byte :=
  match f with
  | .plain _ => bs.drop 2
  | .planed d k c =>
    [BitVec.ofInt 8 (toIntRange 0 (-128) 127 ⟨elemValue (.planed d k c) x ([0, 127] ++ bs.drop 2), false⟩).1]

/-! ## Elements moved -/

/-- The pattern that a command reads, and the one that it writes. -/
def Cmd.from_ (c : Cmd) : Pat := if c.kind = .drain then c.slotPat else c.src
def Cmd.to_ (c : Cmd) : Pat :=
  match c.kind with
  | .sub => c.slotPat
  | .drain => c.src
  | _ => c.dst

/-- The kind of a command's writes. -/
def Cmd.writeKind (c : Cmd) : AccKind :=
  match c.kind with
  | .cpyr => .a
  | .coll => if bitsAt (c.word 16 16) 0 2 = 2 then .w else .a
  | _ => .w

/-- The elements that a command's range entries span: of `sub` and `drain`, a tile's (16 R240). -/
def Cmd.window (c : Cmd) (p : Pat) : List Nat := if c.isTiled then c.tileElems else List.range p.count
def Cmd.tileTag (c : Cmd) : Nat := if c.isTiled then c.tileNo else 0

/-- The elements of a window that have not landed, and that have not been read. -/
def Cmd.unlanded (c : Cmd) : List Nat :=
  (c.window c.to_).filter fun i => decide (c.front ≤ i) && !c.early.contains i
def Cmd.unread (c : Cmd) : List Nat :=
  if c.kind = .coll then (c.window c.from_).filter fun i => !c.got.any (·.1 == i)
  else c.unlanded.filter fun i => !c.got.any (·.1 == i)

/-- The elements that land together with element `i`. -/
def Cmd.landing (c : Cmd) (i : Nat) : List Nat := c.to_.blockMates c.unlanded i

/-- The destination is written in the automatic scale mode. -/
def Cmd.autoScaled (c : Cmd) : Bool := c.to_.sd && c.to_.sm

/-- The elements that have landed in the block of a landing and are written again with it, because the block has one scale
(05 R74): of each index that the landing does not write, its last visit. -/
def Cmd.again (c : Cmd) (is : List Nat) : List Nat :=
  let p := c.to_
  match c.autoScaled, p.format, is with
  | true, some f, i :: _ =>
    let old := (c.got.map (·.1)).filter fun j =>
      (decide (j < c.front) || c.early.contains j) && blockOf f (p.index j).toNat == blockOf f (p.index i).toNat
    old.filter fun j => (is.all fun k => p.index k != p.index j) && old.all fun k => p.index k != p.index j || decide (k ≤ j)
  | _, _, _ => []

/-- The core whose CP a command writes, where it writes one. -/
def State.dstCore (s : State) (c : Cmd) : Option Place :=
  match c.kind with
  | .drain | .unsub | .rlc => none
  | .sub => if ringSpace c.ringBody = 0 then some c.issuer else none
  | _ =>
    if c.dst.space = 0 then some c.issuer
    else if c.dst.space = 2 then
      match s.engLocate c 2 c.dst.addr 1 .w with
      | .ok l =>
        match l.home, l.tgt with
        | .cp p _, .keys _ => some p
        | _, _ => none
      | .error _ => none
    else none

/-- Bytes that land with LBV = 1 retire on LBX (R219). -/
def State.retireLanding (s : State) (c : Cmd) (n : Nat) : State :=
  if c.lbv then
    match s.dstCore c with
    | some p => s.retireLb p c.lbx n c.writes
    | none => s
  else s

/-- A remote module's answer to an access, which the manual leaves to that module: done, or a fault of it. -/
def remoteStat (s : State) : Nat :=
  match (Config.freeValue s.free).toNat % 4 with
  | 0 => 0
  | 1 => 2
  | 2 => 3
  | _ => 5

/-- A remote access of an `xfer`: its bytes are metered, and the remote module answers it. -/
def State.remoteDone (s : State) (c : Cmd) (bs : List Byte) : EngRes (List Byte) :=
  if remoteStat s = 0 then
    .ok (({ s with free := s.free + 1 } : State).modPart c.part fun t =>
      { t with meter := { t.meter with scub := t.meter.scub + bs.length } }) bs
  else .fault (remoteStat s) 0

/-- A source element read, or kept since its read; ranges that no read to come touches are closed. -/
def State.readElem (s : State) (c : Cmd) (i : Nat) : EngRes (List Byte) :=
  let p := c.from_
  match c.got.find? (·.1 == i) with
  | some e => .ok s e.2
  | none =>
    if c.remoteSrc then s.remoteDone c (c.remoteBytes i)
    else
      match s.engRun c p.space .r (fun s h => s.homeRange c p .r (c.window p) c.tileTag h) false (p.spans (p.index i).toNat) [] with
      | .ok s' bs => .ok (s'.closeRanges c p .r [i] (c.unread.filter (· != i)) c.tileTag) bs
      | e => e

/-- Several source elements read, in order. -/
def State.readElems (s : State) (c : Cmd) : List Nat → EngRes (List (List Byte))
  | [] => .ok s []
  | i :: is =>
    match s.readElem c i with
    | .ok s1 bs =>
      match s1.readElems { c with got := c.got ++ [(i, bs)] } is with
      | .ok s2 bss => .ok s2 (bs :: bss)
      | e => e
    | .fault st a => .fault st a
    | .blocked => .blocked
    | .stop f => .stop f

/-- The values of source elements, or the fault of the first that has none. -/
def Cmd.values (c : Cmd) : List (Nat × List Byte) → Except (Nat × Nat) (List (Nat × FVal))
  | [] => .ok []
  | (i, bs) :: rest =>
    match c.from_.value (c.from_.index i).toNat bs, c.values rest with
    | .ok v, .ok vs => .ok ((i, v) :: vs)
    | .error st, _ => .error (st, c.from_.blockAddr i)
    | _, .error e => .error e

/-- Bytes written over ranges of a command's destination. -/
def State.writeDest (s : State) (c : Cmd) (es : List (Nat × Nat)) (bs : List Byte) : EngRes (List Byte) :=
  let p := c.to_
  if c.remoteDst then s.remoteDone c bs
  else
    s.engRun c p.space c.writeKind (fun s h => s.homeRange c p c.writeKind (c.window p) c.tileTag h) true es bs

/-- The bytes that stand at destination elements, after the check of a reduction's read. -/
def State.oldDest (s : State) (c : Cmd) : List Nat → EngRes (List (List Byte))
  | [] => .ok s []
  | i :: is =>
    let p := c.to_
    match s.engRun c p.space c.writeKind (fun s h => s.homeRange c p c.writeKind (c.window p) c.tileTag h) false
        (p.spans (p.index i).toNat) [] with
    | .ok s1 bs =>
      match s1.oldDest c is with
      | .ok s2 bss => .ok s2 (bs :: bss)
      | e => e
    | .fault st a => .fault st a
    | .blocked => .blocked
    | .stop f => .stop f

/-- Ranges of a destination as memory holds them. -/
def State.peek (s : State) (c : Cmd) (es : List (Nat × Nat)) : List Byte :=
  Memory.getAll s.mem ((s.rangeKeys c c.to_ c.writeKind es).map (·.2))

/-- A landing: the bytes go over the ranges of elements `is`. The last one on them retires them on LBX, and the ranges that
no write to come touches are closed. Elements written again retire nothing. -/
def State.land (s : State) (c : Cmd) (is : List Nat) (bs : List Byte) (last : Bool) : EngRes (List Byte) :=
  let p := c.to_
  let fresh := is.filter fun i => decide (c.front ≤ i) && !c.early.contains i
  match s.writeDest c (p.landSpans (is.map fun i => (p.index i).toNat)) bs with
  | .ok s' _ =>
    if !last then .ok s' bs
    else
      let s' := if c.remoteDst then s' else
        s'.closeRanges c p c.writeKind is (c.unlanded.filter fun i => !is.contains i) c.tileTag
      .ok (s'.retireLanding c ((p.landSpans (fresh.map fun i => (p.index i).toNat)).map (·.2)).sum) bs
  | e => e

/-- The bytes of a copy of elements `is` (R223): unchanged between raw patterns of one format, converted otherwise; of `sub`,
as the blocks hold them. -/
def State.copyBytes (s : State) (c : Cmd) (is : List Nat) (bss : List (List Byte)) : Except (Nat × Nat) (List Byte) :=
  let p := c.from_
  let q := c.to_
  if p.fmt = q.fmt ∧ !p.sd ∧ !q.sd then .ok bss.flatten
  else
    match c.values (is.zip bss) with
    | .error e => .error e
    | .ok vs =>
      if c.kind = .sub then
        .ok ((is.zip bss).flatMap fun e => (p.format.map fun f => slotBytes f (p.index e.1).toNat e.2).getD [])
      else
        .ok (q.landBytes (q.scaleOf (vs.map (·.2))) (q.indexed vs) (s.peek c (q.landSpans ((q.indexed vs).map (·.1)))))

/-- A copy of elements that land together (R223), with those of their block that are written again. Under the automatic
scale mode a block lands once all of them have been read, and what has been read is kept for the block's next landing. -/
def State.copyElems (s : State) (c : Cmd) (is : List Nat) : EngRes (List Byte) :=
  let is := is ++ c.again is
  if c.autoScaled && !(is.all fun i => c.got.any (·.1 == i)) then .blocked
  else
  match s.readElems c is with
  | .ok s1 bss =>
    match s1.copyBytes c is bss with
    | .ok out => s1.land c is out true
    | .error (st, a) => .fault st a
  | .fault st a => .fault st a
  | .blocked => .blocked
  | .stop f => .stop f

/-- Values applied to destination elements by a reduction (R224): every block's code is checked first. -/
def State.reduceElems (s : State) (c : Cmd) (rop : Nat) (vs : List (Nat × FVal)) (last : Bool) : EngRes (List Byte) :=
  let q := c.to_
  match s.oldDest c (vs.map (·.1)) with
  | .ok s1 olds =>
    if q.sd && olds.any fun o => !((q.format.map fun f => codeOk f o).getD false) then
      .fault 4 (q.blockAddr ((vs.map (·.1)).headD 0))
    else s1.land c (vs.map (·.1)) (q.reduced rop (q.indexed vs) olds) last
  | .fault st a => .fault st a
  | .blocked => .blocked
  | .stop f => .stop f

/-- An application of `cpyr` to elements that land together (R224). -/
def State.reduceCopy (s : State) (c : Cmd) (is : List Nat) : EngRes (List Byte) :=
  match s.readElems c is with
  | .ok s1 bss =>
    match c.values (is.zip bss) with
    | .ok vs => s1.reduceElems c c.dst.rop vs true
    | .error (st, a) => .fault st a
  | .fault st a => .fault st a
  | .blocked => .blocked
  | .stop f => .stop f

/-! ## The checks at acceptance -/

/-- The first failure of a pattern's addresses at acceptance: x < 0, a window, permission. Rights are found missing where
the access is made (R220). -/
def State.patStat (s : State) (c : Cmd) (p : Pat) (kind : AccKind) (space : Nat) : Nat :=
  (((List.range p.count).findSome? fun i =>
    if p.index i < 0 then some 6
    else (p.touches kind (p.index i).toNat).findSome? fun e =>
      match s.engLocate c space e.1 e.2 kind with
      | .ok _ => none
      | .error st => if st = 3 then none else some st)).getD 0

/-- The first failure among checks. -/
def firstStat : List Nat → Nat
  | [] => 0
  | 0 :: rest => firstStat rest
  | st :: _ => st

def statIf (b : Bool) (st : Nat) : Nat := if b then st else 0

/-- A pattern's scale mode fits its format (05 R74). -/
def Pat.modeOk (p : Pat) : Bool := !p.sm || p.autoMax.isSome

/-- ROP and the destination format pair (R224). -/
def reduceOk (rop fmt : Nat) : Bool :=
  (rop == 0 && (fmt == 8 || fmt == 10)) || ((rop == 1 || rop == 2) && fmt != 15)

/-- The follow-on word of a `cpym` (R225), where it is one. -/
def Cmd.followWord (c : Cmd) : Option Instr :=
  match decodeBytes false ((c.blk.drop 80).take 8) with
  | .ok i =>
    match i with
    | .mma _ _ _ | .mmaz _ _ _ | .mlda _ _ _ _ _ _ | .mldb _ _ _ _ _ _ | .mldacc _ _ _ _ _ _
    | .mstacc _ _ _ _ _ _ _ _ | .mclr _ _ | .mmask _ _ _ _ => some i
    | _ => none
  | .error _ => none

/-- Checks of the header's LBX and NPLACE. -/
def State.headerStat (s : State) (c : Cmd) : Nat :=
  firstStat
    [ statIf (!c.headerOk) 1,
      statIf (c.lbv && (s.dstCore c).isNone) 1,
      statIf (c.ntv && (match s.parsePlace c.nplace with | .core _ _ => false | _ => true)) 1,
      statIf (c.ntv && !(s.part c.part).hasCore c.nplace) 7 ]

/-- The checks of two patterns whose elements correspond. -/
def State.pairStat (s : State) (c : Cmd) (kind : AccKind) : Nat :=
  firstStat
    [ statIf (!c.src.ok || !c.dst.ok || c.src.rop != 0) 1,
      statIf (!c.src.modeOk || !c.dst.modeOk) (if c.kind = .xfer then 4 else 1),
      statIf (c.src.count != c.dst.count) 1,
      statIf (c.src.badFormat || c.dst.badFormat) 4,
      if c.remoteSrc then statIf ((List.range c.src.count).any fun i => decide (c.src.index i < 0)) 6
        else s.patStat c c.src .r c.src.space,
      if c.remoteDst then statIf ((List.range c.dst.count).any fun i => decide (c.dst.index i < 0)) 6
        else s.patStat c c.dst kind c.dst.space ]

/-- Every byte of a stream's pattern is owned by a station of the stack that performs it (R226). -/
def State.stackOk (s : State) (c : Cmd) : Bool :=
  match s.parsePlace c.eng.place.toNat with
  | .station n =>
    (List.range c.src.count).all fun i =>
      (c.src.touches (if c.kind = .drain then .w else .r) (c.src.index i).toNat).all fun e => s.stackOf (s.slotStation (slotOf e.1)) == s.stackOf n
  | _ => false

/-- The participants of a collective, in rank order (R230). -/
def State.collGroup (s : State) (c : Cmd) : List Place := meshMembers (s.msh c.issuer c.collMsh).block
def Cmd.collKind (c : Cmd) : Nat := bitsAt (c.word 16 16) 0 2
def Cmd.collRing (c : Cmd) : Bool := bitAt (c.word 16 16) 2
def Cmd.collRop (c : Cmd) : Nat := bitsAt (c.word 16 16) 3 3

/-- The destination count of a collective fits its kind. -/
def collCounts (kind np sc dc : Nat) : Bool :=
  match kind with
  | 0 => dc == sc
  | 1 => np != 0 && sc % np == 0 && dc == sc / np
  | 2 => dc == np * sc
  | _ => false

def State.collStat (s : State) (c : Cmd) : Nat :=
  let group := s.collGroup c
  let shape := (s.part c.part).attrs.shape
  firstStat
    [ statIf (bitsAt (c.word 16 16) 10 118 != 0 || c.collKind == 3 || group.isEmpty) 1,
      statIf (c.collRing && !(shape == 1 || shape == 2 || shape == 3)) 1,
      statIf (c.collKind != 2 && !reduceOk c.collRop c.dst.fmt) 1,
      statIf (!c.src.ok || !c.dst.ok || c.src.rop != 0) 1,
      statIf (!collCounts c.collKind group.length c.src.count c.dst.count) 1,
      statIf (c.src.badFormat || c.dst.badFormat || !c.dst.modeOk) 4,
      s.patStat c c.src .r c.src.space,
      s.patStat c c.dst .w c.dst.space ]

/-! ## Refinement commands (18 R269, R270) -/

/-- The body of an `rlcrun` block; the regions' addresses are CM offsets. -/
structure Refine where
  a : Nat
  b : Nat
  x : Nat
  w : Nat
  r : Nat
  nb : Nat
  ladder : Nat
  rp : Bool
  init : Bool
  pstag : Nat
  pdiv : Nat
  plim : Nat
  limit : Nat
  tol : FVal
  rhos : FVal
  rhod : FVal
deriving DecidableEq, Repr

def Cmd.refine (c : Cmd) : Refine :=
  let v := c.word 16 64
  { a := bitsAt v 0 32, b := bitsAt v 32 32, x := bitsAt v 64 32, w := bitsAt v 96 32, r := bitsAt v 128 32,
    nb := bitsAt v 160 4, ladder := bitsAt v 164 3, rp := bitAt v 167, init := bitAt v 168, pstag := bitsAt v 169 2,
    pdiv := bitsAt v 171 2, plim := bitsAt v 173 2, limit := bitsAt v 176 16,
    tol := fv32 (BitVec.ofNat 32 (bitsAt v 192 32)), rhos := fv32 (BitVec.ofNat 32 (bitsAt v 224 32)),
    rhod := fv32 (BitVec.ofNat 32 (bitsAt v 256 32)) }

/-- The order of the system. -/
def Refine.n (f : Refine) : Nat := 32 * f.nb
/-- The bytes of an element of x. -/
def Refine.xBytes (f : Refine) : Nat := if f.rp then 8 else 4
/-- The bytes of the factor's tiles in the workspace. -/
def Refine.tileBytes (f : Refine) : Nat := 4096 * (f.nb * (f.nb + 1) / 2)

/-- The five regions: offset, size, alignment, and the kind of the run's range entry (R278). -/
def Refine.regions (f : Refine) : List (Nat × Nat × Nat × AccKind) :=
  [(f.a, 4 * f.n * f.n, 64, .r), (f.b, 4 * f.n, 64, .r), (f.x, f.xBytes * f.n, 64, .w),
   (f.w, f.tileBytes + 16 * f.n, 64, .w), (f.r, 32, 32, .w)]

/-- Two of some regions overlap. -/
def regionsOverlap : List (Nat × Nat × Nat × AccKind) → Bool
  | [] => false
  | p :: ps =>
    (ps.any fun q => decide (p.1 < q.1 + q.2.1) && decide (q.1 < p.1 + p.2.1)) || regionsOverlap ps

/-- The checks of a refinement block at acceptance. -/
def Cmd.refineStat (c : Cmd) : Nat :=
  let f := c.refine
  let v := c.word 16 64
  firstStat
    [ statIf (bitsAt v 288 224 != 0 || bitAt v 175 || c.lbv || f.nb == 0 || decide (12 < f.nb) || f.ladder == 0
        || f.limit == 0 || f.plim == 3 || f.pdiv == 3 || f.pstag == 3 || f.plim == 1 || !f.tol.isFinite
        || !f.tol.gt FVal.zero || !f.rhos.isFinite || !f.rhod.isFinite || !f.rhos.gt FVal.zero
        || !f.rhos.lt f.rhod || (f.regions.any fun e => e.1 % e.2.2.1 != 0) || regionsOverlap f.regions) 1,
      statIf (f.regions.any fun e => decide (1048576 < e.1 + e.2.1)) 6 ]

/-- The STAT of a command at acceptance: 0 where its engine goes on with it. DESIGN CHOICE (log 129): ADDR of a self-described
pattern need not be a multiple of 64. -/
def State.cmdStat (s : State) (c : Cmd) : Nat :=
  let own : Nat :=
    match c.kind with
    | .cpy => firstStat [statIf (c.dst.rop != 0) 1, s.pairStat c .w]
    | .cpyr => firstStat [statIf (!reduceOk c.dst.rop c.dst.fmt) 1, s.pairStat c .a]
    | .cpym => firstStat [statIf (c.followWord.isNone || c.word 104 8 != 0) 1, statIf (c.dst.rop != 0) 1, s.pairStat c .w]
    | .sub | .drain =>
      firstStat
        [ statIf (!c.src.ok || c.src.rop != 0 || c.src.space != 3 || c.word 64 16 != 0) 1,
          statIf (c.src.badFormat || (c.kind = .drain && !c.src.modeOk)) 4,
          s.patStat c c.src (if c.kind = .sub then .r else .w) 3,
          statIf (!s.stackOk c) 6 ]
    | .unsub => 0
    | .bte =>
      firstStat
        [ statIf (c.dst.rop != 0) 1,
          statIf (!((c.src.space == 3 && 2 ≤ c.dst.space) || (c.dst.space == 3 && 2 ≤ c.src.space))) 1,
          s.pairStat c .w ]
    | .coll => s.collStat c
    | .xfer =>
      let link := Table.find s.sublinks (s.xferPort c * 8 + c.subl)
      firstStat
        [ statIf (bitsAt (c.word 16 16) 4 12 != 0 || bitsAt (c.word 16 16) 48 80 != 0) 1,
          statIf ((if c.inbound then c.src.space else c.dst.space) != 3 || c.dst.rop != 0) 1,
          statIf (link.bind (·.owner) != some c.part
            || !(link.any fun l => l.far.contains c.rmod)
            || (link.bind (·.peer)).isNone) 7,
          statIf (link.map (·.up) != some true) 9,
          s.pairStat c .w ]
    | .rlc => c.refineStat
  firstStat [s.headerStat c, own]

end Sys2Proof.Machine
end

