-- ==== Sys2Proof/Machine/Engines.lean ====
section
/-! DEFINITION. The engine instructions (14 R214, 07 R93), and the events of their commands: acceptance, landings, tiles,
collectives, follow-on instructions and completion (R218 to R231, 16 R250). -/

namespace Sys2Proof.Machine

/-! ## Issue -/

/-- What PLACE must name (R214). -/
inductive PlaceKind | copyEngine | station | own | ownCluster | east
deriving DecidableEq, Repr

/-- The check of PLACE. -/
def enginePlace (k : PlaceKind) (w : BitVec 16) : M Unit := fun s =>
  match k, s.parsePlace w.toNat with
  | .copyEngine, .core _ 0 =>
    match s.checkCore w.toNat with
    | .ok _ => .ok ((), s)
    | .error c => trapOpen c s
  | .station, .station _ => .ok ((), s)
  | .own, .core _ _ => if w.toNat = s.cur.1 then .ok ((), s) else trapOpen .placeInvalid s
  | .ownCluster, .core clu _ => if clu = s.cur.1 / 8 then .ok ((), s) else trapOpen .placeInvalid s
  | .east, .east _ => .ok ((), s)
  | _, _ => trapOpen .placeInvalid s

/-- A kind of command, its engine, its block's size and the ring it names. -/
structure Issue where
  kind : CmdKind
  place : PlaceKind
  size : Nat
  ring : Option (Fin 16)

/-- Two slot areas of the same space overlap. -/
def slotsOverlap (a b : BitVec 128) : Bool :=
  ringSpace a == ringSpace b
    && decide (ringBase a < ringBase b + ringDepth b * ringSlot b)
    && decide (ringBase b < ringBase a + ringDepth a * ringSlot a)

/-- The checks of a ring body at issue (R226). -/
def State.ringOk (s : State) (p : Place) (rg : Nat) (b : BitVec 128) : Bool :=
  let n := ringDepth b
  let stop := ringBase b + n * ringSlot b
  bitsAt b.toNat 38 10 == 0 && bitsAt b.toNat 76 52 == 0 && decide (ringSpace b ≤ 1)
    && ringBase b % 64 == 0 && ringSlot b % 64 == 0 && decide (64 ≤ ringSlot b) && decide (ringSlot b ≤ 32768)
    && decide (stop ≤ (if ringSpace b = 0 then reservedFrom else 1048576))
    && decide (ringFull b + n ≤ 64) && decide (ringEmpty b + n ≤ 64)
    && (decide (ringFull b + n ≤ ringEmpty b) || decide (ringEmpty b + n ≤ ringFull b))
    && (s.objs p).rings.all fun e => e.1 == rg || e.2.cmd.isNone || !slotsOverlap b e.2.body

def State.ring (s : State) (p : Place) (rg : Nat) : Ring := Table.get Ring.reset (s.objs p).rings rg

/-- The checks that an engine's chapter places before the wait: R226 for `sub` and `drain`, R228 for `unsub`. -/
def issueChecks (i : Issue) (e : Eng) (blk : List Byte) : M Unit := do
  let s ← getState
  match i.ring with
  | none => pure ()
  | some rg =>
    let r := s.ring s.cur.1 rg.val
    if i.kind = .unsub then
      match r.cmd.bind s.cmd with
      | some c => trapIf (c.eng.place != e.place) .placeInvalid (e.place.setWidth 64)
      | none => pure ()
    else
      let body := BitVec.ofNat 128 (leOf ((blk.drop 16).take 16))
      trapIf (!s.ringOk s.cur.1 rg.val body) .windowBounds (BitVec.ofNat 64 (e.pblk.toNat * 16))
      trapIf r.cmd.isSome .queueMisuse (BitVec.ofNat 64 rg.val)

/-- The parameter block read from the own CP as one request. -/
def readParams (off n : Nat) : M (List Byte) := do
  let s ← getState
  match s.locateCp off n (s.seq.level == .user) with
  | .ok l => readAt l
  | .error (c, v) => trap c (BitVec.ofNat 64 v)

/-- The wait field (07 R93): a semaphore wait that takes nothing and has no time-out. -/
def waitField (e : Eng) : M Unit := do
  let s ← getState
  if e.wthr != 0 && decide (s.sem s.cur.1 e.wsem.toNat < e.wthr.toNat) then
    let o : ObjRef := ⟨.sem, s.cur.1, e.wsem.toNat⟩
    let _ ← waitOn o [o] 0
  if e.wthr != 0 then setState (s.acquire (.obj ⟨.sem, s.cur.1, e.wsem.toNat⟩))

/-- The entries of a core's completion queue in use. -/
def completionRoom : M Unit := fun s =>
  if 16 ≤ s.me.work.cplq.length then .error (.wait ⟨.slot, 0, none, none⟩ (some s)) else .ok ((), s)

/-- The command packet (R218): the command joins those sent, with its completion entry and its ring. -/
def State.sendCmd (s : State) (i : Issue) (e : Eng) (blk : List Byte) (seqNo : Nat) : State :=
  let p := s.cur.1
  let t := s.my
  let c : Cmd :=
    { id := s.nextCmd, kind := i.kind, issuer := p, sid := t.act.sid, part := s.partNo p, proc := t.csr.proc,
      wid := t.csr.wid, wfw := t.csr.wfw, lid := t.act.lid, user := s.seq.level == .user, eng := e,
      ring := (i.ring.map (·.val)).getD 0, blk := blk, phase := .sent, front := 0, tries := 0, stopReq := false,
      tileOpen := false, seqNo := seqNo, matPending := false, got := [], early := [], addend := 0, owed := false }
  let s := { (s.meterCmd c blk.length).publish (.cmd c.id) with cmds := s.cmds ++ [c], nextCmd := s.nextCmd + 1 }
  let s := if c.chv then s.modWork p fun w => { w with cplq := w.cplq ++ [⟨c.id, false, 0, 0, 0, 0⟩] } else s
  if i.kind = .sub ∨ i.kind = .drain then
    s.modObjs p fun o => { o with rings := Table.set o.rings c.ring ⟨c.ringBody, some c.id⟩ }
  else s

/-- The number that a command carries: of a collective among its issuer's on the barrier; of the command that an
`unsub` stops. -/
def State.cmdSeq (s : State) (i : Issue) (blk : List Byte) : Nat :=
  match i.kind with
  | .coll => s.collCount s.cur.1 (bitsAt (leOf blk) 134 4)
  | .unsub => ((i.ring.bind fun rg => (s.ring s.cur.1 rg.val).cmd).getD 0)
  | _ => 0

/-- The parts of an engine instruction that are over, which are not performed again while it waits: 1 its checks before the
wait, 2 the wait, 3 the checks after it. -/
def Seq.parts (c : Seq) : Nat := c.passed % 4

/-- A part of the instruction, unless it is over. -/
def part (n : Nat) (m : M Unit) : M Unit := fun s =>
  if n ≤ s.seq.parts then .ok ((), s)
  else (m s).map fun r => ((), r.2.modSeq fun c => { c with passed := c.passed / 4 * 4 + n })

/-- An engine instruction: PLACE, the block, the first read and its checks, the wait, the second read and its checks,
the release, and the packet. `more` are a chapter's further checks, made on both reads. -/
def issueBody (i : Issue) (e : Eng) (more : List Byte → M Unit) : M Next := do
  let off := e.pblk.toNat * 16
  let s ← getState
  if s.seq.parts = 0 then
    enginePlace i.place e.place
    if 65536 < off + i.size then trapOpen .windowBounds
  let first ← readParams off i.size
  part 1 (do
    issueChecks i e first
    more first)
  part 2 (waitField e)
  drainSq
  let blk ← readParams off i.size
  part 3 (do
    issueChecks i e blk
    more blk)
  if bitAt (leOf blk) 56 then completionRoom
  release
  modState fun s => s.sendCmd i e blk (s.cmdSeq i blk)
  pure .fall

def noMore (_ : List Byte) : M Unit := pure ()

def execCpy (g : Guard) (e : Eng) (s : State) : Host.Outcome State Fault Refusal :=
  perform 16 Need.any g (issueBody ⟨.cpy, .copyEngine, 80, none⟩ e noMore) s
def execCpyr (g : Guard) (e : Eng) (s : State) : Host.Outcome State Fault Refusal :=
  perform 16 Need.any g (issueBody ⟨.cpyr, .copyEngine, 80, none⟩ e noMore) s
def execCpym (g : Guard) (e : Eng) (s : State) : Host.Outcome State Fault Refusal :=
  perform 16 Need.any g (issueBody ⟨.cpym, .copyEngine, 112, none⟩ e noMore) s
def execSubscribe (g : Guard) (rg : Fin 16) (e : Eng) (s : State) : Host.Outcome State Fault Refusal :=
  perform 16 Need.any g (issueBody ⟨.sub, .station, 80, some rg⟩ e noMore) s
def execDrain (g : Guard) (rg : Fin 16) (e : Eng) (s : State) : Host.Outcome State Fault Refusal :=
  perform 16 Need.any g (issueBody ⟨.drain, .station, 80, some rg⟩ e noMore) s
def execUnsub (g : Guard) (rg : Fin 16) (e : Eng) (s : State) : Host.Outcome State Fault Refusal :=
  perform 16 Need.any g (issueBody ⟨.unsub, .station, 16, some rg⟩ e noMore) s
def execBte (g : Guard) (e : Eng) (s : State) : Host.Outcome State Fault Refusal :=
  perform 16 Need.any g (issueBody ⟨.bte, .station, 80, none⟩ e noMore) s
def execColl (g : Guard) (e : Eng) (s : State) : Host.Outcome State Fault Refusal :=
  perform 16 Need.any g (issueBody ⟨.coll, .own, 96, none⟩ e noMore) s
def execXfer (g : Guard) (e : Eng) (s : State) : Host.Outcome State Fault Refusal :=
  perform 16 Need.any g (issueBody ⟨.xfer, .east, 96, none⟩ e noMore) s

/-! ## Acceptance (R218, R197, R228) -/

/-- Command slots of a block-transfer engine (01 R18). -/
def bteSlots : Nat := 64

def Phase.inEngine : Phase → Bool
  | .accepted | .faulted _ _ => true
  | _ => false

/-- The block-transfer engine of a command's station is full. -/
def State.bteFull (s : State) (c : Cmd) : Bool :=
  c.kind == .bte
    && decide (bteSlots ≤ (s.cmds.filter fun d =>
      d.kind == .bte && d.eng.place == c.eng.place && d.phase.inEngine).length)

/-- A fifth command waits at a refinement loop controller (18 R267). -/
def State.rlcFull (s : State) (c : Cmd) : Bool :=
  c.kind == .rlc && decide (4 ≤ (s.clus (c.issuer / 8)).rlc.queue.length)

/-- A refusal: the command is sent again after the hint, or completes with STAT 0x0A at the retry limit. DESIGN CHOICE (log
128): the hint comes from the mean T of the issuing core. -/
def State.refuseCmd (s : State) (c : Cmd) : State :=
  let lim := (s.part c.part).attrs.retryLim
  let phase := if lim ≠ 0 ∧ lim ≤ c.tries + 1 then Phase.landed 0x0A else .hinted (s.tick + (s.core c.issuer).hint)
  (s.meterCmd c 0).modCmd c.id fun c => { c with phase := phase, tries := c.tries + 1 }

/-- The 2n barriers of a ring, set as `lbinit` with EXP = 1 sets them (R197). -/
def State.primeRing (s : State) (p : Place) (b : BitVec 128) : State :=
  let n := ringDepth b
  (span (ringFull b) n ++ span (ringEmpty b) n).foldl (fun s i => s.initLb p i 1) s

/-- An `unsub` at the streamer: the command in progress is asked to stop; a free ring gives STAT 0x01. -/
def State.acceptUnsub (s : State) (c : Cmd) : State :=
  match s.cmd c.seqNo with
  | some d =>
    if d.phase == .done || d.issuer != c.issuer then s.modCmd c.id fun c => { c with phase := .landed 1 }
    else
      let stopNow := !d.tileOpen && (d.phase == .accepted || d.phase == .sent)
      let s := s.modCmd d.id fun d => { d with stopReq := true, phase := if stopNow then .landed 8 else d.phase }
      s.modCmd c.id fun c => { c with phase := .accepted }
  | none => s.modCmd c.id fun c => { c with phase := .landed 1 }

/-- The engine of a command's reduce packets (16 R250), as a path and a place. -/
def Cmd.reducer (c : Cmd) : Path × Place := (c.kind.path, if c.kind = .coll then c.issuer else c.eng.place.toNat)

/-- A reduce packet of a command, for a home: the id that its engine gives the command has 16 bits, the number 32. -/
def Cmd.packet (c : Cmd) (seq : Nat) (h : Home) : Reduced :=
  ⟨h, c.reducer.1, c.reducer.2, c.id % 65536, seq % 2 ^ 32⟩

/-- Packets of the command with the same id. -/
def Cmd.ownPacket (c : Cmd) (r : Reduced) : Bool :=
  r.path == c.reducer.1 && r.engine == c.reducer.2 && r.cmd == c.id % 65536

/-- A command id is assigned anew: what homes keep of an earlier command with it is no more. -/
def State.freshId (s : State) (c : Cmd) : State :=
  { s with fab := { s.fab with
      reduced := s.fab.reduced.filter fun r => !c.ownPacket r
      floors := s.fab.floors.filter fun r => !c.ownPacket r } }

/-- A command stands on a fault, and ENGINE-FAULT becomes pending at the issuing core, with TVAL = XID (R220). -/
def State.faultCmd (s : State) (c : Cmd) (st a : Nat) : State :=
  (s.modCmd c.id fun d => { d with phase := .faulted st a }).modCore c.issuer fun k =>
    { k with pendFaults := k.pendFaults ++ [(BitVec.ofNat 64 c.xid, c.id)] }

/-- A command enters its engine, or completes with the STAT of a failed check; a FORMAT failure raises ENGINE-FAULT first
(R220). -/
def State.acceptCmd (s : State) (c : Cmd) : State :=
  match s.cmdStat c with
  | 0 =>
    let s := s.freshId c
    match c.kind with
    | .unsub => s.acceptUnsub c
    | .sub | .drain => (s.primeRing c.issuer c.ringBody).modCmd c.id fun c => { c with phase := .accepted }
    | .rlc =>
      (s.modClus (c.issuer / 8) fun k => { k with rlc := { k.rlc with queue := k.rlc.queue ++ [c.id] } }).modCmd c.id
        fun c => { c with phase := .accepted }
    | _ => s.modCmd c.id fun c => { c with phase := .accepted }
  | 4 => s.faultCmd c 4 0
  | st => s.modCmd c.id fun c => { c with phase := .landed st }

def execEngineAccept (cmd : Nat) (s : State) : Host.Outcome State Fault Refusal :=
  match s.cmd cmd with
  | none => .next s
  | some c =>
    if c.phase != .sent then .next s
    else if s.bteFull c then .next (s.refuseCmd c)
    else if s.rlcFull c then .next s
    else .next (s.acceptCmd c)

/-! ## Landings (R219, R223, R227) -/

/-- The first number from `n` on that a list does not hold. -/
def skipIn (l : List Nat) : Nat → Nat → Nat
  | 0, n => n
  | k + 1, n => if l.contains n then skipIn l k (n + 1) else n

/-- The elements that a command lands in all. -/
def Cmd.total (c : Cmd) : Nat := if c.kind = .coll then c.dst.count else c.src.count

/-- A command whose elements `is` have landed: its frontier is the first that has not. -/
def Cmd.landed (c : Cmd) (is : List Nat) : Cmd :=
  let e := c.early ++ is
  let f := skipIn e e.length c.front
  { c with
    front := f, early := e.filter fun i => decide (f ≤ i), addend := if f = c.front then c.addend else 0
    got := if c.kind = .coll ∨ c.autoScaled then c.got else c.got.filter fun g => !is.contains g.1 }

/-- The last element of a tile has landed: the streamer arrives at the ring's barrier (R227). `c` is the command as it stood
in the tile. -/
def State.endTile (s : State) (c : Cmd) (front : Nat) : State :=
  let i := (if c.kind = .sub then ringFull c.ringBody else ringEmpty c.ringBody) + c.slotNo
  let s := match (s.addPub (.running ⟨.lb, c.issuer, i⟩) ({ c with front := front } : Cmd).writes).arriveLb c.part 0 c.issuer
      i 0 with
    | some s' => s'
    | none => s.log (.badArrival c.issuer i)
  s.modCmd c.id fun d =>
    let d := { d with tileOpen := false }
    if c.stopReq then { d with phase := .landed 8 }
    else if c.total ≤ front then { d with phase := .landed 0 }
    else d

/-- Elements have landed: past its last the command has landed too, or hands over its follow-on instruction; past the last
of a tile the streamer arrives. -/
def State.advance (s : State) (c : Cmd) (is : List Nat) : State :=
  let d := c.landed is
  let s := s.modCmd c.id fun _ => d
  if c.isTiled then
    (if d.front / c.perTile ≠ c.tileNo ∨ c.total ≤ d.front then s.endTile c d.front else s)
  else if d.front < c.total then s
  else s.modCmd c.id fun d => if c.kind = .cpym then { d with matPending := true } else { d with phase := .landed 0 }

/-- A command that moves data now. -/
def Cmd.moving (c : Cmd) : Bool :=
  c.phase == .accepted && !c.matPending && (!c.isTiled || c.tileOpen) && c.kind != .rlc && c.kind != .unsub

/-- The landing of elements `is` of a command that copies or reduces. -/
def State.landNow (s : State) (c : Cmd) (is : List Nat) : EngRes (List Byte) :=
  if c.kind = .cpyr then s.reduceCopy c is else s.copyElems c is

/-- The landing at the frontier of a command that moves elements by itself; none where it has none to move now. -/
def State.nextLanding (s : State) (c : Cmd) : Option (EngRes (List Byte)) :=
  if c.moving && c.kind != .coll then some (s.landNow c (c.landing c.front)) else none

def execEngineWriteLand (cmd : Nat) (s : State) : Host.Outcome State Fault Refusal :=
  match s.cmd cmd with
  | none => .next s
  | some c =>
    if c.kind = .cpyr then .next s
    else
      match s.nextLanding c with
      | some (.ok s' _) => .next (s'.advance c (c.landing c.front))
      | some (.stop f) => .fault f
      | _ => .next s

/-! ## Reductions (R224, 16 R250) -/

/-- The reduce packets of a command's applications to elements `is`, `n` to an element: one for each home of it. -/
def State.packets (s : State) (c : Cmd) (n k : Nat) (is : List Nat) : List Reduced :=
  is.flatMap fun i => (s.elemHomes c c.to_ .a i).map (c.packet (i * n + k))

/-- A home answers a packet from its window, or because it lies below its command's floor. -/
def State.answered (s : State) (r : Reduced) : Bool :=
  s.fab.reduced.contains r
    || s.fab.floors.any fun f =>
      f.home == r.home && f.path == r.path && f.engine == r.engine && f.cmd == r.cmd && decide (r.seq < f.seq)

/-- A home remembers the 64 most recent packets that it has applied of one engine. -/
def noteReduced (rs : List Reduced) (r : Reduced) : List Reduced :=
  let mine := rs.filter fun e => e.home == r.home && e.path == r.path && e.engine == r.engine
  if mine.length < 64 then rs ++ [r]
  else
    match mine with
    | e :: _ => rs.erase e ++ [r]
    | [] => rs ++ [r]

/-- The floor of a packet's command at its home raised. -/
def raiseFloor (fs : List Reduced) (r : Reduced) (floor : Nat) : List Reduced :=
  (fs.filter fun f => !(f.home == r.home && f.path == r.path && f.engine == r.engine && f.cmd == r.cmd))
    ++ [{ r with seq := floor }]

/-- Packets applied: every home keeps its own, with the number below which all are applied. -/
def State.noteApplied (s : State) (rs : List Reduced) (floor : Nat) : State :=
  { s with fab := { s.fab with
      reduced := rs.foldl noteReduced s.fab.reduced
      floors := rs.foldl (fun fs r => raiseFloor fs r floor) s.fab.floors } }

/-- The elements of a landing whose packets no home has applied yet. -/
def State.unapplied (s : State) (c : Cmd) (is : List Nat) : List Nat :=
  is.filter fun i => (s.packets c 1 0 [i]).any fun r => !s.answered r

/-- The application of a landing of `cpyr`. -/
def State.applyReduce (s : State) (c : Cmd) (is : List Nat) : EngRes Unit :=
  let js := s.unapplied c is
  match (if js.isEmpty then .ok s [] else s.landNow c js : EngRes (List Byte)) with
  | .ok s' _ => .ok ((s'.noteApplied (s.packets c 1 0 js) (c.landed is).front).advance c is) ()
  | .fault st a => .fault st a
  | .blocked => .blocked
  | .stop f => .stop f

def execReduceApply (cmd : Nat) (s : State) : Host.Outcome State Fault Refusal :=
  match s.cmd cmd with
  | none => .next s
  | some c =>
    if c.kind ≠ .cpyr ∨ !c.moving then .next s
    else
      match s.applyReduce c (c.landing c.front) with
      | .ok s' _ => .next s'
      | .stop f => .fault f
      | _ => .next s

/-! ## Tiles (R227, R228) -/

/-- The barrier that the streamer waits on before a tile shows the phase it waits for (R197). -/
def State.tileReady (s : State) (c : Cmd) : Bool :=
  if c.kind = .sub then (s.lb c.issuer (ringEmpty c.ringBody + c.slotNo)).ph == (c.lap % 2 == 1)
  else (s.lb c.issuer (ringFull c.ringBody + c.slotNo)).ph == ((c.lap + 1) % 2 == 1)

/-- The streamer starts its next tile; its elements land, and it arrives, under ENGINE_WRITE_LAND. -/
def execStreamerTile (cmd : Nat) (s : State) : Host.Outcome State Fault Refusal :=
  match s.cmd cmd with
  | none => .next s
  | some c =>
    if (c.kind = .sub ∨ c.kind = .drain) ∧ c.phase = .accepted ∧ !c.tileOpen ∧ s.tileReady c then
      .next (s.modCmd c.id fun d => { d with tileOpen := true })
    else .next s

/-! ## Follow-on instructions (R225, 12 R189) -/

/-- The follow-on instruction's body with the block's values for its A and B registers, and its guard and format. -/
def followBody (va vb : Word) : Instr → Guard × M Next
  | .mma g f d => (g, mmaBody f d false)
  | .mmaz g f d => (g, mmaBody f d true)
  | .mlda g f cm _ _ c => (g, do mldaBody f cm va vb (← readS c))
  | .mldb g f cm _ _ c => (g, do mldbBody f cm va vb (← readS c))
  | .mldacc g x cm d _ _ => (g, mldaccBody x cm d va vb)
  | .mstacc g x cm d _ _ e f => (g, mstaccBody x cm d va vb e f)
  | .mclr g d => (g, mclrBody d)
  | .mmask g mm nm km => (g, mmaskBody mm nm km)
  | _ => (⟨false, 0⟩, pure .fall)

/-- The XS as the follow-on instruction finds it: nothing of the XS's own instruction is in progress for it. -/
def Seq.scratch (c : Seq) : Seq :=
  { c with kept := [], used := 0, out := none, wait := none, latch := none, level := .user }

/-- What the array makes of a follow-on instruction. -/
inductive Followed
  | done (s : State) (stat : Nat)
  | blocked
  | stop (f : Fault)

/-- The STAT of a trap of a follow-on instruction (R225). -/
def Cause.followStat : Cause → Nat
  | .windowBounds => 6
  | .format => 4
  | .memoryConflict => 5
  | .misalignedData => 0x0E
  | _ => 1

/-- The follow-on instruction performed, at a point between two matrix instructions of the XS. DESIGN CHOICE (log 102): its
flags join FPSTAT, as those of any matrix instruction do (05 R77). -/
def State.follow (s : State) (c : Cmd) (i : Instr) : Followed :=
  let p := c.issuer
  if !(s.core p).running || (s.strand p).act.sid != c.sid then .done s 8
  else if !meets (s.core p).feat 4 then .done s 1
  else if (s.strand p).xs.inArray then .blocked
  else
    let xs := (s.strand p).xs
    let s0 := ({ s with cur := (p, .xs), slowTurn := false } : State).modSeqAt p .xs Seq.scratch
    let (g, body) := followBody (BitVec.ofNat 64 (c.word 88 8)) (BitVec.ofNat 64 (c.word 96 8)) i
    if !(xs.passes g) then .done s 0
    else
      match body s0 with
      | .ok (_, s') => .done (({ s' with cur := s.cur, slowTurn := s.slowTurn } : State).modSeqAt p .xs fun _ => xs) 0
      | .error (.trap cs _ _) => .done s cs.followStat
      | .error (.fault f) => .stop f
      | .error _ => .blocked

def execCpymFollowOn (cmd : Nat) (s : State) : Host.Outcome State Fault Refusal :=
  match s.cmd cmd with
  | none => .next s
  | some c =>
    if !c.matPending || c.phase != .accepted then .next s
    else
      match c.followWord with
      | none => .next s
      | some i =>
        match s.follow c i with
        | .blocked => .next s
        | .stop f => .fault f
        | .done s' stat => .next (s'.modCmd c.id fun d => { d with matPending := false, phase := .landed stat })

/-! ## Collectives (R230) -/

/-- The matching command of a participant, once its engine has taken it. -/
def State.collMate (s : State) (c : Cmd) (q : Place) : Option Cmd :=
  s.cmds.find? fun d =>
    d.kind == .coll && d.issuer == q && d.collMsh == c.collMsh && d.seqNo == c.seqNo
      && (match d.phase with | .sent | .hinted _ => false | _ => true)

/-- Two commands of one collective agree. -/
def State.collAgree (s : State) (c d : Cmd) : Bool :=
  c.collKind == d.collKind && c.collRop == d.collRop && c.collRing == d.collRing && c.src.count == d.src.count
    && (s.msh c.issuer c.collMsh).block == (s.msh d.issuer d.collMsh).block

/-- A command that has completed without its destination written. DEDUCED (log 108): to the others it is a mismatch. -/
def Cmd.failed (c : Cmd) : Bool :=
  (match c.phase with | .landed _ | .done => true | _ => false) && decide (c.front < c.total)

/-- A command has read its whole source. -/
def Cmd.readAll (c : Cmd) : Bool := decide (c.src.count ≤ c.got.length)

/-- The value of a source element that a command has read. -/
def Cmd.gotValue (c : Cmd) (i : Nat) : FVal :=
  match c.got.find? (·.1 == i) with
  | some e =>
    match c.src.value (c.src.index i).toNat e.2 with
    | .ok v => v
    | .error _ => FVal.zero
  | none => FVal.zero

/-- A rank put into a list in the order that the implementation takes the addends in. -/
def insertBy (key : Nat → Nat) (x : Nat) : List Nat → List Nat
  | [] => [x]
  | y :: ys => if key x ≤ key y then x :: y :: ys else y :: insertBy key x ys

/-- The ranks in the order in which their addends reach element `i` of a command's destination (05 R81). -/
def Cmd.addends (c : Cmd) (np i : Nat) : List Nat :=
  (List.range np).foldr (insertBy fun q => Config.addendOrder (c.id + i) q) []

/-- The source element whose value is the `k`-th addend of destination element `i` at rank `r`: the rank that holds it and
its number. -/
def Cmd.addendAt (c : Cmd) (np r k i : Nat) : Nat × Nat :=
  let n := c.src.count
  match c.collKind with
  | 0 => ((c.addends np i).getD k 0, i)
  | 1 => ((c.addends np i).getD k 0, r * (n / np) + i)
  | _ => (i / n, i % n)

/-- The addends that a destination element takes. -/
def Cmd.addendCount (c : Cmd) (np : Nat) : Nat := if c.collKind = 2 then 1 else np

/-- The `k`-th addend of a landing of a collective: the first is written, and each later one is applied to what stands
there, rounding once. -/
def State.takeAddend (s : State) (c : Cmd) (ds : List Cmd) (is : List Nat) (k : Nat) : EngRes Unit :=
  let np := ds.length
  let r := ds.findIdx fun d => d.id == c.id
  let q := c.dst
  let vs := is.map fun i =>
    let a := c.addendAt np r k i
    (i, ((ds[a.1]?).map fun d => d.gotValue a.2).getD FVal.zero)
  let last := decide (c.addendCount np ≤ k + 1)
  let res : EngRes (List Byte) :=
    if k = 0 then
      s.land c is (q.landBytes (q.scaleOf (vs.map (·.2))) (q.indexed vs) (s.peek c (q.landSpans ((q.indexed vs).map (·.1))))) last
    else s.reduceElems c c.collRop vs last
  match res with
  | .ok s' _ => .ok (if c.writeKind = .a then s'.noteApplied (s.packets c np k is) (c.front * np) else s') ()
  | .fault st a => .fault st a
  | .blocked => .blocked
  | .stop f => .stop f

/-- The next addend of the landing at a participant's frontier; the last completes the landing. -/
def State.collApply (s : State) (c : Cmd) (ds : List Cmd) : EngRes Unit :=
  let is := c.landing c.front
  match s.takeAddend c ds is c.addend with
  | .ok s' _ =>
    .ok (if c.addendCount ds.length ≤ c.addend + 1 then s'.advance c is
      else s'.modCmd c.id fun d => { d with addend := d.addend + 1 }) ()
  | e => e

/-- The addends of a landing from the `k`-th on, `n` of them. -/
def State.takeAddends (c : Cmd) (ds : List Cmd) (is : List Nat) : Nat → Nat → State → EngRes Unit
  | 0, _, s => .ok s ()
  | n + 1, k, s =>
    match s.takeAddend c ds is k with
    | .ok s' _ => State.takeAddends c ds is n (k + 1) s'
    | e => e

/-- The participants' commands once all have issued theirs and agree (R230). -/
def State.collMates (s : State) (c : Cmd) : Option (List Cmd) :=
  let group := s.collGroup c
  let ds := group.filterMap (s.collMate c)
  if (ds.any fun d => d.failed || !s.collAgree c d) || ds.length < group.length then none else some ds

/-- Elements of a participant's destination that land ahead of its frontier, with all their addends: accesses to different
homes are not ordered (16 R235). -/
def State.collAhead (s : State) (c : Cmd) (is : List Nat) : EngRes Unit :=
  match s.collMates c with
  | some ds =>
    if !ds.all Cmd.readAll || (decide (c.addend ≠ 0) && is.contains c.front) then .blocked
    else
      match s.takeAddends c ds is (c.addendCount ds.length) 0 with
      | .ok s' _ => .ok (s'.advance c is) ()
      | e => e
  | none => .blocked

/-- What a participant does next: a mismatch or a failed participant completes every command of the collective with STAT
0x01; otherwise, when all have issued it, the participant reads its source, element by element, and, when all have read
theirs, takes the next addend. -/
def State.collStep (s : State) (c : Cmd) : EngRes Unit :=
  let group := s.collGroup c
  let ds := group.filterMap (s.collMate c)
  if ds.any fun d => d.failed || !s.collAgree c d then
    .ok (ds.foldl (fun s d =>
      s.modCmd d.id fun d => if d.phase = .accepted then { d with phase := .landed 1 } else d) s) ()
  else if ds.length < group.length then .blocked
  else
    match c.unread with
    | i :: _ =>
      match s.readElem c i with
      | .ok s' bs =>
        match c.values [(i, bs)] with
        | .ok _ => .ok (s'.modCmd c.id fun d => { d with got := d.got ++ [(i, bs)] }) ()
        | .error (st, a) => .fault st a
      | .fault st a => .fault st a
      | .blocked => .blocked
      | .stop f => .stop f
    | [] => if ds.all Cmd.readAll then s.collApply c ds else .blocked

def execCollCombine (cmd : Nat) (s : State) : Host.Outcome State Fault Refusal :=
  match s.cmd cmd with
  | none => .next s
  | some c =>
    if c.kind ≠ .coll ∨ !c.moving then .next s
    else
      match s.collStep c with
      | .ok s' _ => .next s'
      | .stop f => .fault f
      | _ => .next s

/-! ## Completion (R219) -/

/-- The STAT byte of a command's block. -/
def Cmd.statAddr (c : Cmd) : Nat := c.eng.pblk.toNat * 16 + 14

/-- The write of STAT meets an open record of another party (16 R238). -/
def State.statConflict (s : State) (c : Cmd) : Bool :=
  s.conflictsAt (.cp c.issuer 0) (.cmd c.id) .w (Key.cp c.issuer c.statAddr)

/-- An `unsub` completes after the command that it stops (R228). -/
def State.unsubDue (s : State) (c : Cmd) : Bool :=
  c.kind == .unsub && c.phase == .accepted
    && (match s.cmd c.seqNo with | some d => d.phase == .done | none => true)

/-- A refinement command's STAT is written: its run is over, and the `rlcabort`s that waited on it are answered (18
R277). -/
def State.rlcDone (s : State) (c : Cmd) (stat : Nat) : State :=
  let clu := c.issuer / 8
  let r := (s.clus clu).rlc
  let mine := (r.run.map (·.cmd)) == some c.id
  let r' := { r with
    queue := r.queue.filter (· != c.id), run := if mine then none else r.run
    abortBy := if mine then [] else r.abortBy }
  let s := s.modClus clu fun k => { k with rlc := r' }
  if mine then r.abortBy.foldl (fun s e => s.receive e.1 e.2 (.word (if stat = 8 then 0 else 1) true)) s else s

/-- Steps 2 to 5: STAT, the signal, the tag, the completion activation; the ring is free. -/
def State.completeCmd (s : State) (c : Cmd) (stat : Nat) : State :=
  let p := c.issuer
  let s := ((s.meterCmd c 0).setPub (.cmd c.id) PubSet.none).writeCp p c.statAddr [BitVec.ofNat 8 stat]
  let s := if c.eng.sinc = 0 then s
    else
      let o : ObjRef := ⟨.sem, p, c.eng.ssem.toNat⟩
      ((s.signal p c.eng.ssem.toNat c.eng.sinc.toNat).addPub (.obj o) c.writes).produce c.part c.sid o
  let s := if c.ntv then
      (s.inject p c.nplace .sync c.part c.sid (.trigInc c.ntag)).addPub (.packet s.fab.nextNum) c.writes
    else s
  let s := if c.chv then
      ((s.addPub (.done c.id) c.writes).nextNumber.modWork p fun w => { w with cplq := w.cplq.map fun e =>
        if e.cmd = c.id then { e with ready := true, stat := stat, tick := s.tick, order := s.fab.nextNum } else e }).produce c.part
        c.sid ⟨.handler, p, c.id⟩
    else s
  let s := if c.kind = .sub ∨ c.kind = .drain then
      s.modObjs p fun o => { o with rings := Table.set o.rings c.ring { (s.ring p c.ring) with cmd := none } }
    else s
  let s := if c.kind = .rlc then s.rlcDone c stat else s
  let s := { s with fab := { s.fab with ranges := s.fab.ranges.filter fun e => e.cmd != c.id } }
  s.modCmd c.id fun d => { d with phase := .done }

def execEngineComplete (cmd : Nat) (s : State) : Host.Outcome State Fault Refusal :=
  match s.cmd cmd with
  | none => .next s
  | some c =>
    if s.statConflict c || s.uncommitted c.id then .next s
    else if s.unsubDue c then .next (s.completeCmd c 0)
    else
      match c.phase with
      | .landed stat => .next (s.completeCmd c stat)
      | _ => .next s

end Sys2Proof.Machine
end

