-- ==== Sys2Proof/Machine/Gaussian.lean ====
section
/-! DEFINITION. The GMU instructions (18 R253 to R266), on the XS with FEAT.GMU: configuration, loads and stores of packed
images, sums, damping and residuals, the gouge, the solve, and `gsend`. -/

namespace Sys2Proof.Machine

/-! ## Block registers -/

def Gb.at_ (g : Gb) (i j : Nat) : Lane := (g.lam[i * 32 + j]?).getD 0
def Gb.h (g : Gb) (i : Nat) : Lane := (g.eta[i]?).getD 0

/-- An element of Λ and its mirror (R258). -/
def Gb.put (g : Gb) (i j : Nat) (v : Lane) : Gb :=
  let l := g.lam.toArray
  let l := (l.setIfInBounds (i * 32 + j) v).setIfInBounds (j * 32 + i) v
  { g with lam := Vector.ofFn fun k => l.getD k.val 0 }

def Gb.putH (g : Gb) (i : Nat) (v : Lane) : Gb := { g with eta := if h : i < 32 then g.eta.set i v h else g.eta }

/-- The pairs i ≤ j below n, row after row. -/
def upper (n : Nat) : List (Nat × Nat) := (List.range n).flatMap fun i => (span i (n - i)).map fun j => (i, j)

/-- The packed image of the top-left n dimensions (R253). -/
def Gb.image (g : Gb) (n : Nat) : List Lane := (List.range n).map g.h ++ (upper n).map fun e => g.at_ e.1 e.2

/-- A register with the top-left n dimensions replaced from an image. -/
def Gb.ofImage (g : Gb) (n : Nat) (ws : List Lane) : Gb :=
  let g := ((List.range n).zip ws).foldl (fun g e => g.putH e.1 e.2) g
  ((upper n).zip (ws.drop n)).foldl (fun g e => g.put e.1.1 e.1.2 e.2) g

def readGb (i : Fin 4) : M Gb := fun s => .ok (s.my.gmu.gb[i.val], s)
def writeGb (i : Fin 4) (g : Gb) : M Unit :=
  modState fun s => s.modMy fun t => { t with gmu := { t.gmu with gb := t.gmu.gb.set i.val g } }

/-- A GMU instruction: the XS, GMU. -/
def needGmu : Need := ⟨fun q => q == .xs, .user, 8⟩

def performGmu (g : Guard) (body : M Next) (s : State) : Host.Outcome State Fault Refusal := perform 8 needGmu g body s

/-! ## `gcfg` (R260) -/

/-- 1 as an exact value. -/
def fone : FVal := .fin false 1 0

def gcfgBody (d a b : Reg) : M Next := do
  let t := (← readS a).extractLsb' 0 32
  let e := (← readS b).extractLsb' 0 32
  let tv := fv32 t
  let ev := fv32 e
  trapIf (tv.isNan || tv.lt FVal.zero || !tv.lt fone) .windowBounds (t.setWidth 64)
  trapIf (ev.isNan || ev.isInf || ev.lt FVal.zero) .windowBounds (e.setWidth 64)
  let s ← getState
  let old := s.my.gmu
  setState (s.modMy fun x => { x with gmu := { x.gmu with tau := t, eps := if e = 0x80000000 then 0 else e } })
  writeS d (BitVec.ofNat 64 (old.eps.toNat * 2 ^ 32 + old.tau.toNat))
  pure .fall

def execGcfg (g : Guard) (d a b : Reg) (s : State) : Host.Outcome State Fault Refusal := performGmu g (gcfgBody d a b) s

/-! ## `gld`, `gst`, `gzero` (R261) -/

/-- The addresses of `k` words. -/
def wordAddrs (a k : Nat) : List Nat := (List.range k).map fun i => a + 4 * i

/-- The words of an image. -/
def imageWords (n : Nat) : Nat := imageSize n / 4

/-- Words of an answer. -/
def lanesOf (k : Nat) (bs : List Byte) : List Lane := (chunks 4 k bs).map fun c => BitVec.ofNat 32 (leOf c)

/-- An image read at an address, as one request. -/
def readImage (cm : Bool) (a n : Nat) : M (List Lane) := do
  let as := wordAddrs a (imageWords n)
  checkElems cm as 4
  let bs ← readLocal cm (elemSpans as 4)
  pure (lanesOf (imageWords n) bs)

def gldBody (d : Fin 4) (a : Reg) (n : Nat) (cm : Bool) : M Next := do
  let w ← readS a
  let ws ← readImage cm w.toNat n
  writeGb d ((← readGb d).ofImage n ws)
  pure .fall

def execGld (g : Guard) (d : Fin 4) (a : Reg) (nm1 : Fin 32) (cm : Bool) (s : State) :
    Host.Outcome State Fault Refusal := performGmu g (gldBody d a (nm1.val + 1) cm) s

/-- The image of a Gaussian slot, whose dimension is read first. -/
def gldHdrBody (d : Fin 4) (a : Reg) (cm : Bool) : M Next := do
  let w ← readS a
  trapIf (w.toNat % 64 != 0) .misalignedData w
  checkElems cm (wordAddrs w.toNat 8) 4
  let b ← readLocal cm [w.toNat + 10]
  let n := leOf b
  trapIf (n == 0 || decide (14 < n)) .windowBounds w
  let ws ← readImage cm (w.toNat + 32) n
  writeGb d ((← readGb d).ofImage n ws)
  pure .fall

def execGldHdr (g : Guard) (d : Fin 4) (a : Reg) (cm : Bool) (s : State) : Host.Outcome State Fault Refusal :=
  performGmu g (gldHdrBody d a cm) s

def gstBody (a : Reg) (b : Fin 4) (n : Nat) (cm : Bool) : M Next := do
  let w ← readS a
  let as := wordAddrs w.toNat (imageWords n)
  checkElems cm as 4
  let g ← readGb b
  writeLocal cm (elemSpans as 4) ((g.image n).flatMap fun w => leBytesOf 4 w.toNat)
  pure .fall

def execGst (g : Guard) (a : Reg) (b : Fin 4) (nm1 : Fin 32) (cm : Bool) (s : State) :
    Host.Outcome State Fault Refusal := performGmu g (gstBody a b (nm1.val + 1) cm) s

def execGzero (g : Guard) (d : Fin 4) (s : State) : Host.Outcome State Fault Refusal :=
  performGmu g (do writeGb d Gb.reset; pure .fall) s

/-! ## `gaddp`, `gdamp`, `gres` (R262) -/

/-- A register and the flags raised so far. -/
structure Acc where
  gb : Gb
  flags : Flags
deriving DecidableEq, Repr

def Acc.put (r : Acc) (i j : Nat) (v : Nat × Flags) : Acc := ⟨r.gb.put i j (BitVec.ofNat 32 v.1), r.flags ||| v.2⟩
def Acc.putH (r : Acc) (i : Nat) (v : Nat × Flags) : Acc := ⟨r.gb.putH i (BitVec.ofNat 32 v.1), r.flags ||| v.2⟩

/-- Each element i ≤ j < n and each η[i], moved by `off`, becomes `f` of itself and the other register's element. -/
def Gb.combine (dst src : Gb) (n off : Nat) (f : Lane → Lane → Nat × Flags) : Acc :=
  let r := (upper n).foldl (fun (r : Acc) e =>
    r.put (off + e.1) (off + e.2) (f (dst.at_ (off + e.1) (off + e.2)) (src.at_ e.1 e.2))) ⟨dst, 0⟩
  (List.range n).foldl (fun r i => r.putH (off + i) (f (dst.h (off + i)) (src.h i))) r

def execGaddp (g : Guard) (d a : Fin 4) (nm1 off : Fin 32) (s : State) : Host.Outcome State Fault Refusal :=
  performGmu g (do
    let x ← readGb d
    let y ← readGb a
    let r := x.combine y (nm1.val + 1) off.val fun u v => fAdd .f32 0 u.toNat v.toNat
    writeGb d r.gb
    raise r.flags
    pure .fall) s

/-- RNE32(β × old + (1 − β) × new), with β in 256ths. -/
def damp (beta : Nat) (new old : Lane) : Nat × Flags :=
  let u := fv32 new
  let v := fv32 old
  arith .f32 0 [u, v] ⟨(v.mul (.fin false beta (-8))).add 0 (u.mul (.fin false (256 - beta) (-8))), false⟩

def execGdamp (g : Guard) (d a : Fin 4) (nm1 : Fin 32) (mb : Fin 64) (s : State) : Host.Outcome State Fault Refusal :=
  performGmu g (do
    let s ← getState
    let beta := (s.mbx s.cur.1 mb.val).beta
    if beta != 0 then
      let r := (← readGb d).combine (← readGb a) (nm1.val + 1) 0 (damp beta)
      writeGb d r.gb
      raise r.flags
    pure .fall) s

/-- The largest of some magnitudes. -/
def maxMag (vs : List FVal) : FVal := vs.foldl (fun m v => if v.abs.gt m then v.abs else m) FVal.zero

/-- The residual of two messages. -/
def Gb.residual (x y : Gb) (n : Nat) : Nat × Flags :=
  let diff (u v : Lane) : FVal := (fv32 u).add 0 (fv32 v).negate
  let pairs := (List.range n).map (fun i => (x.h i, y.h i))
  let pairsL := (upper n).map fun e => (x.at_ e.1 e.2, y.at_ e.1 e.2)
  let all := pairs ++ pairsL
  let dh := pairs.map fun e => diff e.1 e.2
  let dl := pairsL.map fun e => diff e.1 e.2
  let quiet (w : Lane) : Bool := (fv32 w).isNan
  let nv := all.any fun e =>
    (fv32 e.1).isSNan || (fv32 e.2).isSNan || (!quiet e.1 && !quiet e.2 && (diff e.1 e.2).isNan)
  if (dh ++ dl).any FVal.isNan then (canonNan .f32, if nv then Flag.nv else 0)
  else
    let r := rne32 ((maxMag dh).add 0 (maxMag dl))
    (r.1.toNat, r.2)

def execGres (g : Guard) (d : Reg) (a b : Fin 4) (nm1 : Fin 32) (s : State) : Host.Outcome State Fault Refusal :=
  performGmu g (do
    let r := (← readGb a).residual (← readGb b) (nm1.val + 1)
    writeS d (BitVec.ofNat 64 r.1)
    raise r.2
    pure .fall) s

/-! ## The gouge (R263, R264) -/

/-- A factored register: what is left of M and h with its flags, and for each pivot in order its value and its column
of l. -/
structure Gouge where
  acc : Acc
  cols : List (Nat × Lane × List (Nat × Lane))
deriving DecidableEq, Repr

/-- RNE32(c − l × m), fused. -/
def mulSub (c l m : Lane) : Nat × Flags :=
  let u := fv32 l
  let v := fv32 m
  let w := fv32 c
  arith .f32 0 [u, v, w] ⟨(u.negate.mul v).add 0 w, false⟩

/-- The largest magnitude of the pivots' diagonal, NaN if any is. -/
def Gb.dmax (g : Gb) (ev : List Nat) : FVal :=
  let ds := ev.map fun p => fv32 (g.at_ p p)
  if ds.any FVal.isNan then .nan false else maxMag ds

/-- One pivot, with the indices that remain after it; the failing pivot where it is not above τ × dmax. -/
def Gouge.step (tau : Lane) (dmax : FVal) (rm : List Nat) (p : Nat) (r : Gouge) : Except (Lane × Nat) Gouge :=
  let g := r.acc.gb
  let piv := g.at_ p p
  if !((fv32 piv).gt ((fv32 tau).mul dmax)) then .error (piv, p)
  else
    let ls := rm.map fun q =>
      let v := fDiv .f32 0 (g.at_ q p).toNat piv.toNat
      (q, BitVec.ofNat 32 v.1, v.2)
    let acc : Acc := ⟨g, ls.foldl (fun f l => f ||| l.2.2) r.acc.flags⟩
    let acc := ls.foldl (fun (acc : Acc) l =>
      (rm.filter fun q => decide (l.1 ≤ q)).foldl (fun (acc : Acc) q =>
        acc.put l.1 q (mulSub (g.at_ l.1 q) l.2.1 (g.at_ p q))) acc) acc
    let acc := ls.foldl (fun (acc : Acc) l => acc.putH l.1 (mulSub (g.h l.1) l.2.1 (g.h p))) acc
    .ok ⟨acc, r.cols ++ [(p, piv, ls.map fun l => (l.1, l.2.1))]⟩

/-- The pivots in order; `rm` are the indices not yet eliminated. -/
def Gouge.run (tau : Lane) (dmax : FVal) : List Nat → List Nat → Gouge → Except (Lane × Nat) Gouge
  | [], _, r => .ok r
  | p :: ps, rm, r => do
    let r' ← r.step tau dmax (rm.erase p) p
    Gouge.run tau dmax ps (rm.erase p) r'

/-- The elimination of the indices `ev` among the first n of a register. -/
def Gmu.gouge (u : Gmu) (g : Gb) (n : Nat) (ev : List Nat) : Except (Lane × Nat) Gouge :=
  let acc := ev.foldl (fun (r : Acc) p => r.put p p (fAdd .f32 0 (r.gb.at_ p p).toNat u.eps.toNat)) ⟨g, 0⟩
  Gouge.run u.tau (acc.gb.dmax ev) ev (List.range n) ⟨acc, []⟩

/-- TVAL of SINGULAR-BLOCK. -/
def singular (e : Lane × Nat) : Word := BitVec.ofNat 64 (e.1.toNat * 2 ^ 32 + e.2)

def gougeOrTrap (g : Gb) (n : Nat) (ev : List Nat) : M Gouge := fun s =>
  match s.my.gmu.gouge g n ev with
  | .ok r => .ok (r, s)
  | .error e => trap .singularBlock (singular e) s

/-- The kept range moved to offset 0 of a cleared register. -/
def Gb.kept (g : Gb) (off keep : Nat) : Gb :=
  let r := (upper keep).foldl (fun (r : Gb) e => r.put e.1 e.2 (g.at_ (off + e.1) (off + e.2))) Gb.reset
  (List.range keep).foldl (fun r i => r.putH i (g.h (off + i))) r

def execGschur (g : Guard) (d a : Fin 4) (nm1 off : Fin 32) (km1 : Fin 8) (s : State) :
    Host.Outcome State Fault Refusal :=
  performGmu g (do
    let n := nm1.val + 1
    let keep := km1.val + 1
    let ev := (List.range n).filter fun p => decide (p < off.val) || decide (off.val + keep ≤ p)
    let r ← gougeOrTrap (← readGb a) n ev
    writeGb d (r.acc.gb.kept off.val keep)
    raise r.acc.flags
    pure .fall) s

/-! ## `gsolve` (R265) -/

/-- l[q][p]. -/
def Gouge.l (r : Gouge) (q p : Nat) : Lane :=
  (((r.cols.find? fun c => c.1 == p).bind fun c => c.2.2.find? fun e => e.1 == q).map (·.2)).getD 0

/-- Back substitution: the pivots from last to first, with the means found so far. -/
def Gouge.back (r : Gouge) : List (Nat × Lane) → List (Nat × Lane) × Flags → List (Nat × Lane) × Flags
  | [], m => m
  | (p, z) :: rest, m =>
    let x := m.1.reverse.foldl (fun (x : Lane × Flags) e =>
      let v := mulSub x.1 (r.l e.1 p) e.2
      (BitVec.ofNat 32 v.1, x.2 ||| v.2)) (z, m.2)
    r.back rest ((p, x.1) :: m.1, x.2)

/-- The means with all flags. -/
def Gouge.means (r : Gouge) : List (Nat × Lane) × Flags :=
  let zs := r.cols.map fun c =>
    let v := fDiv .f32 0 (r.acc.gb.h c.1).toNat c.2.1.toNat
    (c.1, BitVec.ofNat 32 v.1, v.2)
  r.back (zs.reverse.map fun z => (z.1, z.2.1)) ([], zs.foldl (fun f z => f ||| z.2.2) r.acc.flags)

def execGsolve (g : Guard) (d a : Fin 4) (nm1 : Fin 32) (s : State) : Host.Outcome State Fault Refusal :=
  performGmu g (do
    let x ← readGb a
    let r ← gougeOrTrap x (nm1.val + 1) (List.range (nm1.val + 1))
    let m := r.means
    writeGb d (m.1.foldl (fun g e => g.putH e.1 e.2) x)
    raise m.2
    pure .fall) s

/-! ## `gsend` (R266) -/

def gsendBody (d a : Reg) (b : Fin 4) (c : Reg) (once : Bool) (mb n : Nat) : M Next := do
  let w ← readS a
  let rv ← readS c
  let to_ ← placeOnce w false false
  sendFirst false 0
  let s ← getState
  let g ← readGb b
  let body : Body :=
    .gauss mb (rv.extractLsb' 0 32) (rv.extractLsb' 32 32) n (g.image n) false (some s.cur.2)
  let stat ← sendLoop (to_.place w.toNat) .bulk (pure body) once
  writeStatus d stat
  pure .fall

def execGsend (g : Guard) (d a : Reg) (b : Fin 4) (c : Reg) (once : Bool) (mb : Fin 64) (nm1 : Fin 32) (s : State) :
    Host.Outcome State Fault Refusal :=
  performGmu g (gsendBody d a b c once mb.val (nm1.val + 1)) s

end Sys2Proof.Machine
end

