-- ==== Sys2Proof/Machine/Refine.lean ====
section
/-! DEFINITION. The refinement loop controller: its instructions, the ladder's factors and solves, and the steps of a
run (18 R267 to R278). -/

namespace Sys2Proof.Machine

/-! ## Issue, status, abort (R268, R275 to R277) -/

/-- FEAT.RLC on either sequencer. -/
def needRlc : Need := ⟨fun _ => true, .user, 16⟩

/-- A pending trap mark of the core raises REFINEMENT in place of the instruction; its delivery clears the mark. -/
def raiseMark : M Unit := fun s =>
  if s.seq.begun then .ok ((), s)
  else
    match s.me.rlcTrap with
    | some v => .error (.own ((s.modMe fun c => { c with rlcTrap := none }).takeTrap .refinement (some v) .none))
    | none => .ok ((), s)

/-- RP = 1 asks for FEAT.FP64. -/
def checkRp (blk : List Byte) : M Unit := fun s =>
  if bitAt (leOf blk) (128 + 167) && !meets s.me.feat 1 then
    .error (.own ((s.lacking 1).takeTrap .featureAbsent none .none))
  else .ok ((), s)

def execRlcrun (g : Guard) (e : Eng) (s : State) : Host.Outcome State Fault Refusal :=
  perform 16 needRlc g (do
    raiseMark
    issueBody ⟨.rlc, .ownCluster, 80, none⟩ e checkRp) s

/-- The command of the run in progress, until it has exited. -/
def State.rlcRunning (s : State) (clu : Nat) : Option (RlcRun × Cmd) :=
  match (s.clus clu).rlc.run with
  | some r =>
    match s.cmd r.cmd with
    | some c => if c.phase = .accepted then some (r, c) else none
    | none => none
  | none => none

/-- The status word of a cluster's RLC, as a core of the cluster reads it (R276). -/
def State.rlcWord (s : State) (p : Place) : Word :=
  let clu := p / 8
  let r := (s.clus clu).rlc
  let queued := (r.queue.filter fun n => ((s.cmd n).map fun c => c.phase == .accepted).getD false).length
  let other := (List.range 8).any fun k => clu * 8 + k != p && (s.core (clu * 8 + k)).rlcTrap.isSome
  let st : Nat :=
    match s.rlcRunning clu with
    | some (x, _) => if x.factoring then 1 else 2
    | none => 0
  BitVec.ofNat 64 (r.rnorm.toNat * 2 ^ 32 + min r.iter 65535 * 2 ^ 16 + r.rung * 2 ^ 12 + r.exit * 2 ^ 8
    + queued * 2 ^ 5 + b2n other * 2 ^ 4 + st)

def execRlcstat (g : Guard) (d : Reg) (s : State) : Host.Outcome State Fault Refusal :=
  perform 8 needRlc g (do
    raiseMark
    let s ← getState
    writeS d (s.rlcWord s.cur.1)
    pure .fall) s

/-- `rlcabort` asks the run in progress to stop, and is answered when its STAT is written. -/
def rlcabortBody (d : Reg) : M Next := do
  let s ← getState
  if s.seq.begun || (s.rlcRunning (s.cur.1 / 8)).isSome then
    let ans ← ask fun s n =>
      s.modClus (s.cur.1 / 8) fun k => { k with rlc := { k.rlc with abortBy := k.rlc.abortBy ++ [(s.cur.1, n)] } }
    writeS d (BitVec.ofNat 64 ans.num)
  else writeS d 1
  pure .fall

def execRlcabort (g : Guard) (d : Reg) (s : State) : Host.Outcome State Fault Refusal :=
  perform 8 needRlc g (rlcabortBody d) s

/-! ## Matrices of FP32 words -/

/-- Element (i, j) of an n × n matrix. -/
def mat (m : List Lane) (n i j : Nat) : Lane := m.getD (i * n + j) 0
/-- Element (i, j) of a symmetric matrix, read from its lower triangle (R270). -/
def sym (m : List Lane) (n i j : Nat) : Lane := if j ≤ i then mat m n i j else mat m n j i

/-- The words of a lower triangle's tile (ti, tj), row by row; above the diagonal its mirror. -/
def tileOf (m : List Lane) (n ti tj : Nat) : List Lane :=
  (List.range 1024).map fun k => sym m n (32 * ti + k / 32) (32 * tj + k % 32)

def rnd32 (v : FVal) : Lane := BitVec.ofNat 32 (roundF .f32 0 ⟨v, false⟩).1
def roundBf16 (w : Lane) : FVal := decodeF .bf16 (roundF .bf16 0 ⟨fv32 w, false⟩).1

/-- The exponent of a tile's automatic scale, 255 where it holds a NaN (05 R74). -/
def tileScale (ws : List Lane) : Nat :=
  let vs := ws.map fv32
  if vs.any FVal.isNan then 255 else autoScale 127 (amaxOf vs)

/-- A value rounded to INT8 under a scale. -/
def int8Under (e : Nat) (w : Lane) : FVal :=
  scaledVal e 0 (FVal.ofInt (toIntRange 0 (-128) 127 (unscaled e 0 (fv32 w))).1)

/-- A tile's elements as the operands of a trailing update: one part, or the three of the split (05 R80). -/
def updateParts (rung : Nat) (ws : List Lane) : List (List FVal) :=
  match rung with
  | 0 => [ws.map (int8Under (tileScale ws))]
  | 1 => [ws.map roundBf16]
  | _ =>
    let sp := ws.map fun w => (splitLane w).1
    [sp.map fun p => decodeF .bf16 p.1, sp.map fun p => decodeF .bf16 p.2.1, sp.map fun p => decodeF .bf16 p.2.2]

/-- The matrix that a rung works on (R271). -/
def rungMatrix (rung n : Nat) (a : List Lane) : List Lane :=
  let nb := n / 32
  match rung with
  | 0 =>
    let es := (List.range (nb * nb)).map fun k => if k % nb ≤ k / nb then tileScale (tileOf a n (k / nb) (k % nb)) else 0
    (List.range (n * n)).map fun k =>
      let i := k / n
      let j := k % n
      if j ≤ i then rnd32 (int8Under (es.getD (i / 32 * nb + j / 32) 0) (mat a n i j)) else 0
  | 1 => (List.range (n * n)).map fun k => if k % n ≤ k / n then rnd32 (roundBf16 (mat a n (k / n) (k % n))) else 0
  | _ => a

/-! ## The factor (R271) -/

/-- The order in which the terms of a sum are taken, which R271 leaves open. -/
def termOrder (key : Nat) (ts : List Nat) : List Nat := ts.foldr (insertBy (Config.tileOrder key)) []

/-- The terms of a sum over the tiles: tile by tile, in the open order within each. -/
def tiledOrder (key : Nat) (tiles ts : List Nat) : List Nat :=
  tiles.flatMap fun k => termOrder key (ts.filter fun t => t / 32 == k)

def fms (c l m : Lane) : Lane := BitVec.ofNat 32 (mulSub c l m).1
def fdiv32 (a b : Lane) : Lane := BitVec.ofNat 32 (fDiv .f32 0 a.toNat b.toNat).1
def fsqrt32 (a : Lane) : Lane := BitVec.ofNat 32 (fSqrt .f32 0 a.toNat).1

/-- A number that tells the sums of a module's runs apart. -/
def sumKey (cmd iter rung i j : Nat) : Nat := (((cmd * 65536 + iter) * 4 + rung) * 512 + i) * 512 + j

/-- Element (i, j) less the products of rows i and j over the columns of their tile before j. -/
def lessProducts (key : Nat → Nat → Nat) (n lo i j : Nat) (m : List Lane) : Lane :=
  (termOrder (key i j) (span lo (j - lo))).foldl (fun s t => fms s (mat m n i t) (mat m n j t)) (mat m n i j)

/-- A pivot is finite and above +0. -/
def goodPivot (w : Lane) : Bool := (fv32 w).isFinite && (fv32 w).gt FVal.zero

/-- The diagonal tile's columns from j on, none where a pivot fails. -/
def diagTile (key : Nat → Nat → Nat) (n lo : Nat) : List Nat → List Lane → Option (List Lane)
  | [], m => some m
  | j :: js, m =>
    let s := lessProducts key n lo j j m
    if !goodPivot s then none
    else
      let d := fsqrt32 s
      let m := m.set (j * n + j) d
      let m := ((span lo 32).filter fun i => decide (j < i)).foldl (fun m i =>
        m.set (i * n + j) (fdiv32 (lessProducts key n lo i j m) d)) m
      diagTile key n lo js m

/-- The triangular solve of the rows below the diagonal tile. -/
def panel (key : Nat → Nat → Nat) (n lo : Nat) (m : List Lane) : List Lane :=
  (span (lo + 32) (n - lo - 32)).foldl (fun m i =>
    (span lo 32).foldl (fun m j => m.set (i * n + j) (fdiv32 (lessProducts key n lo i j m) (mat m n j j))) m) m

/-- The products of two rows of tile parts. -/
def dotTerms (a b : List FVal) (r c : Nat) : List FVal :=
  (List.range 32).map fun t => (a.getD (r * 32 + t) FVal.zero).mul (b.getD (c * 32 + t) FVal.zero)

/-- One element of a trailing tile after the update. -/
def updateElem (pa pb : List (List FVal)) (r c : Nat) (t : Lane) : Lane :=
  let part (ps : List (List FVal)) (i : Nat) : List FVal := ps.getD i []
  if pa.length = 1 then
    (rne32 (sumExact (fv32 t) ((dotTerms (part pa 0) (part pb 0) r c).map FVal.negate))).1
  else
    let acc := [(2, 0), (1, 1), (0, 2), (1, 0), (0, 1), (0, 0)].foldl (fun (acc : Lane) (e : Nat × Nat) =>
      (rne32 (sumExact (fv32 acc) (dotTerms (part pa e.1) (part pb e.2) r c))).1) 0
    rnd32 ((fv32 t).add 0 (fv32 acc).negate)

/-- A trailing tile updated by the tiles of column k. -/
def updateTile (rung n k ti tj : Nat) (m : List Lane) : List Lane :=
  let pa := updateParts rung ((List.range 1024).map fun e => mat m n (32 * ti + e / 32) (32 * k + e % 32))
  let pb := updateParts rung ((List.range 1024).map fun e => mat m n (32 * tj + e / 32) (32 * k + e % 32))
  (List.range 1024).foldl (fun m e =>
    let i := 32 * ti + e / 32
    let j := 32 * tj + e % 32
    if j ≤ i then m.set (i * n + j) (updateElem pa pb (e / 32) (e % 32) (mat m n i j)) else m) m

/-- One column of tiles of the factor; none on a factor failure. -/
def factorColumn (key : Nat → Nat → Nat) (rung n k : Nat) (m : List Lane) : Option (List Lane) :=
  (diagTile key n (32 * k) (span (32 * k) 32) m).map fun m =>
    let m := panel key n (32 * k) m
    (span (k + 1) (n / 32 - k - 1)).foldl (fun m ti =>
      (span (k + 1) (ti - k)).foldl (fun m tj => updateTile rung n k ti tj m) m) m

/-! ## Solves, residuals, norms (R271, R272) -/

/-- Forward substitution, in row order: the tiles of a row's sum in ascending order. -/
def forward (key : Nat → Nat → Nat) (n : Nat) (l r : List Lane) : List Lane :=
  (List.range n).foldl (fun (y : List Lane) i =>
    let s := (tiledOrder (key i 0) (List.range (n / 32)) (List.range i)).foldl (fun s j => fms s (mat l n i j) (y.getD j 0)) (r.getD i 0)
    y ++ [fdiv32 s (mat l n i i)]) []

/-- Back substitution, from the last row, the tiles of a row's sum in descending order, as it comes to them (log 115); `c`
holds the elements found, the lowest first. -/
def backward (key : Nat → Nat → Nat) (n : Nat) (l y : List Lane) : List Lane :=
  (List.range n).reverse.foldl (fun (c : List Lane) i =>
    let s := (tiledOrder (key i 1) (List.range (n / 32)).reverse (span (i + 1) (n - i - 1))).foldl (fun s j =>
      fms s (mat l n j i) (c.getD (j - i - 1) 0)) (y.getD i 0)
    fdiv32 s (mat l n i i) :: c) []

/-- The correction (LLᵀ)⁻¹r. -/
def correct (key : Nat → Nat → Nat) (n : Nat) (l : List Lane) (r : List FVal) : List FVal :=
  (backward key n l (forward key n l (r.map rnd32))).map fv32

/-- A value rounded to FP64 or FP32. -/
def roundX (rp : Bool) (v : FVal) : FVal :=
  let x : XT := if rp then .f64 else .f32
  decodeF x (roundF x 0 ⟨v, false⟩).1

/-- RoundR(b − A·x): each element summed exactly and rounded once. -/
def residual (rp : Bool) (n : Nat) (a : List Lane) (b x : List FVal) : List FVal :=
  (List.range n).map fun i =>
    roundX rp (sumExact (b.getD i FVal.zero) ((List.range n).map fun j =>
      ((fv32 (sym a n i j)).mul (x.getD j FVal.zero)).negate))

/-- The largest magnitude, NaN where an element is one. -/
def norm (vs : List FVal) : FVal := if vs.any FVal.isNan then .nan false else maxMag vs

/-- The test of convergence; infinities and NaNs never pass it. -/
def Refine.test (f : Refine) (nA : FVal) (b x r : List FVal) : Bool :=
  (norm r).isFinite && (norm x).isFinite
    && !((norm r).gt (f.tol.mul ((nA.mul (norm x)).add 0 (norm b))))

/-! ## A run's memory (R270, R274) -/

/-- Bytes at a CM offset of a cluster. -/
def State.cmBytes (s : State) (clu off n : Nat) : List Byte := Memory.getAll s.mem (span (Key.cm clu off) n)

/-- The elements of a vector of `n` values of `k` bytes. -/
def vecOf (rp : Bool) (n : Nat) (bs : List Byte) : List FVal :=
  (chunks (if rp then 8 else 4) n bs).map fun e => decodeF (if rp then .f64 else .f32) (leOf e)

/-- The encoding of an element of x or r. -/
def xBits (rp : Bool) (v : FVal) : Nat := (roundF (if rp then .f64 else .f32) 0 ⟨v, false⟩).1

/-- x as its region holds it. -/
def Refine.xImage (f : Refine) (x : List FVal) : List Byte := x.flatMap fun v => leBytesOf f.xBytes (xBits f.rp v)

/-- A vector of the workspace, 8 bytes an element; the manual does not say what stands beside an FP32 value. -/
def Refine.wImage (f : Refine) (free : Nat) (x : List FVal) : List Byte :=
  x.zipIdx.flatMap fun e =>
    if f.rp then leBytesOf 8 (xBits true e.1)
    else leBytesOf 4 (xBits false e.1) ++ leBytesOf 4 (Config.freeValue (free + e.2)).toNat

/-- The elements of the lower tiles of an n × n matrix, as row n plus column, in the order in which the workspace holds them:
the manual does not give the layout (R270, R271). -/
def tileCells (n : Nat) : List Nat :=
  ((List.range (n * n)).filter fun k => decide (k % n / 32 ≤ k / n / 32)).foldr (insertBy (Config.factorPlace n)) []

/-- The factor's tiles in the workspace, in FP32; what stands above the diagonal of a diagonal tile is open. -/
def Refine.tileImage (f : Refine) (free : Nat) (m : List Lane) : List Byte :=
  (tileCells f.n).flatMap fun k => leBytesOf 4
    (if k % f.n ≤ k / f.n then (mat m f.n (k / f.n) (k % f.n)).toNat else (Config.freeValue (free + k)).toNat)

/-- The result record. -/
def RlcRun.record (r : RlcRun) (code : Nat) : List Byte :=
  leBytesOf 4 (rnd32 (norm r.r)).toNat ++ leBytesOf 4 r.iter
    ++ [code, r.rung, r.used, r.flags].map (BitVec.ofNat 8) ++ List.replicate 20 0

/-! ## The machine of R272 -/

/-- What follows an event of a run. -/
inductive RlcNext
  | go (r : RlcRun)
  | exit (code : Nat) (r : RlcRun)

/-- An event of a run: its writes to CM, its free values, and what follows. -/
structure RlcMove where
  writes : List (Nat × List Byte)
  free : Nat
  next : RlcNext

/-- The next rung of the ladder above one. -/
def Refine.above (f : Refine) (rung : Nat) : Option Nat := (List.range 3).find? fun k => decide (rung < k) && bitAt f.ladder k
def Refine.lowest (f : Refine) : Nat := ((List.range 3).find? fun k => bitAt f.ladder k).getD 0

/-- Policy of an outcome: 1 STAGNATED, 2 DIVERGED, 3 LIMIT. -/
def Refine.policy (f : Refine) (out : Nat) : Nat := match out with | 1 => f.pstag | 2 => f.pdiv | _ => f.plim

/-- An exit that a policy asks for. -/
def RlcRun.leave (r : RlcRun) (out policy : Nat) : RlcNext :=
  .exit out { r with flags := r.flags + (if policy = 1 then 2 else if policy = 2 then 4 else 0) }

/-- The top of the loop, with a factor or without one. -/
def RlcRun.top (f : Refine) (r : RlcRun) : RlcNext :=
  if r.iter = f.limit then r.leave 3 f.plim else .go { r with substep := 0 }

/-- The decision on an outcome. -/
def RlcRun.decide_ (f : Refine) (r : RlcRun) (out : Nat) : RlcNext :=
  match f.policy out, f.above r.rung with
  | 1, some k => { r with rung := k, factoring := true, col := 0, stag := 0, ref := norm r.r }.top f
  | p, _ => r.leave out p

/-- A column of tiles of the factor. -/
def RlcRun.column (f : Refine) (r : RlcRun) (free : Nat) : RlcMove :=
  let key := sumKey r.cmd r.iter r.rung
  let m := if r.col = 0 then rungMatrix r.rung f.n r.a else r.tiles
  let used := if bitAt r.used r.rung then r.used else r.used + 2 ^ r.rung
  match factorColumn key r.rung f.n r.col m with
  | none =>
    ⟨[], 0, ({ r with used := used, flags := if bitAt r.flags 0 then r.flags else r.flags + 1 } : RlcRun).decide_ f 2⟩
  | some m' =>
    let last := decide (f.nb ≤ r.col + 1)
    ⟨[(f.w, f.tileImage free m')], f.n * f.n,
      .go { r with used := used, tiles := m', col := r.col + 1, factoring := !last, substep := 0 }⟩

/-- Steps 1 to 4 of an iteration. -/
def RlcRun.step (f : Refine) (r : RlcRun) (free : Nat) : RlcMove :=
  match r.substep with
  | 0 => ⟨[], 0, .go { r with c := correct (sumKey r.cmd (r.iter + 1) 3) f.n r.tiles r.r, substep := 1 }⟩
  | 1 =>
    let x1 := (r.x.zip r.c).map fun e => roundX f.rp (e.1.add 0 e.2)
    ⟨[], 0, .go { r with xp := x1, rp := residual f.rp f.n r.a r.b x1, substep := 2 }⟩
  | 2 =>
    ⟨[(f.x, f.xImage r.xp), (f.w + f.tileBytes, f.wImage free r.rp ++ f.wImage (free + f.n) r.x)], 2 * f.n,
      .go { r with x := r.xp, r := r.rp, xp := r.x, rp := r.r, iter := r.iter + 1, substep := 3 }⟩
  | _ =>
    if f.test r.nA r.b r.x r.r then ⟨[], 0, .exit 0 r⟩
    else if !(norm r.x).isFinite || !(norm r.r).isFinite || (norm r.r).gt (f.rhod.mul r.ref) then
      ⟨[(f.x, f.xImage r.xp), (f.w + f.tileBytes, f.wImage free r.rp)], f.n,
        ({ r with x := r.xp, r := r.rp } : RlcRun).decide_ f 2⟩
    else
      let stag := if (norm r.r).gt (f.rhos.mul r.ref) then r.stag + 1 else 0
      if stag = 2 then ⟨[], 0, ({ r with stag := stag } : RlcRun).decide_ f 1⟩
      else ⟨[], 0, ({ r with stag := stag, ref := norm r.r } : RlcRun).top f⟩

/-- The record joins the writes of an event that exits. -/
def RlcMove.withRecord (f : Refine) (m : RlcMove) : RlcMove :=
  match m.next with
  | .exit code r => { m with writes := m.writes ++ [(f.r, r.record code)] }
  | .go _ => m

/-- An abort asked for stops the run at this boundary, unless it exits there (R277). -/
def RlcMove.orAbort (m : RlcMove) (asked : Bool) : RlcMove :=
  match m.next with
  | .go r => if asked then { m with next := .exit 4 r } else m
  | .exit _ _ => m

/-- The next event of the run in progress. -/
def State.rlcMove (s : State) (clu : Nat) (r : RlcRun) (c : Cmd) : RlcMove :=
  let f := c.refine
  ((if r.factoring then r.column f s.free else r.step f s.free).orAbort
    (!(s.clus clu).rlc.abortBy.isEmpty)).withRecord f

/-- The start of a run: what it reads, and what follows. -/
def State.rlcStart (s : State) (clu : Nat) (c : Cmd) : RlcMove :=
  let f := c.refine
  let n := f.n
  let a := (chunks 4 (n * n) (s.cmBytes clu f.a (4 * n * n))).map fun e => BitVec.ofNat 32 (leOf e)
  let b := vecOf false n (s.cmBytes clu f.b (4 * n))
  let x := if f.init then List.replicate n FVal.zero else vecOf f.rp n (s.cmBytes clu f.x (f.xBytes * n))
  let lower := (List.range (n * n)).filterMap fun k => if k % n ≤ k / n then some (fv32 (a.getD k 0)) else none
  let zeroed := if f.init then [(f.x, f.xImage x)] else []
  let none_ := List.replicate n (FVal.nan false)
  let r0 : RlcRun :=
    { cmd := c.id, factoring := true, substep := 0, col := 0, rung := f.lowest, used := 0, flags := 0, iter := 0, stag := 0,
      tiles := [], a := a, b := b, x := x, r := none_, xp := none_, rp := none_, c := none_, nA := FVal.zero,
      ref := FVal.zero }
  let m : RlcMove :=
    if !(lower ++ b ++ x).all FVal.isFinite then ⟨zeroed, 0, .exit 2 r0⟩
    else
      let nA := maxMag ((List.range n).map fun i =>
        sumExact FVal.zero ((List.range n).map fun j => (fv32 (sym a n i j)).abs))
      let r := residual f.rp n a b x
      let r1 : RlcRun := { r0 with r := r, nA := nA, ref := norm r }
      ⟨zeroed ++ [(f.w + f.tileBytes, f.wImage s.free r)], n, if f.test nA b x r then .exit 0 r1 else .go r1⟩
  m.withRecord f

/-! ## Conflicts (R278) -/

/-- The first conflict of some bytes of CM for a command. -/
def State.cmConflict (s : State) (c : Cmd) (kind : AccKind) (off n : Nat) : Option Nat :=
  (span off n).find? fun a => s.conflictsAt (.cm (c.issuer / 8) 0) (.cmd c.id) kind (Key.cm (c.issuer / 8) a)

/-- The first conflict of an event's writes. -/
def State.writeConflict (s : State) (c : Cmd) (m : RlcMove) : Option Nat :=
  m.writes.findSome? fun w => s.cmConflict c .w w.1 w.2.length

/-- The first conflict of what a run reads at its start. -/
def State.readConflict (s : State) (c : Cmd) : Option Nat :=
  let f := c.refine
  ((List.range f.n).findSome? fun i => s.cmConflict c .r (f.a + 4 * f.n * i) (4 * (i + 1))).or
    ((s.cmConflict c .r f.b (4 * f.n)).or (if f.init then none else s.cmConflict c .r f.x (f.xBytes * f.n)))

/-- The command that the RLC of a cluster starts next. -/
def State.rlcHead (s : State) (clu : Nat) : Option Cmd :=
  match (s.clus clu).rlc.run, (s.clus clu).rlc.queue.head? with
  | none, some n => (s.cmd n).filter fun c => c.phase == .accepted
  | _, _ => none

/-- The conflict that the next event of a refinement command meets. -/
def State.rlcConflict (s : State) (c : Cmd) : Option Nat :=
  let clu := c.issuer / 8
  match s.rlcRunning clu with
  | some (r, d) => if d.id = c.id then s.writeConflict c (s.rlcMove clu r c) else none
  | none =>
    match s.rlcHead clu with
    | some d => if d.id = c.id then (s.readConflict c).or (s.writeConflict c (s.rlcStart clu c)) else none
    | none => none

/-! ## Events -/

/-- The STAT of an exit (R273). -/
def exitStat : Nat → Nat
  | 0 => 0
  | 1 => 0x0B
  | 2 => 0x0C
  | 3 => 0x0D
  | _ => 8

/-- An event applied: its writes, the controller's status, and, at an exit, the command's landing and the mark of a TRAP
policy (R275). -/
def State.applyMove (s : State) (clu : Nat) (c : Cmd) (m : RlcMove) : State :=
  let mem := m.writes.foldl (fun mem w => Memory.setAll mem ((span (Key.cm clu w.1) w.2.length).zip w.2)) s.mem
  let s : State := { s with mem := mem, free := s.free + m.free }
  let note (r : RlcRun) (s : State) : State :=
    s.modClus clu fun k => { k with rlc := { k.rlc with
      run := some r, rnorm := rnd32 (norm r.r), iter := r.iter, rung := r.rung } }
  match m.next with
  | .go r => note r s
  | .exit code r =>
    let s := (note r s).modClus clu fun k => { k with rlc := { k.rlc with exit := code } }
    let s := { s with fab := { s.fab with ranges := s.fab.ranges.filter fun e => e.cmd != c.id } }
    let s := s.modCmd c.id fun d => { d with phase := .landed (exitStat code) }
    if bitAt r.flags 2 then
      s.modCore c.issuer fun k => { k with rlcTrap := some (BitVec.ofNat 64 (c.xid * 2 ^ 32 + code)) }
    else s

/-- The range entries that a run holds on its regions, at each bank that one reaches. -/
def Cmd.rlcRanges (c : Cmd) : List RangeEntry :=
  let clu := c.issuer / 8
  c.refine.regions.flatMap fun e =>
    ((span e.1 e.2.1).map (cmHome clu)).eraseDups.map fun h =>
      ⟨h, c.id, Key.cm clu e.1, Key.cm clu (e.1 + e.2.1), e.2.2.2, 0⟩

/-- A bank has no room for a run's range entries (16 R241). -/
def State.rlcNoRoom (s : State) (c : Cmd) : Bool :=
  c.rlcRanges.any fun r =>
    decide (64 < ((s.fab.ranges ++ c.rlcRanges).filter fun e => e.home == r.home).length)

/-- The RLC starts its next accepted command. -/
def execRlcRunStart (clu : Nat) (s : State) : Host.Outcome State Fault Refusal :=
  match s.rlcHead clu with
  | none => .next s
  | some c =>
    if (s.rlcConflict c).isSome || s.rlcNoRoom c then .next s
    else
      let s := s.modClus clu fun k => { k with rlc := { k.rlc with queue := k.rlc.queue.drop 1 } }
      let s := { s with fab := { s.fab with ranges := s.fab.ranges ++ c.rlcRanges } }
      .next (s.applyMove clu c (s.rlcStart clu c))

/-- The next event of a run, where it is of the kind asked for. -/
def State.rlcEvent (s : State) (clu : Nat) (factoring : Bool) : State :=
  match s.rlcRunning clu with
  | none => s
  | some (r, c) =>
    if r.factoring != factoring || (s.rlcConflict c).isSome then s else s.applyMove clu c (s.rlcMove clu r c)

def execRlcFactorColumn (clu : Nat) (s : State) : Host.Outcome State Fault Refusal := .next (s.rlcEvent clu true)
def execRlcStep (clu : Nat) (s : State) : Host.Outcome State Fault Refusal := .next (s.rlcEvent clu false)

end Sys2Proof.Machine
end

