-- ==== Sys2Proof/Machine/ScaleUp.lean ====
section
/-! DEFINITION. The scale-up fabric's events and commands (24 R327, R328). -/

namespace Sys2Proof.Machine

/-- The `xfer` commands on a sub-link, those stopped on a fault included. -/
def State.xfersOn (s : State) (port sub : Nat) : List Cmd :=
  s.cmds.filter fun c => c.kind == .xfer && s.xferPort c == port && c.subl == sub
    && (match c.phase with | .accepted | .faulted _ _ => true | _ => false)

/-- The partition that owns a sub-link that is up. -/
def State.linkOwner (s : State) (port sub : Nat) : Option Nat :=
  match Table.find s.sublinks (port * 8 + sub) with
  | some l => if l.up then l.owner else none
  | none => none

/-- The partition of the remote module that owns the peer end of a sub-link. -/
def State.linkPeer (s : State) (port sub : Nat) : Option Nat := (Table.find s.sublinks (port * 8 + sub)).bind (·.peer)

/-- The commands of the remote module on a sub-link are over, and their range entries with them (16 R240). -/
def State.remoteOver (s : State) (port sub : Nat) : State :=
  { s with fab := { s.fab with ranges := s.fab.ranges.filter fun e => !remoteCmdOn port sub e.cmd } }

/-- A sub-link goes down: its commands complete with STAT 0x09, and the writes already made stay. -/
def execSublinkDown (port sub : Nat) (s : State) : Host.Outcome State Fault Refusal :=
  match Table.find s.sublinks (port * 8 + sub) with
  | some l =>
    if !l.up then .next s
    else
      let s' := (s.xfersOn port sub).foldl (fun s c => s.modCmd c.id fun d => { d with phase := .landed 9 }) s
      .next (({ s' with sublinks := Table.set s'.sublinks (port * 8 + sub) { l with up := false } } : State).remoteOver port sub)
  | none => .next s

/-- A message of the remote module, as the ingress core receives it: SRC names the receiving east edge node. -/
def ingressMsg (header rr : Word) (payload : List Word) (row : Nat) (wfw : Word) (proc : BitVec 16) (lid : Nat) : Msg where
  hdr := BitVec.ofNat 64 (header.toNat / 65536 * 65536 + (0xC000 + row))
  payload := payload
  rr := rr
  wid := 0
  dl := 0
  wfw := wfw
  proc := proc
  lid := lid
  rnum := 0
  pass := 0
  up := 0

/-- An active message or a deposit of the remote partition that owns the peer end of a sub-link reaches the ingress core of
the partition that owns this end; it is discarded where none owns the peer end. The answer to its sender leaves the module. -/
def execScaleupMessage (port sub : Nat) (header : Word) (payload : List Word) (rr : Word) (mb : Option (Fin 64))
    (s : State) : Host.Outcome State Fault Refusal :=
  match s.linkOwner port sub with
  | none => .next s
  | some pn =>
    if (s.linkPeer port sub).isNone then .next s
    else
    let t := s.part pn
    let p := t.attrs.ingress
    let s := s.meterFlits pn flitBytes
    let src := 0xC000 + port
    match mb with
    | some i => .next (s.depositPlain p i.val payload src).1
    | none =>
      let m := ingressMsg header rr payload port (s.launchWfw pn) t.attrs.proc0 (s.launchLid pn)
      let (s', r) := s.offered p m src s.fab.nextNum
      match r with
      | .forward q => .next (s'.inject p q .amsg pn 0 (.active m none (some (src, s.fab.nextNum))))
      | _ => .next s'

/-- One write of a remote command, within one 4 KiB unit, at the home of its first byte: checked, recorded and translated as
an engine's (16 R238, R248; 22 R309). -/
def State.remoteWrite (s : State) (src : Place) (pn cmd : Nat) (proc : BitVec 16) (addr : Nat) (bs : List Byte) : Applied :=
  let h : Home := .station (s.slotStation (slotOf addr))
  let tgt : Target := .glob pn proc.toNat addr bs.length
  let ks := s.locKeys ⟨h, tgt, 0⟩
  let a : Access :=
    { num := s.fab.nextNum, src := src, party := .cmd cmd, path := .bte, home := h, kind := .w, op := .write bs, tgt := tgt,
      base := 0, interval := 0, dest := .none, range := some ⟨h, cmd, listMin ks, listMax ks + 1, .w, 0⟩, way := Way.done,
      lost := false }
  s.nextNumber.pass a

/-- The writes of a flit in order; one that conflicts, or that is not mapped, is not made. -/
def State.remoteWrites (s : State) (src : Place) (pn cmd : Nat) (proc : BitVec 16) :
    List (Nat × Nat) → List Byte → Host.Outcome (Option State) Fault Refusal
  | [], _ => .next (some s)
  | (a, n) :: rest, bs =>
    match s.remoteWrite src pn cmd proc a (bs.take n) with
    | .blocked => .next none
    | .stop f => .fault f
    | .done s' _ => s'.remoteWrites src pn cmd proc rest (bs.drop n)

/-- A flit of a remote partition: discarded unless that partition owns the peer end; what it asks to be written is
written for the partition that owns this end. A flit whose write a full recorder holds back stays on the link. -/
def execScaleupFlit (port sub part : Nat) (flit : List Byte) (s : State) : Host.Outcome State Fault Refusal :=
  match s.linkOwner port sub with
  | none => .next s
  | some pn =>
    if s.linkPeer port sub ≠ some part ∨ flit.length ≠ flitBytes then .next s
    else
      let t := s.meterFlits pn flitBytes
      match Config.flitWrite flit with
      | none => .next t
      | some (proc, addr, bs, id, last) =>
        let cmd := remoteCmd port sub id
        match t.remoteWrites (s.part pn).attrs.ingress pn cmd proc (pieces addr bs.length) bs with
        | .next (some t) => .next (if last then t.dropRanges cmd else t)
        | .next none => .next s
        | .fault f => .fault f
        | .refused r => .refused r

/-- SUBLINK (R328): a sub-link moves while neither partition at its ends has a launch in flight. The far end's launches
are another module's. DESIGN CHOICE (log 114): a number that is no sub-link of its port gives NOTFOUND. -/
def execSublink (h : CmdHead) (port sub partn : Nat) (s : State) : Host.Outcome State Fault Refusal :=
  s.command h 32 8 true fun s =>
    if 31 < port ∨ 7 < sub ∨ (partn ≠ 0xFFFF ∧ 383 < partn) then .next (s.refuseChain h .badcmd)
    else
      match Table.find s.sublinks (port * 8 + sub) with
      | none => .next (s.refuseChain h .notfound)
      | some l =>
        if partn ≠ 0xFFFF ∧ (Table.find s.parts partn).isNone then .next (s.refuseChain h .notfound)
        else
          let busyHere := l.owner.any fun q => (s.part q).inFlight
          let busyThere := (Config.freeValue s.free).getLsbD 0
          let s : State := { s with free := s.free + 1 }
          if busyHere || busyThere then .next (s.refuseChain h .busy)
          else
            let l := { l with owner := if partn = 0xFFFF then none else some partn }
            .next (({ s with sublinks := Table.set s.sublinks (port * 8 + sub) l } : State).refuseChain h .ok)

end Sys2Proof.Machine
end

