-- ==== Sys2Proof/Machine/Usage.lean ====
section
/-! DEFINITION. Usage records (24 R332, R333) and their commands. -/

namespace Sys2Proof.Machine

/-! ## Records -/

/-- Bytes 0 to 175 of a record. -/
def Usage.body (u : Usage) (pn : Nat) : List Byte :=
  leBytesOf 2 pn ++ leBytesOf 2 u.flags ++ leBytesOf 4 0 ++ leBytesOf 8 u.seq ++ leBytesOf 8 u.tstart
    ++ leBytesOf 8 u.tend ++ (u.ctr.flatMap (leBytesOf 8)) ++ leBytesOf 32 u.prev.toNat

/-- The 240 bytes of a record. -/
def Usage.bytes (u : Usage) (pn : Nat) : List Byte := u.body pn ++ leBytesOf 64 u.sig.toNat

/-- The tick at which the present interval began. -/
def Part.intervalStart (t : Part) : Nat := (t.usage.getLast?.map (·.tend)).getD t.created

/-- The record of the interval that ends now. -/
def Part.nextUsage (t : Part) (pn tick : Nat) (final : Bool) : Usage :=
  let u : Usage :=
    { flags := b2n final + b2n t.periodNew * 2
      seq := (t.usage.getLast?.map fun u => u.seq + 1).getD 0
      tstart := t.intervalStart
      tend := tick
      ctr := t.meter.words
      prev := (t.usage.getLast?.map fun u => sm3 (u.bytes pn)).getD 0
      sig := 0
      taken := false }
  { u with sig := sm2Sign (u.body pn) }

/-- The records kept: the last 4,096, and none that no PF has taken is dropped. -/
def keepUsage (us : List Usage) : List Usage :=
  (us.zipIdx.filter fun e => !e.1.taken || decide (us.length ≤ e.2 + 4096)).map (·.1)

/-- A record of 240 bytes posted to a PF's usage queue. DESIGN CHOICE (log 134): the driver makes the descriptors of that
queue available in turn, one record to each. -/
def State.postUsage (s : State) (fn : HostFn) : State :=
  let x := s.queue fn 1
  s.noteUsed fn 1 (x.used % x.size) 240

/-- A record is emitted: kept, and posted to the usage queue of both PFs. -/
def State.emitUsage (s : State) (pn : Nat) (final : Bool) : State :=
  let u := (s.part pn).nextUsage pn s.tick final
  let s := s.modPart pn fun t => { t with usage := keepUsage (t.usage ++ [u]), periodNew := false }
  let s := (s.postUsage (.pf 0)).postUsage (.pf 1)
  { s with host := { s.host with usageQ0 := s.host.usageQ0 ++ [(pn, u)], usageQ1 := s.host.usageQ1 ++ [(pn, u)] } }

/-- A usage record is due every PERIOD ticks. -/
def execUsageRecord (part : Nat) (s : State) : Host.Outcome State Fault Refusal :=
  match Table.find s.parts part with
  | none => .next s
  | some t =>
    if s.tick < t.usageAt then .next s
    else .next ((s.emitUsage part false).modPart part fun t => { t with usageAt := s.tick + t.period })

/-! ## Taking records -/

/-- A record that a PF has taken. -/
def Part.takeUsage (t : Part) (seq : Nat) : Part :=
  { t with usage := keepUsage (t.usage.map fun u => if u.seq = seq then { u with taken := true } else u) }

/-- A PF's driver takes the oldest record of its usage queue, which marks the kept one, unless its partition is gone. -/
def execUsageQueueTake (pf : Fin 2) (s : State) : Host.Outcome State Fault Refusal :=
  let q := if pf.val = 0 then s.host.usageQ0 else s.host.usageQ1
  match q with
  | [] => .next s
  | (pn, u) :: rest =>
    let s : State := if pf.val = 0 then { s with host := { s.host with usageQ0 := rest } }
      else { s with host := { s.host with usageQ1 := rest } }
    .next (if (Table.find s.parts pn).isSome && !u.taken then s.modPart pn (·.takeUsage u.seq) else s)

/-! ## USAGE and PERIOD -/

/-- The records that USAGE returns, or GONE. -/
def Part.usageFrom (t : Part) (first room : Nat) : Option (List Usage) :=
  match t.usage with
  | u :: _ => if first < u.seq then none else some ((t.usage.filter fun v => decide (first ≤ v.seq)).take room)
  | [] => some []

def execUsage (h : CmdHead) (first max : Nat) (s : State) : Host.Outcome State Fault Refusal :=
  s.tenantCmd h 32 16 fun pn _ s =>
    if max = 0 ∨ 64 < max ∨ 2 ^ 64 ≤ first then .next (s.refuseChain h .badcmd)
    else
      match (s.part pn).usageFrom first (min max ((h.resultBytes - 16) / 240)) with
      | none => .next (s.refuseChain h .gone)
      | some us => .next (s.answerCmd h .ok us.length (us.flatMap (·.bytes pn)))

/-- PERIOD: the interval in progress ends one new period after its start. -/
def execPeriod (h : CmdHead) (partn ticks : Nat) (s : State) : Host.Outcome State Fault Refusal :=
  s.partCmd h 32 16 partn (decide (partn ≤ 383) && decide (1000000 ≤ ticks) && decide (ticks ≤ 1000000000)) fun _ s =>
    .next ((s.modPart partn fun t => { t with
      period := ticks, periodNew := true, usageAt := t.intervalStart + ticks }).refuseChain h .ok)

end Sys2Proof.Machine
end

