-- ==== Sys2Proof/Machine/Boot.lean ====
section
/-! DEFINITION. Boot and firmware (24 R330), attestation (R331), and the package governor (R335). -/

namespace Sys2Proof.Machine

/-! ## Boot (R330) -/

/-- The first-stage image in a slot. -/
def Firmware.image (f : Firmware) (slot : Fin 2) : List Byte := (f.slots[slot.val]).getD (Config.slotImage slot.val)

/-- The slot that boots: the active one, or the other where its image fails the check. -/
def Firmware.bootSlot (f : Firmware) : Option (Fin 2) :=
  let other : Fin 2 := if f.next = 0 then 1 else 0
  if Config.firstStageOk (f.image f.next) then some f.next
  else if Config.firstStageOk (f.image other) then some other
  else none

/-- Every logical core of the module. -/
def State.allCores (s : State) : List Place :=
  (List.range 32).flatMap fun r => (List.range s.cols).flatMap fun c => (List.range 8).map fun k => (64 * r + c) * 8 + k

/-- The housekeeping kernel's work on the cores: BIN, features and state, the micro-kernel's trap entry, G = 0. -/
def State.setUpCores (s : State) : State :=
  s.allCores.foldl (fun s p =>
    (s.seatCore p).modCore p fun c =>
      ({ c with stvec := Config.trapEntry s.fw.boots &&& ~~~ (3 : Word) } : Core).adopt 0) s

/-- A posted record of a partition that is gone has no kept record to mark. -/
def ofGone (pn : Nat) (e : Nat × Usage) : Nat × Usage := if e.1 = pn then (e.1, { e.2 with taken := true }) else e

/-- A partition is gone: its clusters return to the free set, frames to the scrubber, bindings go and its sub-links
become unowned. -/
def State.removePart (s : State) (pn : Nat) : State :=
  let t := s.part pn
  let s := s.zeroChip pn
  let s := t.coresOf.foldl (fun s p => s.modCore p fun c => { c with part := none }) s
  let s := t.clusOf.foldl (fun s c => s.modClus c fun _ => Cluster.reset) s
  { s with
    parts := Table.drop s.parts pn
    cmds := s.cmds.filter fun c => c.part != pn
    dirty := s.dirty ++ t.frames
    sublinks := s.sublinks.map fun (e : Nat × Sublink) => (e.1, if e.2.owner = some pn then { e.2 with owner := none } else e.2)
    fab := { s.fab with
      net := s.fab.net.filter fun k => k.part != pn
      retries := s.fab.retries.filter fun r => r.pkt.part != pn
      issue := s.fab.issue.filter fun a => !t.hasCore a.src
      bufs := s.fab.bufs.filter fun a => !t.hasCore a.src }
    host := { s.host with
      bindings := s.host.bindings.filter fun e => e.2.1 != pn
      usageQ0 := s.host.usageQ0.map (ofGone pn), usageQ1 := s.host.usageQ1.map (ofGone pn) } }

/-- The sub-links that boot makes of aligned lanes of a port: numbered by their lowest lane, of 8, 4, 2 or 1 lanes (R327).
DESIGN CHOICE (log 114): which groups boot halves is a free value, and every sub-link comes up unowned. -/
def lanesSplit (boots port : Nat) : Nat → Nat → Nat → List (Nat × Nat)
  | 0, lane, n => [(lane, n)]
  | k + 1, lane, n =>
    if Config.halves boots port lane n then
      lanesSplit boots port k lane (n / 2) ++ lanesSplit boots port k (lane + n / 2) (n / 2)
    else [(lane, n)]

/-- The sub-links of every port. Who is at their far ends is free (log 71). -/
def bootLinks (boots : Nat) : Table Sublink :=
  (List.range 32).flatMap fun port =>
    (lanesSplit boots port 3 0 8).map fun e => (port * 8 + e.1,
      ⟨e.2, none, true, Config.peerOwner boots port e.1, Config.farModules boots port e.1⟩)

/-- Every tenant of a partition has an image on NVMe, and no launch is in flight. -/
def State.keptWhole (s : State) (e : Nat × Part) : Bool :=
  e.2.launch.isNone && e.2.tenants.all fun x => s.host.images.any fun i =>
    bitsAt i.2.header.toNat 80 9 == e.1 && bitsAt i.2.header.toNat 72 8 == x.1

/-- The module may boot: for the first time, after RECOVER, or again once every partition is destroyed or its tenants are kept
on NVMe. -/
def State.mayBoot (s : State) : Bool := !s.fw.booted || s.parts.all s.keptWhole

/-- The steps of a boot from a slot's first stage: a boot finds no partition, splits the ports, marks the retired frames, sets
up the cores and measures what it loads. -/
def State.bootFrom (s : State) (slot : Fin 2) : State :=
  let n := s.fw.boots + 1
  let s := s.parts.foldl (fun s e => s.removePart e.1) s
  let fw := { s.fw with
    booted := true, recovery := false, active := slot, boots := n
    measures := sm3 (s.fw.image slot) :: Config.bootMeasures n }
  let bad := Config.retiredFrames n
  let s : State := { s with
    fw := fw, sublinks := bootLinks n, badFrames := bad
    scrubbed := s.scrubbed.filter fun e => !bad.contains e
    dirty := s.dirty.filter fun e => !bad.contains e
    gov := { s.gov with g := 0, samples := [], below := 0 } }
  s.setUpCores

/-- Boot: a good first stage is measured and run, and the functions are published; with none, the module is in
recovery, and only the management PF appears. -/
def execBoot (s : State) : Host.Outcome State Fault Refusal :=
  if !s.mayBoot then .next s
  else
    match s.fw.bootSlot with
    | none =>
      let s := s.parts.foldl (fun s e => s.removePart e.1) s
      .next { s with fw := { s.fw with booted := true, recovery := true, boots := s.fw.boots + 1 } }
    | some slot => .next (s.bootFrom slot)

/-! ## FWACT, POWERCAP, RECOVER (R325) -/

def execFwact (h : CmdHead) (slot : Nat) (s : State) : Host.Outcome State Fault Refusal :=
  s.command h 32 8 true fun s =>
    if h1 : slot < 2 then .next (({ s with fw := { s.fw with next := ⟨slot, h1⟩ } } : State).refuseChain h .ok)
    else .next (s.refuseChain h .badcmd)

def execPowercap (h : CmdHead) (cap : Nat) (s : State) : Host.Outcome State Fault Refusal :=
  s.command h 32 8 true fun s =>
    if 4000 ≤ cap ∧ cap ≤ 10000 then .next (({ s with gov := { s.gov with cap := cap } } : State).refuseChain h .ok)
    else .next (s.refuseChain h .badcmd)

/-- RECOVER is the one command of a module in recovery: a good image goes to slot 0, and the module boots again. -/
def execRecover (h : CmdHead) (image : List Byte) (s : State) : Host.Outcome State Fault Refusal :=
  if !s.fw.booted then .next s
  else if !h.shapeOk 32 then .next (s.badChain h)
  else if h.fn != .pf 0 || !s.fw.recovery then .next (s.refuseChain h .denied)
  else if !chainOk h 16 true then .next (s.refuseChain h .badcmd)
  else if Config.firstStageOk image then
    let fw := { s.fw with slots := s.fw.slots.set 0 (some image), next := 0, booted := false, recovery := false }
    .next (({ s with fw := fw } : State).refuseChain h .ok)
  else .next (s.refuseChain h .corrupt)

/-! ## QUOTE (R331) -/

/-- The numbers that a partition's measured configuration holds. -/
def State.configNumbers (s : State) (pn : Nat) (a : Attrs) : List Nat :=
  [pn, a.clu, a.ncols, a.nrows, a.shape, a.subn, a.weight, a.tslice, a.codeb, a.codeSize, a.hcount, a.htab, a.rtab,
    a.wdogDef, a.retryLim, a.avgThr, a.scount, b2n a.debugHold, a.ingress, a.proc0.toNat]
    ++ (s.host.bindings.filter fun e => e.2.1 == pn).flatMap (fun e => [e.1, e.2.2])
    ++ (s.sublinks.filter fun e => e.2.owner == some pn).map (·.1)

/-- A partition's entry in a quote. -/
def State.quoteEntry (s : State) (e : Nat × Part) : List Byte :=
  leBytesOf 2 e.1 ++ leBytesOf 14 0 ++ leBytesOf 32 (sm3 (Config.configBytes (s.configNumbers e.1 e.2.attrs))).toNat

/-- The quote from byte 16 to the end of PARTS. -/
def State.quoteBody (s : State) (nonce : List Byte) : List Byte :=
  nonce ++ leBytesOf 8 s.tick ++ leBytesOf 1 s.fw.active.val ++ leBytesOf 1 0
    ++ leBytesOf 2 (Config.fwLayout s.fw.active.val).toNat ++ leBytesOf 2 s.fw.measures.length
    ++ leBytesOf 2 s.parts.length ++ (s.fw.measures.flatMap fun m => leBytesOf 32 m.toNat)
    ++ s.parts.flatMap s.quoteEntry

def execQuote (h : CmdHead) (nonce : List Byte) (s : State) : Host.Outcome State Fault Refusal :=
  let body := s.quoteBody nonce
  s.command h (16 + body.length + 64) 32 true fun s =>
    if nonce.length ≠ 32 then .next (s.refuseChain h .badcmd)
    else .next (s.answerCmd h .ok (body.length + 64) (body ++ leBytesOf 64 (sm2Sign body).toNat))

/-! ## The governor (R335) -/

/-- Ten times the sustained budget. -/
def Governor.budget10 (g : Governor) : Nat := min 90000 (9 * g.cap)

/-- The mean power over the last 100 samples passes the budget. -/
def Governor.meanPasses (g : Governor) (samples : List Nat) : Bool :=
  decide (100 ≤ samples.length) && decide (g.budget10 * 100 < 10 * samples.sum)

/-- G after a sample, with the count of consecutive samples below 0.95 of the budget. -/
def Governor.sample (g : Governor) (p : PowerSample) : Governor :=
  let samples := (g.samples ++ [p.watts]).drop (g.samples.length + 1 - 100)
  let below := if 1000 * p.watts < 95 * g.budget10 then g.below + 1 else 0
  let up := (if 19000 < p.amps ∨ g.cap < p.watts then 8 else 0) + (if g.meanPasses samples then 1 else 0)
  let v := min 63 (g.g.val + up) - (if 100 ≤ below then 1 else 0)
  { g with
    g := ⟨min v 63, Nat.lt_of_le_of_lt (Nat.min_le_right _ _) (by decide)⟩
    samples := samples
    below := if 100 ≤ below then 0 else below }

/-- A sample still passes a limit with G at 63. -/
def Governor.atFloor (g : Governor) (p : PowerSample) : Bool :=
  g.g.val == 63 && (decide (19000 < p.amps) || decide (g.cap < p.watts))

/-- A sample, due every 1,000 ticks; idle cores adopt a new G at once. -/
def execGovernorSample (p : PowerSample) (s : State) : Host.Outcome State Fault Refusal :=
  if s.tick < s.gov.due then .next s
  else
    let g := { s.gov.sample p with due := s.tick + 1000 }
    let s := if s.gov.atFloor p then
        { s.log .limitAtFloor with host := { s.host with irqs := s.host.irqs + 1 } } else s
    .next { s with
      gov := g
      cores := s.cores.map fun e => (e.1, if e.2.running then e.2 else e.2.adopt g.g.val) }

end Sys2Proof.Machine
end

