-- ==== Sys2Proof/Machine/Control.lean ====
section
/-! DEFINITION. The control instructions (08 R123 to R129) and the branch-outcome queues (R130 to R132). -/

namespace Sys2Proof.Machine

/-! ## Targets (R109, R124) -/

/-- The offset of the instruction. -/
def pcOf : M Nat := fun s => .ok (s.seq.pc, s)

/-- An integer as TVAL holds it. -/
def tvalInt (t : Int) : Word := BitVec.ofInt 64 t

/-- A target that lies outside the code region of the level raises WINDOW-BOUNDS. -/
def boundTarget (t : Int) : M Unit := fun s =>
  if t < 0 ∨ (s.regionSize s.cur.1 s.seq.level : Int) ≤ t then trap .windowBounds (tvalInt t) s else .ok ((), s)

/-- The checks of a target, in order. -/
def checkTarget (t : Int) : M Unit := do
  trapIf (t % 4 != 0) .misalignedTarget (tvalInt t)
  boundTarget t

/-- PC + 4 × SignExtend(I, 24). -/
def branchTarget (i : BitVec 24) : M Int := do
  let pc ← pcOf
  pure (pc + 4 * i.toInt)

def execBr (g : Guard) (i : BitVec 24) (s : State) : Host.Outcome State Fault Refusal :=
  perform 8 Need.any g (do
    let t ← branchTarget i
    checkTarget t
    pure (.to t.toNat)) s

/-- The link is written after A is read. -/
def execJmp (g : Guard) (d a : Reg) (i : BitVec 24) (s : State) : Host.Outcome State Fault Refusal :=
  perform 8 Need.any g (do
    let base ← readS a
    let t : Int := base.toNat + 4 * i.toInt
    checkTarget t
    let pc ← pcOf
    writeS d (BitVec.ofNat 64 (pc + 8))
    pure (.to t.toNat)) s

def execCall (g : Guard) (d : Reg) (i : BitVec 24) (s : State) : Host.Outcome State Fault Refusal :=
  perform 8 Need.any g (do
    let t ← branchTarget i
    checkTarget t
    let pc ← pcOf
    writeS d (BitVec.ofNat 64 (pc + 8))
    pure (.to t.toNat)) s

def execRet (g : Guard) (a : Reg) (s : State) : Host.Outcome State Fault Refusal :=
  perform 8 Need.any g (do
    let t ← readS a
    checkTarget t.toNat
    pure (.to t.toNat)) s

/-! ## `loop` (R125) -/

/-- A loop counter of the sequencer set whole. -/
def Seq.setLoop (c : Seq) (lc : Fin 2) (l : LoopCtr) : Seq :=
  if lc.val = 0 then { c with lc0 := l } else { c with lc1 := l }

/-- What reading the length code at an end offset finds. -/
inductive EndLen
  | len (n : Nat)
  | bad
  | trap (c : Cause) (v : Word)
  | stop (f : Fault)

/-- Len(e) (R109, 07 R82, R83). -/
def State.lenAt (s : State) (e : Nat) : EndLen :=
  match s.fetchFrom s.cur.1 { s.seq with pc := e } with
  | .trap c v => .trap c v
  | .stop f => .stop f
  | .block bs =>
    let w := leOf ((bs.drop (e % 32)).take 4)
    if e % 32 == 28 && w == 0 then .len 4
    else
      match lenBytes (w % 4) with
      | some n => .len n
      | none => .bad

/-- The counter armed; a count of zero passes the body over. DEDUCED (log 123): it has transferred control then, and no end
rule is applied at its own address (08 R126). -/
def loopBody (lc : Fin 2) (a : Reg) (i : BitVec 24) : M Next := fun s =>
  let e := (s.seq.pc : Int) + 4 * i.toInt
  let n := (s.seq.readS a).extractLsb' 0 32
  if e < 0 ∨ (s.regionSize s.cur.1 s.seq.level : Int) ≤ e then trap .windowBounds (tvalInt e) s
  else
    let s' := s.modSeq fun c => c.setLoop lc ⟨n, n, c.pc + 8, e.toNat⟩
    if n ≠ 0 then .ok (.fall, s')
    else
      match s.lenAt e.toNat with
      | .len k => .ok (.to (e.toNat + k), s')
      | .bad =>
        .error (.own ((s'.modSeq fun c => { c.settle with pc := e.toNat }).takeTrap .illegalEncoding
          (some (tvalInt e)) .none))
      | .trap c v => trap c v s
      | .stop f => .error (.fault f)

def execLoop (g : Guard) (lc : Fin 2) (a : Reg) (i : BitVec 24) (s : State) : Host.Outcome State Fault Refusal :=
  perform 8 Need.any g (loopBody lc a i) s

/-! ## `tret` (R128) -/

def tretBody : M Next := fun s =>
  let r := s.my.csr
  let t := r.epcOf s.cur.2
  if !r.cause.udel then trap .illegalEncoding 0 s
  else if t % 4 ≠ 0 then trap .misalignedTarget (BitVec.ofNat 64 t) s
  else if s.codeSize s.cur.1 ≤ t then trap .windowBounds (BitVec.ofNat 64 t) s
  else
    let s := s.modMy fun m => { m with csr := { m.csr with cause := { m.csr.cause with udel := false } } }
    .error (.own (s.comeBack s.cur.1 s.cur.2 .user t))

def execTret (g : Guard) (s : State) : Host.Outcome State Fault Refusal := perform 8 Need.any g tretBody s

/-! ## `pause` (R129) -/

/-- The tick that a pause of `n` ticks ends at: fixed when the pause begins. -/
def State.pauseEnd (s : State) (n : Nat) : Nat :=
  match s.seq.wait with
  | some w => if w.why = .pausing then w.till else s.tick + n
  | none => s.tick + n

def pauseBody (a : Reg) (i : BitVec 24) : M Next := fun s =>
  let n := if a.val ≠ 0 then ((s.seq.readS a).extractLsb' 0 32).toNat else i.toNat
  if s.pauseEnd n ≤ s.tick then .ok (.fall, s)
  else .error (.wait ⟨.pausing, s.pauseEnd n, none, none⟩ none)

def execPause (g : Guard) (a : Reg) (i : BitVec 24) (s : State) : Host.Outcome State Fault Refusal :=
  perform 8 Need.any g (pauseBody a i) s

/-- A pause whose ticks have passed completes; what was raised during the wait is taken at the pause. -/
def execPauseExpiry (p : Place) (q : SeqId) (s : State) : Host.Outcome State Fault Refusal :=
  match s.waitOf p q with
  | some w =>
    if w.why = .pausing ∧ w.till ≤ s.tick then
      .next ((s.boundary p q).getD (s.modSeqAt p q fun c => c.retire 8 .fall))
    else .next s
  | none => .next s

/-! ## Branch-outcome queues (R130 to R132) -/

/-- `bqpush`: bit 0 of kA joins the other sequencer's queue. -/
def bqpushBody (k : Fin 8) : M Next := fun s =>
  let q := s.my.q
  let bit := (s.seq.readK k).getLsbD 0
  let other := s.my.seq (otherSeq s.cur.2)
  let (full, num) := match s.cur.2 with
    | .as => (decide (16 ≤ q.bqx.length), 6)
    | .xs => (decide (16 ≤ q.bqa.length), 5)
  if full then
    (if other.gone then trap .queueMisuse (BitVec.ofNat 64 num) s else waitFor (.queue num) s)
  else .ok (.fall, s.modMy fun t => match s.cur.2 with
    | .as => { t with q := { t.q with bqx := t.q.bqx ++ [bit] } }
    | .xs => { t with q := { t.q with bqa := t.q.bqa ++ [bit] } })

def execBqpush (g : Guard) (k : Fin 8) (s : State) : Host.Outcome State Fault Refusal :=
  perform 8 Need.any g (bqpushBody k) s

/-- The head of the own queue is popped. -/
def bqPop : M Bool := fun s =>
  let q := s.my.q
  let other := s.my.seq (otherSeq s.cur.2)
  let num := match s.cur.2 with
    | .as => 5
    | .xs => 6
  match (match s.cur.2 with | .as => q.bqa | .xs => q.bqx) with
  | [] => if other.gone then trap .queueMisuse (BitVec.ofNat 64 num) s else waitFor (.queue num) s
  | b :: rest => .ok (b, s.modMy fun t => match s.cur.2 with
    | .as => { t with q := { t.q with bqa := rest }, act := { t.act with seenX := s.fab.nextNum } }
    | .xs => { t with q := { t.q with bqx := rest }, act := { t.act with seen := s.fab.nextNum } })

/-- `bqbr`: the target is checked before anything is popped; it branches where the popped bit differs from D. -/
def execBqbr (g : Guard) (sense : Bool) (i : BitVec 24) (s : State) : Host.Outcome State Fault Refusal :=
  perform 8 Need.any g (do
    let t ← branchTarget i
    boundTarget t
    let b ← bqPop
    pure (if b != sense then .to t.toNat else .fall)) s

end Sys2Proof.Machine
end

