-- ==== Sys2Proof/Machine/EngineFaults.lean ====
section
/-! DEFINITION. The faults of accepted engine commands: the stop at the completion frontier and the delivery of ENGINE-FAULT
(14 R220, 22 R297, R298). -/

namespace Sys2Proof.Machine

/-- The fault that a command meets next, if it meets one: its STAT and address. -/
def State.engineFault (s : State) (c : Cmd) : Option (Nat × Nat) :=
  match c.phase with
  | .landed _ => if s.statConflict c then some (5, c.statAddr) else none
  | .accepted =>
    if c.kind = .rlc then (s.rlcConflict c).map fun a => (5, a)
    else if !c.moving then none
    else if c.kind = .coll then (match s.collStep c with | .fault st a => some (st, a) | _ => none)
    else if c.kind = .cpyr then
      (match s.applyReduce c (c.landing c.front) with | .fault st a => some (st, a) | _ => none)
    else
      match s.landNow c (c.landing c.front) with
      | .fault st a => some (st, a)
      | _ => none
  | _ => none

/-- A command stops at its completion frontier: what lies beyond is made again from there. -/
def State.stopCmd (s : State) (c : Cmd) (st a : Nat) : State :=
  let s := if c.kind = .xfer then { s with free := s.free + 1 } else s
  (s.modCmd c.id fun d => { d with
    early := []
    got := if d.kind = .coll then d.got
      else if d.autoScaled then d.got.filter fun g => decide (g.1 < d.front) else [] }).faultCmd c st a

def execEngineFaultStop (cmd : Nat) (s : State) : Host.Outcome State Fault Refusal :=
  match s.cmd cmd with
  | none => .next s
  | some c =>
    match s.engineFault c with
    | some (st, a) => .next (s.stopCmd c st a)
    | none => .next s

/-! ## Accesses out of order

Accesses of one command to different homes are not ordered (16 R235): an engine may read an element ahead of its write, and
land one ahead of the frontier. At one home they keep pattern order. -/

/-- No earlier element among `is` shares a home with element `i`. -/
def State.firstAt (s : State) (c : Cmd) (p : Pat) (kind : AccKind) (is : List Nat) (i : Nat) : Bool :=
  (is.filter fun j => decide (j < i)).all fun j =>
    (s.elemHomes c p kind j).all fun h => !(s.elemHomes c p kind i).contains h

/-- A source element read by itself. -/
def State.fetchElem (s : State) (cmd i : Nat) : Host.Outcome State Fault Refusal :=
  match s.cmd cmd with
  | none => .next s
  | some c =>
    if !c.moving || !c.unread.contains i || !(c.remoteSrc || s.firstAt c c.from_ .r c.unread i) then .next s
    else
      match s.readElem c i with
      | .ok s' bs =>
        match c.values [(i, bs)] with
        | .ok _ => .next (s'.modCmd c.id fun d => { d with got := d.got ++ [(i, bs)] })
        | .error (st, a) => .next (s.stopCmd c st a)
      | .fault st a => .next (s.stopCmd c st a)
      | .blocked => .next s
      | .stop f => .fault f

/-- Elements that have been read, or those of a collective, land ahead of the frontier. An engine has at most 64 such
reductions (16 R250). -/
def State.landElem (s : State) (cmd i : Nat) : Host.Outcome State Fault Refusal :=
  match s.cmd cmd with
  | none => .next s
  | some c =>
    let is := c.landing i
    if !c.moving || !c.unlanded.contains i || !(c.kind == .coll || is.all fun j => c.got.any (·.1 == j))
        || (c.writeKind == .a && decide (64 ≤ c.early.length)) || !(c.remoteDst || s.firstAt c c.to_ c.writeKind c.unlanded i) then .next s
    else
      let r : EngRes Unit :=
        if c.kind = .coll then s.collAhead c is
        else if c.kind = .cpyr then s.applyReduce c is
        else
          match s.landNow c is with
          | .ok s' _ => .ok (s'.advance c is) ()
          | .fault st a => .fault st a
          | .blocked => .blocked
          | .stop f => .stop f
      match r with
      | .ok s' _ => .next s'
      | .fault st a => .next (s.stopCmd c st a)
      | .blocked => .next s
      | .stop f => .fault f

/-- The pending fault is delivered: on a running strand at its boundary; with no strand the supervisor acts at once. -/
def execEngineFaultDelivery (p : Place) (s : State) : Host.Outcome State Fault Refusal :=
  match (s.core p).pendFaults with
  | [] => .next s
  | (_, cmd) :: rest =>
    if (s.core p).running then
      if s.coreStill p then .next s
      else
        let q : SeqId := if (s.strand p).as.present then .as else .xs
        match s.takeFault p q with
        | some s' => .next s'
        | none => .next s
    else
      let s := s.modCore p fun c => { c with pendFaults := rest }
      match s.cmd cmd with
      | some c => .next (s.settleFault c)
      | none => .next s

end Sys2Proof.Machine
end

