-- ==== Sys2Proof/Machine/Fence.lean ====
section
/-! DEFINITION. `fence` (14 R210, 16 R247): what a class of accesses still owes at the homes of a scope. -/

namespace Sys2Proof.Machine

/-- FROM names a path class. -/
def fenceNames : FenceClass → Path → Bool
  | .all, _ => true
  | .core, .core | .cce, .cce | .bds, .bds | .bte, .bte | .coll, .coll | .mbx, .mbx => true
  | _, _ => false

/-- The homes of a scope, for a core (16 R247). -/
def scopeCovers (sc : FenceScope) (p : Place) : Home → Bool
  | .cp q _ =>
    match sc with
    | .core => q == p
    | .cluster => q / 8 == p / 8
    | _ => true
  | .cm clu _ =>
    match sc with
    | .core => false
    | .cluster => clu == p / 8
    | _ => true
  | .station _ | .repl =>
    match sc with
    | .core | .cluster => false
    | _ => true

/-- The scope reaches a remote module. -/
def scopeRemote : FenceScope → Bool
  | .system => true
  | _ => false

/-- What a fence notes when it issues: the numbers that accesses and commands have reached, and the tile in transfer of
each streamer command of the strand. -/
def State.fenceNote (s : State) : List Answer :=
  .msg s.fab.nextNum s.nextCmd
    :: s.cmds.filterMap fun c => if c.sid = s.my.act.sid ∧ c.tileOpen then some (.msg c.id c.tileNo) else none

/-- Accesses of the core made before number `n` that have not been performed. -/
def State.accessesOwed (s : State) (from_ : FenceClass) (sc : FenceScope) (n : Nat) : Bool :=
  (s.fab.issue ++ s.fab.bufs).any fun a =>
    a.src == s.cur.1 && decide (a.num < n) && fenceNames from_ a.path && scopeCovers sc s.cur.1 a.home
      && (match a.op with | .close _ => false | _ => true)

/-- Stores still in sq, and writes to replicated pages not yet committed (16 R249). -/
def State.storesOwed (s : State) (from_ : FenceClass) (sc : FenceScope) : Bool :=
  fenceNames from_ .core
    && (!s.my.q.sq.isEmpty || (scopeCovers sc s.cur.1 .repl && s.fab.repl.any fun w => w.party == .core s.cur.1))

/-- Messages and deposits of the strand sent before number `n` that no inbox or mailbox has taken. -/
def State.messagesOwed (s : State) (from_ : FenceClass) (sc : FenceScope) (n : Nat) : Bool :=
  fenceNames from_ .mbx && s.fab.net.any fun k =>
    k.src == s.cur.1 && k.sid == s.my.act.sid && decide (k.num < n)
      && (match k.body with | .active _ _ _ | .deposit _ _ _ | .gauss _ _ _ _ _ _ _ | .reply _ _ _ _ => true | _ => false)
      && (match s.parsePlace k.dst with | .core _ _ => scopeCovers sc s.cur.1 (.cp k.dst 0) | _ => scopeRemote sc)

/-- The homes that own element `i` of a pattern, mapped there or not: a global address has its station's, and a register
window its core's. -/
def State.elemOwners (s : State) (c : Cmd) (p : Pat) (kind : AccKind) (i : Nat) : List Home :=
  s.elemHomes c p kind i ++ (p.touches kind (p.index i).toNat).filterMap fun e =>
    match s.engLocate c p.space e.1 e.2 kind with
    | .ok l => some l.home
    | .error _ => none

/-- The homes of the data writes that a command has still to make, with its follow-on store's. -/
def State.writeHomes (s : State) (c : Cmd) : List Home :=
  let data := c.unlanded.flatMap (s.elemOwners c c.dst c.writeKind)
  let follow : List Home :=
    match c.kind, c.followWord with
    | .cpym, some (.mstacc _ _ cm _ _ _ _ _) => [if cm then .cm (c.issuer / 8) 0 else .cp c.issuer 0]
    | _, _ => []
  data ++ follow

/-- A command may still write. -/
def Phase.open_ : Phase → Bool
  | .landed _ | .done => false
  | _ => true

/-- A command of the strand owes a write to a home of the scope, or the commit of one to a replicated page (16 R247). -/
def State.commandOwes (s : State) (sc : FenceScope) (note : List Answer) (c : Cmd) : Bool :=
  let inScope (h : Home) : Bool := scopeCovers sc s.cur.1 h
  inScope .repl && s.uncommitted c.id ||
  match c.kind with
  | .unsub => false
  | .sub =>
    note.contains (.msg c.id c.tileNo) && c.tileOpen
      && inScope (if ringSpace c.ringBody = 0 then .cp c.issuer 0 else .cm (c.issuer / 8) 0)
  | .drain =>
    note.contains (.msg c.id c.tileNo) && c.tileOpen
      && (c.tileElems.any fun i => (s.elemOwners c c.src .w i).any inScope)
  | .rlc => c.phase.open_ && inScope (.cm (c.issuer / 8) 0)
  | _ =>
    c.phase.open_
      && (if c.remoteDst then scopeRemote sc else (s.writeHomes c).any inScope)

/-- The fence's condition. -/
def State.fenceMet (s : State) (from_ : FenceClass) (sc : FenceScope) (note : List Answer) : Bool :=
  match note with
  | .msg n nc :: rest =>
    !s.accessesOwed from_ sc n && !s.storesOwed from_ sc && !s.messagesOwed from_ sc n
      && !(s.cmds.any fun c =>
        c.sid == s.my.act.sid && decide (c.id < nc) && fenceNames from_ c.kind.path && s.commandOwes sc rest c)
  | _ => true

/-- What a completed fence covers joins what the strand publishes with its next release (16 R245, R247). -/
def State.covered (s : State) (from_ : FenceClass) (sc : FenceScope) (note : List Answer) : State :=
  match note with
  | .msg n c :: _ => s.addPub (.strand s.my.act.sid) ⟨[], [], [⟨s.my.act.sid, from_, sc, n, c⟩]⟩
  | _ => s

/-- The fence closes the interval when it completes. No later access of its sequencer issues before it does, whatever TO
names. -/
def fenceBody (from_ : FenceClass) (sc : FenceScope) : M Next := do
  drainSq
  let s ← getState
  let note := if s.seq.kept.isEmpty then s.fenceNote else s.seq.kept
  if s.fenceMet from_ sc note then
    setState (s.covered from_ sc note)
    syncPoint
  else fun s => .error (.wait ⟨.fence, 0, none, none⟩ (some (s.modSeq fun c => { c with kept := note })))
  pure .fall

def execFence (g : Guard) (src _dst : FenceClass) (scope : FenceScope) (s : State) :
    Host.Outcome State Fault Refusal :=
  perform 8 Need.any g (fenceBody src scope) s

end Sys2Proof.Machine
end

