-- ==== Sys2Proof/Machine/Memmap.lean ====
section
/-! DEFINITION. MEMMAP (24 R324, R326; 22 R308, R309): its updates, the frames of page tables, and the scrub pool (22
R313). -/

namespace Sys2Proof.Machine

/-! ## Frames (R313) -/

/-- 4 KiB frames of a station's memory. -/
def stationFrames : Nat := stationBytes / 4096

/-- The number of a station's frames in use once `n` consecutive ones are taken below the `used` top ones, none of them
retired (24 R330). -/
def usedAfter (bad : List Nat) (n : Nat) : Nat → Nat → Nat
  | 0, used => used + n
  | k + 1, used =>
    match bad.find? fun x => decide (stationFrames - (used + n) ≤ x) && decide (x < stationFrames - used) with
    | some x => usedAfter bad n k (stationFrames - x)
    | none => used + n

/-- The bytes of frames of a station zeroed. -/
def State.zeroFrames (s : State) (station frame n : Nat) : State :=
  let lo := Key.hbm station (frame * 4096)
  { s with mem := s.mem.filter fun c => !(decide (lo ≤ c.1) && decide (c.1 < lo + n * 4096)) }

/-- A frame of the scrub pool at a station. -/
def State.pooled (s : State) (station : Nat) : Option (Nat × Nat) := s.scrubbed.find? fun e => e.1 == station

/-- `n` consecutive zeroed frames of a station for a partition's tables: one from the scrub pool where it has one,
otherwise from the top of the station's memory downwards, zeroed in line. -/
def State.takeFrames (s : State) (pn station n : Nat) : State × Nat :=
  let note (s : State) (f : Nat) : State := s.modPart pn fun t => { t with
    frames := t.frames ++ (span f n).map fun x => (station, x) }
  match (if n = 1 then s.pooled station else none) with
  | some e => (note { s with scrubbed := s.scrubbed.erase e } e.2, e.2)
  | none =>
    let bad := (s.badFrames.filter fun e => e.1 == station).map (·.2)
    let used := usedAfter bad n bad.length (Table.get 0 s.frames station)
    let f := stationFrames - used
    (note (({ s with frames := Table.set s.frames station used } : State).zeroFrames station f n) f, f)

/-- The housekeeping kernel zeroes a freed frame in the background. -/
def execFrameScrub (station : Nat) (s : State) : Host.Outcome State Fault Refusal :=
  match s.dirty.find? fun e => e.1 == station with
  | none => .next s
  | some e =>
    .next (({ s with dirty := s.dirty.erase e, scrubbed := s.scrubbed ++ [e] } : State).zeroFrames e.1 e.2 1)

/-! ## Tables (22 R308) -/

/-- A 64-bit word of a station's memory written. -/
def State.setHbm64 (s : State) (station addr v : Nat) : State :=
  { s with mem := Memory.setAll s.mem ((span (Key.hbm station addr) 8).zip (leBytesOf 8 v)) }

/-- The size of a leaf and the shift of its index, by level. -/
def leafShift : Nat → Nat
  | 1 => 30
  | 2 => 21
  | _ => 12

/-- A table entry that names the next table, made where it does not. A frame is taken behind the slot of the table that
names it. -/
def State.nextTable (s : State) (pn slot addr : Nat) : State × Nat × Nat :=
  let e := s.hbm64 (s.slotStation slot) addr
  if pteOk e && !bitAt e 1 then (s, bitsAt e 52 7, bitsAt e 12 40 * 4096)
  else
    let (s, f) := s.takeFrames pn (s.slotStation slot) 1
    (s.setHbm64 (s.slotStation slot) addr (1 + f * 4096 + slot * 2 ^ 52), slot, f * 4096)

/-- The levels of tables below level 0 down to the table of a leaf's level. -/
def State.tablesTo (s : State) (pn a : Nat) : List Nat → Nat → Nat → State × Nat × Nat
  | [], slot, tab => (s, slot, tab)
  | sh :: rest, slot, tab =>
    let (s, slot', tab') := s.nextTable pn slot (tab + 8 * bitsAt a sh 9)
    s.tablesTo pn a rest slot' tab'

/-- The shifts of the tables between level 0 and a leaf's table. -/
def middleShifts : Nat → List Nat
  | 1 => []
  | 2 => [30]
  | _ => [30, 21]

/-- The leaf's entry in an existing tree, without making tables. -/
def State.leafEntry (s : State) (a : Nat) : List Nat → Nat → Nat → Option (Nat × Nat)
  | [], slot, tab => some (slot, tab)
  | sh :: rest, slot, tab =>
    let e := s.hbm64 (s.slotStation slot) (tab + 8 * bitsAt a sh 9)
    if pteOk e && !bitAt e 1 then s.leafEntry a rest (bitsAt e 52 7) (bitsAt e 12 40 * 4096) else none

/-! ## Updates (24 R326) -/

/-- An address of a leaf: aligned to its size, within the level-0 index of its process. -/
def leafOk (procs : Table (BitVec 128)) (proc : BitVec 16) (level addr : Nat) : Bool :=
  match findProc procs proc with
  | some e => decide (1 ≤ level) && decide (level ≤ 3) && addr % 2 ^ leafShift level == 0 && decide (addr < 2 ^ 57)
      && decide (bitsAt addr 39 18 < 2 ^ bitsAt e 64 5)
  | none => false

/-- A range entry's reserved bits are zero and its bounds whole. -/
def rangeOk (e : BitVec 256) : Bool :=
  let n := e.toNat
  bitsAt n 68 4 == 0 && bitsAt n 0 64 == 0 && bitsAt n 192 64 % 524288 == 0 && bitsAt n 128 64 % 524288 == 0

/-- A process-table entry is well formed, and makes no second entry with its PROC. -/
def procOk (procs : Table (BitVec 128)) (index : Nat) (e : BitVec 128) : Bool :=
  let n := e.toNat
  decide (index < 64) && bitsAt n 116 12 == 0 && bitsAt n 17 47 == 0
    && (!bitAt n 16 || (decide (1 ≤ bitsAt n 64 5) && decide (bitsAt n 64 5 ≤ 18)
      && !(procs.any fun x => x.1 != index && x.2.getLsbD 16 && x.2.extractLsb' 0 16 == e.extractLsb' 0 16)))

/-- An update is well formed for a process, with the process table as the updates before it leave it. -/
def updateOk (procs : Table (BitVec 128)) (proc : BitVec 16) (u : MapUpdate) : Bool :=
  match u with
  | .map level addr pte => leafOk procs proc level addr && pteOk pte.toNat && bitAt pte.toNat 1
  | .unmap level addr => leafOk procs proc level addr
  | .range slot index e => decide (slot < 128) && decide (index < 256) && rangeOk e
  | .process index e => procOk procs index e
  | .bad => false

/-- All updates are checked before any is applied. -/
def updatesOk (proc : BitVec 16) : Table (BitVec 128) → List MapUpdate → Bool
  | _, [] => true
  | procs, u :: us =>
    updateOk procs proc u
      && updatesOk proc (match u with
        | .process index e => Table.set procs index e
        | _ => procs) us

/-- A process-table entry's level-0 table taken from the scrub pool where ROOT is zero. -/
def State.rootTable (s : State) (pn : Nat) (e : BitVec 128) : State × BitVec 128 :=
  let n := e.toNat
  if bitAt n 16 && bitsAt n 76 40 == 0 then
    let slot := bitsAt n 69 7
    let (s, f) := s.takeFrames pn (s.slotStation slot) (max 1 (2 ^ bitsAt n 64 5 * 8 / 4096))
    (s, BitVec.ofNat 128 (n + f * 2 ^ 76))
  else (s, e)

/-- One update applied. -/
def State.applyUpdate (s : State) (pn : Nat) (proc : BitVec 16) (u : MapUpdate) : State :=
  let procs := (s.part pn).procs
  match u with
  | .map level addr pte =>
    match findProc procs proc with
    | none => s
    | some e =>
      let (s, slot, tab) := s.nextTable pn (bitsAt e 69 7) (bitsAt e 76 40 * 4096 + 8 * bitsAt addr 39 18)
      let (s, slot, tab) := s.tablesTo pn addr (middleShifts level) slot tab
      s.setHbm64 (s.slotStation slot) (tab + 8 * bitsAt addr (leafShift level) 9) pte.toNat
  | .unmap level addr =>
    match findProc procs proc with
    | none => s
    | some e =>
      let root := s.hbm64 (s.slotStation (bitsAt e 69 7)) (bitsAt e 76 40 * 4096 + 8 * bitsAt addr 39 18)
      if !pteOk root || bitAt root 1 then s
      else
        match s.leafEntry addr (middleShifts level) (bitsAt root 52 7) (bitsAt root 12 40 * 4096) with
        | none => s
        | some (slot, tab) =>
          let a := tab + 8 * bitsAt addr (leafShift level) 9
          let old := s.hbm64 (s.slotStation slot) a
          s.setHbm64 (s.slotStation slot) a (old - old % 2)
  | .range slot index e => s.modPart pn fun t => { t with ranges := Table.set t.ranges (s.slotStation slot * 256 + index) e }
  | .process index e =>
    let (s, e) := s.rootTable pn e
    s.modPart pn fun t => { t with procs := Table.set t.procs index e }
  | .bad => s

def State.applyUpdates (s : State) (pn : Nat) (proc : BitVec 16) (us : List MapUpdate) : State :=
  us.foldl (fun s u => s.applyUpdate pn proc u) s

/-! ## The command -/

/-- The processes that a tenant's BIND allows: those of the process-table entries that PMASK names. -/
def Part.allows (t : Part) (tn : Nat) (proc : BitVec 16) : Bool :=
  match Table.find t.tenants tn with
  | some x => t.procs.any fun e => x.pmask.getLsbD e.1 && e.2.getLsbD 16 && e.2.extractLsb' 0 16 == proc
  | none => false

/-- What a VF may issue. -/
def Part.vfMay (t : Part) (tn : Nat) (proc : BitVec 16) (u : MapUpdate) : Bool :=
  t.allows tn proc
    && (match u with
      | .range _ _ e => t.allows tn (e.extractLsb' 72 16)
      | .process _ _ => false
      | _ => true)

/-- MEMMAP with its updates: checked, then applied in order. -/
def State.memmap (s : State) (h : CmdHead) (proc : Nat) (us : List MapUpdate) : Host.Outcome State Fault Refusal :=
  s.tenantCmd h 32 (8 + 48 * us.length) fun pn tn s =>
    let t := s.part pn
    let id := BitVec.ofNat 16 proc
    let vf := match h.fn with
      | .vf _ => true
      | .pf _ => false
    if 65536 ≤ proc ∨ 64 < us.length then .next (s.refuseChain h .badcmd)
    else if vf && !us.all (t.vfMay tn id) then .next (s.refuseChain h .denied)
    else if !updatesOk id t.procs us then .next (s.refuseChain h .badcmd)
    else .next ((s.applyUpdates pn id us).answerCmd h .ok us.length [])

def execMemmapMap (h : CmdHead) (proc level : Nat) (addr : Nat) (pte : Word) (rest : List MapUpdate) (s : State) :
    Host.Outcome State Fault Refusal :=
  s.memmap h proc (.map level addr pte :: rest)

def execMemmapUnmap (h : CmdHead) (proc level : Nat) (addr : Nat) (rest : List MapUpdate) (s : State) :
    Host.Outcome State Fault Refusal :=
  s.memmap h proc (.unmap level addr :: rest)

def execMemmapRange (h : CmdHead) (proc slot index : Nat) (entry : BitVec 256) (rest : List MapUpdate) (s : State) :
    Host.Outcome State Fault Refusal :=
  s.memmap h proc (.range slot index entry :: rest)

def execMemmapProcess (h : CmdHead) (proc index : Nat) (entry : BitVec 128) (rest : List MapUpdate) (s : State) :
    Host.Outcome State Fault Refusal :=
  s.memmap h proc (.process index entry :: rest)

end Sys2Proof.Machine
end

