-- ==== Sys2Proof/Machine/Partitions.lean ====
section
/-! DEFINITION. Partitions and tenants from the host's side: CREATE, DESTROY, BIND, RESTITCH (22 R312, R313; 24 R325, R326;
01 R29), QUERY, RESTORE, KEEP (24 R324), and feature negotiation (R323). -/

namespace Sys2Proof.Machine

/-! ## CREATE (22 R313) -/

/-- A stitch, with the count of sub-rectangles that SUBTORUS alone has. DESIGN CHOICE (log 95): 2, 4 or 8 equal
sub-rectangles divide the rectangle's columns, and a count that does not divide them is refused; the manual does not say
how the rectangle is cut (01 R29, 24 R326). -/
def shapeOk (shape subn ncols : Nat) : Bool :=
  decide (shape ≤ 4) && (if shape = 3 then decide (1 ≤ subn) && decide (subn ≤ 3) && ncols % 2 ^ subn == 0 else subn == 0)

/-- The attributes that a body gives. -/
def bodyAttrs (b : CreateBody) : Attrs where
  clu := b.clu
  ncols := b.ncm1 + 1
  nrows := b.nrm1 + 1
  shape := b.shape
  subn := b.subn
  weight := b.weight
  tslice := b.tslice
  codeb := b.codeb
  codeSize := b.codeSize
  hcount := b.hcount
  htab := b.htab
  rtab := b.rtab
  wdogDef := b.wdogDef
  retryLim := b.retryLim
  avgThr := b.avgThr
  scount := b.scount
  debugHold := b.debugHold
  ingress := b.ingress.toNat
  proc0 := BitVec.ofNat 16 b.proc0

/-- The body's fields lie in their ranges (R326). -/
def State.bodyOk (s : State) (b : CreateBody) : Bool :=
  !b.rsvd && decide (b.partn ≤ 383) && (Table.find s.parts b.partn).isNone && decide (b.clu < 2048)
    && decide (b.clu % 64 + b.ncm1 < s.cols) && decide (b.clu / 64 + b.nrm1 < 32) && shapeOk b.shape b.subn (b.ncm1 + 1)
    && decide (1 ≤ b.weight) && decide (b.weight ≤ 255) && decide (b.scount ≤ 64) && decide (10000 ≤ b.tslice)
    && decide (b.tslice ≤ 10000000) && decide (1 ≤ b.wdogDef) && decide (b.wdogDef ≤ 65535)
    && decide (b.retryLim < 65536) && decide (b.avgThr < 65536) && b.codeb % 32 == 0 && b.codeSize % 32 == 0
    && decide (b.codeSize < 2 ^ 32) && decide (1 ≤ b.hcount) && decide (b.hcount ≤ 65536) && b.htab % 32 == 0
    && decide (1000000 ≤ b.period) && decide (b.period ≤ 1000000000) && decide (b.proc0 < 65536)
    && ({ Part.blank with attrs := bodyAttrs b } : Part).hasCore b.ingress.toNat
    && updatesOk (BitVec.ofNat 16 b.proc0) [] b.image

/-- Every cluster of the rectangle has a physical cluster and belongs to no partition. -/
def State.clustersFree (s : State) (cs : List Nat) : Bool :=
  cs.all fun c => (s.pcnOf c).isSome && s.parts.all fun e => !e.2.holds? c

/-- Step 4: the place entries and permission words of a partition's clusters name exactly its clusters; an absent
cluster's entry says so (01 R11, R13). -/
def State.writeTables (s : State) (cs : List Nat) : State :=
  let place := (cs ++ s.absent).foldl (fun (t : Table (BitVec 16)) c => Table.set t c (s.entryOf c)) []
  let perm := cs.foldl (fun (t : Table Word) c =>
    Table.set t (c / 64) (Table.get 0 t (c / 64) ||| BitVec.ofNat 64 (2 ^ (c % 64)))) []
  cs.foldl (fun s c => s.modClus c fun _ => { Cluster.reset with place := place, perm := perm }) s

/-- The seven steps. -/
def State.createPart (s : State) (b : CreateBody) : State :=
  let t : Part := { Part.blank with
    attrs := bodyAttrs b, tenants := [(0, ⟨none, 0, [], none⟩)], created := s.tick, period := b.period
    usageAt := s.tick + b.period, exchangeAt := s.tick + 1024, sliceAt := s.tick + b.tslice }
  let s := (s.setPart b.partn t).zeroChip b.partn
  let s := s.writeTables t.clusOf
  let s := t.coresOf.foldl (fun s p => s.modCore p fun c => { c with part := some b.partn }) s
  s.applyUpdates b.partn (BitVec.ofNat 16 b.proc0) b.image

def execCreate (h : CmdHead) (b : CreateBody) (s : State) : Host.Outcome State Fault Refusal :=
  s.command h 32 96 true fun s =>
    if !s.bodyOk b then .next (s.refuseChain h .badcmd)
    else if !s.clustersFree ({ Part.blank with attrs := bodyAttrs b } : Part).clusOf then
      .next (s.refuseChain h .nospace)
    else .next ((s.createPart b).refuseChain h .ok)

/-! ## KEEP (24 R324) -/

/-- A record written to NVMe. -/
def State.storeImage (s : State) (r : Save) : State × Word :=
  let handle := Config.imageHandle s.host.images.length
  ({ s with host := { s.host with images := s.host.images ++ [(handle, r)] } }, handle)

def execKeep (h : CmdHead) (s : State) : Host.Outcome State Fault Refusal :=
  s.tenantCmd h 32 0 fun pn tn s =>
    match (Table.find (s.part pn).tenants tn).bind (·.saved) with
    | none => .next (s.refuseChain h .notfound)
    | some r =>
      let (s, handle) := s.storeImage r
      .next (s.answerCmd h .ok 0 (leBytesOf 8 handle.toNat ++ leBytesOf 8 (64 + r.body.length)))

/-! ## DESTROY (24 R325) -/

/-- The records of every tenant written to NVMe, that of the present tenant made first. -/
def State.keepAll (s : State) (pn : Nat) : State :=
  let s := s.saveTenant pn
  (s.part pn).tenants.foldl (fun s e =>
    match e.2.saved with
    | some r => (s.storeImage r).1
    | none => s) s

/-- The launches in flight end with ABORTED: the present tenant's, and those of tenants that are sliced out. -/
def State.abortLaunch (s : State) (pn : Nat) : State :=
  let s := (s.part pn).slicedOut.foldl (fun s e =>
    s.postResult pn e.1.by_ Status.ok.code (({ e.1 with aborted := true } : Launch).flags e.2.unfired) e.2.unfired
      e.1.prm.lid.toNat) s
  match (s.part pn).launch with
  | some l => s.completeLaunch pn { l with aborted := true } .ok
  | none => s

def execDestroy (h : CmdHead) (partn : Nat) (keepIt : Bool) (s : State) : Host.Outcome State Fault Refusal :=
  s.partCmd h 32 8 partn (decide (partn ≤ 383)) fun _ s =>
    let s := if keepIt then s.keepAll partn else s
    .next ((((s.abortLaunch partn).emitUsage partn true).removePart partn).refuseChain h .ok)

/-! ## BIND (22 R312, 24 R325) -/

/-- The number of a virtual function. -/
def vfNumber (port vf : Nat) : Nat := 192 * port + vf

/-- A BIND body's fields lie in their ranges. -/
def bindOk (partn tenant port vf : Nat) : Bool :=
  decide (partn ≤ 383) && decide (tenant ≤ 255) && decide (port ≤ 1) && decide (vf ≤ 191)

/-- A virtual function no longer bound, its virtqueues reset. -/
def State.unbindVf (s : State) (n : Nat) : State :=
  { s with host := { s.host with
      bindings := Table.drop s.host.bindings n
      results := s.host.results.filter fun r => r.fn != .vf n
      queues := Table.drop s.host.queues (queueKey (.vf n) 0)
      featuresOk := s.host.featuresOk.filter fun e => e.1 != .vf n } }

/-- A tenant, made where the partition has none of its number, with its VF and PMASK. -/
def State.bindTenant (s : State) (pn tn n : Nat) (pmask : Word) : State :=
  let x := (Table.find (s.part pn).tenants tn).getD ⟨none, 0, [], none⟩
  let s := match x.vf with
    | some m => if m = n then s else s.unbindVf m
    | none => s
  ({ s with host := { s.host with bindings := Table.set s.host.bindings n (pn, tn) } } : State).modPart pn fun t => { t with
    tenants := Table.set t.tenants tn { x with vf := some n, pmask := pmask } }

def execBind (h : CmdHead) (partn tenant port vf : Nat) (pmask : Word) (s : State) :
    Host.Outcome State Fault Refusal :=
  s.partCmd h 32 16 partn (bindOk partn tenant port vf) fun _ s =>
    let n := vfNumber port vf
    match Table.find s.host.bindings n with
    | some b =>
      if b = (partn, tenant) then .next ((s.bindTenant partn tenant n pmask).refuseChain h .ok)
      else .next (s.refuseChain h .busy)
    | none => .next ((s.bindTenant partn tenant n pmask).refuseChain h .ok)

def execUnbind (h : CmdHead) (partn tenant port vf : Nat) (s : State) : Host.Outcome State Fault Refusal :=
  s.partCmd h 32 16 partn (bindOk partn tenant port vf) fun _ s =>
    let n := vfNumber port vf
    if Table.find s.host.bindings n = some (partn, tenant) then
      .next (((s.unbindVf n).modTenant partn tenant fun x => { x with vf := none }).refuseChain h .ok)
    else .next (s.refuseChain h .notfound)

/-! ## RESTITCH (01 R29) -/

def execRestitch (h : CmdHead) (partn shape subn : Nat) (s : State) : Host.Outcome State Fault Refusal :=
  s.partCmd h 32 8 partn (decide (partn ≤ 383)) fun t s =>
    if !shapeOk shape subn t.attrs.ncols then .next (s.refuseChain h .badcmd)
    else if t.inFlight then .next (s.refuseChain h .busy)
    else .next ((s.modPart partn fun t => { t with attrs := { t.attrs with shape := shape, subn := subn } }).refuseChain h .ok)

/-! ## QUERY (24 R324) -/

/-- The module feature mask: the OR of the masks of all active cores (01 R25). -/
def State.moduleMask (s : State) : Nat :=
  (s.cores.foldl (fun (m : BitVec 16) e => if e.2.state != 2 then m ||| e.2.feat else m) 0).toNat

/-- Bytes 16 to 63 of the QUERY result. -/
def State.queryBytes (s : State) (pn tn : Nat) : List Byte :=
  let t := s.part pn
  leBytesOf 2 s.cols ++ leBytesOf 2 32 ++ leBytesOf 2 (16 * s.nStacks) ++ leBytesOf 2 s.moduleMask
    ++ leBytesOf 1 s.gov.g.val ++ leBytesOf 1 s.nStacks ++ leBytesOf 2 pn ++ leBytesOf 2 t.attrs.clu
    ++ leBytesOf 1 (t.attrs.ncols - 1) ++ leBytesOf 1 (t.attrs.nrows - 1) ++ leBytesOf 1 t.attrs.shape
    ++ leBytesOf 1 t.attrs.subn ++ leBytesOf 1 tn ++ leBytesOf 1 t.attrs.scount ++ leBytesOf 4 0
    ++ leBytesOf 8 (Config.meterAddr pn) ++ leBytesOf 8 (Config.speedTableAddr pn) ++ leBytesOf 8 0

def execQuery (h : CmdHead) (s : State) : Host.Outcome State Fault Refusal :=
  s.tenantCmd h 64 0 fun pn tn s => .next (s.answerCmd h .ok 0 (s.queryBytes pn tn))

/-! ## RESTORE (22 R304, R305) -/

/-- The partition and the tenant that a record's header names (R303). -/
def Save.of (r : Save) : Nat × Nat := (bitsAt r.header.toNat 80 9, bitsAt r.header.toNat 72 8)

/-- The record that a RESTORE names. A VF reaches its own tenant's images only (24 R322). -/
def State.recordNamed (s : State) (fn : HostFn) (pn tn source image : Nat) : Except Status Save :=
  if source = 0 then
    match (Table.find (s.part pn).tenants tn).bind (·.saved) with
    | some r => .ok r
    | none => .error .notfound
  else
    match s.host.images.find? fun e => e.1.toNat == image, fn with
    | none, _ => .error .notfound
    | some e, .vf _ => if e.2.of = (pn, tn) then .ok e.2 else .error .denied
    | some e, .pf _ => .ok e.2

/-- A record restored for a tenant: its state where the tenant is sliced in, and otherwise what its next slice starts
from. -/
def State.restoreTenant (s : State) (pn tn : Nat) (r : Save) : State :=
  if (s.part pn).tenant = tn then
    ({ s.zeroChip pn with cmds := s.cmds.filter fun c => c.part != pn || c.phase == .done } : State).loadSave pn r
  else s.modTenant pn tn fun x => { x with saved := some r }

def execRestore (h : CmdHead) (source : Nat) (image : Nat) (s : State) : Host.Outcome State Fault Refusal :=
  s.tenantCmd h 32 16 fun pn tn s =>
    if 1 < source ∨ (source = 0 ∧ image ≠ 0) then .next (s.refuseChain h .badcmd)
    else
      match s.recordNamed h.fn pn tn source image with
      | .error st => .next (s.refuseChain h st)
      | .ok r =>
        match s.restoreStatus pn r with
        | some st => .next (s.refuseChain h st)
        | none => .next ((s.restoreTenant pn tn r).answerCmd h .ok 0 (leBytesOf 2 r.layout.toNat))

/-! ## FEATURES_OK (24 R323) -/

/-- The feature bit of packed virtqueues in the VIRTIO 1.2 specification. -/
def ringPacked : Nat := 34

/-- The feature bits that every function offers (VIRTIO 1.2): indirect descriptors and event indexes. -/
def offeredFeatures : List Nat := [28, 29]

/-- A function that boot has published: in recovery the management PF alone; otherwise the PFs and the bound VFs. -/
def State.published (s : State) (fn : HostFn) : Bool :=
  s.fw.booted
    && (match fn with
      | .pf i => !s.fw.recovery || i == 0
      | .vf n => !s.fw.recovery && (Table.find s.host.bindings n).isSome)

/-- The driver sets FEATURES_OK; it fails where RING_PACKED is set. -/
def execFeaturesOk (fn : HostFn) (features : Word) (s : State) : Host.Outcome State Fault Refusal :=
  if s.published fn then
    .next { s with host := { s.host with
      featuresOk := (s.host.featuresOk.filter fun e => e.1 != fn) ++ [(fn, !features.getLsbD ringPacked)] } }
  else .next s

end Sys2Proof.Machine
end

