-- ==== Sys2Proof/Machine/Scalar.lean ====
section
/-! DEFINITION. The integer, move, address, compare and bit instructions (08 R111 to R116). -/

namespace Sys2Proof.Machine

/-! ## Shared operations -/

/-- An integer instruction of width w (R113): `f w a b k` is the result before reduction. -/
def integerOp (x : XT) (d : Opnd) (readA readB : M Word) (f : Nat → Nat → Nat → Nat → Int) : M Next := do
  let w := widthOf x
  let a ← readA
  let b ← readB
  let r := f w (a.toNat % 2 ^ w) (b.toNat % 2 ^ w) (b.toNat % 2 ^ w % w)
  dst d (extendAs x w (r % (2 ^ w : Nat)).toNat)
  pure .fall

/-- A register form of R112. -/
def intReg (g : Guard) (x : XT) (d a b : Opnd) (f : Nat → Nat → Nat → Nat → Int) (s : State) :
    Host.Outcome State Fault Refusal :=
  perform 8 (needOps [a, b] [d] 0) g (integerOp x d (src a) (src b) f) s

/-- An immediate form of R112: the sign-extended I takes B's place. -/
def intImm (g : Guard) (x : XT) (d a : Reg) (i : BitVec 24) (f : Nat → Nat → Nat → Nat → Int) (s : State) :
    Host.Outcome State Fault Refusal :=
  perform 8 Need.any g (integerOp x (.reg d) (readS a) (pure (i.signExtend 64)) f) s

/-- Divide of 05 R66: the quotient rounded toward zero, and the remainder, with the corners it names. -/
def divideInt (w : Nat) (signed : Bool) (a b : Int) : Int × Int :=
  if b = 0 then ((2 ^ w : Nat) - 1, a)
  else if signed && decide (a = -(2 ^ (w - 1) : Nat)) && decide (b = -1) then (-(2 ^ (w - 1) : Nat), 0)
  else (a.tdiv b, a - a.tdiv b * b)

/-- A number's bits combined bitwise. -/
def bitwise (f : Word → Word → Word) (a b : Nat) : Int := (f (BitVec.ofNat 64 a) (BitVec.ofNat 64 b)).toNat

/-! ## Results before reduction (R113) -/

def resAdd (_ a b _ : Nat) : Int := a + b
def resSub (_ a b _ : Nat) : Int := (a : Int) - b
def resMul (_ a b _ : Nat) : Int := a * b
def resMulh (w a b _ : Nat) : Int := sval w a * sval w b / (2 ^ w : Nat)
def resMulhz (w a b _ : Nat) : Int := a * b / 2 ^ w
def resDiv (w a b _ : Nat) : Int := (divideInt w true (sval w a) (sval w b)).1
def resDivz (w a b _ : Nat) : Int := (divideInt w false a b).1
def resRem (w a b _ : Nat) : Int := (divideInt w true (sval w a) (sval w b)).2
def resRemz (w a b _ : Nat) : Int := (divideInt w false a b).2
def resAnd (_ a b _ : Nat) : Int := bitwise (· &&& ·) a b
def resOr (_ a b _ : Nat) : Int := bitwise (· ||| ·) a b
def resXor (_ a b _ : Nat) : Int := bitwise (· ^^^ ·) a b
def resAndn (_ a b _ : Nat) : Int := bitwise (fun u v => u &&& ~~~ v) a b
def resShl (_ a _ k : Nat) : Int := a * 2 ^ k
def resShr (_ a _ k : Nat) : Int := a / 2 ^ k
def resSra (w a _ k : Nat) : Int := sval w a / (2 ^ k : Nat)
def resRol (w a _ k : Nat) : Int := a * 2 ^ k + a / 2 ^ (w - k)
def resMin (w a b _ : Nat) : Int := min (sval w a) (sval w b)
def resMax (w a b _ : Nat) : Int := max (sval w a) (sval w b)
def resMinz (_ a b _ : Nat) : Int := min a b
def resMaxz (_ a b _ : Nat) : Int := max a b

/-! ## No effect (R111) -/

/-- `nop`. -/
def execNop (s : State) : Host.Outcome State Fault Refusal := performWith 8 Need.any true (pure .fall) s

/-- The short nop of 07 R83. -/
def execShortNop (s : State) : Host.Outcome State Fault Refusal := performWith 4 Need.any true (pure .fall) s

/-- A word that is no instruction raises ILLEGAL-ENCODING (07 R94, R96). -/
def execIllegalEncoding (_ : BadEncoding) (s : State) : Host.Outcome State Fault Refusal :=
  .next (s.takeTrap .illegalEncoding none .none)

/-! ## `end` (R111, 01 R17, 10 R143) -/

/-- The queues that still hold an entry, as R17 puts them in TVAL. -/
def Queues.left (q : Queues) : Nat :=
  b2n (!(q.lq[0]).isEmpty) + 2 * b2n (!(q.lq[1]).isEmpty) + 4 * b2n (!(q.lq[2]).isEmpty)
    + 8 * b2n (!(q.lq[3]).isEmpty) + 16 * b2n (!q.sq.isEmpty) + 32 * b2n (!q.bqa.isEmpty) + 64 * b2n (!q.bqx.isEmpty)

/-- A part that has finished: its registers cease to exist. -/
def Seq.finished : Seq := { Seq.reset with present := true }

/-- Every stream stops at the end of the XS part (12 R179). -/
def State.stopStreams (s : State) : State :=
  if s.cur.2 = .xs then s.modMy fun t => { t with vec := { t.vec with streams := [] } } else s

/-- `end`: the AS first performs every sq entry; the last part's end checks the queues, releases, and ends the
strand. -/
def endBody : M Next := fun s =>
  let t := s.my
  if s.cur.2 = .as && !t.q.sq.isEmpty then waitFor (.queue 4) s
  else if !(t.seq (otherSeq s.cur.2)).gone then
    .error (.own (((s.closeInterval s.cur.1).modSeq fun _ => Seq.finished).stopStreams))
  else if t.q.left != 0 then
    .error (.own ((s.modMy fun t => { t with q := Queues.reset }).takeTrap .queueMisuse
      (some (BitVec.ofNat 64 (256 + t.q.left))) .none))
  else (do
    release
    modState fun s => (s.publish (.launch (s.partNo s.cur.1))).endStrand s.cur.1 false
    endOwn) s
where
  endOwn : M Next := fun s => .error (.own s)

def execEndPart (g : Guard) (s : State) : Host.Outcome State Fault Refusal := perform 8 Need.any g endBody s

/-! ## Integer instructions (R112, R113) -/

def execAdd (g : Guard) (x : XT) (d a b : Opnd) (s : State) : Host.Outcome State Fault Refusal :=
  intReg g x d a b resAdd s

def execSub (g : Guard) (x : XT) (d a b : Opnd) (s : State) : Host.Outcome State Fault Refusal :=
  intReg g x d a b resSub s

def execMul (g : Guard) (x : XT) (d a b : Opnd) (s : State) : Host.Outcome State Fault Refusal :=
  intReg g x d a b resMul s

def execMulh (g : Guard) (x : XT) (d a b : Opnd) (s : State) : Host.Outcome State Fault Refusal :=
  intReg g x d a b resMulh s

def execMulhz (g : Guard) (x : XT) (d a b : Opnd) (s : State) : Host.Outcome State Fault Refusal :=
  intReg g x d a b resMulhz s

def execDiv (g : Guard) (x : XT) (d a b : Opnd) (s : State) : Host.Outcome State Fault Refusal :=
  intReg g x d a b resDiv s

def execDivz (g : Guard) (x : XT) (d a b : Opnd) (s : State) : Host.Outcome State Fault Refusal :=
  intReg g x d a b resDivz s

def execRem (g : Guard) (x : XT) (d a b : Opnd) (s : State) : Host.Outcome State Fault Refusal :=
  intReg g x d a b resRem s

def execRemz (g : Guard) (x : XT) (d a b : Opnd) (s : State) : Host.Outcome State Fault Refusal :=
  intReg g x d a b resRemz s

def execAnd (g : Guard) (x : XT) (d a b : Opnd) (s : State) : Host.Outcome State Fault Refusal :=
  intReg g x d a b resAnd s

def execOr (g : Guard) (x : XT) (d a b : Opnd) (s : State) : Host.Outcome State Fault Refusal :=
  intReg g x d a b resOr s

def execXor (g : Guard) (x : XT) (d a b : Opnd) (s : State) : Host.Outcome State Fault Refusal :=
  intReg g x d a b resXor s

def execAndn (g : Guard) (x : XT) (d a b : Opnd) (s : State) : Host.Outcome State Fault Refusal :=
  intReg g x d a b resAndn s

def execShl (g : Guard) (x : XT) (d a b : Opnd) (s : State) : Host.Outcome State Fault Refusal :=
  intReg g x d a b resShl s

def execShr (g : Guard) (x : XT) (d a b : Opnd) (s : State) : Host.Outcome State Fault Refusal :=
  intReg g x d a b resShr s

def execSra (g : Guard) (x : XT) (d a b : Opnd) (s : State) : Host.Outcome State Fault Refusal :=
  intReg g x d a b resSra s

def execRol (g : Guard) (x : XT) (d a b : Opnd) (s : State) : Host.Outcome State Fault Refusal :=
  intReg g x d a b resRol s

def execMin (g : Guard) (x : XT) (d a b : Opnd) (s : State) : Host.Outcome State Fault Refusal :=
  intReg g x d a b resMin s

def execMax (g : Guard) (x : XT) (d a b : Opnd) (s : State) : Host.Outcome State Fault Refusal :=
  intReg g x d a b resMax s

def execMinz (g : Guard) (x : XT) (d a b : Opnd) (s : State) : Host.Outcome State Fault Refusal :=
  intReg g x d a b resMinz s

def execMaxz (g : Guard) (x : XT) (d a b : Opnd) (s : State) : Host.Outcome State Fault Refusal :=
  intReg g x d a b resMaxz s

def execAddi (g : Guard) (x : XT) (d a : Reg) (i : BitVec 24) (s : State) : Host.Outcome State Fault Refusal :=
  intImm g x d a i resAdd s

def execAndi (g : Guard) (x : XT) (d a : Reg) (i : BitVec 24) (s : State) : Host.Outcome State Fault Refusal :=
  intImm g x d a i resAnd s

def execOri (g : Guard) (x : XT) (d a : Reg) (i : BitVec 24) (s : State) : Host.Outcome State Fault Refusal :=
  intImm g x d a i resOr s

def execXori (g : Guard) (x : XT) (d a : Reg) (i : BitVec 24) (s : State) : Host.Outcome State Fault Refusal :=
  intImm g x d a i resXor s

def execShli (g : Guard) (x : XT) (d a : Reg) (i : BitVec 24) (s : State) : Host.Outcome State Fault Refusal :=
  intImm g x d a i resShl s

def execShri (g : Guard) (x : XT) (d a : Reg) (i : BitVec 24) (s : State) : Host.Outcome State Fault Refusal :=
  intImm g x d a i resShr s

def execSrai (g : Guard) (x : XT) (d a : Reg) (i : BitVec 24) (s : State) : Host.Outcome State Fault Refusal :=
  intImm g x d a i resSra s

def execRoli (g : Guard) (x : XT) (d a : Reg) (i : BitVec 24) (s : State) : Host.Outcome State Fault Refusal :=
  intImm g x d a i resRol s

def execMuli (g : Guard) (x : XT) (d a : Reg) (i : BitVec 24) (s : State) : Host.Outcome State Fault Refusal :=
  intImm g x d a i resMul s

/-! ## Moves and addresses (R114 to R116) -/

def execMovi (g : Guard) (d : Reg) (j : BitVec 32) (s : State) : Host.Outcome State Fault Refusal :=
  perform 12 Need.any g (do writeS d (j.signExtend 64); pure .fall) s

/-- D[31:0] is read before D is written (07 R98). -/
def execMovw (g : Guard) (d : Reg) (j : BitVec 32) (s : State) : Host.Outcome State Fault Refusal :=
  perform 12 Need.any g (do
    let old ← readS d
    writeS d (j ++ old.extractLsb' 0 32)
    pure .fall) s

/-- The source's low w bits extended: `mov`, `sext`, `zext`. -/
def extendOp (x : XT) (d a : Opnd) : M Next := do
  let v ← src a
  dst d (extendAs x (widthOf x) v.toNat)
  pure .fall

def execMov (g : Guard) (x : XT) (d a : Opnd) (s : State) : Host.Outcome State Fault Refusal :=
  perform 8 (needOps [a] [d] 0) g (extendOp x d a) s

def execLea (g : Guard) (d a b : Opnd) (sc : Fin 4) (disp : BitVec 10) (s : State) :
    Host.Outcome State Fault Refusal :=
  perform 8 (needOps [a, b] [d] 0) g (do
    let u ← src a
    let v ← src b
    dst d (u + v * BitVec.ofNat 64 (2 ^ sc.val) + disp.signExtend 64)
    pure .fall) s

def execRdtick (g : Guard) (d : Reg) (s : State) : Host.Outcome State Fault Refusal :=
  perform 8 Need.any g (do
    let st ← getState
    writeS d (BitVec.ofNat 64 st.tick)
    pure .fall) s

/-! ## Compare, select and bits (R115) -/

/-- The CC relations of `cmp`. -/
def Cond.holds (c : Cond) (a b : Int) : Bool :=
  match c with
  | .eq => decide (a = b)
  | .ne => decide (a ≠ b)
  | .lt => decide (a < b)
  | .ge => decide (b ≤ a)
  | .le => decide (a ≤ b)
  | .gt => decide (b < a)

/-- A w-bit operand as its code values it: S for signed codes, U for the others. -/
def intValue (x : XT) (v : Nat) : Int := if x.isSigned then sval (widthOf x) v else (v % 2 ^ widthOf x : Nat)

def execCmp (g : Guard) (x : XT) (kd : Fin 8) (cc : Cond) (a b : Opnd) (s : State) :
    Host.Outcome State Fault Refusal :=
  perform 8 (needOps [a, b] [] 0) g (do
    let u ← src a
    let v ← src b
    writeFlag kd (Cond.holds cc (intValue x u.toNat) (intValue x v.toNat))
    pure .fall) s

/-- Both sources are read, and popped, whatever the predicate holds. -/
def execSel (g : Guard) (d a b : Opnd) (kc : Fin 8) (s : State) : Host.Outcome State Fault Refusal :=
  perform 8 (needOps [a, b] [d] 0) g (do
    let u ← src a
    let v ← src b
    let k ← readK kc
    dst d (if k.getLsbD 0 then u else v)
    pure .fall) s

/-- A count of a w-bit source written to D, extended by R108. -/
def countOp (x : XT) (d a : Opnd) (f : Nat → Nat → Nat) : M Next := do
  let w := widthOf x
  let v ← src a
  dst d (extendAs x w (f w (v.toNat % 2 ^ w)))
  pure .fall

/-- Zero bits below the lowest one bit, of `n` bits. -/
def trailing : Nat → Nat → Nat
  | 0, _ => 0
  | n + 1, v => if v % 2 = 1 then 0 else 1 + trailing n (v / 2)

/-- One bits among the lowest `n`. -/
def ones : Nat → Nat → Nat
  | 0, _ => 0
  | n + 1, v => v % 2 + ones n (v / 2)

def execClz (g : Guard) (x : XT) (d a : Opnd) (s : State) : Host.Outcome State Fault Refusal :=
  perform 8 (needOps [a] [d] 0) g (countOp x d a fun w v => w - bitLen v) s

def execCtz (g : Guard) (x : XT) (d a : Opnd) (s : State) : Host.Outcome State Fault Refusal :=
  perform 8 (needOps [a] [d] 0) g (countOp x d a trailing) s

def execPopc (g : Guard) (x : XT) (d a : Opnd) (s : State) : Host.Outcome State Fault Refusal :=
  perform 8 (needOps [a] [d] 0) g (countOp x d a ones) s

def execBfx (g : Guard) (x : XT) (d a : Opnd) (pos lm1 : Fin 64) (s : State) : Host.Outcome State Fault Refusal :=
  perform 8 (needOps [a] [d] 0) g (do
    let v ← src a
    dst d (extendAs x (lm1.val + 1) (bitsAt v.toNat pos.val (lm1.val + 1)))
    pure .fall) s

/-- The bits POS + LM1 down to POS of a word replaced by the low bits of another. -/
def insertField (old new pos len : Nat) : Nat :=
  old % 2 ^ pos + new % 2 ^ len * 2 ^ pos + old / 2 ^ (pos + len) * 2 ^ (pos + len)

def execBfi (g : Guard) (d : Reg) (a : Opnd) (pos lm1 : Fin 64) (s : State) : Host.Outcome State Fault Refusal :=
  perform 8 (needOps [a] [] 0) g (do
    let v ← src a
    let old ← readS d
    writeS d (BitVec.ofNat 64 (insertField old.toNat v.toNat pos.val (lm1.val + 1)))
    pure .fall) s

def execSext (g : Guard) (x : XT) (d a : Opnd) (s : State) : Host.Outcome State Fault Refusal :=
  perform 8 (needOps [a] [d] 0) g (extendOp x d a) s

def execZext (g : Guard) (x : XT) (d a : Opnd) (s : State) : Host.Outcome State Fault Refusal :=
  perform 8 (needOps [a] [d] 0) g (extendOp x d a) s

end Sys2Proof.Machine
end

