-- ==== Sys2Proof/Machine/ScalarFp.lean ====
section
/-! DEFINITION. The scalar FP instructions (08 R117 to R122), on the XS only. -/

namespace Sys2Proof.Machine

/-- The result of R118: zero-extended from the format's width, its flags ORed into FPSTAT. -/
def fpResult (x : XT) (d : Opnd) (r : Nat × Flags) : M Next := do
  dst d (BitVec.ofNat 64 (r.1 % 2 ^ widthOf x))
  raise r.2
  pure .fall

/-- The low w bits of a source. -/
def fpSource (x : XT) (o : Opnd) : M Nat := do
  let v ← src o
  pure (v.toNat % 2 ^ widthOf x)

/-- A two-operand FP instruction: `f` takes the format, the rounding mode and the operands. -/
def fpBinary (g : Guard) (x : XT) (d a b : Opnd) (f : XT → Nat → Nat → Nat → Nat × Flags) (s : State) :
    Host.Outcome State Fault Refusal :=
  perform 8 (needXs [a, b] [d] (fp64Bit x)) g (do
    let u ← fpSource x a
    let v ← fpSource x b
    let rm ← roundMode
    fpResult x d (f x rm u v)) s

def execFadd (g : Guard) (x : XT) (d a b : Opnd) (s : State) : Host.Outcome State Fault Refusal :=
  fpBinary g x d a b fAdd s

def execFsub (g : Guard) (x : XT) (d a b : Opnd) (s : State) : Host.Outcome State Fault Refusal :=
  fpBinary g x d a b fSub s

def execFmul (g : Guard) (x : XT) (d a b : Opnd) (s : State) : Host.Outcome State Fault Refusal :=
  fpBinary g x d a b fMul s

def execFdiv (g : Guard) (x : XT) (d a b : Opnd) (s : State) : Host.Outcome State Fault Refusal :=
  fpBinary g x d a b fDiv s

def execFmin (g : Guard) (x : XT) (d a b : Opnd) (s : State) : Host.Outcome State Fault Refusal :=
  fpBinary g x d a b (fun x _ u v => fMinMax x false u v) s

def execFmax (g : Guard) (x : XT) (d a b : Opnd) (s : State) : Host.Outcome State Fault Refusal :=
  fpBinary g x d a b (fun x _ u v => fMinMax x true u v) s

def execFma (g : Guard) (x : XT) (d a b : Opnd) (c : Reg) (s : State) : Host.Outcome State Fault Refusal :=
  perform 8 (needXs [a, b] [d] (fp64Bit x)) g (do
    let u ← fpSource x a
    let v ← fpSource x b
    let w ← fpSource x (.reg c)
    let rm ← roundMode
    fpResult x d (fMa x rm u v w)) s

def execFsqrt (g : Guard) (x : XT) (d a : Opnd) (s : State) : Host.Outcome State Fault Refusal :=
  perform 8 (needXs [a] [d] (fp64Bit x)) g (do
    let u ← fpSource x a
    let rm ← roundMode
    fpResult x d (fSqrt x rm u)) s

/-- `fcmp` (R119). -/
def execFcmp (g : Guard) (x : XT) (kd : Fin 8) (cc : FCond) (a b : Opnd) (s : State) :
    Host.Outcome State Fault Refusal :=
  perform 8 (needXs [a, b] [] (fp64Bit x)) g (do
    let u ← fpSource x a
    let v ← fpSource x b
    let r := fCmp x cc u v
    writeFlag kd r.1
    raise r.2
    pure .fall) s

/-- `fcvt` (R121): an integer result is extended by R108, a float one has zeros above. -/
def execFcvt (g : Guard) (x fr : XT) (d a : Opnd) (s : State) : Host.Outcome State Fault Refusal :=
  perform 8 (needXs [a] [d] (fp64Bit x ||| fp64Bit fr)) g (do
    let u ← fpSource fr a
    let rm ← roundMode
    let r := convertElem x fr rm u
    dst d (if isIntCode x then extendAs x (widthOf x) r.1 else BitVec.ofNat 64 r.1)
    raise r.2
    pure .fall) s

/-- The magnitude of A with the sign that MODE directs (R122). -/
def signResult (x : XT) (m : SignMode) (a b : Nat) : Nat :=
  let top := widthOf x - 1
  if (decodeF x a).isNan then canonNan x
  else
    let sign :=
      match m with
      | .cpy => bitAt b top
      | .neg => !bitAt b top
      | .xor => bitAt a top != bitAt b top
    a % 2 ^ top + b2n sign * 2 ^ top

def execFsgn (g : Guard) (x : XT) (m : SignMode) (d a b : Opnd) (s : State) : Host.Outcome State Fault Refusal :=
  perform 8 (needXs [a, b] [d] (fp64Bit x)) g (do
    let u ← fpSource x a
    let v ← fpSource x b
    fpResult x d (signResult x m u v, 0)) s

/-- The class bit of R122. -/
def classBit (x : XT) (a : Nat) : Nat :=
  match decodeF x a with
  | .nan sg => if sg then 8 else 9
  | .inf n => if n then 0 else 7
  | .fin n m _ =>
    let normal := bitsAt a (fmtOf x).mb (fmtOf x).eb != 0
    if m = 0 then (if n then 3 else 4)
    else if normal then (if n then 1 else 6)
    else (if n then 2 else 5)

def execFclass (g : Guard) (x : XT) (d a : Opnd) (s : State) : Host.Outcome State Fault Refusal :=
  perform 8 (needXs [a] [d] (fp64Bit x)) g (do
    let u ← fpSource x a
    dst d (BitVec.ofNat 64 (2 ^ classBit x u))
    pure .fall) s

end Sys2Proof.Machine
end

