-- ==== Sys2Proof/Machine/Dispatch.lean ====
section
/-! DEFINITION. The one match from an instruction or event to its meaning. -/

namespace Sys2Proof.Machine

def exec (i : Instr) (s : State) : Host.Outcome State Fault Refusal :=
  match i with
  | .nop => Sys2Proof.Machine.execNop s
  | .shortNop => Sys2Proof.Machine.execShortNop s
  | .endPart g => Sys2Proof.Machine.execEndPart g s
  | .illegalEncoding why => Sys2Proof.Machine.execIllegalEncoding why s
  | .add g x d a b => Sys2Proof.Machine.execAdd g x d a b s
  | .sub g x d a b => Sys2Proof.Machine.execSub g x d a b s
  | .mul g x d a b => Sys2Proof.Machine.execMul g x d a b s
  | .mulh g x d a b => Sys2Proof.Machine.execMulh g x d a b s
  | .mulhz g x d a b => Sys2Proof.Machine.execMulhz g x d a b s
  | .div g x d a b => Sys2Proof.Machine.execDiv g x d a b s
  | .divz g x d a b => Sys2Proof.Machine.execDivz g x d a b s
  | .rem g x d a b => Sys2Proof.Machine.execRem g x d a b s
  | .remz g x d a b => Sys2Proof.Machine.execRemz g x d a b s
  | .and g x d a b => Sys2Proof.Machine.execAnd g x d a b s
  | .or g x d a b => Sys2Proof.Machine.execOr g x d a b s
  | .xor g x d a b => Sys2Proof.Machine.execXor g x d a b s
  | .andn g x d a b => Sys2Proof.Machine.execAndn g x d a b s
  | .shl g x d a b => Sys2Proof.Machine.execShl g x d a b s
  | .shr g x d a b => Sys2Proof.Machine.execShr g x d a b s
  | .sra g x d a b => Sys2Proof.Machine.execSra g x d a b s
  | .rol g x d a b => Sys2Proof.Machine.execRol g x d a b s
  | .min g x d a b => Sys2Proof.Machine.execMin g x d a b s
  | .max g x d a b => Sys2Proof.Machine.execMax g x d a b s
  | .minz g x d a b => Sys2Proof.Machine.execMinz g x d a b s
  | .maxz g x d a b => Sys2Proof.Machine.execMaxz g x d a b s
  | .addi g x d a imm => Sys2Proof.Machine.execAddi g x d a imm s
  | .andi g x d a imm => Sys2Proof.Machine.execAndi g x d a imm s
  | .ori g x d a imm => Sys2Proof.Machine.execOri g x d a imm s
  | .xori g x d a imm => Sys2Proof.Machine.execXori g x d a imm s
  | .shli g x d a imm => Sys2Proof.Machine.execShli g x d a imm s
  | .shri g x d a imm => Sys2Proof.Machine.execShri g x d a imm s
  | .srai g x d a imm => Sys2Proof.Machine.execSrai g x d a imm s
  | .roli g x d a imm => Sys2Proof.Machine.execRoli g x d a imm s
  | .muli g x d a imm => Sys2Proof.Machine.execMuli g x d a imm s
  | .movi g d j => Sys2Proof.Machine.execMovi g d j s
  | .movw g d j => Sys2Proof.Machine.execMovw g d j s
  | .mov g x d a => Sys2Proof.Machine.execMov g x d a s
  | .lea g d a b sc disp => Sys2Proof.Machine.execLea g d a b sc disp s
  | .rdtick g d => Sys2Proof.Machine.execRdtick g d s
  | .cmp g x kd cc a b => Sys2Proof.Machine.execCmp g x kd cc a b s
  | .sel g d a b kc => Sys2Proof.Machine.execSel g d a b kc s
  | .clz g x d a => Sys2Proof.Machine.execClz g x d a s
  | .ctz g x d a => Sys2Proof.Machine.execCtz g x d a s
  | .popc g x d a => Sys2Proof.Machine.execPopc g x d a s
  | .bfx g x d a pos lm1 => Sys2Proof.Machine.execBfx g x d a pos lm1 s
  | .bfi g d a pos lm1 => Sys2Proof.Machine.execBfi g d a pos lm1 s
  | .sext g x d a => Sys2Proof.Machine.execSext g x d a s
  | .zext g x d a => Sys2Proof.Machine.execZext g x d a s
  | .fadd g x d a b => Sys2Proof.Machine.execFadd g x d a b s
  | .fsub g x d a b => Sys2Proof.Machine.execFsub g x d a b s
  | .fmul g x d a b => Sys2Proof.Machine.execFmul g x d a b s
  | .fma g x d a b c => Sys2Proof.Machine.execFma g x d a b c s
  | .fdiv g x d a b => Sys2Proof.Machine.execFdiv g x d a b s
  | .fsqrt g x d a => Sys2Proof.Machine.execFsqrt g x d a s
  | .fmin g x d a b => Sys2Proof.Machine.execFmin g x d a b s
  | .fmax g x d a b => Sys2Proof.Machine.execFmax g x d a b s
  | .fcmp g x kd cc a b => Sys2Proof.Machine.execFcmp g x kd cc a b s
  | .fcvt g x fr d a => Sys2Proof.Machine.execFcvt g x fr d a s
  | .fsgn g x m d a b => Sys2Proof.Machine.execFsgn g x m d a b s
  | .fclass g x d a => Sys2Proof.Machine.execFclass g x d a s
  | .br g imm => Sys2Proof.Machine.execBr g imm s
  | .jmp g d a imm => Sys2Proof.Machine.execJmp g d a imm s
  | .call g d imm => Sys2Proof.Machine.execCall g d imm s
  | .ret g a => Sys2Proof.Machine.execRet g a s
  | .loop g lc a imm => Sys2Proof.Machine.execLoop g lc a imm s
  | .tret g => Sys2Proof.Machine.execTret g s
  | .pause g a imm => Sys2Proof.Machine.execPause g a imm s
  | .pauseExpiry p q => Sys2Proof.Machine.execPauseExpiry p q s
  | .bqpush g k => Sys2Proof.Machine.execBqpush g k s
  | .bqbr g sense imm => Sys2Proof.Machine.execBqbr g sense imm s
  | .ld g x cm d a c disp => Sys2Proof.Machine.execLd g x cm d a c disp s
  | .st g x cm sq a b c disp => Sys2Proof.Machine.execSt g x cm sq a b c disp s
  | .ldo g x d a c disp => Sys2Proof.Machine.execLdo g x d a c disp s
  | .sto g x sq a b c disp => Sys2Proof.Machine.execSto g x sq a b c disp s
  | .ldg g x d a c disp => Sys2Proof.Machine.execLdg g x d a c disp s
  | .stg g x sq a b c disp => Sys2Proof.Machine.execStg g x sq a b c disp s
  | .pf g a c disp => Sys2Proof.Machine.execPf g a c disp s
  | .sqStorePerform p => Sys2Proof.Machine.execSqStorePerform p s
  | .atom g x sp op acq rel d a b => Sys2Proof.Machine.execAtom g x sp op acq rel d a b s
  | .atomcas g x sp acq rel d a b c => Sys2Proof.Machine.execAtomcas g x sp acq rel d a b c s
  | .atomincw g x sp acq rel d a c => Sys2Proof.Machine.execAtomincw g x sp acq rel d a c s
  | .atomfaddb g x sp acq rel d pk a b c => Sys2Proof.Machine.execAtomfaddb g x sp acq rel d pk a b c s
  | .enq g sp acq rel pk a b => Sys2Proof.Machine.execEnq g sp acq rel pk a b s
  | .deq g sp acq rel d pk a => Sys2Proof.Machine.execDeq g sp acq rel d pk a s
  | .send g d a b hidx gen => Sys2Proof.Machine.execSend g d a b hidx gen s
  | .sendt g d a b hidx gen => Sys2Proof.Machine.execSendt g d a b hidx gen s
  | .reply g d => Sys2Proof.Machine.execReply g d s
  | .msend g d a mb => Sys2Proof.Machine.execMsend g d a mb s
  | .msendt g d a mb => Sys2Proof.Machine.execMsendt g d a mb s
  | .retryHintExpiry p q => Sys2Proof.Machine.execRetryHintExpiry p q s
  | .answerArrival p q => Sys2Proof.Machine.execAnswerArrival p q s
  | .mcfg g a mb => Sys2Proof.Machine.execMcfg g a mb s
  | .mrecv g d a tmo mb => Sys2Proof.Machine.execMrecv g d a tmo mb s
  | .mpeek g d mb => Sys2Proof.Machine.execMpeek g d mb s
  | .mrel g a mb => Sys2Proof.Machine.execMrel g a mb s
  | .nlink g fe fw clr => Sys2Proof.Machine.execNlink g fe fw clr s
  | .activeMessageArrival src dst => Sys2Proof.Machine.execActiveMessageArrival src dst s
  | .mailboxDeposit src dst => Sys2Proof.Machine.execMailboxDeposit src dst s
  | .replyArrival src dst => Sys2Proof.Machine.execReplyArrival src dst s
  | .gaussianFirstPacket src dst => Sys2Proof.Machine.execGaussianFirstPacket src dst s
  | .gaussianDeposit src dst => Sys2Proof.Machine.execGaussianDeposit src dst s
  | .vadd g x sat d a b => Sys2Proof.Machine.execVadd g x sat d a b s
  | .vsub g x sat d a b => Sys2Proof.Machine.execVsub g x sat d a b s
  | .vmul g x d a b => Sys2Proof.Machine.execVmul g x d a b s
  | .vfma g x d a b c => Sys2Proof.Machine.execVfma g x d a b c s
  | .vmin g x d a b => Sys2Proof.Machine.execVmin g x d a b s
  | .vmax g x d a b => Sys2Proof.Machine.execVmax g x d a b s
  | .vabs g x d a => Sys2Proof.Machine.execVabs g x d a s
  | .vneg g x d a => Sys2Proof.Machine.execVneg g x d a s
  | .vand g x d a b => Sys2Proof.Machine.execVand g x d a b s
  | .vor g x d a b => Sys2Proof.Machine.execVor g x d a b s
  | .vxor g x d a b => Sys2Proof.Machine.execVxor g x d a b s
  | .vshl g x d a b => Sys2Proof.Machine.execVshl g x d a b s
  | .vshr g x d a b => Sys2Proof.Machine.execVshr g x d a b s
  | .vsra g x d a b => Sys2Proof.Machine.execVsra g x d a b s
  | .vcmp g x kd cc a b => Sys2Proof.Machine.execVcmp g x kd cc a b s
  | .vsel g d a b kc => Sys2Proof.Machine.execVsel g d a b kc s
  | .vcvt g x fr half d a => Sys2Proof.Machine.execVcvt g x fr half d a s
  | .vsplit g d a => Sys2Proof.Machine.execVsplit g d a s
  | .vbcast g x d src => Sys2Proof.Machine.execVbcast g x d src s
  | .vmov g d a => Sys2Proof.Machine.execVmov g d a s
  | .vmovLaneToScalar g x d a lane => Sys2Proof.Machine.execVmovLaneToScalar g x d a lane s
  | .vmovScalarToLane g x d lane a => Sys2Proof.Machine.execVmovScalarToLane g x d lane a s
  | .vld g x cm d a disp => Sys2Proof.Machine.execVld g x cm d a disp s
  | .vst g x cm a b disp => Sys2Proof.Machine.execVst g x cm a b disp s
  | .vgath g x cm d a b => Sys2Proof.Machine.execVgath g x cm d a b s
  | .vscat g x cm a b c => Sys2Proof.Machine.execVscat g x cm a b c s
  | .vstream g x d a => Sys2Proof.Machine.execVstream g x d a s
  | .vstop g d => Sys2Proof.Machine.execVstop g d s
  | .streamRefill p v => Sys2Proof.Machine.execStreamRefill p v s
  | .vshuf g d a b => Sys2Proof.Machine.execVshuf g d a b s
  | .vred g x op d a => Sys2Proof.Machine.execVred g x op d a s
  | .vscan g x op d a => Sys2Proof.Machine.execVscan g x op d a s
  | .mma g f d => Sys2Proof.Machine.execMma g f d s
  | .mmaz g f d => Sys2Proof.Machine.execMmaz g f d s
  | .mlda g f cm a b c => Sys2Proof.Machine.execMlda g f cm a b c s
  | .mldb g f cm a b c => Sys2Proof.Machine.execMldb g f cm a b c s
  | .mgath g f cm a b c => Sys2Proof.Machine.execMgath g f cm a b c s
  | .mldacc g x cm d a b => Sys2Proof.Machine.execMldacc g x cm d a b s
  | .mstacc g x cm d a b e f => Sys2Proof.Machine.execMstacc g x cm d a b e f s
  | .mclr g d => Sys2Proof.Machine.execMclr g d s
  | .mmask g mm nm km => Sys2Proof.Machine.execMmask g mm nm km s
  | .lbinit g a lb => Sys2Proof.Machine.execLbinit g a lb s
  | .lbarr g a lb => Sys2Proof.Machine.execLbarr g a lb s
  | .lbdrop g a lb => Sys2Proof.Machine.execLbdrop g a lb s
  | .lbjoin g a lb => Sys2Proof.Machine.execLbjoin g a lb s
  | .lbexp g a lb => Sys2Proof.Machine.execLbexp g a lb s
  | .lbwait g d a tmo par lb => Sys2Proof.Machine.execLbwait g d a tmo par lb s
  | .lbtest g d lb => Sys2Proof.Machine.execLbtest g d lb s
  | .lbRemoteArrival src dst => Sys2Proof.Machine.execLbRemoteArrival src dst s
  | .mshcfg g a m => Sys2Proof.Machine.execMshcfg g a m s
  | .mshar g m => Sys2Proof.Machine.execMshar g m s
  | .mshwait g d a tmo par m => Sys2Proof.Machine.execMshwait g d a tmo par m s
  | .mshstat g d sel m => Sys2Proof.Machine.execMshstat g d sel m s
  | .meshArrivalCombine clu corner m => Sys2Proof.Machine.execMeshArrivalCombine clu corner m s
  | .meshRelease corner dst m => Sys2Proof.Machine.execMeshRelease corner dst m s
  | .meshWUpdate corner dst m => Sys2Proof.Machine.execMeshWUpdate corner dst m s
  | .semwait g d a b tmo sem => Sys2Proof.Machine.execSemwait g d a b tmo sem s
  | .semsig g a b sem => Sys2Proof.Machine.execSemsig g a b sem s
  | .semset g a sem => Sys2Proof.Machine.execSemset g a sem s
  | .semget g d sem => Sys2Proof.Machine.execSemget g d sem s
  | .semRemoteSignal src dst => Sys2Proof.Machine.execSemRemoteSignal src dst s
  | .declare g a => Sys2Proof.Machine.execDeclare g a s
  | .hold g => Sys2Proof.Machine.execHold g s
  | .holdx g d a => Sys2Proof.Machine.execHoldx g d a s
  | .rel g d a => Sys2Proof.Machine.execRel g d a s
  | .relEnd g d a => Sys2Proof.Machine.execRelEnd g d a s
  | .holdst g d a => Sys2Proof.Machine.execHoldst g d a s
  | .holdstObj g d a => Sys2Proof.Machine.execHoldstObj g d a s
  | .dline g a => Sys2Proof.Machine.execDline g a s
  | .dlineRel g a => Sys2Proof.Machine.execDlineRel g a s
  | .fence g src dst scope => Sys2Proof.Machine.execFence g src dst scope s
  | .spawn g a b => Sys2Proof.Machine.execSpawn g a b s
  | .dist g d => Sys2Proof.Machine.execDist g d s
  | .widx g d a fld => Sys2Proof.Machine.execWidx g d a fld s
  | .trig g a tc => Sys2Proof.Machine.execTrig g a tc s
  | .trigDisarm g tc => Sys2Proof.Machine.execTrigDisarm g tc s
  | .trigd g a b => Sys2Proof.Machine.execTrigd g a b s
  | .triggerIncrement src dst => Sys2Proof.Machine.execTriggerIncrement src dst s
  | .cpy g e => Sys2Proof.Machine.execCpy g e s
  | .cpyr g e => Sys2Proof.Machine.execCpyr g e s
  | .cpym g e => Sys2Proof.Machine.execCpym g e s
  | .cpymFollowOn cmd => Sys2Proof.Machine.execCpymFollowOn cmd s
  | .subscribe g rg e => Sys2Proof.Machine.execSubscribe g rg e s
  | .drain g rg e => Sys2Proof.Machine.execDrain g rg e s
  | .unsub g rg e => Sys2Proof.Machine.execUnsub g rg e s
  | .streamerTile cmd => Sys2Proof.Machine.execStreamerTile cmd s
  | .bte g e => Sys2Proof.Machine.execBte g e s
  | .coll g e => Sys2Proof.Machine.execColl g e s
  | .collCombine cmd => Sys2Proof.Machine.execCollCombine cmd s
  | .xfer g e => Sys2Proof.Machine.execXfer g e s
  | .engineAccept cmd => Sys2Proof.Machine.execEngineAccept cmd s
  | .engineWriteLand cmd => Sys2Proof.Machine.execEngineWriteLand cmd s
  | .engineComplete cmd => Sys2Proof.Machine.execEngineComplete cmd s
  | .engineFaultStop cmd => Sys2Proof.Machine.execEngineFaultStop cmd s
  | .engineFaultDelivery p => Sys2Proof.Machine.execEngineFaultDelivery p s
  | .gcfg g d a b => Sys2Proof.Machine.execGcfg g d a b s
  | .gld g d a nm1 cm => Sys2Proof.Machine.execGld g d a nm1 cm s
  | .gldHdr g d a cm => Sys2Proof.Machine.execGldHdr g d a cm s
  | .gst g a b nm1 cm => Sys2Proof.Machine.execGst g a b nm1 cm s
  | .gzero g d => Sys2Proof.Machine.execGzero g d s
  | .gaddp g d a nm1 off => Sys2Proof.Machine.execGaddp g d a nm1 off s
  | .gschur g d a nm1 off km1 => Sys2Proof.Machine.execGschur g d a nm1 off km1 s
  | .gdamp g d a nm1 mb => Sys2Proof.Machine.execGdamp g d a nm1 mb s
  | .gres g d a b nm1 => Sys2Proof.Machine.execGres g d a b nm1 s
  | .gsend g d a b c once mb nm1 => Sys2Proof.Machine.execGsend g d a b c once mb nm1 s
  | .gsolve g d a nm1 => Sys2Proof.Machine.execGsolve g d a nm1 s
  | .rlcrun g e => Sys2Proof.Machine.execRlcrun g e s
  | .rlcstat g d => Sys2Proof.Machine.execRlcstat g d s
  | .rlcabort g d => Sys2Proof.Machine.execRlcabort g d s
  | .rlcRunStart clu => Sys2Proof.Machine.execRlcRunStart clu s
  | .rlcFactorColumn clu => Sys2Proof.Machine.execRlcFactorColumn clu s
  | .rlcStep clu => Sys2Proof.Machine.execRlcStep clu s
  | .stgdecl g d a stage => Sys2Proof.Machine.execStgdecl g d a stage s
  | .stgq g mb stage bm1 => Sys2Proof.Machine.execStgq g mb stage bm1 s
  | .stgqClr g mb => Sys2Proof.Machine.execStgqClr g mb s
  | .stshal g d ss => Sys2Proof.Machine.execStshal g d ss s
  | .stshfr g a ss => Sys2Proof.Machine.execStshfr g a ss s
  | .stshfrInit g a ss => Sys2Proof.Machine.execStshfrInit g a ss s
  | .stgstat g d stage => Sys2Proof.Machine.execStgstat g d stage s
  | .stgstatStash g d ss => Sys2Proof.Machine.execStgstatStash g d ss s
  | .stageDispatch home mb member => Sys2Proof.Machine.execStageDispatch home mb member s
  | .trap g code => Sys2Proof.Machine.execTrap g code s
  | .eret g => Sys2Proof.Machine.execEret g s
  | .csrr g d n => Sys2Proof.Machine.execCsrr g d n s
  | .csrw g a n => Sys2Proof.Machine.execCsrw g a n s
  | .csrx g d a n => Sys2Proof.Machine.execCsrx g d a n s
  | .icinvWrite g a => Sys2Proof.Machine.execIcinvWrite g a s
  | .deadlineWrite g a => Sys2Proof.Machine.execDeadlineWrite g a s
  | .wdog g d a => Sys2Proof.Machine.execWdog g d a s
  | .feat g d a => Sys2Proof.Machine.execFeat g d a s
  | .speed g d a => Sys2Proof.Machine.execSpeed g d a s
  | .plsetPlace g d a b => Sys2Proof.Machine.execPlsetPlace g d a b s
  | .plsetPerm g d a b => Sys2Proof.Machine.execPlsetPerm g d a b s
  | .activation p => Sys2Proof.Machine.execActivation p s
  | .stealRequest clu => Sys2Proof.Machine.execStealRequest clu s
  | .stealRetryTimer clu => Sys2Proof.Machine.execStealRetryTimer clu s
  | .stealRequestArrival src dst => Sys2Proof.Machine.execStealRequestArrival src dst s
  | .stealShipment src dst => Sys2Proof.Machine.execStealShipment src dst s
  | .stealAck src dst => Sys2Proof.Machine.execStealAck src dst s
  | .transitTimeout clu number => Sys2Proof.Machine.execTransitTimeout clu number s
  | .transitQueryAnswer src dst => Sys2Proof.Machine.execTransitQueryAnswer src dst s
  | .loadExchange part => Sys2Proof.Machine.execLoadExchange part s
  | .rootDelivery part => Sys2Proof.Machine.execRootDelivery part s
  | .launchServicePost src dst => Sys2Proof.Machine.execLaunchServicePost src dst s
  | .idleTreeSample part => Sys2Proof.Machine.execIdleTreeSample part s
  | .deadlinePass p => Sys2Proof.Machine.execDeadlinePass p s
  | .waitTimeout p q => Sys2Proof.Machine.execWaitTimeout p q s
  | .watchdog p => Sys2Proof.Machine.execWatchdog p s
  | .stuckTimerExpiry router port vn part => Sys2Proof.Machine.execStuckTimerExpiry router port vn part s
  | .injectionLimitLift vn part => Sys2Proof.Machine.execInjectionLimitLift vn part s
  | .linkDead link lost => Sys2Proof.Machine.execLinkDead link lost s
  | .rerouteResume => Sys2Proof.Machine.execRerouteResume s
  | .accessDispatch p path => Sys2Proof.Machine.execAccessDispatch p path s
  | .accessApply p path h => Sys2Proof.Machine.execAccessApply p path h s
  | .closeApply p h => Sys2Proof.Machine.execCloseApply p h s
  | .reduceApply cmd => Sys2Proof.Machine.execReduceApply cmd s
  | .replicaApply stack => Sys2Proof.Machine.execReplicaApply stack s
  | .replicaCommit => Sys2Proof.Machine.execReplicaCommit s
  | .pageServiceAnswer p mapped => Sys2Proof.Machine.execPageServiceAnswer p mapped s
  | .tsliceExpiry part => Sys2Proof.Machine.execTsliceExpiry part s
  | .tenantSwitch part => Sys2Proof.Machine.execTenantSwitch part s
  | .selfTestStart u => Sys2Proof.Machine.execSelfTestStart u s
  | .selfTestEnd u pass => Sys2Proof.Machine.execSelfTestEnd u pass s
  | .clusterRetirement clu => Sys2Proof.Machine.execClusterRetirement clu s
  | .uncorrectableRead p addr => Sys2Proof.Machine.execUncorrectableRead p addr s
  | .sublinkDown port sub => Sys2Proof.Machine.execSublinkDown port sub s
  | .scaleupMessage port sub header payload rr mb => Sys2Proof.Machine.execScaleupMessage port sub header payload rr mb s
  | .boot => Sys2Proof.Machine.execBoot s
  | .governorSample p => Sys2Proof.Machine.execGovernorSample p s
  | .usageRecord part => Sys2Proof.Machine.execUsageRecord part s
  | .frameScrub station => Sys2Proof.Machine.execFrameScrub station s
  | .featuresOk fn features => Sys2Proof.Machine.execFeaturesOk fn features s
  | .launch h b => Sys2Proof.Machine.execLaunch h b s
  | .memmapMap h proc level addr pte rest => Sys2Proof.Machine.execMemmapMap h proc level addr pte rest s
  | .memmapUnmap h proc level addr rest => Sys2Proof.Machine.execMemmapUnmap h proc level addr rest s
  | .memmapRange h proc slot index entry rest => Sys2Proof.Machine.execMemmapRange h proc slot index entry rest s
  | .memmapProcess h proc index entry rest => Sys2Proof.Machine.execMemmapProcess h proc index entry rest s
  | .query h => Sys2Proof.Machine.execQuery h s
  | .usage h first max => Sys2Proof.Machine.execUsage h first max s
  | .restore h source image => Sys2Proof.Machine.execRestore h source image s
  | .keep h => Sys2Proof.Machine.execKeep h s
  | .create h b => Sys2Proof.Machine.execCreate h b s
  | .destroy h partn keepIt => Sys2Proof.Machine.execDestroy h partn keepIt s
  | .bind h partn tenant port vf pmask => Sys2Proof.Machine.execBind h partn tenant port vf pmask s
  | .unbind h partn tenant port vf => Sys2Proof.Machine.execUnbind h partn tenant port vf s
  | .restitch h partn shape subn => Sys2Proof.Machine.execRestitch h partn shape subn s
  | .sublink h port sub partn => Sys2Proof.Machine.execSublink h port sub partn s
  | .fwact h slot => Sys2Proof.Machine.execFwact h slot s
  | .powercap h cap => Sys2Proof.Machine.execPowercap h cap s
  | .quote h nonce => Sys2Proof.Machine.execQuote h nonce s
  | .period h partn ticks => Sys2Proof.Machine.execPeriod h partn ticks s
  | .recover h image => Sys2Proof.Machine.execRecover h image s
  | .scaleupFlit port sub part flit => Sys2Proof.Machine.execScaleupFlit port sub part flit s
  | .usageQueueTake pf => Sys2Proof.Machine.execUsageQueueTake pf s

end Sys2Proof.Machine
end

