-- ==== Sys2Proof/Machine/Place.lean ====
section
/-! DEFINITION. What a sequencer's turn asks before it performs an instruction, and the state in which an instruction's
words stand where the next step fetches. -/

namespace Sys2Proof.Machine

/-- The current sequencer has nothing to run: its core stands still, its part is absent or ended, or the other
sequencer is in a trap handler (07 R102). -/
def State.idle (s : State) : Bool :=
  s.coreStill s.cur.1 || s.seq.gone || s.seq.stopped

/-- The first unit's length code asks for bytes past the end of the fetch block (07 R83). -/
def State.straddling (s : State) (bs : List Byte) (last : Bool) : Bool :=
  let w := leOf (bs.take 4)
  if last && w == 0 then false
  else
    match lenBytes (w % 4) with
    | some n => straddles s.seq.pc n
    | none => false

/-- The full address of an instruction (07 R83): in the partition's code region, or, above user level, in the firmware's
(22 R292). -/
def State.fullAddress (s : State) (p : Place) (l : Level) (pc : Nat) : Word :=
  BitVec.ofNat 64 ((match l with | .user => (s.partOf p).attrs.codeb | _ => Config.firmwareBase) + pc)

/-- Marked loads at queue heads are performed again before the XS goes on at user level (10 R142). -/
def State.freshen (s : State) : State :=
  if s.cur.2 = .xs && !s.seq.inTrap then s.redoLoads s.cur.1 else s

/-- A cluster's instruction cache drops a line of its own accord (07 R103). -/
def State.evictLine (s : State) (clu line : Nat) : State :=
  s.modClus clu fun k => { k with icache := Table.drop k.icache line }

/-! ## Both sequencers in one cycle

The arbiters of a core's objects apply the events of one cycle in an order of their own (08 R132; 10 R160; 14 R195, R203; 20
R284, R288); every other event of the AS comes before the XS's. -/

/-- The kind of object that an instruction's event is for, and its place in the order of that object's arbiter. -/
def eventRank : Instr → Option (Nat × Nat)
  | .bqbr _ _ _ => some (0, 0)
  | .bqpush _ _ => some (0, 1)
  | .mcfg _ _ _ | .stgq _ _ _ _ | .stgqClr _ _ => some (1, 0)
  | .mrel _ _ _ => some (1, 1)
  | .mrecv _ _ _ _ _ => some (1, 3)
  | .lbinit _ _ _ => some (2, 0)
  | .lbarr _ _ _ | .lbdrop _ _ _ | .lbjoin _ _ _ => some (2, 1)
  | .lbexp _ _ _ => some (2, 2)
  | .lbwait _ _ _ _ _ _ => some (2, 3)
  | .semset _ _ _ => some (3, 0)
  | .semsig _ _ _ _ => some (3, 1)
  | .semwait _ _ _ _ _ _ => some (3, 2)
  | .cpy _ _ | .cpyr _ _ | .cpym _ _ | .subscribe _ _ _ | .drain _ _ _ | .unsub _ _ _ | .bte _ _ | .coll _ _ | .xfer _ _
  | .rlcrun _ _ => some (3, 2)
  | .stshfrInit _ _ _ => some (4, 0)
  | .stshfr _ _ _ => some (4, 1)
  | .stshal _ _ _ => some (4, 2)
  | _ => none

/-- The instruction that a sequencer performs at its next turn. -/
def State.nextInstr (s : State) (p : Place) (q : SeqId) : Option Instr :=
  match s.fetched p q with
  | (.block bs, last) =>
    match decodeBytes last bs with
    | .ok i => some i
    | .error _ => none
  | _ => none

/-- The event of the XS comes before that of the AS in their cycle. -/
def State.xsFirst (s : State) (p : Place) : Bool :=
  match (s.nextInstr p .as).bind eventRank, (s.nextInstr p .xs).bind eventRank with
  | some a, some x => a.1 == x.1 && decide (x.2 < a.2)
  | _, _ => false

/-- The core as the second event of a cycle finds the first not yet made: of an `lbinit`, after it. -/
def State.cycleCore (before after : State) (p : Place) (q : SeqId) : Core :=
  match before.nextInstr p q with
  | some (.lbinit _ _ _) => after.core p
  | _ => before.core p

/-! ## An instruction placed where the next step fetches -/

/-- A valid page-table entry for a frame behind slot 0: a table, or a leaf with W and R. -/
def placedPte (frame : Nat) (leaf : Bool) : Nat := 1 + (if leaf then 2 + 8 + 16 else 0) + frame * 2 ^ 12

/-- The process-table entry of process 1: one level-0 entry, its table in frame 1 behind slot 0. -/
def placedProc : BitVec 128 := BitVec.ofNat 128 (1 + 2 ^ 16 + 1 * 2 ^ 64 + 1 * 2 ^ 76)

/-- The four tables that map the first 4 KiB of process 1 to frame 5, and the instruction's bytes. -/
def placedCells (s : State) (off w : Nat) : List (Nat × Byte) :=
  let at_ (a n v : Nat) : List (Nat × Byte) :=
    (span (Key.hbm (s.slotStation 0) a) n).zip (leBytesOf n v)
  at_ 4096 8 (placedPte 2 false) ++ at_ 8192 8 (placedPte 3 false) ++ at_ 12288 8 (placedPte 4 false)
    ++ at_ 16384 8 (placedPte 5 true) ++ at_ (20480 + off) 16 w

/-- A partition of cluster 0 whose code is the first 4 KiB of process 1. -/
def placedPart : Part :=
  { Part.blank with
    attrs := { Attrs.blank with ncols := 1, nrows := 1, codeSize := 4096, proc0 := 1 }
    procs := [(0, placedProc)] }

/-- A core of it that runs a strand's XS part at an offset, with every feature. -/
def placedCore (off : Nat) : Core :=
  { Core.reset with
    part := some 0
    feat := 0x1F
    running := true
    st := { Strand.reset with
      xs := { Seq.reset with present := true, ended := false, pc := off }
      csr := { Csrs.reset with proc := 1 } } }

/-- The state in which the next step fetches and runs an instruction's words: an activation, with the partition, the
tables and the code that a loader has placed. A 32-bit instruction exists only in the last unit of a block. -/
def State.placed (s : State) (nbits w : Nat) : State :=
  let off := if nbits = 32 then 28 else 0
  { s with
    mem := Memory.setAll s.mem (placedCells s off (w % 2 ^ nbits))
    parts := Table.set s.parts 0 placedPart
    cores := Table.set s.cores 0 (placedCore off)
    clusters := Table.set s.clusters 0
      { Cluster.reset with place := [(0, 0x8000)], perm := [(0, 1)] }
    agenda := []
    cur := (0, .xs) }

end Sys2Proof.Machine
end

