-- ==== Sys2Proof/Machine/Step.lean ====
section
/-! DEFINITION. One step of the module: the next turn of the agenda, or, with none, the next instruction of the current
sequencer. -/

namespace Sys2Proof.Machine

/-- A word that decodes to no instruction raises ILLEGAL-ENCODING (07 R94). -/
def orIllegal : Except BadEncoding Instr → Instr
  | .ok i => i
  | .error e => .illegalEncoding e

/-- The bytes at a sequencer's pc performed as an instruction (07 R82, R83, R96 steps 1 and 2). -/
def State.performBytes (s : State) (bs : List Byte) (last : Bool) : Host.Outcome State Fault Refusal :=
  let s := s.keepFetched s.cur.1 s.cur.2 bs
  if s.straddling bs last then
    .next (s.takeTrap .fetchStraddle (some (s.fullAddress s.cur.1 s.seq.level s.seq.pc)) .none)
  else exec (orIllegal (decodeBytes last bs)) s

/-- A sequencer's turn: it idles where it has nothing to run, takes what waits for its boundary, and otherwise
performs the instruction at its pc. -/
def State.runSeq (s : State) : Host.Outcome State Fault Refusal :=
  if s.idle then .next s.tick1
  else
    match s.boundary s.cur.1 s.cur.2 with
    | some s' => .next s'
    | none =>
      let s := s.passDeadline s.cur.1
      let s := s.freshen.takeLater s.cur.1 s.cur.2
      match s.fetched s.cur.1 s.cur.2 with
      | (.block bs, last) => s.performBytes bs last
      | (.trap c v, _) => .next (s.takeTrap c (some v) .none)
      | (.stop f, _) => .fault f

/-- Both sequencers of a core perform their instruction in one cycle (07 R101): the AS's acts first, or the XS's where the
arbiter of an object takes its event first, and the second reads the control registers as they stood before the first. -/
def State.runBoth (s : State) (p : Place) : Host.Outcome State Fault Refusal :=
  let turn (t : State) (q : SeqId) : Host.Outcome State Fault Refusal :=
    let t := { t with cur := (p, q), slowTurn := false }
    if t.idle then .next t else t.runSeq
  let first : SeqId := if s.xsFirst p then .xs else .as
  match turn s first with
  | .next t =>
    match turn { t with cycle := some (p, s.cycleCore t p first) } (otherSeq first) with
    | .next u => .next { u with cycle := none }
    | r => r
  | r => r

/-- While an instruction waits and no other turn is due, a tick passes. -/
def afterTurn : Host.Outcome State Fault Refusal → Host.Outcome State Fault Refusal
  | .next s => if s.agenda.isEmpty && s.seq.wait.isSome then .next s.tick1 else .next s
  | r => r

/-- One step of the module. -/
def step (s : State) : Host.Outcome State Fault Refusal :=
  match s.agenda with
  | [] => afterTurn ({ s with slowTurn := false } : State).runSeq
  | .run p q :: ts => ({ s with agenda := ts, cur := (p, q), slowTurn := false } : State).runSeq
  | .slow p q :: ts => ({ s with agenda := ts, cur := (p, q), slowTurn := true } : State).runSeq
  | .event i :: ts => exec i { s with agenda := ts }
  | .time n :: ts => .next (({ s with agenda := ts } : State).ticks n)
  | .micro p :: ts => .next (({ s with agenda := ts } : State).microKernel p)
  | .evict clu line :: ts => .next (({ s with agenda := ts } : State).evictLine clu line)
  | .both p :: ts => ({ s with agenda := ts } : State).runBoth p
  | .hop node d :: ts => .next (({ s with agenda := ts } : State).hop node d)
  | .mesh n :: ts => .next (({ s with agenda := ts } : State).mesh n)
  | .manage p n ws :: ts => .next (({ s with agenda := ts } : State).startFirmware p true n ws)
  | .kernel p n ws :: ts => .next (({ s with agenda := ts } : State).startFirmware p false n ws)
  | .stucklim n :: ts => .next { s with agenda := ts, fab := { s.fab with stucklim := n } }
  | .fetch c i :: ts => ({ s with agenda := ts } : State).fetchElem c i
  | .queueSize fn q n :: ts => .next (({ s with agenda := ts } : State).setQueueSize fn q n)
  | .interrupt fn q :: ts => .next (({ s with agenda := ts } : State).interrupt fn q)
  | .badOpcode h :: ts => ({ s with agenda := ts } : State).badOpcode h
  | .land c i :: ts => ({ s with agenda := ts } : State).landElem c i

/-- The state with an instruction's words where the next step fetches (`State.placed` in `Place.lean`): a strand of a
partition of one cluster, whose code page is mapped, at the offset that the instruction's length asks for. -/
def State.withFetchWord (s : State) (nbits w : Nat) : State := s.placed nbits w

end Sys2Proof.Machine
end

