-- ==== Sys2Proof/Safety.lean ====
section
/-! DEFINITION. The terms in which claims are made: when a sequencer may perform an instruction (07 R96), what a step
leaves unchanged, the invariant of the module's memory, and what a safe run is. -/

namespace Sys2Proof.Machine

/-! ## When an instruction runs (07 R96 steps 3 to 6) -/

/-- The guard as an instruction's group takes it (07 R88): one bit, the lanes of a vector, or one element's lane. -/
inductive GuardForm
  | bit (g : Guard)
  | lanes (g : Guard)
  | lane (g : Guard) (x : XT) (l : Fin 32)
deriving DecidableEq, Repr

/-- What an instruction demands before its effect: its guard, the one sequencer that may run it, its level, the FEAT
bits of the instruction and its X codes, and the operands that may name queues. -/
structure Demand where
  guard : GuardForm
  only : Option SeqId
  level : Level
  feat : BitVec 16
  srcs : List Opnd
  dsts : List Opnd
deriving DecidableEq, Repr

/-- The scalar operands of the source of `vbcast`. -/
def bsrcOpnds : BSrc → List Opnd
  | .sca o => [o]
  | .lane _ _ => []

end Sys2Proof.Machine

namespace Sys2Proof

open Sys2Proof.Machine

/-- The demands of a sequencer instruction (07 R87, R95, R96, R104). None for an event of another agent, for the words
that are no instruction or have no guard, and for `csrr`, `csrw`, `csrx` and `eret`, whose access rules stand by
themselves (07 R101, 22 R318). -/
def Instr.demands : Instr → Option Demand
  | .endPart g | .addi g _ _ _ _ | .andi g _ _ _ _ | .ori g _ _ _ _ | .xori g _ _ _ _ | .shli g _ _ _ _
  | .shri g _ _ _ _ | .srai g _ _ _ _ | .roli g _ _ _ _ | .muli g _ _ _ _ | .movi g _ _ | .movw g _ _
  | .rdtick g _ | .br g _ | .jmp g _ _ _ | .call g _ _ | .ret g _ | .loop g _ _ _ | .tret g | .pause g _ _
  | .bqpush g _ | .bqbr g _ _ | .pf g _ _ _ | .atomincw g _ _ _ _ _ _ _ | .deq g _ _ _ _ _ _ | .send g _ _ _ _ _
  | .sendt g _ _ _ _ _ | .reply g _ | .msend g _ _ _ | .msendt g _ _ _ | .mcfg g _ _ | .mrecv g _ _ _ _
  | .mpeek g _ _ | .mrel g _ _ | .nlink g _ _ _ | .lbinit g _ _ | .lbarr g _ _ | .lbdrop g _ _ | .lbjoin g _ _
  | .lbexp g _ _ | .lbwait g _ _ _ _ _ | .lbtest g _ _ | .mshcfg g _ _ | .mshar g _ | .mshwait g _ _ _ _ _
  | .mshstat g _ _ _ | .semwait g _ _ _ _ _ | .semsig g _ _ _ | .semset g _ _ | .semget g _ _ | .declare g _
  | .hold g | .holdst g _ _ | .holdstObj g _ _ | .dline g _ | .dlineRel g _ | .fence g _ _ _ | .spawn g _ _
  | .dist g _ | .widx g _ _ _ | .trig g _ _ | .trigDisarm g _ | .trigd g _ _ | .cpy g _ | .cpyr g _ | .cpym g _
  | .subscribe g _ _ | .drain g _ _ | .unsub g _ _ | .bte g _ | .coll g _ | .xfer g _ | .stgdecl g _ _ _
  | .stgq g _ _ _ | .stgqClr g _ | .stshal g _ _ | .stshfr g _ _ | .stshfrInit g _ _ | .stgstat g _ _
  | .stgstatStash g _ _ | .trap g _ | .wdog g _ _ | .feat g _ _ | .speed g _ _ =>
    some ⟨.bit g, none, .user, 0, [], []⟩
  | .add g _ d a b | .sub g _ d a b | .mul g _ d a b | .mulh g _ d a b | .mulhz g _ d a b | .div g _ d a b
  | .divz g _ d a b | .rem g _ d a b | .remz g _ d a b | .and g _ d a b | .or g _ d a b | .xor g _ d a b
  | .andn g _ d a b | .shl g _ d a b | .shr g _ d a b | .sra g _ d a b | .rol g _ d a b | .min g _ d a b
  | .max g _ d a b | .minz g _ d a b | .maxz g _ d a b | .lea g d a b _ _ | .sel g d a b _ =>
    some ⟨.bit g, none, .user, 0, [a, b], [d]⟩
  | .mov g _ d a | .clz g _ d a | .ctz g _ d a | .popc g _ d a | .bfx g _ d a _ _ | .sext g _ d a
  | .zext g _ d a => some ⟨.bit g, none, .user, 0, [a], [d]⟩
  | .cmp g _ _ _ a b => some ⟨.bit g, none, .user, 0, [a, b], []⟩
  | .bfi g _ a _ _ => some ⟨.bit g, none, .user, 0, [a], []⟩
  | .fadd g x d a b | .fsub g x d a b | .fmul g x d a b | .fma g x d a b _ | .fdiv g x d a b | .fmin g x d a b
  | .fmax g x d a b | .fsgn g x _ d a b => some ⟨.bit g, some .xs, .user, fp64Bit x, [a, b], [d]⟩
  | .fsqrt g x d a | .fclass g x d a => some ⟨.bit g, some .xs, .user, fp64Bit x, [a], [d]⟩
  | .fcmp g x _ _ a b => some ⟨.bit g, some .xs, .user, fp64Bit x, [a, b], []⟩
  | .fcvt g x fr d a => some ⟨.bit g, some .xs, .user, fp64Bit x ||| fp64Bit fr, [a], [d]⟩
  | .ld g _ _ d _ _ _ | .ldo g _ d _ _ _ | .ldg g _ d _ _ _ => some ⟨.bit g, none, .user, 0, [], [d]⟩
  | .st g _ _ sq _ b _ _ | .sto g _ sq _ b _ _ | .stg g _ sq _ b _ _ =>
    some ⟨.bit g, if sq then some .xs else none, .user, 0, [b], []⟩
  | .atom g _ _ _ _ _ _ _ b | .atomcas g _ _ _ _ _ _ b _ | .atomfaddb g _ _ _ _ _ _ _ b _ | .enq g _ _ _ _ _ b =>
    some ⟨.bit g, none, .user, 0, [b], []⟩
  | .vadd g x _ _ _ b | .vsub g x _ _ _ b | .vmul g x _ _ b | .vfma g x _ _ b _ | .vmin g x _ _ b
  | .vmax g x _ _ b | .vand g x _ _ b | .vor g x _ _ b | .vxor g x _ _ b | .vshl g x _ _ b | .vshr g x _ _ b
  | .vsra g x _ _ b | .vcmp g x _ _ _ b => some ⟨.lanes g, some .xs, .user, 2 ||| fp64Bit x, vsrcOpnds b, []⟩
  | .vabs g x _ _ | .vneg g x _ _ | .vld g x _ _ _ _ | .vst g x _ _ _ _ | .vgath g x _ _ _ _
  | .vscat g x _ _ _ _ | .vscan g x _ _ _ => some ⟨.lanes g, some .xs, .user, 2 ||| fp64Bit x, [], []⟩
  | .vsel g _ _ _ _ | .vsplit g _ _ | .vmov g _ _ | .vstream g _ _ _ | .vstop g _ | .vshuf g _ _ _ =>
    some ⟨.lanes g, some .xs, .user, 2, [], []⟩
  | .vcvt g x fr _ _ _ => some ⟨.lanes g, some .xs, .user, 2 ||| (fp64Bit x ||| fp64Bit fr), [], []⟩
  | .vbcast g x _ src => some ⟨.lanes g, some .xs, .user, 2 ||| fp64Bit x, bsrcOpnds src, []⟩
  | .vmovLaneToScalar g x d _ lane => some ⟨.lane g x lane, some .xs, .user, 2 ||| fp64Bit x, [], [d]⟩
  | .vmovScalarToLane g x _ lane a => some ⟨.lane g x lane, some .xs, .user, 2 ||| fp64Bit x, [a], []⟩
  | .vred g x _ d _ => some ⟨.lanes g, some .xs, .user, 2 ||| fp64Bit x, [], [d]⟩
  | .mma g _ _ | .mmaz g _ _ | .mlda g _ _ _ _ _ | .mldb g _ _ _ _ _ | .mgath g _ _ _ _ _ | .mldacc g _ _ _ _ _
  | .mstacc g _ _ _ _ _ _ _ | .mclr g _ | .mmask g _ _ _ => some ⟨.bit g, some .xs, .user, 4, [], []⟩
  | .holdx g _ _ | .rel g _ _ | .relEnd g _ _ => some ⟨.bit g, none, .supervisor, 0, [], []⟩
  | .gcfg g _ _ _ | .gld g _ _ _ _ | .gldHdr g _ _ _ | .gst g _ _ _ _ | .gzero g _ | .gaddp g _ _ _ _
  | .gschur g _ _ _ _ _ | .gdamp g _ _ _ _ | .gres g _ _ _ _ | .gsend g _ _ _ _ _ _ _ | .gsolve g _ _ _ =>
    some ⟨.bit g, some .xs, .user, 8, [], []⟩
  | .rlcrun g _ | .rlcstat g _ | .rlcabort g _ => some ⟨.bit g, none, .user, 16, [], []⟩
  | .plsetPlace g _ _ _ | .plsetPerm g _ _ _ => some ⟨.bit g, none, .management, 0, [], []⟩
  | _ => none

end Sys2Proof

namespace Sys2Proof.Machine

/-- Step 3: the current sequencer may run the instruction and name its queue operands. -/
def State.seqOk (s : State) (d : Demand) : Prop :=
  (∀ q, d.only = some q → s.cur.2 = q) ∧ (∀ o ∈ d.srcs, srcOk s.cur.2 o = true) ∧ ∀ o ∈ d.dsts, dstOk s.cur.2 o = true

/-- Step 4: the level suffices. -/
def State.levelOk (s : State) (d : Demand) : Prop := d.level.rank ≤ s.seq.level.rank

/-- Step 5: the core has the features. -/
def State.featOk (s : State) (d : Demand) : Prop := d.feat &&& ~~~ s.me.feat = 0

/-- Step 6: the guard is not 0. -/
def State.guardOpen (s : State) : GuardForm → Prop
  | .bit g => s.seq.passes g = true
  | .lanes g => s.seq.mask g ≠ 0
  | .lane g x l => activeElem x (s.seq.mask g) l.val = true

/-- The instruction comes to step 7: its effect. -/
def State.meets (s : State) (i : Instr) : Prop :=
  ∃ d, i.demands = some d ∧ s.seqOk d ∧ s.levelOk d ∧ s.featOk d ∧ s.guardOpen d.guard

/-- The sequencer begins its instruction: nothing of an earlier try is kept, and its requests are answered at once. -/
def State.begins (s : State) : Prop :=
  s.slowTurn = false ∧ s.seq.kept = [] ∧ s.seq.used = 0 ∧ s.seq.out = none ∧ s.seq.latch = none ∧ s.seq.passed = 0
    ∧ s.seq.parcel = none

/-! ## Frames -/

/-- Every byte of memory reads as before. -/
def SameMem (s t : State) : Prop := ∀ a, Memory.get t.mem a = Memory.get s.mem a

/-- Every byte of memory reads as before but at the listed keys. -/
def SameMemBut (s t : State) (ks : List Nat) : Prop := ∀ a, a ∉ ks → Memory.get t.mem a = Memory.get s.mem a

/-- Nothing in the module differs but the strand on the current core. -/
def OnlyStrand (s t : State) : Prop := t = s.modMy fun _ => t.my

/-- Nothing in the module differs but the registers of the current sequencer, and of those none but the listed scalar
and predicate registers, the pc, the loop counters, and what belongs to the instruction in progress. -/
def OnlyRegisters (s t : State) (ds : List Reg) (ks : List (Fin 8)) : Prop :=
  (t = s.modMy fun m => m.setSeq s.cur.2 t.seq)
    ∧ (∀ r, r ∉ ds → t.seq.readS r = s.seq.readS r) ∧ (∀ k, k ∉ ks → t.seq.readK k = s.seq.readK k)
    ∧ t.seq.level = s.seq.level ∧ t.seq.shelf = s.seq.shelf ∧ SameMem s t

/-! ## Exact values (05 R64) -/

/-- The number that a finite value is; 0 for the others. -/
def FVal.rational : FVal → ℚ
  | .fin n m e => (if n then -1 else 1) * (m : ℚ) * (2 : ℚ) ^ e
  | _ => 0

/-- The value in the numbers with both infinities; a NaN has no value and stands at 0. -/
def FVal.extended : FVal → WithBot (WithTop ℚ)
  | .inf n => if n then ⊥ else ((⊤ : WithTop ℚ) : WithBot (WithTop ℚ))
  | v => ((v.rational : WithTop ℚ) : WithBot (WithTop ℚ))

/-! ## Rounding (05 R64, R75, R76), by the exact value alone -/

/-- A value with the format's precision, its exponent no lower than `lo` where there is a bound; the exponents have no
bound above. -/
def Fmt.has (f : Fmt) (lo : Option Int) (v : ℝ) : Prop :=
  ∃ k e : ℤ, |k| < 2 ^ (f.mb + 1) ∧ (∀ m, lo = some m → m ≤ e) ∧ v = k * (2 : ℝ) ^ e

/-- `v` is the value of a grid that a rounding attribute takes for `q`: the nearest, at a tie the one that is an even multiple
of the distance to the other (RNE); the nearest of those no greater in magnitude (RTZ); the least that is not below it (RUP);
the greatest that is not above it (RDN). -/
def Rounded (rm : Nat) (grid : ℝ → Prop) (q v : ℝ) : Prop :=
  grid v ∧ match rm with
    | 0 => ∀ g, grid g → |q - v| ≤ |q - g| ∧ (g ≠ v → |q - g| = |q - v| → ∃ k : ℤ, v = 2 * k * |v - g|)
    | 1 => |v| ≤ |q| ∧ ∀ g, grid g → |g| ≤ |q| → |q - v| ≤ |q - g|
    | 2 => q ≤ v ∧ ∀ g, grid g → q ≤ g → v ≤ g
    | _ => v ≤ q ∧ ∀ g, grid g → g ≤ q → g ≤ v

/-- The largest finite encoding of a format (the table of 05 R64). -/
def topBits : XT → Nat
  | .f64 => 0x7FEFFFFFFFFFFFFF
  | .f16 => 0x7BFF
  | .bf16 => 0x7F7F
  | .e4m3 => 0x7E
  | .e5m2 => 0x7B
  | _ => 0x7F7FFFFF

/-- The infinity of a format (the table of 05 R64); E4M3 has none. -/
def topInf : XT → Nat
  | .f64 => 0x7FF0000000000000
  | .f16 => 0x7C00
  | .bf16 => 0x7F80
  | .e5m2 => 0x7C
  | _ => 0x7F800000

/-- An encoding and its flags are a non-zero number rounded to a format: the rounded value where the format holds it, with NX
where it is inexact and UF where it is tiny after rounding besides; beyond the largest finite value the infinity or that
value, as the attribute directs (E4M3 has the value alone), with OF and NX. -/
def RoundsTo (x : XT) (rm : Nat) (q : ℝ) (r : Nat × Flags) : Prop :=
  let w := widthOf x
  let f := fmtOf x
  let top : ℝ := (decodeF x (topBits x)).rational
  ∃ v u : ℝ, Rounded rm (f.has (some (f.emin - f.mb))) q v ∧ Rounded rm (f.has none) q u
    ∧ (|v| ≤ top → r.1 < 2 ^ w ∧ (decodeF x r.1).isFinite = true ∧ ((decodeF x r.1).rational : ℝ) = v
        ∧ ((decodeF x r.1).neg? = true ↔ q < 0)
        ∧ (v = q → r.2 = 0) ∧ (v ≠ q → (|u| < (2 : ℝ) ^ f.emin → r.2 = 3) ∧ ((2 : ℝ) ^ f.emin ≤ |u| → r.2 = 1)))
    ∧ (top < |v| → r.2 = 5 ∧ (let big := if x ≠ .e4m3 ∧ rm ≠ 1 then topInf x else topBits x
        (0 < q → r.1 = if rm = 3 then topBits x else big)
          ∧ (q < 0 → r.1 = 2 ^ (w - 1) + if rm = 2 then topBits x else big)))

/-! ## The invariant of memory -/

/-- Memory and the firmware's region are in canonical form: keys strictly rising, and no cell equal
to what an unlisted key reads as. -/
def State.memoryWf (s : State) : Prop := Memory.wf s.mem = true ∧ Memory.wf s.firmwareMem = true

/-! ## Safe runs -/

/-- `n` steps of the module from a state meet no fault and no refusal. -/
def State.safe (n : Nat) (s : State) : Prop := ∃ t, Host.Core.run Sys2Proof.core n s = .next t

end Sys2Proof.Machine
end

