-- ==== Sys2Proof/Certificates/Slice0/Obligations.lean ====
section
/-! DEFINITION. The statements for the provers. Each docstring names the rules of spec/ it formalises; a statement of what an
instruction does says also that it completes, and in which states. -/

open Sys2Proof Sys2Proof.Machine

/-! ## The words of the statements -/

namespace Sys2Proof.Claims

/-- Where its demands are met, `i` completes in `s` with control falling through by the end rule (08 R126); `t` is what
its effect made of `s`. -/
def Completes (i : Instr) (s t : State) : Prop := s.meets i → exec i s = .next (t.retire i.len .fall)

/-- Where its demands are met, `i` completes in `s` with control at `pc`. -/
def Jumps (i : Instr) (s t : State) (pc : Nat) : Prop := s.meets i → exec i s = .next (t.retire i.len (.to pc))

/-- Where its demands are met, `i` ends in the state `t`. -/
def Ends (i : Instr) (s t : State) : Prop := s.meets i → exec i s = .next t

/-- Where its demands are met, `i` traps in `s` with a cause and a TVAL, nothing of it performed. -/
def Traps (i : Instr) (s : State) (c : Cause) (v : Word) : Prop :=
  s.meets i → exec i s = .next (s.takeTrap c (some v) .none)

/-- `i` completes once `D` takes the value `v` in `s2`, the state its sources left. -/
def Gives (i : Instr) (s s2 : State) (d : Opnd) (v : Word) : Prop :=
  ∀ s3, dst d v s2 = .ok ((), s3) → Completes i s s3

/-- An integer instruction writes `r mod 2^w` extended as its X code says (08 R108, R113). -/
def GivesInt (i : Instr) (s s2 : State) (d : Opnd) (x : XT) (r : Int) : Prop :=
  Gives i s s2 d (extendAs x (widthOf x) (r % (2 ^ widthOf x : Nat)).toNat)

end Sys2Proof.Claims

open Sys2Proof.Claims

/-! ## Steps, decoding, reset -/

/-- 07 R82, R83, R94, R96, R103: with no other turn due and nothing pending at the boundary, a step performs the
instruction whose bytes stand at the sequencer's pc, or those that it has fetched where it waits at its instruction; the line
that they lie in is cached and the bytes are kept. Bytes that decode to none are performed as the illegal encoding they are,
and a unit whose length runs past its fetch block raises FETCH-STRADDLE with the instruction's full address in the region of
its level. A tick passes where the instruction then waits. -/
def Sys2Proof.Claims.StepPerformsTheInstructionAtThePc : Prop :=
  ∀ (s : State) (bs : List Byte) (last : Bool),
    s.agenda = [] → s.slowTurn = false → s.idle = false → s.boundary s.cur.1 s.cur.2 = none →
    let a := ({ s with slowTurn := false } : State).passDeadline s.cur.1
    let s0 := a.freshen.takeLater a.cur.1 a.cur.2
    s0.fetched s0.cur.1 s0.cur.2 = (.block bs, last) →
    let s1 := s0.keepFetched s0.cur.1 s0.cur.2 bs
    (s1.straddling bs last = false → ∀ i, decodeBytes last bs = .ok i → step s = afterTurn (exec i s1))
      ∧ (s1.straddling bs last = false → ∀ e, decodeBytes last bs = .error e →
          step s = afterTurn (exec (.illegalEncoding e) s1))
      ∧ (s1.straddling bs last = true →
          step s = afterTurn (.next (s1.takeTrap .fetchStraddle (some (s1.fullAddress s1.cur.1 s1.seq.level s1.seq.pc)) .none)))

/-- The agenda's first turn is the step: an event's meaning, a core's micro-kernel, ticks, a dropped cache line, a sequencer
made current and run, both sequencers of a core, what a router output sends, a handler that firmware activates, an engine's
read or landing ahead of its order, or what a driver does to a virtqueue (the model's interleaving, log entry 2). -/
def Sys2Proof.Claims.StepTakesTheFirstTurn : Prop :=
  ∀ (s : State) (ts : List Turn),
    (∀ i, s.agenda = .event i :: ts → step s = exec i { s with agenda := ts })
      ∧ (∀ p, s.agenda = .micro p :: ts → step s = .next (({ s with agenda := ts } : State).microKernel p))
      ∧ (∀ n, s.agenda = .time n :: ts → step s = .next (({ s with agenda := ts } : State).ticks n))
      ∧ (∀ c l, s.agenda = .evict c l :: ts → step s = .next (({ s with agenda := ts } : State).evictLine c l))
      ∧ (∀ p q, s.agenda = .run p q :: ts →
          step s = ({ s with agenda := ts, cur := (p, q), slowTurn := false } : State).runSeq)
      ∧ (∀ p q, s.agenda = .slow p q :: ts →
          step s = ({ s with agenda := ts, cur := (p, q), slowTurn := true } : State).runSeq)
      ∧ (∀ p, s.agenda = .both p :: ts → step s = ({ s with agenda := ts } : State).runBoth p)
      ∧ (∀ n d, s.agenda = .hop n d :: ts → step s = .next (({ s with agenda := ts } : State).hop n d))
      ∧ (∀ n, s.agenda = .mesh n :: ts → step s = .next (({ s with agenda := ts } : State).mesh n))
      ∧ (∀ p n ws, s.agenda = .manage p n ws :: ts →
          step s = .next (({ s with agenda := ts } : State).startFirmware p true n ws))
      ∧ (∀ p n ws, s.agenda = .kernel p n ws :: ts →
          step s = .next (({ s with agenda := ts } : State).startFirmware p false n ws))
      ∧ (∀ n, s.agenda = .stucklim n :: ts → step s = .next { s with agenda := ts, fab := { s.fab with stucklim := n } })
      ∧ (∀ c i, s.agenda = .fetch c i :: ts → step s = ({ s with agenda := ts } : State).fetchElem c i)
      ∧ (∀ c i, s.agenda = .land c i :: ts → step s = ({ s with agenda := ts } : State).landElem c i)
      ∧ (∀ f q n, s.agenda = .queueSize f q n :: ts → step s = .next (({ s with agenda := ts } : State).setQueueSize f q n))
      ∧ (∀ f q, s.agenda = .interrupt f q :: ts → step s = .next (({ s with agenda := ts } : State).interrupt f q))
      ∧ ∀ h, s.agenda = .badOpcode h :: ts → step s = ({ s with agenda := ts } : State).badOpcode h

/-- 07 R82, R83, R94, R96, R103: a step runs the decoded instruction, or the agenda's first turn. -/
def Obligations.StepsPerformTheirTurns : Prop :=
  Claims.StepPerformsTheInstructionAtThePc ∧ Claims.StepTakesTheFirstTurn

/-- Words written out from the encoding tables decode to the instructions they stand for (07 R83, R85, 08 R112, R114,
R123, 10 R147, 14 R194, R210). -/
def Obligations.WrittenWordsDecode : Prop :=
  decode false 0 = .ok .nop
    ∧ decode true 0 = .ok .shortNop
    ∧ decode false 0x0000_0000_0000_0100 = .ok (.endPart ⟨false, 0⟩)
    ∧ decode false 0x0000_0000_1420_C004 = .ok (.add ⟨false, 0⟩ .i64 (.reg 3) (.reg 2) (.reg 5))
    ∧ decode false 0xFFFF_FF12_0020_C008 = .ok (.addi ⟨false, 2⟩ .i32 3 2 0xFFFFFF)
    ∧ decode false (0x1234_5678 * 2 ^ 64 + 0x0000_0000_0001_C00D) = .ok (.movi ⟨false, 0⟩ 7 0x12345678)
    ∧ decode false 0x0000_0400_0030_4418 = .ok (.loop ⟨false, 0⟩ 1 3 4)
    ∧ decode false 0x0000_0000_00C2_442C = .ok (.msendt ⟨false, 0⟩ 9 12 0)
    ∧ decode false 0x0000_4009_0000_0548 = .ok (.lbwait ⟨true, 1⟩ 0 0 0 true 0)
    ∧ decode false 0x0000_6900_0000_0058 = .ok (.fence ⟨false, 0⟩ .cce .mbx .cluster)

/-- An instruction of a sequencer: one with demands of 07 R96, or one of the six that have their own rules (`nop` and the
short form, `csrr`, `csrw`, `csrx` and `eret`). -/
def Sys2Proof.Instr.ofSequencer (i : Instr) : Bool :=
  i.demands.isSome
    || match i with
      | .nop | .shortNop | .csrr _ _ _ | .csrw _ _ _ | .csrx _ _ _ _ | .eret _ => true
      | _ => false

/-- Encoding and decoding agree: every well-formed instruction of a sequencer has an encoding, of its own length in
bits, and the decoder reads from it the instruction with every operand as it was (07 R82 to R94 and the encoding tables of the
instruction chapters). -/
def Obligations.DecodeReadsBackEveryEncoding : Prop :=
  ∀ i : Instr, i.wf = true → i.ofSequencer = true →
    ∃ n w, encode i = some (n, w) ∧ n = 8 * i.len ∧ w < 2 ^ n ∧ decode (decide (i = .shortNop)) w = .ok i

/-- 07 R96 steps 3 to 6 and R88: the checks of an instruction come in order. A sequencer that may not run it raises
ILLEGAL-SEQUENCER; then a level that does not suffice raises PRIVILEGED; then an absent feature raises
FEATURE-ABSENT; then a guard of 0 completes the instruction with no effect: it pops nothing, reads and writes no
memory, waits on nothing and traps no more. -/
def Sys2Proof.Claims.ChecksComeInOrderBeforeTheEffect : Prop :=
  ∀ (i : Instr) (d : Demand) (s : State), i.demands = some d →
    (¬ s.seqOk d → exec i s = .next (s.takeTrap .illegalSequencer none .none))
      ∧ (s.seqOk d → ¬ s.levelOk d → exec i s = .next (s.takeTrap .privileged none .none))
      ∧ (s.seqOk d → s.levelOk d → ¬ s.featOk d → exec i s = .next ((s.lacking d.feat).takeTrap .featureAbsent none .none))
      ∧ (s.seqOk d → s.levelOk d → s.featOk d → ¬ s.guardOpen d.guard → exec i s = .next (s.retire i.len .fall))

/-- 08 R126, R127: the end rule, over every arrangement of the two counters; a sequencer in a trap handler does not
apply it, and an instruction that has transferred control does not. -/
def Obligations.EndRuleCountsTheLoops : Prop :=
  ∀ (c : Seq) (len : Nat),
    let n := c.pc + len
    (∀ pc, (c.retire len (.to pc)).pc = pc ∧ (c.retire len (.to pc)).lc0 = c.lc0 ∧ (c.retire len (.to pc)).lc1 = c.lc1)
      ∧ (c.inTrap = true → (c.retire len .fall).pc = n ∧ (c.retire len .fall).lc0 = c.lc0 ∧ (c.retire len .fall).lc1 = c.lc1)
      ∧ (c.inTrap = false →
          let t := c.retire len .fall
          let at0 := c.lc0.count ≠ 0 ∧ c.pc = c.lc0.stop
          let at1 := c.lc1.count ≠ 0 ∧ c.pc = c.lc1.stop
          (at0 → c.lc0.count ≠ 1 → t.pc = c.lc0.start ∧ t.lc0.count = c.lc0.count - 1 ∧ t.lc1 = c.lc1)
            ∧ (at0 → c.lc0.count = 1 → at1 → c.lc1.count ≠ 1 →
                t.pc = c.lc1.start ∧ t.lc0.count = c.lc0.saved ∧ t.lc1.count = c.lc1.count - 1)
            ∧ (at0 → c.lc0.count = 1 → at1 → c.lc1.count = 1 → t.pc = n ∧ t.lc0.count = 0 ∧ t.lc1.count = 0)
            ∧ (at0 → c.lc0.count = 1 → ¬ at1 → t.pc = n ∧ t.lc0.count = 0 ∧ t.lc1 = c.lc1)
            ∧ (¬ at0 → at1 → c.lc1.count ≠ 1 → t.pc = c.lc1.start ∧ t.lc0 = c.lc0 ∧ t.lc1.count = c.lc1.count - 1)
            ∧ (¬ at0 → at1 → c.lc1.count = 1 → t.pc = n ∧ t.lc0 = c.lc0 ∧ t.lc1.count = 0)
            ∧ (¬ at0 → ¬ at1 → t.pc = n ∧ t.lc0 = c.lc0 ∧ t.lc1 = c.lc1)
            ∧ t.lc0.start = c.lc0.start ∧ t.lc0.stop = c.lc0.stop ∧ t.lc0.saved = c.lc0.saved
            ∧ t.lc1.start = c.lc1.start ∧ t.lc1.stop = c.lc1.stop ∧ t.lc1.saved = c.lc1.saved)

namespace Sys2Proof.Claims

/-- The operand of a link's end, its receive buffer, and whether `nlink` forwards what is popped there. -/
def linkEnd (east : Bool) : Opnd := if east then .nE else .nW

end Sys2Proof.Claims

def Sys2Proof.Machine.Core.buffer (c : Core) (east : Bool) : List Word := if east then c.nE else c.nW
def Sys2Proof.Machine.Core.forwards (c : Core) (east : Bool) : Bool := if east then c.fw else c.fe

/-- 07 R87, 08 R107: what a source or destination operand does. A register reads or writes the sequencer's file (s0
reads as zero and takes no write); lq0 to lq3 pop their head, wait for it, or raise QUEUE-MISUSE where no load can fill the queue
any more (01 R17). At either end, nE or nW pops the word that waits in the core's receive buffer, which `nlink` may forward to
the other end (10 R161), or pushes a word to the far core's buffer; it waits on an empty buffer and on one that holds four
words, and at an end that the stitch joins to no core it raises PLACE-INVALID (01 R15, R29). -/
def Obligations.OperandsReadAndWriteTheirFiles : Prop :=
  (∀ (r : Reg) (s : State), src (.reg r) s = .ok (s.seq.readS r, s))
    ∧ (∀ (r : Reg) (v : Word) (s : State), ∃ t, dst (.reg r) v s = .ok ((), t) ∧ t = s.modMy (fun m => m.setSeq s.cur.2 t.seq)
        ∧ (r.val ≠ 0 → t.seq.readS r = v) ∧ (∀ q, q ≠ r → t.seq.readS q = s.seq.readS q) ∧ (r.val = 0 → t.seq = s.seq)
        ∧ ∀ k, t.seq.readK k = s.seq.readK k)
    ∧ (∀ s : State, s.seq.readS 0 = 0 ∧ s.seq.readK 0 = BitVec.allOnes 32)
    ∧ (∀ (i : Fin 4) (w : Word) (es : List LqEntry) (s : State), s.my.q.lq[i.val] = .full w :: es →
        ∃ t, src (.lq i) s = .ok (w, t) ∧ t.my.q.lq[i.val] = es ∧ OnlyStrand s t)
    ∧ (∀ (i : Fin 4) (s : State), s.my.q.lq[i.val] = [] → s.my.as.gone = true →
        src (.lq i) s = .error (.trap .queueMisuse (some (BitVec.ofNat 64 i.val)) .none))
    ∧ (∀ (i : Fin 4) (s : State), s.my.q.lq[i.val] = [] → s.my.as.gone = false → s.seq.used = 0 →
        src (.lq i) s = .error (.wait ⟨.queue i.val, 0, none, none⟩ none))
    ∧ (∀ (i : Fin 4) (e : LqEntry) (es : List LqEntry) (s : State), s.my.q.lq[i.val] = e :: es →
        (∀ c v r, e = .marked c v r → src (.lq i) s = .error (.trap c (some v) (.redo i)))
          ∧ ((∃ n r, e = .pending n r ∨ e = .redo r) → s.seq.used = 0 →
              src (.lq i) s = .error (.wait ⟨.queue i.val, 0, none, none⟩ none)))
    ∧ (∀ (east : Bool) (s : State), s.neighbour s.cur.1 east = none →
        src (linkEnd east) s = .error (.trap .placeInvalid (some (if east then 4 else 5)) .none)
          ∧ ∀ v, dst (linkEnd east) v s = .error (.trap .placeInvalid (some (if east then 4 else 5)) .none))
    ∧ (∀ (east : Bool) (q : Place) (s : State), s.neighbour s.cur.1 east = some q → s.seq.used = 0 →
        (s.me.buffer east = [] → src (linkEnd east) s = .error (.wait ⟨.link, 0, none, none⟩ none))
          ∧ (4 ≤ ((s.core q).buffer (!east)).length →
              ∀ v, dst (linkEnd east) v s = .error (.wait ⟨.link, 0, none, none⟩ none)))
    ∧ (∀ (east : Bool) (w : Word) (ws : List Word) (q : Place) (s : State), s.neighbour s.cur.1 east = some q →
        s.me.buffer east = w :: ws → s.me.forwards east = false →
        ∃ t, src (linkEnd east) s = .ok (w, t) ∧ t.me.buffer east = ws ∧ t.me.buffer (!east) = s.me.buffer (!east)
          ∧ ∀ p, p ≠ s.cur.1 → t.core p = s.core p)
    ∧ (∀ (east : Bool) (w : Word) (ws : List Word) (q r : Place) (s : State), s.neighbour s.cur.1 east = some q →
        s.me.buffer east = w :: ws → s.me.forwards east = true → s.neighbour s.cur.1 (!east) = some r → r ≠ s.cur.1 →
        ((s.core r).buffer east).length < 4 →
        ∃ t, src (linkEnd east) s = .ok (w, t) ∧ t.me.buffer east = ws
          ∧ (t.core r).buffer east = (s.core r).buffer east ++ [w] ∧ ∀ p, p ≠ s.cur.1 → p ≠ r → t.core p = s.core p)
    ∧ (∀ (east : Bool) (v : Word) (q : Place) (s : State), s.neighbour s.cur.1 east = some q →
        ((s.core q).buffer (!east)).length < 4 →
        ∃ t, dst (linkEnd east) v s = .ok ((), t) ∧ (t.core q).buffer (!east) = (s.core q).buffer (!east) ++ [v]
          ∧ (t.core q).buffer east = (s.core q).buffer east ∧ ∀ p, p ≠ q → t.core p = s.core p)

/-! ## Taking an exception and returning from one -/

/-- 22 R296, 07 R102: delivery to the supervisor. CAUSE takes the level at the trap, the sequencer and the code, and UDEL
keeps its value; EPC takes both sequencers' resume points, 0xFFFF_FFFF for a part that is absent or has ended; TVAL is
set; the trapping sequencer goes on at STVEC at supervisor level, the other one stops; the user registers, the
loop counters, the queues and the vector, matrix and GMU state are as the strand left them, and so is all memory. -/
def Sys2Proof.Claims.SupervisorDeliverySavesAndEnters : Prop :=
  ∀ (s : State) (p : Place) (q : SeqId) (c : Cause) (v : Word),
    let m := s.strand p
    let t := (s.toSupervisor p q c v).strand p
    let u := s.toSupervisor p q c v
    t.csr.cause = ⟨(m.seq q).level != .user, m.csr.cause.udel, q == .xs, BitVec.ofNat 8 c.code⟩
      ∧ t.csr.apc = (if m.as.present && !m.as.ended then BitVec.ofNat 32 m.as.pc else 0xFFFFFFFF)
      ∧ t.csr.xpc = (if m.xs.present && !m.xs.ended then BitVec.ofNat 32 m.xs.pc else 0xFFFFFFFF)
      ∧ t.csr.tval = v
      ∧ (t.seq q).level = .supervisor ∧ (t.seq q).pc = (s.core p).stvec.toNat ∧ (t.seq q).inTrap = true
      ∧ (t.seq (otherSeq q)).stopped = true ∧ (t.seq (otherSeq q)).level = (m.seq (otherSeq q)).level
      ∧ (∀ r, (t.seq r).s = (m.seq r).s ∧ (t.seq r).k = (m.seq r).k ∧ (t.seq r).lc0 = (m.seq r).lc0
          ∧ (t.seq r).lc1 = (m.seq r).lc1)
      ∧ t.q = m.q ∧ t.vec = m.vec ∧ t.mat = m.mat ∧ t.gmu = m.gmu
      ∧ t.csr.fpstat = m.csr.fpstat ∧ t.csr.fpmode = m.csr.fpmode ∧ t.csr.left = m.csr.left
      ∧ u.mem = s.mem ∧ u.tick = s.tick ∧ (∀ r, r ≠ p → u.core r = s.core r) ∧ u.parts = s.parts ∧ u.fab = s.fab

/-- 22 R294, R295: where a trap goes. With a cause of UTVEC route raised at user level, its UTMASK bit 1 and UDEL 0, a
UTVEC within the code region takes it at user level with UDEL 1, and a UTVEC outside, once CAUSE has taken the trap and UDEL 1,
raises WINDOW-BOUNDS to the supervisor with UTVEC as TVAL and UDEL kept. With UTVEC 0 the strand is held as a root, CAUSE, EPC and TVAL recorded; the trap goes to
the supervisor where no slot is free or the instruction raises the cause again after that hold (the model's reading, log
entry 86). Every other trap goes to the supervisor. -/
def Sys2Proof.Claims.TrapsFollowTheirRoute : Prop :=
  ∀ (s : State) (p : Place) (q : SeqId) (c : Cause) (v : Word),
    let m := s.strand p
    let user := (c = .singularBlock ∨ c = .refinement ∨ c = .deadline ∨ c = .brk ∨ c = .format)
      ∧ (m.seq q).level = .user ∧ m.csr.utmask.getLsbD c.code = true ∧ m.csr.cause.udel = false
    let noted := s.modStrand p fun t => { t.setSeq q { t.seq q with retry := some c } with
      csr := { t.csr with
        cause := ⟨false, false, q == .xs, BitVec.ofNat 8 c.code⟩, apc := t.as.epc, xpc := t.xs.epc, tval := v } }
    (¬ user → s.trapTo p q c v = s.toSupervisor p q c v)
      ∧ (user → m.csr.utvec = 0 → (m.seq q).retry = some c → s.trapTo p q c v = s.toSupervisor p q c v)
      ∧ (user → m.csr.utvec = 0 → (m.seq q).retry ≠ some c → noted.holdRoot p = none →
          s.trapTo p q c v = s.toSupervisor p q c v)
      ∧ (user → m.csr.utvec = 0 → (m.seq q).retry ≠ some c → ∀ u id, noted.holdRoot p = some (u, id) →
          s.trapTo p q c v = u)
      ∧ (user → m.csr.utvec ≠ 0 → s.codeSize p ≤ m.csr.utvec.toNat →
          let u := s.trapTo p q c v
          let t := u.strand p
          t.csr.cause = ⟨false, true, q == .xs, 0x08⟩ ∧ t.csr.apc = m.as.epc ∧ t.csr.xpc = m.xs.epc ∧ t.csr.tval = m.csr.utvec
            ∧ (t.seq q).pc = (s.core p).stvec.toNat ∧ (t.seq q).level = .supervisor ∧ (t.seq (otherSeq q)).stopped = true
            ∧ (∀ r, (t.seq r).s = (m.seq r).s ∧ (t.seq r).k = (m.seq r).k) ∧ t.q = m.q ∧ t.vec = m.vec ∧ t.mat = m.mat
            ∧ t.csr.fpstat = m.csr.fpstat ∧ u.mem = s.mem ∧ ∀ r, r ≠ p → u.core r = s.core r)
      ∧ (user → m.csr.utvec ≠ 0 → m.csr.utvec.toNat < s.codeSize p →
          let u := s.trapTo p q c v
          let t := u.strand p
          t.csr.cause = ⟨false, true, q == .xs, BitVec.ofNat 8 c.code⟩ ∧ t.csr.apc = m.as.epc ∧ t.csr.xpc = m.xs.epc
            ∧ t.csr.tval = v ∧ (t.seq q).pc = m.csr.utvec.toNat ∧ (t.seq q).level = .user
            ∧ (t.seq (otherSeq q)).stopped = true ∧ (∀ r, (t.seq r).s = (m.seq r).s ∧ (t.seq r).k = (m.seq r).k)
            ∧ t.q = m.q ∧ t.vec = m.vec ∧ t.mat = m.mat ∧ t.csr.fpstat = m.csr.fpstat ∧ t.csr.fpmode = m.csr.fpmode
            ∧ u.mem = s.mem ∧ ∀ r, r ≠ p → u.core r = s.core r)

/-- 07 R102, 22 R294, R295, R296: where a trap goes, what it saves and what it enters. -/
def Obligations.TrapsAreDelivered : Prop :=
  Claims.SupervisorDeliverySavesAndEnters ∧ Claims.TrapsFollowTheirRoute

/-- 08 R128: `tret` raises ILLEGAL-ENCODING with UDEL 0, MISALIGNED-TARGET and WINDOW-BOUNDS on a bad resume offset, and
otherwise clears UDEL and goes on at the sequencer's own EPC field at user level, the other sequencer at its field
unless that reads 0xFFFF_FFFF. -/
def Obligations.TretReturnsFromTheUserHandler : Prop :=
  ∀ (s : State) (g : Guard), s.meets (.tret g) →
    let r := s.my.csr
    let t := if s.cur.2 = .xs then r.xpc.toNat else r.apc.toNat
    let o := if s.cur.2 = .xs then r.apc else r.xpc
    (r.cause.udel = false → exec (.tret g) s = .next (s.takeTrap .illegalEncoding (some 0) .none))
      ∧ (r.cause.udel = true → t % 4 ≠ 0 →
          exec (.tret g) s = .next (s.takeTrap .misalignedTarget (some (BitVec.ofNat 64 t)) .none))
      ∧ (r.cause.udel = true → t % 4 = 0 → s.codeSize s.cur.1 ≤ t →
          exec (.tret g) s = .next (s.takeTrap .windowBounds (some (BitVec.ofNat 64 t)) .none))
      ∧ (r.cause.udel = true → t % 4 = 0 → t < s.codeSize s.cur.1 →
          ∃ u, exec (.tret g) s = .next u ∧ u.my.csr = { r with cause := { r.cause with udel := false } }
            ∧ u.seq.pc = t ∧ u.seq.level = .user ∧ u.seq.s = s.seq.s ∧ u.seq.k = s.seq.k
            ∧ (o ≠ 0xFFFFFFFF → (u.my.seq (otherSeq s.cur.2)).stopped = false
                ∧ (u.my.seq (otherSeq s.cur.2)).pc = o.toNat)
            ∧ (o = 0xFFFFFFFF → u.my.seq (otherSeq s.cur.2) = s.my.seq (otherSeq s.cur.2))
            ∧ u.mem = s.mem ∧ u.my.q = s.my.q ∧ u.my.vec.v = s.my.vec.v ∧ u.my.mat = s.my.mat)

/-- 22 R318: `eret` at user level raises PRIVILEGED with TVAL 0; above it, it goes on at the sequencer's EPC field at the
level that CAUSE.PPRV names, with CAUSE left as it stands, and resumes the other sequencer. -/
def Sys2Proof.Claims.EretReturnsToThePriorLevel : Prop :=
  ∀ (s : State) (g : Guard),
    let r := s.my.csr
    let t := if s.cur.2 = .xs then r.xpc.toNat else r.apc.toNat
    let o := if s.cur.2 = .xs then r.apc else r.xpc
    let l : Level := if r.cause.pprv then .supervisor else .user
    (s.seq.level = .user → exec (.eret g) s = .next (s.takeTrap .privileged (some 0) .none))
      ∧ (s.seq.level ≠ .user → s.seq.passes g = false → exec (.eret g) s = .next (s.retire 8 .fall))
      ∧ (s.seq.level ≠ .user → s.seq.passes g = true → t % 4 ≠ 0 →
          exec (.eret g) s = .next (s.takeTrap .misalignedTarget (some (BitVec.ofNat 64 t)) .none))
      ∧ (s.seq.level ≠ .user → s.seq.passes g = true → t % 4 = 0 → s.regionSize s.cur.1 l ≤ t →
          exec (.eret g) s = .next (s.takeTrap .windowBounds (some (BitVec.ofNat 64 t)) .none))
      ∧ (s.seq.level ≠ .user → s.seq.passes g = true → t % 4 = 0 → t < s.regionSize s.cur.1 l →
          ∃ u, exec (.eret g) s = .next u ∧ u.my.csr = r ∧ u.seq.pc = t ∧ u.seq.level = l
            ∧ (o ≠ 0xFFFFFFFF → (u.my.seq (otherSeq s.cur.2)).stopped = false
                ∧ (u.my.seq (otherSeq s.cur.2)).pc = o.toNat)
            ∧ (o = 0xFFFFFFFF → u.my.seq (otherSeq s.cur.2) = s.my.seq (otherSeq s.cur.2))
            ∧ u.seq.s = s.seq.s ∧ u.seq.sups = s.seq.sups ∧ u.mem = s.mem)

/-- 22 R318: `trap` completes, by the end rule, and then raises BREAK with its immediate as TVAL: EPC names the
instruction that the rule chose, and the supervisor's handler runs where the route is not UTVEC. -/
def Sys2Proof.Claims.TrapInstructionCompletesAndBreaks : Prop :=
  ∀ (s : State) (g : Guard) (code : BitVec 24),
    Ends (.trap g code) s ((s.retire 8 .fall).trapTo s.cur.1 s.cur.2 .brk (code.setWidth 64))
      ∧ (s.meets (.trap g code) → s.my.csr.utmask.getLsbD 0x14 = false → s.seq.present = true → s.seq.ended = false →
          ∃ u, exec (.trap g code) s = .next u ∧ u.my.csr.cause.code = 0x14 ∧ u.my.csr.tval = code.setWidth 64
            ∧ u.seq.level = .supervisor ∧ u.seq.pc = s.me.stvec.toNat
            ∧ (if s.cur.2 = .xs then u.my.csr.xpc else u.my.csr.apc) = BitVec.ofNat 32 (s.seq.endRule 8).pc)

/-- 07 R94, R96: a word that is no instruction raises ILLEGAL-ENCODING, whatever its guard and the level (TVAL takes a
free value where the manual gives the cause none: the model's choice, log entry 10). -/
def Sys2Proof.Claims.IllegalWordsTrap : Prop :=
  ∀ (s : State) (e : BadEncoding), ∃ u, exec (.illegalEncoding e) s = .next u ∧ u.my.csr.cause.code = 0x01
    ∧ u.my.csr.tval = Config.freeValue s.free ∧ u.seq.level = .supervisor ∧ u.seq.pc = s.me.stvec.toNat ∧ u.mem = s.mem

/-- 07 R94, R96, 22 R318: `eret`, `trap`, and words that are no instruction. -/
def Obligations.SoftwareTrapsAndReturns : Prop :=
  Claims.EretReturnsToThePriorLevel ∧ Claims.TrapInstructionCompletesAndBreaks ∧ Claims.IllegalWordsTrap

/-! ## Scalar instructions -/

/-- 08 R111, 07 R83: `nop` and the short nop complete and change nothing but the pc (and the loop counters, by the end
rule), at every level and on either sequencer. -/
def Sys2Proof.Claims.NopsHaveNoEffect : Prop :=
  ∀ s : State, exec .nop s = .next (s.retire 8 .fall) ∧ exec .shortNop s = .next (s.retire 4 .fall)
    ∧ (s.seq.inTrap = false → s.seq.lc0.count = 0 → s.seq.lc1.count = 0 →
        OnlyRegisters s (s.retire 8 .fall) [] [] ∧ (s.retire 8 .fall).seq.pc = s.seq.pc + 8
          ∧ (s.retire 4 .fall).seq.pc = s.seq.pc + 4)

/-- 07 R83, R88, R96, 08 R111: the checks of an instruction, in order, before its effect; `nop` and the short form have
none. -/
def Obligations.ChecksPrecedeTheEffect : Prop :=
  Claims.ChecksComeInOrderBeforeTheEffect ∧ Claims.NopsHaveNoEffect

/-- 08 R113: the results of the integer register forms, for every operand form; both sources are read, and popped, A
before B, before D is written or pushed. `a` and `b` are the w-bit sources as unsigned numbers, `k` is `b mod w`. -/
def Sys2Proof.Claims.IntegerRegisterResults : Prop :=
  ∀ (s s1 s2 : State) (g : Guard) (x : XT) (d oa ob : Opnd) (va vb : Word),
    src oa s = .ok (va, s1) → src ob s1 = .ok (vb, s2) →
    let w := widthOf x
    let a := va.toNat % 2 ^ w
    let b := vb.toNat % 2 ^ w
    let k := b % w
    let sa : Int := if a < 2 ^ (w - 1) then a else (a : Int) - 2 ^ w
    let sb : Int := if b < 2 ^ (w - 1) then b else (b : Int) - 2 ^ w
    GivesInt (.add g x d oa ob) s s2 d x (a + b)
      ∧ GivesInt (.sub g x d oa ob) s s2 d x (a - b)
      ∧ GivesInt (.mul g x d oa ob) s s2 d x (a * b)
      ∧ GivesInt (.mulh g x d oa ob) s s2 d x (sa * sb / 2 ^ w)
      ∧ GivesInt (.mulhz g x d oa ob) s s2 d x ((a * b : Nat) / 2 ^ w)
      ∧ (b = 0 → GivesInt (.div g x d oa ob) s s2 d x (2 ^ w - 1) ∧ GivesInt (.divz g x d oa ob) s s2 d x (2 ^ w - 1)
          ∧ GivesInt (.rem g x d oa ob) s s2 d x sa ∧ GivesInt (.remz g x d oa ob) s s2 d x a)
      ∧ (sa = -2 ^ (w - 1) → sb = -1 →
          GivesInt (.div g x d oa ob) s s2 d x (-2 ^ (w - 1)) ∧ GivesInt (.rem g x d oa ob) s s2 d x 0)
      ∧ (b ≠ 0 → ¬ (sa = -2 ^ (w - 1) ∧ sb = -1) →
          GivesInt (.div g x d oa ob) s s2 d x (sa.tdiv sb) ∧ GivesInt (.rem g x d oa ob) s s2 d x (sa.tmod sb))
      ∧ (b ≠ 0 → GivesInt (.divz g x d oa ob) s s2 d x (a / b) ∧ GivesInt (.remz g x d oa ob) s s2 d x (a % b))
      ∧ GivesInt (.and g x d oa ob) s s2 d x (a &&& b : Nat)
      ∧ GivesInt (.or g x d oa ob) s s2 d x (a ||| b : Nat)
      ∧ GivesInt (.xor g x d oa ob) s s2 d x (a ^^^ b : Nat)
      ∧ GivesInt (.andn g x d oa ob) s s2 d x (a &&& (2 ^ w - 1 - b) : Nat)
      ∧ GivesInt (.shl g x d oa ob) s s2 d x (a * 2 ^ k)
      ∧ GivesInt (.shr g x d oa ob) s s2 d x (a / 2 ^ k : Nat)
      ∧ GivesInt (.sra g x d oa ob) s s2 d x (sa / 2 ^ k)
      ∧ GivesInt (.rol g x d oa ob) s s2 d x (a * 2 ^ k + (a / 2 ^ (w - k) : Nat))
      ∧ GivesInt (.min g x d oa ob) s s2 d x (if sa ≤ sb then sa else sb)
      ∧ GivesInt (.max g x d oa ob) s s2 d x (if sa ≤ sb then sb else sa)
      ∧ GivesInt (.minz g x d oa ob) s s2 d x (if a ≤ b then a else b : Nat)
      ∧ GivesInt (.maxz g x d oa ob) s s2 d x (if a ≤ b then b else a : Nat)

/-- 08 R113: the immediate forms take the sign-extended I, cut to w bits, for B. -/
def Sys2Proof.Claims.IntegerImmediateResults : Prop :=
  ∀ (s : State) (g : Guard) (x : XT) (d ra : Reg) (i : BitVec 24),
    let w := widthOf x
    let a := (s.seq.readS ra).toNat % 2 ^ w
    let b := (i.toInt % 2 ^ w).toNat
    let k := b % w
    let sa : Int := if a < 2 ^ (w - 1) then a else (a : Int) - 2 ^ w
    GivesInt (.addi g x d ra i) s s (.reg d) x (a + b)
      ∧ GivesInt (.andi g x d ra i) s s (.reg d) x (a &&& b : Nat)
      ∧ GivesInt (.ori g x d ra i) s s (.reg d) x (a ||| b : Nat)
      ∧ GivesInt (.xori g x d ra i) s s (.reg d) x (a ^^^ b : Nat)
      ∧ GivesInt (.shli g x d ra i) s s (.reg d) x (a * 2 ^ k)
      ∧ GivesInt (.shri g x d ra i) s s (.reg d) x (a / 2 ^ k : Nat)
      ∧ GivesInt (.srai g x d ra i) s s (.reg d) x (sa / 2 ^ k)
      ∧ GivesInt (.roli g x d ra i) s s (.reg d) x (a * 2 ^ k + (a / 2 ^ (w - k) : Nat))
      ∧ GivesInt (.muli g x d ra i) s s (.reg d) x (a * b)

/-- 08 R115: moves and addresses; `movw` reads D before it writes it, `rdtick` reads the module's tick. -/
def Sys2Proof.Claims.MovesAndAddresses : Prop :=
  ∀ (s s1 s2 : State) (g : Guard) (x : XT) (d oa ob : Opnd) (rd : Reg) (va vb : Word) (j : BitVec 32) (sc : Fin 4)
    (disp : BitVec 10),
    src oa s = .ok (va, s1) → src ob s1 = .ok (vb, s2) →
    Gives (.movi g rd j) s s (.reg rd) (BitVec.ofInt 64 j.toInt)
      ∧ Gives (.movw g rd j) s s (.reg rd) (BitVec.ofNat 64 (j.toNat * 2 ^ 32 + (s.seq.readS rd).toNat % 2 ^ 32))
      ∧ Gives (.mov g x d oa) s s1 d (extendAs x (widthOf x) va.toNat)
      ∧ Gives (.sext g x d oa) s s1 d (extendAs x (widthOf x) va.toNat)
      ∧ Gives (.zext g x d oa) s s1 d (extendAs x (widthOf x) va.toNat)
      ∧ Gives (.lea g d oa ob sc disp) s s2 d (BitVec.ofInt 64 (va.toNat + vb.toNat * 2 ^ sc.val + disp.toInt))
      ∧ Gives (.rdtick g rd) s s (.reg rd) (BitVec.ofNat 64 s.tick)

/-- 08 R108: a w-bit result extended to 64 bits, sign-extended for the signed codes and zero-extended for the others. -/
def Sys2Proof.Claims.ResultsAreExtended : Prop :=
  ∀ (x : XT) (v : Nat),
    let w := widthOf x
    let u := v % 2 ^ w
    (x.isSigned = true → extendAs x w v = BitVec.ofInt 64 (if u < 2 ^ (w - 1) then (u : Int) else u - 2 ^ w))
      ∧ (x.isSigned = false → extendAs x w v = BitVec.ofNat 64 u)

/-- 08 R108, R113, R115: the results of the integer instructions, exact and then reduced and extended. -/
def Obligations.IntegerResults : Prop :=
  Claims.IntegerRegisterResults ∧ Claims.IntegerImmediateResults ∧ Claims.MovesAndAddresses ∧ Claims.ResultsAreExtended

/-- 08 R115: compare, select, counts and bit fields. -/
def Obligations.ComparesSelectsAndBits : Prop :=
  ∀ (s s1 s2 : State) (g : Guard) (x : XT) (d oa ob : Opnd) (rd : Reg) (kd kc : Fin 8) (va vb : Word) (pos lm1 : Fin 64),
    src oa s = .ok (va, s1) → src ob s1 = .ok (vb, s2) →
    let w := widthOf x
    let a := va.toNat % 2 ^ w
    let b := vb.toNat % 2 ^ w
    let u : Int := if x.isSigned ∧ ¬ a < 2 ^ (w - 1) then (a : Int) - 2 ^ w else a
    let v : Int := if x.isSigned ∧ ¬ b < 2 ^ (w - 1) then (b : Int) - 2 ^ w else b
    let f := va.toNat / 2 ^ pos.val % 2 ^ (lm1.val + 1)
    let flag (p : Bool) : State := s2.modSeq (·.writeK kd (if p then 1 else 0))
    Completes (.cmp g x kd .eq oa ob) s (flag (u = v)) ∧ Completes (.cmp g x kd .ne oa ob) s (flag (u ≠ v))
      ∧ Completes (.cmp g x kd .lt oa ob) s (flag (u < v)) ∧ Completes (.cmp g x kd .ge oa ob) s (flag (v ≤ u))
      ∧ Completes (.cmp g x kd .le oa ob) s (flag (u ≤ v)) ∧ Completes (.cmp g x kd .gt oa ob) s (flag (v < u))
      ∧ Gives (.sel g d oa ob kc) s s2 d (if (s2.seq.readK kc).getLsbD 0 then va else vb)
      ∧ (∀ n ≤ w, n + Nat.size a = w → Gives (.clz g x d oa) s s1 d (extendAs x w n))
      ∧ (a ≠ 0 → ∀ n, a % 2 ^ n = 0 → a / 2 ^ n % 2 = 1 → Gives (.ctz g x d oa) s s1 d (extendAs x w n))
      ∧ (a = 0 → Gives (.ctz g x d oa) s s1 d (extendAs x w w))
      ∧ Gives (.popc g x d oa) s s1 d (extendAs x w ((List.range w).countP fun i => a.testBit i))
      ∧ (x = .i64 → Gives (.bfx g x d oa pos lm1) s s1 d
          (BitVec.ofInt 64 (if f < 2 ^ lm1.val then (f : Int) else f - 2 ^ (lm1.val + 1))))
      ∧ (x = .z64 → Gives (.bfx g x d oa pos lm1) s s1 d (BitVec.ofNat 64 f))
      ∧ (pos.val + lm1.val ≤ 63 → ∃ r : Word, Completes (.bfi g rd oa pos lm1) s (s1.modSeq (·.writeS rd r))
          ∧ ∀ i : Nat, i < 64 → r.getLsbD i =
              if pos.val ≤ i ∧ i ≤ pos.val + lm1.val then va.getLsbD (i - pos.val) else (s1.seq.readS rd).getLsbD i)

/-- The frame of the scalar instructions whose operands are registers: the destination register alone is written, every
other scalar and predicate register, every other register of the strand and every byte of memory is as before,
and so is all else in the module. -/
def Sys2Proof.Claims.ScalarInstructionsChangeTheirDestinationAlone : Prop :=
  ∀ (s : State) (g : Guard) (x : XT) (d a b : Reg) (i : BitVec 24) (j : BitVec 32) (kc : Fin 8) (sc : Fin 4)
    (disp : BitVec 10) (pos lm1 : Fin 64),
    ∀ ins ∈ ([.add g x (.reg d) (.reg a) (.reg b), .sub g x (.reg d) (.reg a) (.reg b), .mul g x (.reg d) (.reg a) (.reg b),
        .mulh g x (.reg d) (.reg a) (.reg b), .mulhz g x (.reg d) (.reg a) (.reg b), .div g x (.reg d) (.reg a) (.reg b),
        .divz g x (.reg d) (.reg a) (.reg b), .rem g x (.reg d) (.reg a) (.reg b), .remz g x (.reg d) (.reg a) (.reg b),
        .and g x (.reg d) (.reg a) (.reg b), .or g x (.reg d) (.reg a) (.reg b), .xor g x (.reg d) (.reg a) (.reg b),
        .andn g x (.reg d) (.reg a) (.reg b), .shl g x (.reg d) (.reg a) (.reg b), .shr g x (.reg d) (.reg a) (.reg b),
        .sra g x (.reg d) (.reg a) (.reg b), .rol g x (.reg d) (.reg a) (.reg b), .min g x (.reg d) (.reg a) (.reg b),
        .max g x (.reg d) (.reg a) (.reg b), .minz g x (.reg d) (.reg a) (.reg b), .maxz g x (.reg d) (.reg a) (.reg b),
        .addi g x d a i, .andi g x d a i, .ori g x d a i, .xori g x d a i, .shli g x d a i, .shri g x d a i,
        .srai g x d a i, .roli g x d a i, .muli g x d a i, .movi g d j, .movw g d j, .mov g x (.reg d) (.reg a),
        .lea g (.reg d) (.reg a) (.reg b) sc disp, .rdtick g d, .sel g (.reg d) (.reg a) (.reg b) kc,
        .clz g x (.reg d) (.reg a), .ctz g x (.reg d) (.reg a), .popc g x (.reg d) (.reg a),
        .bfx g x (.reg d) (.reg a) pos lm1, .bfi g d (.reg a) pos lm1, .sext g x (.reg d) (.reg a),
        .zext g x (.reg d) (.reg a)] : List Instr),
      s.meets ins → ∃ t, exec ins s = .next t ∧ OnlyRegisters s t [d] []

/-- 08 R118: `fadd`, `fsub`, `fmul`, `fdiv`, `fma`, `fsqrt`, `fmin` and `fmax` complete on the XS, with what 05's arithmetic
makes of their w-bit sources under FPMODE, zero-extended to 64 bits, and OR their flags into FPSTAT (08 R120; `fcmp`, `fcvt`,
`fsgn` and `fclass` have statements of their own). -/
def Obligations.ScalarFloatResults : Prop :=
  ∀ (s s1 s2 s3 : State) (g : Guard) (x : XT) (d oa ob : Opnd) (c : Reg) (va vb : Word),
    src oa s = .ok (va, s1) → src ob s1 = .ok (vb, s2) →
    let w := widthOf x
    let a := va.toNat % 2 ^ w
    let b := vb.toNat % 2 ^ w
    let e := (s2.seq.readS c).toNat % 2 ^ w
    let gives (i : Instr) (u : State) (r : Nat × Flags) : Prop :=
      dst d (BitVec.ofNat 64 (r.1 % 2 ^ w)) u = .ok ((), s3) →
        Completes i s (s3.modMy fun t => { t with csr := { t.csr with fpstat := t.csr.fpstat ||| r.2 } })
    gives (.fadd g x d oa ob) s2 (fAdd x s2.my.csr.fpmode.toNat a b)
      ∧ gives (.fsub g x d oa ob) s2 (fSub x s2.my.csr.fpmode.toNat a b)
      ∧ gives (.fmul g x d oa ob) s2 (fMul x s2.my.csr.fpmode.toNat a b)
      ∧ gives (.fdiv g x d oa ob) s2 (fDiv x s2.my.csr.fpmode.toNat a b)
      ∧ gives (.fma g x d oa ob c) s2 (fMa x s2.my.csr.fpmode.toNat a b e)
      ∧ gives (.fsqrt g x d oa) s1 (fSqrt x s1.my.csr.fpmode.toNat a)
      ∧ gives (.fmin g x d oa ob) s2 (fMinMax x false a b)
      ∧ gives (.fmax g x d oa ob) s2 (fMinMax x true a b)

/-- 08 R119: `fcmp` sets bit 0 of kD to the relation and bits 31:1 to zero. With ordered operands eq, lt and le are the
usual relations of their exact values (−0 equals +0), un is false and ne the negation of eq; with a NaN eq, lt
and le are false, un and ne true. A signalling NaN raises NV under every CC, a quiet one under lt and le only. -/
def Obligations.FcmpSetsItsRelation : Prop :=
  ∀ (s s1 s2 : State) (g : Guard) (x : XT) (kd : Fin 8) (cc : FCond) (oa ob : Opnd) (va vb : Word),
    src oa s = .ok (va, s1) → src ob s1 = .ok (vb, s2) → s.meets (.fcmp g x kd cc oa ob) →
    let a := decodeF x (va.toNat % 2 ^ widthOf x)
    let b := decodeF x (vb.toNat % 2 ^ widthOf x)
    ∃ (r : Bool) (f : Flags),
      exec (.fcmp g x kd cc oa ob) s = .next (((s2.modSeq (·.writeK kd (if r then 1 else 0))).modMy fun t =>
          { t with csr := { t.csr with fpstat := t.csr.fpstat ||| f } }).retire 8 .fall)
        ∧ (a.isNan = true ∨ b.isNan = true →
            r = (match cc with | .eq | .lt | .le => false | .un | .ne => true)
              ∧ ((a = .nan true ∨ b = .nan true ∨ cc = .lt ∨ cc = .le) → f = 16)
              ∧ (¬ (a = .nan true ∨ b = .nan true ∨ cc = .lt ∨ cc = .le) → f = 0))
        ∧ (a.isNan = false → b.isNan = false →
            f = 0 ∧ (r = true ↔ (match cc with
              | .eq => a.extended = b.extended
              | .lt => a.extended < b.extended
              | .le => a.extended ≤ b.extended
              | .un => False
              | .ne => a.extended ≠ b.extended)))

/-- 08 R118, 05 R65, R66: the corners of FP arithmetic. A signalling NaN operand raises NV and any NaN gives the
canonical NaN; an invalid operation (∞ − ∞, 0 × ∞, 0 / 0, ∞ / ∞, the root of a negative number) gives it with NV; a
finite non-zero number divided by zero gives the infinity of the signs with DZ. -/
def Sys2Proof.Claims.FloatCornersFollowTheRules : Prop :=
  ∀ (x : XT) (rm a b c : Nat), x.isFp = true →
    let u := decodeF x a
    let v := decodeF x b
    let w := decodeF x c
    let nv (s : Bool) : Flags := if s then 16 else 0
    (u.isNan = true ∨ v.isNan = true → ∀ f ∈ [fAdd, fSub, fMul, fDiv],
        f x rm a b = (canonNan x, nv (u.isSNan || v.isSNan)))
      ∧ (u.isNan = true → fSqrt x rm a = (canonNan x, nv u.isSNan))
      ∧ (u.isNan = true ∨ v.isNan = true ∨ w.isNan = true →
          fMa x rm a b c = (canonNan x, nv (u.isSNan || v.isSNan || w.isSNan)))
      ∧ (∀ n, u = .inf n → v = .inf n → fSub x rm a b = (canonNan x, 16))
      ∧ (∀ n, u = .inf n → v = .inf (!n) → fAdd x rm a b = (canonNan x, 16))
      ∧ (u.isInf = true → v.isZero = true → fMul x rm a b = (canonNan x, 16))
      ∧ (u.isInf = true → v.isZero = true → w.isNan = false → fMa x rm a b c = (canonNan x, 16))
      ∧ (u.isZero = true → v.isZero = true → fDiv x rm a b = (canonNan x, 16))
      ∧ (u.isInf = true → v.isInf = true → fDiv x rm a b = (canonNan x, 16))
      ∧ (u.isFinite = true → u.isZero = false → v.isZero = true →
          fDiv x rm a b = (infBits x (u.neg? != v.neg?), 8))
      ∧ (u.neg? = true → u.isNan = false → u.isZero = false → fSqrt x rm a = (canonNan x, 16))

/-- 08 R118, 05 R65, R75: results other than the invalid ones. A non-zero exact sum, difference, product, fused product and sum,
quotient or root is rounded once under the attribute, with its flags; an exact zero takes the sign of both operands where they
agree, else +0, and −0 in RDN alone; an infinity goes through; minimum and maximum order −0 below +0, take the other operand
beside one NaN, and give the canonical NaN for two. -/
def Sys2Proof.Claims.ArithmeticRoundsTheExactValue : Prop :=
  ∀ (x : XT) (rm a b c : Nat), x.isFp = true → rm < 4 → a < 2 ^ widthOf x → b < 2 ^ widthOf x → c < 2 ^ widthOf x →
    let u := decodeF x a
    let v := decodeF x b
    let w := decodeF x c
    let A : ℝ := u.rational
    let B : ℝ := v.rational
    let C : ℝ := w.rational
    let nv (s : Bool) : Flags := if s then 16 else 0
    let zero (neg : Bool) : Nat × Flags := (if neg then 2 ^ (widthOf x - 1) else 0, 0)
    let inf (neg : Bool) : Nat × Flags := (topInf x + if neg then 2 ^ (widthOf x - 1) else 0, 0)
    let sum (p q : Bool) (z : Bool) : Nat × Flags := zero (if z && p == q then p else rm == 3)
    (u.isFinite = true → v.isFinite = true →
        (A + B ≠ 0 → RoundsTo x rm (A + B) (fAdd x rm a b)) ∧ (A - B ≠ 0 → RoundsTo x rm (A - B) (fSub x rm a b))
          ∧ (A * B ≠ 0 → RoundsTo x rm (A * B) (fMul x rm a b))
          ∧ (A ≠ 0 → B ≠ 0 → RoundsTo x rm (A / B) (fDiv x rm a b))
          ∧ (w.isFinite = true → A * B + C ≠ 0 → RoundsTo x rm (A * B + C) (fMa x rm a b c))
          ∧ (A + B = 0 → fAdd x rm a b = sum u.neg? v.neg? (u.isZero && v.isZero))
          ∧ (A - B = 0 → fSub x rm a b = sum u.neg? (!v.neg?) (u.isZero && v.isZero))
          ∧ (A * B = 0 → fMul x rm a b = zero (u.neg? != v.neg?))
          ∧ (A = 0 → B ≠ 0 → fDiv x rm a b = zero (u.neg? != v.neg?))
          ∧ (w.isFinite = true → A * B + C = 0 →
              fMa x rm a b c = sum (u.neg? != v.neg?) w.neg? ((u.isZero || v.isZero) && w.isZero)))
      ∧ (u.isFinite = true → (0 < A → RoundsTo x rm (Real.sqrt A) (fSqrt x rm a)) ∧ (A = 0 → fSqrt x rm a = zero u.neg?))
      ∧ (∀ n, u = .inf n → v.isFinite = true ∨ v = .inf n → fAdd x rm a b = inf n ∧ fAdd x rm b a = inf n)
      ∧ (∀ n, u = .inf n → v.isFinite = true ∨ v = .inf (!n) → fSub x rm a b = inf n ∧ fSub x rm b a = inf (!n))
      ∧ (∀ n, u = .inf n → v.isNan = false → v.isZero = false →
          fMul x rm a b = inf (n != v.neg?) ∧ fMul x rm b a = inf (n != v.neg?))
      ∧ (∀ n, u = .inf n → v.isFinite = true →
          fDiv x rm a b = inf (n != v.neg?) ∧ fDiv x rm b a = zero (n != v.neg?))
      ∧ (u = .inf false → fSqrt x rm a = inf false)
      ∧ (∀ n, u = .inf n → v.isNan = false → v.isZero = false → w.isFinite = true ∨ w = .inf (n != v.neg?) →
          fMa x rm a b c = inf (n != v.neg?) ∧ fMa x rm b a c = inf (n != v.neg?))
      ∧ (∀ n, u.isFinite = true → v.isFinite = true → w = .inf n → fMa x rm a b c = inf n)
      ∧ (∀ n, u = .inf n → v.isNan = false → v.isZero = false → w = .inf (n == v.neg?) →
          fMa x rm a b c = (canonNan x, 16))
      ∧ (∀ up, u.isNan = true → v.isNan = true → fMinMax x up a b = (canonNan x, nv (u.isSNan || v.isSNan)))
      ∧ (∀ up, u.isNan = true → v.isNan = false → fMinMax x up a b = (b, nv u.isSNan) ∧ fMinMax x up b a = (b, nv u.isSNan))
      ∧ (u.isNan = false → v.isNan = false → u.extended < v.extended →
          fMinMax x false a b = (a, 0) ∧ fMinMax x false b a = (a, 0) ∧ fMinMax x true a b = (b, 0) ∧ fMinMax x true b a = (b, 0))
      ∧ (u.isZero = true → v.isZero = true → u.neg? = true → v.neg? = false →
          fMinMax x false a b = (a, 0) ∧ fMinMax x false b a = (a, 0) ∧ fMinMax x true a b = (b, 0) ∧ fMinMax x true b a = (b, 0))
      ∧ ∀ up, u.isNan = false → fMinMax x up a a = (a, 0)

/-- 05 R75, R77, R80: the values of a conversion. A value goes to a float format rounded under the attribute, a zero or infinity
with its sign (an infinity to E4M3 gives 0x7F with NV), a NaN as the canonical NaN, with NV where it signals; an equal float
code leaves its operand; to the integers it is rounded and clamped, a clamp, an infinity and a NaN with NV, an inexact one
that needs no clamp with NX. A split's parts are the roundings of the value and of what the parts before it leave, the first one
clamped to the largest finite value; NX says that the last one is inexact, UF that it is tiny besides. -/
def Sys2Proof.Claims.ConversionsTakeTheirValues : Prop :=
  (∀ (x fr : XT) (rm n : Nat), rm < 4 → ¬ (x.isInt = true ∧ fr.isInt = true) →
      let w := widthOf x
      let k := n % 2 ^ widthOf fr
      let v := decodeF fr n
      let i : Int := if fr.isSigned ∧ ¬ k < 2 ^ (widthOf fr - 1) then (k : Int) - 2 ^ widthOf fr else k
      let q : ℝ := if fr.isInt then (i : ℝ) else (v.rational : ℝ)
      let low : Int := if x.isSigned then -2 ^ (w - 1) else 0
      let high : Int := if x.isSigned then 2 ^ (w - 1) - 1 else 2 ^ w - 1
      let r := convertElem x fr rm n
      (x.isInt = false → x ≠ fr → (fr.isInt = true ∨ v.isFinite = true) → q ≠ 0 → RoundsTo x rm q r)
        ∧ (x.isInt = false → fr.isInt = true → q = 0 → r = (0, 0))
        ∧ (x.isInt = false → fr.isInt = false → x ≠ fr → v.isZero = true → r = (if v.neg? then 2 ^ (w - 1) else 0, 0))
        ∧ (x.isInt = false → fr.isInt = false → x ≠ fr → ∀ s, v = .inf s →
            r = if x = .e4m3 then (0x7F, 16) else (topInf x + if s then 2 ^ (w - 1) else 0, 0))
        ∧ (x.isInt = false → fr.isInt = false → v.isNan = true → r = (canonNan x, if v.isSNan then 16 else 0))
        ∧ (x.isInt = false → x = fr → v.isNan = false → r = (n % 2 ^ w, 0))
        ∧ (x.isInt = true → v.isFinite = true → ∀ m : Int, Rounded rm (fun g => ∃ j : ℤ, g = j) q m →
            (m < low → r = ((low % 2 ^ w).toNat, 16)) ∧ (high < m → r = ((high % 2 ^ w).toNat, 16))
              ∧ (low ≤ m → m ≤ high → ((m : ℝ) = q → r = ((m % 2 ^ w).toNat, 0)) ∧ ((m : ℝ) ≠ q → r = ((m % 2 ^ w).toNat, 1))))
        ∧ (x.isInt = true → ∀ s, v = .inf s → r = (((if s then low else high) % 2 ^ w).toNat, 16))
        ∧ (x.isInt = true → v.isNan = true → r = (0, 16)))
    ∧ (∀ l : Lane,
      let v := fv32 l
      let r := splitLane l
      let val (n : Nat) : ℝ := (decodeF .bf16 n).rational
      let part (q : ℝ) (n : Nat) : Prop := (q = 0 → n = 0) ∧ (q ≠ 0 → ∃ f, RoundsTo .bf16 0 q (n, f))
      (v.isNan = true → r = ((0x7FC0, 0, 0), if v.isSNan then 16 else 0))
        ∧ (∀ s, v = .inf s → r = ((0x7F80 + if s then 2 ^ 15 else 0, 0, 0), 0))
        ∧ (v.isZero = true → r = ((if v.neg? then 2 ^ 15 else 0, 0, 0), 0))
        ∧ (v.isFinite = true → v.isZero = false →
            let q : ℝ := v.rational
            (∃ h f, RoundsTo .bf16 0 q (h, f)
                ∧ r.1.1 = if h % 2 ^ 15 = 0x7F80 then 0x7F7F + (if v.neg? then 2 ^ 15 else 0) else h)
              ∧ part (q - val r.1.1) r.1.2.1
              ∧ (let rest := q - val r.1.1 - val r.1.2.1
                part rest r.1.2.2 ∧ (rest = 0 → r.2 = 0) ∧ (rest ≠ 0 → RoundsTo .bf16 0 rest (r.1.2.2, r.2)))))

/-- 05 R65, R75: an exact result of an addition or a multiplication that the format holds is that result, with no
flag, under every rounding attribute. -/
def Sys2Proof.Claims.RepresentableResultsAreExact : Prop :=
  ∀ (x : XT) (rm a b r : Nat), x.isFp = true → rm < 4 → r < 2 ^ widthOf x →
    (decodeF x a).isFinite = true → (decodeF x b).isFinite = true → (decodeF x r).isFinite = true →
    (decodeF x r).isZero = false →
    ((decodeF x r).rational = (decodeF x a).rational + (decodeF x b).rational → fAdd x rm a b = (r, 0))
      ∧ ((decodeF x r).rational = (decodeF x a).rational * (decodeF x b).rational → fMul x rm a b = (r, 0))

/-- 05 R65, R66, R75, 08 R118: the corners of FP arithmetic, the rounding of its exact results, and results that their
format represents. -/
def Obligations.FloatCornersAndExactResults : Prop :=
  Claims.FloatCornersFollowTheRules ∧ Claims.ArithmeticRoundsTheExactValue ∧ Claims.RepresentableResultsAreExact

/-- 08 R121, R122: `fcvt`, `fsgn` and `fclass`. The sign instruction takes A's magnitude and the sign that MODE directs, the
canonical NaN for a NaN in A; the class instruction sets exactly the one bit of A's class; neither raises a flag. -/
def Sys2Proof.Claims.ScalarConversionsSignsAndClasses : Prop :=
  ∀ (s s1 s2 : State) (g : Guard) (x fr : XT) (m : SignMode) (d oa ob : Opnd) (va vb : Word),
    src oa s = .ok (va, s1) → src ob s1 = .ok (vb, s2) →
    let w := widthOf x
    let a := va.toNat % 2 ^ w
    let b := vb.toNat % 2 ^ w
    let sa := a.testBit (w - 1)
    let sb := b.testBit (w - 1)
    let sign : Bool := match m with | .cpy => sb | .neg => !sb | .xor => xor sa sb
    let cv := convertElem x fr s1.my.csr.fpmode.toNat (va.toNat % 2 ^ widthOf fr)
    let bit (n : Nat) : Prop := Gives (.fclass g x d oa) s s1 d (BitVec.ofNat 64 (2 ^ n))
    ((decodeF x a).isNan = true →
        Gives (.fsgn g x m d oa ob) s s2 d (BitVec.ofNat 64 (canonNan x)))
      ∧ ((decodeF x a).isNan = false → Gives (.fsgn g x m d oa ob) s s2 d
          (BitVec.ofNat 64 (a % 2 ^ (w - 1) + if sign then 2 ^ (w - 1) else 0)))
      ∧ (∀ s3, dst d (if x.isInt then extendAs x w cv.1 else BitVec.ofNat 64 cv.1) s1 = .ok ((), s3) →
          Completes (.fcvt g x fr d oa) s (s3.modMy fun t => { t with csr := { t.csr with fpstat := t.csr.fpstat ||| cv.2 } }))
      ∧ (∀ n, decodeF x a = .inf n → bit (if n then 0 else 7))
      ∧ (∀ n, decodeF x a = .nan n → bit (if n then 8 else 9))
      ∧ (∀ n k e, decodeF x a = .fin n k e → k = 0 → bit (if n then 3 else 4))
      ∧ (∀ n k e, decodeF x a = .fin n k e → k ≠ 0 → a / 2 ^ (fmtOf x).mb % 2 ^ (fmtOf x).eb = 0 → bit (if n then 2 else 5))
      ∧ (∀ n k e, decodeF x a = .fin n k e → a / 2 ^ (fmtOf x).mb % 2 ^ (fmtOf x).eb ≠ 0 → bit (if n then 1 else 6))

/-- 05 R75, R77, R80, 08 R121, R122: conversions, signs and classes, and the values that every conversion and split takes.
-/
def Obligations.FloatConversionsSignsAndClasses : Prop :=
  Claims.ScalarConversionsSignsAndClasses ∧ Claims.ConversionsTakeTheirValues

/-- The frame of the scalar FP instructions with register operands: D (or kD) and FPSTAT alone change, and FPSTAT loses no
flag; every byte of memory and every other register is as before. -/
def Sys2Proof.Claims.FloatInstructionsChangeDestinationAndFlags : Prop :=
  ∀ (s : State) (g : Guard) (x fr : XT) (m : SignMode) (kd : Fin 8) (cc : FCond) (d a b c : Reg),
    ∀ e ∈ ([(.fadd g x (.reg d) (.reg a) (.reg b), [d], []), (.fsub g x (.reg d) (.reg a) (.reg b), [d], []),
        (.fmul g x (.reg d) (.reg a) (.reg b), [d], []), (.fdiv g x (.reg d) (.reg a) (.reg b), [d], []),
        (.fma g x (.reg d) (.reg a) (.reg b) c, [d], []), (.fsqrt g x (.reg d) (.reg a), [d], []),
        (.fmin g x (.reg d) (.reg a) (.reg b), [d], []), (.fmax g x (.reg d) (.reg a) (.reg b), [d], []),
        (.fcmp g x kd cc (.reg a) (.reg b), [], [kd]), (.fcvt g x fr (.reg d) (.reg a), [d], []),
        (.fsgn g x m (.reg d) (.reg a) (.reg b), [d], []), (.fclass g x (.reg d) (.reg a), [d], [])] :
        List (Instr × List Reg × List (Fin 8))),
      s.meets e.1 → ∃ t, exec e.1 s = .next t
        ∧ OnlyRegisters s (t.modMy fun n => { n with csr := { n.csr with fpstat := s.my.csr.fpstat } }) e.2.1 e.2.2
        ∧ s.my.csr.fpstat &&& ~~~ t.my.csr.fpstat = 0

/-- What the scalar instructions leave unchanged: all but their destination and, for FP ones, FPSTAT's flags. -/
def Obligations.ScalarFrames : Prop :=
  Claims.ScalarInstructionsChangeTheirDestinationAlone ∧ Claims.FloatInstructionsChangeDestinationAndFlags

/-! ## Control -/

/-- 08 R124: `br`, `jmp`, `call` and `ret`: their exact targets, the checks of a target in order, and the link, the
offset of the next instruction, written after A is read. -/
def Obligations.ControlTransfersGoToTheirTargets : Prop :=
  ∀ (s : State) (g : Guard) (d a : Reg) (i : BitVec 24),
    let ps : List (Instr × Int × State) :=
      [(.br g i, s.seq.pc + 4 * i.toInt, s),
       (.jmp g d a i, (s.seq.readS a).toNat + 4 * i.toInt, s.modSeq (·.writeS d (BitVec.ofNat 64 (s.seq.pc + 8)))),
       (.call g d i, s.seq.pc + 4 * i.toInt, s.modSeq (·.writeS d (BitVec.ofNat 64 (s.seq.pc + 8)))),
       (.ret g a, (s.seq.readS a).toNat, s)]
    ∀ e ∈ ps,
      let size : Int := s.regionSize s.cur.1 s.seq.level
      (e.2.1 % 4 ≠ 0 → Traps e.1 s .misalignedTarget (BitVec.ofInt 64 e.2.1))
        ∧ (e.2.1 % 4 = 0 → (e.2.1 < 0 ∨ size ≤ e.2.1) → Traps e.1 s .windowBounds (BitVec.ofInt 64 e.2.1))
        ∧ (e.2.1 % 4 = 0 → 0 ≤ e.2.1 → e.2.1 < size → Jumps e.1 s e.2.2 e.2.1.toNat)

/-- 08 R125: `loop` arms its counter with s[A]'s low 32 bits and the body's start and end, replacing all of the counter's
state; an end outside the code region raises WINDOW-BOUNDS; a count of zero passes the body over, control going
past the instruction at the end offset; that no end rule is applied then is the model's reading (log entry 123). -/
def Sys2Proof.Claims.LoopArmsItsCounter : Prop :=
  ∀ (s : State) (g : Guard) (lc : Fin 2) (a : Reg) (i : BitVec 24),
    let e : Int := s.seq.pc + 4 * i.toInt
    let n := (s.seq.readS a).extractLsb' 0 32
    let armed : State := s.modSeq fun c =>
      if lc = 0 then { c with lc0 := ⟨n, n, c.pc + 8, e.toNat⟩ } else { c with lc1 := ⟨n, n, c.pc + 8, e.toNat⟩ }
    let inside := 0 ≤ e ∧ e < s.regionSize s.cur.1 s.seq.level
    (¬ inside → Traps (.loop g lc a i) s .windowBounds (BitVec.ofInt 64 e))
      ∧ (inside → n ≠ 0 → Completes (.loop g lc a i) s armed)
      ∧ (inside → n = 0 → ∀ k, s.lenAt e.toNat = .len k → Jumps (.loop g lc a i) s armed (e.toNat + k))

/-- 08 R129: a `pause` of n ticks ends at the tick it began at plus n; n = 0 completes at once; until then it waits,
and the event of its expiry completes it with no other change, but for a trap that was raised during the wait: that is taken at
the pause. -/
def Sys2Proof.Claims.PauseWaitsItsTicks : Prop :=
  ∀ (s : State) (g : Guard) (a : Reg) (i : BitVec 24) (p : Place) (q : SeqId) (w : Wait),
    let n := if a = 0 then i.toNat else (s.seq.readS a).toNat % 2 ^ 32
    (s.seq.wait = none → n = 0 → Completes (.pause g a i) s s)
      ∧ (s.seq.wait = none → n ≠ 0 → Ends (.pause g a i) s (s.stall ⟨.pausing, s.tick + n, none, none⟩))
      ∧ (s.seq.wait = some w → w.why = .pausing → w.till ≤ s.tick → Completes (.pause g a i) s s)
      ∧ (s.waitOf p q = some w → w.why = .pausing → w.till ≤ s.tick →
          (s.boundary p q = none → exec (.pauseExpiry p q) s = .next (s.modSeqAt p q fun c => c.retire 8 .fall))
            ∧ ∀ u, s.boundary p q = some u → exec (.pauseExpiry p q) s = .next u)

/-- 08 R131, R132: `bqpush` joins bit 0 of kA to the other sequencer's queue, waiting while it holds 16 entries (or
raising QUEUE-MISUSE where the other part has ended, 01 R17); `bqbr` checks its target before it pops, pops the head
of its own queue in push order, waiting for one (or raising QUEUE-MISUSE where no push can come any more), and branches where
the bit differs from its sense. -/
def Sys2Proof.Claims.BranchQueuesPassTheirBits : Prop :=
  ∀ (s : State) (g : Guard) (k : Fin 8) (sense : Bool) (i : BitVec 24) (b : Bool) (bs : List Bool),
    let bit := (s.seq.readK k).getLsbD 0
    let pushA : State := s.modMy fun t => { t with q := { t.q with bqa := t.q.bqa ++ [bit] } }
    let pushX : State := s.modMy fun t => { t with q := { t.q with bqx := t.q.bqx ++ [bit] } }
    let popA : State := s.modMy fun t => { t with q := { t.q with bqa := bs }, act := { t.act with seenX := s.fab.nextNum } }
    let popX : State := s.modMy fun t => { t with q := { t.q with bqx := bs }, act := { t.act with seen := s.fab.nextNum } }
    let waits (n : Nat) : State := s.stall (s.seq.carry ⟨.queue n, 0, none, none⟩)
    let t : Int := s.seq.pc + 4 * i.toInt
    let inside := 0 ≤ t ∧ t < s.regionSize s.cur.1 s.seq.level
    (s.cur.2 = .as → s.my.q.bqx.length < 16 → Completes (.bqpush g k) s pushX)
      ∧ (s.cur.2 = .xs → s.my.q.bqa.length < 16 → Completes (.bqpush g k) s pushA)
      ∧ (s.cur.2 = .as → 16 ≤ s.my.q.bqx.length → s.my.xs.gone = true → Traps (.bqpush g k) s .queueMisuse 6)
      ∧ (s.cur.2 = .xs → 16 ≤ s.my.q.bqa.length → s.my.as.gone = true → Traps (.bqpush g k) s .queueMisuse 5)
      ∧ (s.cur.2 = .as → 16 ≤ s.my.q.bqx.length → s.my.xs.gone = false → Ends (.bqpush g k) s (waits 6))
      ∧ (s.cur.2 = .xs → 16 ≤ s.my.q.bqa.length → s.my.as.gone = false → Ends (.bqpush g k) s (waits 5))
      ∧ (inside → s.cur.2 = .as → s.my.q.bqa = [] →
          (s.my.xs.gone = false → Ends (.bqbr g sense i) s (waits 5))
            ∧ (s.my.xs.gone = true → Traps (.bqbr g sense i) s .queueMisuse 5))
      ∧ (inside → s.cur.2 = .xs → s.my.q.bqx = [] →
          (s.my.as.gone = false → Ends (.bqbr g sense i) s (waits 6))
            ∧ (s.my.as.gone = true → Traps (.bqbr g sense i) s .queueMisuse 6))
      ∧ (¬ inside → Traps (.bqbr g sense i) s .windowBounds (BitVec.ofInt 64 t))
      ∧ (inside → s.cur.2 = .as → s.my.q.bqa = b :: bs →
          (b ≠ sense → Jumps (.bqbr g sense i) s popA t.toNat) ∧ (b = sense → Completes (.bqbr g sense i) s popA))
      ∧ (inside → s.cur.2 = .xs → s.my.q.bqx = b :: bs →
          (b ≠ sense → Jumps (.bqbr g sense i) s popX t.toNat) ∧ (b = sense → Completes (.bqbr g sense i) s popX))

/-- 08 R111, 01 R17: `end` finishes its part: the sequencer fetches nothing more and its scalar, predicate and loop
state ceases to exist, while the other part, the memory and the queues stay. The last part's end finds left-over queue
entries, which raise QUEUE-MISUSE with the queues named, or ends the strand, as a release to the launch's completion: what
precedes it is done, the interval ends, and its closes are acknowledged first (16 R244, R245). That the end of the other part
completes at once is the model's reading (log entry 20). -/
def Sys2Proof.Claims.EndFinishesItsPart : Prop :=
  ∀ (s : State) (g : Guard),
    let o := s.my.seq (otherSeq s.cur.2)
    let left : Nat := (if s.my.q.lq[0] = [] then 0 else 1) + (if s.my.q.lq[1] = [] then 0 else 2)
      + (if s.my.q.lq[2] = [] then 0 else 4) + (if s.my.q.lq[3] = [] then 0 else 8) + (if s.my.q.sq = [] then 0 else 16)
      + (if s.my.q.bqa = [] then 0 else 32) + (if s.my.q.bqx = [] then 0 else 64)
    let endsNow (t : State) : State := (t.publish (.launch (t.partNo t.cur.1))).endStrand t.cur.1 false
    s.meets (.endPart g) → (s.cur.2 = .as → s.my.q.sq = []) →
    (o.present = true → o.ended = false → ∃ t, exec (.endPart g) s = .next t ∧ t.seq.present = true ∧ t.seq.ended = true
        ∧ (∀ r, t.seq.readS r = 0) ∧ t.seq.lc0.count = 0 ∧ t.seq.lc1.count = 0 ∧ t.my.seq (otherSeq s.cur.2) = o
        ∧ t.my.q = s.my.q ∧ t.me.running = s.me.running ∧ SameMem s t)
      ∧ (o.gone = true → left ≠ 0 → exec (.endPart g) s =
          .next ((s.modMy fun t => { t with q := Queues.reset }).takeTrap .queueMisuse
            (some (BitVec.ofNat 64 (256 + left))) .none))
      ∧ (o.gone = true → left = 0 → s.seq.shut = false →
          let u := s.releases s.cur.1 s.cur.2
          let w : Wait := s.seq.carry ⟨.release, 0, none, none⟩
          (s.released s.cur.1 s.cur.2 = true → u.closing s.cur.1 = false → exec (.endPart g) s = .next (endsNow u))
            ∧ (s.released s.cur.1 s.cur.2 = true → u.closing s.cur.1 = true →
                exec (.endPart g) s = .next ((u.modSeq fun c => { c with passed := c.passed + 4 }).stall w))
            ∧ (s.released s.cur.1 s.cur.2 = false → exec (.endPart g) s = .next (s.stall w)))
      ∧ (o.gone = true → left = 0 → s.seq.shut = true → s.closing s.cur.1 = false →
          exec (.endPart g) s = .next (endsNow s))

/-- 01 R17, 08 R111, R125, R129, R131, R132, 16 R244, R245: `loop`, `pause`, `bqpush`, `bqbr` and `end`. -/
def Obligations.LoopsPausesBranchQueuesAndEnds : Prop :=
  Claims.LoopArmsItsCounter ∧ Claims.PauseWaitsItsTicks ∧ Claims.BranchQueuesPassTheirBits ∧ Claims.EndFinishesItsPart

/-! ## Memory -/

namespace Sys2Proof.Claims

/-- The load of a window. -/
def loadOf (sp : Space) (g : Guard) (x : XT) (d : Opnd) (a c : Reg) (disp : BitVec 10) : Instr :=
  match sp with
  | .cp => .ld g x false d a c disp
  | .cm => .ld g x true d a c disp
  | .oc => .ldo g x d a c disp
  | .gv => .ldg g x d a c disp

/-- The store to a window, directly or onto sq. -/
def storeOf (sp : Space) (sq : Bool) (g : Guard) (x : XT) (a : Reg) (b : Opnd) (c : Reg) (disp : BitVec 10) : Instr :=
  match sp with
  | .cp => .st g x false sq a b c disp
  | .cm => .st g x true sq a b c disp
  | .oc => .sto g x sq a b c disp
  | .gv => .stg g x sq a b c disp

/-- The address of 10 R141: s[A] + s[C] × n + DISP × n, mod 2^64. -/
def address (s : State) (a c : Reg) (disp : BitVec 10) (n : Nat) : Nat :=
  ((((s.seq.readS a).toNat + (s.seq.readS c).toNat * n : Nat) + disp.toInt * n) % 2 ^ 64).toNat

/-- The access of a load into lq of a core. -/
def lqAccess (s : State) (l : Loc) (q : Fin 4) : Access :=
  { s.coreAccess l.home .r .read l.tgt l.base with dest := .lq s.cur.1 q s.fab.nextNum }

/-- The state with an answer taken by the current sequencer's instruction. -/
def answered (s : State) (a : Answer) : State := s.modSeq fun c => { c with kept := c.kept ++ [a], used := c.used + 1 }

end Sys2Proof.Claims

/-- 10 R141: a load checks its alignment and then its window, each failure precise with the address in TVAL; its home's
trap is its own; and otherwise D takes the bytes that the home answers, extended as its type says. It waits for an answer that
does not come at once. -/
def Sys2Proof.Claims.LoadsTakeTheHomesAnswer : Prop :=
  ∀ (s : State) (sp : Space) (g : Guard) (x : XT) (d : Opnd) (a c : Reg) (disp : BitVec 10),
    let n := widthOf x / 8
    let addr := address s a c disp n
    let i := loadOf sp g x d a c disp
    let req (l : Loc) := s.coreAccess l.home .r .read l.tgt l.base
    (addr % n ≠ 0 → Traps i s .misalignedData (BitVec.ofNat 64 addr))
      ∧ (addr % n = 0 → ∀ e v, s.locate sp addr n .r = .error (e, v) → Traps i s e (BitVec.ofNat 64 v))
      ∧ (addr % n = 0 → ∀ l, s.locate sp addr n .r = .ok l → d.isL = true → s.begins →
          (∀ s1 e v, s.nextNumber.send (req l) false = .answered s1 (.trap e v) → Traps i s e v)
            ∧ (∀ s1 s2 bs, s.nextNumber.send (req l) false = .answered s1 (.data bs) →
                dst d (extendAs x (widthOf x) (leOf bs)) (answered s1 (.data bs)) = .ok ((), s2) → Completes i s s2)
            ∧ ∀ s1, s.nextNumber.send (req l) false = .waits s1 →
                Ends i s ((s1.modSeq fun c => { c with out := some s.fab.nextNum }).stall (s.seq.carry ⟨.answer, 0, none, none⟩)))

/-- 10 R142: a load into lq completes once its checks have passed and an entry is free: the queue has one entry more, which
holds the loaded value where the home has answered, its trap where that is the answer, or awaits the answer; no register
changes. While eight entries stand it waits, or raises QUEUE-MISUSE where no pop can come any more. -/
def Sys2Proof.Claims.QueueLoadsFillAnEntry : Prop :=
  ∀ (s s1 : State) (sp : Space) (g : Guard) (x : XT) (q : Fin 4) (a c : Reg) (disp : BitVec 10) (l : Loc),
    let n := widthOf x / 8
    let addr := address s a c disp n
    let i := loadOf sp g x (.lq q) a c disp
    addr % n = 0 → s.locate sp addr n .r = .ok l →
      ((s.my.q.lq[q.val]).length < 8 →
        let sent := s.nextNumber.send (lqAccess s l q) s.slowTurn
        let joins (e : LqEntry) : Prop :=
          Completes i s (s1.modMy fun t => { t with q := { t.q with lq := t.q.lq.set q.val (t.q.lq[q.val] ++ [e]) } })
        (∀ bs, sent = .answered s1 (.data bs) → joins (.full (extendAs x (widthOf x) (leOf bs))))
          ∧ (∀ cs v, sent = .answered s1 (.trap cs v) → joins (.marked cs v ⟨sp, addr, x⟩))
          ∧ (sent = .waits s1 → joins (.pending s.fab.nextNum ⟨sp, addr, x⟩)))
        ∧ (8 ≤ (s.my.q.lq[q.val]).length → s.my.xs.gone = false →
            Ends i s (s.stall (s.seq.carry ⟨.queue q.val, 0, none, none⟩)))
        ∧ (8 ≤ (s.my.q.lq[q.val]).length → s.my.xs.gone = true → Traps i s .queueMisuse (BitVec.ofNat 64 q.val))

/-- 10 R141, R143: a store checks as a load does, for a write, before its data is read or popped; its home writes the low
bytes of B; under SQ it joins sq, and waits while eight entries stand, B unpopped, or raises QUEUE-MISUSE where no AS can
perform them any more (01 R17). -/
def Sys2Proof.Claims.StoresWriteTheirBytes : Prop :=
  ∀ (s s0 : State) (sp : Space) (g : Guard) (x : XT) (a c : Reg) (b : Opnd) (disp : BitVec 10) (v : Word),
    let n := widthOf x / 8
    let addr := address s a c disp n
    let i (sq : Bool) := storeOf sp sq g x a b c disp
    let req (l : Loc) := s0.coreAccess l.home .w (.write (leBytesOf n v.toNat)) l.tgt l.base
    (∀ sq, addr % n ≠ 0 → Traps (i sq) s .misalignedData (BitVec.ofNat 64 addr))
      ∧ (∀ sq, addr % n = 0 → ∀ e w, s.locate sp addr n .w = .error (e, w) → Traps (i sq) s e (BitVec.ofNat 64 w))
      ∧ (addr % n = 0 → ∀ l, s.locate sp addr n .w = .ok l → src b s = .ok (v, s0) →
          (8 ≤ s0.my.q.sq.length →
            (s0.my.as.gone = false → s0.seq.used = 0 → Ends (i true) s (s.stall (s.seq.carry ⟨.queue 4, 0, none, none⟩)))
              ∧ (s0.my.as.gone = true → Traps (i true) s .queueMisuse 4))
          ∧ (s0.my.q.sq.length < 8 → Completes (i true) s
              (s0.modMy fun t => { t with q := { t.q with sq := t.q.sq ++ [⟨sp, addr, n, v⟩] } }))
            ∧ (s.begins → s0.slowTurn = false → ∀ s1,
                s0.nextNumber.send (req l) false = .answered s1 (.data []) → Completes (i false) s (answered s1 (.data []))))

/-- 10 R143: the event in which the AS performs the entry at sq's head: the store is made as if at its own instruction,
and the entry is gone; a trap that it meets waits for the AS's boundary and leaves the entry. -/
def Sys2Proof.Claims.SqEntriesArePerformedInOrder : Prop :=
  ∀ (s s1 : State) (p : Place) (e : SqEntry) (es : List SqEntry) (l : Loc),
    let s0 : State := { s with cur := (p, .as) }
    let a : Access :=
      { num := s.fab.nextNum, src := p, party := .core p, path := .core, home := l.home, kind := .w,
        op := .write (leBytesOf e.n e.data.toNat), tgt := l.tgt, base := l.base, interval := (s.core p).interval,
        dest := .sq p (s.strand p).act.sid, range := none, way := Way.done, lost := false }
    s.coreRuns p = true → (s.strand p).as.gone = false → (s.strand p).sqTrapPending = false → s.sqInFlight p = false →
    (s.strand p).q.sq = e :: es →
      (s0.locate e.win e.addr e.n .w = .ok l →
          (s.nextNumber.send a false = .waits s1 → exec (.sqStorePerform p) s = .next s1)
            ∧ ((s1.strand p).act.sid = (s.strand p).act.sid →
              (s.nextNumber.send a false = .answered s1 (.data []) →
                exec (.sqStorePerform p) s = .next (s1.modStrand p fun t => { t with q := { t.q with sq := t.q.sq.tail } }))
                ∧ ∀ c v, s.nextNumber.send a false = .answered s1 (.trap c v) →
                  exec (.sqStorePerform p) s = .next (s1.modStrand p fun t =>
                    { t with act := { t.act with pend := t.act.pend ++ [(.as, c, v)] } })))
        ∧ (∀ c v, s0.locate e.win e.addr e.n .w = .error (c, v) →
          exec (.sqStorePerform p) s = .next (s.modStrand p fun t =>
            { t with act := { t.act with pend := t.act.pend ++ [(.as, c, BitVec.ofNat 64 v)] } }))

/-- 01 R17, 10 R141, R143: stores, and the entries of the store queue. -/
def Obligations.StoresAndTheStoreQueue : Prop :=
  Claims.StoresWriteTheirBytes ∧ Claims.SqEntriesArePerformedInOrder

/-- 10 R145: `pf` checks that its GV address lies below 2^57 and changes nothing that a program can see. -/
def Sys2Proof.Claims.PrefetchChangesNothing : Prop :=
  ∀ (s : State) (g : Guard) (a c : Reg) (disp : BitVec 10),
    let addr := address s a c disp 1
    (addr < 2 ^ 57 → Completes (.pf g a c disp) s s)
      ∧ (2 ^ 57 ≤ addr → Traps (.pf g a c disp) s .windowBounds (BitVec.ofNat 64 addr))

/-- 10 R141, R142, R145: loads into registers and queues, and prefetches. -/
def Obligations.LoadsTakeTheirAnswers : Prop :=
  Claims.LoadsTakeTheHomesAnswer ∧ Claims.QueueLoadsFillAnEntry ∧ Claims.PrefetchChangesNothing

/-- The bytes of a local access: a load from CP or CM (or through the on-chip map) whose checks and conflict check pass
reads exactly the bytes at its keys and leaves all memory as it was; a store changes exactly those bytes, to the low
bytes of its source; neither changes any register but the load's destination. -/
def Obligations.LocalAccessesTouchTheirBytesAlone : Prop :=
  ∀ (s s1 : State) (sp : Space) (g : Guard) (x : XT) (d b : Reg) (a c : Reg) (disp : BitVec 10) (h : Home) (ks : List Nat)
    (base : Nat),
    let n := widthOf x / 8
    let addr := address s a c disp n
    Memory.wf s.mem = true → s.begins → addr % n = 0 →
      (s.locate sp addr n .r = .ok ⟨h, .keys ks, base⟩ →
        let r := s.coreAccess h .r .read (.keys ks) base
        let u := s.nextNumber.touched r
        u.passes r = true → ks.any s.pendingKey = false → (u.departed r).checked r ks = .ok (some s1) →
        s.meets (loadOf sp g x (.reg d) a c disp) →
        ∃ t, exec (loadOf sp g x (.reg d) a c disp) s = .next t ∧ SameMem s t
          ∧ (d.val ≠ 0 → t.seq.readS d = extendAs x (widthOf x) (leOf (ks.map (Memory.get s.mem))))
          ∧ (∀ r, r ≠ d → t.seq.readS r = s.seq.readS r) ∧ (∀ k, t.seq.readK k = s.seq.readK k)
          ∧ t.my.csr = s.my.csr ∧ t.my.q = s.my.q)
      ∧ (s.locate sp addr n .w = .ok ⟨h, .keys ks, base⟩ →
        let r := s.coreAccess h .w (.write (leBytesOf n (s.seq.readS b).toNat)) (.keys ks) base
        let u := s.nextNumber.touched r
        u.passes r = true → (u.departed r).checked r ks = .ok (some s1) →
        s.meets (storeOf sp false g x a (.reg b) c disp) →
        ∃ t, exec (storeOf sp false g x a (.reg b) c disp) s = .next t ∧ SameMemBut s t ks
          ∧ (∀ j, j < n → Memory.get t.mem (ks.getD j 0) = BitVec.ofNat 8 ((s.seq.readS b).toNat / 256 ^ j))
          ∧ (∀ r, t.seq.readS r = s.seq.readS r) ∧ (∀ k, t.seq.readK k = s.seq.readK k)
          ∧ t.my.csr = s.my.csr ∧ t.my.q = s.my.q)

/-- 10 R163 to R165: an atomic's checks, its operand, its request, and what the answer writes: D takes the old contents, a
predicate the success. With REL it waits until the core's earlier accesses are answered and the closes of its interval are
acknowledged, before its own access; with ACQ or REL the interval of that access ends after it, and with ACQ it acquires what
was published at its location (16 R236, R244, R245). What a release waits for, and that the interval ends before the access and
again after it, are the model's reading (log entries 22, 109). -/
def Sys2Proof.Claims.AtomicsTakeTheirAnswer : Prop :=
  ∀ (s s0 s1 : State) (sp : Space) (g : Guard) (x : XT) (op : AtomOp) (acq rel : Bool) (d a c : Reg) (b : Opnd)
    (pk : Fin 8) (v old : Word) (ok : Bool) (l : Loc),
    let n := widthOf x / 8
    let addr := (s.seq.readS a).toNat
    let e := s0.seq.readS c
    let s' := if rel then s.releases s.cur.1 s.cur.2 else s
    let w : Wait := s.seq.carry ⟨.release, 0, none, none⟩
    let close (t : State) : State := if acq || rel then t.closeInterval t.cur.1 else t
    let told (t : State) (r : AtomReq) (k : Nat) (u : State) : Prop :=
      let t' := if rel then t.publish (.packet t.fab.nextNum) else t
      s.locate sp addr k .a = .ok l ∧ t.slowTurn = false
        ∧ t'.nextNumber.send (t'.coreAccess l.home .a (.atomic r) l.tgt l.base) false = .answered u (.word old ok)
    let ans (u : State) : State :=
      let a := answered u (.word old ok)
      if acq && ok then a.movePub (.told a.my.act.sid a.cur.2) (.strand a.my.act.sid) else a
    s.begins → (acq || rel → s.cur.2 = .as → s.my.q.sq = []) →
      (addr % n ≠ 0 → Traps (.atom g x sp op acq rel d a b) s .misalignedData (BitVec.ofNat 64 addr))
        ∧ (rel → addr % n = 0 → s.locate sp addr n .a = .ok l →
          (s.released s.cur.1 s.cur.2 = false → Ends (.atom g x sp op acq rel d a b) s (s.stall w))
            ∧ (s.released s.cur.1 s.cur.2 = true → s'.closing s.cur.1 = true →
              Ends (.atom g x sp op acq rel d a b) s ((s'.modSeq fun c => { c with passed := c.passed + 4 }).stall w)))
        ∧ ((rel → s.released s.cur.1 s.cur.2 = true ∧ s'.closing s.cur.1 = false) →
        (addr % n = 0 → src b s' = .ok (v, s0) →
            (told s0 (.op op x v) n s1 →
                Completes (.atom g x sp op acq rel d a b) s (close ((ans s1).modSeq (·.writeS d old))))
              ∧ (told s0 (.cas x v e) n s1 →
                Completes (.atomcas g x sp acq rel d a b c) s (close ((ans s1).modSeq (·.writeS d old))))
              ∧ (told s0 (.faddb x v e) n s1 →
                Completes (.atomfaddb g x sp acq rel d pk a b c) s
                  (close (((ans s1).modSeq (·.writeS d old)).modSeq (·.writeK pk (if ok then 1 else 0))))))
        ∧ (addr % n = 0 → told s' (.incw x (s.seq.readS c)) n s1 →
            Completes (.atomincw g x sp acq rel d a c) s (close ((ans s1).modSeq (·.writeS d old))))
        ∧ (addr % 64 ≠ 0 → Traps (.enq g sp acq rel pk a b) s .misalignedData (BitVec.ofNat 64 addr))
        ∧ (addr % 64 = 0 → src b s' = .ok (v, s0) → told s0 (.enq v) 8 s1 →
            Completes (.enq g sp acq rel pk a b) s (close ((ans s1).modSeq (·.writeK pk (if ok then 1 else 0)))))
        ∧ (addr % 64 = 0 → told s' .deq 8 s1 →
            Completes (.deq g sp acq rel d pk a) s
              (close (((ans s1).modSeq (·.writeS d old)).modSeq (·.writeK pk (if ok then 1 else 0))))))

/-- 10 R163: what an atomic unit makes of the old contents, w bits wide: the new contents, the old ones extended, the
success of the bounded add. The FP32 sum is rounded to nearest even (`FloatCornersAndExactResults` gives its value). -/
def Sys2Proof.Claims.AtomicUnitsDoTheirOperations : Prop :=
  ∀ (x : XT) (old : Nat) (b c : Word),
    let w := widthOf x
    let u := old % 2 ^ w
    let v := b.toNat % 2 ^ w
    let m := c.toNat % 2 ^ w
    let su : Int := if x.isSigned ∧ ¬ u < 2 ^ (w - 1) then (u : Int) - 2 ^ w else u
    let sv : Int := if x.isSigned ∧ ¬ v < 2 ^ (w - 1) then (v : Int) - 2 ^ w else v
    let new (r : AtomReq) := (atomicOn r old).1
    (∀ r ∈ [AtomReq.op .add x b, .op .and x b, .op .or x b, .op .xor x b, .op .min x b, .op .max x b, .op .swap x b,
        .op .fadd x b, .cas x b c, .incw x c, .faddb x b c], (atomicOn r old).2.1 = extendAs x w old ∧ new r < 2 ^ w)
      ∧ new (.op .add x b) = (u + v) % 2 ^ w ∧ new (.op .and x b) = u &&& v ∧ new (.op .or x b) = u ||| v
      ∧ new (.op .xor x b) = u ^^^ v ∧ new (.op .swap x b) = v
      ∧ new (.op .min x b) = (if su < sv then u else v) ∧ new (.op .max x b) = (if su < sv then v else u)
      ∧ (u = m → new (.cas x b c) = v) ∧ (u ≠ m → new (.cas x b c) = u)
      ∧ (x = .f32 → new (.op .fadd x b) = (fAdd .f32 0 u v).1)
      ∧ (m ≤ u → new (.incw x c) = 0) ∧ (u < m → new (.incw x c) = u + 1)
      ∧ (u + v ≤ m → new (.faddb x b c) = u + v ∧ (atomicOn (.faddb x b c) old).2.2 = true)
      ∧ (m < u + v → new (.faddb x b c) = u ∧ (atomicOn (.faddb x b c) old).2.2 = false)

/-! ## Messages, mailboxes, links -/

namespace Sys2Proof.Claims

/-- The status word of 10 R151. -/
def status (tries hint stat : Nat) : Word := BitVec.ofNat 64 (min tries 255 * 2 ^ 16 + hint % 256 * 2 ^ 8 + stat)

/-- The sequencer has an answer to its message: `stat` and the hint that came with it are the last of those kept. -/
def State.told (s : State) (stat hint : Nat) : Prop :=
  s.seq.out = none ∧ s.seq.hintWait = none ∧ s.seq.kept.getLast? = some (.msg stat hint)

/-- The sequencer begins a message: its place check passes, what precedes it is released, and the closes of the interval are
acknowledged at once (10 R152, 16 R245). -/
def State.clearToSend (s : State) : Prop :=
  s.begins ∧ s.seq.hintWait = none ∧ (s.cur.2 = .as → s.my.q.sq = []) ∧ s.released s.cur.1 s.cur.2 = true
    ∧ (s.releases s.cur.1 s.cur.2).closing s.cur.1 = false

end Sys2Proof.Claims

/-- 10 R149, R151, 18 R266: an answered message completes with the status word in D: the attempts made, the last refusal's hint,
and STAT; where it had reserved a slot for its reply, any STAT but ACCEPTED frees that slot; only REFUSED is retried, by `send`, `msend` and a `gsend` that is not once, while the partition's limit allows. A refused one then waits its
hint, with the message that it will send again, as it issued. -/
def Sys2Proof.Claims.AnsweredMessagesWriteTheirStatus : Prop :=
  ∀ (s : State) (g : Guard) (d a b : Reg) (hidx : BitVec 16) (gen : BitVec 8) (mb : Fin 64) (stat hint : Nat) (e : Fin 4)
    (c : Reg) (once : Bool) (nm1 : Fin 32),
    let lim := (s.partOf s.cur.1).attrs.retryLim
    let more := lim = 0 ∨ s.seq.tries < lim
    let word := status s.seq.tries (lastHint s.seq.kept) stat
    let rmb := (issuedReply s.seq (s.seq.readS b)).2
    let m := s.mbx s.cur.1 rmb
    let plain := (issuedReply s.seq (s.seq.readS b)).1 = false
    let again (i : Instr) : Prop := s.meets i → ∃ t w, exec i s = .next t ∧ t.seq.wait = some w
      ∧ w.why = .hint ∧ w.till = s.tick + hint ∧ w.pkt = s.seq.parcel ∧ t.seq.pc = s.seq.pc
    State.told s stat hint →
      ((stat ≠ 1 ∨ ¬ more) → Completes (.msend g d a mb) s (s.modSeq (·.writeS d word)))
        ∧ Completes (.msendt g d a mb) s (s.modSeq (·.writeS d word))
        ∧ ((stat ≠ 1 ∨ ¬ more) → (plain ∨ stat = 0) → Completes (.send g d a b hidx gen) s (s.modSeq (·.writeS d word)))
        ∧ ((plain ∨ stat = 0) → Completes (.sendt g d a b hidx gen) s (s.modSeq (·.writeS d word)))
        ∧ (¬ plain → stat ≠ 0 → ∀ n j, s.seq.latch = some n → m.reservedAt n.toNat = some j →
            let freed := (s.setMbx s.cur.1 rmb (m.putSlot j .free)).modSeq (·.writeS d word)
            ((stat ≠ 1 ∨ ¬ more) → Completes (.send g d a b hidx gen) s freed)
              ∧ Completes (.sendt g d a b hidx gen) s freed)
        ∧ ((stat ≠ 1 ∨ ¬ more ∨ once = true) → Completes (.gsend g d a e c once mb nm1) s (s.modSeq (·.writeS d word)))
        ∧ (stat = 1 → more → again (.msend g d a mb) ∧ again (.send g d a b hidx gen) ∧ again (.gsend g d a e c false mb nm1))

/-- 10 R147, R149, R150, R158, 18 R266: a `send`, an `msend` or a `gsend` begins by its place check, then releases, and sends one
packet to the core that the place leads to: on AMSG with s1 to s6, or on BULK with the register's image; it keeps the packet
for a retry, and waits for the answer; a send that asks for a reply first reserves a free slot of its reply mailbox, or raises
WINDOW-BOUNDS where that is disabled or Gaussian. That a deposit of `msend` and `msendt` travels on AMSG is the model's reading (log
entry 29). -/
def Sys2Proof.Claims.MessagesLeaveAsOnePacket : Prop :=
  ∀ (s : State) (g : Guard) (d a b : Reg) (hidx : BitVec 16) (gen : BitVec 8) (mb : Fin 64) (p : Place) (e : Fin 4)
    (c : Reg) (once : Bool) (nm1 : Fin 32),
    State.clearToSend s → s.checkCore (s.seq.readS a).toNat = .ok p →
    let pays := [1, 2, 3, 4, 5, 6].map fun r => s.seq.readS r
    let image : Body := .gauss mb.val ((s.seq.readS c).extractLsb' 0 32) ((s.seq.readS c).extractLsb' 32 32) (nm1.val + 1)
      (s.my.gmu.gb[e.val].image (nm1.val + 1)) false (some s.cur.2)
    (∀ i ∈ [Instr.msend g d a mb, .msendt g d a mb], s.meets i → ∃ t k, exec i s = .next t ∧ t.seq.out = some k.num
        ∧ t.seq.pc = s.seq.pc ∧ k ∈ t.fab.net ∧ k.src = s.cur.1 ∧ k.dst = p ∧ k.vn = .amsg
        ∧ k.body = .deposit mb.val pays (some s.cur.2) ∧ t.seq.parcel = some (p, .amsg, k.body) ∧ t.mem = s.mem)
      ∧ (s.meets (.gsend g d a e c once mb nm1) → ∃ t k, exec (.gsend g d a e c once mb nm1) s = .next t ∧ t.seq.out = some k.num
        ∧ t.seq.pc = s.seq.pc ∧ k ∈ t.fab.net ∧ k.src = s.cur.1 ∧ k.dst = p ∧ k.vn = .bulk ∧ t.mem = s.mem
        ∧ k.body = image ∧ t.seq.parcel = some (p, .bulk, image))
      ∧ ((s.seq.readS b).getLsbD 14 = false → ∀ i ∈ [Instr.send g d a b hidx gen, .sendt g d a b hidx gen], s.meets i →
          ∃ t k m, exec i s = .next t ∧ t.seq.out = some k.num ∧ t.seq.pc = s.seq.pc ∧ k ∈ t.fab.net
            ∧ k.src = s.cur.1 ∧ k.dst = p ∧ k.vn = .amsg ∧ k.body = .active m (some s.cur.2) none
            ∧ m.payload = pays ∧ m.proc = s.my.csr.proc ∧ m.wfw = s.my.csr.wfw ∧ m.wid = 0 ∧ t.mem = s.mem)
      ∧ ((s.seq.readS b).getLsbD 14 = true →
          let rmb := (s.seq.readS b).toNat / 2 ^ 8 % 64
          let box := s.mbx s.cur.1 rmb
          ∀ i ∈ [Instr.send g d a b hidx gen, .sendt g d a b hidx gen],
            ((box.enabled = false ∨ box.gaussian = true) → Traps i s .windowBounds (BitVec.ofNat 64 rmb))
              ∧ (box.enabled = true → box.gaussian = false → ∀ j js, box.freeFromWix = j :: js → s.meets i →
                ∃ t k m num, exec i s = .next t ∧ t.seq.out = some k.num ∧ k ∈ t.fab.net ∧ k.dst = p
                  ∧ k.body = .active m (some s.cur.2) none ∧ m.payload = pays ∧ m.hdr.getLsbD 47 = true
                  ∧ m.rr.toNat / 2 ^ 14 % 64 = rmb ∧ m.rnum = num % 2 ^ 64
                  ∧ t.mbx s.cur.1 rmb = { box.putSlot j (.reserved num num) with wix := (j + 1) % box.depth }))

/-- 10 R153: `reply` releases and sends the owed reply on REPLY to the awaiting core's mailbox, writes 0, and nothing
is owed any more; with none owed it writes NONE. That TRIES and HINT of the status word are 0 is the model's choice (log entry 125).
-/
def Sys2Proof.Claims.RepliesAreSentOnce : Prop :=
  ∀ (s : State) (g : Guard) (d : Reg),
    State.clearToSend s →
      (s.my.act.owed = none → Completes (.reply g d) s ((s.releases s.cur.1 s.cur.2).modSeq (·.writeS d 5)))
        ∧ (∀ o, s.my.act.owed = some o →
            Completes (.reply g d) s (((s.releases s.cur.1 s.cur.2).sendReply s.cur.1 o (payloadOf s.seq)).modSeq (·.writeS d 0)))

/-- 10 R151, R147, R347: a hint that runs out sends its message again, as it issued but for its tick and the number of its packet;
an answer that arrives is kept for the instruction that
awaits it, which then has its turn. That a message sent again takes the tick and the packet number of its new packet is the
model's reading (log entries 24, 25). -/
def Sys2Proof.Claims.HintsAndAnswersReachTheirSequencer : Prop :=
  ∀ (s : State) (p : Place) (q : SeqId) (w : Wait) (dst : Place) (vn : Vn) (b : Body) (k : Packet) (a : Answer),
    (s.waitOf p q = some w → w.why = .hint → w.till ≤ s.tick → w.pkt = some (dst, vn, b) →
        ∃ t k', exec (.retryHintExpiry p q) s = .next t ∧ k' ∈ t.fab.net ∧ k'.src = p ∧ k'.dst = dst ∧ k'.vn = vn
          ∧ k'.body = (b.restamp s.tick).number (s.nextSeq p dst vn) ∧ (t.seqAt p q).out = some k'.num ∧ (t.seqAt p q).tries = (s.seqAt p q).tries + 1)
      ∧ (p / 16384 ≠ 2 → s.answerFor p q = some (k, a) → ∃ t, exec (.answerArrival p q) s = .next t
          ∧ (∀ k' ∈ t.fab.net, k'.num ≠ k.num)
          ∧ ((s.seqAt p q).out = some k.sid → ((s.strand p).seq (otherSeq q)).awaits k.sid = false →
              (t.seqAt p q).out = none ∧ (t.seqAt p q).kept = (s.seqAt p q).kept ++ [a]))

/-- 10 R147, R149, R150, R151, R153, R158, R347, 18 R266: the message instructions from their packet to their status word.
-/
def Obligations.MessagesAreSentAndAnswered : Prop :=
  Claims.AnsweredMessagesWriteTheirStatus
    ∧ Claims.MessagesLeaveAsOnePacket
    ∧ Claims.RepliesAreSentOnce
    ∧ Claims.HintsAndAnswersReachTheirSequencer

/-- 10 R157, R159: the mailbox instructions. `mcfg` checks its block and writes the descriptor; `mrecv` takes the head slot,
or waits for one, until its time-out gives all ones, and ends the sync interval; `mpeek` leaves it; `mrel` frees a taken slot,
or raises QUEUE-MISUSE. -/
def Sys2Proof.Claims.MailboxInstructionsTakeAndFreeSlots : Prop :=
  ∀ (s s1 : State) (g : Guard) (d a : Reg) (mb : Fin 64) (tmo : BitVec 18) (i : Nat) (x : Slot) (n : Nat),
    let m := s.mbx s.cur.1 mb.val
    let w := s.seq.readS a
    let o : ObjRef := ⟨.mbx, s.cur.1, mb.val⟩
    let setW (t : State) : State := t.modMy fun t =>
      { t with csr := { t.csr with holdst := { t.csr.holdst with w := s.withheld (s.partNo s.cur.1) o || s.poisoned (s.partNo s.cur.1) o } } }
    ((w.toNat % 32 ≠ 0 ∨ 65536 < w.toNat + 32) → Traps (.mcfg g a mb) s .windowBounds w)
      ∧ (w.toNat % 32 = 0 → w.toNat + 32 ≤ 65536 → readBlock w.toNat 32 s = .ok (n, s1) →
          let m1 := s1.mbx s1.cur.1 mb.val
          let ok := mcfgOk n m1.reservations.length (s1.partOf s1.cur.1).attrs.scount
          (ok = false → Traps (.mcfg g a mb) s .windowBounds w)
            ∧ (ok = true → Completes (.mcfg g a mb) s
                ((s1.setMbx s1.cur.1 mb.val (m1.configure n)).unpoison (s1.partNo s1.cur.1) ⟨.mbx, s1.cur.1, mb.val⟩)))
      ∧ (m.enabled = false → Traps (.mrecv g d a tmo mb) s .windowBounds (BitVec.ofNat 64 mb.val))
      ∧ (m.enabled = true → (s.cur.2 = .as → s.my.q.sq = []) → m.head = some (i, x) →
          let t := ((s.setMbx s.cur.1 mb.val (m.take i)).takeDeposit x (.strand s.my.act.sid)).modSeq
            (·.writeS d (BitVec.ofNat 64 (m.offset i)))
          Completes (.mrecv g d a tmo mb) s (t.closeInterval t.cur.1))
      ∧ (m.enabled = true → (s.cur.2 = .as → s.my.q.sq = []) → m.head = none →
          let pn := s.partNo s.cur.1
          let n := if a = 0 then tmo.toNat else w.toNat
          let wt := s.seq.carry ⟨.object o, 0, if n = 0 then none else some n, none⟩
          let whole := ∀ r ∈ o :: s.mbxReplies o, s.poisoned pn r = false
          (¬ whole → Traps (.mrecv g d a tmo mb) s .withheldAbort (objEntry s.cur.1 o))
            ∧ (whole → wt.left = some 0 →
              let t := s.modSeq (·.writeS d (BitVec.allOnes 64))
              Completes (.mrecv g d a tmo mb) s (t.closeInterval t.cur.1))
            ∧ (whole → wt.left ≠ some 0 → (∀ r ∈ o :: s.mbxReplies o, s.withheld pn r = false) →
              Ends (.mrecv g d a tmo mb) s (s.stall wt)))
      ∧ (m.head = some (i, x) → Completes (.mpeek g d mb) s (setW (s.modSeq (·.writeS d (BitVec.ofNat 64 (m.offset i))))))
      ∧ (m.head = none → Completes (.mpeek g d mb) s (setW (s.modSeq (·.writeS d (BitVec.allOnes 64)))))
      ∧ (m.takenAt w.toNat = some i → Completes (.mrel g a mb) s (s.setMbx s.cur.1 mb.val (m.putSlot i .free)))
      ∧ (m.takenAt w.toNat = none → Traps (.mrel g a mb) s .queueMisuse w)

/-- 10 R161: `nlink` sets the forwarding of both ends and, with CLR, empties both receive buffers. -/
def Sys2Proof.Claims.NlinkSetsForwarding : Prop :=
  ∀ (s : State) (g : Guard) (fe fw clr : Bool), s.meets (.nlink g fe fw clr) → ∃ t, exec (.nlink g fe fw clr) s = .next t
    ∧ t.me.fe = fe ∧ t.me.fw = fw ∧ t.me.nE = (if clr then [] else s.me.nE) ∧ t.me.nW = (if clr then [] else s.me.nW)
    ∧ (∀ p, p ≠ s.cur.1 → t.core p = s.core p) ∧ (∀ r, t.seq.readS r = s.seq.readS r) ∧ SameMem s t

/-- 10 R157, R159, R161: the mailbox instructions, and `nlink`. -/
def Obligations.MailboxesAndLinks : Prop :=
  Claims.MailboxInstructionsTakeAndFreeSlots ∧ Claims.NlinkSetsForwarding

/-- 10 R152, 03 R38: an active message arrives: its packet leaves the mesh; an inbox that has room for a message its
handler may take gets it and answers ACCEPTED; a full one answers REFUSED with the core's hint. -/
def Sys2Proof.Claims.ActiveMessagesArriveAtTheInbox : Prop :=
  ∀ (s : State) (src dst : Place) (k : Packet) (m : Msg) (q : SeqId) (d : Desc),
    let s0 := s.dropPacket k.num
    s.nextPacket src dst .amsg = some k → k.body = .active m (some q) none → s.eastRow dst = none → k.dst = dst →
    s0.handler (s0.partNo dst) dst (hdrHidx m.hdr) (hdrGen m.hdr) = some d → Machine.meets (s.core dst).feat d.freq = true →
      ((s.core dst).work.inbox.length < 64 → ∃ t e, exec (.activeMessageArrival src dst) s = .next t
          ∧ (t.core dst).work.inbox = (s.core dst).work.inbox ++ [e] ∧ e.msg = m ∧ e.sender = k.src ∧ e.tick = s.tick
          ∧ ∃ r ∈ t.fab.net, r.dst = k.src ∧ r.vn = .reply ∧ r.body = .answer q (.msg 0 0) ∧ r.sid = k.num)
        ∧ (64 ≤ (s.core dst).work.inbox.length → ∃ t, exec (.activeMessageArrival src dst) s = .next t
          ∧ (t.core dst).work.inbox = (s.core dst).work.inbox
          ∧ ∃ r ∈ t.fab.net, r.dst = k.src ∧ r.vn = .reply ∧ r.body = .answer q (.msg 1 (s.core dst).hint) ∧ r.sid = k.num)

/-- 10 R158, R155: a plain deposit at an enabled mailbox with a free slot and no full gate fills the next free slot: payload,
source and kind, and arrival tick; with none free it is refused, which a stage queue remembers (20 R285); a mailbox that is
disabled or Gaussian answers KIND. That it arrives on AMSG is the model's reading (log entry 29). -/
def Sys2Proof.Claims.DepositsFillAFreeSlot : Prop :=
  ∀ (s : State) (src dst : Place) (k : Packet) (mb : Nat) (pays : List Word) (q : Option SeqId) (i : Nat) (is : List Nat),
    let s0 := s.dropPacket k.num
    let m := s.mbx dst mb
    s.nextPacket src dst .amsg = some k → k.body = .deposit mb pays q → s.eastRow dst = none →
      ((m.enabled = false ∨ m.gaussian = true) → exec (.mailboxDeposit src dst) s = .next (s0.answerDeposit k mb q 4 0))
        ∧ (m.enabled = true → m.gaussian = false → s.refuses dst m = true →
          exec (.mailboxDeposit src dst) s =
            .next ((s0.setMbx dst mb { m with refused := m.refused || m.stage.isSome }).answerDeposit k mb q 1 (s.core dst).hint))
        ∧ (m.enabled = true → m.gaussian = false → s.refuses dst m = false → m.freeFromWix = i :: is →
          let m' := { m.putSlot i (.filled s.tick s.fab.nextNum src 0 0 0 false) with wix := (i + 1) % m.depth }
          exec (.mailboxDeposit src dst) s =
            .next ((((s0.nextNumber.setMbx dst mb m').writeCp dst (m.offset i) (plainSlot pays src 0 s.tick)).movePub
              (.packet k.num) (.deposit s.fab.nextNum)).answerDeposit k mb q 0 0))

/-- 10 R149, R153: a reply lands in the slot that its send reserved and is never refused: the slot is filled, of kind
reply, or of kind abort for a reply that a strand's end has sent. -/
def Sys2Proof.Claims.RepliesLandInTheirReservedSlot : Prop :=
  ∀ (s : State) (src dst : Place) (k : Packet) (mb num i : Nat) (abort : Bool) (pays : List Word),
    let m := s.mbx dst mb
    s.nextPacket src dst .reply = some k → k.body = .reply mb num abort pays → s.eastRow dst = none →
    m.reservedAt num = some i → ∃ t, exec (.replyArrival src dst) s = .next t
      ∧ t.mbx dst mb = m.putSlot i (.filled s.tick s.fab.nextNum src 0 0 0 false)
      ∧ t.mem = Memory.setAll s.mem
          ((span (Key.cp dst (m.offset i)) (plainSlot pays src (if abort then 2 else 1) s.tick).length).zip
            (plainSlot pays src (if abort then 2 else 1) s.tick))

/-- 18 R255: the first packet of a Gaussian deposit takes one of the core's four assembly buffers, or the deposit is
refused; the last one lets the arbiter apply the deposit as one event: KIND where the mailbox cannot take the
image; a newer version of a slot of the same source replaces it, its place in the order kept, and one that is not newer stores
nothing, both ACCEPTED; else it is refused, or a free slot is filled with its header and image: in circular order under RMODE
0, the lowest-numbered one otherwise. -/
def Sys2Proof.Claims.GaussianDepositsAssembleAndLand : Prop :=
  ∀ (s : State) (src dst : Place) (k : Packet) (mb n i : Nat) (res ver old r' : Lane) (img : List Lane) (q : Option SeqId)
    (started : Bool) (tick order n' : Nat) (c : Place) (fl : Bool),
    s.nextPacket src dst .bulk = some k → k.body = .gauss mb res ver n img started q →
    let m := s.mbx dst mb
    let s0 := (s.dropPacket k.num).modWork dst fun w => { w with asm := w.asm.erase (src, k.num) }
    (started = false → (s.core dst).work.asm.length < 4 → ∃ t, exec (.gaussianFirstPacket src dst) s = .next t
        ∧ (t.core dst).work.asm = (s.core dst).work.asm ++ [(src, k.num)] ∧ t.mem = s.mem)
      ∧ (started = false → 4 ≤ (s.core dst).work.asm.length → exec (.gaussianFirstPacket src dst) s =
          .next ((s.dropPacket k.num).answerDeposit k mb q 1 (s.core dst).hint))
      ∧ (started = true → (m.enabled = false ∨ m.gaussian = false ∨ m.slotSize < 32 + 2 * n * (n + 3)) →
          exec (.gaussianDeposit src dst) s = .next (s0.answerDeposit k mb q 4 0))
      ∧ (started = true → m.enabled = true → m.gaussian = true → 32 + 2 * n * (n + 3) ≤ m.slotSize →
          let put (s : State) (i : Nat) (x : Slot) (t : Nat) : State :=
            (s.setMbx dst mb (m.putSlot i x)).writeCp dst (m.offset i) (gaussSlot res ver src n t img)
          let took (t : State) (o : Nat) : State := (t.movePub (.packet k.num) (.deposit o)).answerDeposit k mb q 0 0
          (ver ≠ 0 → m.versioned src = some (i, .filled tick order c r' old n' fl) →
            let newer := 1 ≤ (ver - old).toNat ∧ (ver - old).toNat < 2 ^ 31
            (newer → exec (.gaussianDeposit src dst) s =
                .next (took (put s0 i (.filled tick order src res ver n false) tick) order))
              ∧ (¬ newer → exec (.gaussianDeposit src dst) s = .next (took s0 order)))
          ∧ (ver = 0 ∨ m.versioned src = none →
            (s.refuses dst m = true → exec (.gaussianDeposit src dst) s =
                .next ((s0.setMbx dst mb { m with refused := m.refused || m.stage.isSome }).answerDeposit k mb q 1
                  (s.core dst).hint))
            ∧ (s.refuses dst m = false →
              let x : Slot := .filled s.tick s.fab.nextNum src res ver n false
              (m.rmode = 0 → m.freeFromWix.head? = some i → exec (.gaussianDeposit src dst) s =
                  .next (took ((put s0.nextNumber i x s.tick).setMbx dst mb
                    { m.putSlot i x with wix := (i + 1) % m.depth }) s.fab.nextNum))
              ∧ (m.rmode ≠ 0 → m.slots[i]? = some .free → (∀ j < i, m.slots[j]? ≠ some .free) →
                  exec (.gaussianDeposit src dst) s = .next (took (put s0.nextNumber i x s.tick) s.fab.nextNum)))))

/-- 03 R38, 10 R149, R152, R153, R155, R158, 18 R255, 20 R285: what arrives at a core. -/
def Obligations.MessagesArrive : Prop :=
  Claims.ActiveMessagesArriveAtTheInbox
    ∧ Claims.DepositsFillAFreeSlot
    ∧ Claims.RepliesLandInTheirReservedSlot
    ∧ Claims.GaussianDepositsAssembleAndLand


/-! ## Vectors -/

namespace Sys2Proof.Claims

/-- `v` is `old` with each active element replaced by the low bits of `f` of its number, extended in its lane (12 R168). -/
def elemsAre (x : XT) (m : Lane) (old v : Lanes) (f : Nat → Nat) : Prop :=
  if x = .f64 then ∀ e < 16, elemAt x v e = if m.getLsbD (2 * e) then f e % 2 ^ 64 else elemAt x old e
  else ∀ e < 32, laneAt v e = if m.getLsbD e then (extendAs x (widthOf x) (f e)).setWidth 32 else laneAt old e

/-- `vD` takes `v`, `n` vector operations are metered, and the flags are ORed into FPSTAT. -/
def vecState (s : State) (d : VReg) (v : Lanes) (n : Nat) (f : Flags) : State :=
  ((s.modMy fun t => { t with vec := { t.vec with v := t.vec.v.set d.val v } }).modPart (s.partNo s.cur.1) fun t =>
    { t with meter := { t.meter with vecop := t.meter.vecop + n } }).modMy fun t =>
      { t with csr := { t.csr with fpstat := t.csr.fpstat ||| f } }

/-- The flags that any active element raises. -/
def raised (x : XT) (m : Lane) (fl : Flags) (f : Nat → Flags) : Prop :=
  ∀ b < 5, fl.getLsbD b = true ↔ ∃ e < elemCount x, activeElem x m e = true ∧ (f e).getLsbD b = true

/-- The instruction completes in the state its sources left, with active elements of `vD` and flags as `f` says. -/
def GivesElems (i : Instr) (s s2 : State) (g : Guard) (x : XT) (d : VReg) (f : Nat → Nat × Flags) : Prop :=
  ∃ v fl, Completes i s (vecState s2 d v ((List.range (elemCount x)).countP (activeElem x (s2.seq.mask g))) fl)
    ∧ elemsAre x (s2.seq.mask g) s2.my.vec.v[d.val] v (fun e => (f e).1) ∧ raised x (s2.seq.mask g) fl (fun e => (f e).2)

/-- An integer form: the result mod 2^w, and no flag. -/
def GivesInts (i : Instr) (s s2 : State) (g : Guard) (x : XT) (d : VReg) (r : Nat → Int) : Prop :=
  GivesElems i s s2 g x d fun e => ((r e % (2 ^ widthOf x : Nat)).toNat, 0)

/-- The levels of a reduction tree over `E` inputs `v` (05 R79): each pairs entry i with entry i + w, for w from E/2 down. -/
def treeLevel (f : Nat → Nat → Nat) (E : Nat) (v : Nat → Nat) : Nat → Nat → Nat
  | 0, e => v e
  | n + 1, e => f (treeLevel f E v n e) (treeLevel f E v n (e + E / 2 ^ (n + 1)))

/-- The inclusive prefixes from an identity. -/
def prefixAt (f : Nat → Nat → Nat) (one : Nat) (v : Nat → Nat) : Nat → Nat
  | 0 => f one (v 0)
  | e + 1 => f (prefixAt f one v e) (v (e + 1))

/-- The instruction completes with the lanes of `vD` as `f` says where the guard is 1. -/
def GivesLanes (i : Instr) (s s2 : State) (g : Guard) (d : VReg) (f : Nat → Lane) : Prop :=
  ∃ v, Completes i s (s2.modMy fun t => { t with vec := { t.vec with v := t.vec.v.set d.val v } })
    ∧ ∀ e < 32, laneAt v e = if (s2.seq.mask g).getLsbD e then f e else laneAt s2.my.vec.v[d.val] e

end Sys2Proof.Claims

/-- 12 R173: vector arithmetic, for registers in or out of stream mode and a vector or a scalar B: each active element
of D takes its operation, the others keep D, and the sources are read before D is written. -/
def Obligations.VectorArithmeticResults : Prop :=
  ∀ (s s1 s2 s3 : State) (g : Guard) (x : XT) (d a c : VReg) (b : VSrc) (va vc : Lanes) (v : Nat → Nat),
    Table.find s.my.vec.streams d.val = none → readV a s = .ok (va, s1) → readVSrc x b s1 = .ok (v, s2) →
    let w := widthOf x
    let u (e : Nat) : Nat := elemAt x va e
    let S (n : Nat) : Int := if n < 2 ^ (w - 1) then n else (n : Int) - 2 ^ w
    let V (n : Nat) : Int := if x.isSigned then S n else n
    let lo : Int := if x.isSigned then -2 ^ (w - 1) else 0
    let hi : Int := if x.isSigned then 2 ^ (w - 1) - 1 else 2 ^ w - 1
    let sat (r : Int) : Int := if r < lo then lo else if hi < r then hi else r
    let k (e : Nat) : Nat := v e % w
    let rm := s2.my.csr.fpmode.toNat
    (x.isInt = true →
        GivesInts (.vadd g x false d a b) s s2 g x d (fun e => u e + v e)
        ∧ GivesInts (.vsub g x false d a b) s s2 g x d (fun e => (u e : Int) - v e)
        ∧ GivesInts (.vadd g x true d a b) s s2 g x d (fun e => sat (V (u e) + V (v e)))
        ∧ GivesInts (.vsub g x true d a b) s s2 g x d (fun e => sat (V (u e) - V (v e)))
        ∧ GivesInts (.vmul g x d a b) s s2 g x d (fun e => u e * v e)
        ∧ GivesInts (.vmin g x d a b) s s2 g x d (fun e => if V (u e) ≤ V (v e) then V (u e) else V (v e))
        ∧ GivesInts (.vmax g x d a b) s s2 g x d (fun e => if V (u e) ≤ V (v e) then V (v e) else V (u e))
        ∧ GivesInts (.vabs g x d a) s s1 g x d (fun e => if S (u e) < 0 then - S (u e) else S (u e))
        ∧ GivesInts (.vneg g x d a) s s1 g x d (fun e => - S (u e))
        ∧ GivesInts (.vand g x d a b) s s2 g x d (fun e => (u e &&& v e : Nat))
        ∧ GivesInts (.vor g x d a b) s s2 g x d (fun e => (u e ||| v e : Nat))
        ∧ GivesInts (.vxor g x d a b) s s2 g x d (fun e => (u e ^^^ v e : Nat))
        ∧ GivesInts (.vshl g x d a b) s s2 g x d (fun e => u e * 2 ^ k e)
        ∧ GivesInts (.vshr g x d a b) s s2 g x d (fun e => (u e / 2 ^ k e : Nat))
        ∧ GivesInts (.vsra g x d a b) s s2 g x d (fun e => S (u e) / 2 ^ k e))
      ∧ (x.isInt = false →
        GivesElems (.vadd g x false d a b) s s2 g x d (fun e => fAdd x rm (u e) (v e))
        ∧ GivesElems (.vsub g x false d a b) s s2 g x d (fun e => fSub x rm (u e) (v e))
        ∧ GivesElems (.vmul g x d a b) s s2 g x d (fun e => fMul x rm (u e) (v e))
        ∧ GivesElems (.vmin g x d a b) s s2 g x d (fun e => fMinMax x false (u e) (v e))
        ∧ GivesElems (.vmax g x d a b) s s2 g x d (fun e => fMinMax x true (u e) (v e))
        ∧ (readV c s2 = .ok (vc, s3) →
            GivesElems (.vfma g x d a b c) s s3 g x d (fun e => fMa x s3.my.csr.fpmode.toNat (u e) (v e) (elemAt x vc e)))
        ∧ (let sgn (neg : Bool) (n : Nat) : Nat × Flags :=
            if (decodeF x n).isNan then (canonNan x, if (decodeF x n).isSNan then 16 else 0)
            else (n % 2 ^ (w - 1) + (if neg && !n.testBit (w - 1) then 2 ^ (w - 1) else 0), 0)
           GivesElems (.vabs g x d a) s s1 g x d (fun e => sgn false (u e))
            ∧ GivesElems (.vneg g x d a) s s1 g x d (fun e => sgn true (u e))))

/-- 12 R175, R181: compares, selects, conversions, splits, broadcasts, moves and permutes; a destination in stream mode
raises STREAM-FAULT with its register (12 R170). `FloatConversionsSignsAndClasses` gives the values of a conversion and of a
split. -/
def Obligations.VectorMovesComparesAndConversions : Prop :=
  ∀ (s s1 s2 : State) (g : Guard) (x fr : XT) (d a b : VReg) (vb : VSrc) (kd kc : Fin 8) (la lb : Lanes) (v : Nat → Nat)
    (o : Opnd) (val : Word) (l : Fin 32) (half : Bool),
    let w := widthOf x
    let free (r : Nat) : Prop := Table.find s.my.vec.streams r = none
    ((Table.find s.my.vec.streams d.val).isSome = true →
        ∀ i ∈ [Instr.vadd g x false d a vb, .vsub g x false d a vb, .vmul g x d a vb, .vmin g x d a vb, .vmax g x d a vb,
          .vfma g x d a vb b, .vabs g x d a, .vneg g x d a, .vand g x d a vb, .vor g x d a vb, .vxor g x d a vb, .vshl g x d a vb,
          .vshr g x d a vb, .vsra g x d a vb, .vsel g d a b kc, .vcvt g x fr half d a, .vsplit g d a, .vbcast g x d (.sca o), .vmov g d a,
          .vmovScalarToLane g x d l o, .vshuf g d a b, .vscan g x .add d a, .vld g x half d 0 0, .vgath g x half d 0 b],
          Traps i s .streamFault (BitVec.ofNat 64 d.val))
      ∧ (readV a s = .ok (la, s1) →
        (readVSrc x vb s1 = .ok (v, s2) →
          let u (e : Nat) : Nat := elemAt x la e
          let S (n : Nat) : Int := if x.isSigned ∧ ¬ n < 2 ^ (w - 1) then (n : Int) - 2 ^ w else n
          let m := s2.seq.mask g
          let sets (i : Instr) (p : Nat → Bool) (q : Nat → Flags) : Prop := ∃ (r : Lane) (n : Nat) (fl : Flags),
            Completes i s (((s2.modSeq (·.writeK kd r)).modPart (s2.partNo s2.cur.1) fun t =>
              { t with meter := { t.meter with vecop := t.meter.vecop + n } }).modMy fun t =>
                { t with csr := { t.csr with fpstat := t.csr.fpstat ||| fl } })
            ∧ (∀ j < 32, r.getLsbD j =
                (let e := if x = .f64 then j / 2 else j
                 activeElem x m e && p e)) ∧ raised x m fl q
          sets (.vcmp g x kd (.int .eq) a vb) (fun e => decide (S (u e) = S (v e))) (fun _ => 0)
            ∧ sets (.vcmp g x kd (.int .ne) a vb) (fun e => decide (S (u e) ≠ S (v e))) (fun _ => 0)
            ∧ sets (.vcmp g x kd (.int .lt) a vb) (fun e => decide (S (u e) < S (v e))) (fun _ => 0)
            ∧ sets (.vcmp g x kd (.int .ge) a vb) (fun e => decide (S (v e) ≤ S (u e))) (fun _ => 0)
            ∧ sets (.vcmp g x kd (.int .le) a vb) (fun e => decide (S (u e) ≤ S (v e))) (fun _ => 0)
            ∧ sets (.vcmp g x kd (.int .gt) a vb) (fun e => decide (S (v e) < S (u e))) (fun _ => 0)
            ∧ ∀ cc, sets (.vcmp g x kd (.flt cc) a vb) (fun e => (fCmp x cc (u e) (v e)).1) (fun e => (fCmp x cc (u e) (v e)).2))
        ∧ (free d.val → readV b s1 = .ok (lb, s2) →
          GivesLanes (.vsel g d a b kc) s s2 g d (fun e => if (s2.seq.readK kc).getLsbD e then laneAt la e else laneAt lb e)
            ∧ GivesLanes (.vshuf g d a b) s s2 g d
              (fun e => if (laneAt lb e).getLsbD 5 then 0 else laneAt la ((laneAt lb e).toNat % 32)))
        ∧ (free d.val → GivesLanes (.vmov g d a) s s1 g d (laneAt la))
        ∧ (free d.val → l.val < elemCount x → ∃ n, Completes (.vbcast g x d (.lane a l)) s n
              ∧ ∃ t, n = s1.modMy (fun k => { k with vec := { k.vec with v := k.vec.v.set d.val t } })
                ∧ elemsAre x (s1.seq.mask g) s1.my.vec.v[d.val] t (fun _ => elemAt x la l.val))
        ∧ Gives (.vmovLaneToScalar g x o a l) s s1 o (extendAs x w (elemAt x la l.val))
        ∧ (free d.val →
          let rm := s1.my.csr.fpmode.toNat
          let m := s1.seq.mask g
          let h := if half then 16 else 0
          let old := s1.my.vec.v[d.val]
          let cv (e : Nat) : Nat := (convertElem x fr rm (elemAt fr la e)).1
          ∃ t n fl, Completes (.vcvt g x fr half d a) s (vecState s1 d t n fl)
            ∧ (x ≠ .f64 → fr ≠ .f64 → ∀ e < 32,
                laneAt t e = if m.getLsbD e then (extendAs x w (cv e)).setWidth 32 else laneAt old e)
            ∧ (x ≠ .f64 → fr = .f64 → ∀ e < 32, laneAt t e =
                if h ≤ e ∧ e < h + 16 ∧ m.getLsbD e then (extendAs x w (cv (e - h))).setWidth 32 else laneAt old e)
            ∧ (x = .f64 → fr ≠ .f64 → ∀ e < 16,
                elemAt x t e = if m.getLsbD (h + e) then cv (h + e) % 2 ^ 64 else elemAt x old e)
            ∧ (x = .f64 → fr = .f64 → ∀ e < 16, elemAt x t e = if m.getLsbD (2 * e) then cv e % 2 ^ 64 else elemAt x old e))
        ∧ (d.val < 30 → free d.val → free (d.val + 1) → free (d.val + 2) → s.meets (.vsplit g d a) →
          ∃ t, exec (.vsplit g d a) s = .next t
            ∧ (∀ r : VReg, r.val < d.val ∨ d.val + 2 < r.val → t.my.vec.v[r.val] = s.my.vec.v[r.val])
            ∧ ∀ (j : Fin 3) (e : Nat), e < 32 → laneAt ((t.my.vec.v[d.val + j.val]?).getD (Vector.replicate 32 0)) e =
                if (s1.seq.mask g).getLsbD e then
                  BitVec.ofNat 32 (match j with
                    | 0 => (splitLane (laneAt la e)).1.1
                    | 1 => (splitLane (laneAt la e)).1.2.1
                    | 2 => (splitLane (laneAt la e)).1.2.2)
                else laneAt ((s.my.vec.v[d.val + j.val]?).getD (Vector.replicate 32 0)) e))
      ∧ (free d.val → src o s = .ok (val, s1) →
        (∃ t, Completes (.vbcast g x d (.sca o)) s (s1.modMy fun k => { k with vec := { k.vec with v := k.vec.v.set d.val t } })
            ∧ elemsAre x (s1.seq.mask g) s1.my.vec.v[d.val] t (fun _ => val.toNat % 2 ^ w))
          ∧ (l.val < elemCount x → ∃ t, Completes (.vmovScalarToLane g x d l o) s
              (s1.modMy fun k => { k with vec := { k.vec with v := k.vec.v.set d.val t } })
            ∧ elemsAre x (BitVec.ofNat 32 (if x = .f64 then 4 ^ l.val else 2 ^ l.val)) s1.my.vec.v[d.val] t
                (fun _ => val.toNat % 2 ^ w)))

/-- 12 R181, 05 R79: `vred` combines the elements by the fixed tree, pairing element i with i + w for w from E/2 down
to 1; `vscan` forms the inclusive prefixes in order; an inactive element stands at the operation's identity. An integer sum, and, or
or exclusive or is that of all the elements. -/
def Obligations.ReductionsFollowTheTree : Prop :=
  ∀ (s s1 : State) (g : Guard) (x : XT) (op : RedOp) (d : VReg) (o : Opnd) (a : VReg) (la : Lanes),
    let w := widthOf x
    let E := elemCount x
    let m := s1.seq.mask g
    let rm := s1.my.csr.fpmode.toNat
    let one : Nat := match op with
      | .add | .or | .xor => 0
      | .and => 2 ^ w - 1
      | .min => if x.isInt then (if x.isSigned then 2 ^ (w - 1) - 1 else 2 ^ w - 1) else infBits x false
      | .max => if x.isInt then (if x.isSigned then 2 ^ (w - 1) else 0) else infBits x true
    let v (e : Nat) : Nat := if activeElem x m e then elemAt x la e else one
    let f (p q : Nat) : Nat := (redStep x op rm p q).1
    readV a s = .ok (la, s1) →
      ((∀ s2, dst o (extendAs x w (treeLevel f E v (if x = .f64 then 4 else 5) 0)) s1 = .ok ((), s2) → s.meets (.vred g x op o a) →
            ∃ t n fl, exec (.vred g x op o a) s = .next (t.retire 8 .fall)
              ∧ t = (s2.modPart (s2.partNo s2.cur.1) fun t => { t with meter := { t.meter with vecop := t.meter.vecop + n } }).modMy
                  fun t => { t with csr := { t.csr with fpstat := t.csr.fpstat ||| fl } }))
        ∧ (Table.find s.my.vec.streams d.val = none →
          ∃ t n fl, Completes (.vscan g x op d a) s (vecState s1 d t n fl)
            ∧ elemsAre x m s1.my.vec.v[d.val] t (prefixAt f one v))
        ∧ (x.isInt = true → ∀ p q, p < 2 ^ w → q < 2 ^ w →
          (redStep x .add rm p q = ((p + q) % 2 ^ w, 0) ∧ redStep x .and rm p q = (p &&& q, 0)
            ∧ redStep x .or rm p q = (p ||| q, 0) ∧ redStep x .xor rm p q = (p ^^^ q, 0)))

/-! ## Vector memory and the matrix array -/

namespace Sys2Proof.Claims

/-- The current core's own window answers a request at its addresses, leaving `s1`. -/
def answersLocal (s : State) (cm : Bool) (kind : AccKind) (op : AccOp) (as : List Nat) (s1 : State) (ans : Answer) : Prop :=
  let key (a : Nat) : Nat := if cm then Key.cm (s.cur.1 / 8) a else Key.cp s.cur.1 a
  let home := if cm then cmHome (s.cur.1 / 8) (as.headD 0) else s.cpHome s.cur.1 (as.headD 0)
  s.nextNumber.send (s.coreAccess home kind op (.keys (as.map key)) (key 0)) false = .answered s1 ans

/-- The size of a local window. -/
def windowSizeOf (cm : Bool) : Nat := if cm then 1048576 else 65536

/-- Addresses of n-byte elements that no check of 12 R177 stops. -/
def fine (s : State) (cm : Bool) (n : Nat) (as : List Nat) : Prop :=
  ∀ a ∈ as, a % n = 0 ∧ a + n ≤ windowSizeOf cm ∧ (cm = false → s.seq.level = .user → a + n ≤ 0xEC00)

/-- The traps of those checks, in their order: each at the first element that fails it. -/
def addressTraps (i : Instr) (s : State) (cm : Bool) (n : Nat) (as : List Nat) : Prop :=
  (∀ a, as.find? (fun a => a % n != 0) = some a → Traps i s .misalignedData (BitVec.ofNat 64 a))
    ∧ ((∀ a ∈ as, a % n = 0) → ∀ a, as.find? (fun a => decide (windowSizeOf cm < a + n)) = some a →
        Traps i s .windowBounds (BitVec.ofNat 64 a))
    ∧ ((∀ a ∈ as, a % n = 0 ∧ a + n ≤ windowSizeOf cm) → cm = false → s.seq.level = .user →
        ∀ a, as.find? (fun a => decide (0xEC00 < a + n)) = some a → Traps i s .accessRights (BitVec.ofNat 64 a))

end Sys2Proof.Claims

/-- 12 R177: the dense and indexed vector accesses touch their active elements alone: element e of `vld` and `vst` at
(s[A] + DISP × n) mod 2^64 + e × n, of `vgath` and `vscat` at (s[A] + index × n) mod 2^64. All checks come before the request; a load replaces the active
elements of D with the bytes answered, in order, and a store hands over the bytes of its active elements. That a
register in stream mode is popped only once the request is answered is the model's reading (log entry 32). -/
def Obligations.VectorAccessesTouchActiveElements : Prop :=
  ∀ (s s0 s1 s2 : State) (g : Guard) (x : XT) (cm : Bool) (d b c : VReg) (a : Reg) (disp : BitVec 10) (bs : List Byte)
    (u ix u' : Lanes),
    let n := widthOf x / 8
    let es := (List.range (elemCount x)).filter (activeElem x (s.seq.mask g))
    let base := (((s.seq.readS a).toNat + disp.toInt * n) % 2 ^ 64).toNat
    let dense := es.map fun e => base + e * n
    let indexed := es.map fun e => ((s.seq.readS a).toNat + (laneAt ix e).toNat * n) % 2 ^ 64
    let spans (as : List Nat) : List Nat := as.flatMap fun a => span a n
    let bytes (v : Lanes) : List Byte := es.flatMap fun e => leBytesOf n (elemAt x v e)
    let loaded (t : State) (v : Lanes) : Prop := elemsAre x (s.seq.mask g) t.my.vec.v[d.val] v fun e =>
      leOf ((bs.drop ((List.range e).countP (activeElem x (s.seq.mask g)) * n)).take n)
    let put (t : State) (v : Lanes) : State := t.modMy fun k => { k with vec := { k.vec with v := k.vec.v.set d.val v } }
    let free := Table.find s.my.vec.streams d.val = none
    (free → addressTraps (.vld g x cm d a disp) s cm n dense)
      ∧ addressTraps (.vst g x cm a b disp) s cm n dense
      ∧ (free → readV b s = .ok (ix, s0) → addressTraps (.vgath g x cm d a b) s cm n indexed)
      ∧ (readV b s = .ok (ix, s0) → addressTraps (.vscat g x cm a b c) s cm n indexed)
      ∧ (s.begins → free → fine s cm n dense → answersLocal s cm .r .read (spans dense) s1 (.data bs) →
          bs.length = es.length * n → ∃ v, Completes (.vld g x cm d a disp) s (put (answered s1 (.data bs)) v) ∧ loaded s1 v)
      ∧ (s.begins → fine s cm n dense → readV b s = .ok (u, s0) →
          answersLocal s cm .w (.write (bytes u)) (spans dense) s1 (.data []) → readV b (answered s1 (.data [])) = .ok (u', s2) →
          Completes (.vst g x cm a b disp) s s2)
      ∧ (s.begins → free → readV b s = .ok (ix, s0) → fine s cm n indexed →
          answersLocal s cm .r .read (spans indexed) s1 (.data bs) → bs.length = es.length * n →
          readV b (answered s1 (.data bs)) = .ok (u', s2) →
          ∃ v, Completes (.vgath g x cm d a b) s (put s2 v) ∧ loaded s2 v)
      ∧ (s.begins → readV b s = .ok (ix, s0) → readV c s0 = .ok (u, s1) → fine s cm n indexed →
          ∀ t1 t2 t3 v1 v2, answersLocal s cm .w (.write (bytes u)) (spans indexed) t1 (.data []) →
            readV b (answered t1 (.data [])) = .ok (v1, t2) → readV c t2 = .ok (v2, t3) →
            Completes (.vscat g x cm a b c) s t3)

/-- 12 R178 to R180: `vstream` checks its descriptor and puts its register in stream mode at point 0; reads then take the
fetched vectors in order; `vstop` ends the mode and zeroes the register, or does nothing; and the refill
event reads the next point of the next vector, which joins those fetched with its last point, or with the fault that marks it. -/
def Obligations.StreamsDeliverTheirVectors : Prop :=
  ∀ (s s1 : State) (g : Guard) (x : XT) (d : Fin 8) (a : Reg) (n : Nat) (p : Place) (t t' : Stream) (v : Lanes),
    let w := s.seq.readS a
    let r := 24 + d.val
    let f (lo : Nat) : Nat := n / 2 ^ lo % 2 ^ 32
    let zero := n % 2 ^ 17 = 0 ∧ n / 2 ^ 24 % 2 ^ 232 = 0 ∧ f 416 ≠ 0 ∧ f 352 ≠ 0 ∧ f 288 ≠ 0
    let setS (u : State) (t : Stream) : State := u.modMy fun k =>
      { k with vec := { k.vec with streams := Table.set k.vec.streams r t } }
    let pts := t'.points (t'.next + t'.buf.length)
    let zeros : Lanes := Vector.replicate 32 0
    let fetch := ({ s with cur := (p, .xs) } : State).fetchPoint r t' (pts.getD t'.read 0) t'.lanes
    let keep (u : State) (t : Stream) : State := ({ u with cur := s.cur } : State).modStrand p fun k =>
      { k with vec := { k.vec with streams := Table.set k.vec.streams r t } }
    (w.toNat % 64 ≠ 0 → Traps (.vstream g x d a) s .windowBounds w)
      ∧ (w.toNat % 64 = 0 → readBlock w.toNat 64 s = .ok (n, s1) → ¬ zero → Traps (.vstream g x d a) s .windowBounds w)
      ∧ (w.toNat % 64 = 0 → readBlock w.toNat 64 s = .ok (n, s1) → zero → streamFmt x (n / 2 ^ 20 % 16) (n.testBit 17) = false →
          Traps (.vstream g x d a) s .format w)
      ∧ (w.toNat % 64 = 0 → readBlock w.toNat 64 s = .ok (n, s1) → zero → streamFmt x (n / 2 ^ 20 % 16) (n.testBit 17) = true →
          Completes (.vstream g x d a) s (setS s1 ⟨BitVec.ofNat 512 n, x, 0, [], false, 0, zeros⟩))
      ∧ (Table.find s.my.vec.streams r = some t →
          (t.total ≤ t.next → ∀ q : VReg, q.val = r → readV q s = .error (.trap .streamFault (some (BitVec.allOnes 64)) .none))
            ∧ (t.next < t.total → ∀ rest, t.buf = .lanes v :: rest → ∀ q : VReg, q.val = r →
                readV q s = .ok (v, setS s { t with buf := rest, next := t.next + 1 }))
            ∧ (t.next < t.total → ∀ c z rest, t.buf = .fault c z :: rest → ∀ q : VReg, q.val = r → readV q s =
                .error (.trap (if c = .memoryConflict then c else .streamFault) (some z) (.stream r)))
            ∧ (s.meets (.vstop g d) → ∃ u, exec (.vstop g d) s = .next u ∧ Table.find u.my.vec.streams r = none
                ∧ (∀ q : VReg, q.val = r → u.my.vec.v[q.val] = Vector.replicate 32 0)
                ∧ ∀ q : VReg, q.val ≠ r → u.my.vec.v[q.val] = s.my.vec.v[q.val]
                    ∧ Table.find u.my.vec.streams q.val = Table.find s.my.vec.streams q.val))
      ∧ (Table.find s.my.vec.streams r = none → Completes (.vstop g d) s s)
      ∧ (Table.find (s.strand p).vec.streams r = some t → s.coreRuns p = true → t.due (s.strand p).xs.inTrap = some t' →
          (∀ u, fetch = .lanes u v →
              (t'.read + 1 < pts.length →
                  exec (.streamRefill p d) s = .next (keep u { t' with read := t'.read + 1, lanes := v }))
                ∧ (pts.length ≤ t'.read + 1 → exec (.streamRefill p d) s =
                  .next (keep u { t' with buf := t'.buf ++ [.lanes v], stopped := false, read := 0, lanes := zeros })))
            ∧ (fetch = .blocked → exec (.streamRefill p d) s = .next s)
            ∧ ∀ u c z, fetch = .fault u c z → exec (.streamRefill p d) s =
                .next (keep u { t' with buf := t'.buf ++ [.fault c z], stopped := true, read := 0, lanes := zeros }))
      ∧ (∀ pt, pt < f 416 * f 352 * f 288 →
          let i0 := pt % f 416
          let i1 := pt / f 416 % f 352
          let i2 := pt / (f 416 * f 352)
          let S (lo : Nat) : Int := if f lo < 2 ^ 31 then f lo else (f lo : Int) - 2 ^ 32
          pointIndex n pt = i0 * S 384 + i1 * S 320 + i2 * S 256)

/-- 12 R186, 05 R78: `mma` and `mmaz` check the two format tags; each unmasked output becomes RNE32 of the exact sum
of its start and its products, in every finite case; the other outputs, the latches and the masks stay. -/
def Obligations.MatrixProductsRoundTheExactSum : Prop :=
  ∀ (s : State) (g : Guard) (f : MFmt) (d : Fin 4) (z : Bool),
    let i : Instr := if z then .mmaz g f d else .mma g f d
    let m := s.my.mat
    let n := min m.km (kOf f)
    let A (r k : Nat) : FVal := Table.get FVal.zero m.la.vals (r * 256 + k)
    let B (k c : Nat) : FVal := Table.get FVal.zero m.lb.vals (c * 256 + k)
    let at_ (q : Vector Lane 1024) (r c : Nat) : Lane := (q[r * 32 + c]?).getD 0
    let start (r c : Nat) : FVal := fv32 (if z then 0 else at_ m.acc[d.val] r c)
    (m.la.tag ≠ some f → Traps i s .format 1)
      ∧ (m.la.tag = some f → m.lb.tag ≠ some f → Traps i s .format 2)
      ∧ (m.la.tag = some f → m.lb.tag = some f → m.mm ≤ 32 → m.nm ≤ 32 → s.meets i → ∃ t q, exec i s = .next t
          ∧ t.my.mat = { m with acc := m.acc.set d.val q }
          ∧ (∀ r c, r < 32 → c < 32 → ¬ (r < m.mm ∧ c < m.nm) → at_ q r c = at_ m.acc[d.val] r c)
          ∧ (∀ r c, r < m.mm → c < m.nm → (start r c).isFinite = true →
              (∀ k < n, (A r k).isFinite = true ∧ (B k c).isFinite = true) →
              ∃ v : FVal, v.isFinite = true
                ∧ v.rational = (start r c).rational + ((List.range n).map fun k => (A r k).rational * (B k c).rational).sum
                ∧ at_ q r c = (rne32 v).1)
          ∧ (∀ r c, r < m.mm → c < m.nm → ((start r c).isNan = true ∨ ∃ k < n, (A r k).isNan = true ∨ (B k c).isNan = true) →
              at_ q r c = 0x7FC00000)
          ∧ t.mem = s.mem ∧ t.my.vec = s.my.vec ∧ (∀ r, t.seq.readS r = s.seq.readS r)
          ∧ ∀ j < 5, s.my.csr.fpstat.getLsbD j = true → t.my.csr.fpstat.getLsbD j = true)

/-- 12 R185, R187, R188: the latch loads take the elements their positions name and set the tag, the accumulator
forms read and write the unmasked elements, `mclr` zeroes an accumulator whole, `mmask` sets the masks. Each checks its base. -/
def Obligations.MatrixLoadsStoresAndMasks : Prop :=
  ∀ (s s1 s2 : State) (g : Guard) (f : MFmt) (x : XT) (cm : Bool) (a b c : Reg) (v : VReg) (d f2 : Fin 4) (e : BitVec 8)
    (mm nm : Fin 32) (km : BitVec 8) (vs : List FVal) (ix u : Lanes),
    let base := s.seq.readS a
    let m := s.my.mat
    let org := (s.seq.readS b).toNat / 2 ^ 32
    let rs := (s.seq.readS b).toNat % 2 ^ 32
    let ps (h w : Nat) (idx : Nat → Nat → Nat) : List (Nat × Nat) :=
      (List.range h).flatMap fun r => (List.range w).map fun k => (r * 256 + k, idx r k)
    let n := min m.km (kOf f)
    let la := ps m.mm n fun r k => org + r * rs + k
    let lb := ps m.nm n fun r k => org + k * rs + r
    let lg := ps m.mm n fun r k => (laneAt ix r).toNat + k
    let out := (List.range m.mm).flatMap fun i => (List.range m.nm).map fun j => (i, j)
    let setMat (t : State) (q : Mat) : State := t.modMy fun k => { k with mat := q }
    (base.toNat % 64 ≠ 0 →
        (∀ i ∈ [Instr.mlda g f cm a b c, .mldb g f cm a b c, .mgath g f cm a v c, .mldacc g x cm d a b], Traps i s .misalignedData base)
          ∧ (e ≠ 0xFF → Traps (.mstacc g x cm d a b e f2) s .misalignedData base))
      ∧ Traps (.mstacc g x cm d a b 0xFF f2) s .format 0
      ∧ (base.toNat % 64 = 0 →
        (readTensor f cm base.toNat (s.seq.readS c).toNat (la.map (·.2)) s = .ok (vs, s1) →
            Completes (.mlda g f cm a b c) s (setMat s1 { s1.my.mat with la := ⟨some f, (la.map (·.1)).zip vs⟩ }))
          ∧ (readTensor f cm base.toNat (s.seq.readS c).toNat (lb.map (·.2)) s = .ok (vs, s1) →
            Completes (.mldb g f cm a b c) s (setMat s1 { s1.my.mat with lb := ⟨some f, (lb.map (·.1)).zip vs⟩ }))
          ∧ (∀ t, readV v s = .ok (ix, t) → readTensor f cm base.toNat (s.seq.readS c).toNat (lg.map (·.2)) s = .ok (vs, s1) →
            readV v s1 = .ok (u, s2) →
            Completes (.mgath g f cm a v c) s (setMat s2 { s2.my.mat with la := ⟨some f, (lg.map (·.1)).zip vs⟩ }))
          ∧ (readTensor (.plain x) cm base.toNat 0 (out.map fun p => org + p.1 * rs + p.2) s = .ok (vs, s1) →
            s.meets (.mldacc g x cm d a b) → m.mm ≤ 32 → m.nm ≤ 32 → vs.length = out.length →
            ∃ t q, exec (.mldacc g x cm d a b) s = .next t ∧ t.my.mat = { s1.my.mat with acc := s1.my.mat.acc.set d.val q }
              ∧ (∀ i j, i < m.mm → j < m.nm → ∃ y, vs[i * m.nm + j]? = some y
                  ∧ q[i * 32 + j]? = some (if y.isNan then 0x7FC00000 else (rne32 y).1))
              ∧ ∀ i j, i < 32 → j < 32 → ¬ (i < m.mm ∧ j < m.nm) → q[i * 32 + j]? = m.acc[d.val][i * 32 + j]?)
          ∧ (e ≠ 0xFF →
            let value (p : Nat × Nat) : Nat × Flags :=
              convertTo x 0 (unscaled e.toNat f2.val (fv32 ((m.acc[d.val][p.1 * 32 + p.2]?).getD 0)))
            let cells := tensorStore x base.toNat e.toNat f2.val (out.map fun p => (org + p.1 * rs + p.2, (value p).1))
            checkBlocks cm (blockAddrs (.plain x) base.toNat 0 (out.map fun p => org + p.1 * rs + p.2)) s = .ok ((), s) →
            s.begins → answersLocal s cm .w (.write (cells.map (·.2))) (cells.map (·.1)) s1 (.data []) →
            ∃ fl : Flags, Completes (.mstacc g x cm d a b e f2) s ((answered s1 (.data [])).modMy fun t =>
              { t with csr := { t.csr with fpstat := t.csr.fpstat ||| fl } })))
      ∧ Completes (.mclr g d) s (setMat s { m with acc := m.acc.set d.val (Vector.replicate 1024 0) })
      ∧ Completes (.mmask g mm nm km) s (setMat s { m with mm := mm.val + 1, nm := nm.val + 1, km := km.toNat + 1 })

/-! ## Barriers and semaphores -/

namespace Sys2Proof.Claims

/-- A synchronising instruction that releases may take effect: the AS's sq is empty, what 16 R245 names is done, and the closes
of the interval are acknowledged at once. -/
def mayRelease (s : State) : Prop :=
  (s.cur.2 = .as → s.my.q.sq = []) ∧ s.seq.shut = false ∧ s.released s.cur.1 s.cur.2 = true
    ∧ (s.releases s.cur.1 s.cur.2).closing s.cur.1 = false

/-- A packet of the current strand stands in the mesh. -/
def sends (s t : State) (dst : Place) (vn : Vn) (b : Body) : Prop :=
  ∃ k ∈ t.fab.net, k.src = s.cur.1 ∧ k.dst = dst ∧ k.vn = vn ∧ k.part = s.partNo s.cur.1 ∧ k.sid = s.my.act.sid ∧ k.body = b

/-- No mark on an object that this strand's production would clear. -/
def unmarkedBy (t : State) (pn sid : Nat) (o : ObjRef) : Prop := ∀ k ∈ (t.part pn).marks, ¬ (k.obj = o ∧ k.sid = sid)

/-- Registers and memory stand as they were. -/
def quiet (s t : State) : Prop :=
  (∀ r, t.seq.readS r = s.seq.readS r) ∧ (∀ k, t.seq.readK k = s.seq.readK k) ∧ t.mem = s.mem

/-- A wait on an object whose condition is unmet (03 R57, R60, R63): a poisoned object raises WITHHELD-ABORT, an expired
time-out completes with all ones in D, a withheld object has the strand parked whole with its produce set marked, and otherwise
the sequencer waits with its time-out running. -/
def waitsOn (i : Instr) (s : State) (d : Reg) (o : ObjRef) (n : Nat) : Prop :=
  let pn := s.partNo s.cur.1
  (s.poisoned pn o = true → Traps i s .withheldAbort (objEntry s.cur.1 o))
    ∧ (s.poisoned pn o = false → ∀ w, s.seq.wait = some w → w.why = .object o → n ≠ 0 → w.left = some 0 →
        Completes i s ((s.modSeq (·.writeS d (BitVec.allOnes 64))).closeInterval s.cur.1))
    ∧ (s.poisoned pn o = false → s.seq.wait = none → s.seq.used = 0 → s.withheld pn o = false → s.meets i →
        exec i s = .next (s.modSeq fun c =>
          { c with wait := some ⟨.object o, 0, if n = 0 then none else some n, none⟩, used := 0 }))
    ∧ (s.poisoned pn o = false → s.seq.wait = none → s.withheld pn o = true → s.shownMarks pn o ≠ [] → s.meets i →
        ∃ t, exec i s = .next t ∧ (t.core s.cur.1).running = false ∧ t.mem = s.mem
          ∧ (∃ k ∈ (t.part pn).parked, k.place = s.cur.1 ∧ k.st.act.sid = s.my.act.sid ∧ k.ready = false)
          ∧ ∀ u ∈ s.produceSet s.cur.1, ∃ k ∈ (t.part pn).marks, k.obj = u ∧ k.sid = s.my.act.sid)

end Sys2Proof.Claims

/-- 14 R195: an arrival at a local barrier, in any state of the barrier: a misuse leaves it alone; otherwise PEND falls by
one, `lbdrop` and `lbjoin` move ADJ, and the arrival that leaves neither arrivals nor bytes outstanding flips the phase. That a discarded arrival
clears no mark is the model's reading (log entry 34). -/
def Sys2Proof.Claims.BarrierArrivalsFlipThePhase : Prop :=
  ∀ (b : Lb) (op : Nat), op < 3 →
    let adj : Int := if op = 1 then b.adj - 1 else if op = 2 then b.adj + 1 else b.adj
    let bad := b.pend = 0 ∨ (op = 1 ∧ (b.exp : Int) + adj < 0) ∨ (op = 2 ∧ (65535 : Int) < b.exp + adj)
    (bad → b.arrive op = none)
      ∧ (¬ bad → (b.pend ≠ 1 ∨ b.txb ≠ 0) → b.arrive op = some ⟨b.ph, b.exp, b.pend - 1, b.txb, adj⟩)
      ∧ (¬ bad → b.pend = 1 → b.txb = 0 →
          b.arrive op = some ⟨!b.ph, ((b.exp : Int) + adj).toNat, ((b.exp : Int) + adj).toNat, 0, 0⟩)
      ∧ (∀ n, b.txb = 0 → b.retire n = (b, n))
      ∧ (∀ n, b.txb ≠ 0 → ¬ (b.pend = 0 ∧ b.txb ≤ n) → b.retire n = ({ b with txb := b.txb - n }, n - b.txb))
      ∧ ∀ n, b.txb ≠ 0 → b.pend = 0 → b.txb ≤ n → b.retire n =
          (⟨!b.ph, ((b.exp : Int) + b.adj).toNat, ((b.exp : Int) + b.adj).toNat, 0, 0⟩, n - b.txb)

/-- 14 R194 to R196, R244: the local barrier instructions, on the core's own barrier and a remote one, and the arrival that
reaches a barrier. An arrival of the cycle in which the other sequencer's flipped the phase finds no arrival pending; a wait
that completes acquires what the phases have published. TVAL of a bad place takes a free value (log entry 10). -/
def Sys2Proof.Claims.LocalBarrierInstructions : Prop :=
  ∀ (s : State) (g : Guard) (d a : Reg) (tmo : BitVec 17) (par : Bool) (lb : Fin 64) (p src dst : Place) (k : Packet)
    (op j : Nat) (b' : Lb),
    let self := s.cur.1
    let pn := s.partNo self
    let sid := s.my.act.sid
    let w := s.seq.readS a
    let b := s.lb self lb.val
    let o : ObjRef := ⟨.lb, self, lb.val⟩
    let n := if a.val = 0 then tmo.toNat else w.toNat
    let arrivals : List (Instr × Nat) := [(.lbarr g a lb, 0), (.lbdrop g a lb, 1), (.lbjoin g a lb, 2)]
    let others (t : State) : Prop := ∀ q i, (q, i) ≠ (self, lb.val) → t.lb q i = s.lb q i
    let flipped := ∃ c : Core, s.cycle = some (self, c) ∧ (Table.get Lb.reset c.objs.lbs lb.val).ph ≠ b.ph
    (s.meets (.lbinit g a lb) → ∃ t, exec (.lbinit g a lb) s = .next t
        ∧ t.lb self lb.val = ⟨false, w.toNat % 65536, w.toNat % 65536, 0, 0⟩ ∧ others t ∧ quiet s t
        ∧ (t.part pn).marks = (s.part pn).marks ∧ o ∉ (t.part pn).pois)
      ∧ (a.val = 0 → mayRelease s → ∀ e ∈ arrivals,
        (flipped ∨ b.arrive e.2 = none → Traps e.1 s .queueMisuse (BitVec.ofNat 64 lb.val))
          ∧ (¬ flipped → b.arrive e.2 = some b' → s.meets e.1 → ∃ t, exec e.1 s = .next t ∧ t.lb self lb.val = b' ∧ others t ∧ quiet s t
              ∧ unmarkedBy t pn sid o))
      ∧ (a.val ≠ 0 → s.checkCore w.toNat = .ok p → p ≠ self → mayRelease s → ∀ e ∈ arrivals, s.meets e.1 →
          ∃ t, exec e.1 s = .next t ∧ sends s t p .sync (.lbArr e.2 lb.val) ∧ (∀ q i, t.lb q i = s.lb q i) ∧ quiet s t)
      ∧ (a.val ≠ 0 → ∀ c, s.checkCore w.toNat = .error c → ∀ e ∈ arrivals, s.meets e.1 →
          exec e.1 s = .next (s.takeTrap c none .none))
      ∧ (2 ^ 24 - 1 < b.txb + w.toNat → Traps (.lbexp g a lb) s .queueMisuse (BitVec.ofNat 64 lb.val))
      ∧ (b.txb + w.toNat ≤ 2 ^ 24 - 1 → Completes (.lbexp g a lb) s (s.setLb self lb.val { b with txb := b.txb + w.toNat }))
      ∧ ((s.cur.2 = .as → s.my.q.sq = []) →
          (b.ph = par → Completes (.lbwait g d a tmo par lb) s
              (((s.acquire (.obj o)).modSeq (·.writeS d 0)).closeInterval self))
            ∧ (b.ph ≠ par → waitsOn (.lbwait g d a tmo par lb) s d o n))
      ∧ (let bit (v : Bool) (k : Nat) : Nat := if v then 2 ^ k else 0
         Completes (.lbtest g d lb) s
          ((s.modSeq (·.writeS d (BitVec.ofNat 64 (bit b.ph 63 + bit (s.withheld pn o) 62 + bit (s.poisoned pn o) 61
              + b.txb * 2 ^ 32 + b.pend * 2 ^ 16 + b.exp)))).modMy fun t =>
            { t with csr := { t.csr with holdst := { t.csr.holdst with w := s.withheld pn o || s.poisoned pn o } } }))
      ∧ (s.nextPacket src dst .sync = some k → k.body = .lbArr op j →
          let u := s.dropPacket k.num
          ((s.lb dst j).arrive op = none → exec (.lbRemoteArrival src dst) s =
              .next ((u.setPub (.packet k.num) PubSet.none).log (.badArrival dst j)))
            ∧ ((s.lb dst j).arrive op = some b' → ∃ t, exec (.lbRemoteArrival src dst) s = .next t ∧ t.lb dst j = b'
              ∧ (∀ q i, (q, i) ≠ (dst, j) → t.lb q i = s.lb q i) ∧ t.mem = s.mem ∧ unmarkedBy t k.part k.sid ⟨.lb, dst, j⟩))

/-- 14 R198 to R201, 22 R311: the mesh barrier instructions at a core, configured or not; an arrival needs the permission bit of
the corner's cluster; a block is refused for its reserved fields and
for an issuer that is no participant first, then for a rectangle that leaves the module, then for a core outside the
partition (TVAL takes a free value: log entry 10). -/
def Sys2Proof.Claims.MeshBarrierInstructions : Prop :=
  ∀ (s s1 : State) (g : Guard) (d a : Reg) (tmo : BitVec 19) (par : Bool) (m : Fin 16) (n : Nat),
    let self := s.cur.1
    let pn := s.partNo self
    let w := s.seq.readS a
    let r := s.msh self m.val
    let o : ObjRef := ⟨.msh, self, m.val⟩
    let t0 := if a.val = 0 then tmo.toNat else w.toNat
    let b := BitVec.ofNat 128 n
    let reserved := n / 2 ^ 64 ≠ 0 ∨ n / 2 ^ 40 % 2 ^ 8 ≠ 0 ∨ n / 2 ^ 27 % 2 ^ 5 ≠ 0 ∨ n / 2 ^ 11 % 2 ^ 5 ≠ 0 ∨ n / 2 ^ 32 % 2 ^ 8 = 0
    let leaves := s.cols ≤ n % 64 + n / 2 ^ 16 % 64 ∨ 32 ≤ n / 64 % 32 + n / 2 ^ 22 % 32
    let within := n / 64 % 32 ≤ self / 512 ∧ self / 512 ≤ n / 64 % 32 + n / 2 ^ 22 % 32 ∧ n % 64 ≤ self / 8 % 64
      ∧ self / 8 % 64 ≤ n % 64 + n / 2 ^ 16 % 64 ∧ n.testBit (32 + self % 8) = true
    let open_ (c : Cause) : Prop := s.meets (.mshcfg g a m) → exec (.mshcfg g a m) s = .next (s.takeTrap c none .none)
    (w.toNat % 16 ≠ 0 → open_ .windowBounds)
      ∧ (w.toNat % 16 = 0 → readBlock w.toNat 16 s = .ok (n, s1) → n < 2 ^ 128 →
        (reserved ∨ ¬ within → open_ .windowBounds)
          ∧ (¬ reserved → within → leaves → open_ .placeInvalid)
          ∧ (¬ reserved → within → ¬ leaves → (∃ q ∈ meshMembers b, (s.partOf self).hasCore q = false) → open_ .permission)
          ∧ (¬ reserved → within → ¬ leaves → (∀ q ∈ meshMembers b, (s.partOf self).hasCore q = true) →
              s.meets (.mshcfg g a m) → ∃ t, exec (.mshcfg g a m) s = .next t ∧ (t.msh self m.val).block = b
                ∧ (t.msh self m.val).ph = false ∧ (t.msh self m.val).arr = false ∧ (t.msh self m.val).burr = ⟨0, 0, 0, 0, 0⟩
                ∧ o ∉ (t.part pn).pois ∧ (t.part pn).marks = (s1.part pn).marks ∧ t.mem = s1.mem))
      ∧ ((r.block = 0 ∨ r.arr = true) → Traps (.mshar g m) s .queueMisuse (BitVec.ofNat 64 m.val))
      ∧ (r.block ≠ 0 → r.arr = false → s.permits self (meshCorner r.block / 8) = false → s.meets (.mshar g m) →
          exec (.mshar g m) s = .next (s.takeTrap .permission none .none))
      ∧ (r.block ≠ 0 → r.arr = false → s.permits self (meshCorner r.block / 8) = true → mayRelease s → s.meets (.mshar g m) → ∃ t, exec (.mshar g m) s = .next t
          ∧ t.msh self m.val = { t.msh self m.val with arr := true, ph := r.ph, block := r.block } ∧ quiet s t
          ∧ sends s t (65536 + self / 8) .sync
              (.meshArr (meshCorner r.block) m.val (r.block.extractLsb' 48 16) ⟨[self], s.tick, s.tick, self⟩)
          ∧ unmarkedBy t pn s.my.act.sid o)
      ∧ (r.block = 0 → Traps (.mshwait g d a tmo par m) s .queueMisuse (BitVec.ofNat 64 m.val)
          ∧ ∀ sel, ∃ h, Completes (.mshstat g d sel m) s ((s.modSeq (·.writeS d 0)).modMy fun t =>
              { t with csr := { t.csr with holdst := { t.csr.holdst with w := h } } }))
      ∧ (r.block ≠ 0 → (s.cur.2 = .as → s.my.q.sq = []) →
          (r.ph = par → Completes (.mshwait g d a tmo par m) s
              (((s.acquire (.obj o)).modSeq (·.writeS d 0)).closeInterval self))
            ∧ (r.ph ≠ par → waitsOn (.mshwait g d a tmo par m) s d o t0))
      ∧ (r.block ≠ 0 →
          let bit (v : Bool) (k : Nat) : Nat := if v then 2 ^ k else 0
          let stat (sel : Fin 4) (v : Nat) : Prop := Completes (.mshstat g d sel m) s
            ((s.modSeq (·.writeS d (BitVec.ofNat 64 v))).modMy fun t =>
              { t with csr := { t.csr with holdst := { t.csr.holdst with w := s.withheld pn o || s.poisoned pn o } } })
          stat 0 r.burr.first ∧ stat 1 r.burr.last
            ∧ stat 2 ((if r.burr.held < 2 ^ 32 then r.burr.held else 2 ^ 32 - 1) * 2 ^ 32 + r.burr.released % 65536 * 65536
                + r.burr.lastPlace)
            ∧ stat 3 (s.markId pn o * 2 ^ 48 + bit (s.poisoned pn o) 3 + bit (s.withheld pn o) 2 + bit r.arr 1 + bit r.ph 0))

/-- 14 R200, R201: a mesh barrier's arrivals meet at the clusters of the path: a bad one is discarded and logged; a good
one waits there with those already combined; when all that a cluster stands for are there, one arrival with the earliest
and the latest tick goes on, west and then north, or the corner releases every participant; a release toggles PH and
clears ARR; a change of W reaches its participant. That the waiting arrival is kept with the barrier is log entry 90. -/
def Sys2Proof.Claims.MeshArrivalsCombineToARelease : Prop :=
  ∀ (s : State) (clu : Nat) (corner dst : Place) (m : Fin 16) (e : Packet × BitVec 16 × MeshArr)
    (es : List (Packet × BitVec 16 × MeshArr)) (k : Packet) (bu : Burr) (wv : Bool),
    let r := s.msh corner m.val
    let b := r.block
    let good (x : BitVec 16 × MeshArr) : Prop := x.1 = b.extractLsb' 48 16 ∧ ∀ q ∈ x.2.members, q ∈ meshMembers b
    let west := b.toNat % 64
    let kept := (r.arrived.filter (·.1 == clu)).map (·.2)
    let others := r.arrived.filter (·.1 != clu)
    let items := kept ++ (e :: es).map (·.2)
    let combined (a : MeshArr) : Prop := (∀ q, q ∈ a.members ↔ ∃ x ∈ items, q ∈ x.2.members)
      ∧ (∀ x ∈ items, a.first ≤ x.2.first ∧ x.2.last ≤ a.last) ∧ (∃ x ∈ items, a.first = x.2.first)
      ∧ ∃ x ∈ items, a.last = x.2.last ∧ a.lastPlace = x.2.lastPlace
          ∧ ∀ y ∈ items, y.2.last = a.last → y.2.lastPlace ≤ a.lastPlace
    let ev := exec (.meshArrivalCombine clu corner m) s
    (s.meshAt clu corner m.val = [] → ev = .next s)
      ∧ (s.meshAt clu corner m.val = [e] → ¬ good e.2 → kept = [] → ∃ t, ev = .next t ∧ t.fab = (s.dropPacket e.1.num).fab
          ∧ t.logs = s.logs ++ [.badArrival corner m.val] ∧ t.mem = s.mem ∧ (∀ p, t.strand p = s.strand p)
          ∧ ∀ q i, t.msh q i = s.msh q i)
      ∧ (s.meshAt clu corner m.val = e :: es → (∀ x ∈ items, good x) →
          ((∃ q ∈ meshBehind b clu, ∀ x ∈ items, q ∉ x.2.members) → ∃ t a, ev = .next t ∧ combined a
            ∧ t.msh corner m.val = { r with arrived := others ++ [(clu, b.extractLsb' 48 16, a)] }
            ∧ t.meshAt clu corner m.val = [] ∧ t.logs = s.logs ∧ t.mem = s.mem ∧ ∀ p, t.strand p = s.strand p)
          ∧ ((∀ q ∈ meshBehind b clu, ∃ x ∈ items, q ∈ x.2.members) → ∃ t a, ev = .next t ∧ combined a ∧ t.mem = s.mem
            ∧ (t.msh corner m.val).arrived = others
            ∧ (clu % 64 ≠ west → ∃ p ∈ t.fab.net, p.dst = 65536 + (clu - 1) ∧ p.body = .meshArr corner m.val (b.extractLsb' 48 16) a)
            ∧ (clu % 64 = west → clu ≠ b.toNat % 2048 →
                ∃ p ∈ t.fab.net, p.dst = 65536 + (clu - 64) ∧ p.body = .meshArr corner m.val (b.extractLsb' 48 16) a)
            ∧ (clu % 64 = west → clu = b.toNat % 2048 → ∀ q ∈ meshMembers b, ∃ p ∈ t.fab.net, p.src = corner ∧ p.dst = q
                ∧ ∃ h, p.body = .meshRel m.val ⟨a.first, a.last, h, r.burr.released + 1, a.lastPlace⟩)))
      ∧ (s.nextPacket corner dst .sync = some k → k.body = .meshRel m.val bu → exec (.meshRelease corner dst m) s =
          .next (((s.dropPacket k.num).setMsh dst m.val
            { s.msh dst m.val with ph := !(s.msh dst m.val).ph, arr := false, burr := bu }).movePub (.packet k.num)
              (.obj ⟨.msh, dst, m.val⟩)))
      ∧ (s.nextPacket corner dst .sync = some k → k.body = .meshW m.val wv → ∃ t, exec (.meshWUpdate corner dst m) s = .next t
          ∧ t.msh dst m.val = { s.msh dst m.val with w := wv } ∧ t.mem = s.mem ∧ (∀ p, t.strand p = s.strand p)
          ∧ (∀ q i, (q, i) ≠ (dst, m.val) → t.msh q i = s.msh q i))

/-- 14 R198, R199, R200, R201, 22 R311: mesh barriers. -/
def Obligations.MeshBarriersGatherAndRelease : Prop :=
  Claims.MeshBarrierInstructions ∧ Claims.MeshArrivalsCombineToARelease

/-- 14 R202, R203: semaphores: a wait takes its count or waits; a signal saturates and clears the strand's mark, here or
at the remote core when its packet arrives; `semset` and `semget`. -/
def Sys2Proof.Claims.SemaphoresCount : Prop :=
  ∀ (s : State) (g : Guard) (d a b : Reg) (tmo : BitVec 16) (sem : BitVec 8) (p src dst : Place) (k : Packet) (i n : Nat),
    let self := s.cur.1
    let pn := s.partNo self
    let j := sem.toNat
    let o : ObjRef := ⟨.sem, self, j⟩
    let w := s.seq.readS a
    let c := s.sem self j
    let m := if b.val = 0 then 1 else (s.seq.readS b).toNat % 2 ^ 32
    let tm := if a.val = 0 then tmo.toNat else w.toNat
    let top (v : Nat) : Nat := if v < 2 ^ 32 then v else 2 ^ 32 - 1
    let others (t : State) (q : Place) (l : Nat) : Prop := ∀ q' l', (q', l') ≠ (q, l) → t.sem q' l' = s.sem q' l'
    ((s.cur.2 = .as → s.my.q.sq = []) →
        (m ≤ c → s.meets (.semwait g d a b tmo sem) → ∃ t, exec (.semwait g d a b tmo sem) s = .next t
            ∧ t.sem self j = c - m ∧ (d.val ≠ 0 → t.seq.readS d = 0) ∧ (∀ r, r ≠ d → t.seq.readS r = s.seq.readS r)
            ∧ others t self j ∧ t.mem = s.mem ∧ (t.core self).interval = (s.core self).interval + 1)
          ∧ (c < m → waitsOn (.semwait g d a b tmo sem) s d o tm))
      ∧ (a.val = 0 → mayRelease s → s.meets (.semsig g a b sem) → ∃ t, exec (.semsig g a b sem) s = .next t
          ∧ t.sem self j = top (c + m) ∧ others t self j ∧ quiet s t ∧ unmarkedBy t pn s.my.act.sid o)
      ∧ (a.val ≠ 0 → s.checkCore w.toNat = .ok p → p ≠ self → mayRelease s → s.meets (.semsig g a b sem) →
          ∃ t, exec (.semsig g a b sem) s = .next t ∧ sends s t p .sync (.semSig j m) ∧ (∀ q l, t.sem q l = s.sem q l) ∧ quiet s t)
      ∧ (a.val ≠ 0 → ∀ e, s.checkCore w.toNat = .error e → s.meets (.semsig g a b sem) →
          exec (.semsig g a b sem) s = .next (s.takeTrap e none .none))
      ∧ (s.meets (.semset g a sem) → ∃ t, exec (.semset g a sem) s = .next t ∧ t.sem self j = w.toNat % 2 ^ 32 ∧ others t self j
          ∧ quiet s t ∧ o ∉ (t.part pn).pois ∧ (t.part pn).marks = (s.part pn).marks)
      ∧ Completes (.semget g d sem) s ((s.modSeq (·.writeS d (BitVec.ofNat 64 c))).modMy fun t =>
          { t with csr := { t.csr with holdst := { t.csr.holdst with w := s.withheld pn o || s.poisoned pn o } } })
      ∧ (s.nextPacket src dst .sync = some k → k.body = .semSig i n → ∃ t, exec (.semRemoteSignal src dst) s = .next t
          ∧ t.sem dst i = top (s.sem dst i + n) ∧ others t dst i ∧ t.mem = s.mem ∧ unmarkedBy t k.part k.sid ⟨.sem, dst, i⟩)

/-- 14 R194, R195, R196, R202, R203, 16 R244: local barriers and semaphores. -/
def Obligations.LocalBarriersAndSemaphores : Prop :=
  Claims.BarrierArrivalsFlipThePhase ∧ Claims.LocalBarrierInstructions ∧ Claims.SemaphoresCount

/-! ## Holds, time, fences, tasks, triggers -/

namespace Sys2Proof.Claims

/-- The instruction traps with a cause for which the manual gives TVAL no value (log entry 10). -/
def TrapsOpen (i : Instr) (s : State) (c : Cause) : Prop := s.meets i → exec i s = .next (s.takeTrap c none .none)

end Sys2Proof.Claims

/-- 14 R205 to R208: declaring, holding, releasing and reading holds. That an index beyond the objects of its kind raises
WINDOW-BOUNDS with the index in TVAL (log entry 42), that a strand resumes behind its `hold` (log entry 40) and that TVAL of the
other causes takes a free value (log entry 10) is the model's reading. -/
def Obligations.HoldsParkAndRelease : Prop :=
  ∀ (s : State) (g : Guard) (d a : Reg) (o : ObjRef) (p : Place) (v : Word) (k : Parked) (slot : Nat),
    let self := s.cur.1
    let pn := s.partNo self
    let part := s.part pn
    let w := s.seq.readS a
    let e : Lane := w.extractLsb' 0 32
    let id := w.toNat % 65536
    let index (n : Nat) : Prop := n < (match o.kind with | .sem => 256 | .lb | .mbx => 64 | _ => 16)
    let entry (i : Instr) : Prop :=
      (entryObj self e = none → TrapsOpen i s .windowBounds)
        ∧ (entryObj self e = some o → e.toNat / 256 % 8 ≠ 0 → TrapsOpen i s .windowBounds)
        ∧ (entryObj self e = some o → e.toNat / 256 % 8 = 0 → part.hasCore o.place = false → TrapsOpen i s .permission)
        ∧ (entryObj self e = some o → e.toNat / 256 % 8 = 0 → part.hasCore o.place = true → ¬ index o.index →
            Traps i s .windowBounds (BitVec.ofNat 64 o.index))
    let named := entryObj self e = some o ∧ e.toNat / 256 % 8 = 0 ∧ part.hasCore o.place = true ∧ index o.index
    let stat (n : BitVec 4) : State := s.modMy fun t => { t with csr := { t.csr with holdst := { t.csr.holdst with stat := n } } }
    entry (.declare g a) ∧ entry (.holdstObj g d a)
      ∧ (named → (o ∈ s.produceSet self → Completes (.declare g a) s s)
        ∧ (o ∉ s.produceSet self → 16 ≤ s.my.act.declared.length → Traps (.declare g a) s .queueMisuse 16)
        ∧ (o ∉ s.produceSet self → s.my.act.declared.length < 16 → Completes (.declare g a) s
            (s.modMy fun t => { t with act := { t.act with declared := t.act.declared ++ [o] } }))
        ∧ Completes (.holdstObj g d a) s
          ((s.modSeq (·.writeS d (BitVec.ofNat 64 (s.markId pn o * 2 ^ 32 + (if s.poisoned pn o then 2 else 0)
              + (if s.withheld pn o then 1 else 0))))).modMy fun t =>
            { t with csr := { t.csr with holdst := { t.csr.holdst with w := s.withheld pn o || s.poisoned pn o } } }))
      ∧ (part.freeSlot = none → Completes (.hold g) s (stat 2))
      ∧ (part.freeSlot = some slot → s.meets (.hold g) → ∃ t j, exec (.hold g) s = .next t ∧ (t.core self).running = false
          ∧ t.mem = s.mem ∧ j ∈ (t.part pn).parked ∧ j.place = self ∧ j.st.csr.holdst.stat = 1
          ∧ j.st.csr.holdst.holdid = BitVec.ofNat 16 ((part.hold slot).use * 4096 + slot)
          ∧ (j.st.seq s.cur.2).pc = (s.seq.endRule 8).pc ∧ ((t.part pn).hold slot).phase = .held
          ∧ ∀ u ∈ s.produceSet self, ∃ m ∈ (t.part pn).marks, m.obj = u ∧ m.sid = s.my.act.sid)
      ∧ (∀ c, s.checkCore w.toNat = .error c → TrapsOpen (.holdx g d a) s c)
      ∧ (s.checkCore w.toNat = .ok p → part.hasCore p = false → TrapsOpen (.holdx g d a) s .permission)
      ∧ (s.checkCore w.toNat = .ok p → part.hasCore p = true →
          (s.seq.kept = [] → s.seq.used = 0 → s.seq.out = none → p ≠ self → s.meets (.holdx g d a) →
              ∃ t, exec (.holdx g d a) s = .next t ∧ t.seq.pc = s.seq.pc ∧ t.mem = s.mem
                ∧ ((s.core p).running = true → (t.strand p).act.holdReq = (s.strand p).act.holdReq ++ [(self, s.fab.nextNum)]
                    ∧ t.seq.out = some s.fab.nextNum)
                ∧ ((s.core p).running = false → t.seq.kept = [.word 0x10000 true] ∧ t.seq.out = none))
            ∧ (∀ b, s.seq.kept = [.word v b] → s.seq.used = 0 → Completes (.holdx g d a) s
                ((s.modSeq fun c => { c with used := c.used + 1 }).modSeq (·.writeS d v))))
      ∧ (part.heldRoot id = none → Completes (.rel g d a) s (s.modSeq (·.writeS d 1))
          ∧ Completes (.relEnd g d a) s (s.modSeq (·.writeS d 1)))
      ∧ (part.heldRoot id = some k →
          (s.meets (.rel g d a) → ∃ t j, exec (.rel g d a) s = .next t ∧ (d.val ≠ 0 → t.seq.readS d = 0) ∧ t.mem = s.mem
              ∧ j ∈ (t.part pn).parked ∧ j.st = k.st ∧ j.ready = true ∧ (∀ x ∈ part.parked, x.order < j.order)
              ∧ ((t.part pn).hold (id % 4096)).phase = .ready)
            ∧ (s.partNo k.place = pn → s.meets (.relEnd g d a) → ∃ t, exec (.relEnd g d a) s = .next t ∧ (d.val ≠ 0 → t.seq.readS d = 0)
              ∧ (∀ x ∈ (t.part pn).parked, x.st.act.sid ≠ k.st.act.sid) ∧ t.mem = s.mem
              ∧ (∀ m ∈ part.marks, m.sid = k.st.act.sid → m.obj ∈ (t.part pn).pois)
              ∧ ∀ m ∈ (t.part pn).marks, m.sid ≠ k.st.act.sid))
      ∧ (part.holdOf id = none → Completes (.holdst g d a) s (s.modSeq (·.writeS d 0)))
      ∧ (∀ h, part.holdOf id = some h → Completes (.holdst g d a) s (s.modSeq (·.writeS d
          (BitVec.ofNat 64 ((if h.root then 0 else h.parent) * 2 ^ 48 + id * 2 ^ 32 + h.place * 2 ^ 16
            + (match h.phase with | .free => 0 | .held => 1 | .ready => 2 | .running => 3 | .poison => 4))))))

/-- 14 R209, R210: `dline` sets the deadline, from the tick and saturating with REL; `fence` waits until no access, sq
store or message of the named class is owed to the homes of its scope, and then ends the sync interval, what it covers being
published by the strand's next release (16 R247); it changes no register. That TO holds back nothing more, and what
counts as owed beside R210 and R247, is the model's reading (log entry 30). -/
def Obligations.DeadlinesAndFences : Prop :=
  ∀ (s : State) (g : Guard) (a : Reg) (c to_ : FenceClass) (sc : FenceScope),
    let w := s.seq.readS a
    let set (v : Nat) : State := s.modMy fun t =>
      { t with csr := { t.csr with deadline := BitVec.ofNat 64 v }, act := { t.act with dlPassed := false } }
    let met := s.fenceMet c sc s.fenceNote
    Completes (.dline g a) s (set w.toNat)
      ∧ Completes (.dlineRel g a) s (set (if s.tick + w.toNat < 2 ^ 64 then s.tick + w.toNat else 2 ^ 64 - 1))
      ∧ ((s.cur.2 = .as → s.my.q.sq = []) → s.seq.kept = [] →
          (met = true → Completes (.fence g c to_ sc) s ((s.addPub (.strand s.my.act.sid)
              ⟨[], [], [⟨s.my.act.sid, c, sc, s.fab.nextNum, s.nextCmd⟩]⟩).closeInterval s.cur.1))
            ∧ (met = false → s.meets (.fence g c to_ sc) → ∃ t, exec (.fence g c to_ sc) s = .next t ∧ quiet s t
                ∧ t.seq.pc = s.seq.pc ∧ t.seq.kept = s.fenceNote ∧ ∃ v, t.seq.wait = some v ∧ v.why = .fence))
      ∧ (met = true → (∀ b ∈ s.fab.issue ++ s.fab.bufs, b.num < s.fab.nextNum → b.src = s.cur.1 → fenceNames c b.path = true →
            scopeCovers sc s.cur.1 b.home = true → ∃ n, b.op = .close n)
          ∧ (c = .core ∨ c = .all → s.my.q.sq = [])
          ∧ (c = .mbx ∨ c = .all → sc = .system → ∀ k ∈ s.fab.net, k.src = s.cur.1 → k.sid = s.my.act.sid →
              k.num < s.fab.nextNum → ∀ m q v, k.body ≠ .active m q v))

/-- 14 R211, R212, 03 R41, R44, R45, R48: `spawn` pushes a TCB made of s1 to s6 at the newest end of the deque, spilling
the oldest of a full one into the next entry of the core's overflow area in memory; `dist` grants the next range of the
faceplate's size; `widx` extracts a work-id field. That `dist` completes in a partition with no launch, with a free value, is the
model's choice (log entry 41). -/
def Sys2Proof.Claims.TasksSpawnAndDistribute : Prop :=
  ∀ (s : State) (g : Guard) (d a b : Reg) (f : Fin 6) (l : Launch),
    let w := s.seq.readS a
    let pn := s.partNo s.cur.1
    let deque := s.me.work.deque
    let tcb : Tcb := ⟨BitVec.ofNat 64 (w.toNat % 2 ^ 26 + s.my.act.lid % 2 ^ 16 * 2 ^ 26),
      [1, 2, 3, 4, 5, 6].map fun r => s.seq.readS r, s.seq.readS b, s.my.csr.wfw, s.cur.1, s.my.csr.proc, s.tick, 0, 0,
      ((s.part pn).launch.map (·.prm.base.toNat)).getD 0, [], 0, s.publishedBy s.cur.1 s.cur.2⟩
    let cell := (s.me.work.overflow.map (·.cell + 1)).foldl max 0
    let width (i : Nat) : Nat := s.my.csr.wfw.toNat / 2 ^ (6 * i) % 64
    let lo := if l.n < l.prm.tiles.toNat then l.n else l.prm.tiles.toNat
    let step := l.n + (l.prm.base.toNat * (208 + s.me.cur.val) + 104) / 208
    let hi := if step < l.prm.tiles.toNat then step else l.prm.tiles.toNat
    (s.seq.wait = none → w.toNat / 2 ^ 26 ≠ 0 → Traps (.spawn g a b) s .windowBounds w)
      ∧ (s.seq.wait = none → w.toNat / 2 ^ 26 = 0 → mayRelease s → s.meets (.spawn g a b) →
          (deque.length < 32 ∨ s.overflowMapped s.cur.1 = true → ∃ t, exec (.spawn g a b) s = .next t
              ∧ (∀ r, t.seq.readS r = s.seq.readS r) ∧ (∀ k, t.seq.readK k = s.seq.readK k) ∧ (deque.length < 32 → t.mem = s.mem)
              ∧ (∀ old rest ks, 32 ≤ deque.length → deque = old :: rest →
                  s.overflowKeys s.cur.1 cell = some ks →
                  t.mem = Memory.setAll s.mem (ks.zip ((old.word0 :: old.payload ++ [old.wid]).flatMap fun w => leBytesOf 8 w.toNat)))
              ∧ t.me.work.deque = deque.drop (if 32 ≤ deque.length then 1 else 0) ++ [tcb]
              ∧ t.me.work.overflow = s.me.work.overflow
                ++ (deque.take (if 32 ≤ deque.length then 1 else 0)).map ({ · with cell := cell })
              ∧ t.me.work.inbox = s.me.work.inbox)
            ∧ (32 ≤ deque.length → s.overflowMapped s.cur.1 = false → ∃ t v, exec (.spawn g a b) s = .next t ∧ quiet s t
              ∧ t.seq.wait = some v ∧ v.why = .spawnStall ∧ t.seq.pc = s.seq.pc ∧ t.me.work.deque = deque))
      ∧ ((s.part pn).launch = some l → s.meets (.dist g d) → ∃ t, exec (.dist g d) s = .next t
          ∧ (t.part pn).launch = some { l with n := hi } ∧ (d.val ≠ 0 → t.seq.readS d = BitVec.ofNat 64 (lo * 2 ^ 32 + hi))
          ∧ (∀ r, r ≠ d → t.seq.readS r = s.seq.readS r) ∧ t.mem = s.mem)
      ∧ ((s.part pn).launch = none → ∃ t, Completes (.dist g d) s t)
      ∧ Completes (.widx g d a f) s (s.modSeq (·.writeS d
          (BitVec.ofNat 64 (w.toNat / 2 ^ ((List.range f.val).map width).sum % 2 ^ width f.val))))

/-- 14 R213, 03 R50: `trig` checks its block and arms the counter, or disarms it; `trigd` sends an increment of a tag; an
armed counter of that tag counts it, and at its threshold sends its message once and disarms. The cause of an arm block that is not
at a multiple of 64 is the model's choice (log entry 130). -/
def Sys2Proof.Claims.TriggersCountToTheirMessage : Prop :=
  ∀ (s s1 : State) (g : Guard) (a b : Reg) (tc : Fin 16) (n : Nat) (p src dst : Place) (k : Packet) (tag : BitVec 16) (i : Nat),
    let w := s.seq.readS a
    let f (lo len : Nat) : Nat := n / 2 ^ lo % 2 ^ len
    let bad := f 16 16 = 0 ∨ f 48 16 ≠ 0 ∨ f 90 38 ≠ 0 ∨ (s.partOf s.cur.1).hasCore (f 32 16) = false
    let u := s.dropPacket k.num
    let r := s.trigger dst i
    (w.toNat % 64 ≠ 0 → TrapsOpen (.trig g a tc) s .windowBounds)
      ∧ (w.toNat % 64 = 0 → (s.cur.2 = .as → s.my.q.sq = []) → readBlock w.toNat 64 s = .ok (n, s1) →
          (bad → TrapsOpen (.trig g a tc) s .windowBounds)
            ∧ (¬ bad → mayRelease s1 → s.meets (.trig g a tc) → ∃ t, exec (.trig g a tc) s = .next t
                ∧ t.trigger s.cur.1 tc.val = ⟨true, BitVec.ofNat 16 n, f 16 16, 0, f 32 16, BitVec.ofNat 64 (f 64 64),
                    [f 128 64, f 192 64, f 256 64, f 320 64, f 384 64, f 448 64].map (BitVec.ofNat 64), s.my.act.lid⟩
                ∧ (∀ j, j ≠ tc.val → t.trigger s.cur.1 j = s1.trigger s.cur.1 j) ∧ t.mem = s1.mem))
      ∧ Completes (.trigDisarm g tc) s (s.setTrigger s.cur.1 tc.val { s.trigger s.cur.1 tc.val with armed := false })
      ∧ (∀ c, s.checkCore w.toNat = .error c → TrapsOpen (.trigd g a b) s c)
      ∧ (s.checkCore w.toNat = .ok p → mayRelease s → s.meets (.trigd g a b) → ∃ t, exec (.trigd g a b) s = .next t ∧ quiet s t
          ∧ sends s t p .sync (.trigInc ((s.seq.readS b).extractLsb' 0 16)))
      ∧ (s.nextPacket src dst .sync = some k → k.body = .trigInc tag →
          (s.armedFor dst tag = [] → exec (.triggerIncrement src dst) s = .next (u.setPub (.packet k.num) PubSet.none))
            ∧ (s.armedFor dst tag = [i] → ∃ t, exec (.triggerIncrement src dst) s = .next t ∧ t.mem = s.mem
                ∧ unmarkedBy t k.part k.sid ⟨.tc, dst, i⟩
                ∧ (r.count + 1 < r.thr → t.trigger dst i = { r with count := r.count + 1 })
                ∧ (r.thr ≤ r.count + 1 → t.trigger dst i = { r with armed := false, count := r.count + 1 }
                    ∧ ∃ x ∈ t.fab.net, ∃ m, x.src = dst ∧ x.dst = r.target ∧ x.vn = .amsg ∧ x.body = .tcMsg m i
                      ∧ m.payload = r.payload ∧ m.lid = r.lid
                      ∧ (dst < 65536 → hdrHidx m.hdr = r.handler.toNat % 65536))))

/-- 03 R41, R44, R45, R48, R50, 14 R211, R212, R213: tasks and trigger counters. -/
def Obligations.TasksAndTriggers : Prop :=
  Claims.TasksSpawnAndDistribute ∧ Claims.TriggersCountToTheirMessage

/-! ## Engines -/

namespace Sys2Proof.Claims

/-- The engine instructions: the kind of command, what PLACE names, the bytes of the block, the ring (14 R214, 18 R268). -/
def engineRows (g : Guard) (e : Eng) (rg : Fin 16) : List (Instr × CmdKind × PlaceKind × Nat × Option (Fin 16)) :=
  [(.cpy g e, .cpy, .copyEngine, 80, none), (.cpyr g e, .cpyr, .copyEngine, 80, none), (.cpym g e, .cpym, .copyEngine, 112, none),
    (.subscribe g rg e, .sub, .station, 80, some rg), (.drain g rg e, .drain, .station, 80, some rg),
    (.unsub g rg e, .unsub, .station, 16, some rg), (.bte g e, .bte, .station, 80, none), (.coll g e, .coll, .own, 96, none),
    (.xfer g e, .xfer, .east, 96, none), (.rlcrun g e, .rlc, .ownCluster, 80, none)]

/-- PLACE is of the kind that a command needs. -/
def placeIs (s : State) (k : PlaceKind) (w : Nat) : Prop :=
  match k with
  | .copyEngine => ∃ c, s.parsePlace w = .core c 0
  | .station => ∃ n, s.parsePlace w = .station n
  | .own => (∃ c k, s.parsePlace w = .core c k) ∧ w = s.cur.1
  | .ownCluster => ∃ k, s.parsePlace w = .core (s.cur.1 / 8) k
  | .east => ∃ r, s.parsePlace w = .east r

/-- PLACE passes its checks: its kind, and, of a copy engine, the tables. -/
def placeOk (s : State) (k : PlaceKind) (w : Nat) : Prop :=
  placeIs s k w ∧ (k = .copyEngine → ∃ p, s.checkCore w = .ok p)

/-- The command of a number stands in a phase. -/
def phaseOf (t : State) (n : Nat) (p : Phase) : Prop := ∃ c, t.cmd n = some c ∧ c.phase = p

/-- `f` is the first element from a command's frontier on that has not landed, once those of `is` have. -/
def frontier (c : Cmd) (is : List Nat) (f : Nat) : Prop :=
  c.front ≤ f ∧ f ∉ c.early ++ is ∧ ∀ j, c.front ≤ j → j < f → j ∈ c.early ++ is

end Sys2Proof.Claims

/-- 14 R214, R215, R218, R226, R228, 07 R93: an engine instruction checks PLACE (a wrong kind or an absent cluster raises
PLACE-INVALID, one outside the tables PERMISSION; TVAL takes a free value, log entry 10) and its block, reads the block twice
with the wait of its wait field between (met, it acquires what the semaphore's producers published), makes its ring's checks on
both reads, releases, and sends its command with what the second read gave. -/
def Obligations.EngineInstructionsSendTheirCommand : Prop :=
  ∀ (s s1 s2 : State) (g : Guard) (e : Eng) (rg : Fin 16) (b1 b2 : List Byte),
    ∀ r ∈ engineRows g e rg,
      let w := e.place.toNat
      let off := e.pblk.toNat * 16
      let i : Issue := ⟨r.2.1, r.2.2.1, r.2.2.2.1, r.2.2.2.2⟩
      let past (t : State) (n : Nat) : State := t.modSeq fun c => { c with passed := c.passed / 4 * 4 + n }
      let met (t : State) : State := if e.wthr = 0 then t else t.acquire (.obj ⟨.sem, s.cur.1, e.wsem.toNat⟩)
      let wait := s1.sem s.cur.1 e.wsem.toNat
      let o : ObjRef := ⟨.sem, s.cur.1, e.wsem.toNat⟩
      let pn := s.partNo s.cur.1
      let plain := s.seq.kept = [] ∧ s.seq.used = 0 ∧ s.seq.out = none ∧ s.seq.passed = 0 ∧ (r.2.1 = .rlc → s.me.rlcTrap = none)
      let fp64 (b : List Byte) : Prop := r.2.1 = .rlc → (leOf b).testBit 295 = false ∨ s.me.feat.getLsbD 0 = true
      let ring := BitVec.ofNat 128 (leOf ((b1.drop 16).take 16))
      let entry (clu : Nat) := s.placeEntry s.cur.1 clu
      (plain → ¬ placeIs s r.2.2.1 w → TrapsOpen r.1 s .placeInvalid)
        ∧ (plain → r.2.2.1 = .copyEngine → ∀ clu, s.parsePlace w = .core clu 0 →
            ((entry clu).getLsbD 14 = true → TrapsOpen r.1 s .placeInvalid)
              ∧ ((entry clu).getLsbD 14 = false → (entry clu).getLsbD 15 = false ∨ s.permits s.cur.1 clu = false →
                  TrapsOpen r.1 s .permission))
        ∧ (plain → placeOk s r.2.2.1 w → 65536 < off + i.size → TrapsOpen r.1 s .windowBounds)
        ∧ (plain → placeOk s r.2.2.1 w → off + i.size ≤ 65536 → readParams off i.size s = .ok (b1, s1) →
          s1.seq.passed = 0 → s1.seq.kept.length ≤ 1 →
          (r.2.1 = .sub ∨ r.2.1 = .drain →
            (s1.ringOk s1.cur.1 rg.val ring = false → Traps r.1 s .windowBounds (BitVec.ofNat 64 off))
              ∧ (s1.ringOk s1.cur.1 rg.val ring = true → (s1.ring s1.cur.1 rg.val).cmd ≠ none →
                  Traps r.1 s .queueMisuse (BitVec.ofNat 64 rg.val)))
          ∧ (r.2.1 = .unsub → ∀ d, (s1.ring s1.cur.1 rg.val).cmd.bind s1.cmd = some d → d.eng.place ≠ e.place →
            Traps r.1 s .placeInvalid (e.place.setWidth 64))
          ∧ (issueChecks i e b1 s1 = .ok ((), s1) → fp64 b1 →
            (wait < e.wthr.toNat →
              (s1.poisoned pn o = true → Traps r.1 s .withheldAbort (objEntry s.cur.1 o))
                ∧ (s1.poisoned pn o = false → s1.withheld pn o = false → s.seq.wait = none → s1.seq.wait = none →
                    s1.seq.used ≠ 0 → s.meets r.1 →
                    ∃ t, exec r.1 s = .next t ∧ t = (past s1 1).stall ⟨.object o, 0, none, none⟩))
            ∧ (e.wthr.toNat ≤ wait → (s.cur.2 = .as → s.my.q.sq = []) → readParams off i.size (past (met (past s1 1)) 2) = .ok (b2, s2) →
              issueChecks i e b2 s2 = .ok ((), s2) → fp64 b2 → s2.seq.passed = 2 →
              ((leOf b2).testBit 56 = true → s2.me.work.cplq.length < 16) → mayRelease (past s2 3) →
              s.meets r.1 → ∃ t c, exec r.1 s = .next t ∧ t.cmds = s2.cmds ++ [c] ∧ t.nextCmd = s2.nextCmd + 1
                ∧ c.id = s2.nextCmd ∧ c.kind = r.2.1 ∧ c.issuer = s.cur.1 ∧ c.sid = s.my.act.sid ∧ c.eng = e ∧ c.blk = b2
                ∧ c.phase = .sent ∧ c.front = 0 ∧ c.proc = s.my.csr.proc ∧ (c.user = true ↔ s.seq.level = .user)
                ∧ (∀ q, t.seq.readS q = s.seq.readS q) ∧ t.mem = s2.mem
                ∧ ((leOf b2).testBit 56 = true → ∃ x ∈ t.me.work.cplq, x.cmd = c.id ∧ x.ready = false)
                ∧ (r.2.1 = .sub ∨ r.2.1 = .drain → (t.ring s.cur.1 rg.val).cmd = some c.id))))

/-- 14 R218 to R220, R223, R227, R228: an engine takes a command or refuses it, or completes it with the STAT of the check it
fails (a FORMAT failure raises ENGINE-FAULT first); what goes to one place lands together, in pattern order, raw bytes of one
format unchanged, and retires its bytes on LBX where LBV = 1; a tile starts when its barrier shows the phase, and ends with an
arrival; `unsub` stops a command, and completes after it; and completion, of every kind once its replicated writes are made,
writes STAT, signals, and sends the tag, and answers the `rlcabort` that waits for a refinement's. How much one event moves, and
that the hint of a refusal is the issuing core's, is the model's choice (log entries 43, 128). -/
def Sys2Proof.Claims.EngineCommandsRunToCompletion : Prop :=
  ∀ (s s' s1 : State) (n : Nat) (c : Cmd) (bs : List Byte) (bss : List (List Byte)) (stat : Nat),
    s.cmd n = some c →
    let acc := exec (.engineAccept n) s
    let land := exec (.engineWriteLand n) s
    let lim := (s.part c.part).attrs.retryLim
    let is := c.landing c.front
    let moved (t : State) (d : Cmd) : Prop := land = .next t ∧ t.mem = s'.mem ∧ t.cmd n = some d ∧ frontier c is d.front
    (c.phase = .sent → s.bteFull c = true → ∃ t, acc = .next t ∧ t.mem = s.mem
        ∧ phaseOf t n (if lim ≠ 0 ∧ lim ≤ c.tries + 1 then .landed 0x0A else .hinted (s.tick + (s.core c.issuer).hint)))
      ∧ (c.phase = .sent → s.bteFull c = false → s.rlcFull c = true → acc = .next s)
      ∧ (c.phase = .sent → s.bteFull c = false → s.rlcFull c = false → s.cmdStat c ≠ 0 → s.cmdStat c ≠ 4 →
          ∃ t, acc = .next t ∧ phaseOf t n (.landed (s.cmdStat c)) ∧ t.mem = s.mem ∧ t.cores = s.cores)
      ∧ (c.phase = .sent → s.bteFull c = false → s.rlcFull c = false → s.cmdStat c = 4 →
          ∃ t, acc = .next t ∧ phaseOf t n (.faulted 4 0) ∧ t.mem = s.mem
            ∧ (t.core c.issuer).pendFaults = (s.core c.issuer).pendFaults ++ [(BitVec.ofNat 64 c.xid, n)])
      ∧ (c.phase = .sent → s.bteFull c = false → s.rlcFull c = false → s.cmdStat c = 0 → c.kind ≠ .unsub →
          ∃ t, acc = .next t ∧ phaseOf t n .accepted ∧ t.mem = s.mem
            ∧ (c.kind = .sub ∨ c.kind = .drain → ∀ j, (ringFull c.ringBody ≤ j ∧ j < ringFull c.ringBody + ringDepth c.ringBody)
                ∨ (ringEmpty c.ringBody ≤ j ∧ j < ringEmpty c.ringBody + ringDepth c.ringBody) → t.lb c.issuer j = ⟨false, 1, 1, 0, 0⟩))
      ∧ (c.phase = .sent → c.kind = .unsub → s.cmdStat c = 0 →
          (∀ d, s.cmd c.seqNo = some d → d.phase ≠ .done → d.issuer = c.issuer → d.id ≠ n → ∃ t e, acc = .next t
              ∧ phaseOf t n .accepted ∧ t.mem = s.mem ∧ t.cmd d.id = some e ∧ e.stopReq = true
              ∧ (d.tileOpen = true → e.phase = d.phase) ∧ (d.tileOpen = false → d.phase = .accepted → e.phase = .landed 8))
            ∧ ((∀ d, s.cmd c.seqNo = some d → d.phase = .done) → ∃ t, acc = .next t ∧ phaseOf t n (.landed 1) ∧ t.mem = s.mem))
      ∧ (c.phase = .accepted → c.matPending = false → c.kind = .cpy ∨ c.kind = .bte ∨ c.kind = .xfer →
          s.copyElems c is = .ok s' bs → s'.cmd n = some c → ∃ t d, moved t d
            ∧ (d.front < c.src.count → d.phase = .accepted) ∧ (c.src.count ≤ d.front → d.phase = .landed 0))
      ∧ (c.phase = .accepted → c.matPending = false → c.kind = .cpym → s.copyElems c is = .ok s' bs → s'.cmd n = some c →
          ∃ t d, moved t d ∧ d.phase = .accepted ∧ (d.matPending = true ↔ c.src.count ≤ d.front))
      ∧ (c.kind = .cpy ∨ c.kind = .bte ∨ c.kind = .xfer ∨ c.kind = .cpym → c.src.fmt = c.dst.fmt → c.src.sd = false →
          c.dst.sd = false → s.readElems c is = .ok s1 bss → s1.land c is bss.flatten true = .ok s' bs →
          s.copyElems c is = .ok s' bs)
      ∧ (∀ p, c.lbv = true → s.dstCore c = some p → c.dst.sd = false → s.land c is bs true = .ok s' bs →
          (∀ i ∈ is, c.front ≤ i ∧ i ∉ c.early) →
          let b := s.lb p c.lbx
          let k := ((c.to_.landSpans (is.map fun i => (c.to_.index i).toNat)).map (·.2)).sum
          (b.txb = 0 → s'.lb p c.lbx = b) ∧ (b.txb ≠ 0 → s'.lb p c.lbx = ({ b with txb := b.txb - k } : Lb).flip))
      ∧ (c.kind = .sub ∨ c.kind = .drain → c.phase = .accepted → c.tileOpen = false → s.tileReady c = true →
          exec (.streamerTile n) s = .next (s.modCmd n fun d => { d with tileOpen := true }))
      ∧ (c.kind = .sub ∨ c.kind = .drain → c.phase = .accepted → c.matPending = false → c.tileOpen = true →
          s.copyElems c is = .ok s' bs → s'.cmd n = some c → ∃ t d, moved t d
            ∧ (d.front / c.perTile = c.front / c.perTile → d.front < c.src.count → d.tileOpen = true ∧ d.phase = .accepted)
            ∧ (d.front / c.perTile ≠ c.front / c.perTile → d.front < c.src.count → d.tileOpen = false
                ∧ d.phase = (if c.stopReq then .landed 8 else .accepted))
            ∧ (c.src.count ≤ d.front → d.tileOpen = false ∧ d.phase = (if c.stopReq then .landed 8 else .landed 0)))
      ∧ (c.phase = .landed stat ∨ (stat = 0 ∧ c.kind = .unsub ∧ c.phase = .accepted ∧ ∀ d, s.cmd c.seqNo = some d → d.phase = .done) →
          s.statConflict c = false → s.uncommitted n = false → stat < 256 → Memory.wf s.mem = true →
          let k := Key.cp c.issuer (c.eng.pblk.toNat * 16 + 14)
          ∃ t, exec (.engineComplete n) s = .next t ∧ phaseOf t n .done ∧ Memory.get t.mem k = BitVec.ofNat 8 stat
            ∧ SameMemBut s t [k]
            ∧ (c.eng.sinc ≠ 0 → unmarkedBy t c.part c.sid ⟨.sem, c.issuer, c.eng.ssem.toNat⟩
                ∧ t.sem c.issuer c.eng.ssem.toNat = (let v := s.sem c.issuer c.eng.ssem.toNat + c.eng.sinc.toNat
                    if v < 2 ^ 32 then v else 2 ^ 32 - 1))
            ∧ (c.ntv = true → ∃ x ∈ t.fab.net, x.src = c.issuer ∧ x.dst = c.nplace ∧ x.vn = .sync ∧ x.body = .trigInc c.ntag)
            ∧ (c.chv = true → ∀ e ∈ (t.core c.issuer).work.cplq, e.cmd = n → e.ready = true ∧ e.stat = stat)
            ∧ (c.kind = .sub ∨ c.kind = .drain → (t.ring c.issuer c.ring).cmd = none)
            ∧ (c.kind = .rlc →
                let r := (s.clus (c.issuer / 8)).rlc
                let r' := (t.clus (c.issuer / 8)).rlc
                n ∉ r'.queue ∧ ((r.run.map (·.cmd)) = some n → r'.run = none ∧ r'.abortBy = []
                  ∧ ∀ p num q, r.abortBy = [(p, num)] → (s.seqAt p q).out = some num →
                      (t.seqAt p q).out = none ∧ (t.seqAt p q).kept = (s.seqAt p q).kept ++ [.word (if stat = 8 then 0 else 1) true]))
            ∧ (∀ y ∈ t.fab.ranges, y.cmd ≠ n))

/-- 14 R220, R224, R225, R230, 16 R250, 22 R297: a reduction is applied once and only once; a follow-on instruction is
performed whole on the issuer's array, between two matrix instructions; a collective waits for its participants, all fail with
STAT 0x01 where they disagree, and every addend is taken once; a fault stops its command and raises ENGINE-FAULT with the
XID at its issuer, where the supervisor settles it. That a failed participant counts as a mismatch is the model's reading (log
entry 108). -/
def Sys2Proof.Claims.EngineEventsFollowTheirRules : Prop :=
  ∀ (s s' : State) (n : Nat) (c : Cmd) (bs : List Byte) (g : Guard) (a : Fin 4) (st addr : Nat) (p : Place)
    (v : Word) (m i np : Nat) (rest : List (Word × Nat)) (later : List Nat),
    let red := exec (.reduceApply n) s
    let fol := exec (.cpymFollowOn n) s
    let col := exec (.collCombine n) s
    let is := c.landing c.front
    let x := s.strand c.issuer
    let ds := (s.collGroup c).filterMap (s.collMate c)
    let agree := ∀ d ∈ ds, d.failed = false ∧ s.collAgree c d = true
    (s.cmd n = some c → c.kind = .cpyr → c.phase = .accepted → c.matPending = false →
        (s.unapplied c is = [] → ∃ t e, red = .next t ∧ t.mem = s.mem ∧ t.fab.reduced = s.fab.reduced
            ∧ t.cmd n = some e ∧ frontier c is e.front)
          ∧ (s.unapplied c is ≠ [] → s.reduceCopy c (s.unapplied c is) = .ok s' bs → s'.cmd n = some c →
            ∃ t e, red = .next t ∧ t.mem = s'.mem ∧ t.cmd n = some e ∧ frontier c is e.front
              ∧ (c.dst.sd = false → ∀ r ∈ s.packets c 1 0 [c.front], r ∈ t.fab.reduced))
          ∧ ∀ j ∈ is, j ∈ s.unapplied c is ↔ ∃ r ∈ s.packets c 1 0 [j], s.answered r = false)
      ∧ (s.cmd n = some c → c.matPending = true → c.phase = .accepted → c.followWord = some (.mclr g a) →
          ((s.core c.issuer).running = true → x.act.sid = c.sid → (s.core c.issuer).feat.getLsbD 2 = true →
            (x.xs.inArray = false → x.xs.passes g = true → ∃ t, fol = .next t ∧ phaseOf t n (.landed 0)
                ∧ (t.strand c.issuer).xs = x.xs ∧ t.mem = s.mem
                ∧ (t.strand c.issuer).mat = { x.mat with acc := x.mat.acc.set a.val (Vector.replicate 1024 0) })
              ∧ (x.xs.inArray = true → fol = .next s))
            ∧ ((s.core c.issuer).running = true → x.act.sid = c.sid → (s.core c.issuer).feat.getLsbD 2 = false →
              ∃ t, fol = .next t ∧ phaseOf t n (.landed 1) ∧ t.cores = s.cores)
            ∧ ((s.core c.issuer).running = false → ∃ t, fol = .next t ∧ phaseOf t n (.landed 8) ∧ t.cores = s.cores))
      ∧ (s.cmd n = some c → c.kind = .coll → c.phase = .accepted → c.matPending = false →
          (¬ agree → ∃ t, col = .next t ∧ t.mem = s.mem ∧ ∀ e ∈ t.cmds, (∃ y ∈ ds, y.id = e.id) →
              ∃ e0 ∈ s.cmds, e0.id = e.id ∧ (e0.phase = .accepted → e.phase = .landed 1) ∧ (e0.phase ≠ .accepted → e = e0))
            ∧ (agree → ds.length < (s.collGroup c).length → col = .next s)
            ∧ (agree → ds.length = (s.collGroup c).length →
                (c.unread = i :: later → s.readElem c i = .ok s' bs → (∃ w, c.values [(i, bs)] = .ok w) →
                    col = .next (s'.modCmd n fun d => { d with got := d.got ++ [(i, bs)] }))
                  ∧ (c.unread = [] → (∃ d ∈ ds, d.readAll = false) → col = .next s)
                  ∧ (c.unread = [] → (∀ d ∈ ds, d.readAll = true) → s.collApply c ds = .ok s' () → col = .next s')))
      ∧ (c.addends np i).Perm (List.range np)
      ∧ (s.cmd n = some c → s.engineFault c = some (st, addr) → ∃ t, exec (.engineFaultStop n) s = .next t ∧ t.mem = s.mem
          ∧ (∀ e ∈ t.cmds, e.id = n → e.phase = .faulted st addr)
          ∧ (t.core c.issuer).pendFaults = (s.core c.issuer).pendFaults ++ [(BitVec.ofNat 64 c.xid, n)])
      ∧ ((s.core p).pendFaults = (v, m) :: rest →
          let q : SeqId := if (s.strand p).as.present then .as else .xs
          ((s.core p).running = true → s.coreStill p = false → ((s.strand p).seq q).level = .user → ((s.strand p).seq q).inArray = false →
            ∃ t, exec (.engineFaultDelivery p) s = .next t
              ∧ (t.core p).pendFaults = rest ∧ (t.strand p).csr.cause.code = 0x17 ∧ (t.strand p).csr.tval = v
              ∧ ((t.strand p).seq q).level = .supervisor ∧ ((t.strand p).seq q).pc = (s.core p).stvec.toNat ∧ t.mem = s.mem)
            ∧ ((s.core p).running = false → ∃ t, exec (.engineFaultDelivery p) s = .next t ∧ (t.core p).pendFaults = rest
              ∧ t.mem = s.mem ∧ (s.cmd m = some c → c.phase = .faulted st addr →
                phaseOf t m (if s.rangeResolved c st addr then .accepted else .landed st))))

/-- 14 R218, R219, R220, R223, R224, R225, R227, R228, R230, 16 R250, 22 R297: an engine command from acceptance to
completion, and its faults. -/
def Obligations.EngineCommandsRun : Prop :=
  Claims.EngineCommandsRunToCompletion ∧ Claims.EngineEventsFollowTheirRules

/-! ## The refinement loop controller -/

/-- 18 R268, R275 to R277: a pending mark raises REFINEMENT and is gone; `rlcstat` reads the controller; `rlcabort` asks the
run to stop and is answered when its STAT is written, or writes 1 where none runs. That STATE reads 0 once the command is no longer
accepted is the model's reading (log entry 47). -/
def Sys2Proof.Claims.RefinementInstructions : Prop :=
  ∀ (s : State) (g : Guard) (d : Reg) (e : Eng) (v : Word) (b : Bool),
    let clu := s.cur.1 / 8
    let r := (s.clus clu).rlc
    let fresh := s.seq.kept = [] ∧ s.seq.used = 0 ∧ s.seq.out = none
    (fresh → s.me.rlcTrap = some v → ∀ i ∈ [Instr.rlcrun g e, .rlcstat g d],
        Ends i s ((s.modMe fun c => { c with rlcTrap := none }).takeTrap .refinement (some v) .none))
      ∧ (s.me.rlcTrap = none → ∃ w, Completes (.rlcstat g d) s (s.modSeq (·.writeS d w))
          ∧ (r.rung < 16 → r.exit < 16 → r.queue.length < 8 → w.toNat / 2 ^ 32 = r.rnorm.toNat
              ∧ w.toNat / 2 ^ 16 % 2 ^ 16 = (if r.iter < 65536 then r.iter else 65535)
              ∧ w.toNat / 2 ^ 12 % 16 = r.rung ∧ w.toNat / 2 ^ 8 % 16 = r.exit
              ∧ w.toNat / 2 ^ 5 % 8 = (r.queue.filter fun n => (s.cmd n).any fun c => decide (c.phase = .accepted)).length
              ∧ (w.toNat / 2 ^ 4 % 2 = 1 ↔ ∃ k < 8, clu * 8 + k ≠ s.cur.1 ∧ (s.core (clu * 8 + k)).rlcTrap ≠ none)
              ∧ w.toNat % 4 = (match s.rlcRunning clu with | some (x, _) => if x.factoring then 1 else 2 | none => 0)))
      ∧ (fresh → s.rlcRunning clu = none → Completes (.rlcabort g d) s (s.modSeq (·.writeS d 1)))
      ∧ (fresh → s.rlcRunning clu ≠ none → s.meets (.rlcabort g d) → ∃ t, exec (.rlcabort g d) s = .next t
          ∧ t.seq.out = some s.fab.nextNum ∧ t.seq.pc = s.seq.pc ∧ (t.clus clu).rlc.abortBy = r.abortBy ++ [(s.cur.1, s.fab.nextNum)])
      ∧ (s.seq.kept = [.word v b] → s.seq.used = 0 → Completes (.rlcabort g d) s
          ((s.modSeq fun c => { c with used := c.used + 1 }).modSeq (·.writeS d v)))

/-- 18 R271 to R274, R277: the events of a run. A start takes the queue's head and its inputs, and inputs that are not finite
diverge at once; each column factors, or leads to the policy of DIVERGED; an iteration solves, adds, stores and tests in its
four steps; a test that passes converges with STAT 0; and an abort asked for stops the run at its next boundary. The order of
the tiles in a substitution's sums is the model's reading (log entry 115), and so is that a finished run is kept until its completion is
taken (log entry 47). -/
def Sys2Proof.Claims.RefinementRunsItsSteps : Prop :=
  ∀ (s : State) (clu : Nat) (c : Cmd) (r : RlcRun) (m : List Lane),
    let f := c.refine
    let n := 32 * f.nb
    let region (off len : Nat) : List Byte := (span (Key.cm clu off) len).map (Memory.get s.mem)
    let a := (chunks 4 (n * n) (region f.a (4 * n * n))).map fun e => fv32 (BitVec.ofNat 32 (leOf e))
    let lower := (List.range (n * n)).filterMap fun k => if k % n ≤ k / n then some (a.getD k FVal.zero) else none
    let b := (chunks 4 n (region f.b (4 * n))).map fun e => decodeF .f32 (leOf e)
    let step := exec (.rlcStep clu) s
    let fac := exec (.rlcFactorColumn clu) s
    let runs (t : State) (q : RlcRun) : Prop := (t.clus clu).rlc.run = some q
    (s.rlcHead clu = some c → s.rlcConflict c = none → s.rlcNoRoom c = false →
        ∃ t q, exec (.rlcRunStart clu) s = .next t ∧ runs t q ∧ q.cmd = c.id ∧ q.iter = 0 ∧ q.factoring = true
          ∧ (f.init = true → q.x = List.replicate n FVal.zero)
          ∧ (t.clus clu).rlc.queue = (s.clus clu).rlc.queue.drop 1
          ∧ (¬ (∀ v ∈ lower ++ b, v.isFinite = true) → (t.clus clu).rlc.exit = 2 ∧ ∀ d ∈ t.cmds, d.id = c.id → d.phase = .landed 0x0C))
      ∧ (s.rlcRunning clu = some (r, c) → s.rlcConflict c = none → (s.clus clu).rlc.abortBy = [] →
        (r.factoring = true →
          let m0 := if r.col = 0 then rungMatrix r.rung n r.a else r.tiles
          (factorColumn (sumKey r.cmd r.iter r.rung) r.rung n r.col m0 = some m → ∃ t q, fac = .next t ∧ runs t q ∧ q.tiles = m
              ∧ q.col = r.col + 1 ∧ q.factoring = decide (r.col + 1 < f.nb) ∧ q.x = r.x ∧ q.r = r.r ∧ q.iter = r.iter)
            ∧ (factorColumn (sumKey r.cmd r.iter r.rung) r.rung n r.col m0 = none → f.pdiv ≠ 1 ∨ f.above r.rung = none →
              ∃ t, fac = .next t ∧ (t.clus clu).rlc.exit = 2 ∧ ∀ d ∈ t.cmds, d.id = c.id → d.phase = .landed 0x0C))
        ∧ (r.factoring = false →
          (r.substep = 0 → ∃ t, step = .next t ∧ t.mem = s.mem
              ∧ runs t { r with c := correct (sumKey r.cmd (r.iter + 1) 3) n r.tiles r.r, substep := 1 })
            ∧ (r.substep = 1 → ∃ t, step = .next t ∧ t.mem = s.mem
              ∧ let x1 := (r.x.zip r.c).map fun e => roundX f.rp (e.1.add 0 e.2)
                runs t { r with xp := x1, rp := residual f.rp n r.a r.b x1, substep := 2 })
            ∧ (r.substep = 2 → ∃ t, step = .next t
              ∧ runs t { r with x := r.xp, r := r.rp, xp := r.x, rp := r.r, iter := r.iter + 1, substep := 3 })
            ∧ (r.substep = 3 → f.test r.nA r.b r.x r.r = true → ∃ t, step = .next t ∧ (t.clus clu).rlc.exit = 0
              ∧ (∀ d ∈ t.cmds, d.id = c.id → d.phase = .landed 0) ∧ ∀ y ∈ t.fab.ranges, y.cmd ≠ c.id)))
      ∧ (s.rlcRunning clu = some (r, c) → s.rlcConflict c = none → (s.clus clu).rlc.abortBy ≠ [] → r.factoring = false →
          r.substep < 3 → ∃ t, step = .next t ∧ (t.clus clu).rlc.exit = 4 ∧ ∀ d ∈ t.cmds, d.id = c.id → d.phase = .landed 8)

/-- 18 R268, R271, R272, R273, R274, R275, R276, R277: the refinement loop controller. -/
def Obligations.RefinementLoops : Prop :=
  Claims.RefinementInstructions ∧ Claims.RefinementRunsItsSteps

/-! ## The GMU and pipeline stages -/

namespace Sys2Proof.Claims

/-- A block register written. -/
def setGb (s : State) (d : Fin 4) (g : Gb) : State :=
  s.modMy fun k => { k with gmu := { k.gmu with gb := k.gmu.gb.set d.val g } }

/-- Flags ORed into FPSTAT. -/
def flagged (s : State) (f : Flags) : State := s.modMy fun k => { k with csr := { k.csr with fpstat := k.csr.fpstat ||| f } }

/-- Λ's and η's elements of a register that combines n dimensions of `y` with those of `x` from `o` on: each as `f` says of
the two and the new one, Λ mirrored, and all others of `x` unchanged (18 R258, R262). -/
def combined (x y r : Gb) (n o : Nat) (f : Lane → Lane → Lane → Prop) : Prop :=
  (∀ i j, i ≤ j → j < n → f (x.at_ (o + i) (o + j)) (y.at_ i j) (r.at_ (o + i) (o + j))
      ∧ r.at_ (o + j) (o + i) = r.at_ (o + i) (o + j))
    ∧ (∀ i < n, f (x.h (o + i)) (y.h i) (r.h (o + i)))
    ∧ (∀ i j, i < 32 → j < 32 → ¬ (o ≤ i ∧ i < o + n ∧ o ≤ j ∧ j < o + n) → r.at_ i j = x.at_ i j)
    ∧ ∀ i < 32, ¬ (o ≤ i ∧ i < o + n) → r.h i = x.h i

/-- The image of n dimensions (18 R253) whose words are `ws`, loaded into a register over `x`. -/
def imageLoaded (x r : Gb) (n : Nat) (ws : Nat → Lane) : Prop :=
  (∀ i < n, r.h i = ws i)
    ∧ (∀ i j, i ≤ j → j < n → r.at_ i j = ws (n + i * (2 * n - i + 1) / 2 + (j - i)) ∧ r.at_ j i = r.at_ i j)
    ∧ (∀ i j, i < 32 → j < 32 → ¬ (i < n ∧ j < n) → r.at_ i j = x.at_ i j) ∧ ∀ i, n ≤ i → i < 32 → r.h i = x.h i

/-- The exact real number of an FP32 word. -/
def real (w : Lane) : ℚ := (fv32 w).rational

/-- `r` is RNE32 of a real number. -/
def roundsTo (q : ℚ) (r : Lane) : Prop := ∃ v : FVal, v.isFinite = true ∧ v.rational = q ∧ r = (rne32 v).1

end Sys2Proof.Claims

/-- 18 R253, R260, R261: `gcfg` checks τ and ε and gives back the old ones; `gld` and `gst` move a packed image as one
request, the header's form reading byte 10 first; `gzero` clears a block register. -/
def Sys2Proof.Claims.BlockRegistersLoadAndStoreImages : Prop :=
  ∀ (s s1 s2 : State) (g : Guard) (d : Fin 4) (rd a b : Reg) (nm1 : Fin 32) (cm : Bool) (bs : List Byte) (k : Byte),
    let t := (s.seq.readS a).extractLsb' 0 32
    let e := (s.seq.readS b).extractLsb' 0 32
    let w := s.seq.readS a
    let n := nm1.val + 1
    let x := s.my.gmu.gb[d.val]
    let words (o n : Nat) : List Nat := (List.range (n * (n + 3) / 2)).map fun i => w.toNat + o + 4 * i
    let spans (as : List Nat) : List Nat := as.flatMap fun a => span a 4
    let header := (List.range 8).map fun i => w.toNat + 4 * i
    let word (i : Nat) : Lane := BitVec.ofNat 32 (leOf ((bs.drop (4 * i)).take 4))
    let badT := (fv32 t).isNan = true ∨ (fv32 t).extended < 0 ∨ 1 ≤ (fv32 t).extended
    let badE := (fv32 e).isNan = true ∨ (fv32 e).isInf = true ∨ (fv32 e).extended < 0
    let bytes (v : Lane) : List Byte := leBytesOf 4 v.toNat
    let packed := (List.range n).flatMap (fun i => bytes (x.h i))
      ++ (List.range n).flatMap fun i => (List.range (n - i)).flatMap fun j => bytes (x.at_ i (i + j))
    (badT → Traps (.gcfg g rd a b) s .windowBounds (t.setWidth 64))
      ∧ (¬ badT → badE → Traps (.gcfg g rd a b) s .windowBounds (e.setWidth 64))
      ∧ (¬ badT → ¬ badE → Completes (.gcfg g rd a b) s
          ((s.modMy fun m => { m with gmu := { m.gmu with tau := t, eps := if e = 0x80000000 then 0 else e } }).modSeq
            (·.writeS rd (BitVec.ofNat 64 (s.my.gmu.eps.toNat * 2 ^ 32 + s.my.gmu.tau.toNat)))))
      ∧ addressTraps (.gld g d a nm1 cm) s cm 4 (words 0 n) ∧ addressTraps (.gst g a d nm1 cm) s cm 4 (words 0 n)
      ∧ (s.begins → fine s cm 4 (words 0 n) → answersLocal s cm .r .read (spans (words 0 n)) s1 (.data bs) →
          bs.length = 2 * n * (n + 3) → ∃ r, Completes (.gld g d a nm1 cm) s (setGb (answered s1 (.data bs)) d r)
            ∧ imageLoaded s1.my.gmu.gb[d.val] r n word)
      ∧ (s.begins → fine s cm 4 (words 0 n) → answersLocal s cm .w (.write packed) (spans (words 0 n)) s1 (.data []) →
          Completes (.gst g a d nm1 cm) s (answered s1 (.data [])))
      ∧ (w.toNat % 64 ≠ 0 → Traps (.gldHdr g d a cm) s .misalignedData w)
      ∧ (w.toNat % 64 = 0 → addressTraps (.gldHdr g d a cm) s cm 4 header)
      ∧ (w.toNat % 64 = 0 → s.begins → fine s cm 4 header → answersLocal s cm .r .read [w.toNat + 10] s1 (.data [k]) →
          let u := answered s1 (.data [k])
          ((k.toNat = 0 ∨ 14 < k.toNat) → Traps (.gldHdr g d a cm) s .windowBounds w)
            ∧ (1 ≤ k.toNat → k.toNat ≤ 14 → s1.begins → fine u cm 4 (words 32 k.toNat) →
                answersLocal u cm .r .read (spans (words 32 k.toNat)) s2 (.data bs) →
                bs.length = 2 * k.toNat * (k.toNat + 3) → ∃ r, Completes (.gldHdr g d a cm) s (setGb (answered s2 (.data bs)) d r)
                  ∧ imageLoaded s2.my.gmu.gb[d.val] r k.toNat word))
      ∧ Completes (.gzero g d) s (setGb s d ⟨Vector.replicate 1024 0, Vector.replicate 32 0⟩)

/-- 18 R262: `gaddp`, `gdamp` and `gres` form each result exactly, round it once to nearest even, and keep Λ symmetric.
That `gdamp` with BETA 0 raises no flag is the model's reading (log entry 46). -/
def Sys2Proof.Claims.BlockSumsDampingAndResiduals : Prop :=
  ∀ (s : State) (g : Guard) (d a b : Fin 4) (rd : Reg) (nm1 off : Fin 32) (mb : Fin 64),
    let n := nm1.val + 1
    let x := s.my.gmu.gb[d.val]
    let y := s.my.gmu.gb[a.val]
    let z := s.my.gmu.gb[b.val]
    let beta := (s.mbx s.cur.1 mb.val).beta
    let upTo (p : Nat → Nat → Prop) : Prop := ∃ i j, i ≤ j ∧ j < n ∧ p i j
    let mag (q : ℚ) : ℚ := max q (-q)
    let most (qs : List ℚ) : ℚ := qs.foldl max 0
    let dh := (List.range n).map fun i => mag (real (y.h i) - real (z.h i))
    let dl := (List.range n).flatMap fun i => (List.range (n - i)).map fun j => mag (real (y.at_ i (i + j)) - real (z.at_ i (i + j)))
    let nanIn := (∃ i < n, (fv32 (y.h i)).isNan = true ∨ (fv32 (z.h i)).isNan = true)
      ∨ upTo fun i j => (fv32 (y.at_ i j)).isNan = true ∨ (fv32 (z.at_ i j)).isNan = true
    let finite := (∀ i < n, (fv32 (y.h i)).isFinite = true ∧ (fv32 (z.h i)).isFinite = true)
      ∧ ∀ i j, i ≤ j → j < n → (fv32 (y.at_ i j)).isFinite = true ∧ (fv32 (z.at_ i j)).isFinite = true
    (off.val + n ≤ 32 → ∃ r fl, Completes (.gaddp g d a nm1 off) s (flagged (setGb s d r) fl)
        ∧ combined x y r n off.val (fun u v q => q = BitVec.ofNat 32 (fAdd .f32 0 u.toNat v.toNat).1)
        ∧ ∀ c < 5, fl.getLsbD c = true ↔
            (∃ i < n, (fAdd .f32 0 (x.h (off.val + i)).toNat (y.h i).toNat).2.getLsbD c = true)
              ∨ upTo fun i j => (fAdd .f32 0 (x.at_ (off.val + i) (off.val + j)).toNat (y.at_ i j).toNat).2.getLsbD c = true)
      ∧ (beta = 0 → Completes (.gdamp g d a nm1 mb) s s)
      ∧ (beta ≠ 0 → ∃ r fl, Completes (.gdamp g d a nm1 mb) s (flagged (setGb s d r) fl)
          ∧ combined x y r n 0 fun new old q =>
            (((fv32 new).isNan = true ∨ (fv32 old).isNan = true) → q = 0x7FC00000)
              ∧ ((fv32 new).isFinite = true → (fv32 old).isFinite = true →
                  roundsTo ((beta * real old + (256 - beta) * real new) / 256) q))
      ∧ (∃ v fl, Completes (.gres g rd a b nm1) s (flagged (s.modSeq (·.writeS rd (BitVec.setWidth 64 (v : Lane)))) fl)
          ∧ (nanIn → v = 0x7FC00000) ∧ (finite → roundsTo (most dh + most dl) v)
          ∧ ∀ c < 5, fl.getLsbD c = true → c = 0 ∨ c = 2 ∨ c = 4)

/-- 18 R253, R260, R261, R262: the block registers' images, sums, damping and residuals. -/
def Obligations.BlockRegisters : Prop :=
  Claims.BlockRegistersLoadAndStoreImages ∧ Claims.BlockSumsDampingAndResiduals

namespace Sys2Proof.Claims

/-- RNE32(c − l × m), fused, and RNE32(v / w). -/
def less (c l m : Lane) : Lane := BitVec.ofNat 32 (mulSub c l m).1
def quo (v w : Lane) : Lane := BitVec.ofNat 32 (fDiv .f32 0 v.toNat w.toNat).1

/-- One step of the gouge (18 R263): the pivot p is eliminated from `m`; `rm` are the indices that remain after it. -/
def gougeStep (rm : List Nat) (p : Nat) (m m' : Gb) : Prop :=
  let l (q : Nat) : Lane := quo (m.at_ q p) (m.at_ p p)
  (∀ q ∈ rm, ∀ r ∈ rm, q ≤ r → m'.at_ q r = less (m.at_ q r) (l q) (m.at_ p r) ∧ m'.at_ r q = m'.at_ q r)
    ∧ (∀ q ∈ rm, m'.h q = less (m.h q) (l q) (m.h p))
    ∧ (∀ i j, i < 32 → j < 32 → ¬ (i ∈ rm ∧ j ∈ rm) → m'.at_ i j = m.at_ i j) ∧ ∀ i < 32, i ∉ rm → m'.h i = m.h i

/-- A pivot is greater than τ × dmax, exactly; a NaN pivot or dmax fails (18 R263, R264). -/
def clears (tau : Lane) (diag : List Lane) (piv : Lane) : Prop :=
  let dmax : ℚ := (diag.map fun d => max (real d) (-real d)).foldl max 0
  (∀ d ∈ diag, (fv32 d).isFinite = true)
    ∧ ((fv32 piv).extended = ⊤ ∨ ((fv32 piv).isFinite = true ∧ real tau * dmax < real piv))

/-- `ms` are the registers that the first k steps of the gouge of `ev` among n indices leave, from `x` with ε added to the
pivots; every one of those pivots clears. -/
def gouges (u : Gmu) (x : Gb) (n : Nat) (ev : List Nat) (ms : Nat → Gb) (k : Nat) : Prop :=
  (∀ i j, i < 32 → j < 32 → (ms 0).at_ i j
      = if i = j ∧ i ∈ ev then BitVec.ofNat 32 (fAdd .f32 0 (x.at_ i i).toNat u.eps.toNat).1 else x.at_ i j)
    ∧ (∀ i < 32, (ms 0).h i = x.h i)
    ∧ ∀ i < k, ∀ p, ev[i]? = some p →
        clears u.tau (ev.map fun e => (ms 0).at_ e e) ((ms i).at_ p p)
          ∧ gougeStep ((List.range n).filter fun q => decide (q ∉ ev.take (i + 1))) p (ms i) (ms (i + 1))

end Sys2Proof.Claims

/-- 18 R263 to R265: the gouge. `gschur` eliminates the indices outside the kept range one by one, and leaves the kept range at
offset 0 of a cleared register; `gsolve` eliminates all n and leaves the means, by back substitution from the last to the first; a
pivot that is not above τ × dmax raises SINGULAR-BLOCK with the pivot's bits and index. -/
def Obligations.GougeEliminatesOrTraps : Prop :=
  ∀ (s : State) (g : Guard) (d a : Fin 4) (nm1 off : Fin 32) (km1 : Fin 8) (p k : Nat) (ms : Nat → Gb),
    let u := s.my.gmu
    let x := u.gb[a.val]
    let n := nm1.val + 1
    let keep := km1.val + 1
    let ev := (List.range n).filter fun q => decide (q < off.val ∨ off.val + keep ≤ q)
    let all := List.range n
    let low : Prop := (fv32 u.tau).isFinite = true ∧ 0 ≤ real u.tau ∧ real u.tau < 1
    let fails (i : Instr) (is : List Nat) : Prop :=
      gouges u x n is ms k → is[k]? = some p → ¬ clears u.tau (is.map fun e => (ms 0).at_ e e) ((ms k).at_ p p) →
        Traps i s .singularBlock (BitVec.ofNat 64 (((ms k).at_ p p).toNat * 2 ^ 32 + p))
    (low → fails (.gschur g d a nm1 off km1) ev ∧ fails (.gsolve g d a nm1) all)
      ∧ (low → gouges u x n ev ms ev.length → off.val + keep ≤ n →
          let r := ms ev.length
          ∃ q fl, Completes (.gschur g d a nm1 off km1) s (flagged (setGb s d q) fl)
            ∧ (∀ i j, i < keep → j < keep → q.at_ (min i j) (max i j) = r.at_ (off.val + min i j) (off.val + max i j)
                ∧ q.at_ i j = q.at_ j i)
            ∧ (∀ i < keep, q.h i = r.h (off.val + i))
            ∧ (∀ i j, i < 32 → j < 32 → ¬ (i < keep ∧ j < keep) → q.at_ i j = 0) ∧ ∀ i, keep ≤ i → i < 32 → q.h i = 0)
      ∧ (low → gouges u x n all ms n → ∃ q fl, Completes (.gsolve g d a nm1) s (flagged (setGb s d q) fl)
          ∧ (∀ i j, i < 32 → j < 32 → q.at_ i j = x.at_ i j) ∧ (∀ i, n ≤ i → i < 32 → q.h i = x.h i)
          ∧ ∀ i < n, ∃ xs : Nat → Lane, xs 0 = quo ((ms n).h i) ((ms i).at_ i i)
              ∧ (∀ j < n - 1 - i, let e := n - 1 - j
                  xs (j + 1) = less (xs j) (quo ((ms i).at_ e i) ((ms i).at_ i i)) (q.h e))
              ∧ q.h i = xs (n - 1 - i))
      ∧ (∀ c l m : Lane, (fv32 c).isFinite = true → (fv32 l).isFinite = true → (fv32 m).isFinite = true →
          roundsTo (real c - real l * real m) (less c l m))
      ∧ ∀ c l m : Lane, (fv32 c).isNan = true ∨ (fv32 l).isNan = true ∨ (fv32 m).isNan = true → less c l m = 0x7FC00000

/-- 20 R282, R287, R288, R291: `stgdecl` checks its block and answers the first status that holds; `stgq` declares a stage
queue; `stgstat` reads the last report; and an idle member takes the head of a busy home's queue.
That declarations are answered within the instruction is the model's reading (log entry 45). -/
def Sys2Proof.Claims.StagesAreDeclaredAndDispatched : Prop :=
  ∀ (s s1 : State) (g : Guard) (rd a : Reg) (stage : BitVec 8) (mb : Fin 64) (bm1 : Fin 16) (n : Nat) (home q : Place)
    (e : Stage) (sb k tick order src ln : Nat) (res vr : Lane),
    let i : Instr := .stgdecl g rd a stage
    let w := s.seq.readS a
    let self := s.cur.1
    let f (lo len : Nat) : Nat := n / 2 ^ lo % 2 ^ len
    let bad := f 64 64 ≠ 0 ∨ f 20 12 ≠ 0 ∨ f 32 16 = 0 ∨ f 48 16 < f 32 16
    let id := stage.toNat
    let p1 := s1.cur.1
    let pn1 := s1.partNo p1
    let old := (s1.part pn1).stages
    let mine := old.find? fun e => e.2.pool.contains p1
    let status (v : Nat) (st : Table Stage) : Prop := s.meets i → ∃ t, exec i s = .next t ∧ (t.part pn1).stages = st
      ∧ (rd.val ≠ 0 → t.seq.readS rd = BitVec.ofNat 64 v) ∧ (∀ r, r ≠ rd → t.seq.readS r = s1.seq.readS r) ∧ t.mem = s1.mem
    let same : Prop := e.home = f 0 16 ∧ e.pipe = f 16 4 ∧ e.lo = f 32 16 ∧ e.hi = f 48 16
    let m := s.mbx self mb.val
    let owns := ∃ x, Table.find (s.partOf self).stages id = some x ∧ x.home = self
    let queue := m.enabled = true ∧ m.gaussian = false ∧ m.ahv = true ∧ bm1.val + 1 ≤ m.depth
      ∧ (s.descAt (s.partNo self) self m.aidx).map (·.stage) = some id
    let hm := s.mbx home mb.val
    let takes (x : Place) : Prop := x ∈ e.pool ∧ x ≠ home ∧ s.freeMember x = true
    (w.toNat % 16 ≠ 0 → Traps i s .windowBounds w)
      ∧ (w.toNat % 16 = 0 → readBlock w.toNat 16 s = .ok (n, s1) →
          (bad → Traps i s .windowBounds w)
            ∧ (¬ bad → ∀ c, s1.checkCore (f 0 16) = .error c → TrapsOpen i s c)
            ∧ (¬ bad → ∀ h, s1.checkCore (f 0 16) = .ok h → (s1.partOf p1).hasCore (f 0 16) = false → TrapsOpen i s .permission)
            ∧ (¬ bad → ∀ h, s1.checkCore (f 0 16) = .ok h → (s1.partOf p1).hasCore (f 0 16) = true →
                (∀ x, mine = some x → x.1 ≠ id → status 3 old)
                  ∧ (mine = none → Table.find old id = none → f 0 16 = p1 →
                      status 0 (Table.set old id ⟨f 0 16, f 16 4, f 32 16, f 48 16, [p1], 0, 0, 0, false⟩))
                  ∧ (mine = none → Table.find old id = none → f 0 16 ≠ p1 → status 4 old)
                  ∧ (∀ x, mine = some x → x.1 = id → Table.find old id = some e → status 1 old)
                  ∧ (mine = none → Table.find old id = some e → ¬ same → status 2 old)
                  ∧ (mine = none → Table.find old id = some e → same → f 48 16 ≤ e.pool.length → status 5 old)
                  ∧ (mine = none → Table.find old id = some e → same → e.pool.length < f 48 16 →
                      status 1 (Table.set old id { e with pool := e.pool ++ [p1] }))))
      ∧ (¬ owns → Traps (.stgq g mb stage bm1) s .queueMisuse (BitVec.ofNat 64 id))
      ∧ (owns → ¬ queue → Traps (.stgq g mb stage bm1) s .windowBounds (BitVec.ofNat 64 mb.val))
      ∧ (owns → queue → Completes (.stgq g mb stage bm1) s (s.setMbx self mb.val { m with
          stage := some (id, bm1.val + 1), refused := m.refused && m.stage.map (·.1) == some id }))
      ∧ Completes (.stgqClr g mb) s (s.setMbx self mb.val { m with stage := none, refused := false })
      ∧ (Table.find (s.partOf self).stages id = none → Completes (.stgstat g rd stage) s (s.modSeq (·.writeS rd 0)))
      ∧ (Table.find (s.partOf self).stages id = some e → Completes (.stgstat g rd stage) s (s.modSeq (·.writeS rd (BitVec.ofNat 64
          (e.pool.length % 2 ^ 16 * 2 ^ 48 + e.filled % 2 ^ 16 * 2 ^ 32 + e.bsum % 2 ^ 16 * 2 ^ 16 + e.gated % 256 * 256
            + e.pipe % 16 * 16 + (if e.ref then 2 else 0) + 1)))))
      ∧ (hm.stage = some (id, sb) → hm.head = some (k, .filled tick order src res vr ln false) → (s.core home).running = true →
          (s.mbxCand home mb.val hm).isSome = true → Table.find (s.partOf home).stages id = some e → e.home = home → takes q →
          (∀ x, takes x → hops home q < hops home x ∨ (hops home q = hops home x ∧ q ≤ x)) →
          ∃ t, exec (.stageDispatch home mb q) s = .next t ∧ t.mem = s.mem
            ∧ t.mbx home mb.val = hm.putSlot k (.filled tick order src res vr ln true)
            ∧ ∃ x ∈ t.fab.net, ∃ y, x.src = home ∧ x.dst = q ∧ x.vn = .amsg ∧ x.body = .dispatch y home mb.val k order
              ∧ y.payload = s.slotPayload home (hm.offset k))

/-- 20 R289 to R291: stashes. `stshal` takes the lowest free slot or answers all ones, `stshfr` frees an allocated slot
or raises QUEUE-MISUSE, its INIT form sets the geometry from a checked block, and an index of SCOUNT or more traps. -/
def Sys2Proof.Claims.StashesAllocateAndFree : Prop :=
  ∀ (s s1 : State) (g : Guard) (rd a : Reg) (ss : Fin 64) (n i : Nat),
    let w := s.seq.readS a
    let self := s.cur.1
    let t := s.stash self ss.val
    let count := (s.partOf self).attrs.scount
    let f (lo len : Nat) : Nat := n / 2 ^ lo % 2 ^ len
    let ok := f 71 57 = 0 ∧ f 33 15 = 0 ∧ 1 ≤ f 64 7 ∧ f 64 7 ≤ 64 ∧ f 48 16 % 64 = 0 ∧ 64 ≤ f 48 16 ∧ f 48 16 ≤ 32768
      ∧ f 0 32 % 64 = 0 ∧ f 0 32 + f 64 7 * f 48 16 ≤ (if f 32 1 = 1 then 1048576 else 0xEC00)
    let off := w.toNat - t.base
    let held := t.cap ≠ 0 ∧ t.base ≤ w.toNat ∧ off % t.slotb = 0 ∧ off / t.slotb < t.cap ∧ t.mask.getLsbD (off / t.slotb) = true
    (count ≤ ss.val → ∀ j ∈ [Instr.stshal g rd ss, .stshfr g a ss, .stshfrInit g a ss, .stgstatStash g rd ss],
        Traps j s .windowBounds (BitVec.ofNat 64 ss.val))
      ∧ (ss.val < count →
          (i < t.cap → t.mask.getLsbD i = false → (∀ j < i, t.mask.getLsbD j = true) → Completes (.stshal g rd ss) s
              ((s.setStash self ss.val { t with mask := t.mask ||| BitVec.ofNat 64 (2 ^ i) }).modSeq
                (·.writeS rd (BitVec.ofNat 64 (t.base + i * t.slotb)))))
            ∧ ((∀ j < t.cap, t.mask.getLsbD j = true) → Completes (.stshal g rd ss) s (s.modSeq (·.writeS rd (BitVec.allOnes 64))))
            ∧ (held → Completes (.stshfr g a ss) s (s.setStash self ss.val
                { t with mask := t.mask &&& ~~~ BitVec.ofNat 64 (2 ^ (off / t.slotb)) }))
            ∧ (¬ held → Traps (.stshfr g a ss) s .queueMisuse w)
            ∧ (w.toNat % 16 ≠ 0 → Traps (.stshfrInit g a ss) s .windowBounds w)
            ∧ (w.toNat % 16 = 0 → readBlock w.toNat 16 s = .ok (n, s1) → ¬ ok → Traps (.stshfrInit g a ss) s .windowBounds w)
            ∧ (w.toNat % 16 = 0 → readBlock w.toNat 16 s = .ok (n, s1) → ok → Completes (.stshfrInit g a ss) s
                (s1.setStash s1.cur.1 ss.val ⟨f 0 32, f 32 1 = 1, f 48 16, f 64 7, 0⟩))
            ∧ (let used := (List.range 64).countP t.mask.getLsbD
               Completes (.stgstatStash g rd ss) s
                (s.modSeq (·.writeS rd (BitVec.ofNat 64
                  ((if t.cap ≠ 0 ∧ used = t.cap then 2 ^ 16 else 0) + used * 2 ^ 8 + t.cap))))))

/-- 20 R282, R287, R288, R289, R290, R291: pipeline stages and stashes. -/
def Obligations.StagesAndStashes : Prop :=
  Claims.StagesAreDeclaredAndDispatched ∧ Claims.StashesAllocateAndFree

/-! ## Control registers, queries, tables, and the micro-kernel -/

/-- 07 R100, R101, R103, 22 R319: `csrr`, `csrw` and `csrx`. An access that the column denies at the level raises PRIVILEGED before the
guard; a read gives the register's fields; a write sets the bits that exist and the other registers keep
theirs; a write of a register that is RO at the level is discarded (the reading of 00 R6 in log entry 16); `csrx` gives the old value.
What a sequencer reads in the cycle in which the other has written is the value before that write. -/
def Sys2Proof.Claims.ControlRegistersReadAndWrite : Prop :=
  ∀ (s : State) (g : Guard) (d a : Reg) (n : Csr),
    let user := s.seq.level = .user
    let never := n ∈ [Csr.hid, .wid, .wfw, .self, .part, .speed, .feat, .xferid, .holdst, .wdog]
    let guarded := n ∈ [Csr.lostcnt, .cause, .epc, .tval]
    let denies := n = .stvec ∧ user
    let discards := never ∨ (guarded ∧ user)
    let w := s.seq.readS a
    let r := s.my.csr
    let me : Core := match s.cycle with
      | some (p, c) => if p = s.cur.1 then c else s.me
      | none => s.me
    let o := me.st.csr
    let bit (b : Bool) (k : Nat) : Nat := if b then 2 ^ k else 0
    let value : Nat := match n with
      | .hid => o.hid.toNat | .wid => o.wid.toNat | .wfw => o.wfw.toNat
      | .self => s.cur.1
      | .part => o.proc.toNat * 2 ^ 32 + (s.partOf s.cur.1).tenant % 256 * 2 ^ 24 + s.partNo s.cur.1
      | .speed => me.state.toNat * 2 ^ 14 + me.cur.val * 2 ^ 8 + me.bin.val
      | .feat => me.feat.toNat | .fpstat => o.fpstat.toNat | .fpmode => o.fpmode.toNat | .xferid => o.xferid.toNat
      | .holdst => o.holdst.late.toNat * 2 ^ 32 + o.holdst.holdid.toNat * 2 ^ 16 + o.holdst.stat.toNat * 16
          + bit o.holdst.pois 3 + bit o.holdst.w 2 + bit o.holdst.rsm 1 + bit o.holdst.dlmiss 0
      | .deadline => o.deadline.toNat
      | .wdog => o.left.toNat * 2 ^ 16 + o.budget.toNat
      | .lostcnt => me.lost.toNat | .icinv => 0 | .utvec => o.utvec.toNat | .utmask => o.utmask.toNat
      | .cause => bit o.cause.pprv 10 + bit o.cause.udel 9 + bit o.cause.seq 8 + o.cause.code.toNat
      | .epc => o.xpc.toNat * 2 ^ 32 + o.apc.toNat
      | .tval => o.tval.toNat | .stvec => me.stvec.toNat
    let csr (f : Csrs) : State := s.modMy fun t => { t with csr := f }
    let written : State := match n with
      | .fpstat => csr { r with fpstat := w.setWidth 5 }
      | .fpmode => csr { r with fpmode := w.setWidth 2 }
      | .deadline => s.modMy fun t => { t with csr := { r with deadline := w }, act := { t.act with dlPassed := false } }
      | .lostcnt => s.modCore s.cur.1 fun c => { c with lost := w.setWidth 32 }
      | .icinv => s.modClus (s.cur.1 / 8) fun k => { k with
          icache := if w.getLsbD 0 then [] else k.icache.filter fun e => e.1 / 2 != w.toNat / 64 % 2 ^ 26 }
      | .utvec => csr { r with utvec := w &&& 0xFFFFFFFFFFFFFFFC }
      | .utmask => csr { r with utmask := w &&& 0x52C000 }
      | .cause => csr { r with cause := ⟨w.getLsbD 10, w.getLsbD 9, w.getLsbD 8, w.setWidth 8⟩ }
      | .epc => csr { r with apc := w.setWidth 32, xpc := (w >>> 32).setWidth 32 }
      | .tval => csr { r with tval := w }
      | .stvec => s.modCore s.cur.1 fun c => { c with stvec := w &&& 0xFFFFFFFFFFFFFFFC }
      | _ => s
    let denied (i : Instr) : Prop := exec i s = .next (s.takeTrap .privileged none .none)
    let runs (i : Instr) (t : State) : Prop :=
      (s.seq.passes g = false → exec i s = .next (s.retire 8 .fall)) ∧ (s.seq.passes g = true → exec i s = .next (t.retire 8 .fall))
    let read (t : State) : State := t.modSeq (·.writeS d (BitVec.ofNat 64 value))
    (denies → denied (.csrr g d n) ∧ denied (.csrw g a n) ∧ denied (.csrx g d a n))
      ∧ (¬ denies → runs (.csrr g d n) (read s))
      ∧ (discards → runs (.csrw g a n) s ∧ runs (.csrx g d a n) (read s))
      ∧ (¬ denies → ¬ discards → runs (.csrw g a n) written ∧ runs (.csrx g d a n) (read written))
      ∧ (n = .icinv → runs (.icinvWrite g a) written) ∧ (n = .deadline → runs (.deadlineWrite g a) written)

/-- 22 R320, R321, 01 R12: `wdog` gives the old LEFT and sets it, at user level only downwards; `feat` and `speed` read a
core's words; `plset` at management level writes a place or permission entry of the cluster at a physical number, or of the
spare there, its running cores taking it up at their next boundary, or at once while injection is paused. That queries are answered within their instruction, and how
a physical number finds its cluster, is the model's reading (log entries 48, 49). -/
def Sys2Proof.Claims.QueriesAndTableWrites : Prop :=
  ∀ (s : State) (g : Guard) (d a b : Reg) (p : Place) (v : Word) (z : Bool) (clu : Nat),
    let w := s.seq.readS a
    let self := s.cur.1
    let left := s.my.csr.left
    let low := max 1 (min w.toNat 65535)
    let next := BitVec.ofNat 16 (if s.seq.level = .user then min left.toNat low else low)
    let speed (c : Core) : Word := BitVec.ofNat 64 (c.state.toNat * 2 ^ 14 + c.cur.val * 2 ^ 8 + c.bin.val)
    let queries : List (Instr × (Core → Word)) := [(.feat g d a, fun c => c.feat.setWidth 64), (.speed g d a, speed)]
    let tables : List (Instr × Nat) := [(.plsetPlace g d a b, 11), (.plsetPerm g d a b, 5)]
    let pcn := w.toNat % 4096
    let asPlace (k : Cluster) : Cluster := { k with place := Table.set k.place (w.toNat / 65536) ((s.seq.readS b).setWidth 16) }
    let asPerm (k : Cluster) : Cluster := { k with perm := Table.set k.perm (w.toNat / 65536) (s.seq.readS b) }
    let fits (e : Instr × Nat) : Prop := w.toNat / 4096 % 16 = 0 ∧ w.toNat / 2 ^ (16 + e.2) = 0
    (s.me.running = true → Completes (.wdog g d a) s
        ((if a.val = 0 then s else s.modMy fun t => { t with csr := { t.csr with left := next } }).modSeq
          (·.writeS d (left.setWidth 64))))
      ∧ (s.me.running = false → Completes (.wdog g d a) s (s.modSeq (·.writeS d 0)))
      ∧ (∀ e ∈ queries, (a.val = 0 → Completes e.1 s (s.modSeq (·.writeS d (e.2 s.me))))
          ∧ (a.val ≠ 0 → ∀ c, s.checkCore w.toNat = .error c → TrapsOpen e.1 s c)
          ∧ (a.val ≠ 0 → s.checkCore w.toNat = .ok self → Completes e.1 s (s.modSeq (·.writeS d (e.2 s.me))))
          ∧ (a.val ≠ 0 → s.checkCore w.toNat = .ok p → p ≠ self → s.seq.used = 0 →
              (s.seq.kept = [] → s.seq.out = none → s.meets e.1 → ∃ t, exec e.1 s = .next t ∧ t.seq.pc = s.seq.pc
                  ∧ t.seq.kept = [.word (e.2 (s.core p)) true] ∧ t.seq.out = none ∧ t.mem = s.mem)
                ∧ (s.seq.kept = [.word v z] → Completes e.1 s
                    ((s.modSeq fun c => { c with used := c.used + 1 }).modSeq (·.writeS d v)))))
      ∧ (∀ e ∈ tables, s.seq.level ≠ .management → exec e.1 s = .next (s.takeTrap .privileged none .none))
      ∧ (∀ e ∈ tables, ¬ fits e → Traps e.1 s .windowBounds w)
      ∧ (∀ e ∈ tables, fits e → 2303 < pcn → TrapsOpen e.1 s .placeInvalid)
      ∧ (pcn ≤ 2303 → s.pcnOf clu = some pcn →
          (fits (.plsetPlace g d a b, 11) → Completes (.plsetPlace g d a b) s
              (((s.keepTabs clu asPlace).modClus clu asPlace).modSeq (·.writeS d 0)))
            ∧ (fits (.plsetPerm g d a b, 5) → Completes (.plsetPerm g d a b) s
              (((s.keepTabs clu asPerm).modClus clu asPerm).modSeq (·.writeS d 0))))
      ∧ (pcn ≤ 2303 → (∀ c, s.pcnOf c ≠ some pcn) →
          let put (k : Cluster) : State := ({ s with spares := Table.set s.spares pcn k } : State).modSeq (·.writeS d 0)
          let k := Table.get Cluster.reset s.spares pcn
          (fits (.plsetPlace g d a b, 11) → Completes (.plsetPlace g d a b) s
              (put (asPlace k)))
            ∧ (fits (.plsetPerm g d a b, 5) → Completes (.plsetPerm g d a b) s
              (put (asPerm k))))
      ∧ (∀ q f, q / 8 = clu → (s.keepTabs clu f).core q =
          (if (s.core q).running = true ∧ (s.partOf q).paused = false then { s.core q with oldTabs := some (s.tabsOf q) }
            else { s.core q with oldTabs := (s.core q).oldTabs.map fun o =>
              let k := f { Cluster.reset with place := o.1, perm := o.2 }
              (k.place, k.perm) }))
      ∧ (∀ q f, q / 8 ≠ clu → (s.keepTabs clu f).core q = s.core q) ∧ ∀ (c : Core) n, (c.adopt n).oldTabs = none

/-- 00 R6, 01 R12, 07 R100, R101, R103, 22 R319, R320, R321: control registers, queries and table writes. -/
def Obligations.ControlRegistersQueriesAndTables : Prop :=
  Claims.ControlRegistersReadAndWrite ∧ Claims.QueriesAndTableWrites

/-- 22 R298, 03 R61: what a core's micro-kernel does with a trap of user level: a cause of the ending rows ends the
strand, or under DEBUGHOLD holds it where a slot is free; TRANSLATION, or a stream's
miss, parks it on its fault, its streams' buffers dropped; ENGINE-FAULT restarts or fails its command; DEADLINE records the miss and
returns; BREAK holds it and returns where no slot is free; a strand in want of a feature moves whole to the nearest core that meets it, once
the closes of its interval are acknowledged. Nothing
is done with a trap raised above user level, or while the strand's sequencer has returned. To end a strand (R207) leaves its core idle:
the reply it owes goes with status ABORT, its marks become poisoned, its launch carries FAULT, its record the cause, and its engine
commands go on. -/
def Obligations.MicroKernelActsOnEachCause : Prop :=
  ∀ (s : State) (p q : Place) (c : Cause) (d : Cmd) (st addr : Nat),
    let t := s.strand p
    let r := t.csr
    let u := s.microKernel p
    let pn := s.partNo p
    let at_ : SeqId := if r.cause.seq then .xs else .as
    let mine := (s.core p).running = true ∧ (t.seq at_).level = .supervisor ∧ r.cause.pprv = false
    let ending := c ∈ [Cause.illegalEncoding, .illegalSequencer, .fetchStraddle, .misalignedTarget, .privileged, .misalignedData,
      .windowBounds, .placeInvalid, .permission, .accessRights, .memoryConflict, .singularBlock, .refinement, .watchdog,
      .withheldAbort, .queueMisuse, .format] ∨ (c = .engineFault ∧ r.tval.getLsbD 63 = true)
      ∨ (c = .featureAbsent ∧ s.nearest p (t.act.freq ||| t.act.lack) = none) ∨ (c = .streamFault ∧ t.streamMiss = false)
    let held := ∃ x ∈ (u.part pn).parked, x.place = p ∧ x.st.act.sid = t.act.sid
    let free := ((s.backToUser p).part pn).freeSlot ≠ none
    (¬ mine → u = s)
      ∧ (mine → r.cause.code = BitVec.ofNat 8 c.code →
          (ending → (s.part pn).attrs.debugHold = false → u = s.killStrand p c)
            ∧ (ending → (s.part pn).attrs.debugHold = true → free → held ∧ (u.core p).running = false)
            ∧ (ending → (s.part pn).attrs.debugHold = true → ¬ free → u = s.killStrand p c)
            ∧ (c = .translation ∨ (c = .streamFault ∧ t.streamMiss = true) → (u.core p).parkedFault = true ∧ ((u.strand p).seq at_).level = .user ∧ u.mem = s.mem
                ∧ ((u.strand p).seq at_).pc = r.epcOf at_ ∧ (u.strand p).vec = t.vec.dropStreams)
            ∧ (c = .deadline → ((u.strand p).seq at_).level = .user ∧ ((u.strand p).seq at_).pc = r.epcOf at_
                ∧ (u.core p).running = true ∧ (u.strand p).csr.holdst.dlmiss = true ∧ u.mem = s.mem)
            ∧ (c = .brk → (free → held ∧ (u.core p).running = false) ∧ (¬ free → u = s.backToUser p))
            ∧ (c = .featureAbsent → s.nearest p (t.act.freq ||| t.act.lack) = some q → q ≠ p →
                let s1 := s.closeInterval p
                (s1.closing p = true → u = s1) ∧ (s1.closing p = false →
                  (u.core p).running = false ∧ ∃ x ∈ (u.part pn).parked, x.place = q ∧ x.st = { (s1.backToUser p).strand p with
                    vec := ((s1.backToUser p).strand p).vec.dropStreams } ∧ x.ready = true))
            ∧ (c = .engineFault → r.tval.getLsbD 63 = false → s.faulted p r.tval.toNat = some d → d.phase = .faulted st addr →
                phaseOf u d.id (if s.rangeResolved d st addr then .accepted else .landed st)
                  ∧ ((u.strand p).seq at_).level = .user ∧ u.mem = s.mem))
      ∧ (let v := s.killStrand p c;
          (v.core p).running = false ∧ v.mem = s.mem ∧ v.cmds = s.cmds
            ∧ (∀ o, t.act.owed = some o → ∃ k ∈ v.fab.net, k.src = p ∧ k.dst = o.place ∧ k.vn = .reply
                ∧ k.body = .reply o.rmb o.num true (List.replicate 6 0))
            ∧ (∀ m ∈ (s.part pn).marks, m.sid = t.act.sid → m.obj ∈ (v.part pn).pois)
            ∧ (∀ m ∈ (v.part pn).marks, m.sid ≠ t.act.sid)
            ∧ (∀ l, (s.part pn).launch = some l → l.prm.lid.toNat = t.act.lid → (v.part pn).launch.map (·.fault) = some true)
            ∧ LogRec.ended p t.act.sid c t.act.dlmiss ∈ v.logs)

/-! ## Events of the execution model -/

namespace Sys2Proof.Claims

/-- A strand that activation has started (03 R36, 07 R101): both parts at their entries with the payload, header and work
id in their registers, all else zero, and the control registers as given. -/
def Started (s u : State) (p : Place) (d : Desc) (hdr wid wfw : Word) (payload : List Word) (proc : BitVec 16) (lid : Nat)
    (dl : Word) (owed : Option Owed) : Prop :=
  let t := u.strand p
  let budget := BitVec.ofNat 16 (if d.wdogo = 0 then (s.partOf p).attrs.wdogDef else d.wdogo)
  (u.core p).running = true ∧ (u.core p).interval = 0 ∧ t.act.owed = owed ∧ t.act.lid = lid
    ∧ t.as.present = d.asv ∧ t.xs.present = d.xsv
    ∧ (∀ q, (t.seq q).present = true → (t.seq q).ended = false ∧ (t.seq q).level = .user ∧ (t.seq q).inTrap = false
        ∧ (t.seq q).pc = (if q = .as then d.asent else d.xsent)
        ∧ (∀ i : Fin 6, (t.seq q).readS (⟨i.val + 1, by omega⟩ : Reg) = payload.getD i.val 0)
        ∧ (t.seq q).readS 7 = hdr ∧ (t.seq q).readS 8 = wid ∧ (∀ r : Reg, 8 < r.val → (t.seq q).readS r = 0)
        ∧ (∀ k : Fin 8, k.val ≠ 0 → (t.seq q).readK k = 0) ∧ (t.seq q).lc0.count = 0 ∧ (t.seq q).lc1.count = 0)
    ∧ t.csr.hid = hdr ∧ t.csr.wid = wid ∧ t.csr.wfw = wfw ∧ t.csr.proc = proc ∧ t.csr.deadline = dl
    ∧ t.csr.budget = budget ∧ t.csr.left = budget ∧ t.csr.fpstat = 0 ∧ t.csr.fpmode = 0 ∧ t.csr.utvec = 0 ∧ t.csr.utmask = 0
    ∧ t.csr.tval = 0 ∧ (∀ j : Fin 32, t.vec.v[j] = Vector.replicate 32 0) ∧ t.vec.streams = []
    ∧ (∀ j : Fin 4, t.gmu.gb[j] = Gb.reset ∧ t.q.lq[j] = []) ∧ t.gmu.tau = 0x35800000 ∧ t.gmu.eps = 0 ∧ t.q.sq = []

/-- A candidate of an idle core (03 R39): what it is, its class, pass count and arrival, its place in the order within a class, and
what orders it there. -/
def stands (s : State) (p : Place) (c : Cand) : Prop :=
  let k := s.core p
  match c.what with
  | .resume sid => ∃ x ∈ (s.part (s.partNo p)).parked, x.place = p ∧ x.ready = true ∧ x.st.act.sid = sid
      ∧ c.cls = 0 ∧ c.pass = x.pass ∧ c.tick = x.since ∧ c.order = x.order ∧ c.group = 2 ∧ c.key = [x.order]
  | .cpl n => ∃ e ∈ k.work.cplq, e.ready = true ∧ e.cmd = n
      ∧ c.cls = 0 ∧ c.pass = e.pass ∧ c.tick = e.tick ∧ c.order = e.order ∧ c.group = 4 ∧ c.key = [e.tick, 0, e.order]
  | .inbox o => ∃ e ∈ k.work.inbox, s.spawnBlocks p e.msg.lid = false ∧ e.order = o
      ∧ c.cls = e.msg.hdr.toNat / 2 ^ 40 % 4 - e.up ∧ c.pass = e.pass ∧ c.tick = e.tick ∧ c.order = e.order ∧ c.group = 4
      ∧ c.key = [e.tick, 0, e.order]
  | .mbx i => s.spawnBlocks p (s.launchLid (s.partNo p)) = false ∧ ∃ m j tick order src res ver len, (i, m) ∈ k.objs.mbs
      ∧ s.mbxHandler p m ≠ none ∧ m.head = some (j, .filled tick order src res ver len false)
      ∧ (∀ g, m.gate = some g → (s.stash p g).full = false) ∧ m.aboveThreshold res = true
      ∧ c.cls = m.prio - m.up ∧ c.pass = m.pass ∧ c.tick = tick ∧ c.order = order
      ∧ (m.residual = true → c.group = 3 ∧ c.key = [2 ^ 32 - min (res.toNat % 2 ^ 31) 0x7F800001, tick, i])
      ∧ (m.residual = false → c.group = 4 ∧ c.key = [tick, 1, i])
  | .deque => ∃ t, k.work.deque.getLast? = some t ∧ s.spawnBlocks p t.lid = false
      ∧ c.cls = t.word0.toNat / 2 ^ 24 % 4 - t.up ∧ c.pass = t.pass ∧ c.tick = t.born ∧ c.order = 0 ∧ c.group = 5 ∧ c.key = []

/-- The order of R39: the lowest class; within a class the candidates passed over 256 times, oldest first; then resuming strands,
residual mailboxes, arrivals and the deque's entry, each by its own key. -/
def before (a b : Cand) : Prop :=
  let aged (c : Cand) : Prop := 256 ≤ c.pass
  a.cls < b.cls ∨ (a.cls = b.cls ∧
    ((aged a ∧ ¬ aged b)
      ∨ (aged a ∧ aged b ∧ (a.tick < b.tick ∨ (a.tick = b.tick ∧ a.order < b.order)))
      ∨ (¬ aged a ∧ ¬ aged b ∧ (a.group < b.group ∨ (a.group = b.group ∧ a.key < b.key)))))

/-- A pass count and the classes moved up, once passed over in a class (03 R40). -/
def passed (cls pass up : Nat) : Nat × Nat :=
  if pass + 1 < 256 then (pass + 1, up) else if cls = 0 then (256, up) else (0, up + 1)

end Sys2Proof.Claims

/-- 03 R35, R36, R39, R40, R44, R60, 10 R159: an idle core's handler boundary activates its best candidate, which stands before
every other in the order of R39, and each other of its class or a higher-numbered one is passed over once more; an inbox entry, a mailbox's head or the newest TCB
starts its handler's strand, and so does a completion; a parked strand resumes; a message whose handler is gone is discarded.
That a mailbox's strand runs under PROC0 and a completion's under its issuer's process (log entry 33), that STALE is then sent to the sender (log entry 50) and that a TCB's
features are not checked (log entry 51) is the model's reading. -/
def Obligations.ActivationStartsTheBestCandidate : Prop :=
  ∀ (s : State) (p q : Place) (k : Cand) (d : Desc) (e : InEntry) (t : Tcb) (i j tick order src n : Nat) (res ver : Lane) (x : Parked)
    (y : CplEntry) (c : Cmd),
    let pn := s.partNo p
    let s0 := (s.objs p).mbs.foldl (fun s e => s.logMbx p e.1) s
    let ks := s0.candidates p
    let ev := exec (.activation p) s
    let m := s.mbx p i
    let feats (f : BitVec 16) : Prop := f &&& ~~~ (s.core p).feat = 0
    let core := s.core p
    (s.mayActivate p = false → ev = .next s)
      ∧ (s.mayActivate p = true → ks = [] → ev = .next s0)
      ∧ (∀ c, c ∈ ks ↔ stands s0 p c)
      ∧ (s.mayActivate p = true → k ∈ ks → (∀ c ∈ ks, c ≠ k → before k c) → ev = .next ((s0.passOthers p ks k).activate p k))
      ∧ (let u := s0.passOthers p ks k
          let others (w : Pick) : List Cand := ks.filter fun c => decide (c.what = w) && decide (w ≠ k.what) && decide (k.cls ≤ c.cls)
          let w0 := (s0.core p).work
          let w1 := (u.core p).work
          u.mem = s0.mem
            ∧ (∀ (n : Nat) (e : InEntry), w0.inbox[n]? = some e → (others (.inbox e.order) = [] → w1.inbox[n]? = some e)
                ∧ ∀ c, others (.inbox e.order) = [c] → w1.inbox[n]? = some { e with
                    pass := (passed c.cls e.pass e.up).1, up := (passed c.cls e.pass e.up).2 })
            ∧ (∀ (n : Nat) (e : CplEntry), w0.cplq[n]? = some e → (others (.cpl e.cmd) = [] → w1.cplq[n]? = some e)
                ∧ ∀ c, others (.cpl e.cmd) = [c] → w1.cplq[n]? = some { e with pass := (passed 0 e.pass 0).1 })
            ∧ (∀ (n : Nat) (y : Parked), (s0.part pn).parked[n]? = some y →
                (others (.resume y.st.act.sid) = [] → (u.part pn).parked[n]? = some y)
                ∧ ∀ c, others (.resume y.st.act.sid) = [c] → (u.part pn).parked[n]? = some { y with pass := (passed 0 y.pass 0).1 })
            ∧ (∀ n, (others (.mbx n) = [] → u.mbx p n = s0.mbx p n)
                ∧ ∀ c, others (.mbx n) = [c] → u.mbx p n = { s0.mbx p n with
                    pass := (passed c.cls (s0.mbx p n).pass (s0.mbx p n).up).1, up := (passed c.cls (s0.mbx p n).pass (s0.mbx p n).up).2 })
            ∧ (others .deque = [] → w1.deque = w0.deque)
            ∧ ∀ c z, others .deque = [c] → w0.deque.getLast? = some z → w1.deque = w0.deque.dropLast ++ [{ z with
                pass := (passed c.cls z.pass z.up).1, up := (passed c.cls z.pass z.up).2 }])
      ∧ (k.what = .inbox e.order → core.work.inbox.find? (fun c => c.order == e.order) = some e →
          let u := s.activate p k
          (u.core p).work.inbox = core.work.inbox.filter (fun c => c.order != e.order)
            ∧ (s.handler pn p (hdrHidx e.msg.hdr) (hdrGen e.msg.hdr) = none → (u.core p).running = core.running
                ∧ ∃ r ∈ u.fab.net, r.src = p ∧ r.dst = e.sender ∧ r.vn = .reply ∧ r.body = .answer .as (.msg 2 0) ∧ r.sid = e.num)
            ∧ (s.handler pn p (hdrHidx e.msg.hdr) (hdrGen e.msg.hdr) = some d → feats d.freq → Started s u p d e.msg.hdr e.msg.wid
                e.msg.wfw e.msg.payload e.msg.proc e.msg.lid (d.deadline s.tick e.msg) e.msg.owes ∧ u.nextSid = s.nextSid + 1)
            ∧ (s.handler pn p (hdrHidx e.msg.hdr) (hdrGen e.msg.hdr) = some d → ¬ feats d.freq → s.nearest p d.freq = some q →
                (u.core p).running = core.running ∧ ∃ r ∈ u.fab.net, r.src = p ∧ r.dst = q ∧ r.vn = .amsg
                  ∧ r.body = .active { e.msg with pass := e.pass, up := e.up } none (some (e.sender, e.num))))
      ∧ (k.what = .cpl y.cmd → core.work.cplq.find? (fun z => z.cmd == y.cmd) = some y → s.cmd y.cmd = some c →
          s.handler pn p (c.word 4 2) (c.word 6 1) = some d → feats d.freq →
          let u := s.activate p k
          Started s u p d (u.strand p).csr.hid c.wid c.wfw
              [BitVec.ofNat 64 y.stat, BitVec.ofNat 64 c.xid, BitVec.ofNat 64 (c.eng.pblk.toNat * 16), 0, 0, 0] c.proc c.lid 0 none
            ∧ (u.strand p).csr.xferid = BitVec.ofNat 32 c.xid ∧ (u.strand p).csr.hid.toNat % 65536 = c.eng.place.toNat
            ∧ (u.core p).work.cplq = core.work.cplq.filter (fun z => z.cmd != y.cmd))
      ∧ (k.what = .deque → core.work.deque.getLast? = some t → s.handler pn p t.hidx t.gen = some d →
          let u := s.activate p k
          Started s u p d (u.strand p).csr.hid t.wid t.wfw t.payload t.proc t.lid 0 none
            ∧ (let n := core.work.deque.length - 1
               let o := core.work.overflow.length
               (16 < n ∨ o = 0 → (u.core p).work.deque = core.work.deque.dropLast)
                 ∧ (n ≤ 16 → (u.core p).work.deque.length = min 24 (n + o)))
            ∧ (t.src < 65536 → ((u.strand p).csr.hid.toNat % 65536 = t.src ∧ hdrHidx (u.strand p).csr.hid = t.hidx
                ∧ hdrGen (u.strand p).csr.hid = t.gen ∧ (u.strand p).csr.hid.getLsbD 44 = true)))
      ∧ (k.what = .mbx i → s.mbxHandler p m = some d → m.head = some (j, .filled tick order src res ver n false) →
          let u := s.activate p k
          u.mbx p i = { m.take j with pass := 0, up := 0 }
            ∧ Started s u p d (u.strand p).csr.hid 0 (s.launchWfw pn)
              (if m.stage = none then [BitVec.ofNat 64 i, BitVec.ofNat 64 (m.offset j), 0, 0, 0, 0] else s.slotPayload p (m.offset j))
              (s.part pn).attrs.proc0 (s.launchLid pn) 0 none)
      ∧ (k.what = .resume x.st.act.sid → (s.part pn).parked.find? (fun y => y.st.act.sid == x.st.act.sid) = some x →
          feats x.st.act.freq →
          let u := s.activate p k
          let v := u.strand p
          (u.core p).running = true ∧ (u.core p).interval = core.interval + 1 ∧ v.as = x.st.as ∧ v.xs = x.st.xs ∧ v.q = x.st.q ∧ v.vec = x.st.vec ∧ v.mat = x.st.mat
            ∧ v.gmu = x.st.gmu ∧ v.csr.fpstat = x.st.csr.fpstat ∧ v.csr.deadline = x.st.csr.deadline
            ∧ (x.hold ≠ 0 → v.csr.holdst.rsm = true ∧ (v.csr.holdst.pois = true ↔ ∃ o ∈ x.awaits, s.poisoned pn o = true))
            ∧ (∀ y ∈ (u.part pn).parked, y.st.act.sid ≠ x.st.act.sid) ∧ u.mem = s.mem)

/-- 03 R46: stealing. An idle cluster asks the adjacent cluster with the highest reported figure, or the farther ones in turn; a victim
ships min(8, ⌈n/2⌉) TCBs, its oldest, and keeps them in transit until acknowledged; a thief takes a shipment once; after 4,096 ticks
the victim asks, and takes the TCBs back if they did not arrive. No TCB is lost or made; one that moves takes the persistent
regions of its handler with it (R37). The order of the search beyond the neighbours and where returned TCBs go is the model's
reading (log entry 53). -/
def Sys2Proof.Claims.StealingMovesTasks : Prop :=
  ∀ (s : State) (clu v src dst : Nat) (k : Packet) (number : Nat) (tcbs : List Tcb) (x : Shipment) (vs : List Nat) (got : Bool),
    let t := s.partOf (clu * 8)
    let st := (s.clus clu).steal
    let rep (n : Nat) : Nat := Table.get 0 st.reports n
    let free := st.asked = false ∧ st.retryAt ≤ s.tick ∧ t.holds? clu = true ∧ t.switching = false ∧ t.dead = false
      ∧ s.idleForStealing clu = true
    let asks (u : State) (v : Nat) : Prop := (u.clus clu).steal.asked = true ∧ u.mem = s.mem
      ∧ ∃ y ∈ u.fab.net, y.src = clu * 8 ∧ y.dst = v * 8 ∧ y.vn = .mgmt ∧ y.body = .stealReq
    let unstarted (u : State) (p : Place) : List Tcb := (u.core p).work.overflow ++ (u.core p).work.deque
    let bare (t : Tcb) : Tcb := { t with regions := [] }
    let pool (u : State) : List Tcb := (List.range 8).flatMap fun i => unstarted u (dst / 8 * 8 + i)
    let flat := ∀ i < 8, (s.core (dst / 8 * 8 + i)).work.overflow = []
    let p := clu * 8 + number % 8
    let mgmt (b : Body) : Prop := s.nextPacket src dst .mgmt = some k ∧ k.body = b
    let reply (b : Body) : Prop := s.nextPacket src dst .reply = some k ∧ k.body = b
    let gone (w : Work) : List Shipment := w.shipments.filter fun y => y.number != number
    let back := ((s.core dst).work.shipments.filter fun y => y.number == number).flatMap (·.tcbs)
    (¬ free → exec (.stealRequest clu) s = .next s)
      ∧ (free → v ∈ t.adjacent clu → 0 < rep v → (∀ n ∈ t.adjacent clu, n ≠ v → rep n < rep v ∨ (rep n = rep v ∧ v < n)) →
          ∃ u, exec (.stealRequest clu) s = .next u ∧ asks u v)
      ∧ (free → (∀ n ∈ t.adjacent clu, rep n = 0) → t.farther clu = v :: vs → ∃ u, exec (.stealRequest clu) s = .next u ∧ asks u v
          ∧ (u.clus clu).steal.distance = 1 ∧ (u.clus clu).steal.retryAt = s.tick + 64)
      ∧ (st.asked = true → st.retryAt ≠ 0 → st.retryAt ≤ s.tick → s.idleForStealing clu = true → (t.farther clu)[st.distance]? = some v →
          ∃ u, exec (.stealRetryTimer clu) s = .next u ∧ asks u v ∧ (u.clus clu).steal.distance = st.distance + 1)
      ∧ (st.asked = true → st.retryAt ≠ 0 → st.retryAt ≤ s.tick → (s.idleForStealing clu = false ∨ (t.farther clu)[st.distance]? = none) →
          ∃ u, exec (.stealRetryTimer clu) s = .next u ∧ (u.clus clu).steal.asked = false ∧ u.fab = s.fab)
      ∧ (s.tick < st.retryAt → exec (.stealRetryTimer clu) s = .next s)
      ∧ (mgmt .stealReq → ∃ u n ts, exec (.stealRequestArrival src dst) s = .next u
          ∧ ts.length = min 8 (((pool s).length + 1) / 2) ∧ (pool s).length = (pool u).length + ts.length
          ∧ (flat → (∀ a, ((pool s).map bare).count a = ((pool u).map bare).count a + (ts.map bare).count a)
              ∧ ∀ i < 8, unstarted u (dst / 8 * 8 + i) <:+ unstarted s (dst / 8 * 8 + i))
          ∧ (ts ≠ [] → ⟨src, n, ts, s.tick⟩ ∈ (u.core dst).work.shipments)
          ∧ ∃ y ∈ u.fab.net, y.src = dst ∧ y.dst = src ∧ y.vn = .mgmt ∧ y.body = .shipment n ts)
      ∧ (mgmt (.shipment number tcbs) → ∃ u, exec (.stealShipment src dst) s = .next u
          ∧ (∃ y ∈ u.fab.net, y.src = dst ∧ y.dst = src ∧ y.vn = .reply ∧ y.body = .shipAck number)
          ∧ ((src, number) ∈ (s.core dst).work.accepted → (u.core dst).work = (s.core dst).work)
          ∧ ((src, number) ∉ (s.core dst).work.accepted → (src, number) ∈ (u.core dst).work.accepted
              ∧ (∀ a, (unstarted u dst).count a = (unstarted s dst).count a + (tcbs.map bare).count a)
              ∧ ((s.core dst).work.deque.length < 32 → ∀ c b bytes, tcbs = [c] → c.regions = [(b, bytes)] →
                  u.mem = Memory.setAll s.mem ((span (Key.cp dst b) bytes.length).zip bytes))))
      ∧ (reply (.shipAck number) → ∃ u, exec (.stealAck src dst) s = .next u
          ∧ (u.core dst).work = { (s.core dst).work with shipments := gone (s.core dst).work })
      ∧ ((s.core p).work.shipments.find? (fun y => y.number == number) = some x →
          (s.tick < x.sent + 4096 → exec (.transitTimeout clu number) s = .next s)
            ∧ (x.sent + 4096 ≤ s.tick → ∃ u, exec (.transitTimeout clu number) s = .next u ∧ unstarted u p = unstarted s p
              ∧ ∃ y ∈ u.fab.net, y.src = p ∧ y.dst = x.thief ∧ y.vn = .mgmt ∧ y.body = .shipQuery number))
      ∧ (mgmt (.shipQuery number) → ∃ u, exec (.transitQueryAnswer src dst) s = .next u ∧ (u.core dst).work = (s.core dst).work
          ∧ ∃ y ∈ u.fab.net, y.src = dst ∧ y.dst = src ∧ y.vn = .reply
            ∧ y.body = .shipKnown number ((s.core dst).work.accepted.contains (src, number)))
      ∧ (reply (.shipKnown number got) → s.nextPacket src dst .mgmt = none → ∃ u, exec (.transitQueryAnswer src dst) s = .next u
          ∧ (got = true → (u.core dst).work = { (s.core dst).work with shipments := gone (s.core dst).work })
          ∧ (got = false → (u.core dst).work.shipments = gone (s.core dst).work
              ∧ (unstarted u dst).length = (unstarted s dst).length + back.length
              ∧ (16 < (s.core dst).work.deque.length → (u.core dst).work.deque = (s.core dst).work.deque
                  ∧ (u.core dst).work.overflow = (s.core dst).work.overflow ++ back.map bare)))

/-- 03 R47, 20 R285: the exchange of a partition is due every 1,024 ticks; each core's figure is then its unstarted TCBs; a
core above its lowest neighbour by more than the threshold ships half the difference; a pipeline's distributor moves members
between the stages of lowest and highest pressure within their bounds. That all of it is one event is the model's choice (log
entry 54). -/
def Sys2Proof.Claims.LoadIsExchangedAndAveraged : Prop :=
  ∀ (s : State) (pn : Nat) (p q : Place) (h l : Nat × Stage),
    let due := (s.part pn).exchangeAt ≤ s.tick
    let fig (c : Place) : Nat := (s.core c).work.figure
    let d := fig p - fig q
    let near := s.exchangeWith p
    let qs := s.moved pn h l
    let dp := h.2.pressure - l.2.pressure
    (¬ due → exec (.loadExchange pn) s = .next s)
      ∧ (due → ∃ u, exec (.loadExchange pn) s = .next u ∧ (u.part pn).exchangeAt = s.tick + 1024 ∧ u.mem = s.mem
          ∧ (∀ c, u.strand c = s.strand c)
          ∧ ∀ c ∈ (s.part pn).coresOf, (u.core c).work.figure = min 65535 ((s.core c).work.deque.length + (s.core c).work.overflow.length))
      ∧ (near = [] → s.average p = s)
      ∧ (q ∈ near → (∀ c ∈ near, c ≠ q → fig q < fig c ∨ (fig q = fig c ∧ q < c)) →
          (d ≤ (s.partOf p).attrs.avgThr → s.average p = s)
            ∧ ((s.partOf p).attrs.avgThr < d → d / 2 ≤ (s.core p).work.deque.length →
                (s.core p).work.overflow = [] →
                ∃ n ts, ts.length = d / 2
                ∧ ((s.average p).core p).work.deque = (s.core p).work.deque.drop (d / 2)
                ∧ ((s.average p).core p).work.overflow = []
                ∧ ts = ((s.core p).work.deque.take (d / 2)).map (s.packed p)
                ∧ ∃ y ∈ (s.average p).fab.net, y.src = p ∧ y.dst = q ∧ y.vn = .mgmt ∧ y.body = .shipment n ts))
      ∧ (dp ≤ 64 → qs = [])
      ∧ (∀ c ∈ qs, c ∈ l.2.pool ∧ s.movable pn l h c = true)
      ∧ qs.length ≤ l.2.pool.length - l.2.lo ∧ qs.length ≤ h.2.hi - h.2.pool.length
      ∧ qs.length ≤ max 1 ((l.2.pool.length + h.2.pool.length) * dp / 1024)

/-- 03 R37, R46, R47, 20 R285: stealing, and the exchange of load. -/
def Obligations.WorkIsBalanced : Prop :=
  Claims.StealingMovesTasks ∧ Claims.LoadIsExchangedAndAveraged

/-- 03 R42, R43, R51, R52: the next launch of the current tenant starts when none runs; its root reaches its core's inbox, again after
each hint, and a root discarded or denied on its way completes the launch with that status; two high samples of the idle tree 4,096 fabric cycles apart complete the launch and end what it declared; a
post is checked and queued. The order of a post's checks (log entry 56), the gap of 316 ticks (log entry 57) and how a launch
ends whose spawn got no page (log entry 58) are the model's reading. -/
def Obligations.LaunchesStartAndComplete : Prop :=
  ∀ (s : State) (pn src dst : Nat) (l : Launch) (ls : List Launch) (k : Packet) (m : Msg) (q : SeqId) (d : Desc) (fn : HostFn)
    (head : Nat) (tag : BitVec 32) (t0 : Nat) (bs : List Byte) (tn : Tenant),
    let t := s.part pn
    let root := l.prm.root.toNat
    let ev := exec (.rootDelivery pn) s
    let inbox := (s.core root).work.inbox
    let due := t.launch = some l ∧ l.delivered = false ∧ l.rootTick ≤ s.tick ∧ s.partNo root = pn
    let hd := s.handler pn root l.prm.hidx.toNat l.prm.gen.toNat
    let sample := exec (.idleTreeSample pn) s
    let set (l : Launch) : State := s.modPart pn fun t => { t with launch := some l }
    let blk := (m.payload.getD 0 0).toNat
    let post := s.nextPacket src dst .amsg = some k ∧ k.body = .post m (some q)
    let told (u : State) (stat hint : Nat) : Prop := exec (.launchServicePost src dst) s = .next u
      ∧ ∃ r ∈ u.fab.net, r.src = k.dst ∧ r.dst = k.src ∧ r.vn = .reply ∧ r.body = .answer q (.msg stat hint)
    (t.launch = none → t.switching = false → t.usageFull = false → Table.find t.tenants t.tenant = some tn → tn.queue = l :: ls →
        s.tick < l.rootTick → ∃ u, ev = .next u ∧ (u.part pn).launch = some l
          ∧ (Table.find (u.part pn).tenants t.tenant).map (·.queue) = some ls)
      ∧ (t.launch = none → (t.switching = true ∨ t.usageFull = true) → ev = .next s)
      ∧ (due → hd = some d → d.freq &&& ~~~ (s.core root).feat = 0 → inbox.length < 64 → ∃ u e, ev = .next u
          ∧ (u.part pn).launch = some { l with delivered := true } ∧ (u.core root).work.inbox = inbox ++ [e]
          ∧ e.msg.payload = l.prm.payload ∧ e.msg.wid = l.prm.wid ∧ e.msg.wfw = l.prm.wfw ∧ e.msg.dl = l.prm.dl
          ∧ e.msg.proc = t.attrs.proc0 ∧ e.msg.lid = l.prm.lid.toNat ∧ hdrHidx e.msg.hdr = l.prm.hidx.toNat
          ∧ hdrGen e.msg.hdr = l.prm.gen.toNat ∧ e.msg.hdr.getLsbD 45 = true ∧ u.mem = s.mem)
      ∧ (due → hd = some d → d.freq &&& ~~~ (s.core root).feat = 0 → 64 ≤ inbox.length → ∃ u, ev = .next u
          ∧ (u.part pn).launch = some { l with rootTick := s.tick + (s.core root).hint } ∧ (u.core root).work.inbox = inbox)
      ∧ (due → hd = none → l.by_ = .host fn head tag → ∃ u, ev = .next u ∧ (u.part pn).launch = none
          ∧ (⟨fn, head, tag, true, 15, 0, 0, l.prm.lid.toNat, []⟩ : Result) ∈ u.host.results)
      ∧ (∀ fe a, fe / 16384 = 2 → s.answerFor fe q = some (k, a) → k.part = pn → t.launch = some l → l.rootNum = k.sid →
          l.by_ = .host fn head tag → a = .msg 2 0 ∨ a = .msg 3 0 → ∃ u, exec (.answerArrival fe q) s = .next u ∧ (u.part pn).launch = none
            ∧ ∃ r ∈ u.host.results, r.fn = fn ∧ r.tag = tag ∧ r.status = (if a = .msg 2 0 then 15 else 2) ∧ r.flags = 0
              ∧ r.lid = l.prm.lid.toNat)
      ∧ (t.launch = none → sample = .next s)
      ∧ (t.launch = some l → (l.delivered = false ∨ s.wires pn = false) → sample = .next (set { l with sampled := none }))
      ∧ (t.launch = some l → l.delivered = true → s.wires pn = true →
          (l.sampled = none → sample = .next (set { l with sampled := some s.tick }))
            ∧ (l.sampled = some t0 → s.tick < t0 + 316 → sample = .next s)
            ∧ (l.sampled = some t0 → t0 + 316 ≤ s.tick → ∃ u, sample = .next u ∧ (u.part pn).launch = none
                ∧ (u.part pn).marks = [] ∧ (u.part pn).pois = [] ∧ (u.part pn).stages = []
                ∧ (∀ p ∈ t.coresOf, (u.objs p).stashes = [] ∧ ∀ e ∈ (u.objs p).mbs, e.2.stage = none)
                ∧ (l.by_ = .host fn head tag → ∃ r ∈ u.host.results, r.fn = fn ∧ r.head = head ∧ r.tag = tag ∧ r.written = true
                    ∧ r.status = (if l.translation then 6 else 0) ∧ r.lid = l.prm.lid.toNat ∧ r.count = s.unfired pn
                    ∧ (r.flags % 2 = 1 ↔ 0 < s.unfired pn))))
      ∧ (post → ((m.hdr.getLsbD 47 = true ∨ blk % 64 ≠ 0) ∨ s.readGv k.part m.proc src blk 128 = none) → ∃ u, told u 3 0)
      ∧ (post → m.hdr.getLsbD 47 = false → blk % 64 = 0 → s.readGv k.part m.proc src blk 128 = some bs →
          Table.find (s.part k.part).tenants (s.part k.part).tenant = some tn →
          (64 ≤ tn.queue.length → ∃ u, told u 1 16)
            ∧ (tn.queue.length < 64 → s.launchStatus k.part (blockParams (leOf bs)) = none → ∃ u, told u 0 0
                ∧ ∃ x, (Table.find (u.part k.part).tenants (s.part k.part).tenant).map (·.queue) = some (tn.queue ++ [x])
                  ∧ x.prm = blockParams (leOf bs)))

/-- 03 R60, R61, R45, 22 R299, R300: a deadline that passes records its miss where DEADLINE is not enabled and raises it where it is, to the
supervisor while a user trap is open (22 R295);
a wait's time-out lets its instruction run; WATCHDOG is taken by the lead sequencer; LEFT counts units of 1,024 cycles; the
memory service's answer lets a parked strand or a stalled `spawn` go on, or ends the strand, and for a stalled `spawn` every strand of
its launch, which then completes with status TRANSLATION at the idle tree. How time passes (log entry 6), that a launch without its
page ends its strands at once (log entry 58) and that a time-out puts its sequencer's turn on the agenda (log entry 60) are the model's
choices. -/
def Obligations.TimersRunOut : Prop :=
  ∀ (s : State) (p : Place) (q : SeqId) (w : Wait) (o : ObjRef) (c : Core) (b : Word) (x : Tcb)
    (l : Launch),
    let t := s.strand p
    let r := t.csr
    let lead : SeqId := if t.as.present = true ∧ t.as.ended = false then .as else .xs
    let due := (s.core p).running = true ∧ r.deadline ≠ 0 ∧ r.deadline.toNat ≤ s.tick ∧ t.act.dlPassed = false
    let ev := exec (.deadlinePass p) s
    let late := min (s.tick - r.deadline.toNat) (2 ^ 32 - 1)
    let cycles := c.st.csr.cyc + 208 + c.cur.val
    let timed := s.waitOf p q = some w ∧ w.why = .object o ∧ w.left = some 0 ∧ s.withheld (s.partNo p) o = false
    (¬ due → ev = .next s)
      ∧ (due → r.utmask.getLsbD 17 = false → t.act.pend = [] → ∃ u, ev = .next u ∧ (u.strand p).csr.holdst.dlmiss = true
          ∧ (u.strand p).csr.holdst.late.toNat = late ∧ (u.strand p).act.dlmiss = true ∧ (u.strand p).act.dlPassed = true
          ∧ (u.strand p).as = t.as ∧ (u.strand p).xs = t.xs ∧ u.mem = s.mem)
      ∧ (due → r.utmask.getLsbD 17 = true → t.act.pend = [] → s.coreRuns p = true → (t.seq lead).level = .user → (t.seq lead).inArray = false →
          r.cause.udel = false →
          r.utvec ≠ 0 → r.utvec.toNat < s.codeSize p → ∃ u, ev = .next u ∧ (u.strand p).csr.cause = ⟨false, true, lead == .xs, 0x11⟩
            ∧ (u.strand p).csr.tval = r.deadline ∧ ((u.strand p).seq lead).pc = r.utvec.toNat ∧ (u.strand p).act.dlPassed = true)
      ∧ (due → r.utmask.getLsbD 17 = true → t.act.pend = [] → s.coreRuns p = true → (t.seq lead).level = .user → (t.seq lead).inArray = false →
          r.cause.udel = true →
          ∃ u, ev = .next u ∧ (u.strand p).csr.cause = ⟨false, true, lead == .xs, 0x11⟩ ∧ (u.strand p).csr.tval = r.deadline
            ∧ ((u.strand p).seq lead).level = .supervisor ∧ ((u.strand p).seq lead).pc = (s.core p).stvec.toNat
            ∧ (u.strand p).act.dlPassed = true)
      ∧ ((∀ e ∈ t.act.pend, e.2.1 ≠ .watchdog) → exec (.watchdog p) s = .next s)
      ∧ (t.act.pend = [(lead, .watchdog, b)] → s.coreRuns p = true → (t.seq lead).level = .user → ∃ u, exec (.watchdog p) s = .next u
          ∧ (u.strand p).csr.cause = ⟨false, r.cause.udel, lead == .xs, 0x10⟩ ∧ (u.strand p).csr.tval = b
          ∧ ((u.strand p).seq lead).level = .supervisor ∧ ((u.strand p).seq lead).pc = (s.core p).stvec.toNat
          ∧ (u.strand p).act.pend = [])
      ∧ (c.counts = false → c.tickWatchdog = c)
      ∧ (c.counts = true → cycles < 16384 → c.tickWatchdog.st.csr = { c.st.csr with cyc := cycles } ∧ c.tickWatchdog.st.act = c.st.act)
      ∧ (c.counts = true → 16384 ≤ cycles → c.st.csr.left ≠ 0 →
          c.tickWatchdog.st.csr = { c.st.csr with cyc := cycles - 16384, left := c.st.csr.left - 1 }
            ∧ (c.st.csr.left = 1 → c.tickWatchdog.st.act.pend = c.st.act.pend ++ [(c.st.lead, .watchdog, c.st.csr.budget.setWidth 64)])
            ∧ (c.st.csr.left ≠ 1 → c.tickWatchdog.st.act = c.st.act))
      ∧ (timed → exec (.waitTimeout p q) s = .next { s with agenda := .run p q :: s.agenda })
      ∧ (s.waitOf p q = none → exec (.waitTimeout p q) s = .next s)
      ∧ ((s.core p).parkedFault = true →
          (t.act.freq &&& ~~~ (s.core p).feat = 0 →
              exec (.pageServiceAnswer p true) s = .next (s.modCore p fun c => { c with parkedFault := false }))
            ∧ ((s.partOf p).attrs.debugHold = false → exec (.pageServiceAnswer p false) s =
              .next (s.killStrand p (if r.cause.code = 0x15 then .streamFault else .translation))))
      ∧ ((s.core p).parkedFault = false → s.stalledSpawn p = some (q, x) → (s.part (s.partNo p)).launch = some l →
          ∃ u, exec (.pageServiceAnswer p false) s = .next u ∧ (u.core p).running = false
            ∧ (u.part (s.partNo p)).launch.map (·.translation) = some true
            ∧ (∀ c ∈ (s.part (s.partNo p)).coresOf, (u.core c).running = true → (u.strand c).act.lid ≠ l.prm.lid.toNat)
            ∧ ∀ y ∈ (u.part (s.partNo p)).parked, y.st.act.lid ≠ l.prm.lid.toNat)
      ∧ ((s.core p).parkedFault = false → s.stalledSpawn p = none → ∀ y, exec (.pageServiceAnswer p y) s = .next s)
      ∧ ((s.core p).parkedFault = false → s.stalledSpawn p = some (q, x) → s.overflowMapped p = true →
          ∃ u, exec (.pageServiceAnswer p true) s = .next u ∧ x ∈ (u.core p).work.deque ∧ (u.seqAt p q).pc = ((s.seqAt p q).endRule 8).pc
            ∧ (u.seqAt p q).wait = none)

/-! ## The ordering machine and the mesh -/

/-- 16 R237, R238, R241, R242: the conflict recorder of each bank (which byte lies in which bank is log 96). A byte of an open entry of another
party whose kind clashes raises MEMORY-CONFLICT at the lowest such address; reads and reads, and atomics and atomics, do not clash; nor does a
party with itself. An access that passes opens or widens its party's entry of each line, and waits where a line holds four; an entry that has
both kinds becomes one of writes. The barrier area of a CP is never checked nor recorded. -/
def Sys2Proof.Claims.ConflictsAreFoundByteByByte : Prop :=
  ∀ (s u : State) (a : Access) (ks : List Nat) (k v : Nat) (e : LineEntry),
    let barrier (k : Nat) : Prop := k < 2 ^ 64 ∧ k / 2 ^ 28 % 64 = 0 ∧ 0xFC00 ≤ k % 2 ^ 28
    let clashes (k : AccKind) (j : AccKind) : Prop := ¬ (k = .r ∧ j = .r) ∧ ¬ (k = .a ∧ j = .a)
    let bank (k : Nat) : Home := match a.home with
      | .cp p _ => .cp p (k % 2 ^ 28 / 64 % s.cpBanks)
      | .cm clu _ => .cm clu (k % 2 ^ 28 / 64 % 32)
      | h => h
    let hit (k : Nat) : Prop := ¬ barrier k
      ∧ ((∃ e ∈ s.fab.lines, e.home = bank k ∧ e.line = k / 64 ∧ e.party ≠ a.party ∧ e.mask.getLsbD (k % 64) = true ∧ clashes a.kind e.kind)
        ∨ ∃ e ∈ s.fab.ranges, e.home = bank k ∧ Party.cmd e.cmd ≠ a.party ∧ e.lo ≤ k ∧ k < e.hi ∧ clashes a.kind e.kind)
    let mine (k : Nat) (e : LineEntry) : Prop := e.home = bank k ∧ e.line = k / 64 ∧ e.party = a.party
    (s.checked a ks = .error v → (∃ j, ∃ h : j < ks.length, hit ks[j] ∧ v = a.addrOf j)
        ∧ ∀ j, ∀ h : j < ks.length, hit ks[j] → v ≤ a.addrOf j)
      ∧ ((∃ k ∈ ks, hit k) → ∃ v, s.checked a ks = .error v)
      ∧ ((∀ k ∈ ks, ¬ hit k) → a.range = none →
          (s.checked a ks = .ok (some u) → u.mem = s.mem ∧ u.fab.ranges = s.fab.ranges
              ∧ (∀ k ∈ ks, ¬ barrier k → ∃ e ∈ u.fab.lines, mine k e ∧ e.mask.getLsbD (k % 64) = true)
              ∧ ∀ e ∈ u.fab.lines, e ∉ s.fab.lines → e.home = bank (64 * e.line) ∧ e.party = a.party ∧ e.interval = a.interval
                  ∧ (e.kind = a.kind ∨ e.kind = .w))
            ∧ ((∀ j ∈ ks, j / 64 = k / 64) → k ∈ ks → ¬ barrier k → (∀ e ∈ s.fab.lines, ¬ mine k e) →
                (4 ≤ (s.fab.lines.filter fun e => e.home == bank k && e.line == k / 64).length ↔ s.checked a ks = .ok none)))
      ∧ (∀ r, (∀ k ∈ ks, ¬ hit k) → a.range = some r →
          (r ∈ s.fab.ranges → s.checked a ks = .ok (some s))
            ∧ (r ∉ s.fab.ranges → 64 ≤ (s.fab.ranges.filter fun e => e.home == r.home).length → s.checked a ks = .ok none)
            ∧ (r ∉ s.fab.ranges → (s.fab.ranges.filter fun e => e.home == r.home).length < 64 →
                s.checked a ks = .ok (some { s with fab := { s.fab with ranges := s.fab.ranges ++ [r] } })))
      ∧ (a.op = .close v → ∃ t, s.applyAccess a = .done t (.data []) ∧ t.mem = s.mem
          ∧ (e ∈ t.fab.lines ↔ e ∈ s.fab.lines ∧ ¬ (e.home = a.home ∧ e.party = a.party ∧ e.interval ≤ v)))

/-- 10 R164, 22 R293: `enq` and `deq` at their owner, in one step: a control block out of bounds raises WINDOW-BOUNDS; one that reaches a CP's
supervisor region or barrier area from user level raises ACCESS-RIGHTS; a full or an empty ring answers 0, changes nothing and touches no slot; otherwise the
entry is stored or read and TAIL or HEAD advances. -/
def Sys2Proof.Claims.RingsEnqueueAndDequeue : Prop :=
  ∀ (s u : State) (a : Access) (pn k addr win v : Nat) (b : Word) (global deq : Bool),
    let word (o : Nat) : Nat := leOf (Memory.getAll s.mem (span (k + o) 8))
    let head := word 0
    let tail := word 8
    let cap := word 16
    let size := 32 + 8 * cap
    let count := (tail + 2 ^ 64 - head) % 2 ^ 64
    let placed := if global then addr / 4096 = (addr + size - 1) / 4096 else addr % win + size ≤ win
    let good := 0 < cap ∧ cap ≤ 4096 ∧ count ≤ cap ∧ placed
    let slot := k + 32 + 8 * ((if deq then head else tail) % cap)
    let open_ : Bool := if deq then decide (tail ≠ head) else decide (count < cap)
    let ks := span k 32 ++ (if open_ then span slot 8 else [])
    let barred := s.userAccess a = true ∧ ∃ j ∈ ks, j < 2 ^ 64 ∧ j / 2 ^ 28 % 64 = 0 ∧ 0xEC00 ≤ j % 2 ^ 28
    let now (t : State) (o : Nat) : Nat := leOf (Memory.getAll t.mem (span (k + o) 8))
    let run := s.performRing a pn deq b k addr win global
    Memory.wf s.mem = true →
      (¬ good → run = .done s (.trap .windowBounds (BitVec.ofNat 64 addr)))
        ∧ (good → barred → run = .done s (.trap .accessRights (BitVec.ofNat 64 addr)))
        ∧ (good → ¬ barred → s.checked a ks = .error v → run = .done s (.trap .memoryConflict (BitVec.ofNat 64 v)))
        ∧ (good → ¬ barred → s.checked a ks = .ok none → run = .blocked)
        ∧ (good → ¬ barred → s.checked a ks = .ok (some u) → ∃ t ans ok, run = .done t (.word ans ok)
            ∧ (deq = true → head = tail → ok = false ∧ ans = 0 ∧ t.mem = s.mem)
            ∧ (deq = true → head ≠ tail → ok = true ∧ ans.toNat = leOf (Memory.getAll s.mem (span slot 8))
                ∧ now t 0 = (head + 1) % 2 ^ 64 ∧ now t 8 = tail)
            ∧ (deq = false → cap ≤ count → ok = false ∧ t.mem = s.mem)
            ∧ (deq = false → count < cap → ok = true ∧ now t 8 = (tail + 1) % 2 ^ 64 ∧ now t 0 = head
                ∧ leOf (Memory.getAll t.mem (span slot 8)) = b.toNat)
            ∧ ∀ j, j ∉ ks → Memory.get t.mem j = Memory.get s.mem j)

/-- 10 R163, R164, R165, 16 R236, R244, R245, 22 R293: the atomics of memory and their units, and the rings. -/
def Obligations.AtomicsAndRings : Prop :=
  Claims.AtomicsTakeTheirAnswer ∧ Claims.AtomicUnitsDoTheirOperations ∧ Claims.RingsEnqueueAndDequeue

/-- 16 R232, R234, R235, R240, R249, 01 R27, 10 R138, R142: the events of the ordering machine. Dispatch keeps each path's order and sends an
access that leaves its cluster over the mesh with a number; a home arbiter takes the head of a path buffer once it has arrived and no earlier
access of its source and path stands at a home of its bytes, or leaves it, a station only of the partition it serves next; the answer reaches who
awaits it, over REPLY where the access travelled, and a waiting instruction goes on; the end of an interval sends a close to every home of its
filter, or, where that overflowed, to every home of the partition and every station (log 121); replicas apply stamped writes in stamp order, and
the commit needs all. -/
def Sys2Proof.Claims.HomesTakeAccessesInOrder : Prop :=
  ∀ (s z s1 : State) (p c : Place) (path : Path) (h : Home) (a : Access) (ans : Answer) (q : SeqId) (i : Fin 4) (num j stack iv : Nat)
    (req : LoadReq) (bs : List Byte) (f : Fault) (w : ReplWrite) (ws : List ReplWrite),
    let issued := s.fab.issue.find? fun a => a.src == p && a.path == path
    let head := s.fab.bufs.find? fun a => a.src == p && a.path == path && a.home == h
    let ready := head = some a ∧ a.way.path = [] ∧ a.lost = false
      ∧ ∀ b ∈ s.fab.bufs.takeWhile (· != a), ¬ (b.src = p ∧ b.path = path ∧ ∃ g ∈ s.homesOf b, g ∈ s.homesOf a)
    let turn := ((∀ n, h ≠ .station n) ∧ z = s)
      ∨ ∃ n sh, h = .station n ∧ s.servedNext n = some (s.partNo p, sh)
          ∧ z = { s with fab := { s.fab with served := Table.set s.fab.served n sh } }
    let ev := exec (.accessApply p path h) s
    let out := (z.dropAccess a).applyAccess a
    let plain := a.isClose = false
    let gone (a : Access) : Prop := match a.home with
      | .cp c _ => c / 8 ≠ a.src / 8
      | .cm clu _ => clu ≠ a.src / 8
      | _ => True
    let taken (d : Dest) (u t : State) (ans : Answer) (n : Nat) : Prop :=
      (d = .seq c q → (u.seqAt c q).out = some n → (t.seqAt c q).out = none
          ∧ (t.seqAt c q).kept = (u.seqAt c q).kept ++ [ans]
          ∧ t.agenda = if (u.waitOf c q).isSome then .run c q :: u.agenda else u.agenda)
        ∧ (d = .lq c i num → (u.strand c).q.lq[i.val][j]? = some (.pending num req) →
          (ans = .data bs → (t.strand c).q.lq[i.val][j]? = some (.full (extendAs req.x (widthOf req.x) (leOf bs))))
            ∧ ∀ cs v, ans = .trap cs v → (t.strand c).q.lq[i.val][j]? = some (.marked cs v req))
    let closes (u : State) (e : Access) : Prop := e ∈ u.fab.issue ++ u.fab.bufs ∧ e.src = p ∧ e.isClose = true
    let k := s.closeInterval p
    let own := s.part (s.partNo p)
    let reached := (∃ c ∈ own.coresOf, ∃ b < s.cpBanks, h = .cp c b) ∨ (∃ clu ∈ own.clusOf, ∃ b < 32, h = .cm clu b)
      ∨ ∃ j < 16 * s.nStacks, h = .station (s.stationOf (j / 16) (j % 16))
    (issued = none → exec (.accessDispatch p path) s = .next s)
      ∧ (issued = some a → ∃ t, exec (.accessDispatch p path) s = .next t ∧ t.mem = s.mem ∧ t.fab.issue = s.fab.issue.erase a
          ∧ (¬ gone a → t = { s with fab := { s.fab with issue := s.fab.issue.erase a, bufs := s.fab.bufs ++ [{ a with way := Way.done }] } })
          ∧ (gone a → t.fab.bufs = s.fab.bufs ++ [{ a with
                  seq := Table.get 0 s.fab.seqs a.lane, way := s.wayFor (s.partNo p) p (homePlace p a.home) a.vn }]
              ∧ Table.get 0 t.fab.seqs a.lane = (Table.get 0 s.fab.seqs a.lane + 1) % 4096 ∧ t.fab.order = s.fab.order + 1))
      ∧ ((∀ b, head = some b → b.way.path = [] → b.lost = true) → turn → ev = .next z)
      ∧ (∀ b ∈ s.fab.bufs.takeWhile (· != a), head = some a → b.src = p → b.path = path → (∃ g ∈ s.homesOf b, g ∈ s.homesOf a) →
          turn → ev = .next z)
      ∧ (ready → turn → a.isClose = true → ev = .next z)
      ∧ ((∃ n, h = .station n ∧ ∀ sh, s.servedNext n ≠ some (s.partNo p, sh)) → ev = .next s)
      ∧ (ready → turn → plain → out = .blocked → ev = .next z)
      ∧ (ready → turn → plain → out = .stop f → ev = .fault f)
      ∧ (ready → turn → plain → out = .done s1 ans → ∃ t, ev = .next t ∧ t.mem = s1.mem
          ∧ (¬ gone a → t.fab = s1.fab ∧ taken a.dest s1 t ans a.num)
          ∧ (gone a → (∀ c, t.strand c = s1.strand c) ∧ ∃ y ∈ t.fab.net, y.src = homePlace a.src a.home ∧ y.dst = a.src ∧ y.vn = .reply
              ∧ y.body = .memory a.dest a.num ans))
      ∧ (∀ x y d n, s.nextPacket x c .reply = some y → y.body = .memory d n ans →
          ∃ t, exec (.replyArrival x c) s = .next t ∧ t.mem = s.mem ∧ t.fab = (s.dropPacket y.num).fab ∧ taken d s t ans n)
      ∧ (ready → path = .core → a.op = .close iv → ∃ t, exec (.closeApply p h) s = .next t ∧ t.mem = s.mem
          ∧ t.fab.bufs = s.fab.bufs.erase a
          ∧ ∀ e, e ∈ t.fab.lines ↔ e ∈ s.fab.lines ∧ ¬ (e.home = a.home ∧ e.party = a.party ∧ e.interval ≤ iv))
      ∧ (k.core p).interval = (s.core p).interval + 1 ∧ (k.core p).filter = [] ∧ (k.core p).overflowed = false ∧ k.mem = s.mem
      ∧ (((s.core p).overflowed = false ∧ h ∈ (s.core p).filter ∨ (s.core p).overflowed = true ∧ reached) → (∀ e ∈ k.fab.lines, ¬ (e.home = h ∧ e.party = .core p ∧ e.interval ≤ (s.core p).interval))
          ∨ ∃ e, closes k e ∧ e.home = h ∧ e.op = .close (s.core p).interval)
      ∧ (s.nextStamp stack = none → exec (.replicaApply stack) s = .next s)
      ∧ (s.nextStamp stack = some w → ∃ t, exec (.replicaApply stack) s = .next t
          ∧ t.mem = Memory.setAll s.mem ((w.cells.filter fun e => e.1 == stack).flatMap (·.2))
          ∧ { w with applied := w.applied ++ [stack] } ∈ t.fab.repl ∧ (∀ c, t.strand c = s.strand c))
      ∧ (s.fab.repl = [] → exec .replicaCommit s = .next s)
      ∧ (s.fab.repl = w :: ws → (∀ e ∈ w.cells, e.1 ∈ w.applied) →
          exec .replicaCommit s = .next { s with fab := { s.fab with repl := ws } })
      ∧ (s.fab.repl = w :: ws → (∃ e ∈ w.cells, e.1 ∉ w.applied) → exec .replicaCommit s = .next s)

/-- 01 R27, 10 R138, R142, 16 R232, R234, R235, R237, R238, R240, R241, R242, R249: the homes, their order, and the
recorder's conflicts. -/
def Obligations.HomesOrderAccessesAndFindConflicts : Prop :=
  Claims.ConflictsAreFoundByteByByte ∧ Claims.HomesTakeAccessesInOrder

namespace Sys2Proof.Claims

/-- The hops along a row and then along a column, in or out of the escape class (01 R28). -/
def legs (esc : Bool) (a b : Nat × Nat) : List Hop :=
  let along (n : Nat) (f : Nat → Hop) : List Hop := (List.range n).map f
  (if a.2 ≤ b.2 then along (b.2 - a.2) fun i => ⟨nodeOf a.1 (a.2 + i), nodeOf a.1 (a.2 + i + 1), .east, esc⟩
    else along (a.2 - b.2) fun i => ⟨nodeOf a.1 (a.2 - i), nodeOf a.1 (a.2 - i - 1), .west, esc⟩)
  ++ if a.1 ≤ b.1 then along (b.1 - a.1) fun i => ⟨nodeOf (a.1 + i) b.2, nodeOf (a.1 + i + 1) b.2, .south, esc⟩
    else along (a.1 - b.1) fun i => ⟨nodeOf (a.1 - i) b.2, nodeOf (a.1 - i - 1) b.2, .north, esc⟩

/-- The step out of the mesh. -/
def leaves (b : Nat × Nat) (esc : Bool) : Hop := ⟨nodeOf b.1 b.2, nodeOf b.1 b.2, .home, esc⟩

/-- A way over the router of row and column `m`: dimension-ordered to it and from it, there in the escape class. -/
def overRouter (a m b : Nat × Nat) : List Hop := legs false a m ++ legs true m b ++ [leaves b true]

/-- A router of the mesh proper. -/
def onMesh (s : State) (m : Nat × Nat) : Prop := 1 ≤ m.1 ∧ m.1 ≤ 32 ∧ 1 ≤ m.2 ∧ m.2 ≤ s.cols

/-- The hop crosses a dead link. -/
def dead (s : State) (h : Hop) : Prop := h.dir ≠ .home ∧ h.link ∈ s.fab.deadLinks

/-- A way from `a` to `b` that crosses a dead link is replaced (01 R31): by one over some router whose links are whole, where there is
one; else it stays, and waits. -/
def detours (s : State) (a b : Nat × Nat) (old new : List Hop) : Prop :=
  ((∃ m, onMesh s m ∧ ∀ h ∈ overRouter a m b, ¬ dead s h) → ∃ m, onMesh s m ∧ new = overRouter a m b ∧ ∀ h ∈ new, ¬ dead s h)
    ∧ ((∀ m, onMesh s m → ∃ h ∈ overRouter a m b, dead s h) → new = old)

end Sys2Proof.Claims

/-- 01 R26, R27, R28, R29, R30, R31: the mesh. A packet's way runs along its row and then along its column; a station's to an edge node steps into its
column first, in the escape class; a ring is crossed the shorter way, and each hop after its wrap link is in the escape class; the SYNC network of
a TREE climbs to the first common node and descends (log 116). A way that would cross a dead link takes a detour over another
router (log 118). A limited source injects one packet in 16 cycles. A router output sends a ready head: REPLY, then MGMT, then the other networks
in turn; within a network, and at a station, the partitions take shares by their weights; what waits alone takes no turn (log 117). -/
def Obligations.PacketsTravelByTheMeshRules : Prop :=
  ∀ (s : State) (pn : Nat) (src dst : Place) (vn : Vn) (node st n : Nat) (d : Dir) (sh : Shares),
    let t := s.part pn
    let a := s.spotOf src
    let b := s.spotOf dst
    let inside (p : Place) : Prop := p < 16384 ∧ t.holds? (p / 8) = true
    let along (n : Nat) (f : Nat → Hop) : List Hop := (List.range n).map f
    let straight (a b : Nat × Nat) : List Hop := legs false a b ++ [leaves b false]
    let around (lo w x y : Nat) (at_ : Nat → Nat) (fore back : Dir) : List Hop :=
      let n := (y + w - x) % w
      let m := (x + w - y) % w
      if n ≤ m then (along n fun i => ⟨at_ (lo + (x - lo + i) % w), at_ (lo + (x - lo + i + 1) % w), fore, decide (w ≤ x - lo + i)⟩)
          ++ [leaves b (decide (w ≤ x - lo + n))]
        else (along m fun i => ⟨at_ (lo + (x - lo + (w - i)) % w), at_ (lo + (x - lo + (w - i - 1)) % w), back, decide (x - lo < i)⟩)
          ++ [leaves b (decide (x - lo < m))]
    let within (lo w x : Nat) : Prop := lo ≤ x ∧ x < lo + w
    let parent (n : Nat) : Nat := (n - 1) / 2
    let number (a : Nat × Nat) : Nat := (a.1 - 1 - t.attrs.clu / 64) * t.attrs.ncols + (a.2 - 1 - t.attrs.clu % 64)
    let spot (n : Nat) : Nat := nodeOf (t.attrs.clu / 64 + n / max 1 t.attrs.ncols + 1) (t.attrs.clu % 64 + n % max 1 t.attrs.ncols + 1)
    let way := s.plainWay pn src dst vn
    let limited := ∃ e ∈ t.limited, e.1 = vn
    let sent := s.wayFor pn src dst vn
    let waits (f : Flight) : Prop := f ∈ s.flights ∧ (∃ h, f.way.path.head? = some h ∧ h.node = node ∧ h.dir = d ∧ ¬ dead s h)
      ∧ (8 ≤ f.way.port → (s.part f.part).paused = false ∧ f.way.after < 13 * s.tick + 13)
      ∧ ∀ g ∈ s.flights, f.sameBuffer g = true → f.way.since ≤ g.way.since
    let alone (f : Flight) : Prop := waits f ∧ (∀ g, waits g → g = f) ∧ s.flights.count f = 1
    let passed (f : Flight) (o : Outlet) : State :=
      let go (w : Way) : Way := { w with path := w.path.tail, port := d.num, since := s.fab.order, moved := s.tick }
      { s with fab := { s.fab with
          net := s.fab.net.map fun k => if k.num = f.num then { k with way := go k.way } else k
          bufs := s.fab.bufs.map fun a => if a.num = f.num then { a with way := go a.way } else a
          outs := Table.set s.fab.outs (node * 8 + d.num) o
          order := s.fab.order + 1 } }
    let any (v : Vn) : Prop := ∃ f, waits f ∧ f.vn = v
    let round (i : Nat) : Vn := [Vn.sync, .req, .amsg, .bulk].getD (i % 4) .sync
    let shared (sh sh' : Shares) (wait : Nat → Prop) (n : Nat) : Prop :=
      let rich (m : Nat) : Prop := wait m ∧ Table.get 0 sh m ≠ 0
      let lone := ∀ m, wait m → m = n
      wait n ∧ (lone → sh' = sh)
        ∧ (¬ lone → (∃ m, rich m) → rich n ∧ (∀ m, rich m → n ≤ m)
            ∧ ∀ m, Table.get 0 sh' m = if m = n then Table.get 0 sh m - 1 else Table.get 0 sh m)
        ∧ (¬ lone → (¬ ∃ m, rich m) → (∀ m, wait m → n ≤ m)
            ∧ ∀ m, (wait m → Table.get 0 sh' m = max 1 (s.part m).attrs.weight - if m = n then 1 else 0)
                ∧ (¬ wait m → Table.get 0 sh' m = Table.get 0 sh m))
    let o := s.outlet node d
    let atStation (m : Nat) : Prop := ∃ a ∈ s.fab.bufs, a.home = .station st ∧ a.way.path = [] ∧ s.partNo a.src = m
    (src < 65536 → dst < 65536 → ¬ (src / 16384 = 1 ∧ 2 ≤ dst / 16384) →
          ¬ (inside src ∧ inside dst) ∨ t.attrs.shape = 0 ∨ t.attrs.shape = 4 ∧ vn ≠ .sync → way = straight a b)
      ∧ (dst < 65536 → src / 16384 = 1 → 2 ≤ dst / 16384 →
          (let r := if a.1 = 0 then 1 else 32;
            way = ⟨nodeOf a.1 a.2, nodeOf r a.2, if a.1 = 0 then .south else .north, true⟩ :: straight (r, a.2) b))
      ∧ (∀ lo w, inside src → inside dst → a.1 = b.1 →
          t.attrs.shape = 1 ∨ t.attrs.shape = 2 ∧ within (t.attrs.clu / 64 + 1) t.attrs.nrows a.1 →
          lo = t.attrs.clu % 64 + 1 → w = t.attrs.ncols → within lo w a.2 → within lo w b.2 →
          way = around lo w a.2 b.2 (nodeOf a.1) .east .west)
      ∧ (∀ lo w, inside src → inside dst → a.1 = b.1 → t.attrs.shape = 3 → within (t.attrs.clu / 64 + 1) t.attrs.nrows a.1 →
          w = t.attrs.ncols / 2 ^ t.attrs.subn → w ≠ 0 →
          lo = t.attrs.clu % 64 + (a.2 - 1 - t.attrs.clu % 64) / w * w + 1 → within lo w a.2 → within lo w b.2 →
          way = around lo w a.2 b.2 (nodeOf a.1) .east .west)
      ∧ (∀ lo w, inside src → inside dst → a.2 = b.2 → t.attrs.shape = 2 ∨ t.attrs.shape = 3 →
          lo = t.attrs.clu / 64 + 1 → w = t.attrs.nrows → within lo w a.1 → within lo w b.1 →
          way = around lo w a.1 b.1 (fun r => nodeOf r a.2) .south .north)
      ∧ (inside src → inside dst → t.attrs.shape = 4 → vn = .sync → number a < 2048 → number b < 2048 →
          ∃ i j, parent^[i] (number a) = parent^[j] (number b)
            ∧ (∀ x < i, ∀ y, parent^[x] (number a) ≠ parent^[y] (number b)) ∧ (∀ y < j, parent^[i] (number a) ≠ parent^[y] (number b))
            ∧ way = (along i fun x => ⟨spot (parent^[x] (number a)), spot (parent^[x + 1] (number a)), .up, false⟩)
                ++ (along j fun y => ⟨spot (parent^[j - y] (number b)), spot (parent^[j - y - 1] (number b)),
                      if parent^[j - y - 1] (number b) = 2 * parent^[j - y] (number b) + 1 then .left else .right, false⟩)
                ++ [leaves b false])
      ∧ ((∀ h ∈ way, ¬ dead s h) → s.hopsOf pn src dst vn = way)
      ∧ (src < 65536 → dst < 65536 → (∃ h ∈ way, dead s h) → detours s a b way (s.hopsOf pn src dst vn))
      ∧ (∀ h k : Hop, h.node = k.far → h.far = k.node → h.tree = k.tree → h.wrap = k.wrap → h.link = k.link)
      ∧ sent.path = s.hopsOf pn src dst vn ∧ sent.since = s.fab.order ∧ sent.moved = s.tick
      ∧ (¬ limited → sent.after = 0)
      ∧ (limited → 13 * s.tick ≤ sent.after ∧ ((s.noteInjection pn src vn).wayFor pn src dst vn).after = sent.after + 16)
      ∧ ((∀ f, ¬ waits f) → s.hop node d = s)
      ∧ (∀ f, alone f → s.hop node d = passed f (s.outlet node d))
      ∧ ((∃ f, waits f) → (∀ f, ¬ alone f) → ∃ f sh',
          let turn := if f.vn = .reply ∨ f.vn = .mgmt then o.turn else ((s.hop node d).outlet node d).turn
          waits f
            ∧ (any .reply → f.vn = .reply) ∧ (¬ any .reply → any .mgmt → f.vn = .mgmt)
            ∧ (¬ any .reply → ¬ any .mgmt → ∃ i < 4, f.vn = round (o.turn + i) ∧ (∀ j < i, ¬ any (round (o.turn + j))) ∧ round (turn + 3) = f.vn)
            ∧ shared (Table.get [] o.shares (laneKey 0 0 f.vn)) sh' (fun m => ∃ g, waits g ∧ g.vn = f.vn ∧ g.part = m) f.part
            ∧ (∀ g, waits g → g.vn = f.vn → g.part = f.part → f.way.since ≤ g.way.since)
            ∧ s.hop node d = passed f ⟨turn, Table.set o.shares (laneKey 0 0 f.vn) sh'⟩)
      ∧ ((∀ m, ¬ atStation m) → s.servedNext st = none)
      ∧ ((∃ m, atStation m) → ∃ n sh, s.servedNext st = some (n, sh))
      ∧ (s.servedNext st = some (n, sh) → shared (Table.get [] s.fab.served st) sh atStation n)

/-- 01 R30, R31: the head of a router's input that stands too long limits its partition's injection on its network for 1,024 ticks. A dead link pauses
the injection of the partitions with a route through it (log 61; the links are numbered by log 118) and loses packets that stand before it, each counted at its source; when the
links have settled, injection resumes and the lost packets are sent again in their places, with their numbers, on ways that keep off the link, by detour over another router where one is whole. That a head's timer runs from
its arrival is the model's choice (log entry 122). -/
def Sys2Proof.Claims.MeshRecoversFromStuckAndDead : Prop :=
  ∀ (s : State) (router port part link : Nat) (vn : Vn) (lost : List Nat) (k : Packet) (x : Access) (e : Nat × Part),
    let stuck := ∃ f ∈ s.flights, f.vn = vn ∧ f.part = part ∧ f.way.port = port ∧ (∃ h, f.way.path.head? = some h ∧ h.node = router)
      ∧ (∀ g ∈ s.flights, f.sameBuffer g = true → f.way.since ≤ g.way.since) ∧ s.fab.stucklim ≤ 13 * (s.tick - f.way.moved)
    let dead := exec (.linkDead link lost) s
    let on (w : Way) : Prop := ∃ h, w.path.head? = some h ∧ h.dir ≠ .home ∧ (h.link = link ∨ h.link ∈ s.fab.deadLinks)
    let ends := (link / 4 / 8192, link / 4 % 8192)
    let row := ends.1 / 128
    let holds (n : Nat) : Prop := e.2.attrs.clu / 64 < n / 128 ∧ n / 128 ≤ e.2.attrs.clu / 64 + e.2.attrs.nrows
      ∧ e.2.attrs.clu % 64 < n % 128 ∧ n % 128 ≤ e.2.attrs.clu % 64 + e.2.attrs.ncols
    let ownRow := e.2.attrs.clu / 64 < row ∧ row ≤ e.2.attrs.clu / 64 + e.2.attrs.nrows
    let portRow := ∃ l ∈ s.sublinks, l.2.owner = some e.1 ∧ l.1 / 8 + 1 = row
    let crossed := if link % 4 = 0 then row ≠ ends.2 / 128 ∨ row ∈ [0, 1, 9, 32, 33] ∨ ownRow ∨ portRow
      else holds ends.1 ∧ holds ends.2 ∧ e.2.attrs.shape ≠ 0 ∧ (link % 4 = 2 ↔ e.2.attrs.shape = 4)
    let renewed (pn : Nat) (src dst : Place) (vn : Vn) (lost : Bool) (old new : Way) : Prop :=
      (lost = true → new = s.wayFor pn src dst vn)
        ∧ (lost = false → (∀ h ∈ old.path, ¬ Claims.dead s h) → new = old)
        ∧ (lost = false → ∀ h hs, old.path = h :: hs → h.node < 8192 → (s.spotOf dst).1 < 256 → (∃ g ∈ old.path, Claims.dead s g) →
            detours s (h.node / 128, h.node % 128) (s.spotOf dst) old.path new.path)
    (¬ stuck → exec (.stuckTimerExpiry router port vn part) s = .next s)
      ∧ (stuck → ∃ u, exec (.stuckTimerExpiry router port vn part) s = .next u ∧ (vn, s.tick + 1024) ∈ (u.part part).limited
          ∧ (∀ e ∈ (u.part part).limited, e.1 = vn → e.2 = s.tick + 1024) ∧ u.fab = s.fab)
      ∧ (∃ u, exec (.injectionLimitLift vn part) s = .next u
          ∧ (∀ e, e ∈ (u.part part).limited ↔ e ∈ (s.part part).limited ∧ ¬ (e.1 = vn ∧ e.2 ≤ s.tick)) ∧ u.fab = s.fab)
      ∧ (link ∈ s.fab.deadLinks → dead = .next s)
      ∧ (link ∉ s.fab.deadLinks → ∃ u, dead = .next u ∧ u.fab.deadLinks = s.fab.deadLinks ++ [link] ∧ u.fab.draining = true ∧ u.mem = s.mem
          ∧ (e ∈ s.parts → crossed → (e.1, { e.2 with paused := true }) ∈ u.parts) ∧ (e ∈ s.parts → ¬ crossed → e ∈ u.parts)
          ∧ (k ∈ s.fab.net → k.num ∈ lost → on k.way → { k with lost := true } ∈ u.fab.net)
          ∧ (k ∈ s.fab.net → k.num ∉ lost → k ∈ u.fab.net) ∧ (x ∈ s.fab.bufs → x.num ∉ lost → x ∈ u.fab.bufs)
          ∧ ((∀ y ∈ s.fab.net, y.num ≠ x.num) → x ∈ s.fab.bufs → x.num ∈ lost → on x.way → { x with lost := true } ∈ u.fab.bufs)
          ∧ (lost = [k.num] → k ∈ s.fab.net → (∀ y ∈ s.fab.net, y.num = k.num → y = k) → k.lost = false → on k.way → k.src < 16384 →
              (u.core k.src).lost = if (s.core k.src).lost = 0xFFFFFFFF then 0xFFFFFFFF else (s.core k.src).lost + 1))
      ∧ (s.fab.draining = false → exec .rerouteResume s = .next s)
      ∧ (s.fab.draining = true → ∃ u, exec .rerouteResume s = .next u ∧ u.fab.draining = false ∧ (∀ e ∈ u.parts, e.2.paused = false)
          ∧ (∀ y ∈ s.fab.net, ∃ w, { y with lost := false, way := w } ∈ u.fab.net ∧ renewed y.part y.src y.dst y.vn y.lost y.way w)
          ∧ (∀ y ∈ s.fab.bufs, ∃ w, { y with lost := false, way := w } ∈ u.fab.bufs
              ∧ renewed (s.partNo y.src) y.src (homePlace y.src y.home) y.vn y.lost y.way w)
          ∧ u.fab.net.map (fun x => (x.num, x.seq, x.src, x.dst, x.body)) = s.fab.net.map (fun x => (x.num, x.seq, x.src, x.dst, x.body))
          ∧ u.fab.bufs.map (fun x => (x.num, x.src, x.op, x.tgt)) = s.fab.bufs.map (fun x => (x.num, x.src, x.op, x.tgt))
          ∧ u.mem = s.mem)

/-! ## Tenants and health -/

/-- 22 R301, R302, R303, R305, 12 R179: a slice ends in a switch where another tenant waits whose record, if it has one, qualifies, and is extended
otherwise; a drained partition saves its tenant in a record that stays, its clusters are zeroed but for the supervisor regions, and the next
tenant's record is loaded, with its ticks and the places it names moved (log 65) and each of its strands on a core that can take it; nothing of another partition or of HBM changes. A switch is one
event (log 63). -/
def Obligations.TenantsAreSlicedAndSwitched : Prop :=
  ∀ (s : State) (pn n : Nat) (x : Tenant) (r : Save) (p : Place) (c : Core),
    let t := s.part pn
    let able (e : Nat × Tenant) : Prop := e ∈ t.tenants ∧ e.1 ≠ t.tenant
      ∧ (e.2.queue ≠ [] ∨ ∃ r, e.2.saved = some r ∧ r.launch ≠ none) ∧ ∀ r, e.2.saved = some r → s.restoreStatus pn r = none
    let waits := ∃ e, able e
    let next := s.nextTenant pn
    let to_ := t.attrs.clu
    let mv (p : Place) : Place := if p < 16384 then
      ((to_ / 64 + (p / 512 - r.clu / 64)) * 64 + (to_ % 64 + (p / 8 % 64 - r.clu % 64))) * 8 + p % 8 else p
    let had := (Table.find t.tenants n).bind (·.saved)
    let slice := exec (.tsliceExpiry pn) s
    let sw := exec (.tenantSwitch pn) s
    let mayGo := t.switching = true ∧ s.drained pn = true
    let bits : BitVec 512 := r.header
    ((t.switching = true ∨ s.tick < t.sliceAt) → slice = .next s)
      ∧ (t.switching = false → t.sliceAt ≤ s.tick → waits → slice = .next (s.modPart pn fun t => { t with switching := true }))
      ∧ (t.switching = false → t.sliceAt ≤ s.tick → ¬ waits →
          slice = .next (s.modPart pn fun t => { t with sliceAt := s.tick + t.attrs.tslice }))
      ∧ (¬ mayGo → sw = .next s)
      ∧ (mayGo → next = none → sw = .next (s.modPart pn fun t =>
          { t with switching := false, sliceAt := s.tick + t.attrs.tslice }))
      ∧ (next = none ↔ ¬ waits) ∧ (next = some n → (∃ e, able e ∧ e.1 = n) ∧ ((∃ e, able e ∧ t.tenant < e.1) → t.tenant < n))
      ∧ (mayGo → next = some n → ∃ u, sw = .next u ∧ (u.part pn).tenant = n ∧ (u.part pn).switching = false
          ∧ (u.part pn).sliceAt = s.tick + t.attrs.tslice ∧ u.tick = s.tick
          ∧ (Table.find t.tenants t.tenant = some x → ∃ y, Table.find (u.part pn).tenants t.tenant = some y ∧ y.queue = x.queue
              ∧ ∃ r, y.saved = some r ∧ r.tick = s.tick ∧ r.clu = t.attrs.clu ∧ r.launch = t.launch ∧ r.parked = t.parked
                ∧ (∀ k, Memory.get r.mem k = if t.hasKey k then Memory.get s.mem k else 0)
                ∧ ∀ e ∈ r.cores, ∀ z ∈ e.2.st.vec.streams, z.2.buf = [])
          ∧ (∀ y, Table.find t.tenants n = some y → Table.find (u.part pn).tenants n = some y)
          ∧ (∀ e ∈ u.fab.lines, e ∈ s.fab.lines ∧ t.ownsHome e.home = false ∧ s.partyIn pn e.party = false)
          ∧ (had = none → (∀ k, Memory.get u.mem k = if t.ownsKey k then 0 else Memory.get s.mem k)
              ∧ (u.part pn).launch = none ∧ (u.part pn).parked = [] ∧ (∀ m ∈ u.cmds, m.part = pn → m.phase = .done)
              ∧ ∀ q ∈ t.coresOf, (u.core q).running = false ∧ (u.core q).work.inbox = [] ∧ (u.core q).work.deque = []
                ∧ (u.core q).feat = (s.core q).feat ∧ (u.core q).stvec = (s.core q).stvec)
          ∧ (had = none → t.attrs.clu % 64 + t.attrs.ncols ≤ 64 →
              t.attrs.clu / 64 + t.attrs.nrows ≤ 32 → ∀ q, t.hasCore q = false → u.core q = s.core q)
          ∧ (had = some r → r.cores = [(p, c)] → t.hasCore (mv p) = true →
              let mt (n : Nat) : Nat := ((n : Int) + ((s.tick : Int) - r.tick)).toNat
              let c' := u.core (mv p)
              (c.onFault = true → c.st.act.freq &&& ~~~ (s.core (mv p)).feat = 0) → c'.running = c.running ∧ c'.st.as.s = c.st.as.s ∧ c'.st.xs.s = c.st.xs.s ∧ c'.st.as.pc = c.st.as.pc ∧ c'.st.xs.pc = c.st.xs.pc
                ∧ c'.st.vec = c.st.vec ∧ c'.st.mat = c.st.mat ∧ c'.st.gmu = c.st.gmu ∧ c'.feat = (s.core (mv p)).feat
                ∧ c'.st.csr.deadline = (if c.st.csr.deadline = 0 then 0
                    else BitVec.ofNat 64 (min (mt c.st.csr.deadline.toNat) (2 ^ 64 - 1)))
                ∧ c'.objs.sems = c.objs.sems ∧ c'.objs.tcs = c.objs.tcs.map (fun e => (e.1, { e.2 with target := mv e.2.target }))
                ∧ c'.work.deque = c.work.deque.map (fun b => { b with born := mt b.born, src := mv b.src }))
          ∧ (∀ k, had = some r → r.cores = [] → r.parked = [k] → ∀ j ∈ (u.part pn).parked,
              j.st.act.freq &&& ~~~ (u.core j.place).feat = 0 ∨ (t.attrs.debugHold = true ∧ k.hold ≠ 0))
          ∧ (had = some r → ∀ m ∈ r.cmds, ∃ m' ∈ u.cmds, m'.id = m.id ∧ m'.part = pn ∧ m'.issuer = mv m.issuer
              ∧ (m'.owed = true ↔ ∃ k, m.phase = .landed k))
          ∧ (had = some r → r.cores = [] → Memory.wf r.mem = true → Memory.wf s.mem = true → r.clu = to_ →
              (∀ e ∈ r.mem, t.hasKey e.1 = true) →
              ∀ k, Memory.get u.mem k = if t.hasKey k then Memory.get r.mem k else Memory.get s.mem k))
      ∧ (r = s.makeSave pn → bits.toNat % 2 ^ 64 = s.tick % 2 ^ 64 ∧ bits.toNat / 2 ^ 72 % 2 ^ 8 = t.tenant % 256
          ∧ bits.toNat / 2 ^ 80 % 2 ^ 9 = pn % 512 ∧ bits.toNat / 2 ^ 89 % 2 ^ 6 = (t.attrs.ncols - 1) % 64
          ∧ bits.toNat / 2 ^ 95 % 2 ^ 5 = (t.attrs.nrows - 1) % 32 ∧ bits.toNat / 2 ^ 112 % 2 ^ 16 = (s.needs pn).toNat
          ∧ bits.toNat / 2 ^ 144 % 2 ^ 16 = r.layout.toNat ∧ bits.toNat / 2 ^ 256 = (sm3 r.body).toNat)

/-- 22 R310, R314, R315, 01 R12, R13, R14: self-tests begin at cores without a strand and end as transient or in a retirement of the feature, which
its physical core has lost for good, or of the cluster, and mark the launch in flight RETIRED; a retired cluster's strands end, the held ones too, its physical cluster leaves the mesh, the rows south of
it move in one event (log 66), and every place table says so; an uncorrectable read raises ENGINE-FAULT. -/
def Sys2Proof.Claims.FailedUnitsAreRetired : Prop :=
  ∀ (s : State) (p : Place) (bit : Fin 5) (clu addr : Nat) (ok : Bool) (a : Access) (u : TestUnit),
    let c := s.core p
    let mask : BitVec 16 := BitVec.ofNat 16 (2 ^ bit.val)
    let cores : List Place := match u with
      | .feature q _ => [q]
      | .shared k => (List.range 8).map fun i => k * 8 + i
    let ready := (s.clus clu).stopped = true ∧ ∀ n ∈ southOf clu, ∀ k < 8,
      (s.core (n * 8 + k)).running = true → (s.core (n * 8 + k)).parkedFault = true ∨ (s.core (n * 8 + k)).spawnStalled = true
    let pend := (s.fab.issue ++ s.fab.bufs).find? fun a => a.src == p && a.op == .read && a.addrOf 0 == addr
    ((∃ q ∈ cores, (s.core q).running = true) → exec (.selfTestStart u) s = .next s)
      ∧ ((∀ q ∈ cores, (s.core q).running = false) →
          (u = .feature p bit → exec (.selfTestStart u) s = .next (s.modCore p fun c => { c with testing := true }))
            ∧ (u = .shared clu → exec (.selfTestStart u) s = .next (s.modClus clu fun k => { k with testing := true })))
      ∧ (c.testing = false → exec (.selfTestEnd (.feature p bit) ok) s = .next s)
      ∧ (c.testing = true → ∃ t, exec (.selfTestEnd (.feature p bit) true) s = .next t ∧ t.core p = { c with testing := false }
          ∧ .transient (.feature p bit) ∈ t.logs)
      ∧ (c.testing = true → bit.val ≠ 4 → ∃ t, exec (.selfTestEnd (.feature p bit) false) s = .next t ∧ .lasting (.feature p bit) ∈ t.logs
          ∧ (t.core p).testing = false
          ∧ (∀ l, (s.partOf p).launch = some l → (t.partOf p).launch.map (·.retired) = some true)
          ∧ (c.running = false → (t.core p).feat = c.feat &&& ~~~ (c.retiring ||| mask) ∧ (t.core p).state = 1)
          ∧ (c.running = true → (t.core p).feat = c.feat ∧ (t.core p).retiring = c.retiring ||| mask)
          ∧ (∀ n, s.pcnOf (p / 8) = some n → Table.get 0 t.worn (n * 8 + p % 8) = Table.get 0 s.worn (n * 8 + p % 8) ||| mask)
          ∧ ∀ q, q ≠ p → t.core q = s.core q)
      ∧ (c.testing = true → bit.val = 4 → ∃ t, exec (.selfTestEnd (.feature p bit) false) s = .next t ∧ ∀ k < 8,
          let q := p / 8 * 8 + k
          ((s.core q).running = false → (t.core q).feat.getLsbD 4 = false)
            ∧ ((s.core q).running = true → (t.core q).retiring.getLsbD 4 = true))
      ∧ ((s.clus clu).testing = false → exec (.selfTestEnd (.shared clu) ok) s = .next s)
      ∧ ((s.clus clu).testing = true → ∃ t, exec (.selfTestEnd (.shared clu) ok) s = .next t ∧ (t.clus clu).testing = false
          ∧ (t.clus clu).stopped = ((s.clus clu).stopped || !ok) ∧ ∀ q, t.core q = s.core q)
      ∧ (¬ ready → exec (.clusterRetirement clu) s = .next s)
      ∧ (ready → clu < 2048 → ∃ t, exec (.clusterRetirement clu) s = .next t ∧ t.retired = s.retired ++ [(s.pcnOf clu).getD 0]
          ∧ (t.clus clu).stopped = false ∧ (∀ k < 8, (t.core (clu * 8 + k)).running = false)
          ∧ (∀ e ∈ t.clusters, ∀ x ∈ e.2.place, x.2.getLsbD 15 = true → ∃ m, t.pcnOf x.1 = some m ∧ x.2 = BitVec.ofNat 16 (0x8000 + m))
          ∧ ∀ n ∈ southOf clu, ∀ k < 8, ∀ m, t.pcnOf n = some m →
            (t.core (n * 8 + k)).feat &&& ((Config.lacks (m * 8 + k) &&& ~~~ 0x10#16) ||| (Config.lacks (m * 8) &&& 0x10#16)
              ||| Table.get 0 s.worn (m * 8 + k)) = 0)
      ∧ (ready → clu < 2048 → ∃ t, exec (.clusterRetirement clu) s = .next t
          ∧ (∀ e ∈ t.cores, ∀ o, e.2.oldTabs = some o → ∀ x ∈ o.1, x.2.getLsbD 15 = true →
              ∃ m, t.pcnOf x.1 = some m ∧ x.2 = BitVec.ofNat 16 (0x8000 + m))
          ∧ ∀ k < 8, ∀ y ∈ (s.part (s.partNo (clu * 8 + k))).parked, y.place = clu * 8 + k →
              ∀ z ∈ (t.part (s.partNo (clu * 8 + k))).parked, z.st.act.sid ≠ y.st.act.sid)
      ∧ (pend = none → exec (.uncorrectableRead p addr) s = .next s)
      ∧ (pend = some a → ∃ t, exec (.uncorrectableRead p addr) s = .next t ∧ t.mem = s.mem ∧ (∀ q, t.strand q = s.strand q)
          ∧ (t.core p).pendFaults = c.pendFaults ++ [(BitVec.ofNat 64 (2 ^ 63 + addr % 2 ^ 63), 0)])

/-- 01 R12, R13, R14, R30, R31, 22 R310, R314, R315: stuck packets, dead links, failed units and retired clusters. -/
def Obligations.FailuresAreContained : Prop :=
  Claims.MeshRecoversFromStuckAndDead ∧ Claims.FailedUnitsAreRetired

/-! ## The host side -/

namespace Sys2Proof.Claims

/-- A result joins those handed back to the host: the used-ring index of the function's command queue advances over an element with the
chain's head and the bytes written, and the ring holds as many elements as the queue has descriptors (24 R323, R324). -/
def handedBack (s : State) (r : Result) : State :=
  let q := s.queue r.fn 0
  { s with host := { s.host with
      results := s.host.results ++ [r], queues := Table.set s.host.queues (queueKey r.fn 0) { q with
        used := (q.used + 1) % 65536
        elems := (q.elems ++ [(r.head, if r.written = true then 16 + r.extra.length else 0)]).drop (q.elems.length + 1 - q.size) } } }

/-- A command's result, handed back. -/
def returned (s : State) (h : CmdHead) (code count : Nat) (extra : List Byte) : State :=
  handedBack s ⟨h.fn, h.head, h.tag, true, code, 0, count, 0, extra⟩

/-- The command comes to its own checks: its function and the module's state let it (24 R322, R325). -/
def mayCommand (s : State) (h : CmdHead) (management : Bool) : Prop :=
  s.fw.recovery = false ∧ h.fn ≠ .pf 1 ∧ (management = true → h.fn = .pf 0)

/-- The chain has the shape of 24 R323: device-readable descriptors that hold the header, and one device-writable descriptor with room for
the result. -/
def shaped (h : CmdHead) (size : Nat) : Prop :=
  ∃ ds n, h.descs = ds ++ [(true, n)] ∧ (∀ d ∈ ds, d.1 = false) ∧ 16 ≤ (ds.map (·.2)).sum ∧ max 32 size ≤ n

/-- The header's zero bytes and the body's reserved ones are zero, the body has its length, and a management command names no tenant (24 R323,
R325, R326). -/
def wellMade (h : CmdHead) (len : Nat) (management : Bool) : Prop :=
  h.zero = 0 ∧ h.rsvd = 0 ∧ ((h.descs.filter fun d => !d.1).map (·.2)).sum - 16 = len
    ∧ (management = true → h.partn = 0 ∧ h.tenant = 0)

/-- The chain, the function and the module's state let a command through. -/
def passesChecks (s : State) (h : CmdHead) (size len : Nat) (management : Bool) : Prop :=
  s.fw.booted = true ∧ shaped h size ∧ mayCommand s h management ∧ wellMade h len management

/-- The partition and tenant that a tenant command acts on: those of the VF's binding, or those that the PF names. -/
def actsOn (s : State) (h : CmdHead) (pn tn : Nat) : Prop :=
  match h.fn with
  | .pf _ => pn = h.partn ∧ tn = h.tenant ∧ ∃ t, Table.find s.parts pn = some t ∧ (Table.find t.tenants tn).isSome = true
  | .vf n => h.partn = 0 ∧ h.tenant = 0 ∧ Table.find s.host.bindings n = some (pn, tn)

/-- The commands of 24 R325 but RECOVER: each with the length of its result and of its body, and its kind's mark. -/
def isCommand (s : State) (h : CmdHead) (b : LaunchParams) (c : CreateBody) (x y z w : Nat) (pte : Word) (r : BitVec 256) (e : BitVec 128)
    (us : List MapUpdate) (k : Bool) (nonce : List Byte) (i : Instr × Nat × Nat × Bool) : Prop :=
  let upd := 56 + 48 * us.length
  i ∈ [(.launch h b, 32, 88, false), (.memmapMap h x y z pte us, 32, upd, false), (.memmapUnmap h x y z us, 32, upd, false),
    (.memmapRange h x y z r us, 32, upd, false), (.memmapProcess h x y e us, 32, upd, false), (.query h, 64, 0, false),
    (.usage h x y, 32, 16, false), (.restore h x y, 32, 16, false), (.keep h, 32, 0, false), (.create h c, 32, 96, true),
    (.destroy h x k, 32, 8, true), (.bind h x y z w pte, 32, 16, true), (.unbind h x y z w, 32, 16, true), (.restitch h x y z, 32, 8, true),
    (.sublink h x y z, 32, 8, true), (.fwact h x, 32, 8, true), (.powercap h x, 32, 8, true),
    (.quote h nonce, 80 + (s.quoteBody nonce).length, 32, true), (.period h x y, 32, 16, true)]

end Sys2Proof.Claims

/-- 24 R322, R323, R325, R326: every command's checks, in order: a chain of another shape, a result descriptor too short for the
command among them, is returned with nothing written; a function that may not give the command, and any but RECOVER in recovery, gets DENIED
(logs 67, 73); a nonzero reserved byte, a body of another length or an opcode of no command BADCMD; a tenant command must name an existing partition and tenant, and a VF
only its own; nothing else changes. -/
def Obligations.HostCommandsAreCheckedFirst : Prop :=
  ∀ (s : State) (h : CmdHead) (b : LaunchParams) (c : CreateBody) (x y z w : Nat) (pte : Word) (r : BitVec 256) (e : BitVec 128)
    (us : List MapUpdate) (k : Bool) (nonce : List Byte),
    let booted := s.fw.booted = true
    let unwritten := handedBack s ⟨h.fn, h.head, h.tag, false, 1, 0, 0, 0, []⟩
    let denied (i : Instr) : Prop := exec i s = .next (returned s h 2 0 [])
    let odd := step { s with agenda := .badOpcode h :: s.agenda }
    (∀ i, isCommand s h b c x y z w pte r e us k nonce i →
        (¬ booted → exec i.1 s = .next s)
          ∧ (booted → ¬ shaped h i.2.1 → exec i.1 s = .next unwritten)
          ∧ (booted → shaped h i.2.1 → ¬ mayCommand s h i.2.2.2 → denied i.1)
          ∧ (booted → shaped h i.2.1 → mayCommand s h i.2.2.2 → ¬ wellMade h i.2.2.1 i.2.2.2 → exec i.1 s = .next (returned s h 1 0 []))
          ∧ (passesChecks s h i.2.1 i.2.2.1 i.2.2.2 → i.2.2.2 = false →
              (∀ j, h.fn = .pf j → (∀ t, Table.find s.parts h.partn = some t → Table.find t.tenants h.tenant = none) →
                  exec i.1 s = .next (returned s h 14 0 []))
                ∧ (∀ n, h.fn = .vf n → (h.partn ≠ 0 ∨ h.tenant ≠ 0 ∨ Table.find s.host.bindings n = none) → denied i.1)))
      ∧ (booted → ¬ shaped h 0 → odd = .next unwritten) ∧ (booted → shaped h 0 → ¬ mayCommand s h false → odd = .next (returned s h 2 0 []))
      ∧ (booted → shaped h 0 → mayCommand s h false → odd = .next (returned s h 1 0 []))
      ∧ (¬ booted → exec (.recover h nonce) s = .next s)
      ∧ (booted → ¬ shaped h 32 → exec (.recover h nonce) s = .next unwritten)
      ∧ (booted → shaped h 32 → (h.fn ≠ .pf 0 ∨ s.fw.recovery = false) → denied (.recover h nonce))
      ∧ (booted → shaped h 32 → h.fn = .pf 0 → s.fw.recovery = true →
          (¬ wellMade h 16 true → exec (.recover h nonce) s = .next (returned s h 1 0 []))
            ∧ (wellMade h 16 true → Config.firstStageOk nonce = false → exec (.recover h nonce) s = .next (returned s h 9 0 []))
            ∧ (wellMade h 16 true → Config.firstStageOk nonce = true → ∃ t, exec (.recover h nonce) s = .next t ∧ t.fw.booted = false
                ∧ t.fw.slots[0] = some nonce ∧ t.fw.next = 0 ∧ t.host = (returned s h 0 0 []).host ∧ t.mem = s.mem))

/-- 24 R322, R324, R326, R333, 22 R303, R304, R305, 03 R41, R42: what the tenant commands do once their checks pass. The order of a LAUNCH's
checks is log 56; whose tables a MEMMAP fills, and with which frames, log 69. -/
def Obligations.TenantCommandsTakeEffect : Prop :=
  ∀ (s : State) (h : CmdHead) (b : LaunchParams) (pn tn proc level addr slot index first max source image : Nat) (pte : Word)
    (r : BitVec 256) (e : BitVec 128) (us : List MapUpdate) (x : Tenant) (v : Save) (n : Nat),
    let ok (size len : Nat) := passesChecks s h size len false ∧ actsOn s h pn tn
    let t := s.part pn
    let id := BitVec.ofNat 16 proc
    let code (i : Instr) (c : Nat) : Prop := exec i s = .next (returned s h c 0 [])
    let refuse (i : Instr) (c : Nat) : Prop := exec i s = .next (handedBack s ⟨h.fn, h.head, h.tag, true, c, 0, 0, b.lid.toNat, []⟩)
    let wide := ((List.range 6).map fun i => b.wfw.toNat / 2 ^ (6 * i) % 64).sum
    let form := b.rsvd = false ∧ b.wfw.toNat / 2 ^ 36 = 0
    let rooted := ∃ clu k, s.parsePlace b.root.toNat = .core clu k ∧ t.hasCore b.root.toNat = true ∧ (s.placeEntry clu clu).getLsbD 14 = false
    let maps : List (Instr × MapUpdate) := [(.memmapMap h proc level addr pte us, .map level addr pte),
      (.memmapUnmap h proc level addr us, .unmap level addr), (.memmapRange h proc slot index r us, .range slot index r),
      (.memmapProcess h proc index e us, .process index e)]
    let found := (s.host.images.find? fun e => e.1.toNat == image).map (·.2)
    let theirs := ∃ n v, h.fn = .vf n ∧ found = some v ∧ (v.header.toNat / 2 ^ 80 % 2 ^ 9, v.header.toNat / 2 ^ 72 % 2 ^ 8) ≠ (pn, tn)
    let record := if source = 0 then (Table.find t.tenants tn).bind (·.saved) else found
    (ok 32 88 → (¬ form → refuse (.launch h b) 1) ∧ (form → 64 < wide → refuse (.launch h b) 3)
          ∧ (form → wide ≤ 64 → b.base = 0 → refuse (.launch h b) 4)
          ∧ (form → wide ≤ 64 → b.base ≠ 0 → ¬ rooted → refuse (.launch h b) 5)
          ∧ (form → wide ≤ 64 → b.base ≠ 0 → rooted → Table.find t.tenants tn = some x → ∃ u l, exec (.launch h b) s = .next u
              ∧ (Table.find (u.part pn).tenants tn).map (·.queue) = some (x.queue ++ [l]) ∧ l.prm = b ∧ l.by_ = .host h.fn h.head h.tag
              ∧ l.delivered = false ∧ u.host = s.host ∧ u.mem = s.mem))
      ∧ (ok 32 (56 + 48 * us.length) → ∀ m ∈ maps,
          ((65536 ≤ proc ∨ 64 < us.length + 1) → code m.1 1)
            ∧ (proc < 65536 → us.length + 1 ≤ 64 → (∃ n, h.fn = .vf n) → (∃ u ∈ m.2 :: us, t.vfMay tn id u = false) → code m.1 2)
            ∧ (proc < 65536 → us.length + 1 ≤ 64 → ((∃ j, h.fn = .pf j) ∨ ∀ u ∈ m.2 :: us, t.vfMay tn id u = true) →
                (updatesOk id t.procs (m.2 :: us) = false → code m.1 1)
                  ∧ (updatesOk id t.procs (m.2 :: us) = true → exec m.1 s =
                      .next (returned (s.applyUpdates pn id (m.2 :: us)) h 0 (us.length + 1) []))))
      ∧ (let u := s.applyUpdate pn id (.process index e)
         let w := s.applyUpdate pn id (.range slot index r)
         (e.toNat / 2 ^ 76 % 2 ^ 40 ≠ 0 → Table.find (u.part pn).procs index = some e ∧ u.mem = s.mem)
          ∧ Table.find (w.part pn).ranges (s.slotStation slot * 256 + index) = some r ∧ w.mem = s.mem)
      ∧ (let p := n / 2 ^ 76 % 2 ^ 40 * 4096 + 8 * (addr / 2 ^ 39 % 2 ^ 18)
         let root := s.hbm64 (s.slotStation (n / 2 ^ 69 % 2 ^ 7)) p
         let at_ := root / 2 ^ 12 % 2 ^ 40 * 4096 + 8 * (addr / 2 ^ 30 % 2 ^ 9)
         let st := s.slotStation (root / 2 ^ 52 % 2 ^ 7)
         findProc t.procs id = some n → pteOk root = true → root.testBit 1 = false → Memory.wf s.mem = true →
          (s.applyUpdate pn id (.map 1 addr pte)).hbm64 st at_ = pte.toNat
            ∧ (s.applyUpdate pn id (.unmap 1 addr)).hbm64 st at_ = s.hbm64 st at_ / 2 * 2)
      ∧ (ok 64 0 → ∃ bs, exec (.query h) s = .next (returned s h 0 0 bs) ∧ bs.length = 48
          ∧ bs.take 2 = leBytesOf 2 s.cols ∧ (bs.drop 8).take 1 = leBytesOf 1 s.gov.g.val ∧ (bs.drop 10).take 2 = leBytesOf 2 pn
          ∧ (bs.drop 12).take 2 = leBytesOf 2 t.attrs.clu ∧ (bs.drop 14).take 2 = [BitVec.ofNat 8 (t.attrs.ncols - 1), BitVec.ofNat 8 (t.attrs.nrows - 1)])
      ∧ (ok 32 16 → (max = 0 ∨ 64 < max ∨ 2 ^ 64 ≤ first) → code (.usage h first max) 1)
      ∧ (ok 32 16 → 0 < max → max ≤ 64 → first < 2 ^ 64 →
          (∀ u ∈ t.usage.head?, first < u.seq → code (.usage h first max) 12)
            ∧ ((∀ u ∈ t.usage.head?, u.seq ≤ first) → ∃ vs, exec (.usage h first max) s =
                .next (returned s h 0 vs.length (vs.flatMap (·.bytes pn)))
              ∧ vs = (t.usage.filter fun v => decide (first ≤ v.seq)).take (min max (((h.descs.getLast?.map (·.2)).getD 0 - 16) / 240))))
      ∧ (ok 32 0 → (Table.find t.tenants tn).bind (·.saved) = none → code (.keep h) 14)
      ∧ (ok 32 0 → (Table.find t.tenants tn).bind (·.saved) = some v → ∃ u, exec (.keep h) s = .next u
          ∧ (∃ g, (g, v) ∈ u.host.images) ∧ u.mem = s.mem ∧ u.parts = s.parts)
      ∧ (ok 32 16 → (1 < source ∨ (source = 0 ∧ image ≠ 0)) → code (.restore h source image) 1)
      ∧ (ok 32 16 → source ≤ 1 → (source = 0 → image = 0) →
          (record = none → code (.restore h source image) 14)
            ∧ (source = 1 → theirs → code (.restore h source image) 2)
            ∧ (record = some v → ¬ (source = 1 ∧ theirs) →
                let lay := (Config.fwLayout s.fw.active.val).toNat
                let old := v.layout.toNat + 1 < lay ∨ lay < v.layout.toNat
                let good := v.header.toNat / 2 ^ 256 = (sm3 v.body).toNat
                let fits := v.cols = t.attrs.ncols ∧ v.rows = t.attrs.nrows
                let met := ∀ i < 16, v.fneed.getLsbD i = true → ∃ p ∈ t.coresOf, (s.core p).state ≠ 2 ∧ (s.core p).feat.getLsbD i = true
                (old → code (.restore h source image) 8)
                  ∧ (¬ old → ¬ good → code (.restore h source image) 9)
                  ∧ (¬ old → good → ¬ fits → code (.restore h source image) 10)
                  ∧ (¬ old → good → fits → ¬ met → code (.restore h source image) 11)
                  ∧ (¬ old → good → fits → met → ∃ u, exec (.restore h source image) s = .next u
                      ∧ (∃ q ∈ u.host.results, q.fn = h.fn ∧ q.tag = h.tag ∧ q.status = 0 ∧ q.extra = leBytesOf 2 v.layout.toNat)
                      ∧ (t.tenant ≠ tn → u.mem = s.mem ∧ (∀ p, u.core p = s.core p)
                          ∧ (Table.find t.tenants tn = some x → (Table.find (u.part pn).tenants tn).bind (·.saved) = some v)))))

/-- 22 R312, R313, 24 R325, R327, R328, R330 to R332, R335, 01 R29: what the management commands do once their checks pass. A CREATE of a partition
that exists and a BIND of a tenant that does not are log 70, the far end of a sub-link is log 71, when a PERIOD takes effect log 72, the entries of
a queue that is reset log 74, the cut of SUBTORUS log 95, the bytes of a signature log 112, and a number that is no sub-link of its port log 114. -/
def Obligations.ManagementCommandsTakeEffect : Prop :=
  ∀ (s : State) (h : CmdHead) (b : CreateBody) (pn tn port vf shape subn sub slot cap ticks : Nat) (pmask : Word) (keepIt : Bool)
    (nonce : List Byte) (t : Part) (c : Nat × Nat),
    let ok (len : Nat) := passesChecks s h 32 len true
    let code (i : Instr) (c : Nat) : Prop := exec i s = .next (returned s h c 0 [])
    let done (u : State) : Prop := u.host.results = (returned s h 0 0 []).host.results
    let inRange := pn ≤ 383
    let n := 192 * port + vf
    let bound := pn ≤ 383 ∧ tn ≤ 255 ∧ port ≤ 1 ∧ vf ≤ 191
    let stitch := shape ≤ 4 ∧ (if shape = 3 then 1 ≤ subn ∧ subn ≤ 3 ∧ t.attrs.ncols % 2 ^ subn = 0 else subn = 0)
    let new : Part := { Part.blank with attrs := bodyAttrs b }
    let free := ∀ k ∈ new.clusOf, (s.pcnOf k).isSome = true ∧ ∀ e ∈ s.parts, e.2.holds? k = false
    let link := port * 8 + sub
    let named (i : Instr) : Prop := (¬ inRange → code i 1) ∧ (inRange → Table.find s.parts pn = none → code i 14)
    let sliced (l : Launch) : Prop := ∃ e ∈ t.tenants, e.1 ≠ t.tenant ∧ ∃ r, e.2.saved = some r ∧ r.launch = some l
    let here (l : Sublink) : Prop := ∃ q, l.owner = some q ∧ ((s.part q).launch.isSome = true
      ∨ ∃ e ∈ (s.part q).tenants, e.1 ≠ (s.part q).tenant ∧ ∃ r, e.2.saved = some r ∧ r.launch.isSome = true)
    (ok 96 →
        (s.bodyOk b = false → code (.create h b) 1) ∧ (s.bodyOk b = true → ¬ free → code (.create h b) 13)
          ∧ (s.bodyOk b = true → free → b.image = [] → ∃ u, exec (.create h b) s = .next u ∧ done u ∧ (u.part b.partn).attrs = bodyAttrs b
              ∧ (u.part b.partn).tenant = 0 ∧ (u.part b.partn).launch = none ∧ (u.part b.partn).created = s.tick
              ∧ (∀ q ∈ new.coresOf, (u.core q).part = some b.partn ∧ (u.core q).running = false ∧ (u.core q).work.inbox = [])
              ∧ (∀ k, Memory.get u.mem k = if new.ownsKey k then 0 else Memory.get s.mem k)
              ∧ (∀ k ∈ new.clusOf, (∀ l ∈ new.clusOf, l < 2048 → Table.get 0 (u.clus k).place l = s.entryOf l
                  ∧ (Table.get 0 (u.clus k).perm (l / 64)).getLsbD (l % 64) = true) ∧ ∀ l ∈ s.absent, Table.get 0 (u.clus k).place l = 0x4000)))
      ∧ (ok 8 →
          named (.destroy h pn keepIt)
            ∧ (inRange → Table.find s.parts pn = some t → ∃ u, exec (.destroy h pn keepIt) s = .next u
                ∧ (⟨h.fn, h.head, h.tag, true, 0, 0, 0, 0, []⟩ : Result) ∈ u.host.results ∧ Table.find u.parts pn = none
                ∧ (∃ v ∈ u.host.usageQ0, v.1 = pn ∧ v.2.flags % 2 = 1 ∧ v.2.tend = s.tick) ∧ (∀ e ∈ u.host.bindings, e.2.1 ≠ pn)
                ∧ (∀ e ∈ u.sublinks, e.2.owner ≠ some pn) ∧ (∀ q ∈ t.coresOf, (u.core q).part = none)
                ∧ (keepIt = true → (Table.find t.tenants t.tenant).isSome = true → ∃ g, (g, s.makeSave pn) ∈ u.host.images)
                ∧ ∀ l fn d tag, t.launch = some l ∨ sliced l → l.by_ = .host fn d tag →
                    ∃ q ∈ u.host.results, q.fn = fn ∧ q.head = d ∧ q.tag = tag ∧ q.flags / 32 % 2 = 1)
            ∧ named (.restitch h pn shape subn)
            ∧ (inRange → Table.find s.parts pn = some t → (¬ stitch → code (.restitch h pn shape subn) 1)
                ∧ (stitch → (t.launch.isSome = true ∨ ∃ l, sliced l) → code (.restitch h pn shape subn) 7)
                ∧ (stitch → t.launch = none → (∀ l, ¬ sliced l) → ∃ u, exec (.restitch h pn shape subn) s = .next u ∧ done u
                    ∧ u.part pn = { t with attrs := { t.attrs with shape := shape, subn := subn } }))
            ∧ ((31 < port ∨ 7 < sub ∨ (pn ≠ 0xFFFF ∧ 383 < pn)) → code (.sublink h port sub pn) 1)
            ∧ (port ≤ 31 → sub ≤ 7 → (pn = 0xFFFF ∨ pn ≤ 383) →
                (Table.find s.sublinks link = none → code (.sublink h port sub pn) 14)
                  ∧ ∀ l, Table.find s.sublinks link = some l →
                    (pn ≠ 0xFFFF → Table.find s.parts pn = none → code (.sublink h port sub pn) 14)
                      ∧ (pn = 0xFFFF ∨ Table.find s.parts pn = some t → ∃ u, exec (.sublink h port sub pn) s = .next u ∧ u.mem = s.mem
                          ∧ (∀ k, k ≠ link → Table.find u.sublinks k = Table.find s.sublinks k)
                          ∧ (here l → u.sublinks = s.sublinks ∧ u.host = (returned s h 7 0 []).host)
                          ∧ (¬ here l → (u.sublinks = s.sublinks ∧ u.host = (returned s h 7 0 []).host)
                              ∨ (done u ∧ Table.find u.sublinks link = some { l with owner := if pn = 0xFFFF then none else some pn }))))
            ∧ (2 ≤ slot → code (.fwact h slot) 1)
            ∧ (slot < 2 → ∃ u, exec (.fwact h slot) s = .next u ∧ done u ∧ u.fw.next.val = slot ∧ u.fw.active = s.fw.active)
            ∧ ((cap < 4000 ∨ 10000 < cap) → code (.powercap h cap) 1)
            ∧ (4000 ≤ cap → cap ≤ 10000 → exec (.powercap h cap) s = .next (returned { s with gov := { s.gov with cap := cap } } h 0 0 [])))
      ∧ (ok 16 →
          (¬ bound → code (.bind h pn tn port vf pmask) 1 ∧ code (.unbind h pn tn port vf) 1)
            ∧ (bound → Table.find s.parts pn = none → code (.bind h pn tn port vf pmask) 14 ∧ code (.unbind h pn tn port vf) 14)
            ∧ (bound → Table.find s.parts pn = some t →
                (Table.find s.host.bindings n = some c → c ≠ (pn, tn) → code (.bind h pn tn port vf pmask) 7 ∧ code (.unbind h pn tn port vf) 14)
                  ∧ (Table.find s.host.bindings n = none → code (.unbind h pn tn port vf) 14)
                  ∧ ((Table.find s.host.bindings n = none ∨ Table.find s.host.bindings n = some (pn, tn)) →
                      ∃ u x, exec (.bind h pn tn port vf pmask) s = .next u ∧ Table.find u.host.bindings n = some (pn, tn)
                        ∧ Table.find (u.part pn).tenants tn = some x ∧ x.vf = some n ∧ x.pmask = pmask ∧ u.mem = s.mem)
                  ∧ (Table.find s.host.bindings n = some (pn, tn) → ∃ u, exec (.unbind h pn tn port vf) s = .next u
                      ∧ Table.find u.host.bindings n = none ∧ u.mem = s.mem ∧ (∀ q ∈ u.host.featuresOk, q.1 ≠ .vf n)
                      ∧ u.queue (.vf n) 0 = ⟨1024, 0, 0, []⟩))
            ∧ (¬ (pn ≤ 383 ∧ 1000000 ≤ ticks ∧ ticks ≤ 1000000000) → code (.period h pn ticks) 1)
            ∧ (inRange → 1000000 ≤ ticks → ticks ≤ 1000000000 → (Table.find s.parts pn = none → code (.period h pn ticks) 14)
                ∧ (Table.find s.parts pn = some t → ∃ u, exec (.period h pn ticks) s = .next u ∧ done u ∧ (u.part pn).period = ticks
                    ∧ (u.part pn).periodNew = true ∧ (u.part pn).usage = t.usage
                    ∧ (u.part pn).usageAt = (match t.usage.getLast? with | some v => v.tend | none => t.created) + ticks)))
      ∧ (passesChecks s h (80 + (s.quoteBody nonce).length) 32 true →
          (nonce.length ≠ 32 → code (.quote h nonce) 1)
            ∧ (nonce.length = 32 → ∃ bs, exec (.quote h nonce) s = .next (returned s h 0 bs.length bs)
                ∧ bs.take 32 = nonce ∧ (bs.drop 32).take 8 = leBytesOf 8 s.tick ∧ bs.length = (s.quoteBody nonce).length + 64
                ∧ bs.drop (bs.length - 64) = leBytesOf 64 (sm2Sign (bs.take (bs.length - 64))).toNat))

/-- 24 R323, R324, R327, R328, R329, R330, R332, R333, R335, 22 R313, 16 R238: the events of the host's side and the package. What a flit asks, and
who owns the peer end, are free (log 71); so is how boot splits a port (log 114). Which partitions let a module boot again is log 113, the interval
in which a PERIOD takes effect log 72, the feature bit's number and the queues' default size log 74, the mean of the first samples log 75; the
standards of digest and signature are log 112. -/
def Obligations.HostAndPackageEvents : Prop :=
  ∀ (s : State) (port sub pn from_ station : Nat) (header rr : Word) (payload : List Word) (mb : Fin 64) (up : Bool) (d : Desc) (i : Nat)
    (is : List Nat) (flit bs : List Byte) (proc : BitVec 16) (addr id : Nat) (last : Bool) (w : PowerSample) (t : Part) (pf : Fin 2) (x : Nat × Usage)
    (xs : List (Nat × Usage)) (fn : HostFn) (fs : Word) (e : Nat × Nat) (p : Place) (n : Nat) (c : Cmd),
    let link := Table.find s.sublinks (port * 8 + sub)
    let peer := link.bind fun l => l.peer
    let ownedUp (q : Nat) : Prop := ∃ l, link = some l ∧ l.up = true ∧ l.owner = some q
    let kept (e : Nat × Part) : Prop := e.2.launch = none ∧ ∀ x ∈ e.2.tenants, ∃ i ∈ s.host.images,
      i.2.header.toNat / 2 ^ 80 % 2 ^ 9 = e.1 ∧ i.2.header.toNat / 2 ^ 72 % 2 ^ 8 = x.1
    let may := s.fw.booted = false ∨ ∀ e ∈ s.parts, kept e
    let qu (f : HostFn) (i : Nat) := s.queue f i
    let queued (f : HostFn) (i : Nat) : Prop := (∃ j, f = .pf j ∧ i ≤ 1) ∨ ((∃ j, f = .vf j) ∧ i = 0)
    let turn (t : Turn) := step { s with agenda := t :: s.agenda }
    let down := exec (.sublinkDown port sub) s
    let in_ := (s.part pn).attrs.ingress
    let msg (m : Option (Fin 64)) := exec (.scaleupMessage port sub header payload rr m) s
    let flt := exec (.scaleupFlit port sub from_ flit) s
    let img (f : Fin 2) : List Byte := (s.fw.slots[f.val]).getD (Config.slotImage f.val)
    let other : Fin 2 := if s.fw.next = 0 then 1 else 0
    let boot := exec .boot s
    let g := s.gov
    let budget := min 90000 (9 * g.cap)
    let all := (g.samples ++ [w.watts]).drop (g.samples.length + 1 - 100)
    let low := if 1000 * w.watts < 95 * budget then g.below + 1 else 0
    let up1 := min 63 (g.g.val + (if 19000 < w.amps ∨ g.cap < w.watts then 8 else 0)
      + (if 100 ≤ all.length ∧ budget * 100 < 10 * all.sum then 1 else 0))
    let g' := if 100 ≤ low then up1 - 1 else up1
    let m := s.mbx in_ mb.val
    ((∀ l, link = some l → l.up = false) → down = .next s) ∧ ((∀ q, ¬ ownedUp q) → (∀ o, msg o = .next s) ∧ flt = .next s)
      ∧ (∀ l, link = some l → l.up = true → ∃ u, down = .next u ∧ Table.find u.sublinks (port * 8 + sub) = some { l with up := false }
          ∧ u.mem = s.mem ∧ (∀ e ∈ u.fab.ranges, e ∈ s.fab.ranges ∧ e.cmd / 2 ^ 64 ≠ port * 8 + sub + 1)
          ∧ (c ∈ s.cmds → c.kind = .xfer → c.phase = .accepted ∨ (∃ v a, c.phase = .faulted v a) → s.xferPort c = port → c.subl = sub → ∀ d ∈ u.cmds, d.id = c.id → d.phase = .landed 9))
      ∧ (ownedUp pn → peer = none → ∀ o, msg o = .next s)
      ∧ (ownedUp pn → (peer).isSome = true → s.partNo in_ = pn → s.handler pn in_ (hdrHidx header) (hdrGen header) = some d →
          d.freq &&& ~~~ (s.core in_).feat = 0 → (s.core in_).work.inbox.length < 64 → port < 32 → ∃ u v, msg none = .next u
            ∧ (u.core in_).work.inbox = (s.core in_).work.inbox ++ [v] ∧ v.msg.payload = payload
            ∧ v.msg.hdr.toNat % 65536 = 0xC000 + port ∧ v.msg.hdr.toNat / 65536 = header.toNat / 65536 ∧ u.mem = s.mem)
      ∧ (ownedUp pn → (peer).isSome = true → m.enabled = true → m.gaussian = false → s.refuses in_ m = false →
          m.freeFromWix = i :: is → ∃ u, msg (some mb) = .next u ∧ (u.mbx in_ mb.val).wix = (i + 1) % m.depth
            ∧ u.mem = Memory.setAll s.mem ((span (Key.cp in_ (m.offset i)) (plainSlot payload (0xC000 + port) 0 s.tick).length).zip
                (plainSlot payload (0xC000 + port) 0 s.tick)))
      ∧ (ownedUp pn → (peer ≠ some from_ ∨ flit.length ≠ 256) → flt = .next s)
      ∧ (ownedUp pn → peer = some from_ → flit.length = 256 → Config.flitWrite flit = none → flt = .next (s.meterFlits pn 256))
      ∧ (ownedUp pn → peer = some from_ → flit.length = 256 → Config.flitWrite flit = some (proc, addr, bs, id, last) →
          bs ≠ [] → addr % 4096 + bs.length ≤ 4096 →
          ∃ (cmd : Nat) (a : Access), cmd / 2 ^ 64 = port * 8 + sub + 1 ∧ cmd % 2 ^ 64 = id % 2 ^ 64 ∧ a.party = .cmd cmd ∧ a.kind = .w ∧ a.op = .write bs
            ∧ a.tgt = .glob pn proc.toNat addr bs.length ∧ a.home = .station (s.slotStation (addr / 4096 % 128)) ∧ a.range.map (·.cmd) = some cmd
            ∧ (let out := (s.meterFlits pn 256).nextNumber.pass a
               (∀ w ans, out = .done w ans → flt = .next (if last then w.dropRanges cmd else w))
                ∧ (out = .blocked → flt = .next s) ∧ ∀ f, out = .stop f → flt = .fault f))
      ∧ (¬ may → boot = .next s)
      ∧ (may → Config.firstStageOk (img s.fw.next) = false → Config.firstStageOk (img other) = false → ∃ u, boot = .next u
          ∧ u.fw.booted = true ∧ u.fw.recovery = true ∧ u.fw.active = s.fw.active ∧ u.parts = []
          ∧ ∀ k, 2 ^ 64 ≤ k → Memory.get u.mem k = Memory.get s.mem k)
      ∧ (may → ∀ f : Fin 2, ((f = s.fw.next ∧ Config.firstStageOk (img f) = true)
            ∨ (f = other ∧ Config.firstStageOk (img s.fw.next) = false ∧ Config.firstStageOk (img f) = true)) → ∃ u, boot = .next u
          ∧ u.fw.booted = true ∧ u.fw.recovery = false ∧ u.fw.active = f ∧ u.gov.g = 0 ∧ u.fw.measures.head? = some (sm3 (img f))
          ∧ u.parts = [] ∧ (∀ k, 2 ^ 64 ≤ k → Memory.get u.mem k = Memory.get s.mem k)
          ∧ u.badFrames = Config.retiredFrames (s.fw.boots + 1) ∧ (∀ e ∈ u.badFrames, e ∉ u.scrubbed ∧ e ∉ u.dirty)
          ∧ (∀ e ∈ u.sublinks, e.2.lanes ∈ [1, 2, 4, 8] ∧ e.1 % 8 % e.2.lanes = 0 ∧ e.2.owner = none ∧ e.2.up = true)
          ∧ (∀ pt < 32, ∀ lane < 8, ∃ e ∈ u.sublinks, e.1 / 8 = pt ∧ e.1 % 8 ≤ lane ∧ lane < e.1 % 8 + e.2.lanes)
          ∧ (p ∈ s.allCores → s.pcnOf (p / 8) = some n →
              let lacks := (Config.lacks (n * 8 + p % 8) &&& ~~~ 0x10#16) ||| (Config.lacks (n * 8) &&& 0x10#16)
                ||| Table.get 0 s.worn (n * 8 + p % 8)
              (u.core p).bin = Config.binCode (s.fw.boots + 1) (n * 8 + p % 8) ∧ (u.core p).cur = (u.core p).bin
                ∧ (u.core p).feat = s.variantMask &&& ~~~ lacks ∧ (u.core p).state = (if s.variantMask &&& lacks = 0 then 0 else 1)
                ∧ (u.core p).stvec = Config.trapEntry (s.fw.boots + 1) &&& 0xFFFFFFFFFFFFFFFC))
      ∧ (s.tick < g.due → exec (.governorSample w) s = .next s)
      ∧ (g.due ≤ s.tick → ∃ u, exec (.governorSample w) s = .next u ∧ u.gov.g.val = g' ∧ u.gov.due = s.tick + 1000 ∧ u.gov.cap = g.cap
          ∧ u.gov.samples = all ∧ u.gov.below = (if 100 ≤ low then 0 else low)
          ∧ u.host.irqs = s.host.irqs + (if g.g.val = 63 ∧ (19000 < w.amps ∨ g.cap < w.watts) then 1 else 0)
          ∧ (∀ q, (s.core q).running = true → u.core q = s.core q)
          ∧ (∀ q ∈ s.cores, (s.core q.1).running = false → (u.core q.1).cur.val = (s.core q.1).bin.val - g'))
      ∧ (Table.find s.parts pn = none → exec (.usageRecord pn) s = .next s)
      ∧ (Table.find s.parts pn = some t → s.tick < t.usageAt → exec (.usageRecord pn) s = .next s)
      ∧ (Table.find s.parts pn = some t → t.usageAt ≤ s.tick → ∃ u v, exec (.usageRecord pn) s = .next u
          ∧ u.host.usageQ0 = s.host.usageQ0 ++ [(pn, v)] ∧ u.host.usageQ1 = s.host.usageQ1 ++ [(pn, v)] ∧ v ∈ (u.part pn).usage
          ∧ v.tend = s.tick ∧ v.ctr = t.meter.words ∧ v.taken = false ∧ v.flags = (if t.periodNew then 2 else 0)
          ∧ v.sig = sm2Sign (v.body pn) ∧ (u.part pn).usageAt = s.tick + t.period ∧ (u.part pn).periodNew = false
          ∧ (∀ j : Fin 2, (u.queue (.pf j) 1).used = ((qu (.pf j) 1).used + 1) % 65536)
          ∧ (∀ o ∈ t.usage.getLast?, v.seq = o.seq + 1 ∧ v.tstart = o.tend ∧ v.prev = sm3 (o.bytes pn))
          ∧ (t.usage = [] → v.seq = 0 ∧ v.tstart = t.created ∧ v.prev = 0))
      ∧ (let q := if pf.val = 0 then s.host.usageQ0 else s.host.usageQ1
         (q = [] → exec (.usageQueueTake pf) s = .next s)
          ∧ (q = x :: xs → ∃ u, exec (.usageQueueTake pf) s = .next u ∧ (if pf.val = 0 then u.host.usageQ0 else u.host.usageQ1) = xs
              ∧ u.mem = s.mem ∧ ((Table.find s.parts x.1).isSome = true → x.2.taken = false → ∀ v ∈ (u.part x.1).usage, v.seq = x.2.seq → v.taken = true)))
      ∧ (s.dirty.find? (fun e => e.1 == station) = none → exec (.frameScrub station) s = .next s)
      ∧ (s.dirty.find? (fun e => e.1 == station) = some e → ∃ u, exec (.frameScrub station) s = .next u ∧ e ∈ u.scrubbed
          ∧ u.dirty = s.dirty.erase e ∧ ∀ k, Memory.get u.mem k =
            if Key.hbm e.1 (e.2 * 4096) ≤ k ∧ k < Key.hbm e.1 (e.2 * 4096) + 4096 then 0 else Memory.get s.mem k)
      ∧ (s.published fn = false → exec (.featuresOk fn fs) s = .next s)
      ∧ (s.published fn = true → ∃ u, exec (.featuresOk fn fs) s = .next u ∧ (fn, !fs.getLsbD 34) ∈ u.host.featuresOk
          ∧ (∀ q ∈ u.host.featuresOk, q.1 = fn → q.2 = !fs.getLsbD 34) ∧ u.mem = s.mem)
      ∧ (queued fn sub → turn (.interrupt fn sub) = .next
          { s with host := { s.host with queues := Table.set s.host.queues (queueKey fn sub) { qu fn sub with told := (qu fn sub).used } } })
      ∧ (queued fn sub → (∃ k, 1 ≤ k ∧ k ≤ 10 ∧ n = 2 ^ k) → turn (.queueSize fn sub n) = .next
          { s with host := { s.host with queues := Table.set s.host.queues (queueKey fn sub) { qu fn sub with size := n } } })
      ∧ (¬ queued fn sub → turn (.interrupt fn sub) = .next s ∧ turn (.queueSize fn sub n) = .next s)

/-! ## Reset, and the invariant of memory -/

/-- 00 R6, 01 R14, R30, 07 R101, 16 R236, 18 R258, 24 R330, R335: at reset no strand runs and no partition exists; every register and field that the
spec's maps give reads its Reset value, and those with a dash read as zero until firmware has set them; nothing is queued or travels; firmware has
not booted; G is 0 and the power cap 10,000 W. That the general, predicate and vector registers and the accumulators, which no map gives, are zero
is the model's choice (log entry 3), and so is every byte of memory that nothing has written (log entry 4) and the number of a CP's banks (log
entry 96). -/
def Obligations.ResetHoldsTheResetColumns : Prop :=
  let s := State.reset
  s.tick = 0 ∧ s.parts = [] ∧ s.cmds = [] ∧ s.fw.booted = false ∧ s.fw.recovery = false ∧ s.fw.boots = 0 ∧ s.gov.g = 0 ∧ s.gov.cap = 10000
    ∧ s.sublinks = [] ∧ s.retired = [] ∧ s.worn = [] ∧ s.badFrames = [] ∧ s.scrubbed = [] ∧ s.spares = [] ∧ s.logs = [] ∧ s.agenda = []
    ∧ s.host.results = [] ∧ s.host.bindings = [] ∧ s.host.images = [] ∧ s.host.featuresOk = [] ∧ s.host.queues = [] ∧ s.host.irqs = 0
    ∧ s.fab.net = [] ∧ s.fab.issue = [] ∧ s.fab.bufs = [] ∧ s.fab.retries = [] ∧ s.fab.lines = [] ∧ s.fab.ranges = [] ∧ s.fab.repl = []
    ∧ s.fab.deadLinks = [] ∧ s.fab.draining = false ∧ s.fab.stucklim = 65536 ∧ s.cycle = none ∧ s.cpBanks = 32
    ∧ (∀ k, Memory.get s.mem k = 0 ∧ Memory.get s.firmwareMem k = 0)
    ∧ ∀ (p : Place) (q : SeqId) (i : Nat),
      let c := s.core p
      let r := c.st.csr
      let x := s.seqAt p q
      c.running = false ∧ c.part = none ∧ c.parkedFault = false ∧ c.testing = false
        ∧ (c.bin = 0 ∧ c.cur = 0 ∧ c.state = 0 ∧ c.feat = 0 ∧ c.retiring = 0 ∧ c.stvec = 0 ∧ c.lost = 0)
        ∧ (r.fpmode = 0 ∧ r.fpstat = 0 ∧ r.deadline = 0 ∧ r.utvec = 0 ∧ r.utmask = 0 ∧ r.hid = 0 ∧ r.wid = 0 ∧ r.wfw = 0 ∧ r.proc = 0)
        ∧ (r.xferid = 0 ∧ r.holdst = ⟨0, 0, 0, false, false, false, false⟩ ∧ r.cause = ⟨false, false, false, 0⟩ ∧ r.apc = 0 ∧ r.xpc = 0
            ∧ r.tval = 0 ∧ r.budget = 0 ∧ r.left = 0 ∧ r.cyc = 0)
        ∧ (x.present = false ∧ x.pc = 0 ∧ x.level = .user ∧ x.wait = none ∧ x.fetched = [] ∧ x.stores = [])
        ∧ (∀ j : Fin 64, x.s[j] = 0 ∧ x.sups[j] = 0) ∧ (∀ j : Fin 8, x.k[j] = 0 ∧ x.supk[j] = 0)
        ∧ (∀ (j : Fin 32) (l : Fin 32), c.st.vec.v[j][l] = 0) ∧ c.st.vec.streams = []
        ∧ (∀ (j : Fin 4) (l : Fin 1024), c.st.mat.acc[j][l] = 0) ∧ c.st.gmu.tau = 0x35800000 ∧ c.st.gmu.eps = 0
        ∧ (∀ j : Fin 4, c.st.q.lq[j] = []) ∧ c.st.q.sq = []
        ∧ c.work.inbox = [] ∧ c.work.cplq = [] ∧ c.work.deque = [] ∧ c.work.overflow = []
        ∧ (s.mbx p i).enabled = false ∧ Table.get 0 c.objs.sems i = 0 ∧ c.nE = [] ∧ c.nW = [] ∧ c.fe = false ∧ c.fw = false
        ∧ c.interval = 0 ∧ c.filter = [] ∧ c.pendFaults = []
        ∧ (s.clus p).icache = [] ∧ (s.clus p).place = [] ∧ (s.clus p).perm = []

/-- Reset memory is in canonical form. -/
def Obligations.ResetMemoryIsCanonical : Prop := State.reset.memoryWf

/-- Every step keeps memory in canonical form (keys rising, no cell equal to what an unlisted key reads as), so that equal
memories are equal data: from every state, over every instruction, event and turn. -/
def Obligations.StepsKeepMemoryCanonical : Prop :=
  ∀ s t : State, s.memoryWf → step s = .next t → t.memoryWf
end

