-- ==== Sys2Proof/Laws/Table.lean ====
section
/-! SUPPORT. Tables: a read after a write, a write after a write. -/

namespace Sys2Proof.Machine

variable {α : Type}

@[simp] theorem Table.get_nil (d : α) (k : Nat) : Table.get d [] k = d := rfl

@[simp] theorem Table.get_set_self (d : α) (t : Table α) (k : Nat) (v : α) :
    Table.get d (Table.set t k v) k = v := by
  induction t with
  | nil => simp [Table.set, Table.get]
  | cons e t ih =>
    obtain ⟨k', v'⟩ := e
    simp only [Table.set]
    split
    · simp [Table.get]
    · split
      · simp [Table.get]
      · simp_all [Table.get]

theorem Table.get_set_ne (d : α) (t : Table α) {k j : Nat} (v : α) (h : j ≠ k) :
    Table.get d (Table.set t k v) j = Table.get d t j := by
  induction t with
  | nil => simp [Table.set, Table.get, h]
  | cons e t ih =>
    obtain ⟨k', v'⟩ := e
    simp only [Table.set]
    split
    · simp [Table.get, h]
    · split
      · simp_all [Table.get]
      · simp_all [Table.get]

/-- A read after a write: the written value at its key, the old one elsewhere. -/
theorem Table.get_set (d : α) (t : Table α) (k j : Nat) (v : α) :
    Table.get d (Table.set t k v) j = if j = k then v else Table.get d t j := by
  by_cases h : j = k
  · simp [h]
  · simp [h, Table.get_set_ne]

@[simp] theorem Table.set_set (t : Table α) (k : Nat) (v w : α) :
    Table.set (Table.set t k v) k w = Table.set t k w := by
  induction t with
  | nil => simp [Table.set]
  | cons e t ih =>
    obtain ⟨k', v'⟩ := e
    by_cases h1 : k < k'
    · simp [Table.set, h1]
    · by_cases h2 : k = k'
      · subst h2; simp [Table.set]
      · simp [Table.set, h1, h2, ih]

@[simp] theorem Table.find_nil (k : Nat) : Table.find ([] : Table α) k = none := rfl

@[simp] theorem Table.find_set_self (t : Table α) (k : Nat) (v : α) : Table.find (Table.set t k v) k = some v := by
  induction t with
  | nil => simp [Table.set, Table.find]
  | cons e t ih =>
    obtain ⟨k', v'⟩ := e
    simp only [Table.set]
    split
    · simp [Table.find]
    · split
      · simp [Table.find]
      · simp_all [Table.find]

theorem Table.find_set_ne (t : Table α) {k j : Nat} (v : α) (h : j ≠ k) :
    Table.find (Table.set t k v) j = Table.find t j := by
  induction t with
  | nil => simp [Table.set, Table.find, h]
  | cons e t ih =>
    obtain ⟨k', v'⟩ := e
    simp only [Table.set]
    split
    · simp [Table.find, h]
    · split
      · simp_all [Table.find]
      · simp_all [Table.find]

/-- A table's value is its entry's, or the default. -/
theorem Table.get_eq_find (d : α) (t : Table α) (k : Nat) : Table.get d t k = (Table.find t k).getD d := by
  induction t with
  | nil => rfl
  | cons e t ih =>
    obtain ⟨k', v'⟩ := e
    simp only [Table.get, Table.find]
    split <;> simp [ih]

/-- A dropped key reads as the default. -/
@[simp] theorem Table.get_drop_self (d : α) (t : Table α) (k : Nat) : Table.get d (Table.drop t k) k = d := by
  induction t with
  | nil => rfl
  | cons e t ih =>
    obtain ⟨k', v'⟩ := e
    by_cases h : k' = k
    · simpa [Table.drop, h] using ih
    · have h' : k ≠ k' := fun e => h e.symm
      simpa [Table.drop, h, Table.get, h'] using ih

end Sys2Proof.Machine
end

