-- ==== Sys2Proof/Laws/State.lean ====
section
/-! SUPPORT. The fields of the module's state after each update of one of its parts, and the parts after an update of a
part: no later proof unfolds a record update. -/

namespace Sys2Proof.Machine

/-! ## Fields that an update leaves alone -/

@[simp] theorem State.setCore_variant (s : State) (p : Place) (c : Core) : (s.setCore p c).variant = s.variant := rfl
@[simp] theorem State.setCore_tick (s : State) (p : Place) (c : Core) : (s.setCore p c).tick = s.tick := rfl
@[simp] theorem State.setCore_mem (s : State) (p : Place) (c : Core) : (s.setCore p c).mem = s.mem := rfl
@[simp] theorem State.setCore_firmwareMem (s : State) (p : Place) (c : Core) : (s.setCore p c).firmwareMem = s.firmwareMem := rfl
@[simp] theorem State.setCore_clusters (s : State) (p : Place) (c : Core) : (s.setCore p c).clusters = s.clusters := rfl
@[simp] theorem State.setCore_parts (s : State) (p : Place) (c : Core) : (s.setCore p c).parts = s.parts := rfl
@[simp] theorem State.setCore_cmds (s : State) (p : Place) (c : Core) : (s.setCore p c).cmds = s.cmds := rfl
@[simp] theorem State.setCore_fab (s : State) (p : Place) (c : Core) : (s.setCore p c).fab = s.fab := rfl
@[simp] theorem State.setCore_fw (s : State) (p : Place) (c : Core) : (s.setCore p c).fw = s.fw := rfl
@[simp] theorem State.setCore_gov (s : State) (p : Place) (c : Core) : (s.setCore p c).gov = s.gov := rfl
@[simp] theorem State.setCore_host (s : State) (p : Place) (c : Core) : (s.setCore p c).host = s.host := rfl
@[simp] theorem State.setCore_sublinks (s : State) (p : Place) (c : Core) : (s.setCore p c).sublinks = s.sublinks := rfl
@[simp] theorem State.setCore_retired (s : State) (p : Place) (c : Core) : (s.setCore p c).retired = s.retired := rfl
@[simp] theorem State.setCore_badFrames (s : State) (p : Place) (c : Core) : (s.setCore p c).badFrames = s.badFrames := rfl
@[simp] theorem State.setCore_frames (s : State) (p : Place) (c : Core) : (s.setCore p c).frames = s.frames := rfl
@[simp] theorem State.setCore_scrubbed (s : State) (p : Place) (c : Core) : (s.setCore p c).scrubbed = s.scrubbed := rfl
@[simp] theorem State.setCore_dirty (s : State) (p : Place) (c : Core) : (s.setCore p c).dirty = s.dirty := rfl
@[simp] theorem State.setCore_logs (s : State) (p : Place) (c : Core) : (s.setCore p c).logs = s.logs := rfl
@[simp] theorem State.setCore_agenda (s : State) (p : Place) (c : Core) : (s.setCore p c).agenda = s.agenda := rfl
@[simp] theorem State.setCore_cur (s : State) (p : Place) (c : Core) : (s.setCore p c).cur = s.cur := rfl
@[simp] theorem State.setCore_slowTurn (s : State) (p : Place) (c : Core) : (s.setCore p c).slowTurn = s.slowTurn := rfl
@[simp] theorem State.setCore_nextSid (s : State) (p : Place) (c : Core) : (s.setCore p c).nextSid = s.nextSid := rfl
@[simp] theorem State.setCore_nextCmd (s : State) (p : Place) (c : Core) : (s.setCore p c).nextCmd = s.nextCmd := rfl
@[simp] theorem State.setCore_saves (s : State) (p : Place) (c : Core) : (s.setCore p c).saves = s.saves := rfl
@[simp] theorem State.setCore_free (s : State) (p : Place) (c : Core) : (s.setCore p c).free = s.free := rfl
@[simp] theorem State.setCore_spares (s : State) (p : Place) (c : Core) : (s.setCore p c).spares = s.spares := rfl
@[simp] theorem State.setCore_worn (s : State) (p : Place) (c : Core) : (s.setCore p c).worn = s.worn := rfl
@[simp] theorem State.setCore_cycle (s : State) (p : Place) (c : Core) : (s.setCore p c).cycle = s.cycle := rfl
@[simp] theorem State.setCore_cpBanks (s : State) (p : Place) (c : Core) : (s.setCore p c).cpBanks = s.cpBanks := rfl
@[simp] theorem State.setCore_pubs (s : State) (p : Place) (c : Core) : (s.setCore p c).pubs = s.pubs := rfl

@[simp] theorem State.modCore_variant (s : State) (p : Place) (f : Core → Core) : (s.modCore p f).variant = s.variant := rfl
@[simp] theorem State.modCore_tick (s : State) (p : Place) (f : Core → Core) : (s.modCore p f).tick = s.tick := rfl
@[simp] theorem State.modCore_mem (s : State) (p : Place) (f : Core → Core) : (s.modCore p f).mem = s.mem := rfl
@[simp] theorem State.modCore_firmwareMem (s : State) (p : Place) (f : Core → Core) : (s.modCore p f).firmwareMem = s.firmwareMem := rfl
@[simp] theorem State.modCore_clusters (s : State) (p : Place) (f : Core → Core) : (s.modCore p f).clusters = s.clusters := rfl
@[simp] theorem State.modCore_parts (s : State) (p : Place) (f : Core → Core) : (s.modCore p f).parts = s.parts := rfl
@[simp] theorem State.modCore_cmds (s : State) (p : Place) (f : Core → Core) : (s.modCore p f).cmds = s.cmds := rfl
@[simp] theorem State.modCore_fab (s : State) (p : Place) (f : Core → Core) : (s.modCore p f).fab = s.fab := rfl
@[simp] theorem State.modCore_fw (s : State) (p : Place) (f : Core → Core) : (s.modCore p f).fw = s.fw := rfl
@[simp] theorem State.modCore_gov (s : State) (p : Place) (f : Core → Core) : (s.modCore p f).gov = s.gov := rfl
@[simp] theorem State.modCore_host (s : State) (p : Place) (f : Core → Core) : (s.modCore p f).host = s.host := rfl
@[simp] theorem State.modCore_sublinks (s : State) (p : Place) (f : Core → Core) : (s.modCore p f).sublinks = s.sublinks := rfl
@[simp] theorem State.modCore_retired (s : State) (p : Place) (f : Core → Core) : (s.modCore p f).retired = s.retired := rfl
@[simp] theorem State.modCore_badFrames (s : State) (p : Place) (f : Core → Core) : (s.modCore p f).badFrames = s.badFrames := rfl
@[simp] theorem State.modCore_frames (s : State) (p : Place) (f : Core → Core) : (s.modCore p f).frames = s.frames := rfl
@[simp] theorem State.modCore_scrubbed (s : State) (p : Place) (f : Core → Core) : (s.modCore p f).scrubbed = s.scrubbed := rfl
@[simp] theorem State.modCore_dirty (s : State) (p : Place) (f : Core → Core) : (s.modCore p f).dirty = s.dirty := rfl
@[simp] theorem State.modCore_logs (s : State) (p : Place) (f : Core → Core) : (s.modCore p f).logs = s.logs := rfl
@[simp] theorem State.modCore_agenda (s : State) (p : Place) (f : Core → Core) : (s.modCore p f).agenda = s.agenda := rfl
@[simp] theorem State.modCore_cur (s : State) (p : Place) (f : Core → Core) : (s.modCore p f).cur = s.cur := rfl
@[simp] theorem State.modCore_slowTurn (s : State) (p : Place) (f : Core → Core) : (s.modCore p f).slowTurn = s.slowTurn := rfl
@[simp] theorem State.modCore_nextSid (s : State) (p : Place) (f : Core → Core) : (s.modCore p f).nextSid = s.nextSid := rfl
@[simp] theorem State.modCore_nextCmd (s : State) (p : Place) (f : Core → Core) : (s.modCore p f).nextCmd = s.nextCmd := rfl
@[simp] theorem State.modCore_saves (s : State) (p : Place) (f : Core → Core) : (s.modCore p f).saves = s.saves := rfl
@[simp] theorem State.modCore_free (s : State) (p : Place) (f : Core → Core) : (s.modCore p f).free = s.free := rfl
@[simp] theorem State.modCore_spares (s : State) (p : Place) (f : Core → Core) : (s.modCore p f).spares = s.spares := rfl
@[simp] theorem State.modCore_worn (s : State) (p : Place) (f : Core → Core) : (s.modCore p f).worn = s.worn := rfl
@[simp] theorem State.modCore_cycle (s : State) (p : Place) (f : Core → Core) : (s.modCore p f).cycle = s.cycle := rfl
@[simp] theorem State.modCore_cpBanks (s : State) (p : Place) (f : Core → Core) : (s.modCore p f).cpBanks = s.cpBanks := rfl
@[simp] theorem State.modCore_pubs (s : State) (p : Place) (f : Core → Core) : (s.modCore p f).pubs = s.pubs := rfl

@[simp] theorem State.modStrand_variant (s : State) (p : Place) (f : Strand → Strand) : (s.modStrand p f).variant = s.variant := rfl
@[simp] theorem State.modStrand_tick (s : State) (p : Place) (f : Strand → Strand) : (s.modStrand p f).tick = s.tick := rfl
@[simp] theorem State.modStrand_mem (s : State) (p : Place) (f : Strand → Strand) : (s.modStrand p f).mem = s.mem := rfl
@[simp] theorem State.modStrand_firmwareMem (s : State) (p : Place) (f : Strand → Strand) : (s.modStrand p f).firmwareMem = s.firmwareMem := rfl
@[simp] theorem State.modStrand_clusters (s : State) (p : Place) (f : Strand → Strand) : (s.modStrand p f).clusters = s.clusters := rfl
@[simp] theorem State.modStrand_parts (s : State) (p : Place) (f : Strand → Strand) : (s.modStrand p f).parts = s.parts := rfl
@[simp] theorem State.modStrand_cmds (s : State) (p : Place) (f : Strand → Strand) : (s.modStrand p f).cmds = s.cmds := rfl
@[simp] theorem State.modStrand_fab (s : State) (p : Place) (f : Strand → Strand) : (s.modStrand p f).fab = s.fab := rfl
@[simp] theorem State.modStrand_fw (s : State) (p : Place) (f : Strand → Strand) : (s.modStrand p f).fw = s.fw := rfl
@[simp] theorem State.modStrand_gov (s : State) (p : Place) (f : Strand → Strand) : (s.modStrand p f).gov = s.gov := rfl
@[simp] theorem State.modStrand_host (s : State) (p : Place) (f : Strand → Strand) : (s.modStrand p f).host = s.host := rfl
@[simp] theorem State.modStrand_sublinks (s : State) (p : Place) (f : Strand → Strand) : (s.modStrand p f).sublinks = s.sublinks := rfl
@[simp] theorem State.modStrand_retired (s : State) (p : Place) (f : Strand → Strand) : (s.modStrand p f).retired = s.retired := rfl
@[simp] theorem State.modStrand_badFrames (s : State) (p : Place) (f : Strand → Strand) : (s.modStrand p f).badFrames = s.badFrames := rfl
@[simp] theorem State.modStrand_frames (s : State) (p : Place) (f : Strand → Strand) : (s.modStrand p f).frames = s.frames := rfl
@[simp] theorem State.modStrand_scrubbed (s : State) (p : Place) (f : Strand → Strand) : (s.modStrand p f).scrubbed = s.scrubbed := rfl
@[simp] theorem State.modStrand_dirty (s : State) (p : Place) (f : Strand → Strand) : (s.modStrand p f).dirty = s.dirty := rfl
@[simp] theorem State.modStrand_logs (s : State) (p : Place) (f : Strand → Strand) : (s.modStrand p f).logs = s.logs := rfl
@[simp] theorem State.modStrand_agenda (s : State) (p : Place) (f : Strand → Strand) : (s.modStrand p f).agenda = s.agenda := rfl
@[simp] theorem State.modStrand_cur (s : State) (p : Place) (f : Strand → Strand) : (s.modStrand p f).cur = s.cur := rfl
@[simp] theorem State.modStrand_slowTurn (s : State) (p : Place) (f : Strand → Strand) : (s.modStrand p f).slowTurn = s.slowTurn := rfl
@[simp] theorem State.modStrand_nextSid (s : State) (p : Place) (f : Strand → Strand) : (s.modStrand p f).nextSid = s.nextSid := rfl
@[simp] theorem State.modStrand_nextCmd (s : State) (p : Place) (f : Strand → Strand) : (s.modStrand p f).nextCmd = s.nextCmd := rfl
@[simp] theorem State.modStrand_saves (s : State) (p : Place) (f : Strand → Strand) : (s.modStrand p f).saves = s.saves := rfl
@[simp] theorem State.modStrand_free (s : State) (p : Place) (f : Strand → Strand) : (s.modStrand p f).free = s.free := rfl
@[simp] theorem State.modStrand_spares (s : State) (p : Place) (f : Strand → Strand) : (s.modStrand p f).spares = s.spares := rfl
@[simp] theorem State.modStrand_worn (s : State) (p : Place) (f : Strand → Strand) : (s.modStrand p f).worn = s.worn := rfl
@[simp] theorem State.modStrand_cycle (s : State) (p : Place) (f : Strand → Strand) : (s.modStrand p f).cycle = s.cycle := rfl
@[simp] theorem State.modStrand_cpBanks (s : State) (p : Place) (f : Strand → Strand) : (s.modStrand p f).cpBanks = s.cpBanks := rfl
@[simp] theorem State.modStrand_pubs (s : State) (p : Place) (f : Strand → Strand) : (s.modStrand p f).pubs = s.pubs := rfl

@[simp] theorem State.modSeqAt_variant (s : State) (p : Place) (q : SeqId) (f : Seq → Seq) : (s.modSeqAt p q f).variant = s.variant := rfl
@[simp] theorem State.modSeqAt_tick (s : State) (p : Place) (q : SeqId) (f : Seq → Seq) : (s.modSeqAt p q f).tick = s.tick := rfl
@[simp] theorem State.modSeqAt_mem (s : State) (p : Place) (q : SeqId) (f : Seq → Seq) : (s.modSeqAt p q f).mem = s.mem := rfl
@[simp] theorem State.modSeqAt_firmwareMem (s : State) (p : Place) (q : SeqId) (f : Seq → Seq) : (s.modSeqAt p q f).firmwareMem = s.firmwareMem := rfl
@[simp] theorem State.modSeqAt_clusters (s : State) (p : Place) (q : SeqId) (f : Seq → Seq) : (s.modSeqAt p q f).clusters = s.clusters := rfl
@[simp] theorem State.modSeqAt_parts (s : State) (p : Place) (q : SeqId) (f : Seq → Seq) : (s.modSeqAt p q f).parts = s.parts := rfl
@[simp] theorem State.modSeqAt_cmds (s : State) (p : Place) (q : SeqId) (f : Seq → Seq) : (s.modSeqAt p q f).cmds = s.cmds := rfl
@[simp] theorem State.modSeqAt_fab (s : State) (p : Place) (q : SeqId) (f : Seq → Seq) : (s.modSeqAt p q f).fab = s.fab := rfl
@[simp] theorem State.modSeqAt_fw (s : State) (p : Place) (q : SeqId) (f : Seq → Seq) : (s.modSeqAt p q f).fw = s.fw := rfl
@[simp] theorem State.modSeqAt_gov (s : State) (p : Place) (q : SeqId) (f : Seq → Seq) : (s.modSeqAt p q f).gov = s.gov := rfl
@[simp] theorem State.modSeqAt_host (s : State) (p : Place) (q : SeqId) (f : Seq → Seq) : (s.modSeqAt p q f).host = s.host := rfl
@[simp] theorem State.modSeqAt_sublinks (s : State) (p : Place) (q : SeqId) (f : Seq → Seq) : (s.modSeqAt p q f).sublinks = s.sublinks := rfl
@[simp] theorem State.modSeqAt_retired (s : State) (p : Place) (q : SeqId) (f : Seq → Seq) : (s.modSeqAt p q f).retired = s.retired := rfl
@[simp] theorem State.modSeqAt_badFrames (s : State) (p : Place) (q : SeqId) (f : Seq → Seq) : (s.modSeqAt p q f).badFrames = s.badFrames := rfl
@[simp] theorem State.modSeqAt_frames (s : State) (p : Place) (q : SeqId) (f : Seq → Seq) : (s.modSeqAt p q f).frames = s.frames := rfl
@[simp] theorem State.modSeqAt_scrubbed (s : State) (p : Place) (q : SeqId) (f : Seq → Seq) : (s.modSeqAt p q f).scrubbed = s.scrubbed := rfl
@[simp] theorem State.modSeqAt_dirty (s : State) (p : Place) (q : SeqId) (f : Seq → Seq) : (s.modSeqAt p q f).dirty = s.dirty := rfl
@[simp] theorem State.modSeqAt_logs (s : State) (p : Place) (q : SeqId) (f : Seq → Seq) : (s.modSeqAt p q f).logs = s.logs := rfl
@[simp] theorem State.modSeqAt_agenda (s : State) (p : Place) (q : SeqId) (f : Seq → Seq) : (s.modSeqAt p q f).agenda = s.agenda := rfl
@[simp] theorem State.modSeqAt_cur (s : State) (p : Place) (q : SeqId) (f : Seq → Seq) : (s.modSeqAt p q f).cur = s.cur := rfl
@[simp] theorem State.modSeqAt_slowTurn (s : State) (p : Place) (q : SeqId) (f : Seq → Seq) : (s.modSeqAt p q f).slowTurn = s.slowTurn := rfl
@[simp] theorem State.modSeqAt_nextSid (s : State) (p : Place) (q : SeqId) (f : Seq → Seq) : (s.modSeqAt p q f).nextSid = s.nextSid := rfl
@[simp] theorem State.modSeqAt_nextCmd (s : State) (p : Place) (q : SeqId) (f : Seq → Seq) : (s.modSeqAt p q f).nextCmd = s.nextCmd := rfl
@[simp] theorem State.modSeqAt_saves (s : State) (p : Place) (q : SeqId) (f : Seq → Seq) : (s.modSeqAt p q f).saves = s.saves := rfl
@[simp] theorem State.modSeqAt_free (s : State) (p : Place) (q : SeqId) (f : Seq → Seq) : (s.modSeqAt p q f).free = s.free := rfl
@[simp] theorem State.modSeqAt_spares (s : State) (p : Place) (q : SeqId) (f : Seq → Seq) : (s.modSeqAt p q f).spares = s.spares := rfl
@[simp] theorem State.modSeqAt_worn (s : State) (p : Place) (q : SeqId) (f : Seq → Seq) : (s.modSeqAt p q f).worn = s.worn := rfl
@[simp] theorem State.modSeqAt_cycle (s : State) (p : Place) (q : SeqId) (f : Seq → Seq) : (s.modSeqAt p q f).cycle = s.cycle := rfl
@[simp] theorem State.modSeqAt_cpBanks (s : State) (p : Place) (q : SeqId) (f : Seq → Seq) : (s.modSeqAt p q f).cpBanks = s.cpBanks := rfl
@[simp] theorem State.modSeqAt_pubs (s : State) (p : Place) (q : SeqId) (f : Seq → Seq) : (s.modSeqAt p q f).pubs = s.pubs := rfl

@[simp] theorem State.modSeq_variant (s : State) (f : Seq → Seq) : (s.modSeq f).variant = s.variant := rfl
@[simp] theorem State.modSeq_tick (s : State) (f : Seq → Seq) : (s.modSeq f).tick = s.tick := rfl
@[simp] theorem State.modSeq_mem (s : State) (f : Seq → Seq) : (s.modSeq f).mem = s.mem := rfl
@[simp] theorem State.modSeq_firmwareMem (s : State) (f : Seq → Seq) : (s.modSeq f).firmwareMem = s.firmwareMem := rfl
@[simp] theorem State.modSeq_clusters (s : State) (f : Seq → Seq) : (s.modSeq f).clusters = s.clusters := rfl
@[simp] theorem State.modSeq_parts (s : State) (f : Seq → Seq) : (s.modSeq f).parts = s.parts := rfl
@[simp] theorem State.modSeq_cmds (s : State) (f : Seq → Seq) : (s.modSeq f).cmds = s.cmds := rfl
@[simp] theorem State.modSeq_fab (s : State) (f : Seq → Seq) : (s.modSeq f).fab = s.fab := rfl
@[simp] theorem State.modSeq_fw (s : State) (f : Seq → Seq) : (s.modSeq f).fw = s.fw := rfl
@[simp] theorem State.modSeq_gov (s : State) (f : Seq → Seq) : (s.modSeq f).gov = s.gov := rfl
@[simp] theorem State.modSeq_host (s : State) (f : Seq → Seq) : (s.modSeq f).host = s.host := rfl
@[simp] theorem State.modSeq_sublinks (s : State) (f : Seq → Seq) : (s.modSeq f).sublinks = s.sublinks := rfl
@[simp] theorem State.modSeq_retired (s : State) (f : Seq → Seq) : (s.modSeq f).retired = s.retired := rfl
@[simp] theorem State.modSeq_badFrames (s : State) (f : Seq → Seq) : (s.modSeq f).badFrames = s.badFrames := rfl
@[simp] theorem State.modSeq_frames (s : State) (f : Seq → Seq) : (s.modSeq f).frames = s.frames := rfl
@[simp] theorem State.modSeq_scrubbed (s : State) (f : Seq → Seq) : (s.modSeq f).scrubbed = s.scrubbed := rfl
@[simp] theorem State.modSeq_dirty (s : State) (f : Seq → Seq) : (s.modSeq f).dirty = s.dirty := rfl
@[simp] theorem State.modSeq_logs (s : State) (f : Seq → Seq) : (s.modSeq f).logs = s.logs := rfl
@[simp] theorem State.modSeq_agenda (s : State) (f : Seq → Seq) : (s.modSeq f).agenda = s.agenda := rfl
@[simp] theorem State.modSeq_cur (s : State) (f : Seq → Seq) : (s.modSeq f).cur = s.cur := rfl
@[simp] theorem State.modSeq_slowTurn (s : State) (f : Seq → Seq) : (s.modSeq f).slowTurn = s.slowTurn := rfl
@[simp] theorem State.modSeq_nextSid (s : State) (f : Seq → Seq) : (s.modSeq f).nextSid = s.nextSid := rfl
@[simp] theorem State.modSeq_nextCmd (s : State) (f : Seq → Seq) : (s.modSeq f).nextCmd = s.nextCmd := rfl
@[simp] theorem State.modSeq_saves (s : State) (f : Seq → Seq) : (s.modSeq f).saves = s.saves := rfl
@[simp] theorem State.modSeq_free (s : State) (f : Seq → Seq) : (s.modSeq f).free = s.free := rfl
@[simp] theorem State.modSeq_spares (s : State) (f : Seq → Seq) : (s.modSeq f).spares = s.spares := rfl
@[simp] theorem State.modSeq_worn (s : State) (f : Seq → Seq) : (s.modSeq f).worn = s.worn := rfl
@[simp] theorem State.modSeq_cycle (s : State) (f : Seq → Seq) : (s.modSeq f).cycle = s.cycle := rfl
@[simp] theorem State.modSeq_cpBanks (s : State) (f : Seq → Seq) : (s.modSeq f).cpBanks = s.cpBanks := rfl
@[simp] theorem State.modSeq_pubs (s : State) (f : Seq → Seq) : (s.modSeq f).pubs = s.pubs := rfl

@[simp] theorem State.modMe_variant (s : State) (f : Core → Core) : (s.modMe f).variant = s.variant := rfl
@[simp] theorem State.modMe_tick (s : State) (f : Core → Core) : (s.modMe f).tick = s.tick := rfl
@[simp] theorem State.modMe_mem (s : State) (f : Core → Core) : (s.modMe f).mem = s.mem := rfl
@[simp] theorem State.modMe_firmwareMem (s : State) (f : Core → Core) : (s.modMe f).firmwareMem = s.firmwareMem := rfl
@[simp] theorem State.modMe_clusters (s : State) (f : Core → Core) : (s.modMe f).clusters = s.clusters := rfl
@[simp] theorem State.modMe_parts (s : State) (f : Core → Core) : (s.modMe f).parts = s.parts := rfl
@[simp] theorem State.modMe_cmds (s : State) (f : Core → Core) : (s.modMe f).cmds = s.cmds := rfl
@[simp] theorem State.modMe_fab (s : State) (f : Core → Core) : (s.modMe f).fab = s.fab := rfl
@[simp] theorem State.modMe_fw (s : State) (f : Core → Core) : (s.modMe f).fw = s.fw := rfl
@[simp] theorem State.modMe_gov (s : State) (f : Core → Core) : (s.modMe f).gov = s.gov := rfl
@[simp] theorem State.modMe_host (s : State) (f : Core → Core) : (s.modMe f).host = s.host := rfl
@[simp] theorem State.modMe_sublinks (s : State) (f : Core → Core) : (s.modMe f).sublinks = s.sublinks := rfl
@[simp] theorem State.modMe_retired (s : State) (f : Core → Core) : (s.modMe f).retired = s.retired := rfl
@[simp] theorem State.modMe_badFrames (s : State) (f : Core → Core) : (s.modMe f).badFrames = s.badFrames := rfl
@[simp] theorem State.modMe_frames (s : State) (f : Core → Core) : (s.modMe f).frames = s.frames := rfl
@[simp] theorem State.modMe_scrubbed (s : State) (f : Core → Core) : (s.modMe f).scrubbed = s.scrubbed := rfl
@[simp] theorem State.modMe_dirty (s : State) (f : Core → Core) : (s.modMe f).dirty = s.dirty := rfl
@[simp] theorem State.modMe_logs (s : State) (f : Core → Core) : (s.modMe f).logs = s.logs := rfl
@[simp] theorem State.modMe_agenda (s : State) (f : Core → Core) : (s.modMe f).agenda = s.agenda := rfl
@[simp] theorem State.modMe_cur (s : State) (f : Core → Core) : (s.modMe f).cur = s.cur := rfl
@[simp] theorem State.modMe_slowTurn (s : State) (f : Core → Core) : (s.modMe f).slowTurn = s.slowTurn := rfl
@[simp] theorem State.modMe_nextSid (s : State) (f : Core → Core) : (s.modMe f).nextSid = s.nextSid := rfl
@[simp] theorem State.modMe_nextCmd (s : State) (f : Core → Core) : (s.modMe f).nextCmd = s.nextCmd := rfl
@[simp] theorem State.modMe_saves (s : State) (f : Core → Core) : (s.modMe f).saves = s.saves := rfl
@[simp] theorem State.modMe_free (s : State) (f : Core → Core) : (s.modMe f).free = s.free := rfl
@[simp] theorem State.modMe_spares (s : State) (f : Core → Core) : (s.modMe f).spares = s.spares := rfl
@[simp] theorem State.modMe_worn (s : State) (f : Core → Core) : (s.modMe f).worn = s.worn := rfl
@[simp] theorem State.modMe_cycle (s : State) (f : Core → Core) : (s.modMe f).cycle = s.cycle := rfl
@[simp] theorem State.modMe_cpBanks (s : State) (f : Core → Core) : (s.modMe f).cpBanks = s.cpBanks := rfl
@[simp] theorem State.modMe_pubs (s : State) (f : Core → Core) : (s.modMe f).pubs = s.pubs := rfl

@[simp] theorem State.modMy_variant (s : State) (f : Strand → Strand) : (s.modMy f).variant = s.variant := rfl
@[simp] theorem State.modMy_tick (s : State) (f : Strand → Strand) : (s.modMy f).tick = s.tick := rfl
@[simp] theorem State.modMy_mem (s : State) (f : Strand → Strand) : (s.modMy f).mem = s.mem := rfl
@[simp] theorem State.modMy_firmwareMem (s : State) (f : Strand → Strand) : (s.modMy f).firmwareMem = s.firmwareMem := rfl
@[simp] theorem State.modMy_clusters (s : State) (f : Strand → Strand) : (s.modMy f).clusters = s.clusters := rfl
@[simp] theorem State.modMy_parts (s : State) (f : Strand → Strand) : (s.modMy f).parts = s.parts := rfl
@[simp] theorem State.modMy_cmds (s : State) (f : Strand → Strand) : (s.modMy f).cmds = s.cmds := rfl
@[simp] theorem State.modMy_fab (s : State) (f : Strand → Strand) : (s.modMy f).fab = s.fab := rfl
@[simp] theorem State.modMy_fw (s : State) (f : Strand → Strand) : (s.modMy f).fw = s.fw := rfl
@[simp] theorem State.modMy_gov (s : State) (f : Strand → Strand) : (s.modMy f).gov = s.gov := rfl
@[simp] theorem State.modMy_host (s : State) (f : Strand → Strand) : (s.modMy f).host = s.host := rfl
@[simp] theorem State.modMy_sublinks (s : State) (f : Strand → Strand) : (s.modMy f).sublinks = s.sublinks := rfl
@[simp] theorem State.modMy_retired (s : State) (f : Strand → Strand) : (s.modMy f).retired = s.retired := rfl
@[simp] theorem State.modMy_badFrames (s : State) (f : Strand → Strand) : (s.modMy f).badFrames = s.badFrames := rfl
@[simp] theorem State.modMy_frames (s : State) (f : Strand → Strand) : (s.modMy f).frames = s.frames := rfl
@[simp] theorem State.modMy_scrubbed (s : State) (f : Strand → Strand) : (s.modMy f).scrubbed = s.scrubbed := rfl
@[simp] theorem State.modMy_dirty (s : State) (f : Strand → Strand) : (s.modMy f).dirty = s.dirty := rfl
@[simp] theorem State.modMy_logs (s : State) (f : Strand → Strand) : (s.modMy f).logs = s.logs := rfl
@[simp] theorem State.modMy_agenda (s : State) (f : Strand → Strand) : (s.modMy f).agenda = s.agenda := rfl
@[simp] theorem State.modMy_cur (s : State) (f : Strand → Strand) : (s.modMy f).cur = s.cur := rfl
@[simp] theorem State.modMy_slowTurn (s : State) (f : Strand → Strand) : (s.modMy f).slowTurn = s.slowTurn := rfl
@[simp] theorem State.modMy_nextSid (s : State) (f : Strand → Strand) : (s.modMy f).nextSid = s.nextSid := rfl
@[simp] theorem State.modMy_nextCmd (s : State) (f : Strand → Strand) : (s.modMy f).nextCmd = s.nextCmd := rfl
@[simp] theorem State.modMy_saves (s : State) (f : Strand → Strand) : (s.modMy f).saves = s.saves := rfl
@[simp] theorem State.modMy_free (s : State) (f : Strand → Strand) : (s.modMy f).free = s.free := rfl
@[simp] theorem State.modMy_spares (s : State) (f : Strand → Strand) : (s.modMy f).spares = s.spares := rfl
@[simp] theorem State.modMy_worn (s : State) (f : Strand → Strand) : (s.modMy f).worn = s.worn := rfl
@[simp] theorem State.modMy_cycle (s : State) (f : Strand → Strand) : (s.modMy f).cycle = s.cycle := rfl
@[simp] theorem State.modMy_cpBanks (s : State) (f : Strand → Strand) : (s.modMy f).cpBanks = s.cpBanks := rfl
@[simp] theorem State.modMy_pubs (s : State) (f : Strand → Strand) : (s.modMy f).pubs = s.pubs := rfl

@[simp] theorem State.modObjs_variant (s : State) (p : Place) (f : Objs → Objs) : (s.modObjs p f).variant = s.variant := rfl
@[simp] theorem State.modObjs_tick (s : State) (p : Place) (f : Objs → Objs) : (s.modObjs p f).tick = s.tick := rfl
@[simp] theorem State.modObjs_mem (s : State) (p : Place) (f : Objs → Objs) : (s.modObjs p f).mem = s.mem := rfl
@[simp] theorem State.modObjs_firmwareMem (s : State) (p : Place) (f : Objs → Objs) : (s.modObjs p f).firmwareMem = s.firmwareMem := rfl
@[simp] theorem State.modObjs_clusters (s : State) (p : Place) (f : Objs → Objs) : (s.modObjs p f).clusters = s.clusters := rfl
@[simp] theorem State.modObjs_parts (s : State) (p : Place) (f : Objs → Objs) : (s.modObjs p f).parts = s.parts := rfl
@[simp] theorem State.modObjs_cmds (s : State) (p : Place) (f : Objs → Objs) : (s.modObjs p f).cmds = s.cmds := rfl
@[simp] theorem State.modObjs_fab (s : State) (p : Place) (f : Objs → Objs) : (s.modObjs p f).fab = s.fab := rfl
@[simp] theorem State.modObjs_fw (s : State) (p : Place) (f : Objs → Objs) : (s.modObjs p f).fw = s.fw := rfl
@[simp] theorem State.modObjs_gov (s : State) (p : Place) (f : Objs → Objs) : (s.modObjs p f).gov = s.gov := rfl
@[simp] theorem State.modObjs_host (s : State) (p : Place) (f : Objs → Objs) : (s.modObjs p f).host = s.host := rfl
@[simp] theorem State.modObjs_sublinks (s : State) (p : Place) (f : Objs → Objs) : (s.modObjs p f).sublinks = s.sublinks := rfl
@[simp] theorem State.modObjs_retired (s : State) (p : Place) (f : Objs → Objs) : (s.modObjs p f).retired = s.retired := rfl
@[simp] theorem State.modObjs_badFrames (s : State) (p : Place) (f : Objs → Objs) : (s.modObjs p f).badFrames = s.badFrames := rfl
@[simp] theorem State.modObjs_frames (s : State) (p : Place) (f : Objs → Objs) : (s.modObjs p f).frames = s.frames := rfl
@[simp] theorem State.modObjs_scrubbed (s : State) (p : Place) (f : Objs → Objs) : (s.modObjs p f).scrubbed = s.scrubbed := rfl
@[simp] theorem State.modObjs_dirty (s : State) (p : Place) (f : Objs → Objs) : (s.modObjs p f).dirty = s.dirty := rfl
@[simp] theorem State.modObjs_logs (s : State) (p : Place) (f : Objs → Objs) : (s.modObjs p f).logs = s.logs := rfl
@[simp] theorem State.modObjs_agenda (s : State) (p : Place) (f : Objs → Objs) : (s.modObjs p f).agenda = s.agenda := rfl
@[simp] theorem State.modObjs_cur (s : State) (p : Place) (f : Objs → Objs) : (s.modObjs p f).cur = s.cur := rfl
@[simp] theorem State.modObjs_slowTurn (s : State) (p : Place) (f : Objs → Objs) : (s.modObjs p f).slowTurn = s.slowTurn := rfl
@[simp] theorem State.modObjs_nextSid (s : State) (p : Place) (f : Objs → Objs) : (s.modObjs p f).nextSid = s.nextSid := rfl
@[simp] theorem State.modObjs_nextCmd (s : State) (p : Place) (f : Objs → Objs) : (s.modObjs p f).nextCmd = s.nextCmd := rfl
@[simp] theorem State.modObjs_saves (s : State) (p : Place) (f : Objs → Objs) : (s.modObjs p f).saves = s.saves := rfl
@[simp] theorem State.modObjs_free (s : State) (p : Place) (f : Objs → Objs) : (s.modObjs p f).free = s.free := rfl
@[simp] theorem State.modObjs_spares (s : State) (p : Place) (f : Objs → Objs) : (s.modObjs p f).spares = s.spares := rfl
@[simp] theorem State.modObjs_worn (s : State) (p : Place) (f : Objs → Objs) : (s.modObjs p f).worn = s.worn := rfl
@[simp] theorem State.modObjs_cycle (s : State) (p : Place) (f : Objs → Objs) : (s.modObjs p f).cycle = s.cycle := rfl
@[simp] theorem State.modObjs_cpBanks (s : State) (p : Place) (f : Objs → Objs) : (s.modObjs p f).cpBanks = s.cpBanks := rfl
@[simp] theorem State.modObjs_pubs (s : State) (p : Place) (f : Objs → Objs) : (s.modObjs p f).pubs = s.pubs := rfl

@[simp] theorem State.modWork_variant (s : State) (p : Place) (f : Work → Work) : (s.modWork p f).variant = s.variant := rfl
@[simp] theorem State.modWork_tick (s : State) (p : Place) (f : Work → Work) : (s.modWork p f).tick = s.tick := rfl
@[simp] theorem State.modWork_mem (s : State) (p : Place) (f : Work → Work) : (s.modWork p f).mem = s.mem := rfl
@[simp] theorem State.modWork_firmwareMem (s : State) (p : Place) (f : Work → Work) : (s.modWork p f).firmwareMem = s.firmwareMem := rfl
@[simp] theorem State.modWork_clusters (s : State) (p : Place) (f : Work → Work) : (s.modWork p f).clusters = s.clusters := rfl
@[simp] theorem State.modWork_parts (s : State) (p : Place) (f : Work → Work) : (s.modWork p f).parts = s.parts := rfl
@[simp] theorem State.modWork_cmds (s : State) (p : Place) (f : Work → Work) : (s.modWork p f).cmds = s.cmds := rfl
@[simp] theorem State.modWork_fab (s : State) (p : Place) (f : Work → Work) : (s.modWork p f).fab = s.fab := rfl
@[simp] theorem State.modWork_fw (s : State) (p : Place) (f : Work → Work) : (s.modWork p f).fw = s.fw := rfl
@[simp] theorem State.modWork_gov (s : State) (p : Place) (f : Work → Work) : (s.modWork p f).gov = s.gov := rfl
@[simp] theorem State.modWork_host (s : State) (p : Place) (f : Work → Work) : (s.modWork p f).host = s.host := rfl
@[simp] theorem State.modWork_sublinks (s : State) (p : Place) (f : Work → Work) : (s.modWork p f).sublinks = s.sublinks := rfl
@[simp] theorem State.modWork_retired (s : State) (p : Place) (f : Work → Work) : (s.modWork p f).retired = s.retired := rfl
@[simp] theorem State.modWork_badFrames (s : State) (p : Place) (f : Work → Work) : (s.modWork p f).badFrames = s.badFrames := rfl
@[simp] theorem State.modWork_frames (s : State) (p : Place) (f : Work → Work) : (s.modWork p f).frames = s.frames := rfl
@[simp] theorem State.modWork_scrubbed (s : State) (p : Place) (f : Work → Work) : (s.modWork p f).scrubbed = s.scrubbed := rfl
@[simp] theorem State.modWork_dirty (s : State) (p : Place) (f : Work → Work) : (s.modWork p f).dirty = s.dirty := rfl
@[simp] theorem State.modWork_logs (s : State) (p : Place) (f : Work → Work) : (s.modWork p f).logs = s.logs := rfl
@[simp] theorem State.modWork_agenda (s : State) (p : Place) (f : Work → Work) : (s.modWork p f).agenda = s.agenda := rfl
@[simp] theorem State.modWork_cur (s : State) (p : Place) (f : Work → Work) : (s.modWork p f).cur = s.cur := rfl
@[simp] theorem State.modWork_slowTurn (s : State) (p : Place) (f : Work → Work) : (s.modWork p f).slowTurn = s.slowTurn := rfl
@[simp] theorem State.modWork_nextSid (s : State) (p : Place) (f : Work → Work) : (s.modWork p f).nextSid = s.nextSid := rfl
@[simp] theorem State.modWork_nextCmd (s : State) (p : Place) (f : Work → Work) : (s.modWork p f).nextCmd = s.nextCmd := rfl
@[simp] theorem State.modWork_saves (s : State) (p : Place) (f : Work → Work) : (s.modWork p f).saves = s.saves := rfl
@[simp] theorem State.modWork_free (s : State) (p : Place) (f : Work → Work) : (s.modWork p f).free = s.free := rfl
@[simp] theorem State.modWork_spares (s : State) (p : Place) (f : Work → Work) : (s.modWork p f).spares = s.spares := rfl
@[simp] theorem State.modWork_worn (s : State) (p : Place) (f : Work → Work) : (s.modWork p f).worn = s.worn := rfl
@[simp] theorem State.modWork_cycle (s : State) (p : Place) (f : Work → Work) : (s.modWork p f).cycle = s.cycle := rfl
@[simp] theorem State.modWork_cpBanks (s : State) (p : Place) (f : Work → Work) : (s.modWork p f).cpBanks = s.cpBanks := rfl
@[simp] theorem State.modWork_pubs (s : State) (p : Place) (f : Work → Work) : (s.modWork p f).pubs = s.pubs := rfl

@[simp] theorem State.modCsr_variant (s : State) (p : Place) (f : Csrs → Csrs) : (s.modCsr p f).variant = s.variant := rfl
@[simp] theorem State.modCsr_tick (s : State) (p : Place) (f : Csrs → Csrs) : (s.modCsr p f).tick = s.tick := rfl
@[simp] theorem State.modCsr_mem (s : State) (p : Place) (f : Csrs → Csrs) : (s.modCsr p f).mem = s.mem := rfl
@[simp] theorem State.modCsr_firmwareMem (s : State) (p : Place) (f : Csrs → Csrs) : (s.modCsr p f).firmwareMem = s.firmwareMem := rfl
@[simp] theorem State.modCsr_clusters (s : State) (p : Place) (f : Csrs → Csrs) : (s.modCsr p f).clusters = s.clusters := rfl
@[simp] theorem State.modCsr_parts (s : State) (p : Place) (f : Csrs → Csrs) : (s.modCsr p f).parts = s.parts := rfl
@[simp] theorem State.modCsr_cmds (s : State) (p : Place) (f : Csrs → Csrs) : (s.modCsr p f).cmds = s.cmds := rfl
@[simp] theorem State.modCsr_fab (s : State) (p : Place) (f : Csrs → Csrs) : (s.modCsr p f).fab = s.fab := rfl
@[simp] theorem State.modCsr_fw (s : State) (p : Place) (f : Csrs → Csrs) : (s.modCsr p f).fw = s.fw := rfl
@[simp] theorem State.modCsr_gov (s : State) (p : Place) (f : Csrs → Csrs) : (s.modCsr p f).gov = s.gov := rfl
@[simp] theorem State.modCsr_host (s : State) (p : Place) (f : Csrs → Csrs) : (s.modCsr p f).host = s.host := rfl
@[simp] theorem State.modCsr_sublinks (s : State) (p : Place) (f : Csrs → Csrs) : (s.modCsr p f).sublinks = s.sublinks := rfl
@[simp] theorem State.modCsr_retired (s : State) (p : Place) (f : Csrs → Csrs) : (s.modCsr p f).retired = s.retired := rfl
@[simp] theorem State.modCsr_badFrames (s : State) (p : Place) (f : Csrs → Csrs) : (s.modCsr p f).badFrames = s.badFrames := rfl
@[simp] theorem State.modCsr_frames (s : State) (p : Place) (f : Csrs → Csrs) : (s.modCsr p f).frames = s.frames := rfl
@[simp] theorem State.modCsr_scrubbed (s : State) (p : Place) (f : Csrs → Csrs) : (s.modCsr p f).scrubbed = s.scrubbed := rfl
@[simp] theorem State.modCsr_dirty (s : State) (p : Place) (f : Csrs → Csrs) : (s.modCsr p f).dirty = s.dirty := rfl
@[simp] theorem State.modCsr_logs (s : State) (p : Place) (f : Csrs → Csrs) : (s.modCsr p f).logs = s.logs := rfl
@[simp] theorem State.modCsr_agenda (s : State) (p : Place) (f : Csrs → Csrs) : (s.modCsr p f).agenda = s.agenda := rfl
@[simp] theorem State.modCsr_cur (s : State) (p : Place) (f : Csrs → Csrs) : (s.modCsr p f).cur = s.cur := rfl
@[simp] theorem State.modCsr_slowTurn (s : State) (p : Place) (f : Csrs → Csrs) : (s.modCsr p f).slowTurn = s.slowTurn := rfl
@[simp] theorem State.modCsr_nextSid (s : State) (p : Place) (f : Csrs → Csrs) : (s.modCsr p f).nextSid = s.nextSid := rfl
@[simp] theorem State.modCsr_nextCmd (s : State) (p : Place) (f : Csrs → Csrs) : (s.modCsr p f).nextCmd = s.nextCmd := rfl
@[simp] theorem State.modCsr_saves (s : State) (p : Place) (f : Csrs → Csrs) : (s.modCsr p f).saves = s.saves := rfl
@[simp] theorem State.modCsr_free (s : State) (p : Place) (f : Csrs → Csrs) : (s.modCsr p f).free = s.free := rfl
@[simp] theorem State.modCsr_spares (s : State) (p : Place) (f : Csrs → Csrs) : (s.modCsr p f).spares = s.spares := rfl
@[simp] theorem State.modCsr_worn (s : State) (p : Place) (f : Csrs → Csrs) : (s.modCsr p f).worn = s.worn := rfl
@[simp] theorem State.modCsr_cycle (s : State) (p : Place) (f : Csrs → Csrs) : (s.modCsr p f).cycle = s.cycle := rfl
@[simp] theorem State.modCsr_cpBanks (s : State) (p : Place) (f : Csrs → Csrs) : (s.modCsr p f).cpBanks = s.cpBanks := rfl
@[simp] theorem State.modCsr_pubs (s : State) (p : Place) (f : Csrs → Csrs) : (s.modCsr p f).pubs = s.pubs := rfl

@[simp] theorem State.setClus_variant (s : State) (n : Nat) (c : Cluster) : (s.setClus n c).variant = s.variant := rfl
@[simp] theorem State.setClus_tick (s : State) (n : Nat) (c : Cluster) : (s.setClus n c).tick = s.tick := rfl
@[simp] theorem State.setClus_mem (s : State) (n : Nat) (c : Cluster) : (s.setClus n c).mem = s.mem := rfl
@[simp] theorem State.setClus_firmwareMem (s : State) (n : Nat) (c : Cluster) : (s.setClus n c).firmwareMem = s.firmwareMem := rfl
@[simp] theorem State.setClus_cores (s : State) (n : Nat) (c : Cluster) : (s.setClus n c).cores = s.cores := rfl
@[simp] theorem State.setClus_parts (s : State) (n : Nat) (c : Cluster) : (s.setClus n c).parts = s.parts := rfl
@[simp] theorem State.setClus_cmds (s : State) (n : Nat) (c : Cluster) : (s.setClus n c).cmds = s.cmds := rfl
@[simp] theorem State.setClus_fab (s : State) (n : Nat) (c : Cluster) : (s.setClus n c).fab = s.fab := rfl
@[simp] theorem State.setClus_fw (s : State) (n : Nat) (c : Cluster) : (s.setClus n c).fw = s.fw := rfl
@[simp] theorem State.setClus_gov (s : State) (n : Nat) (c : Cluster) : (s.setClus n c).gov = s.gov := rfl
@[simp] theorem State.setClus_host (s : State) (n : Nat) (c : Cluster) : (s.setClus n c).host = s.host := rfl
@[simp] theorem State.setClus_sublinks (s : State) (n : Nat) (c : Cluster) : (s.setClus n c).sublinks = s.sublinks := rfl
@[simp] theorem State.setClus_retired (s : State) (n : Nat) (c : Cluster) : (s.setClus n c).retired = s.retired := rfl
@[simp] theorem State.setClus_badFrames (s : State) (n : Nat) (c : Cluster) : (s.setClus n c).badFrames = s.badFrames := rfl
@[simp] theorem State.setClus_frames (s : State) (n : Nat) (c : Cluster) : (s.setClus n c).frames = s.frames := rfl
@[simp] theorem State.setClus_scrubbed (s : State) (n : Nat) (c : Cluster) : (s.setClus n c).scrubbed = s.scrubbed := rfl
@[simp] theorem State.setClus_dirty (s : State) (n : Nat) (c : Cluster) : (s.setClus n c).dirty = s.dirty := rfl
@[simp] theorem State.setClus_logs (s : State) (n : Nat) (c : Cluster) : (s.setClus n c).logs = s.logs := rfl
@[simp] theorem State.setClus_agenda (s : State) (n : Nat) (c : Cluster) : (s.setClus n c).agenda = s.agenda := rfl
@[simp] theorem State.setClus_cur (s : State) (n : Nat) (c : Cluster) : (s.setClus n c).cur = s.cur := rfl
@[simp] theorem State.setClus_slowTurn (s : State) (n : Nat) (c : Cluster) : (s.setClus n c).slowTurn = s.slowTurn := rfl
@[simp] theorem State.setClus_nextSid (s : State) (n : Nat) (c : Cluster) : (s.setClus n c).nextSid = s.nextSid := rfl
@[simp] theorem State.setClus_nextCmd (s : State) (n : Nat) (c : Cluster) : (s.setClus n c).nextCmd = s.nextCmd := rfl
@[simp] theorem State.setClus_saves (s : State) (n : Nat) (c : Cluster) : (s.setClus n c).saves = s.saves := rfl
@[simp] theorem State.setClus_free (s : State) (n : Nat) (c : Cluster) : (s.setClus n c).free = s.free := rfl
@[simp] theorem State.setClus_spares (s : State) (n : Nat) (c : Cluster) : (s.setClus n c).spares = s.spares := rfl
@[simp] theorem State.setClus_worn (s : State) (n : Nat) (c : Cluster) : (s.setClus n c).worn = s.worn := rfl
@[simp] theorem State.setClus_cycle (s : State) (n : Nat) (c : Cluster) : (s.setClus n c).cycle = s.cycle := rfl
@[simp] theorem State.setClus_cpBanks (s : State) (n : Nat) (c : Cluster) : (s.setClus n c).cpBanks = s.cpBanks := rfl
@[simp] theorem State.setClus_pubs (s : State) (n : Nat) (c : Cluster) : (s.setClus n c).pubs = s.pubs := rfl

@[simp] theorem State.modClus_variant (s : State) (n : Nat) (f : Cluster → Cluster) : (s.modClus n f).variant = s.variant := rfl
@[simp] theorem State.modClus_tick (s : State) (n : Nat) (f : Cluster → Cluster) : (s.modClus n f).tick = s.tick := rfl
@[simp] theorem State.modClus_mem (s : State) (n : Nat) (f : Cluster → Cluster) : (s.modClus n f).mem = s.mem := rfl
@[simp] theorem State.modClus_firmwareMem (s : State) (n : Nat) (f : Cluster → Cluster) : (s.modClus n f).firmwareMem = s.firmwareMem := rfl
@[simp] theorem State.modClus_cores (s : State) (n : Nat) (f : Cluster → Cluster) : (s.modClus n f).cores = s.cores := rfl
@[simp] theorem State.modClus_parts (s : State) (n : Nat) (f : Cluster → Cluster) : (s.modClus n f).parts = s.parts := rfl
@[simp] theorem State.modClus_cmds (s : State) (n : Nat) (f : Cluster → Cluster) : (s.modClus n f).cmds = s.cmds := rfl
@[simp] theorem State.modClus_fab (s : State) (n : Nat) (f : Cluster → Cluster) : (s.modClus n f).fab = s.fab := rfl
@[simp] theorem State.modClus_fw (s : State) (n : Nat) (f : Cluster → Cluster) : (s.modClus n f).fw = s.fw := rfl
@[simp] theorem State.modClus_gov (s : State) (n : Nat) (f : Cluster → Cluster) : (s.modClus n f).gov = s.gov := rfl
@[simp] theorem State.modClus_host (s : State) (n : Nat) (f : Cluster → Cluster) : (s.modClus n f).host = s.host := rfl
@[simp] theorem State.modClus_sublinks (s : State) (n : Nat) (f : Cluster → Cluster) : (s.modClus n f).sublinks = s.sublinks := rfl
@[simp] theorem State.modClus_retired (s : State) (n : Nat) (f : Cluster → Cluster) : (s.modClus n f).retired = s.retired := rfl
@[simp] theorem State.modClus_badFrames (s : State) (n : Nat) (f : Cluster → Cluster) : (s.modClus n f).badFrames = s.badFrames := rfl
@[simp] theorem State.modClus_frames (s : State) (n : Nat) (f : Cluster → Cluster) : (s.modClus n f).frames = s.frames := rfl
@[simp] theorem State.modClus_scrubbed (s : State) (n : Nat) (f : Cluster → Cluster) : (s.modClus n f).scrubbed = s.scrubbed := rfl
@[simp] theorem State.modClus_dirty (s : State) (n : Nat) (f : Cluster → Cluster) : (s.modClus n f).dirty = s.dirty := rfl
@[simp] theorem State.modClus_logs (s : State) (n : Nat) (f : Cluster → Cluster) : (s.modClus n f).logs = s.logs := rfl
@[simp] theorem State.modClus_agenda (s : State) (n : Nat) (f : Cluster → Cluster) : (s.modClus n f).agenda = s.agenda := rfl
@[simp] theorem State.modClus_cur (s : State) (n : Nat) (f : Cluster → Cluster) : (s.modClus n f).cur = s.cur := rfl
@[simp] theorem State.modClus_slowTurn (s : State) (n : Nat) (f : Cluster → Cluster) : (s.modClus n f).slowTurn = s.slowTurn := rfl
@[simp] theorem State.modClus_nextSid (s : State) (n : Nat) (f : Cluster → Cluster) : (s.modClus n f).nextSid = s.nextSid := rfl
@[simp] theorem State.modClus_nextCmd (s : State) (n : Nat) (f : Cluster → Cluster) : (s.modClus n f).nextCmd = s.nextCmd := rfl
@[simp] theorem State.modClus_saves (s : State) (n : Nat) (f : Cluster → Cluster) : (s.modClus n f).saves = s.saves := rfl
@[simp] theorem State.modClus_free (s : State) (n : Nat) (f : Cluster → Cluster) : (s.modClus n f).free = s.free := rfl
@[simp] theorem State.modClus_spares (s : State) (n : Nat) (f : Cluster → Cluster) : (s.modClus n f).spares = s.spares := rfl
@[simp] theorem State.modClus_worn (s : State) (n : Nat) (f : Cluster → Cluster) : (s.modClus n f).worn = s.worn := rfl
@[simp] theorem State.modClus_cycle (s : State) (n : Nat) (f : Cluster → Cluster) : (s.modClus n f).cycle = s.cycle := rfl
@[simp] theorem State.modClus_cpBanks (s : State) (n : Nat) (f : Cluster → Cluster) : (s.modClus n f).cpBanks = s.cpBanks := rfl
@[simp] theorem State.modClus_pubs (s : State) (n : Nat) (f : Cluster → Cluster) : (s.modClus n f).pubs = s.pubs := rfl

@[simp] theorem State.setPart_variant (s : State) (n : Nat) (c : Part) : (s.setPart n c).variant = s.variant := rfl
@[simp] theorem State.setPart_tick (s : State) (n : Nat) (c : Part) : (s.setPart n c).tick = s.tick := rfl
@[simp] theorem State.setPart_mem (s : State) (n : Nat) (c : Part) : (s.setPart n c).mem = s.mem := rfl
@[simp] theorem State.setPart_firmwareMem (s : State) (n : Nat) (c : Part) : (s.setPart n c).firmwareMem = s.firmwareMem := rfl
@[simp] theorem State.setPart_cores (s : State) (n : Nat) (c : Part) : (s.setPart n c).cores = s.cores := rfl
@[simp] theorem State.setPart_clusters (s : State) (n : Nat) (c : Part) : (s.setPart n c).clusters = s.clusters := rfl
@[simp] theorem State.setPart_cmds (s : State) (n : Nat) (c : Part) : (s.setPart n c).cmds = s.cmds := rfl
@[simp] theorem State.setPart_fab (s : State) (n : Nat) (c : Part) : (s.setPart n c).fab = s.fab := rfl
@[simp] theorem State.setPart_fw (s : State) (n : Nat) (c : Part) : (s.setPart n c).fw = s.fw := rfl
@[simp] theorem State.setPart_gov (s : State) (n : Nat) (c : Part) : (s.setPart n c).gov = s.gov := rfl
@[simp] theorem State.setPart_host (s : State) (n : Nat) (c : Part) : (s.setPart n c).host = s.host := rfl
@[simp] theorem State.setPart_sublinks (s : State) (n : Nat) (c : Part) : (s.setPart n c).sublinks = s.sublinks := rfl
@[simp] theorem State.setPart_retired (s : State) (n : Nat) (c : Part) : (s.setPart n c).retired = s.retired := rfl
@[simp] theorem State.setPart_badFrames (s : State) (n : Nat) (c : Part) : (s.setPart n c).badFrames = s.badFrames := rfl
@[simp] theorem State.setPart_frames (s : State) (n : Nat) (c : Part) : (s.setPart n c).frames = s.frames := rfl
@[simp] theorem State.setPart_scrubbed (s : State) (n : Nat) (c : Part) : (s.setPart n c).scrubbed = s.scrubbed := rfl
@[simp] theorem State.setPart_dirty (s : State) (n : Nat) (c : Part) : (s.setPart n c).dirty = s.dirty := rfl
@[simp] theorem State.setPart_logs (s : State) (n : Nat) (c : Part) : (s.setPart n c).logs = s.logs := rfl
@[simp] theorem State.setPart_agenda (s : State) (n : Nat) (c : Part) : (s.setPart n c).agenda = s.agenda := rfl
@[simp] theorem State.setPart_cur (s : State) (n : Nat) (c : Part) : (s.setPart n c).cur = s.cur := rfl
@[simp] theorem State.setPart_slowTurn (s : State) (n : Nat) (c : Part) : (s.setPart n c).slowTurn = s.slowTurn := rfl
@[simp] theorem State.setPart_nextSid (s : State) (n : Nat) (c : Part) : (s.setPart n c).nextSid = s.nextSid := rfl
@[simp] theorem State.setPart_nextCmd (s : State) (n : Nat) (c : Part) : (s.setPart n c).nextCmd = s.nextCmd := rfl
@[simp] theorem State.setPart_saves (s : State) (n : Nat) (c : Part) : (s.setPart n c).saves = s.saves := rfl
@[simp] theorem State.setPart_free (s : State) (n : Nat) (c : Part) : (s.setPart n c).free = s.free := rfl
@[simp] theorem State.setPart_spares (s : State) (n : Nat) (c : Part) : (s.setPart n c).spares = s.spares := rfl
@[simp] theorem State.setPart_worn (s : State) (n : Nat) (c : Part) : (s.setPart n c).worn = s.worn := rfl
@[simp] theorem State.setPart_cycle (s : State) (n : Nat) (c : Part) : (s.setPart n c).cycle = s.cycle := rfl
@[simp] theorem State.setPart_cpBanks (s : State) (n : Nat) (c : Part) : (s.setPart n c).cpBanks = s.cpBanks := rfl
@[simp] theorem State.setPart_pubs (s : State) (n : Nat) (c : Part) : (s.setPart n c).pubs = s.pubs := rfl

@[simp] theorem State.modPart_variant (s : State) (n : Nat) (f : Part → Part) : (s.modPart n f).variant = s.variant := rfl
@[simp] theorem State.modPart_tick (s : State) (n : Nat) (f : Part → Part) : (s.modPart n f).tick = s.tick := rfl
@[simp] theorem State.modPart_mem (s : State) (n : Nat) (f : Part → Part) : (s.modPart n f).mem = s.mem := rfl
@[simp] theorem State.modPart_firmwareMem (s : State) (n : Nat) (f : Part → Part) : (s.modPart n f).firmwareMem = s.firmwareMem := rfl
@[simp] theorem State.modPart_cores (s : State) (n : Nat) (f : Part → Part) : (s.modPart n f).cores = s.cores := rfl
@[simp] theorem State.modPart_clusters (s : State) (n : Nat) (f : Part → Part) : (s.modPart n f).clusters = s.clusters := rfl
@[simp] theorem State.modPart_cmds (s : State) (n : Nat) (f : Part → Part) : (s.modPart n f).cmds = s.cmds := rfl
@[simp] theorem State.modPart_fab (s : State) (n : Nat) (f : Part → Part) : (s.modPart n f).fab = s.fab := rfl
@[simp] theorem State.modPart_fw (s : State) (n : Nat) (f : Part → Part) : (s.modPart n f).fw = s.fw := rfl
@[simp] theorem State.modPart_gov (s : State) (n : Nat) (f : Part → Part) : (s.modPart n f).gov = s.gov := rfl
@[simp] theorem State.modPart_host (s : State) (n : Nat) (f : Part → Part) : (s.modPart n f).host = s.host := rfl
@[simp] theorem State.modPart_sublinks (s : State) (n : Nat) (f : Part → Part) : (s.modPart n f).sublinks = s.sublinks := rfl
@[simp] theorem State.modPart_retired (s : State) (n : Nat) (f : Part → Part) : (s.modPart n f).retired = s.retired := rfl
@[simp] theorem State.modPart_badFrames (s : State) (n : Nat) (f : Part → Part) : (s.modPart n f).badFrames = s.badFrames := rfl
@[simp] theorem State.modPart_frames (s : State) (n : Nat) (f : Part → Part) : (s.modPart n f).frames = s.frames := rfl
@[simp] theorem State.modPart_scrubbed (s : State) (n : Nat) (f : Part → Part) : (s.modPart n f).scrubbed = s.scrubbed := rfl
@[simp] theorem State.modPart_dirty (s : State) (n : Nat) (f : Part → Part) : (s.modPart n f).dirty = s.dirty := rfl
@[simp] theorem State.modPart_logs (s : State) (n : Nat) (f : Part → Part) : (s.modPart n f).logs = s.logs := rfl
@[simp] theorem State.modPart_agenda (s : State) (n : Nat) (f : Part → Part) : (s.modPart n f).agenda = s.agenda := rfl
@[simp] theorem State.modPart_cur (s : State) (n : Nat) (f : Part → Part) : (s.modPart n f).cur = s.cur := rfl
@[simp] theorem State.modPart_slowTurn (s : State) (n : Nat) (f : Part → Part) : (s.modPart n f).slowTurn = s.slowTurn := rfl
@[simp] theorem State.modPart_nextSid (s : State) (n : Nat) (f : Part → Part) : (s.modPart n f).nextSid = s.nextSid := rfl
@[simp] theorem State.modPart_nextCmd (s : State) (n : Nat) (f : Part → Part) : (s.modPart n f).nextCmd = s.nextCmd := rfl
@[simp] theorem State.modPart_saves (s : State) (n : Nat) (f : Part → Part) : (s.modPart n f).saves = s.saves := rfl
@[simp] theorem State.modPart_free (s : State) (n : Nat) (f : Part → Part) : (s.modPart n f).free = s.free := rfl
@[simp] theorem State.modPart_spares (s : State) (n : Nat) (f : Part → Part) : (s.modPart n f).spares = s.spares := rfl
@[simp] theorem State.modPart_worn (s : State) (n : Nat) (f : Part → Part) : (s.modPart n f).worn = s.worn := rfl
@[simp] theorem State.modPart_cycle (s : State) (n : Nat) (f : Part → Part) : (s.modPart n f).cycle = s.cycle := rfl
@[simp] theorem State.modPart_cpBanks (s : State) (n : Nat) (f : Part → Part) : (s.modPart n f).cpBanks = s.cpBanks := rfl
@[simp] theorem State.modPart_pubs (s : State) (n : Nat) (f : Part → Part) : (s.modPart n f).pubs = s.pubs := rfl

@[simp] theorem State.modCmd_variant (s : State) (n : Nat) (f : Cmd → Cmd) : (s.modCmd n f).variant = s.variant := rfl
@[simp] theorem State.modCmd_tick (s : State) (n : Nat) (f : Cmd → Cmd) : (s.modCmd n f).tick = s.tick := rfl
@[simp] theorem State.modCmd_mem (s : State) (n : Nat) (f : Cmd → Cmd) : (s.modCmd n f).mem = s.mem := rfl
@[simp] theorem State.modCmd_firmwareMem (s : State) (n : Nat) (f : Cmd → Cmd) : (s.modCmd n f).firmwareMem = s.firmwareMem := rfl
@[simp] theorem State.modCmd_cores (s : State) (n : Nat) (f : Cmd → Cmd) : (s.modCmd n f).cores = s.cores := rfl
@[simp] theorem State.modCmd_clusters (s : State) (n : Nat) (f : Cmd → Cmd) : (s.modCmd n f).clusters = s.clusters := rfl
@[simp] theorem State.modCmd_parts (s : State) (n : Nat) (f : Cmd → Cmd) : (s.modCmd n f).parts = s.parts := rfl
@[simp] theorem State.modCmd_fab (s : State) (n : Nat) (f : Cmd → Cmd) : (s.modCmd n f).fab = s.fab := rfl
@[simp] theorem State.modCmd_fw (s : State) (n : Nat) (f : Cmd → Cmd) : (s.modCmd n f).fw = s.fw := rfl
@[simp] theorem State.modCmd_gov (s : State) (n : Nat) (f : Cmd → Cmd) : (s.modCmd n f).gov = s.gov := rfl
@[simp] theorem State.modCmd_host (s : State) (n : Nat) (f : Cmd → Cmd) : (s.modCmd n f).host = s.host := rfl
@[simp] theorem State.modCmd_sublinks (s : State) (n : Nat) (f : Cmd → Cmd) : (s.modCmd n f).sublinks = s.sublinks := rfl
@[simp] theorem State.modCmd_retired (s : State) (n : Nat) (f : Cmd → Cmd) : (s.modCmd n f).retired = s.retired := rfl
@[simp] theorem State.modCmd_badFrames (s : State) (n : Nat) (f : Cmd → Cmd) : (s.modCmd n f).badFrames = s.badFrames := rfl
@[simp] theorem State.modCmd_frames (s : State) (n : Nat) (f : Cmd → Cmd) : (s.modCmd n f).frames = s.frames := rfl
@[simp] theorem State.modCmd_scrubbed (s : State) (n : Nat) (f : Cmd → Cmd) : (s.modCmd n f).scrubbed = s.scrubbed := rfl
@[simp] theorem State.modCmd_dirty (s : State) (n : Nat) (f : Cmd → Cmd) : (s.modCmd n f).dirty = s.dirty := rfl
@[simp] theorem State.modCmd_logs (s : State) (n : Nat) (f : Cmd → Cmd) : (s.modCmd n f).logs = s.logs := rfl
@[simp] theorem State.modCmd_agenda (s : State) (n : Nat) (f : Cmd → Cmd) : (s.modCmd n f).agenda = s.agenda := rfl
@[simp] theorem State.modCmd_cur (s : State) (n : Nat) (f : Cmd → Cmd) : (s.modCmd n f).cur = s.cur := rfl
@[simp] theorem State.modCmd_slowTurn (s : State) (n : Nat) (f : Cmd → Cmd) : (s.modCmd n f).slowTurn = s.slowTurn := rfl
@[simp] theorem State.modCmd_nextSid (s : State) (n : Nat) (f : Cmd → Cmd) : (s.modCmd n f).nextSid = s.nextSid := rfl
@[simp] theorem State.modCmd_nextCmd (s : State) (n : Nat) (f : Cmd → Cmd) : (s.modCmd n f).nextCmd = s.nextCmd := rfl
@[simp] theorem State.modCmd_saves (s : State) (n : Nat) (f : Cmd → Cmd) : (s.modCmd n f).saves = s.saves := rfl
@[simp] theorem State.modCmd_free (s : State) (n : Nat) (f : Cmd → Cmd) : (s.modCmd n f).free = s.free := rfl
@[simp] theorem State.modCmd_spares (s : State) (n : Nat) (f : Cmd → Cmd) : (s.modCmd n f).spares = s.spares := rfl
@[simp] theorem State.modCmd_worn (s : State) (n : Nat) (f : Cmd → Cmd) : (s.modCmd n f).worn = s.worn := rfl
@[simp] theorem State.modCmd_cycle (s : State) (n : Nat) (f : Cmd → Cmd) : (s.modCmd n f).cycle = s.cycle := rfl
@[simp] theorem State.modCmd_cpBanks (s : State) (n : Nat) (f : Cmd → Cmd) : (s.modCmd n f).cpBanks = s.cpBanks := rfl
@[simp] theorem State.modCmd_pubs (s : State) (n : Nat) (f : Cmd → Cmd) : (s.modCmd n f).pubs = s.pubs := rfl

@[simp] theorem State.log_variant (s : State) (r : LogRec) : (s.log r).variant = s.variant := rfl
@[simp] theorem State.log_tick (s : State) (r : LogRec) : (s.log r).tick = s.tick := rfl
@[simp] theorem State.log_mem (s : State) (r : LogRec) : (s.log r).mem = s.mem := rfl
@[simp] theorem State.log_firmwareMem (s : State) (r : LogRec) : (s.log r).firmwareMem = s.firmwareMem := rfl
@[simp] theorem State.log_cores (s : State) (r : LogRec) : (s.log r).cores = s.cores := rfl
@[simp] theorem State.log_clusters (s : State) (r : LogRec) : (s.log r).clusters = s.clusters := rfl
@[simp] theorem State.log_parts (s : State) (r : LogRec) : (s.log r).parts = s.parts := rfl
@[simp] theorem State.log_cmds (s : State) (r : LogRec) : (s.log r).cmds = s.cmds := rfl
@[simp] theorem State.log_fab (s : State) (r : LogRec) : (s.log r).fab = s.fab := rfl
@[simp] theorem State.log_fw (s : State) (r : LogRec) : (s.log r).fw = s.fw := rfl
@[simp] theorem State.log_gov (s : State) (r : LogRec) : (s.log r).gov = s.gov := rfl
@[simp] theorem State.log_host (s : State) (r : LogRec) : (s.log r).host = s.host := rfl
@[simp] theorem State.log_sublinks (s : State) (r : LogRec) : (s.log r).sublinks = s.sublinks := rfl
@[simp] theorem State.log_retired (s : State) (r : LogRec) : (s.log r).retired = s.retired := rfl
@[simp] theorem State.log_badFrames (s : State) (r : LogRec) : (s.log r).badFrames = s.badFrames := rfl
@[simp] theorem State.log_frames (s : State) (r : LogRec) : (s.log r).frames = s.frames := rfl
@[simp] theorem State.log_scrubbed (s : State) (r : LogRec) : (s.log r).scrubbed = s.scrubbed := rfl
@[simp] theorem State.log_dirty (s : State) (r : LogRec) : (s.log r).dirty = s.dirty := rfl
@[simp] theorem State.log_agenda (s : State) (r : LogRec) : (s.log r).agenda = s.agenda := rfl
@[simp] theorem State.log_cur (s : State) (r : LogRec) : (s.log r).cur = s.cur := rfl
@[simp] theorem State.log_slowTurn (s : State) (r : LogRec) : (s.log r).slowTurn = s.slowTurn := rfl
@[simp] theorem State.log_nextSid (s : State) (r : LogRec) : (s.log r).nextSid = s.nextSid := rfl
@[simp] theorem State.log_nextCmd (s : State) (r : LogRec) : (s.log r).nextCmd = s.nextCmd := rfl
@[simp] theorem State.log_saves (s : State) (r : LogRec) : (s.log r).saves = s.saves := rfl
@[simp] theorem State.log_free (s : State) (r : LogRec) : (s.log r).free = s.free := rfl
@[simp] theorem State.log_spares (s : State) (r : LogRec) : (s.log r).spares = s.spares := rfl
@[simp] theorem State.log_worn (s : State) (r : LogRec) : (s.log r).worn = s.worn := rfl
@[simp] theorem State.log_cycle (s : State) (r : LogRec) : (s.log r).cycle = s.cycle := rfl
@[simp] theorem State.log_cpBanks (s : State) (r : LogRec) : (s.log r).cpBanks = s.cpBanks := rfl
@[simp] theorem State.log_pubs (s : State) (r : LogRec) : (s.log r).pubs = s.pubs := rfl

@[simp] theorem State.nextNumber_variant (s : State) : s.nextNumber.variant = s.variant := rfl
@[simp] theorem State.nextNumber_tick (s : State) : s.nextNumber.tick = s.tick := rfl
@[simp] theorem State.nextNumber_mem (s : State) : s.nextNumber.mem = s.mem := rfl
@[simp] theorem State.nextNumber_firmwareMem (s : State) : s.nextNumber.firmwareMem = s.firmwareMem := rfl
@[simp] theorem State.nextNumber_cores (s : State) : s.nextNumber.cores = s.cores := rfl
@[simp] theorem State.nextNumber_clusters (s : State) : s.nextNumber.clusters = s.clusters := rfl
@[simp] theorem State.nextNumber_parts (s : State) : s.nextNumber.parts = s.parts := rfl
@[simp] theorem State.nextNumber_cmds (s : State) : s.nextNumber.cmds = s.cmds := rfl
@[simp] theorem State.nextNumber_fw (s : State) : s.nextNumber.fw = s.fw := rfl
@[simp] theorem State.nextNumber_gov (s : State) : s.nextNumber.gov = s.gov := rfl
@[simp] theorem State.nextNumber_host (s : State) : s.nextNumber.host = s.host := rfl
@[simp] theorem State.nextNumber_sublinks (s : State) : s.nextNumber.sublinks = s.sublinks := rfl
@[simp] theorem State.nextNumber_retired (s : State) : s.nextNumber.retired = s.retired := rfl
@[simp] theorem State.nextNumber_badFrames (s : State) : s.nextNumber.badFrames = s.badFrames := rfl
@[simp] theorem State.nextNumber_frames (s : State) : s.nextNumber.frames = s.frames := rfl
@[simp] theorem State.nextNumber_scrubbed (s : State) : s.nextNumber.scrubbed = s.scrubbed := rfl
@[simp] theorem State.nextNumber_dirty (s : State) : s.nextNumber.dirty = s.dirty := rfl
@[simp] theorem State.nextNumber_logs (s : State) : s.nextNumber.logs = s.logs := rfl
@[simp] theorem State.nextNumber_agenda (s : State) : s.nextNumber.agenda = s.agenda := rfl
@[simp] theorem State.nextNumber_cur (s : State) : s.nextNumber.cur = s.cur := rfl
@[simp] theorem State.nextNumber_slowTurn (s : State) : s.nextNumber.slowTurn = s.slowTurn := rfl
@[simp] theorem State.nextNumber_nextSid (s : State) : s.nextNumber.nextSid = s.nextSid := rfl
@[simp] theorem State.nextNumber_nextCmd (s : State) : s.nextNumber.nextCmd = s.nextCmd := rfl
@[simp] theorem State.nextNumber_saves (s : State) : s.nextNumber.saves = s.saves := rfl
@[simp] theorem State.nextNumber_free (s : State) : s.nextNumber.free = s.free := rfl
@[simp] theorem State.nextNumber_spares (s : State) : s.nextNumber.spares = s.spares := rfl
@[simp] theorem State.nextNumber_worn (s : State) : s.nextNumber.worn = s.worn := rfl
@[simp] theorem State.nextNumber_cycle (s : State) : s.nextNumber.cycle = s.cycle := rfl
@[simp] theorem State.nextNumber_cpBanks (s : State) : s.nextNumber.cpBanks = s.cpBanks := rfl
@[simp] theorem State.nextNumber_pubs (s : State) : s.nextNumber.pubs = s.pubs := rfl

/-! ## Parts after an update of a part -/

@[simp] theorem State.core_setCore (s : State) (p q : Place) (c : Core) :
    (s.setCore p c).core q = if q = p then c else s.core q := Table.get_set _ _ _ _ _

@[simp] theorem State.core_modCore (s : State) (p q : Place) (f : Core → Core) :
    (s.modCore p f).core q = if q = p then f (s.core p) else s.core q := Table.get_set _ _ _ _ _

@[simp] theorem State.core_modStrand (s : State) (p q : Place) (f : Strand → Strand) :
    (s.modStrand p f).core q = if q = p then { s.core p with st := f (s.core p).st } else s.core q :=
  State.core_modCore _ _ _ _

@[simp] theorem State.strand_modStrand (s : State) (p q : Place) (f : Strand → Strand) :
    (s.modStrand p f).strand q = if q = p then f (s.strand p) else s.strand q := by
  simp only [State.strand, State.core_modStrand]
  split <;> rfl

@[simp] theorem State.modCore_modCore (s : State) (p : Place) (f g : Core → Core) :
    (s.modCore p f).modCore p g = s.modCore p fun c => g (f c) := by
  simp [State.modCore, State.setCore, State.core]

@[simp] theorem State.modStrand_modStrand (s : State) (p : Place) (f g : Strand → Strand) :
    (s.modStrand p f).modStrand p g = s.modStrand p fun t => g (f t) := by
  simp [State.modStrand]

/-- An update of one strand depends on the strand alone. -/
theorem State.modStrand_congr (s : State) (p : Place) {f g : Strand → Strand} (h : f (s.strand p) = g (s.strand p)) :
    s.modStrand p f = s.modStrand p g := by
  simp only [State.modStrand, State.modCore, State.strand] at *
  rw [h]

@[simp] theorem State.my_modMy (s : State) (f : Strand → Strand) : (s.modMy f).my = f s.my := by
  simp [State.my, State.modMy]

@[simp] theorem State.modMy_modMy (s : State) (f g : Strand → Strand) :
    (s.modMy f).modMy g = s.modMy fun t => g (f t) := by
  simp [State.modMy]

@[simp] theorem Strand.seq_setSeq (t : Strand) (q r : SeqId) (c : Seq) :
    (t.setSeq q c).seq r = if r = q then c else t.seq r := by
  cases q <;> cases r <;> rfl

@[simp] theorem Strand.setSeq_setSeq (t : Strand) (q : SeqId) (c d : Seq) : (t.setSeq q c).setSeq q d = t.setSeq q d := by
  cases q <;> rfl

@[simp] theorem Strand.setSeq_act (t : Strand) (q : SeqId) (c : Seq) : (t.setSeq q c).act = t.act := by cases q <;> rfl
@[simp] theorem Strand.setSeq_q (t : Strand) (q : SeqId) (c : Seq) : (t.setSeq q c).q = t.q := by cases q <;> rfl
@[simp] theorem Strand.setSeq_csr (t : Strand) (q : SeqId) (c : Seq) : (t.setSeq q c).csr = t.csr := by cases q <;> rfl
@[simp] theorem Strand.setSeq_vec (t : Strand) (q : SeqId) (c : Seq) : (t.setSeq q c).vec = t.vec := by cases q <;> rfl
@[simp] theorem Strand.setSeq_mat (t : Strand) (q : SeqId) (c : Seq) : (t.setSeq q c).mat = t.mat := by cases q <;> rfl
@[simp] theorem Strand.setSeq_gmu (t : Strand) (q : SeqId) (c : Seq) : (t.setSeq q c).gmu = t.gmu := by cases q <;> rfl

theorem State.modSeq_eq (s : State) (f : Seq → Seq) :
    s.modSeq f = s.modMy fun t => t.setSeq s.cur.2 (f (t.seq s.cur.2)) := rfl

@[simp] theorem State.my_modSeq (s : State) (f : Seq → Seq) : (s.modSeq f).my = s.my.setSeq s.cur.2 (f s.seq) := by
  rw [State.modSeq_eq, State.my_modMy]; rfl

@[simp] theorem State.seq_modSeq (s : State) (f : Seq → Seq) : (s.modSeq f).seq = f s.seq := by
  simp [State.seq, State.seqAt, State.modSeq, State.modSeqAt]

@[simp] theorem State.seq_modMy (s : State) (f : Strand → Strand) : (s.modMy f).seq = (f s.my).seq s.cur.2 := by
  simp [State.seq, State.seqAt, State.my, State.modMy]

@[simp] theorem State.modSeq_modSeq (s : State) (f g : Seq → Seq) : (s.modSeq f).modSeq g = s.modSeq fun c => g (f c) := by
  simp [State.modSeq_eq]

@[simp] theorem State.me_modMy (s : State) (f : Strand → Strand) : (s.modMy f).me = { s.me with st := f s.my } := by
  simp [State.me, State.modMy, State.my, State.strand]

@[simp] theorem State.clus_modClus (s : State) (n m : Nat) (f : Cluster → Cluster) :
    (s.modClus n f).clus m = if m = n then f (s.clus n) else s.clus m := Table.get_set _ _ _ _ _

@[simp] theorem State.part_modPart (s : State) (n m : Nat) (f : Part → Part) :
    (s.modPart n f).part m = if m = n then f (s.part n) else s.part m := Table.get_set _ _ _ _ _

@[simp] theorem State.clus_modCore (s : State) (p : Place) (f : Core → Core) (n : Nat) : (s.modCore p f).clus n = s.clus n := rfl
@[simp] theorem State.part_modCore (s : State) (p : Place) (f : Core → Core) (n : Nat) : (s.modCore p f).part n = s.part n := rfl
@[simp] theorem State.core_modPart (s : State) (n : Nat) (f : Part → Part) (p : Place) : (s.modPart n f).core p = s.core p := rfl
@[simp] theorem State.core_modClus (s : State) (n : Nat) (f : Cluster → Cluster) (p : Place) : (s.modClus n f).core p = s.core p := rfl

/-! ## Registers -/

/-- s0 reads as zero. -/
@[simp] theorem Seq.readS_zero (c : Seq) : c.readS 0 = 0 := rfl

/-- k0 reads as all ones. -/
@[simp] theorem Seq.readK_zero (c : Seq) : c.readK 0 = BitVec.allOnes 32 := rfl

/-- A write to s0 is discarded. -/
@[simp] theorem Seq.writeS_zero (c : Seq) (v : Word) : c.writeS 0 v = c := rfl

/-- A write to k0 is discarded. -/
@[simp] theorem Seq.writeK_zero (c : Seq) (v : Lane) : c.writeK 0 v = c := rfl

@[simp] theorem Seq.writeS_level (c : Seq) (r : Reg) (v : Word) : (c.writeS r v).level = c.level := by
  unfold Seq.writeS; split
  · rfl
  · split <;> simp_all

@[simp] theorem Seq.writeK_level (c : Seq) (k : Fin 8) (v : Lane) : (c.writeK k v).level = c.level := by
  unfold Seq.writeK; split
  · rfl
  · split <;> simp_all

/-- A scalar register read after a write. -/
theorem Seq.readS_writeS (c : Seq) (r q : Reg) (v : Word) :
    (c.writeS r v).readS q = if q = r ∧ r.val ≠ 0 then v else c.readS q := by
  by_cases hr : r.val = 0
  · have : r = 0 := Fin.ext hr
    subst this; simp
  · by_cases hq : q.val = 0
    · have : q = 0 := Fin.ext hq
      subst this
      have : (0 : Reg) ≠ r := fun h => hr (h ▸ rfl)
      simp [this]
    · rcases c with ⟨_, _, _, s, k, sups, supk, _, _, level, _⟩
      cases level <;> simp [Seq.readS, Seq.writeS, Seq.file, hr, hq, Vector.getElem_set, Fin.ext_iff, eq_comm]

/-- A predicate register read after a write. -/
theorem Seq.readK_writeK (c : Seq) (r q : Fin 8) (v : Lane) :
    (c.writeK r v).readK q = if q = r ∧ r.val ≠ 0 then v else c.readK q := by
  by_cases hr : r.val = 0
  · have : r = 0 := Fin.ext hr
    subst this; simp
  · by_cases hq : q.val = 0
    · have : q = 0 := Fin.ext hq
      subst this
      have : (0 : Fin 8) ≠ r := fun h => hr (h ▸ rfl)
      simp [this]
    · rcases c with ⟨_, _, _, s, k, sups, supk, _, _, level, _⟩
      cases level <;> simp [Seq.readK, Seq.writeK, hr, hq, Vector.getElem_set, Fin.ext_iff, eq_comm]

@[simp] theorem Seq.readK_writeS (c : Seq) (r : Reg) (k : Fin 8) (v : Word) : (c.writeS r v).readK k = c.readK k := by
  unfold Seq.writeS; split
  · rfl
  · split <;> simp_all [Seq.readK]

@[simp] theorem Seq.readS_writeK (c : Seq) (r : Reg) (k : Fin 8) (v : Lane) : (c.writeK k v).readS r = c.readS r := by
  unfold Seq.writeK; split
  · rfl
  · split <;> simp_all [Seq.readS, Seq.file]

end Sys2Proof.Machine
end

