-- ==== Sys2Proof/Laws/Ops.lean ====
section
/-! SUPPORT. What the shared operations do, each said once: the monad of a body, performing an instruction (07 R96),
completing (08 R126), and registers in a completed state. -/

namespace Sys2Proof.Machine

/-! ## The monad of a body -/

/-- A body after another: the first one's stop, or the second in the state that the first left. -/
theorem M.bind_run {α β : Type} (m : M α) (f : α → M β) (s : State) :
    (m >>= f) s = match m s with | .ok r => f r.1 r.2 | .error e => .error e := by
  show (m s >>= fun r => f r.1 r.2) = _
  cases m s <;> rfl

theorem M.bind_ok {α β : Type} {m : M α} {f : α → M β} {s s' : State} {a : α} (h : m s = .ok (a, s')) :
    (m >>= f) s = f a s' := by rw [M.bind_run, h]

theorem M.pure_run {α : Type} (a : α) (s : State) : (pure a : M α) s = .ok (a, s) := rfl
@[simp] theorem readS_run (r : Reg) (s : State) : readS r s = .ok (s.seq.readS r, s) := rfl
@[simp] theorem writeS_run (r : Reg) (v : Word) (s : State) : writeS r v s = .ok ((), s.modSeq (·.writeS r v)) := rfl
@[simp] theorem readK_run (k : Fin 8) (s : State) : readK k s = .ok (s.seq.readK k, s) := rfl
@[simp] theorem writeK_run (k : Fin 8) (v : Lane) (s : State) : writeK k v s = .ok ((), s.modSeq (·.writeK k v)) := rfl
@[simp] theorem getState_run (s : State) : getState s = .ok (s, s) := rfl
@[simp] theorem setState_run (t s : State) : setState t s = .ok ((), t) := rfl
@[simp] theorem modState_run (f : State → State) (s : State) : modState f s = .ok ((), f s) := rfl
@[simp] theorem trapIf_false (c : Cause) (v : Word) (s : State) : trapIf false c v s = .ok ((), s) := rfl
@[simp] theorem src_reg (r : Reg) (s : State) : src (.reg r) s = .ok (s.seq.readS r, s) := rfl
@[simp] theorem dst_reg (r : Reg) (v : Word) (s : State) : dst (.reg r) v s = .ok ((), s.modSeq (·.writeS r v)) := rfl

/-! ## Performing (07 R96) -/

/-- An instruction whose demands are met and whose body completes retires in the state its body made. -/
theorem performWith_ok {len : Nat} {n : Need} {g : Bool} {body : M Next} {s t : State} {nx : Next}
    (hs : n.seqs s.cur.2 = true) (hl : n.level.rank ≤ s.seq.level.rank) (hf : n.feat &&& ~~~ s.me.feat = 0)
    (hg : g = true) (hb : body s = .ok (nx, t)) : performWith len n g body s = .next (t.retire len nx) := by
  have hl' : ¬ s.seq.level.rank < n.level.rank := by omega
  simp [performWith, hs, hl', hf, hg, hb, finish]

theorem perform_ok {len : Nat} {n : Need} {g : Guard} {body : M Next} {s t : State} {nx : Next}
    (hs : n.seqs s.cur.2 = true) (hl : n.level.rank ≤ s.seq.level.rank) (hf : n.feat &&& ~~~ s.me.feat = 0)
    (hg : s.seq.passes g = true) (hb : body s = .ok (nx, t)) : perform len n g body s = .next (t.retire len nx) :=
  performWith_ok hs hl hf hg hb

/-- A body that stops in a state it has itself brought about gives that state. -/
theorem performWith_own {len : Nat} {n : Need} {g : Bool} {body : M Next} {s t : State}
    (hs : n.seqs s.cur.2 = true) (hl : n.level.rank ≤ s.seq.level.rank) (hf : n.feat &&& ~~~ s.me.feat = 0)
    (hg : g = true) (hb : body s = .error (.own t)) : performWith len n g body s = .next t := by
  have hl' : ¬ s.seq.level.rank < n.level.rank := by omega
  simp [performWith, hs, hl', hf, hg, hb, finish]

/-- A body that traps: the trap is taken in the state the instruction began in. -/
theorem performWith_trap {len : Nat} {n : Need} {g : Bool} {body : M Next} {s : State} {c : Cause} {v : Option Word}
    {f : Fix} (hs : n.seqs s.cur.2 = true) (hl : n.level.rank ≤ s.seq.level.rank)
    (hf : n.feat &&& ~~~ s.me.feat = 0) (hg : g = true) (hb : body s = .error (.trap c v f)) :
    performWith len n g body s = .next (s.takeTrap c v f) := by
  have hl' : ¬ s.seq.level.rank < n.level.rank := by omega
  simp [performWith, hs, hl', hf, hg, hb, finish]

/-! ## Completing -/

@[simp] theorem Level.rank_user : Level.rank .user = 0 := rfl
@[simp] theorem Level.rank_supervisor : Level.rank .supervisor = 1 := rfl
@[simp] theorem Level.rank_management : Level.rank .management = 2 := rfl

/-- The registers of a sequencer do not depend on its pc, its loop counters, or its instruction in progress. -/
theorem Seq.readS_congr {c d : Seq} (hs : c.s = d.s) (hu : c.sups = d.sups) (hl : c.level = d.level) (r : Reg) :
    c.readS r = d.readS r := by simp [Seq.readS, Seq.file, hs, hu, hl]

theorem Seq.readK_congr {c d : Seq} (hs : c.k = d.k) (hu : c.supk = d.supk) (hl : c.level = d.level) (r : Fin 8) :
    c.readK r = d.readK r := by simp [Seq.readK, hs, hu, hl]

theorem Seq.endRule_fields (c : Seq) (len : Nat) :
    (c.endRule len).s = c.s ∧ (c.endRule len).k = c.k ∧ (c.endRule len).sups = c.sups ∧ (c.endRule len).supk = c.supk
      ∧ (c.endRule len).level = c.level ∧ (c.endRule len).shelf = c.shelf ∧ (c.endRule len).inTrap = c.inTrap
      ∧ (c.endRule len).stopped = c.stopped ∧ (c.endRule len).present = c.present ∧ (c.endRule len).ended = c.ended := by
  simp only [Seq.endRule]
  repeat' split
  all_goals simp

/-- What completing leaves of a sequencer: everything but its pc, its loop counters and its instruction in progress. -/
theorem Seq.retire_fields (c : Seq) (len : Nat) (n : Next) :
    (c.retire len n).s = c.s ∧ (c.retire len n).k = c.k ∧ (c.retire len n).sups = c.sups
      ∧ (c.retire len n).supk = c.supk ∧ (c.retire len n).level = c.level ∧ (c.retire len n).shelf = c.shelf
      ∧ (c.retire len n).inTrap = c.inTrap ∧ (c.retire len n).stopped = c.stopped
      ∧ (c.retire len n).present = c.present ∧ (c.retire len n).ended = c.ended := by
  rcases n with _ | t
  · simpa [Seq.retire, Seq.settle] using c.endRule_fields len
  · simp [Seq.retire, Seq.settle]

@[simp] theorem Seq.retire_readS (c : Seq) (len : Nat) (n : Next) (r : Reg) : (c.retire len n).readS r = c.readS r := by
  obtain ⟨h1, _, h2, _, h3, _⟩ := c.retire_fields len n
  exact Seq.readS_congr h1 h2 h3 r

@[simp] theorem Seq.retire_readK (c : Seq) (len : Nat) (n : Next) (k : Fin 8) : (c.retire len n).readK k = c.readK k := by
  obtain ⟨_, h1, _, h2, h3, _⟩ := c.retire_fields len n
  exact Seq.readK_congr h1 h2 h3 k

@[simp] theorem Seq.retire_level (c : Seq) (len : Nat) (n : Next) : (c.retire len n).level = c.level :=
  (c.retire_fields len n).2.2.2.2.1

@[simp] theorem State.retire_seq (s : State) (len : Nat) (n : Next) : (s.retire len n).seq = s.seq.retire len n := by
  simp [State.retire]

@[simp] theorem State.retire_mem (s : State) (len : Nat) (n : Next) : (s.retire len n).mem = s.mem := rfl

/-- A completed register instruction changes its destination alone. -/
theorem OnlyRegisters.of_writeS (s : State) (d : Reg) (v : Word) (len : Nat) (n : Next) :
    OnlyRegisters s ((s.modSeq (·.writeS d v)).retire len n) [d] [] := by
  refine ⟨?_, ?_, ?_, ?_, ?_, ?_⟩
  · rw [State.retire, State.modSeq_modSeq, State.modSeq_eq, State.modMy, State.modMy]
    exact State.modStrand_congr _ _ (by simp [State.seq, State.seqAt])
  · intro r hr
    simp only [List.mem_singleton] at hr
    simp [Seq.readS_writeS, hr]
  · intro k _; simp
  · simp
  · have h := (s.seq.writeS d v).retire_fields len n
    simp only [State.retire_seq, State.seq_modSeq, h.2.2.2.2.2.1]
    unfold Seq.writeS; split
    · rfl
    · split <;> rfl
  · intro a; simp [State.retire]

end Sys2Proof.Machine
end

