-- ==== Sys2Proof/Laws/Checks.lean ====
section
/-! SUPPORT. How an instruction's demands (07 R96) and the need that its meaning hands to `performWith` fit together, and what
follows for the order of its checks. -/

namespace Sys2Proof.Machine

/-- The need `n` and the guard's outcome `o` say what the demand `d` says. -/
structure Fits (s : State) (n : Need) (o : Bool) (d : Demand) : Prop where
  seqs : n.seqs s.cur.2 = true ↔ s.seqOk d
  level : n.level = d.level
  feat : n.feat = d.feat
  opens : o = true ↔ s.guardOpen d.guard

theorem Fits.checks {s : State} {n : Need} {o : Bool} {d : Demand} (h : Fits s n o d) (len : Nat) (body : M Next) :
    (¬ s.seqOk d → performWith len n o body s = .next (s.takeTrap .illegalSequencer none .none))
      ∧ (s.seqOk d → ¬ s.levelOk d → performWith len n o body s = .next (s.takeTrap .privileged none .none))
      ∧ (s.seqOk d → s.levelOk d → ¬ s.featOk d → performWith len n o body s = .next ((s.lacking d.feat).takeTrap .featureAbsent none .none))
      ∧ (s.seqOk d → s.levelOk d → s.featOk d → ¬ s.guardOpen d.guard → performWith len n o body s = .next (s.retire len .fall)) := by
  obtain ⟨h1, h2, h3, h4⟩ := h
  simp only [← h1, ← h4, State.levelOk, State.featOk, ← h2, ← h3]
  refine ⟨?_, ?_, ?_, ?_⟩
  · intro a; simp [performWith, a]
  · intro a b
    have : s.seq.level.rank < n.level.rank := by omega
    simp [performWith, a, this]
  · intro a b c
    have : ¬ s.seq.level.rank < n.level.rank := by omega
    rw [performWith, if_neg (by simp [a]), if_neg this, if_pos (by simpa using c)]
  · intro a b c e
    have : ¬ s.seq.level.rank < n.level.rank := by omega
    simp [performWith, a, this, c, e]

/-- An instruction whose meaning performs a body and whose demands are met completes as the body does. -/
theorem Fits.completes {s t : State} {n : Need} {o : Bool} {d : Demand} (h : Fits s n o d) {i : Instr}
    (hd : i.demands = some d) (hm : s.meets i) {len : Nat} {body : M Next} {nx : Next} (hb : body s = .ok (nx, t)) :
    performWith len n o body s = .next (t.retire len nx) := by
  obtain ⟨d', hd', h1, h2, h3, h4⟩ := hm
  obtain rfl : d = d' := by simpa [hd] using hd'
  exact performWith_ok (h.seqs.mpr h1) (by rw [h.level]; exact h2) (by rw [h.feat]; exact h3) (h.opens.mpr h4) hb

/-- The same where the body ends in a state it has itself brought about. -/
theorem Fits.ends {s t : State} {n : Need} {o : Bool} {d : Demand} (h : Fits s n o d) {i : Instr}
    (hd : i.demands = some d) (hm : s.meets i) {len : Nat} {body : M Next} (hb : body s = .error (.own t)) :
    performWith len n o body s = .next t := by
  obtain ⟨d', hd', h1, h2, h3, h4⟩ := hm
  obtain rfl : d = d' := by simpa [hd] using hd'
  exact performWith_own (h.seqs.mpr h1) (by rw [h.level]; exact h2) (by rw [h.feat]; exact h3) (h.opens.mpr h4) hb

/-- The same where the body traps. -/
theorem Fits.traps {s : State} {n : Need} {o : Bool} {d : Demand} (h : Fits s n o d) {i : Instr}
    (hd : i.demands = some d) (hm : s.meets i) {len : Nat} {body : M Next} {c : Cause} {v : Option Word} {f : Fix}
    (hb : body s = .error (.trap c v f)) : performWith len n o body s = .next (s.takeTrap c v f) := by
  obtain ⟨d', hd', h1, h2, h3, h4⟩ := hm
  obtain rfl : d = d' := by simpa [hd] using hd'
  exact performWith_trap (h.seqs.mpr h1) (by rw [h.level]; exact h2) (by rw [h.feat]; exact h3) (h.opens.mpr h4) hb

/-- Either sequencer, user level, a one-bit guard, no queue operand. -/
theorem Fits.any (s : State) (g : Guard) : Fits s Need.any (s.seq.passes g) ⟨.bit g, none, .user, 0, [], []⟩ :=
  ⟨by simp [Need.any, State.seqOk], rfl, rfl, Iff.rfl⟩

/-- Either sequencer, with queue operands. -/
theorem Fits.ops (s : State) (g : Guard) (ss ds : List Opnd) (f : BitVec 16) :
    Fits s (needOps ss ds f) (s.seq.passes g) ⟨.bit g, none, .user, f, ss, ds⟩ :=
  ⟨by simp [needOps, State.seqOk], rfl, rfl, Iff.rfl⟩

/-- The XS, with queue operands. -/
theorem Fits.xs (s : State) (g : Guard) (ss ds : List Opnd) (f : BitVec 16) :
    Fits s (needXs ss ds f) (s.seq.passes g) ⟨.bit g, some .xs, .user, f, ss, ds⟩ :=
  ⟨by simp [needXs, State.seqOk, and_assoc], rfl, rfl, Iff.rfl⟩

end Sys2Proof.Machine
end

