-- ==== Sys2Proof/Laws/Memory.lean ====
section
/-! SUPPORT. Memory: a read after a write, and the canonical form that every operation on memory keeps. -/

namespace Sys2Proof.Machine

@[simp] theorem Memory.get_nil (a : Nat) : Memory.get [] a = 0 := rfl

theorem Memory.wfFrom_le {lo lo' : Nat} {m : Memory} (h : Memory.wfFrom lo m = true) (hl : lo' ≤ lo) :
    Memory.wfFrom lo' m = true := by
  cases m with
  | nil => rfl
  | cons e m =>
    obtain ⟨a, b⟩ := e
    simp only [Memory.wfFrom, Bool.and_eq_true, decide_eq_true_eq] at h ⊢
    exact ⟨⟨by omega, h.1.2⟩, h.2⟩

/-- Below its first key a canonical memory reads as unlisted. -/
theorem Memory.get_of_lt {lo : Nat} {m : Memory} (h : Memory.wfFrom lo m = true) {a : Nat} (ha : a < lo) :
    Memory.get m a = 0 := by
  induction m generalizing lo with
  | nil => rfl
  | cons e m ih =>
    obtain ⟨k, b⟩ := e
    simp only [Memory.wfFrom, Bool.and_eq_true, decide_eq_true_eq] at h
    have hk : a ≠ k := by omega
    simp only [Memory.get, hk, if_false]
    exact ih h.2 (by omega)

/-- A byte written keeps the canonical form. -/
theorem Memory.wfFrom_set {lo : Nat} {m : Memory} (h : Memory.wfFrom lo m = true) (a : Nat) (b : Byte) (ha : lo ≤ a) :
    Memory.wfFrom lo (Memory.set m a b) = true := by
  induction m generalizing lo with
  | nil =>
    simp only [Memory.set]
    split <;> simp_all [Memory.wfFrom]
  | cons e m ih =>
    obtain ⟨k, c⟩ := e
    have h0 := h
    simp only [Memory.wfFrom, Bool.and_eq_true, decide_eq_true_eq] at h
    obtain ⟨⟨hk, hc⟩, hm⟩ := h
    simp only [Memory.set]
    split
    · rename_i hlt
      split
      · exact h0
      · rename_i hb
        simp only [Memory.wfFrom, Bool.and_eq_true, decide_eq_true_eq]
        exact ⟨⟨ha, by simpa using hb⟩, ⟨by omega, hc⟩, hm⟩
    · split
      · rename_i hlt he
        split
        · exact Memory.wfFrom_le hm (by omega)
        · rename_i hb
          simp only [Memory.wfFrom, Bool.and_eq_true, decide_eq_true_eq]
          exact ⟨⟨ha, by simpa using hb⟩, he ▸ hm⟩
      · rename_i hlt he
        simp only [Memory.wfFrom, Bool.and_eq_true, decide_eq_true_eq]
        exact ⟨⟨hk, hc⟩, ih hm (by omega)⟩

theorem Memory.wf_set {m : Memory} (h : Memory.wf m = true) (a : Nat) (b : Byte) :
    Memory.wf (Memory.set m a b) = true := Memory.wfFrom_set h a b (Nat.zero_le a)

theorem Memory.wf_setAll {m : Memory} (h : Memory.wf m = true) (kvs : List (Nat × Byte)) :
    Memory.wf (Memory.setAll m kvs) = true := by
  induction kvs generalizing m with
  | nil => exact h
  | cons e kvs ih => exact ih (Memory.wf_set h e.1 e.2)

/-- Cells taken away keep the canonical form. -/
theorem Memory.wfFrom_filter {lo : Nat} {m : Memory} (h : Memory.wfFrom lo m = true) (p : Host.Cell → Bool) :
    Memory.wfFrom lo (m.filter p) = true := by
  induction m generalizing lo with
  | nil => rfl
  | cons e m ih =>
    obtain ⟨k, c⟩ := e
    simp only [Memory.wfFrom, Bool.and_eq_true, decide_eq_true_eq] at h
    by_cases hp : p (k, c) = true
    · simp only [List.filter_cons, hp, if_true, Memory.wfFrom, Bool.and_eq_true, decide_eq_true_eq]
      exact ⟨h.1, ih h.2⟩
    · simp only [List.filter_cons, hp]
      exact Memory.wfFrom_le (ih h.2) (by omega)

theorem Memory.wf_filter {m : Memory} (h : Memory.wf m = true) (p : Host.Cell → Bool) :
    Memory.wf (m.filter p) = true := Memory.wfFrom_filter h p

@[simp] theorem Memory.wf_nil : Memory.wf [] = true := rfl

theorem Memory.get_set_from {lo : Nat} {m : Memory} (h : Memory.wfFrom lo m = true) (a c : Nat) (b : Byte) :
    Memory.get (Memory.set m a b) c = if c = a then b else Memory.get m c := by
  induction m generalizing lo with
  | nil =>
    by_cases hb : b = Memory.unlisted <;> by_cases hc : c = a <;>
      simp_all [Memory.set, Memory.get, Memory.unlisted]
  | cons e m ih =>
    obtain ⟨k, d⟩ := e
    simp only [Memory.wfFrom, Bool.and_eq_true, decide_eq_true_eq] at h
    obtain ⟨⟨hk, hd⟩, hm⟩ := h
    simp only [Memory.set]
    by_cases h1 : a < k
    · rw [if_pos h1]
      by_cases hb : b = Memory.unlisted
      · rw [if_pos hb]
        by_cases hc : c = a
        · have hck : c ≠ k := by omega
          simp only [Memory.get, hck, if_false]
          rw [Memory.get_of_lt hm (by omega)]
          simp [hc, hb, Memory.unlisted]
        · simp [hc]
      · rw [if_neg hb]; simp only [Memory.get]
    · rw [if_neg h1]
      by_cases h2 : a = k
      · rw [if_pos h2]
        by_cases hb : b = Memory.unlisted
        · rw [if_pos hb]
          by_cases hc : c = a
          · rw [Memory.get_of_lt hm (by omega)]
            simp [hc, hb, Memory.unlisted]
          · simp only [hc, if_false, Memory.get]
            rw [if_neg (by omega)]
        · rw [if_neg hb]
          simp only [Memory.get]
          by_cases hc : c = a
          · simp [hc]
          · rw [if_neg hc, if_neg hc, if_neg (by omega)]
      · rw [if_neg h2]
        simp only [Memory.get]
        by_cases hc : c = k
        · have : c ≠ a := by omega
          simp [hc]
          intro h; omega
        · rw [if_neg hc, if_neg hc]
          exact ih hm

/-- A read after a write: the written byte at its key, the old byte elsewhere. -/
theorem Memory.get_set {m : Memory} (h : Memory.wf m = true) (a c : Nat) (b : Byte) :
    Memory.get (Memory.set m a b) c = if c = a then b else Memory.get m c := Memory.get_set_from h a c b

/-- Keys that a list of bytes does not name keep their bytes. -/
theorem Memory.get_setAll_of_not_mem {m : Memory} (h : Memory.wf m = true) {kvs : List (Nat × Byte)} {c : Nat}
    (hc : c ∉ kvs.map (·.1)) : Memory.get (Memory.setAll m kvs) c = Memory.get m c := by
  induction kvs generalizing m with
  | nil => rfl
  | cons e kvs ih =>
    simp only [List.map_cons, List.mem_cons, not_or] at hc
    show Memory.get (Memory.setAll (Memory.set m e.1 e.2) kvs) c = _
    rw [ih (Memory.wf_set h _ _) hc.2, Memory.get_set h, if_neg hc.1]

end Sys2Proof.Machine
end

