-- ==== Sys2Proof/Laws/PerInstr.lean ====
section
/-! SUPPORT. Lemmas made per instruction: the fields that the encoder makes lie in their ranges, whatever the operands, so that
an encoding is a number of its own length in bits. -/

namespace Sys2Proof

theorem b2n_lt (b : Bool) : b2n b < 2 := by cases b <;> decide
theorem XT.code_lt (x : XT) : x.code < 14 := by cases x <;> decide
theorem Cond.code_lt (c : Cond) : c.code < 6 := by cases c <;> decide
theorem FCond.code_lt (c : FCond) : c.code < 5 := by cases c <;> decide
theorem VCond.code_lt (c : VCond) : c.code < 6 := by
  cases c with
  | int c => exact c.code_lt
  | flt c => exact Nat.lt_trans c.code_lt (by decide)
theorem SignMode.code_lt (m : SignMode) : m.code < 3 := by cases m <;> decide
theorem Space.code_lt (s : Space) : s.code < 4 := by cases s <;> decide
theorem AtomOp.code_lt (o : AtomOp) : o.code < 8 := by cases o <;> decide
theorem RedOp.code_lt (o : RedOp) : o.code < 6 := by cases o <;> decide
theorem FenceClass.code_lt (c : FenceClass) : c.code < 7 := by cases c <;> decide
theorem FenceScope.code_lt (c : FenceScope) : c.code < 4 := by cases c <;> decide
theorem Opnd.kind_lt (o : Opnd) : o.kind < 2 := by cases o <;> simp [Opnd.kind]
theorem Opnd.field_lt (o : Opnd) : o.field < 64 := by cases o <;> simp only [Opnd.field] <;> omega
theorem VSrc.sb_lt (o : VSrc) : o.sb < 2 := by cases o <;> simp [VSrc.sb]
theorem VSrc.kind_lt (o : VSrc) : o.kind < 2 := by
  cases o with
  | vec v => simp [VSrc.kind]
  | sca o => exact o.kind_lt
theorem VSrc.field_lt (o : VSrc) : o.field < 64 := by
  cases o with
  | vec v => exact Nat.lt_trans v.isLt (by decide)
  | sca o => exact o.field_lt
theorem MFmt.xcode_lt (f : MFmt) : f.xcode < 16 := by
  cases f with
  | plain x => exact Nat.lt_trans x.code_lt (by decide)
  | planed d k c => simp [MFmt.xcode]
theorem MFmt.pspec_lt (f : MFmt) : f.pspec < 4096 ∧ f.pspec % 8 = 0 := by
  cases f with
  | plain x => simp [MFmt.pspec]
  | planed d k c => have := b2n_lt c; simp only [MFmt.pspec]; omega
theorem Csr.number_lt (c : Csr) : c.number < 4096 := by cases c <;> decide
theorem Eng.toNat_lt (e : Eng) : e.toNat < 2 ^ 64 := by simp only [Eng.toNat]; omega

namespace Laws.EncodingsFit

/-- Every field of the encoding is in its range, and so is the second part. -/
def Statement (i : Instr) : Prop := ∀ e, encodeFields i = some e → e.w.Bounded ∧ e.hi < 2 ^ 64

theorem nop : Statement .nop := fun _ h => nomatch h
theorem shortNop : Statement .shortNop := fun _ h => nomatch h
theorem endPart (g : Guard) : Statement (.endPart g) := by
  intro e h; cases h; have := b2n_lt g.inv; simp only [W0.Bounded, mkEnc]; omega
theorem illegalEncoding (why : BadEncoding) : Statement (.illegalEncoding why) := fun _ h => nomatch h
theorem add (g : Guard) (x : XT) (d a b : Opnd) : Statement (.add g x d a b) := by
  intro e h; cases h; have := x.code_lt; have := d.field_lt; have := a.field_lt; have := b.field_lt; have := a.kind_lt
  have := b.kind_lt; have := d.kind_lt; have := b2n_lt g.inv; simp only [W0.Bounded, mkEnc, CLay.toNat]; omega
theorem sub (g : Guard) (x : XT) (d a b : Opnd) : Statement (.sub g x d a b) := by
  intro e h; cases h; have := x.code_lt; have := d.field_lt; have := a.field_lt; have := b.field_lt; have := a.kind_lt
  have := b.kind_lt; have := d.kind_lt; have := b2n_lt g.inv; simp only [W0.Bounded, mkEnc, CLay.toNat]; omega
theorem mul (g : Guard) (x : XT) (d a b : Opnd) : Statement (.mul g x d a b) := by
  intro e h; cases h; have := x.code_lt; have := d.field_lt; have := a.field_lt; have := b.field_lt; have := a.kind_lt
  have := b.kind_lt; have := d.kind_lt; have := b2n_lt g.inv; simp only [W0.Bounded, mkEnc, CLay.toNat]; omega
theorem mulh (g : Guard) (x : XT) (d a b : Opnd) : Statement (.mulh g x d a b) := by
  intro e h; cases h; have := x.code_lt; have := d.field_lt; have := a.field_lt; have := b.field_lt; have := a.kind_lt
  have := b.kind_lt; have := d.kind_lt; have := b2n_lt g.inv; simp only [W0.Bounded, mkEnc, CLay.toNat]; omega
theorem mulhz (g : Guard) (x : XT) (d a b : Opnd) : Statement (.mulhz g x d a b) := by
  intro e h; cases h; have := x.code_lt; have := d.field_lt; have := a.field_lt; have := b.field_lt; have := a.kind_lt
  have := b.kind_lt; have := d.kind_lt; have := b2n_lt g.inv; simp only [W0.Bounded, mkEnc, CLay.toNat]; omega
theorem div (g : Guard) (x : XT) (d a b : Opnd) : Statement (.div g x d a b) := by
  intro e h; cases h; have := x.code_lt; have := d.field_lt; have := a.field_lt; have := b.field_lt; have := a.kind_lt
  have := b.kind_lt; have := d.kind_lt; have := b2n_lt g.inv; simp only [W0.Bounded, mkEnc, CLay.toNat]; omega
theorem divz (g : Guard) (x : XT) (d a b : Opnd) : Statement (.divz g x d a b) := by
  intro e h; cases h; have := x.code_lt; have := d.field_lt; have := a.field_lt; have := b.field_lt; have := a.kind_lt
  have := b.kind_lt; have := d.kind_lt; have := b2n_lt g.inv; simp only [W0.Bounded, mkEnc, CLay.toNat]; omega
theorem rem (g : Guard) (x : XT) (d a b : Opnd) : Statement (.rem g x d a b) := by
  intro e h; cases h; have := x.code_lt; have := d.field_lt; have := a.field_lt; have := b.field_lt; have := a.kind_lt
  have := b.kind_lt; have := d.kind_lt; have := b2n_lt g.inv; simp only [W0.Bounded, mkEnc, CLay.toNat]; omega
theorem remz (g : Guard) (x : XT) (d a b : Opnd) : Statement (.remz g x d a b) := by
  intro e h; cases h; have := x.code_lt; have := d.field_lt; have := a.field_lt; have := b.field_lt; have := a.kind_lt
  have := b.kind_lt; have := d.kind_lt; have := b2n_lt g.inv; simp only [W0.Bounded, mkEnc, CLay.toNat]; omega
theorem and (g : Guard) (x : XT) (d a b : Opnd) : Statement (.and g x d a b) := by
  intro e h; cases h; have := x.code_lt; have := d.field_lt; have := a.field_lt; have := b.field_lt; have := a.kind_lt
  have := b.kind_lt; have := d.kind_lt; have := b2n_lt g.inv; simp only [W0.Bounded, mkEnc, CLay.toNat]; omega
theorem or (g : Guard) (x : XT) (d a b : Opnd) : Statement (.or g x d a b) := by
  intro e h; cases h; have := x.code_lt; have := d.field_lt; have := a.field_lt; have := b.field_lt; have := a.kind_lt
  have := b.kind_lt; have := d.kind_lt; have := b2n_lt g.inv; simp only [W0.Bounded, mkEnc, CLay.toNat]; omega
theorem xor (g : Guard) (x : XT) (d a b : Opnd) : Statement (.xor g x d a b) := by
  intro e h; cases h; have := x.code_lt; have := d.field_lt; have := a.field_lt; have := b.field_lt; have := a.kind_lt
  have := b.kind_lt; have := d.kind_lt; have := b2n_lt g.inv; simp only [W0.Bounded, mkEnc, CLay.toNat]; omega
theorem andn (g : Guard) (x : XT) (d a b : Opnd) : Statement (.andn g x d a b) := by
  intro e h; cases h; have := x.code_lt; have := d.field_lt; have := a.field_lt; have := b.field_lt; have := a.kind_lt
  have := b.kind_lt; have := d.kind_lt; have := b2n_lt g.inv; simp only [W0.Bounded, mkEnc, CLay.toNat]; omega
theorem shl (g : Guard) (x : XT) (d a b : Opnd) : Statement (.shl g x d a b) := by
  intro e h; cases h; have := x.code_lt; have := d.field_lt; have := a.field_lt; have := b.field_lt; have := a.kind_lt
  have := b.kind_lt; have := d.kind_lt; have := b2n_lt g.inv; simp only [W0.Bounded, mkEnc, CLay.toNat]; omega
theorem shr (g : Guard) (x : XT) (d a b : Opnd) : Statement (.shr g x d a b) := by
  intro e h; cases h; have := x.code_lt; have := d.field_lt; have := a.field_lt; have := b.field_lt; have := a.kind_lt
  have := b.kind_lt; have := d.kind_lt; have := b2n_lt g.inv; simp only [W0.Bounded, mkEnc, CLay.toNat]; omega
theorem sra (g : Guard) (x : XT) (d a b : Opnd) : Statement (.sra g x d a b) := by
  intro e h; cases h; have := x.code_lt; have := d.field_lt; have := a.field_lt; have := b.field_lt; have := a.kind_lt
  have := b.kind_lt; have := d.kind_lt; have := b2n_lt g.inv; simp only [W0.Bounded, mkEnc, CLay.toNat]; omega
theorem rol (g : Guard) (x : XT) (d a b : Opnd) : Statement (.rol g x d a b) := by
  intro e h; cases h; have := x.code_lt; have := d.field_lt; have := a.field_lt; have := b.field_lt; have := a.kind_lt
  have := b.kind_lt; have := d.kind_lt; have := b2n_lt g.inv; simp only [W0.Bounded, mkEnc, CLay.toNat]; omega
theorem min (g : Guard) (x : XT) (d a b : Opnd) : Statement (.min g x d a b) := by
  intro e h; cases h; have := x.code_lt; have := d.field_lt; have := a.field_lt; have := b.field_lt; have := a.kind_lt
  have := b.kind_lt; have := d.kind_lt; have := b2n_lt g.inv; simp only [W0.Bounded, mkEnc, CLay.toNat]; omega
theorem max (g : Guard) (x : XT) (d a b : Opnd) : Statement (.max g x d a b) := by
  intro e h; cases h; have := x.code_lt; have := d.field_lt; have := a.field_lt; have := b.field_lt; have := a.kind_lt
  have := b.kind_lt; have := d.kind_lt; have := b2n_lt g.inv; simp only [W0.Bounded, mkEnc, CLay.toNat]; omega
theorem minz (g : Guard) (x : XT) (d a b : Opnd) : Statement (.minz g x d a b) := by
  intro e h; cases h; have := x.code_lt; have := d.field_lt; have := a.field_lt; have := b.field_lt; have := a.kind_lt
  have := b.kind_lt; have := d.kind_lt; have := b2n_lt g.inv; simp only [W0.Bounded, mkEnc, CLay.toNat]; omega
theorem maxz (g : Guard) (x : XT) (d a b : Opnd) : Statement (.maxz g x d a b) := by
  intro e h; cases h; have := x.code_lt; have := d.field_lt; have := a.field_lt; have := b.field_lt; have := a.kind_lt
  have := b.kind_lt; have := d.kind_lt; have := b2n_lt g.inv; simp only [W0.Bounded, mkEnc, CLay.toNat]; omega
theorem addi (g : Guard) (x : XT) (d a : Reg) (i : BitVec 24) : Statement (.addi g x d a i) := by
  intro e h; cases h; have := x.code_lt; have := b2n_lt g.inv; simp only [W0.Bounded, mkEnc]; omega
theorem andi (g : Guard) (x : XT) (d a : Reg) (i : BitVec 24) : Statement (.andi g x d a i) := by
  intro e h; cases h; have := x.code_lt; have := b2n_lt g.inv; simp only [W0.Bounded, mkEnc]; omega
theorem ori (g : Guard) (x : XT) (d a : Reg) (i : BitVec 24) : Statement (.ori g x d a i) := by
  intro e h; cases h; have := x.code_lt; have := b2n_lt g.inv; simp only [W0.Bounded, mkEnc]; omega
theorem xori (g : Guard) (x : XT) (d a : Reg) (i : BitVec 24) : Statement (.xori g x d a i) := by
  intro e h; cases h; have := x.code_lt; have := b2n_lt g.inv; simp only [W0.Bounded, mkEnc]; omega
theorem shli (g : Guard) (x : XT) (d a : Reg) (i : BitVec 24) : Statement (.shli g x d a i) := by
  intro e h; cases h; have := x.code_lt; have := b2n_lt g.inv; simp only [W0.Bounded, mkEnc]; omega
theorem shri (g : Guard) (x : XT) (d a : Reg) (i : BitVec 24) : Statement (.shri g x d a i) := by
  intro e h; cases h; have := x.code_lt; have := b2n_lt g.inv; simp only [W0.Bounded, mkEnc]; omega
theorem srai (g : Guard) (x : XT) (d a : Reg) (i : BitVec 24) : Statement (.srai g x d a i) := by
  intro e h; cases h; have := x.code_lt; have := b2n_lt g.inv; simp only [W0.Bounded, mkEnc]; omega
theorem roli (g : Guard) (x : XT) (d a : Reg) (i : BitVec 24) : Statement (.roli g x d a i) := by
  intro e h; cases h; have := x.code_lt; have := b2n_lt g.inv; simp only [W0.Bounded, mkEnc]; omega
theorem muli (g : Guard) (x : XT) (d a : Reg) (i : BitVec 24) : Statement (.muli g x d a i) := by
  intro e h; cases h; have := x.code_lt; have := b2n_lt g.inv; simp only [W0.Bounded, mkEnc]; omega
theorem movi (g : Guard) (d : Reg) (j : BitVec 32) : Statement (.movi g d j) := by
  intro e h; cases h; have := b2n_lt g.inv; simp only [W0.Bounded, mkEnc]; omega
theorem movw (g : Guard) (d : Reg) (j : BitVec 32) : Statement (.movw g d j) := by
  intro e h; cases h; have := b2n_lt g.inv; simp only [W0.Bounded, mkEnc]; omega
theorem mov (g : Guard) (x : XT) (d a : Opnd) : Statement (.mov g x d a) := by
  intro e h; cases h; have := x.code_lt; have := d.field_lt; have := a.field_lt; have := a.kind_lt; have := d.kind_lt
  have := b2n_lt g.inv; simp only [W0.Bounded, mkEnc, CLay.toNat]; omega
theorem lea (g : Guard) (d a b : Opnd) (sc : Fin 4) (disp : BitVec 10) : Statement (.lea g d a b sc disp) := by
  intro e h; cases h; have := d.field_lt; have := a.field_lt; have := b.field_lt; have := a.kind_lt; have := b.kind_lt
  have := d.kind_lt; have := b2n_lt g.inv; simp only [W0.Bounded, mkEnc, CLay.toNat]; omega
theorem rdtick (g : Guard) (d : Reg) : Statement (.rdtick g d) := by
  intro e h; cases h; have := b2n_lt g.inv; simp only [W0.Bounded, mkEnc]; omega
theorem cmp (g : Guard) (x : XT) (kd : Fin 8) (cc : Cond) (a b : Opnd) : Statement (.cmp g x kd cc a b) := by
  intro e h; cases h; have := x.code_lt; have := a.field_lt; have := b.field_lt; have := a.kind_lt; have := b.kind_lt
  have := cc.code_lt; have := b2n_lt g.inv; simp only [W0.Bounded, mkEnc, CLay.toNat]; omega
theorem sel (g : Guard) (d a b : Opnd) (kc : Fin 8) : Statement (.sel g d a b kc) := by
  intro e h; cases h; have := d.field_lt; have := a.field_lt; have := b.field_lt; have := a.kind_lt; have := b.kind_lt
  have := d.kind_lt; have := b2n_lt g.inv; simp only [W0.Bounded, mkEnc, CLay.toNat]; omega
theorem clz (g : Guard) (x : XT) (d a : Opnd) : Statement (.clz g x d a) := by
  intro e h; cases h; have := x.code_lt; have := d.field_lt; have := a.field_lt; have := a.kind_lt; have := d.kind_lt
  have := b2n_lt g.inv; simp only [W0.Bounded, mkEnc, CLay.toNat]; omega
theorem ctz (g : Guard) (x : XT) (d a : Opnd) : Statement (.ctz g x d a) := by
  intro e h; cases h; have := x.code_lt; have := d.field_lt; have := a.field_lt; have := a.kind_lt; have := d.kind_lt
  have := b2n_lt g.inv; simp only [W0.Bounded, mkEnc, CLay.toNat]; omega
theorem popc (g : Guard) (x : XT) (d a : Opnd) : Statement (.popc g x d a) := by
  intro e h; cases h; have := x.code_lt; have := d.field_lt; have := a.field_lt; have := a.kind_lt; have := d.kind_lt
  have := b2n_lt g.inv; simp only [W0.Bounded, mkEnc, CLay.toNat]; omega
theorem bfx (g : Guard) (x : XT) (d a : Opnd) (pos lm1 : Fin 64) : Statement (.bfx g x d a pos lm1) := by
  intro e h; cases h; have := x.code_lt; have := d.field_lt; have := a.field_lt; have := a.kind_lt; have := d.kind_lt
  have := b2n_lt g.inv; simp only [W0.Bounded, mkEnc, CLay.toNat]; omega
theorem bfi (g : Guard) (d : Reg) (a : Opnd) (pos lm1 : Fin 64) : Statement (.bfi g d a pos lm1) := by
  intro e h; cases h; have := a.field_lt; have := a.kind_lt; have := b2n_lt g.inv
  simp only [W0.Bounded, mkEnc, CLay.toNat]; omega
theorem sext (g : Guard) (x : XT) (d a : Opnd) : Statement (.sext g x d a) := by
  intro e h; cases h; have := x.code_lt; have := d.field_lt; have := a.field_lt; have := a.kind_lt; have := d.kind_lt
  have := b2n_lt g.inv; simp only [W0.Bounded, mkEnc, CLay.toNat]; omega
theorem zext (g : Guard) (x : XT) (d a : Opnd) : Statement (.zext g x d a) := by
  intro e h; cases h; have := x.code_lt; have := d.field_lt; have := a.field_lt; have := a.kind_lt; have := d.kind_lt
  have := b2n_lt g.inv; simp only [W0.Bounded, mkEnc, CLay.toNat]; omega
theorem fadd (g : Guard) (x : XT) (d a b : Opnd) : Statement (.fadd g x d a b) := by
  intro e h; cases h; have := x.code_lt; have := d.field_lt; have := a.field_lt; have := b.field_lt; have := a.kind_lt
  have := b.kind_lt; have := d.kind_lt; have := b2n_lt g.inv; simp only [W0.Bounded, mkEnc, CLay.toNat]; omega
theorem fsub (g : Guard) (x : XT) (d a b : Opnd) : Statement (.fsub g x d a b) := by
  intro e h; cases h; have := x.code_lt; have := d.field_lt; have := a.field_lt; have := b.field_lt; have := a.kind_lt
  have := b.kind_lt; have := d.kind_lt; have := b2n_lt g.inv; simp only [W0.Bounded, mkEnc, CLay.toNat]; omega
theorem fmul (g : Guard) (x : XT) (d a b : Opnd) : Statement (.fmul g x d a b) := by
  intro e h; cases h; have := x.code_lt; have := d.field_lt; have := a.field_lt; have := b.field_lt; have := a.kind_lt
  have := b.kind_lt; have := d.kind_lt; have := b2n_lt g.inv; simp only [W0.Bounded, mkEnc, CLay.toNat]; omega
theorem fma (g : Guard) (x : XT) (d a b : Opnd) (c : Reg) : Statement (.fma g x d a b c) := by
  intro e h; cases h; have := x.code_lt; have := d.field_lt; have := a.field_lt; have := b.field_lt; have := a.kind_lt
  have := b.kind_lt; have := d.kind_lt; have := b2n_lt g.inv; simp only [W0.Bounded, mkEnc, CLay.toNat]; omega
theorem fdiv (g : Guard) (x : XT) (d a b : Opnd) : Statement (.fdiv g x d a b) := by
  intro e h; cases h; have := x.code_lt; have := d.field_lt; have := a.field_lt; have := b.field_lt; have := a.kind_lt
  have := b.kind_lt; have := d.kind_lt; have := b2n_lt g.inv; simp only [W0.Bounded, mkEnc, CLay.toNat]; omega
theorem fsqrt (g : Guard) (x : XT) (d a : Opnd) : Statement (.fsqrt g x d a) := by
  intro e h; cases h; have := x.code_lt; have := d.field_lt; have := a.field_lt; have := a.kind_lt; have := d.kind_lt
  have := b2n_lt g.inv; simp only [W0.Bounded, mkEnc, CLay.toNat]; omega
theorem fmin (g : Guard) (x : XT) (d a b : Opnd) : Statement (.fmin g x d a b) := by
  intro e h; cases h; have := x.code_lt; have := d.field_lt; have := a.field_lt; have := b.field_lt; have := a.kind_lt
  have := b.kind_lt; have := d.kind_lt; have := b2n_lt g.inv; simp only [W0.Bounded, mkEnc, CLay.toNat]; omega
theorem fmax (g : Guard) (x : XT) (d a b : Opnd) : Statement (.fmax g x d a b) := by
  intro e h; cases h; have := x.code_lt; have := d.field_lt; have := a.field_lt; have := b.field_lt; have := a.kind_lt
  have := b.kind_lt; have := d.kind_lt; have := b2n_lt g.inv; simp only [W0.Bounded, mkEnc, CLay.toNat]; omega
theorem fcmp (g : Guard) (x : XT) (kd : Fin 8) (cc : FCond) (a b : Opnd) : Statement (.fcmp g x kd cc a b) := by
  intro e h; cases h; have := x.code_lt; have := a.field_lt; have := b.field_lt; have := a.kind_lt; have := b.kind_lt
  have := cc.code_lt; have := b2n_lt g.inv; simp only [W0.Bounded, mkEnc, CLay.toNat]; omega
theorem fcvt (g : Guard) (x fr : XT) (d a : Opnd) : Statement (.fcvt g x fr d a) := by
  intro e h; cases h; have := x.code_lt; have := d.field_lt; have := a.field_lt; have := a.kind_lt; have := d.kind_lt
  have := fr.code_lt; have := b2n_lt g.inv; simp only [W0.Bounded, mkEnc, CLay.toNat]; omega
theorem fsgn (g : Guard) (x : XT) (m : SignMode) (d a b : Opnd) : Statement (.fsgn g x m d a b) := by
  intro e h; cases h; have := x.code_lt; have := d.field_lt; have := a.field_lt; have := b.field_lt; have := a.kind_lt
  have := b.kind_lt; have := d.kind_lt; have := m.code_lt; have := b2n_lt g.inv
  simp only [W0.Bounded, mkEnc, CLay.toNat]; omega
theorem fclass (g : Guard) (x : XT) (d a : Opnd) : Statement (.fclass g x d a) := by
  intro e h; cases h; have := x.code_lt; have := d.field_lt; have := a.field_lt; have := a.kind_lt; have := d.kind_lt
  have := b2n_lt g.inv; simp only [W0.Bounded, mkEnc, CLay.toNat]; omega
theorem br (g : Guard) (i : BitVec 24) : Statement (.br g i) := by
  intro e h; cases h; have := b2n_lt g.inv; simp only [W0.Bounded, mkEnc]; omega
theorem jmp (g : Guard) (d a : Reg) (i : BitVec 24) : Statement (.jmp g d a i) := by
  intro e h; cases h; have := b2n_lt g.inv; simp only [W0.Bounded, mkEnc]; omega
theorem call (g : Guard) (d : Reg) (i : BitVec 24) : Statement (.call g d i) := by
  intro e h; cases h; have := b2n_lt g.inv; simp only [W0.Bounded, mkEnc]; omega
theorem ret (g : Guard) (a : Reg) : Statement (.ret g a) := by
  intro e h; cases h; have := b2n_lt g.inv; simp only [W0.Bounded, mkEnc]; omega
theorem loop (g : Guard) (lc : Fin 2) (a : Reg) (i : BitVec 24) : Statement (.loop g lc a i) := by
  intro e h; cases h; have := b2n_lt g.inv; simp only [W0.Bounded, mkEnc]; omega
theorem tret (g : Guard) : Statement (.tret g) := by
  intro e h; cases h; have := b2n_lt g.inv; simp only [W0.Bounded, mkEnc]; omega
theorem pause (g : Guard) (a : Reg) (i : BitVec 24) : Statement (.pause g a i) := by
  intro e h; cases h; have := b2n_lt g.inv; simp only [W0.Bounded, mkEnc]; omega
theorem pauseExpiry (p : Place) (q : SeqId) : Statement (.pauseExpiry p q) := fun _ h => nomatch h
theorem bqpush (g : Guard) (k : Fin 8) : Statement (.bqpush g k) := by
  intro e h; cases h; have := b2n_lt g.inv; simp only [W0.Bounded, mkEnc]; omega
theorem bqbr (g : Guard) (sense : Bool) (i : BitVec 24) : Statement (.bqbr g sense i) := by
  intro e h; cases h; have := b2n_lt sense; have := b2n_lt g.inv; simp only [W0.Bounded, mkEnc]; omega
theorem ld (g : Guard) (x : XT) (cm : Bool) (d : Opnd) (a c : Reg) (disp : BitVec 10)
    : Statement (.ld g x cm d a c disp) := by
  intro e h; cases h; have := x.code_lt; have := d.field_lt; have := d.kind_lt; have := b2n_lt cm
  have := b2n_lt g.inv; simp only [W0.Bounded, mkEnc, CLay.toNat]; omega
theorem st (g : Guard) (x : XT) (cm sq : Bool) (a : Reg) (b : Opnd) (c : Reg) (disp : BitVec 10)
    : Statement (.st g x cm sq a b c disp) := by
  intro e h; cases h; have := x.code_lt; have := b.field_lt; have := b.kind_lt; have := b2n_lt sq; have := b2n_lt cm
  have := b2n_lt g.inv; simp only [W0.Bounded, mkEnc, CLay.toNat]; omega
theorem ldo (g : Guard) (x : XT) (d : Opnd) (a c : Reg) (disp : BitVec 10) : Statement (.ldo g x d a c disp) := by
  intro e h; cases h; have := x.code_lt; have := d.field_lt; have := d.kind_lt; have := b2n_lt g.inv
  simp only [W0.Bounded, mkEnc, CLay.toNat]; omega
theorem sto (g : Guard) (x : XT) (sq : Bool) (a : Reg) (b : Opnd) (c : Reg) (disp : BitVec 10)
    : Statement (.sto g x sq a b c disp) := by
  intro e h; cases h; have := x.code_lt; have := b.field_lt; have := b.kind_lt; have := b2n_lt sq
  have := b2n_lt g.inv; simp only [W0.Bounded, mkEnc, CLay.toNat]; omega
theorem ldg (g : Guard) (x : XT) (d : Opnd) (a c : Reg) (disp : BitVec 10) : Statement (.ldg g x d a c disp) := by
  intro e h; cases h; have := x.code_lt; have := d.field_lt; have := d.kind_lt; have := b2n_lt g.inv
  simp only [W0.Bounded, mkEnc, CLay.toNat]; omega
theorem stg (g : Guard) (x : XT) (sq : Bool) (a : Reg) (b : Opnd) (c : Reg) (disp : BitVec 10)
    : Statement (.stg g x sq a b c disp) := by
  intro e h; cases h; have := x.code_lt; have := b.field_lt; have := b.kind_lt; have := b2n_lt sq
  have := b2n_lt g.inv; simp only [W0.Bounded, mkEnc, CLay.toNat]; omega
theorem pf (g : Guard) (a c : Reg) (disp : BitVec 10) : Statement (.pf g a c disp) := by
  intro e h; cases h; have := b2n_lt g.inv; simp only [W0.Bounded, mkEnc, CLay.toNat]; omega
theorem sqStorePerform (p : Place) : Statement (.sqStorePerform p) := fun _ h => nomatch h
theorem atom (g : Guard) (x : XT) (sp : Space) (op : AtomOp) (acq rel : Bool) (d a : Reg) (b : Opnd)
    : Statement (.atom g x sp op acq rel d a b) := by
  intro e h; cases h; have := x.code_lt; have := b.field_lt; have := b.kind_lt; have := op.code_lt; have := sp.code_lt
  have := b2n_lt rel; have := b2n_lt acq; have := b2n_lt g.inv; simp only [W0.Bounded, mkEnc, CLay.toNat]; omega
theorem atomcas (g : Guard) (x : XT) (sp : Space) (acq rel : Bool) (d a : Reg) (b : Opnd) (c : Reg)
    : Statement (.atomcas g x sp acq rel d a b c) := by
  intro e h; cases h; have := x.code_lt; have := b.field_lt; have := b.kind_lt; have := sp.code_lt; have := b2n_lt rel
  have := b2n_lt acq; have := b2n_lt g.inv; simp only [W0.Bounded, mkEnc, CLay.toNat]; omega
theorem atomincw (g : Guard) (x : XT) (sp : Space) (acq rel : Bool) (d a c : Reg)
    : Statement (.atomincw g x sp acq rel d a c) := by
  intro e h; cases h; have := x.code_lt; have := sp.code_lt; have := b2n_lt rel; have := b2n_lt acq
  have := b2n_lt g.inv; simp only [W0.Bounded, mkEnc, CLay.toNat]; omega
theorem atomfaddb (g : Guard) (x : XT) (sp : Space) (acq rel : Bool) (d : Reg) (pk : Fin 8) (a : Reg) (b : Opnd) (c : Reg)
    : Statement (.atomfaddb g x sp acq rel d pk a b c) := by
  intro e h; cases h; have := x.code_lt; have := b.field_lt; have := b.kind_lt; have := sp.code_lt; have := b2n_lt rel
  have := b2n_lt acq; have := b2n_lt g.inv; simp only [W0.Bounded, mkEnc, CLay.toNat]; omega
theorem enq (g : Guard) (sp : Space) (acq rel : Bool) (pk : Fin 8) (a : Reg) (b : Opnd)
    : Statement (.enq g sp acq rel pk a b) := by
  intro e h; cases h; have := b.field_lt; have := b.kind_lt; have := sp.code_lt; have := b2n_lt rel
  have := b2n_lt acq; have := b2n_lt g.inv; simp only [W0.Bounded, mkEnc, CLay.toNat]; omega
theorem deq (g : Guard) (sp : Space) (acq rel : Bool) (d : Reg) (pk : Fin 8) (a : Reg)
    : Statement (.deq g sp acq rel d pk a) := by
  intro e h; cases h; have := sp.code_lt; have := b2n_lt rel; have := b2n_lt acq; have := b2n_lt g.inv
  simp only [W0.Bounded, mkEnc, CLay.toNat]; omega
theorem send (g : Guard) (d a b : Reg) (hidx : BitVec 16) (gen : BitVec 8) : Statement (.send g d a b hidx gen) := by
  intro e h; cases h; have := b2n_lt g.inv; simp only [W0.Bounded, mkEnc]; omega
theorem sendt (g : Guard) (d a b : Reg) (hidx : BitVec 16) (gen : BitVec 8) : Statement (.sendt g d a b hidx gen) := by
  intro e h; cases h; have := b2n_lt g.inv; simp only [W0.Bounded, mkEnc]; omega
theorem reply (g : Guard) (d : Reg) : Statement (.reply g d) := by
  intro e h; cases h; have := b2n_lt g.inv; simp only [W0.Bounded, mkEnc]; omega
theorem msend (g : Guard) (d a : Reg) (mb : Fin 64) : Statement (.msend g d a mb) := by
  intro e h; cases h; have := b2n_lt g.inv; simp only [W0.Bounded, mkEnc]; omega
theorem msendt (g : Guard) (d a : Reg) (mb : Fin 64) : Statement (.msendt g d a mb) := by
  intro e h; cases h; have := b2n_lt g.inv; simp only [W0.Bounded, mkEnc]; omega
theorem retryHintExpiry (p : Place) (q : SeqId) : Statement (.retryHintExpiry p q) := fun _ h => nomatch h
theorem answerArrival (p : Place) (q : SeqId) : Statement (.answerArrival p q) := fun _ h => nomatch h
theorem mcfg (g : Guard) (a : Reg) (mb : Fin 64) : Statement (.mcfg g a mb) := by
  intro e h; cases h; have := b2n_lt g.inv; simp only [W0.Bounded, mkEnc]; omega
theorem mrecv (g : Guard) (d a : Reg) (tmo : BitVec 18) (mb : Fin 64) : Statement (.mrecv g d a tmo mb) := by
  intro e h; cases h; have := b2n_lt g.inv; simp only [W0.Bounded, mkEnc]; omega
theorem mpeek (g : Guard) (d : Reg) (mb : Fin 64) : Statement (.mpeek g d mb) := by
  intro e h; cases h; have := b2n_lt g.inv; simp only [W0.Bounded, mkEnc]; omega
theorem mrel (g : Guard) (a : Reg) (mb : Fin 64) : Statement (.mrel g a mb) := by
  intro e h; cases h; have := b2n_lt g.inv; simp only [W0.Bounded, mkEnc]; omega
theorem nlink (g : Guard) (fe fw clr : Bool) : Statement (.nlink g fe fw clr) := by
  intro e h; cases h; have := b2n_lt fe; have := b2n_lt fw; have := b2n_lt clr; have := b2n_lt g.inv
  simp only [W0.Bounded, mkEnc]; omega
theorem activeMessageArrival (src dst : Place) : Statement (.activeMessageArrival src dst) := fun _ h => nomatch h
theorem mailboxDeposit (src dst : Place) : Statement (.mailboxDeposit src dst) := fun _ h => nomatch h
theorem replyArrival (src dst : Place) : Statement (.replyArrival src dst) := fun _ h => nomatch h
theorem gaussianFirstPacket (src dst : Place) : Statement (.gaussianFirstPacket src dst) := fun _ h => nomatch h
theorem gaussianDeposit (src dst : Place) : Statement (.gaussianDeposit src dst) := fun _ h => nomatch h
theorem vadd (g : Guard) (x : XT) (sat : Bool) (d a : VReg) (b : VSrc) : Statement (.vadd g x sat d a b) := by
  intro e h; cases h; have := x.code_lt; have := b.field_lt; have := b.kind_lt; have := b.sb_lt; have := b2n_lt sat
  have := b2n_lt g.inv; simp only [W0.Bounded, mkEnc, CLay.toNat]; omega
theorem vsub (g : Guard) (x : XT) (sat : Bool) (d a : VReg) (b : VSrc) : Statement (.vsub g x sat d a b) := by
  intro e h; cases h; have := x.code_lt; have := b.field_lt; have := b.kind_lt; have := b.sb_lt; have := b2n_lt sat
  have := b2n_lt g.inv; simp only [W0.Bounded, mkEnc, CLay.toNat]; omega
theorem vmul (g : Guard) (x : XT) (d a : VReg) (b : VSrc) : Statement (.vmul g x d a b) := by
  intro e h; cases h; have := x.code_lt; have := b.field_lt; have := b.kind_lt; have := b.sb_lt; have := b2n_lt g.inv
  simp only [W0.Bounded, mkEnc, CLay.toNat]; omega
theorem vfma (g : Guard) (x : XT) (d a : VReg) (b : VSrc) (c : VReg) : Statement (.vfma g x d a b c) := by
  intro e h; cases h; have := x.code_lt; have := b.field_lt; have := b.kind_lt; have := b.sb_lt; have := b2n_lt g.inv
  simp only [W0.Bounded, mkEnc, CLay.toNat]; omega
theorem vmin (g : Guard) (x : XT) (d a : VReg) (b : VSrc) : Statement (.vmin g x d a b) := by
  intro e h; cases h; have := x.code_lt; have := b.field_lt; have := b.kind_lt; have := b.sb_lt; have := b2n_lt g.inv
  simp only [W0.Bounded, mkEnc, CLay.toNat]; omega
theorem vmax (g : Guard) (x : XT) (d a : VReg) (b : VSrc) : Statement (.vmax g x d a b) := by
  intro e h; cases h; have := x.code_lt; have := b.field_lt; have := b.kind_lt; have := b.sb_lt; have := b2n_lt g.inv
  simp only [W0.Bounded, mkEnc, CLay.toNat]; omega
theorem vabs (g : Guard) (x : XT) (d a : VReg) : Statement (.vabs g x d a) := by
  intro e h; cases h; have := x.code_lt; have := b2n_lt g.inv; simp only [W0.Bounded, mkEnc]; omega
theorem vneg (g : Guard) (x : XT) (d a : VReg) : Statement (.vneg g x d a) := by
  intro e h; cases h; have := x.code_lt; have := b2n_lt g.inv; simp only [W0.Bounded, mkEnc]; omega
theorem vand (g : Guard) (x : XT) (d a : VReg) (b : VSrc) : Statement (.vand g x d a b) := by
  intro e h; cases h; have := x.code_lt; have := b.field_lt; have := b.kind_lt; have := b.sb_lt; have := b2n_lt g.inv
  simp only [W0.Bounded, mkEnc, CLay.toNat]; omega
theorem vor (g : Guard) (x : XT) (d a : VReg) (b : VSrc) : Statement (.vor g x d a b) := by
  intro e h; cases h; have := x.code_lt; have := b.field_lt; have := b.kind_lt; have := b.sb_lt; have := b2n_lt g.inv
  simp only [W0.Bounded, mkEnc, CLay.toNat]; omega
theorem vxor (g : Guard) (x : XT) (d a : VReg) (b : VSrc) : Statement (.vxor g x d a b) := by
  intro e h; cases h; have := x.code_lt; have := b.field_lt; have := b.kind_lt; have := b.sb_lt; have := b2n_lt g.inv
  simp only [W0.Bounded, mkEnc, CLay.toNat]; omega
theorem vshl (g : Guard) (x : XT) (d a : VReg) (b : VSrc) : Statement (.vshl g x d a b) := by
  intro e h; cases h; have := x.code_lt; have := b.field_lt; have := b.kind_lt; have := b.sb_lt; have := b2n_lt g.inv
  simp only [W0.Bounded, mkEnc, CLay.toNat]; omega
theorem vshr (g : Guard) (x : XT) (d a : VReg) (b : VSrc) : Statement (.vshr g x d a b) := by
  intro e h; cases h; have := x.code_lt; have := b.field_lt; have := b.kind_lt; have := b.sb_lt; have := b2n_lt g.inv
  simp only [W0.Bounded, mkEnc, CLay.toNat]; omega
theorem vsra (g : Guard) (x : XT) (d a : VReg) (b : VSrc) : Statement (.vsra g x d a b) := by
  intro e h; cases h; have := x.code_lt; have := b.field_lt; have := b.kind_lt; have := b.sb_lt; have := b2n_lt g.inv
  simp only [W0.Bounded, mkEnc, CLay.toNat]; omega
theorem vcmp (g : Guard) (x : XT) (kd : Fin 8) (cc : VCond) (a : VReg) (b : VSrc) : Statement (.vcmp g x kd cc a b) := by
  intro e h; cases h; have := x.code_lt; have := b.field_lt; have := b.kind_lt; have := b.sb_lt; have := cc.code_lt
  have := b2n_lt g.inv; simp only [W0.Bounded, mkEnc, CLay.toNat]; omega
theorem vsel (g : Guard) (d a b : VReg) (kc : Fin 8) : Statement (.vsel g d a b kc) := by
  intro e h; cases h; have := b2n_lt g.inv; simp only [W0.Bounded, mkEnc, CLay.toNat]; omega
theorem vcvt (g : Guard) (x fr : XT) (half : Bool) (d a : VReg) : Statement (.vcvt g x fr half d a) := by
  intro e h; cases h; have := x.code_lt; have := fr.code_lt; have := b2n_lt half; have := b2n_lt g.inv
  simp only [W0.Bounded, mkEnc, CLay.toNat]; omega
theorem vsplit (g : Guard) (d a : VReg) : Statement (.vsplit g d a) := by
  intro e h; cases h; have := b2n_lt g.inv; simp only [W0.Bounded, mkEnc]; omega
theorem vbcast (g : Guard) (x : XT) (d : VReg) (src : BSrc) : Statement (.vbcast g x d src) := by
  cases src with
  | sca o =>
    intro e h; cases h; have := x.code_lt; have := o.field_lt; have := o.kind_lt; have := b2n_lt g.inv
    simp only [W0.Bounded, mkEnc, CLay.toNat]; omega
  | lane v l => intro e h; cases h; have := x.code_lt; have := b2n_lt g.inv; simp only [W0.Bounded, mkEnc, CLay.toNat]; omega
theorem vmov (g : Guard) (d a : VReg) : Statement (.vmov g d a) := by
  intro e h; cases h; have := b2n_lt g.inv; simp only [W0.Bounded, mkEnc]; omega
theorem vmovLaneToScalar (g : Guard) (x : XT) (d : Opnd) (a : VReg) (lane : Fin 32)
    : Statement (.vmovLaneToScalar g x d a lane) := by
  intro e h; cases h; have := x.code_lt; have := d.field_lt; have := d.kind_lt; have := b2n_lt g.inv
  simp only [W0.Bounded, mkEnc, CLay.toNat]; omega
theorem vmovScalarToLane (g : Guard) (x : XT) (d : VReg) (lane : Fin 32) (a : Opnd)
    : Statement (.vmovScalarToLane g x d lane a) := by
  intro e h; cases h; have := x.code_lt; have := a.field_lt; have := a.kind_lt; have := b2n_lt g.inv
  simp only [W0.Bounded, mkEnc, CLay.toNat]; omega
theorem vld (g : Guard) (x : XT) (cm : Bool) (d : VReg) (a : Reg) (disp : BitVec 10) : Statement (.vld g x cm d a disp) := by
  intro e h; cases h; have := x.code_lt; have := b2n_lt cm; have := b2n_lt g.inv
  simp only [W0.Bounded, mkEnc, CLay.toNat]; omega
theorem vst (g : Guard) (x : XT) (cm : Bool) (a : Reg) (b : VReg) (disp : BitVec 10) : Statement (.vst g x cm a b disp) := by
  intro e h; cases h; have := x.code_lt; have := b2n_lt cm; have := b2n_lt g.inv
  simp only [W0.Bounded, mkEnc, CLay.toNat]; omega
theorem vgath (g : Guard) (x : XT) (cm : Bool) (d : VReg) (a : Reg) (b : VReg) : Statement (.vgath g x cm d a b) := by
  intro e h; cases h; have := x.code_lt; have := b2n_lt cm; have := b2n_lt g.inv
  simp only [W0.Bounded, mkEnc, CLay.toNat]; omega
theorem vscat (g : Guard) (x : XT) (cm : Bool) (a : Reg) (b c : VReg) : Statement (.vscat g x cm a b c) := by
  intro e h; cases h; have := x.code_lt; have := b2n_lt cm; have := b2n_lt g.inv
  simp only [W0.Bounded, mkEnc, CLay.toNat]; omega
theorem vstream (g : Guard) (x : XT) (d : Fin 8) (a : Reg) : Statement (.vstream g x d a) := by
  intro e h; cases h; have := x.code_lt; have := b2n_lt g.inv; simp only [W0.Bounded, mkEnc]; omega
theorem vstop (g : Guard) (d : Fin 8) : Statement (.vstop g d) := by
  intro e h; cases h; have := b2n_lt g.inv; simp only [W0.Bounded, mkEnc]; omega
theorem streamRefill (p : Place) (v : Fin 8) : Statement (.streamRefill p v) := fun _ h => nomatch h
theorem vshuf (g : Guard) (d a b : VReg) : Statement (.vshuf g d a b) := by
  intro e h; cases h; have := b2n_lt g.inv; simp only [W0.Bounded, mkEnc]; omega
theorem vred (g : Guard) (x : XT) (op : RedOp) (d : Opnd) (a : VReg) : Statement (.vred g x op d a) := by
  intro e h; cases h; have := x.code_lt; have := d.field_lt; have := d.kind_lt; have := op.code_lt
  have := b2n_lt g.inv; simp only [W0.Bounded, mkEnc, CLay.toNat]; omega
theorem vscan (g : Guard) (x : XT) (op : RedOp) (d a : VReg) : Statement (.vscan g x op d a) := by
  intro e h; cases h; have := x.code_lt; have := op.code_lt; have := b2n_lt g.inv
  simp only [W0.Bounded, mkEnc, CLay.toNat]; omega
theorem mma (g : Guard) (f : MFmt) (d : Fin 4) : Statement (.mma g f d) := by
  intro e h; cases h; have := f.xcode_lt; have := f.pspec_lt; have := b2n_lt g.inv
  simp only [W0.Bounded, mkEnc, CLay.toNat]; omega
theorem mmaz (g : Guard) (f : MFmt) (d : Fin 4) : Statement (.mmaz g f d) := by
  intro e h; cases h; have := f.xcode_lt; have := f.pspec_lt; have := b2n_lt g.inv
  simp only [W0.Bounded, mkEnc, CLay.toNat]; omega
theorem mlda (g : Guard) (f : MFmt) (cm : Bool) (a b c : Reg) : Statement (.mlda g f cm a b c) := by
  intro e h; cases h; have := f.xcode_lt; have := f.pspec_lt; have := b2n_lt cm; have := b2n_lt g.inv
  simp only [W0.Bounded, mkEnc, CLay.toNat]; omega
theorem mldb (g : Guard) (f : MFmt) (cm : Bool) (a b c : Reg) : Statement (.mldb g f cm a b c) := by
  intro e h; cases h; have := f.xcode_lt; have := f.pspec_lt; have := b2n_lt cm; have := b2n_lt g.inv
  simp only [W0.Bounded, mkEnc, CLay.toNat]; omega
theorem mgath (g : Guard) (f : MFmt) (cm : Bool) (a : Reg) (b : VReg) (c : Reg) : Statement (.mgath g f cm a b c) := by
  intro e h; cases h; have := f.xcode_lt; have := f.pspec_lt; have := b2n_lt cm; have := b2n_lt g.inv
  simp only [W0.Bounded, mkEnc, CLay.toNat]; omega
theorem mldacc (g : Guard) (x : XT) (cm : Bool) (d : Fin 4) (a b : Reg) : Statement (.mldacc g x cm d a b) := by
  intro e h; cases h; have := x.code_lt; have := b2n_lt cm; have := b2n_lt g.inv
  simp only [W0.Bounded, mkEnc, CLay.toNat]; omega
theorem mstacc (g : Guard) (x : XT) (cm : Bool) (d : Fin 4) (a b : Reg) (e : BitVec 8) (f : Fin 4)
    : Statement (.mstacc g x cm d a b e f) := by
  intro e h; cases h; have := x.code_lt; have := b2n_lt cm; have := b2n_lt g.inv
  simp only [W0.Bounded, mkEnc, CLay.toNat]; omega
theorem mclr (g : Guard) (d : Fin 4) : Statement (.mclr g d) := by
  intro e h; cases h; have := b2n_lt g.inv; simp only [W0.Bounded, mkEnc]; omega
theorem mmask (g : Guard) (mm nm : Fin 32) (km : BitVec 8) : Statement (.mmask g mm nm km) := by
  intro e h; cases h; have := b2n_lt g.inv; simp only [W0.Bounded, mkEnc]; omega
theorem lbinit (g : Guard) (a : Reg) (lb : Fin 64) : Statement (.lbinit g a lb) := by
  intro e h; cases h; have := b2n_lt g.inv; simp only [W0.Bounded, mkEnc]; omega
theorem lbarr (g : Guard) (a : Reg) (lb : Fin 64) : Statement (.lbarr g a lb) := by
  intro e h; cases h; have := b2n_lt g.inv; simp only [W0.Bounded, mkEnc]; omega
theorem lbdrop (g : Guard) (a : Reg) (lb : Fin 64) : Statement (.lbdrop g a lb) := by
  intro e h; cases h; have := b2n_lt g.inv; simp only [W0.Bounded, mkEnc]; omega
theorem lbjoin (g : Guard) (a : Reg) (lb : Fin 64) : Statement (.lbjoin g a lb) := by
  intro e h; cases h; have := b2n_lt g.inv; simp only [W0.Bounded, mkEnc]; omega
theorem lbexp (g : Guard) (a : Reg) (lb : Fin 64) : Statement (.lbexp g a lb) := by
  intro e h; cases h; have := b2n_lt g.inv; simp only [W0.Bounded, mkEnc]; omega
theorem lbwait (g : Guard) (d a : Reg) (tmo : BitVec 17) (par : Bool) (lb : Fin 64)
    : Statement (.lbwait g d a tmo par lb) := by
  intro e h; cases h; have := b2n_lt par; have := b2n_lt g.inv; simp only [W0.Bounded, mkEnc]; omega
theorem lbtest (g : Guard) (d : Reg) (lb : Fin 64) : Statement (.lbtest g d lb) := by
  intro e h; cases h; have := b2n_lt g.inv; simp only [W0.Bounded, mkEnc]; omega
theorem lbRemoteArrival (src dst : Place) : Statement (.lbRemoteArrival src dst) := fun _ h => nomatch h
theorem mshcfg (g : Guard) (a : Reg) (m : Fin 16) : Statement (.mshcfg g a m) := by
  intro e h; cases h; have := b2n_lt g.inv; simp only [W0.Bounded, mkEnc]; omega
theorem mshar (g : Guard) (m : Fin 16) : Statement (.mshar g m) := by
  intro e h; cases h; have := b2n_lt g.inv; simp only [W0.Bounded, mkEnc]; omega
theorem mshwait (g : Guard) (d a : Reg) (tmo : BitVec 19) (par : Bool) (m : Fin 16)
    : Statement (.mshwait g d a tmo par m) := by
  intro e h; cases h; have := b2n_lt par; have := b2n_lt g.inv; simp only [W0.Bounded, mkEnc]; omega
theorem mshstat (g : Guard) (d : Reg) (sel : Fin 4) (m : Fin 16) : Statement (.mshstat g d sel m) := by
  intro e h; cases h; have := b2n_lt g.inv; simp only [W0.Bounded, mkEnc]; omega
theorem meshArrivalCombine (clu : Nat) (corner : Place) (m : Fin 16)
    : Statement (.meshArrivalCombine clu corner m) := fun _ h => nomatch h
theorem meshRelease (corner dst : Place) (m : Fin 16) : Statement (.meshRelease corner dst m) := fun _ h => nomatch h
theorem meshWUpdate (corner dst : Place) (m : Fin 16) : Statement (.meshWUpdate corner dst m) := fun _ h => nomatch h
theorem semwait (g : Guard) (d a b : Reg) (tmo : BitVec 16) (sem : BitVec 8) : Statement (.semwait g d a b tmo sem) := by
  intro e h; cases h; have := b2n_lt g.inv; simp only [W0.Bounded, mkEnc]; omega
theorem semsig (g : Guard) (a b : Reg) (sem : BitVec 8) : Statement (.semsig g a b sem) := by
  intro e h; cases h; have := b2n_lt g.inv; simp only [W0.Bounded, mkEnc]; omega
theorem semset (g : Guard) (a : Reg) (sem : BitVec 8) : Statement (.semset g a sem) := by
  intro e h; cases h; have := b2n_lt g.inv; simp only [W0.Bounded, mkEnc]; omega
theorem semget (g : Guard) (d : Reg) (sem : BitVec 8) : Statement (.semget g d sem) := by
  intro e h; cases h; have := b2n_lt g.inv; simp only [W0.Bounded, mkEnc]; omega
theorem semRemoteSignal (src dst : Place) : Statement (.semRemoteSignal src dst) := fun _ h => nomatch h
theorem declare (g : Guard) (a : Reg) : Statement (.declare g a) := by
  intro e h; cases h; have := b2n_lt g.inv; simp only [W0.Bounded, mkEnc]; omega
theorem hold (g : Guard) : Statement (.hold g) := by
  intro e h; cases h; have := b2n_lt g.inv; simp only [W0.Bounded, mkEnc]; omega
theorem holdx (g : Guard) (d a : Reg) : Statement (.holdx g d a) := by
  intro e h; cases h; have := b2n_lt g.inv; simp only [W0.Bounded, mkEnc]; omega
theorem rel (g : Guard) (d a : Reg) : Statement (.rel g d a) := by
  intro e h; cases h; have := b2n_lt g.inv; simp only [W0.Bounded, mkEnc]; omega
theorem relEnd (g : Guard) (d a : Reg) : Statement (.relEnd g d a) := by
  intro e h; cases h; have := b2n_lt g.inv; simp only [W0.Bounded, mkEnc]; omega
theorem holdst (g : Guard) (d a : Reg) : Statement (.holdst g d a) := by
  intro e h; cases h; have := b2n_lt g.inv; simp only [W0.Bounded, mkEnc]; omega
theorem holdstObj (g : Guard) (d a : Reg) : Statement (.holdstObj g d a) := by
  intro e h; cases h; have := b2n_lt g.inv; simp only [W0.Bounded, mkEnc]; omega
theorem dline (g : Guard) (a : Reg) : Statement (.dline g a) := by
  intro e h; cases h; have := b2n_lt g.inv; simp only [W0.Bounded, mkEnc]; omega
theorem dlineRel (g : Guard) (a : Reg) : Statement (.dlineRel g a) := by
  intro e h; cases h; have := b2n_lt g.inv; simp only [W0.Bounded, mkEnc]; omega
theorem fence (g : Guard) (src dst : FenceClass) (scope : FenceScope) : Statement (.fence g src dst scope) := by
  intro e h; cases h; have := src.code_lt; have := dst.code_lt; have := scope.code_lt; have := b2n_lt g.inv
  simp only [W0.Bounded, mkEnc]; omega
theorem spawn (g : Guard) (a b : Reg) : Statement (.spawn g a b) := by
  intro e h; cases h; have := b2n_lt g.inv; simp only [W0.Bounded, mkEnc]; omega
theorem dist (g : Guard) (d : Reg) : Statement (.dist g d) := by
  intro e h; cases h; have := b2n_lt g.inv; simp only [W0.Bounded, mkEnc]; omega
theorem widx (g : Guard) (d a : Reg) (fld : Fin 6) : Statement (.widx g d a fld) := by
  intro e h; cases h; have := b2n_lt g.inv; simp only [W0.Bounded, mkEnc]; omega
theorem trig (g : Guard) (a : Reg) (tc : Fin 16) : Statement (.trig g a tc) := by
  intro e h; cases h; have := b2n_lt g.inv; simp only [W0.Bounded, mkEnc]; omega
theorem trigDisarm (g : Guard) (tc : Fin 16) : Statement (.trigDisarm g tc) := by
  intro e h; cases h; have := b2n_lt g.inv; simp only [W0.Bounded, mkEnc]; omega
theorem trigd (g : Guard) (a b : Reg) : Statement (.trigd g a b) := by
  intro e h; cases h; have := b2n_lt g.inv; simp only [W0.Bounded, mkEnc]; omega
theorem triggerIncrement (src dst : Place) : Statement (.triggerIncrement src dst) := fun _ h => nomatch h
theorem cpy (g : Guard) (e : Eng) : Statement (.cpy g e) := by
  intro e h; cases h; have := e.toNat_lt; have := b2n_lt g.inv; simp only [W0.Bounded, mkEnc]; omega
theorem cpyr (g : Guard) (e : Eng) : Statement (.cpyr g e) := by
  intro e h; cases h; have := e.toNat_lt; have := b2n_lt g.inv; simp only [W0.Bounded, mkEnc]; omega
theorem cpym (g : Guard) (e : Eng) : Statement (.cpym g e) := by
  intro e h; cases h; have := e.toNat_lt; have := b2n_lt g.inv; simp only [W0.Bounded, mkEnc]; omega
theorem cpymFollowOn (cmd : Nat) : Statement (.cpymFollowOn cmd) := fun _ h => nomatch h
theorem subscribe (g : Guard) (rg : Fin 16) (e : Eng) : Statement (.subscribe g rg e) := by
  intro e h; cases h; have := e.toNat_lt; have := b2n_lt g.inv; simp only [W0.Bounded, mkEnc]; omega
theorem drain (g : Guard) (rg : Fin 16) (e : Eng) : Statement (.drain g rg e) := by
  intro e h; cases h; have := e.toNat_lt; have := b2n_lt g.inv; simp only [W0.Bounded, mkEnc]; omega
theorem unsub (g : Guard) (rg : Fin 16) (e : Eng) : Statement (.unsub g rg e) := by
  intro e h; cases h; have := e.toNat_lt; have := b2n_lt g.inv; simp only [W0.Bounded, mkEnc]; omega
theorem streamerTile (cmd : Nat) : Statement (.streamerTile cmd) := fun _ h => nomatch h
theorem bte (g : Guard) (e : Eng) : Statement (.bte g e) := by
  intro e h; cases h; have := e.toNat_lt; have := b2n_lt g.inv; simp only [W0.Bounded, mkEnc]; omega
theorem coll (g : Guard) (e : Eng) : Statement (.coll g e) := by
  intro e h; cases h; have := e.toNat_lt; have := b2n_lt g.inv; simp only [W0.Bounded, mkEnc]; omega
theorem collCombine (cmd : Nat) : Statement (.collCombine cmd) := fun _ h => nomatch h
theorem xfer (g : Guard) (e : Eng) : Statement (.xfer g e) := by
  intro e h; cases h; have := e.toNat_lt; have := b2n_lt g.inv; simp only [W0.Bounded, mkEnc]; omega
theorem engineAccept (cmd : Nat) : Statement (.engineAccept cmd) := fun _ h => nomatch h
theorem engineWriteLand (cmd : Nat) : Statement (.engineWriteLand cmd) := fun _ h => nomatch h
theorem engineComplete (cmd : Nat) : Statement (.engineComplete cmd) := fun _ h => nomatch h
theorem engineFaultStop (cmd : Nat) : Statement (.engineFaultStop cmd) := fun _ h => nomatch h
theorem engineFaultDelivery (p : Place) : Statement (.engineFaultDelivery p) := fun _ h => nomatch h
theorem gcfg (g : Guard) (d a b : Reg) : Statement (.gcfg g d a b) := by
  intro e h; cases h; have := b2n_lt g.inv; simp only [W0.Bounded, mkEnc]; omega
theorem gld (g : Guard) (d : Fin 4) (a : Reg) (nm1 : Fin 32) (cm : Bool) : Statement (.gld g d a nm1 cm) := by
  intro e h; cases h; have := b2n_lt cm; have := b2n_lt g.inv; simp only [W0.Bounded, mkEnc]; omega
theorem gldHdr (g : Guard) (d : Fin 4) (a : Reg) (cm : Bool) : Statement (.gldHdr g d a cm) := by
  intro e h; cases h; have := b2n_lt cm; have := b2n_lt g.inv; simp only [W0.Bounded, mkEnc]; omega
theorem gst (g : Guard) (a : Reg) (b : Fin 4) (nm1 : Fin 32) (cm : Bool) : Statement (.gst g a b nm1 cm) := by
  intro e h; cases h; have := b2n_lt cm; have := b2n_lt g.inv; simp only [W0.Bounded, mkEnc]; omega
theorem gzero (g : Guard) (d : Fin 4) : Statement (.gzero g d) := by
  intro e h; cases h; have := b2n_lt g.inv; simp only [W0.Bounded, mkEnc]; omega
theorem gaddp (g : Guard) (d a : Fin 4) (nm1 off : Fin 32) : Statement (.gaddp g d a nm1 off) := by
  intro e h; cases h; have := b2n_lt g.inv; simp only [W0.Bounded, mkEnc]; omega
theorem gschur (g : Guard) (d a : Fin 4) (nm1 off : Fin 32) (km1 : Fin 8) : Statement (.gschur g d a nm1 off km1) := by
  intro e h; cases h; have := b2n_lt g.inv; simp only [W0.Bounded, mkEnc]; omega
theorem gdamp (g : Guard) (d a : Fin 4) (nm1 : Fin 32) (mb : Fin 64) : Statement (.gdamp g d a nm1 mb) := by
  intro e h; cases h; have := b2n_lt g.inv; simp only [W0.Bounded, mkEnc]; omega
theorem gres (g : Guard) (d : Reg) (a b : Fin 4) (nm1 : Fin 32) : Statement (.gres g d a b nm1) := by
  intro e h; cases h; have := b2n_lt g.inv; simp only [W0.Bounded, mkEnc]; omega
theorem gsend (g : Guard) (d a : Reg) (b : Fin 4) (c : Reg) (once : Bool) (mb : Fin 64) (nm1 : Fin 32)
    : Statement (.gsend g d a b c once mb nm1) := by
  intro e h; cases h; have := b2n_lt once; have := b2n_lt g.inv; simp only [W0.Bounded, mkEnc, CLay.toNat]; omega
theorem gsolve (g : Guard) (d a : Fin 4) (nm1 : Fin 32) : Statement (.gsolve g d a nm1) := by
  intro e h; cases h; have := b2n_lt g.inv; simp only [W0.Bounded, mkEnc]; omega
theorem rlcrun (g : Guard) (e : Eng) : Statement (.rlcrun g e) := by
  intro e h; cases h; have := e.toNat_lt; have := b2n_lt g.inv; simp only [W0.Bounded, mkEnc]; omega
theorem rlcstat (g : Guard) (d : Reg) : Statement (.rlcstat g d) := by
  intro e h; cases h; have := b2n_lt g.inv; simp only [W0.Bounded, mkEnc]; omega
theorem rlcabort (g : Guard) (d : Reg) : Statement (.rlcabort g d) := by
  intro e h; cases h; have := b2n_lt g.inv; simp only [W0.Bounded, mkEnc]; omega
theorem rlcRunStart (clu : Nat) : Statement (.rlcRunStart clu) := fun _ h => nomatch h
theorem rlcFactorColumn (clu : Nat) : Statement (.rlcFactorColumn clu) := fun _ h => nomatch h
theorem rlcStep (clu : Nat) : Statement (.rlcStep clu) := fun _ h => nomatch h
theorem stgdecl (g : Guard) (d a : Reg) (stage : BitVec 8) : Statement (.stgdecl g d a stage) := by
  intro e h; cases h; have := b2n_lt g.inv; simp only [W0.Bounded, mkEnc]; omega
theorem stgq (g : Guard) (mb : Fin 64) (stage : BitVec 8) (bm1 : Fin 16) : Statement (.stgq g mb stage bm1) := by
  intro e h; cases h; have := b2n_lt g.inv; simp only [W0.Bounded, mkEnc]; omega
theorem stgqClr (g : Guard) (mb : Fin 64) : Statement (.stgqClr g mb) := by
  intro e h; cases h; have := b2n_lt g.inv; simp only [W0.Bounded, mkEnc]; omega
theorem stshal (g : Guard) (d : Reg) (ss : Fin 64) : Statement (.stshal g d ss) := by
  intro e h; cases h; have := b2n_lt g.inv; simp only [W0.Bounded, mkEnc]; omega
theorem stshfr (g : Guard) (a : Reg) (ss : Fin 64) : Statement (.stshfr g a ss) := by
  intro e h; cases h; have := b2n_lt g.inv; simp only [W0.Bounded, mkEnc]; omega
theorem stshfrInit (g : Guard) (a : Reg) (ss : Fin 64) : Statement (.stshfrInit g a ss) := by
  intro e h; cases h; have := b2n_lt g.inv; simp only [W0.Bounded, mkEnc]; omega
theorem stgstat (g : Guard) (d : Reg) (stage : BitVec 8) : Statement (.stgstat g d stage) := by
  intro e h; cases h; have := b2n_lt g.inv; simp only [W0.Bounded, mkEnc]; omega
theorem stgstatStash (g : Guard) (d : Reg) (ss : Fin 64) : Statement (.stgstatStash g d ss) := by
  intro e h; cases h; have := b2n_lt g.inv; simp only [W0.Bounded, mkEnc]; omega
theorem stageDispatch (home : Place) (mb : Fin 64) (member : Place)
    : Statement (.stageDispatch home mb member) := fun _ h => nomatch h
theorem trap (g : Guard) (code : BitVec 24) : Statement (.trap g code) := by
  intro e h; cases h; have := b2n_lt g.inv; simp only [W0.Bounded, mkEnc]; omega
theorem eret (g : Guard) : Statement (.eret g) := by
  intro e h; cases h; have := b2n_lt g.inv; simp only [W0.Bounded, mkEnc]; omega
theorem csrr (g : Guard) (d : Reg) (n : Csr) : Statement (.csrr g d n) := by
  intro e h; cases h; have := n.number_lt; have := b2n_lt g.inv; simp only [W0.Bounded, mkEnc]; omega
theorem csrw (g : Guard) (a : Reg) (n : Csr) : Statement (.csrw g a n) := by
  intro e h; cases h; have := n.number_lt; have := b2n_lt g.inv; simp only [W0.Bounded, mkEnc]; omega
theorem csrx (g : Guard) (d a : Reg) (n : Csr) : Statement (.csrx g d a n) := by
  intro e h; cases h; have := n.number_lt; have := b2n_lt g.inv; simp only [W0.Bounded, mkEnc]; omega
theorem icinvWrite (g : Guard) (a : Reg) : Statement (.icinvWrite g a) := by
  intro e h; cases h; have := b2n_lt g.inv; simp only [W0.Bounded, mkEnc]; omega
theorem deadlineWrite (g : Guard) (a : Reg) : Statement (.deadlineWrite g a) := by
  intro e h; cases h; have := b2n_lt g.inv; simp only [W0.Bounded, mkEnc]; omega
theorem wdog (g : Guard) (d a : Reg) : Statement (.wdog g d a) := by
  intro e h; cases h; have := b2n_lt g.inv; simp only [W0.Bounded, mkEnc]; omega
theorem feat (g : Guard) (d a : Reg) : Statement (.feat g d a) := by
  intro e h; cases h; have := b2n_lt g.inv; simp only [W0.Bounded, mkEnc]; omega
theorem speed (g : Guard) (d a : Reg) : Statement (.speed g d a) := by
  intro e h; cases h; have := b2n_lt g.inv; simp only [W0.Bounded, mkEnc]; omega
theorem plsetPlace (g : Guard) (d a b : Reg) : Statement (.plsetPlace g d a b) := by
  intro e h; cases h; have := b2n_lt g.inv; simp only [W0.Bounded, mkEnc]; omega
theorem plsetPerm (g : Guard) (d a b : Reg) : Statement (.plsetPerm g d a b) := by
  intro e h; cases h; have := b2n_lt g.inv; simp only [W0.Bounded, mkEnc]; omega
theorem activation (p : Place) : Statement (.activation p) := fun _ h => nomatch h
theorem stealRequest (clu : Nat) : Statement (.stealRequest clu) := fun _ h => nomatch h
theorem stealRetryTimer (clu : Nat) : Statement (.stealRetryTimer clu) := fun _ h => nomatch h
theorem stealRequestArrival (src dst : Place) : Statement (.stealRequestArrival src dst) := fun _ h => nomatch h
theorem stealShipment (src dst : Place) : Statement (.stealShipment src dst) := fun _ h => nomatch h
theorem stealAck (src dst : Place) : Statement (.stealAck src dst) := fun _ h => nomatch h
theorem transitTimeout (clu : Nat) (number : Nat) : Statement (.transitTimeout clu number) := fun _ h => nomatch h
theorem transitQueryAnswer (src dst : Place) : Statement (.transitQueryAnswer src dst) := fun _ h => nomatch h
theorem loadExchange (part : Nat) : Statement (.loadExchange part) := fun _ h => nomatch h
theorem rootDelivery (part : Nat) : Statement (.rootDelivery part) := fun _ h => nomatch h
theorem launchServicePost (src dst : Place) : Statement (.launchServicePost src dst) := fun _ h => nomatch h
theorem idleTreeSample (part : Nat) : Statement (.idleTreeSample part) := fun _ h => nomatch h
theorem deadlinePass (p : Place) : Statement (.deadlinePass p) := fun _ h => nomatch h
theorem waitTimeout (p : Place) (q : SeqId) : Statement (.waitTimeout p q) := fun _ h => nomatch h
theorem watchdog (p : Place) : Statement (.watchdog p) := fun _ h => nomatch h
theorem stuckTimerExpiry (router : Nat) (port : Nat) (vn : Vn) (part : Nat)
    : Statement (.stuckTimerExpiry router port vn part) := fun _ h => nomatch h
theorem injectionLimitLift (vn : Vn) (part : Nat) : Statement (.injectionLimitLift vn part) := fun _ h => nomatch h
theorem linkDead (link : Nat) (lost : List Nat) : Statement (.linkDead link lost) := fun _ h => nomatch h
theorem rerouteResume : Statement .rerouteResume := fun _ h => nomatch h
theorem accessDispatch (p : Place) (path : Path) : Statement (.accessDispatch p path) := fun _ h => nomatch h
theorem accessApply (p : Place) (path : Path) (h : Home) : Statement (.accessApply p path h) := fun _ h => nomatch h
theorem closeApply (p : Place) (h : Home) : Statement (.closeApply p h) := fun _ h => nomatch h
theorem reduceApply (cmd : Nat) : Statement (.reduceApply cmd) := fun _ h => nomatch h
theorem replicaApply (stack : Nat) : Statement (.replicaApply stack) := fun _ h => nomatch h
theorem replicaCommit : Statement .replicaCommit := fun _ h => nomatch h
theorem pageServiceAnswer (p : Place) (mapped : Bool) : Statement (.pageServiceAnswer p mapped) := fun _ h => nomatch h
theorem tsliceExpiry (part : Nat) : Statement (.tsliceExpiry part) := fun _ h => nomatch h
theorem tenantSwitch (part : Nat) : Statement (.tenantSwitch part) := fun _ h => nomatch h
theorem selfTestStart (u : TestUnit) : Statement (.selfTestStart u) := fun _ h => nomatch h
theorem selfTestEnd (u : TestUnit) (pass : Bool) : Statement (.selfTestEnd u pass) := fun _ h => nomatch h
theorem clusterRetirement (clu : Nat) : Statement (.clusterRetirement clu) := fun _ h => nomatch h
theorem uncorrectableRead (p : Place) (addr : Nat) : Statement (.uncorrectableRead p addr) := fun _ h => nomatch h
theorem sublinkDown (port sub : Nat) : Statement (.sublinkDown port sub) := fun _ h => nomatch h
theorem scaleupMessage (port sub : Nat) (header : Word) (payload : List Word) (rr : Word) (mb : Option (Fin 64))
    : Statement (.scaleupMessage port sub header payload rr mb) := fun _ h => nomatch h
theorem boot : Statement .boot := fun _ h => nomatch h
theorem governorSample (p : PowerSample) : Statement (.governorSample p) := fun _ h => nomatch h
theorem usageRecord (part : Nat) : Statement (.usageRecord part) := fun _ h => nomatch h
theorem frameScrub (station : Nat) : Statement (.frameScrub station) := fun _ h => nomatch h
theorem featuresOk (fn : HostFn) (features : Word) : Statement (.featuresOk fn features) := fun _ h => nomatch h
theorem launch (h : CmdHead) (b : LaunchParams) : Statement (.launch h b) := fun _ h => nomatch h
theorem memmapMap (h : CmdHead) (proc level : Nat) (addr : Nat) (pte : Word) (rest : List MapUpdate)
    : Statement (.memmapMap h proc level addr pte rest) := fun _ h => nomatch h
theorem memmapUnmap (h : CmdHead) (proc level : Nat) (addr : Nat) (rest : List MapUpdate)
    : Statement (.memmapUnmap h proc level addr rest) := fun _ h => nomatch h
theorem memmapRange (h : CmdHead) (proc slot index : Nat) (entry : BitVec 256) (rest : List MapUpdate)
    : Statement (.memmapRange h proc slot index entry rest) := fun _ h => nomatch h
theorem memmapProcess (h : CmdHead) (proc index : Nat) (entry : BitVec 128) (rest : List MapUpdate)
    : Statement (.memmapProcess h proc index entry rest) := fun _ h => nomatch h
theorem query (h : CmdHead) : Statement (.query h) := fun _ h => nomatch h
theorem usage (h : CmdHead) (first : Nat) (max : Nat) : Statement (.usage h first max) := fun _ h => nomatch h
theorem restore (h : CmdHead) (source : Nat) (image : Nat) : Statement (.restore h source image) := fun _ h => nomatch h
theorem keep (h : CmdHead) : Statement (.keep h) := fun _ h => nomatch h
theorem create (h : CmdHead) (b : CreateBody) : Statement (.create h b) := fun _ h => nomatch h
theorem destroy (h : CmdHead) (partn : Nat) (keepIt : Bool) : Statement (.destroy h partn keepIt) := fun _ h => nomatch h
theorem bind (h : CmdHead) (partn tenant port vf : Nat) (pmask : Word)
    : Statement (.bind h partn tenant port vf pmask) := fun _ h => nomatch h
theorem unbind (h : CmdHead) (partn tenant port vf : Nat)
    : Statement (.unbind h partn tenant port vf) := fun _ h => nomatch h
theorem restitch (h : CmdHead) (partn shape subn : Nat) : Statement (.restitch h partn shape subn) := fun _ h => nomatch h
theorem sublink (h : CmdHead) (port sub partn : Nat) : Statement (.sublink h port sub partn) := fun _ h => nomatch h
theorem fwact (h : CmdHead) (slot : Nat) : Statement (.fwact h slot) := fun _ h => nomatch h
theorem powercap (h : CmdHead) (cap : Nat) : Statement (.powercap h cap) := fun _ h => nomatch h
theorem quote (h : CmdHead) (nonce : List Byte) : Statement (.quote h nonce) := fun _ h => nomatch h
theorem period (h : CmdHead) (partn ticks : Nat) : Statement (.period h partn ticks) := fun _ h => nomatch h
theorem recover (h : CmdHead) (image : List Byte) : Statement (.recover h image) := fun _ h => nomatch h
theorem scaleupFlit (port sub part : Nat) (flit : List Byte)
    : Statement (.scaleupFlit port sub part flit) := fun _ h => nomatch h
theorem usageQueueTake (pf : Fin 2) : Statement (.usageQueueTake pf) := fun _ h => nomatch h

end Laws.EncodingsFit

end Sys2Proof
end

