-- ==== Sys2Proof/Laws/Publish.lean ====
section
/-! SUPPORT. What the operations on published sets can do: they change `pubs` and nothing else, and a set that is put at a key
is what stands there. -/

namespace Sys2Proof.Machine

/-! ## Nothing but the sets changes -/

theorem State.setPub_only (s : State) (k : PubKey) (x : PubSet) : { s.setPub k x with pubs := s.pubs } = s := rfl
theorem State.addPub_only (s : State) (k : PubKey) (x : PubSet) : { s.addPub k x with pubs := s.pubs } = s := rfl
theorem State.movePub_only (s : State) (k j : PubKey) : { s.movePub k j with pubs := s.pubs } = s := rfl
theorem State.publish_only (s : State) (k : PubKey) : { s.publish k with pubs := s.pubs } = s := rfl
theorem State.acquire_only (s : State) (k : PubKey) : { s.acquire k with pubs := s.pubs } = s := rfl
theorem State.dropPubs_only (s : State) (sid : Nat) : { s.dropPubs sid with pubs := s.pubs } = s := rfl

@[simp] theorem State.setPub_variant (s : State) (k : PubKey) (x : PubSet) : (s.setPub k x).variant = s.variant := rfl
@[simp] theorem State.setPub_tick (s : State) (k : PubKey) (x : PubSet) : (s.setPub k x).tick = s.tick := rfl
@[simp] theorem State.setPub_mem (s : State) (k : PubKey) (x : PubSet) : (s.setPub k x).mem = s.mem := rfl
@[simp] theorem State.setPub_firmwareMem (s : State) (k : PubKey) (x : PubSet) : (s.setPub k x).firmwareMem = s.firmwareMem := rfl
@[simp] theorem State.setPub_cores (s : State) (k : PubKey) (x : PubSet) : (s.setPub k x).cores = s.cores := rfl
@[simp] theorem State.setPub_clusters (s : State) (k : PubKey) (x : PubSet) : (s.setPub k x).clusters = s.clusters := rfl
@[simp] theorem State.setPub_parts (s : State) (k : PubKey) (x : PubSet) : (s.setPub k x).parts = s.parts := rfl
@[simp] theorem State.setPub_cmds (s : State) (k : PubKey) (x : PubSet) : (s.setPub k x).cmds = s.cmds := rfl
@[simp] theorem State.setPub_fab (s : State) (k : PubKey) (x : PubSet) : (s.setPub k x).fab = s.fab := rfl
@[simp] theorem State.setPub_fw (s : State) (k : PubKey) (x : PubSet) : (s.setPub k x).fw = s.fw := rfl
@[simp] theorem State.setPub_gov (s : State) (k : PubKey) (x : PubSet) : (s.setPub k x).gov = s.gov := rfl
@[simp] theorem State.setPub_host (s : State) (k : PubKey) (x : PubSet) : (s.setPub k x).host = s.host := rfl
@[simp] theorem State.setPub_sublinks (s : State) (k : PubKey) (x : PubSet) : (s.setPub k x).sublinks = s.sublinks := rfl
@[simp] theorem State.setPub_retired (s : State) (k : PubKey) (x : PubSet) : (s.setPub k x).retired = s.retired := rfl
@[simp] theorem State.setPub_badFrames (s : State) (k : PubKey) (x : PubSet) : (s.setPub k x).badFrames = s.badFrames := rfl
@[simp] theorem State.setPub_frames (s : State) (k : PubKey) (x : PubSet) : (s.setPub k x).frames = s.frames := rfl
@[simp] theorem State.setPub_scrubbed (s : State) (k : PubKey) (x : PubSet) : (s.setPub k x).scrubbed = s.scrubbed := rfl
@[simp] theorem State.setPub_dirty (s : State) (k : PubKey) (x : PubSet) : (s.setPub k x).dirty = s.dirty := rfl
@[simp] theorem State.setPub_logs (s : State) (k : PubKey) (x : PubSet) : (s.setPub k x).logs = s.logs := rfl
@[simp] theorem State.setPub_agenda (s : State) (k : PubKey) (x : PubSet) : (s.setPub k x).agenda = s.agenda := rfl
@[simp] theorem State.setPub_cur (s : State) (k : PubKey) (x : PubSet) : (s.setPub k x).cur = s.cur := rfl
@[simp] theorem State.setPub_slowTurn (s : State) (k : PubKey) (x : PubSet) : (s.setPub k x).slowTurn = s.slowTurn := rfl
@[simp] theorem State.setPub_nextSid (s : State) (k : PubKey) (x : PubSet) : (s.setPub k x).nextSid = s.nextSid := rfl
@[simp] theorem State.setPub_nextCmd (s : State) (k : PubKey) (x : PubSet) : (s.setPub k x).nextCmd = s.nextCmd := rfl
@[simp] theorem State.setPub_saves (s : State) (k : PubKey) (x : PubSet) : (s.setPub k x).saves = s.saves := rfl
@[simp] theorem State.setPub_free (s : State) (k : PubKey) (x : PubSet) : (s.setPub k x).free = s.free := rfl
@[simp] theorem State.setPub_spares (s : State) (k : PubKey) (x : PubSet) : (s.setPub k x).spares = s.spares := rfl
@[simp] theorem State.setPub_worn (s : State) (k : PubKey) (x : PubSet) : (s.setPub k x).worn = s.worn := rfl
@[simp] theorem State.setPub_cycle (s : State) (k : PubKey) (x : PubSet) : (s.setPub k x).cycle = s.cycle := rfl
@[simp] theorem State.setPub_cpBanks (s : State) (k : PubKey) (x : PubSet) : (s.setPub k x).cpBanks = s.cpBanks := rfl

@[simp] theorem State.addPub_variant (s : State) (k : PubKey) (x : PubSet) : (s.addPub k x).variant = s.variant := rfl
@[simp] theorem State.addPub_tick (s : State) (k : PubKey) (x : PubSet) : (s.addPub k x).tick = s.tick := rfl
@[simp] theorem State.addPub_mem (s : State) (k : PubKey) (x : PubSet) : (s.addPub k x).mem = s.mem := rfl
@[simp] theorem State.addPub_firmwareMem (s : State) (k : PubKey) (x : PubSet) : (s.addPub k x).firmwareMem = s.firmwareMem := rfl
@[simp] theorem State.addPub_cores (s : State) (k : PubKey) (x : PubSet) : (s.addPub k x).cores = s.cores := rfl
@[simp] theorem State.addPub_clusters (s : State) (k : PubKey) (x : PubSet) : (s.addPub k x).clusters = s.clusters := rfl
@[simp] theorem State.addPub_parts (s : State) (k : PubKey) (x : PubSet) : (s.addPub k x).parts = s.parts := rfl
@[simp] theorem State.addPub_cmds (s : State) (k : PubKey) (x : PubSet) : (s.addPub k x).cmds = s.cmds := rfl
@[simp] theorem State.addPub_fab (s : State) (k : PubKey) (x : PubSet) : (s.addPub k x).fab = s.fab := rfl
@[simp] theorem State.addPub_fw (s : State) (k : PubKey) (x : PubSet) : (s.addPub k x).fw = s.fw := rfl
@[simp] theorem State.addPub_gov (s : State) (k : PubKey) (x : PubSet) : (s.addPub k x).gov = s.gov := rfl
@[simp] theorem State.addPub_host (s : State) (k : PubKey) (x : PubSet) : (s.addPub k x).host = s.host := rfl
@[simp] theorem State.addPub_sublinks (s : State) (k : PubKey) (x : PubSet) : (s.addPub k x).sublinks = s.sublinks := rfl
@[simp] theorem State.addPub_retired (s : State) (k : PubKey) (x : PubSet) : (s.addPub k x).retired = s.retired := rfl
@[simp] theorem State.addPub_badFrames (s : State) (k : PubKey) (x : PubSet) : (s.addPub k x).badFrames = s.badFrames := rfl
@[simp] theorem State.addPub_frames (s : State) (k : PubKey) (x : PubSet) : (s.addPub k x).frames = s.frames := rfl
@[simp] theorem State.addPub_scrubbed (s : State) (k : PubKey) (x : PubSet) : (s.addPub k x).scrubbed = s.scrubbed := rfl
@[simp] theorem State.addPub_dirty (s : State) (k : PubKey) (x : PubSet) : (s.addPub k x).dirty = s.dirty := rfl
@[simp] theorem State.addPub_logs (s : State) (k : PubKey) (x : PubSet) : (s.addPub k x).logs = s.logs := rfl
@[simp] theorem State.addPub_agenda (s : State) (k : PubKey) (x : PubSet) : (s.addPub k x).agenda = s.agenda := rfl
@[simp] theorem State.addPub_cur (s : State) (k : PubKey) (x : PubSet) : (s.addPub k x).cur = s.cur := rfl
@[simp] theorem State.addPub_slowTurn (s : State) (k : PubKey) (x : PubSet) : (s.addPub k x).slowTurn = s.slowTurn := rfl
@[simp] theorem State.addPub_nextSid (s : State) (k : PubKey) (x : PubSet) : (s.addPub k x).nextSid = s.nextSid := rfl
@[simp] theorem State.addPub_nextCmd (s : State) (k : PubKey) (x : PubSet) : (s.addPub k x).nextCmd = s.nextCmd := rfl
@[simp] theorem State.addPub_saves (s : State) (k : PubKey) (x : PubSet) : (s.addPub k x).saves = s.saves := rfl
@[simp] theorem State.addPub_free (s : State) (k : PubKey) (x : PubSet) : (s.addPub k x).free = s.free := rfl
@[simp] theorem State.addPub_spares (s : State) (k : PubKey) (x : PubSet) : (s.addPub k x).spares = s.spares := rfl
@[simp] theorem State.addPub_worn (s : State) (k : PubKey) (x : PubSet) : (s.addPub k x).worn = s.worn := rfl
@[simp] theorem State.addPub_cycle (s : State) (k : PubKey) (x : PubSet) : (s.addPub k x).cycle = s.cycle := rfl
@[simp] theorem State.addPub_cpBanks (s : State) (k : PubKey) (x : PubSet) : (s.addPub k x).cpBanks = s.cpBanks := rfl

@[simp] theorem State.movePub_variant (s : State) (k j : PubKey) : (s.movePub k j).variant = s.variant := rfl
@[simp] theorem State.movePub_tick (s : State) (k j : PubKey) : (s.movePub k j).tick = s.tick := rfl
@[simp] theorem State.movePub_mem (s : State) (k j : PubKey) : (s.movePub k j).mem = s.mem := rfl
@[simp] theorem State.movePub_firmwareMem (s : State) (k j : PubKey) : (s.movePub k j).firmwareMem = s.firmwareMem := rfl
@[simp] theorem State.movePub_cores (s : State) (k j : PubKey) : (s.movePub k j).cores = s.cores := rfl
@[simp] theorem State.movePub_clusters (s : State) (k j : PubKey) : (s.movePub k j).clusters = s.clusters := rfl
@[simp] theorem State.movePub_parts (s : State) (k j : PubKey) : (s.movePub k j).parts = s.parts := rfl
@[simp] theorem State.movePub_cmds (s : State) (k j : PubKey) : (s.movePub k j).cmds = s.cmds := rfl
@[simp] theorem State.movePub_fab (s : State) (k j : PubKey) : (s.movePub k j).fab = s.fab := rfl
@[simp] theorem State.movePub_fw (s : State) (k j : PubKey) : (s.movePub k j).fw = s.fw := rfl
@[simp] theorem State.movePub_gov (s : State) (k j : PubKey) : (s.movePub k j).gov = s.gov := rfl
@[simp] theorem State.movePub_host (s : State) (k j : PubKey) : (s.movePub k j).host = s.host := rfl
@[simp] theorem State.movePub_sublinks (s : State) (k j : PubKey) : (s.movePub k j).sublinks = s.sublinks := rfl
@[simp] theorem State.movePub_retired (s : State) (k j : PubKey) : (s.movePub k j).retired = s.retired := rfl
@[simp] theorem State.movePub_badFrames (s : State) (k j : PubKey) : (s.movePub k j).badFrames = s.badFrames := rfl
@[simp] theorem State.movePub_frames (s : State) (k j : PubKey) : (s.movePub k j).frames = s.frames := rfl
@[simp] theorem State.movePub_scrubbed (s : State) (k j : PubKey) : (s.movePub k j).scrubbed = s.scrubbed := rfl
@[simp] theorem State.movePub_dirty (s : State) (k j : PubKey) : (s.movePub k j).dirty = s.dirty := rfl
@[simp] theorem State.movePub_logs (s : State) (k j : PubKey) : (s.movePub k j).logs = s.logs := rfl
@[simp] theorem State.movePub_agenda (s : State) (k j : PubKey) : (s.movePub k j).agenda = s.agenda := rfl
@[simp] theorem State.movePub_cur (s : State) (k j : PubKey) : (s.movePub k j).cur = s.cur := rfl
@[simp] theorem State.movePub_slowTurn (s : State) (k j : PubKey) : (s.movePub k j).slowTurn = s.slowTurn := rfl
@[simp] theorem State.movePub_nextSid (s : State) (k j : PubKey) : (s.movePub k j).nextSid = s.nextSid := rfl
@[simp] theorem State.movePub_nextCmd (s : State) (k j : PubKey) : (s.movePub k j).nextCmd = s.nextCmd := rfl
@[simp] theorem State.movePub_saves (s : State) (k j : PubKey) : (s.movePub k j).saves = s.saves := rfl
@[simp] theorem State.movePub_free (s : State) (k j : PubKey) : (s.movePub k j).free = s.free := rfl
@[simp] theorem State.movePub_spares (s : State) (k j : PubKey) : (s.movePub k j).spares = s.spares := rfl
@[simp] theorem State.movePub_worn (s : State) (k j : PubKey) : (s.movePub k j).worn = s.worn := rfl
@[simp] theorem State.movePub_cycle (s : State) (k j : PubKey) : (s.movePub k j).cycle = s.cycle := rfl
@[simp] theorem State.movePub_cpBanks (s : State) (k j : PubKey) : (s.movePub k j).cpBanks = s.cpBanks := rfl

@[simp] theorem State.publish_variant (s : State) (k : PubKey) : (s.publish k).variant = s.variant := rfl
@[simp] theorem State.publish_tick (s : State) (k : PubKey) : (s.publish k).tick = s.tick := rfl
@[simp] theorem State.publish_mem (s : State) (k : PubKey) : (s.publish k).mem = s.mem := rfl
@[simp] theorem State.publish_firmwareMem (s : State) (k : PubKey) : (s.publish k).firmwareMem = s.firmwareMem := rfl
@[simp] theorem State.publish_cores (s : State) (k : PubKey) : (s.publish k).cores = s.cores := rfl
@[simp] theorem State.publish_clusters (s : State) (k : PubKey) : (s.publish k).clusters = s.clusters := rfl
@[simp] theorem State.publish_parts (s : State) (k : PubKey) : (s.publish k).parts = s.parts := rfl
@[simp] theorem State.publish_cmds (s : State) (k : PubKey) : (s.publish k).cmds = s.cmds := rfl
@[simp] theorem State.publish_fab (s : State) (k : PubKey) : (s.publish k).fab = s.fab := rfl
@[simp] theorem State.publish_fw (s : State) (k : PubKey) : (s.publish k).fw = s.fw := rfl
@[simp] theorem State.publish_gov (s : State) (k : PubKey) : (s.publish k).gov = s.gov := rfl
@[simp] theorem State.publish_host (s : State) (k : PubKey) : (s.publish k).host = s.host := rfl
@[simp] theorem State.publish_sublinks (s : State) (k : PubKey) : (s.publish k).sublinks = s.sublinks := rfl
@[simp] theorem State.publish_retired (s : State) (k : PubKey) : (s.publish k).retired = s.retired := rfl
@[simp] theorem State.publish_badFrames (s : State) (k : PubKey) : (s.publish k).badFrames = s.badFrames := rfl
@[simp] theorem State.publish_frames (s : State) (k : PubKey) : (s.publish k).frames = s.frames := rfl
@[simp] theorem State.publish_scrubbed (s : State) (k : PubKey) : (s.publish k).scrubbed = s.scrubbed := rfl
@[simp] theorem State.publish_dirty (s : State) (k : PubKey) : (s.publish k).dirty = s.dirty := rfl
@[simp] theorem State.publish_logs (s : State) (k : PubKey) : (s.publish k).logs = s.logs := rfl
@[simp] theorem State.publish_agenda (s : State) (k : PubKey) : (s.publish k).agenda = s.agenda := rfl
@[simp] theorem State.publish_cur (s : State) (k : PubKey) : (s.publish k).cur = s.cur := rfl
@[simp] theorem State.publish_slowTurn (s : State) (k : PubKey) : (s.publish k).slowTurn = s.slowTurn := rfl
@[simp] theorem State.publish_nextSid (s : State) (k : PubKey) : (s.publish k).nextSid = s.nextSid := rfl
@[simp] theorem State.publish_nextCmd (s : State) (k : PubKey) : (s.publish k).nextCmd = s.nextCmd := rfl
@[simp] theorem State.publish_saves (s : State) (k : PubKey) : (s.publish k).saves = s.saves := rfl
@[simp] theorem State.publish_free (s : State) (k : PubKey) : (s.publish k).free = s.free := rfl
@[simp] theorem State.publish_spares (s : State) (k : PubKey) : (s.publish k).spares = s.spares := rfl
@[simp] theorem State.publish_worn (s : State) (k : PubKey) : (s.publish k).worn = s.worn := rfl
@[simp] theorem State.publish_cycle (s : State) (k : PubKey) : (s.publish k).cycle = s.cycle := rfl
@[simp] theorem State.publish_cpBanks (s : State) (k : PubKey) : (s.publish k).cpBanks = s.cpBanks := rfl

@[simp] theorem State.acquire_variant (s : State) (k : PubKey) : (s.acquire k).variant = s.variant := rfl
@[simp] theorem State.acquire_tick (s : State) (k : PubKey) : (s.acquire k).tick = s.tick := rfl
@[simp] theorem State.acquire_mem (s : State) (k : PubKey) : (s.acquire k).mem = s.mem := rfl
@[simp] theorem State.acquire_firmwareMem (s : State) (k : PubKey) : (s.acquire k).firmwareMem = s.firmwareMem := rfl
@[simp] theorem State.acquire_cores (s : State) (k : PubKey) : (s.acquire k).cores = s.cores := rfl
@[simp] theorem State.acquire_clusters (s : State) (k : PubKey) : (s.acquire k).clusters = s.clusters := rfl
@[simp] theorem State.acquire_parts (s : State) (k : PubKey) : (s.acquire k).parts = s.parts := rfl
@[simp] theorem State.acquire_cmds (s : State) (k : PubKey) : (s.acquire k).cmds = s.cmds := rfl
@[simp] theorem State.acquire_fab (s : State) (k : PubKey) : (s.acquire k).fab = s.fab := rfl
@[simp] theorem State.acquire_fw (s : State) (k : PubKey) : (s.acquire k).fw = s.fw := rfl
@[simp] theorem State.acquire_gov (s : State) (k : PubKey) : (s.acquire k).gov = s.gov := rfl
@[simp] theorem State.acquire_host (s : State) (k : PubKey) : (s.acquire k).host = s.host := rfl
@[simp] theorem State.acquire_sublinks (s : State) (k : PubKey) : (s.acquire k).sublinks = s.sublinks := rfl
@[simp] theorem State.acquire_retired (s : State) (k : PubKey) : (s.acquire k).retired = s.retired := rfl
@[simp] theorem State.acquire_badFrames (s : State) (k : PubKey) : (s.acquire k).badFrames = s.badFrames := rfl
@[simp] theorem State.acquire_frames (s : State) (k : PubKey) : (s.acquire k).frames = s.frames := rfl
@[simp] theorem State.acquire_scrubbed (s : State) (k : PubKey) : (s.acquire k).scrubbed = s.scrubbed := rfl
@[simp] theorem State.acquire_dirty (s : State) (k : PubKey) : (s.acquire k).dirty = s.dirty := rfl
@[simp] theorem State.acquire_logs (s : State) (k : PubKey) : (s.acquire k).logs = s.logs := rfl
@[simp] theorem State.acquire_agenda (s : State) (k : PubKey) : (s.acquire k).agenda = s.agenda := rfl
@[simp] theorem State.acquire_cur (s : State) (k : PubKey) : (s.acquire k).cur = s.cur := rfl
@[simp] theorem State.acquire_slowTurn (s : State) (k : PubKey) : (s.acquire k).slowTurn = s.slowTurn := rfl
@[simp] theorem State.acquire_nextSid (s : State) (k : PubKey) : (s.acquire k).nextSid = s.nextSid := rfl
@[simp] theorem State.acquire_nextCmd (s : State) (k : PubKey) : (s.acquire k).nextCmd = s.nextCmd := rfl
@[simp] theorem State.acquire_saves (s : State) (k : PubKey) : (s.acquire k).saves = s.saves := rfl
@[simp] theorem State.acquire_free (s : State) (k : PubKey) : (s.acquire k).free = s.free := rfl
@[simp] theorem State.acquire_spares (s : State) (k : PubKey) : (s.acquire k).spares = s.spares := rfl
@[simp] theorem State.acquire_worn (s : State) (k : PubKey) : (s.acquire k).worn = s.worn := rfl
@[simp] theorem State.acquire_cycle (s : State) (k : PubKey) : (s.acquire k).cycle = s.cycle := rfl
@[simp] theorem State.acquire_cpBanks (s : State) (k : PubKey) : (s.acquire k).cpBanks = s.cpBanks := rfl

@[simp] theorem State.dropPubs_variant (s : State) (sid : Nat) : (s.dropPubs sid).variant = s.variant := rfl
@[simp] theorem State.dropPubs_tick (s : State) (sid : Nat) : (s.dropPubs sid).tick = s.tick := rfl
@[simp] theorem State.dropPubs_mem (s : State) (sid : Nat) : (s.dropPubs sid).mem = s.mem := rfl
@[simp] theorem State.dropPubs_firmwareMem (s : State) (sid : Nat) : (s.dropPubs sid).firmwareMem = s.firmwareMem := rfl
@[simp] theorem State.dropPubs_cores (s : State) (sid : Nat) : (s.dropPubs sid).cores = s.cores := rfl
@[simp] theorem State.dropPubs_clusters (s : State) (sid : Nat) : (s.dropPubs sid).clusters = s.clusters := rfl
@[simp] theorem State.dropPubs_parts (s : State) (sid : Nat) : (s.dropPubs sid).parts = s.parts := rfl
@[simp] theorem State.dropPubs_cmds (s : State) (sid : Nat) : (s.dropPubs sid).cmds = s.cmds := rfl
@[simp] theorem State.dropPubs_fab (s : State) (sid : Nat) : (s.dropPubs sid).fab = s.fab := rfl
@[simp] theorem State.dropPubs_fw (s : State) (sid : Nat) : (s.dropPubs sid).fw = s.fw := rfl
@[simp] theorem State.dropPubs_gov (s : State) (sid : Nat) : (s.dropPubs sid).gov = s.gov := rfl
@[simp] theorem State.dropPubs_host (s : State) (sid : Nat) : (s.dropPubs sid).host = s.host := rfl
@[simp] theorem State.dropPubs_sublinks (s : State) (sid : Nat) : (s.dropPubs sid).sublinks = s.sublinks := rfl
@[simp] theorem State.dropPubs_retired (s : State) (sid : Nat) : (s.dropPubs sid).retired = s.retired := rfl
@[simp] theorem State.dropPubs_badFrames (s : State) (sid : Nat) : (s.dropPubs sid).badFrames = s.badFrames := rfl
@[simp] theorem State.dropPubs_frames (s : State) (sid : Nat) : (s.dropPubs sid).frames = s.frames := rfl
@[simp] theorem State.dropPubs_scrubbed (s : State) (sid : Nat) : (s.dropPubs sid).scrubbed = s.scrubbed := rfl
@[simp] theorem State.dropPubs_dirty (s : State) (sid : Nat) : (s.dropPubs sid).dirty = s.dirty := rfl
@[simp] theorem State.dropPubs_logs (s : State) (sid : Nat) : (s.dropPubs sid).logs = s.logs := rfl
@[simp] theorem State.dropPubs_agenda (s : State) (sid : Nat) : (s.dropPubs sid).agenda = s.agenda := rfl
@[simp] theorem State.dropPubs_cur (s : State) (sid : Nat) : (s.dropPubs sid).cur = s.cur := rfl
@[simp] theorem State.dropPubs_slowTurn (s : State) (sid : Nat) : (s.dropPubs sid).slowTurn = s.slowTurn := rfl
@[simp] theorem State.dropPubs_nextSid (s : State) (sid : Nat) : (s.dropPubs sid).nextSid = s.nextSid := rfl
@[simp] theorem State.dropPubs_nextCmd (s : State) (sid : Nat) : (s.dropPubs sid).nextCmd = s.nextCmd := rfl
@[simp] theorem State.dropPubs_saves (s : State) (sid : Nat) : (s.dropPubs sid).saves = s.saves := rfl
@[simp] theorem State.dropPubs_free (s : State) (sid : Nat) : (s.dropPubs sid).free = s.free := rfl
@[simp] theorem State.dropPubs_spares (s : State) (sid : Nat) : (s.dropPubs sid).spares = s.spares := rfl
@[simp] theorem State.dropPubs_worn (s : State) (sid : Nat) : (s.dropPubs sid).worn = s.worn := rfl
@[simp] theorem State.dropPubs_cycle (s : State) (sid : Nat) : (s.dropPubs sid).cycle = s.cycle := rfl
@[simp] theorem State.dropPubs_cpBanks (s : State) (sid : Nat) : (s.dropPubs sid).cpBanks = s.cpBanks := rfl

/-! ## The set at a key -/

theorem State.pubOf_setPub (s : State) (k : PubKey) (x : PubSet) : (s.setPub k x).pubOf k = x := by
  have absent : (s.pubs.filter fun e => e.1 != k).find? (·.1 == k) = none := by simp
  unfold State.pubOf State.setPub
  by_cases h : x = PubSet.none
  · simp [h, absent]
  · simp [h, absent, List.find?_append]

theorem State.pubOf_setPub_ne (s : State) {j k : PubKey} (x : PubSet) (h : j ≠ k) : (s.setPub k x).pubOf j = s.pubOf j := by
  have keep : (s.pubs.filter fun e => e.1 != k).find? (·.1 == j) = s.pubs.find? (·.1 == j) := by
    induction s.pubs with
    | nil => rfl
    | cons e es ih =>
      by_cases hk : e.1 = k
      · simp [hk, Ne.symm h, ih]
      · by_cases hj : e.1 = j <;> simp [hk, hj, h, ih]
  have last : (if x = PubSet.none then [] else [(k, x)]).find? (·.1 == j) = none := by split <;> simp [Ne.symm h]
  simp only [State.pubOf, State.setPub, List.find?_append, keep, last, Option.or_none]

end Sys2Proof.Machine
end

