-- ==== Sys2Proof/Tests/Slice0.lean ====
section
/-! SUPPORT. Tests of the model: words written out from the encoding tables, ill-formed terms, single steps whose results
are worked out by hand from the rules, and for each statement a state and operands that meet its hypotheses. -/

open Sys2Proof Sys2Proof.Machine Sys2Proof.Claims

namespace Sys2Proof.Tests

set_option Elab.async false

/-! ## Small states -/

/-- The guard that always passes (07 R88). -/
def g0 : Guard := ⟨false, 0⟩

/-- A strand's XS part at user level, at the start of its code page, with every feature (`State.placed`). -/
def xs : State := State.reset.placed 64 0

/-- The same strand with both parts present, the AS current. -/
def as_ : State := { xs.modMy fun t => { t with as := { t.xs with pc := 32 } } with cur := (0, .as) }

/-- The same strand with its AS part alone. -/
def asAlone : State := as_.modMy fun t => { t with xs := Seq.reset }

/-- The XS at another level. -/
def atLevel (l : Level) : State := xs.modSeq fun c => { c with level := l }

/-- Scalar registers of the current sequencer set. -/
def put (s : State) (l : List (Reg × Word)) : State := s.modSeq fun c => l.foldl (fun c e => c.writeS e.1 e.2) c

/-- The current sequencer's core with its objects as `f` makes them. -/
def obj (s : State) (f : Objs → Objs) : State := s.modObjs s.cur.1 f

/-- Bytes of the current core's CP written. -/
def cp (s : State) (off n v : Nat) : State := s.writeCp s.cur.1 off (leBytesOf n v)

/-- The step answers a next state of which `f` holds. -/
def next (r : Host.Outcome State Fault Refusal) (f : State → Bool) : Bool :=
  match r with
  | .next t => f t
  | _ => false

/-- The trap that the current core's strand has taken: its code, and TVAL. -/
def trapped (c : Cause) (v : Word) (t : State) : Bool := t.my.csr.cause.code == BitVec.ofNat 8 c.code && t.my.csr.tval == v

/-- The trap that the current core's strand has taken, where TVAL is open. -/
def caused (c : Cause) (t : State) : Bool := t.my.csr.cause.code == BitVec.ofNat 8 c.code && t.seq.level == .supervisor

/-- The n bytes of a core's CP from an offset, little-endian. -/
def cpAt (t : State) (p : Place) (off n : Nat) : Nat := leOf (Memory.getAll t.mem (span (Key.cp p off) n))

/-- An enabled plain mailbox of two slots at CP 64 of a core. -/
def mb (p : Place) (i : Nat) (s : State) : State := s.setMbx p i (Mbx.reset.configure (1 + 2 ^ 10 + 2 ^ 14 + 2 ^ 21))

/-- A packet stands in the mesh. -/
def packet (k : Packet) (s : State) : State := { s with fab := { s.fab with net := s.fab.net ++ [k], nextNum := s.fab.nextNum + 1 } }

/-- The withheld object `o`, by the mark of another strand. -/
def held (o : ObjRef) (s : State) : State := s.modPart 0 fun t => { t with marks := t.marks ++ [⟨o, 9, 77⟩] }
/-- The poisoned object `o`. -/
def poison (o : ObjRef) (s : State) : State := s.modPart 0 fun t => { t with pois := t.pois ++ [o] }

/-- A pattern of n bytes in CP at an address, stride 1. -/
def patt (addr n : Nat) : Nat := addr + n * 2 ^ 64 + 2 ^ 80 + 2 ^ 96 + 3 * 2 ^ 112
/-- The copy block of two bytes from CP 2048 to CP 3072: XID 9, LBV 0, NTV with tag 7 to core 1, SINC by the word. -/
def copyBlk : Nat := 9 + 2 ^ 57 + 1 * 2 ^ 64 + 7 * 2 ^ 80 + patt 2048 2 * 2 ^ 128 + patt 3072 2 * 2 ^ 384
/-- The command word's second half: block at CP 1024, SSEM 5 by 2, wait on semaphore 4 for 1. -/
def eng (place wthr : Nat) : Eng := ⟨BitVec.ofNat 16 place, 64, 4, BitVec.ofNat 12 wthr, 5, 2⟩
/-- A command of a kind with its block. -/
def comm (k : CmdKind) (ph : Phase) (blk size : Nat) : Cmd :=
  { id := 1, kind := k, issuer := 0, sid := 0, part := 0, proc := 1, wid := 0, wfw := 0, lid := 0, user := true, eng := eng 0 0, ring := 3,
    blk := leBytesOf size blk, phase := ph, front := 0, tries := 0, stopReq := false, tileOpen := false, seqNo := 0, matPending := false,
    got := [], early := [], addend := 0, owed := false }
/-- `xs` with one command under way, CP 2048 holding two bytes. -/
def withCmd (c : Cmd) : State := { cp xs 2048 2 0xBBAA with cmds := [c], nextCmd := 2 }

/-- Lanes by a function of their number. -/
def lanes (f : Nat → Nat) : Lanes := Vector.ofFn fun i => BitVec.ofNat 32 (f i.val)

/-- A partition whose handler 0, generation 3, has both entries: the AS at 0, the XS at 64. -/
def handlerS : State :=
  { xs.modPart 0 fun t => { t with attrs := { t.attrs with hcount := 1, htab := 2048 } } with
    mem := Memory.setAll xs.mem ((span (Key.hbm (xs.slotStation 0) (20480 + 2048)) 32).zip (leBytesOf 32 (7 * 2 ^ 160 + 3 * 2 ^ 152 + 64 * 2 ^ 32))) }

/-- A plain active message for handler 0. -/
def msg0 : Msg := ⟨mkHeader 0 false false false false 1 3 0 1, [1, 2, 3, 4, 5, 6], 0, 0, 0, 0, 1, 0, 0, 0, 0, 0⟩

/-- CP 64 to 71 stand in the recorder as another core's write. -/
def clash (s : State) : State :=
  { s with fab := { s.fab with lines := [⟨xs.cpHome 0 64, Key.cp 0 64 / 64, .core 9, 0, 0xFF, .w⟩] } }

/-- Core 0 idle, and its handler 0 with both entries. -/
def idleS : State := handlerS.modMe fun c => { c with running := false }
/-- One inbox entry for handler 0. -/
def entry0 : InEntry := ⟨msg0, 1, 4, 0, 0, 0, 0⟩
/-- A TCB of handler 0. -/
def tcb0 : Tcb := ⟨3 * 2 ^ 16, [1, 2, 3, 4, 5, 6], 0x77, 0, 2, 1, 0, 0, 0, 208, [], 0, PubSet.none⟩

/-- A partition of clusters 0 to 3 in a row. -/
def rowS : State := idleS.modPart 0 fun t => { t with attrs := { t.attrs with ncols := 4 } }

/-- A launch of handler 0 at core 0. -/
def launch0 : Launch := newLaunch ⟨9, 0, 0, 3, [1, 2, 3, 4, 5, 6], 7, 0, 208, 10, 0, false⟩ (.host (.pf 0) 4 77)

/-- The guard of a demand is open. -/
def opens (s : State) : GuardForm → Bool
  | .bit g => s.seq.passes g
  | .lanes g => s.seq.mask g != 0
  | .lane g x l => activeElem x (s.seq.mask g) l.val

/-- `State.meets`, to be decided. -/
def ready (s : State) (i : Instr) : Bool :=
  match i.demands with
  | none => false
  | some d =>
    (match d.only with
      | some q => s.cur.2 == q
      | none => true)
      && d.srcs.all (srcOk s.cur.2) && d.dsts.all (dstOk s.cur.2) && decide (d.level.rank ≤ s.seq.level.rank)
      && d.feat &&& ~~~ s.me.feat == 0 && opens s d.guard

theorem meets_of_ready {s : State} {i : Instr} (h : ready s i = true) : s.meets i := by
  unfold ready at h
  split at h
  · cases h
  · rename_i d hd
    simp only [Bool.and_eq_true, List.all_eq_true, decide_eq_true_eq, beq_iff_eq] at h
    obtain ⟨⟨⟨⟨⟨h1, h2⟩, h3⟩, h4⟩, h5⟩, h6⟩ := h
    refine ⟨d, hd, ⟨fun q hq => ?_, h2, h3⟩, h4, h5, ?_⟩
    · rw [hq] at h1; simpa using h1
    · revert h6
      cases d.guard <;> simp [opens, State.guardOpen]

/-- The sequencer begins its instruction, to be decided. -/
theorem begins_of {s : State} (h : (!s.slowTurn && s.seq.kept == [] && s.seq.used == 0 && s.seq.out == none && s.seq.latch == none && s.seq.passed == 0
      && s.seq.parcel == none) = true) :
    s.begins := by
  simp only [Bool.and_eq_true, Bool.not_eq_true', beq_iff_eq] at h
  obtain ⟨⟨⟨⟨⟨⟨a, b⟩, c⟩, d⟩, e⟩, f⟩, g⟩ := h
  exact ⟨a, b, c, d, e, f, g⟩

/-- CP address 64 holds 8899AABBCCDDEEFF, s1 is 64, s2 a value. -/
def memS : State := put (cp xs 64 8 0x8899AABBCCDDEEFF) [(1, 64), (2, 0x1122334455667788)]
/-- Integer register forms (08 R112). -/
theorem test_decodes_integer_register_forms :
    decode false 0x44010A0210004 = .ok (.add ⟨false, 0⟩ .i32 .nE (.lq 2) (.reg 40))
      ∧ decode false 0x44009A4210104 = .ok (.sub ⟨true, 1⟩ .i64 .nE (.lq 2) (.reg 41))
      ∧ decode false 0x44042A8210204 = .ok (.mul ⟨false, 2⟩ .z64 .nE (.lq 2) (.reg 42))
      ∧ decode false 0x4403BAC210304 = .ok (.mulh ⟨true, 3⟩ .i8 .nE (.lq 2) (.reg 43))
      ∧ decode false 0x44074B0210404 = .ok (.mulhz ⟨false, 4⟩ .z8 .nE (.lq 2) (.reg 44))
      ∧ decode false 0x4402DB4210504 = .ok (.div ⟨true, 5⟩ .i16 .nE (.lq 2) (.reg 45))
      ∧ decode false 0x44066B8210604 = .ok (.divz ⟨false, 6⟩ .z16 .nE (.lq 2) (.reg 46))
      ∧ decode false 0x4400FBC210704 = .ok (.rem ⟨true, 7⟩ .i64 .nE (.lq 2) (.reg 47))
      ∧ decode false 0x44050C0210804 = .ok (.remz ⟨false, 0⟩ .z32 .nE (.lq 2) (.reg 48))
      ∧ decode false 0x44049C4210904 = .ok (.and ⟨true, 1⟩ .z64 .nE (.lq 2) (.reg 49))
      ∧ decode false 0x44052C8210A04 = .ok (.or ⟨false, 2⟩ .z32 .nE (.lq 2) (.reg 50))
      ∧ decode false 0x4406BCC210B04 = .ok (.xor ⟨true, 3⟩ .z16 .nE (.lq 2) (.reg 51))
      ∧ decode false 0x44074D0210C04 = .ok (.andn ⟨false, 4⟩ .z8 .nE (.lq 2) (.reg 52))
      ∧ decode false 0x4400DD4210D04 = .ok (.shl ⟨true, 5⟩ .i64 .nE (.lq 2) (.reg 53))
      ∧ decode false 0x44016D8210E04 = .ok (.shr ⟨false, 6⟩ .i32 .nE (.lq 2) (.reg 54))
      ∧ decode false 0x4402FDC210F04 = .ok (.sra ⟨true, 7⟩ .i16 .nE (.lq 2) (.reg 55))
      ∧ decode false 0x44030E0211004 = .ok (.rol ⟨false, 0⟩ .i8 .nE (.lq 2) (.reg 56))
      ∧ decode false 0x44009E4211104 = .ok (.min ⟨true, 1⟩ .i64 .nE (.lq 2) (.reg 57))
      ∧ decode false 0x44012E8211204 = .ok (.max ⟨false, 2⟩ .i32 .nE (.lq 2) (.reg 58))
      ∧ decode false 0x4404BEC211304 = .ok (.minz ⟨true, 3⟩ .z64 .nE (.lq 2) (.reg 59))
      ∧ decode false 0x44054F0211404 = .ok (.maxz ⟨false, 4⟩ .z32 .nE (.lq 2) (.reg 60)) := by
  decide

/-- Integer immediate forms (08 R112). -/
theorem test_decodes_integer_immediate_forms :
    decode false 0x80000120009C8008 = .ok (.addi ⟨false, 0⟩ .i16 50 9 0x800001)
      ∧ decode false 0x8000022100ACC108 = .ok (.andi ⟨false, 1⟩ .i16 51 10 0x800002)
      ∧ decode false 0x8000032200BD0208 = .ok (.ori ⟨false, 2⟩ .i16 52 11 0x800003)
      ∧ decode false 0x8000042300CD4308 = .ok (.xori ⟨false, 3⟩ .i16 53 12 0x800004)
      ∧ decode false 0x8000052400DD8408 = .ok (.shli ⟨false, 4⟩ .i16 54 13 0x800005)
      ∧ decode false 0x8000062500EDC508 = .ok (.shri ⟨false, 5⟩ .i16 55 14 0x800006)
      ∧ decode false 0x8000072600FE0608 = .ok (.srai ⟨false, 6⟩ .i16 56 15 0x800007)
      ∧ decode false 0x80000827010E4708 = .ok (.roli ⟨false, 7⟩ .i16 57 16 0x800008)
      ∧ decode false 0x80000920011E8808 = .ok (.muli ⟨false, 0⟩ .i16 58 17 0x800009) := by
  decide

/-- Moves, addresses, compares and bits (08 R114). -/
theorem test_decodes_moves_addresses_compares_and_bits :
    decode false 0x89ABCDEF000000000001C00D = .ok (.movi ⟨false, 0⟩ 7 0x89ABCDEF)
      ∧ decode false 0x1234567000000000002010D = .ok (.movw ⟨false, 0⟩ 8 0x01234567)
      ∧ decode false 0x4070005FC20C = .ok (.mov ⟨false, 0⟩ .z8 (.reg 63) .nW)
      ∧ decode false 0xFFF000000C20430C = .ok (.lea ⟨false, 0⟩ (.reg 1) (.reg 2) (.reg 3) 3 0x3FF)
      ∧ decode false 0x2440C = .ok (.rdtick ⟨false, 0⟩ 9)
      ∧ decode false 0x1018504010 = .ok (.cmp ⟨false, 0⟩ .i32 1 .eq (.reg 5) (.reg 6))
      ∧ decode false 0x1000001018508010 = .ok (.cmp ⟨false, 0⟩ .i32 2 .ne (.reg 5) (.reg 6))
      ∧ decode false 0x200000101850C010 = .ok (.cmp ⟨false, 0⟩ .i32 3 .lt (.reg 5) (.reg 6))
      ∧ decode false 0x3000001018510010 = .ok (.cmp ⟨false, 0⟩ .i32 4 .ge (.reg 5) (.reg 6))
      ∧ decode false 0x4000001018514010 = .ok (.cmp ⟨false, 0⟩ .i32 5 .le (.reg 5) (.reg 6))
      ∧ decode false 0x5000001018518010 = .ok (.cmp ⟨false, 0⟩ .i32 6 .gt (.reg 5) (.reg 6))
      ∧ decode false 0x7000C204110 = .ok (.sel ⟨false, 0⟩ (.reg 1) (.reg 2) (.reg 3) 7)
      ∧ decode false 0x204210 = .ok (.clz ⟨false, 0⟩ .i64 (.reg 1) (.reg 2))
      ∧ decode false 0x1000204310 = .ok (.ctz ⟨false, 0⟩ .i32 (.reg 1) (.reg 2))
      ∧ decode false 0x7000204410 = .ok (.popc ⟨false, 0⟩ .z8 (.reg 1) (.reg 2))
      ∧ decode false 0x17A0000000204610 = .ok (.bfi ⟨false, 0⟩ 1 (.reg 2) 5 58)
      ∧ decode false 0x3000204710 = .ok (.sext ⟨false, 0⟩ .i8 (.reg 1) (.reg 2))
      ∧ decode false 0x6000204810 = .ok (.zext ⟨false, 0⟩ .z16 (.reg 1) (.reg 2)) := by
  decide

/-- Scalar FP (08 R117). -/
theorem test_decodes_scalar_fp :
    decode false 0x540B00C114014 = .ok (.fadd ⟨false, 0⟩ .f64 .nW (.lq 1) (.lq 3))
      ∧ decode false 0x540B00C114114 = .ok (.fsub ⟨false, 0⟩ .f64 .nW (.lq 1) (.lq 3))
      ∧ decode false 0x540B00C114214 = .ok (.fmul ⟨false, 0⟩ .f64 .nW (.lq 1) (.lq 3))
      ∧ decode false 0x540B00C114414 = .ok (.fdiv ⟨false, 0⟩ .f64 .nW (.lq 1) (.lq 3))
      ∧ decode false 0x540B00C114614 = .ok (.fmin ⟨false, 0⟩ .f64 .nW (.lq 1) (.lq 3))
      ∧ decode false 0x540B00C114714 = .ok (.fmax ⟨false, 0⟩ .f64 .nW (.lq 1) (.lq 3))
      ∧ decode false 0x2C800C204314 = .ok (.fma ⟨false, 0⟩ .f32 (.reg 1) (.reg 2) (.reg 3) 44)
      ∧ decode false 0x9000204514 = .ok (.fsqrt ⟨false, 0⟩ .f16 (.reg 1) (.reg 2))
      ∧ decode false 0xA018504814 = .ok (.fcmp ⟨false, 0⟩ .bf16 1 .eq (.reg 5) (.reg 6))
      ∧ decode false 0x100000A018508814 = .ok (.fcmp ⟨false, 0⟩ .bf16 2 .lt (.reg 5) (.reg 6))
      ∧ decode false 0x200000A01850C814 = .ok (.fcmp ⟨false, 0⟩ .bf16 3 .le (.reg 5) (.reg 6))
      ∧ decode false 0x300000A018510814 = .ok (.fcmp ⟨false, 0⟩ .bf16 4 .un (.reg 5) (.reg 6))
      ∧ decode false 0x400000A018514814 = .ok (.fcmp ⟨false, 0⟩ .bf16 5 .ne (.reg 5) (.reg 6))
      ∧ decode false 0x100000C000204914 = .ok (.fcvt ⟨false, 0⟩ .e4m3 .i32 (.reg 1) (.reg 2))
      ∧ decode false 0xD00C204A14 = .ok (.fsgn ⟨false, 0⟩ .e5m2 .cpy (.reg 1) (.reg 2) (.reg 3))
      ∧ decode false 0x400000D00C204A14 = .ok (.fsgn ⟨false, 0⟩ .e5m2 .neg (.reg 1) (.reg 2) (.reg 3))
      ∧ decode false 0x800000D00C204A14 = .ok (.fsgn ⟨false, 0⟩ .e5m2 .xor (.reg 1) (.reg 2) (.reg 3))
      ∧ decode false 0x8000204B14 = .ok (.fclass ⟨false, 0⟩ .f32 (.reg 1) (.reg 2)) := by
  decide

/-- Control and branch queues (08 R111, R123, R130). -/
theorem test_decodes_control_and_branch_queues :
    decode false 0xD00000100 = .ok (.endPart ⟨true, 5⟩)
      ∧ decode false 0xFFFFFE0200000018 = .ok (.br ⟨false, 2⟩ 0xFFFFFE)
      ∧ decode false 0x1234560000204118 = .ok (.jmp ⟨false, 0⟩ 1 2 0x123456)
      ∧ decode false 0x100000004218 = .ok (.call ⟨false, 0⟩ 1 0x000010)
      ∧ decode false 0x200318 = .ok (.ret ⟨false, 0⟩ 2)
      ∧ decode false 0x518 = .ok (.tret ⟨false, 0⟩)
      ∧ decode false 0xFFFFFF0000000618 = .ok (.pause ⟨false, 0⟩ 0 0xFFFFFF)
      ∧ decode false 0x70001C = .ok (.bqpush ⟨false, 0⟩ 7)
      ∧ decode false 0x4000000411C = .ok (.bqbr ⟨false, 0⟩ true 0x000004) := by
  decide

/-- Loads and stores (10 R140). -/
theorem test_decodes_loads_and_stores :
    decode false 0xA01404100020C020 = .ok (.ld ⟨false, 0⟩ .i32 true (.lq 3) 2 4 0x201)
      ∧ decode false 0x5FF1046010200120 = .ok (.st ⟨false, 0⟩ .z16 false true 2 .nE 4 0x1FF)
      ∧ decode false 0x40030000204024 = .ok (.ldo ⟨false, 0⟩ .i64 (.reg 1) 2 3 4)
      ∧ decode false 0x405004000C200124 = .ok (.sto ⟨false, 0⟩ .i64 true 2 (.reg 3) 4 5)
      ∧ decode false 0x40037000204224 = .ok (.ldg ⟨false, 0⟩ .z8 (.reg 1) 2 3 4)
      ∧ decode false 0x5004300C200324 = .ok (.stg ⟨false, 0⟩ .i8 false 2 (.reg 3) 4 5)
      ∧ decode false 0x40030000200424 = .ok (.pf ⟨false, 0⟩ 2 3 4) := by
  decide

/-- Atomics (10 R162). -/
theorem test_decodes_atomics :
    decode false 0x840000500C204028 = .ok (.atom ⟨false, 0⟩ .z32 .oc .add true false 1 2 (.reg 3))
      ∧ decode false 0x8C0000500C204028 = .ok (.atom ⟨false, 0⟩ .z32 .oc .and true false 1 2 (.reg 3))
      ∧ decode false 0x940000500C204028 = .ok (.atom ⟨false, 0⟩ .z32 .oc .or true false 1 2 (.reg 3))
      ∧ decode false 0x9C0000500C204028 = .ok (.atom ⟨false, 0⟩ .z32 .oc .xor true false 1 2 (.reg 3))
      ∧ decode false 0xA40000500C204028 = .ok (.atom ⟨false, 0⟩ .z32 .oc .min true false 1 2 (.reg 3))
      ∧ decode false 0xAC0000500C204028 = .ok (.atom ⟨false, 0⟩ .z32 .oc .max true false 1 2 (.reg 3))
      ∧ decode false 0xB40000500C204028 = .ok (.atom ⟨false, 0⟩ .z32 .oc .swap true false 1 2 (.reg 3))
      ∧ decode false 0xC20004100C204128 = .ok (.atomcas ⟨false, 0⟩ .i32 .gv false true 1 2 (.reg 3) 4)
      ∧ decode false 0x4000044000204228 = .ok (.atomincw ⟨false, 0⟩ .z64 .cm false false 1 2 4)
      ∧ decode false 0x74004500C204328 = .ok (.atomfaddb ⟨false, 0⟩ .z32 .cp true true 1 5 2 (.reg 3) 4)
      ∧ decode false 0x4081004000300428 = .ok (.enq ⟨false, 0⟩ .cm false false 2 3 (.lq 0))
      ∧ decode false 0xC3C0004000304528 = .ok (.deq ⟨false, 0⟩ .gv false true 1 7 3) := by
  decide

/-- Messages, mailboxes and links (10 R147, R156, R161). -/
theorem test_decodes_messages_mailboxes_and_links :
    decode false 0x561234002CA2402C = .ok (.send ⟨false, 0⟩ 9 10 11 0x1234 0x56)
      ∧ decode false 0x20001002CA2412C = .ok (.sendt ⟨false, 0⟩ 9 10 11 0x0001 0x02)
      ∧ decode false 0x2422C = .ok (.reply ⟨false, 0⟩ 9)
      ∧ decode false 0x40000300030 = .ok (.mcfg ⟨false, 0⟩ 3 4)
      ∧ decode false 0x3F0000014230 = .ok (.mpeek ⟨false, 0⟩ 5 63)
      ∧ decode false 0x3E0000500330 = .ok (.mrel ⟨false, 0⟩ 5 62)
      ∧ decode false 0x10000000430 = .ok (.nlink ⟨false, 0⟩ true false false)
      ∧ decode false 0x60000000430 = .ok (.nlink ⟨false, 0⟩ false true true) := by
  decide

/-- Vector arithmetic (12 R172). -/
theorem test_decodes_vector_arithmetic :
    decode false 0x4000002B7DE00034 = .ok (.vadd ⟨true, 3⟩ .i16 true 0 30 (.vec 31))
      ∧ decode false 0x4000007B7DE04134 = .ok (.vsub ⟨true, 3⟩ .z8 true 1 30 (.vec 31))
      ∧ decode false 0x8B7DE08234 = .ok (.vmul ⟨true, 3⟩ .f32 2 30 (.vec 31))
      ∧ decode false 0xBB7DE10434 = .ok (.vmin ⟨true, 3⟩ .f64 4 30 (.vec 31))
      ∧ decode false 0x3B7DE14534 = .ok (.vmax ⟨true, 3⟩ .i8 5 30 (.vec 31))
      ∧ decode false 0x5B7DE20834 = .ok (.vand ⟨true, 3⟩ .z32 8 30 (.vec 31))
      ∧ decode false 0x1B7DE24934 = .ok (.vor ⟨true, 3⟩ .i32 9 30 (.vec 31))
      ∧ decode false 0x6B7DE28A34 = .ok (.vxor ⟨true, 3⟩ .z16 10 30 (.vec 31))
      ∧ decode false 0x2B7DE2CB34 = .ok (.vshl ⟨true, 3⟩ .i16 11 30 (.vec 31))
      ∧ decode false 0x3B7DE30C34 = .ok (.vshr ⟨true, 3⟩ .i8 12 30 (.vec 31))
      ∧ decode false 0x1B7DE34D34 = .ok (.vsra ⟨true, 3⟩ .i32 13 30 (.vec 31))
      ∧ decode false 0x8001009004204034 = .ok (.vadd ⟨false, 0⟩ .f16 false 1 2 (.sca (.lq 1)))
      ∧ decode false 0x800007A0C8204334 = .ok (.vfma ⟨false, 0⟩ .bf16 1 2 (.sca (.reg 50)) 7)
      ∧ decode false 0x900010C634 = .ok (.vabs ⟨false, 0⟩ .f16 3 1)
      ∧ decode false 0x300010C734 = .ok (.vneg ⟨false, 0⟩ .i8 3 1) := by
  decide

/-- Vector compares, conversions and moves (12 R174). -/
theorem test_decodes_vector_compares_conversions_and_moves :
    decode false 0x500000100C108038 = .ok (.vcmp ⟨false, 0⟩ .i32 2 (.int .gt) 1 (.vec 3))
      ∧ decode false 0x480000B084108038 = .ok (.vcmp ⟨false, 0⟩ .f64 2 (.flt .ne) 1 (.sca (.reg 33)))
      ∧ decode false 0x30008110138 = .ok (.vsel ⟨false, 0⟩ 4 1 2 3)
      ∧ decode false 0x880000B000218238 = .ok (.vcvt ⟨false, 0⟩ .f64 .f32 true 6 2)
      ∧ decode false 0x9C00008000508438 = .ok (.vbcast ⟨false, 0⟩ .f32 2 (.lane 5 7))
      ∧ decode false 0xC002D08438 = .ok (.vbcast ⟨false, 0⟩ .e4m3 2 (.sca (.reg 45)))
      ∧ decode false 0x1F04538 = .ok (.vmov ⟨false, 0⟩ 1 31)
      ∧ decode false 0x4600008000210538 = .ok (.vmovLaneToScalar ⟨false, 0⟩ .f32 (.reg 4) 2 3)
      ∧ decode false 0xBE00002003C08538 = .ok (.vmovScalarToLane ⟨false, 0⟩ .i16 2 31 (.reg 60)) := by
  decide

/-- Vector memory, streams, permutes and reductions (12 R176, R178, R181). -/
theorem test_decodes_vector_memory_streams_permutes_and_reductions :
    decode false 0xBFE000B00040C03C = .ok (.vld ⟨false, 0⟩ .f64 true 3 4 0x3FE)
      ∧ decode false 0xD00831023C = .ok (.vgath ⟨false, 0⟩ .e5m2 false 4 3 2)
      ∧ decode false 0x800006300830033C = .ok (.vscat ⟨false, 0⟩ .i8 true 3 2 6)
      ∧ decode false 0x800037C43C = .ok (.vstream ⟨false, 0⟩ .f32 7 3)
      ∧ decode false 0x6053C = .ok (.vstop ⟨false, 0⟩ 0)
      ∧ decode false 0x810C040 = .ok (.vshuf ⟨false, 0⟩ 3 1 2)
      ∧ decode false 0x5000114140 = .ok (.vred ⟨false, 0⟩ .z32 .add (.reg 5) 1)
      ∧ decode false 0x2000005000114140 = .ok (.vred ⟨false, 0⟩ .z32 .min (.reg 5) 1)
      ∧ decode false 0x4000005000114140 = .ok (.vred ⟨false, 0⟩ .z32 .max (.reg 5) 1)
      ∧ decode false 0x6000005000114140 = .ok (.vred ⟨false, 0⟩ .z32 .and (.reg 5) 1)
      ∧ decode false 0x8000005000114140 = .ok (.vred ⟨false, 0⟩ .z32 .or (.reg 5) 1)
      ∧ decode false 0xA000005000114140 = .ok (.vred ⟨false, 0⟩ .z32 .xor (.reg 5) 1)
      ∧ decode false 0x400000800010C240 = .ok (.vscan ⟨false, 0⟩ .f32 .max 3 1) := by
  decide

/-- Matrix (12 R184, 07 R90). -/
theorem test_decodes_matrix :
    decode false 0xD000004044 = .ok (.mma ⟨false, 0⟩ (.plain .e5m2) 1)
      ∧ decode false 0x440000F000000144 = .ok (.mmaz ⟨false, 0⟩ (.planed 4 4 false) 0)
      ∧ decode false 0x20003010300344 = .ok (.mldb ⟨false, 0⟩ (.plain .i8) true 3 4 0)
      ∧ decode false 0x818005F008300444 = .ok (.mgath ⟨false, 0⟩ (.planed 8 1 true) false 3 2 5)
      ∧ decode false 0x20008010308544 = .ok (.mldacc ⟨false, 0⟩ .f32 true 2 3 4)
      ∧ decode false 0x854000C010308644 = .ok (.mstacc ⟨false, 0⟩ .e4m3 false 2 3 4 0x85 1)
      ∧ decode false 0xC744 = .ok (.mclr ⟨false, 0⟩ 3) := by
  decide

/-- Barriers and semaphores (14 R194, R199, R202). -/
theorem test_decodes_barriers_and_semaphores :
    decode false 0x30000400048 = .ok (.lbinit ⟨false, 0⟩ 4 3)
      ∧ decode false 0x30000A00248 = .ok (.lbdrop ⟨false, 0⟩ 10 3)
      ∧ decode false 0x3F0000000348 = .ok (.lbjoin ⟨false, 0⟩ 0 63)
      ∧ decode false 0xA430000014548 = .ok (.lbwait ⟨false, 0⟩ 5 0 20 true 3)
      ∧ decode false 0x30000014648 = .ok (.lbtest ⟨false, 0⟩ 5 3)
      ∧ decode false 0xF000030004C = .ok (.mshcfg ⟨false, 0⟩ 3 15)
      ∧ decode false 0x501000001424C = .ok (.mshwait ⟨false, 0⟩ 5 0 40 false 1)
      ∧ decode false 0x64070018014050 = .ok (.semwait ⟨false, 0⟩ 5 0 6 100 7)
      ∧ decode false 0xFF0018A00150 = .ok (.semsig ⟨false, 0⟩ 10 6 255)
      ∧ decode false 0x70000400250 = .ok (.semset ⟨false, 0⟩ 4 7)
      ∧ decode false 0x70000014350 = .ok (.semget ⟨false, 0⟩ 5 7) := by
  decide

/-- Holds, time, fences and tasks (14 R204, R210, R211). -/
theorem test_decodes_holds_time_fences_and_tasks :
    decode false 0xA14254 = .ok (.holdx ⟨false, 0⟩ 5 10)
      ∧ decode false 0x614354 = .ok (.rel ⟨false, 0⟩ 5 6)
      ∧ decode false 0x10000614354 = .ok (.relEnd ⟨false, 0⟩ 5 6)
      ∧ decode false 0x414454 = .ok (.holdst ⟨false, 0⟩ 5 4)
      ∧ decode false 0x10000414454 = .ok (.holdstObj ⟨false, 0⟩ 5 4)
      ∧ decode false 0x400554 = .ok (.dline ⟨false, 0⟩ 4)
      ∧ decode false 0xE60000000058 = .ok (.fence ⟨false, 0⟩ .all .coll .system)
      ∧ decode false 0x9A0000000058 = .ok (.fence ⟨false, 0⟩ .bds .bte .partition)
      ∧ decode false 0x1440005C = .ok (.spawn ⟨false, 0⟩ 4 5)
      ∧ decode false 0x1815C = .ok (.dist ⟨false, 0⟩ 6)
      ∧ decode false 0x5000081C25C = .ok (.widx ⟨false, 0⟩ 7 8 5)
      ∧ decode false 0x2000030035C = .ok (.trig ⟨false, 0⟩ 3 2)
      ∧ decode false 0xF000000035C = .ok (.trigDisarm ⟨false, 0⟩ 15)
      ∧ decode false 0x2CA0045C = .ok (.trigd ⟨false, 0⟩ 10 11) := by
  decide

/-- Engine and RLC commands (07 R93, 14 R214, 18 R268). -/
theorem test_decodes_engine_and_rlc_commands :
    decode false 0xFC845609012340030000000000000062 = .ok (.cpy ⟨false, 0⟩ ⟨0x4003, 0x123, 9, 1110, 200, 15⟩)
      ∧ decode false 0xFC845609012340030000000000000162 = .ok (.cpyr ⟨false, 0⟩ ⟨0x4003, 0x123, 9, 1110, 200, 15⟩)
      ∧ decode false 0xFC845609012340030000000000000262 = .ok (.cpym ⟨false, 0⟩ ⟨0x4003, 0x123, 9, 1110, 200, 15⟩)
      ∧ decode false 0xFC84560901234003000000000000006A = .ok (.bte ⟨false, 0⟩ ⟨0x4003, 0x123, 9, 1110, 200, 15⟩)
      ∧ decode false 0xFC84560901234003000000000000016A = .ok (.coll ⟨false, 0⟩ ⟨0x4003, 0x123, 9, 1110, 200, 15⟩)
      ∧ decode false 0xFC84560901234003000000000000026A = .ok (.xfer ⟨false, 0⟩ ⟨0x4003, 0x123, 9, 1110, 200, 15⟩)
      ∧ decode false 0xFC845609012340030000000000000072 = .ok (.rlcrun ⟨false, 0⟩ ⟨0x4003, 0x123, 9, 1110, 200, 15⟩)
      ∧ decode false 0xFC8456090123400300000F0000000066 = .ok (.subscribe ⟨false, 0⟩ 15 ⟨0x4003, 0x123, 9, 1110, 200, 15⟩)
      ∧ decode false 0xFC8456090123400300000F0000000166 = .ok (.drain ⟨false, 0⟩ 15 ⟨0x4003, 0x123, 9, 1110, 200, 15⟩)
      ∧ decode false 0xFC8456090123400300000F0000000266 = .ok (.unsub ⟨false, 0⟩ 15 ⟨0x4003, 0x123, 9, 1110, 200, 15⟩)
      ∧ decode false 0x14170 = .ok (.rlcstat ⟨false, 0⟩ 5)
      ∧ decode false 0x14270 = .ok (.rlcabort ⟨false, 0⟩ 5) := by
  decide

/-- Block registers (18 R259). -/
theorem test_decodes_block_registers :
    decode false 0x27800030416C = .ok (.gld ⟨false, 0⟩ 1 3 7 true)
      ∧ decode false 0x1F800830026C = .ok (.gst ⟨false, 0⟩ 3 2 31 false)
      ∧ decode false 0xC36C = .ok (.gzero ⟨false, 0⟩ 3)
      ∧ decode false 0x43000020046C = .ok (.gaddp ⟨false, 0⟩ 0 2 3 2)
      ∧ decode false 0x1000C11476C = .ok (.gres ⟨false, 0⟩ 5 1 3 1) := by
  decide

/-- Stages and system (20 R286, 22 R317). -/
theorem test_decodes_stages_and_system_1 :
    decode false 0xFF0000314074 = .ok (.stgdecl ⟨false, 0⟩ 5 3 255)
      ∧ decode false 0x400040000000174 = .ok (.stgqClr ⟨false, 0⟩ 4)
      ∧ decode false 0x30000500374 = .ok (.stshfr ⟨false, 0⟩ 5 3)
      ∧ decode false 0xC80000014474 = .ok (.stgstat ⟨false, 0⟩ 5 200)
      ∧ decode false 0x1030000014474 = .ok (.stgstatStash ⟨false, 0⟩ 5 3)
      ∧ decode false 0xABCDEF0000000078 = .ok (.trap ⟨false, 0⟩ 0xABCDEF)
      ∧ decode false 0x178 = .ok (.eret ⟨false, 0⟩)
      ∧ decode false 0x10000014278 = .ok (.csrr ⟨false, 0⟩ 5 .hid)
      ∧ decode false 0x20000014278 = .ok (.csrr ⟨false, 0⟩ 5 .wid)
      ∧ decode false 0x30000014278 = .ok (.csrr ⟨false, 0⟩ 5 .wfw)
      ∧ decode false 0x40000014278 = .ok (.csrr ⟨false, 0⟩ 5 .self)
      ∧ decode false 0x50000014278 = .ok (.csrr ⟨false, 0⟩ 5 .part)
      ∧ decode false 0x60000014278 = .ok (.csrr ⟨false, 0⟩ 5 .speed)
      ∧ decode false 0x70000014278 = .ok (.csrr ⟨false, 0⟩ 5 .feat)
      ∧ decode false 0x80000014278 = .ok (.csrr ⟨false, 0⟩ 5 .fpstat)
      ∧ decode false 0x90000014278 = .ok (.csrr ⟨false, 0⟩ 5 .fpmode)
      ∧ decode false 0xA0000014278 = .ok (.csrr ⟨false, 0⟩ 5 .xferid)
      ∧ decode false 0xB0000014278 = .ok (.csrr ⟨false, 0⟩ 5 .holdst)
      ∧ decode false 0xD0000014278 = .ok (.csrr ⟨false, 0⟩ 5 .wdog)
      ∧ decode false 0xE0000014278 = .ok (.csrr ⟨false, 0⟩ 5 .lostcnt)
      ∧ decode false 0x100000014278 = .ok (.csrr ⟨false, 0⟩ 5 .utvec)
      ∧ decode false 0x110000014278 = .ok (.csrr ⟨false, 0⟩ 5 .utmask) := by
  decide

/-- Stages and system (20 R286, 22 R317). -/
theorem test_decodes_stages_and_system_2 :
    decode false 0x120000014278 = .ok (.csrr ⟨false, 0⟩ 5 .cause)
      ∧ decode false 0x130000014278 = .ok (.csrr ⟨false, 0⟩ 5 .epc)
      ∧ decode false 0x140000014278 = .ok (.csrr ⟨false, 0⟩ 5 .tval)
      ∧ decode false 0x1000000014278 = .ok (.csrr ⟨false, 0⟩ 5 .stvec)
      ∧ decode false 0xC0000014278 = .ok (.csrr ⟨false, 0⟩ 5 .deadline)
      ∧ decode false 0xF0000014278 = .ok (.csrr ⟨false, 0⟩ 5 .icinv)
      ∧ decode false 0x100001400378 = .ok (.csrw ⟨false, 0⟩ 20 .utvec)
      ∧ decode false 0x80001414478 = .ok (.csrx ⟨false, 0⟩ 5 20 .fpstat)
      ∧ decode false 0xF0001400378 = .ok (.icinvWrite ⟨false, 0⟩ 20)
      ∧ decode false 0xC0001400378 = .ok (.deadlineWrite ⟨false, 0⟩ 20)
      ∧ decode false 0x614578 = .ok (.wdog ⟨false, 0⟩ 5 6)
      ∧ decode false 0xA14678 = .ok (.feat ⟨false, 0⟩ 5 10)
      ∧ decode false 0xA14778 = .ok (.speed ⟨false, 0⟩ 5 10)
      ∧ decode false 0x1C614878 = .ok (.plsetPlace ⟨false, 0⟩ 5 6 7)
      ∧ decode false 0x1001C614878 = .ok (.plsetPerm ⟨false, 0⟩ 5 6 7) := by
  decide

/-- The manual's own words (the notes of the instruction chapters, and 26). -/
theorem test_decodes_the_manuals_own_words_1 :
    decode false 0x40000304418 = .ok (.loop ⟨false, 0⟩ 1 3 4)
      ∧ decode false 0x20000400418 = .ok (.loop ⟨false, 0⟩ 0 4 2)
      ∧ decode false 0xC2442C = .ok (.msendt ⟨false, 0⟩ 9 12 0)
      ∧ decode false 0x400000013D000028 = .ok (.atom ⟨false, 1⟩ .i64 .cm .add false false 0 16 (.reg 15))
      ∧ decode false 0x100E00618 = .ok (.pause ⟨false, 1⟩ 14 0)
      ∧ decode false 0x3DEF0000000844 = .ok (.mmask ⟨false, 0⟩ 15 15 15)
      ∧ decode false 0x2000A035A00244 = .ok (.mlda ⟨false, 0⟩ (.plain .bf16) true 26 13 0)
      ∧ decode false 0x838005F010300244 = .ok (.mlda ⟨false, 0⟩ (.planed 8 3 true) false 3 4 5)
      ∧ decode false 0x7F2000806C000644 = .ok (.mstacc ⟨false, 0⟩ .f32 true 0 0 27 0x7F 0)
      ∧ decode false 0xA00061C338 = .ok (.vsplit ⟨false, 0⟩ 7 6)
      ∧ decode false 0x851000A21C40013C = .ok (.vst ⟨false, 2⟩ .bf16 true 4 7 81)
      ∧ decode false 0x400900000548 = .ok (.lbwait ⟨true, 1⟩ 0 0 0 true 0)
      ∧ decode false 0xC0900000548 = .ok (.lbwait ⟨true, 1⟩ 0 0 0 false 12)
      ∧ decode false 0x40000000148 = .ok (.lbarr ⟨false, 0⟩ 0 4)
      ∧ decode false 0x140000400448 = .ok (.lbexp ⟨false, 0⟩ 4 20)
      ∧ decode false 0x690000000058 = .ok (.fence ⟨false, 0⟩ .cce .mbx .cluster)
      ∧ decode false 0x14C = .ok (.mshar ⟨false, 0⟩ 0)
      ∧ decode false 0x10000000024C = .ok (.mshwait ⟨false, 0⟩ 0 0 0 true 0)
      ∧ decode false 0x20000001434C = .ok (.mshstat ⟨false, 0⟩ 5 2 0)
      ∧ decode false 0x10001A00554 = .ok (.dlineRel ⟨false, 0⟩ 26)
      ∧ decode false 0x5030000014130 = .ok (.mrecv ⟨false, 0⟩ 5 0 20 3)
      ∧ decode false 0x400054 = .ok (.declare ⟨false, 0⟩ 4) := by
  decide

/-- The manual's own words (the notes of the instruction chapters, and 26). -/
theorem test_decodes_the_manuals_own_words_2 :
    decode false 0x154 = .ok (.hold ⟨false, 0⟩)
      ∧ decode false 0x30000A2432C = .ok (.msend ⟨false, 0⟩ 9 10 3)
      ∧ decode false 0x1000002432C = .ok (.msend ⟨false, 0⟩ 9 0 1)
      ∧ decode false 0x40800020416C = .ok (.gldHdr ⟨false, 0⟩ 1 2 false)
      ∧ decode false 0x71B6806C = .ok (.gcfg ⟨false, 0⟩ 26 27 28)
      ∧ decode false 0x443060000856C = .ok (.gschur ⟨false, 6⟩ 2 0 3 2 1)
      ∧ decode false 0x1010030866C = .ok (.gdamp ⟨false, 1⟩ 2 3 1 0)
      ∧ decode false 0x21007010842486C = .ok (.gsend ⟨false, 1⟩ 9 4 2 7 false 1 1)
      ∧ decode false 0x1000000896C = .ok (.gsolve ⟨false, 0⟩ 2 0 1)
      ∧ decode false 0x400101800374 = .ok (.stshfrInit ⟨false, 1⟩ 24 0)
      ∧ decode false 0x10101D14074 = .ok (.stgdecl ⟨false, 1⟩ 5 29 1)
      ∧ decode false 0xC0410100000174 = .ok (.stgq ⟨false, 1⟩ 1 1 3)
      ∧ decode false 0x40F0004000728510 = .ok (.bfx ⟨false, 0⟩ .z64 (.reg 10) (.reg 7) 16 15)
      ∧ decode false 0x300010274 = .ok (.stshal ⟨false, 3⟩ 4 0)
      ∧ decode false 0x7800008059800028 = .ok (.atom ⟨false, 0⟩ .f32 .cm .fadd false false 0 24 (.reg 22))
      ∧ decode false 0x300400374 = .ok (.stshfr ⟨false, 3⟩ 4 0)
      ∧ decode false 0x1030000000A840000000010000000166 = .ok (.drain ⟨false, 0⟩ 1 ⟨0x4000, 0xA8, 0, 0, 3, 1⟩)
      ∧ decode false 0x1020000000A040000000000000000066 = .ok (.subscribe ⟨false, 0⟩ 0 ⟨0x4000, 0xA0, 0, 0, 2, 1⟩)
      ∧ decode false 0x1050000000A000000000000000000072 = .ok (.rlcrun ⟨false, 0⟩ ⟨0x0000, 0x00A0, 0, 0, 5, 1⟩) := by
  decide

/-- Ill-formed terms, one for each check of `Instr.wf`: integer codes and destinations. -/
theorem test_ill_formed_integer_codes_and_destinations : ∀ i ∈ ([
    .add ⟨false, 0⟩ .f32 (.reg 1) (.reg 1) (.reg 1),
    .add ⟨false, 0⟩ .i32 (.lq 0) (.reg 1) (.reg 1),
    .mulh ⟨false, 0⟩ .z32 (.reg 1) (.reg 1) (.reg 1),
    .max ⟨false, 0⟩ .i32 (.lq 1) (.reg 1) (.reg 1),
    .divz ⟨false, 0⟩ .i8 (.reg 1) (.reg 1) (.reg 1),
    .maxz ⟨false, 0⟩ .z8 (.lq 3) (.reg 1) (.reg 1),
    .addi ⟨false, 0⟩ .e4m3 1 2 3,
    .mov ⟨false, 0⟩ .f64 (.reg 1) (.reg 1),
    .clz ⟨false, 0⟩ .i64 (.lq 2) (.reg 1),
    .lea ⟨false, 0⟩ (.lq 0) (.reg 1) (.reg 1) 0 0,
    .sel ⟨false, 0⟩ (.lq 0) (.reg 1) (.reg 1) 0,
    .cmp ⟨false, 0⟩ .f32 0 .eq (.reg 1) (.reg 1),
    .bfx ⟨false, 0⟩ .i32 (.reg 1) (.reg 1) 0 0,
    .bfx ⟨false, 0⟩ .i64 (.lq 0) (.reg 1) 0 0,
    .bfx ⟨false, 0⟩ .z64 (.reg 1) (.reg 1) 32 32,
    .bfi ⟨false, 0⟩ 1 (.reg 1) 63 1,
    .sext ⟨false, 0⟩ .z8 (.reg 1) (.reg 1),
    .sext ⟨false, 0⟩ .i8 (.lq 0) (.reg 1),
    .zext ⟨false, 0⟩ .i8 (.reg 1) (.reg 1),
    .zext ⟨false, 0⟩ .z8 (.lq 0) (.reg 1)] : List Instr), i.wf = false := by decide

/-- Ill-formed terms, one for each check of `Instr.wf`: scalar FP and control. -/
theorem test_ill_formed_scalar_fp_and_control : ∀ i ∈ ([
    .fadd ⟨false, 0⟩ .i32 (.reg 1) (.reg 1) (.reg 1),
    .fma ⟨false, 0⟩ .f32 (.lq 0) (.reg 1) (.reg 1) 0,
    .fcmp ⟨false, 0⟩ .e4m3 0 .lt (.reg 1) (.reg 1),
    .fcvt ⟨false, 0⟩ .i32 .i64 (.reg 1) (.reg 1),
    .fcvt ⟨false, 0⟩ .f32 .f64 (.lq 0) (.reg 1),
    .fsgn ⟨false, 0⟩ .z8 .neg (.reg 1) (.reg 1) (.reg 1),
    .fclass ⟨false, 0⟩ .f32 (.lq 0) (.reg 1),
    .loop ⟨false, 0⟩ 0 1 1,
    .pause ⟨false, 0⟩ 1 1] : List Instr), i.wf = false := by decide

/-- Ill-formed terms, one for each check of `Instr.wf`: memory, messages and mailboxes. -/
theorem test_ill_formed_memory_messages_and_mailboxes : ∀ i ∈ ([
    .ld ⟨false, 0⟩ .f32 false (.reg 1) 1 2 3,
    .stg ⟨false, 0⟩ .f64 false 1 (.reg 1) 2 3,
    .atom ⟨false, 0⟩ .i16 .cp .add false false 1 2 (.reg 1),
    .atom ⟨false, 0⟩ .i32 .cp .fadd false false 1 2 (.reg 1),
    .atom ⟨false, 0⟩ .f32 .cp .add false false 1 2 (.reg 1),
    .atomcas ⟨false, 0⟩ .z8 .cp false false 1 2 (.reg 1) 3,
    .atomincw ⟨false, 0⟩ .i64 .cp false false 1 2 3,
    .atomfaddb ⟨false, 0⟩ .i32 .cp false false 1 0 2 (.reg 1) 3,
    .mrecv ⟨false, 0⟩ 1 2 3 4] : List Instr), i.wf = false := by decide

/-- Ill-formed terms, one for each check of `Instr.wf`: vectors. -/
theorem test_ill_formed_vectors : ∀ i ∈ ([
    .vadd ⟨false, 0⟩ .f32 true 1 2 (.vec 3),
    .vadd ⟨false, 0⟩ .i64 false 1 2 (.vec 3),
    .vmul ⟨false, 0⟩ .z64 1 2 (.vec 3),
    .vfma ⟨false, 0⟩ .i32 1 2 (.vec 3) 4,
    .vabs ⟨false, 0⟩ .z32 1 2,
    .vand ⟨false, 0⟩ .f32 1 2 (.vec 3),
    .vcmp ⟨false, 0⟩ .f32 0 (.int .lt) 1 (.vec 2),
    .vcmp ⟨false, 0⟩ .i32 0 (.flt .un) 1 (.vec 2),
    .vcvt ⟨false, 0⟩ .i64 .f32 false 1 2,
    .vcvt ⟨false, 0⟩ .f32 .z64 false 1 2,
    .vcvt ⟨false, 0⟩ .i32 .z8 false 1 2,
    .vcvt ⟨false, 0⟩ .f32 .f16 true 1 2,
    .vcvt ⟨false, 0⟩ .f64 .f64 true 1 2,
    .vsplit ⟨false, 0⟩ 30 1,
    .vbcast ⟨false, 0⟩ .i64 1 (.sca (.reg 1)),
    .vbcast ⟨false, 0⟩ .f64 1 (.lane 2 16),
    .vmovLaneToScalar ⟨false, 0⟩ .f32 (.lq 0) 1 2,
    .vmovLaneToScalar ⟨false, 0⟩ .z64 (.reg 1) 1 2,
    .vmovLaneToScalar ⟨false, 0⟩ .f64 (.reg 1) 1 16,
    .vmovScalarToLane ⟨false, 0⟩ .f64 1 31 (.reg 1),
    .vld ⟨false, 0⟩ .i64 false 1 2 3,
    .vscat ⟨false, 0⟩ .z64 false 1 2 3,
    .vstream ⟨false, 0⟩ .i16 0 1,
    .vred ⟨false, 0⟩ .f32 .and (.reg 1) 1,
    .vred ⟨false, 0⟩ .i32 .add (.lq 0) 1,
    .vred ⟨false, 0⟩ .e4m3 .add (.reg 1) 1,
    .vscan ⟨false, 0⟩ .f64 .xor 1 2] : List Instr), i.wf = false := by decide

/-- Ill-formed terms, one for each check of `Instr.wf`: matrices, waits, engines, blocks and stages. -/
theorem test_ill_formed_matrices_waits_engines_blocks_and_stages : ∀ i ∈ ([
    .mma ⟨false, 0⟩ (.plain .f32) 0,
    .mmaz ⟨false, 0⟩ (.planed 1 1 false) 0,
    .mlda ⟨false, 0⟩ (.planed 9 1 false) false 1 2 3,
    .mldb ⟨false, 0⟩ (.plain .i8) false 1 2 3,
    .mldacc ⟨false, 0⟩ .i32 false 0 1 2,
    .mstacc ⟨false, 0⟩ .f64 false 0 1 2 0 0,
    .lbwait ⟨false, 0⟩ 1 2 3 false 4,
    .mshwait ⟨false, 0⟩ 1 2 3 false 4,
    .semwait ⟨false, 0⟩ 1 2 0 3 4,
    .trig ⟨false, 0⟩ 0 1,
    .cpy ⟨false, 0⟩ ⟨0, 0, 1, 0, 0, 0⟩,
    .rlcrun ⟨false, 0⟩ ⟨0, 0, 0, 0, 1, 0⟩,
    .gaddp ⟨false, 0⟩ 0 1 31 1,
    .gschur ⟨false, 0⟩ 0 1 3 3 1,
    .gschur ⟨false, 0⟩ 0 1 25 0 0,
    .gsend ⟨false, 0⟩ 1 2 0 3 false 4 14,
    .stgdecl ⟨false, 0⟩ 1 2 0,
    .stgq ⟨false, 0⟩ 0 0 1,
    .csrw ⟨false, 0⟩ 1 .icinv,
    .csrw ⟨false, 0⟩ 1 .deadline] : List Instr), i.wf = false := by decide

/-- Words that the encoding tables refuse: reserved bits and codes. -/
theorem test_refuses_reserved_bits_and_codes : ∀ w ∈ ([
    0x200, 0x4100, 0x100000, 0x1504, 0x8000000004, 0x10000000004,
    0x10000000000004, 0x400000600004, 0x800000000004, 0xC000000000004, 0x4000000000004, 0x4000008,
    0x908, 0x800000020C, 0x1000000040C, 0x20010, 0x6000000000000010, 0x80000000110,
    0x8200000000000510, 0x1000000510, 0x910] : List Nat), (decode false w).toOption = none := by
  decide

/-- Words that the encoding tables refuse: scalar FP and control. -/
theorem test_refuses_scalar_fp_and_control : ∀ w ∈ ([
    0x7000000014, 0x5000008000000814, 0x1000000914, 0xE000000914, 0xC000008000000A14, 0x8000000C14,
    0x40000108418, 0x10000100418, 0x10000100618, 0x718, 0x100018, 0x80001C,
    0x811C, 0x21C] : List Nat), (decode false w).toOption = none := by
  decide

/-- Words that the encoding tables refuse: memory and messages. -/
theorem test_refuses_memory_and_messages : ∀ w ∈ ([
    0x8000000020, 0x4000000000000020, 0x220, 0x8000000000000024, 0x1000000424, 0x524,
    0x8000000028, 0x3800000000000028, 0x2000000028, 0x10000000000028, 0x800000000000128, 0x5000000428,
    0x628, 0x10022C, 0x40000000032C, 0x52C, 0x400000100130, 0x80000000430,
    0x530] : List Nat), (decode false w).toOption = none := by
  decide

/-- Words that the encoding tables refuse: vectors and matrices. -/
theorem test_refuses_vectors_and_matrices : ∀ w ∈ ([
    0x34, 0x4000008000000034, 0x4000001000000234, 0x5000000634, 0x8000001000000634, 0x1000080034,
    0x1000000E34, 0x5000008000000038, 0x1000020038, 0x9800008000000238, 0xA000078338, 0x400008000000438,
    0xC000000000000538, 0x200000000000538, 0x600000B000000538, 0x1000800000023C, 0x800005C43C, 0x200006043C,
    0x16053C, 0x6000008000000140, 0xC000001000000140, 0x910000F000000044, 0xA000010044, 0x1A000000244,
    0x4000A000000244, 0x400000000000844, 0x944] : List Nat), (decode false w).toOption = none := by
  decide

/-- Words that the encoding tables refuse: barriers to system. -/
theorem test_refuses_barriers_to_system : ∀ w ∈ ([
    0x4000048, 0x800000100548, 0x748, 0x10000000004C, 0x40000000034C, 0x1000000000150,
    0x4054, 0x20000000354, 0x654, 0x70000000058, 0x380000000058, 0x1000000000058,
    0x158, 0x6000000025C, 0x55C, 0x60, 0x362, 0x10000000062,
    0x1000000000000000000000062, 0x4066, 0x41800000016C, 0x1036C, 0x3F000000046C, 0xE000000000086C,
    0xA6C, 0x370, 0x74, 0x400400000000174, 0x1400000000474, 0x574,
    0x20000000878, 0x210000000278, 0x978, 0x7C, 0xFC, 0x3] : List Nat), (decode false w).toOption = none := by
  decide

/-! ## Steps, checks, traps -/

/-- StepsPerformTheirTurns: a step of `xs` performs the instruction that stands at its pc (here `addi s1, s0, 5`). -/
theorem witness_step :
    let s := State.reset.withFetchWord 64 (0x02 * 4 + 1 * 2 ^ 14 + 5 * 2 ^ 40)
    s.agenda = [] ∧ s.slowTurn = false ∧ s.idle = false ∧ s.boundary s.cur.1 s.cur.2 = none
      ∧ next (step s) (fun t => t.seq.readS 1 == 5 && t.seq.pc == 8) = true := by
  decide

/-- Its straddling clause: a 128-bit length code at offset 20 of a block; and the bytes of no instruction. -/
theorem witness_step_corners :
    let s := (State.reset.placed 64 0).modSeq fun c => { c with pc := 20 }
    (s.straddling [0x02] false = true) ∧ s.straddling [0x03] false = false
      ∧ (decodeBytes false [0x03, 0, 0, 0, 0, 0, 0, 0]).toOption = none := by decide

/-- The agenda's turns. -/
theorem witness_turns : ({ xs with agenda := [.event .replicaCommit, .micro 0, .time 3, .evict 0 0, .run 0 .as, .slow 0 .xs] } : State).agenda
    = .event .replicaCommit :: [.micro 0, .time 3, .evict 0 0, .run 0 .as, .slow 0 .xs] := rfl

/-- DecodeReadsBackEveryEncoding: well-formed instructions of every length. -/
theorem witness_round_trip : (Instr.add g0 .i32 .nE (.lq 3) .nW).wf = true ∧ (Instr.cpy g0 ⟨0xFFFF, 0xFFFF, 255, 4095, 255, 15⟩).wf = true
    ∧ (Instr.movi g0 63 0xFFFFFFFF).wf = true ∧ (Instr.gsend g0 63 63 3 63 true 63 13).wf = true := by decide

/-- ChecksPrecedeTheEffect: each check's condition, with those before it passed. -/
theorem witness_checks :
    next (exec (.fadd g0 .f32 (.reg 1) (.reg 2) (.reg 3)) as_) (fun t => t.my.csr.cause.code == 2) = true
      ∧ next (exec (.holdx g0 1 2) xs) (fun t => t.my.csr.cause.code == 5) = true
      ∧ next (exec (.vmov g0 1 2) (xs.modMe fun c => { c with feat := 0x1D })) (fun t => t.my.csr.cause.code == 6) = true
      ∧ next (exec (.addi ⟨true, 0⟩ .i64 1 0 7) xs) (fun t => t.seq.readS 1 == 0 && t.seq.pc == 8) = true := by decide

/-- NopsHaveNoEffect. -/
theorem witness_nops : xs.seq.inTrap = false ∧ xs.seq.lc0.count = 0 ∧ xs.seq.lc1.count = 0 := by decide

/-- EndRuleCountsTheLoops: its cases at the counters' boundary values. -/
theorem witness_end_rule :
    let c (n0 n1 : BitVec 32) (e0 e1 : Nat) : Seq := { xs.seq with pc := 64, lc0 := ⟨n0, 3, 40, e0⟩, lc1 := ⟨n1, 5, 32, e1⟩ }
    ((c 2 7 64 64).retire 8 .fall).pc = 40 ∧ ((c 1 2 64 64).retire 8 .fall).pc = 32 ∧ ((c 1 2 64 64).retire 8 .fall).lc0.count = 3
      ∧ ((c 1 1 64 64).retire 8 .fall).pc = 72 ∧ ((c 1 9 64 96).retire 8 .fall).pc = 72 ∧ ((c 1 9 64 96).retire 8 .fall).lc1.count = 9
      ∧ ((c 4 2 96 64).retire 8 .fall).pc = 32 ∧ ((c 4 1 96 64).retire 8 .fall).pc = 72 ∧ ((c 0 0 64 64).retire 8 .fall).pc = 72
      ∧ ({ c 2 7 64 64 with inTrap := true }.retire 8 .fall).pc = 72 ∧ ((c 2 7 64 64).retire 8 (.to 4)).pc = 4 := by decide

/-- OperandsReadAndWriteTheirFiles: a full head, an empty queue whose AS has gone, one whose AS has not, a word in a link's
buffer, and room in the neighbour's. -/
theorem witness_operands :
    let q (l : List LqEntry) (s : State) : State := s.modMy fun t => { t with q := { t.q with lq := t.q.lq.set 2 l } }
    let two : State := (xs.setCore 1 { xs.me with nW := [] }).modMe fun c => { c with nE := [7, 8] }
    next (exec (.mov g0 .i64 (.reg 1) (.lq 2)) (q [.full 9, .full 10] xs)) (fun t => t.seq.readS 1 == 9 && t.my.q.lq[2] == [.full 10]) = true
      ∧ (xs.my.q.lq[2] = [] ∧ xs.my.as.gone = true)
      ∧ ((asAlone.modMy fun t => { t with xs := { t.as with pc := 0 } }).my.as.gone = false)
      ∧ (two.neighbour 0 true = some 1 ∧ two.me.nE = 7 :: [8] ∧ two.me.fw = false ∧ (two.core 1).nW.length < 4)
      ∧ next (exec (.mov g0 .i64 (.reg 1) .nE) two) (fun t => t.seq.readS 1 == 7 && t.me.nE == [8]) = true
      ∧ next (exec (.mov g0 .i64 .nE (.reg 3)) (put two [(3, 5)])) (fun t => (t.core 1).nW == [5]) = true := by decide

/-- TrapsAreDelivered: the user route, a UTVEC outside the code region, and the supervisor's. -/
theorem witness_traps :
    let u (v : Word) : State := xs.modMy fun t => { t with csr := { t.csr with utvec := v, utmask := 0x100000 } }
    next (exec (.trap g0 7) (u 0x40)) (fun t => t.seq.pc == 0x40 && t.seq.level == .user && t.my.csr.cause.udel && t.my.csr.tval == 7) = true
      ∧ next (exec (.trap g0 7) (u 4096)) (fun t => trapped .windowBounds 4096 t && t.seq.level == .supervisor) = true
      ∧ next (exec (.trap g0 7) (xs.modMe fun c => { c with stvec := 0xEC00 })) (fun t => t.seq.pc == 0xEC00 && t.seq.level == .supervisor && trapped .brk 7 t) = true := by
  decide

/-- TretReturnsFromTheUserHandler. -/
theorem witness_tret :
    let u (b : Bool) (pc : BitVec 32) : State := xs.modMy fun t => { t with csr := { t.csr with cause := ⟨false, b, true, 0x14⟩, xpc := pc, apc := 0xFFFFFFFF } }
    (ready xs (.tret g0) = true)
      ∧ next (exec (.tret g0) (u false 8)) (trapped .illegalEncoding 0) = true
      ∧ next (exec (.tret g0) (u true 6)) (trapped .misalignedTarget 6) = true
      ∧ next (exec (.tret g0) (u true 4096)) (trapped .windowBounds 4096) = true
      ∧ next (exec (.tret g0) (u true 4092)) (fun t => t.seq.pc == 4092 && !t.my.csr.cause.udel) = true := by decide

/-- SoftwareTrapsAndReturns: `eret` at both levels, with a guard of 0, and on each bad offset; `trap`; an illegal word. -/
theorem witness_eret :
    let u (l : Level) (pprv : Bool) (pc : BitVec 32) : State := (atLevel l).modMy fun t => { t with csr := { t.csr with cause := ⟨pprv, false, true, 1⟩, xpc := pc, apc := 0xFFFFFFFF } }
    next (exec (.eret g0) (u .user false 8)) (trapped .privileged 0) = true
      ∧ next (exec (.eret ⟨true, 0⟩) (u .supervisor false 8)) (fun t => t.seq.pc == 8 && t.seq.level == .supervisor) = true
      ∧ next (exec (.eret g0) (u .supervisor false 16)) (fun t => t.seq.pc == 16 && t.seq.level == .user) = true
      ∧ next (exec (.eret g0) (u .supervisor false 18)) (trapped .misalignedTarget 18) = true
      ∧ next (exec (.eret g0) (u .supervisor false 4096)) (trapped .windowBounds 4096) = true
      ∧ (ready xs (.trap g0 7) = true ∧ xs.my.csr.utmask.getLsbD 0x14 = false ∧ xs.seq.present = true ∧ xs.seq.ended = false)
      ∧ next (exec (.illegalEncoding .reserved) xs) (fun t => t.my.csr.cause.code == 1 && t.seq.level == .supervisor) = true := by decide


/-! ## Scalar instructions -/

/-- IntegerResults and ScalarFrames: all the forms that these statements name are ready to run. -/
theorem witness_integers_are_ready :
    ([.add g0 .i32 (.reg 3) (.reg 1) (.reg 2), .sub g0 .i8 .nE (.lq 0) .nW, .mul g0 .z64 (.reg 3) (.reg 1) (.reg 2),
      .mulh g0 .i16 (.reg 3) (.reg 1) (.reg 2), .mulhz g0 .z32 (.reg 3) (.reg 1) (.reg 2), .div g0 .i64 (.reg 3) (.reg 1) (.reg 2),
      .divz g0 .z8 (.reg 3) (.reg 1) (.reg 2), .rem g0 .i64 (.reg 0) (.reg 1) (.reg 2), .remz g0 .z8 (.reg 3) (.reg 1) (.reg 2),
      .and g0 .z8 (.reg 3) (.reg 1) (.reg 2), .or g0 .z8 (.reg 3) (.reg 1) (.reg 2), .xor g0 .z8 (.reg 3) (.reg 1) (.reg 2),
      .andn g0 .z8 (.reg 3) (.reg 1) (.reg 2), .shl g0 .z8 (.reg 3) (.reg 1) (.reg 2), .shr g0 .z8 (.reg 3) (.reg 1) (.reg 2),
      .sra g0 .i8 (.reg 3) (.reg 1) (.reg 2), .rol g0 .z8 (.reg 3) (.reg 1) (.reg 2), .min g0 .i8 (.reg 3) (.reg 1) (.reg 2),
      .max g0 .i8 (.reg 3) (.reg 1) (.reg 2), .minz g0 .z8 (.reg 3) (.reg 1) (.reg 2), .maxz g0 .z8 (.reg 3) (.reg 1) (.reg 2),
      .addi g0 .i64 1 2 3, .andi g0 .i64 1 2 3, .ori g0 .i64 1 2 3, .xori g0 .i64 1 2 3, .shli g0 .i64 1 2 3, .shri g0 .i64 1 2 3,
      .srai g0 .i64 1 2 3, .roli g0 .i64 1 2 3, .muli g0 .i64 1 2 3, .movi g0 1 2, .movw g0 1 2, .mov g0 .i64 (.reg 1) (.reg 2),
      .lea g0 (.reg 1) (.reg 2) (.reg 3) 1 4, .rdtick g0 1, .sel g0 (.reg 1) (.reg 2) (.reg 3) 1, .clz g0 .i64 (.reg 1) (.reg 2),
      .ctz g0 .i64 (.reg 1) (.reg 2), .popc g0 .i64 (.reg 1) (.reg 2), .bfx g0 .i64 (.reg 1) (.reg 2) 3 4, .bfi g0 1 (.reg 2) 3 4,
      .sext g0 .i8 (.reg 1) (.reg 2), .zext g0 .z8 (.reg 1) (.reg 2), .cmp g0 .i64 1 .lt (.reg 1) (.reg 2)] : List Instr).all (ready xs) = true := by
  decide

/-- Their sources and destinations: registers read and written as they are. -/
theorem witness_integer_operands : ∃ s1 s2 s3, src (.reg 1) xs = .ok (0, s1) ∧ src (.reg 2) s1 = .ok (0, s2) ∧ dst (.reg 3) 7 s2 = .ok ((), s3) :=
  ⟨_, _, _, rfl, rfl, rfl⟩

/-- The register forms at their corners, each result worked out by hand from 08 R113 and R108. -/
theorem test_integer_register_forms :
    let r (i : XT → Opnd → Opnd → Opnd → Instr) (x : XT) (a b : Word) : Option Word :=
      match exec (i x (.reg 3) (.reg 1) (.reg 2)) (put xs [(1, a), (2, b)]) with
      | .next t => some (t.seq.readS 3)
      | _ => none
    r (.add g0) .i32 0x7FFFFFFF 1 = some 0xFFFFFFFF80000000 ∧ r (.add g0) .z8 0xFF 2 = some 1
      ∧ r (.sub g0) .z16 0 1 = some 0xFFFF ∧ r (.sub g0) .i64 5 7 = some (-2) ∧ r (.mul g0) .i8 0x40 2 = some (-128)
      ∧ r (.mulh g0) .i8 (-1) 1 = some (-1) ∧ r (.mulhz g0) .z8 0xFF 0xFF = some 0xFE
      ∧ r (.div g0) .i8 (-7) 2 = some (-3) ∧ r (.div g0) .i8 (-128) (-1) = some (-128) ∧ r (.div g0) .i16 9 0 = some (-1)
      ∧ r (.divz g0) .z8 9 0 = some 0xFF ∧ r (.divz g0) .z8 0xFE 3 = some 84 ∧ r (.rem g0) .i8 (-7) 2 = some (-1)
      ∧ r (.rem g0) .i8 (-128) (-1) = some 0 ∧ r (.rem g0) .i8 (-7) 0 = some (-7) ∧ r (.remz g0) .z8 0xF9 0 = some 0xF9
      ∧ r (.and g0) .z8 0x1F0 0xFF = some 0xF0 ∧ r (.or g0) .i8 0x80 1 = some 0xFFFFFFFFFFFFFF81 ∧ r (.xor g0) .z8 0xFF 0x0F = some 0xF0
      ∧ r (.andn g0) .z8 0xFF 0x0F = some 0xF0 ∧ r (.shl g0) .z8 0x81 9 = some 2 ∧ r (.shr g0) .i8 0x80 7 = some 1
      ∧ r (.sra g0) .z8 0x80 7 = some 0xFF ∧ r (.rol g0) .z8 0x81 1 = some 3 ∧ r (.min g0) .i8 0x80 1 = some (-128)
      ∧ r (.max g0) .i8 0x80 1 = some 1 := by decide

/-- The same for the unsigned minima, the immediate forms, moves and addresses (08 R113, R115). -/
theorem test_immediates_and_moves :
    let v (i : Instr) : Option Word :=
      match exec i (put { xs with tick := 77 } [(1, 0x80), (2, 5), (3, 0x1122334455667788)]) with
      | .next t => some (t.seq.readS 3)
      | _ => none
    v (.minz g0 .z8 (.reg 3) (.reg 1) (.reg 2)) = some 5 ∧ v (.maxz g0 .z8 (.reg 3) (.reg 1) (.reg 2)) = some 0x80
      ∧ v (.addi g0 .i64 3 2 0xFFFFFF) = some 4 ∧ v (.andi g0 .z8 3 1 0xFFFFF0) = some 0x80 ∧ v (.ori g0 .i8 3 2 0x80) = some 0xFFFFFFFFFFFFFF85
      ∧ v (.xori g0 .z16 3 2 0xFFFFFF) = some 0xFFFA ∧ v (.shli g0 .z8 3 1 1) = some 0 ∧ v (.shri g0 .z8 3 1 7) = some 1
      ∧ v (.srai g0 .i8 3 1 7) = some (-1) ∧ v (.roli g0 .z8 3 1 1) = some 1 ∧ v (.muli g0 .i64 3 2 0xFFFFFE) = some (-10)
      ∧ v (.movi g0 3 0x80000000) = some 0xFFFFFFFF80000000 ∧ v (.movw g0 3 0xAABBCCDD) = some 0xAABBCCDD55667788
      ∧ v (.mov g0 .i8 (.reg 3) (.reg 1)) = some (-128) ∧ v (.lea g0 (.reg 3) (.reg 1) (.reg 2) 3 0x3FF) = some 0xA7
      ∧ v (.rdtick g0 3) = some 77 := by decide

/-- ComparesSelectsAndBits: results by hand from 08 R115. -/
theorem test_compares_and_bits :
    let s := put xs [(1, 0x80), (2, 1), (3, 0xFFFFFFFFFFFFFFFF)]
    let v (i : Instr) : Option Word := match exec i s with | .next t => some (t.seq.readS 3) | _ => none
    let k (x : XT) (c : Cond) : Option Lane := match exec (.cmp g0 x 2 c (.reg 1) (.reg 2)) s with | .next t => some (t.seq.readK 2) | _ => none
    k .i8 .lt = some 1 ∧ k .z8 .lt = some 0 ∧ k .i8 .ge = some 0 ∧ k .z8 .gt = some 1 ∧ k .i8 .eq = some 0 ∧ k .i8 .ne = some 1 ∧ k .i8 .le = some 1
      ∧ v (.sel g0 (.reg 3) (.reg 1) (.reg 2) 0) = some 0x80 ∧ v (.sel g0 (.reg 3) (.reg 1) (.reg 2) 1) = some 1
      ∧ v (.clz g0 .z16 (.reg 3) (.reg 1)) = some 8 ∧ v (.ctz g0 .z8 (.reg 3) (.reg 1)) = some 7 ∧ v (.ctz g0 .z8 (.reg 3) (.reg 0)) = some 8
      ∧ v (.popc g0 .z8 (.reg 3) (.reg 3)) = some 8 ∧ v (.bfx g0 .i64 (.reg 3) (.reg 1) 7 0) = some (-1)
      ∧ v (.bfx g0 .z64 (.reg 3) (.reg 1) 4 3) = some 8 ∧ v (.bfi g0 3 (.reg 2) 4 3) = some 0xFFFFFFFFFFFFFF1F
      ∧ v (.sext g0 .i8 (.reg 3) (.reg 1)) = some (-128) ∧ v (.zext g0 .z8 (.reg 3) (.reg 3)) = some 255 := by decide

/-- Its bit clauses at their ends: clz of 0, ctz of the top bit. -/
theorem witness_bits : Nat.size 0 = 0 ∧ Nat.size 0x80 = 8 ∧ 0x80 % 2 ^ 7 = 0 ∧ 0x80 / 2 ^ 7 % 2 = 1 := by decide

/-- ScalarFloatResults, FloatConversionsSignsAndClasses, FcmpSetsItsRelation, ScalarFrames: the FP forms are ready. -/
theorem witness_floats_are_ready :
    ([.fadd g0 .f64 (.reg 3) (.reg 1) (.reg 2), .fsub g0 .f32 .nE (.lq 1) .nW, .fmul g0 .f16 (.reg 3) (.reg 1) (.reg 2),
      .fdiv g0 .bf16 (.reg 3) (.reg 1) (.reg 2), .fma g0 .f32 (.reg 3) (.reg 1) (.reg 2) 4, .fsqrt g0 .f32 (.reg 3) (.reg 1),
      .fmin g0 .f32 (.reg 3) (.reg 1) (.reg 2), .fmax g0 .f32 (.reg 3) (.reg 1) (.reg 2), .fcmp g0 .f32 1 .lt (.reg 1) (.reg 2),
      .fcvt g0 .e4m3 .i32 (.reg 3) (.reg 1), .fsgn g0 .f32 .xor (.reg 3) (.reg 1) (.reg 2), .fclass g0 .f32 (.reg 3) (.reg 1)] : List Instr).all
        (ready xs) = true := by decide

/-- FP results by hand: 1 + 2, 1 / 0 (DZ), the root of −1 (NV), 1 + 2^-24 rounded (NX), 3 × 0.5 − 1, −0 and +0 (05 R65). -/
theorem test_scalar_fp :
    let s (a b c : Word) : State := put xs [(1, a), (2, b), (4, c)]
    let v (i : Instr) (s : State) : Option (Word × Flags) := match exec i s with | .next t => some (t.seq.readS 3, t.my.csr.fpstat) | _ => none
    v (.fadd g0 .f32 (.reg 3) (.reg 1) (.reg 2)) (s 0x3F800000 0x40000000 0) = some (0x40400000, 0)
      ∧ v (.fadd g0 .f32 (.reg 3) (.reg 1) (.reg 2)) (s 0x3F800000 0x33800000 0) = some (0x3F800000, 1)
      ∧ v (.fsub g0 .f16 (.reg 3) (.reg 1) (.reg 2)) (s 0x7C00 0x7C00 0) = some (0x7E00, 16)
      ∧ v (.fmul g0 .bf16 (.reg 3) (.reg 1) (.reg 2)) (s 0x7F7F 0x4000 0) = some (0x7F80, 5)
      ∧ v (.fdiv g0 .f32 (.reg 3) (.reg 1) (.reg 2)) (s 0xBF800000 0 0) = some (0xFF800000, 8)
      ∧ v (.fma g0 .f32 (.reg 3) (.reg 1) (.reg 2) 4) (s 0x40400000 0x3F000000 0xBF800000) = some (0x3F000000, 0)
      ∧ v (.fsqrt g0 .f32 (.reg 3) (.reg 1)) (s 0xBF800000 0 0) = some (0x7FC00000, 16)
      ∧ v (.fsqrt g0 .f64 (.reg 3) (.reg 1)) (s 0x4010000000000000 0 0) = some (0x4000000000000000, 0)
      ∧ v (.fmin g0 .f32 (.reg 3) (.reg 1) (.reg 2)) (s 0 0x80000000 0) = some (0x80000000, 0)
      ∧ v (.fmax g0 .f32 (.reg 3) (.reg 1) (.reg 2)) (s 0x80000000 0 0) = some (0, 0) := by decide +kernel

/-- Conversions, signs, classes and relations by hand (08 R119, R121, R122). -/
theorem test_fp_conversions :
    let s (a b : Word) : State := put xs [(1, a), (2, b)]
    let v (i : Instr) (s : State) : Option (Word × Flags) := match exec i s with | .next t => some (t.seq.readS 3, t.my.csr.fpstat) | _ => none
    let k (c : FCond) (a b : Word) : Option (Lane × Flags) := match exec (.fcmp g0 .f32 2 c (.reg 1) (.reg 2)) (s a b) with | .next t => some (t.seq.readK 2, t.my.csr.fpstat) | _ => none
    v (.fcvt g0 .f32 .i32 (.reg 3) (.reg 1)) (s (-3) 0) = some (0xC0400000, 0)
      ∧ v (.fcvt g0 .i8 .f32 (.reg 3) (.reg 1)) (s 0x43800000 0) = some (127, 16)
      ∧ v (.fsgn g0 .f32 .neg (.reg 3) (.reg 1) (.reg 2)) (s 0x3F800000 0) = some (0xBF800000, 0)
      ∧ v (.fsgn g0 .f32 .cpy (.reg 3) (.reg 1) (.reg 2)) (s 0x7F800001 0) = some (0x7FC00000, 0)
      ∧ v (.fclass g0 .f32 (.reg 3) (.reg 1)) (s 0xFF800000 0) = some (1, 0) ∧ v (.fclass g0 .f32 (.reg 3) (.reg 1)) (s 1 0) = some (32, 0)
      ∧ k .eq 0 0x80000000 = some (1, 0) ∧ k .lt 0x7FC00000 0 = some (0, 16) ∧ k .un 0x7FC00000 0 = some (1, 0)
      ∧ k .ne 0x7F800001 0 = some (1, 16) ∧ k .le 0xBF800000 0 = some (1, 0) := by decide

/-- FloatCornersAndExactResults: values of each kind that its clauses name. -/
theorem witness_float_corners :
    (decodeF .f32 0x7F800000 = .inf false ∧ decodeF .f32 0xFF800000 = .inf true ∧ (decodeF .f32 0).isZero = true
      ∧ (decodeF .f32 0x7F800001).isSNan = true ∧ (decodeF .f32 0x7FC00000).isNan = true ∧ (decodeF .f32 0xBF800000).neg? = true
      ∧ (decodeF .f32 0x3F800000).isFinite = true ∧ (decodeF .f32 0x3F800000).isZero = false) := by decide

theorem witness_exact_results :
    (decodeF .f32 0x40000000).rational = (decodeF .f32 0x3F800000).rational + (decodeF .f32 0x3F800000).rational
      ∧ (decodeF .f32 0x3F800000).rational = (decodeF .f32 0x3F800000).rational * (decodeF .f32 0x3F800000).rational := by
  have h1 : decodeF .f32 0x3F800000 = .fin false 0x800000 (-23) := by decide
  have h2 : decodeF .f32 0x40000000 = .fin false 0x800000 (-22) := by decide
  rw [h1, h2]; norm_num [FVal.rational]

/-! ## Control -/

/-- ControlTransfersGoToTheirTargets: a good target, one that is not a multiple of 4, one outside the code region. -/
theorem test_control_transfers :
    let s := put (xs.modSeq fun c => { c with pc := 64 }) [(2, 100), (3, 102), (4, 4096)]
    next (exec (.br g0 0xFFFFF0) s) (fun t => t.seq.pc == 0) = true
      ∧ next (exec (.jmp g0 2 2 0x000001) s) (fun t => t.seq.pc == 104 && t.seq.readS 2 == 72) = true
      ∧ next (exec (.call g0 1 0x000004) s) (fun t => t.seq.pc == 80 && t.seq.readS 1 == 72) = true
      ∧ next (exec (.ret g0 3) s) (trapped .misalignedTarget 102) = true
      ∧ next (exec (.ret g0 4) s) (trapped .windowBounds 4096) = true
      ∧ next (exec (.br g0 0xFFFFEF) s) (trapped .windowBounds (-4)) = true := by decide

/-- LoopsPausesBranchQueuesAndEnds. -/
theorem test_loops_pauses_queues :
    let s := put (xs.modSeq fun c => { c with pc := 64 }) [(2, 3)]
    let q (l : List Bool) : State := s.modMy fun t => { t with q := { t.q with bqx := l } }
    next (exec (.loop g0 1 2 0x000004) s) (fun t => t.seq.pc == 72 && t.seq.lc1 == ⟨3, 3, 72, 80⟩) = true
      ∧ next (exec (.loop g0 0 0 0x000004) s) (fun t => t.seq.pc == 88) = true
      ∧ next (exec (.loop g0 0 2 0x0003F0) s) (trapped .windowBounds 4096) = true
      ∧ next (exec (.pause g0 0 0) s) (fun t => t.seq.pc == 72) = true
      ∧ next (exec (.pause g0 0 9) s) (fun t => t.seq.pc == 64 && t.seq.wait == some ⟨.pausing, 9, none, none⟩) = true
      ∧ next (exec (.bqpush g0 0) s) (fun t => t.my.q.bqa == [true]) = true
      ∧ next (exec (.bqpush g0 0) (s.modMy fun t => { t with q := { t.q with bqa := List.replicate 16 true } })) (trapped .queueMisuse 5) = true
      ∧ next (exec (.bqbr g0 false 0x000004) (q [true, false])) (fun t => t.seq.pc == 80 && t.my.q.bqx == [false]) = true
      ∧ next (exec (.bqbr g0 true 0x000004) (q [true])) (fun t => t.seq.pc == 72 && t.my.q.bqx == []) = true
      ∧ next (exec (.bqbr g0 true 0xFFF000) (q [true])) (trapped .windowBounds (-0x3FC0)) = true := by decide

/-- `end` with the other part still there, with left-over entries, and at the strand's end; a `pause` that runs out. -/
theorem test_end_and_pause_expiry :
    next (exec (.endPart g0) as_) (fun t => t.seq.ended && !(t.my.seq .xs).ended && t.me.running) = true
      ∧ next (exec (.endPart g0) (xs.modMy fun t => { t with q := { t.q with bqx := [true] } })) (trapped .queueMisuse 0x140) = true
      ∧ next (exec (.endPart g0) xs) (fun t => !t.me.running) = true
      ∧ next (exec (.pauseExpiry 0 .xs) (xs.modSeq fun c => { c with wait := some ⟨.pausing, 0, none, none⟩ })) (fun t => t.seq.pc == 8) = true := by
  decide +kernel

theorem witness_end : as_.my.q.sq = [] ∧ (as_.my.seq (otherSeq .as)).present = true ∧ (as_.my.seq (otherSeq .as)).ended = false
    ∧ (xs.my.seq (otherSeq .xs)).gone = true ∧ xs.released 0 .xs = true ∧ (as_.cur.2 = .as ∧ as_.my.q.bqx.length < 16 ∧ as_.my.xs.gone = false) := by decide



/-! ## Memory -/

/-- LoadsTakeTheHomesAnswer and StoresWriteTheirBytes: a misaligned address, one outside the window, and a good one. -/
theorem test_loads_and_stores :
    let v (x : XT) (disp : BitVec 10) : Option Word := match exec (.ld g0 x false (.reg 3) 1 0 disp) memS with | .next t => some (t.seq.readS 3) | _ => none
    v .i64 0 = some 0x8899AABBCCDDEEFF ∧ v .i16 1 = some 0xFFFFFFFFFFFFCCDD ∧ v .z8 7 = some 0x88 ∧ v .i8 0x3FF = some 0
      ∧ next (exec (.ld g0 .i32 false (.reg 3) 2 0 0) (put memS [(2, 66)])) (trapped .misalignedData 66) = true
      ∧ next (exec (.ld g0 .i32 false (.reg 3) 2 0 0) memS) (trapped .windowBounds 0x1122334455667788) = true
      ∧ next (exec (.st g0 .i16 false false 1 (.reg 2) 0 1) memS) (fun t => cpAt t 0 64 8 == 0x8899AABB7788EEFF && t.seq.pc == 8) = true
      ∧ next (exec (.st g0 .i64 false false 2 (.reg 2) 0 1) memS) (trapped .misalignedData 0x1122334455667790) = false
      ∧ next (exec (.st g0 .i32 false true 1 (.reg 2) 0 1) xs) (fun t => t.my.q.sq == [⟨.cp, 4, 4, 0⟩] && t.seq.pc == 8) = true := by
  decide +kernel

/-- The same through CM and the on-chip map. (A GV access depends on where the supervisor maps the meters, which is open.) -/
theorem test_windows :
    let oc := put memS [(3, 0x8000000000000000)]
    next (exec (.st g0 .i64 true false 0 (.reg 2) 0 1) memS) (fun t =>
        next (exec (.ld g0 .i64 true (.reg 4) 0 0 1) t) (fun u => u.seq.readS 4 == 0x1122334455667788)) = true
      ∧ next (exec (.sto g0 .i64 false 3 (.reg 2) 0 1) oc) (fun t =>
        next (exec (.ldo g0 .i64 (.reg 4) 3 0 1) t) (fun u => u.seq.readS 4 == 0x1122334455667788)) = true
      ∧ next (exec (.pf g0 1 0 0) memS) (fun t => t.seq.pc == 8 && t.mem == memS.mem) = true
      ∧ next (exec (.pf g0 2 0 0) (put memS [(2, 0x200000000000000)])) (trapped .windowBounds 0x200000000000000) = true := by
  decide +kernel

theorem witness_memory_forms_are_ready :
    (([.cp, .cm, .oc, .gv] : List Space).all fun sp =>
        ready xs (loadOf sp g0 .i32 (.reg 3) 1 2 5) && ready xs (storeOf sp false g0 .i32 1 (.reg 2) 0 5)
          && ready as_ (loadOf sp g0 .i32 (.lq 2) 1 2 5) && ready xs (storeOf sp true g0 .i32 1 (.reg 2) 0 5)) = true
      ∧ ready xs (.pf g0 1 0 0) = true ∧ (!memS.slowTurn && memS.seq.kept == [] && memS.seq.used == 0 && memS.seq.out == none && memS.seq.latch == none) = true := by
  decide

/-- The home's answer, and a home's trap (another core has written the bytes). -/
theorem witness_homes_answer :
    (match memS.locate .cp 64 8 .r with
      | .ok l =>
        !memS.queuedBefore (memS.coreAccess l.home .r .read l.tgt l.base)
          && (match memS.nextNumber.applyAccess (memS.coreAccess l.home .r .read l.tgt l.base) with
            | .done _ (.data bs) => leOf bs == 0x8899AABBCCDDEEFF
            | _ => false)
      | _ => false) = true
      ∧ next (exec (.ld g0 .i64 false (.reg 3) 1 0 0) (clash memS)) (trapped .memoryConflict 64) = true
      ∧ (match memS.locate .cp 65536 8 .r with | .error (c, v) => c == .windowBounds && v == 65536 | _ => false) = true := by
  decide +kernel

/-- LocalAccessesTouchTheirBytesAlone: the keys of a CP access, its conflict check passed. -/
theorem witness_local_access : memS.memoryWf ∧
    (match memS.locate .cp 64 8 .r, memS.locate .cp 64 8 .w with
      | .ok ⟨h, .keys ks, base⟩, .ok ⟨h', .keys ks', base'⟩ =>
        !memS.queuedBefore (memS.coreAccess h .r .read (.keys ks) base) && !ks.any memS.pendingKey
          && (match memS.nextNumber.checked (memS.coreAccess h .r .read (.keys ks) base) ks with | .ok (some _) => true | _ => false)
          && (match memS.nextNumber.checked (memS.coreAccess h' .w (.write (leBytesOf 8 7)) (.keys ks') base') ks' with
            | .ok (some _) => true
            | _ => false)
      | _, _ => false) = true := ⟨⟨by decide, by decide⟩, by decide +kernel⟩

/-- QueueLoadsFillAnEntry: room, and a full queue whose XS has gone. -/
theorem test_queue_loads :
    next (exec (.ld g0 .z8 false (.lq 1) 0 0 64) (cp as_ 64 1 0xA5)) (fun t => t.my.q.lq[1] == [.full 0xA5]) = true
      ∧ next (exec (.ld g0 .z8 false (.lq 1) 0 0 64)
        (asAlone.modMy fun t => { t with q := { t.q with lq := t.q.lq.set 1 (List.replicate 8 (.full 1)) } })) (trapped .queueMisuse 1) = true
      ∧ asAlone.my.xs.gone = true := by decide +kernel

/-- SqEntriesArePerformedInOrder: one entry that is performed and one whose address is outside the window. -/
theorem test_sq_entries :
    let s (a : Nat) : State := as_.modMy fun t => { t with q := { t.q with sq := [⟨.cp, a, 2, 0x1234⟩, ⟨.cp, 0, 1, 1⟩] } }
    (s 64).coreRuns 0 = true ∧ ((s 64).strand 0).as.gone = false ∧ ((s 64).strand 0).sqTrapPending = false ∧ (s 64).sqInFlight 0 = false
      ∧ next (exec (.sqStorePerform 0) (s 64)) (fun t => cpAt t 0 64 2 == 0x1234 && t.my.q.sq == [⟨.cp, 0, 1, 1⟩]) = true
      ∧ next (exec (.sqStorePerform 0) (s 65536)) (fun t => t.my.act.pend == [(.as, .windowBounds, 65536)] && t.my.q.sq.length == 2) = true := by
  decide +kernel

/-- AtomicsTakeTheirAnswer: each atomic on a queue or word at CP 64; a misaligned word and a misaligned queue. -/
theorem test_atomics :
    let v (s : State) (i : Instr) : Option (Word × Nat × Lane) := match exec i s with | .next t => some (t.seq.readS 3, cpAt t 0 64 4, t.seq.readK 2) | _ => none
    let s := put (cp xs 64 4 0xFFFFFFF0) [(1, 64), (2, 0x20), (4, 0xFFFFFFF0), (5, 65)]
    v s (.atom g0 .i32 .cp .add false false 3 1 (.reg 2)) = some (-16, 0x10, 0) ∧ v s (.atom g0 .z32 .cp .min true true 3 1 (.reg 2)) = some (0xFFFFFFF0, 0x20, 0)
      ∧ v s (.atomcas g0 .z32 .cp false false 3 1 (.reg 2) 4) = some (0xFFFFFFF0, 0x20, 0)
      ∧ v s (.atomcas g0 .z32 .cp false false 3 1 (.reg 2) 2) = some (0xFFFFFFF0, 0xFFFFFFF0, 0)
      ∧ v s (.atomincw g0 .z32 .cp false false 3 1 4) = some (0xFFFFFFF0, 0, 0)
      ∧ v s (.atomfaddb g0 .z32 .cp false false 3 2 1 (.reg 2) 4) = some (0xFFFFFFF0, 0xFFFFFFF0, 0)
      ∧ next (exec (.atom g0 .i32 .cp .add false false 3 5 (.reg 2)) s) (trapped .misalignedData 65) = true
      ∧ next (exec (.deq g0 .cp false false 3 2 2) s) (trapped .misalignedData 0x20) = true := by decide +kernel

/-- A queue in CP (10 R164): its head at 0, its tail at 8, its mask at 16, its base at 24. -/
theorem test_queue_atomics :
    let s := put (cp (cp (cp xs 64 8 0) 72 8 0) 80 8 3) [(1, 64), (2, 0x77)]
    ([.atom g0 .i32 .cp .add false false 3 1 (.reg 2), .atomcas g0 .z32 .cp false false 3 1 (.reg 2) 4, .atomincw g0 .z32 .cp false false 3 1 4,
        .atomfaddb g0 .z32 .cp false false 3 2 1 (.reg 2) 4, .enq g0 .cp false false 2 1 (.reg 2), .deq g0 .cp true true 3 2 1] : List Instr).all
        (ready s) = true
      ∧ s.released 0 .xs = true ∧ next (exec (.deq g0 .cp false false 3 2 1) s) (fun t => t.seq.readK 2 == 0) = true := by decide +kernel


/-! ## Messages and mailboxes -/

/-- The sequencer has an answer to its message. -/
def toldS (stat hint : Nat) (s : State) : State := s.modSeq fun c => { c with kept := [.msg stat hint], tries := 2 }

/-- AnsweredMessagesWriteTheirStatus: accepted, refused and told not to retry, refused and retried. -/
theorem test_answered_messages :
    let ok (st : Nat) (i : Instr) : Option Word := match exec i (toldS st 9 xs) with | .next t => some (t.seq.readS 3) | _ => none
    ok 0 (.msend g0 3 1 5) = some 0x20000 ∧ ok 4 (.msendt g0 3 1 5) = some 0x20004 ∧ ok 1 (.msendt g0 3 1 5) = some 0x20901
      ∧ ok 0 (.send g0 3 1 2 7 0) = some 0x20000 ∧ ok 3 (.sendt g0 3 1 2 7 0) = some 0x20003 ∧ ok 1 (.gsend g0 3 1 0 2 true 5 1) = some 0x20901
      ∧ next (exec (.msend g0 3 1 5) (toldS 1 9 xs)) (fun t => (t.seq.wait.map fun w => (w.why, w.till)) == some (.hint, 9) && t.seq.pc == 0) = true
      ∧ xs.seq.out = none ∧ (toldS 1 9 xs).seq.hintWait = none ∧ (xs.partOf xs.cur.1).attrs.retryLim = 64 := by decide +kernel

/-- MessagesLeaveAsOnePacket: each message's packet to core 1. -/
theorem test_messages_leave :
    let s := put xs [(1, 1), (5, 0x55)]
    let out (i : Instr) (f : Packet → Bool) : Bool := ready s i && next (exec i s) fun t => t.fab.net.any fun k => t.seq.out == some k.num && k.dst == 1 && f k
    (match s.checkCore 1 with | .ok p => p == 1 | _ => false) = true ∧ s.released 0 .xs = true ∧ (s.seq.readS 2).getLsbD 14 = false
      ∧ out (.msend g0 3 1 5) (fun k => k.vn == .amsg && k.body == .deposit 5 [1, 0, 0, 0, 0x55, 0] (some .xs)) = true
      ∧ out (.msendt g0 3 1 6) (fun k => k.body == .deposit 6 [1, 0, 0, 0, 0x55, 0] (some .xs)) = true
      ∧ out (.gsend g0 3 1 0 2 false 5 1) (fun k => k.vn == .bulk) = true
      ∧ out (.send g0 3 1 2 7 9) (fun k => match k.body with | .active m _ _ => hdrHidx m.hdr == 7 && hdrGen m.hdr == 9 && hdrSrc m.hdr == 0 | _ => false) = true
      ∧ out (.sendt g0 3 1 2 7 9) (fun k => match k.body with | .active m _ _ => hdrHidx m.hdr == 7 | _ => false) = true := by
  decide +kernel

/-- RepliesAreSentOnce: none owed, and one owed to core 2. -/
theorem test_reply :
    let s := xs.modMy fun t => { t with act := { t.act with owed := some ⟨2, 7, 40⟩ } }
    ready xs (.reply g0 3) = true ∧ xs.my.act.owed = none ∧ next (exec (.reply g0 3) xs) (fun t => t.seq.readS 3 == 5) = true
      ∧ next (exec (.reply g0 3) s) (fun t => t.seq.readS 3 == 0 && t.my.act.owed == none
        && t.fab.net.any fun k => k.dst == 2 && k.vn == .reply && k.body == .reply 7 40 false [0, 0, 0, 0, 0, 0]) = true := by decide +kernel

/-- HintsAndAnswersReachTheirSequencer: a hint that has run out, an answer for the request 4. -/
theorem test_hints_and_answers :
    let h := { xs with tick := 20 }.modSeq fun c => { c with tries := 1, wait := some ⟨.hint, 20, none, some (1, .amsg, .deposit 5 [] (some .xs))⟩ }
    let a := packet ⟨9, 1, 0, .reply, 0, 4, 0, .answer .xs (.msg 0 0), false, 0, Way.done⟩ (xs.modSeq fun c => { c with out := some 4, wait := some ⟨.answer, 0, none, none⟩ })
    (h.waitOf 0 .xs).isSome = true
      ∧ next (exec (.retryHintExpiry 0 .xs) h) (fun t => t.seq.tries == 2 && t.fab.net.any fun k => k.dst == 1 && t.seq.out == some k.num) = true
      ∧ (a.answerFor 0 .xs).isSome = true ∧ ((a.strand 0).seq (otherSeq .xs)).awaits 4 = false
      ∧ next (exec (.answerArrival 0 .xs) a) (fun t => t.seq.kept == [.msg 0 0] && t.seq.out == none && t.fab.net == []) = true := by decide +kernel

/-- MailboxInstructionsTakeAndFreeSlots: each instruction, and each of its traps. -/
theorem test_mailboxes :
    let s := put (cp xs 96 8 (1 + 2 ^ 10 + 2 ^ 14 + 2 ^ 21)) [(1, 96), (2, 97), (4, 128), (5, 65536)]
    let f := (mb 0 5 s).setMbx 0 5 { (mb 0 5 s).mbx 0 5 with slots := [.taken, .filled 3 1 1 0 0 0 false] }
    next (exec (.mcfg g0 1 5) s) (fun t => (t.mbx 0 5).enabled && (t.mbx 0 5).base == 64 && (t.mbx 0 5).slots == [.free, .free]) = true
      ∧ next (exec (.mcfg g0 2 5) s) (trapped .windowBounds 97) = true ∧ next (exec (.mcfg g0 5 5) s) (trapped .windowBounds 65536) = true
      ∧ next (exec (.mcfg g0 4 5) (cp s 128 8 0x400000)) (trapped .windowBounds 128) = true
      ∧ next (exec (.mrecv g0 3 0 0 9) s) (trapped .windowBounds 9) = true
      ∧ next (exec (.mrecv g0 3 0 0 5) f) (fun t => t.seq.readS 3 == 128 && (t.mbx 0 5).slots == [.taken, .taken]) = true
      ∧ next (exec (.mpeek g0 3 5) f) (fun t => t.seq.readS 3 == 128 && t.mbx 0 5 == f.mbx 0 5) = true
      ∧ next (exec (.mpeek g0 3 5) (mb 0 5 s)) (fun t => t.seq.readS 3 == -1) = true
      ∧ next (exec (.mrel g0 1 5) (put f [(1, 64)])) (fun t => (t.mbx 0 5).slots == [.free, .filled 3 1 1 0 0 0 false]) = true
      ∧ next (exec (.mrel g0 4 5) f) (trapped .queueMisuse 128) = true := by decide +kernel

/-- NlinkSetsForwarding. -/
theorem test_nlink :
    let s := xs.modMe fun c => { c with nE := [1], nW := [2, 3] }
    next (exec (.nlink g0 true false true) s) (fun t => t.me.fe && !t.me.fw && t.me.nE == [] && t.me.nW == []) = true
      ∧ next (exec (.nlink g0 false true false) s) (fun t => !t.me.fe && t.me.fw && t.me.nE == [1]) = true
      ∧ ready s (.nlink g0 true false true) = true := by decide +kernel

/-- ActiveMessagesArriveAtTheInbox: an inbox with room and a full one. -/
theorem test_active_messages :
    let s := packet ⟨4, 1, 0, .amsg, 0, 0, 0, .active msg0 (some .xs) none, false, 0, Way.done⟩ handlerS
    let full := s.modWork 0 fun w => { w with inbox := List.replicate 64 ⟨msg0, 2, 0, 0, 0, 0, 0⟩ }
    (s.nextPacket 1 0 .amsg).isSome = true ∧ s.eastRow 0 = none
      ∧ ((s.handler 0 0 0 3).map fun d => (d.asv, d.xsent, Machine.meets (s.core 0).feat d.freq)) = some (true, 64, true)
      ∧ next (exec (.activeMessageArrival 1 0) s) (fun t => (t.core 0).work.inbox.map (·.msg) == [msg0]
        && t.fab.net.map (fun k => (k.dst, k.body)) == [(1, .answer .xs (.msg 0 0))]) = true
      ∧ next (exec (.activeMessageArrival 1 0) full) (fun t => (t.core 0).work.inbox.length == 64
        && t.fab.net.map (fun k => (k.dst, k.body)) == [(1, .answer .xs (.msg 1 16))]) = true := by decide +kernel

/-- DepositsFillAFreeSlot: a free slot, none free, a disabled mailbox. -/
theorem test_deposits :
    let s := packet ⟨4, 1, 0, .amsg, 0, 0, 0, .deposit 5 [0xAB, 2, 3, 4, 5, 6] (some .xs), false, 0, Way.done⟩ xs
    let full := (mb 0 5 s).setMbx 0 5 { (mb 0 5 s).mbx 0 5 with slots := [.taken, .taken] }
    next (exec (.mailboxDeposit 1 0) (mb 0 5 s)) (fun t => cpAt t 0 64 8 == 0xAB && cpAt t 0 112 8 == 1 && (t.mbx 0 5).wix == 1
        && t.fab.net.map (fun k => (k.dst, k.body)) == [(1, .answer .xs (.msg 0 0))]) = true
      ∧ next (exec (.mailboxDeposit 1 0) full) (fun t => t.fab.net.map (·.body) == [.answer .xs (.msg 1 16)] && !(t.mbx 0 5).refused) = true
      ∧ next (exec (.mailboxDeposit 1 0) s) (fun t => t.fab.net.map (·.body) == [.answer .xs (.msg 4 0)]) = true := by decide +kernel

/-- RepliesLandInTheirReservedSlot. -/
theorem test_reply_arrival :
    let s := packet ⟨4, 1, 0, .reply, 0, 0, 0, .reply 5 40 true [0xCD, 0, 0, 0, 0, 0], false, 0, Way.done⟩ (mb 0 5 xs)
    let s := s.setMbx 0 5 { s.mbx 0 5 with slots := [.free, .reserved 40 0] }
    (s.mbx 0 5).reservedAt 40 = some 1
      ∧ next (exec (.replyArrival 1 0) s) (fun t => cpAt t 0 128 8 == 0xCD && cpAt t 0 176 8 == 0x20001 && (t.mbx 0 5).count == 1) = true := by
  decide +kernel

/-- GaussianDepositsAssembleAndLand: the first packet, with a buffer and without; the last, at mailboxes of both kinds. -/
theorem test_gaussian_deposits :
    let body (b : Bool) : Body := .gauss 5 0x3F800000 0 1 [0x3F800000, 0x40000000] b (some .xs)
    let s (b : Bool) : State := packet ⟨4, 1, 0, .bulk, 0, 0, 0, body b, false, 0, Way.done⟩ xs
    let full := (s false).modWork 0 fun w => { w with asm := [(1, 0), (1, 1), (1, 2), (1, 3)] }
    let g := (s true).setMbx 0 5 (Mbx.reset.configure (1 + 2 ^ 10 + 2 ^ 14 + 2 ^ 20 + 2 ^ 21 + 2 ^ 40))
    next (exec (.gaussianFirstPacket 1 0) (s false)) (fun t => (t.core 0).work.asm == [(1, 4)]) = true
      ∧ next (exec (.gaussianFirstPacket 1 0) full) (fun t => t.fab.net.map (·.body) == [.answer .xs (.msg 1 16)]) = true
      ∧ next (exec (.gaussianDeposit 1 0) (s true)) (fun t => t.fab.net.map (·.body) == [.answer .xs (.msg 4 0)]) = true
      ∧ (g.mbx 0 5).gaussian = true ∧ (g.mbx 0 5).gaussFree = some 0 ∧ (g.mbx 0 5).rmode = 1 ∧ g.refuses 0 (g.mbx 0 5) = false
      ∧ next (exec (.gaussianDeposit 1 0) g) (fun t => cpAt t 0 64 4 == 0x3F800000 && cpAt t 0 72 3 == 0x010001 && cpAt t 0 96 8 == 0x400000003F800000) = true := by
  decide +kernel


/-! ## Vectors -/

/-- `xs` with v1 to v4, k1 = 5, s1 = 3. -/
def vecS (a b c d : Nat → Nat) : State :=
  (put (xs.modSeq fun q => q.writeK 1 5) [(1, 3)]).modMy fun t =>
    { t with vec := { t.vec with v := ((((t.vec.v.set 1 (lanes a)).set 2 (lanes b)).set 3 (lanes c)).set 4 (lanes d)) } }

/-- Elements 0 to 2 of v3 after an instruction. -/
def elems (i : Instr) (s : State) (x : XT) : Option (List Nat) :=
  match exec i s with
  | .next t => some ((List.range 3).map (elemAt x t.my.vec.v[3]))
  | _ => none

/-- VectorArithmeticResults: integer forms under the mask 5, elements 0 and 2 taken and 1 kept. -/
theorem test_vector_integers :
    let s := vecS (fun e => if e = 0 then 0x7F else 0x80) (fun e => e + 2) (fun _ => 0x11) (fun _ => 0)
    let r (i : Instr) (x : XT) : Option (List Nat) := (elems i s x).map fun l => l.map (· % 256)
    let g : Guard := ⟨false, 1⟩
    r (.vadd g .i8 false 3 1 (.vec 2)) .i8 = some [0x81, 0x11, 0x84] ∧ r (.vadd g .i8 true 3 1 (.vec 2)) .i8 = some [0x7F, 0x11, 0x84]
      ∧ r (.vsub g .i8 false 3 1 (.vec 2)) .i8 = some [0x7D, 0x11, 0x7C] ∧ r (.vsub g .i8 true 3 1 (.vec 2)) .i8 = some [0x7D, 0x11, 0x80]
      ∧ r (.vmul g .z8 3 1 (.sca (.reg 1))) .z8 = some [0x7D, 0x11, 0x80] ∧ r (.vmin g .i8 3 1 (.vec 2)) .i8 = some [2, 0x11, 0x80]
      ∧ r (.vmax g .i8 3 1 (.vec 2)) .i8 = some [0x7F, 0x11, 4] ∧ r (.vabs g .i8 3 1) .i8 = some [0x7F, 0x11, 0x80]
      ∧ r (.vneg g .i8 3 1) .i8 = some [0x81, 0x11, 0x80] ∧ r (.vand g .z8 3 1 (.vec 2)) .z8 = some [2, 0x11, 0]
      ∧ r (.vor g .z8 3 1 (.vec 2)) .z8 = some [0x7F, 0x11, 0x84] ∧ r (.vxor g .z8 3 1 (.vec 2)) .z8 = some [0x7D, 0x11, 0x84]
      ∧ r (.vshl g .z8 3 1 (.vec 2)) .z8 = some [0xFC, 0x11, 0] ∧ r (.vshr g .z8 3 1 (.vec 2)) .z8 = some [0x1F, 0x11, 8]
      ∧ r (.vsra g .i8 3 1 (.vec 2)) .i8 = some [0x1F, 0x11, 0xF8] := by decide +kernel

/-- Its FP forms: 1 + 2, 1 − 2, 1 × 2, 1 × 2 + 1, and the signs. -/
theorem test_vector_floats :
    let s := vecS (fun _ => 0x3F800000) (fun _ => 0x40000000) (fun _ => 0) (fun _ => 0x3F800000)
    let r (i : Instr) : Option Nat := (elems i s .f32).map fun l => l.headD 0
    r (.vadd g0 .f32 false 3 1 (.vec 2)) = some 0x40400000 ∧ r (.vsub g0 .f32 false 3 1 (.vec 2)) = some 0xBF800000
      ∧ r (.vmul g0 .f32 3 1 (.vec 2)) = some 0x40000000 ∧ r (.vfma g0 .f32 3 1 (.vec 2) 4) = some 0x40400000
      ∧ r (.vmin g0 .f32 3 1 (.vec 2)) = some 0x3F800000 ∧ r (.vmax g0 .f32 3 1 (.vec 2)) = some 0x40000000
      ∧ r (.vneg g0 .f32 3 1) = some 0xBF800000 ∧ r (.vabs g0 .f32 3 1) = some 0x3F800000 := by decide +kernel

theorem witness_vectors_are_ready :
    (([.vadd g0 .i8 false 3 1 (.vec 2), .vsub g0 .i8 true 3 1 (.sca (.lq 1)), .vmul g0 .f64 3 1 (.vec 2), .vfma g0 .f32 3 1 (.vec 2) 4, .vmin g0 .f32 3 1 (.vec 2),
        .vmax g0 .f32 3 1 (.vec 2), .vabs g0 .f32 3 1, .vneg g0 .i8 3 1, .vand g0 .z8 3 1 (.vec 2), .vor g0 .z8 3 1 (.vec 2), .vxor g0 .z8 3 1 (.vec 2),
        .vshl g0 .z8 3 1 (.vec 2), .vshr g0 .z8 3 1 (.vec 2), .vsra g0 .z8 3 1 (.vec 2), .vcmp g0 .i32 2 (.int .lt) 1 (.vec 2), .vsel g0 3 1 2 1,
        .vcvt g0 .f64 .f32 true 3 1, .vsplit g0 3 1, .vbcast g0 .i32 3 (.sca (.reg 1)), .vmov g0 3 1, .vmovLaneToScalar g0 .i32 (.reg 2) 1 5,
        .vmovScalarToLane g0 .i32 3 5 (.reg 1), .vld g0 .i32 false 3 1 0, .vst g0 .i32 false 1 3 0, .vgath g0 .i32 false 3 1 2, .vscat g0 .i32 false 1 2 3,
        .vstream g0 .i32 0 1, .vstop g0 0, .vshuf g0 3 1 2, .vred g0 .i32 .add (.reg 2) 1, .vscan g0 .i32 .add 3 1] : List Instr).all
        (ready xs)) = true
      ∧ Table.find xs.my.vec.streams 3 = none ∧ (src (.reg 1) xs).toOption.isSome = true := by decide +kernel

theorem witness_vector_operands : ∃ va v s1 s2, readV 1 xs = .ok (va, s1) ∧ readVSrc .i8 (.vec 2) s1 = .ok (v, s2) := ⟨_, _, _, _, rfl, rfl⟩

/-- VectorMovesComparesAndConversions: a compare, a select, a split of 1.5, a conversion to FP64, broadcasts, lanes, a
permute, and a destination in stream mode. -/
theorem test_vector_moves :
    let s := vecS (fun e => e) (fun e => if e = 1 then 0x20 else 31 - e) (fun _ => 9) (fun _ => 0x3FC00000)
    let r (i : Instr) : Option (List Nat) := elems i s .z32
    let st (v : Nat) : State := s.modMy fun t => { t with vec := { t.vec with streams := [(v, ⟨0, .i32, 0, [], false, 0, Vector.replicate 32 0⟩)] } }
    next (exec (.vcmp g0 .i32 2 (.int .lt) 1 (.vec 2)) s) (fun t => t.seq.readK 2 == 0xFFFF) = true
      ∧ next (exec (.vcmp ⟨false, 1⟩ .f32 2 (.flt .lt) 1 (.vec 4)) s) (fun t => t.seq.readK 2 == 5) = true
      ∧ r (.vsel g0 3 1 2 1) = some [0, 32, 2] ∧ r (.vshuf g0 3 1 2) = some [31, 0, 29] ∧ r (.vmov ⟨false, 1⟩ 3 1) = some [0, 9, 2]
      ∧ r (.vbcast ⟨false, 1⟩ .i32 3 (.sca (.reg 1))) = some [3, 9, 3] ∧ r (.vbcast g0 .i32 3 (.lane 1 7)) = some [7, 7, 7]
      ∧ r (.vmovScalarToLane g0 .i32 3 2 (.reg 1)) = some [9, 9, 3]
      ∧ next (exec (.vmovLaneToScalar g0 .i32 (.reg 2) 1 31) s) (fun t => t.seq.readS 2 == 31) = true
      ∧ elems (.vcvt g0 .f64 .f32 false 3 4) s .f64 = some [0x3FF8000000000000, 0x3FF8000000000000, 0x3FF8000000000000]
      ∧ r (.vcvt g0 .f32 .i32 false 3 1) = some [0, 0x3F800000, 0x40000000]
      ∧ r (.vsplit g0 3 4) = some [0x3FC0, 0x3FC0, 0x3FC0]
      ∧ next (exec (.vmov g0 25 1) (st 25)) (trapped .streamFault 25) = true := by decide +kernel

/-- ReductionsFollowTheTree: the sum of 0 to 31, a minimum under a mask, and prefixes. -/
theorem test_reductions :
    let s := vecS (fun e => e) (fun _ => 0) (fun _ => 0) (fun _ => 0)
    next (exec (.vred g0 .i32 .add (.reg 2) 1) s) (fun t => t.seq.readS 2 == 496) = true
      ∧ next (exec (.vred ⟨true, 1⟩ .i32 .min (.reg 2) 1) s) (fun t => t.seq.readS 2 == 1) = true
      ∧ next (exec (.vred ⟨false, 1⟩ .z8 .and (.reg 2) 1) s) (fun t => t.seq.readS 2 == 0) = true
      ∧ elems (.vscan g0 .i32 .add 3 1) s .z32 = some [0, 1, 3] ∧ elems (.vscan ⟨false, 1⟩ .i32 .max 3 1) s .z32 = some [0, 0, 2] := by decide +kernel

/-! ## Vector memory and the matrix array -/

/-- VectorAccessesTouchActiveElements: each access at CP 64, and each check. -/
theorem test_vector_memory :
    let s := put (cp (cp (vecS (fun e => 2 * e) (fun _ => 0xAA) (fun _ => 7) (fun _ => 0)) 64 8 0x8877665544332211) 72 8 0xFF) [(1, 64), (4, 66), (5, 65536), (6, 0xEC00)]
    let g : Guard := ⟨false, 1⟩
    (elems (.vld g .z16 false 3 1 0) s .z16 = some [0x2211, 7, 0x6655]) ∧ elems (.vgath g .i8 false 3 1 1) s .z8 = some [0x11, 7, 0x55]
      ∧ next (exec (.vst g .z8 false 1 2 1) s) (fun t => cpAt t 0 64 8 == 0x88776655AA33AA11) = true
      ∧ next (exec (.vscat g .z8 false 1 1 2) s) (fun t => cpAt t 0 64 8 == 0x887766AA443322AA) = true
      ∧ next (exec (.vld g .i32 false 3 4 0) s) (trapped .misalignedData 66) = true
      ∧ next (exec (.vst g .i32 false 5 3 0) s) (trapped .windowBounds 65536) = true
      ∧ next (exec (.vgath g .i32 false 3 6 3) s) (trapped .accessRights 0xEC1C) = true := by decide +kernel

theorem witness_vector_access :
    fine xs false 1 [0, 65535 - 0x1400] ∧ (Table.find xs.my.vec.streams 3 = none)
      ∧ xs.queuedBefore (xs.coreAccess (.cp 0 0) .r .read (.keys [Key.cp 0 0]) (Key.cp 0 0)) = false := by
  refine ⟨?_, rfl, by decide⟩
  intro a ha
  fin_cases ha <;> decide

/-- StreamsDeliverTheirVectors: a descriptor of 40 INT32 points that step 4 bytes, its checks, its vectors, its end. -/
theorem test_streams :
    let d : Nat := 2 ^ 20 + 1 * 2 ^ 288 + 1 * 2 ^ 352 + 40 * 2 ^ 416 + 4 * 2 ^ 384 + 0x100 * 2 ^ 448
    let s (n : Nat) : State := put (cp xs 64 64 n) [(1, 64), (2, 65)]
    let on (st : Stream) : State := xs.modMy fun t => { t with vec := { t.vec with streams := [(24, st)] } }
    let st (k : Nat) (l : List StreamVec) : Stream := ⟨BitVec.ofNat 512 d, .i32, k, l, false, 0, Vector.replicate 32 0⟩
    next (exec (.vstream g0 .i32 0 2) (s d)) (trapped .windowBounds 65) = true
      ∧ next (exec (.vstream g0 .i32 0 1) (s (d + 1))) (trapped .windowBounds 64) = true
      ∧ next (exec (.vstream g0 .i8 0 1) (s (d + 2 ^ 20 * 7))) (trapped .format 64) = true
      ∧ next (exec (.vstream g0 .i32 0 1) (s d)) (fun t => (Table.find t.my.vec.streams 24).isSome) = true
      ∧ (st 0 []).total = 2 ∧ (st 2 []).total ≤ (st 2 []).next ∧ ((st 0 []).due false).isSome = true ∧ (on (st 0 [])).coreRuns 0 = true
      ∧ next (exec (.vmov g0 3 24) (on (st 0 [.lanes (lanes fun e => e)]))) (fun t => (t.my.vec.v[3]) == lanes (fun e => e)) = true
      ∧ next (exec (.vmov g0 3 24) (on (st 0 [.fault .translation 5]))) (trapped .streamFault 5) = true
      ∧ next (exec (.vstop g0 0) (on (st 0 []))) (fun t => t.my.vec.streams == []) = true
      ∧ next (exec (.streamRefill 0 0) (cp (on { st 0 [] with read := 1 }) 0x110 4 0xFFFFFF80)) (fun t =>
        (Table.find t.my.vec.streams 24).map (fun q => (q.buf.length, q.read, q.lanes)) == some (0, 2, lanes fun e => if e = 1 then 0xFFFFFF80 else 0)) = true
      ∧ next (exec (.streamRefill 0 0) (cp (on { st 0 [] with read := 31 }) 0x2F0 4 9)) (fun t =>
        (Table.find t.my.vec.streams 24).map (fun q => (q.buf, q.read)) == some ([.lanes (lanes fun e => if e = 31 then 9 else 0)], 0)) = true
      ∧ next (exec (.vstop g0 0) xs) (fun t => t.seq.pc == 8) = true := by decide +kernel

/-- MatrixProductsRoundTheExactSum: a 1 by 1 product of two terms, 1.5 × 2 + 3 × 4 on a start of 1, and the two tags. -/
theorem test_mma :
    let v (n : Nat) : FVal := decodeF .f16 n
    let a : Latch := ⟨some (.plain .f16), [(0, v 0x3E00), (1, v 0x4200)]⟩
    let b : Latch := ⟨some (.plain .f16), [(0, v 0x4000), (1, v 0x4400)]⟩
    let s (a b : Latch) : State := xs.modMy fun t => { t with mat := { t.mat with la := a, lb := b, mm := 1, nm := 1, km := 2, acc := t.mat.acc.set 1 (t.mat.acc[1].set 0 0x3F800000) } }
    let f : MFmt := .plain .f16
    ready (s a b) (.mma g0 f 1) = true ∧ ready (s a b) (.mmaz g0 f 1) = true
      ∧ next (exec (.mma g0 f 1) (s a b)) (fun t => t.my.mat.acc[1][0] == 0x41800000 && t.my.mat.acc[1][1] == 0) = true
      ∧ next (exec (.mmaz g0 f 1) (s a b)) (fun t => t.my.mat.acc[1][0] == 0x41700000) = true
      ∧ next (exec (.mma g0 f 1) (s Latch.empty b)) (trapped .format 1) = true
      ∧ next (exec (.mmaz g0 f 1) (s a Latch.empty)) (trapped .format 2) = true := by decide +kernel

/-- MatrixLoadsStoresAndMasks: 1.5 and 2 stored as one block of FP16 elements with scale 1, and read again by each load. -/
theorem test_matrix_loads_and_stores :
    let s : State := put (xs.modMy fun t => { t with mat := { t.mat with mm := 1, nm := 2, km := 2, acc := t.mat.acc.set 1 ((t.mat.acc[1].set 0 0x3FC00000).set 1 0x40000000) } }) [(1, 1024), (4, 1)]
    let f : MFmt := .plain .f16
    let l (t : State) (i : Instr) (f : State → Bool) : Bool := next (exec i t) f
    next (exec (.mstacc g0 .f16 false 1 1 0 127 0) s) (fun t => cpAt t 0 1026 4 == 0x40003E00
      && (l t (.mlda g0 f false 1 0 0) fun u => u.my.mat.la.vals.map (·.2) == [.fin false 6144 (-12), .fin false 4096 (-11)] && u.my.mat.la.tag == some f)
      && (l t (.mldb g0 f false 1 4 0) fun u => u.my.mat.lb.vals.length == 4 && u.my.mat.lb.tag == some f)
      && (l t (.mgath g0 f false 1 2 0) fun u => u.my.mat.la.vals.map (·.2) == [.fin false 6144 (-12), .fin false 4096 (-11)])
      && (l t (.mldacc g0 .f16 false 2 1 0) fun u => u.my.mat.acc[2][0] == 0x3FC00000 && u.my.mat.acc[2][1] == 0x40000000)) = true := by decide +kernel

/-- Its checks, with masks of 1 by 1: loads of a block of FP32 elements at CP 1024 with masks of 1 by 2, a store, and each check. -/
theorem test_matrix_memory :
    let m : State := xs.modMy fun t => { t with mat := { t.mat with mm := 1, nm := 1, km := 2 } }
    let s := put (cp m 1024 32 0xFF) [(1, 1024), (3, 1025)]
    let f : MFmt := .plain .f16
    next (exec (.mlda g0 f false 3 2 0) s) (trapped .misalignedData 1025) = true
      ∧ next (exec (.mldb g0 f false 3 2 0) s) (trapped .misalignedData 1025) = true
      ∧ next (exec (.mgath g0 f false 3 2 0) s) (trapped .misalignedData 1025) = true
      ∧ next (exec (.mldacc g0 .f32 false 0 3 2) s) (trapped .misalignedData 1025) = true
      ∧ next (exec (.mstacc g0 .f32 false 0 3 2 0 0) s) (trapped .misalignedData 1025) = true
      ∧ next (exec (.mstacc g0 .f32 false 0 3 2 0xFF 0) s) (trapped .format 0) = true
      ∧ next (exec (.mclr g0 1) (s.modMy fun t => { t with mat := { t.mat with acc := t.mat.acc.set 1 (t.mat.acc[1].set 3 9) } })) (fun t => t.my.mat.acc[1][3] == 0) = true
      ∧ next (exec (.mmask g0 4 31 255) s) (fun t => t.my.mat.mm == 5 && t.my.mat.nm == 32 && t.my.mat.km == 256) = true := by decide +kernel


/-! ## Barriers and semaphores -/

/-- BarrierArrivalsFlipThePhase: the cases where its clauses meet. -/
theorem test_barrier_arrivals :
    (⟨false, 3, 0, 0, 0⟩ : Lb).arrive 0 = none ∧ (⟨false, 0, 1, 0, 0⟩ : Lb).arrive 1 = none ∧ (⟨false, 65535, 1, 0, 0⟩ : Lb).arrive 2 = none
      ∧ (⟨false, 3, 2, 0, 0⟩ : Lb).arrive 1 = some ⟨false, 3, 1, 0, -1⟩ ∧ (⟨false, 3, 1, 5, 0⟩ : Lb).arrive 0 = some ⟨false, 3, 0, 5, 0⟩
      ∧ (⟨false, 3, 1, 0, -1⟩ : Lb).arrive 0 = some ⟨true, 2, 2, 0, 0⟩ ∧ (⟨true, 3, 1, 0, 0⟩ : Lb).arrive 2 = some ⟨false, 4, 4, 0, 0⟩
      ∧ (⟨true, 3, 0, 0, 0⟩ : Lb).retire 7 = (⟨true, 3, 0, 0, 0⟩, 7) ∧ (⟨true, 3, 1, 5, 0⟩ : Lb).retire 7 = (⟨true, 3, 1, 0, 0⟩, 2)
      ∧ (⟨true, 3, 0, 5, 1⟩ : Lb).retire 7 = (⟨false, 4, 4, 0, 0⟩, 2) ∧ (⟨true, 3, 0, 9, 1⟩ : Lb).retire 7 = (⟨true, 3, 0, 2, 1⟩, 0) := by decide

/-- A wait's four ends (`waitsOn`): poison, an expired time-out, a plain wait, a withheld object. -/
def waits (i : Instr) (o : ObjRef) (s : State) : Bool :=
  ready s i && next (exec i (poison o s)) (trapped .withheldAbort (objEntry 0 o))
    && next (exec i (s.modSeq fun c => { c with wait := some ⟨.object o, 0, some 0, none⟩ })) (fun t => t.seq.readS 3 == -1 && t.seq.wait == none)
    && next (exec i s) (fun t => (t.seq.wait.map fun w => (w.why, w.left)) == some (.object o, some 5) && t.seq.pc == 0)
    && next (exec i (held o s)) (fun t => !(t.core 0).running && (t.part 0).parked.any fun k => k.place == 0 && !k.ready)

/-- LocalBarrierInstructions: own and remote arrivals, the misuse and the wait. -/
theorem test_local_barriers :
    let s := put (xs.setLb 0 7 ⟨true, 3, 1, 0, 0⟩) [(1, 1), (2, 0x10005), (4, 64), (5, 0xFFFFFF)]
    (s.checkCore 1 = .ok 1) ∧ (s.checkCore 64 = .error .permission)
      ∧ next (exec (.lbinit g0 2 7) s) (fun t => t.lb 0 7 == ⟨false, 5, 5, 0, 0⟩) = true
      ∧ next (exec (.lbarr g0 0 7) s) (fun t => t.lb 0 7 == ⟨false, 3, 3, 0, 0⟩) = true
      ∧ next (exec (.lbdrop g0 0 7) s) (fun t => t.lb 0 7 == ⟨false, 2, 2, 0, 0⟩) = true
      ∧ next (exec (.lbjoin g0 0 7) s) (fun t => t.lb 0 7 == ⟨false, 4, 4, 0, 0⟩) = true
      ∧ next (exec (.lbarr g0 0 8) s) (trapped .queueMisuse 8) = true
      ∧ next (exec (.lbarr g0 1 7) s) (fun t => t.fab.net.map (fun k => (k.dst, k.vn, k.body)) == [(1, .sync, .lbArr 0 7)]) = true
      ∧ next (exec (.lbdrop g0 1 7) s) (fun t => t.fab.net.map (·.body) == [.lbArr 1 7]) = true
      ∧ next (exec (.lbjoin g0 4 7) s) (caused .permission) = true
      ∧ next (exec (.lbexp g0 1 7) s) (fun t => (t.lb 0 7).txb == 1) = true
      ∧ next (exec (.lbexp g0 5 7) (s.setLb 0 7 ⟨true, 3, 1, 1, 0⟩)) (trapped .queueMisuse 7) = true
      ∧ next (exec (.lbwait g0 3 0 5 true 7) s) (fun t => t.seq.readS 3 == 0 && t.seq.pc == 8) = true
      ∧ waits (.lbwait g0 3 0 5 false 7) ⟨.lb, 0, 7⟩ s = true
      ∧ next (exec (.lbtest g0 3 7) s) (fun t => t.seq.readS 3 == 0x8000000000010003) = true := by decide +kernel

/-- Its arrivals from afar. -/
theorem test_barrier_remote_arrivals :
    let s (b : Body) : State := packet ⟨4, 1, 0, .sync, 0, 0, 0, b, false, 0, Way.done⟩ (xs.setLb 0 7 ⟨true, 3, 2, 0, 0⟩)
    next (exec (.lbRemoteArrival 1 0) (s (.lbArr 0 7))) (fun t => t.lb 0 7 == ⟨true, 3, 1, 0, 0⟩ && t.fab.net == []) = true
      ∧ next (exec (.lbRemoteArrival 1 0) (s (.lbArr 0 8))) (fun t => t.logs == [.badArrival 0 8]) = true
      ∧ next (exec (.semRemoteSignal 1 0) (s (.semSig 200 5))) (fun t => t.sem 0 200 == 5) = true := by decide +kernel

/-- A mesh barrier of cores 0 and 1 of cluster 0, tag 7. -/
def meshBlock : BitVec 128 := BitVec.ofNat 128 (3 * 2 ^ 32 + 7 * 2 ^ 48)

/-- MeshBarrierInstructions: the configuration's checks in their order, an arrival, waits and the selected words. -/
theorem test_mesh_barriers :
    let s (n : Nat) : State := put (cp xs 64 16 n) [(1, 64), (2, 65)]
    let m : State := xs.setMsh 0 2 { Msh.reset with block := meshBlock, ph := true, burr := ⟨3, 9, 4, 2, 1⟩ }
    next (exec (.mshcfg g0 2 2) (s 0)) (caused .windowBounds) = true ∧ next (exec (.mshcfg g0 1 2) (s 0)) (caused .windowBounds) = true
      ∧ next (exec (.mshcfg g0 1 2) (s (1 + 2 ^ 32 + 63 * 2 ^ 16))) (caused .windowBounds) = true
      ∧ next (exec (.mshcfg g0 1 2) { s (2 ^ 32 + 63 * 2 ^ 16) with variant := .dl8 }) (caused .placeInvalid) = true
      ∧ next (exec (.mshcfg g0 1 2) (s (2 ^ 33))) (caused .windowBounds) = true
      ∧ next (exec (.mshcfg g0 1 2) (s (2 ^ 32 + 2 ^ 16))) (caused .permission) = true
      ∧ next (exec (.mshcfg g0 1 2) (s meshBlock.toNat)) (fun t => (t.msh 0 2).block == meshBlock && t.seq.pc == 8) = true
      ∧ next (exec (.mshar g0 3) m) (trapped .queueMisuse 3) = true
      ∧ next (exec (.mshar g0 2) m) (fun t => (t.msh 0 2).arr && t.fab.net.map (·.body) == [.meshArr 0 2 7 ⟨[0], 0, 0, 0⟩]) = true
      ∧ next (exec (.mshwait g0 3 0 5 true 3) m) (trapped .queueMisuse 3) = true
      ∧ next (exec (.mshstat g0 3 0 3) m) (fun t => t.seq.readS 3 == 0 && t.seq.pc == 8) = true
      ∧ next (exec (.mshwait g0 3 0 5 true 2) m) (fun t => t.seq.readS 3 == 0 && t.seq.pc == 8) = true
      ∧ waits (.mshwait g0 3 0 5 false 2) ⟨.msh, 0, 2⟩ m = true
      ∧ next (exec (.mshstat g0 3 0 2) m) (fun t => t.seq.readS 3 == 3) = true ∧ next (exec (.mshstat g0 3 1 2) m) (fun t => t.seq.readS 3 == 9) = true
      ∧ next (exec (.mshstat g0 3 2 2) m) (fun t => t.seq.readS 3 == 0x400020001) = true
      ∧ next (exec (.mshstat g0 3 3 2) m) (fun t => t.seq.readS 3 == 1) = true := by decide +kernel

/-- MeshArrivalsCombineToARelease: a bad arrival, one of two, the other after it, both at once, and what a release and a change of W do. -/
theorem test_mesh_arrivals :
    let m : State := xs.setMsh 0 2 { Msh.reset with block := meshBlock }
    let arr (n : Nat) (p : Place) (tag : BitVec 16) (at_ : Nat) (s : State) : State :=
      packet ⟨n, p, 65536, .sync, 0, 0, 0, .meshArr 0 2 tag ⟨[p], at_, at_, p⟩, false, 0, Way.done⟩ s
    next (exec (.meshArrivalCombine 0 0 2) (arr 4 0 8 3 m)) (fun t => t.logs == [.badArrival 0 2] && t.fab.net == []) = true
      ∧ (meshBehind meshBlock 0 = [0, 1])
      ∧ next (exec (.meshArrivalCombine 0 0 2) (arr 4 0 7 3 m)) (fun t => t.fab.net == [] && (t.msh 0 2).arrived == [(0, 7, ⟨[0], 3, 3, 0⟩)]) = true
      ∧ next (exec (.meshArrivalCombine 0 0 2) (arr 5 1 7 9 (xs.setMsh 0 2 { Msh.reset with block := meshBlock, arrived := [(0, 7, ⟨[0], 3, 3, 0⟩)] }))) (fun t =>
        t.fab.net.map (fun k => (k.dst, k.body)) == [(0, .meshRel 2 ⟨3, 9, 0, 1, 1⟩), (1, .meshRel 2 ⟨3, 9, 0, 1, 1⟩)] && (t.msh 0 2).arrived == []) = true
      ∧ next (exec (.meshArrivalCombine 0 0 2) (arr 5 1 7 9 (arr 4 0 7 3 m))) (fun t =>
        t.fab.net.map (fun k => (k.dst, k.body)) == [(0, .meshRel 2 ⟨3, 9, 0, 1, 1⟩), (1, .meshRel 2 ⟨3, 9, 0, 1, 1⟩)]) = true
      ∧ next (exec (.meshRelease 0 0 2) (packet ⟨4, 0, 0, .sync, 0, 0, 0, .meshRel 2 ⟨3, 9, 0, 1, 1⟩, false, 0, Way.done⟩ m)) (fun t => (t.msh 0 2).ph && (t.msh 0 2).burr == ⟨3, 9, 0, 1, 1⟩) = true
      ∧ next (exec (.meshWUpdate 0 0 2) (packet ⟨4, 0, 0, .sync, 0, 0, 0, .meshW 2 true, false, 0, Way.done⟩ m)) (fun t => (t.msh 0 2).w) = true := by decide +kernel

/-- SemaphoresCount. -/
theorem test_semaphores :
    let s := put (xs.setSem 0 200 4) [(1, 1), (2, 3), (4, 64), (5, 0xFFFFFFFF)]
    next (exec (.semwait g0 3 0 2 5 200) s) (fun t => t.seq.readS 3 == 0 && t.sem 0 200 == 1) = true
      ∧ waits (.semwait g0 3 0 5 5 200) ⟨.sem, 0, 200⟩ s = true
      ∧ next (exec (.semsig g0 0 0 200) s) (fun t => t.sem 0 200 == 5) = true ∧ next (exec (.semsig g0 0 5 200) s) (fun t => t.sem 0 200 == 0xFFFFFFFF) = true
      ∧ next (exec (.semsig g0 1 2 9) s) (fun t => t.fab.net.map (fun k => (k.dst, k.body)) == [(1, .semSig 9 3)]) = true
      ∧ next (exec (.semsig g0 4 2 9) s) (caused .permission) = true
      ∧ next (exec (.semset g0 2 200) (poison ⟨.sem, 0, 200⟩ s)) (fun t => t.sem 0 200 == 3 && (t.part 0).pois == []) = true
      ∧ next (exec (.semget g0 3 200) (held ⟨.sem, 0, 200⟩ s)) (fun t => t.seq.readS 3 == 4 && t.my.csr.holdst.w) = true := by decide +kernel

theorem witness_sync_forms_are_ready :
    (([.lbinit g0 1 7, .lbarr g0 0 7, .lbdrop g0 1 7, .lbjoin g0 0 7, .lbexp g0 1 7, .lbwait g0 3 0 5 true 7, .lbtest g0 3 7, .mshcfg g0 1 2, .mshar g0 2,
        .mshwait g0 3 0 5 true 2, .mshstat g0 3 0 2, .semwait g0 3 0 0 5 200, .semsig g0 0 0 200, .semset g0 1 200, .semget g0 3 200] : List Instr).all (ready xs)) = true
      ∧ xs.released 0 .xs = true := by decide

/-! ## Holds, deadlines, fences, tasks, triggers -/

/-- HoldsParkAndRelease: entries and their checks, a hold and its release from another core, an end, a reading. -/
theorem test_holds :
    let s := put xs [(1, 0x10000805), (2, 0x10000905), (4, 0x20000850), (5, 0x10040005), (6, 1)]
    next (exec (.declare g0 6) s) (caused .windowBounds) = true ∧ next (exec (.declare g0 2) s) (caused .windowBounds) = true
      ∧ next (exec (.declare g0 5) s) (caused .permission) = true ∧ next (exec (.holdstObj g0 3 4) s) (trapped .windowBounds 0x50) = true
      ∧ next (exec (.declare g0 1) s) (fun t => t.my.act.declared == [⟨.sem, 0, 5⟩]) = true
      ∧ next (exec (.declare g0 1) (s.modMy fun t => { t with act := { t.act with declared := List.replicate 16 ⟨.tc, 0, 0⟩ } })) (trapped .queueMisuse 16) = true
      ∧ next (exec (.declare g0 1) (s.modMy fun t => { t with act := { t.act with declared := [⟨.sem, 0, 5⟩] } })) (fun t => t.my.act.declared.length == 1 && t.seq.pc == 8) = true
      ∧ next (exec (.holdstObj g0 3 1) (held ⟨.sem, 0, 5⟩ s)) (fun t => t.seq.readS 3 == 0x900000001) = true
      ∧ next (exec (.hold g0) s) (fun t => !(t.core 0).running && (t.part 0).parked.map (fun k => (k.place, k.hold, k.st.xs.pc)) == [(0, 1, 8)]) = true := by
  decide +kernel

/-- Its `holdx`, `rel`, `rel.end` and `holdst`: a root held in slot 1, and none. -/
theorem test_releases :
    let s := put xs [(1, 1), (2, 64), (4, 9)]
    let k : Parked := ⟨2, { Strand.reset with act := { Act.reset with sid := 55 } }, 1, false, 0, 1, [], false, 1, 0, 0⟩
    let h := (put (atLevel .supervisor) [(1, 1), (4, 9)]).modPart 0 fun t => { t with holds := [(1, ⟨0, .held, 0, true, 2, 55⟩)], parked := [k], marks := [⟨⟨.sem, 0, 5⟩, 1, 55⟩] }
    (s.part 0).freeSlot = some 1 ∧ ((h.part 0).heldRoot 1).isSome = true ∧ ((s.part 0).heldRoot 1).isNone = true ∧ ((h.part 0).holdOf 9).isNone = true
      ∧ next (exec (.holdx g0 3 2) (atLevel .supervisor |> fun t => put t [(2, 64)])) (caused .permission) = true
      ∧ next (exec (.holdx g0 3 1) (put (atLevel .supervisor) [(1, 1)])) (fun t => t.seq.kept == [.word 0x10000 true] && t.seq.pc == 0) = true
      ∧ next (exec (.holdx g0 3 1) ((put (atLevel .supervisor) [(1, 1)]).modSeq fun c => { c with kept := [.word 5 true] })) (fun t => t.seq.readS 3 == 5 && t.seq.pc == 8) = true
      ∧ next (exec (.rel g0 3 4) h) (fun t => t.seq.readS 3 == 1) = true ∧ next (exec (.relEnd g0 3 4) h) (fun t => t.seq.readS 3 == 1) = true
      ∧ next (exec (.rel g0 3 1) h) (fun t => t.seq.readS 3 == 0 && (t.part 0).parked.map (·.ready) == [true] && ((t.part 0).hold 1).phase == .ready) = true
      ∧ next (exec (.relEnd g0 3 1) h) (fun t => t.seq.readS 3 == 0 && (t.part 0).parked == [] && (t.part 0).pois == [⟨.sem, 0, 5⟩] && (t.part 0).marks == []) = true
      ∧ next (exec (.holdst g0 3 4) h) (fun t => t.seq.readS 3 == 0) = true ∧ next (exec (.holdst g0 3 1) h) (fun t => t.seq.readS 3 == 0x100020001) = true := by
  decide +kernel

/-- DeadlinesAndFences: both forms of `dline`; a fence that is met, and one that an sq store keeps. -/
theorem test_deadlines_and_fences :
    let s := put { xs with tick := 10 } [(1, 5), (2, -3)]
    let b := as_.modMy fun t => { t with q := { t.q with sq := [⟨.cp, 0, 1, 1⟩] } }
    next (exec (.dline g0 1) s) (fun t => t.my.csr.deadline == 5) = true ∧ next (exec (.dlineRel g0 1) s) (fun t => t.my.csr.deadline == 15) = true
      ∧ next (exec (.dlineRel g0 2) s) (fun t => t.my.csr.deadline == -1) = true
      ∧ xs.fenceMet .all .system xs.fenceNote = true
      ∧ next (exec (.fence g0 .all .all .system) xs) (fun t => t.seq.pc == 8 && t.me.interval == 1) = true
      ∧ (xs.modMy fun t => { t with q := { t.q with sq := [⟨.cp, 0, 1, 1⟩] } }).fenceMet .core .core xs.fenceNote = false
      ∧ next (exec (.fence g0 .core .all .core) (xs.modMy fun t => { t with q := { t.q with sq := [⟨.cp, 0, 1, 1⟩] } })) (fun t => t.seq.pc == 0 && (t.seq.wait.map (·.why)) == some .fence) = true
      ∧ b.my.q.sq.length = 1 := by decide +kernel

/-- TasksSpawnAndDistribute: a deque with room and a full one, a launch's range, a work-id field. -/
theorem test_tasks :
    let s := put xs [(1, 2 ^ 26), (2, 0x1234), (5, 7), (6, 0b110101)]
    let l : Launch := ⟨⟨1, 0, 0, 0, [], 0, 0, 208, 1000, 0, false⟩, .host (.pf 0) 4 0, 900, true, 0, none, false, false, false, false, false, false, 0⟩
    let full := s.modWork 0 fun w => { w with deque := List.replicate 32 ⟨9, [], 0, 0, 0, 0, 0, 0, 0, 208, [], 0, PubSet.none⟩ }
    next (exec (.spawn g0 1 0) s) (trapped .windowBounds 0x4000000) = true
      ∧ next (exec (.spawn g0 2 5) s) (fun t => t.me.work.deque.map (fun k => (k.word0, k.wid, k.payload)) == [(0x1234, 7, [0x4000000, 0x1234, 0, 0, 7, 0b110101])]) = true
      ∧ full.me.work.deque.length = 32
      ∧ next (exec (.dist g0 3) s) (fun t => t.seq.pc == 8) = true
      ∧ next (exec (.widx g0 3 6 1) (s.modMy fun t => { t with csr := { t.csr with wfw := 0b000011000010 } })) (fun t => t.seq.readS 3 == 0b101) = true
      ∧ l.n = 900 := by decide +kernel

/-- TriggersCountToTheirMessage. -/
theorem test_triggers :
    let blk : Nat := 7 + 2 * 2 ^ 16 + 1 * 2 ^ 32 + 0x305 * 2 ^ 64 + 0xAB * 2 ^ 128
    let s (n : Nat) : State := put (cp xs 64 64 n) [(1, 64), (2, 65), (4, 1), (5, 7)]
    let t0 : Trig := ⟨true, 7, 2, 0, 1, 0x305, [0xAB, 0, 0, 0, 0, 0], 0⟩
    let i (c : Nat) : State := packet ⟨4, 1, 0, .sync, 0, 0, 0, .trigInc 7, false, 0, Way.done⟩ (xs.setTrigger 0 3 { t0 with count := c })
    next (exec (.trig g0 2 3) (s blk)) (caused .windowBounds) = true ∧ next (exec (.trig g0 1 3) (s 7)) (caused .windowBounds) = true
      ∧ next (exec (.trig g0 1 3) (s blk)) (fun t => t.trigger 0 3 == t0 && t.seq.pc == 8) = true
      ∧ next (exec (.trigDisarm g0 3) (i 0)) (fun t => !(t.trigger 0 3).armed) = true
      ∧ next (exec (.trigd g0 2 5) (s 0)) (caused .permission) = true
      ∧ next (exec (.trigd g0 4 5) (s 0)) (fun t => t.fab.net.map (fun k => (k.dst, k.body)) == [(1, .trigInc 7)]) = true
      ∧ (i 0).armedFor 0 7 = [3] ∧ (i 0).armedFor 0 8 = []
      ∧ next (exec (.triggerIncrement 1 0) (i 0)) (fun t => (t.trigger 0 3).count == 1 && (t.trigger 0 3).armed && t.fab.net == []) = true
      ∧ next (exec (.triggerIncrement 1 0) (i 1)) (fun t => !(t.trigger 0 3).armed && (t.fab.net.map fun k => (k.dst, k.vn)) == [(1, .amsg)]) = true := by
  decide +kernel

theorem witness_task_forms_are_ready :
    (([.declare g0 1, .hold g0, .holdst g0 3 1, .holdstObj g0 3 1, .dline g0 1, .dlineRel g0 1, .fence g0 .all .all .system, .spawn g0 1 0,
        .dist g0 3, .widx g0 3 1 0, .trig g0 1 3, .trigDisarm g0 3, .trigd g0 1 2] : List Instr).all (ready xs)) = true
      ∧ (([.holdx g0 3 1, .rel g0 3 1, .relEnd g0 3 1] : List Instr).all (ready (atLevel .supervisor))) = true := by decide


/-! ## Engines -/

/-- EngineInstructionsSendTheirCommand: PLACE, the block's window, the wait, and the command sent. -/
theorem test_engine_issue :
    let s := cp xs 1024 80 copyBlk
    let r := cp xs 1024 80 (9 + (4096 + 1 * 2 ^ 34 + 64 * 2 ^ 48 + 10 * 2 ^ 64 + 20 * 2 ^ 70) * 2 ^ 128 + (patt 0 128 + 3 * 2 ^ 116) * 2 ^ 256)
    let fits (i : Instr) (k : CmdKind) (s : State) : Bool := next (exec i s) fun t => t.cmds.map (fun c => (c.id, c.kind, c.phase, c.user)) == [(1, k, .sent, true)] && t.seq.pc == 16
    next (exec (.cpy g0 (eng 1 0)) s) (caused .placeInvalid) = true
      ∧ next (exec (.cpy g0 (eng (64 * 8) 0)) s) (caused .permission) = true
      ∧ next (exec (.cpy g0 ⟨0, 0xFFF, 4, 0, 5, 2⟩) s) (caused .windowBounds) = true
      ∧ next (exec (.cpy g0 (eng 0 1)) (poison ⟨.sem, 0, 4⟩ s)) (trapped .withheldAbort 0x10000804) = true
      ∧ next (exec (.cpy g0 (eng 0 1)) s) (fun t => t.cmds == [] && t.seq.wait.isSome) = true
      ∧ fits (.cpy g0 (eng 0 0)) .cpy s = true ∧ fits (.cpyr g0 (eng 0 1)) .cpyr (s.setSem 0 4 1) = true ∧ fits (.cpym g0 (eng 0 0)) .cpym s = true
      ∧ fits (.bte g0 (eng 0x4000 0)) .bte s = true ∧ fits (.coll g0 (eng 0 0)) .coll s = true ∧ fits (.xfer g0 (eng 0xC000 0)) .xfer s = true
      ∧ fits (.subscribe g0 3 (eng 0x4000 0)) .sub r = true ∧ fits (.drain g0 3 (eng 0x4000 0)) .drain r = true ∧ fits (.unsub g0 3 (eng 0x4000 0)) .unsub r = true
      ∧ fits (.rlcrun g0 (eng 0 0)) .rlc (s.modMe fun c => { c with feat := 0x1F }) = true
      ∧ next (exec (.subscribe g0 3 (eng 0x4000 0)) s) (fun t => t.seq.level == .supervisor) = true := by decide +kernel

/-- EngineCommandsRunToCompletion: acceptance, a bad block, each byte that lands, completion, and a full BTE. -/
theorem test_engine_commands :
    let st (t : State) : Option Phase := (t.cmd 1).map (·.phase)
    next (exec (.engineAccept 1) (withCmd (comm .cpy .sent copyBlk 80))) (fun t => st t == some .accepted) = true
      ∧ next (exec (.engineAccept 1) (withCmd (comm .cpy .sent (copyBlk + 2 ^ 120) 80))) (fun t => st t == some (.landed 1)) = true
      ∧ next (exec (.engineWriteLand 1) (withCmd (comm .cpy .accepted copyBlk 80))) (fun t => cpAt t 0 3072 2 == 0xAA && (t.cmd 1).map (·.front) == some 1 && st t == some .accepted) = true
      ∧ next (exec (.engineWriteLand 1) (withCmd { comm .cpy .accepted copyBlk 80 with front := 1 })) (fun t => cpAt t 0 3073 1 == 0xBB && st t == some (.landed 0)) = true
      ∧ next (exec (.engineWriteLand 1) (withCmd { comm .cpym .accepted copyBlk 112 with front := 1 })) (fun t => (t.cmd 1).map (·.matPending) == some true && st t == some .accepted) = true
      ∧ next (exec (.engineComplete 1) (withCmd (comm .cpy (.landed 8) copyBlk 80))) (fun t => st t == some .done && cpAt t 0 1038 1 == 8 && t.sem 0 5 == 2
        && t.fab.net.map (fun k => (k.dst, k.body)) == [(1, .trigInc 7)]) = true
      ∧ (withCmd (comm .cpy (.landed 8) copyBlk 80)).statConflict (comm .cpy (.landed 8) copyBlk 80) = false := by decide +kernel

/-- Its streamer clauses: a ring of two slots of 64 bytes at CP 4096, barriers 10 and 20; a tile that is ready. -/
theorem test_streamer :
    let ring : Nat := 4096 + 1 * 2 ^ 34 + 64 * 2 ^ 48 + 10 * 2 ^ 64 + 20 * 2 ^ 70
    let c := comm .sub .accepted (9 + ring * 2 ^ 128 + (patt 0 128 + 3 * 2 ^ 116) * 2 ^ 256) 80
    let s := (withCmd c).setLb 0 20 ⟨false, 1, 1, 0, 0⟩
    ringFull c.ringBody = 10 ∧ ringEmpty c.ringBody = 20 ∧ ringDepth c.ringBody = 2 ∧ c.perTile = 64
      ∧ next (exec (.streamerTile 1) s) (fun t => (t.cmd 1).map (·.tileOpen) == some true) = true ∧ s.tileReady c = true := by decide +kernel

/-- EngineEventsFollowTheirRules: a reduction applied once, and not again; a follow-on; a fault that stops its command, and
its delivery at a running core and at one without a strand. -/
theorem test_engine_events :
    let red : Cmd := comm .cpyr .accepted (9 + patt 2048 1 * 2 ^ 128 + (patt 3072 1 + 2 ^ 131) * 2 ^ 384) 80
    let fol : Cmd := { comm .cpym .accepted (copyBlk + ((encode (.mclr g0 1)).getD (0, 0)).2 * 2 ^ 640) 112 with matPending := true }
    let s := withCmd red
    let fault : State := xs.modMe fun c => { c with pendFaults := [(9, 1)] }
    s.unapplied red [0] = [0]
      ∧ next (exec (.reduceApply 1) s) (fun t => cpAt t 0 3072 2 == 0xAA && t.fab.reduced == s.packets red 1 0 [0] && (t.cmd 1).map (·.front) == some 1) = true
      ∧ next (exec (.reduceApply 1) { s with fab := { s.fab with reduced := s.packets red 1 0 [0] } }) (fun t => cpAt t 0 3072 2 == 0 && (t.cmd 1).map (·.front) == some 1) = true
      ∧ next (exec (.cpymFollowOn 1) ((withCmd fol).modMy fun t => { t with mat := { t.mat with acc := t.mat.acc.set 1 (t.mat.acc[1].set 0 5) } })) (fun t =>
        (t.cmd 1).map (·.phase) == some (.landed 0) && t.my.mat.acc[1][0] == 0) = true
      ∧ next (exec (.cpymFollowOn 1) (withCmd { fol with sid := 7 })) (fun t => (t.cmd 1).map (·.phase) == some (.landed 8)) = true
      ∧ next (exec (.cpymFollowOn 1) ((withCmd fol).modMe fun c => { c with running := false })) (fun t => (t.cmd 1).map (·.phase) == some (.landed 8)) = true
      ∧ fault.coreStill 0 = false
      ∧ next (exec (.engineFaultDelivery 0) fault) (fun t => t.me.pendFaults == [] && trapped .engineFault 9 t && t.seq.level == .supervisor) = true
      ∧ next (exec (.engineFaultDelivery 0) (fault.modMe fun c => { c with running := false })) (fun t => t.me.pendFaults == [] && t.seq.level == .user) = true := by
  decide +kernel


/-! ## The refinement loop controller -/

/-- RefinementInstructions: the pending mark, the status of an idle controller, an abort with no run, with one, and answered. -/
theorem test_refinement_instructions :
    let m : State := xs.modMe fun c => { c with rlcTrap := some 0x7 }
    let c : Cmd := comm .rlc .accepted 9 80
    let run : RlcRun := ⟨1, false, 2, 1, 2, 4, 0, 3, 0, [], [], [], [], [], [], [], [], FVal.zero, FVal.zero⟩
    let r : State := ({ xs with cmds := [c] } : State).modClus 0 fun k => { k with rlc := { k.rlc with run := some run } }
    next (exec (.rlcstat g0 3) m) (fun t => trapped .refinement 7 t && t.me.rlcTrap == none) = true
      ∧ next (exec (.rlcrun g0 (eng 0 0)) m) (fun t => trapped .refinement 7 t && t.cmds == []) = true
      ∧ next (exec (.rlcstat g0 3) (xs.modClus 0 fun k => { k with rlc := { k.rlc with rnorm := 0x3F800000, iter := 5, rung := 2, exit := 3 } })) (fun t => t.seq.readS 3 == 0x3F80000000052300) = true
      ∧ next (exec (.rlcstat g0 3) r) (fun t => t.seq.readS 3 &&& 3 == 2) = true
      ∧ xs.rlcRunning 0 = none ∧ next (exec (.rlcabort g0 3) xs) (fun t => t.seq.readS 3 == 1) = true
      ∧ (r.rlcRunning 0).isSome = true ∧ next (exec (.rlcabort g0 3) r) (fun t => (t.clus 0).rlc.abortBy == [(0, 0)] && t.seq.pc == 0) = true
      ∧ next (exec (.rlcabort g0 3) (xs.modSeq fun c => { c with kept := [.word 0 true] })) (fun t => t.seq.readS 3 == 0 && t.seq.pc == 8) = true
      ∧ (ready xs (.rlcstat g0 3) && ready xs (.rlcabort g0 3) && ready xs (.rlcrun g0 (eng 0 0))) = true := by decide +kernel

/-- A run of order 32 whose regions start at CM 0, 4096, 8192, 16384 and 32768; TOL is 1. -/
def runCmd : Cmd := comm .rlc .accepted (9 + (4096 * 2 ^ 32 + 8192 * 2 ^ 64 + 16384 * 2 ^ 96 + 32768 * 2 ^ 128 + 2 ^ 160 + 4 * 2 ^ 164 + 100 * 2 ^ 176
  + 0x3F800000 * 2 ^ 192 + 0x3F000000 * 2 ^ 224 + 0x3F800000 * 2 ^ 256) * 2 ^ 128) 80
/-- `xs` with that run in progress at a step. -/
def running (f : Bool) (k : Nat) (by_ : List (Place × Nat)) : State :=
  let run : RlcRun := ⟨1, f, k, 0, 2, 4, 0, 3, 0, [], [], [], [FVal.zero], [], [decodeF .f32 0x3F800000], [], [], FVal.zero, FVal.zero⟩
  ({ xs with cmds := [runCmd] } : State).modClus 0 fun k => { k with rlc := { k.rlc with run := some run, abortBy := by_ } }

/-- RefinementRunsItsSteps: a run at the queue's head, one in progress, step 3, and an abort. -/
theorem test_refinement_steps :
    let start : State := ({ xs with cmds := [runCmd] } : State).modClus 0 fun k => { k with rlc := { k.rlc with queue := [1] } }
    (start.rlcHead 0).isSome = true ∧ start.fab.ranges = []
      ∧ ((running false 2 []).rlcRunning 0).isSome = true ∧ ((running true 0 []).rlcRunning 0).isSome = true
      ∧ next (exec (.rlcStep 0) (running false 2 [])) (fun t => ((t.clus 0).rlc.run.map fun r => (r.substep, r.iter, r.x)) == some (3, 4, [decodeF .f32 0x3F800000])) = true := by decide +kernel

theorem test_refinement_abort :
    next (exec (.rlcStep 0) (running false 2 [(0, 4)])) (fun t => (t.clus 0).rlc.exit == 4 && (t.cmd 1).map (·.phase) == some (.landed 8)) = true := by decide +kernel

theorem test_refinement_converges :
    next (exec (.rlcStep 0) (running false 3 [])) (fun t => (t.clus 0).rlc.exit == 0 && (t.cmd 1).map (·.phase) == some (.landed 0)) = true := by decide +kernel

/-- Its column clauses: a column either factors or fails. -/
theorem witness_columns (m : List Lane) (key : Nat → Nat → Nat) : (∃ q, factorColumn key 2 32 0 m = some q) ∨ factorColumn key 2 32 0 m = none := by
  cases factorColumn key 2 32 0 m <;> simp

/-! ## The GMU and pipeline stages -/

/-- BlockRegistersLoadAndStoreImages: `gcfg` with each check, a good setting, and each load's checks. -/
theorem test_block_registers :
    let s := put (cp xs 74 1 1) [(1, 64), (2, 0x3F800000), (4, 0x3F000000), (5, 0x80000000), (6, 0xBF800000), (7, 66), (8, 256)]
    next (exec (.gcfg g0 3 2 5) s) (trapped .windowBounds 0x3F800000) = true
      ∧ next (exec (.gcfg g0 3 4 6) s) (trapped .windowBounds 0xBF800000) = true
      ∧ next (exec (.gcfg g0 3 4 5) s) (fun t => t.seq.readS 3 == 0x35800000 && t.my.gmu.tau == 0x3F000000 && t.my.gmu.eps == 0) = true
      ∧ next (exec (.gld g0 0 7 0 false) s) (trapped .misalignedData 66) = true
      ∧ next (exec (.gldHdr g0 0 1 false) (cp s 74 1 15)) (trapped .windowBounds 64) = true
      ∧ next (exec (.gldHdr g0 0 7 false) s) (trapped .misalignedData 66) = true := by decide +kernel

/-- A stored image of two dimensions: η 0 and 1, then the three elements of Λ's upper triangle. -/
theorem test_gst :
    let s := (put xs [(1, 256)]).modMy fun t => { t with gmu := { t.gmu with gb := t.gmu.gb.set 1 ⟨((t.gmu.gb[1].lam.set 0 1).set 1 3).set 33 2, (t.gmu.gb[1].eta.set 0 7).set 1 8⟩ } }
    next (exec (.gst g0 1 1 1 false) s) (fun t => cpAt t 0 256 20 == 7 + 8 * 2 ^ 32 + 2 ^ 64 + 3 * 2 ^ 96 + 2 * 2 ^ 128) = true := by decide +kernel

/-- A register of one dimension whose Λ is `w`. -/
def pivotGb (w : Lane) : Gb := ⟨Gb.reset.lam.set 0 w, Gb.reset.eta⟩

/-- GougeEliminatesOrTraps: a pivot of one that clears τ = 0, and a pivot of zero that does not. -/
theorem witness_gouge :
    let u : Gmu := { Gmu.reset with tau := 0 }
    gouges u (pivotGb 0x3F800000) 1 [0] (fun _ => pivotGb 0x3F800000) 1
      ∧ gouges u Gb.reset 1 [0] (fun _ => Gb.reset) 0 ∧ ¬ clears 0 [0] 0 := by
  have add : (pivotGb 0x3F800000).at_ 0 0 = BitVec.ofNat 32 (fAdd .f32 0 ((pivotGb 0x3F800000).at_ 0 0).toNat 0).1 := by decide +kernel
  have add0 : Gb.reset.at_ 0 0 = BitVec.ofNat 32 (fAdd .f32 0 (Gb.reset.at_ 0 0).toNat 0).1 := by decide +kernel
  have rest : (List.range 1).filter (fun q => decide (q ∉ [0].take 1)) = [] := by decide
  refine ⟨⟨fun i j hi hj => ?_, fun _ _ => rfl, fun i hi p hp => ?_⟩, ⟨fun i j hi hj => ?_, fun _ _ => rfl, fun i hi => absurd hi (Nat.not_lt_zero i)⟩, ?_⟩
  · split
    · rename_i h
      obtain ⟨rfl, h⟩ := h
      obtain rfl : i = 0 := by simpa using h
      exact add
    · rfl
  · obtain rfl : i = 0 := by omega
    obtain rfl : p = 0 := by simpa using hp.symm
    refine ⟨⟨fun d hd => ?_, .inr (by decide +kernel)⟩, ?_⟩
    · obtain rfl := List.mem_singleton.mp hd
      decide +kernel
    rw [rest]
    exact ⟨fun q hq => absurd hq List.not_mem_nil, fun q hq => absurd hq List.not_mem_nil, fun _ _ _ _ _ => rfl, fun _ _ _ => rfl⟩
  · split
    · rename_i h
      obtain ⟨rfl, h⟩ := h
      obtain rfl : i = 0 := by simpa using h
      exact add0
    · rfl
  · rintro ⟨-, h | h⟩
    · exact absurd h (by decide +kernel)
    · exact absurd h (by decide +kernel)

/-- A zero pivot's trap, and the readiness of the instructions. -/
theorem test_gouge :
    next (exec (.gsolve g0 0 1 0) xs) (trapped .singularBlock 0) = true
      ∧ next (exec (.gschur g0 0 1 1 0 0) xs) (trapped .singularBlock 1) = true
      ∧ (([.gcfg g0 3 1 2, .gld g0 0 1 0 false, .gldHdr g0 0 1 false, .gst g0 1 0 0 false, .gzero g0 0, .gaddp g0 0 1 0 0, .gdamp g0 0 1 0 5, .gres g0 3 0 1 0,
        .gschur g0 0 1 1 0 0, .gsolve g0 0 1 1] : List Instr).all (ready xs)) = true := by decide +kernel

/-- BlockSumsDampingAndResiduals: no damping with β = 0, and a residual of |1 − 0| of one dimension. -/
theorem test_block_sums :
    let s := xs.modMy fun t => { t with gmu := { t.gmu with gb := t.gmu.gb.set 0 ⟨t.gmu.gb[0].lam.set 0 0x3F800000, t.gmu.gb[0].eta⟩ } }
    next (exec (.gdamp g0 0 1 0 6) s) (fun t => t.seq.pc == 8 && t.my.gmu.gb[0].at_ 0 0 == 0x3F800000) = true
      ∧ next (exec (.gres g0 3 0 1 0) s) (fun t => t.seq.readS 3 == 0x3F800000) = true := by decide +kernel

/-- StagesAreDeclaredAndDispatched: the block's checks and every status, `stgq`, the report, and a dispatch. -/
theorem test_stages :
    let blk (home lo hi : Nat) : Nat := home + 2 * 2 ^ 16 + lo * 2 ^ 32 + hi * 2 ^ 48
    let s (n : Nat) (st : Table Stage) : State := put ((cp xs 64 16 n).modPart 0 fun t => { t with stages := st }) [(1, 64), (2, 65)]
    let e (home : Place) (pool : List Place) : Stage := ⟨home, 2, 1, 2, pool, 3, 4, 5, true⟩
    let st (n : Nat) (l : Table Stage) : Option Word := match exec (.stgdecl g0 3 1 7) (s n l) with | .next t => some (t.seq.readS 3) | _ => none
    let q : State := (handlerS.setMbx 0 5 (Mbx.reset.configure (1 + 2 ^ 10 + 2 ^ 14 + 2 ^ 21 + 3 * 2 ^ 112 + 2 ^ 120))).modPart 0 fun t => { t with stages := [(0, e 0 [0, 1])] }
    next (exec (.stgdecl g0 3 2 7) (s 0 [])) (trapped .windowBounds 65) = true ∧ next (exec (.stgdecl g0 3 1 7) (s (blk 0 2 1) [])) (trapped .windowBounds 64) = true
      ∧ next (exec (.stgdecl g0 3 1 7) (s (blk 512 1 2) [])) (caused .permission) = true
      ∧ st (blk 0 1 2) [] = some 0 ∧ st (blk 0 1 2) [(6, e 1 [0])] = some 3 ∧ st (blk 1 1 2) [] = some 4 ∧ st (blk 1 1 2) [(7, e 1 [1, 0])] = some 1
      ∧ st (blk 2 1 2) [(7, e 1 [1])] = some 2 ∧ st (blk 1 1 2) [(7, e 1 [1, 2])] = some 5 ∧ st (blk 1 1 2) [(7, e 1 [1])] = some 1
      ∧ next (exec (.stgq g0 5 0 1) q) (fun t => (t.mbx 0 5).stage == some (0, 2)) = true ∧ next (exec (.stgq g0 5 9 1) q) (trapped .queueMisuse 9) = true
      ∧ next (exec (.stgq g0 6 0 1) q) (trapped .windowBounds 6) = true
      ∧ next (exec (.stgqClr g0 5) (q.setMbx 0 5 { q.mbx 0 5 with stage := some (0, 1) })) (fun t => (t.mbx 0 5).stage == none) = true
      ∧ next (exec (.stgstat g0 3 0) q) (fun t => t.seq.readS 3 == 0x0002000300040523) = true ∧ next (exec (.stgstat g0 3 1) q) (fun t => t.seq.readS 3 == 0) = true
      ∧ (let d := (q.setMbx 0 5 { q.mbx 0 5 with stage := some (0, 1), slots := [.filled 1 0 3 0 0 0 false, .free] }).setCore 1 { Core.reset with part := some 0, feat := 0x1F }
         d.freeMember 1 = true ∧ (d.mbxCand 0 5 (d.mbx 0 5)).isSome = true
          ∧ next (exec (.stageDispatch 0 5 1) d) (fun t => (t.mbx 0 5).slots == [.filled 1 0 3 0 0 0 true, .free] && t.fab.net.map (fun k => (k.dst, k.vn)) == [(1, .amsg)]) = true) := by
  decide +kernel

/-- StashesAllocateAndFree. -/
theorem test_stashes :
    let s : State := put (((cp xs 64 16 (0x1000 + 256 * 2 ^ 48 + 2 * 2 ^ 64)).modPart 0 fun t => { t with attrs := { t.attrs with scount := 3 } }).setStash 0 2 ⟨4096, false, 64, 2, 1⟩) [(1, 64), (2, 65), (4, 4096), (5, 4160)]
    next (exec (.stshal g0 3 3) s) (trapped .windowBounds 3) = true ∧ next (exec (.stgstatStash g0 3 63) s) (trapped .windowBounds 63) = true
      ∧ next (exec (.stshal g0 3 2) s) (fun t => t.seq.readS 3 == 4160 && (t.stash 0 2).mask == 3) = true
      ∧ next (exec (.stshal g0 3 2) (s.setStash 0 2 ⟨4096, false, 64, 2, 3⟩)) (fun t => t.seq.readS 3 == -1) = true
      ∧ next (exec (.stshfr g0 4 2) s) (fun t => (t.stash 0 2).mask == 0) = true ∧ next (exec (.stshfr g0 5 2) s) (trapped .queueMisuse 4160) = true
      ∧ next (exec (.stshfrInit g0 2 2) s) (trapped .windowBounds 65) = true
      ∧ next (exec (.stshfrInit g0 1 2) s) (fun t => t.stash 0 2 == ⟨0x1000, false, 256, 2, 0⟩) = true
      ∧ next (exec (.stshfrInit g0 1 2) (cp s 64 1 1)) (trapped .windowBounds 64) = true
      ∧ next (exec (.stgstatStash g0 3 2) s) (fun t => t.seq.readS 3 == 0x0102) = true
      ∧ (([.stgdecl g0 3 1 7, .stgq g0 5 0 1, .stgqClr g0 5, .stgstat g0 3 0, .stshal g0 3 2, .stshfr g0 1 2, .stshfrInit g0 1 2, .stgstatStash g0 3 2] : List Instr).all (ready xs)) = true := by
  decide +kernel


/-! ## Control registers, queries, tables, the micro-kernel -/

/-- ControlRegistersReadAndWrite: reads of every kind of register, writes of what exists, exchanges, and denials. -/
theorem test_control_registers :
    let s := put (xs.modMy fun t => { t with csr := { t.csr with tval := 0x99, left := 7, budget := 9, cause := ⟨true, false, true, 5⟩, xpc := 3, apc := 4 } }) [(1, 0xFFFFFFFFFFFFFFFF), (2, 0x41)]
    let v := put (s.modSeq fun c => { c with level := .supervisor }) [(1, 0xFFFFFFFFFFFFFFFF)]
    let r (n : Csr) : Option Word := match exec (.csrr g0 3 n) s with | .next t => some (t.seq.readS 3) | _ => none
    let w (n : Csr) (f : State → Bool) : Bool := next (exec (.csrw g0 1 n) s) fun t => t.seq.pc == 8 && f t
    r .self = some 0 ∧ r .part = some 0x100000000 ∧ r .feat = some 0x1F ∧ r .wdog = some 0x70009 ∧ r .cause = some 0x505 ∧ r .epc = some 0x300000004
      ∧ r .tval = some 0x99 ∧ r .icinv = some 0 ∧ r .hid = some 0 ∧ r .fpmode = some 0 ∧ r .lostcnt = some 0
      ∧ next (exec (.csrr g0 3 .stvec) s) (caused .privileged) = true ∧ next (exec (.csrr ⟨true, 0⟩ 3 .stvec) s) (caused .privileged) = true
      ∧ w .self (·.my.csr == s.my.csr) = true ∧ w .cause (·.my.csr == s.my.csr) = true ∧ next (exec (.csrw g0 1 .stvec) s) (caused .privileged) = true
      ∧ next (exec (.csrx g0 3 1 .wdog) v) (fun t => t.my.csr == s.my.csr && t.seq.readS 3 == 0x70009) = true
      ∧ w .fpstat (·.my.csr.fpstat == 31) = true ∧ w .fpmode (·.my.csr.fpmode == 3) = true ∧ w .deadline (·.my.csr.deadline == -1) = true
      ∧ w .utvec (·.my.csr.utvec == 0xFFFFFFFFFFFFFFFC) = true ∧ w .utmask (·.my.csr.utmask == 0x52C000) = true := by decide +kernel

theorem test_control_registers_supervisor :
    let v := put (atLevel .supervisor) [(1, 0xFFFFFFFFFFFFFFFF), (2, 0x41)]
    let w (n : Csr) (f : State → Bool) : Bool := next (exec (.csrx g0 3 1 n) v) fun t => t.seq.pc == 8 && f t
    w .lostcnt (·.me.lost == 0xFFFFFFFF) = true ∧ w .cause (·.my.csr.cause == ⟨true, true, true, 0xFF⟩) = true ∧ w .epc (fun t => t.my.csr.xpc == 0xFFFFFFFF) = true
      ∧ w .tval (·.my.csr.tval == -1) = true ∧ w .stvec (·.me.stvec == 0xFFFFFFFFFFFFFFFC) = true
      ∧ next (exec (.csrx g0 3 2 .fpstat) (v.modMy fun t => { t with csr := { t.csr with fpstat := 16 } })) (fun t => t.seq.readS 3 == 16 && t.my.csr.fpstat == 1) = true
      ∧ next (exec (.icinvWrite g0 2) (v.modClus 0 fun k => { k with icache := [(2, []), (5, [])] })) (fun t => (t.clus 0).icache == []) = true
      ∧ next (exec (.deadlineWrite g0 2) v) (fun t => t.my.csr.deadline == 0x41) = true
      ∧ next (exec (.csrw ⟨true, 0⟩ 1 .tval) v) (fun t => t.my.csr.tval == 0 && t.seq.pc == 8) = true
      ∧ v.seq.passes ⟨true, 0⟩ = false := by decide +kernel

/-- QueriesAndTableWrites: the watchdog downwards and upwards, the words of this core and another, the tables. -/
theorem test_queries :
    let s := put ((xs.modMy fun t => { t with csr := { t.csr with left := 7 } }).setCore 1 { Core.reset with feat := 5, cur := 3, bin := 9 }) [(1, 3), (2, 70000), (4, 1), (5, 64), (6, 0x1000)]
    let m := put (atLevel .management) [(1, 0x20000), (2, 0x8000), (4, 0x1000), (5, 0xFFF)]
    xs.me.running = true ∧ next (exec (.wdog g0 3 1) s) (fun t => t.seq.readS 3 == 7 && t.my.csr.left == 3) = true
      ∧ next (exec (.wdog g0 3 2) s) (fun t => t.my.csr.left == 7) = true ∧ next (exec (.wdog g0 3 0) s) (fun t => t.my.csr.left == 7) = true
      ∧ next (exec (.feat g0 3 0) s) (fun t => t.seq.readS 3 == 0x1F) = true ∧ next (exec (.speed g0 3 0) s) (fun t => t.seq.readS 3 == 0) = true
      ∧ next (exec (.feat g0 3 4) s) (fun t => t.seq.kept == [.word 5 true] && t.seq.pc == 0) = true
      ∧ next (exec (.speed g0 3 4) (s.modSeq fun c => { c with kept := [.word 0x309 true] })) (fun t => t.seq.readS 3 == 0x309 && t.seq.pc == 8) = true
      ∧ next (exec (.feat g0 3 5) s) (caused .permission) = true
      ∧ next (exec (.plsetPlace g0 3 1 2) s) (caused .privileged) = true ∧ next (exec (.plsetPerm g0 3 4 2) m) (trapped .windowBounds 0x1000) = true
      ∧ next (exec (.plsetPlace g0 3 5 2) m) (caused .placeInvalid) = true
      ∧ xs.pcnOf 0 = some 0
      ∧ next (exec (.plsetPlace g0 3 1 2) m) (fun t => Table.get 0 (t.clus 0).place 2 == 0x8000 && t.seq.pc == 8) = true
      ∧ next (exec (.plsetPerm g0 3 1 2) m) (fun t => Table.get 0 (t.clus 0).perm 2 == 0x8000) = true := by decide +kernel

/-- MicroKernelActsOnEachCause: a strand at supervisor level after a trap of user level, by cause. -/
theorem test_micro_kernel :
    let s (c : Cause) : State := (xs.modSeq fun q => { q with level := .supervisor, inTrap := true, pc := 0xEC00 }).modMy fun t => { t with csr := { t.csr with cause := ⟨false, false, true, BitVec.ofNat 8 c.code⟩, xpc := 40 } }
    let d (c : Cause) : State := (s c).modPart 0 fun t => { t with attrs := { t.attrs with debugHold := true } }
    (xs.microKernel 0).me.running = true ∧ (xs.microKernel 0).seq.pc = 0 ∧ ((s .windowBounds).microKernel 0).me.running = false
      ∧ ((d .windowBounds).microKernel 0).me.running = false ∧ (((d .windowBounds).microKernel 0).part 0).parked.length = 1
      ∧ ((s .translation).microKernel 0).me.parkedFault = true ∧ ((s .translation).microKernel 0).seq.pc = 40 ∧ ((s .translation).microKernel 0).seq.level = .user
      ∧ ((s .deadline).microKernel 0).my.csr.holdst.dlmiss = true ∧ ((s .deadline).microKernel 0).seq.pc = 40
      ∧ (((s .brk).microKernel 0).part 0).parked.length = 1
      ∧ (s .featureAbsent).nearest 0 0x20 = none ∧ (s .featureAbsent).nearest 0 1 = some 0 := by decide +kernel

theorem witness_micro_kernel_moves :
    let s : State := ((xs.modSeq fun q => { q with level := .supervisor, inTrap := true }).modMy fun t =>
      { t with act := { t.act with lack := 0x20 }, csr := { t.csr with cause := ⟨false, false, true, 6⟩, xpc := 40 } }).setCore 3 { Core.reset with part := some 0, feat := 0x3F }
    s.nearest 0 (s.my.act.freq ||| s.my.act.lack) = some 3 ∧ (s.microKernel 0).me.running = false
      ∧ ((s.microKernel 0).part 0).parked.map (·.place) = [3] ∧ (s.backToUser 0).seq.pc = 40 := by decide +kernel

/-! ## Activation, stealing, launches, timers -/

/-- ActivationStartsTheBestCandidate: an inbox entry, a TCB, a mailbox head, a parked strand, and a handler that is gone. -/
theorem test_activation :
    let i := idleS.modWork 0 fun w => { w with inbox := [entry0] }
    let d := idleS.modWork 0 fun w => { w with deque := [tcb0] }
    let act (s : State) (f : State → Bool) : Bool := s.mayActivate 0 && next (exec (.activation 0) s) f
    let up (t : State) : Bool := (t.core 0).running && (t.strand 0).as.pc == 0 && (t.strand 0).xs.pc == 64
    (xs.mayActivate 0 = false) ∧ (idleS.candidates 0 = []) ∧ act idleS (fun t => !(t.core 0).running) = true
      ∧ act i (fun t => up t && (t.core 0).work.inbox == [] && (t.strand 0).xs.readS 3 == 3 && (t.strand 0).csr.hid == msg0.hdr && t.nextSid == i.nextSid + 1) = true
      ∧ act d (fun t => up t && (t.core 0).work.deque == [] && (t.strand 0).as.readS 8 == 0x77 && (t.strand 0).csr.hid.getLsbD 44) = true
      ∧ act (i.modPart 0 fun t => { t with attrs := { t.attrs with hcount := 0 } }) (fun t => !(t.core 0).running
        && t.fab.net.map (fun k => (k.dst, k.body)) == [(1, .answer .as (.msg 2 0))]) = true := by decide +kernel

theorem test_activation_of_mailboxes_and_parked :
    let m := idleS.setMbx 0 5 { (Mbx.reset.configure (1 + 2 ^ 10 + 2 ^ 14 + 2 ^ 21 + 3 * 2 ^ 112 + 2 ^ 120)) with slots := [.filled 0 0 1 0 0 0 false, .free] }
    let k : Parked := ⟨0, { Strand.reset with act := { Act.reset with sid := 55 }, xs := { xs.seq with pc := 48 } }, 9, false, 0, 1, [], true, 1, 0, 0⟩
    let p := idleS.modPart 0 fun t => { t with parked := [k] }
    (m.mbxHandler 0 (m.mbx 0 5)).isSome = true
      ∧ next (exec (.activation 0) m) (fun t => (t.core 0).running && (t.mbx 0 5).slots == [.taken, .free] && (t.strand 0).xs.readS 1 == 5 && (t.strand 0).xs.readS 2 == 64) = true
      ∧ next (exec (.activation 0) p) (fun t => (t.core 0).running && (t.strand 0).xs.pc == 48 && (t.strand 0).csr.holdst.rsm && (t.part 0).parked == []) = true := by
  decide +kernel

/-- StealingMovesTasks: the requests, a victim's shipment, a thief's, an acknowledgement, a time-out and its answers. -/
theorem test_stealing :
    let st (f : Steal → Steal) : State := rowS.modClus 0 fun k => { k with steal := f k.steal }
    let k (vn : Vn) (b : Body) (s : State) : State := packet ⟨4, 8, 0, vn, 0, 0, 0, b, false, 0, Way.done⟩ s
    let net (t : State) : List (Place × Vn × Body) := t.fab.net.map fun k => (k.dst, k.vn, k.body)
    let v := rowS.modWork 0 fun w => { w with deque := [tcb0, { tcb0 with wid := 2 }, { tcb0 with wid := 3 }] }
    let sh := (rowS.modPart 0 fun t => { t with procs := [] }).modWork 0 fun w => { w with shipments := [⟨8, 16, [tcb0], 0⟩] }
    (rowS.part 0).adjacent 0 = [1] ∧ (rowS.part 0).farther 0 = [2, 3] ∧ rowS.idleForStealing 0 = true
      ∧ next (exec (.stealRequest 0) (st fun t => { t with reports := [(1, 5)] })) (fun t => net t == [(8, .mgmt, .stealReq)] && (t.clus 0).steal.asked) = true
      ∧ next (exec (.stealRequest 0) rowS) (fun t => net t == [(16, .mgmt, .stealReq)] && (t.clus 0).steal.retryAt == 64) = true
      ∧ next (exec (.stealRequest 0) (st fun t => { t with asked := true })) (fun t => net t == []) = true
      ∧ next (exec (.stealRetryTimer 0) { st fun t => { t with asked := true, retryAt := 64, distance := 1 } with tick := 64 }) (fun t => net t == [(24, .mgmt, .stealReq)] && (t.clus 0).steal.distance == 2) = true
      ∧ next (exec (.stealRequestArrival 8 0) (k .mgmt .stealReq v)) (fun t => (t.core 0).work.deque == [{ tcb0 with wid := 3 }]
        && (t.core 0).work.shipments.map (·.tcbs) == [[tcb0, { tcb0 with wid := 2 }]]) = true
      ∧ next (exec (.stealShipment 8 0) (k .mgmt (.shipment 7 [tcb0]) rowS)) (fun t => (t.core 0).work.accepted == [(8, 7)] && ((t.core 0).work.overflow ++ (t.core 0).work.deque) == [tcb0]
        && net t == [(8, .reply, .shipAck 7)]) = true
      ∧ next (exec (.stealAck 8 0) (k .reply (.shipAck 16) sh)) (fun t => (t.core 0).work.shipments == []) = true
      ∧ next (exec (.transitTimeout 0 16) { sh with tick := 4096 }) (fun t => net t == [(8, .mgmt, .shipQuery 16)]) = true
      ∧ next (exec (.transitQueryAnswer 8 0) (k .mgmt (.shipQuery 7) rowS)) (fun t => net t == [(8, .reply, .shipKnown 7 false)]) = true
      ∧ next (exec (.transitQueryAnswer 8 0) (k .reply (.shipKnown 16 false) sh)) (fun t => (t.core 0).work.deque == [tcb0] && (t.core 0).work.shipments == []) = true := by
  decide +kernel

/-- LoadIsExchangedAndAveraged: an exchange that is not due and one that is, a core above its neighbour, stages of even pressure. -/
theorem test_load_exchange :
    let n := rowS.modPart 0 fun t => { t with exchangeAt := 5 }
    let a := (rowS.modPart 0 fun t => { t with procs := [] }).modWork 0 fun w => { w with figure := 12, overflow := List.replicate 12 tcb0 }
    let e : Stage := ⟨0, 0, 1, 2, [0], 0, 0, 0, false⟩
    next (exec (.loadExchange 0) n) (fun t => (t.part 0).exchangeAt == 5) = true
      ∧ next (exec (.loadExchange 0) (rowS.modWork 0 fun w => { w with deque := [tcb0, tcb0] })) (fun t => (t.part 0).exchangeAt == 1024 && (t.core 0).work.figure == 2) = true
      ∧ (a.exchangeWith 0).contains 1 = true
      ∧ (rowS.average 0).fab.net = [] ∧ ((a.average 0).core 0).work.deque.length = 6
      ∧ e.pressure - e.pressure ≤ 64 := by decide +kernel

/-- LaunchesStartAndComplete: a queued launch becomes the partition's, its root arrives, is refused, has no handler, and
the idle tree's two samples complete it. -/
theorem test_launches :
    let q (n : Nat) : State := idleS.modPart 0 fun t => { t with tenants := [(0, ⟨none, 0, [{ launch0 with rootTick := n }], none⟩)] }
    let l (l : Launch) : State := idleS.modPart 0 fun t => { t with launch := some l }
    let full := (l launch0).modWork 0 fun w => { w with inbox := List.replicate 64 entry0 }
    let up : Launch := { launch0 with delivered := true }
    (idleS.part 0).usageFull = false
      ∧ next (exec (.rootDelivery 0) (q 5)) (fun t => (t.part 0).launch == some { launch0 with rootTick := 5 } && (t.part 0).tenants.map (·.2.queue) == [[]]) = true
      ∧ next (exec (.rootDelivery 0) (l launch0)) (fun t => (t.part 0).launch == some up && (t.core 0).work.inbox.map (·.msg.payload) == [[1, 2, 3, 4, 5, 6]]) = true
      ∧ next (exec (.rootDelivery 0) full) (fun t => (t.part 0).launch == some { launch0 with rootTick := 16 }) = true
      ∧ next (exec (.rootDelivery 0) ((l launch0).modPart 0 fun t => { t with attrs := { t.attrs with hcount := 0 } })) (fun t => (t.part 0).launch == none && t.host.results.map (·.status) == [15]) = true
      ∧ (l up).wires 0 = true ∧ next (exec (.idleTreeSample 0) idleS) (fun t => (t.part 0).launch == none) = true
      ∧ next (exec (.idleTreeSample 0) (l launch0)) (fun t => (t.part 0).launch == some launch0) = true
      ∧ next (exec (.idleTreeSample 0) (l up)) (fun t => (t.part 0).launch == some { up with sampled := some 0 }) = true
      ∧ next (exec (.idleTreeSample 0) { l { up with sampled := some 0 } with tick := 315 }) (fun t => (t.part 0).launch.isSome) = true
      ∧ next (exec (.idleTreeSample 0) { l { up with sampled := some 0 } with tick := 316 }) (fun t => (t.part 0).launch == none && t.host.results.map (fun r => (r.status, r.lid)) == [(0, 9)]) = true := by
  decide +kernel

/-- Its posts: a block that is not aligned, one that is queued, one behind a full queue. -/
theorem test_launch_posts :
    let blk : Nat := 9 + 3 * 2 ^ 48 + 208 * 2 ^ 576 + 10 * 2 ^ 608
    let s (a : Word) (n : Nat) : State := packet ⟨4, 0, 0x8000, .amsg, 0, 0, 0, .post { msg0 with payload := [a, 0, 0, 0, 0, 0] } (some .xs), false, 0, Way.done⟩
      ({ handlerS with mem := Memory.setAll handlerS.mem ((span (Key.hbm (xs.slotStation 0) (20480 + 1024)) 128).zip (leBytesOf 128 blk)) }.modPart 0 fun t =>
        { t with tenants := [(0, ⟨none, 0, List.replicate n launch0, none⟩)] })
    let stat (a : Word) (n : Nat) : Option (List Body) := match exec (.launchServicePost 0 0x8000) (s a n) with | .next t => some (t.fab.net.map (·.body)) | _ => none
    stat 1025 0 = some [.answer .xs (.msg 3 0)] ∧ stat 1024 0 = some [.answer .xs (.msg 0 0)] ∧ stat 1024 64 = some [.answer .xs (.msg 1 16)]
      ∧ ((s 1024 0).readGv 0 1 0 1024 128).isSome = true ∧ (s 1024 0).launchStatus 0 (blockParams blk) = none := by decide +kernel

/-- TimersRunOut: a deadline in each way, the watchdog, LEFT's units, a time-out, and the memory service's answers. -/
theorem test_timers :
    let d (m : Word) : State := { xs with tick := 9 }.modMy fun t => { t with csr := { t.csr with deadline := 5, utvec := 0x40, utmask := m } }
    let w := xs.modMy fun t => { t with act := { t.act with pend := [(.xs, .watchdog, 6)] } }
    let c : Core := { xs.me with st := { xs.my with csr := { xs.my.csr with cyc := 16300, left := 1, budget := 6 } } }
    let o := xs.modSeq fun q => { q with wait := some ⟨.object ⟨.sem, 0, 1⟩, 0, some 0, none⟩ }
    let f := xs.modMe fun c => { c with parkedFault := true }
    next (exec (.deadlinePass 0) xs) (fun t => !t.my.act.dlPassed) = true
      ∧ next (exec (.deadlinePass 0) (d 0)) (fun t => t.my.csr.holdst.dlmiss && t.my.csr.holdst.late == 4 && t.seq.pc == 0) = true
      ∧ next (exec (.deadlinePass 0) (d 0x20000)) (fun t => t.seq.pc == 0x40 && t.my.csr.cause == ⟨false, true, true, 0x11⟩ && t.my.csr.tval == 5) = true
      ∧ next (exec (.watchdog 0) w) (fun t => trapped .watchdog 6 t && t.seq.level == .supervisor && t.my.act.pend == []) = true
      ∧ next (exec (.watchdog 0) xs) (fun t => t.seq.level == .user) = true
      ∧ Core.reset.counts = false ∧ c.counts = true ∧ c.tickWatchdog.st.csr.left = 0 ∧ c.tickWatchdog.st.csr.cyc = 124 ∧ c.tickWatchdog.st.act.pend = [(.xs, .watchdog, 6)]
      ∧ next (exec (.waitTimeout 0 .xs) o) (fun t => t.agenda == [.run 0 .xs]) = true ∧ xs.waitOf 0 .xs = none
      ∧ next (exec (.pageServiceAnswer 0 true) f) (fun t => !t.me.parkedFault && t.me.running) = true
      ∧ next (exec (.pageServiceAnswer 0 false) f) (fun t => !t.me.running) = true
      ∧ (xs.stalledSpawn 0).isNone = true ∧ ((xs.modSeq fun q => { q with wait := some ⟨.spawnStall, 0, none, none⟩ }).core 0).spawnStalled = true := by decide +kernel


/-! ## The ordering machine and the mesh -/

/-- A request of core 0 to its own CP. -/
def req (k : AccKind) (op : AccOp) (off n : Nat) : Access := xs.coreAccess (xs.cpHome 0 off) k op (.keys (span (Key.cp 0 off) n)) (Key.cp 0 0)

/-- ConflictsAreFoundByteByByte: another core's write clashes with a read of its bytes alone, not in the barrier area; an
access that passes opens an entry; a full line blocks; a close drops entries. -/
theorem test_conflicts :
    let s := clash xs
    let r (off : Nat) := req .r .read off 8
    let chk (s : State) (off : Nat) : Nat := match s.checked (r off) (span (Key.cp 0 off) 8) with | .error v => v + 1 | .ok none => 0 | .ok (some t) => 10000 + t.fab.lines.length
    let full : State := { xs with fab := { xs.fab with lines := [2, 3, 4, 5].map fun p => ⟨.cp 0 1, Key.cp 0 64 / 64, .core p, 0, 1 <<< 40, .w⟩ } }
    chk s 60 = 65 ∧ chk s 72 = 10002 ∧ chk xs 64 = 10001 ∧ chk full 64 = 0 ∧ chk xs 0xFC00 = 10000
      ∧ (match s.applyAccess { req .r (.close 0) 64 0 with party := .core 9 } with | .done t (.data []) => t.fab.lines == [] | _ => false) = true := by decide +kernel

/-- RingsEnqueueAndDequeue: a ring of two at CP 128: an entry queued and taken, a full ring, an empty one, a bad block. -/
theorem test_rings :
    let s (head tail cap : Nat) : State := cp xs 128 24 (head + tail * 2 ^ 64 + cap * 2 ^ 128)
    let run (s : State) (deq : Bool) (b : Word) : Applied := s.performRing (req .a (.atomic (if deq then .deq else .enq b)) 128 32) 0 deq b (Key.cp 0 128) 128 65536 false
    let ans (r : Applied) : Option (Word × Bool × Nat × Nat) := match r with | .done t (.word v ok) => some (v, ok, cpAt t 0 128 8, cpAt t 0 136 8) | _ => none
    ans (run (s 0 1 2) false 0x77) = some (0, true, 0, 2) ∧ ans (run (cp (s 0 1 2) 160 8 0x55) true 0) = some (0x55, true, 1, 1)
      ∧ ans (run (s 5 7 2) false 1) = some (0, false, 5, 7) ∧ ans (run (s 7 7 2) true 0) = some (0, false, 7, 7)
      ∧ (match run (s 0 0 0) true 0 with | .done _ (.trap c v) => c == .windowBounds && v == 128 | _ => false) = true
      ∧ ((atLevel .supervisor).userAccess (req .a (.atomic .deq) 128 32) = false) := by decide +kernel

theorem witness_ring_check : Memory.wf xs.mem = true ∧
    (match xs.checked (req .a (.atomic .deq) 128 32) (span (Key.cp 0 128) 32 ++ span (Key.cp 0 160) 8) with
      | .ok (some t) => t.mem == xs.mem
      | _ => false) = true := by decide +kernel

/-- HomesTakeAccessesInOrder: dispatch, an access applied and one that its home leaves, a close, a stamped write and its commit. -/
theorem test_homes :
    let a : Access := { req .r .read 64 8 with num := 4, dest := .seq 0 .xs }
    let iss : State := { xs with fab := { xs.fab with issue := [a] } }
    let buf (a : Access) (s : State) : State := { s with fab := { s.fab with bufs := [a] } }
    let w (l : List Nat) : ReplWrite := ⟨0, 0, .core 0, [(2, [(Key.hbm 40 8, 0xAB)])], l, 0⟩
    let rep (l : List Nat) : State := { xs with fab := { xs.fab with repl := [w l] } }
    let waiting := xs.modSeq fun c => { c with out := some 4 }
    next (exec (.accessDispatch 0 .core) xs) (fun t => t.fab.bufs == []) = true
      ∧ next (exec (.accessDispatch 0 .core) iss) (fun t => t.fab.issue == [] && t.fab.bufs == [a]) = true
      ∧ next (exec (.accessApply 0 .core (.cp 0 1)) xs) (fun t => t.fab.bufs == []) = true
      ∧ next (exec (.accessApply 0 .core (.cp 0 1)) (buf a (cp waiting 64 8 0x99))) (fun t => t.seq.kept == [.data (leBytesOf 8 0x99)] && t.seq.out == none && t.fab.bufs == []) = true
      ∧ next (exec (.accessApply 0 .core (.cp 0 1)) (buf a { xs with fab := { xs.fab with repl := [⟨0, 0, .core 0, [(0, [(Key.cp 0 64, 1)])], [0], 0⟩] } })) (fun t => t.fab.bufs == [a]) = true
      ∧ next (exec (.closeApply 0 (.cp 0 1)) (buf { req .r (.close 3) 64 0 with party := .core 9 } (clash xs))) (fun t => t.fab.lines == [] && t.fab.bufs == []) = true
      ∧ xs.nextStamp 2 = none ∧ (rep []).nextStamp 2 = some (w [])
      ∧ next (exec (.replicaApply 2) (rep [])) (fun t => Memory.get t.mem (Key.hbm 40 8) == 0xAB && t.fab.repl == [w [2]]) = true
      ∧ next (exec .replicaCommit (rep [2])) (fun t => t.fab.repl == []) = true ∧ next (exec .replicaCommit (rep [])) (fun t => t.fab.repl == [w []]) = true := by decide +kernel

/-- Its clause of a station that stops, and of a load into lq. -/
theorem test_homes_lq :
    let rq : LoadReq := ⟨.cp, 64, .z8⟩
    let s := (cp as_ 64 1 0xA5).modMy fun t => { t with q := { t.q with lq := t.q.lq.set 1 [.pending 4 rq] } }
    let a : Access := { req .r .read 64 1 with num := 4, dest := .lq 0 1 4 }
    next (exec (.accessApply 0 .core (.cp 0 1)) { s with fab := { s.fab with bufs := [a] } }) (fun t => t.my.q.lq[1] == [.full 0xA5]) = true := by decide +kernel

/-- MeshRecoversFromStuckAndDead. -/
theorem test_mesh :
    let w : Way := ⟨[⟨nodeOf 1 1, nodeOf 1 2, .east, false⟩, ⟨nodeOf 1 2, nodeOf 1 2, .home, false⟩], 3, 0, 0, 0⟩
    let k : Packet := ⟨4, 0, 8, .amsg, 0, 0, 0, .stealReq, false, 0, w⟩
    let s : State := { packet k xs with tick := 6000 }
    let d : State := { packet { k with lost := true } xs with fab := { (packet { k with lost := true } xs).fab with draining := true } }
    let link := linkNum (nodeOf 1 1) (nodeOf 1 2) 0
    next (exec (.stuckTimerExpiry 129 3 .bulk 0) s) (fun t => (t.part 0).limited == []) = true
      ∧ next (exec (.stuckTimerExpiry 129 3 .amsg 0) s) (fun t => (t.part 0).limited == [(.amsg, 7024)] && t.limitedOn 0 .amsg
        && t.injectAfter 0 0 .amsg == 78000 && (t.noteInjection 0 0 .amsg).injectAfter 0 0 .amsg == 78016) = true
      ∧ next (exec (.injectionLimitLift .amsg 0) (s.modPart 0 fun t => { t with limited := [(.amsg, 6000), (.amsg, 6001), (.bulk, 1)] })) (fun t => (t.part 0).limited == [(.amsg, 6001), (.bulk, 1)]) = true
      ∧ next (exec (.linkDead link [4]) s) (fun t => t.fab.net.map (·.lost) == [true] && t.fab.draining && (t.part 0).paused && t.me.lost == 1) = true
      ∧ next (exec (.linkDead link [4]) { s with fab := { s.fab with deadLinks := [link] } }) (fun t => t.fab.net.map (·.lost) == [false]) = true
      ∧ next (exec .rerouteResume d) (fun t => t.fab.net.map (fun k => (k.lost, k.way.path)) == [(false, w.path)] && !t.fab.draining) = true
      ∧ next (exec .rerouteResume s) (fun t => t.fab.net == s.fab.net) = true := by decide +kernel

/-! ## Tenants and health -/

/-- Two tenants of partition 0, the second with a launch. -/
def tenantS : State := idleS.modPart 0 fun t => { t with tenants := [(0, ⟨none, 0, [], none⟩), (3, ⟨none, 0, [launch0], none⟩)] }

/-- TenantsAreSlicedAndSwitched: a slice that is not over, one that is, with and without a waiting tenant; a switch. -/
theorem test_tenants :
    let sw := tenantS.modPart 0 fun t => { t with switching := true }
    next (exec (.tsliceExpiry 0) { tenantS.modPart 0 (fun t => { t with sliceAt := 5 }) with tick := 4 }) (fun t => !(t.part 0).switching) = true
      ∧ next (exec (.tsliceExpiry 0) tenantS) (fun t => (t.part 0).switching) = true
      ∧ next (exec (.tsliceExpiry 0) idleS) (fun t => (t.part 0).sliceAt == 100000) = true
      ∧ sw.drained 0 = true ∧ sw.nextTenant 0 = some 3 ∧ idleS.nextTenant 0 = none
      ∧ next (exec (.tenantSwitch 0) tenantS) (fun t => (t.part 0).tenant == 0) = true
      ∧ next (exec (.tenantSwitch 0) (idleS.modPart 0 fun t => { t with switching := true })) (fun t => !(t.part 0).switching && (t.part 0).sliceAt == 100000) = true := by decide +kernel

theorem test_tenant_switch :
    let sw := (cp tenantS 64 1 0xAA).modPart 0 fun t => { t with switching := true }
    next (exec (.tenantSwitch 0) sw) (fun t => (t.part 0).tenant == 3 && !(t.part 0).switching && cpAt t 0 64 1 == 0 && (t.core 0).feat == 0x1F
      && ((Table.find (t.part 0).tenants 0).bind (·.saved)).isSome) = true := by decide +kernel

/-- FailedUnitsAreRetired: tests at busy and idle cores, their ends, a cluster's retirement, an uncorrectable read. -/
theorem test_health :
    let i := idleS.modCore 0 fun c => { c with testing := true }
    let b := xs.modCore 0 fun c => { c with testing := true }
    let cl := idleS.modClus 0 fun k => { k with testing := true }
    let st := idleS.modClus 0 fun k => { k with stopped := true }
    let a : Access := { req .r .read 64 8 with num := 4 }
    next (exec (.selfTestStart (.feature 0 1)) xs) (fun t => !(t.core 0).testing) = true
      ∧ next (exec (.selfTestStart (.feature 0 1)) idleS) (fun t => (t.core 0).testing) = true
      ∧ next (exec (.selfTestStart (.shared 0)) idleS) (fun t => (t.clus 0).testing) = true
      ∧ next (exec (.selfTestEnd (.feature 0 1) true) i) (fun t => !(t.core 0).testing && t.logs == [.transient (.feature 0 1)]) = true
      ∧ next (exec (.selfTestEnd (.feature 0 1) false) i) (fun t => (t.core 0).feat == 0x1D && (t.core 0).state == 1) = true
      ∧ next (exec (.selfTestEnd (.feature 0 1) false) b) (fun t => (t.core 0).feat == 0x1F && (t.core 0).retiring == 2) = true
      ∧ next (exec (.selfTestEnd (.feature 0 4) false) i) (fun t => (t.core 0).feat == 0xF) = true
      ∧ next (exec (.selfTestEnd (.shared 0) false) cl) (fun t => (t.clus 0).stopped && !(t.clus 0).testing) = true
      ∧ next (exec (.selfTestEnd (.shared 0) true) idleS) (fun t => !(t.clus 0).stopped) = true
      ∧ next (exec (.clusterRetirement 0) idleS) (fun t => t.retired == []) = true
      ∧ next (exec (.uncorrectableRead 0 64) idleS) (fun t => (t.core 0).pendFaults == []) = true
      ∧ next (exec (.uncorrectableRead 0 64) { idleS with fab := { idleS.fab with bufs := [a] } }) (fun t => (t.core 0).pendFaults == [(0x8000000000000040, 0)]) = true
      ∧ st.pcnOf 0 = some 0 := by decide +kernel

/-- Its retirement's hypotheses: a stopped cluster whose column has no running core. (The cells of the spare clusters are open.) -/
theorem witness_retirement :
    let s := idleS.modClus 0 fun k => { k with stopped := true }
    (s.clus 0).stopped = true ∧ s.atBoundaries (southOf 0) = true ∧ xs.atBoundaries (southOf 0) = false := by decide +kernel

/-! ## Reset, and the invariant of memory -/

/-- StepsKeepMemoryCanonical: reset memory and that of `xs`, and a step that stores. -/
theorem witness_memory_wf : State.reset.memoryWf ∧ xs.memoryWf
    ∧ next (step (cp (State.reset.withFetchWord 64 (((encode (.st g0 .i64 false false 1 (.reg 2) 0 1)).getD (0, 0)).2)) 8 1 0xAA)) (fun t => cpAt t 0 8 8 == 0) = true :=
  ⟨⟨by decide, by decide⟩, ⟨by decide, by decide⟩, by decide +kernel⟩


/-! ## The host side -/

/-- A booted module with partition 0 and its tenants 0 and 3, and a VF bound to tenant 3. -/
def hostS : State :=
  { idleS.modPart 0 fun t => { t with tenants := [(0, ⟨none, 0, [], none⟩), (3, ⟨some 7, 1, [], none⟩)] } with
    fw := { idleS.fw with booted := true }, host := { idleS.host with bindings := [(7, (0, 3))] } }
/-- The head of a chain from PF0, for tenant 0. -/
def head0 : CmdHead := ⟨.pf 0, 77, 0, 0, 4, [(false, 16), (true, 1000)], 0, 0⟩
/-- The same, of a body of n bytes. -/
def hd (n : Nat) : CmdHead := { head0 with descs := [(false, 16 + n), (true, 1000)] }
/-- The one result that a command returned: written, status, count. -/
def res (r : Host.Outcome State Fault Refusal) : Option (Bool × Nat × Nat) :=
  match r with
  | .next t => t.host.results.head?.map fun x => (x.written, x.status, x.count)
  | _ => none
/-- A CREATE body that fits: partition 5 of cluster 1. -/
def body5 : CreateBody := ⟨5, 1, 0, 0, 0, 0, 1, 4, false, 10000, 256, 64, 4, 8, 0, 4096, 1, 0, 0, 1000000, [], 1, false⟩

/-- HostCommandsAreCheckedFirst: each check, in its order. -/
theorem test_host_checks :
    let h (f : CmdHead → CmdHead) : CmdHead := f head0
    res (exec (.keep head0) idleS) = none ∧ res (exec (.keep (h fun h => { h with descs := [(true, 1000)] })) hostS) = some (false, 1, 0)
      ∧ res (exec (.keep (h fun h => { h with fn := .pf 1 })) hostS) = some (true, 2, 0) ∧ res (exec (.powercap { hd 8 with fn := .vf 7 } 5000) hostS) = some (true, 2, 0)
      ∧ res (exec (.keep head0) { hostS with fw := { hostS.fw with recovery := true } }) = some (true, 2, 0)
      ∧ res (exec (.keep (h fun h => { h with descs := [(false, 16), (true, 31)] })) hostS) = some (false, 1, 0)
      ∧ res (exec (.keep (h fun h => { h with tenant := 9 })) hostS) = some (true, 14, 0) ∧ res (exec (.keep (h fun h => { h with fn := .vf 7, tenant := 3 })) hostS) = some (true, 2, 0)
      ∧ res (exec (.keep (h fun h => { h with fn := .vf 8 })) hostS) = some (true, 2, 0)
      ∧ res (exec (.recover (hd 16) []) hostS) = some (true, 2, 0) ∧ res (exec (.recover (hd 16) []) idleS) = none := by decide +kernel

/-- TenantCommandsTakeEffect: a launch with each fault of its parameters and a good one; kept and restored images that do not exist. -/
theorem test_tenant_commands :
    let l (f : LaunchParams → LaunchParams) : LaunchParams := f launch0.prm
    res (exec (.launch (hd 88) (l fun p => { p with rsvd := true })) hostS) = some (true, 1, 0) ∧ res (exec (.launch (hd 88) (l fun p => { p with wfw := 0xFFFFFFFFF })) hostS) = some (true, 3, 0)
      ∧ res (exec (.launch (hd 88) (l fun p => { p with base := 0 })) hostS) = some (true, 4, 0) ∧ res (exec (.launch (hd 88) (l fun p => { p with root := 64 })) hostS) = some (true, 5, 0)
      ∧ next (exec (.launch (hd 88) (l id)) hostS) (fun t => (t.part 0).tenants.map (fun e => e.2.queue.map (·.prm)) == [[launch0.prm], []] && t.host.results == []) = true
      ∧ res (exec (.keep head0) hostS) = some (true, 14, 0) ∧ res (exec (.restore (hd 16) 0 0) hostS) = some (true, 14, 0) ∧ res (exec (.restore (hd 16) 2 0) hostS) = some (true, 1, 0)
      ∧ res (exec (.usage (hd 16) 0 0) hostS) = some (true, 1, 0) ∧ res (exec (.usage (hd 16) 5 3) hostS) = some (true, 0, 0)
      ∧ (exec (.query head0) hostS matches .next _) = true := by decide +kernel

/-- Its memory maps: a page, a range entry and a process entry written, an update too many, and a VF's process that is not its own. -/
theorem test_memory_maps :
    let v : CmdHead := { hd 56 with fn := .vf 7 }
    res (exec (.memmapMap (hd 56) 65536 1 0 0 []) hostS) = some (true, 1, 0) ∧ res (exec (.memmapRange (hd 56) 1 3 4 0 []) hostS) = some (true, 0, 1)
      ∧ next (exec (.memmapRange (hd 56) 1 3 4 (2 ^ 64) []) hostS) (fun t => Table.find (t.part 0).ranges (3 * 256 + 4) == some (2 ^ 64)) = true
      ∧ next (exec (.memmapMap (hd 56) 1 3 0 0x501B []) hostS) (fun t => leOf (Memory.getAll t.mem (span (Key.hbm (xs.slotStation 0) 16384) 8)) == 0x501B && t.host.results.map (·.count) == [1]) = true
      ∧ next (exec (.memmapUnmap (hd 56) 1 3 0 []) hostS) (fun t => leOf (Memory.getAll t.mem (span (Key.hbm (xs.slotStation 0) 16384) 8)) % 2 == 0) = true
      ∧ next (exec (.memmapProcess (hd 56) 2 5 (2 + 2 ^ 16 + 2 ^ 64 + 2 ^ 76) []) hostS) (fun t => t.host.results.length == 1) = true
      ∧ res (exec (.memmapProcess v 1 0 0 []) hostS) = some (true, 2, 0) := by decide +kernel

/-- ManagementCommandsTakeEffect: every command's refusals and effects. -/
theorem test_management :
    hostS.bodyOk body5 = true ∧ res (exec (.create (hd 96) { body5 with partn := 0 }) hostS) = some (true, 1, 0) ∧ res (exec (.create (hd 96) { body5 with clu := 0, ingress := 0 }) hostS) = some (true, 13, 0)
      ∧ res (exec (.destroy (hd 8) 384 false) hostS) = some (true, 1, 0) ∧ res (exec (.destroy (hd 8) 9 false) hostS) = some (true, 14, 0)
      ∧ res (exec (.bind (hd 16) 0 256 0 1 0) hostS) = some (true, 1, 0) ∧ res (exec (.bind (hd 16) 0 2 0 7 0) hostS) = some (true, 7, 0) ∧ res (exec (.bind (hd 16) 9 2 0 7 0) hostS) = some (true, 14, 0)
      ∧ next (exec (.bind (hd 16) 0 2 0 9 5) hostS) (fun t => Table.find t.host.bindings 9 == some (0, 2) && ((Table.find (t.part 0).tenants 2).map (·.pmask)) == some 5) = true
      ∧ next (exec (.unbind (hd 16) 0 3 0 7) hostS) (fun t => t.host.bindings == []) = true ∧ res (exec (.unbind (hd 16) 0 3 0 8) hostS) = some (true, 14, 0) := by decide +kernel

theorem test_more_management :
    res (exec (.restitch (hd 8) 0 5 0) hostS) = some (true, 1, 0) ∧ next (exec (.restitch (hd 8) 0 1 0) hostS) (fun t => (t.part 0).attrs.shape == 1) = true
      ∧ res (exec (.restitch (hd 8) 0 1 0) (hostS.modPart 0 fun t => { t with launch := some launch0 })) = some (true, 7, 0)
      ∧ res (exec (.sublink (hd 8) 32 0 0) hostS) = some (true, 1, 0) ∧ res (exec (.sublink (hd 8) 1 0 9) hostS) = some (true, 14, 0)
      ∧ res (exec (.fwact (hd 8) 2) hostS) = some (true, 1, 0) ∧ next (exec (.fwact (hd 8) 1) hostS) (fun t => t.fw.next == 1 && t.fw.active == 0) = true
      ∧ res (exec (.powercap (hd 8) 3999) hostS) = some (true, 1, 0) ∧ next (exec (.powercap (hd 8) 4000) hostS) (fun t => t.gov.cap == 4000) = true
      ∧ res (exec (.period (hd 16) 0 999999) hostS) = some (true, 1, 0) ∧ next (exec (.period (hd 16) 0 1000000) hostS) (fun t => (t.part 0).period == 1000000 && (t.part 0).periodNew) = true := by decide +kernel

theorem test_create_destroy :
    next (exec (.create (hd 96) body5) hostS) (fun t => (t.core 8).part == some 5 && (t.part 5).attrs.codeSize == 4096 && t.host.results.map (·.status) == [0]) = true
      ∧ next (exec (.destroy (hd 8) 0 false) hostS) (fun t => (Table.find t.parts 0).isNone && (t.core 0).part == none && t.host.bindings == []) = true := by decide +kernel

/-- HostAndPackageEvents: sub-links, scale-up messages, the governor, usage, scrubbing and FEATURES_OK. -/
theorem test_host_events :
    let l : State := { hostS with sublinks := [(2 * 8 + 1, ⟨1, some 0, true, some 9, [4]⟩)] }
    let g (s : List Nat) (b : Nat) : State := { hostS with gov := ⟨5, 10000, s, b, 0⟩ }
    next (exec (.sublinkDown 2 1) hostS) (fun t => t.sublinks == []) = true ∧ next (exec (.sublinkDown 2 1) l) (fun t => Table.find t.sublinks 17 == some ⟨1, some 0, false, some 9, [4]⟩) = true
      ∧ next (exec (.scaleupMessage 2 1 (mkHeader 0 false false false false 1 3 0 9) [1, 2, 3, 4, 5, 6] 0 none) l) (fun t => (t.core 0).work.inbox.map (fun e => (hdrSrc e.msg.hdr, e.msg.payload)) == [(0xC002, [1, 2, 3, 4, 5, 6])]) = true
      ∧ next (exec (.scaleupMessage 2 1 0 [0xAB, 2, 3, 4, 5, 6] 0 (some 5)) (mb 0 5 l)) (fun t => cpAt t 0 64 8 == 0xAB && cpAt t 0 112 8 == 0xC002) = true
      ∧ next (exec .boot hostS) (fun t => t.fw.boots == 0) = true
      ∧ next (exec (.governorSample ⟨19001, 9000⟩) (g [] 0)) (fun t => t.gov.g == 13 && t.gov.due == 1000) = true
      ∧ next (exec (.governorSample ⟨0, 0⟩) (g [] 99)) (fun t => t.gov.g == 4 && t.gov.below == 0) = true
      ∧ next (exec (.governorSample ⟨0, 10001⟩) { g [] 0 with gov := ⟨63, 10000, [], 0, 0⟩ }) (fun t => t.host.irqs == 1) = true
      ∧ next (exec (.governorSample ⟨0, 0⟩) { g [] 0 with gov := ⟨5, 10000, [], 0, 9⟩ }) (fun t => t.gov.g == 5) = true
      ∧ next (exec (.usageRecord 9) hostS) (fun t => t.host.usageQ0 == []) = true
      ∧ next (exec (.usageRecord 0) (hostS.modPart 0 fun t => { t with usageAt := 9 })) (fun t => t.host.usageQ0.length == 0) = true
      ∧ next (exec (.usageRecord 0) hostS) (fun t => t.host.usageQ0.map (fun e => (e.1, e.2.seq)) == [(0, 0)] && (t.part 0).usageAt == 100000000) = true
      ∧ next (exec (.usageQueueTake 0) hostS) (fun t => t.host.usageQ0.length == 0) = true
      ∧ next (exec (.frameScrub 3) { hostS with dirty := [(3, 2)], mem := Memory.set hostS.mem (Key.hbm 3 8195) 9 }) (fun t => t.dirty == [] && t.scrubbed == [(3, 2)] && Memory.get t.mem (Key.hbm 3 8195) == 0) = true
      ∧ next (exec (.frameScrub 3) hostS) (fun t => t.scrubbed == []) = true
      ∧ next (exec (.featuresOk (.pf 0) 0x100000000) hostS) (fun t => t.host.featuresOk == [(.pf 0, true)]) = true
      ∧ next (exec (.featuresOk (.pf 0) 0x400000000) hostS) (fun t => t.host.featuresOk == [(.pf 0, false)]) = true
      ∧ next (exec (.featuresOk (.vf 9) 0) hostS) (fun t => t.host.featuresOk == []) = true := by decide +kernel


/-! ## Waits, links, releases, retries: further clauses of the statements -/

/-- The step leaves the sequencer at pc 0, waiting for `w`. -/
def stalls (r : Host.Outcome State Fault Refusal) (w : Why) : Bool :=
  next r fun t => (t.seq.wait.map (·.why)) == some w && t.seq.pc == 0
/-- What a source operand gives: its word, or the trap or wait it ends in, with the core afterwards. -/
def popped (o : Opnd) (s : State) : Option (Word × Core) := match src o s with | .ok (w, t) => some (w, t.me) | .error _ => none
/-- The strand runs on core 1. -/
def onCore1 (s : State) : State := { (s.setCore 1 s.me) with cur := (1, .xs) }

/-- StepsPerformTheirTurns: a waiting instruction runs as it was fetched (here `addi s1, s0, 5`). -/
theorem test_fetched_instructions_run :
    let w : State := xs.modSeq fun c => { c with wait := some ⟨.stream, 0, none, none⟩, fetched := leBytesOf 8 (0x02 * 4 + 1 * 2 ^ 14 + 5 * 2 ^ 40) }
    (w.fetched 0 .xs).2 = false ∧ next (step w) (fun t => t.seq.readS 1 == 5 && t.seq.pc == 8) = true := by decide +kernel

/-- Its further turns. -/
theorem witness_further_turns : ∀ x ∈ ([.both 0, .hop 129 .east, .mesh 1, .manage 0 1 [], .kernel 0 1 [], .stucklim 5, .fetch 1 0, .land 1 0,
      .queueSize (.pf 0) 0 2, .interrupt (.pf 0) 0, .badOpcode ⟨.pf 0, 0, 0, 0, 0, [], 0, 0⟩] : List Turn),
    ({ xs with agenda := [x] } : State).agenda = [x] := fun _ _ => rfl

/-- OperandsReadAndWriteTheirFiles: a marked head and a pending one; at both ends of a link no neighbour, an empty buffer, a full
one, a pop, a pop that is forwarded, and a push. -/
theorem test_links_and_queues :
    let q (e : LqEntry) : State := xs.modMy fun t => { t with q := { t.q with lq := t.q.lq.set 2 [e] } }
    let alone := xs.modMe fun c => { c with nW := [1] }
    let two := onCore1 (xs.setCore 2 xs.me)
    let buf (f : Core → Core) : State := two.modMe f
    let movE : Instr := .mov g0 .i64 (.reg 1) .nE
    let movW : Instr := .mov g0 .i64 (.reg 1) .nW
    next (exec (.mov g0 .i64 (.reg 1) (.lq 2)) (q (.marked .misalignedData 66 ⟨.cp, 66, .i32⟩))) (fun t => trapped .misalignedData 66 t && t.my.q.lq[2] == [.redo ⟨.cp, 66, .i32⟩]) = true
      ∧ stalls (exec (.mov g0 .i64 (.reg 1) (.lq 2)) ((q (.pending 4 ⟨.cp, 64, .i32⟩)).modMy fun t => { t with as := { t.xs with pc := 32 } })) (.queue 2) = true
      ∧ (alone.neighbour 0 false = none ∧ two.neighbour 1 true = some 2 ∧ two.neighbour 1 false = some 0 ∧ two.seq.used = 0)
      ∧ next (exec movW alone) (trapped .placeInvalid 5) = true ∧ next (exec (.mov g0 .i64 .nW (.reg 1)) alone) (trapped .placeInvalid 5) = true
      ∧ stalls (exec movE two) .link = true ∧ stalls (exec movW two) .link = true
      ∧ stalls (exec (.mov g0 .i64 .nE (.reg 1)) (two.modCore 2 fun c => { c with nW := [1, 2, 3, 4] })) .link = true
      ∧ stalls (exec (.mov g0 .i64 .nW (.reg 1)) (two.modCore 0 fun c => { c with nE := [1, 2, 3, 4] })) .link = true
      ∧ next (exec movW (buf fun c => { c with nW := [7, 8] })) (fun t => t.seq.readS 1 == 7 && t.me.nW == [8]) = true
      ∧ next (exec movE (buf fun c => { c with nE := [7], fw := true })) (fun t => t.seq.readS 1 == 7 && t.me.nE == [] && (t.core 0).nE == [7]) = true
      ∧ next (exec movW (buf fun c => { c with nW := [7], fe := true })) (fun t => t.seq.readS 1 == 7 && t.me.nW == [] && (t.core 2).nW == [7]) = true
      ∧ next (exec (.mov g0 .i64 .nW (.reg 3)) (put two [(3, 5)])) (fun t => (t.core 0).nE == [5]) = true := by decide +kernel

/-- TrapsAreDelivered: with UTVEC 0 the strand is held as a root, and the same cause again goes to the supervisor. -/
theorem test_absent_handler :
    let u (r : Option Cause) : State := (xs.modMy fun t => { t with csr := { t.csr with utvec := 0, utmask := 0x100000 } }).modSeq fun c => { c with retry := r }
    next (exec (.trap g0 7) (u none)) (fun t => !(t.core 0).running && (t.part 0).parked.map (fun k => (k.hold, k.ready)) == [(1, false)]) = true
      ∧ (let t := (u (some .brk)).trapTo 0 .xs .brk 7; trapped .brk 7 t && t.seq.level == .supervisor) = true := by decide +kernel

/-- TretReturnsFromTheUserHandler, SoftwareTrapsAndReturns: the other sequencer resumes at its EPC field, or not where that is all ones. -/
theorem test_returns_resume_the_other :
    let u (l : Level) (udel : Bool) (o : BitVec 32) : State := ((atLevel l).modMy fun t => { t with
      as := { t.xs with pc := 32, stopped := true, level := .user }, csr := { t.csr with cause := ⟨false, udel, true, 0x14⟩, xpc := 8, apc := o } })
    next (exec (.tret g0) (u .user true 16)) (fun t => t.seq.pc == 8 && t.my.as.pc == 16 && !t.my.as.stopped) = true
      ∧ next (exec (.tret g0) (u .user true 0xFFFFFFFF)) (fun t => t.seq.pc == 8 && t.my.as.pc == 32 && t.my.as.stopped) = true
      ∧ next (exec (.eret g0) (u .supervisor false 16)) (fun t => t.my.as.pc == 16 && !t.my.as.stopped) = true
      ∧ next (exec (.eret g0) (u .supervisor false 0xFFFFFFFF)) (fun t => t.my.as.pc == 32 && t.my.as.stopped) = true := by decide +kernel

/-- DecodeReadsBackEveryEncoding: the four forms with rules of their own. -/
theorem witness_round_trip_of_control_registers :
    ([.csrr g0 63 .epc, .csrw g0 63 .utvec, .csrx g0 1 2 .deadline, .eret ⟨true, 7⟩, .nop, .shortNop] : List Instr).all (fun i => i.wf && i.ofSequencer) = true := by decide

/-- FloatCornersAndExactResults: exact values whose sum, difference and product are zero, or not. -/
theorem witness_rounding :
    let one := decodeF .f32 0x3F800000
    let none_ := decodeF .f32 0xBF800000
    one = .fin false 0x800000 (-23) ∧ none_ = .fin true 0x800000 (-23) ∧ (decodeF .f32 0x80000000).isZero = true
      ∧ (decodeF .f32 0x80000000).neg? = true := by decide

theorem witness_sums_and_products :
    ((decodeF .f32 0x3F800000).rational + (decodeF .f32 0xBF800000).rational : ℚ) = 0
      ∧ ((decodeF .f32 0x3F800000).rational - (decodeF .f32 0xBF800000).rational : ℚ) ≠ 0
      ∧ (0 : ℚ) < (decodeF .f32 0x3F800000).rational := by
  have h := witness_rounding
  simp only at h
  rw [h.1, h.2.1]
  norm_num [FVal.rational]

/-- FloatConversionsSignsAndClasses: values in and out of the range of a code, as a rounding gives them. -/
theorem test_conversion_values :
    convertElem .i8 .f32 0 0x43000000 = (0x7F, 16) ∧ convertElem .i8 .f32 0 0xC3008000 = (0x80, 1) ∧ convertElem .i8 .f32 0 0x3FC00000 = (2, 1)
      ∧ convertElem .z8 .f32 0 0xBF800000 = (0, 16) ∧ convertElem .e4m3 .f32 0 0x7F800000 = (0x7F, 16) ∧ convertElem .f16 .f32 0 0x7FC00001 = (0x7E00, 0)
      ∧ convertElem .f32 .f64 1 0x3FF0000000000001 = (0x3F800000, 1) ∧ convertElem .f32 .f64 2 0x3FF0000000000001 = (0x3F800001, 1)
      ∧ convertElem .i32 .f32 0 0x7FC00000 = (0, 16) ∧ splitLane 0x3FC00000 = ((0x3FC0, 0, 0), 0) ∧ splitLane 0x7F7FFFFF = ((0x7F7F, 0x7B80, 0xF380), 0)
      ∧ splitLane 0xFF800000 = ((0xFF80, 0, 0), 0) ∧ splitLane 0x7F800001 = ((0x7FC0, 0, 0), 16) := by decide +kernel

/-- Rounded to an integer: 1 is. -/
theorem witness_rounded_to_an_integer : ∃ m : ℤ, (m : ℝ) = ((decodeF .f32 0x3F800000).rational : ℝ) := by
  refine ⟨1, ?_⟩
  have h := witness_rounding
  simp only at h
  rw [h.1]
  norm_num [FVal.rational]

/-- LoopsPausesBranchQueuesAndEnds: full and empty branch queues whose other part goes on or has gone, a pause cut by a trap, and
`end` as a release. -/
theorem test_queues_that_wait :
    let both := xs.modMy fun t => { t with as := { t.xs with pc := 32 } }
    let as0 := as_.modSeq fun c => { c with pc := 0 }
    let full (s : State) : State := s.modMy fun t => { t with q := { t.q with bqa := List.replicate 16 true, bqx := List.replicate 16 true } }
    let p := xs.modSeq fun c => { c with wait := some ⟨.pausing, 0, none, none⟩ }
    let st := xs.modMy fun t => { t with q := { t.q with sq := [⟨.cp, 64, 2, 0⟩] } }
    stalls (exec (.bqpush g0 0) (full both)) (.queue 5) = true ∧ stalls (exec (.bqpush g0 0) (full as0)) (.queue 6) = true
      ∧ stalls (exec (.bqbr g0 true 4) both) (.queue 6) = true ∧ stalls (exec (.bqbr g0 true 4) as0) (.queue 5) = true
      ∧ next (exec (.bqbr g0 true 4) xs) (trapped .queueMisuse 6) = true
      ∧ next (exec (.bqbr g0 true 4) (as0.modMy fun t => { t with xs := Seq.reset })) (trapped .queueMisuse 5) = true
      ∧ p.boundary 0 .xs = none
      ∧ next (exec (.pauseExpiry 0 .xs) (p.modMy fun t => { t with act := { t.act with pend := [(.xs, .brk, 7)] } })) (fun t => trapped .brk 7 t && t.my.csr.xpc == 0) = true
      ∧ (xs.seq.shut = false ∧ (xs.closeInterval 0).closing 0 = false ∧ st.released 0 .xs = false)
      ∧ stalls (exec (.endPart g0) (xs.modSeq fun c => { c with passed := 4 })) .release = false := by decide +kernel

/-- Its clause of a close that is on its way. -/
theorem test_end_waits_for_closes :
    let far := xs.modMe fun c => { c with filter := [.station 1] }
    let cut : State := { far with slowTurn := true }
    ((cut.closeInterval 0).closing 0 = true) ∧ stalls (exec (.endPart g0) cut) .release = true
      ∧ stalls (exec (.endPart g0) ((cut.closeInterval 0).modSeq fun c => { c with passed := 4 })) .release = true
      ∧ next (exec (.endPart g0) (xs.modSeq fun c => { c with passed := 4 })) (fun t => !(t.core 0).running) = true := by decide +kernel

/-- `memS` with an earlier access of the core's to the same home still on its way. -/
def behind (s : State) : State :=
  match s.locate .cp 64 8 .r with
  | .ok l => { s with fab := { s.fab with issue := [s.coreAccess l.home .r .read l.tgt l.base] } }
  | .error _ => s

/-- LoadsTakeTheHomesAnswer, QueueLoadsFillAnEntry, StoresWriteTheirBytes: the home answers, traps, or is waited for; a full queue whose
XS goes on; a full sq whose AS goes on, or has gone. -/
theorem test_accesses_that_wait :
    let lq (l : List LqEntry) (s : State) : State := s.modMy fun t => { t with q := { t.q with lq := t.q.lq.set 1 l } }
    let as0 := as_.modSeq fun c => { c with pc := 0 }
    let sq (s : State) : State := s.modMy fun t => { t with q := { t.q with sq := List.replicate 8 ⟨.cp, 64, 2, 0⟩ } }
    let ldq : Instr := .ld g0 .z8 false (.lq 1) 0 0 64
    let stq : Instr := .st g0 .i32 false true 1 (.reg 2) 0 1
    stalls (exec (.ld g0 .i64 false (.reg 3) 1 0 0) (behind memS)) .answer = true
      ∧ next (exec ldq (clash as0)) (fun t => t.my.q.lq[1] == [.marked .memoryConflict 64 ⟨.cp, 64, .z8⟩]) = true
      ∧ next (exec ldq (behind as0)) (fun t => t.my.q.lq[1] == [.pending 0 ⟨.cp, 64, .z8⟩]) = true
      ∧ stalls (exec ldq (lq (List.replicate 8 (.full 1)) as0)) (.queue 1) = true
      ∧ stalls (exec stq (sq (xs.modMy fun t => { t with as := { t.xs with pc := 32 } }))) (.queue 4) = true
      ∧ next (exec stq (sq xs)) (trapped .queueMisuse 4) = true := by decide +kernel

/-- SqEntriesArePerformedInOrder: an entry that waits for its home, and one whose home answers a trap. -/
theorem test_sq_entries_at_their_homes :
    let s := as_.modMy fun t => { t with q := { t.q with sq := [⟨.cp, 64, 2, 0x1234⟩] } }
    next (exec (.sqStorePerform 0) (behind s)) (fun t => t.my.q.sq.length == 1 && t.fab.issue.length == 2) = true
      ∧ next (exec (.sqStorePerform 0) (clash s)) (fun t => t.my.act.pend == [(.as, .memoryConflict, 64)] && t.my.q.sq.length == 1) = true := by
  decide +kernel

/-- LocalAccessesTouchTheirBytesAlone: the access passes, and finds no conflict. -/
theorem witness_local_access_passes :
    (match memS.locate .cp 64 8 .r with
      | .ok ⟨h, .keys ks, base⟩ =>
        let r := memS.coreAccess h .r .read (.keys ks) base
        let u := memS.nextNumber.touched r
        u.passes r && !ks.any memS.pendingKey && (match (u.meterAccess r).checked r ks with | .ok (some _) => true | _ => false)
      | _ => false) = true := by decide +kernel

/-- AtomicsTakeTheirAnswer: with REL, what precedes it not yet done, and its closes not yet acknowledged. -/
theorem test_atomic_releases :
    let s := put (cp xs 64 4 5) [(1, 64), (2, 2)]
    let rel : Instr := .atom g0 .i32 .cp .add false true 3 1 (.reg 2)
    let owing := s.modMy fun t => { t with q := { t.q with lq := t.q.lq.set 0 [.pending 0 ⟨.cp, 64, .z8⟩] }, act := { t.act with seen := 1 } }
    let far : State := { s.modMe fun c => { c with filter := [.station 1] } with slowTurn := true }
    stalls (exec rel owing) .release = true ∧ stalls (exec rel far) .release = true
      ∧ next (exec rel s) (fun t => t.seq.readS 3 == 5 && cpAt t 0 64 4 == 7 && (t.core 0).interval == 2) = true := by decide +kernel

/-- AtomicUnit: the FP32 sum 1 + 2^-24, rounded to nearest even. -/
theorem test_atomic_float_sum : (fAdd .f32 0 0x3F800000 0x33800000).1 = 0x3F800000 := by decide +kernel


/-! ## Further clauses: messages, objects, tasks -/

/-- MailboxInstructionsTakeAndFreeSlots: an empty mailbox poisoned, timed out, waited on, and withheld. -/
theorem test_mailbox_waits : waits (.mrecv g0 3 0 5 5) ⟨.mbx, 0, 5⟩ (mb 0 5 xs) = true := by decide +kernel

/-- AnsweredMessagesWriteTheirStatus, MessagesLeaveAsOnePacket: what is kept for a retry, and that it is what the hint waits with. -/
theorem test_messages_are_kept :
    let s := put xs [(1, 1), (2, 0x2000)]
    let k (i : Instr) : Option (Place × Vn × Body) := match exec i s with | .next t => t.seq.parcel | _ => none
    let m : Place × Vn × Body := (1, .amsg, .deposit 5 [1, 0, 0, 0, 0, 0] (some .xs))
    let r := (toldS 1 9 xs).modSeq fun c => { c with parcel := some m }
    (s.begins ∧ (s.closeInterval 0).closing 0 = false ∧ (issuedReply s.seq (s.seq.readS 2)).1 = false)
      ∧ k (.msend g0 3 1 5) = some (1, .amsg, .deposit 5 [1, 0x2000, 0, 0, 0, 0] (some .xs)) ∧ (k (.gsend g0 3 1 0 2 false 5 1)).map (·.2.1) = some .bulk
      ∧ (∀ i ∈ ([.msend g0 3 1 5, .send g0 3 1 2 7 0, .gsend g0 3 1 0 2 false 5 1] : List Instr), next (exec i r) (fun t => (t.seq.wait.bind (·.pkt)) == some m) = true)
      := by
  refine ⟨⟨begins_of (by decide), by decide +kernel, by decide +kernel⟩, by decide +kernel, by decide +kernel, by decide +kernel⟩

/-- HintsAndAnswersReachTheirSequencer: a retry carries the message as it issued, with its own tick and number. -/
theorem test_retry_keeps_its_message :
    let h := { xs with tick := 20 }.modSeq fun c => { c with wait := some ⟨.hint, 20, none, some (1, .amsg, .active msg0 (some .xs) none)⟩ }
    next (exec (.retryHintExpiry 0 .xs) h) (fun t => t.fab.net.any fun k =>
      match k.body with
      | .active m _ _ => m.payload == msg0.payload && m.hdr == msg0.hdr && (m.rr / 2 ^ 32).toNat == 20
      | _ => false) = true := by decide +kernel

/-- GaussianDepositsAssembleAndLand: versions on both sides of newer, RMODE 0 and 2, and a refusal at a stage queue's mailbox. -/
theorem test_gaussian_versions :
    let body (v : Lane) : Body := .gauss 5 0x3F800000 v 1 [0x3F800000, 0x40000000] true (some .xs)
    let s (v : Lane) : State := packet ⟨4, 1, 0, .bulk, 0, 0, 0, body v, false, 0, Way.done⟩ xs
    let m (r : Nat) (l : List Slot) : Mbx := { Mbx.reset.configure (1 + 2 ^ 10 + 2 ^ 14 + 2 ^ 20 + 2 ^ 21 + r * 2 ^ 40) with slots := l }
    let old : List Slot := [.taken, .filled 3 7 1 0 5 1 false]
    let at_ (v : Lane) (x : Mbx) : Host.Outcome State Fault Refusal := exec (.gaussianDeposit 1 0) ((s v).setMbx 0 5 x)
    let same (v : Lane) : Bool := next (at_ v (m 1 old)) fun t => (t.mbx 0 5).slots == old && t.mem == xs.mem && t.fab.net.map (·.body) == [.answer .xs (.msg 0 0)]
    next (at_ 6 (m 1 old)) (fun t => (t.mbx 0 5).slots == [.taken, .filled 3 7 1 0x3F800000 6 1 false] && t.fab.net.map (·.body) == [.answer .xs (.msg 0 0)]) = true
      ∧ same 5 = true ∧ same (5 + 2 ^ 31) = true ∧ next (at_ (4 + 2 ^ 31) (m 1 old)) (fun t => (t.mbx 0 5).slots != old) = true
      ∧ next (at_ 0 { m 0 [.free, .free] with wix := 1 }) (fun t => (t.mbx 0 5).slots.map (· == .free) == [true, false] && (t.mbx 0 5).wix == 0) = true
      ∧ next (at_ 0 { m 2 [.free, .free] with wix := 1 }) (fun t => (t.mbx 0 5).slots.map (· == .free) == [false, true]) = true
      ∧ (m 0 []).rmode = 0 ∧ (m 2 []).rmode = 2
      ∧ next (at_ 6 { m 1 [.taken, .taken] with stage := some 3 }) (fun t => (t.mbx 0 5).refused && t.fab.net.map (·.body) == [.answer .xs (.msg 1 16)]) = true := by decide +kernel

/-- VectorAccessesTouchActiveElements: `vscat` makes its checks; a home answers. -/
theorem test_vector_checks :
    let s := put (vecS (fun e => 2 * e) (fun _ => 0xAA) (fun _ => 7) (fun _ => 0)) [(4, 66), (5, 65536)]
    next (exec (.vscat g0 .i32 false 4 1 2) s) (trapped .misalignedData 66) = true
      ∧ next (exec (.vscat g0 .i32 false 5 1 2) s) (trapped .windowBounds 65536) = true
      ∧ (match xs.nextNumber.send (xs.coreAccess (xs.cpHome 0 0) .r .read (.keys [Key.cp 0 0]) (Key.cp 0 0)) false with
          | .answered _ _ => true
          | _ => false) = true := by decide +kernel

/-- What a release needs, and a mesh barrier's issuer that is no participant of a rectangle that leaves the module. -/
theorem witness_releases_may_take_effect :
    xs.seq.shut = false ∧ xs.released 0 .xs = true ∧ (xs.closeInterval 0).closing 0 = false
      ∧ next (exec (.mshcfg g0 1 2) { put (cp xs 64 16 (1 + 2 ^ 32 + 63 * 2 ^ 16)) [(1, 64)] with variant := .dl8 }) (caused .windowBounds) = true := by
  decide +kernel

/-- HoldsParkAndRelease: a second `holdx` of one core waits beside the first. -/
theorem test_two_holdx :
    let s := put (atLevel .supervisor) [(1, 1)]
    let one := s.setCore 1 (s.modMy fun t => { t with act := { t.act with holdReq := [(2, 9)] } }).me
    next (exec (.holdx g0 3 1) one) (fun t => (t.strand 1).act.holdReq == [(2, 9), (0, one.fab.nextNum)] && t.seq.out == some one.fab.nextNum) = true := by
  decide +kernel

/-- TasksSpawnAndDistribute: a full deque whose overflow area PROC0 does not map. -/
theorem test_spawn_stalls :
    let s := (put xs [(2, 0x1234)]).modPart 0 fun t => { t with procs := [] }
    let full := s.modWork 0 fun w => { w with deque := List.replicate 32 tcb0 }
    full.overflowMapped 0 = false ∧ stalls (exec (.spawn g0 2 5) full) .spawnStall = true := by decide +kernel


/-! ## Further clauses: engines, control registers, the micro-kernel -/

/-- EngineInstructionsSendTheirCommand: an absent cluster, a ring that does not fit, one that is busy, an `unsub` of another unit. -/
theorem test_engine_issue_checks :
    let ring : Nat := (4096 + 1 * 2 ^ 34 + 64 * 2 ^ 48 + 10 * 2 ^ 64 + 20 * 2 ^ 70) * 2 ^ 128
    let r (n : Nat) : State := cp xs 1024 80 (9 + n + (patt 0 128 + 3 * 2 ^ 116) * 2 ^ 256)
    let busy (s : State) : State := { obj s fun o => { o with rings := [(3, ⟨0, some 1⟩)] } with cmds := [comm .sub .accepted 9 80], nextCmd := 2 }
    let gone := (cp xs 1024 80 copyBlk).modClus 0 fun k => { k with place := Table.set k.place 1 0x4000 }
    (gone.parsePlace 8 matches .core 1 0) = true ∧ next (exec (.cpy g0 (eng 8 0)) gone) (caused .placeInvalid) = true
      ∧ next (exec (.subscribe g0 3 (eng 0x4000 0)) (r (ring + 2 ^ 204))) (trapped .windowBounds 1024) = true
      ∧ next (exec (.subscribe g0 3 (eng 0x4000 0)) (busy (r ring))) (trapped .queueMisuse 3) = true
      ∧ next (exec (.drain g0 3 (eng 0x4000 0)) (busy (r ring))) (trapped .queueMisuse 3) = true
      ∧ next (exec (.unsub g0 3 (eng 0x4001 0)) (busy (r ring))) (trapped .placeInvalid 0x4001) = true := by decide +kernel

/-- EngineCommandsRunToCompletion: a refinement queue that is full, `unsub` with nothing to stop, with a command between tiles
and within one, and the completion entries of a command. -/
theorem test_more_engine_commands :
    let u : Cmd := { comm .unsub .sent 9 80 with id := 2, seqNo := 1 }
    let d (o : Bool) (p : Phase) : Cmd := { comm .sub p 9 80 with tileOpen := o }
    let s (l : List Cmd) : State := { xs with cmds := l, nextCmd := 3 }
    let ph (t : State) (n : Nat) : Option (Phase × Bool) := (t.cmd n).map fun c => (c.phase, c.stopReq)
    let rlc : Cmd := comm .rlc .sent 9 80
    let full := (s [rlc]).modClus 0 fun k => { k with rlc := { k.rlc with queue := [5, 6, 7, 8] } }
    let done := (withCmd (comm .cpy (.landed 8) (copyBlk + 2 ^ 56) 80)).modWork 0 fun w => { w with cplq := [⟨1, false, 0, 0, 0, 0⟩] }
    full.rlcFull rlc = true ∧ next (exec (.engineAccept 1) full) (fun t => ph t 1 == some (.sent, false)) = true
      ∧ (s [u]).cmdStat u = 0
      ∧ next (exec (.engineAccept 2) (s [u])) (fun t => ph t 2 == some (.landed 1, false)) = true
      ∧ next (exec (.engineAccept 2) (s [d false .accepted, u])) (fun t => ph t 2 == some (.accepted, false) && ph t 1 == some (.landed 8, true)) = true
      ∧ next (exec (.engineAccept 2) (s [d true .accepted, u])) (fun t => ph t 2 == some (.accepted, false) && ph t 1 == some (.accepted, true)) = true
      ∧ next (exec (.engineComplete 1) done) (fun t => (t.core 0).work.cplq.map (fun e => (e.ready, e.stat)) == [(true, 8)]) = true := by decide +kernel

/-- EngineEventsFollowTheirRules: a follow-on at a core without the matrix feature, and within a matrix instruction; a fault that
stops its command. -/
theorem test_more_engine_events :
    let fol : Cmd := { comm .cpym .accepted (copyBlk + ((encode (.mclr g0 1)).getD (0, 0)).2 * 2 ^ 640) 112 with matPending := true }
    let s := withCmd fol
    let mid := s.modSeq fun c => { c with wait := some ⟨.answer, 0, none, none⟩, kept := [.word 0 true], fetched := leBytesOf 8 ((encode (.mclr g0 1)).getD (0, 0)).2 }
    let bad : Cmd := comm .cpy (.landed 0) copyBlk 80
    let f : State := { withCmd bad with fab := { xs.fab with lines := [⟨xs.cpHome 0 1038, Key.cp 0 1038 / 64, .core 9, 0, 2 ^ 14, .r⟩] } }
    next (exec (.cpymFollowOn 1) (s.modMe fun c => { c with feat := 0 })) (fun t => (t.cmd 1).map (·.phase) == some (.landed 1)) = true
      ∧ mid.seq.inArray = true ∧ next (exec (.cpymFollowOn 1) mid) (fun t => (t.cmd 1).map (·.phase) == some .accepted) = true
      ∧ f.engineFault bad = some (5, 1038)
      ∧ next (exec (.engineFaultStop 1) f) (fun t => (t.cmd 1).map (·.phase) == some (.faulted 5 1038) && t.me.pendFaults == [(9, 1)]) = true := by decide +kernel

/-- Its collective clauses, of cores 0 and 1: no mate yet, a mate of another kind, a read, a mate that has not read all, and the
write of both at core 0. -/
theorem test_collectives :
    let c (i : Nat) (kind : Nat) (got : List (Nat × List Byte)) : Cmd :=
      { comm .coll .accepted (9 + (kind + 2 * 2 ^ 6) * 2 ^ 128 + (patt 2048 1 + 2 * 2 ^ 112 - 3 * 2 ^ 112) * 2 ^ 256 + (patt 3072 1 + 2 * 2 ^ 112 - 3 * 2 ^ 112) * 2 ^ 512) 96 with id := i + 1, issuer := i, got := got }
    let s (l : List Cmd) : State := { cp ((xs.setMsh 0 2 { Msh.reset with block := meshBlock }).setMsh 1 2 { Msh.reset with block := meshBlock }) 2048 2 0x0201 with cmds := l, nextCmd := 3 }
    let ph (t : State) : List Phase := t.cmds.map (·.phase)
    let run (l : List Cmd) (f : State → Bool) : Bool := next (exec (.collCombine 1) (s l)) f
    (s []).collGroup (c 0 0 []) = [0, 1] ∧ (c 0 0 []).total = 1 ∧ (c 0 0 []).unread = [0]
      ∧ run [c 0 0 []] (fun t => t.cmds == [c 0 0 []]) = true
      ∧ run [c 0 0 [], c 1 1 []] (fun t => ph t == [.landed 1, .landed 1]) = true
      ∧ run [c 0 0 [], c 1 0 []] (fun t => (t.cmd 1).map (fun d => d.got.map (·.1)) == some [0] && ph t == [.accepted, .accepted]) = true
      ∧ run [c 0 0 [(0, [1, 0])], c 1 0 []] (fun t => t.cmds == [c 0 0 [(0, [1, 0])], c 1 0 []]) = true
      ∧ run [c 0 0 [(0, [1, 0])], c 1 0 [(0, [2, 0])]] (fun t => (t.cmd 1).map (·.addend) == some 1) = true := by decide +kernel

/-- RefinementRunsItsSteps: a command with INIT. -/
theorem witness_refinement_starts :
    ({ runCmd with blk := leBytesOf 80 (leOf runCmd.blk + 2 ^ 296) } : Cmd).refine.init = true := by
  decide +kernel

/-- ControlRegistersReadAndWrite: in a cycle in which the other sequencer has written, the value before that write is read. -/
theorem test_reads_in_a_shared_cycle :
    let s := { xs.modMy fun t => { t with csr := { t.csr with deadline := 9 } } with cycle := some (0, (xs.modMy fun t => { t with csr := { t.csr with deadline := 4 } }).me) }
    next (exec (.csrr g0 3 .deadline) s) (fun t => t.seq.readS 3 == 4) = true
      ∧ next (exec (.csrr g0 3 .deadline) { s with cycle := none }) (fun t => t.seq.readS 3 == 9) = true
      ∧ next (exec (.csrr g0 3 .deadline) { s with cycle := some (1, s.me) }) (fun t => t.seq.readS 3 == 9) = true := by decide +kernel

/-- QueriesAndTableWrites: the tables of a physical number that no cluster has, and those that a running core goes on with. -/
theorem test_spare_tables :
    let m := put (atLevel .management) [(1, 0x20000 + 2303), (2, 0x8000), (4, 0x20000)]
    (m.clusterAt 2303).isNone = true ∧ next (exec (.plsetPlace g0 3 1 2) m) (fun t => (Table.find t.spares 2303).map (fun k => Table.get 0 k.place 2) == some 0x8000 && t.seq.readS 3 == 0) = true
      ∧ next (exec (.plsetPlace g0 3 4 2) m) (fun t => t.me.oldTabs == some (m.tabsOf 0) && Table.get 0 (t.clus 0).place 2 == 0x8000 && t.placeEntry 0 2 == m.placeEntry 0 2) = true
      ∧ next (exec (.plsetPlace g0 3 4 2) (m.modPart 0 fun t => { t with paused := true })) (fun t => t.me.oldTabs == none && t.placeEntry 0 2 == 0x8000) = true := by decide +kernel

/-- MicroKernelActsOnEachCause: a stream's miss, a bad instruction of a stream, and an engine's fault that the supervisor settles. -/
theorem test_micro_kernel_more :
    let s (c : Cause) (v : Word) : State := (xs.modSeq fun q => { q with level := .supervisor, inTrap := true, pc := 0xEC00 }).modMy fun t =>
      { t with csr := { t.csr with cause := ⟨false, false, true, BitVec.ofNat 8 c.code⟩, xpc := 40, tval := v } }
    let st (f : Cause) (s : State) : State := s.modMy fun t => { t with vec := { t.vec with streams := [(24, ⟨0, .i32, 0, [.fault f 5], false, 0, Vector.replicate 32 0⟩)] } }
    let e : State := { s .engineFault 9 with cmds := [{ withCmd (comm .cpy (.faulted 6 3) copyBlk 80) |>.cmds.headD (comm .cpy .sent 0 80) with phase := .faulted 6 3 }] }
    ((st .translation (s .streamFault 24)).microKernel 0).me.parkedFault = true ∧ ((st .format (s .streamFault 24)).microKernel 0).me.running = false
      ∧ ((s .engineFault (2 ^ 63)).microKernel 0).me.running = false
      ∧ ((e.microKernel 0).cmd 1).map (·.phase) = some (.landed 6) ∧ (e.microKernel 0).seq.level = .user ∧ (e.faulted 0 9).isSome = true := by decide +kernel


/-! ## Further clauses: activation, sharing, the mesh, tenants, the host -/

/-- ActivationStartsTheBestCandidate: a completion's strand, a deque that is filled again, a parked strand's interval, and an entry
sent on to a core with the features. -/
theorem test_more_activation :
    let y := { idleS.modWork 0 fun w => { w with cplq := [⟨1, true, 8, 4, 0, 0⟩] } with cmds := [comm .cpy .done (copyBlk + 3 * 2 ^ 48 + 2 ^ 56) 80], nextCmd := 2 }
    let d := idleS.modWork 0 fun w => { w with deque := [tcb0], overflow := List.replicate 10 tcb0 }
    let k : Parked := ⟨0, { Strand.reset with act := { Act.reset with sid := 55 }, xs := { xs.seq with pc := 48 } }, 9, false, 0, 1, [], true, 1, 0, 0⟩
    let need : State := { (idleS.modWork 0 fun w => { w with inbox := [{ entry0 with pass := 2, up := 1 }] }).setCore 1 { Core.reset with part := some 0, feat := 0x3F } with
      mem := Memory.setAll idleS.mem ((span (Key.hbm (xs.slotStation 0) (20480 + 2048)) 32).zip (leBytesOf 32 (7 * 2 ^ 160 + 3 * 2 ^ 152 + 0x20 * 2 ^ 112 + 64 * 2 ^ 32))) }
    next (exec (.activation 0) y) (fun t => t.seq.readS 1 == 8 && t.seq.readS 2 == 9 && t.seq.readS 3 == 1024 && t.my.csr.xferid == 9 && t.me.work.cplq == []) = true
      ∧ next (exec (.activation 0) d) (fun t => (t.core 0).work.deque.length == 10 && (t.core 0).work.overflow == [] && (t.core 0).interval == 0) = true
      ∧ next (exec (.activation 0) (idleS.modPart 0 fun t => { t with parked := [k] })) (fun t => (t.core 0).interval == idleS.me.interval + 1) = true
      ∧ next (exec (.activation 0) need) (fun t => t.fab.net.map (fun k => match k.body with | .active m _ _ => (k.dst, m.pass, m.up) | _ => (0, 0, 0)) == [(1, 2, 1)]) = true := by
  decide +kernel

/-- StealingMovesTasks: a search that ends, a shipment with a persistent region, an answer to a victim whose deque is more than half full. -/
theorem test_more_stealing :
    let k (vn : Vn) (b : Body) (s : State) : State := packet ⟨4, 8, 0, vn, 0, 0, 0, b, false, 0, Way.done⟩ s
    let st (d : Nat) : State := { rowS.modClus 0 fun k => { k with steal := { k.steal with asked := true, retryAt := 64, distance := d } } with tick := 64 }
    let sh := (rowS.modPart 0 fun t => { t with procs := [] }).modWork 0 fun w => { w with deque := List.replicate 17 tcb0, shipments := [⟨8, 16, [{ tcb0 with regions := [(64, [1])] }], 0⟩] }
    next (exec (.stealRetryTimer 0) (st 9)) (fun t => !(t.clus 0).steal.asked && t.fab.net == []) = true
      ∧ next (exec (.stealShipment 8 0) (k .mgmt (.shipment 7 [{ tcb0 with regions := [(64, [0xAB])] }]) rowS)) (fun t => cpAt t 0 64 1 == 0xAB && (t.core 0).work.deque == [tcb0]) = true
      ∧ next (exec (.transitQueryAnswer 8 0) (k .reply (.shipKnown 16 false) sh)) (fun t => (t.core 0).work.deque.length == 17 && (t.core 0).work.overflow == [tcb0]) = true := by
  decide +kernel

/-- LoadIsExchangedAndAveraged: half of the difference leaves a core with nothing spilled. -/
theorem test_average :
    let a := rowS.modWork 0 fun w => { w with figure := 12, deque := List.replicate 12 tcb0 }
    ((a.average 0).core 0).work.deque.length = 6 ∧ ((a.average 0).core 0).work.overflow = [] := by decide +kernel

/-- TimersRunOut: a page that cannot be mapped holds its strand under DEBUGHOLD, and fails the launch of a stalled `spawn`. -/
theorem test_unmapped_pages :
    let f := (xs.modMe fun c => { c with parkedFault := true }).modPart 0 fun t => { t with attrs := { t.attrs with debugHold := true } }
    let sp := ((xs.modSeq fun q => { q with wait := some ⟨.spawnStall, 0, none, some (0, .mgmt, .shipment 0 [tcb0])⟩ }).modPart 0 fun t => { t with launch := some launch0 })
    (sp.stalledSpawn 0).isSome = true
      ∧ next (exec (.pageServiceAnswer 0 false) f) (fun t => !t.me.running && (t.part 0).parked.length == 1) = true
      ∧ next (exec (.pageServiceAnswer 0 false) sp) (fun t => !t.me.running && (t.part 0).launch.map (·.translation) == some true && t.host.results == []) = true := by
  decide +kernel

/-- TimersRunOut: inside an open user trap DEADLINE goes to the supervisor, which makes the record and returns. -/
theorem test_deadline_in_a_handler :
    let d : State := { xs with tick := 9 }.modMy fun t => { t with csr := { t.csr with deadline := 5, utvec := 0x40, utmask := 0x20000, cause := ⟨false, true, true, 0x14⟩ } }
    next (exec (.deadlinePass 0) d) (fun t => trapped .deadline 5 t && t.seq.level == .supervisor
      && (t.microKernel 0).my.csr.holdst.dlmiss && (t.microKernel 0).seq.level == .user) = true := by decide +kernel

/-- ConflictsAreFoundByteByByte: an engine's range entry, held, opened, and one too many. -/
theorem test_range_entries :
    let r : RangeEntry := ⟨xs.cpHome 0 64, 1, Key.cp 0 64, Key.cp 0 72, .w, 0⟩
    let a : Access := { req .w (.write [1]) 64 1 with party := .cmd 1, range := some r }
    let s (l : List RangeEntry) : State := { xs with fab := { xs.fab with ranges := l } }
    let chk (l : List RangeEntry) : Option Nat := match (s l).checked a [Key.cp 0 64] with | .error _ => none | .ok none => some 0 | .ok (some t) => some t.fab.ranges.length
    chk [] = some 1 ∧ chk [r] = some 1 ∧ chk (List.replicate 63 { r with cmd := 2, lo := 0, hi := 0 }) = some 64
      ∧ chk (List.replicate 64 { r with cmd := 2, lo := 0, hi := 0 }) = some 0 ∧ chk [{ r with cmd := 2 }] = none := by decide +kernel

/-- RingsEnqueueAndDequeue: a ring whose slot is in the supervisor region is barred at user level, but an empty one touches
no slot. -/
theorem test_ring_barred :
    let run (tail : Nat) : Applied :=
      (cp xs 0xEBE0 24 (tail * 2 ^ 64 + 2 * 2 ^ 128)).performRing (req .a (.atomic .deq) 0xEBE0 32) 0 true 0 (Key.cp 0 0xEBE0) 0xEBE0 65536 false
    (match run 1 with | .done _ (.trap c v) => c == .accessRights && v == 0xEBE0 | _ => false) = true
      ∧ (match run 0 with | .done _ (.word v ok) => v == 0 && !ok | _ => false) = true := by decide +kernel

/-- HomesTakeAccessesInOrder: an access that leaves its cluster, one still on its way, a marked load, a close that is sent. -/
theorem test_more_homes :
    let far : Access := { rowS.coreAccess (.cp 8 0) .r .read (.keys (span (Key.cp 8 0) 8)) (Key.cp 8 0) with num := 4 }
    let s := (as_.modMy fun t => { t with q := { t.q with lq := t.q.lq.set 1 [.pending 4 ⟨.cp, 66, .i32⟩] } })
    let a : Access := { req .r .read 64 1 with num := 4, dest := .lq 0 1 4 }
    let w (x : Access) : State := { s with fab := { (clash s).fab with bufs := [x] } }
    let c : State := { xs.modMe fun c => { c with filter := [.station 1], interval := 3 } with cur := (0, .xs) }
    next (exec (.accessDispatch 0 .core) { rowS with fab := { rowS.fab with issue := [far] } }) (fun t =>
        t.fab.bufs.map (fun b => b.way.path.map (·.dir)) == [[.east, .home]] && t.fab.order == rowS.fab.order + 1) = true
      ∧ next (exec (.accessApply 0 .core (.cp 0 1)) (w { a with way := ⟨[⟨0, 0, .home, false⟩], 8, 0, 0, 0⟩ })) (fun t => t.fab.bufs.length == 1) = true
      ∧ next (exec (.accessApply 0 .core (.cp 0 1)) (w a)) (fun t => t.my.q.lq[1] == [.marked .memoryConflict 64 ⟨.cp, 66, .i32⟩]) = true
      ∧ ((c.closeInterval 0).core 0).interval = 4 ∧ ((c.closeInterval 0).core 0).filter = []
      ∧ (xs.servedNext 1 = none) ∧ ({ xs with fab := { xs.fab with bufs := [{ a with home := .station 1 }] } } : State).servedNext 1 ≠ none := by decide +kernel

/-- A partition with a corner at cluster 0, of four columns and four rows, of a shape. -/
def gridS (shape subn : Nat) : State := idleS.modPart 0 fun t => { t with attrs := { t.attrs with ncols := 4, nrows := 4, shape := shape, subn := subn } }

/-- PacketsTravelByTheMeshRules: a way along a row and a column; a station's step; each ring the shorter way, and the longer; a tree; a way with no dead link. -/
theorem test_ways :
    let h (r c : Nat) (d : Dir) (e : Bool) : Nat × Dir × Bool := (nodeOf r c, d, e)
    let hops (l : List Hop) : List (Nat × Dir × Bool) := l.map fun h => (h.node, h.dir, h.esc)
    let way (s : State) (a b : Place) (v : Vn) : List (Nat × Dir × Bool) := hops (s.plainWay 0 a b v)
    (way (gridS 0 0) 0 520 .amsg == [h 1 1 .east false, h 1 2 .south false, h 2 2 .home false]) = true
      ∧ (way (gridS 0 0) 16384 32773 .amsg == [h 0 1 .south true, h 1 1 .west false, h 1 0 .south false, h 2 0 .south false, h 3 0 .south false, h 4 0 .south false, h 5 0 .south false, h 6 0 .home false]) = true
      ∧ (way (gridS 1 0) 0 24 .amsg == [h 1 1 .west false, h 1 4 .home true]) = true ∧ (way (gridS 1 0) 0 16 .amsg == [h 1 1 .east false, h 1 2 .east false, h 1 3 .home false]) = true
      ∧ (way (gridS 3 1) 24 16 .amsg == [h 1 4 .east false, h 1 3 .home true]) = true ∧ (way (gridS 3 1) 0 8 .amsg == [h 1 1 .east false, h 1 2 .home false]) = true
      ∧ (way (gridS 2 0) 0 1536 .amsg == [h 1 1 .north false, h 4 1 .home true]) = true ∧ (way (gridS 2 0) 1536 0 .req == [h 4 1 .south false, h 1 1 .home true]) = true
      ∧ (way (gridS 4 0) 8 16 .sync == [h 1 2 .up false, h 1 1 .right false, h 1 3 .home false]) = true ∧ (way (gridS 4 0) 8 16 .amsg == [h 1 2 .east false, h 1 3 .home false]) = true
      ∧ (hops ((gridS 0 0).hopsOf 0 0 8 .amsg) == [h 1 1 .east false, h 1 2 .home false]) = true := by decide +kernel

/-- Each hop of a way leads to the next one's router: along a row, over a wrap link, over the tree. -/
theorem test_ways_join :
    let joined (l : List Hop) : Bool := (l.zip (l.drop 1)).all fun e => e.1.far == e.2.node
    joined ((gridS 0 0).plainWay 0 0 520 .amsg) = true ∧ joined ((gridS 1 0).plainWay 0 0 24 .amsg) = true
      ∧ joined ((gridS 4 0).plainWay 0 8 16 .sync) = true := by decide +kernel

/-- Its router outputs: a head moves; REPLY goes before AMSG; nothing to send. -/
theorem test_router_outputs :
    let w (n : Nat) : Way := ⟨[⟨nodeOf 1 1, nodeOf 1 2, .east, false⟩, ⟨nodeOf 1 2, nodeOf 1 2, .home, false⟩], 3, n, 0, 0⟩
    let k (n : Nat) (v : Vn) : Packet := ⟨n, 0, 8, v, 0, 0, 0, .stealReq, false, 0, w n⟩
    let s := packet (k 2 .reply) (packet (k 1 .amsg) xs)
    (s.hop (nodeOf 1 1) .east).fab.net.map (fun x => (x.num, x.way.path.length)) = [(1, 2), (2, 1)]
      ∧ (s.hop (nodeOf 1 1) .west).fab.net = s.fab.net ∧ (s.hop (nodeOf 1 1) .east).fab.order = s.fab.order + 1 := by decide +kernel

/-- MeshRecoversFromStuckAndDead: a partition with no route through a dead link goes on, one with its row there pauses. -/
theorem test_dead_links :
    next (exec (.linkDead (linkNum (nodeOf 5 1) (nodeOf 5 2) 0) []) xs) (fun t => !(t.part 0).paused && t.fab.deadLinks.length == 1) = true
      ∧ next (exec (.linkDead (linkNum (nodeOf 1 1) (nodeOf 1 2) 0) []) xs) (fun t => (t.part 0).paused) = true
      ∧ next (exec (.linkDead (linkNum (nodeOf 5 1) (nodeOf 5 2) 0) []) { xs with sublinks := [(32, ⟨1, some 0, true, none, []⟩)] }) (fun t => (t.part 0).paused) = true := by decide +kernel

/-- TenantsAreSlicedAndSwitched: the next in turn past the present one, and the lowest where none is past it. -/
theorem test_next_tenants :
    let x : Tenant := ⟨none, 0, [launch0], none⟩
    let s (n : Nat) : State := idleS.modPart 0 fun t => { t with tenants := [(0, x), (3, x), (5, x)], tenant := n }
    (s 3).nextTenant 0 = some 5 ∧ (s 5).nextTenant 0 = some 0 ∧ (s 0).nextTenant 0 = some 3 := by decide +kernel

/-- A record of partition 0 under the present firmware, and the partition with a tenant that has it. -/
def savedR : Save :=
  ⟨(sm3 [] ++ (0 : BitVec 256)).cast rfl, [], Config.fwLayout 0, 0, 1, 1, 0, 0, [], [(0, Core.reset)], [], [], [], [], [], some launch0, []⟩
def savedS : State := idleS.modPart 0 fun t => { t with tenants := [(3, ⟨none, 0, [], some savedR⟩)] }

/-- A record with that header and no body restores, whatever strands it holds. -/
theorem savedR_restores (cs : Table Core) (ks : List Parked) : savedS.restoreStatus 0 { savedR with cores := cs, parked := ks } = none := by
  have h0 : ¬ (savedR.layout.toNat + 1 < (Config.fwLayout savedS.fw.active.val).toNat ∨ (Config.fwLayout savedS.fw.active.val).toNat < savedR.layout.toNat) := by
    show ¬ ((Config.fwLayout 0).toNat + 1 < (Config.fwLayout 0).toNat ∨ (Config.fwLayout 0).toNat < (Config.fwLayout 0).toNat)
    omega
  have h1 : ¬ (savedR.header.extractLsb' 256 256 != sm3 savedR.body) = true := by decide +kernel
  have h2 : ¬ (savedR.cols ≠ (savedS.part 0).attrs.ncols ∨ savedR.rows ≠ (savedS.part 0).attrs.nrows) := by decide +kernel
  have h3 : ¬ (!savedS.featuresMet 0 savedR.fneed) = true := by decide +kernel
  simp only [State.restoreStatus, if_neg h0, if_neg h1, if_neg h2, if_neg h3]

/-- Its clauses of a record: a tenant whose record qualifies is sliced in. -/
theorem witness_saved_tenant :
    (Table.find (savedS.part 0).tenants 3).bind (·.saved) = some savedR ∧ savedS.restoreStatus 0 savedR = none ∧ savedS.nextTenant 0 = some 3 := by
  have h : savedS.restoreStatus 0 savedR = none := savedR_restores savedR.cores savedR.parked
  refine ⟨rfl, h, ?_⟩
  have t : (savedS.part 0).tenants = [(3, ⟨none, 0, [], some savedR⟩)] := rfl
  have n : (savedS.part 0).tenant = 0 := rfl
  have l : savedR.launch.isSome = true := rfl
  simp [State.nextTenant, t, n, l, Tenant.waiting, State.sliceable, h]

/-- The same of a record whose one strand is held. -/
theorem witness_saved_parked (k : Parked) :
    let r : Save := { savedR with cores := [], parked := [k] }
    r.cores = [] ∧ r.parked = [k] ∧ savedS.restoreStatus 0 r = none := ⟨rfl, rfl, savedR_restores [] [k]⟩

/-- FailedUnitsAreRetired: what a physical core has lost stays lost. -/
theorem test_worn :
    next (exec (.selfTestEnd (.feature 0 1) false) (idleS.modCore 0 fun c => { c with testing := true })) (fun t => Table.get 0 t.worn 0 == 2) = true := by decide +kernel

/-- HostCommandsAreCheckedFirst: nonzero reserved bytes, a body of another length, a management command for a tenant, an opcode of no command. -/
theorem test_more_host_checks :
    let odd (h : CmdHead) (s : State) : Option (Bool × Nat × Nat) := res (step { s with agenda := [.badOpcode h] })
    res (exec (.keep { head0 with zero := 1 }) hostS) = some (true, 1, 0) ∧ res (exec (.keep { head0 with rsvd := 1 }) hostS) = some (true, 1, 0)
      ∧ res (exec (.keep (hd 1)) hostS) = some (true, 1, 0) ∧ res (exec (.powercap { hd 8 with tenant := 1 } 5000) hostS) = some (true, 1, 0)
      ∧ res (exec (.quote (hd 32) (List.replicate 31 0)) hostS) = some (true, 1, 0)
      ∧ odd head0 hostS = some (true, 1, 0) ∧ odd { head0 with fn := .pf 1 } hostS = some (true, 2, 0) ∧ odd { head0 with descs := [(true, 1000)] } hostS = some (false, 1, 0)
      ∧ res (exec (.recover (hd 15) []) { hostS with fw := { hostS.fw with recovery := true } }) = some (true, 1, 0) := by decide +kernel

/-- HostAndPackageEvents: a sub-link without a peer, a command queue's size and interrupt. -/
theorem test_more_host_events :
    let l (p : Option Nat) (o : Option Nat) : State := { hostS with sublinks := [(17, ⟨1, o, true, p, [4]⟩)] }
    let turn (t : Turn) (s : State) (f : State → Bool) : Bool := next (step { s with agenda := [t] }) f
    let used := next (exec (.keep head0) hostS) fun t => (t.queue (.pf 0) 0).used == 1 && turn (.interrupt (.pf 0) 0) t fun u => (u.queue (.pf 0) 0).told == 1
    next (exec (.scaleupMessage 2 1 0 [1, 2, 3, 4, 5, 6] 0 (some 5)) (mb 0 5 (l none (some 0)))) (fun t => cpAt t 0 64 8 == 0) = true
      ∧ turn (.queueSize (.pf 0) 0 2) hostS (fun t => (t.queue (.pf 0) 0).size == 2) = true ∧ turn (.queueSize (.pf 0) 0 3) hostS (fun t => (t.queue (.pf 0) 0).size == 1024) = true
      ∧ turn (.queueSize (.vf 1) 1 2) hostS (fun t => t.host.queues == []) = true ∧ used = true := by decide +kernel


/-! ## Clauses of the shared state: replies, permissions, losses, ways, results -/

/-- MessagesLeaveAsOnePacket and AnsweredMessagesWriteTheirStatus: a send that asks for a reply reserves a slot of mailbox 5, or traps
where that is disabled; any answer but ACCEPTED frees the slot. -/
theorem test_reserved_replies :
    let s := put xs [(1, 1), (2, 2 ^ 14 + 5 * 2 ^ 8)]
    let told := (toldS 3 0 ((mb 0 5 s).setMbx 0 5 { (mb 0 5 s).mbx 0 5 with slots := [.taken, .reserved 40 0] })).modSeq fun c => { c with latch := some 40 }
    next (exec (.send g0 3 1 2 7 9) s) (trapped .windowBounds 5) = true
      ∧ next (exec (.send g0 3 1 2 7 9) (mb 0 5 s)) (fun t => (match (t.mbx 0 5).slots with | [.reserved _ _, .free] => true | _ => false) && (t.mbx 0 5).wix == 1
          && t.fab.net.any fun k => match k.body with | .active m _ _ => m.hdr.getLsbD 47 && m.rr.toNat / 2 ^ 14 % 64 == 5 | _ => false) = true
      ∧ (issuedReply told.seq (told.seq.readS 2)) = (true, 5) ∧ (told.mbx 0 5).reservedAt 40 = some 1
      ∧ next (exec (.sendt g0 3 1 2 7 9) told) (fun t => (t.mbx 0 5).slots == [.taken, .free] && t.seq.readS 3 == 0x20003) = true := by decide +kernel

/-- MeshBarrierInstructions and LocalBarrierInstructions: an arrival without the corner's permission bit, and one in the cycle in which
the other sequencer has flipped the phase. -/
theorem test_refused_arrivals :
    let m : State := (xs.setMsh 0 2 { Msh.reset with block := meshBlock }).modClus 0 fun k => { k with perm := [] }
    let s := xs.setLb 0 7 ⟨true, 3, 1, 0, 0⟩
    m.permits 0 (meshCorner meshBlock / 8) = false ∧ xs.permits 0 (meshCorner meshBlock / 8) = true
      ∧ next (exec (.mshar g0 2) m) (caused .permission) = true
      ∧ next (exec (.lbarr g0 0 7) { s with cycle := some (0, (xs.setLb 0 7 ⟨false, 3, 1, 0, 0⟩).me) }) (trapped .queueMisuse 7) = true
      ∧ next (exec (.lbarr g0 0 7) { s with cycle := some (0, s.me) }) (fun t => t.lb 0 7 == ⟨false, 3, 3, 0, 0⟩) = true := by decide +kernel

/-- EngineCommandsRunToCompletion: a FORMAT failure at acceptance, the bytes that a landing retires on LBX, the completion of a refinement that an abort waits for, and a write to a replicated page that has not committed. -/
theorem test_engine_answers :
    let planed := 12 * 2 ^ 112 + 2 ^ 118 + 3 * 2 ^ 134
    let bad := withCmd (comm .cpy .sent (copyBlk + planed * 2 ^ 128 + planed * 2 ^ 384) 80)
    let lb := withCmd (comm .cpy .accepted (copyBlk + 2 ^ 58 + 5 * 2 ^ 96) 80)
    let run := (running false 2 [(0, 4)]).modSeq fun c => { c with out := some 4 }
    let ended : State := { run with cmds := [{ runCmd with phase := .landed 8 }] }
    let rep : State := { withCmd (comm .cpy (.landed 0) copyBlk 80) with fab := { xs.fab with repl := [⟨0, 0, .cmd 1, [], [], 0⟩] } }
    next (exec (.engineAccept 1) bad) (fun t => (t.cmd 1).map (·.phase) == some (.faulted 4 0) && t.me.pendFaults == [(9, 1)]) = true
      ∧ next (exec (.engineWriteLand 1) (lb.setLb 0 5 ⟨false, 0, 0, 1, 0⟩)) (fun t => t.lb 0 5 == ⟨true, 0, 0, 0, 0⟩) = true
      ∧ next (exec (.engineWriteLand 1) (lb.setLb 0 5 ⟨false, 0, 0, 3, 0⟩)) (fun t => (t.lb 0 5).txb == 2) = true
      ∧ next (exec (.engineWriteLand 1) lb) (fun t => t.lb 0 5 == lb.lb 0 5) = true
      ∧ next (exec (.engineComplete 1) ended) (fun t => (t.clus 0).rlc.run == none && t.seq.kept == [.word 0 true] && t.seq.out == none) = true
      ∧ rep.uncommitted 1 = true ∧ next (exec (.engineComplete 1) rep) (fun t => (t.cmd 1).map (·.phase) == some (.landed 0)) = true
      ∧ (withCmd (comm .cpy (.landed 8) copyBlk 80)).uncommitted 1 = false := by decide +kernel

/-- MicroKernelActsOnEachCause: the end of a strand that owes a reply and has withheld an object. -/
theorem test_end_of_a_strand :
    let s := (xs.modMy fun t => { t with act := { t.act with owed := some ⟨2, 7, 40⟩, lid := 9 } }).modPart 0 fun t =>
      { t with marks := [⟨⟨.sem, 0, 4⟩, xs.my.act.sid, 0⟩], launch := some launch0 }
    let u := s.killStrand 0 .format
    u.me.running = false ∧ u.fab.net.map (fun k => (k.dst, k.vn, k.body)) = [(2, .reply, .reply 7 40 true [0, 0, 0, 0, 0, 0])]
      ∧ (u.part 0).marks = [] ∧ (u.part 0).pois = [⟨.sem, 0, 4⟩] ∧ (u.part 0).launch.map (·.fault) = some true := by decide +kernel

/-- LaunchesStartAndComplete: a root that is denied, or discarded, on its way. -/
theorem test_lost_roots :
    let told (stat : Nat) : State := packet ⟨9, 0, 0x8000, .reply, 0, 4, 0, .answer .as (.msg stat 0), false, 0, Way.done⟩
      (idleS.modPart 0 fun t => { t with launch := some { launch0 with rootNum := 4, delivered := true } })
    let ends (stat status : Nat) : Bool := next (exec (.answerArrival 0x8000 .as) (told stat)) fun t =>
      (t.part 0).launch == none && t.host.results.map (fun r => (r.status, r.flags, r.lid, r.tag)) == [(status, 0, 9, 77)]
    ((told 2).answerFor 0x8000 .as).isSome = true ∧ ends 2 15 = true ∧ ends 3 2 = true
      ∧ next (exec (.answerArrival 0x8000 .as) (told 0)) (fun t => (t.part 0).launch.isSome) = true := by decide +kernel

/-- ActivationStartsTheBestCandidate: of an older inbox entry and a newer one, the older is taken and the newer passed over once. -/
theorem test_passed_over :
    let s := idleS.modWork 0 fun w => { w with inbox := [{ entry0 with tick := 1, order := 5 }, { entry0 with tick := 3, order := 6 }] }
    next (exec (.activation 0) s) (fun t => t.me.running && (t.core 0).work.inbox.map (fun e => (e.order, e.pass)) == [(6, 1)]) = true := by decide +kernel

/-- PacketsTravelByTheMeshRules: a head that waits alone takes no turn. -/
theorem test_lone_head :
    let w : Way := ⟨[⟨nodeOf 1 1, nodeOf 1 2, .east, false⟩, ⟨nodeOf 1 2, nodeOf 1 2, .home, false⟩], 3, 0, 0, 0⟩
    let s := packet ⟨4, 0, 8, .amsg, 0, 0, 0, .stealReq, false, 0, w⟩ xs
    (s.hop (nodeOf 1 1) .east).outlet (nodeOf 1 1) .east = s.outlet (nodeOf 1 1) .east
      ∧ (s.hop (nodeOf 1 1) .east).fab.net.map (fun k => k.way.path.length) = [1] := by decide +kernel

/-- Its detours, and MeshRecoversFromStuckAndDead: the way to the next column crosses the link; the way over the row south does not. -/
theorem witness_detours :
    let link := linkNum (nodeOf 1 1) (nodeOf 1 2) 0
    let s : State := { xs with fab := { xs.fab with deadLinks := [link] } }
    (∃ h ∈ s.plainWay 0 0 8 .amsg, Claims.dead s h) ∧ onMesh s (2, 1) ∧ ∀ h ∈ overRouter (1, 1) (2, 1) (1, 2), ¬ Claims.dead s h := by
  unfold Claims.dead onMesh
  decide +kernel

/-- HomesTakeAccessesInOrder: a close goes to every home of the partition and every station where the filter has overflowed; an access
that left its cluster is answered over REPLY. -/
theorem test_homes_of_an_overflow :
    let c := { xs.modMe fun c => { c with overflowed := true, filter := [], interval := 3 } with
      fab := { xs.fab with lines := [Home.cp 0 1, .cm 0 31, .station (xs.stationOf 0 0)].map fun h => ⟨h, 0, .core 0, 2, 1, .r⟩ } }
    let far : Access := { rowS.coreAccess (.cp 8 0) .r .read (.keys (span (Key.cp 8 0) 8)) (Key.cp 8 0) with num := 4, dest := .seq 0 .xs }
    let s : State := { rowS with fab := { rowS.fab with bufs := [{ far with way := Way.done }] } }
    (c.closeInterval 0).fab.lines = [] ∧ ((c.modMe fun c => { c with overflowed := false }).closeInterval 0).fab.lines = c.fab.lines
      ∧ next (exec (.accessApply 0 .core (.cp 8 0)) s) (fun t => t.fab.net.map (fun k => (k.src, k.dst, k.vn)) == [(8, 0, .reply)]) = true := by
  decide +kernel

/-- FailedUnitsAreRetired and HostAndPackageEvents: a retirement marks the launch in flight; a lost sub-link ends an `xfer` that stopped
on a fault. -/
theorem test_losses :
    let x : Cmd := { comm .xfer (.faulted 4 0) (copyBlk + 0xC002 * 2 ^ 144) 80 with user := true }
    let l : State := { hostS with sublinks := [(17, ⟨1, some 0, true, some 9, [4]⟩)], cmds := [x] }
    next (exec (.selfTestEnd (.feature 0 1) false) ((idleS.modPart 0 fun t => { t with launch := some launch0 }).modCore 0 fun c => { c with testing := true }))
        (fun t => (t.part 0).launch.map (·.retired) == some true) = true
      ∧ next (exec (.sublinkDown (l.xferPort x) x.subl) { l with sublinks := [(l.xferPort x * 8 + x.subl, ⟨1, some 0, true, some 9, [4]⟩)] })
        (fun t => (t.cmd 1).map (·.phase) == some (.landed 9)) = true := by decide +kernel

/-- HostCommandsAreCheckedFirst, ManagementCommandsTakeEffect and HostAndPackageEvents: a result descriptor without room for USAGE's result, and
one that comes first; the launch of a sliced-out tenant, aborted by DESTROY and busy for RESTITCH; the record of a partition that is gone. -/
theorem test_host_corners :
    let out : State := hostS.modPart 0 fun t => { t with tenants := [(0, ⟨none, 0, [], none⟩), (3, ⟨some 7, 1, [], some savedR⟩)] }
    let u : Usage := ⟨0, 2, 0, 0, [], 0, 0, false⟩
    let q (b : Bool) : State := { hostS with host := { hostS.host with usageQ0 := [(0, { u with taken := b })] } }.modPart 0 fun t => { t with usage := [u] }
    res (exec (.keep { head0 with descs := [(false, 16), (true, 31)] }) hostS) = some (false, 1, 0)
      ∧ res (exec (.keep { head0 with descs := [(true, 1000), (false, 16)] }) hostS) = some (false, 1, 0)
      ∧ next (exec (.destroy (hd 8) 0 false) out) (fun t => t.host.results.any fun r => r.tag == 77 && r.flags / 32 % 2 == 1) = true
      ∧ res (exec (.restitch (hd 8) 0 1 0) out) = some (true, 7, 0)
      ∧ next (exec (.usageQueueTake 0) (q false)) (fun t => (t.part 0).usage.map (·.taken) == [true]) = true
      ∧ next (exec (.usageQueueTake 0) (q true)) (fun t => (t.part 0).usage.map (·.taken) == [false]) = true := by decide +kernel

end Sys2Proof.Tests
end

section
/-! What the module holds at reset: the parts of the reset state and what their register files read, then the statements
about reset. -/

namespace Sys2Proof.Machine

/-! ## The parts of the reset state

Every table is empty at reset, so each core, cluster, mailbox and sequencer is the reset record of its kind. -/

@[simp] theorem State.core_reset (p : Place) : State.reset.core p = Core.reset := rfl

@[simp] theorem State.clus_reset (n : Nat) : State.reset.clus n = Cluster.reset := rfl

@[simp] theorem State.mbx_reset (p : Place) (i : Nat) : State.reset.mbx p i = Mbx.reset := rfl

@[simp] theorem State.seqAt_reset (p : Place) (q : SeqId) : State.reset.seqAt p q = Seq.reset := by
  cases q with
  | as => rfl
  | xs => rfl

@[simp] theorem Mbx.reset_enabled : Mbx.reset.enabled = false := rfl

@[simp] theorem Core.reset_st : Core.reset.st = Strand.reset := rfl

@[simp] theorem Strand.reset_csr : Strand.reset.csr = Csrs.reset := rfl

@[simp] theorem Strand.reset_q : Strand.reset.q = Queues.reset := rfl

@[simp] theorem Strand.reset_vec : Strand.reset.vec = Vec.reset := rfl

@[simp] theorem Strand.reset_mat : Strand.reset.mat = Mat.reset := rfl

@[simp] theorem Strand.reset_gmu : Strand.reset.gmu = Gmu.reset := rfl

/-! ## The register files of a sequencer and a core at reset -/

@[simp] theorem Seq.reset_s (j : Fin 64) : Seq.reset.s[j] = 0 := Vector.getElem_replicate j.isLt

@[simp] theorem Seq.reset_sups (j : Fin 64) : Seq.reset.sups[j] = 0 := Vector.getElem_replicate j.isLt

@[simp] theorem Seq.reset_k (j : Fin 8) : Seq.reset.k[j] = 0 := Vector.getElem_replicate j.isLt

@[simp] theorem Seq.reset_supk (j : Fin 8) : Seq.reset.supk[j] = 0 := Vector.getElem_replicate j.isLt

@[simp] theorem Vec.reset_v (j l : Fin 32) : Vec.reset.v[j][l] = 0 := by
  simp [Vec.reset]

@[simp] theorem Mat.reset_acc (j : Fin 4) (l : Fin 1024) : Mat.reset.acc[j][l] = 0 := by
  simp [Mat.reset]

@[simp] theorem Queues.reset_lq (j : Fin 4) : Queues.reset.lq[j] = [] := Vector.getElem_replicate j.isLt

/-! ## Reset memory -/

theorem Memory.get_reset (k : Nat) :
    Memory.get State.reset.mem k = 0 ∧ Memory.get State.reset.firmwareMem k = 0 :=
  ⟨Memory.get_nil k, Memory.get_nil k⟩

theorem State.reset_memoryWf : State.reset.memoryWf := ⟨Memory.wf_nil, Memory.wf_nil⟩

end Sys2Proof.Machine

namespace Sys2Proof.Proofs

open Sys2Proof Sys2Proof.Machine

/-- Settles O58. The module-wide fields are read off the reset record and the memories are empty lists; a place's core,
sequencer, mailbox and cluster are the reset records, whose fields are their Reset values. -/
theorem resetHoldsTheResetColumns : Obligations.ResetHoldsTheResetColumns := by
  unfold Obligations.ResetHoldsTheResetColumns
  -- every place's parts are the reset records, and their register files read 0
  simp only [State.core_reset, State.seqAt_reset, State.mbx_reset, State.clus_reset, Memory.get_reset,
    Core.reset_st, Strand.reset_csr, Strand.reset_q, Strand.reset_vec, Strand.reset_mat, Strand.reset_gmu,
    Mbx.reset_enabled, Seq.reset_s, Seq.reset_sups, Seq.reset_k, Seq.reset_supk, Vec.reset_v,
    Mat.reset_acc, Queues.reset_lq]
  -- what is left are fields of the reset records
  simp [State.reset, Fabric.reset, Firmware.reset, Governor.reset, HostSide.reset, Core.reset, Csrs.reset,
    HoldSt.reset, CauseReg.reset, Seq.reset, Vec.reset, Gmu.reset, Queues.reset, Work.reset, Objs.reset, Cluster.reset]

/-- Settles O59: both memories are empty at reset. -/
theorem resetMemoryIsCanonical : Obligations.ResetMemoryIsCanonical := State.reset_memoryWf

end Sys2Proof.Proofs
end

section
/-! The ways of packets (01 R28, R29, R31): the positions of a leg in closed form, the hops that follow from them along a
row and a column, round a ring and over the SYNC tree, and the detours. -/

namespace Sys2Proof.Machine

open Sys2Proof.Claims

/-! ## The positions of a leg in closed form -/

/-- Up a ring, the positions are those from the first one on, counted round it. -/
theorem stepsFrom_up (lo w n c : Nat) (hlo : lo ≤ c) (hc : c < lo + w) :
    stepsFrom lo w true n c = (List.range n).map fun i =>
      (lo + (c - lo + i) % w, lo + (c - lo + i + 1) % w, (c - lo + i) % w + 1 == w) := by
  induction n generalizing c with
  | zero => rfl
  | succ n ih =>
    have h0 : (c - lo) % w = c - lo := Nat.mod_eq_of_lt (by omega)
    have hnext : (if c + 1 == lo + w then lo else c + 1) = lo + (c - lo + 1) % w := by
      by_cases h : c + 1 = lo + w
      · rw [show c - lo + 1 = w by omega, Nat.mod_self]; simp [h]
      · rw [Nat.mod_eq_of_lt (show c - lo + 1 < w by omega)]; simp [h]; omega
    have hw : (c - lo + 1) % w < w := Nat.mod_lt _ (by omega)
    simp only [stepsFrom, if_true, hnext, List.range_succ_eq_map, List.map_cons, List.map_map]
    rw [ih _ (by omega) (by omega)]
    have hwrap : (c + 1 == lo + w) = (c - lo + 1 == w) := by rw [Bool.eq_iff_iff]; simp; omega
    simp only [Nat.add_zero, h0, hwrap]
    refine congrArg₂ List.cons (by simp; omega) (List.map_congr_left fun i _ => ?_)
    have hi : ((c - lo + 1) % w + i) % w = (c - lo + (i + 1)) % w := by
      rw [Nat.mod_add_mod]; congr 1; omega
    have hi' : ((c - lo + 1) % w + i + 1) % w = (c - lo + (i + 1) + 1) % w := by
      rw [Nat.add_assoc, Nat.mod_add_mod]; congr 1; omega
    simp only [Function.comp, Nat.succ_eq_add_one, Nat.add_sub_cancel_left, hi, hi']

/-- Down a ring, the positions are those from the first one on, counted back round it. -/
theorem stepsFrom_down (lo w n c : Nat) (hlo : lo ≤ c) (hc : c < lo + w) (hn : n ≤ w) :
    stepsFrom lo w false n c = (List.range n).map fun i =>
      (lo + (c - lo + (w - i)) % w, lo + (c - lo + (w - i - 1)) % w, (c - lo + (w - i)) % w == 0) := by
  induction n generalizing c with
  | zero => rfl
  | succ n ih =>
    have h0 : (c - lo + w) % w = c - lo := by rw [Nat.add_mod_right, Nat.mod_eq_of_lt (by omega)]
    have hnext : (if c == lo then lo + w - 1 else c - 1) = lo + (c - lo + (w - 1)) % w := by
      by_cases h : c = lo
      · rw [show c - lo + (w - 1) = w - 1 by omega, Nat.mod_eq_of_lt (by omega)]; simp [h]; omega
      · rw [show c - lo + (w - 1) = c - lo - 1 + w by omega, Nat.add_mod_right, Nat.mod_eq_of_lt (by omega)]
        simp [h]; omega
    have hw : (c - lo + (w - 1)) % w < w := Nat.mod_lt _ (by omega)
    simp only [stepsFrom, Bool.false_eq_true, if_false, hnext, List.range_succ_eq_map, List.map_cons, List.map_map]
    rw [ih _ (by omega) (by omega) (by omega)]
    have hwrap : (c == lo) = (c - lo == 0) := by rw [Bool.eq_iff_iff]; simp; omega
    simp only [Nat.sub_zero, h0, hwrap]
    refine congrArg₂ List.cons (by simp; omega) (List.map_congr_left fun i hi => ?_)
    have hin : i < n := List.mem_range.mp hi
    have hback (k : Nat) : ((c - lo + (w - 1)) % w + (w - k)) % w = (c - lo + (w - 1) + (w - k)) % w := Nat.mod_add_mod _ _ _
    have hi : ((c - lo + (w - 1)) % w + (w - i)) % w = (c - lo + (w - (i + 1))) % w := by
      rw [hback, show c - lo + (w - 1) + (w - i) = c - lo + (w - (i + 1)) + w by omega, Nat.add_mod_right]
    have hi' : ((c - lo + (w - 1)) % w + (w - i - 1)) % w = (c - lo + (w - (i + 1) - 1)) % w := by
      rw [Nat.sub_sub, hback, show c - lo + (w - 1) + (w - (i + 1)) = c - lo + (w - (i + 1) - 1) + w by omega,
        Nat.add_mod_right]
    simp only [Function.comp, Nat.succ_eq_add_one, Nat.add_sub_cancel_left, hi, hi']

/-- Without a ring, the positions rise one by one. -/
theorem stepsFrom_straight_up {n c : Nat} (h : c + n < 256) :
    stepsFrom 0 256 true n c = (List.range n).map fun i => (c + i, c + i + 1, false) := by
  rw [stepsFrom_up 0 256 n c (Nat.zero_le c) (by omega)]
  refine List.map_congr_left fun i hi => ?_
  have hin : i < n := List.mem_range.mp hi
  rw [Nat.mod_eq_of_lt (by omega), Nat.mod_eq_of_lt (by omega)]
  simp; omega

/-- Without a ring, the positions fall one by one. -/
theorem stepsFrom_straight_down {n c : Nat} (hc : c < 256) (h : n ≤ c) :
    stepsFrom 0 256 false n c = (List.range n).map fun i => (c - i, c - i - 1, false) := by
  rw [stepsFrom_down 0 256 n c (Nat.zero_le c) (by omega) (by omega)]
  refine List.map_congr_left fun i hi => ?_
  have hin : i < n := List.mem_range.mp hi
  rw [show c - 0 + (256 - i) = c - i + 256 by omega, show c - 0 + (256 - i - 1) = c - i - 1 + 256 by omega,
    Nat.add_mod_right, Nat.add_mod_right, Nat.mod_eq_of_lt (by omega), Nat.mod_eq_of_lt (by omega)]
  simp; omega

/-- A leg from a position to itself has no step, on a ring or off it. -/
theorem legOf_self (ring : Option (Nat × Nat)) (c : Nat) : legOf ring c c = (true, []) := by
  cases ring with
  | none => simp [legOf, stepsFrom]
  | some r => simp [legOf, stepsFrom]

/-- Round a ring that holds both positions a leg goes the shorter way, up where both are equal. -/
theorem legOf_ring {lo w c t : Nat} (hc : lo ≤ c ∧ c < lo + w) (ht : lo ≤ t ∧ t < lo + w) :
    legOf (some (lo, w)) c t =
      if (t + w - c) % w ≤ (c + w - t) % w then (true, stepsFrom lo w true ((t + w - c) % w) c)
      else (false, stepsFrom lo w false ((c + w - t) % w) c) := by
  simp [legOf, hc, ht]

/-! ## Escape classes -/

/-- A hop is in the escape class where one before it wraps. -/
theorem markEsc_map_range (f : Nat → Nat × Nat × Dir × Bool) (e : Bool) (n : Nat) :
    markEsc e ((List.range n).map f) = (List.range n).map fun i =>
      ⟨(f i).1, (f i).2.1, (f i).2.2.1, e || (List.range i).any fun j => (f j).2.2.2⟩ := by
  induction n generalizing f e with
  | zero => rfl
  | succ n ih =>
    simp only [List.range_succ_eq_map, List.map_cons, List.map_map, markEsc]
    have hf : f ∘ Nat.succ = fun i => f (i + 1) := rfl
    rw [hf, ih]
    refine congrArg₂ List.cons (by simp) (List.map_congr_left fun i _ => ?_)
    simp [Function.comp, List.range_succ_eq_map, Bool.or_assoc, List.any_map, Function.comp_def]

/-- Hops none of which wraps are all in the class of the first. -/
theorem markEsc_of_no_wrap (e : Bool) (l : List (Nat × Nat × Dir × Bool)) (h : ∀ x ∈ l, x.2.2.2 = false) :
    markEsc e l = l.map fun x => ⟨x.1, x.2.1, x.2.2.1, e⟩ := by
  induction l with
  | nil => rfl
  | cons x l ih =>
    obtain ⟨n, f, d, wrap⟩ := x
    obtain rfl : wrap = false := h _ List.mem_cons_self
    simp only [markEsc, Bool.or_false, List.map_cons]
    rw [ih fun y hy => h y (List.mem_cons_of_mem _ hy)]

/-! ## Ways along a row and a column -/

/-- The leg between two positions without a ring. -/
theorem legOf_none_map {α : Type} {c t : Nat} (hc : c < 256) (ht : t < 256) (g : Bool → Nat × Nat × Bool → α) :
    (legOf none c t).2.map (g (legOf none c t).1) =
      if c ≤ t then (List.range (t - c)).map fun i => g true (c + i, c + i + 1, false)
      else (List.range (c - t)).map fun i => g false (c - i, c - i - 1, false) := by
  by_cases h : c ≤ t
  · simp [legOf, h, stepsFrom_straight_up (show c + (t - c) < 256 by omega), Function.comp_def]
  · simp [legOf, h, stepsFrom_straight_down hc (show c - t ≤ c by omega), Function.comp_def]

/-- No step of a leg without a ring wraps. -/
theorem legOf_none_wrap {c t : Nat} (hc : c < 256) (ht : t < 256) : ∀ x ∈ (legOf none c t).2, x.2.2 = false := by
  have h := legOf_none_map hc ht fun _ x => x.2.2
  intro x hx
  have hm : x.2.2 ∈ (legOf none c t).2.map fun x => x.2.2 := List.mem_map_of_mem hx
  rw [h] at hm
  split at hm <;> simp at hm <;> exact hm.2

theorem dimensionHops_eq (rr cr : Option (Nat × Nat)) (esc : Bool) (a b : Nat × Nat) :
    dimensionHops rr cr esc a b = markEsc esc
      (((legOf rr a.2 b.2).2.map fun x =>
          (nodeOf a.1 x.1, nodeOf a.1 x.2.1, if (legOf rr a.2 b.2).1 then Dir.east else Dir.west, x.2.2))
        ++ (legOf cr a.1 b.1).2.map fun y =>
          (nodeOf y.1 b.2, nodeOf y.2.1 b.2, if (legOf cr a.1 b.1).1 then Dir.south else Dir.north, y.2.2)) := rfl

/-- The hops of a dimension-ordered way without rings. -/
theorem dimensionHops_none (esc : Bool) (a b : Nat × Nat) (ha : a.1 < 256 ∧ a.2 < 256) (hb : b.1 < 256 ∧ b.2 < 256) :
    dimensionHops none none esc a b = legs esc a b := by
  rw [dimensionHops_eq, markEsc_of_no_wrap]
  · simp only [List.map_append, List.map_map]
    unfold legs
    congr 1
    · exact (legOf_none_map ha.2 hb.2 fun inc x =>
        (⟨nodeOf a.1 x.1, nodeOf a.1 x.2.1, if inc then Dir.east else Dir.west, esc⟩ : Hop))
    · exact (legOf_none_map ha.1 hb.1 fun inc x =>
        (⟨nodeOf x.1 b.2, nodeOf x.2.1 b.2, if inc then Dir.south else Dir.north, esc⟩ : Hop))
  · intro x hx
    rw [List.mem_append, List.mem_map, List.mem_map] at hx
    obtain ⟨y, hy, rfl⟩ | ⟨y, hy, rfl⟩ := hx
    · exact legOf_none_wrap ha.2 hb.2 y hy
    · exact legOf_none_wrap ha.1 hb.1 y hy

/-- No hop along a row and a column wraps, and each is in the class of the way. -/
theorem legs_esc_wrap (esc : Bool) (a b : Nat × Nat) : ∀ h ∈ legs esc a b, h.esc = esc ∧ h.wrap = false := by
  intro h hh
  unfold legs at hh
  rw [List.mem_append] at hh
  rcases hh with hh | hh
  all_goals
    split at hh
    all_goals
      obtain ⟨i, -, rfl⟩ := List.mem_map.mp hh
      exact ⟨rfl, by simp [Hop.wrap, nodeOf]⟩

/-- The step out of the mesh is in the class of the hop before it, where that does not wrap. -/
theorem homeHop_of_no_wrap {hs : List Hop} (b : Nat × Nat) (h : ∀ x ∈ hs, x.esc = false ∧ x.wrap = false) :
    homeHop hs b = leaves b false := by
  unfold homeHop leaves
  cases hl : hs.getLast? with
  | none => rfl
  | some x => simp [h x (List.mem_of_getLast? hl)]

/-- The way along a row and then along a column. -/
theorem dimensionWay_none (a b : Nat × Nat) (ha : a.1 < 256 ∧ a.2 < 256) (hb : b.1 < 256 ∧ b.2 < 256) :
    dimensionWay none none a b = legs false a b ++ [leaves b false] := by
  simp only [dimensionWay, dimensionHops_none false a b ha hb, homeHop_of_no_wrap b (legs_esc_wrap false a b)]

/-! ## Ways round a ring -/

/-- The way round a ring of `w` positions from `lo` on, with the shorter way taken and every hop past the wrap link in the
escape class (01 R28, R29). -/
def ringWay (b : Nat × Nat) (lo w x y : Nat) (at_ : Nat → Nat) (fore back : Dir) : List Hop :=
  let n := (y + w - x) % w
  let m := (x + w - y) % w
  if n ≤ m then
    ((List.range n).map fun i => ⟨at_ (lo + (x - lo + i) % w), at_ (lo + (x - lo + i + 1) % w), fore, decide (w ≤ x - lo + i)⟩)
      ++ [leaves b (decide (w ≤ x - lo + n))]
  else
    ((List.range m).map fun i =>
      ⟨at_ (lo + (x - lo + (w - i)) % w), at_ (lo + (x - lo + (w - i - 1)) % w), back, decide (x - lo < i)⟩)
      ++ [leaves b (decide (x - lo < m))]

/-- The hops of a leg and the step out of the mesh. -/
def legWay (b : Nat × Nat) (at_ : Nat → Nat) (fore back : Dir) (leg : Bool × List (Nat × Nat × Bool)) : List Hop :=
  let hs := markEsc false (leg.2.map fun x => (at_ x.1, at_ x.2.1, if leg.1 then fore else back, x.2.2))
  hs ++ [homeHop hs b]

/-- The class of the step out of the mesh after hops numbered from 0, each of whose class says that one before it wraps. -/
theorem homeHop_map_range (b : Nat × Nat) (n : Nat) (h : Nat → Hop) (wraps : Nat → Bool)
    (he : ∀ i < n, (h i).esc = (List.range i).any wraps) (hw : ∀ i < n, (h i).wrap = wraps i) :
    homeHop ((List.range n).map h) b = leaves b ((List.range n).any wraps) := by
  cases n with
  | zero => rfl
  | succ n =>
    simp [homeHop, leaves, he n (Nat.lt_succ_self n), hw n (Nat.lt_succ_self n), List.range_succ]

/-- Up a ring, a step before one of less than a round wraps where the count has passed the ring's end. -/
theorem any_wraps_up {w x i : Nat} (hx : x < w) :
    ((List.range i).any fun j => (x + j) % w + 1 == w) = decide (w ≤ x + i) := by
  rw [Bool.eq_iff_iff]
  simp only [List.any_eq_true, List.mem_range, beq_iff_eq, decide_eq_true_eq]
  constructor
  · rintro ⟨j, hj, h⟩
    by_contra hlt
    rw [Nat.mod_eq_of_lt (by omega)] at h
    omega
  · intro h
    exact ⟨w - 1 - x, by omega, by rw [Nat.mod_eq_of_lt (by omega)]; omega⟩

/-- Down a ring, a step before one of less than a round wraps where the count has passed the ring's start. -/
theorem any_wraps_down {w x i : Nat} (hx : x < w) :
    ((List.range i).any fun j => (x + (w - j)) % w == 0) = decide (x < i) := by
  rw [Bool.eq_iff_iff]
  simp only [List.any_eq_true, List.mem_range, beq_iff_eq, decide_eq_true_eq]
  constructor
  · rintro ⟨j, hj, h⟩
    by_contra hlt
    rw [show x + (w - j) = x - j + w by omega, Nat.add_mod_right, Nat.mod_eq_of_lt (by omega)] at h
    omega
  · intro h
    exact ⟨x, h, by rw [show x + (w - x) = w by omega, Nat.mod_self]⟩

/-- The way of a leg round a ring. The order of the ring's positions is that of their routers, so that a hop wraps where
its step does. -/
theorem legWay_ring {b : Nat × Nat} {at_ : Nat → Nat} {fore back : Dir} {lo w x y : Nat}
    (hx : lo ≤ x ∧ x < lo + w) (hy : lo ≤ y ∧ y < lo + w)
    (hfore : ∀ i j e, (⟨at_ i, at_ j, fore, e⟩ : Hop).wrap = decide (j < i))
    (hback : ∀ i j e, (⟨at_ i, at_ j, back, e⟩ : Hop).wrap = decide (i < j)) :
    legWay b at_ fore back (legOf (some (lo, w)) x y) = ringWay b lo w x y at_ fore back := by
  have hw : 0 < w := by omega
  have hxw : x - lo < w := by omega
  have hn : (y + w - x) % w < w := Nat.mod_lt _ hw
  have hm : (x + w - y) % w < w := Nat.mod_lt _ hw
  rw [legOf_ring hx hy]
  by_cases hle : (y + w - x) % w ≤ (x + w - y) % w
  · simp only [hle, if_true, legWay, ringWay]
    generalize (y + w - x) % w = n at hn
    rw [stepsFrom_up lo w _ x hx.1 hx.2, List.map_map, markEsc_map_range]
    simp only [Function.comp_def, Bool.false_or]
    have hhome := homeHop_map_range b n
      (fun i => ⟨at_ (lo + (x - lo + i) % w), at_ (lo + (x - lo + i + 1) % w), fore,
        (List.range i).any fun j => (x - lo + j) % w + 1 == w⟩)
      (fun j => (x - lo + j) % w + 1 == w) (fun i _ => rfl) (by
        intro i hi
        rw [hfore, Bool.eq_iff_iff]
        have h1 : (x - lo + i) % w < w := Nat.mod_lt _ hw
        have h2 : (x - lo + i + 1) % w = if (x - lo + i) % w + 1 = w then 0 else (x - lo + i) % w + 1 := by
          rw [← Nat.mod_add_mod]
          split
          · rename_i h; rw [h, Nat.mod_self]
          · exact Nat.mod_eq_of_lt (by omega)
        simp only [decide_eq_true_eq, beq_iff_eq, h2]
        split <;> omega)
    rw [hhome, any_wraps_up hxw]
    congr 1
    simp only [any_wraps_up hxw]
  · simp only [hle, if_false, legWay, ringWay, Bool.false_eq_true]
    generalize (x + w - y) % w = m at hm
    rw [stepsFrom_down lo w _ x hx.1 hx.2 (by omega), List.map_map, markEsc_map_range]
    simp only [Function.comp_def, Bool.false_or]
    have hhome := homeHop_map_range b m
      (fun i => ⟨at_ (lo + (x - lo + (w - i)) % w), at_ (lo + (x - lo + (w - i - 1)) % w), back,
        (List.range i).any fun j => (x - lo + (w - j)) % w == 0⟩)
      (fun j => (x - lo + (w - j)) % w == 0) (fun i _ => rfl) (by
        intro i hi
        rw [hback, Bool.eq_iff_iff]
        have h1 : (x - lo + (w - i - 1)) % w < w := Nat.mod_lt _ hw
        have h2 : (x - lo + (w - i)) % w
            = if (x - lo + (w - i - 1)) % w + 1 = w then 0 else (x - lo + (w - i - 1)) % w + 1 := by
          rw [show x - lo + (w - i) = x - lo + (w - i - 1) + 1 by omega, ← Nat.mod_add_mod]
          split
          · rename_i h; rw [h, Nat.mod_self]
          · exact Nat.mod_eq_of_lt (by omega)
        simp only [decide_eq_true_eq, beq_iff_eq, h2]
        split <;> omega)
    rw [hhome, any_wraps_down hxw]
    congr 1
    simp only [any_wraps_down hxw]

/-- Along one row, a way is that of the row's leg. -/
theorem dimensionWay_row (rr cr : Option (Nat × Nat)) (a b : Nat × Nat) (h : a.1 = b.1) :
    dimensionWay rr cr a b = legWay b (nodeOf a.1) .east .west (legOf rr a.2 b.2) := by
  simp [dimensionWay, dimensionHops_eq, legWay, h, legOf_self]

/-- Along one column, a way is that of the column's leg. -/
theorem dimensionWay_col (rr cr : Option (Nat × Nat)) (a b : Nat × Nat) (h : a.2 = b.2) :
    dimensionWay rr cr a b = legWay b (fun r => nodeOf r a.2) .south .north (legOf cr a.1 b.1) := by
  simp [dimensionWay, dimensionHops_eq, legWay, h, legOf_self]

theorem dimensionWay_rowRing {lo w : Nat} (cr : Option (Nat × Nat)) {a b : Nat × Nat} (h : a.1 = b.1)
    (ha : lo ≤ a.2 ∧ a.2 < lo + w) (hb : lo ≤ b.2 ∧ b.2 < lo + w) :
    dimensionWay (some (lo, w)) cr a b = ringWay b lo w a.2 b.2 (nodeOf a.1) .east .west := by
  rw [dimensionWay_row _ _ a b h]
  exact legWay_ring ha hb (fun i j e => by simp [Hop.wrap, nodeOf]) (fun i j e => by simp [Hop.wrap, nodeOf])

theorem dimensionWay_colRing {lo w : Nat} (rr : Option (Nat × Nat)) {a b : Nat × Nat} (h : a.2 = b.2)
    (ha : lo ≤ a.1 ∧ a.1 < lo + w) (hb : lo ≤ b.1 ∧ b.1 < lo + w) :
    dimensionWay rr (some (lo, w)) a b = ringWay b lo w a.1 b.1 (fun r => nodeOf r a.2) .south .north := by
  rw [dimensionWay_col _ _ a b h]
  exact legWay_ring ha hb (fun i j e => by simp [Hop.wrap, nodeOf]) (fun i j e => by simp [Hop.wrap, nodeOf])

end Sys2Proof.Machine
end

section
/-! The SYNC tree of a TREE stitch (01 R29): the numbers that climb to the root are the iterates of the parent, so the way
up ends at the first common one. -/

namespace Sys2Proof.Machine

open Sys2Proof.Claims

/-- The parent of a tree node. -/
def treeParent (n : Nat) : Nat := (n - 1) / 2

@[simp] theorem treeParent_zero : treeParent 0 = 0 := rfl

theorem treeParent_iterate_zero (i : Nat) : treeParent^[i] 0 = 0 := Function.iterate_fixed treeParent_zero i

/-- The list of a node's climb is that of the iterates of the parent, as far as the root. -/
theorem toRoot_eq_iterates (k n : Nat) (h : n + 1 < 2 ^ (k + 1)) :
    ∃ d, treeParent^[d] n = 0 ∧ toRoot k n = (List.range (d + 1)).map fun i => treeParent^[i] n := by
  induction k generalizing n with
  | zero => exact ⟨0, by simp at h ⊢; omega, rfl⟩
  | succ k ih =>
    by_cases h0 : n = 0
    · subst h0; exact ⟨0, rfl, rfl⟩
    · have hp : (n - 1) / 2 + 1 < 2 ^ (k + 1) := by rw [Nat.pow_succ] at h; omega
      obtain ⟨d, hd, hl⟩ := ih _ hp
      refine ⟨d + 1, hd, ?_⟩
      rw [toRoot, if_neg h0, hl, List.range_succ_eq_map (n := d + 1), List.map_cons, List.map_map]
      rfl

/-- A node's climb holds every iterate of the parent: past the root there is nothing but the root. -/
theorem iterate_mem_toRoot {k n : Nat} (h : n + 1 < 2 ^ (k + 1)) (i : Nat) : treeParent^[i] n ∈ toRoot k n := by
  obtain ⟨d, hd, hl⟩ := toRoot_eq_iterates k n h
  rw [hl, List.mem_map]
  by_cases hi : i ≤ d
  · exact ⟨i, List.mem_range.mpr (by omega), rfl⟩
  · refine ⟨d, List.mem_range.mpr (by omega), ?_⟩
    rw [show i = (i - d) + d by omega, Function.iterate_add_apply, hd, treeParent_iterate_zero]

/-- The first elements of a sequence, up to the first that fails. -/
theorem takeWhile_map_range {α : Type} (f : Nat → α) (p : α → Bool) {i n : Nat} (hin : i < n)
    (hp : ∀ x < i, p (f x) = true) (hi : p (f i) = false) :
    ((List.range n).map f).takeWhile p = (List.range i).map f := by
  have hsplit : List.range n = List.range i ++ (List.range (n - i)).map (i + ·) := by
    rw [← List.range_add, Nat.add_sub_cancel' (Nat.le_of_lt hin)]
  have hfirst : List.range (n - i) = 0 :: (List.range (n - i - 1)).map Nat.succ := by
    rw [← List.range_succ_eq_map, Nat.sub_add_cancel (by omega)]
  rw [hsplit, List.map_append, List.takeWhile_append_of_pos, hfirst]
  · simp [hi]
  · intro a ha
    obtain ⟨x, hx, rfl⟩ := List.mem_map.mp ha
    exact hp x (List.mem_range.mp hx)

/-- The climb of a node as far as one of its iterates. -/
theorem toRoot_takeWhile {k n top i : Nat} (h : n + 1 < 2 ^ (k + 1)) (hi : treeParent^[i] n = top)
    (hlt : ∀ x < i, treeParent^[x] n ≠ top) :
    (toRoot k n).takeWhile (· != top) = (List.range i).map fun x => treeParent^[x] n := by
  obtain ⟨d, hd, hl⟩ := toRoot_eq_iterates k n h
  have hid : i ≤ d := by
    by_contra hdi
    have htop : top = 0 := by
      rw [← hi, show i = (i - d) + d by omega, Function.iterate_add_apply, hd, treeParent_iterate_zero]
    exact hlt d (by omega) (hd.trans htop.symm)
  rw [hl]
  exact takeWhile_map_range _ _ (by omega) (fun x hx => by simpa using hlt x hx) (by simpa using hi)

/-- Where two climbs meet: the first number of one that is on the other. -/
theorem toRoot_find {a b i j : Nat} (ha : a < 2048) (hb : b < 2048) (hij : treeParent^[i] a = treeParent^[j] b)
    (hi : ∀ x < i, ∀ y, treeParent^[x] a ≠ treeParent^[y] b) :
    (toRoot 12 a).find? (toRoot 12 b).contains = some (treeParent^[i] a) := by
  obtain ⟨d, hd, hl⟩ := toRoot_eq_iterates 12 a (by omega)
  obtain ⟨e, he, hm⟩ := toRoot_eq_iterates 12 b (by omega)
  have hid : i ≤ d := by
    by_contra hdi
    exact hi d (by omega) e (hd.trans he.symm)
  rw [List.find?_eq_some_iff_getElem, hl]
  have hmem : (toRoot 12 b).contains (treeParent^[i] a) = true := by
    rw [hij, List.contains_iff_mem]
    exact iterate_mem_toRoot (by omega) j
  refine ⟨hmem, i, by simp; omega, by rw [List.getElem_map, List.getElem_range], ?_⟩
  intro x hx
  have hx' : treeParent^[x] a ∉ toRoot 12 b := by
    rw [hm, List.mem_map]
    rintro ⟨y, -, hy⟩
    exact hi x hx y hy.symm
  rw [List.getElem_map, List.getElem_range]
  simpa using hx'

/-- Two nodes have a first common iterate. -/
theorem exists_first_common (a b : Nat) (ha : a < 2048) (hb : b < 2048) :
    ∃ i j, treeParent^[i] a = treeParent^[j] b ∧ (∀ x < i, ∀ y, treeParent^[x] a ≠ treeParent^[y] b)
      ∧ (∀ y < j, treeParent^[i] a ≠ treeParent^[y] b) := by
  have hmeet : ∃ i, ∃ j, treeParent^[i] a = treeParent^[j] b := by
    obtain ⟨i, hi, -⟩ := toRoot_eq_iterates 12 a (by omega)
    obtain ⟨j, hj, -⟩ := toRoot_eq_iterates 12 b (by omega)
    exact ⟨i, j, hi.trans hj.symm⟩
  classical
  have hj := Nat.find_spec hmeet
  refine ⟨Nat.find hmeet, Nat.find hj, Nat.find_spec hj, fun x hx y he => ?_, fun y hy he => ?_⟩
  · exact Nat.find_min hmeet hx ⟨y, he⟩
  · exact Nat.find_min hj hy he

/-- Pairs of neighbours along a sequence read backwards. -/
theorem zip_map_range_reverse (f : Nat → Nat) (j : Nat) :
    (((List.range (j + 1)).map f).reverse).zip (((List.range j).map f).reverse)
      = (List.range j).map fun y => (f (j - y), f (j - y - 1)) := by
  refine List.ext_getElem (by simp) fun y h1 h2 => ?_
  have hy : y < j := by simpa using h2
  simp [show j - 1 - y = j - y - 1 by omega]

/-- The way over the SYNC tree: up to the first common node and down. -/
theorem treeWay_eq (t : Part) (a b : Nat × Nat) (ha : t.treeNo a < 2048) (hb : t.treeNo b < 2048) :
    ∃ i j, treeParent^[i] (t.treeNo a) = treeParent^[j] (t.treeNo b)
      ∧ (∀ x < i, ∀ y, treeParent^[x] (t.treeNo a) ≠ treeParent^[y] (t.treeNo b))
      ∧ (∀ y < j, treeParent^[i] (t.treeNo a) ≠ treeParent^[y] (t.treeNo b))
      ∧ t.treeWay a b =
        ((List.range i).map fun x => ⟨t.treeNode (treeParent^[x] (t.treeNo a)),
            t.treeNode (treeParent^[x + 1] (t.treeNo a)), .up, false⟩)
          ++ ((List.range j).map fun y => ⟨t.treeNode (treeParent^[j - y] (t.treeNo b)),
            t.treeNode (treeParent^[j - y - 1] (t.treeNo b)),
            if treeParent^[j - y - 1] (t.treeNo b) = 2 * treeParent^[j - y] (t.treeNo b) + 1 then .left else .right, false⟩)
          ++ [leaves b false] := by
  obtain ⟨i, j, hij, hi, hj⟩ := exists_first_common _ _ ha hb
  refine ⟨i, j, hij, hi, hj, ?_⟩
  have hfall : (treeParent^[i] (t.treeNo a) :: ((List.range j).map fun y => treeParent^[y] (t.treeNo b)).reverse)
      = ((List.range (j + 1)).map fun y => treeParent^[y] (t.treeNo b)).reverse := by
    simp [List.range_succ, hij]
  simp only [Part.treeWay, toRoot_find ha hb hij hi, Option.getD_some,
    toRoot_takeWhile (k := 12) (by omega) rfl fun x hx he => hi x hx j (he.trans hij),
    toRoot_takeWhile (k := 12) (by omega) hij.symm fun y hy he => hj y hy he.symm, hfall, zip_map_range_reverse,
    List.map_map, Function.comp_def]
  simp only [Function.iterate_succ_apply']
  rfl

end Sys2Proof.Machine
end

section
/-! The way of a packet (01 R28, R29, R31): the plain way between two places, case by case of the partition's stitch, and
the detour where it crosses a dead link. -/

namespace Sys2Proof.Machine

open Sys2Proof.Claims

/-! ## Coordinates -/

theorem State.cols_le (s : State) : s.cols ≤ 64 := by
  unfold State.cols
  cases s.variant <;> decide

/-- Every place lies in a column within the mesh's numbers. -/
theorem State.spotOf_col_lt (s : State) (p : Place) : (s.spotOf p).2 < 256 := by
  have h64 (n : Nat) : n % 64 + 1 < 256 := by omega
  have hc : s.cols + 1 < 256 := by have := s.cols_le; omega
  unfold State.spotOf colOf
  split
  · exact h64 p
  · split
    · exact h64 (p / 8)
    · exact h64 p
    · exact Nat.zero_lt_succ _
    · exact hc

/-- A place of 16 bits lies in a row within the mesh's numbers. -/
theorem State.spotOf_row_lt (s : State) {p : Place} (h : p < 65536) : (s.spotOf p).1 < 256 := by
  have h32 (n : Nat) : n % 32 + 1 < 256 := by omega
  have hrow (n : Nat) (hn : n < 65536) : n / 512 + 1 < 256 := by omega
  unfold State.spotOf rowOf
  rw [if_neg (Nat.not_le.mpr h)]
  split
  · exact hrow p h
  · dsimp only; split <;> decide
  · exact h32 p
  · exact h32 p

theorem State.spotOf_lt (s : State) {p : Place} (h : p < 65536) : (s.spotOf p).1 < 256 ∧ (s.spotOf p).2 < 256 :=
  ⟨s.spotOf_row_lt h, s.spotOf_col_lt p⟩

/-! ## Plain ways -/

theorem Part.inside_iff (t : Part) (p : Place) : t.inside p = true ↔ p < 16384 ∧ t.holds? (p / 8) = true := by
  simp [Part.inside]

/-- Between two cores of a partition a packet goes by the partition's rings, or over its tree. -/
theorem State.plainWay_inside (s : State) (pn : Nat) (src dst : Place) (vn : Vn) (hs : (s.part pn).inside src = true)
    (hd : (s.part pn).inside dst = true) (hv : ¬ ((s.part pn).attrs.shape = 4 ∧ vn = .sync)) :
    s.plainWay pn src dst vn =
      dimensionWay ((s.part pn).rowRing (s.spotOf src).2) (s.part pn).colRing (s.spotOf src) (s.spotOf dst) := by
  simp [State.plainWay, hs, hd, hv]

theorem State.plainWay_tree (s : State) (pn : Nat) (src dst : Place) (hs : (s.part pn).inside src = true)
    (hd : (s.part pn).inside dst = true) (hv : (s.part pn).attrs.shape = 4) :
    s.plainWay pn src dst .sync = (s.part pn).treeWay (s.spotOf src) (s.spotOf dst) := by
  simp [State.plainWay, hs, hd, hv]

/-- Elsewhere it goes along the row and the column. -/
theorem State.plainWay_outside (s : State) (pn : Nat) (src dst : Place) (vn : Vn)
    (hi : ¬ ((s.part pn).inside src = true ∧ (s.part pn).inside dst = true))
    (hn : ¬ (src / 16384 = 1 ∧ 2 ≤ dst / 16384)) :
    s.plainWay pn src dst vn = dimensionWay none none (s.spotOf src) (s.spotOf dst) := by
  have hi' : ¬ ((s.part pn).inside src && (s.part pn).inside dst) = true := by simpa using hi
  rw [State.plainWay, if_neg hi', if_neg hn]

/-- A station's packet to an edge node steps into its column first. -/
theorem State.plainWay_station (s : State) (pn : Nat) (src dst : Place) (vn : Vn) (hs : src / 16384 = 1)
    (hd : 2 ≤ dst / 16384) :
    s.plainWay pn src dst vn =
      (let a := s.spotOf src
       let r := if a.1 = 0 then 1 else 32
       ⟨nodeOf a.1 a.2, nodeOf r a.2, if a.1 = 0 then .south else .north, true⟩
        :: dimensionWay none none (r, a.2) (s.spotOf dst)) := by
  have hp : ¬ src < 16384 := fun h => absurd (hs.symm.trans (Nat.div_eq_of_lt h)) (by decide)
  have hi : (s.part pn).inside src = false := by simp [Part.inside, hp]
  simp [State.plainWay, hi, hs, hd]

/-! ### The rings of each stitch -/

theorem Part.ring_of_no_ring {t : Part} (h : t.attrs.shape = 0 ∨ t.attrs.shape = 4) (col : Nat) : t.ring col = none := by
  rcases h with h | h <;> simp [Part.ring, h]

theorem Part.rowRing_of_no_ring {t : Part} (h : t.attrs.shape = 0 ∨ t.attrs.shape = 4) (col : Nat) : t.rowRing col = none := by
  simp [Part.rowRing, Part.ring_of_no_ring h]

theorem Part.colRing_of_no_ring {t : Part} (h : t.attrs.shape = 0 ∨ t.attrs.shape = 4) : t.colRing = none := by
  rcases h with h | h <;> simp [Part.colRing, h]

theorem Part.rowRing_of_full {t : Part} (h : t.attrs.shape = 1 ∨ t.attrs.shape = 2) (col : Nat) :
    t.rowRing col = some (t.attrs.clu % 64 + 1, t.attrs.ncols) := by
  rcases h with h | h <;> simp [Part.rowRing, Part.ring, h]

theorem Part.rowRing_of_sub {t : Part} (h : t.attrs.shape = 3) (col : Nat) (hw : t.attrs.ncols / 2 ^ t.attrs.subn ≠ 0) :
    t.rowRing col =
      some (t.attrs.clu % 64 + (col - 1 - t.attrs.clu % 64) / (t.attrs.ncols / 2 ^ t.attrs.subn)
        * (t.attrs.ncols / 2 ^ t.attrs.subn) + 1, t.attrs.ncols / 2 ^ t.attrs.subn) := by
  simp only [Part.rowRing, Part.ring, h, if_neg hw, Option.map_some]

theorem Part.colRing_of_torus {t : Part} (h : t.attrs.shape = 2 ∨ t.attrs.shape = 3) :
    t.colRing = some (t.attrs.clu / 64 + 1, t.attrs.nrows) := by
  rw [Part.colRing, if_pos h]

/-! ### The way in each stitch -/

/-- Along the row and the column: wherever no ring and no tree joins the two places. -/
theorem State.plainWay_straight (s : State) {pn : Nat} {src dst : Place} {vn : Vn} (hs : src < 65536) (hd : dst < 65536)
    (hn : ¬ (src / 16384 = 1 ∧ 2 ≤ dst / 16384))
    (h : ¬ ((s.part pn).inside src = true ∧ (s.part pn).inside dst = true) ∨ (s.part pn).attrs.shape = 0
      ∨ (s.part pn).attrs.shape = 4 ∧ vn ≠ .sync) :
    s.plainWay pn src dst vn = legs false (s.spotOf src) (s.spotOf dst) ++ [leaves (s.spotOf dst) false] := by
  rw [← dimensionWay_none _ _ (s.spotOf_lt hs) (s.spotOf_lt hd)]
  by_cases hi : (s.part pn).inside src = true ∧ (s.part pn).inside dst = true
  · have hshape := h.resolve_left (not_not_intro hi)
    have hflat : (s.part pn).attrs.shape = 0 ∨ (s.part pn).attrs.shape = 4 := hshape.imp_right And.left
    have hv : ¬ ((s.part pn).attrs.shape = 4 ∧ vn = .sync) := by
      rintro ⟨h4, rfl⟩
      rcases hshape with h0 | ⟨-, hv⟩
      · omega
      · exact hv rfl
    rw [s.plainWay_inside pn src dst vn hi.1 hi.2 hv, Part.rowRing_of_no_ring hflat, Part.colRing_of_no_ring hflat]
  · exact s.plainWay_outside pn src dst vn hi hn

theorem State.plainWay_station_legs (s : State) (pn : Nat) (src dst : Place) (vn : Vn) (h : dst < 65536)
    (hs : src / 16384 = 1) (hd : 2 ≤ dst / 16384) :
    s.plainWay pn src dst vn =
      (let a := s.spotOf src
       let b := s.spotOf dst
       let r := if a.1 = 0 then 1 else 32
       ⟨nodeOf a.1 a.2, nodeOf r a.2, if a.1 = 0 then .south else .north, true⟩
        :: (legs false (r, a.2) b ++ [leaves b false])) := by
  have hr : (if (s.spotOf src).1 = 0 then 1 else 32) < 256 := by split <;> decide
  rw [s.plainWay_station pn src dst vn hs hd]
  exact congrArg _ (dimensionWay_none (_, _) _ ⟨hr, s.spotOf_col_lt src⟩ (s.spotOf_lt h))

theorem State.plainWay_rowRing (s : State) {pn : Nat} {src dst : Place} {vn : Vn} {lo w : Nat}
    (hs : (s.part pn).inside src = true) (hd : (s.part pn).inside dst = true) (hv : (s.part pn).attrs.shape ≠ 4)
    (hring : (s.part pn).rowRing (s.spotOf src).2 = some (lo, w)) (hrow : (s.spotOf src).1 = (s.spotOf dst).1)
    (ha : lo ≤ (s.spotOf src).2 ∧ (s.spotOf src).2 < lo + w) (hb : lo ≤ (s.spotOf dst).2 ∧ (s.spotOf dst).2 < lo + w) :
    s.plainWay pn src dst vn
      = ringWay (s.spotOf dst) lo w (s.spotOf src).2 (s.spotOf dst).2 (nodeOf (s.spotOf src).1) .east .west := by
  rw [s.plainWay_inside pn src dst vn hs hd fun h => hv h.1, hring]
  exact dimensionWay_rowRing _ hrow ha hb

theorem State.plainWay_colRing (s : State) {pn : Nat} {src dst : Place} {vn : Vn} {lo w : Nat}
    (hs : (s.part pn).inside src = true) (hd : (s.part pn).inside dst = true) (hv : (s.part pn).attrs.shape ≠ 4)
    (hring : (s.part pn).colRing = some (lo, w)) (hcol : (s.spotOf src).2 = (s.spotOf dst).2)
    (ha : lo ≤ (s.spotOf src).1 ∧ (s.spotOf src).1 < lo + w) (hb : lo ≤ (s.spotOf dst).1 ∧ (s.spotOf dst).1 < lo + w) :
    s.plainWay pn src dst vn
      = ringWay (s.spotOf dst) lo w (s.spotOf src).1 (s.spotOf dst).1 (fun r => nodeOf r (s.spotOf src).2) .south .north := by
  rw [s.plainWay_inside pn src dst vn hs hd fun h => hv h.1, hring]
  exact dimensionWay_colRing _ hcol ha hb

/-! ## Detours -/

theorem State.deadHop_iff (s : State) (h : Hop) : s.deadHop h = true ↔ Claims.dead s h := by
  simp [State.deadHop, Claims.dead]

theorem State.any_deadHop_iff (s : State) (l : List Hop) : l.any s.deadHop = true ↔ ∃ h ∈ l, Claims.dead s h := by
  simp [State.deadHop_iff]

theorem State.mem_routers (s : State) (m : Nat × Nat) : m ∈ s.routers ↔ Claims.onMesh s m := by
  obtain ⟨r, c⟩ := m
  simp only [State.routers, Claims.onMesh, List.mem_flatMap, List.mem_map, List.mem_range, Prod.mk.injEq]
  constructor
  · rintro ⟨i, hi, j, hj, rfl, rfl⟩; omega
  · rintro ⟨h1, h2, h3, h4⟩; exact ⟨r - 1, by omega, c - 1, by omega, by omega, by omega⟩

theorem State.lt_of_onMesh {s : State} {m : Nat × Nat} (h : Claims.onMesh s m) : m.1 < 256 ∧ m.2 < 256 := by
  have hc := s.cols_le
  obtain ⟨h1, h2, h3, h4⟩ := h
  omega

/-- The two legs of a detour, as the statements write them. -/
theorem detourBy_eq {a m b : Nat × Nat} (ha : a.1 < 256 ∧ a.2 < 256) (hm : m.1 < 256 ∧ m.2 < 256)
    (hb : b.1 < 256 ∧ b.2 < 256) : detourBy a m b = overRouter a m b := by
  rw [detourBy, dimensionHops_none _ _ _ ha hm, dimensionHops_none _ _ _ hm hb]
  rfl

/-- A detour is over a router of the mesh whose legs are whole; there is none where no router's are. -/
theorem State.detour_spec (s : State) (a b : Nat × Nat) :
    (∀ l, s.detour a b = some l → ∃ m, Claims.onMesh s m ∧ l = detourBy a m b ∧ ∀ h ∈ l, ¬ Claims.dead s h)
      ∧ (s.detour a b = none → ∀ m, Claims.onMesh s m → ∃ h ∈ detourBy a m b, Claims.dead s h) := by
  have whole (m : Nat × Nat) : (!(detourBy a m b).any s.deadHop) = true ↔ ∀ h ∈ detourBy a m b, ¬ Claims.dead s h := by
    simp [State.deadHop_iff]
  simp only [State.detour]
  split
  · rename_i hc
    rw [Bool.and_eq_true, List.contains_iff_mem, s.mem_routers, whole] at hc
    constructor
    · rintro l ⟨⟩
      exact ⟨_, hc.1, rfl, hc.2⟩
    · simp
  · constructor
    · intro l hl
      obtain ⟨m, hm, rfl⟩ := Option.map_eq_some_iff.mp hl
      have hwhole := List.find?_some (p := fun m => !(detourBy a m b).any s.deadHop) hm
      exact ⟨m, (s.mem_routers m).mp (List.mem_of_find?_eq_some hm), rfl, (whole m).mp hwhole⟩
    · intro hn m hm
      have h := List.find?_eq_none.mp (Option.map_eq_none_iff.mp hn) m ((s.mem_routers m).mpr hm)
      rw [whole] at h
      push Not at h
      exact h

/-- A way replaced by its detour, where there is one. -/
theorem State.detours_detour (s : State) {a b : Nat × Nat} (old : List Hop) (ha : a.1 < 256 ∧ a.2 < 256)
    (hb : b.1 < 256 ∧ b.2 < 256) : Claims.detours s a b old ((s.detour a b).getD old) := by
  obtain ⟨hsome, hnone⟩ := s.detour_spec a b
  have hover (m : Nat × Nat) (hm : Claims.onMesh s m) : detourBy a m b = overRouter a m b :=
    detourBy_eq ha (State.lt_of_onMesh hm) hb
  constructor
  · rintro ⟨m, hm, hwhole⟩
    cases h : s.detour a b with
    | none =>
      obtain ⟨x, hx, hdead⟩ := hnone h m hm
      exact absurd hdead (hwhole x (hover m hm ▸ hx))
    | some l =>
      obtain ⟨m', hm', hl, hw⟩ := hsome l h
      exact ⟨m', hm', hl.trans (hover m' hm'), hw⟩
  · intro hall
    cases h : s.detour a b with
    | none => rfl
    | some l =>
      obtain ⟨m, hm, rfl, hw⟩ := hsome l h
      obtain ⟨x, hx, hdead⟩ := hall m hm
      exact absurd hdead (hw x (hover m hm ▸ hx))

theorem State.hopsOf_of_whole (s : State) (pn : Nat) (src dst : Place) (vn : Vn)
    (h : ∀ x ∈ s.plainWay pn src dst vn, ¬ Claims.dead s x) : s.hopsOf pn src dst vn = s.plainWay pn src dst vn := by
  have hn : ¬ (s.plainWay pn src dst vn).any s.deadHop = true := by
    rw [s.any_deadHop_iff]
    rintro ⟨x, hx, hd⟩
    exact h x hx hd
  exact if_neg hn

theorem State.hopsOf_of_dead (s : State) (pn : Nat) (src dst : Place) (vn : Vn)
    (h : ∃ x ∈ s.plainWay pn src dst vn, Claims.dead s x) :
    s.hopsOf pn src dst vn = (s.detour (s.spotOf src) (s.spotOf dst)).getD (s.plainWay pn src dst vn) :=
  if_pos ((s.any_deadHop_iff _).mpr h)

/-- A link has one number from both its ends. -/
theorem Hop.link_comm {h k : Hop} (hn : h.node = k.far) (hf : h.far = k.node) (ht : h.tree = k.tree) (hw : h.wrap = k.wrap) :
    h.link = k.link := by
  simp only [Hop.link, linkNum, hn, hf, ht, hw, Nat.min_comm, Nat.max_comm]

/-! ## Injection -/

theorem State.limitedOn_iff (s : State) (pn : Nat) (vn : Vn) :
    s.limitedOn pn vn = true ↔ ∃ e ∈ (s.part pn).limited, e.1 = vn := by
  simp [State.limitedOn]

/-- A source that no limit holds may inject at once. -/
theorem State.injectAfter_of_free (s : State) {pn : Nat} (src : Place) {vn : Vn} (h : ¬ s.limitedOn pn vn = true) :
    s.injectAfter pn src vn = 0 := if_neg h

theorem State.fabricCycle_le_injectAfter (s : State) {pn : Nat} (src : Place) {vn : Vn} (h : s.limitedOn pn vn = true) :
    13 * s.tick ≤ s.injectAfter pn src vn := by
  rw [State.injectAfter, if_pos h]
  exact le_max_left _ _

/-- Under a limit the next packet follows 16 cycles later. -/
theorem State.injectAfter_noteInjection (s : State) {pn : Nat} (src : Place) {vn : Vn} (h : s.limitedOn pn vn = true) :
    (s.noteInjection pn src vn).injectAfter pn src vn = s.injectAfter pn src vn + 16 := by
  have hle := s.fabricCycle_le_injectAfter src h
  have hn : s.noteInjection pn src vn = { s with fab := { s.fab with
      nextInj := Table.set s.fab.nextInj (laneKey src 0 vn) (s.injectAfter pn src vn + 16) } } := if_pos h
  have hl : (s.noteInjection pn src vn).limitedOn pn vn = true := by rw [hn]; exact h
  rw [State.injectAfter, if_pos hl, hn]
  simp only [Table.get_set_self, State.fabricCycle]
  exact max_eq_right (by omega)

end Sys2Proof.Machine
end

section
/-! What a router output and a station send next (01 R27): the heads that wait, the shares by weight, and the network and
the partition that are chosen. -/

namespace Sys2Proof.Machine

open Sys2Proof.Claims

/-! ## Shares by weight -/

/-- A list of one element, duplicates aside. -/
theorem eraseDups_eq_singleton_iff (l : List Nat) (n : Nat) : l.eraseDups = [n] ↔ n ∈ l ∧ ∀ m ∈ l, m = n := by
  constructor
  · intro h
    have hm (m : Nat) : m ∈ l ↔ m = n := by rw [← List.mem_eraseDups, h, List.mem_singleton]
    exact ⟨(hm n).mpr rfl, fun m => (hm m).mp⟩
  · rintro ⟨hn, hall⟩
    cases l with
    | nil => simp at hn
    | cons a l =>
      obtain rfl : a = n := hall a List.mem_cons_self
      have hrest : l.filter (fun b => !b == a) = [] := by
        rw [List.filter_eq_nil_iff]
        intro b hb
        simp [hall b (List.mem_cons_of_mem _ hb)]
      rw [List.eraseDups_cons, hrest]
      rfl

/-- The lowest-numbered partition with credit left, and the shares once it is served. -/
def takeShare (sh : Shares) (l : List Nat) : Option (Nat × Shares) :=
  (l.filter fun n => Table.get 0 sh n != 0).min?.map fun n => (n, Table.set sh n (Table.get 0 sh n - 1))

/-- The shares once every waiting partition has its weight anew. -/
def State.refill (s : State) (sh : Shares) (l : List Nat) : Shares := l.foldl (fun sh n => Table.set sh n (s.weight n)) sh

theorem State.share_singleton (s : State) (sh : Shares) (n : Nat) : s.share sh [n] = some (n, sh) := rfl

theorem State.share_of_ne (s : State) (sh : Shares) {l : List Nat} (h : ∀ n, l ≠ [n]) :
    s.share sh l = (takeShare sh l).or (takeShare (s.refill sh l) l) := by
  match l, h with
  | [], _ => rfl
  | [n], h => exact absurd rfl (h n)
  | _ :: _ :: _, _ => rfl

theorem State.get_refill (s : State) (sh : Shares) (l : List Nat) (m : Nat) :
    Table.get 0 (s.refill sh l) m = if m ∈ l then s.weight m else Table.get 0 sh m := by
  induction l generalizing sh with
  | nil => rfl
  | cons a l ih =>
    show Table.get 0 (s.refill (Table.set sh a (s.weight a)) l) m = _
    rw [ih, Table.get_set]
    by_cases hm : m = a <;> simp [hm]

theorem takeShare_eq_some_iff (sh : Shares) (l : List Nat) (n : Nat) (sh' : Shares) :
    takeShare sh l = some (n, sh') ↔ (n ∈ l ∧ Table.get 0 sh n ≠ 0) ∧ (∀ m ∈ l, Table.get 0 sh m ≠ 0 → n ≤ m)
      ∧ Table.set sh n (Table.get 0 sh n - 1) = sh' := by
  simp only [takeShare, Option.map_eq_some_iff, List.min?_eq_some_iff, List.mem_filter, bne_iff_ne, Prod.mk.injEq, and_imp]
  constructor
  · rintro ⟨k, ⟨hk, hmin⟩, rfl, hsh⟩; exact ⟨hk, hmin, hsh⟩
  · rintro ⟨hk, hmin, hsh⟩; exact ⟨n, ⟨hk, hmin⟩, rfl, hsh⟩

theorem takeShare_eq_none_iff (sh : Shares) (l : List Nat) :
    takeShare sh l = none ↔ ∀ m ∈ l, Table.get 0 sh m = 0 := by
  simp [takeShare, List.min?_eq_none_iff]

theorem State.weight_ne_zero (s : State) (n : Nat) : s.weight n ≠ 0 := by
  unfold State.weight; omega

/-- The partition `n` is served among those that wait, and `sh'` are the shares afterwards (01 R27, log 117). -/
def Shared (s : State) (sh sh' : Shares) (wait : Nat → Prop) (n : Nat) : Prop :=
  let rich (m : Nat) : Prop := wait m ∧ Table.get 0 sh m ≠ 0
  let lone := ∀ m, wait m → m = n
  wait n ∧ (lone → sh' = sh)
    ∧ (¬ lone → (∃ m, rich m) → rich n ∧ (∀ m, rich m → n ≤ m)
        ∧ ∀ m, Table.get 0 sh' m = if m = n then Table.get 0 sh m - 1 else Table.get 0 sh m)
    ∧ (¬ lone → (¬ ∃ m, rich m) → (∀ m, wait m → n ≤ m)
        ∧ ∀ m, (wait m → Table.get 0 sh' m = max 1 (s.part m).attrs.weight - if m = n then 1 else 0)
            ∧ (¬ wait m → Table.get 0 sh' m = Table.get 0 sh m))

/-- The shares serve a partition that waits, as long as one does. -/
theorem State.share_isSome (s : State) (sh : Shares) {l : List Nat} (h : l ≠ []) : ∃ n sh', s.share sh l = some (n, sh') := by
  by_cases h1 : ∃ n, l = [n]
  · obtain ⟨n, rfl⟩ := h1
    exact ⟨n, sh, rfl⟩
  · push Not at h1
    cases ht : takeShare (s.refill sh l) l with
    | some r =>
      rw [s.share_of_ne sh h1, ht]
      cases takeShare sh l with
      | none => exact ⟨r.1, r.2, rfl⟩
      | some q => exact ⟨q.1, q.2, rfl⟩
    | none =>
      obtain ⟨a, ha⟩ := List.exists_mem_of_ne_nil l h
      have hz := (takeShare_eq_none_iff _ _).mp ht a ha
      rw [s.get_refill, if_pos ha] at hz
      exact absurd hz (s.weight_ne_zero a)

/-- What the shares choose. -/
theorem State.shared_of_share (s : State) {sh sh' : Shares} {l : List Nat} {wait : Nat → Prop} {n : Nat}
    (hw : ∀ m, wait m ↔ m ∈ l) (h : s.share sh l.eraseDups = some (n, sh')) : Shared s sh sh' wait n := by
  by_cases h1 : ∃ k, l.eraseDups = [k]
  · obtain ⟨k, hk⟩ := h1
    rw [hk, s.share_singleton] at h
    obtain ⟨rfl, rfl⟩ : k = n ∧ sh = sh' := by simpa using h
    obtain ⟨hk, hall⟩ := (eraseDups_eq_singleton_iff l k).mp hk
    have hlone : ∀ m, wait m → m = k := fun m hm => hall m ((hw m).mp hm)
    exact ⟨(hw k).mpr hk, fun _ => rfl, fun hn => absurd hlone hn, fun hn => absurd hlone hn⟩
  · push Not at h1
    have hmem (m : Nat) : m ∈ l.eraseDups ↔ wait m := by rw [List.mem_eraseDups, hw]
    have hlone : wait n → ¬ ∀ m, wait m → m = n := fun hn hall =>
      h1 n ((eraseDups_eq_singleton_iff l n).mpr ⟨(hw n).mp hn, fun m hm => hall m ((hw m).mpr hm)⟩)
    rw [s.share_of_ne sh h1] at h
    cases ht : takeShare sh l.eraseDups with
    | some r =>
      -- one has credit left
      rw [ht, Option.some_or, Option.some.injEq] at h
      subst h
      obtain ⟨⟨hn, hcredit⟩, hmin, rfl⟩ := (takeShare_eq_some_iff _ _ _ _).mp ht
      rw [hmem] at hn
      refine ⟨hn, fun hl => absurd hl (hlone hn),
        fun _ _ => ⟨⟨hn, hcredit⟩, fun m hm => hmin m ((hmem m).mpr hm.1) hm.2, fun m => ?_⟩,
        fun _ hno => absurd ⟨n, hn, hcredit⟩ hno⟩
      rw [Table.get_set]
      by_cases hm : m = n <;> simp [hm]
    | none =>
      -- each is given its weight anew
      rw [ht, Option.none_or] at h
      rw [takeShare_eq_none_iff] at ht
      obtain ⟨⟨hn, -⟩, hmin, rfl⟩ := (takeShare_eq_some_iff _ _ _ _).mp h
      have hfull (m : Nat) (hm : m ∈ l.eraseDups) : Table.get 0 (s.refill sh l.eraseDups) m = s.weight m := by
        rw [s.get_refill, if_pos hm]
      have hnone : ¬ ∃ m, wait m ∧ Table.get 0 sh m ≠ 0 := by
        rintro ⟨m, hm, hne⟩
        exact hne (ht m ((hmem m).mpr hm))
      have hwn := (hmem n).mp hn
      refine ⟨hwn, fun hl => absurd hl (hlone hwn), fun _ hex => absurd hex hnone, fun _ _ => ⟨fun m hm => ?_, fun m => ⟨fun hm => ?_, fun hm => ?_⟩⟩⟩
      · have hm' := (hmem m).mpr hm
        exact hmin m hm' (by rw [hfull m hm']; exact s.weight_ne_zero m)
      · have hm' := (hmem m).mpr hm
        rw [Table.get_set, hfull n hn, hfull m hm']
        by_cases hmn : m = n <;> simp [hmn, State.weight]
      · have hm' : m ∉ l.eraseDups := fun h => hm ((hmem m).mp h)
        have hmn : m ≠ n := fun h => hm' (h ▸ hn)
        rw [Table.get_set, if_neg hmn, s.get_refill, if_neg hm']

/-! ## Stations -/

/-- An access of the partition waits at the station. -/
def State.atStation (s : State) (st m : Nat) : Prop :=
  ∃ a ∈ s.fab.bufs, a.home = .station st ∧ a.way.path = [] ∧ s.partNo a.src = m

/-- The partitions whose accesses wait at a station. -/
def State.waitingAt (s : State) (st : Nat) : List Nat :=
  (s.fab.bufs.filter fun a => a.home == .station st && a.way.path.isEmpty).map fun a => s.partNo a.src

theorem State.mem_waitingAt (s : State) (st m : Nat) : s.atStation st m ↔ m ∈ s.waitingAt st := by
  simp [State.atStation, State.waitingAt, and_assoc]

theorem State.servedNext_eq (s : State) (st : Nat) :
    s.servedNext st = s.share (Table.get [] s.fab.served st) (s.waitingAt st).eraseDups := rfl

theorem eraseDups_ne_nil {l : List Nat} (h : l ≠ []) : l.eraseDups ≠ [] := by
  obtain ⟨a, ha⟩ := List.exists_mem_of_ne_nil l h
  exact List.ne_nil_of_mem (List.mem_eraseDups.mpr ha)

theorem State.servedNext_none (s : State) (st : Nat) (h : ∀ m, ¬ s.atStation st m) : s.servedNext st = none := by
  have hl : s.waitingAt st = [] := List.eq_nil_iff_forall_not_mem.mpr fun m hm => h m ((s.mem_waitingAt st m).mpr hm)
  rw [s.servedNext_eq, hl]
  rfl

theorem State.servedNext_isSome (s : State) (st : Nat) (h : ∃ m, s.atStation st m) :
    ∃ n sh, s.servedNext st = some (n, sh) := by
  obtain ⟨m, hm⟩ := h
  exact s.share_isSome _ (eraseDups_ne_nil (List.ne_nil_of_mem ((s.mem_waitingAt st m).mp hm)))

theorem State.shared_of_servedNext (s : State) {st n : Nat} {sh : Shares} (h : s.servedNext st = some (n, sh)) :
    Shared s (Table.get [] s.fab.served st) sh (s.atStation st) n :=
  s.shared_of_share (s.mem_waitingAt st) h

/-! ## Router outputs -/

/-- The head of a buffer waits for an output that it may take. -/
def State.waits (s : State) (node : Nat) (d : Dir) (f : Flight) : Prop :=
  f ∈ s.flights ∧ (∃ h, f.way.path.head? = some h ∧ h.node = node ∧ h.dir = d ∧ ¬ Claims.dead s h)
    ∧ (8 ≤ f.way.port → (s.part f.part).paused = false ∧ f.way.after < 13 * s.tick + 13)
    ∧ ∀ g ∈ s.flights, f.sameBuffer g = true → f.way.since ≤ g.way.since

theorem Flight.isHead_iff (fs : List Flight) (f : Flight) :
    f.isHead fs = true ↔ ∀ g ∈ fs, f.sameBuffer g = true → f.way.since ≤ g.way.since := by
  simp only [Flight.isHead, List.all_eq_true, Bool.or_eq_true, Bool.not_eq_true', decide_eq_true_eq]
  refine forall₂_congr fun g _ => ?_
  cases f.sameBuffer g <;> simp

theorem State.mem_readyAt (s : State) (node : Nat) (d : Dir) (f : Flight) :
    f ∈ s.readyAt node d ↔ s.waits node d f := by
  simp only [State.readyAt, State.waits, List.mem_filter, Bool.and_eq_true, Flight.isHead_iff, State.mayHop, and_assoc]
  rw [show 13 * s.tick = s.fabricCycle from rfl]
  refine and_congr_right fun _ => ?_
  cases f.way.path with
  | nil => simp
  | cons h hs =>
    have hport : (f.way.port < 8 ∨ (s.part f.part).paused = false ∧ f.way.after < s.fabricCycle + 13)
        ↔ (8 ≤ f.way.port → (s.part f.part).paused = false ∧ f.way.after < s.fabricCycle + 13) := by
      rw [← Nat.not_lt]
      by_cases hp : f.way.port < 8 <;> simp [hp]
    simp [hport, ← s.deadHop_iff, and_assoc]

/-- The state once an output has sent a packet and keeps `o`. -/
def State.passed (s : State) (node : Nat) (d : Dir) (f : Flight) (o : Outlet) : State :=
  let go (w : Way) : Way := { w with path := w.path.tail, port := d.num, since := s.fab.order, moved := s.tick }
  { s with fab := { s.fab with
      net := s.fab.net.map fun k => if k.num = f.num then { k with way := go k.way } else k
      bufs := s.fab.bufs.map fun a => if a.num = f.num then { a with way := go a.way } else a
      outs := Table.set s.fab.outs (node * 8 + d.num) o
      order := s.fab.order + 1 } }

theorem State.outlet_passed (s : State) (node : Nat) (d : Dir) (f : Flight) (o : Outlet) :
    (s.passed node d f o).outlet node d = o := Table.get_set_self _ _ _ _

theorem State.hop_of_pick_none {s : State} {node : Nat} {d : Dir} (h : s.pickAt node d = none) : s.hop node d = s := by
  simp [State.hop, h]

theorem State.hop_of_pick {s : State} {node : Nat} {d : Dir} {f : Flight} {o : Outlet} (h : s.pickAt node d = some (f, o)) :
    s.hop node d = s.passed node d f o := by
  simp only [State.hop, h]
  rfl

/-- The networks that take an output in turn. -/
def roundVn (i : Nat) : Vn := [Vn.sync, .req, .amsg, .bulk].getD (i % 4) .sync

/-- A network after which the round goes on. -/
theorem roundVn_turnOf {v : Vn} {k : Nat} (h : turnOf v = some k) : roundVn (k + 1 + 3) = v := by
  cases v <;> simp_all [turnOf, roundVn] <;> subst h <;> rfl

/-- The networks after REPLY and MGMT, in the order in which an output looks at them. -/
theorem networks_round (t : Nat) :
    [Vn.sync, .req, .amsg, .bulk].drop (t % 4) ++ [Vn.sync, .req, .amsg, .bulk].take (t % 4)
      = (List.range 4).map fun i => roundVn (t + i) := by
  have hround (i : Nat) : roundVn (t + i) = roundVn (t % 4 + i) := by
    unfold roundVn
    rw [Nat.mod_add_mod]
  simp only [hround]
  have hlt : t % 4 < 4 := Nat.mod_lt _ (by decide)
  generalize t % 4 = r at hlt
  interval_cases r <;> rfl

/-- The network that an output looks at first among those with a property. -/
theorem Outlet.networks_find (o : Outlet) {p : Vn → Bool} (h : ∃ v, p v = true) :
    ∃ v, o.networks.find? p = some v ∧ p v = true ∧ (p .reply = true → v = .reply)
      ∧ (¬ p .reply = true → p .mgmt = true → v = .mgmt)
      ∧ (¬ p .reply = true → ¬ p .mgmt = true →
          (∃ i < 4, v = roundVn (o.turn + i) ∧ ∀ j < i, ¬ p (roundVn (o.turn + j)) = true) ∧ ∃ k, turnOf v = some k) := by
  have hnet : o.networks = .reply :: .mgmt :: (List.range 4).map fun i => roundVn (o.turn + i) := by
    rw [← networks_round, Outlet.networks, List.append_assoc]
    rfl
  by_cases hr : p .reply = true
  · exact ⟨.reply, by simp [hnet, hr], hr, fun _ => rfl, fun h => absurd hr h, fun h => absurd hr h⟩
  by_cases hm : p .mgmt = true
  · exact ⟨.mgmt, by simp [hnet, hr, hm], hm, fun h => absurd h hr, fun _ _ => rfl, fun _ h => absurd hm h⟩
  have hfind : o.networks.find? p = ((List.range 4).map fun i => roundVn (o.turn + i)).find? p := by
    rw [hnet, List.find?_cons_of_neg hr, List.find?_cons_of_neg hm]
  obtain ⟨w, hw⟩ := h
  cases hf : ((List.range 4).map fun i => roundVn (o.turn + i)).find? p with
  | none =>
    -- every network is one of REPLY, MGMT and the four of the round
    have hall := List.find?_eq_none.mp hf
    rw [← networks_round] at hall
    have hin : w ∈ [Vn.sync, .req, .amsg, .bulk] := by
      cases w <;> simp_all
    rw [← List.take_append_drop (o.turn % 4) [Vn.sync, .req, .amsg, .bulk], List.mem_append, or_comm, ← List.mem_append] at hin
    exact absurd hw (hall w hin)
  | some v =>
    obtain ⟨hv, i, hi, hiv, hlt⟩ := List.find?_eq_some_iff_getElem.mp hf
    simp only [List.getElem_map, List.getElem_range] at hiv hlt
    refine ⟨v, hfind.trans hf, hv, fun h => absurd h hr, fun _ h => absurd h hm, fun _ _ =>
      ⟨⟨i, by simpa using hi, hiv.symm, fun j hj => by simpa using hlt j hj⟩, ?_⟩⟩
    cases v with
    | reply => exact absurd hv hr
    | mgmt => exact absurd hv hm
    | _ => exact ⟨_, rfl⟩

/-- What is alone at an output is sent, and takes no turn. -/
theorem State.pickAt_singleton {s : State} {node : Nat} {d : Dir} {f : Flight} (h : s.readyAt node d = [f]) :
    s.pickAt node d = some (f, s.outlet node d) := by
  simp [State.pickAt, h]

theorem State.pickAt_nil {s : State} {node : Nat} {d : Dir} (h : s.readyAt node d = []) : s.pickAt node d = none := by
  simp [State.pickAt, h]

/-- Of several heads an output chooses by network, by partition, and by how long each has waited. -/
theorem State.pickAt_of_ne {s : State} {node : Nat} {d : Dir} (h : ∀ f, s.readyAt node d ≠ [f]) :
    s.pickAt node d = ((s.outlet node d).networks.find? fun v => (s.readyAt node d).any (·.vn == v)).bind fun v =>
      let mine := (s.readyAt node d).filter (·.vn == v)
      (s.share (Table.get [] (s.outlet node d).shares (laneKey 0 0 v)) (mine.map (·.part)).eraseDups).bind fun (pn, sh) =>
        let own := mine.filter (·.part == pn)
        (own.find? fun f => own.all fun g => decide (f.way.since ≤ g.way.since)).map fun f =>
          (f, ⟨((turnOf v).map (· + 1)).getD (s.outlet node d).turn, Table.set (s.outlet node d).shares (laneKey 0 0 v) sh⟩) := by
  rw [State.pickAt]
  split
  · rename_i f hf
    exact absurd hf (h f)
  · rfl

/-- Among packets one has waited longest. -/
theorem exists_find_oldest {l : List Flight} (h : l ≠ []) :
    ∃ f, (l.find? fun f => l.all fun g => decide (f.way.since ≤ g.way.since)) = some f ∧ f ∈ l
      ∧ ∀ g ∈ l, f.way.since ≤ g.way.since := by
  obtain ⟨f, hf⟩ := Option.ne_none_iff_exists'.mp (mt List.argmin_eq_none.mp h : l.argmin (fun f => f.way.since) ≠ none)
  have hmin : ∀ g ∈ l, f.way.since ≤ g.way.since := fun g hg =>
    List.le_of_mem_argmin (f := fun f : Flight => f.way.since) hg hf
  cases hfind : l.find? fun f => l.all fun g => decide (f.way.since ≤ g.way.since) with
  | none =>
    have := List.find?_eq_none.mp hfind f (List.argmin_mem hf)
    simp only [List.all_eq_true, decide_eq_true_eq] at this
    exact absurd hmin this
  | some k =>
    refine ⟨k, rfl, List.mem_of_find?_eq_some hfind, fun g hg => ?_⟩
    have hk := List.find?_some hfind
    simp only [List.all_eq_true, decide_eq_true_eq] at hk
    exact hk g hg

end Sys2Proof.Machine
end

section
/-! What a router output sends, in full, and the statement about the mesh. -/

namespace Sys2Proof.Machine

open Sys2Proof.Claims

/-- A head alone at an output: no other waits, and it stands for one packet. -/
def State.alone (s : State) (node : Nat) (d : Dir) (f : Flight) : Prop :=
  s.waits node d f ∧ (∀ g, s.waits node d g → g = f) ∧ s.flights.count f = 1

theorem State.count_readyAt (s : State) {node : Nat} {d : Dir} {f : Flight} (h : s.waits node d f) :
    (s.readyAt node d).count f = s.flights.count f := by
  have hf := (s.mem_readyAt node d f).mpr h
  rw [State.readyAt] at hf ⊢
  exact List.count_filter (List.mem_filter.mp hf).2

theorem State.readyAt_eq_singleton_iff (s : State) (node : Nat) (d : Dir) (f : Flight) :
    s.readyAt node d = [f] ↔ s.alone node d f := by
  constructor
  · intro h
    have hw : s.waits node d f := (s.mem_readyAt node d f).mp (by simp [h])
    refine ⟨hw, fun g hg => ?_, ?_⟩
    · simpa [h] using (s.mem_readyAt node d g).mpr hg
    · rw [← s.count_readyAt hw, h]; simp
  · rintro ⟨hw, hall, hone⟩
    rw [← s.count_readyAt hw] at hone
    have hrep : s.readyAt node d = List.replicate (s.readyAt node d).length f :=
      List.eq_replicate_of_mem fun g hg => hall g ((s.mem_readyAt node d g).mp hg)
    rw [hrep, List.count_replicate_self] at hone
    rw [hrep, hone]
    rfl

theorem State.hop_idle (s : State) (node : Nat) (d : Dir) (h : ∀ f, ¬ s.waits node d f) : s.hop node d = s := by
  refine State.hop_of_pick_none (State.pickAt_nil (List.eq_nil_iff_forall_not_mem.mpr fun f hf => ?_))
  exact h f ((s.mem_readyAt node d f).mp hf)

theorem State.hop_alone (s : State) {node : Nat} {d : Dir} {f : Flight} (h : s.alone node d f) :
    s.hop node d = s.passed node d f (s.outlet node d) :=
  State.hop_of_pick (State.pickAt_singleton ((s.readyAt_eq_singleton_iff node d f).mpr h))

/-- What an output sends where several heads wait: of the network that comes first, of the partition that the shares
choose, the head that has waited longest. -/
theorem State.hop_among (s : State) (node : Nat) (d : Dir) (hex : ∃ f, s.waits node d f) (hno : ∀ f, ¬ s.alone node d f) :
    ∃ f sh',
      let o := s.outlet node d
      let any (v : Vn) : Prop := ∃ f, s.waits node d f ∧ f.vn = v
      let turn := if f.vn = .reply ∨ f.vn = .mgmt then o.turn else ((s.hop node d).outlet node d).turn
      s.waits node d f
        ∧ (any .reply → f.vn = .reply) ∧ (¬ any .reply → any .mgmt → f.vn = .mgmt)
        ∧ (¬ any .reply → ¬ any .mgmt → ∃ i < 4, f.vn = roundVn (o.turn + i) ∧ (∀ j < i, ¬ any (roundVn (o.turn + j)))
            ∧ roundVn (turn + 3) = f.vn)
        ∧ Shared s (Table.get [] o.shares (laneKey 0 0 f.vn)) sh' (fun m => ∃ g, s.waits node d g ∧ g.vn = f.vn ∧ g.part = m) f.part
        ∧ (∀ g, s.waits node d g → g.vn = f.vn → g.part = f.part → f.way.since ≤ g.way.since)
        ∧ s.hop node d = s.passed node d f ⟨turn, Table.set o.shares (laneKey 0 0 f.vn) sh'⟩ := by
  have hne : ∀ f, s.readyAt node d ≠ [f] := fun f h => hno f ((s.readyAt_eq_singleton_iff node d f).mp h)
  have hany (v : Vn) : (s.readyAt node d).any (·.vn == v) = true ↔ ∃ f, s.waits node d f ∧ f.vn = v := by
    simp [s.mem_readyAt]
  -- the network
  obtain ⟨v, hfind, hv, hreply, hmgmt, hround⟩ := (s.outlet node d).networks_find
    (p := fun v => (s.readyAt node d).any (·.vn == v)) (hex.elim fun f hf => ⟨f.vn, (hany _).mpr ⟨f, hf, rfl⟩⟩)
  simp only [hany] at hv hreply hmgmt hround
  -- the partition
  have hmine (g : Flight) : g ∈ (s.readyAt node d).filter (·.vn == v) ↔ s.waits node d g ∧ g.vn = v := by
    simp [s.mem_readyAt]
  have hparts (m : Nat) : (∃ g, s.waits node d g ∧ g.vn = v ∧ g.part = m)
      ↔ m ∈ ((s.readyAt node d).filter (·.vn == v)).map (·.part) := by
    simp [s.mem_readyAt, and_assoc]
  obtain ⟨g, hg, hgv⟩ := hv
  obtain ⟨n, sh', hshare⟩ := s.share_isSome (Table.get [] (s.outlet node d).shares (laneKey 0 0 v))
    (eraseDups_ne_nil (List.ne_nil_of_mem ((hparts g.part).mp ⟨g, hg, hgv, rfl⟩)))
  have hshared := s.shared_of_share hparts hshare
  -- the head
  obtain ⟨k, hk, hkv, hkn⟩ := hshared.1
  obtain ⟨f, hoff, hf, hold⟩ := exists_find_oldest (l := ((s.readyAt node d).filter (·.vn == v)).filter (·.part == n))
    (List.ne_nil_of_mem (List.mem_filter.mpr ⟨(hmine k).mpr ⟨hk, hkv⟩, by simpa using hkn⟩))
  have hown (g : Flight) : g ∈ ((s.readyAt node d).filter (·.vn == v)).filter (·.part == n)
      ↔ s.waits node d g ∧ g.vn = v ∧ g.part = n := by
    rw [List.mem_filter, hmine, beq_iff_eq, and_assoc]
  obtain ⟨hfw, rfl, rfl⟩ := (hown f).mp hf
  have hhop := State.hop_of_pick (s := s) (node := node) (d := d) (f := f)
    (o := ⟨((turnOf f.vn).map (· + 1)).getD (s.outlet node d).turn,
      Table.set (s.outlet node d).shares (laneKey 0 0 f.vn) sh'⟩) (by
    rw [State.pickAt_of_ne hne, hfind]
    simp only [Option.bind_some, hshare, hoff, Option.map_some])
  have hturn : (if f.vn = .reply ∨ f.vn = .mgmt then (s.outlet node d).turn else ((s.hop node d).outlet node d).turn)
      = ((turnOf f.vn).map (· + 1)).getD (s.outlet node d).turn := by
    rw [hhop, s.outlet_passed]
    split
    · rename_i h
      rcases h with h | h <;> rw [h] <;> rfl
    · rfl
  refine ⟨f, sh', hfw, hreply, hmgmt, fun hr hm => ?_, hshared, fun g hg hgv hgp => hold g ((hown g).mpr ⟨hg, hgv, hgp⟩), ?_⟩
  · obtain ⟨⟨i, hi, hiv, hlt⟩, t, ht⟩ := hround hr hm
    refine ⟨i, hi, hiv, hlt, ?_⟩
    rw [hturn, ht]
    exact roundVn_turnOf ht
  · rw [hturn]
    exact hhop

end Sys2Proof.Machine

namespace Sys2Proof.Proofs

open Sys2Proof Sys2Proof.Machine Sys2Proof.Claims

/-- Settles O51. Ways follow from the closed form of a leg's positions, clause by clause of the partition's stitch; what an
output sends follows from the choice of the network, of the partition by its shares and of the oldest head. -/
theorem packetsTravelByTheMeshRules : Obligations.PacketsTravelByTheMeshRules := by
  unfold Obligations.PacketsTravelByTheMeshRules
  intro s pn src dst vn node st n d sh
  extract_lets t a b inside along straight around within parent number spot way limited sent waits alone passed any round shared o atStation
  have hin (p : Place) (h : inside p) : t.inside p = true := (t.inside_iff p).mpr h
  refine ⟨?_, ?_, ?_, ?_, ?_, ?_, s.hopsOf_of_whole pn src dst vn, ?_, fun h k => Hop.link_comm, rfl, rfl, rfl, ?_, ?_,
    s.hop_idle node d, fun f => s.hop_alone, s.hop_among node d, s.servedNext_none st, s.servedNext_isSome st, s.shared_of_servedNext⟩
  · -- along the row and the column
    intro hs hd hn hcase
    refine s.plainWay_straight hs hd hn (hcase.imp_left fun h hi => h ⟨?_, ?_⟩)
    · exact (t.inside_iff src).mp hi.1
    · exact (t.inside_iff dst).mp hi.2
  · -- from a station to an edge node
    exact fun hd hs he => s.plainWay_station_legs pn src dst vn hd hs he
  · -- round a row's ring, in a RING and in a TORUS
    rintro lo w hs hd hrow hshape rfl rfl ha hb
    have hsh : t.attrs.shape = 1 ∨ t.attrs.shape = 2 := hshape.imp_right And.left
    exact s.plainWay_rowRing (hin src hs) (hin dst hd) (by rcases hsh with h | h <;> exact h ▸ by decide)
      (Part.rowRing_of_full hsh _) hrow ha hb
  · -- round a part of a row, in a SUBTORUS
    rintro lo w hs hd hrow hshape - rfl hw rfl ha hb
    exact s.plainWay_rowRing (hin src hs) (hin dst hd) (hshape ▸ by decide) (Part.rowRing_of_sub hshape _ hw) hrow ha hb
  · -- round a column's ring
    rintro lo w hs hd hcol hshape rfl rfl ha hb
    exact s.plainWay_colRing (hin src hs) (hin dst hd) (by rcases hshape with h | h <;> exact h ▸ by decide)
      (Part.colRing_of_torus hshape) hcol ha hb
  · -- over the tree
    rintro hs hd hshape rfl ha hb
    have hway : way = t.treeWay a b := s.plainWay_tree pn src dst (hin src hs) (hin dst hd) hshape
    rw [hway]
    exact treeWay_eq t a b ha hb
  · -- detours
    intro hs hd hdead
    rw [s.hopsOf_of_dead pn src dst vn hdead]
    exact s.detours_detour _ (s.spotOf_lt hs) (s.spotOf_lt hd)
  · exact fun h => s.injectAfter_of_free src (mt (s.limitedOn_iff pn vn).mp h)
  · intro h
    have hl := (s.limitedOn_iff pn vn).mpr h
    exact ⟨s.fabricCycle_le_injectAfter src hl, s.injectAfter_noteInjection src hl⟩

end Sys2Proof.Proofs
end

section
/-! Stuck heads and dead links (01 R30, R31): what a lost packet, a pause and a reroute change. -/

namespace Sys2Proof.Machine

open Sys2Proof.Claims

/-! ## Stuck heads -/

theorem State.stuckHead_iff (s : State) (router port : Nat) (vn : Vn) (part : Nat) :
    s.stuckHead router port vn part = true ↔ ∃ f ∈ s.flights, f.vn = vn ∧ f.part = part ∧ f.way.port = port
      ∧ (∃ h, f.way.path.head? = some h ∧ h.node = router)
      ∧ (∀ g ∈ s.flights, f.sameBuffer g = true → f.way.since ≤ g.way.since) ∧ s.fab.stucklim ≤ 13 * (s.tick - f.way.moved) := by
  simp [State.stuckHead, Flight.isHead_iff, and_assoc]

/-- The limit on a partition's injection after a stuck head: one entry for the network, for 1,024 ticks. -/
theorem execStuckTimerExpiry_of_stuck {s : State} {router port : Nat} {vn : Vn} {part : Nat}
    (h : s.stuckHead router port vn part = true) :
    ∃ u, exec (.stuckTimerExpiry router port vn part) s = .next u ∧ (vn, s.tick + 1024) ∈ (u.part part).limited
      ∧ (∀ e ∈ (u.part part).limited, e.1 = vn → e.2 = s.tick + 1024) ∧ u.fab = s.fab := by
  refine ⟨_, if_pos h, ?_, ?_, rfl⟩
  · simp
  · intro e he hv
    simp only [State.part_modPart, if_true, List.mem_append, List.mem_filter, List.mem_singleton] at he
    obtain ⟨-, hne⟩ | rfl := he
    · simp [hv] at hne
    · rfl

theorem execStuckTimerExpiry_of_not {s : State} {router port : Nat} {vn : Vn} {part : Nat}
    (h : ¬ s.stuckHead router port vn part = true) : exec (.stuckTimerExpiry router port vn part) s = .next s := if_neg h

theorem execInjectionLimitLift_spec (s : State) (vn : Vn) (part : Nat) :
    ∃ u, exec (.injectionLimitLift vn part) s = .next u
      ∧ (∀ e, e ∈ (u.part part).limited ↔ e ∈ (s.part part).limited ∧ ¬ (e.1 = vn ∧ e.2 ≤ s.tick)) ∧ u.fab = s.fab := by
  refine ⟨_, rfl, fun e => ?_, rfl⟩
  have hkept : (!(e.1 == vn && decide (e.2 ≤ s.tick))) = true ↔ ¬ (e.1 = vn ∧ e.2 ≤ s.tick) := by
    rw [Bool.not_eq_true', ← Bool.not_eq_true, Bool.and_eq_true, beq_iff_eq, decide_eq_true_eq]
  rw [State.part_modPart, if_pos rfl, List.mem_filter, hkept]

/-! ## Lost packets -/

/-- A way's next hop is over a dead link. -/
theorem State.onDeadLink_iff (s : State) (w : Way) :
    s.onDeadLink w = true ↔ ∃ h, w.path.head? = some h ∧ h.dir ≠ .home ∧ h.link ∈ s.fab.deadLinks := by
  simp only [State.onDeadLink]
  cases w.path.head? with
  | none => simp
  | some h => simp [State.deadHop]

@[simp] theorem State.countLost_fab (s : State) (src : Place) : (s.countLost src).fab = s.fab := by
  unfold State.countLost; split <;> rfl
@[simp] theorem State.countLost_mem (s : State) (src : Place) : (s.countLost src).mem = s.mem := by
  unfold State.countLost; split <;> rfl
@[simp] theorem State.countLost_parts (s : State) (src : Place) : (s.countLost src).parts = s.parts := by
  unfold State.countLost; split <;> rfl

/-- The packets of a number, marked lost. -/
def losePackets (num : Nat) (l : List Packet) : List Packet := l.map fun x => if x.num = num then { x with lost := true } else x

/-- The accesses of a number, marked lost. -/
def loseAccesses (num : Nat) (l : List Access) : List Access := l.map fun x => if x.num = num then { x with lost := true } else x

/-- What the loss of a number does: it marks packets of the number, or, where no packet of it is on a dead link, accesses of
it, and counts the loss at the source; or nothing, where nothing of the number is on a dead link. -/
theorem State.losePacket_cases (s : State) (num : Nat) :
    (∃ k ∈ s.fab.net, k.num = num ∧ k.lost = false ∧ s.onDeadLink k.way = true
        ∧ s.losePacket num = ({ s with fab := { s.fab with net := losePackets num s.fab.net } } : State).countLost k.src)
      ∨ (∀ k ∈ s.fab.net, k.num = num → k.lost = false → ¬ s.onDeadLink k.way = true)
        ∧ ((∃ a ∈ s.fab.bufs, a.num = num ∧ a.lost = false ∧ s.onDeadLink a.way = true
            ∧ s.losePacket num = ({ s with fab := { s.fab with bufs := loseAccesses num s.fab.bufs } } : State).countLost a.src)
          ∨ (∀ a ∈ s.fab.bufs, a.num = num → a.lost = false → ¬ s.onDeadLink a.way = true) ∧ s.losePacket num = s) := by
  unfold State.losePacket
  cases hk : s.fab.net.find? fun k => k.num == num && !k.lost && s.onDeadLink k.way with
  | some k =>
    have h := List.find?_some hk
    simp only [Bool.and_eq_true, beq_iff_eq, Bool.not_eq_true'] at h
    exact .inl ⟨k, List.mem_of_find?_eq_some hk, h.1.1, h.1.2, h.2, rfl⟩
  | none =>
    have hno := List.find?_eq_none.mp hk
    refine .inr ⟨fun k hk hn hl hd => hno k hk (by simp [hn, hl, hd]), ?_⟩
    cases ha : s.fab.bufs.find? fun a => a.num == num && !a.lost && s.onDeadLink a.way with
    | some a =>
      have h := List.find?_some ha
      simp only [Bool.and_eq_true, beq_iff_eq, Bool.not_eq_true'] at h
      exact .inl ⟨a, List.mem_of_find?_eq_some ha, h.1.1, h.1.2, h.2, rfl⟩
    | none =>
      have hno' := List.find?_eq_none.mp ha
      exact .inr ⟨fun k hk hn hl hd => hno' k hk (by simp [hn, hl, hd]), rfl⟩

theorem State.losePacket_frame (s : State) (num : Nat) :
    (s.losePacket num).mem = s.mem ∧ (s.losePacket num).parts = s.parts
      ∧ (s.losePacket num).fab.deadLinks = s.fab.deadLinks ∧ (s.losePacket num).fab.draining = s.fab.draining := by
  obtain ⟨k, -, -, -, -, h⟩ | ⟨-, ⟨a, -, -, -, -, h⟩ | ⟨-, h⟩⟩ := s.losePacket_cases num <;> rw [h] <;> simp

theorem State.foldl_losePacket_frame (s : State) (lost : List Nat) :
    let u := lost.foldl State.losePacket s
    u.mem = s.mem ∧ u.parts = s.parts ∧ u.fab.deadLinks = s.fab.deadLinks ∧ u.fab.draining = s.fab.draining := by
  refine List.foldlRecOn (motive := fun u => u.mem = s.mem ∧ u.parts = s.parts ∧ u.fab.deadLinks = s.fab.deadLinks
    ∧ u.fab.draining = s.fab.draining) lost State.losePacket ⟨rfl, rfl, rfl, rfl⟩ fun u hu n _ => ?_
  obtain ⟨h1, h2, h3, h4⟩ := u.losePacket_frame n
  obtain ⟨i1, i2, i3, i4⟩ := hu
  exact ⟨h1.trans i1, h2.trans i2, h3.trans i3, h4.trans i4⟩

theorem mem_losePackets_of_ne {l : List Packet} {k : Packet} {num : Nat} (hk : k ∈ l) (h : k.num ≠ num) : k ∈ losePackets num l :=
  List.mem_map.mpr ⟨k, hk, if_neg h⟩

theorem mem_losePackets {l : List Packet} {k : Packet} (hk : k ∈ l) : { k with lost := true } ∈ losePackets k.num l :=
  List.mem_map.mpr ⟨k, hk, if_pos rfl⟩

theorem mem_loseAccesses_of_ne {l : List Access} {x : Access} {num : Nat} (hx : x ∈ l) (h : x.num ≠ num) : x ∈ loseAccesses num l :=
  List.mem_map.mpr ⟨x, hx, if_neg h⟩

theorem mem_loseAccesses {l : List Access} {x : Access} (hx : x ∈ l) : { x with lost := true } ∈ loseAccesses x.num l :=
  List.mem_map.mpr ⟨x, hx, if_pos rfl⟩

theorem State.deadLinks_onDeadLink {s u : State} (h : u.fab.deadLinks = s.fab.deadLinks) (w : Way) :
    u.onDeadLink w = s.onDeadLink w := by
  rw [Bool.eq_iff_iff, u.onDeadLink_iff, s.onDeadLink_iff, h]

/-! ### Packets -/

/-- A packet of another number stays as it is. -/
theorem State.mem_net_losePacket_of_ne {s : State} {num : Nat} {k : Packet} (hk : k ∈ s.fab.net) (h : k.num ≠ num) :
    k ∈ (s.losePacket num).fab.net := by
  obtain ⟨j, -, -, -, -, e⟩ | ⟨-, ⟨a, -, -, -, -, e⟩ | ⟨-, e⟩⟩ := s.losePacket_cases num <;> rw [e]
  · simpa using mem_losePackets_of_ne hk h
  · simpa using hk
  · exact hk

/-- A packet that is lost already stays so. -/
theorem State.mem_net_losePacket_of_lost {s : State} (num : Nat) {k : Packet} (hk : { k with lost := true } ∈ s.fab.net) :
    { k with lost := true } ∈ (s.losePacket num).fab.net := by
  obtain ⟨j, -, -, -, -, e⟩ | ⟨-, ⟨a, -, -, -, -, e⟩ | ⟨-, e⟩⟩ := s.losePacket_cases num <;> rw [e]
  · simp only [State.countLost_fab]
    exact List.mem_map.mpr ⟨_, hk, by split <;> rfl⟩
  · simpa using hk
  · exact hk

/-- A packet of the number that is on a dead link is lost. -/
theorem State.mem_net_losePacket {s : State} {k : Packet} (hk : k ∈ s.fab.net) (hd : s.onDeadLink k.way = true) :
    { k with lost := true } ∈ (s.losePacket k.num).fab.net := by
  cases hl : k.lost with
  | true =>
    have he : { k with lost := true } = k := by rw [← hl]
    exact State.mem_net_losePacket_of_lost (s := s) k.num (he ▸ hk)
  | false =>
    obtain ⟨j, -, -, -, -, e⟩ | ⟨hno, -⟩ := s.losePacket_cases k.num
    · rw [e]; simpa using mem_losePackets hk
    · exact absurd hd (hno k hk rfl hl)

theorem State.mem_net_foldl_lost {s : State} (lost : List Nat) {k : Packet} (hk : { k with lost := true } ∈ s.fab.net) :
    { k with lost := true } ∈ (lost.foldl State.losePacket s).fab.net :=
  List.foldlRecOn (motive := fun u => { k with lost := true } ∈ u.fab.net) lost State.losePacket hk
    fun _ hu n _ => State.mem_net_losePacket_of_lost n hu

theorem State.mem_net_foldl_of_not_mem {s : State} {lost : List Nat} {k : Packet} (hk : k ∈ s.fab.net) (h : k.num ∉ lost) :
    k ∈ (lost.foldl State.losePacket s).fab.net :=
  List.foldlRecOn (motive := fun u => k ∈ u.fab.net) lost State.losePacket hk
    fun _ hu _ hn => State.mem_net_losePacket_of_ne hu fun e => h (e ▸ hn)

/-- A packet on a dead link whose number is given is lost. -/
theorem State.mem_net_foldl {s : State} {lost : List Nat} {k : Packet} (hk : k ∈ s.fab.net) (h : k.num ∈ lost)
    (hd : s.onDeadLink k.way = true) : { k with lost := true } ∈ (lost.foldl State.losePacket s).fab.net := by
  obtain ⟨before, after, rfl, hn⟩ := List.eq_append_cons_of_mem h
  rw [List.foldl_append, List.foldl_cons]
  have hl := (s.foldl_losePacket_frame before).2.2.1
  exact State.mem_net_foldl_lost after (State.mem_net_losePacket (State.mem_net_foldl_of_not_mem hk hn)
    ((State.deadLinks_onDeadLink hl k.way).trans hd))

/-! ### Accesses -/

/-- An access of another number stays as it is. -/
theorem State.mem_bufs_losePacket_of_ne {s : State} {num : Nat} {x : Access} (hx : x ∈ s.fab.bufs) (h : x.num ≠ num) :
    x ∈ (s.losePacket num).fab.bufs := by
  obtain ⟨j, -, -, -, -, e⟩ | ⟨-, ⟨a, -, -, -, -, e⟩ | ⟨-, e⟩⟩ := s.losePacket_cases num <;> rw [e]
  · simpa using hx
  · simpa using mem_loseAccesses_of_ne hx h
  · exact hx

/-- An access that is lost already stays so. -/
theorem State.mem_bufs_losePacket_of_lost {s : State} (num : Nat) {x : Access} (hx : { x with lost := true } ∈ s.fab.bufs) :
    { x with lost := true } ∈ (s.losePacket num).fab.bufs := by
  obtain ⟨j, -, -, -, -, e⟩ | ⟨-, ⟨a, -, -, -, -, e⟩ | ⟨-, e⟩⟩ := s.losePacket_cases num <;> rw [e]
  · simpa using hx
  · simp only [State.countLost_fab]
    exact List.mem_map.mpr ⟨_, hx, by split <;> rfl⟩
  · exact hx

/-- An access on a dead link is lost with its number, where no packet has that number. -/
theorem State.mem_bufs_losePacket {s : State} {x : Access} (hx : x ∈ s.fab.bufs) (hd : s.onDeadLink x.way = true)
    (hu : ∀ k ∈ s.fab.net, k.num ≠ x.num) : { x with lost := true } ∈ (s.losePacket x.num).fab.bufs := by
  cases hl : x.lost with
  | true =>
    have he : { x with lost := true } = x := by rw [← hl]
    exact State.mem_bufs_losePacket_of_lost (s := s) x.num (he ▸ hx)
  | false =>
    obtain ⟨j, hj, hn, -⟩ | ⟨-, ⟨a, -, -, -, -, e⟩ | ⟨hno, -⟩⟩ := s.losePacket_cases x.num
    · exact absurd hn (hu j hj)
    · rw [e]; simpa using mem_loseAccesses hx
    · exact absurd hd (hno x hx rfl hl)

theorem State.mem_bufs_foldl_lost {s : State} (lost : List Nat) {x : Access} (hx : { x with lost := true } ∈ s.fab.bufs) :
    { x with lost := true } ∈ (lost.foldl State.losePacket s).fab.bufs :=
  List.foldlRecOn (motive := fun u => { x with lost := true } ∈ u.fab.bufs) lost State.losePacket hx
    fun _ hu n _ => State.mem_bufs_losePacket_of_lost n hu

theorem State.mem_bufs_foldl_of_not_mem {s : State} {lost : List Nat} {x : Access} (hx : x ∈ s.fab.bufs) (h : x.num ∉ lost) :
    x ∈ (lost.foldl State.losePacket s).fab.bufs :=
  List.foldlRecOn (motive := fun u => x ∈ u.fab.bufs) lost State.losePacket hx
    fun _ hu _ hn => State.mem_bufs_losePacket_of_ne hu fun e => h (e ▸ hn)

/-- A loss gives no packet a new number. -/
theorem State.num_of_mem_losePacket {s : State} {num : Nat} {k : Packet} (hk : k ∈ (s.losePacket num).fab.net) :
    ∃ j ∈ s.fab.net, j.num = k.num := by
  obtain ⟨j, -, -, -, -, e⟩ | ⟨-, ⟨a, -, -, -, -, e⟩ | ⟨-, e⟩⟩ := s.losePacket_cases num <;> rw [e] at hk
  · rw [State.countLost_fab] at hk
    obtain ⟨y, hy, rfl⟩ := List.mem_map.mp hk
    exact ⟨y, hy, by split <;> rfl⟩
  · rw [State.countLost_fab] at hk
    exact ⟨k, hk, rfl⟩
  · exact ⟨k, hk, rfl⟩

/-- An access on a dead link whose number is given, and is no packet's, is lost. -/
theorem State.mem_bufs_foldl {s : State} {lost : List Nat} {x : Access} (hx : x ∈ s.fab.bufs) (h : x.num ∈ lost)
    (hd : s.onDeadLink x.way = true) (hu : ∀ k ∈ s.fab.net, k.num ≠ x.num) :
    { x with lost := true } ∈ (lost.foldl State.losePacket s).fab.bufs := by
  obtain ⟨before, after, rfl, hn⟩ := List.eq_append_cons_of_mem h
  rw [List.foldl_append, List.foldl_cons]
  have hl := (s.foldl_losePacket_frame before).2.2.1
  have hu' : ∀ k ∈ (before.foldl State.losePacket s).fab.net, k.num ≠ x.num :=
    List.foldlRecOn (motive := fun u => ∀ k ∈ u.fab.net, k.num ≠ x.num) before State.losePacket hu fun u hu n _ k hk => by
      obtain ⟨j, hj, hjk⟩ := State.num_of_mem_losePacket hk
      exact hjk ▸ hu j hj
  exact State.mem_bufs_foldl_lost after (State.mem_bufs_losePacket (State.mem_bufs_foldl_of_not_mem hx hn)
    ((State.deadLinks_onDeadLink hl x.way).trans hd) hu')

/-- The source core of the one packet of a number counts its loss once. -/
theorem State.lost_losePacket {s : State} {k : Packet} (hk : k ∈ s.fab.net) (hone : ∀ y ∈ s.fab.net, y.num = k.num → y = k)
    (hl : k.lost = false) (hd : s.onDeadLink k.way = true) (hsrc : k.src < 16384) :
    ((s.losePacket k.num).core k.src).lost
      = if (s.core k.src).lost = 0xFFFFFFFF then 0xFFFFFFFF else (s.core k.src).lost + 1 := by
  obtain ⟨j, hj, hn, -, -, e⟩ | ⟨hno, -⟩ := s.losePacket_cases k.num
  · obtain rfl := hone j hj hn
    rw [e, State.countLost, if_pos hsrc, State.core_modCore, if_pos rfl]
    have hall : BitVec.allOnes 32 = 0xFFFFFFFF#32 := by decide
    show (if (s.core j.src).lost = BitVec.allOnes 32 then (s.core j.src).lost else (s.core j.src).lost + 1) = _
    rw [hall]
    by_cases h : (s.core j.src).lost = 0xFFFFFFFF#32 <;> simp [h]
  · exact absurd hd (hno k hk rfl hl)

/-! ## Pauses -/

/-- A router lies in a partition's rectangle. -/
theorem Part.holdsNode_iff (t : Part) (n : Nat) :
    t.holdsNode n = true ↔ t.attrs.clu / 64 < n / 128 ∧ n / 128 ≤ t.attrs.clu / 64 + t.attrs.nrows
      ∧ t.attrs.clu % 64 < n % 128 ∧ n % 128 ≤ t.attrs.clu % 64 + t.attrs.ncols := by
  simp [Part.holdsNode, and_assoc]

/-- A partition has a route through a link (log 61): over a link of the mesh, in a column, or in a row that serves everyone,
or of its own; over a wrap link or a link of the tree, where its stitch joins the ends. -/
theorem State.routesOver_iff (s : State) (e : Nat × Part) (link : Nat) :
    s.routesOver e link = true ↔
      (let ends := (link / 4 / 8192, link / 4 % 8192)
       let row := ends.1 / 128
       if link % 4 = 0 then
         row ≠ ends.2 / 128 ∨ row ∈ [0, 1, 9, 32, 33] ∨ (e.2.attrs.clu / 64 < row ∧ row ≤ e.2.attrs.clu / 64 + e.2.attrs.nrows)
           ∨ ∃ l ∈ s.sublinks, l.2.owner = some e.1 ∧ l.1 / 8 + 1 = row
       else e.2.holdsNode ends.1 = true ∧ e.2.holdsNode ends.2 = true ∧ e.2.attrs.shape ≠ 0
         ∧ (link % 4 = 2 ↔ e.2.attrs.shape = 4)) := by
  simp only [State.routesOver]
  split
  · simp only [Bool.or_eq_true, bne_iff_ne, beq_iff_eq, Bool.and_eq_true, decide_eq_true_eq, List.any_eq_true, List.mem_cons,
      List.not_mem_nil, or_false]
    tauto
  · rw [show ((link % 4 == 2) == (e.2.attrs.shape == 4)) = decide (link % 4 = 2 ↔ e.2.attrs.shape = 4) from by
      by_cases h2 : link % 4 = 2 <;> by_cases h4 : e.2.attrs.shape = 4 <;> simp [h2, h4]]
    simp only [Bool.and_eq_true, bne_iff_ne, decide_eq_true_eq]
    tauto

theorem State.mem_parts_pauseOver {s : State} {e : Nat × Part} (link : Nat) (he : e ∈ s.parts) :
    (e.1, { e.2 with paused := e.2.paused || s.routesOver e link }) ∈ (s.pauseOver link).parts :=
  List.mem_map.mpr ⟨e, he, rfl⟩

/-! ## Reroutes -/

/-- The way after a reroute: from the source for what was lost; as it was, where no hop of it is over a dead link; else by a
detour from where the packet stands. -/
theorem State.reroute_spec (s : State) (pn : Nat) (src dst : Place) (vn : Vn) (lost : Bool) (old : Way) :
    (lost = true → s.reroute pn src dst vn lost old = s.wayFor pn src dst vn)
      ∧ (lost = false → (∀ h ∈ old.path, ¬ Claims.dead s h) → s.reroute pn src dst vn lost old = old)
      ∧ (lost = false → ∀ h hs, old.path = h :: hs → h.node < 8192 → (s.spotOf dst).1 < 256 →
          (∃ g ∈ old.path, Claims.dead s g) →
          detours s (h.node / 128, h.node % 128) (s.spotOf dst) old.path (s.reroute pn src dst vn lost old).path) := by
  refine ⟨?_, ?_, ?_⟩
  · rintro rfl; rfl
  · rintro rfl hwhole
    have hno : ¬ old.path.any s.deadHop = true := by
      rw [s.any_deadHop_iff]
      rintro ⟨x, hx, hd⟩
      exact hwhole x hx hd
    rw [State.reroute, if_neg (by decide)]
    split
    · exact if_neg hno
    · rfl
  · rintro rfl h hs hp hn hb hdead
    rw [State.reroute, if_neg (by decide), hp]
    dsimp only
    rw [← hp, if_pos ((s.any_deadHop_iff _).mpr hdead)]
    exact s.detours_detour old.path ⟨by dsimp only; omega, by dsimp only; omega⟩ ⟨hb, s.spotOf_col_lt dst⟩

/-! ## The two events -/

/-- The state in which a link has just been found dead: it is out of use, and the partitions with a route through it pause. -/
def State.linkDown (s : State) (link : Nat) : State :=
  ({ s with fab := { s.fab with deadLinks := s.fab.deadLinks ++ [link], draining := true } } : State).pauseOver link

theorem execLinkDead_of_known {s : State} {link : Nat} (lost : List Nat) (h : link ∈ s.fab.deadLinks) :
    exec (.linkDead link lost) s = .next s := if_pos (List.contains_iff_mem.mpr h)

theorem execLinkDead_of_new {s : State} {link : Nat} (lost : List Nat) (h : link ∉ s.fab.deadLinks) :
    exec (.linkDead link lost) s = .next (lost.foldl State.losePacket (s.linkDown link)) :=
  if_neg (mt List.contains_iff_mem.mp h)

/-- A way's next hop is over the link, or over one that was dead before. -/
theorem State.onDeadLink_linkDown (s : State) (link : Nat) (w : Way) :
    (s.linkDown link).onDeadLink w = true
      ↔ ∃ h, w.path.head? = some h ∧ h.dir ≠ .home ∧ (h.link = link ∨ h.link ∈ s.fab.deadLinks) := by
  rw [State.onDeadLink_iff]
  refine exists_congr fun h => and_congr_right fun _ => and_congr_right fun _ => ?_
  show h.link ∈ s.fab.deadLinks ++ [link] ↔ _
  rw [List.mem_append, List.mem_singleton, or_comm]

theorem State.mem_parts_linkDown {s : State} {e : Nat × Part} (link : Nat) (he : e ∈ s.parts) :
    (e.1, { e.2 with paused := e.2.paused || s.routesOver e link }) ∈ (s.linkDown link).parts :=
  State.mem_parts_pauseOver (s := { s with fab := { s.fab with deadLinks := s.fab.deadLinks ++ [link], draining := true } }) link he

/-- The state after a reroute. -/
def State.rerouted (s : State) : State :=
  ({ s with fab := { s.fab with
      draining := false
      net := s.fab.net.map fun k => { k with lost := false, way := s.reroute k.part k.src k.dst k.vn k.lost k.way }
      bufs := s.fab.bufs.map fun a => { a with
        lost := false, way := s.reroute (s.partNo a.src) a.src (homePlace a.src a.home) a.vn a.lost a.way } } } : State).resumeAll

theorem execRerouteResume_of_draining {s : State} (h : s.fab.draining = true) :
    exec .rerouteResume s = .next s.rerouted := if_pos h

theorem execRerouteResume_of_settled {s : State} (h : s.fab.draining = false) :
    exec .rerouteResume s = .next s := if_neg (Bool.not_eq_true _ ▸ h)

end Sys2Proof.Machine

namespace Sys2Proof.Proofs

open Sys2Proof Sys2Proof.Machine Sys2Proof.Claims

/-- The mesh recovers from a stuck head and from a dead link (01 R30, R31). -/
theorem meshRecoversFromStuckAndDead : Claims.MeshRecoversFromStuckAndDead := by
  unfold Claims.MeshRecoversFromStuckAndDead
  intro s router port part link vn lost k x e
  extract_lets stuck dead on ends row holds ownRow portRow crossed renewed
  have hstuck : s.stuckHead router port vn part = true ↔ stuck := s.stuckHead_iff router port vn part
  have hon (w : Way) : (s.linkDown link).onDeadLink w = true ↔ on w := s.onDeadLink_linkDown link w
  have hcrossed : s.routesOver e link = true ↔ crossed := by
    simp only [s.routesOver_iff, Part.holdsNode_iff]
    rfl
  refine ⟨fun h => execStuckTimerExpiry_of_not (mt hstuck.mp h), fun h => execStuckTimerExpiry_of_stuck (hstuck.mpr h),
    execInjectionLimitLift_spec s vn part, execLinkDead_of_known lost, fun hnew => ?_, execRerouteResume_of_settled, fun hdrain => ?_⟩
  · -- a dead link
    obtain ⟨hmem, hparts, hlinks, hdraining⟩ := (s.linkDown link).foldl_losePacket_frame lost
    refine ⟨_, execLinkDead_of_new lost hnew, hlinks, hdraining, hmem, fun he hc => ?_, fun he hc => ?_,
      fun hk hn hw => State.mem_net_foldl hk hn ((hon _).mpr hw), fun hk hn => State.mem_net_foldl_of_not_mem hk hn,
      fun hx hn => State.mem_bufs_foldl_of_not_mem hx hn,
      fun hu hx hn hw => State.mem_bufs_foldl hx hn ((hon _).mpr hw) hu, ?_⟩
    · have h := State.mem_parts_linkDown link he
      rwa [hcrossed.mpr hc, Bool.or_true, ← hparts] at h
    · have h := State.mem_parts_linkDown link he
      rwa [Bool.eq_false_iff.mpr (mt hcrossed.mp hc), Bool.or_false, ← hparts] at h
    · rintro rfl hk hone hl hw hsrc
      exact State.lost_losePacket (s := s.linkDown link) hk hone hl ((hon _).mpr hw) hsrc
  · -- a reroute
    refine ⟨s.rerouted, execRerouteResume_of_draining hdrain, rfl, ?_, ?_, ?_, ?_, ?_, rfl⟩
    · intro e he
      obtain ⟨e', -, rfl⟩ := List.mem_map.mp he
      rfl
    · exact fun y hy => ⟨_, List.mem_map_of_mem hy, s.reroute_spec _ _ _ _ _ _⟩
    · exact fun y hy => ⟨_, List.mem_map_of_mem hy, s.reroute_spec _ _ _ _ _ _⟩
    · exact List.map_map.trans rfl
    · exact List.map_map.trans rfl

end Sys2Proof.Proofs
end

section
/-! What the end of a strand and of a launch leaves alone. Such operations start no strand, give no core a feature, move
no core to another partition, park nobody and rewrite no place table: one relation between states says so, and each
operation that they are made of keeps it. -/

namespace Sys2Proof.Machine

/-! ## Entries of a table -/

theorem Table.mem_set {α : Type} {t : Table α} {k : Nat} {v : α} {e : Nat × α} (h : e ∈ Table.set t k v) :
    e ∈ t ∨ e = (k, v) := by
  induction t with
  | nil => exact .inr (List.mem_singleton.mp h)
  | cons x t ih =>
    simp only [Table.set] at h
    split at h
    · rcases List.mem_cons.mp h with h | h
      · exact .inr h
      · exact .inl h
    · split at h
      · rcases List.mem_cons.mp h with h | h
        · exact .inr h
        · exact .inl (List.mem_cons_of_mem _ h)
      · rcases List.mem_cons.mp h with h | h
        · exact .inl (h ▸ List.mem_cons_self)
        · exact (ih h).imp_left (List.mem_cons_of_mem _)

/-- What a table reads at a key is the default or an entry of it. -/
theorem Table.get_eq_or_mem {α : Type} (d : α) (t : Table α) (k : Nat) : Table.get d t k = d ∨ (k, Table.get d t k) ∈ t := by
  induction t with
  | nil => exact .inl rfl
  | cons x t ih =>
    obtain ⟨k', v'⟩ := x
    by_cases h : k = k'
    · subst h
      exact .inr (by simp [Table.get])
    · simp only [Table.get, if_neg h]
      exact ih.imp_right (List.mem_cons_of_mem _)

/-! ## Cores -/

/-- A core after operations that end strands: in its partition still, running only if it ran, with no feature that it had
not, and with the place tables of before or with its cluster's. -/
structure Core.Settles (c d : Core) : Prop where
  part : d.part = c.part
  running : d.running = true → c.running = true
  feat : ∀ m, c.feat &&& m = 0 → d.feat &&& m = 0
  tabs : d.oldTabs = none ∨ d.oldTabs = c.oldTabs

theorem Core.Settles.refl (c : Core) : c.Settles c := ⟨rfl, id, fun _ h => h, .inr rfl⟩

theorem Core.Settles.trans {c d e : Core} (h : c.Settles d) (k : d.Settles e) : c.Settles e where
  part := k.part.trans h.part
  running r := h.running (k.running r)
  feat m hm := k.feat m (h.feat m hm)
  tabs := by
    rcases k.tabs with hk | hk
    · exact .inl hk
    · rw [hk]; exact h.tabs

theorem Core.settles_adopt (c : Core) (g : Nat) : c.Settles (c.adopt g) where
  part := rfl
  running := id
  feat m hm := by
    show c.feat &&& ~~~c.retiring &&& m = 0
    rw [BitVec.and_assoc, BitVec.and_comm _ m, ← BitVec.and_assoc, hm]
    exact BitVec.zero_and
  tabs := .inl rfl

/-! ## Parked strands -/

/-- Of the parked strands some have ended: those left are strands of before, at their places, and a strand that is gone
is gone from every place. -/
structure ParkedFrom (l l' : List Parked) : Prop where
  old : ∀ z ∈ l', ∃ y ∈ l, y.place = z.place ∧ y.st.act.sid = z.st.act.sid
  gone : ∀ y ∈ l, (∃ z ∈ l', z.place = y.place ∧ z.st.act.sid = y.st.act.sid) ∨ ∀ z ∈ l', z.st.act.sid ≠ y.st.act.sid

theorem ParkedFrom.refl (l : List Parked) : ParkedFrom l l :=
  ⟨fun z hz => ⟨z, hz, rfl, rfl⟩, fun y hy => .inl ⟨y, hy, rfl, rfl⟩⟩

theorem ParkedFrom.trans {l l' l'' : List Parked} (h : ParkedFrom l l') (k : ParkedFrom l' l'') : ParkedFrom l l'' where
  old z hz := by
    obtain ⟨y, hy, hp, hs⟩ := k.old z hz
    obtain ⟨x, hx, hp', hs'⟩ := h.old y hy
    exact ⟨x, hx, hp'.trans hp, hs'.trans hs⟩
  gone x hx := by
    rcases h.gone x hx with ⟨y, hy, hp, hs⟩ | hno
    · rcases k.gone y hy with ⟨z, hz, hp', hs'⟩ | hno
      · exact .inl ⟨z, hz, hp'.trans hp, hs'.trans hs⟩
      · exact .inr fun z hz => hs ▸ hno z hz
    · refine .inr fun z hz => ?_
      obtain ⟨y, hy, -, hs⟩ := k.old z hz
      exact hs ▸ hno y hy

/-- Strands that change without leaving their places. -/
theorem ParkedFrom.map {l : List Parked} {f : Parked → Parked} (h : ∀ k, (f k).place = k.place ∧ (f k).st.act.sid = k.st.act.sid) :
    ParkedFrom l (l.map f) where
  old z hz := by
    obtain ⟨y, hy, rfl⟩ := List.mem_map.mp hz
    exact ⟨y, hy, (h y).1.symm, (h y).2.symm⟩
  gone y hy := .inl ⟨f y, List.mem_map_of_mem hy, (h y).1, (h y).2⟩

/-- A strand that leaves its place for good. -/
theorem ParkedFrom.filter_sid (l : List Parked) (sid : Nat) : ParkedFrom l (l.filter fun j => j.st.act.sid != sid) where
  old z hz := ⟨z, (List.mem_filter.mp hz).1, rfl, rfl⟩
  gone y hy := by
    by_cases h : y.st.act.sid = sid
    · refine .inr fun z hz => ?_
      simpa [h] using (List.mem_filter.mp hz).2
    · exact .inl ⟨y, List.mem_filter.mpr ⟨hy, by simpa using h⟩, rfl, rfl⟩

/-! ## States -/

/-- An update of a core that gives it no tables of its own makes no new ones. -/
theorem State.tabs_modCore (s : State) (p : Place) {f : Core → Core}
    (h : (f (s.core p)).oldTabs = none ∨ (f (s.core p)).oldTabs = (s.core p).oldTabs) :
    ∀ e ∈ (s.modCore p f).cores, ∀ o, e.2.oldTabs = some o → ∃ e' ∈ s.cores, e'.2.oldTabs = some o := by
  intro e he o ho
  rcases Table.mem_set he with he | rfl
  · exact ⟨e, he, ho⟩
  · have hold : (s.core p).oldTabs = some o := by
      rcases h with hn | he
      · exact absurd (hn.symm.trans ho) (by simp)
      · exact he.symm.trans ho
    rcases Table.get_eq_or_mem Core.reset s.cores p with hreset | hmem
    · have hc : s.core p = Core.reset := hreset
      rw [hc] at hold
      exact absurd hold (by simp [Core.reset])
    · exact ⟨_, hmem, hold⟩

/-- A state after operations that end strands. -/
structure State.Settles (s t : State) : Prop where
  retired : t.retired = s.retired
  worn : t.worn = s.worn
  clusters : t.clusters = s.clusters
  core : ∀ p, (s.core p).Settles (t.core p)
  tabs : ∀ e ∈ t.cores, ∀ o, e.2.oldTabs = some o → ∃ e' ∈ s.cores, e'.2.oldTabs = some o
  parked : ∀ n, ParkedFrom (s.part n).parked (t.part n).parked

namespace State.Settles

variable {s t u : State}

theorem of_eq (hr : t.retired = s.retired) (hw : t.worn = s.worn) (hk : t.clusters = s.clusters) (hc : t.cores = s.cores)
    (hp : t.parts = s.parts) : s.Settles t where
  retired := hr
  worn := hw
  clusters := hk
  core p := by unfold State.core; rw [hc]; exact Core.Settles.refl _
  tabs e he o ho := ⟨e, hc ▸ he, ho⟩
  parked n := by unfold State.part; rw [hp]; exact ParkedFrom.refl _

theorem refl (s : State) : s.Settles s := of_eq rfl rfl rfl rfl rfl

theorem trans (h : s.Settles t) (k : t.Settles u) : s.Settles u where
  retired := k.retired.trans h.retired
  worn := k.worn.trans h.worn
  clusters := k.clusters.trans h.clusters
  core p := (h.core p).trans (k.core p)
  tabs e he o ho := by
    obtain ⟨e', he', ho'⟩ := k.tabs e he o ho
    exact h.tabs e' he' o ho'
  parked n := (h.parked n).trans (k.parked n)

theorem foldl {β : Type} {f : State → β → State} (l : List β) (s : State) (h : ∀ (u : State) b, u.Settles (f u b)) :
    s.Settles (l.foldl f s) :=
  List.foldlRecOn (motive := s.Settles) l f (refl s) fun _ hu b _ => hu.trans (h _ b)

/-- An update of a core. -/
theorem modCore (s : State) (p : Place) {f : Core → Core} (h : (s.core p).Settles (f (s.core p))) : s.Settles (s.modCore p f) where
  retired := rfl
  worn := rfl
  clusters := rfl
  core q := by
    rw [State.core_modCore]
    split
    · rename_i e; rw [e]; exact h
    · exact Core.Settles.refl _
  tabs := s.tabs_modCore p h.tabs
  parked n := ParkedFrom.refl _

/-- An update of a core's strand, or of anything else but its partition, its features, its tables and whether it runs. -/
theorem modCore_frame (s : State) (p : Place) {f : Core → Core}
    (h : ∀ c, (f c).part = c.part ∧ (f c).running = c.running ∧ (f c).feat = c.feat ∧ (f c).oldTabs = c.oldTabs) :
    s.Settles (s.modCore p f) := by
  obtain ⟨hp, hr, hf, ht⟩ := h (s.core p)
  exact modCore s p ⟨hp, fun r => hr ▸ r, fun m hm => hf ▸ hm, .inr ht⟩

theorem modStrand (s : State) (p : Place) (f : Strand → Strand) : s.Settles (s.modStrand p f) :=
  modCore_frame s p fun _ => ⟨rfl, rfl, rfl, rfl⟩

/-- An update of a partition that parks nobody. -/
theorem modPart (s : State) (n : Nat) {f : Part → Part} (h : ParkedFrom (s.part n).parked (f (s.part n)).parked) :
    s.Settles (s.modPart n f) where
  retired := rfl
  worn := rfl
  clusters := rfl
  core p := Core.Settles.refl _
  tabs e he o ho := ⟨e, he, ho⟩
  parked m := by
    rw [State.part_modPart]
    split
    · rename_i e; rw [e]; exact h
    · exact ParkedFrom.refl _

theorem modPart_frame (s : State) (n : Nat) {f : Part → Part} (h : ∀ t, (f t).parked = t.parked) : s.Settles (s.modPart n f) :=
  modPart s n (by rw [h]; exact ParkedFrom.refl _)

end State.Settles

/-! ## Packets and closes -/

theorem State.settles_meterMesh (s : State) (pn n : Nat) : s.Settles (s.meterMesh pn n) :=
  .modPart_frame s pn fun _ => rfl

theorem State.settles_meterHbm (s : State) (pn : Nat) (ks : List Nat) : s.Settles (s.meterHbm pn ks) := by
  simp only [State.meterHbm]
  split
  · exact .refl s
  · exact .modPart_frame s pn fun _ => rfl

theorem State.settles_noteInjection (s : State) (pn : Nat) (src : Place) (vn : Vn) : s.Settles (s.noteInjection pn src vn) := by
  unfold State.noteInjection
  split
  · exact .of_eq rfl rfl rfl rfl rfl
  · exact .refl s

theorem State.settles_takeSeqOf (s : State) (lane : Nat) : s.Settles (s.takeSeqOf lane) := .of_eq rfl rfl rfl rfl rfl

theorem State.settles_inject (s : State) (src dst : Place) (vn : Vn) (pn sid : Nat) (b : Body) :
    s.Settles (s.inject src dst vn pn sid b) :=
  (s.settles_takeSeqOf _).trans <| (State.settles_noteInjection _ pn src vn).trans <|
    (State.settles_meterMesh _ pn _).trans (.of_eq rfl rfl rfl rfl rfl)

theorem State.settles_departed (s : State) (a : Access) : s.Settles (s.departed a) := by
  unfold State.departed State.meterAccess
  split
  · exact (s.settles_noteInjection _ _ _).trans ((State.settles_takeSeqOf _ _).trans (State.settles_meterMesh _ _ _))
  · exact .refl s

theorem State.settles_returned (s : State) (a : Access) : s.Settles (s.returned a) := by
  unfold State.returned
  split
  · exact (s.settles_noteInjection _ _ _).trans (State.settles_takeSeqOf _ _)
  · exact .refl s

/-- A home takes a close at once: it drops the entries of the interval. -/
theorem State.applyAccess_close (s : State) {a : Access} {iv : Nat} (h : a.op = .close iv) :
    s.applyAccess a = .done { s with fab := { s.fab with lines := s.fab.lines.filter fun e =>
      !(e.home == a.home && e.party == a.party && decide (e.interval ≤ iv)) } } (.data []) := by
  simp only [State.applyAccess, State.applyBare, h]

theorem State.settles_sendClose (s : State) (p : Place) (h : Home) : s.Settles (s.sendClose p h) := by
  have hn : s.Settles s.nextNumber := .of_eq rfl rfl rfl rfl rfl
  have hclose : ((s.closeFor p h).party = .core (s.closeFor p h).src ∧ (!(s.closeFor p h).isClose) = true) ↔ False := by
    simp [State.closeFor, Access.isClose]
  simp only [State.sendClose, State.send, hclose, if_false,
    State.applyAccess_close _ (show (s.closeFor p h).op = .close (s.core p).interval from rfl)]
  split
  · rename_i hs
    split at hs
    · cases hs
      exact hn.trans (.of_eq rfl rfl rfl rfl rfl)
    · cases hs
  · rename_i hs
    split at hs
    · cases hs
    · cases hs
      refine .trans ?_ (State.settles_returned _ _)
      exact (hn.trans (State.settles_departed _ _)).trans (.of_eq rfl rfl rfl rfl rfl)
  · exact .refl s

theorem State.settles_closeInterval (s : State) (p : Place) : s.Settles (s.closeInterval p) :=
  (State.Settles.foldl _ s fun u h => u.settles_sendClose p h).trans
    (.modCore_frame _ p fun _ => ⟨rfl, rfl, rfl, rfl⟩)

/-! ## Answers -/

@[simp] theorem Strand.receive_act (t : Strand) (num : Nat) (a : Answer) : (t.receive num a).act = t.act := rfl

theorem State.settles_receive (s : State) (p : Place) (num : Nat) (a : Answer) : s.Settles (s.receive p num a) := by
  simp only [State.receive, State.modOwner]
  split
  · exact .modStrand s p _
  · split
    · exact .modPart s _ (.map fun k => by split <;> exact ⟨rfl, rfl⟩)
    · split
      · exact .modStrand s _ _
      · exact .refl s

theorem State.settles_answerHoldx (s : State) (t : Strand) (w : Nat) : s.Settles (s.answerHoldx t w) :=
  .foldl _ s fun u _ => u.settles_receive _ _ _

/-! ## Marks -/

theorem State.settles_modObjs (s : State) (p : Place) (f : Objs → Objs) : s.Settles (s.modObjs p f) :=
  .modCore_frame s p fun _ => ⟨rfl, rfl, rfl, rfl⟩

theorem State.settles_meshRecheck (s : State) (pn : Nat) : s.Settles (s.meshRecheck pn) := by
  refine .foldl _ s fun u e => ?_
  split
  · refine .foldl _ u fun v me => ?_
    dsimp only
    split
    · split
      · exact .refl v
      · exact (v.settles_modObjs _ _).trans (.foldl _ _ fun w q => w.settles_inject _ _ _ _ _ _)
    · exact .refl v
  · exact .refl u

theorem Part.parkedFrom_wake (t : Part) : ParkedFrom t.parked t.wake.parked :=
  .map fun k => by split <;> exact ⟨rfl, rfl⟩

theorem State.settles_clearMarks (s : State) (pn : Nat) (f : Mark → Bool) : s.Settles (s.clearMarks pn f) :=
  (State.Settles.modPart s pn (f := fun t => ({ t with marks := t.marks.filter fun m => !f m } : Part).wake)
    (Part.parkedFrom_wake { s.part pn with marks := (s.part pn).marks.filter fun m => !f m })).trans
      (State.settles_meshRecheck _ pn)

theorem State.settles_produce (s : State) (pn sid : Nat) (o : ObjRef) : s.Settles (s.produce pn sid o) := by
  unfold State.produce
  split
  · exact s.settles_clearMarks _ _
  · exact .refl s

theorem State.settles_poisonMarks (s : State) (pn sid : Nat) : s.Settles (s.poisonMarks pn sid) :=
  .modPart_frame s pn (f := fun t => { t with pois := (t.pois ++ _).eraseDups }) fun _ => rfl

/-! ## The end of a strand -/

@[simp] theorem Part.freeHold_parked (t : Part) (id : Nat) : (t.freeHold id).parked = t.parked := by
  unfold Part.freeHold; split <;> rfl

@[simp] theorem Part.releaseSlot_parked (t : Part) (id sid : Nat) (run : List Nat) : (t.releaseSlot id sid run).parked = t.parked := by
  simp only [Part.releaseSlot]
  split
  · rfl
  · split
    · split <;> rfl
    · split
      · exact t.freeHold_parked id
      · rfl

theorem Part.foldl_releaseSlot_parked (t : Part) (ids : List Nat) (sid : Nat) (run : List Nat) :
    (ids.foldl (fun w id => w.releaseSlot id sid run) t).parked = t.parked :=
  List.foldlRecOn (motive := fun w : Part => w.parked = t.parked) ids _ rfl fun w hw id _ =>
    (w.releaseSlot_parked id sid run).trans hw

theorem State.settles_abortReply (s : State) (p : Place) (t : Strand) : s.Settles (s.abortReply p t) := by
  unfold State.abortReply
  split
  · exact (s.settles_inject _ _ _ _ _ _).trans (State.settles_produce _ _ _ _)
  · exact .refl s

theorem State.settles_afterEnd (s : State) (p : Place) (t : Strand) (fault : Bool) : s.Settles (s.afterEnd p t fault) := by
  have hpubs : s.Settles ((s.abortReply p t).dropPubs t.act.sid) :=
    (s.settles_abortReply p t).trans (.of_eq rfl rfl rfl rfl rfl)
  simp only [State.afterEnd]
  refine .trans (.trans (hpubs.trans (State.settles_clearMarks _ _ _)) (.modPart_frame _ _ fun w => ?_))
    (.modCore_frame _ p fun _ => ⟨rfl, rfl, rfl, rfl⟩)
  exact Part.foldl_releaseSlot_parked _ _ _ _

/-- A core whose strand has ended. -/
theorem Core.settles_ended (c : Core) (g : Nat) :
    c.Settles (({ c with running := false, parkedFault := false, st := Strand.reset } : Core).adopt g) :=
  .trans (d := { c with running := false, parkedFault := false, st := Strand.reset })
    ⟨rfl, fun h => absurd h Bool.false_ne_true, fun _ h => h, .inr rfl⟩ (Core.settles_adopt _ g)

theorem State.settles_endStrand (s : State) (p : Place) (fault : Bool) : s.Settles (s.endStrand p fault) := by
  simp only [State.endStrand]
  exact .trans (.trans ((s.settles_closeInterval p).trans (State.settles_answerHoldx _ _ _))
    (.modCore _ p (Core.settles_ended _ _))) (State.settles_afterEnd _ p _ fault)

/-- The core whose strand has ended stands idle. -/
theorem State.endStrand_idle (s : State) (p : Place) (fault : Bool) : ((s.endStrand p fault).core p).running = false := by
  refine Bool.eq_false_iff.mpr fun h => ?_
  have h' := ((State.settles_afterEnd _ p (s.strand p) fault).core p).running h
  rw [State.core_modCore, if_pos rfl] at h'
  exact absurd h' (by simp [Core.adopt])

theorem State.settles_endParked (s : State) (pn : Nat) (k : Parked) (fault : Bool) : s.Settles (s.endParked pn k fault) := by
  simp only [State.endParked]
  exact .trans ((s.settles_poisonMarks pn _).trans (.modPart _ pn (.filter_sid _ _))) (State.settles_afterEnd _ _ _ fault)

/-- A parked strand that has ended is parked nowhere. -/
theorem State.endParked_gone (s : State) (pn : Nat) (k : Parked) (fault : Bool) :
    ∀ z ∈ ((s.endParked pn k fault).part pn).parked, z.st.act.sid ≠ k.st.act.sid := by
  intro z hz
  obtain ⟨y, hy, -, hs⟩ := ((State.settles_afterEnd _ _ _ fault).parked pn).old z hz
  rw [State.part_modPart, if_pos rfl] at hy
  rw [← hs]
  simpa using (List.mem_filter.mp hy).2

/-! ## The end of a launch -/

theorem State.settles_result (s : State) (r : Result) : s.Settles (s.result r) := .of_eq rfl rfl rfl rfl rfl

theorem State.settles_writeUnit (s : State) (pn : Nat) (proc : BitVec 16) (p : Place) (addr : Nat) (bs : List Byte) :
    s.Settles (s.writeUnit pn proc p addr bs) := by
  unfold State.writeUnit
  split
  · exact .refl s
  · split
    · exact .refl s
    · split
      · split
        · exact .of_eq rfl rfl rfl rfl rfl
        · exact .refl s
      · split
        · exact (s.settles_meterHbm pn _).trans (.of_eq rfl rfl rfl rfl rfl)
        · exact .refl s

theorem State.settles_writeGv (s : State) (pn : Nat) (proc : BitVec 16) (p : Place) (addr : Nat) (bs : List Byte) :
    s.Settles (s.writeGv pn proc p addr bs) := .foldl _ s fun u _ => u.settles_writeUnit _ _ _ _ _

theorem State.settles_postResult (s : State) (pn : Nat) (by_ : Poster) (st flags count lid : Nat) :
    s.Settles (s.postResult pn by_ st flags count lid) := by
  cases by_ with
  | host fn head tag => exact s.settles_result _
  | strand proc blk place ntag =>
    have hw := s.settles_writeGv pn proc place (blk + 96) (resultBytes st flags count lid)
    cases ntag with
    | none => exact hw
    | some e =>
      simp only [State.postResult]
      split
      · exact hw.trans (State.settles_inject _ _ _ _ _ _ _)
      · exact hw

theorem State.settles_endLaunch (s : State) (pn : Nat) : s.Settles (s.endLaunch pn) := by
  have hdrop : s.Settles (s.dropEntries pn) := .of_eq rfl rfl rfl rfl rfl
  simp only [State.endLaunch]
  refine .trans ?_ (State.settles_meshRecheck _ pn)
  refine .trans ?_ (.modPart _ pn (Part.parkedFrom_wake _))
  refine .trans ?_ (.foldl _ _ fun u p => .modCore_frame u p fun _ => ⟨rfl, rfl, rfl, rfl⟩)
  exact hdrop.trans (.modPart_frame _ pn fun _ => rfl)

theorem State.settles_completeLaunch (s : State) (pn : Nat) (l : Launch) (st : Status) : s.Settles (s.completeLaunch pn l st) :=
  (s.settles_postResult pn _ _ _ _ _).trans (State.settles_endLaunch _ pn)

theorem State.settles_abortPartition (s : State) (pn : Nat) : s.Settles (s.abortPartition pn) := by
  unfold State.abortPartition
  refine .trans (t := match (s.part pn).launch with
    | some l => s.completeLaunch pn { l with retired := true, aborted := true } .ok
    | none => s) ?_ (.modPart_frame _ pn fun _ => rfl)
  split
  · exact s.settles_completeLaunch pn _ _
  · exact .refl s

end Sys2Proof.Machine
end

section
/-! Self-tests, the retirement of features and clusters, and uncorrectable reads (22 R314, R315, 01 R12 to R14). -/

namespace Sys2Proof.Machine

/-- Of a run over a list in which each element establishes something that the others keep, all of it holds at the end; `I`
holds throughout. -/
theorem foldl_establishes {σ β : Type} {I : σ → Prop} {P : β → σ → Prop} {f : σ → β → σ} (hI : ∀ u b, I u → I (f u b))
    (hest : ∀ u b, I u → P b (f u b)) (hkeep : ∀ u b c, I u → P c u → P c (f u b)) {l : List β} {b : β} (hb : b ∈ l)
    {s : σ} (hs : I s) : P b (l.foldl f s) := by
  obtain ⟨before, after, rfl, -⟩ := List.eq_append_cons_of_mem hb
  rw [List.foldl_append, List.foldl_cons]
  have h1 : I (before.foldl f s) := List.foldlRecOn (motive := I) before f hs fun u hu b _ => hI u b hu
  exact (List.foldlRecOn (motive := fun u => I u ∧ P b u) after f ⟨hI _ b h1, hest _ b h1⟩
    fun u hu c _ => ⟨hI u c hu.1, hkeep u c b hu.1 hu.2⟩).2

/-! ## Self-tests -/

/-- A core with a feature that a self-test has retired: it loses it at once if it stands idle. -/
def Core.retireBit (c : Core) (bit : Fin 5) (g : Nat) : Core :=
  let c := { c with retiring := c.retiring ||| BitVec.ofNat 16 (2 ^ bit.val) }
  if c.running then c else c.adopt g

/-- A feature retired at one core. -/
def State.retireAt (s : State) (bit : Fin 5) (q : Place) : State :=
  (s.wear q bit).modCore q fun c => c.retireBit bit s.gov.g.val

theorem retireFeature_of_ne (s : State) (p : Place) {bit : Fin 5} (h : bit.val ≠ 4) :
    retireFeature s p bit = (s.noteRetired (s.partNo p) false).retireAt bit p := by
  simp only [retireFeature, if_neg h]
  rfl

theorem retireFeature_rlc (s : State) (p : Place) {bit : Fin 5} (h : bit.val = 4) :
    retireFeature s p bit = ((List.range 8).map fun k => p / 8 * 8 + k).foldl (fun s q => s.retireAt bit q)
      (s.noteRetired (s.partNo p) false) := by
  simp only [retireFeature, if_pos h]
  rfl

@[simp] theorem State.wear_cores (s : State) (p : Place) (bit : Fin 5) : (s.wear p bit).cores = s.cores := by
  unfold State.wear; split <;> rfl
@[simp] theorem State.wear_parts (s : State) (p : Place) (bit : Fin 5) : (s.wear p bit).parts = s.parts := by
  unfold State.wear; split <;> rfl
@[simp] theorem State.wear_logs (s : State) (p : Place) (bit : Fin 5) : (s.wear p bit).logs = s.logs := by
  unfold State.wear; split <;> rfl
@[simp] theorem State.wear_core (s : State) (p : Place) (bit : Fin 5) (q : Place) : (s.wear p bit).core q = s.core q := by
  unfold State.core; rw [s.wear_cores]

theorem State.get_worn_wear (s : State) {p : Place} (bit : Fin 5) {n : Nat} (h : s.pcnOf (p / 8) = some n) :
    Table.get 0 (s.wear p bit).worn (n * 8 + p % 8)
      = Table.get 0 s.worn (n * 8 + p % 8) ||| BitVec.ofNat 16 (2 ^ bit.val) := by
  simp only [State.wear, h, physCore]
  exact Table.get_set_self _ _ _ _

theorem State.core_retireAt (s : State) (bit : Fin 5) (q r : Place) :
    (s.retireAt bit q).core r = if r = q then (s.core q).retireBit bit s.gov.g.val else s.core r := by
  simp [State.retireAt]

theorem Core.retireBit_part (c : Core) (bit : Fin 5) (g : Nat) : (c.retireBit bit g).part = c.part := by
  unfold Core.retireBit; dsimp only; split <;> rfl

theorem Core.retireBit_testing (c : Core) (bit : Fin 5) (g : Nat) : (c.retireBit bit g).testing = c.testing := by
  unfold Core.retireBit; dsimp only; split <;> rfl

theorem Core.retireBit_running (c : Core) (bit : Fin 5) (g : Nat) : (c.retireBit bit g).running = c.running := by
  unfold Core.retireBit; dsimp only; split <;> rfl

theorem Core.retireBit_of_running {c : Core} (bit : Fin 5) (g : Nat) (h : c.running = true) :
    c.retireBit bit g = { c with retiring := c.retiring ||| BitVec.ofNat 16 (2 ^ bit.val) } := if_pos h

theorem Core.retireBit_of_idle {c : Core} (bit : Fin 5) (g : Nat) (h : c.running = false) :
    c.retireBit bit g = ({ c with retiring := c.retiring ||| BitVec.ofNat 16 (2 ^ bit.val) } : Core).adopt g :=
  if_neg (by simp [h])

theorem featureMask_ne_zero (bit : Fin 5) : BitVec.ofNat 16 (2 ^ bit.val) ≠ 0 := by
  revert bit; decide

/-- An idle core has neither the feature nor any other that was to be retired, and stands reduced. -/
theorem Core.retireBit_idle {c : Core} (bit : Fin 5) (g : Nat) (h : c.running = false) :
    (c.retireBit bit g).feat = c.feat &&& ~~~ (c.retiring ||| BitVec.ofNat 16 (2 ^ bit.val)) ∧ (c.retireBit bit g).state = 1 := by
  rw [Core.retireBit_of_idle bit g h]
  refine ⟨rfl, if_neg fun hz => ?_⟩
  exact featureMask_ne_zero bit (BitVec.or_eq_zero_iff.mp hz).2

/-- The launch of a partition after a retirement carries RETIRED. -/
theorem State.launch_noteRetired (s : State) (pn : Nat) (lost : Bool) {l : Launch} (h : (s.part pn).launch = some l) :
    ((s.noteRetired pn lost).part pn).launch.map (·.retired) = some true := by
  simp [State.noteRetired, h]

theorem execSelfTestStart_spec (s : State) (u : TestUnit) :
    ((∃ q ∈ testCores u, (s.core q).running = true) → exec (.selfTestStart u) s = .next s)
      ∧ ((∀ q ∈ testCores u, (s.core q).running = false) →
        (∀ p bit, u = .feature p bit → exec (.selfTestStart u) s = .next (s.modCore p fun c => { c with testing := true }))
          ∧ ∀ clu, u = .shared clu → exec (.selfTestStart u) s = .next (s.modClus clu fun k => { k with testing := true })) := by
  have hany : ((testCores u).any fun p => (s.core p).running) = true ↔ ∃ q ∈ testCores u, (s.core q).running = true := by simp
  constructor
  · exact fun h => if_pos (hany.mpr h)
  · intro h
    have hno : ¬ ((testCores u).any fun p => (s.core p).running) = true := by
      rw [hany]
      rintro ⟨q, hq, hr⟩
      rw [h q hq] at hr
      exact Bool.false_ne_true hr
    constructor
    · rintro p bit rfl
      exact if_neg hno
    · rintro clu rfl
      exact if_neg hno

/-- A core whose self-test is over. -/
def State.tested (s : State) (p : Place) : State := s.modCore p fun c => { c with testing := false }

theorem State.core_tested (s : State) (p q : Place) :
    (s.tested p).core q = if q = p then { s.core p with testing := false } else s.core q := State.core_modCore _ _ _ _

theorem State.core_tested_self (s : State) (p : Place) : (s.tested p).core p = { s.core p with testing := false } :=
  (s.core_tested p p).trans (if_pos rfl)

theorem State.running_tested (s : State) (p q : Place) : ((s.tested p).core q).running = (s.core q).running := by
  rw [s.core_tested]
  split
  · rename_i e; rw [e]
  · rfl

theorem State.partNo_tested (s : State) (p q : Place) : (s.tested p).partNo q = s.partNo q := by
  unfold State.partNo
  rw [s.core_tested]
  split
  · rename_i e; rw [e]
  · rfl

theorem execSelfTestEnd_feature_idle {s : State} {p : Place} (bit : Fin 5) (ok : Bool) (h : (s.core p).testing = false) :
    exec (.selfTestEnd (.feature p bit) ok) s = .next s := if_pos (by simp [h])

theorem execSelfTestEnd_feature {s : State} {p : Place} (bit : Fin 5) (ok : Bool) (h : (s.core p).testing = true) :
    exec (.selfTestEnd (.feature p bit) ok) s
      = .next (if ok then (s.tested p).log (.transient (.feature p bit))
          else retireFeature ((s.tested p).log (.lasting (.feature p bit))) p bit) := if_neg (by simp [h])

theorem execSelfTestEnd_shared_idle {s : State} {clu : Nat} (ok : Bool) (h : (s.clus clu).testing = false) :
    exec (.selfTestEnd (.shared clu) ok) s = .next s := if_pos (by simp [h])

theorem execSelfTestEnd_shared {s : State} {clu : Nat} (ok : Bool) (h : (s.clus clu).testing = true) :
    ∃ t, exec (.selfTestEnd (.shared clu) ok) s = .next t ∧ (t.clus clu).testing = false
      ∧ (t.clus clu).stopped = ((s.clus clu).stopped || !ok) ∧ ∀ q, t.core q = s.core q := by
  refine ⟨_, if_neg (by simp [h]), ?_⟩
  have hlog (u : State) (r : LogRec) (n : Nat) : (u.log r).clus n = u.clus n := rfl
  cases ok with
  | true => exact ⟨by simp [hlog], by simp [hlog], fun q => rfl⟩
  | false => exact ⟨by simp [hlog], by simp [hlog], fun q => rfl⟩

/-- A feature other than the RLC that fails for good. -/
theorem execSelfTestEnd_fails {s : State} {p : Place} {bit : Fin 5} (h : (s.core p).testing = true) (hb : bit.val ≠ 4) :
    let c := s.core p
    let mask : BitVec 16 := BitVec.ofNat 16 (2 ^ bit.val)
    ∃ t, exec (.selfTestEnd (.feature p bit) false) s = .next t ∧ .lasting (.feature p bit) ∈ t.logs
      ∧ (t.core p).testing = false
      ∧ (∀ l, (s.partOf p).launch = some l → (t.partOf p).launch.map (·.retired) = some true)
      ∧ (c.running = false → (t.core p).feat = c.feat &&& ~~~ (c.retiring ||| mask) ∧ (t.core p).state = 1)
      ∧ (c.running = true → (t.core p).feat = c.feat ∧ (t.core p).retiring = c.retiring ||| mask)
      ∧ (∀ n, s.pcnOf (p / 8) = some n → Table.get 0 t.worn (n * 8 + p % 8) = Table.get 0 s.worn (n * 8 + p % 8) ||| mask)
      ∧ ∀ q, q ≠ p → t.core q = s.core q := by
  refine ⟨_, execSelfTestEnd_feature bit false h, ?_⟩
  rw [if_neg Bool.false_ne_true, retireFeature_of_ne _ _ hb]
  have hpn : ((s.tested p).log (.lasting (.feature p bit))).partNo p = s.partNo p := s.partNo_tested p p
  rw [hpn]
  generalize hv : ((s.tested p).log (.lasting (.feature p bit))).noteRetired (s.partNo p) false = v
  have hcore (q : Place) : v.core q = (s.tested p).core q := by rw [← hv]; rfl
  have hat : (v.retireAt bit p).core p = ({ s.core p with testing := false } : Core).retireBit bit v.gov.g.val := by
    rw [v.core_retireAt, if_pos rfl, hcore, s.core_tested_self]
  refine ⟨?_, ?_, fun l hl => ?_, fun hr => ?_, fun hr => ?_, fun n hn => ?_, fun q hq => ?_⟩
  · show _ ∈ (v.wear p bit).logs
    rw [v.wear_logs, ← hv]
    exact List.mem_append_right _ (List.mem_singleton.mpr rfl)
  · rw [hat, Core.retireBit_testing]
  · have hno : (v.retireAt bit p).partNo p = s.partNo p := by
      unfold State.partNo
      rw [hat, Core.retireBit_part]
    have hpart (n : Nat) : (v.retireAt bit p).part n = v.part n := by
      show (v.wear p bit).part n = _
      unfold State.part
      rw [v.wear_parts]
    unfold State.partOf
    rw [hno, hpart, ← hv]
    exact State.launch_noteRetired _ _ false hl
  · rw [hat]
    exact Core.retireBit_idle (c := { s.core p with testing := false }) bit _ hr
  · rw [hat, Core.retireBit_of_running (c := { s.core p with testing := false }) bit _ hr]
    exact ⟨rfl, rfl⟩
  · have hw : v.worn = s.worn := by rw [← hv]; rfl
    rw [← hw]
    exact v.get_worn_wear bit (by rw [← hv]; exact hn)
  · rw [v.core_retireAt, if_neg hq, hcore, s.core_tested, if_neg hq]

/-- The RLC of a core that fails for good: the feature goes from every core of the cluster. -/
theorem execSelfTestEnd_rlc_fails {s : State} {p : Place} {bit : Fin 5} (h : (s.core p).testing = true) (hb : bit.val = 4) :
    ∃ t, exec (.selfTestEnd (.feature p bit) false) s = .next t ∧ ∀ k < 8,
      let q := p / 8 * 8 + k
      ((s.core q).running = false → (t.core q).feat.getLsbD 4 = false)
        ∧ ((s.core q).running = true → (t.core q).retiring.getLsbD 4 = true) := by
  refine ⟨_, execSelfTestEnd_feature bit false h, ?_⟩
  rw [if_neg Bool.false_ne_true, retireFeature_rlc _ _ hb]
  have hmask : (BitVec.ofNat 16 (2 ^ bit.val)).getLsbD 4 = true := by rw [hb]; decide
  have hrunning (u : State) (q r : Place) : ((u.retireAt bit q).core r).running = (u.core r).running := by
    rw [u.core_retireAt]
    split
    · rename_i e; rw [Core.retireBit_running, e]
    · rfl
  have hlost (u : State) (q : Place) (hu : (u.core q).running = (s.core q).running) :
      ((s.core q).running = false → ((u.retireAt bit q).core q).feat.getLsbD 4 = false)
        ∧ ((s.core q).running = true → ((u.retireAt bit q).core q).retiring.getLsbD 4 = true) := by
    rw [u.core_retireAt, if_pos rfl]
    constructor
    · intro hr
      rw [(Core.retireBit_idle bit _ (hu.trans hr)).1, BitVec.getLsbD_and, BitVec.getLsbD_not, BitVec.getLsbD_or, hmask]
      simp
    · intro hr
      rw [Core.retireBit_of_running bit _ (hu.trans hr)]
      dsimp only
      rw [BitVec.getLsbD_or, hmask, Bool.or_true]
  intro k hk
  refine foldl_establishes (I := fun u : State => ∀ q, (u.core q).running = (s.core q).running)
    (P := fun q (u : State) => ((s.core q).running = false → (u.core q).feat.getLsbD 4 = false)
      ∧ ((s.core q).running = true → (u.core q).retiring.getLsbD 4 = true))
    (fun u q hu r => (hrunning u q r).trans (hu r)) (fun u q hu => hlost u q (hu q)) (fun u q r hu hP => ?_)
    (List.mem_map_of_mem (List.mem_range.mpr hk)) (fun q => s.running_tested p q)
  by_cases e : r = q
  · exact e ▸ hlost u r (hu r)
  · rw [u.core_retireAt, if_neg e]
    exact hP

end Sys2Proof.Machine
end

section
/-! The retirement of a cluster in its parts (22 R315, 01 R12, R13): its strands end, the place tables are rewritten, and the
clusters that move take their new seats. -/

namespace Sys2Proof.Machine

/-! ## Physical clusters -/

theorem State.pcnOf_congr {s t : State} (h : t.retired = s.retired) (clu : Nat) : t.pcnOf clu = s.pcnOf clu := by
  unfold State.pcnOf State.standing
  rw [h]

theorem mem_coresIn {cs : List Nat} {p : Place} : p ∈ coresIn cs ↔ ∃ c ∈ cs, ∃ k < 8, p = c * 8 + k := by
  simp [coresIn, eq_comm]

theorem State.atBoundaries_iff (s : State) (cs : List Nat) :
    s.atBoundaries cs = true ↔ ∀ n ∈ cs, ∀ k < 8, (s.core (n * 8 + k)).running = true →
      (s.core (n * 8 + k)).parkedFault = true ∨ (s.core (n * 8 + k)).spawnStalled = true := by
  have hone (c : Core) : (!c.running || c.onFault) = true ↔ (c.running = true → c.parkedFault = true ∨ c.spawnStalled = true) := by
    cases hr : c.running <;> simp [Core.onFault, hr]
  simp only [State.atBoundaries, List.all_eq_true, hone]
  constructor
  · exact fun h n hn k hk => h _ (mem_coresIn.mpr ⟨n, hn, k, hk, rfl⟩)
  · intro h p hp
    obtain ⟨n, hn, k, hk, rfl⟩ := mem_coresIn.mp hp
    exact h n hn k hk

/-! ## The strands of the cluster end -/

/-- The strand that runs on a core ends, if one does. -/
def State.loseRunning (s : State) (p : Place) : State :=
  if (s.core p).running then (s.poisonMarks (s.partNo p) (s.strand p).act.sid).endStrand p true else s

theorem State.loseStrands_fst (s : State) (p : Place) :
    (s.loseStrands p).1 = ((s.part (s.partNo p)).parked.filter (·.place == p)).foldl
      (fun u k => u.endParked (s.partNo p) k true) (s.loseRunning p) := by
  simp only [State.loseStrands]
  refine (List.foldl_hom (g₂ := fun u k => u.endParked (s.partNo p) k true) Prod.fst fun x k => rfl).symm.trans ?_
  unfold State.loseRunning
  split <;> rfl

theorem State.settles_loseRunning (s : State) (p : Place) : s.Settles (s.loseRunning p) := by
  unfold State.loseRunning
  split
  · exact (s.settles_poisonMarks _ _).trans (State.settles_endStrand _ p true)
  · exact .refl s

theorem State.loseRunning_idle (s : State) (p : Place) : ((s.loseRunning p).core p).running = false := by
  unfold State.loseRunning
  split
  · exact State.endStrand_idle _ p true
  · simp_all

theorem State.settles_loseStrands (s : State) (p : Place) : s.Settles (s.loseStrands p).1 := by
  rw [s.loseStrands_fst]
  exact (s.settles_loseRunning p).trans (.foldl _ _ fun u k => u.settles_endParked _ k true)

theorem State.loseStrands_idle (s : State) (p : Place) : ((s.loseStrands p).1.core p).running = false := by
  refine Bool.eq_false_iff.mpr fun h => ?_
  rw [s.loseStrands_fst] at h
  have hr := ((State.Settles.foldl _ (s.loseRunning p) fun u k => u.settles_endParked (s.partNo p) k true).core p).running h
  rw [s.loseRunning_idle p] at hr
  exact Bool.false_ne_true hr

/-- No strand that was parked at the core is parked anywhere. -/
theorem State.loseStrands_gone (s : State) {p : Place} {y : Parked} (hy : y ∈ (s.part (s.partNo p)).parked) (hp : y.place = p) :
    ∀ z ∈ ((s.loseStrands p).1.part (s.partNo p)).parked, z.st.act.sid ≠ y.st.act.sid := by
  rw [s.loseStrands_fst]
  have hmem : y ∈ (s.part (s.partNo p)).parked.filter (·.place == p) := List.mem_filter.mpr ⟨hy, beq_iff_eq.mpr hp⟩
  refine foldl_establishes (I := fun _ => True)
    (P := fun k (u : State) => ∀ z ∈ (u.part (s.partNo p)).parked, z.st.act.sid ≠ k.st.act.sid)
    (fun _ _ _ => trivial) (fun u k _ => u.endParked_gone _ k true) (fun u k j _ hj z hz => ?_)
    hmem trivial
  obtain ⟨x, hx, -, hs⟩ := ((u.settles_endParked (s.partNo p) k true).parked _).old z hz
  exact hs ▸ hj x hx

/-- The state once the strands of a cluster's cores have ended. -/
def State.loseAll (s : State) (clu : Nat) : State := (coresIn [clu]).foldl (fun u p => (u.loseStrands p).1) s

theorem State.settles_loseAll (s : State) (clu : Nat) : s.Settles (s.loseAll clu) :=
  .foldl _ s fun u p => u.settles_loseStrands p

theorem State.Settles.partNo {s t : State} (h : s.Settles t) (p : Place) : t.partNo p = s.partNo p := by
  unfold State.partNo
  rw [(h.core p).part]

theorem State.loseAll_idle (s : State) {clu k : Nat} (hk : k < 8) : ((s.loseAll clu).core (clu * 8 + k)).running = false :=
  foldl_establishes (I := fun _ => True) (P := fun p (u : State) => (u.core p).running = false)
    (fun _ _ _ => trivial) (fun u p _ => u.loseStrands_idle p)
    (fun u p q _ hq => Bool.eq_false_iff.mpr fun h => by
      have hr := ((u.settles_loseStrands p).core q).running h
      exact Bool.false_ne_true (hq.symm.trans hr))
    (mem_coresIn.mpr ⟨clu, List.mem_singleton.mpr rfl, k, hk, rfl⟩) trivial

/-- No strand that was parked at a core of the cluster is parked anywhere. -/
theorem State.loseAll_gone (s : State) {clu k : Nat} (hk : k < 8) :
    ∀ y ∈ (s.part (s.partNo (clu * 8 + k))).parked, y.place = clu * 8 + k →
      ∀ z ∈ ((s.loseAll clu).part (s.partNo (clu * 8 + k))).parked, z.st.act.sid ≠ y.st.act.sid := by
  refine foldl_establishes (I := s.Settles)
    (P := fun p (u : State) => ∀ y ∈ (s.part (s.partNo p)).parked, y.place = p →
      ∀ z ∈ (u.part (s.partNo p)).parked, z.st.act.sid ≠ y.st.act.sid)
    (fun u p hu => hu.trans (u.settles_loseStrands p)) (fun u p hu y hy hp => ?_) (fun u p q _ hq y hy hyq z hz => ?_)
    (mem_coresIn.mpr ⟨clu, List.mem_singleton.mpr rfl, k, hk, rfl⟩) (.refl s)
  · -- the strand is parked there still, and ends now, or it has gone before
    have hno := hu.partNo p
    rcases (hu.parked (s.partNo p)).gone y hy with ⟨x, hx, hxp, hxs⟩ | hgone
    · rw [← hxs, ← hno]
      exact u.loseStrands_gone (by rw [hno]; exact hx) (hxp.trans hp)
    · intro z hz
      obtain ⟨x, hx, -, hs⟩ := ((u.settles_loseStrands p).parked _).old z hz
      exact hs ▸ hgone x hx
  · obtain ⟨x, hx, -, hs⟩ := ((u.settles_loseStrands p).parked _).old z hz
    exact hs ▸ hq y hy hyq x hx

/-- The strands of one more core end; the second part says that one of all of them held marks. -/
def State.loseNext (x : State × Bool) (p : Place) : State × Bool := let y := x.1.loseStrands p; (y.1, x.2 || y.2)

/-- The state once a cluster is empty: its strands have ended, and what the self-test found unreadable is lost. -/
def State.emptied (s : State) (clu pn : Nat) : State :=
  let r := (coresIn [clu]).foldl State.loseNext (s, false)
  (if Config.unreadable clu then r.1.loseCluster clu else r.1).noteRetired pn r.2

/-- What waits at a core is lost. -/
def State.loseWork (s : State) (p : Place) : State := s.modCore p fun c => { c with
  objs := Objs.reset
  work := { c.work with inbox := [], cplq := [], deque := [] }, nE := [], nW := [], pendFaults := [] }

theorem State.settles_loseCluster (s : State) (clu : Nat) : s.Settles (s.loseCluster clu) := by
  have hwork : s.Settles ((coresIn [clu]).foldl State.loseWork s) :=
    .foldl _ s fun u p => .modCore_frame u p fun _ => ⟨rfl, rfl, rfl, rfl⟩
  exact hwork.trans (.of_eq rfl rfl rfl rfl rfl)

theorem State.loseAll_settles_emptied (s : State) (clu pn : Nat) : (s.loseAll clu).Settles (s.emptied clu pn) := by
  have hfst : ((coresIn [clu]).foldl State.loseNext (s, false)).1 = s.loseAll clu := by
    rw [State.loseAll, List.foldl_hom (g₁ := State.loseNext) (init := (s, false)) Prod.fst fun x k => rfl]
  simp only [State.emptied]
  rw [hfst]
  refine .trans ?_ (.modPart_frame _ pn fun _ => rfl)
  split
  · exact State.settles_loseCluster _ clu
  · exact .refl _

/-! ## The place tables are rewritten -/

/-- A place-table entry that names a physical cluster names the one that holds its logical cluster (22 R310). -/
def State.EntryTrue (s : State) (x : Nat × BitVec 16) : Prop :=
  x.2.getLsbD 15 = true → ∃ m, s.pcnOf x.1 = some m ∧ x.2 = BitVec.ofNat 16 (0x8000 + m)

theorem State.entryOf_true (s : State) (clu : Nat) : s.EntryTrue (clu, s.entryOf clu) := by
  intro h
  simp only [State.entryOf] at h ⊢
  cases hp : s.pcnOf clu with
  | some m => exact ⟨m, rfl, rfl⟩
  | none => rw [hp] at h; exact absurd h (by decide)

/-- A rewritten table is true. -/
theorem State.presentPlaces_true (s : State) (t : Table (BitVec 16)) : ∀ x ∈ s.presentPlaces t, s.EntryTrue x := by
  refine List.foldlRecOn (motive := fun t : Table (BitVec 16) => ∀ x ∈ t, s.EntryTrue x) s.absent _ ?_ ?_
  · intro x hx
    obtain ⟨y, -, rfl⟩ := List.mem_map.mp hx
    split
    · exact s.entryOf_true y.1
    · rename_i hn
      exact fun h => absurd h hn
  · intro t ht c _ x hx
    split at hx
    · exact ht x hx
    · rcases Table.mem_set hx with hx | rfl
      · exact ht x hx
      · have habsent : ¬ (0x4000#16).getLsbD 15 = true := by decide
        exact fun h => absurd h habsent

theorem Table.get_map {α : Type} {d : α} (g : α → α) (hd : g d = d) (t : Table α) (k : Nat) :
    Table.get d (t.map fun e => (e.1, g e.2)) k = g (Table.get d t k) := by
  induction t with
  | nil => exact hd.symm
  | cons e t ih =>
    simp only [List.map_cons, Table.get]
    split
    · rfl
    · exact ih

/-- A rewrite of the place tables changes none but a core's own. -/
theorem State.core_rewritePlaces (s : State) (p : Place) :
    s.rewritePlaces.core p
      = { s.core p with oldTabs := (s.core p).oldTabs.map fun t => (s.presentPlaces t.1, t.2) } :=
  Table.get_map (fun c : Core => { c with oldTabs := c.oldTabs.map fun t => (s.presentPlaces t.1, t.2) }) rfl s.cores p

/-! ## The clusters that move are seated -/

/-- A core on the physical core of its new seat. -/
theorem State.seatCore_eq (s : State) (p : Place) :
    ∃ f : Core → Core, s.seatCore p = s.modCore p f
      ∧ ∀ c, (f c).running = c.running ∧ ((f c).oldTabs = none ∨ (f c).oldTabs = c.oldTabs)
        ∧ ∀ m, s.pcnOf (p / 8) = some m → (f c).feat &&& s.lacks (physCore m (p % 8)) = 0 := by
  have hnone (a b : BitVec 16) : a &&& ~~~ b &&& b = 0 := by
    rw [BitVec.and_assoc, BitVec.and_comm (~~~ b) b, BitVec.and_not_self]
    exact BitVec.and_zero
  unfold State.seatCore
  cases hp : s.pcnOf (p / 8) with
  | none =>
    refine ⟨_, rfl, fun c => ⟨rfl, .inr rfl, fun m hm => ?_⟩⟩
    exact absurd hm (by simp)
  | some n =>
    refine ⟨_, rfl, fun c => ?_⟩
    dsimp only
    split
    · refine ⟨rfl, .inr rfl, fun m hm => ?_⟩
      cases hm
      exact hnone _ _
    · refine ⟨rfl, .inl rfl, fun m hm => ?_⟩
      cases hm
      exact (Core.settles_adopt _ _).feat _ (hnone _ _)

/-- A state after clusters have moved: the same strands run, and no core has place tables of its own that it had not. -/
structure State.Moved (s t : State) : Prop where
  retired : t.retired = s.retired
  worn : t.worn = s.worn
  clusters : t.clusters = s.clusters
  parts : t.parts = s.parts
  running : ∀ p, (t.core p).running = (s.core p).running
  tabs : ∀ e ∈ t.cores, ∀ o, e.2.oldTabs = some o → ∃ e' ∈ s.cores, e'.2.oldTabs = some o

theorem State.Moved.seatCore {s t : State} (h : s.Moved t) (p : Place) : s.Moved (t.seatCore p) := by
  obtain ⟨f, hf, hspec⟩ := t.seatCore_eq p
  rw [hf]
  refine ⟨h.retired, h.worn, h.clusters, h.parts, fun q => ?_, fun e he o ho => ?_⟩
  · rw [State.core_modCore, ← h.running]
    split
    · rename_i e; rw [e]; exact (hspec _).1
    · rfl
  · obtain ⟨e', he', ho'⟩ := t.tabs_modCore p (hspec _).2.1 e he o ho
    exact h.tabs e' he' o ho'

/-- A core has no feature that the physical core of its seat lacks (01 R14). -/
def State.Seated (s : State) (p : Place) : Prop :=
  ∀ m, s.pcnOf (p / 8) = some m → (s.core p).feat &&& s.lacks (physCore m (p % 8)) = 0

theorem State.lacks_congr {s t : State} (h : t.worn = s.worn) (n : Nat) : t.lacks n = s.lacks n := by
  unfold State.lacks
  rw [h]

theorem State.Seated.congr {s t : State} {p : Place} (h : s.Seated p) (hr : t.retired = s.retired) (hw : t.worn = s.worn)
    (hf : ∀ m, (s.core p).feat &&& m = 0 → (t.core p).feat &&& m = 0) : t.Seated p := by
  intro m hm
  rw [State.pcnOf_congr hr] at hm
  rw [State.lacks_congr hw]
  exact hf _ (h m hm)

theorem State.seated_seatCore (s : State) (p : Place) : (s.seatCore p).Seated p := by
  obtain ⟨f, hf, hspec⟩ := s.seatCore_eq p
  rw [hf]
  intro m hm
  rw [State.core_modCore, if_pos rfl]
  exact (hspec _).2.2 m hm

theorem State.Seated.seatCore {s : State} {q : Place} (h : s.Seated q) (p : Place) : (s.seatCore p).Seated q := by
  by_cases hpq : q = p
  · subst hpq; exact s.seated_seatCore q
  · obtain ⟨f, hf, -⟩ := s.seatCore_eq p
    rw [hf]
    refine h.congr rfl rfl fun m hm => ?_
    rwa [State.core_modCore, if_neg hpq]

/-- The state in which the physical cluster of a logical one has left the mesh. -/
def State.without (s : State) (clu : Nat) : State := { s with retired := s.retired ++ [(s.pcnOf clu).getD 0] }

/-- The state in which the place tables have been rewritten besides. -/
def State.rewritten (s : State) (clu : Nat) : State := (s.without clu).rewritePlaces

/-- The state in which the clusters south of it have moved besides. -/
def State.reseated (s : State) (clu : Nat) : State :=
  ((coresIn (southOf clu)).foldl State.seatCore (s.rewritten clu)).modClus clu fun k => { k with stopped := false }

section
variable (s : State) (clu : Nat)

theorem State.moved_seats :
    (s.rewritten clu).Moved ((coresIn (southOf clu)).foldl State.seatCore (s.rewritten clu)) :=
  List.foldlRecOn (motive := (s.rewritten clu).Moved) _ State.seatCore
    ⟨rfl, rfl, rfl, rfl, fun _ => rfl, fun e he _ ho => ⟨e, he, ho⟩⟩ fun _ hu p _ => hu.seatCore p

theorem State.reseated_retired : (s.reseated clu).retired = s.retired ++ [(s.pcnOf clu).getD 0] := (s.moved_seats clu).retired

theorem State.reseated_worn : (s.reseated clu).worn = s.worn := (s.moved_seats clu).worn

theorem State.reseated_parts : (s.reseated clu).parts = s.parts := (s.moved_seats clu).parts

theorem State.reseated_stopped : ((s.reseated clu).clus clu).stopped = false := by
  rw [State.reseated, State.clus_modClus, if_pos rfl]

theorem State.reseated_running (p : Place) : ((s.reseated clu).core p).running = (s.core p).running := by
  refine ((s.moved_seats clu).running p).trans ?_
  rw [State.rewritten, State.core_rewritePlaces]
  rfl

theorem State.reseated_pcnOf (n : Nat) : (s.reseated clu).pcnOf n = (s.without clu).pcnOf n :=
  State.pcnOf_congr (s.reseated_retired clu) n

theorem State.reseated_entryTrue {x : Nat × BitVec 16} (h : (s.without clu).EntryTrue x) : (s.reseated clu).EntryTrue x := by
  intro hx
  rw [s.reseated_pcnOf]
  exact h hx

/-- The place table of every cluster says where the clusters are. -/
theorem State.reseated_places : ∀ e ∈ (s.reseated clu).clusters, ∀ x ∈ e.2.place, (s.reseated clu).EntryTrue x := by
  have hold : ∀ e ∈ (s.rewritten clu).clusters, ∀ x ∈ e.2.place, (s.reseated clu).EntryTrue x := by
    intro e he x hx
    obtain ⟨e', -, rfl⟩ := List.mem_map.mp he
    exact s.reseated_entryTrue clu (State.presentPlaces_true _ _ x hx)
  have hseats := (s.moved_seats clu).clusters
  intro e he x hx
  rcases Table.mem_set he with he | rfl
  · exact hold e (hseats ▸ he) x hx
  · rcases Table.get_eq_or_mem Cluster.reset (s.rewritten clu).clusters clu with hreset | hmem
    · have hplace : x ∈ Cluster.reset.place := by
        rw [← hreset, ← hseats]
        exact hx
      exact absurd hplace (by simp [Cluster.reset])
    · refine hold _ hmem x ?_
      rw [← hseats]
      exact hx

/-- So do the tables that a core goes by until it takes up its cluster's. -/
theorem State.reseated_tabs :
    ∀ e ∈ (s.reseated clu).cores, ∀ o, e.2.oldTabs = some o → ∀ x ∈ o.1, (s.reseated clu).EntryTrue x := by
  intro e he o ho x hx
  obtain ⟨e', he', ho'⟩ := (s.moved_seats clu).tabs e he o ho
  obtain ⟨e'', -, rfl⟩ := List.mem_map.mp he'
  obtain ⟨o', -, rfl⟩ := Option.map_eq_some_iff.mp ho'
  exact s.reseated_entryTrue clu (State.presentPlaces_true _ _ x hx)

/-- The cores of the clusters that have moved have the features of their new seats. -/
theorem State.reseated_seated {p : Place} (hp : p ∈ coresIn (southOf clu)) : (s.reseated clu).Seated p := by
  have h := foldl_establishes (I := fun _ => True) (P := fun q (u : State) => u.Seated q) (fun _ _ _ => trivial)
    (fun u q _ => u.seated_seatCore q) (fun u q r _ hr => hr.seatCore q) hp (s := s.rewritten clu) trivial
  exact h.congr rfl rfl fun m hm => hm

end

/-! ## The retirement -/

/-- Where no physical cluster is left for the last row of a die's column, the partition that has the row is aborted. -/
def State.abortUnseated (s : State) (clu : Nat) : State :=
  let last := (clu / 512 * 8 + 7) * 64 + clu % 64
  if (s.pcnOf last).isSome then s
  else
    match s.parts.find? fun e => e.2.attrs.ncols != 0 && e.2.holds? last with
    | some (q, _) => s.abortPartition q
    | none => s

/-- A retirement empties the cluster and seats those that move; where no spare is left, a launch ends besides. -/
theorem State.retireCluster_eq (s : State) (clu pn : Nat) :
    s.retireCluster clu pn = ((s.emptied clu pn).reseated clu).abortUnseated clu := rfl

theorem State.settles_retireCluster (s : State) (clu pn : Nat) :
    ((s.emptied clu pn).reseated clu).Settles (s.retireCluster clu pn) := by
  rw [s.retireCluster_eq]
  simp only [State.abortUnseated]
  split
  · exact .refl _
  · split
    · exact State.settles_abortPartition _ _
    · exact .refl _

theorem execClusterRetirement_of_not {s : State} {clu : Nat}
    (h : ¬ ((s.clus clu).stopped = true ∧ s.atBoundaries (southOf clu) = true)) :
    exec (.clusterRetirement clu) s = .next s := if_neg (by simpa using h)

theorem execClusterRetirement_of_ready {s : State} {clu : Nat}
    (h : (s.clus clu).stopped = true ∧ s.atBoundaries (southOf clu) = true) :
    exec (.clusterRetirement clu) s = .next (s.retireCluster clu (s.partNo (clu * 8))) := if_pos (by simpa using h)

theorem State.settles_emptied (s : State) (clu pn : Nat) : s.Settles (s.emptied clu pn) :=
  (s.settles_loseAll clu).trans (s.loseAll_settles_emptied clu pn)

section
variable (s : State) (clu pn : Nat)

theorem State.retireCluster_retired : (s.retireCluster clu pn).retired = s.retired ++ [(s.pcnOf clu).getD 0] := by
  have he := (s.settles_emptied clu pn).retired
  rw [(s.settles_retireCluster clu pn).retired, State.reseated_retired, he, State.pcnOf_congr he]

theorem State.retireCluster_stopped : ((s.retireCluster clu pn).clus clu).stopped = false := by
  unfold State.clus
  rw [(s.settles_retireCluster clu pn).clusters]
  exact State.reseated_stopped _ clu

theorem State.retireCluster_idle {k : Nat} (hk : k < 8) : ((s.retireCluster clu pn).core (clu * 8 + k)).running = false := by
  refine Bool.eq_false_iff.mpr fun h => ?_
  have hr := ((s.settles_retireCluster clu pn).core _).running h
  rw [State.reseated_running] at hr
  have hl := ((s.loseAll_settles_emptied clu pn).core _).running hr
  rw [s.loseAll_idle hk] at hl
  exact Bool.false_ne_true hl

theorem State.retireCluster_pcnOf (n : Nat) : (s.retireCluster clu pn).pcnOf n = ((s.emptied clu pn).reseated clu).pcnOf n :=
  State.pcnOf_congr (s.settles_retireCluster clu pn).retired n

theorem State.retireCluster_entryTrue {x : Nat × BitVec 16} (h : ((s.emptied clu pn).reseated clu).EntryTrue x) :
    (s.retireCluster clu pn).EntryTrue x := by
  intro hx
  rw [s.retireCluster_pcnOf]
  exact h hx

theorem State.retireCluster_places :
    ∀ e ∈ (s.retireCluster clu pn).clusters, ∀ x ∈ e.2.place, (s.retireCluster clu pn).EntryTrue x := by
  rw [(s.settles_retireCluster clu pn).clusters]
  exact fun e he x hx => s.retireCluster_entryTrue clu pn (State.reseated_places _ clu e he x hx)

theorem State.retireCluster_tabs :
    ∀ e ∈ (s.retireCluster clu pn).cores, ∀ o, e.2.oldTabs = some o → ∀ x ∈ o.1, (s.retireCluster clu pn).EntryTrue x := by
  intro e he o ho x hx
  obtain ⟨e', he', ho'⟩ := (s.settles_retireCluster clu pn).tabs e he o ho
  exact s.retireCluster_entryTrue clu pn (State.reseated_tabs _ clu e' he' o ho' x hx)

theorem State.retireCluster_seated {p : Place} (hp : p ∈ coresIn (southOf clu)) : (s.retireCluster clu pn).Seated p :=
  (State.reseated_seated _ clu hp).congr (s.settles_retireCluster clu pn).retired (s.settles_retireCluster clu pn).worn
    ((s.settles_retireCluster clu pn).core p).feat

/-- The physical core of a core of a cluster, by number. -/
theorem State.lacks_core (m k : Nat) (hk : k < 8) :
    s.lacks (physCore m k) = (Config.lacks (m * 8 + k) &&& ~~~ 0x10#16) ||| (Config.lacks (m * 8) &&& 0x10#16)
      ||| Table.get 0 s.worn (m * 8 + k) := by
  simp only [State.lacks, physCore, show (m * 8 + k) / 8 = m by omega, Nat.add_zero]

theorem State.retireCluster_worn : (s.retireCluster clu pn).worn = s.worn := by
  rw [(s.settles_retireCluster clu pn).worn, State.reseated_worn, (s.settles_emptied clu pn).worn]

theorem State.retireCluster_feat {n k m : Nat} (hn : n ∈ southOf clu) (hk : k < 8)
    (hm : (s.retireCluster clu pn).pcnOf n = some m) :
    ((s.retireCluster clu pn).core (n * 8 + k)).feat
      &&& ((Config.lacks (m * 8 + k) &&& ~~~ 0x10#16) ||| (Config.lacks (m * 8) &&& 0x10#16)
        ||| Table.get 0 s.worn (m * 8 + k)) = 0 := by
  have h := s.retireCluster_seated clu pn (mem_coresIn.mpr ⟨n, hn, k, hk, rfl⟩) m
  rw [show (n * 8 + k) / 8 = n by omega, show (n * 8 + k) % 8 = k by omega, State.lacks_core _ m k hk,
    s.retireCluster_worn] at h
  exact h hm

/-- A strand that was parked at a core of the cluster is parked nowhere. -/
theorem State.retireCluster_gone {k : Nat} (hk : k < 8) :
    ∀ y ∈ (s.part (s.partNo (clu * 8 + k))).parked, y.place = clu * 8 + k →
      ∀ z ∈ ((s.retireCluster clu pn).part (s.partNo (clu * 8 + k))).parked, z.st.act.sid ≠ y.st.act.sid := by
  intro y hy hp z hz
  obtain ⟨x, hx, -, hxs⟩ := ((s.settles_retireCluster clu pn).parked _).old z hz
  rw [State.part, State.reseated_parts, ← State.part] at hx
  obtain ⟨w, hw, -, hws⟩ := ((s.loseAll_settles_emptied clu pn).parked _).old x hx
  rw [← hxs, ← hws]
  exact s.loseAll_gone hk y hy hp w hw

end

/-! ## Uncorrectable reads -/

theorem execUncorrectableRead_none {s : State} {p : Place} {addr : Nat} (h : s.readAtAddr p addr = none) :
    exec (.uncorrectableRead p addr) s = .next s := by
  show execUncorrectableRead p addr s = _
  simp only [execUncorrectableRead, h]

/-- A read that fails raises ENGINE-FAULT at the reading core and leaves every strand as it was. -/
theorem execUncorrectableRead_some {s : State} {p : Place} {addr : Nat} {a : Access} (h : s.readAtAddr p addr = some a) :
    ∃ t, exec (.uncorrectableRead p addr) s = .next t ∧ t.mem = s.mem ∧ (∀ q, t.strand q = s.strand q)
      ∧ (t.core p).pendFaults = (s.core p).pendFaults ++ [(BitVec.ofNat 64 (2 ^ 63 + addr % 2 ^ 63), 0)] := by
  refine ⟨({ s with fab := { s.fab with issue := s.fab.issue.erase a, bufs := s.fab.bufs.erase a } } : State).modCore p fun c =>
    { c with pendFaults := c.pendFaults ++ [(BitVec.ofNat 64 (2 ^ 63 + addr % 2 ^ 63), 0)] }, ?_, rfl, fun q => ?_, ?_⟩
  · show execUncorrectableRead p addr s = _
    simp only [execUncorrectableRead, h]
  · unfold State.strand
    rw [State.core_modCore]
    split
    · rename_i e; rw [e]; rfl
    · rfl
  · rw [State.core_modCore, if_pos rfl]
    rfl

end Sys2Proof.Machine

namespace Sys2Proof.Proofs

open Sys2Proof Sys2Proof.Machine

/-- Failed units are retired (22 R310, R314, R315, 01 R12 to R14). -/
theorem failedUnitsAreRetired : Claims.FailedUnitsAreRetired := by
  unfold Claims.FailedUnitsAreRetired
  intro s p bit clu addr ok a u
  extract_lets c mask cores ready pend
  have hcores : cores = testCores u := by cases u <;> rfl
  have hstart := execSelfTestStart_spec s u
  have hready : (s.clus clu).stopped = true ∧ s.atBoundaries (southOf clu) = true ↔ ready := by
    rw [s.atBoundaries_iff]
  rw [hcores]
  refine ⟨hstart.1, fun h => ⟨fun hu => (hstart.2 h).1 p bit hu, fun hu => (hstart.2 h).2 clu hu⟩,
    execSelfTestEnd_feature_idle bit ok, fun h => ?_, execSelfTestEnd_fails, execSelfTestEnd_rlc_fails,
    execSelfTestEnd_shared_idle ok, execSelfTestEnd_shared ok, fun h => execClusterRetirement_of_not (mt hready.mp h),
    fun h _ => ?_, fun h _ => ?_, execUncorrectableRead_none, execUncorrectableRead_some⟩
  · -- a pass
    exact ⟨_, execSelfTestEnd_feature bit true h, s.core_tested_self p, List.mem_append_right _ (List.mem_singleton.mpr rfl)⟩
  · -- the cluster leaves the mesh
    refine ⟨_, execClusterRetirement_of_ready (hready.mpr h), s.retireCluster_retired clu _, s.retireCluster_stopped clu _,
      fun k hk => s.retireCluster_idle clu _ hk, s.retireCluster_places clu _, fun n hn k hk m hm => ?_⟩
    exact s.retireCluster_feat clu _ hn hk hm
  · -- its strands are gone, and every table says so
    exact ⟨_, execClusterRetirement_of_ready (hready.mpr h), s.retireCluster_tabs clu _,
      fun k hk => s.retireCluster_gone clu _ hk⟩

/-- Settles O53. What a stuck head, a dead link and a reroute do is said of each list of the mesh; a retirement is made of
operations that only end strands, a rewrite of the place tables and new seats, each with its own lemma. -/
theorem failuresAreContained : Obligations.FailuresAreContained :=
  ⟨meshRecoversFromStuckAndDead, failedUnitsAreRetired⟩

end Sys2Proof.Proofs
end

section
/-! What the mesh alone changes: a packet or a close that leaves its source touches the fabric and a meter, and nothing of
the cores, of memory or of the rest of a partition. -/

namespace Sys2Proof.Machine

/-- A state after packets or closes have left: only the fabric and the meters of partitions may differ. -/
structure State.MeshOnly (s t : State) : Prop where
  cores : t.cores = s.cores
  mem : t.mem = s.mem
  tick : t.tick = s.tick
  nextSid : t.nextSid = s.nextSid
  gov : t.gov = s.gov
  part : ∀ n, ∃ m, t.part n = { s.part n with meter := m }

namespace State.MeshOnly

variable {s t u : State}

theorem of_fab (s : State) (f : Fabric) : s.MeshOnly { s with fab := f } :=
  ⟨rfl, rfl, rfl, rfl, rfl, fun n => ⟨(s.part n).meter, rfl⟩⟩

theorem refl (s : State) : s.MeshOnly s := of_fab s s.fab

theorem trans (h : s.MeshOnly t) (k : t.MeshOnly u) : s.MeshOnly u where
  cores := k.cores.trans h.cores
  mem := k.mem.trans h.mem
  tick := k.tick.trans h.tick
  nextSid := k.nextSid.trans h.nextSid
  gov := k.gov.trans h.gov
  part n := by
    obtain ⟨m, hm⟩ := k.part n
    obtain ⟨m', hm'⟩ := h.part n
    exact ⟨m, by rw [hm, hm']⟩

theorem foldl {β : Type} {f : State → β → State} (l : List β) (s : State) (h : ∀ (u : State) b, u.MeshOnly (f u b)) :
    s.MeshOnly (l.foldl f s) :=
  List.foldlRecOn (motive := s.MeshOnly) l f (refl s) fun _ hu b _ => hu.trans (h _ b)

theorem core (h : s.MeshOnly t) (p : Place) : t.core p = s.core p := by unfold State.core; rw [h.cores]

theorem strand (h : s.MeshOnly t) (p : Place) : t.strand p = s.strand p := by unfold State.strand; rw [h.core]

theorem partNo (h : s.MeshOnly t) (p : Place) : t.partNo p = s.partNo p := by unfold State.partNo; rw [h.core]

theorem attrs (h : s.MeshOnly t) (n : Nat) : (t.part n).attrs = (s.part n).attrs := by
  obtain ⟨m, hm⟩ := h.part n; rw [hm]

theorem parked (h : s.MeshOnly t) (n : Nat) : (t.part n).parked = (s.part n).parked := by
  obtain ⟨m, hm⟩ := h.part n; rw [hm]

theorem launch (h : s.MeshOnly t) (n : Nat) : (t.part n).launch = (s.part n).launch := by
  obtain ⟨m, hm⟩ := h.part n; rw [hm]

end State.MeshOnly

theorem State.meshOnly_meterMesh (s : State) (pn n : Nat) : s.MeshOnly (s.meterMesh pn n) where
  cores := rfl
  mem := rfl
  tick := rfl
  nextSid := rfl
  gov := rfl
  part m := by
    rw [State.meterMesh, State.part_modPart]
    split
    · rename_i e; subst e; exact ⟨_, rfl⟩
    · exact ⟨_, rfl⟩

theorem State.meshOnly_noteInjection (s : State) (pn : Nat) (src : Place) (vn : Vn) : s.MeshOnly (s.noteInjection pn src vn) := by
  unfold State.noteInjection
  split
  · exact .of_fab s _
  · exact .refl s

theorem State.meshOnly_takeSeqOf (s : State) (lane : Nat) : s.MeshOnly (s.takeSeqOf lane) := .of_fab s _

theorem State.meshOnly_inject (s : State) (src dst : Place) (vn : Vn) (pn sid : Nat) (b : Body) :
    s.MeshOnly (s.inject src dst vn pn sid b) :=
  (s.meshOnly_takeSeqOf _).trans <| (State.meshOnly_noteInjection _ pn src vn).trans <|
    (State.meshOnly_meterMesh _ pn _).trans (.of_fab _ _)

/-- The packet that leaves, and the packets that travelled before it. -/
theorem State.net_inject (s : State) (src dst : Place) (vn : Vn) (pn sid : Nat) (b : Body) :
    (s.inject src dst vn pn sid b).fab.net = s.fab.net ++ [s.packetOf src dst vn pn sid b] := by
  have hnote : ∀ u : State, (u.noteInjection pn src vn).fab.net = u.fab.net := fun u => by
    unfold State.noteInjection; split <;> rfl
  show ((s.takeSeq src dst vn).noteInjection pn src vn).fab.net ++ _ = _
  rw [hnote]
  rfl

theorem State.mem_net_inject (s : State) (src dst : Place) (vn : Vn) (pn sid : Nat) (b : Body) :
    s.packetOf src dst vn pn sid b ∈ (s.inject src dst vn pn sid b).fab.net := by
  rw [s.net_inject]
  exact List.mem_append_right _ (List.mem_singleton.mpr rfl)

theorem State.meshOnly_departed (s : State) (a : Access) : s.MeshOnly (s.departed a) := by
  unfold State.departed State.meterAccess
  split
  · exact (s.meshOnly_noteInjection _ _ _).trans ((State.meshOnly_takeSeqOf _ _).trans (State.meshOnly_meterMesh _ _ _))
  · exact .refl s

theorem State.meshOnly_returned (s : State) (a : Access) : s.MeshOnly (s.returned a) := by
  unfold State.returned
  split
  · exact (s.meshOnly_noteInjection _ _ _).trans (State.meshOnly_takeSeqOf _ _)
  · exact .refl s

/-- A close leaves its core: it is on its way, or its home has taken it and dropped the entries of the interval. -/
theorem State.meshOnly_sendClose (s : State) (p : Place) (h : Home) : s.MeshOnly (s.sendClose p h) := by
  have hn : s.MeshOnly s.nextNumber := .of_fab s _
  have hclose : ((s.closeFor p h).party = .core (s.closeFor p h).src ∧ (!(s.closeFor p h).isClose) = true) ↔ False := by
    simp [State.closeFor, Access.isClose]
  simp only [State.sendClose, State.send, hclose, if_false,
    State.applyAccess_close _ (show (s.closeFor p h).op = .close (s.core p).interval from rfl)]
  by_cases hw : ((s.slowTurn && s.cur.1 == p) || !s.nextNumber.passes (s.closeFor p h)) = true
  · simp only [hw, if_true]
    exact hn.trans (.of_fab _ _)
  · simp only [hw, Bool.false_eq_true, if_false]
    exact (hn.trans (State.meshOnly_departed _ _)).trans ((State.MeshOnly.of_fab _ _).trans (State.meshOnly_returned _ _))

/-- The closes of an interval leave. -/
def State.sendCloses (s : State) (p : Place) : State := (s.closeHomes p).foldl (fun u h => u.sendClose p h) s

theorem State.meshOnly_sendCloses (s : State) (p : Place) : s.MeshOnly (s.sendCloses p) :=
  .foldl _ s fun u h => u.meshOnly_sendClose p h

/-- The end of an interval: its closes leave, and the core counts on from an empty filter. -/
theorem State.closeInterval_eq (s : State) (p : Place) : s.closeInterval p = (s.sendCloses p).modCore p fun c =>
    { c with interval := c.interval + 1, filter := [], overflowed := false
             st := { c.st with act := { c.st.act with shut := s.fab.nextNum } } } := rfl

end Sys2Proof.Machine
end

section
/-! The launch ids of strands through the ends of other strands (03 R45, R52): where a strand runs or is parked afterwards, it
did so before under the same id, and a launch keeps its parameters. -/

namespace Sys2Proof.Machine

/-- A state after the ends of strands: those that still run or are parked are strands of before with their launch ids. -/
structure State.KeepsLids (s t : State) : Prop where
  core : ∀ p, (t.core p).running = true → (s.core p).running = true ∧ (t.strand p).act.lid = (s.strand p).act.lid
  parked : ∀ n, ∀ z ∈ (t.part n).parked, ∃ y ∈ (s.part n).parked, y.st.act.sid = z.st.act.sid ∧ y.st.act.lid = z.st.act.lid
  attrs : ∀ n, (t.part n).attrs = (s.part n).attrs
  prm : ∀ n, (t.part n).launch.map (·.prm) = (s.part n).launch.map (·.prm)

namespace State.KeepsLids

variable {s t u : State}

theorem of_eq (hc : t.cores = s.cores) (hp : ∀ n, ∃ m, t.part n = { s.part n with meter := m }) : s.KeepsLids t where
  core p h := by unfold State.strand State.core at *; rw [hc] at *; exact ⟨h, rfl⟩
  parked n z hz := by obtain ⟨m, hm⟩ := hp n; rw [hm] at hz; exact ⟨z, hz, rfl, rfl⟩
  attrs n := by obtain ⟨m, hm⟩ := hp n; rw [hm]
  prm n := by obtain ⟨m, hm⟩ := hp n; rw [hm]

theorem refl (s : State) : s.KeepsLids s := of_eq rfl fun n => ⟨(s.part n).meter, rfl⟩

theorem of_meshOnly (h : s.MeshOnly t) : s.KeepsLids t := of_eq h.cores h.part

theorem trans (h : s.KeepsLids t) (k : t.KeepsLids u) : s.KeepsLids u where
  core p hr := by
    obtain ⟨hr', hl⟩ := k.core p hr
    obtain ⟨hr'', hl'⟩ := h.core p hr'
    exact ⟨hr'', hl.trans hl'⟩
  parked n z hz := by
    obtain ⟨y, hy, hs, hl⟩ := k.parked n z hz
    obtain ⟨x, hx, hs', hl'⟩ := h.parked n y hy
    exact ⟨x, hx, hs'.trans hs, hl'.trans hl⟩
  attrs n := (k.attrs n).trans (h.attrs n)
  prm n := (k.prm n).trans (h.prm n)

theorem foldl {β : Type} {f : State → β → State} (l : List β) (s : State) (h : ∀ (u : State) b, u.KeepsLids (f u b)) :
    s.KeepsLids (l.foldl f s) :=
  List.foldlRecOn (motive := s.KeepsLids) l f (refl s) fun _ hu b _ => hu.trans (h _ b)

theorem modCore (s : State) (p : Place) {f : Core → Core}
    (h : (f (s.core p)).running = true → (s.core p).running = true ∧ (f (s.core p)).st.act.lid = (s.core p).st.act.lid) :
    s.KeepsLids (s.modCore p f) where
  core q hq := by
    unfold State.strand
    rw [State.core_modCore] at *
    split at hq
    · rename_i e; subst e; rw [if_pos rfl]; exact h hq
    · rename_i e; rw [if_neg e]; exact ⟨hq, rfl⟩
  parked _ z hz := ⟨z, hz, rfl, rfl⟩
  attrs _ := rfl
  prm _ := rfl

theorem modStrand (s : State) (p : Place) {f : Strand → Strand} (h : ∀ t, (f t).act.lid = t.act.lid) : s.KeepsLids (s.modStrand p f) :=
  modCore s p fun hr => ⟨hr, h _⟩

theorem modPart (s : State) (n : Nat) {f : Part → Part}
    (hk : ∀ z ∈ (f (s.part n)).parked, ∃ y ∈ (s.part n).parked, y.st.act.sid = z.st.act.sid ∧ y.st.act.lid = z.st.act.lid)
    (ha : (f (s.part n)).attrs = (s.part n).attrs)
    (hl : (f (s.part n)).launch.map (·.prm) = (s.part n).launch.map (·.prm)) : s.KeepsLids (s.modPart n f) where
  core _ hr := ⟨hr, rfl⟩
  parked m z hz := by
    rw [State.part_modPart] at hz
    split at hz
    · rename_i e; subst e; exact hk z hz
    · exact ⟨z, hz, rfl, rfl⟩
  attrs m := by
    rw [State.part_modPart]
    split
    · rename_i e; subst e; exact ha
    · rfl
  prm m := by
    rw [State.part_modPart]
    split
    · rename_i e; subst e; exact hl
    · rfl

end State.KeepsLids

theorem State.keepsLids_receive (s : State) (p : Place) (num : Nat) (a : Answer) : s.KeepsLids (s.receive p num a) := by
  simp only [State.receive, State.modOwner]
  split
  · exact .modStrand s p fun _ => rfl
  · split
    · refine .modPart s _ (fun z hz => ?_) rfl rfl
      obtain ⟨y, hy, rfl⟩ := List.mem_map.mp hz
      exact ⟨y, hy, by split <;> exact ⟨rfl, rfl⟩⟩
    · split
      · exact .modStrand s _ fun _ => rfl
      · exact .refl s

theorem State.keepsLids_answerHoldx (s : State) (t : Strand) (w : Nat) : s.KeepsLids (s.answerHoldx t w) :=
  .foldl _ s fun u _ => u.keepsLids_receive _ _ _

theorem State.keepsLids_closeInterval (s : State) (p : Place) : s.KeepsLids (s.closeInterval p) := by
  rw [s.closeInterval_eq]
  exact (State.KeepsLids.of_meshOnly (s.meshOnly_sendCloses p)).trans (.modCore _ p fun hr => ⟨hr, rfl⟩)

theorem State.keepsLids_inject (s : State) (src dst : Place) (vn : Vn) (pn sid : Nat) (b : Body) :
    s.KeepsLids (s.inject src dst vn pn sid b) := .of_meshOnly (s.meshOnly_inject _ _ _ _ _ _)

theorem State.keepsLids_meshRecheck (s : State) (pn : Nat) : s.KeepsLids (s.meshRecheck pn) := by
  refine .foldl _ s fun u e => ?_
  split
  · refine .foldl _ u fun v me => ?_
    dsimp only
    split
    · split
      · exact .refl v
      · exact (State.KeepsLids.modCore v e.1 fun hr => ⟨hr, rfl⟩).trans (.foldl _ _ fun w q => w.keepsLids_inject _ _ _ _ _ _)
    · exact .refl v
  · exact .refl u

theorem Part.mem_parked_wake {t : Part} {z : Parked} (hz : z ∈ t.wake.parked) : ∃ y ∈ t.parked, y.st = z.st := by
  obtain ⟨y, hy, rfl⟩ := List.mem_map.mp hz
  exact ⟨y, hy, by split <;> rfl⟩

theorem State.keepsLids_clearMarks (s : State) (pn : Nat) (f : Mark → Bool) : s.KeepsLids (s.clearMarks pn f) := by
  refine .trans (.modPart s pn (fun z hz => ?_) rfl rfl) (State.keepsLids_meshRecheck _ pn)
  obtain ⟨y, hy, he⟩ := Part.mem_parked_wake hz
  exact ⟨y, hy, by rw [he], by rw [he]⟩

theorem State.keepsLids_produce (s : State) (pn sid : Nat) (o : ObjRef) : s.KeepsLids (s.produce pn sid o) := by
  unfold State.produce
  split
  · exact s.keepsLids_clearMarks _ _
  · exact .refl s

theorem State.keepsLids_poisonMarks (s : State) (pn sid : Nat) : s.KeepsLids (s.poisonMarks pn sid) :=
  .modPart s pn (f := fun t => { t with pois := (t.pois ++ _).eraseDups }) (fun z hz => ⟨z, hz, rfl, rfl⟩) rfl rfl

theorem State.keepsLids_log (s : State) (r : LogRec) : s.KeepsLids (s.log r) := .of_eq rfl fun n => ⟨(s.part n).meter, rfl⟩

theorem State.keepsLids_dropPubs (s : State) (sid : Nat) : s.KeepsLids (s.dropPubs sid) :=
  .of_eq rfl fun n => ⟨(s.part n).meter, rfl⟩

theorem State.keepsLids_abortReply (s : State) (p : Place) (t : Strand) : s.KeepsLids (s.abortReply p t) := by
  unfold State.abortReply
  split
  · exact (s.keepsLids_inject _ _ _ _ _ _).trans (State.keepsLids_produce _ _ _ _)
  · exact .refl s

/-- The release of a hold's slot touches the hold table alone. -/
theorem Part.releaseSlot_eq (t : Part) (id sid : Nat) (run : List Nat) : ∃ hs, t.releaseSlot id sid run = { t with holds := hs } := by
  simp only [Part.releaseSlot, Part.freeHold]
  repeat' split
  all_goals exact ⟨_, rfl⟩

theorem Part.foldl_releaseSlot_eq (t : Part) (ids : List Nat) (sid : Nat) (run : List Nat) :
    ∃ hs, ids.foldl (fun w id => w.releaseSlot id sid run) t = { t with holds := hs } := by
  refine List.foldlRecOn (motive := fun w : Part => ∃ hs, w = { t with holds := hs }) ids _ ⟨t.holds, rfl⟩ fun w hw id _ => ?_
  obtain ⟨hs, rfl⟩ := hw
  obtain ⟨hs', h'⟩ := Part.releaseSlot_eq { t with holds := hs } id sid run
  exact ⟨hs', h'⟩

theorem Launch.note_prm (l : Launch) (lid : Nat) (fault dlmiss poison : Bool) : (l.note lid fault dlmiss poison).prm = l.prm := by
  unfold Launch.note; split <;> rfl

/-- A partition from which a strand has gone: its holds' slots are released, and its launch takes its flags. -/
def Part.strandEnded (w : Part) (t : Strand) (fault : Bool) (run : List Nat) : Part :=
  { (t.act.sharing ++ w.idsOf t.act.sid).foldl (fun w id => w.releaseSlot id t.act.sid run) w with
    launch := w.launch.map fun l => l.note t.act.lid fault t.act.dlmiss t.act.poison }

theorem Part.strandEnded_eq (w : Part) (t : Strand) (fault : Bool) (run : List Nat) : ∃ hs, w.strandEnded t fault run =
    { w with holds := hs, launch := w.launch.map fun l => l.note t.act.lid fault t.act.dlmiss t.act.poison } := by
  obtain ⟨hs, h⟩ := w.foldl_releaseSlot_eq (t.act.sharing ++ w.idsOf t.act.sid) t.act.sid run
  exact ⟨hs, by rw [Part.strandEnded, h]⟩

theorem State.keepsLids_strandEnded (s : State) (pn : Nat) (t : Strand) (fault : Bool) (run : List Nat) :
    s.KeepsLids (s.modPart pn fun w => w.strandEnded t fault run) := by
  obtain ⟨hs, h⟩ := (s.part pn).strandEnded_eq t fault run
  refine .modPart s pn ?_ ?_ ?_
  all_goals rw [h]
  · exact fun z hz => ⟨z, hz, rfl, rfl⟩
  · cases (s.part pn).launch with
    | none => rfl
    | some l => exact congrArg some (l.note_prm _ _ _ _)

theorem State.keepsLids_afterEnd (s : State) (p : Place) (t : Strand) (fault : Bool) : s.KeepsLids (s.afterEnd p t fault) := by
  have hmarks := ((s.keepsLids_abortReply p t).trans (State.keepsLids_dropPubs _ t.act.sid)).trans
    (State.keepsLids_clearMarks _ (s.partNo p) (·.sid == t.act.sid))
  exact (hmarks.trans (State.keepsLids_strandEnded _ _ t fault _)).trans
    (State.KeepsLids.modCore _ p (f := fun c => { c with work := { c.work with lens := _ } }) fun hr => ⟨hr, rfl⟩)

theorem State.keepsLids_endStrand (s : State) (p : Place) (fault : Bool) : s.KeepsLids (s.endStrand p fault) := by
  simp only [State.endStrand]
  exact .trans (.trans ((s.keepsLids_closeInterval p).trans (State.keepsLids_answerHoldx _ _ _))
    (.modCore _ p fun hr => absurd hr Bool.false_ne_true)) (State.keepsLids_afterEnd _ p _ fault)

theorem State.keepsLids_endParked (s : State) (pn : Nat) (k : Parked) (fault : Bool) : s.KeepsLids (s.endParked pn k fault) := by
  simp only [State.endParked]
  refine .trans ((s.keepsLids_poisonMarks pn _).trans (.modPart _ pn (fun z hz => ?_) rfl rfl)) (State.keepsLids_afterEnd _ _ _ fault)
  exact ⟨z, (List.mem_filter.mp hz).1, rfl, rfl⟩

theorem State.keepsLids_killStrand (s : State) (p : Place) (c : Cause) : s.KeepsLids (s.killStrand p c) :=
  (s.keepsLids_poisonMarks _ _).trans <| (State.keepsLids_log _ _).trans (State.keepsLids_endStrand _ p true)

theorem State.keepsLids_discardWork (s : State) (pn lid : Nat) : s.KeepsLids (s.discardWork pn lid) :=
  .foldl _ s fun u p => .modCore u p fun hr => ⟨hr, rfl⟩

/-! ## A launch without its page -/

/-- The cores of a partition whose strands run for a launch. -/
def State.runsFor (s : State) (pn lid : Nat) : List Place :=
  (s.part pn).coresOf.filter fun p => (s.core p).running && (s.strand p).act.lid == lid

/-- The running strands of a launch end. -/
def State.endRunning (s : State) (pn lid : Nat) : State :=
  (s.runsFor pn lid).foldl (fun u p => (u.poisonMarks pn (u.strand p).act.sid).endStrand p true) s

/-- The parked strands of a launch end. -/
def State.endWaiting (s : State) (pn lid : Nat) : State :=
  ((s.part pn).parked.filter fun k => k.st.act.lid == lid).foldl (fun u k => u.endParked pn k true) s

/-- The launch of a partition is marked as one that got no page. -/
def State.markUnpaged (s : State) (pn : Nat) : State :=
  s.modPart pn fun t => { t with launch := t.launch.map fun l => { l with translation := true } }

theorem State.stopLaunch_eq {s : State} {pn : Nat} {l : Launch} (h : (s.part pn).launch = some l) :
    s.stopLaunch pn = (((s.endRunning pn l.prm.lid.toNat).endWaiting pn l.prm.lid.toNat).discardWork pn l.prm.lid.toNat).markUnpaged pn := by
  simp only [State.stopLaunch, h]
  rfl

theorem State.keepsLids_endRunning (s : State) (pn lid : Nat) : s.KeepsLids (s.endRunning pn lid) :=
  .foldl _ s fun u p => (u.keepsLids_poisonMarks pn _).trans (State.keepsLids_endStrand _ p true)

theorem State.keepsLids_endWaiting (s : State) (pn lid : Nat) : s.KeepsLids (s.endWaiting pn lid) :=
  .foldl _ s fun u k => u.keepsLids_endParked pn k true

theorem State.keepsLids_markUnpaged (s : State) (pn : Nat) : s.KeepsLids (s.markUnpaged pn) := by
  refine .modPart s pn (fun z hz => ⟨z, hz, rfl, rfl⟩) rfl ?_
  show ((s.part pn).launch.map _).map _ = _
  rw [Option.map_map]
  rfl

/-- No core of the partition runs a strand of the launch any more. -/
theorem State.endRunning_ends {s : State} {pn lid : Nat} {p : Place} (hp : p ∈ (s.part pn).coresOf)
    (hr : ((s.endRunning pn lid).core p).running = true) : (s.strand p).act.lid ≠ lid := by
  intro hl
  have hmem : p ∈ s.runsFor pn lid := by
    refine List.mem_filter.mpr ⟨hp, ?_⟩
    simp [((s.keepsLids_endRunning pn lid).core p hr).1, hl]
  have hidle : ((s.endRunning pn lid).core p).running = false := by
    refine foldl_establishes (I := fun _ => True) (P := fun q (u : State) => (u.core q).running = false) (fun _ _ _ => trivial)
      (fun u q _ => State.endStrand_idle _ q true) (fun u q c _ hc => Bool.eq_false_iff.mpr fun h => ?_) hmem trivial
    have hk := (u.keepsLids_poisonMarks pn (u.strand q).act.sid).trans (State.keepsLids_endStrand _ q true)
    exact absurd (hk.core c h).1 (by simp [hc])
  exact absurd hr (by simp [hidle])

/-- No strand of the launch is parked any more. -/
theorem State.endWaiting_ends {s : State} {pn lid : Nat} {z : Parked} (hz : z ∈ ((s.endWaiting pn lid).part pn).parked) :
    z.st.act.lid ≠ lid := by
  intro hl
  obtain ⟨y, hy, hs, hy'⟩ := (s.keepsLids_endWaiting pn lid).parked pn z hz
  have hmem : y ∈ (s.part pn).parked.filter fun k => k.st.act.lid == lid := List.mem_filter.mpr ⟨hy, by simp [hy', hl]⟩
  refine foldl_establishes (I := fun _ => True) (P := fun k (u : State) => ∀ z ∈ (u.part pn).parked, z.st.act.sid ≠ k.st.act.sid)
    (fun _ _ _ => trivial) (fun u k _ => u.endParked_gone pn k true) (fun u k j _ hj x hx => ?_) hmem trivial z hz hs.symm
  obtain ⟨w, hw, hws, -⟩ := (u.keepsLids_endParked pn k true).parked pn x hx
  exact hws ▸ hj w hw

/-- A launch that stops: none of its strands is left, and it is marked. -/
theorem State.stopLaunch_spec {s : State} {pn : Nat} {l : Launch} (h : (s.part pn).launch = some l) :
    s.KeepsLids (s.stopLaunch pn)
      ∧ ((s.stopLaunch pn).part pn).launch.map (·.translation) = some true
      ∧ (∀ p ∈ (s.part pn).coresOf, ((s.stopLaunch pn).core p).running = true → ((s.stopLaunch pn).strand p).act.lid ≠ l.prm.lid.toNat)
      ∧ ∀ z ∈ ((s.stopLaunch pn).part pn).parked, z.st.act.lid ≠ l.prm.lid.toNat := by
  rw [State.stopLaunch_eq h]
  have hrun := s.keepsLids_endRunning pn l.prm.lid.toNat
  have hwait := (s.endRunning pn l.prm.lid.toNat).keepsLids_endWaiting pn l.prm.lid.toNat
  have hrest := (State.keepsLids_discardWork ((s.endRunning pn l.prm.lid.toNat).endWaiting pn l.prm.lid.toNat) pn
    l.prm.lid.toNat).trans (State.keepsLids_markUnpaged _ pn)
  have hall := hrun.trans (hwait.trans hrest)
  refine ⟨hall, ?_, fun p hp hr => ?_, fun z hz => ?_⟩
  · have hprm := (hrun.trans (hwait.trans (State.keepsLids_discardWork _ pn l.prm.lid.toNat))).prm pn
    rw [h, Option.map_some] at hprm
    obtain ⟨l', hl', -⟩ := Option.map_eq_some_iff.mp hprm
    rw [State.markUnpaged, State.part_modPart, if_pos rfl]
    simp [hl']
  · rw [(hall.core p hr).2]
    exact State.endRunning_ends hp ((hwait.trans hrest).core p hr).1
  · obtain ⟨y, hy, -, hl⟩ := hrest.parked pn z hz
    exact hl ▸ State.endWaiting_ends hy

end Sys2Proof.Machine
end

section
/-! Timers and the memory service (03 R45, R60, R61; 22 R298 to R300): what a pending trap of the lead sequencer becomes,
what a tick counts, and how a launch ends that gets no page. -/

namespace Sys2Proof.Machine

/-! ## Strands at a boundary -/

@[simp] theorem Seq.parkWait_level (c : Seq) (mine : Bool) : (c.parkWait mine).level = c.level := by
  unfold Seq.parkWait
  repeat' split
  all_goals rfl

/-- The trapping sequencer stands at its handler. -/
@[simp] theorem State.seq_deliver (s : State) (p : Place) (q : SeqId) (c : Cause) (v : Word) (pprv udel : Bool) (l : Level) (n : Nat) :
    ((s.deliver p q c v pprv udel l n).strand p).seq q = ((s.strand p).seq q).enter l n := by
  rw [State.deliver, State.strand_modStrand, if_pos rfl]
  cases q <;> rfl

@[simp] theorem State.csr_deliver (s : State) (p : Place) (q : SeqId) (c : Cause) (v : Word) (pprv udel : Bool) (l : Level) (n : Nat) :
    ((s.deliver p q c v pprv udel l n).strand p).csr
      = (s.strand p).csr.record c q pprv udel (s.strand p).as.epc (s.strand p).xs.epc v := by
  rw [State.deliver, State.strand_modStrand, if_pos rfl, Strand.setSeq_csr, Strand.setSeq_csr]

@[simp] theorem State.act_deliver (s : State) (p : Place) (q : SeqId) (c : Cause) (v : Word) (pprv udel : Bool) (l : Level) (n : Nat) :
    ((s.deliver p q c v pprv udel l n).strand p).act = (s.strand p).act := by
  rw [State.deliver, State.strand_modStrand, if_pos rfl, Strand.setSeq_act, Strand.setSeq_act]

/-- Delivery to the supervisor of any cause but WITHHELD-ABORT, which marks the strand besides. -/
theorem State.toSupervisor_eq (s : State) (p : Place) (q : SeqId) {c : Cause} (v : Word) (hc : c ≠ .withheldAbort) :
    s.toSupervisor p q c v = s.deliver p q c v (((s.strand p).seq q).level != .user) (s.strand p).csr.cause.udel .supervisor
      (s.core p).stvec.toNat := by
  simp only [State.toSupervisor, if_neg hc]

/-- A cause that UTMASK enables is delivered at UTVEC to a strand at user level outside a user trap (22 R295). -/
theorem State.trapTo_user {s : State} {p : Place} {q : SeqId} {c : Cause} (v : Word) (hc : c.userRoute = true)
    (hl : ((s.strand p).seq q).level = .user) (hm : (s.strand p).csr.utmask.getLsbD c.code = true)
    (hu : (s.strand p).csr.cause.udel = false) (h0 : (s.strand p).csr.utvec ≠ 0)
    (hn : (s.strand p).csr.utvec.toNat < s.codeSize p) :
    s.trapTo p q c v
      = (s.deliver p q c v false true .user (s.strand p).csr.utvec.toNat).modStrand p Strand.noteUserTrap := by
  simp only [State.trapTo, hc, hl, hm, hu, if_neg h0, if_neg (Nat.not_le.mpr hn), beq_self_eq_true, Bool.not_false,
    Bool.and_true, if_true]

/-- A cause of the supervisor's route, or one that comes while a user trap is open, goes to the supervisor. -/
theorem State.trapTo_supervisor {s : State} {p : Place} {q : SeqId} {c : Cause} (v : Word)
    (h : c.userRoute = false ∨ (s.strand p).csr.cause.udel = true) : s.trapTo p q c v = s.toSupervisor p q c v := by
  have hno : (c.userRoute && ((s.strand p).seq q).level == .user && (s.strand p).csr.utmask.getLsbD c.code
      && !(s.strand p).csr.cause.udel) = false := by
    rcases h with h | h <;> simp [h]
  simp only [State.trapTo, hno, Bool.false_eq_true, if_false]

/-! ## The lead sequencer's pending trap -/

/-- A strand that its lead's one pending trap has left, its wait abandoned. -/
def Strand.takes (t : Strand) (q : SeqId) : Strand :=
  let u := { t with act := { t.act with pend := [] } }
  u.setSeq q ((u.seq q).parkWait false)

@[simp] theorem Strand.takes_csr (t : Strand) (q : SeqId) : (t.takes q).csr = t.csr := by cases q <;> rfl
@[simp] theorem Strand.takes_act (t : Strand) (q : SeqId) : (t.takes q).act = { t.act with pend := [] } := by cases q <;> rfl
@[simp] theorem Strand.takes_level (t : Strand) (q : SeqId) : ((t.takes q).seq q).level = (t.seq q).level := by
  cases q <;> exact Seq.parkWait_level _ _

/-- The one pending trap of a core's lead sequencer is taken at user level, a matrix instruction in the array coming
first unless it is WATCHDOG. -/
theorem State.takeLead_of_pend {s : State} {p : Place} {q : SeqId} {c : Cause} {v : Word} (hq : (s.strand p).lead = q)
    (hr : s.coreRuns p = true) (hp : (s.strand p).act.pend = [(q, c, v)]) (hl : ((s.strand p).seq q).level = .user)
    (ha : c = .watchdog ∨ ((s.strand p).seq q).inArray = false) :
    s.takeLead p = (s.modStrand p fun t => t.takes q).trapTo p q c v := by
  have hfind : (s.strand p).act.pend.find? (fun e => e.1 == q && pendsAt ((s.strand p).seq q).level e.2.1
      && (e.2.1 == .watchdog || !((s.strand p).seq q).inArray)) = some (q, c, v) := by
    rcases ha with rfl | ha
    · simp [hp, hl, pendsAt]
    · simp [hp, hl, pendsAt, ha]
  have htakes : (s.modStrand p fun t => { t with act := { t.act with pend := t.act.pend.erase (q, c, v) } }).modSeqAt p q
      (fun x => x.parkWait false) = s.modStrand p fun t => t.takes q := by
    rw [State.modSeqAt, State.modStrand_modStrand]
    refine s.modStrand_congr p ?_
    simp [Strand.takes, hp]
  simp only [State.takeLead, hr, if_true, hq, State.takePending, hfind, htakes, Option.getD_some]

theorem State.takeLead_of_pend_nil {s : State} {p : Place} (hp : (s.strand p).act.pend = []) : s.takeLead p = s := by
  simp [State.takeLead, State.takePending, hp]

/-! ## Deadlines (03 R61) -/

theorem State.deadlineDue_iff (s : State) (p : Place) :
    s.deadlineDue p = true ↔ (s.core p).running = true ∧ (s.strand p).csr.deadline ≠ 0
      ∧ (s.strand p).csr.deadline.toNat ≤ s.tick ∧ (s.strand p).act.dlPassed = false := by
  simp [State.deadlineDue, and_assoc]

theorem execDeadlinePass_of_not {s : State} {p : Place} (h : ¬ s.deadlineDue p = true) : exec (.deadlinePass p) s = .next s := by
  show execDeadlinePass p s = _
  rw [execDeadlinePass, if_neg h]

theorem execDeadlinePass_of_due {s : State} {p : Place} (h : s.deadlineDue p = true) :
    exec (.deadlinePass p) s = .next ((s.passDeadline p).takeLead p) := by
  show execDeadlinePass p s = _
  rw [execDeadlinePass, if_pos h]

/-- Where DEADLINE is not enabled, a deadline that passes makes the record and nothing else. -/
theorem execDeadlinePass_masked {s : State} {p : Place} (h : s.deadlineDue p = true)
    (hm : (s.strand p).csr.utmask.getLsbD 17 = false) (hp : (s.strand p).act.pend = []) :
    exec (.deadlinePass p) s = .next (s.modStrand p fun t => t.missed s.tick) := by
  have hpass : s.passDeadline p = s.modStrand p fun t => t.missed s.tick := by
    simp only [State.passDeadline, h, Bool.not_true, Bool.false_eq_true, if_false]
    exact s.modStrand_congr p (by simp only [hm, Bool.false_eq_true, if_false])
  rw [execDeadlinePass_of_due h, hpass, State.takeLead_of_pend_nil]
  rw [State.strand_modStrand, if_pos rfl]
  exact hp

/-- An update of a strand that leaves its sequencers alone changes nothing of whether a core runs. -/
theorem State.coreRuns_modStrand (s : State) (p : Place) {f : Strand → Strand}
    (h : (f (s.strand p)).as = (s.strand p).as ∧ (f (s.strand p)).xs = (s.strand p).xs) :
    (s.modStrand p f).coreRuns p = s.coreRuns p := by
  obtain ⟨ha, hx⟩ := h
  simp only [State.strand] at ha hx
  simp [State.coreRuns, State.coreStill, State.core_modStrand, Core.spawnStalled, State.partOf, State.partNo, ha, hx, State.part,
    State.modStrand_parts]

/-- The strand whose deadline has passed and been taken. -/
def Strand.passed (t : Strand) : Strand := { t with act := { t.act with dlPassed := true, pend := [] } }

/-- Where DEADLINE is enabled, a deadline that passes is a trap of the lead sequencer at user level. -/
theorem execDeadlinePass_enabled {s : State} {p : Place} (h : s.deadlineDue p = true)
    (hm : (s.strand p).csr.utmask.getLsbD 17 = true) (hp : (s.strand p).act.pend = []) (hr : s.coreRuns p = true)
    (hl : ((s.strand p).seq (s.strand p).lead).level = .user) (ha : ((s.strand p).seq (s.strand p).lead).inArray = false) :
    exec (.deadlinePass p) s = .next ((s.modStrand p fun t => t.passed.takes t.lead).trapTo p (s.strand p).lead .deadline
      (s.strand p).csr.deadline) := by
  let f (t : Strand) : Strand :=
    { t with act := { t.act with dlPassed := true, pend := t.act.pend ++ [(t.lead, .deadline, t.csr.deadline)] } }
  have hpass : s.passDeadline p = s.modStrand p f := by
    simp only [State.passDeadline, h, Bool.not_true, Bool.false_eq_true, if_false]
    exact s.modStrand_congr p (by simp only [hm, if_true]; rfl)
  have hf : (s.modStrand p f).strand p = f (s.strand p) := by rw [State.strand_modStrand, if_pos rfl]
  have hseq : (f (s.strand p)).seq = (s.strand p).seq := rfl
  rw [execDeadlinePass_of_due h, hpass, State.takeLead_of_pend (q := (s.strand p).lead) (c := .deadline) (v := (s.strand p).csr.deadline)]
  · rw [State.modStrand_modStrand]
    congr 2
  · rw [hf]; rfl
  · rw [State.coreRuns_modStrand _ _ ⟨rfl, rfl⟩, hr]
  · rw [hf]
    show (s.strand p).act.pend ++ _ = _
    rw [hp]; rfl
  · rw [hf, hseq, hl]
  · exact .inr (by rw [hf, hseq, ha])

@[simp] theorem Strand.noteUserTrap_seq (t : Strand) (q : SeqId) : t.noteUserTrap.seq q = t.seq q := by cases q <;> rfl

/-- What a strand looks like that has taken its deadline's trap at a handler. -/
structure Strand.TookDeadline (t u : Strand) (l : Level) (pc : Nat) : Prop where
  cause : u.csr.cause = ⟨false, true, t.lead == .xs, 0x11⟩
  tval : u.csr.tval = t.csr.deadline
  level : (u.seq t.lead).level = l
  pc : (u.seq t.lead).pc = pc
  passed : u.act.dlPassed = true

/-- The delivery of DEADLINE to a level, with the user trap open from now on or already. -/
theorem State.tookDeadline_deliver (s : State) (p : Place) (l : Level) (pc : Nat) :
    (s.strand p).TookDeadline (((s.modStrand p fun t => t.passed.takes t.lead).deliver p (s.strand p).lead .deadline
      (s.strand p).csr.deadline false true l pc).strand p) l pc where
  cause := by rw [State.csr_deliver]; rfl
  tval := by rw [State.csr_deliver]; rfl
  level := by rw [State.seq_deliver]; rfl
  pc := by rw [State.seq_deliver]; rfl
  passed := by
    rw [State.act_deliver, State.strand_modStrand, if_pos rfl, Strand.takes_act]
    rfl

/-- DEADLINE at UTVEC. -/
theorem State.tookDeadline_user {s : State} {p : Place} (hm : (s.strand p).csr.utmask.getLsbD 17 = true)
    (hl : ((s.strand p).seq (s.strand p).lead).level = .user) (hu : (s.strand p).csr.cause.udel = false)
    (h0 : (s.strand p).csr.utvec ≠ 0) (hn : (s.strand p).csr.utvec.toNat < s.codeSize p) :
    (s.strand p).TookDeadline (((s.modStrand p fun t => t.passed.takes t.lead).trapTo p (s.strand p).lead .deadline
      (s.strand p).csr.deadline).strand p) .user (s.strand p).csr.utvec.toNat := by
  have hst : (s.modStrand p fun t => t.passed.takes t.lead).strand p = (s.strand p).passed.takes (s.strand p).lead := by
    rw [State.strand_modStrand, if_pos rfl]
  have hcsr : ((s.modStrand p fun t => t.passed.takes t.lead).strand p).csr = (s.strand p).csr := by
    rw [hst, Strand.takes_csr]; rfl
  have hsize : (s.modStrand p fun t => t.passed.takes t.lead).codeSize p = s.codeSize p := by
    simp [State.codeSize, State.partOf, State.partNo, State.part]
  rw [State.trapTo_user _ rfl (by rw [hst, Strand.takes_level]; exact hl) (by rw [hcsr]; exact hm) (by rw [hcsr, hu])
    (by rw [hcsr]; exact h0) (by rw [hcsr, hsize]; exact hn), hcsr]
  obtain ⟨hc, hv, hlv, hpc, hpa⟩ := s.tookDeadline_deliver p .user (s.strand p).csr.utvec.toNat
  rw [State.strand_modStrand, if_pos rfl]
  exact ⟨hc, hv, by rwa [Strand.noteUserTrap_seq], by rwa [Strand.noteUserTrap_seq], hpa⟩

/-- DEADLINE at STVEC, inside an open user trap. -/
theorem State.tookDeadline_supervisor {s : State} {p : Place} (hl : ((s.strand p).seq (s.strand p).lead).level = .user)
    (hu : (s.strand p).csr.cause.udel = true) :
    (s.strand p).TookDeadline (((s.modStrand p fun t => t.passed.takes t.lead).trapTo p (s.strand p).lead .deadline
      (s.strand p).csr.deadline).strand p) .supervisor (s.core p).stvec.toNat := by
  have hst : (s.modStrand p fun t => t.passed.takes t.lead).strand p = (s.strand p).passed.takes (s.strand p).lead := by
    rw [State.strand_modStrand, if_pos rfl]
  have hcsr : ((s.modStrand p fun t => t.passed.takes t.lead).strand p).csr = (s.strand p).csr := by
    rw [hst, Strand.takes_csr]; rfl
  have hlv : ((((s.modStrand p fun t => t.passed.takes t.lead).strand p).seq (s.strand p).lead).level != .user) = false := by
    rw [hst, Strand.takes_level]
    exact bne_eq_false_iff_eq.mpr hl
  have hst : ((s.modStrand p fun t => t.passed.takes t.lead).core p).stvec = (s.core p).stvec := by
    rw [State.core_modStrand, if_pos rfl]
  rw [State.trapTo_supervisor _ (.inr (by rw [hcsr, hu])), State.toSupervisor_eq _ _ _ _ (by decide), hlv, hcsr, hu, hst]
  exact s.tookDeadline_deliver p .supervisor (s.core p).stvec.toNat

/-! ## WATCHDOG (22 R299, R300) -/

theorem execWatchdog_of_not {s : State} {p : Place} (h : ∀ e ∈ (s.strand p).act.pend, e.2.1 ≠ .watchdog) :
    exec (.watchdog p) s = .next s := by
  show execWatchdog p s = _
  rw [execWatchdog, if_neg]
  simpa using fun q v he => h (q, .watchdog, v) he rfl

/-- WATCHDOG goes to the supervisor, whatever the lead sequencer waits for. -/
theorem execWatchdog_of_pend {s : State} {p : Place} {b : Word} (hp : (s.strand p).act.pend = [((s.strand p).lead, .watchdog, b)])
    (hr : s.coreRuns p = true) (hl : ((s.strand p).seq (s.strand p).lead).level = .user) :
    exec (.watchdog p) s = .next ((s.modStrand p fun t => t.takes (s.strand p).lead).deliver p (s.strand p).lead .watchdog b
      false (s.strand p).csr.cause.udel .supervisor (s.core p).stvec.toNat) := by
  have hst : (s.modStrand p fun t => t.takes (s.strand p).lead).strand p = (s.strand p).takes (s.strand p).lead := by
    rw [State.strand_modStrand, if_pos rfl]
  have hlv : ((((s.modStrand p fun t => t.takes (s.strand p).lead).strand p).seq (s.strand p).lead).level != .user) = false := by
    rw [hst, Strand.takes_level]
    exact bne_eq_false_iff_eq.mpr hl
  have hv : ((s.modStrand p fun t => t.takes (s.strand p).lead).core p).stvec = (s.core p).stvec := by
    rw [State.core_modStrand, if_pos rfl]
  show execWatchdog p s = _
  rw [execWatchdog, if_pos (by rw [hp]; rfl), State.takeLead_of_pend rfl hr hp hl (.inl rfl),
    State.trapTo_supervisor _ (.inl rfl), State.toSupervisor_eq _ _ _ _ (by decide), hlv, hst, hv, Strand.takes_csr]

theorem Core.tickWatchdog_of_not {c : Core} (h : c.counts = false) : c.tickWatchdog = c := by
  simp [Core.tickWatchdog, h]

theorem Core.tickWatchdog_within {c : Core} (h : c.counts = true) (hn : c.st.csr.cyc + 208 + c.cur.val < 16384) :
    c.tickWatchdog = { c with st := { c.st with csr := { c.st.csr with cyc := c.st.csr.cyc + 208 + c.cur.val } } } := by
  simp [Core.tickWatchdog, h, hn]

/-- A unit of 1,024 cycles is full: LEFT counts down, and its last step makes WATCHDOG pending. -/
theorem Core.tickWatchdog_unit {c : Core} (h : c.counts = true) (hn : 16384 ≤ c.st.csr.cyc + 208 + c.cur.val)
    (h0 : c.st.csr.left ≠ 0) :
    c.tickWatchdog.st.csr = { c.st.csr with cyc := c.st.csr.cyc + 208 + c.cur.val - 16384, left := c.st.csr.left - 1 }
      ∧ c.tickWatchdog.st.act = if c.st.csr.left = 1 then
          { c.st.act with pend := c.st.act.pend ++ [(c.st.lead, .watchdog, c.st.csr.budget.setWidth 64)] } else c.st.act := by
  have h0' : ¬ c.st.csr.left = 0#16 := h0
  simp [Core.tickWatchdog, h, Nat.not_lt.mpr hn, h0']

/-! ## Time-outs (03 R60) -/

theorem execWaitTimeout_of_timed {s : State} {p : Place} {q : SeqId} {w : Wait} {o : ObjRef} (hw : s.waitOf p q = some w)
    (ho : w.why = .object o) (hl : w.left = some 0) (hf : s.withheld (s.partNo p) o = false) :
    exec (.waitTimeout p q) s = .next { s with agenda := .run p q :: s.agenda } := by
  show execWaitTimeout p q s = _
  rw [execWaitTimeout, if_pos]
  simp [State.timedOut, hw, ho, hl, hf]

theorem execWaitTimeout_of_none {s : State} {p : Place} {q : SeqId} (hw : s.waitOf p q = none) :
    exec (.waitTimeout p q) s = .next s := by
  show execWaitTimeout p q s = _
  rw [execWaitTimeout, if_neg]
  simp [State.timedOut, hw]

/-! ## The page service (03 R45, 22 R298) -/

theorem execPageServiceAnswer_parked {s : State} {p : Place} (h : (s.core p).parkedFault = true) (b : Bool) :
    exec (.pageServiceAnswer p b) s = .next (if b then s.unparkFault p else s.endOr p (s.parkedCause p)
      (s.modCore p fun c => { c with parkedFault := false })) := by
  show execPageServiceAnswer p b s = _
  simp only [execPageServiceAnswer, h, if_true]

theorem execPageServiceAnswer_unstalled {s : State} {p : Place} (h : (s.core p).parkedFault = false)
    (hn : s.stalledSpawn p = none) (b : Bool) : exec (.pageServiceAnswer p b) s = .next s := by
  show execPageServiceAnswer p b s = _
  simp only [execPageServiceAnswer, h, Bool.false_eq_true, if_false, hn]

theorem execPageServiceAnswer_unmapped {s : State} {p : Place} {x : SeqId × Tcb} (h : (s.core p).parkedFault = false)
    (hx : s.stalledSpawn p = some x) :
    exec (.pageServiceAnswer p false) s = .next ((s.killStrand p .translation).stopLaunch (s.partNo p)) := by
  show execPageServiceAnswer p false s = _
  simp only [execPageServiceAnswer, h, Bool.false_eq_true, if_false, hx, Bool.not_false, if_true]

theorem execPageServiceAnswer_mapped {s : State} {p : Place} {q : SeqId} {x : Tcb} (h : (s.core p).parkedFault = false)
    (hx : s.stalledSpawn p = some (q, x)) (hm : s.overflowMapped p = true) :
    exec (.pageServiceAnswer p true) s = .next (s.resumeSpawn p q x) := by
  show execPageServiceAnswer p true s = _
  simp only [execPageServiceAnswer, h, Bool.false_eq_true, if_false, hx, Bool.not_true, hm, if_true]

/-- A TCB that is pushed is the newest of the deque. -/
theorem Work.mem_deque_push (w : Work) (t : Tcb) : t ∈ (w.push t).deque := by
  unfold Work.push
  split <;> exact List.mem_append_right _ (List.mem_singleton.mpr rfl)

/-- A push changes nothing but its core's work and, where it spills, partition memory. -/
theorem State.cores_pushTcb (s : State) (p : Place) (t : Tcb) : (s.pushTcb p t).cores = (s.modWork p (·.push t)).cores := by
  simp only [State.pushTcb]
  repeat' split
  all_goals rfl

theorem State.core_pushTcb (s : State) (p q : Place) (t : Tcb) : (s.pushTcb p t).core q = (s.modWork p (·.push t)).core q := by
  unfold State.core
  rw [s.cores_pushTcb]

/-- A stalled `spawn` that goes on has pushed its TCB and completes by the end rule. -/
theorem State.resumeSpawn_spec (s : State) (p : Place) (q : SeqId) (t : Tcb) :
    t ∈ ((s.resumeSpawn p q t).core p).work.deque
      ∧ (s.resumeSpawn p q t).seqAt p q = ((s.seqAt p q).endRule 8).settle := by
  have hc : (s.pushTcb p t).core p = { s.core p with work := (s.core p).work.push t } := by
    rw [s.core_pushTcb, State.modWork, State.core_modCore, if_pos rfl]
  constructor
  · rw [State.resumeSpawn, State.modSeqAt, State.core_modStrand, if_pos rfl, hc]
    exact Work.mem_deque_push _ t
  · rw [State.resumeSpawn, State.modSeqAt, State.seqAt, State.strand_modStrand, if_pos rfl, Strand.seq_setSeq, if_pos rfl]
    rw [State.strand, hc]
    rfl

end Sys2Proof.Machine

namespace Sys2Proof.Proofs

open Sys2Proof Sys2Proof.Machine

/-- Settles O48. A deadline and WATCHDOG are the lead sequencer's pending trap, taken by one rule; the launch of a `spawn`
without its page is followed by the launch ids of the strands that are left. -/
theorem timersRunOut : Obligations.TimersRunOut := by
  unfold Obligations.TimersRunOut
  intro s p q w o c b x l
  extract_lets t r lead due ev late cycles timed
  have hlead : lead = t.lead := by simp [lead, Strand.lead]
  have hdue : due ↔ s.deadlineDue p = true := (s.deadlineDue_iff p).symm
  rw [hdue, hlead]
  refine ⟨execDeadlinePass_of_not, fun hd hm hp => ?_, fun hd hm hp hr hl ha hu h0 hn => ?_, fun hd hm hp hr hl ha hu => ?_,
    execWatchdog_of_not, fun hp hr hl => ?_, Core.tickWatchdog_of_not, fun hc hn => ?_, fun hc hn h0 => ?_, fun ht => ?_,
    execWaitTimeout_of_none, fun hf => ⟨fun hq => ?_, fun hdb => ?_⟩, fun hf hs hl => ?_,
    fun hf hs y => execPageServiceAnswer_unstalled hf hs y, fun hf hs hm => ?_⟩
  · -- the record is made
    refine ⟨_, execDeadlinePass_masked hd hm hp, ?_⟩
    rw [State.strand_modStrand, if_pos rfl]
    refine ⟨rfl, ?_, rfl, rfl, rfl, rfl, rfl⟩
    show (BitVec.ofNat 32 late).toNat = late
    rw [BitVec.toNat_ofNat]
    exact Nat.mod_eq_of_lt (by omega)
  · -- DEADLINE at UTVEC
    obtain ⟨hc, hv, -, hpc, hpa⟩ := State.tookDeadline_user hm hl hu h0 hn
    exact ⟨_, execDeadlinePass_enabled hd hm hp hr hl ha, hc, hv, hpc, hpa⟩
  · -- DEADLINE inside an open user trap
    obtain ⟨hc, hv, hlv, hpc, hpa⟩ := State.tookDeadline_supervisor hl hu
    exact ⟨_, execDeadlinePass_enabled hd hm hp hr hl ha, hc, hv, hlv, hpc, hpa⟩
  · -- WATCHDOG
    refine ⟨_, execWatchdog_of_pend hp hr hl, ?_⟩
    rw [State.csr_deliver, State.seq_deliver, State.act_deliver, State.strand_modStrand, if_pos rfl, Strand.takes_csr,
      Strand.takes_act]
    exact ⟨rfl, rfl, rfl, rfl, rfl⟩
  · rw [Core.tickWatchdog_within hc hn]
    exact ⟨rfl, rfl⟩
  · obtain ⟨hcsr, hact⟩ := Core.tickWatchdog_unit hc hn h0
    exact ⟨hcsr, fun h1 => by rw [hact, if_pos h1], fun h1 => by rw [hact, if_neg h1]⟩
  · obtain ⟨hw, ho, hl, hf⟩ := ht
    exact execWaitTimeout_of_timed hw ho hl hf
  · -- a parked strand goes on
    rw [execPageServiceAnswer_parked hf, if_pos rfl, State.unparkFault, if_pos (by simpa [meets] using hq)]
  · -- a parked strand ends
    rw [execPageServiceAnswer_parked hf, if_neg Bool.false_ne_true, State.endOr, hdb, if_neg Bool.false_ne_true]
    rfl
  · -- the launch of a stalled `spawn` stops
    have hk := s.keepsLids_killStrand p .translation
    have hprm := hk.prm (s.partNo p)
    rw [hl, Option.map_some] at hprm
    obtain ⟨l', hl', he⟩ := Option.map_eq_some_iff.mp hprm
    obtain ⟨hkeep, htr, hrun, hpark⟩ := State.stopLaunch_spec hl'
    rw [he] at hrun hpark
    refine ⟨_, execPageServiceAnswer_unmapped hf hs, Bool.eq_false_iff.mpr fun h => ?_, htr, fun d hd => hrun d ?_, hpark⟩
    · exact absurd (hkeep.core p h).1 (by rw [State.killStrand, State.endStrand_idle]; exact Bool.false_ne_true)
    · rw [Part.coresOf, hk.attrs]
      exact hd
  · -- a stalled `spawn` goes on
    obtain ⟨hmem, hseq⟩ := s.resumeSpawn_spec p q x
    exact ⟨_, execPageServiceAnswer_mapped hf hs hm, hmem, by rw [hseq]; rfl, by rw [hseq]; rfl⟩

end Sys2Proof.Proofs
end

section
/-! Header words (03 R36): the fields that `mkHeader` packs read back. -/

namespace Sys2Proof.Machine

variable {dlrel prio gen hidx src : Nat} {rw tg rt sp : Bool}

theorem hdrSrc_mkHeader (hs : src < 65536) : (mkHeader dlrel rw tg rt sp prio gen hidx src).toNat % 65536 = src := by
  rw [mkHeader, BitVec.toNat_ofNat]
  omega

theorem hdrHidx_mkHeader (hs : src < 65536) (hh : hidx < 65536) : hdrHidx (mkHeader dlrel rw tg rt sp prio gen hidx src) = hidx := by
  rw [hdrHidx, mkHeader, BitVec.extractLsb'_toNat, BitVec.toNat_ofNat, Nat.shiftRight_eq_div_pow]
  omega

theorem hdrGen_mkHeader (hs : src < 65536) (hh : hidx < 65536) (hg : gen < 256) :
    hdrGen (mkHeader dlrel rw tg rt sp prio gen hidx src) = gen := by
  rw [hdrGen, mkHeader, BitVec.extractLsb'_toNat, BitVec.toNat_ofNat, Nat.shiftRight_eq_div_pow]
  omega

/-- A TCB's header says that `spawn` made it. -/
theorem spawned_mkHeader (hs : src < 65536) (hh : hidx < 65536) (hg : gen < 256) (hp : prio < 4) :
    (mkHeader dlrel rw tg rt true prio gen hidx src).getLsbD 44 = true := by
  rw [mkHeader, BitVec.getLsbD_ofNat, Nat.testBit_eq_decide_div_mod_eq]
  have hb : b2n true = 1 := rfl
  have h : (dlrel * 2 ^ 48 + b2n rw * 2 ^ 47 + b2n tg * 2 ^ 46 + b2n rt * 2 ^ 45 + b2n true * 2 ^ 44 + prio * 2 ^ 40
      + gen * 2 ^ 32 + hidx * 2 ^ 16 + src) / 2 ^ 44 % 2 = 1 := by
    rw [hb]; omega
  simp only [h, decide_true, Bool.and_true]
  rfl

end Sys2Proof.Machine
end

section
/-! Shipments at a thief (03 R46): what its deque and overflow stack make of the TCBs. -/

namespace Sys2Proof.Machine

/-- A TCB that has arrived joins the deque without its regions, which are in the core's CP by then. -/
theorem State.work_unpack (s : State) (p : Place) (t : Tcb) :
    ((s.unpack p t).core p).work = (s.core p).work.push { t with regions := [] } := by
  have hregions : (t.regions.foldl (fun (u : State) r =>
      { u with mem := Memory.setAll u.mem ((span (Key.cp p r.1) r.2.length).zip r.2) }) s).cores = s.cores :=
    List.foldlRecOn (motive := fun u : State => u.cores = s.cores) t.regions _ rfl fun _ hu _ _ => hu
  rw [State.unpack, State.core_pushTcb, State.modWork, State.core_modCore, if_pos rfl]
  unfold State.core
  rw [hregions]

theorem State.work_unpackAll (s : State) (p : Place) (ts : List Tcb) :
    ((ts.foldl (fun u t => u.unpack p t) s).core p).work = ts.foldl (fun w t => w.push { t with regions := [] }) (s.core p).work :=
  (List.foldl_hom (fun u : State => (u.core p).work) fun u t => (u.work_unpack p t).symm).symm

/-- The thief has acknowledged a shipment, and its search is over, but for an empty answer to one farther out. -/
def State.shipmentAcked (s : State) (src dst : Place) (k : Packet) (number : Nat) (ts : List Tcb) : State :=
  ((s.dropPacket k.num).inject dst src .reply k.part 0 (.shipAck number)).modSteal (dst / 8) fun x =>
    if ts.isEmpty && x.retryAt != 0 then x else { x with asked := false, retryAt := 0 }

theorem State.core_shipmentAcked (s : State) (src dst : Place) (k : Packet) (number : Nat) (ts : List Tcb) (p : Place) :
    (s.shipmentAcked src dst k number ts).core p = s.core p :=
  (State.meshOnly_inject (s.dropPacket k.num) dst src .reply k.part 0 (.shipAck number)).core p

/-- A shipment that its thief takes: every TCB of it is pushed. -/
theorem execStealShipment_taken {s : State} {src dst : Place} {k : Packet} {number : Nat} {ts : List Tcb}
    (hk : s.nextPacket src dst .mgmt = some k) (hb : k.body = .shipment number ts)
    (hn : (s.core dst).work.accepted.contains (src, number) = false) :
    ∃ u, exec (.stealShipment src dst) s = .next u ∧ (u.core dst).work = ts.foldl (fun w t => w.push { t with regions := [] })
      { (s.core dst).work with accepted := (s.core dst).work.accepted ++ [(src, number)] } := by
  have hcore := s.core_shipmentAcked src dst k number ts dst
  refine ⟨ts.foldl (fun u t => u.unpack dst t) ((s.shipmentAcked src dst k number ts).modWork dst fun w =>
    { w with accepted := w.accepted ++ [(src, number)] }), ?_, ?_⟩
  · show execStealShipment src dst s = _
    rw [State.shipmentAcked] at hcore
    simp only [execStealShipment, hk, hb, hcore, hn, Bool.false_eq_true, if_false]
    rfl
  · rw [State.work_unpackAll, State.modWork, State.core_modCore, if_pos rfl, hcore]

/-- A TCB of no handler and no launch. -/
def Tcb.blank : Tcb := ⟨0, [], 0, 0, 0, 0, 0, 0, 0, 0, [], 0, PubSet.none⟩

/-- A shipment of two TCBs on arrival at core 0. -/
def twoTcbs : Packet := ⟨4, 8, 0, .mgmt, 0, 0, 0, .shipment 7 [Tcb.blank, Tcb.blank], false, 0, Way.done⟩

/-- Core 0 with a full deque and nothing spilled, and the shipment of two before it. -/
def fullThief : State :=
  { State.reset.modWork 0 fun w => { w with deque := List.replicate 32 Tcb.blank } with
    fab := { Fabric.reset with net := [twoTcbs] } }

end Sys2Proof.Machine

namespace Sys2Proof.Proofs

open Sys2Proof Sys2Proof.Machine

/-- Refutes O46: a shipment of two TCBs that meets a full deque spills two, and the second spilled one is numbered with its
entry of the overflow stack (`Tcb.cell`), so that the thief holds one TCB less of the shipped value than the statement counts,
and one that nobody shipped. -/
theorem not_workIsBalanced : ¬ Obligations.WorkIsBalanced := by
  rintro ⟨hsteal, -⟩
  obtain ⟨-, -, -, -, -, -, -, hship, -⟩ := hsteal fullThief 0 0 8 0 twoTcbs 7 [Tcb.blank, Tcb.blank] ⟨0, 0, [], 0⟩ [] false
  obtain ⟨u, hu, -, -, hnew⟩ := hship ⟨rfl, rfl⟩
  obtain ⟨-, hcount, -⟩ := hnew (by decide)
  obtain ⟨v, hv, hwork⟩ := execStealShipment_taken (s := fullThief) (src := 8) (dst := 0) (k := twoTcbs) rfl rfl rfl
  obtain rfl : u = v := by injection hu.symm.trans hv
  have h := hcount Tcb.blank
  dsimp only at h
  rw [hwork] at h
  revert h
  decide +kernel

end Sys2Proof.Proofs
end

section
/-! Handler descriptors in memory (03 R33 to R35, 22 R306 to R308): what a handler index names depends on memory, on the
module's shape and on the tables of partitions, and on nothing else of the state. -/

namespace Sys2Proof.Machine

section
variable {s t : State} (hm : t.mem = s.mem) (hv : t.variant = s.variant) (hp : t.parts = s.parts)

include hv in
theorem State.nStacks_congr : t.nStacks = s.nStacks := by unfold State.nStacks; rw [hv]

include hv in
theorem State.stationOf_congr (stack port : Nat) : t.stationOf stack port = s.stationOf stack port := by
  unfold State.stationOf; rw [State.nStacks_congr hv]

include hv in
theorem State.slotStation_congr (j : Nat) : t.slotStation j = s.slotStation j := by
  unfold State.slotStation; rw [State.nStacks_congr hv, State.stationOf_congr hv]

include hv in
theorem State.keyOf_congr (base frame a : Nat) : t.keyOf base frame a = s.keyOf base frame a := by
  have hr : t.rank (slotOf a) = s.rank (slotOf a) := by unfold State.rank; rw [State.nStacks_congr hv]
  unfold State.keyOf
  rw [hr, State.slotStation_congr hv]

include hv in
theorem State.replKey_congr (stack frame a : Nat) : t.replKey stack frame a = s.replKey stack frame a := by
  unfold State.replKey; rw [State.stationOf_congr hv]

include hv in
theorem State.leafKey_congr (l : Leaf) (p : Place) (a : Nat) : t.leafKey l p a = s.leafKey l p a := by
  unfold State.leafKey State.replStack
  rw [State.keyOf_congr hv, State.replKey_congr hv, State.nStacks_congr hv]

include hm in
theorem State.hbm64_congr (st a : Nat) : t.hbm64 st a = s.hbm64 st a := by unfold State.hbm64; rw [hm]

include hm hv in
theorem State.walkFrom_congr (a : Nat) (levels : List (Nat × Nat)) (slot tab : Nat) :
    t.walkFrom a levels slot tab = s.walkFrom a levels slot tab := by
  induction levels generalizing slot tab with
  | nil => rfl
  | cons e rest ih =>
    simp only [State.walkFrom, State.slotStation_congr hv, State.hbm64_congr hm, State.leafOf, State.nStacks_congr hv, ih]

include hm hv in
theorem State.walk_congr (procs : Table (BitVec 128)) (proc : BitVec 16) (a : Nat) : t.walk procs proc a = s.walk procs proc a := by
  simp only [State.walk, State.slotStation_congr hv, State.hbm64_congr hm, State.walkFrom_congr hm hv]

include hm hv hp in
theorem State.readByte_congr (pn : Nat) (proc : BitVec 16) (p : Place) (a : Nat) : t.readByte pn proc p a = s.readByte pn proc p a := by
  simp only [State.readByte, State.part, hp, State.walk_congr hm hv, State.leafKey_congr hv, hm]

include hm hv hp in
theorem State.readGv_congr (pn : Nat) (proc : BitVec 16) (p : Place) (a n : Nat) : t.readGv pn proc p a n = s.readGv pn proc p a n := by
  have hb : t.readByte pn proc p = s.readByte pn proc p := funext (State.readByte_congr hm hv hp pn proc p)
  have hk : ∀ l, t.leafKey l p = s.leafKey l p := fun l => funext (State.leafKey_congr hv l p)
  simp only [State.readGv, hb, hk, State.part, hp, State.walk_congr hm hv, hm]

include hm hv hp in
/-- The descriptor that a handler index and generation name. -/
theorem State.handler_congr (pn : Nat) (p : Place) (hidx gen : Nat) : t.handler pn p hidx gen = s.handler pn p hidx gen := by
  have hpart : t.part pn = s.part pn := by unfold State.part; rw [hp]
  simp only [State.handler, State.descAt, hpart, State.readGv_congr hm hv hp]

end

end Sys2Proof.Machine
end

section
/-! The root of a launch at its core (03 R42): each delivery gives the launch the number of its root message. -/

namespace Sys2Proof.Machine

theorem frontEnd_lt (port : Nat) : frontEnd port < 65536 := by
  unfold frontEnd; split <;> decide

/-- The root message is for the launch's handler. -/
theorem Launch.rootMsg_handler (l : Launch) (t : Part) (tick seq : Nat) :
    hdrHidx (l.rootMsg t tick seq).hdr = l.prm.hidx.toNat ∧ hdrGen (l.rootMsg t tick seq).hdr = l.prm.gen.toNat :=
  ⟨hdrHidx_mkHeader (frontEnd_lt _) l.prm.hidx.isLt, hdrGen_mkHeader (frontEnd_lt _) l.prm.hidx.isLt l.prm.gen.isLt⟩

/-- A message for a handler whose features the core has, while the inbox has room, is accepted. -/
theorem State.offered_accepted {s : State} {p : Place} {m : Msg} {d : Desc} (sender num : Nat)
    (hd : s.handler (s.partNo p) p (hdrHidx m.hdr) (hdrGen m.hdr) = some d) (hf : d.freq &&& ~~~ (s.core p).feat = 0)
    (hi : (s.core p).work.inbox.length < 64) : s.offered p m sender num = (s.enterInbox p m sender num, .accepted) := by
  have hoffer : s.offer p m = .accepted := by
    simp only [State.offer, hd, Machine.meets, hf, beq_self_eq_true, Bool.not_true, Bool.false_eq_true, if_false,
      if_neg (Nat.not_le.mpr hi)]
  simp only [State.offered, hoffer]

/-- The state in which a front end has taken the numbers of a root message. -/
def State.rootNumbered (s : State) (pn : Nat) (l : Launch) : State :=
  (s.takeSeq (frontEnd ((s.part pn).portOf (s.part pn).tenant)) l.prm.root.toNat .amsg).nextNumber

/-- An accepted root: its launch is delivered, under the number of this message. -/
theorem State.launch_deliverRoot_accepted {s : State} {pn : Nat} {l : Launch} {d : Desc} (hp : s.partNo l.prm.root.toNat = pn)
    (hd : s.handler pn l.prm.root.toNat l.prm.hidx.toNat l.prm.gen.toNat = some d)
    (hf : d.freq &&& ~~~ (s.core l.prm.root.toNat).feat = 0) (hi : (s.core l.prm.root.toNat).work.inbox.length < 64) :
    ((s.deliverRoot pn l).part pn).launch = some { l with rootNum := s.fab.nextNum, delivered := true } := by
  have hd' : ∀ seq, (s.rootNumbered pn l).handler ((s.rootNumbered pn l).partNo l.prm.root.toNat) l.prm.root.toNat
      (hdrHidx (l.rootMsg (s.part pn) s.tick seq).hdr) (hdrGen (l.rootMsg (s.part pn) s.tick seq).hdr) = some d := fun seq => by
    rw [(l.rootMsg_handler _ _ _).1, (l.rootMsg_handler _ _ _).2, State.handler_congr (s := s) (t := s.rootNumbered pn l) rfl rfl rfl,
      show (s.rootNumbered pn l).partNo l.prm.root.toNat = pn from hp, hd]
  have hoff := fun seq => State.offered_accepted (s := s.rootNumbered pn l) (frontEnd ((s.part pn).portOf (s.part pn).tenant))
    s.fab.nextNum (hd' seq) hf hi
  rw [State.rootNumbered] at hoff
  simp only [State.deliverRoot]
  simp only [Launch.rootMsg] at hoff ⊢
  simp only [hoff, State.part_modPart, if_true]

theorem execRootDelivery_due {s : State} {pn : Nat} {l : Launch} (hl : (s.part pn).launch = some l) (hd : l.delivered = false)
    (ht : l.rootTick ≤ s.tick) : exec (.rootDelivery pn) s = .next (s.deliverRoot pn l) := by
  have hstart : s.startLaunch pn = s := by simp [State.startLaunch, hl]
  show execRootDelivery pn s = _
  simp [execRootDelivery, hstart, hl, hd, Nat.not_lt.mpr ht]

/-- A launch of handler 0, whose root message 4 was refused with a hint of 16 ticks. -/
def refusedLaunch : Launch :=
  { newLaunch ⟨9, 0, 0, 3, [], 0, 0, 208, 0, 0, false⟩ (.host (.pf 0) 0 0) with rootNum := 4, rootTick := 16 }

/-- A partition with that launch in flight, its handler 0 of generation 3 in its code page, and core 0 idle, once the hint is
over; the next number of the mesh is 5. -/
def rootDueState : State :=
  let s := ((State.reset.placed 64 0).modPart 0 fun t => { t with
    attrs := { t.attrs with hcount := 1, htab := 2048 }, launch := some refusedLaunch }).modCore 0 fun c => { c with running := false }
  { s with
    tick := 16
    fab := { s.fab with nextNum := 5 }
    mem := Memory.setAll s.mem ((span (Key.hbm (s.slotStation 0) (20480 + 2048)) 32).zip
      (leBytesOf 32 (2 ^ 160 + 2 ^ 161 + 3 * 2 ^ 152))) }

theorem rootDueState_handler : (rootDueState.handler 0 0 0 3).map (·.freq) = some 0 := by decide +kernel

end Sys2Proof.Machine

namespace Sys2Proof.Proofs

open Sys2Proof Sys2Proof.Machine

/-- Refutes O47: a root that is accepted leaves its launch with the number of this root message (`Launch.rootNum`), where the
statement says that nothing of the launch but `delivered` changes. The launch's root is delivered for a second time here, after
a hint, so that its number moves from 4 to 5. -/
theorem not_launchesStartAndComplete : ¬ Obligations.LaunchesStartAndComplete := by
  intro h
  obtain ⟨-, -, hdelivered, -⟩ := h rootDueState 0 0 0 refusedLaunch [] ⟨0, 0, 0, .amsg, 0, 0, 0, .stealReq, false, 0, Way.done⟩
    (refusedLaunch.rootMsg placedPart 0 0) .as
    ((rootDueState.handler 0 0 0 3).getD (Desc.ofNat 0)) (.pf 0) 0 0 0 [] ⟨none, 0, [], none⟩
  obtain ⟨d, hd, hfreq⟩ := Option.map_eq_some_iff.mp rootDueState_handler
  have hfeat : d.freq &&& ~~~ (rootDueState.core 0).feat = 0 := by rw [hfreq]; exact BitVec.zero_and
  rw [hd, Option.getD_some] at hdelivered
  obtain ⟨u, e, hu, hlaunch, -⟩ := hdelivered ⟨rfl, rfl, by decide, rfl⟩ hd hfeat (by decide)
  have hnum := State.launch_deliverRoot_accepted (s := rootDueState) (pn := 0) (l := refusedLaunch) rfl hd hfeat (by decide)
  rw [execRootDelivery_due rfl rfl (by decide)] at hu
  obtain rfl : rootDueState.deliverRoot 0 refusedLaunch = u := by injection hu
  rw [hnum] at hlaunch
  exact absurd (congrArg (Option.map (·.rootNum)) hlaunch) (by decide)

end Sys2Proof.Proofs
end

section
/-! The candidates of a core and their order (03 R39): what the arbiter's list holds is what the statement of R39 calls a
candidate, and what it takes stands before every other. -/

namespace Sys2Proof.Machine

open Sys2Proof.Claims

/-! ## The order of candidates -/

theorem natsLt_iff (a b : List Nat) : natsLt a b = true ↔ a < b := by
  induction a generalizing b with
  | nil => cases b <;> simp [natsLt]
  | cons x xs ih =>
    cases b with
    | nil => simp [natsLt]
    | cons y ys => simp [natsLt, List.cons_lt_cons_iff, ih]

/-- The order of R39 is that of the ranks; no group of R39's order is as low as the place of those passed over 256 times. -/
theorem Cand.rank_lt_of_before {a b : Cand} (h : before a b) (hb : 1 < b.group) : a.rank < b.rank := by
  unfold before at h
  simp only [Cand.rank, List.cons_lt_cons_iff]
  obtain hcls | ⟨hcls, (⟨ha, hb'⟩ | ⟨ha, hb', hlt⟩ | ⟨ha, hb', hlt⟩)⟩ := h
  · exact .inl hcls
  · exact .inr ⟨hcls, by simp [if_pos ha, if_neg hb', List.cons_lt_cons_iff, hb]⟩
  · refine .inr ⟨hcls, ?_⟩
    simp only [if_pos ha, if_pos hb', List.cons_lt_cons_iff, true_and, lt_self_iff_false, false_or]
    exact hlt.imp_right fun h => ⟨h.1, .inl h.2⟩
  · refine .inr ⟨hcls, ?_⟩
    simpa only [if_neg ha, if_neg hb', List.cons_lt_cons_iff] using hlt

/-- What the arbiter compares: the one of two candidates whose rank is lower, the first among equals. -/
def Cand.better (b x : Cand) : Cand := if natsLt x.rank b.rank then x else b

theorem Cand.better_of_lt {k x : Cand} (h : x = k ∨ k.rank < x.rank) : k.better x = k ∧ x.better k = k := by
  rcases h with rfl | h
  · simp [Cand.better]
  · have hno : natsLt x.rank k.rank = false := Bool.eq_false_iff.mpr fun hx => lt_asymm h ((natsLt_iff _ _).mp hx)
    simp [Cand.better, hno, (natsLt_iff _ _).mpr h]

theorem foldl_better {k : Cand} (cs : List Cand) (b : Cand) (hk : k ∈ b :: cs) (h : ∀ c ∈ b :: cs, c = k ∨ k.rank < c.rank) :
    cs.foldl Cand.better b = k := by
  induction cs generalizing b with
  | nil => exact (List.mem_singleton.mp hk).symm
  | cons x cs ih =>
    obtain ⟨hb, hx, hcs⟩ := (List.forall_mem_cons.trans (and_congr_right' List.forall_mem_cons)).mp h
    have hbetter : b.better x = b ∨ b.better x = x := by unfold Cand.better; split <;> simp
    refine ih (b.better x) ?_ (List.forall_mem_cons.mpr ⟨by rcases hbetter with e | e <;> rw [e] <;> assumption, hcs⟩)
    rcases List.mem_cons.mp hk with rfl | hk
    · exact List.mem_cons.mpr (.inl (Cand.better_of_lt hx).1.symm)
    · rcases List.mem_cons.mp hk with rfl | hk
      · exact List.mem_cons.mpr (.inl (Cand.better_of_lt hb).2.symm)
      · exact List.mem_cons_of_mem _ hk

/-- A candidate whose rank is the lowest is the one that the arbiter takes. -/
theorem bestCand_eq {ks : List Cand} {k : Cand} (hk : k ∈ ks) (h : ∀ c ∈ ks, c ≠ k → k.rank < c.rank) : bestCand ks = some k := by
  cases ks with
  | nil => exact absurd hk List.not_mem_nil
  | cons b cs => exact congrArg some (foldl_better cs b hk fun c hc => or_iff_not_imp_left.mpr (h c hc))

/-! ## Mailboxes -/

/-- A head is a filled slot that is not in flight. -/
theorem Mbx.mem_heads {m : Mbx} {e : Nat × Slot} (h : e ∈ m.heads) : ∃ t o src r v n, e.2 = .filled t o src r v n false := by
  obtain ⟨x, hx, rfl⟩ := List.mem_map.mp h
  obtain ⟨x, i⟩ := x
  have hx := (List.mem_filter.mp hx).2
  cases x with
  | filled t o src r v n flying => exact ⟨t, o, src, r, v, n, by simpa using hx⟩
  | _ => simp at hx

theorem Mbx.head_mem {m : Mbx} {e : Nat × Slot} (h : m.head = some e) : e ∈ m.heads := by
  have hfold : ∀ (f : Nat × Slot → Nat × Slot → Nat × Slot) (es : List (Nat × Slot)) (b : Nat × Slot),
      (∀ a b, f a b = a ∨ f a b = b) → es.foldl f b ∈ b :: es := by
    intro f es b hf
    induction es generalizing b with
    | nil => exact List.mem_cons_self
    | cons x es ih =>
      rcases hf b x with hb | hb <;> rw [List.foldl_cons, hb]
      · rcases List.mem_cons.mp (ih b) with h | h
        · exact List.mem_cons.mpr (.inl h)
        · exact List.mem_cons_of_mem _ (List.mem_cons_of_mem _ h)
      · exact List.mem_cons_of_mem _ (ih x)
  unfold Mbx.head earliest at h
  cases hh : m.heads with
  | nil => simp [hh] at h
  | cons b es =>
    rw [hh] at h
    dsimp only at h
    split at h
    all_goals
      obtain rfl := Option.some.inj h
      exact hfold _ es b fun a c => by split <;> simp

theorem Mbx.head_not_flying {m : Mbx} {j t o src n : Nat} {r v : Lane} {flying : Bool}
    (h : m.head = some (j, .filled t o src r v n flying)) : flying = false := by
  obtain ⟨t', o', src', r', v', n', he⟩ := Mbx.mem_heads (Mbx.head_mem h)
  exact (Slot.filled.inj he).2.2.2.2.2.2

/-- The gate of a mailbox is open. -/
theorem State.gated_eq_false (s : State) (p : Place) (m : Mbx) :
    s.gated p m = false ↔ ∀ g, m.gate = some g → (s.stash p g).full = false := by
  unfold State.gated
  cases m.gate <;> simp

/-- A mailbox's candidate: its handler may be activated, its head is filled, its gate is open and its head is not below the
threshold. -/
theorem State.mbxCand_eq_some (s : State) (p : Place) (i : Nat) (m : Mbx) (c : Cand) :
    s.mbxCand p i m = some c ↔ ∃ j tick order src res ver len, s.mbxHandler p m ≠ none
      ∧ m.head = some (j, .filled tick order src res ver len false) ∧ s.gated p m = false ∧ m.aboveThreshold res = true
      ∧ c = ⟨.mbx i, m.prio - m.up, m.pass, tick, order, if m.residual then 3 else 4,
        if m.residual then [2 ^ 32 - residualKey res, tick, i] else [tick, 1, i]⟩ := by
  constructor
  · intro h
    unfold State.mbxCand at h
    split at h
    · rename_i d j tick order src res ver len flying hd hh
      obtain rfl := Mbx.head_not_flying hh
      refine ⟨j, tick, order, src, res, ver, len, by simp [hd], hh, ?_⟩
      cases hg : s.gated p m <;> cases ha : m.aboveThreshold res <;> simp only [hg, ha, Bool.not_true, Bool.not_false,
        Bool.or_true, Bool.or_false, Bool.false_eq_true, if_true, if_false, reduceCtorEq] at h
      refine ⟨rfl, rfl, ?_⟩
      cases hr : m.residual <;> simp only [hr, Bool.false_eq_true, if_true, if_false] at h ⊢ <;> exact (Option.some.inj h).symm
    · cases h
  · rintro ⟨j, tick, order, src, res, ver, len, hd, hh, hg, ha, rfl⟩
    obtain ⟨d, hd⟩ := Option.ne_none_iff_exists'.mp hd
    unfold State.mbxCand
    rw [hd, hh]
    simp only [hg, ha, Bool.not_true, Bool.or_false, Bool.false_eq_true, if_false]
    split <;> rfl

/-! ## The list of candidates -/

theorem hdrPrio_eq (h : Word) : hdrPrio h = h.toNat / 2 ^ 40 % 4 := by
  rw [hdrPrio, BitVec.extractLsb'_toNat, Nat.shiftRight_eq_div_pow]

/-- The newest TCB of a core's deque as a candidate. -/
def State.dequeCands (s : State) (p : Place) : List Cand :=
  match (s.core p).work.deque.getLast? with
  | some t => if s.spawnBlocks p t.lid then [] else [t.cand]
  | none => []

theorem State.mem_dequeCands (s : State) (p : Place) (c : Cand) :
    c ∈ s.dequeCands p ↔ ∃ t, (s.core p).work.deque.getLast? = some t ∧ s.spawnBlocks p t.lid = false ∧ c = t.cand := by
  unfold State.dequeCands
  cases (s.core p).work.deque.getLast? with
  | none => simp
  | some t => cases hb : s.spawnBlocks p t.lid <;> simp [hb]

theorem State.mem_candidates (s : State) (p : Place) (c : Cand) : c ∈ s.candidates p ↔
    (∃ x ∈ (s.part (s.partNo p)).parked, x.place = p ∧ x.ready = true ∧ c = x.cand)
      ∨ (∃ e ∈ (s.core p).work.cplq, e.ready = true ∧ c = e.cand)
      ∨ (∃ e ∈ (s.core p).work.inbox, s.spawnBlocks p e.msg.lid = false ∧ c = e.cand)
      ∨ (s.spawnBlocks p (s.launchLid (s.partNo p)) = false ∧ ∃ e ∈ (s.core p).objs.mbs, s.mbxCand p e.1 e.2 = some c)
      ∨ c ∈ s.dequeCands p := by
  have hours : c ∈ (if s.spawnBlocks p (s.launchLid (s.partNo p)) then []
      else (s.core p).objs.mbs.filterMap fun e => s.mbxCand p e.1 e.2)
      ↔ s.spawnBlocks p (s.launchLid (s.partNo p)) = false ∧ ∃ e ∈ (s.core p).objs.mbs, s.mbxCand p e.1 e.2 = some c := by
    cases s.spawnBlocks p (s.launchLid (s.partNo p)) <;> simp [List.mem_filterMap]
  have hlist : s.candidates p = ((s.part (s.partNo p)).parked.filter fun k => k.place == p && k.ready).map Parked.cand
      ++ ((s.core p).work.cplq.filter (·.ready)).map CplEntry.cand
      ++ ((s.core p).work.inbox.filter fun e => !s.spawnBlocks p e.msg.lid).map InEntry.cand
      ++ (if s.spawnBlocks p (s.launchLid (s.partNo p)) then [] else (s.core p).objs.mbs.filterMap fun e => s.mbxCand p e.1 e.2)
      ++ s.dequeCands p := rfl
  rw [hlist, List.mem_append, List.mem_append, List.mem_append, List.mem_append, hours]
  simp only [List.mem_map, List.mem_filter, Bool.and_eq_true, beq_iff_eq, Bool.not_eq_true', and_assoc, or_assoc,
    eq_comm (b := c)]

/-- The arbiter's candidates are those of R39. -/
theorem State.mem_candidates_iff_stands (s : State) (p : Place) (c : Cand) : c ∈ s.candidates p ↔ stands s p c := by
  rw [s.mem_candidates]
  constructor
  · rintro (⟨x, hx, hp, hr, rfl⟩ | ⟨e, he, hr, rfl⟩ | ⟨e, he, hb, rfl⟩ | ⟨hb, ⟨i, m⟩, hm, hc⟩ | hd)
    · exact ⟨x, hx, hp, hr, rfl, rfl, rfl, rfl, rfl, rfl, rfl⟩
    · exact ⟨e, he, hr, rfl, rfl, rfl, rfl, rfl, rfl, rfl⟩
    · exact ⟨e, he, hb, rfl, congrArg (· - e.up) (hdrPrio_eq _), rfl, rfl, rfl, rfl, rfl⟩
    · obtain ⟨j, tick, order, src, res, ver, len, hh, hhead, hg, ha, rfl⟩ := (s.mbxCand_eq_some p i m c).mp hc
      refine ⟨hb, m, j, tick, order, src, res, ver, len, hm, hh, hhead, (s.gated_eq_false p m).mp hg, ha, rfl, rfl, rfl, rfl,
        fun hr => ?_, fun hr => ?_⟩ <;> simp [hr, residualKey]
    · obtain ⟨t, ht, hb, rfl⟩ := (s.mem_dequeCands p c).mp hd
      exact ⟨t, ht, hb, rfl, rfl, rfl, rfl, rfl, rfl⟩
  · obtain ⟨what, cls, pass, tick, order, group, key⟩ := c
    cases what with
    | resume sid =>
      rintro ⟨x, hx, hp, hr, rfl, rfl, rfl, rfl, rfl, rfl, rfl⟩
      exact .inl ⟨x, hx, hp, hr, rfl⟩
    | cpl n =>
      rintro ⟨e, he, hr, rfl, rfl, rfl, rfl, rfl, rfl, rfl⟩
      exact .inr (.inl ⟨e, he, hr, rfl⟩)
    | inbox o =>
      rintro ⟨e, he, hb, rfl, rfl, rfl, rfl, rfl, rfl, rfl⟩
      refine .inr (.inr (.inl ⟨e, he, hb, ?_⟩))
      rw [InEntry.cand, hdrPrio_eq]
    | mbx i =>
      rintro ⟨hb, m, j, t, o, src, res, ver, len, hm, hh, hhead, hg, ha, hcls, hpass, htick, horder, hres, hplain⟩
      refine .inr (.inr (.inr (.inl ⟨hb, (i, m), hm, (s.mbxCand_eq_some p i m _).mpr
        ⟨j, t, o, src, res, ver, len, hh, hhead, (s.gated_eq_false p m).mpr hg, ha, ?_⟩⟩)))
      dsimp only at hcls hpass htick horder hres hplain
      cases hr : m.residual
      · obtain ⟨hgroup, hkey⟩ := hplain hr
        simp [hcls, hpass, htick, horder, hgroup, hkey]
      · obtain ⟨hgroup, hkey⟩ := hres hr
        simp [hcls, hpass, htick, horder, hgroup, hkey, residualKey]
    | deque =>
      rintro ⟨t, ht, hb, rfl, rfl, rfl, rfl, rfl, rfl⟩
      exact .inr (.inr (.inr (.inr ((s.mem_dequeCands p _).mpr ⟨t, ht, hb, rfl⟩))))

/-- No candidate's group is as low as the place of those passed over 256 times. -/
theorem State.group_of_mem_candidates {s : State} {p : Place} {c : Cand} (h : c ∈ s.candidates p) : 1 < c.group := by
  rcases (s.mem_candidates p c).mp h with ⟨x, -, -, -, rfl⟩ | ⟨e, -, -, rfl⟩ | ⟨e, -, -, rfl⟩ | ⟨-, e, -, hc⟩ | hd
  · exact (by decide : 1 < 2)
  · exact (by decide : 1 < 4)
  · exact (by decide : 1 < 4)
  · obtain ⟨j, tick, order, src, res, ver, len, -, -, -, -, rfl⟩ := (s.mbxCand_eq_some p _ _ c).mp hc
    dsimp only
    split <;> decide
  · obtain ⟨t, -, -, rfl⟩ := (s.mem_dequeCands p c).mp hd
    exact (by decide : 1 < 5)

/-! ## The handler boundary -/

theorem execActivation_of_not {s : State} {p : Place} (h : s.mayActivate p = false) : exec (.activation p) s = .next s := by
  show execActivation p s = _
  simp only [execActivation, h, Bool.not_false, if_true]

/-- The state in which an idle core's mailboxes whose handlers cannot be activated have been logged. -/
def State.logMailboxes (s : State) (p : Place) : State := (s.objs p).mbs.foldl (fun u e => u.logMbx p e.1) s

theorem execActivation_of_none {s : State} {p : Place} (h : s.mayActivate p = true) (hn : (s.logMailboxes p).candidates p = []) :
    exec (.activation p) s = .next (s.logMailboxes p) := by
  rw [State.logMailboxes] at *
  show execActivation p s = _
  simp only [execActivation, h, Bool.not_true, Bool.false_eq_true, if_false, hn, bestCand]

/-- The candidate that stands before every other is activated, and the others are passed over. -/
theorem execActivation_best {s : State} {p : Place} {k : Cand} (h : s.mayActivate p = true)
    (hk : k ∈ (s.logMailboxes p).candidates p) (hb : ∀ c ∈ (s.logMailboxes p).candidates p, c ≠ k → before k c) :
    exec (.activation p) s
      = .next (((s.logMailboxes p).passOthers p ((s.logMailboxes p).candidates p) k).activate p k) := by
  have hbest : bestCand ((s.logMailboxes p).candidates p) = some k :=
    bestCand_eq hk fun c hc hne => Cand.rank_lt_of_before (hb c hc hne) (State.group_of_mem_candidates hc)
  rw [State.logMailboxes] at *
  show execActivation p s = _
  simp only [execActivation, h, Bool.not_true, Bool.false_eq_true, if_false, hbest]

end Sys2Proof.Machine
end

section
/-! Candidates that are passed over (03 R40): each counts the choices of another, in the place where it waits. -/

namespace Sys2Proof.Machine

open Sys2Proof.Claims

/-! ## A run over the candidates, seen from one of them -/

/-- Of the candidates that a choice passes over, those that are a given thing. -/
def othersOf (ks : List Cand) (k : Cand) (w : Pick) : List Cand :=
  ks.filter fun c => decide (c.what = w) && decide (w ≠ k.what) && decide (k.cls ≤ c.cls)

/-- A value that only the candidates of one thing change, and only while `I` holds of it, is as those candidates leave it. -/
theorem foldl_passed {X : Type} {g : X → Cand → X} {I : X → Prop} {w : Pick} (hI : ∀ x c, I x → I (g x c))
    (hid : ∀ x c, I x → c.what ≠ w → g x c = x) (ks : List Cand) (k : Cand) {x : X} (hx : I x) :
    (ks.filter fun c => c.what != k.what && decide (k.cls ≤ c.cls)).foldl g x = (othersOf ks k w).foldl g x := by
  induction ks generalizing x with
  | nil => rfl
  | cons c ks ih =>
    by_cases hc : c.what = w
    · have hsame : (c.what != k.what && decide (k.cls ≤ c.cls))
          = (decide (c.what = w) && decide (w ≠ k.what) && decide (k.cls ≤ c.cls)) := by
        rw [hc]; by_cases hw : w = k.what <;> simp [hw]
      rw [othersOf, List.filter_cons, List.filter_cons, hsame]
      split
      · exact ih (hI x c hx)
      · exact ih hx
    · have hno : (decide (c.what = w) && decide (w ≠ k.what) && decide (k.cls ≤ c.cls)) = false := by simp [hc]
      rw [othersOf, List.filter_cons, List.filter_cons, hno]
      split
      · rw [List.foldl_cons, hid x c hx hc]
        exact ih hx
      · exact ih hx

/-- A value of the state that each passing over changes by `g`, after all of them. -/
theorem State.passOthers_value {X : Type} {g : X → Cand → X} {I : X → Prop} {w : Pick} (f : State → X) {p : Place}
    (hf : ∀ (u : State) c, f (u.passCand p c) = g (f u) c) (hI : ∀ x c, I x → I (g x c))
    (hid : ∀ x c, I x → c.what ≠ w → g x c = x) (s : State) (ks : List Cand) (k : Cand) (hx : I (f s)) :
    f (s.passOthers p ks k) = (othersOf ks k w).foldl g (f s) := by
  rw [← foldl_passed hI hid ks k hx]
  exact (List.foldl_hom f fun u c => (hf u c).symm).symm

/-- The two cases of the statement of R40: no candidate of the thing, and one. -/
theorem State.passOthers_cases {X : Type} {g : X → Cand → X} {I : X → Prop} {w : Pick} (f : State → X) {p : Place}
    (hf : ∀ (u : State) c, f (u.passCand p c) = g (f u) c) (hI : ∀ x c, I x → I (g x c))
    (hid : ∀ x c, I x → c.what ≠ w → g x c = x) (s : State) (ks : List Cand) (k : Cand) (hx : I (f s)) :
    (othersOf ks k w = [] → f (s.passOthers p ks k) = f s)
      ∧ ∀ c, othersOf ks k w = [c] → f (s.passOthers p ks k) = g (f s) c := by
  have h := s.passOthers_value f hf hI hid ks k hx
  exact ⟨fun he => by rw [h, he]; rfl, fun c he => by rw [h, he]; rfl⟩

theorem mem_of_othersOf {ks : List Cand} {k c : Cand} {w : Pick} (h : othersOf ks k w = [c]) : c.what = w := by
  have hc := (List.mem_filter.mp (h ▸ List.mem_cons_self : c ∈ othersOf ks k w)).2
  simp only [Bool.and_eq_true, decide_eq_true_eq] at hc
  exact hc.1.1

/-! ## What passing over changes, by the place where a candidate waits -/

/-- An inbox entry after one choice. -/
def InEntry.passedBy (e : InEntry) (c : Cand) : InEntry :=
  if c.what = .inbox e.order then { e with pass := (passOver c.cls e.pass e.up).1, up := (passOver c.cls e.pass e.up).2 } else e

/-- A completion after one choice. -/
def CplEntry.passedBy (e : CplEntry) (c : Cand) : CplEntry :=
  if c.what = .cpl e.cmd then { e with pass := (passOver 0 e.pass 0).1 } else e

/-- A parked strand after one choice. -/
def Parked.passedBy (x : Parked) (c : Cand) : Parked :=
  if c.what = .resume x.st.act.sid then { x with pass := (passOver 0 x.pass 0).1 } else x

/-- Mailbox `i` after one choice. -/
def Mbx.passedBy (i : Nat) (m : Mbx) (c : Cand) : Mbx :=
  if c.what = .mbx i then { m with pass := (passOver c.cls m.pass m.up).1, up := (passOver c.cls m.pass m.up).2 } else m

/-- A deque after one choice: its newest TCB counts. -/
def dequePassedBy (ts : List Tcb) (c : Cand) : List Tcb :=
  if c.what = .deque then modLast (fun z => { z with pass := (passOver c.cls z.pass z.up).1, up := (passOver c.cls z.pass z.up).2 }) ts
  else ts

/-- The core after one choice: its work counts it, and otherwise only its mailboxes may have. -/
theorem State.work_passCand (s : State) (p : Place) (c : Cand) : ((s.passCand p c).core p).work = { (s.core p).work with
    inbox := (s.core p).work.inbox.map (·.passedBy c)
    cplq := (s.core p).work.cplq.map (·.passedBy c)
    deque := dequePassedBy (s.core p).work.deque c } := by
  obtain ⟨what, cls, pass, tick, order, group, key⟩ := c
  cases what <;>
    simp [State.passCand, State.modWork, State.setMbx, State.modObjs, InEntry.passedBy, CplEntry.passedBy, dequePassedBy,
      eq_comm]

theorem State.mbx_passCand (s : State) (p : Place) (n : Nat) (c : Cand) : (s.passCand p c).mbx p n = (s.mbx p n).passedBy n c := by
  obtain ⟨what, cls, pass, tick, order, group, key⟩ := c
  cases what with
  | mbx i =>
    by_cases h : n = i
    · subst h
      simp [State.passCand, State.setMbx, State.modObjs, State.mbx, State.objs, Mbx.passedBy]
    · simp [State.passCand, State.setMbx, State.modObjs, State.mbx, State.objs, Mbx.passedBy, Table.get_set_ne, h, Ne.symm h]
  | _ => simp [State.passCand, State.modWork, State.mbx, State.objs, State.modPart, State.setPart, State.core, Mbx.passedBy, State.modCore, State.setCore]

theorem State.partNo_passCand (s : State) (p : Place) (c : Cand) : (s.passCand p c).partNo p = s.partNo p := by
  obtain ⟨what, cls, pass, tick, order, group, key⟩ := c
  cases what <;> simp [State.passCand, State.modWork, State.setMbx, State.modObjs, State.partNo]

theorem State.parked_passCand (s : State) (p : Place) (c : Cand) :
    ((s.passCand p c).part ((s.passCand p c).partNo p)).parked = (s.part (s.partNo p)).parked.map (·.passedBy c) := by
  rw [s.partNo_passCand]
  obtain ⟨what, cls, pass, tick, order, group, key⟩ := c
  cases what <;>
    simp [State.passCand, State.modWork, State.setMbx, State.modObjs, Parked.passedBy, eq_comm]

theorem State.mem_passCand (s : State) (p : Place) (c : Cand) : (s.passCand p c).mem = s.mem := by
  obtain ⟨what, cls, pass, tick, order, group, key⟩ := c
  cases what <;> rfl

/-! ## After a choice -/

/-- An entry of a list whose entries count for themselves: as it was where no candidate is it, and counted once where one is. -/
theorem State.passOthers_entry {X : Type} {step : X → Cand → X} {key : X → Pick} (list : State → List X) {p : Place}
    (hf : ∀ (u : State) c, list (u.passCand p c) = (list u).map fun x => step x c) (hkey : ∀ x c, key (step x c) = key x)
    (hid : ∀ x c, c.what ≠ key x → step x c = x) (s : State) (ks : List Cand) (k : Cand) {n : Nat} {x : X}
    (hx : (list s)[n]? = some x) :
    (othersOf ks k (key x) = [] → (list (s.passOthers p ks k))[n]? = some x)
      ∧ ∀ c, othersOf ks k (key x) = [c] → (list (s.passOthers p ks k))[n]? = some (step x c) := by
  have h := State.passOthers_cases (g := fun o c => o.map fun x => step x c) (I := fun o => ∀ y, o = some y → key y = key x)
    (w := key x) (fun u => (list u)[n]?) (p := p) (fun u c => by rw [hf, List.getElem?_map])
    (fun o c ho y hy => by obtain ⟨z, rfl, rfl⟩ := Option.map_eq_some_iff.mp hy; rw [hkey, ho z rfl])
    (fun o c ho hc => by
      cases o with
      | none => rfl
      | some y => exact congrArg some (hid y c (by rw [ho y rfl]; exact hc)))
    s ks k (fun y hy => by rw [hx] at hy; exact congrArg key (Option.some.inj hy).symm)
  simpa only [hx, Option.map_some] using h

theorem State.inbox_passOthers (s : State) {p : Place} (ks : List Cand) (k : Cand) {n : Nat} {e : InEntry}
    (he : (s.core p).work.inbox[n]? = some e) :
    (othersOf ks k (.inbox e.order) = [] → ((s.passOthers p ks k).core p).work.inbox[n]? = some e)
      ∧ ∀ c, othersOf ks k (.inbox e.order) = [c] → ((s.passOthers p ks k).core p).work.inbox[n]? = some { e with
          pass := (Claims.passed c.cls e.pass e.up).1, up := (Claims.passed c.cls e.pass e.up).2 } := by
  obtain ⟨h0, h1⟩ := State.passOthers_entry (step := InEntry.passedBy) (key := fun e => .inbox e.order)
    (fun u => (u.core p).work.inbox) (fun u c => by rw [State.work_passCand])
    (fun e c => by unfold InEntry.passedBy; split <;> rfl) (fun e c hc => if_neg hc) s ks k he
  exact ⟨h0, fun c hc => (h1 c hc).trans (congrArg some (if_pos (mem_of_othersOf hc)))⟩

theorem State.cplq_passOthers (s : State) {p : Place} (ks : List Cand) (k : Cand) {n : Nat} {e : CplEntry}
    (he : (s.core p).work.cplq[n]? = some e) :
    (othersOf ks k (.cpl e.cmd) = [] → ((s.passOthers p ks k).core p).work.cplq[n]? = some e)
      ∧ ∀ c, othersOf ks k (.cpl e.cmd) = [c] → ((s.passOthers p ks k).core p).work.cplq[n]? = some { e with
          pass := (Claims.passed 0 e.pass 0).1 } := by
  obtain ⟨h0, h1⟩ := State.passOthers_entry (step := CplEntry.passedBy) (key := fun e => .cpl e.cmd)
    (fun u => (u.core p).work.cplq) (fun u c => by rw [State.work_passCand])
    (fun e c => by unfold CplEntry.passedBy; split <;> rfl) (fun e c hc => if_neg hc) s ks k he
  exact ⟨h0, fun c hc => (h1 c hc).trans (congrArg some (if_pos (mem_of_othersOf hc)))⟩

theorem State.partNo_passOthers (s : State) (p : Place) (ks : List Cand) (k : Cand) : (s.passOthers p ks k).partNo p = s.partNo p :=
  List.foldlRecOn (motive := fun u : State => u.partNo p = s.partNo p) _ _ rfl fun u hu c _ => (u.partNo_passCand p c).trans hu

theorem State.mem_passOthers (s : State) (p : Place) (ks : List Cand) (k : Cand) : (s.passOthers p ks k).mem = s.mem :=
  List.foldlRecOn (motive := fun u : State => u.mem = s.mem) _ _ rfl fun u hu c _ => (u.mem_passCand p c).trans hu

theorem State.parked_passOthers (s : State) {p : Place} (ks : List Cand) (k : Cand) {n : Nat} {y : Parked}
    (hy : (s.part (s.partNo p)).parked[n]? = some y) :
    (othersOf ks k (.resume y.st.act.sid) = [] → ((s.passOthers p ks k).part (s.partNo p)).parked[n]? = some y)
      ∧ ∀ c, othersOf ks k (.resume y.st.act.sid) = [c] → ((s.passOthers p ks k).part (s.partNo p)).parked[n]? = some { y with
          pass := (Claims.passed 0 y.pass 0).1 } := by
  obtain ⟨h0, h1⟩ := State.passOthers_entry (step := Parked.passedBy) (key := fun y => .resume y.st.act.sid)
    (fun u => (u.part (u.partNo p)).parked) (fun u c => u.parked_passCand p c)
    (fun e c => by unfold Parked.passedBy; split <;> rfl) (fun e c hc => if_neg hc) s ks k hy
  rw [s.partNo_passOthers] at h0 h1
  exact ⟨h0, fun c hc => (h1 c hc).trans (congrArg some (if_pos (mem_of_othersOf hc)))⟩

theorem State.mbx_passOthers (s : State) (p : Place) (ks : List Cand) (k : Cand) (n : Nat) :
    (othersOf ks k (.mbx n) = [] → (s.passOthers p ks k).mbx p n = s.mbx p n)
      ∧ ∀ c, othersOf ks k (.mbx n) = [c] → (s.passOthers p ks k).mbx p n = { s.mbx p n with
          pass := (Claims.passed c.cls (s.mbx p n).pass (s.mbx p n).up).1, up := (Claims.passed c.cls (s.mbx p n).pass (s.mbx p n).up).2 } := by
  obtain ⟨h0, h1⟩ := State.passOthers_cases (g := Mbx.passedBy n) (I := fun _ => True) (w := .mbx n) (fun u => u.mbx p n) (p := p)
    (fun u c => u.mbx_passCand p n c) (fun _ _ _ => trivial) (fun m c _ hc => if_neg hc) s ks k trivial
  exact ⟨h0, fun c hc => (h1 c hc).trans (if_pos (mem_of_othersOf hc))⟩

/-- The last of a list changed. -/
theorem modLast_of_getLast? {α : Type} (f : α → α) {l : List α} {a : α} (h : l.getLast? = some a) : modLast f l = l.dropLast ++ [f a] := by
  induction l with
  | nil => cases h
  | cons x l ih =>
    cases l with
    | nil => rw [List.getLast?_singleton, Option.some.injEq] at h; subst h; rfl
    | cons y l => rw [List.getLast?_cons_cons] at h; show x :: modLast f (y :: l) = _; rw [ih h]; rfl

theorem State.deque_passOthers (s : State) (p : Place) (ks : List Cand) (k : Cand) :
    (othersOf ks k .deque = [] → ((s.passOthers p ks k).core p).work.deque = (s.core p).work.deque)
      ∧ ∀ c z, othersOf ks k .deque = [c] → (s.core p).work.deque.getLast? = some z →
          ((s.passOthers p ks k).core p).work.deque = (s.core p).work.deque.dropLast ++ [{ z with
            pass := (Claims.passed c.cls z.pass z.up).1, up := (Claims.passed c.cls z.pass z.up).2 }] := by
  obtain ⟨h0, h1⟩ := State.passOthers_cases (g := dequePassedBy) (I := fun _ => True) (w := .deque) (fun u => (u.core p).work.deque)
    (p := p) (fun u c => by rw [State.work_passCand]) (fun _ _ _ => trivial) (fun m c _ hc => if_neg hc) s ks k trivial
  refine ⟨h0, fun c z hc hz => (h1 c hc).trans ?_⟩
  rw [dequePassedBy, if_pos (mem_of_othersOf hc), modLast_of_getLast? _ hz]
  rfl

end Sys2Proof.Machine
end

section
/-! A strand that starts (03 R36, 07 R101): its registers, and what of its core and of the state its start leaves alone. -/

namespace Sys2Proof.Machine

open Sys2Proof.Claims

/-! ## The registers of a new strand -/

/-- s1 to s6 hold the payload, s7 the header, s8 the work id, and the others zero. -/
theorem Start.regs_getElem (x : Start) (n : Nat) (h : n < 64) : x.regs[n] =
    if n = 0 then 0 else if n ≤ 6 then x.payload.getD (n - 1) 0 else if n = 7 then x.hdr else if n = 8 then x.wid else 0 := by
  have hregs : x.regs = (((((((((Vector.replicate 64 (0 : Word)).set 7 x.hdr).set 8 x.wid).set 1 (x.payload.getD 0 0)).set 2
      (x.payload.getD 1 0)).set 3 (x.payload.getD 2 0)).set 4 (x.payload.getD 3 0)).set 5 (x.payload.getD 4 0)).set 6
      (x.payload.getD 5 0)) := rfl
  rw [hregs]
  simp only [Vector.getElem_set, Vector.getElem_replicate]
  rcases Nat.lt_or_ge 8 n with hn | hn
  · simp only [show ¬ 1 = n by omega, show ¬ 2 = n by omega, show ¬ 3 = n by omega, show ¬ 4 = n by omega, show ¬ 5 = n by omega,
      show ¬ 6 = n by omega, show ¬ 7 = n by omega, show ¬ 8 = n by omega, show ¬ n = 0 by omega, show ¬ n ≤ 6 by omega,
      show ¬ n = 7 by omega, show ¬ n = 8 by omega, if_false]
  · interval_cases n <;> rfl

/-- A part of a new strand at its entry. -/
theorem Start.seq_present (x : Start) (entry : Nat) : x.seq true entry
    = { Seq.reset with present := true, ended := false, pc := entry, s := x.regs } := rfl

theorem Start.readS_seq (x : Start) (entry : Nat) (r : Reg) : (x.seq true entry).readS r =
    if r.val = 0 then 0 else if r.val ≤ 6 then x.payload.getD (r.val - 1) 0 else if r.val = 7 then x.hdr
      else if r.val = 8 then x.wid else 0 := by
  rw [Start.seq_present, Seq.readS]
  by_cases h : r.val = 0
  · rw [if_pos h, if_pos h]
  · rw [if_neg h, show Seq.file _ = x.regs from rfl, x.regs_getElem r.val r.isLt]

/-- The registers that the statement of R36 names. -/
theorem Start.seq_spec (x : Start) {present : Bool} (entry : Nat) (h : (x.seq present entry).present = true) :
    (x.seq present entry).ended = false ∧ (x.seq present entry).level = .user ∧ (x.seq present entry).inTrap = false
      ∧ (x.seq present entry).pc = entry
      ∧ (∀ i : Fin 6, (x.seq present entry).readS (⟨i.val + 1, by omega⟩ : Reg) = x.payload.getD i.val 0)
      ∧ (x.seq present entry).readS 7 = x.hdr ∧ (x.seq present entry).readS 8 = x.wid
      ∧ (∀ r : Reg, 8 < r.val → (x.seq present entry).readS r = 0)
      ∧ (∀ k : Fin 8, k.val ≠ 0 → (x.seq present entry).readK k = 0) ∧ (x.seq present entry).lc0.count = 0
      ∧ (x.seq present entry).lc1.count = 0 := by
  cases present with
  | false => exact absurd h Bool.false_ne_true
  | true =>
    refine ⟨rfl, rfl, rfl, rfl, fun i => ?_, ?_, ?_, fun r hr => ?_, fun k hk => ?_, rfl, rfl⟩
    · rw [x.readS_seq, if_neg (Nat.succ_ne_zero _), if_pos (by dsimp only; omega), Nat.add_sub_cancel]
    · rw [x.readS_seq]; rfl
    · rw [x.readS_seq]; rfl
    · rw [x.readS_seq, if_neg (by omega), if_neg (by omega), if_neg (by omega), if_neg (by omega)]
    · rw [Start.seq_present, Seq.readK, if_neg hk]
      exact Vector.getElem_replicate _

/-! ## The start -/

theorem State.cores_logEntries (s : State) (p : Place) (es : List Lane) : (s.logEntries p es).cores = s.cores :=
  List.foldlRecOn (motive := fun u : State => u.cores = s.cores) es _ rfl fun _ hu _ _ => hu

theorem State.nextSid_logEntries (s : State) (p : Place) (es : List Lane) : (s.logEntries p es).nextSid = s.nextSid :=
  List.foldlRecOn (motive := fun u : State => u.nextSid = s.nextSid) es _ rfl fun _ hu _ _ => hu

theorem State.fab_logEntries (s : State) (p : Place) (es : List Lane) : (s.logEntries p es).fab = s.fab :=
  List.foldlRecOn (motive := fun u : State => u.fab = s.fab) es _ rfl fun _ hu _ _ => hu

/-- The watchdog budget of a handler's strand (22 R299). -/
def State.budgetOf (s : State) (p : Place) (d : Desc) : Nat := if d.wdogo = 0 then (s.partOf p).attrs.wdogDef else d.wdogo

/-- The core on which a strand has started. -/
theorem State.core_start (s : State) (p : Place) (d : Desc) (x : Start) : ∃ (u : State) (l : List ObjRef) (g : Nat),
    (s.start p d x).core p = ({ s.core p with running := true, st := x.strand u d (s.budgetOf p d) l, interval := 0 } : Core).adopt g := by
  have hcore : ∀ (v : State) (f : Core → Core) (n : Nat), v.cores = s.cores →
      ({ v.modCore p f with nextSid := n } : State).core p = f (s.core p) := fun v f n hv => by
    show (v.modCore p f).core p = _
    rw [State.core_modCore, if_pos rfl, State.core, hv]
    rfl
  exact ⟨_, _, _, hcore _ _ _ (s.cores_logEntries p _)⟩

/-- A start leaves the work and the objects of its core alone. -/
theorem State.start_frame (s : State) (p : Place) (d : Desc) (x : Start) :
    ((s.start p d x).core p).work = (s.core p).work ∧ ((s.start p d x).core p).objs = (s.core p).objs
      ∧ (s.start p d x).nextSid = s.nextSid + 1 := by
  obtain ⟨u, l, g, h⟩ := s.core_start p d x
  refine ⟨by rw [h]; rfl, by rw [h]; rfl, ?_⟩
  simp only [State.start]
  show (State.logEntries _ _ _).nextSid + 1 = _
  rw [State.nextSid_logEntries]

/-- The header and the transfer id of a strand that has started. -/
theorem State.csr_start (s : State) (p : Place) (d : Desc) (x : Start) :
    ((s.start p d x).strand p).csr.hid = x.hdr ∧ ((s.start p d x).strand p).csr.xferid = x.xid := by
  obtain ⟨u, l, g, h⟩ := s.core_start p d x
  rw [State.strand, h]
  exact ⟨rfl, rfl⟩

/-- A strand that has started is as R36 and 07 R101 say. `s` is the state before its activation, whose default budget
holds. -/
theorem State.started_start {s t : State} {p : Place} (ht : (t.partOf p).attrs = (s.partOf p).attrs) (d : Desc) (x : Start) :
    Started s (t.start p d x) p d x.hdr x.wid x.wfw x.payload x.proc x.lid x.deadline x.owed := by
  obtain ⟨u, l, g, h⟩ := t.core_start p d x
  have hst : (t.start p d x).strand p = x.strand u d (t.budgetOf p d) l := by rw [State.strand, h]; rfl
  have hbudget : t.budgetOf p d = if d.wdogo = 0 then (s.partOf p).attrs.wdogDef else d.wdogo := by rw [State.budgetOf, ht]
  unfold Started
  rw [h, hst]
  have hpart : ∀ present entry, (x.seq present entry).present = present := fun present entry => by cases present <;> rfl
  refine ⟨rfl, rfl, rfl, rfl, hpart _ _, hpart _ _, fun q hq => ?_, rfl, rfl, rfl, rfl, rfl, congrArg (BitVec.ofNat 16) hbudget, congrArg (BitVec.ofNat 16) hbudget,
    rfl, rfl, rfl, rfl, rfl, fun j => ?_, rfl, fun j => ⟨?_, ?_⟩, rfl, rfl, rfl⟩
  · cases q
    · exact x.seq_spec d.asent hq
    · exact x.seq_spec d.xsent hq
  · exact Vector.getElem_replicate _
  · exact Vector.getElem_replicate _
  · exact Vector.getElem_replicate _

end Sys2Proof.Machine
end

section
/-! What becomes of each kind of candidate (03 R35, R36, R44, R60; 10 R159; 14 R219): the strand that starts or resumes, or
what is sent on. -/

namespace Sys2Proof.Machine

open Sys2Proof.Claims

/-! ## Answers -/

/-- The answer to a request on REPLY touches the fabric, the meters and the published sets. -/
theorem State.core_answerTo (s : State) (k : Packet) (q : SeqId) (a : Answer) (p : Place) : (s.answerTo k q a).core p = s.core p := by
  have hinject : ∀ u : State, u.cores = s.cores → (u.inject k.dst k.src .reply k.part 0 (.answer q a)).core p = s.core p := fun u hu => by
    rw [(u.meshOnly_inject k.dst k.src .reply k.part 0 (.answer q a)).core p, State.core, hu]; rfl
  simp only [State.answerTo]
  split <;> exact hinject _ rfl

/-- The answer travels to the sender, under the number of what it answers. -/
theorem State.mem_net_answerTo (s : State) (k : Packet) (q : SeqId) (a : Answer) : ∃ r ∈ (s.answerTo k q a).fab.net,
    r.src = k.dst ∧ r.dst = k.src ∧ r.vn = .reply ∧ r.body = .answer q a ∧ r.sid = k.num := by
  have hinject : ∀ u : State, ∃ r ∈ (u.inject k.dst k.src .reply k.part 0 (.answer q a)).fab.net.map
      (fun p => if p.num = u.fab.nextNum then { p with num := p.num, sid := k.num } else p),
      r.src = k.dst ∧ r.dst = k.src ∧ r.vn = .reply ∧ r.body = .answer q a ∧ r.sid = k.num := fun u =>
    ⟨_, List.mem_map_of_mem (u.mem_net_inject k.dst k.src .reply k.part 0 (.answer q a)), by
      rw [if_pos (by rfl : (u.packetOf k.dst k.src .reply k.part 0 (.answer q a)).num = u.fab.nextNum)]
      exact ⟨rfl, rfl, rfl, rfl, rfl⟩⟩
  simp only [State.answerTo]
  split <;> exact hinject _

theorem State.cores_logDesc (s : State) (pn : Nat) (p : Place) (hidx : Nat) : (s.logDesc pn p hidx).cores = s.cores := by
  unfold State.logDesc
  split
  · split <;> rfl
  · rfl

/-- The nearest core that meets a mask depends on the features of cores and on the partition. -/
theorem State.nearest_congr {s t : State} {p : Place} (hf : ∀ q, (t.core q).feat = (s.core q).feat) (hp : t.partOf p = s.partOf p)
    (need : BitVec 16) : t.nearest p need = s.nearest p need := by
  simp only [State.nearest, hp, hf]

/-! ## Inbox entries (03 R35, R36) -/

/-- The state in which an inbox entry has been taken. -/
def State.withoutEntry (s : State) (p : Place) (order : Nat) : State :=
  s.modWork p fun w => { w with inbox := w.inbox.filter fun x => x.order != order }

theorem State.core_withoutEntry (s : State) (p q : Place) (order : Nat) : (s.withoutEntry p order).core q = if q = p then
    { s.core p with work := { (s.core p).work with inbox := (s.core p).work.inbox.filter fun x => x.order != order } }
    else s.core q := State.core_modCore _ _ _ _

theorem State.partNo_withoutEntry (s : State) (p : Place) (order : Nat) : (s.withoutEntry p order).partNo p = s.partNo p := by
  rw [State.partNo, State.core_withoutEntry, if_pos rfl]; rfl

theorem State.handler_withoutEntry (s : State) (pn : Nat) (p q : Place) (order hidx gen : Nat) :
    (s.withoutEntry p order).handler pn q hidx gen = s.handler pn q hidx gen :=
    State.handler_congr (s := s) (t := s.withoutEntry p order) rfl rfl rfl pn q hidx gen

theorem State.feat_withoutEntry (s : State) (p q : Place) (order : Nat) : ((s.withoutEntry p order).core q).feat = (s.core q).feat := by
  rw [State.core_withoutEntry]
  split
  · rename_i e; rw [e]
  · rfl

theorem State.nearest_withoutEntry (s : State) (p : Place) (order : Nat) (need : BitVec 16) :
    (s.withoutEntry p order).nearest p need = s.nearest p need := by
  refine State.nearest_congr (fun q => s.feat_withoutEntry p q order) ?_ need
  rw [State.partOf, s.partNo_withoutEntry]; rfl

theorem State.activate_inbox {s : State} {p : Place} {k : Cand} {e : InEntry} (hk : k.what = .inbox e.order)
    (he : (s.core p).work.inbox.find? (fun c => c.order == e.order) = some e) : s.activate p k = s.activateInbox p e := by
  simp only [State.activate, hk, he]

section
variable {s : State} {p : Place} {e : InEntry} {d : Desc}

theorem State.activateInbox_gone (h : s.handler (s.partNo p) p (hdrHidx e.msg.hdr) (hdrGen e.msg.hdr) = none) :
    s.activateInbox p e = ((s.withoutEntry p e.order).logDesc (s.partNo p) p (hdrHidx e.msg.hdr)).sendStale p e := by
  have h' := (s.handler_withoutEntry (s.partNo p) p p e.order _ _).trans h
  rw [State.withoutEntry] at h' ⊢
  simp only [State.activateInbox, h']

/-- What the strand of a message is given. -/
def InEntry.start (e : InEntry) (d : Desc) (tick : Nat) : Start :=
  ⟨e.msg.hdr, e.msg.payload, e.msg.wid, e.msg.wfw, e.msg.proc, e.msg.lid, d.deadline tick e.msg, e.msg.xid, e.msg.owes⟩

theorem State.activateInbox_starts (h : s.handler (s.partNo p) p (hdrHidx e.msg.hdr) (hdrGen e.msg.hdr) = some d)
    (hf : d.freq &&& ~~~ (s.core p).feat = 0 ∨ s.nearest p d.freq = none) :
    s.activateInbox p e = ((s.withoutEntry p e.order).movePub (.packet e.num) (.strand s.nextSid)).start p d (e.start d s.tick) := by
  have h' := (s.handler_withoutEntry (s.partNo p) p p e.order _ _).trans h
  have haway : (if Machine.meets ((s.withoutEntry p e.order).core p).feat d.freq = true then none
      else (s.withoutEntry p e.order).nearest p d.freq) = none := by
    rw [s.feat_withoutEntry, s.nearest_withoutEntry, Machine.meets]
    rcases hf with hf | hf
    · rw [if_pos (beq_iff_eq.mpr hf)]
    · rw [hf, ite_self]
  rw [State.withoutEntry] at h' haway ⊢
  simp only [State.activateInbox, h', haway]
  rfl

theorem State.activateInbox_sent {q : Place} (h : s.handler (s.partNo p) p (hdrHidx e.msg.hdr) (hdrGen e.msg.hdr) = some d)
    (hf : ¬ d.freq &&& ~~~ (s.core p).feat = 0) (hq : s.nearest p d.freq = some q) :
    s.activateInbox p e = (s.withoutEntry p e.order).inject p q .amsg (s.partNo p) 0
      (.active { e.msg with pass := e.pass, up := e.up } none (some (e.sender, e.num))) := by
  have h' := (s.handler_withoutEntry (s.partNo p) p p e.order _ _).trans h
  have hf' : Machine.meets ((s.withoutEntry p e.order).core p).feat d.freq = false := by
    rw [s.feat_withoutEntry, Machine.meets]; exact beq_false_of_ne hf
  have hq' := (s.nearest_withoutEntry p e.order d.freq).trans hq
  rw [State.withoutEntry] at h' hf' hq' ⊢
  simp only [State.activateInbox, h', hf', Bool.false_eq_true, if_false, hq']

end

theorem State.core_sendStale (s : State) (p q : Place) (e : InEntry) : (s.sendStale p e).core q = s.core q := s.core_answerTo _ _ _ _

/-- Whatever becomes of an inbox entry, it has left the inbox. -/
theorem State.inbox_activateInbox (s : State) (p : Place) (e : InEntry) :
    ((s.activateInbox p e).core p).work.inbox = (s.core p).work.inbox.filter fun c => c.order != e.order := by
  have hcore : ∀ u : State, u.cores = (s.withoutEntry p e.order).cores →
      (u.core p).work.inbox = (s.core p).work.inbox.filter fun c => c.order != e.order := fun u hu => by
    rw [show u.core p = (s.withoutEntry p e.order).core p by unfold State.core; rw [hu], s.core_withoutEntry, if_pos rfl]
  cases h : s.handler (s.partNo p) p (hdrHidx e.msg.hdr) (hdrGen e.msg.hdr) with
  | none =>
    rw [State.activateInbox_gone h, State.core_sendStale]
    exact hcore _ (State.cores_logDesc _ _ _ _)
  | some d =>
    have hstart : ∀ x, ((((s.withoutEntry p e.order).movePub (.packet e.num) (.strand s.nextSid)).start p d x).core p).work.inbox
        = (s.core p).work.inbox.filter fun c => c.order != e.order := fun x => by
      rw [(State.start_frame _ p d x).1]
      exact hcore _ rfl
    by_cases hf : d.freq &&& ~~~ (s.core p).feat = 0
    · rw [State.activateInbox_starts h (.inl hf), hstart]
    · cases hq : s.nearest p d.freq with
      | some q =>
        rw [State.activateInbox_sent h hf hq]
        exact hcore _ (State.meshOnly_inject _ _ _ _ _ _ _).cores
      | none => rw [State.activateInbox_starts h (.inr hq), hstart]

end Sys2Proof.Machine
end

section
/-! The strands of completions, TCBs and mailboxes, and a parked strand that resumes (03 R44, R45, R60, R61; 10 R159; 14
R219). -/

namespace Sys2Proof.Machine

open Sys2Proof.Claims

/-! ## Completions (14 R219) -/

/-- The state in which a completion has been taken. -/
def State.withoutCpl (s : State) (p : Place) (cmd : Nat) : State :=
  s.modWork p fun w => { w with cplq := w.cplq.filter fun x => x.cmd != cmd }

theorem State.core_withoutCpl (s : State) (p : Place) (cmd : Nat) : (s.withoutCpl p cmd).core p =
    { s.core p with work := { (s.core p).work with cplq := (s.core p).work.cplq.filter fun x => x.cmd != cmd } } :=
  (State.core_modCore _ _ _ _).trans (if_pos rfl)

/-- What the strand of a completion is given. -/
def Cmd.cplStart (c : Cmd) (y : CplEntry) : Start :=
  let m := c.completion y.stat y.pass
  ⟨m.hdr, m.payload, m.wid, m.wfw, m.proc, m.lid, 0, m.xid, none⟩

theorem Cmd.completion_handler (c : Cmd) (stat pass : Nat) :
    hdrHidx (c.completion stat pass).hdr = c.word 4 2 ∧ hdrGen (c.completion stat pass).hdr = c.word 6 1
      ∧ (c.completion stat pass).hdr.toNat % 65536 = c.eng.place.toNat :=
  have hidx : bitsAt (leOf c.blk) 32 16 < 65536 := Nat.mod_lt _ (by decide)
  have hgen : bitsAt (leOf c.blk) 48 8 < 256 := Nat.mod_lt _ (by decide)
  ⟨hdrHidx_mkHeader c.eng.place.isLt hidx, hdrGen_mkHeader c.eng.place.isLt hidx hgen, hdrSrc_mkHeader c.eng.place.isLt⟩

theorem Cmd.xid_eq (c : Cmd) : c.xid = leOf c.blk % 2 ^ 32 := by
  show leOf c.blk / 2 ^ 0 % 2 ^ 32 = _
  rw [Nat.pow_zero, Nat.div_one]

theorem Cmd.completion_payload (c : Cmd) (stat pass : Nat) : (c.completion stat pass).payload =
    [BitVec.ofNat 64 stat, BitVec.ofNat 64 c.xid, BitVec.ofNat 64 (c.eng.pblk.toNat * 16), 0, 0, 0] := by
  rw [c.xid_eq]; rfl

theorem Cmd.completion_xid (c : Cmd) (stat pass : Nat) : (c.completion stat pass).xid = BitVec.ofNat 32 c.xid := by
  rw [c.xid_eq]
  exact BitVec.eq_of_toNat_eq (by simp [Cmd.completion, BitVec.toNat_ofNat])

theorem State.activate_cpl {s : State} {p : Place} {k : Cand} {y : CplEntry} {c : Cmd} {d : Desc} (hk : k.what = .cpl y.cmd)
    (hy : (s.core p).work.cplq.find? (fun z => z.cmd == y.cmd) = some y) (hc : s.cmd y.cmd = some c)
    (hd : s.handler (s.partNo p) p (c.word 4 2) (c.word 6 1) = some d) (hf : d.freq &&& ~~~ (s.core p).feat = 0) :
    s.activate p k = ((s.withoutCpl p y.cmd).movePub (.done c.id) (.strand s.nextSid)).start p d (c.cplStart y) := by
  obtain ⟨hhidx, hhgen, -⟩ := c.completion_handler y.stat y.pass
  have hc' : (s.withoutCpl p y.cmd).cmd y.cmd = some c := hc
  have hd' : (s.withoutCpl p y.cmd).handler (s.partNo p) p (c.word 4 2) (c.word 6 1) = some d :=
    (State.handler_congr (s := s) (t := s.withoutCpl p y.cmd) rfl rfl rfl (s.partNo p) p _ _).trans hd
  have hf' : Machine.meets ((s.withoutCpl p y.cmd).core p).feat d.freq = true := by
    rw [s.core_withoutCpl, Machine.meets]; exact beq_iff_eq.mpr hf
  simp only [State.activate, hk, hy]
  rw [State.withoutCpl] at hc' hd' hf' ⊢
  simp only [State.activateCpl, hc', hhidx, hhgen, hd', hf', if_true]
  rfl

/-! ## TCBs (03 R44, R45) -/

/-- A refilled deque: it holds 24 where the overflow stack has so many, and nothing has changed where nothing is spilled. -/
theorem Work.refill_deque (w : Work) : (w.overflow = [] → w.refill.deque = w.deque)
    ∧ (w.deque.length ≤ 16 → w.refill.deque.length = min 24 (w.deque.length + w.overflow.length)) := by
  refine ⟨fun h => by simp [Work.refill, h], fun h => ?_⟩
  unfold Work.refill
  split
  · simp only [List.length_append, List.length_drop]
    omega
  · rename_i hno
    have hnil : w.overflow = [] := by_contra fun hne => hno ⟨h, hne⟩
    rw [hnil, List.length_nil]
    omega

/-- The deque from which its newest TCB has gone, and which the micro-kernel has refilled. -/
def State.afterNewest (s : State) (p : Place) : State := (s.modWork p fun w => { w with deque := w.deque.dropLast }).refillDeque p

theorem State.afterNewest_deque (s : State) (p : Place) :
    (16 < (s.core p).work.deque.length - 1 ∨ (s.core p).work.overflow.length = 0 →
        ((s.afterNewest p).core p).work.deque = (s.core p).work.deque.dropLast)
      ∧ ((s.core p).work.deque.length - 1 ≤ 16 → ((s.afterNewest p).core p).work.deque.length
          = min 24 ((s.core p).work.deque.length - 1 + (s.core p).work.overflow.length)) := by
  let u := s.modWork p fun w => { w with deque := w.deque.dropLast }
  have hu : (u.core p).work = { (s.core p).work with deque := (s.core p).work.deque.dropLast } := by
    show ((s.modCore p _).core p).work = _
    rw [State.core_modCore, if_pos rfl]
  have hlen : (u.core p).work.deque.length = (s.core p).work.deque.length - 1 := by rw [hu]; exact List.length_dropLast
  have hafter : ((s.afterNewest p).core p).work = if (u.core p).work.deque.length ≤ 16 then (u.reread p).refill else (u.core p).work := by
    show ((u.modCore p _).core p).work = _
    rw [State.core_modCore, if_pos rfl]
  have hre : (u.reread p).deque = (u.core p).work.deque ∧ (u.reread p).overflow.length = (u.core p).work.overflow.length :=
    ⟨rfl, List.length_map _⟩
  have hover : (u.core p).work.overflow = (s.core p).work.overflow := by rw [hu]
  obtain ⟨hnil, hfill⟩ := (u.reread p).refill_deque
  rw [hafter, ← hlen]
  refine ⟨fun h => ?_, fun h => ?_⟩
  · by_cases h16 : (u.core p).work.deque.length ≤ 16
    · rw [if_pos h16, hnil, hre.1, hu]
      exact List.eq_nil_of_length_eq_zero (by rw [hre.2, hover]; omega)
    · rw [if_neg h16, hu]
  · rw [if_pos h, hfill (by rw [hre.1]; exact h), hre.1, hre.2, hover]

/-- What the strand of a TCB is given. -/
def Tcb.start (t : Tcb) : Start :=
  ⟨mkHeader 0 false false false true t.prio t.gen t.hidx t.src, t.payload, t.wid, t.wfw, t.proc, t.lid, 0, 0, none⟩

theorem State.activate_tcb {s : State} {p : Place} {k : Cand} {t : Tcb} {d : Desc} (hk : k.what = .deque)
    (ht : (s.core p).work.deque.getLast? = some t) (hd : s.handler (s.partNo p) p t.hidx t.gen = some d) :
    s.activate p k = ((s.afterNewest p).addPub (.strand s.nextSid) t.pub).start p d t.start := by
  have hd' : (s.afterNewest p).handler (s.partNo p) p t.hidx t.gen = some d :=
    (State.handler_congr (s := s) (t := s.afterNewest p) rfl rfl rfl (s.partNo p) p t.hidx t.gen).trans hd
  simp only [State.activate, hk]
  rw [State.afterNewest] at hd' ⊢
  simp only [State.activateTcb, ht, hd']
  rfl

/-- The header of a TCB's strand. -/
theorem Tcb.start_hdr (t : Tcb) (h : t.src < 65536) : t.start.hdr.toNat % 65536 = t.src ∧ hdrHidx t.start.hdr = t.hidx
    ∧ hdrGen t.start.hdr = t.gen ∧ t.start.hdr.getLsbD 44 = true :=
  have hidx : t.hidx < 65536 := Nat.mod_lt _ (by decide)
  have hgen : t.gen < 256 := Nat.mod_lt _ (by decide)
  have hprio : t.prio < 4 := Nat.mod_lt _ (by decide)
  ⟨hdrSrc_mkHeader h, hdrHidx_mkHeader h hidx, hdrGen_mkHeader h hidx hgen, spawned_mkHeader h hidx hgen hprio⟩

/-! ## Mailboxes (10 R159, 20 R281) -/

/-- The state in which a mailbox's head has been taken. -/
def State.headTaken (s : State) (p : Place) (i j order : Nat) : State :=
  (s.movePub (.deposit order) (.strand s.nextSid)).setMbx p i { (s.mbx p i).take j with pass := 0, up := 0 }

theorem State.mbx_headTaken (s : State) (p : Place) (i j order : Nat) :
    (s.headTaken p i j order).mbx p i = { (s.mbx p i).take j with pass := 0, up := 0 } := by
  rw [State.headTaken, State.setMbx, State.modObjs, State.mbx, State.objs, State.core_modCore, if_pos rfl]
  exact Table.get_set_self _ _ _ _

/-- What the strand of a mailbox's head is given. -/
def State.mbxStart (s : State) (p : Place) (i j src : Nat) : Start :=
  let m := s.mbx p i
  ⟨mkHeader 0 false false false false m.prio m.agen m.aidx src,
    if m.stage = none then [BitVec.ofNat 64 i, BitVec.ofNat 64 (m.offset j), 0, 0, 0, 0] else s.slotPayload p (m.offset j), 0,
    s.launchWfw (s.partNo p), (s.part (s.partNo p)).attrs.proc0, s.launchLid (s.partNo p), 0, 0, none⟩

theorem State.activate_mbx {s : State} {p : Place} {k : Cand} {i j tick order src n : Nat} {res ver : Lane} {flying : Bool} {d : Desc}
    (hk : k.what = .mbx i) (hd : s.mbxHandler p (s.mbx p i) = some d)
    (hh : (s.mbx p i).head = some (j, .filled tick order src res ver n flying)) :
    s.activate p k = (s.headTaken p i j order).start p d (s.mbxStart p i j src) := by
  simp only [State.activate, hk, State.activateMbx, hd, hh]
  cases hst : (s.mbx p i).stage
  all_goals
    simp only [State.mbxStart, hst, Option.isSome_none, Option.isSome_some, if_true, Bool.false_eq_true, if_false, reduceCtorEq]
    rfl

/-! ## Parked strands (03 R60, R61) -/

/-- A strand as it resumes: its sequencers, queues and units as they were, and HOLDST saying that it was held. -/
theorem Parked.resumed_spec (x : Parked) (pois : Bool) (now : Nat) :
    (x.resumed pois now).as = x.st.as ∧ (x.resumed pois now).xs = x.st.xs ∧ (x.resumed pois now).q = x.st.q
      ∧ (x.resumed pois now).vec = x.st.vec ∧ (x.resumed pois now).mat = x.st.mat ∧ (x.resumed pois now).gmu = x.st.gmu
      ∧ (x.resumed pois now).csr.fpstat = x.st.csr.fpstat ∧ (x.resumed pois now).csr.deadline = x.st.csr.deadline
      ∧ (x.hold ≠ 0 → (x.resumed pois now).csr.holdst.rsm = true ∧ (x.resumed pois now).csr.holdst.pois = pois) := by
  simp only [Parked.resumed, Strand.missed]
  split
  all_goals
    refine ⟨rfl, rfl, rfl, rfl, rfl, rfl, rfl, rfl, fun h => ?_⟩
    simp [h]

/-- The core after the end of an interval: the next interval begins, and its strand notes what had been issued. -/
theorem State.core_closeInterval (s : State) (p : Place) : (s.closeInterval p).core p = { s.core p with
    interval := (s.core p).interval + 1, filter := [], overflowed := false
    st := { (s.core p).st with act := { (s.core p).st.act with shut := s.fab.nextNum } } } := by
  rw [s.closeInterval_eq, State.core_modCore, if_pos rfl, (s.meshOnly_sendCloses p).core]

/-- The strand on a core after a parked one has resumed there. -/
def State.unparked (s : State) (p : Place) (x : Parked) : State :=
  (s.modPart (s.partNo p) fun t => { t with
    parked := t.parked.filter fun y => y.st.act.sid != x.st.act.sid
    holds := if x.hold = 0 ∨ x.shares then t.holds
      else Table.set t.holds (holdSlot x.hold) { t.hold (holdSlot x.hold) with phase := .running } }).modCore p fun c =>
    ({ c with running := true, st := x.resumed (x.awaits.any fun o => s.poisoned (s.partNo p) o) s.tick } : Core).adopt s.gov.g.val

theorem State.activate_resume {s : State} {p : Place} {k : Cand} {x : Parked} (hk : k.what = .resume x.st.act.sid)
    (hx : (s.part (s.partNo p)).parked.find? (fun y => y.st.act.sid == x.st.act.sid) = some x)
    (hf : x.st.act.freq &&& ~~~ (s.core p).feat = 0) : s.activate p k = (s.unparked p x).closeInterval p := by
  have hmeets : Machine.meets (s.core p).feat x.st.act.freq = true := beq_iff_eq.mpr hf
  simp only [State.activate, hk, State.partOf, hx, State.resume, hmeets, Bool.not_true, Bool.false_eq_true, if_false]
  rfl

theorem State.core_unparked (s : State) (p : Place) (x : Parked) : (s.unparked p x).core p = ({ s.core p with
    running := true, st := x.resumed (x.awaits.any fun o => s.poisoned (s.partNo p) o) s.tick } : Core).adopt s.gov.g.val :=
  (State.core_modCore _ _ _ _).trans (if_pos rfl)

theorem State.parked_resumed (s : State) (p : Place) (x : Parked) :
    ∀ y ∈ (((s.unparked p x).closeInterval p).part (s.partNo p)).parked, y.st.act.sid ≠ x.st.act.sid := by
  intro y hy
  rw [State.closeInterval_eq, State.part_modCore, (State.meshOnly_sendCloses _ p).parked, State.unparked, State.part_modCore,
    State.part_modPart, if_pos rfl] at hy
  simpa using (List.mem_filter.mp hy).2

theorem State.mem_closeInterval (s : State) (p : Place) : (s.closeInterval p).mem = s.mem := (s.meshOnly_sendCloses p).mem

end Sys2Proof.Machine
end

section
/-! The obligation on activation. -/

namespace Sys2Proof.Machine

/-- A core's partition is that of its own field and of the table of partitions. -/
theorem State.partOf_congr {s t : State} {p : Place} (hc : (t.core p).part = (s.core p).part) (hp : t.parts = s.parts) :
    t.partOf p = s.partOf p := by
  simp only [State.partOf, State.partNo, hc, State.part, hp]

theorem State.part_logMbx (s : State) (p : Place) (i : Nat) : ((s.logMbx p i).core p).part = (s.core p).part := by
  simp only [State.logMbx]
  split
  · show (State.core (s.setMbx p i { s.mbx p i with logged := true }) p).part = _
    rw [State.setMbx, State.modObjs, State.core_modCore, if_pos rfl]
  · rfl

theorem State.partNo_logMailboxes (s : State) (p : Place) : (s.logMailboxes p).partNo p = s.partNo p := by
  have hpart : ((s.logMailboxes p).core p).part = (s.core p).part :=
    List.foldlRecOn (motive := fun u : State => (u.core p).part = (s.core p).part) _ _ rfl fun u hu e _ =>
      (u.part_logMbx p e.1).trans hu
  rw [State.partNo, hpart, State.partNo]

theorem State.partOf_withoutEntry (s : State) (p : Place) (order : Nat) : (s.withoutEntry p order).partOf p = s.partOf p :=
  State.partOf_congr (by rw [s.core_withoutEntry, if_pos rfl]) rfl

theorem State.partOf_withoutCpl (s : State) (p : Place) (cmd : Nat) : (s.withoutCpl p cmd).partOf p = s.partOf p :=
  State.partOf_congr (by rw [s.core_withoutCpl]) rfl

theorem State.partOf_afterNewest (s : State) (p : Place) : (s.afterNewest p).partOf p = s.partOf p := by
  refine State.partOf_congr ?_ rfl
  rw [State.afterNewest, State.refillDeque, State.modWork, State.core_modCore, if_pos rfl, State.modWork, State.core_modCore,
    if_pos rfl]

theorem State.partOf_headTaken (s : State) (p : Place) (i j order : Nat) : (s.headTaken p i j order).partOf p = s.partOf p := by
  refine State.partOf_congr ?_ rfl
  rw [State.headTaken, State.setMbx, State.modObjs, State.core_modCore, if_pos rfl]
  rfl

end Sys2Proof.Machine

namespace Sys2Proof.Proofs

open Sys2Proof Sys2Proof.Machine Sys2Proof.Claims

/-- Settles O45. The arbiter's ranks order candidates as R39 does; what passing over changes is said of each place where a
candidate waits; and every strand that starts does so by one operation. -/
theorem activationStartsTheBestCandidate : Obligations.ActivationStartsTheBestCandidate := by
  unfold Obligations.ActivationStartsTheBestCandidate
  intro s p q k d e t i j tick order src n res ver x y c pn s0 ks ev m feats core
  refine ⟨execActivation_of_not, execActivation_of_none, fun c => s0.mem_candidates_iff_stands p c,
    fun h hk hb => execActivation_best h hk hb, ?_, fun hk he => ?_, fun hk hy hc hd hf => ?_, fun hk ht hd => ?_,
    fun hk hd hh => ?_, fun hk hx hf => ?_⟩
  · -- the others are passed over
    intro u others w0 w1
    have hpn : s0.partNo p = pn := s.partNo_logMailboxes p
    clear_value s0
    refine ⟨s0.mem_passOthers p ks k, fun n e he => s0.inbox_passOthers ks k he, fun n e he => s0.cplq_passOthers ks k he,
      fun n y hy => ?_, fun n => s0.mbx_passOthers p ks k n, (s0.deque_passOthers p ks k).1, (s0.deque_passOthers p ks k).2⟩
    rw [← hpn] at hy ⊢
    exact s0.parked_passOthers ks k hy
  · -- an inbox entry
    intro u
    rw [show u = _ from State.activate_inbox hk he]
    refine ⟨s.inbox_activateInbox p e, fun hd => ?_, fun hd hf => ?_, fun hd hf hq => ?_⟩
    · rw [State.activateInbox_gone hd]
      refine ⟨?_, State.mem_net_answerTo _ _ _ _⟩
      rw [State.core_sendStale, State.core, State.cores_logDesc, ← State.core, s.core_withoutEntry, if_pos rfl]
    · rw [State.activateInbox_starts hd (.inl hf)]
      exact ⟨State.started_start (s := s) (t := (s.withoutEntry p e.order).movePub (.packet e.num) (.strand s.nextSid)) (p := p)
        (congrArg Part.attrs (s.partOf_withoutEntry p e.order)) d (e.start d s.tick),
        (State.start_frame _ p d _).2.2⟩
    · rw [State.activateInbox_sent hd hf hq]
      refine ⟨?_, _, State.mem_net_inject _ _ _ _ _ _ _, rfl, rfl, rfl, rfl⟩
      rw [(State.meshOnly_inject _ _ _ _ _ _ _).core, s.core_withoutEntry, if_pos rfl]
  · -- a completion
    intro u
    rw [show u = _ from State.activate_cpl hk hy hc hd hf]
    have hstarted := State.started_start (s := s) (t := (s.withoutCpl p y.cmd).movePub (.done c.id) (.strand s.nextSid)) (p := p)
      (congrArg Part.attrs (s.partOf_withoutCpl p y.cmd)) d (c.cplStart y)
    obtain ⟨hhid, hxid⟩ := ((s.withoutCpl p y.cmd).movePub (.done c.id) (.strand s.nextSid)).csr_start p d (c.cplStart y)
    obtain ⟨hwork, -, -⟩ := ((s.withoutCpl p y.cmd).movePub (.done c.id) (.strand s.nextSid)).start_frame p d (c.cplStart y)
    have hpay : (c.cplStart y).payload = _ := c.completion_payload y.stat y.pass
    rw [hpay] at hstarted
    rw [hhid, hxid, hwork]
    refine ⟨hstarted, c.completion_xid y.stat y.pass, (c.completion_handler y.stat y.pass).2.2, ?_⟩
    exact congrArg (·.work.cplq) (s.core_withoutCpl p y.cmd)
  · -- the newest TCB
    intro u
    rw [show u = _ from State.activate_tcb hk ht hd]
    obtain ⟨hhid, -⟩ := ((s.afterNewest p).addPub (.strand s.nextSid) t.pub).csr_start p d t.start
    obtain ⟨hwork, -, -⟩ := ((s.afterNewest p).addPub (.strand s.nextSid) t.pub).start_frame p d t.start
    rw [hhid, hwork]
    exact ⟨State.started_start (s := s) (t := (s.afterNewest p).addPub (.strand s.nextSid) t.pub) (p := p)
      (congrArg Part.attrs (s.partOf_afterNewest p)) d t.start, s.afterNewest_deque p, t.start_hdr⟩
  · -- a mailbox's head
    intro u
    rw [show u = _ from State.activate_mbx hk hd hh]
    obtain ⟨hhid, -⟩ := (s.headTaken p i j order).csr_start p d (s.mbxStart p i j src)
    obtain ⟨-, hobjs, -⟩ := (s.headTaken p i j order).start_frame p d (s.mbxStart p i j src)
    rw [hhid]
    refine ⟨?_, State.started_start (congrArg Part.attrs (s.partOf_headTaken p i j order)) d (s.mbxStart p i j src)⟩
    rw [State.mbx, State.objs, hobjs]
    exact s.mbx_headTaken p i j order
  · -- a parked strand
    intro u v
    obtain ⟨has, hxs, hq, hvec, hmat, hgmu, hfp, hdl, hhold⟩ :=
      x.resumed_spec (x.awaits.any fun o => s.poisoned (s.partNo p) o) s.tick
    have hcore := ((s.unparked p x).core_closeInterval p).trans (by rw [s.core_unparked])
    have hu : u = (s.unparked p x).closeInterval p := State.activate_resume hk hx hf
    have hv : v = (u.core p).st := rfl
    rw [hv, hu, hcore]
    refine ⟨rfl, rfl, has, hxs, hq, hvec, hmat, hgmu, hfp, hdl, fun h => ?_, s.parked_resumed p x, State.mem_closeInterval _ p⟩
    obtain ⟨hrsm, hpois⟩ := hhold h
    refine ⟨hrsm, ?_⟩
    show (x.resumed _ _).csr.holdst.pois = true ↔ _
    rw [hpois]
    simp [pn]

end Sys2Proof.Proofs
end

section
/-! Encodings (07 R82 to R94): the fields of word 0, of the C layout and of an engine instruction's second part are read
back as the encoder put them; so every instruction of a sequencer is decoded from its own encoding. -/

namespace Sys2Proof

/-! ### The monad of the decoder, and fields of a number -/

@[simp] theorem Dec.ok_bind {α β : Type} (a : α) (f : α → Dec β) : ((Except.ok a : Dec α) >>= f) = f a := rfl
@[simp] theorem Dec.pure_eq {α : Type} (a : α) : (pure a : Dec α) = .ok a := rfl

@[simp] theorem bitsAt_add_below {a b k lo n : Nat} (h : lo + n ≤ k) : bitsAt (a + 2 ^ k * b) lo n = bitsAt a lo n := by
  obtain ⟨m, rfl⟩ := Nat.exists_eq_add_of_le h
  unfold bitsAt
  rw [show 2 ^ (lo + n + m) * b = 2 ^ lo * (2 ^ n * (2 ^ m * b)) by ring, Nat.add_mul_div_left _ _ (by positivity),
    Nat.add_mul_mod_self_left]

@[simp] theorem bitsAt_add_above {a b k lo n : Nat} (ha : a < 2 ^ k) (h : k ≤ lo) :
    bitsAt (a + 2 ^ k * b) lo n = bitsAt b (lo - k) n := by
  obtain ⟨m, rfl⟩ := Nat.exists_eq_add_of_le h
  unfold bitsAt
  rw [pow_add, ← Nat.div_div_eq_div_mul, Nat.add_mul_div_left _ _ (by positivity), Nat.div_eq_of_lt ha, Nat.zero_add,
    Nat.add_sub_cancel_left]

@[simp] theorem bitsAt_mul {b k lo n : Nat} (h : k ≤ lo) : bitsAt (2 ^ k * b) lo n = bitsAt b (lo - k) n := by
  simpa using bitsAt_add_above (a := 0) (b := b) (n := n) (by positivity) h
@[simp] theorem bitsAt_mul_below {b k lo n : Nat} (h : lo + n ≤ k) : bitsAt (2 ^ k * b) lo n = 0 := by
  have := bitsAt_add_below (a := 0) (b := b) h
  simpa [bitsAt] using this

/-- A field one bit up, where `simp` writes `2 ^ 1` as 2. -/
@[simp] theorem bitsAt_add_double_below {a b lo n : Nat} (h : lo + n ≤ 1) : bitsAt (a + 2 * b) lo n = bitsAt a lo n :=
  bitsAt_add_below (k := 1) h
@[simp] theorem bitsAt_add_double_above {a b lo n : Nat} (ha : a < 2) (h : 1 ≤ lo) :
    bitsAt (a + 2 * b) lo n = bitsAt b (lo - 1) n := bitsAt_add_above (k := 1) ha h
@[simp] theorem bitsAt_double {b lo n : Nat} (h : 1 ≤ lo) : bitsAt (2 * b) lo n = bitsAt b (lo - 1) n :=
  bitsAt_mul (k := 1) h
@[simp] theorem bitsAt_double_below {b lo n : Nat} (h : lo + n ≤ 1) : bitsAt (2 * b) lo n = 0 :=
  bitsAt_mul_below (k := 1) h

/-- A bit that an encoding fixes at 1. -/
@[simp] theorem bitsAt_add_pow_below {a k lo n : Nat} (h : lo + n ≤ k) : bitsAt (a + 2 ^ k) lo n = bitsAt a lo n := by
  simpa using bitsAt_add_below (a := a) (b := 1) h
@[simp] theorem bitsAt_add_pow_above {a k lo n : Nat} (ha : a < 2 ^ k) (h : k ≤ lo) :
    bitsAt (a + 2 ^ k) lo n = bitsAt 1 (lo - k) n := by
  simpa using bitsAt_add_above (b := 1) (n := n) ha h

@[simp] theorem bitsAt_low {a n : Nat} (h : a < 2 ^ n) : bitsAt a 0 n = a := by simp [bitsAt, Nat.mod_eq_of_lt h]
@[simp] theorem bitsAt_of_lt {a lo n : Nat} (h : a < 2 ^ lo) : bitsAt a lo n = 0 := by simp [bitsAt, Nat.div_eq_of_lt h]
@[simp] theorem ofNat_toNat_add_mul {w : Nat} (x : BitVec w) (n : Nat) : BitVec.ofNat w (x.toNat + 2 ^ w * n) = x :=
  BitVec.eq_of_toNat_eq (by simp)

@[simp] theorem bitAt_eq (w i : Nat) : bitAt w i = (bitsAt w i 1 == 1) := rfl

theorem W0.ofNat_toNat {f : W0} (h : f.Bounded) (hi : Nat) : W0.ofNat (f.toNat + 2 ^ 64 * hi) = f := by
  obtain ⟨h1, h2, h3, h4, h5, h6, h7, h8, h9, h10⟩ := h
  unfold W0.ofNat W0.toNat
  simp (disch := omega) only [bitsAt_add_below, bitsAt_add_above, bitsAt_low, Nat.reduceSub]

@[simp] theorem CLay.ofNat_toNat {c ak bk dk sub : Nat} (hc : c < 64) (ha : ak < 4) (hb : bk < 4) (hd : dk < 4)
    (hs : sub < 4096) : CLay.ofNat (CLay.mk c ak bk dk sub).toNat = ⟨c, ak, bk, dk, sub⟩ := by
  unfold CLay.ofNat CLay.toNat
  simp (disch := omega) only [bitsAt_add_below, bitsAt_add_above, bitsAt_low, Nat.reduceSub]

/-! ### Fields read back -/

@[simp] theorem CLay.ofNat_zero : CLay.ofNat 0 = ⟨0, 0, 0, 0, 0⟩ := rfl
@[simp] theorem chk_true (e : BadEncoding) : chk true e = .ok () := rfl
@[simp] theorem getD?_some {α : Type} (a : α) (e : BadEncoding) : getD? (some a) e = .ok a := rfl
@[simp] theorem zeros_nil : zeros [] = .ok () := rfl
@[simp] theorem zeros_cons_zero (l : List Nat) : zeros (0 :: l) = zeros l := rfl

@[simp] theorem toReg_val (r : Reg) : toReg r.val = r := Fin.ofNat_val_eq_self r
@[simp] theorem toV_val (v : VReg) : toV v.val = .ok v := by simp [toV]
@[simp] theorem toFin_val {m : Nat} [NeZero m] (v : Fin m) : toFin m v.val = .ok v := by simp [toFin]
theorem toFin_b2n (b : Bool) : toFin 2 (b2n b) = .ok (if b then 1 else 0) := by cases b <;> rfl
@[simp] theorem toOpnd_field (o : Opnd) : toOpnd o.kind o.field = .ok o := by
  cases o with
  | reg r => simp [toOpnd, Opnd.kind, Opnd.field]
  | lq q => simp [toOpnd, Opnd.kind, Opnd.field]
  | nE => rfl
  | nW => rfl
@[simp] theorem toVSrc_field (o : VSrc) : toVSrc o.sb o.kind o.field = .ok o := by
  cases o with
  | vec v => simp [toVSrc, VSrc.sb, VSrc.kind, VSrc.field]
  | sca o => simp [toVSrc, VSrc.sb, VSrc.kind, VSrc.field]
@[simp] theorem toL_field (o : Opnd) : toL o.kind o.field = if o.isL then .ok o else .error .kind := by
  cases h : o.isL with
  | true => simp [toL, h]
  | false => simp [toL, h, chk]; rfl
@[simp] theorem XT.ofCode_code (x : XT) : XT.ofCode x.code = some x := by cases x <;> rfl
@[simp] theorem Cond.ofCode_code (c : Cond) : Cond.ofCode c.code = some c := by cases c <;> rfl
@[simp] theorem FCond.ofCode_code (c : FCond) : FCond.ofCode c.code = some c := by cases c <;> rfl
@[simp] theorem SignMode.ofCode_code (m : SignMode) : SignMode.ofCode m.code = some m := by cases m <;> rfl
@[simp] theorem Space.ofCode_code (s : Space) : Space.ofCode s.code = s := by cases s <;> rfl
@[simp] theorem AtomOp.ofCode_code (o : AtomOp) : AtomOp.ofCode o.code = o := by cases o <;> rfl
@[simp] theorem RedOp.ofCode_code (o : RedOp) : RedOp.ofCode o.code = some o := by cases o <;> rfl
@[simp] theorem FenceClass.ofCode_code (c : FenceClass) : FenceClass.ofCode c.code = some c := by cases c <;> rfl
@[simp] theorem FenceScope.ofCode_code (c : FenceScope) : FenceScope.ofCode c.code = c := by cases c <;> rfl
@[simp] theorem Csr.ofNumber_number (c : Csr) : Csr.ofNumber c.number = some c := by cases c <;> rfl
@[simp] theorem b2n_beq_one (b : Bool) : (b2n b == 1) = b := by cases b <;> rfl

/-- The FP formats are no vector integers, so the element type tells how CC is read (12 R174). -/
theorem XT.isVInt_of_isFp {x : XT} (h : x.isFp = true) : x.isVInt = false := by
  revert h
  cases x <;> decide

/-- Every element type that a relation fits is one of the vector arithmetic. -/
theorem VCond.isVArith_of_fits {x : XT} {c : VCond} (h : c.fits x = true) : x.isVArith = true := by
  cases c with
  | int c => simp [XT.isVArith, show x.isVInt = true from h]
  | flt c => simp [XT.isVArith, show x.isFp = true from h]

theorem toVCond_code {x : XT} {c : VCond} (h : c.fits x = true) : toVCond x c.code = .ok c := by
  cases c with
  | int c => simp [toVCond, show x.isVInt = true from h, VCond.code]
  | flt c =>
    have hx : x.isVInt = false := XT.isVInt_of_isFp h
    simp [toVCond, hx, VCond.code]

/-- The second part of an engine instruction reads back. -/
@[simp] theorem Eng.ofNat_toNat (e : Eng) : Eng.ofNat e.toNat = e := by
  obtain ⟨place, pblk, wsem, wthr, ssem, sinc⟩ := e
  simp (disch := omega) [-Nat.reducePow, Eng.ofNat, Eng.toNat]

section
variable (len op fn : Nat) (g : Guard) (x d a b i : Nat)

@[simp] theorem mkEnc_len : (mkEnc len op fn g x d a b i).w.len = len := rfl
@[simp] theorem mkEnc_op : (mkEnc len op fn g x d a b i).w.op = op := rfl
@[simp] theorem mkEnc_fn : (mkEnc len op fn g x d a b i).w.fn = fn := rfl
@[simp] theorem mkEnc_x : (mkEnc len op fn g x d a b i).w.x = x := rfl
@[simp] theorem mkEnc_d : (mkEnc len op fn g x d a b i).w.d = d := rfl
@[simp] theorem mkEnc_a : (mkEnc len op fn g x d a b i).w.a = a := rfl
@[simp] theorem mkEnc_b : (mkEnc len op fn g x d a b i).w.b = b := rfl
@[simp] theorem mkEnc_i : (mkEnc len op fn g x d a b i).w.i = i := rfl
@[simp] theorem guard_mkEnc : (mkEnc len op fn g x d a b i).w.guard = g := by
  obtain ⟨inv, k⟩ := g
  cases inv <;> simp [mkEnc, W0.guard]
@[simp] theorem imm_mkEnc (i : BitVec 24) : (mkEnc len op fn g x d a b i.toNat).w.imm = i := by simp [mkEnc, W0.imm]

@[simp] theorem xt_mkEnc (x : XT) (ok : XT → Bool) :
    (mkEnc len op fn g x.code d a b i).w.xt ok = if ok x then .ok x else .error .xcode := by
  cases h : ok x with
  | true => simp [W0.xt, h]
  | false => simp [W0.xt, h, chk]; rfl

end

/-- PSPEC stands in bits 11:3 of SUB, above the other bits of a matrix instruction. -/
theorem MFmt.pspec_eq (f : MFmt) : f.pspec = 2 ^ 3 * (f.pspec / 8) := by
  have := f.pspec_lt
  omega

@[simp] theorem bitsAt_add_pspec {a lo n : Nat} (f : MFmt) (h : lo + n ≤ 3) :
    bitsAt (a + f.pspec) lo n = bitsAt a lo n := by
  rw [f.pspec_eq, bitsAt_add_below h]

@[simp] theorem bitsAt_pspec {lo n : Nat} (f : MFmt) (h : lo + n ≤ 3) : bitsAt f.pspec lo n = 0 := by
  rw [f.pspec_eq, bitsAt_mul_below h]

theorem mfmt_mkEnc {f : MFmt} (hf : f.wf = true) (len op fn : Nat) (g : Guard) (d a b i : Nat) {sub : Nat}
    (hs : sub < 8) :
    (mkEnc len op fn g f.xcode d a b i).w.mfmt (sub + f.pspec) = .ok f := by
  cases f with
  | plain x =>
    have hx := x.code_lt
    have hm : x.isMat = true := hf
    have h0 : bitsAt sub 3 9 = 0 := bitsAt_of_lt hs
    simp [W0.mfmt, MFmt.xcode, MFmt.pspec, hm, h0, show x.code ≠ 15 by omega]
  | planed d k c =>
    have hc := b2n_lt c
    have hsub : sub + (MFmt.planed d k c).pspec = sub + 2 ^ 3 * b2n c + 2 ^ 4 * k.val + 2 ^ 8 * d.val := by
      simp only [MFmt.pspec]; omega
    rw [hsub]
    simp (disch := omega) [-Nat.reducePow, W0.mfmt, MFmt.xcode, hf]

theorem mfmt_mkEnc_pspec {f : MFmt} (hf : f.wf = true) (len op fn : Nat) (g : Guard) (d a b i : Nat) :
    (mkEnc len op fn g f.xcode d a b i).w.mfmt f.pspec = .ok f := by
  simpa using mfmt_mkEnc hf len op fn g d a b i (sub := 0) (by omega)

end Sys2Proof
end

section
/-! The encodings of each OP (07 R104), read back by its decoder. Instructions of one shape are taken together. -/

namespace Sys2Proof

/-! ### Instructions read back -/

/-- The decoder reads the instruction from the fields that the encoder made of it. -/
def ReadsBack (i : Instr) : Prop := ∀ e, encodeFields i = some e → decodeFields e.w e.hi = .ok i

namespace ReadsBack

theorem decInt3_mkEnc {ok : XT → Bool} {x : XT} {d : Opnd} (h : (ok x && d.isL) = true) (op fn : Nat) (g : Guard)
    (a b : Opnd) (mk : Guard → XT → Opnd → Opnd → Opnd → Instr) :
    decInt3 (mkEnc 0 op fn g x.code d.field a.field b.field (CLay.mk 0 a.kind b.kind d.kind 0).toNat).w ok mk
      = .ok (mk g x d a b) := by
  have := a.kind_lt
  have := b.kind_lt
  have := d.kind_lt
  rw [Bool.and_eq_true] at h
  simp (disch := omega) [decInt3, h]

theorem decInt2_mkEnc {x : XT} (h : x.isInt = true) (op fn : Nat) (g : Guard) (d a : Reg) (i : BitVec 24)
    (mk : Guard → XT → Reg → Reg → BitVec 24 → Instr) :
    decInt2 (mkEnc 0 op fn g x.code d.val a.val 0 i.toNat).w mk = .ok (mk g x d a i) := by
  simp [decInt2, h]

theorem decUn_mkEnc {ok : XT → Bool} {x : XT} {d : Opnd} (h : (ok x && d.isL) = true) (op fn : Nat) (g : Guard)
    (a : Opnd) (mk : Guard → XT → Opnd → Opnd → Instr) :
    decUn (mkEnc 0 op fn g x.code d.field a.field 0 (CLay.mk 0 a.kind 0 d.kind 0).toNat).w ok mk
      = .ok (mk g x d a) := by
  have := a.kind_lt
  have := d.kind_lt
  rw [Bool.and_eq_true] at h
  simp (disch := omega) [decUn, h]

theorem decLoad_mkEnc {x : XT} {sp cm : Bool} (h : x.isInt = true) (hc : (sp || !cm) = true) (op fn : Nat) (g : Guard)
    (d : Opnd) (a c : Reg) (n : BitVec 10) (mk : Guard → XT → Bool → Opnd → Reg → Reg → BitVec 10 → Instr) :
    decLoad (mkEnc 0 op fn g x.code d.field a.val 0 (CLay.mk c.val 0 0 d.kind (n.toNat + 2 ^ 11 * b2n cm)).toNat).w
        sp mk
      = .ok (mk g x cm d a c n) := by
  have := d.kind_lt
  have := b2n_lt cm
  have hc' : (sp || b2n cm == 0) = true := by revert hc; cases sp <;> cases cm <;> decide
  simp (disch := omega) [-Nat.reducePow, decLoad, h, hc']

theorem decLoad_mkEnc_remote {x : XT} (h : x.isInt = true) (op fn : Nat) (g : Guard) (d : Opnd) (a c : Reg)
    (n : BitVec 10) (mk : Guard → XT → Bool → Opnd → Reg → Reg → BitVec 10 → Instr) :
    decLoad (mkEnc 0 op fn g x.code d.field a.val 0 (CLay.mk c.val 0 0 d.kind n.toNat).toNat).w false mk
      = .ok (mk g x false d a c n) := by
  simpa using decLoad_mkEnc (cm := false) h rfl op fn g d a c n mk

theorem decStore_mkEnc {x : XT} {sp cm : Bool} (h : x.isInt = true) (hc : (sp || !cm) = true) (op fn : Nat) (g : Guard)
    (sq : Bool) (a : Reg) (b : Opnd) (c : Reg) (n : BitVec 10)
    (mk : Guard → XT → Bool → Bool → Reg → Opnd → Reg → BitVec 10 → Instr) :
    decStore (mkEnc 0 op fn g x.code 0 a.val b.field
        (CLay.mk c.val 0 b.kind 0 (n.toNat + 2 ^ 10 * b2n sq + 2 ^ 11 * b2n cm)).toNat).w sp mk
      = .ok (mk g x cm sq a b c n) := by
  have := b.kind_lt
  have := b2n_lt sq
  have := b2n_lt cm
  have hc' : (sp || b2n cm == 0) = true := by revert hc; cases sp <;> cases cm <;> decide
  simp (disch := omega) [-Nat.reducePow, decStore, h, hc']

theorem decStore_mkEnc_remote {x : XT} (h : x.isInt = true) (op fn : Nat) (g : Guard) (sq : Bool) (a : Reg) (b : Opnd)
    (c : Reg) (n : BitVec 10) (mk : Guard → XT → Bool → Bool → Reg → Opnd → Reg → BitVec 10 → Instr) :
    decStore (mkEnc 0 op fn g x.code 0 a.val b.field (CLay.mk c.val 0 b.kind 0 (n.toNat + 2 ^ 10 * b2n sq)).toNat).w
      false mk = .ok (mk g x false sq a b c n) := by
  simpa using decStore_mkEnc (cm := false) h rfl op fn g sq a b c n mk

theorem decV3_mkEnc {ok : XT → Bool} {x : XT} {s sat : Bool} (h : ok x = true) (hs : (!sat || (s && x.isVInt)) = true)
    (op fn : Nat) (g : Guard) (d a : VReg) (b : VSrc) (mk : Guard → XT → Bool → VReg → VReg → VSrc → Instr) :
    decV3 (mkEnc 0 op fn g x.code d.val a.val b.field
        (CLay.mk 0 0 b.kind 0 (2 ^ 10 * b2n sat + 2 ^ 11 * b.sb)).toNat).w ok s mk
      = .ok (mk g x sat d a b) := by
  have := b.kind_lt
  have := b.sb_lt
  have := b2n_lt sat
  have hs' : (b2n sat == 0 || (s && x.isVInt)) = true := by revert hs; cases sat <;> simp
  simp (disch := omega) [-Nat.reducePow, decV3, h, hs']

theorem decV3_mkEnc_plain {ok : XT → Bool} {x : XT} (h : ok x = true) (op fn : Nat) (g : Guard) (d a : VReg) (b : VSrc)
    (mk : Guard → XT → Bool → VReg → VReg → VSrc → Instr) :
    decV3 (mkEnc 0 op fn g x.code d.val a.val b.field (CLay.mk 0 0 b.kind 0 (2 ^ 11 * b.sb)).toNat).w ok false mk
      = .ok (mk g x false d a b) := by
  simpa using decV3_mkEnc (sat := false) (s := false) h rfl op fn g d a b mk

theorem decV2_mkEnc {ok : XT → Bool} {x : XT} (h : ok x = true) (op fn : Nat) (g : Guard) (d a : VReg)
    (mk : Guard → XT → VReg → VReg → Instr) :
    decV2 (mkEnc 0 op fn g x.code d.val a.val 0 0).w ok mk = .ok (mk g x d a) := by
  simp [decV2, h]

theorem decLatch_mkEnc {f : MFmt} {c : Reg} (h : (f.wf && f.strideWf c) = true) (op fn : Nat) (g : Guard) (cm : Bool)
    (a b : Reg) (mk : Guard → MFmt → Bool → Reg → Reg → Reg → Instr) :
    decLatch (mkEnc 0 op fn g f.xcode 0 a.val b.val (CLay.mk c.val 0 0 0 (2 * b2n cm + f.pspec)).toNat).w mk
      = .ok (mk g f cm a b c) := by
  have := f.pspec_lt
  have := b2n_lt cm
  rw [Bool.and_eq_true] at h
  simp (disch := omega) [-Nat.reducePow, decLatch, mfmt_mkEnc h.1, h.2]

theorem decEng_mkEnc {e : Eng} (h : e.wf = true) (op fn : Nat) (g : Guard) (mk : Guard → Eng → Instr) :
    decEng (mkEnc 2 op fn g 0 0 0 0 0).w e.toNat mk = .ok (mk g e) := by
  simp [decEng, h]

theorem decEngRing_mkEnc {e : Eng} (h : e.wf = true) (op fn : Nat) (g : Guard) (rg : Fin 16)
    (mk : Guard → Fin 16 → Eng → Instr) :
    decEngRing (mkEnc 2 op fn g 0 0 0 0 rg.val).w e.toNat mk = .ok (mk g rg e) := by
  simp (disch := omega) [-Nat.reducePow, decEngRing, h]

/-! OP 0x00 to 0x02: the end of a part and the integer forms. -/

theorem endPart (g : Guard) : ReadsBack (.endPart g) := by
  rintro e ⟨⟩
  simp (disch := omega) [-Nat.reducePow, decodeFields, decMisc]

theorem intForm {x : XT} {d : Opnd} (h : (x.isInt && d.isL) = true) (g : Guard) (a b : Opnd) :
    ∀ mk ∈ ([.add, .sub, .mul, .and, .or, .xor, .andn, .shl, .shr, .sra, .rol] :
      List (Guard → XT → Opnd → Opnd → Opnd → Instr)), ReadsBack (mk g x d a b) := by
  intro mk hmk
  fin_cases hmk <;> rintro e ⟨⟩ <;> exact decInt3_mkEnc h ..

theorem signedForm {x : XT} {d : Opnd} (h : (x.isSigned && d.isL) = true) (g : Guard) (a b : Opnd) :
    ∀ mk ∈ ([.mulh, .div, .rem, .min, .max] : List (Guard → XT → Opnd → Opnd → Opnd → Instr)),
      ReadsBack (mk g x d a b) := by
  intro mk hmk
  fin_cases hmk <;> rintro e ⟨⟩ <;> exact decInt3_mkEnc h ..

theorem unsignedForm {x : XT} {d : Opnd} (h : (x.isUnsigned && d.isL) = true) (g : Guard) (a b : Opnd) :
    ∀ mk ∈ ([.mulhz, .divz, .remz, .minz, .maxz] : List (Guard → XT → Opnd → Opnd → Opnd → Instr)),
      ReadsBack (mk g x d a b) := by
  intro mk hmk
  fin_cases hmk <;> rintro e ⟨⟩ <;> exact decInt3_mkEnc h ..

theorem immForm {x : XT} (h : x.isInt = true) (g : Guard) (d a : Reg) (i : BitVec 24) :
    ∀ mk ∈ ([.addi, .andi, .ori, .xori, .shli, .shri, .srai, .roli, .muli] :
      List (Guard → XT → Reg → Reg → BitVec 24 → Instr)), ReadsBack (mk g x d a i) := by
  intro mk hmk
  fin_cases hmk <;> rintro e ⟨⟩ <;> exact decInt2_mkEnc h ..

/-! OP 0x03 and 0x04: moves, compares and bits. -/

theorem longMove (g : Guard) (d : Reg) (j : BitVec 32) :
    ∀ mk ∈ ([.movi, .movw] : List (Guard → Reg → BitVec 32 → Instr)), ReadsBack (mk g d j) := by
  intro mk hmk
  fin_cases hmk <;> rintro e ⟨⟩ <;> simp (disch := omega) [-Nat.reducePow, decodeFields, decMove]

theorem oneSource {x : XT} {d : Opnd} (h : (x.isInt && d.isL) = true) (g : Guard) (a : Opnd) :
    ∀ mk ∈ ([.mov, .clz, .ctz, .popc] : List (Guard → XT → Opnd → Opnd → Instr)), ReadsBack (mk g x d a) := by
  intro mk hmk
  fin_cases hmk <;> rintro e ⟨⟩ <;> exact decUn_mkEnc h ..

theorem sext {x : XT} {d : Opnd} (h : (x.isSigned && d.isL) = true) (g : Guard) (a : Opnd) :
    ReadsBack (.sext g x d a) := by
  rintro e ⟨⟩
  simp (disch := omega) [-Nat.reducePow, decodeFields, decCmp, decUn_mkEnc h]

theorem zext {x : XT} {d : Opnd} (h : (x.isUnsigned && d.isL) = true) (g : Guard) (a : Opnd) :
    ReadsBack (.zext g x d a) := by
  rintro e ⟨⟩
  simp (disch := omega) [-Nat.reducePow, decodeFields, decCmp, decUn_mkEnc h]

theorem lea {d : Opnd} (h : d.isL = true) (g : Guard) (a b : Opnd) (sc : Fin 4) (disp : BitVec 10) :
    ReadsBack (.lea g d a b sc disp) := by
  rintro e ⟨⟩
  have := a.kind_lt
  have := b.kind_lt
  have := d.kind_lt
  simp (disch := omega) [-Nat.reducePow, decodeFields, decMove, h]

theorem rdtick (g : Guard) (d : Reg) : ReadsBack (.rdtick g d) := by
  rintro e ⟨⟩
  simp (disch := omega) [-Nat.reducePow, decodeFields, decMove]

theorem cmp {x : XT} (h : x.isInt = true) (g : Guard) (kd : Fin 8) (cc : Cond) (a b : Opnd) :
    ReadsBack (.cmp g x kd cc a b) := by
  rintro e ⟨⟩
  have := a.kind_lt
  have := b.kind_lt
  have := cc.code_lt
  simp (disch := omega) [-Nat.reducePow, decodeFields, decCmp, h]

theorem sel {d : Opnd} (h : d.isL = true) (g : Guard) (a b : Opnd) (kc : Fin 8) : ReadsBack (.sel g d a b kc) := by
  rintro e ⟨⟩
  have := a.kind_lt
  have := b.kind_lt
  have := d.kind_lt
  simp (disch := omega) [-Nat.reducePow, decodeFields, decCmp, h]

theorem bfx {x : XT} {d : Opnd} {pos lm1 : Fin 64}
    (h : ((x == .i64 || x == .z64) && d.isL && decide (pos.val + lm1.val ≤ 63)) = true) (g : Guard) (a : Opnd) :
    ReadsBack (.bfx g x d a pos lm1) := by
  rintro e ⟨⟩
  simp only [Bool.and_eq_true] at h
  obtain ⟨⟨hx, hd⟩, hp⟩ := h
  have := a.kind_lt
  have := d.kind_lt
  simp (disch := omega) [-Nat.reducePow, decodeFields, decCmp, hx, hd, of_decide_eq_true hp]

theorem bfi {pos lm1 : Fin 64} (h : decide (pos.val + lm1.val ≤ 63) = true) (g : Guard) (d : Reg) (a : Opnd) :
    ReadsBack (.bfi g d a pos lm1) := by
  rintro e ⟨⟩
  have := a.kind_lt
  simp (disch := omega) [-Nat.reducePow, decodeFields, decCmp, of_decide_eq_true h]

/-! OP 0x05: scalar FP. -/

theorem fpForm {x : XT} {d : Opnd} (h : (x.isFp && d.isL) = true) (g : Guard) (a b : Opnd) :
    ∀ mk ∈ ([.fadd, .fsub, .fmul, .fdiv, .fmin, .fmax] : List (Guard → XT → Opnd → Opnd → Opnd → Instr)),
      ReadsBack (mk g x d a b) := by
  intro mk hmk
  fin_cases hmk <;> rintro e ⟨⟩ <;> exact decInt3_mkEnc h ..

theorem fma {x : XT} {d : Opnd} (h : (x.isFp && d.isL) = true) (g : Guard) (a b : Opnd) (c : Reg) :
    ReadsBack (.fma g x d a b c) := by
  rintro e ⟨⟩
  simp only [Bool.and_eq_true] at h
  obtain ⟨hx, hd⟩ := h
  have := a.kind_lt
  have := b.kind_lt
  have := d.kind_lt
  simp (disch := omega) [-Nat.reducePow, decodeFields, decFp, hx, hd]

theorem fsqrt {x : XT} {d : Opnd} (h : (x.isFp && d.isL) = true) (g : Guard) (a : Opnd) :
    ReadsBack (.fsqrt g x d a) := by
  rintro e ⟨⟩
  simp (disch := omega) [-Nat.reducePow, decodeFields, decFp, decUn_mkEnc h]

theorem fclass {x : XT} {d : Opnd} (h : (x.isFloat && d.isL) = true) (g : Guard) (a : Opnd) :
    ReadsBack (.fclass g x d a) := by
  rintro e ⟨⟩
  simp (disch := omega) [-Nat.reducePow, decodeFields, decFp, decUn_mkEnc h]

theorem fcmp {x : XT} (h : x.isFp = true) (g : Guard) (kd : Fin 8) (cc : FCond) (a b : Opnd) :
    ReadsBack (.fcmp g x kd cc a b) := by
  rintro e ⟨⟩
  have := a.kind_lt
  have := b.kind_lt
  have := cc.code_lt
  simp (disch := omega) [-Nat.reducePow, decodeFields, decFp, h]

theorem fcvt {x fr : XT} {d : Opnd} (h : (!(x.isInt && fr.isInt) && d.isL) = true) (g : Guard) (a : Opnd) :
    ReadsBack (.fcvt g x fr d a) := by
  rintro e ⟨⟩
  simp only [Bool.and_eq_true] at h
  obtain ⟨hx, hd⟩ := h
  have := a.kind_lt
  have := d.kind_lt
  have := fr.code_lt
  simp (disch := omega) [-Nat.reducePow, decodeFields, decFp, -Bool.not_and, hx, hd]

theorem fsgn {x : XT} {d : Opnd} (h : (x.isFloat && d.isL) = true) (g : Guard) (m : SignMode) (a b : Opnd) :
    ReadsBack (.fsgn g x m d a b) := by
  rintro e ⟨⟩
  simp only [Bool.and_eq_true] at h
  obtain ⟨hx, hd⟩ := h
  have := a.kind_lt
  have := b.kind_lt
  have := d.kind_lt
  have := m.code_lt
  simp (disch := omega) [-Nat.reducePow, decodeFields, decFp, hx, hd]

/-! OP 0x06 and 0x07: control and branch queues. -/

theorem br (g : Guard) (i : BitVec 24) : ReadsBack (.br g i) := by
  rintro e ⟨⟩
  simp (disch := omega) [-Nat.reducePow, decodeFields, decControl]

theorem jmp (g : Guard) (d a : Reg) (i : BitVec 24) : ReadsBack (.jmp g d a i) := by
  rintro e ⟨⟩
  simp (disch := omega) [-Nat.reducePow, decodeFields, decControl]

theorem call (g : Guard) (d : Reg) (i : BitVec 24) : ReadsBack (.call g d i) := by
  rintro e ⟨⟩
  simp (disch := omega) [-Nat.reducePow, decodeFields, decControl]

theorem ret (g : Guard) (a : Reg) : ReadsBack (.ret g a) := by
  rintro e ⟨⟩
  simp (disch := omega) [-Nat.reducePow, decodeFields, decControl]

theorem loop {i : BitVec 24} (h : 2 ≤ i.toInt) (g : Guard) (lc : Fin 2) (a : Reg) : ReadsBack (.loop g lc a i) := by
  rintro e ⟨⟩
  simp (disch := omega) [-Nat.reducePow, decodeFields, decControl, h]

theorem tret (g : Guard) : ReadsBack (.tret g) := by
  rintro e ⟨⟩
  simp (disch := omega) [-Nat.reducePow, decodeFields, decControl]

theorem pause {a : Reg} {i : BitVec 24} (h : (a.val == 0 || i == 0) = true) (g : Guard) :
    ReadsBack (.pause g a i) := by
  rintro e ⟨⟩
  have h' : (a.val == 0 || i.toNat == 0) = true := by simpa [BitVec.toNat_eq] using h
  simp (disch := omega) [-Nat.reducePow, decodeFields, decControl, h']

theorem bqpush (g : Guard) (k : Fin 8) : ReadsBack (.bqpush g k) := by
  rintro e ⟨⟩
  simp (disch := omega) [-Nat.reducePow, decodeFields, decBq]

theorem bqbr (g : Guard) (sense : Bool) (i : BitVec 24) : ReadsBack (.bqbr g sense i) := by
  rintro e ⟨⟩
  have hs : (((if sense then 1 else 0) : Fin 2) == 1) = sense := by cases sense <;> rfl
  simp [decodeFields, decBq, toFin_b2n, hs]

/-! OP 0x08 and 0x09: loads and stores. -/

theorem ld {x : XT} (h : x.isInt = true) (g : Guard) (cm : Bool) (d : Opnd) (a c : Reg) (disp : BitVec 10) :
    ReadsBack (.ld g x cm d a c disp) := by
  rintro e ⟨⟩
  simp (disch := omega) [-Nat.reducePow, decodeFields, decLocal, decLoad_mkEnc (sp := true) h rfl]

theorem st {x : XT} (h : x.isInt = true) (g : Guard) (cm sq : Bool) (a : Reg) (b : Opnd) (c : Reg) (disp : BitVec 10) :
    ReadsBack (.st g x cm sq a b c disp) := by
  rintro e ⟨⟩
  simp (disch := omega) [-Nat.reducePow, decodeFields, decLocal, decStore_mkEnc (sp := true) h rfl]

theorem remoteLoad {x : XT} (h : x.isInt = true) (g : Guard) (d : Opnd) (a c : Reg) (disp : BitVec 10) :
    ∀ mk ∈ ([.ldo, .ldg] : List (Guard → XT → Opnd → Reg → Reg → BitVec 10 → Instr)),
      ReadsBack (mk g x d a c disp) := by
  intro mk hmk
  fin_cases hmk <;> rintro e ⟨⟩ <;>
    simp (disch := omega) [-Nat.reducePow, decodeFields, decRemote, decLoad_mkEnc_remote h]

theorem remoteStore {x : XT} (h : x.isInt = true) (g : Guard) (sq : Bool) (a : Reg) (b : Opnd) (c : Reg)
    (disp : BitVec 10) :
    ∀ mk ∈ ([.sto, .stg] : List (Guard → XT → Bool → Reg → Opnd → Reg → BitVec 10 → Instr)),
      ReadsBack (mk g x sq a b c disp) := by
  intro mk hmk
  fin_cases hmk <;> rintro e ⟨⟩ <;>
    simp (disch := omega) [-Nat.reducePow, decodeFields, decRemote, decStore_mkEnc_remote h]

theorem pf (g : Guard) (a c : Reg) (disp : BitVec 10) : ReadsBack (.pf g a c disp) := by
  rintro e ⟨⟩
  simp (disch := omega) [-Nat.reducePow, decodeFields, decRemote]

/-! OP 0x0A: atomics. -/

theorem atom {x : XT} {op : AtomOp} (h : (if op = .fadd then x == .f32 else x.isAtomInt) = true) (g : Guard)
    (sp : Space) (acq rel : Bool) (d a : Reg) (b : Opnd) : ReadsBack (.atom g x sp op acq rel d a b) := by
  rintro e ⟨⟩
  have := sp.code_lt
  have := b2n_lt acq
  have := b2n_lt rel
  have := op.code_lt
  have := b.kind_lt
  simp (disch := omega) [-Nat.reducePow, decodeFields, decAtomic, h]

theorem atomcas {x : XT} (h : x.isAtomInt = true) (g : Guard) (sp : Space) (acq rel : Bool) (d a : Reg) (b : Opnd)
    (c : Reg) : ReadsBack (.atomcas g x sp acq rel d a b c) := by
  rintro e ⟨⟩
  have := sp.code_lt
  have := b2n_lt acq
  have := b2n_lt rel
  have := b.kind_lt
  simp (disch := omega) [-Nat.reducePow, decodeFields, decAtomic, h]

theorem atomincw {x : XT} (h : x.isAtomZ = true) (g : Guard) (sp : Space) (acq rel : Bool) (d a c : Reg) :
    ReadsBack (.atomincw g x sp acq rel d a c) := by
  rintro e ⟨⟩
  have := sp.code_lt
  have := b2n_lt acq
  have := b2n_lt rel
  simp (disch := omega) [-Nat.reducePow, decodeFields, decAtomic, h]

theorem atomfaddb {x : XT} (h : x.isAtomZ = true) (g : Guard) (sp : Space) (acq rel : Bool) (d : Reg) (pk : Fin 8)
    (a : Reg) (b : Opnd) (c : Reg) : ReadsBack (.atomfaddb g x sp acq rel d pk a b c) := by
  rintro e ⟨⟩
  have := sp.code_lt
  have := b2n_lt acq
  have := b2n_lt rel
  have := b.kind_lt
  simp (disch := omega) [-Nat.reducePow, decodeFields, decAtomic, h]

theorem enq (g : Guard) (sp : Space) (acq rel : Bool) (pk : Fin 8) (a : Reg) (b : Opnd) :
    ReadsBack (.enq g sp acq rel pk a b) := by
  rintro e ⟨⟩
  have := sp.code_lt
  have := b2n_lt acq
  have := b2n_lt rel
  have := b.kind_lt
  simp (disch := omega) [-Nat.reducePow, decodeFields, decAtomic]

theorem deq (g : Guard) (sp : Space) (acq rel : Bool) (d : Reg) (pk : Fin 8) (a : Reg) :
    ReadsBack (.deq g sp acq rel d pk a) := by
  rintro e ⟨⟩
  have := sp.code_lt
  have := b2n_lt acq
  have := b2n_lt rel
  simp (disch := omega) [-Nat.reducePow, decodeFields, decAtomic]

/-! OP 0x0B and 0x0C: messages, mailboxes and links. -/

theorem activeSend (g : Guard) (d a b : Reg) (hidx : BitVec 16) (gen : BitVec 8) :
    ∀ mk ∈ ([.send, .sendt] : List (Guard → Reg → Reg → Reg → BitVec 16 → BitVec 8 → Instr)),
      ReadsBack (mk g d a b hidx gen) := by
  intro mk hmk
  fin_cases hmk <;> rintro e ⟨⟩ <;> simp (disch := omega) [-Nat.reducePow, decodeFields, decMessage]

theorem reply (g : Guard) (d : Reg) : ReadsBack (.reply g d) := by
  rintro e ⟨⟩
  simp (disch := omega) [-Nat.reducePow, decodeFields, decMessage]

theorem mailboxSend (g : Guard) (d a : Reg) (mb : Fin 64) :
    ∀ mk ∈ ([.msend, .msendt] : List (Guard → Reg → Reg → Fin 64 → Instr)), ReadsBack (mk g d a mb) := by
  intro mk hmk
  fin_cases hmk <;> rintro e ⟨⟩ <;> simp (disch := omega) [-Nat.reducePow, decodeFields, decMessage]

theorem mailboxSource (g : Guard) (a : Reg) (mb : Fin 64) :
    ∀ mk ∈ ([.mcfg, .mrel] : List (Guard → Reg → Fin 64 → Instr)), ReadsBack (mk g a mb) := by
  intro mk hmk
  fin_cases hmk <;> rintro e ⟨⟩ <;> simp (disch := omega) [-Nat.reducePow, decodeFields, decMailbox]

theorem mrecv {a : Reg} {t : BitVec 18} (h : tmoWf a t = true) (g : Guard) (d : Reg) (mb : Fin 64) :
    ReadsBack (.mrecv g d a t mb) := by
  rintro e ⟨⟩
  simp (disch := omega) [-Nat.reducePow, decodeFields, decMailbox, h]

theorem mpeek (g : Guard) (d : Reg) (mb : Fin 64) : ReadsBack (.mpeek g d mb) := by
  rintro e ⟨⟩
  simp (disch := omega) [-Nat.reducePow, decodeFields, decMailbox]

theorem nlink (g : Guard) (fe fw clr : Bool) : ReadsBack (.nlink g fe fw clr) := by
  rintro e ⟨⟩
  have := b2n_lt fe
  have := b2n_lt fw
  have := b2n_lt clr
  simp (disch := omega) [-Nat.reducePow, decodeFields, decMailbox]

/-! OP 0x0D and 0x0E: vector arithmetic, compares, conversions and moves. -/

theorem saturating {x : XT} {sat : Bool} (h : (x.isVArith && (!sat || x.isVInt)) = true) (g : Guard) (d a : VReg)
    (b : VSrc) :
    ∀ mk ∈ ([.vadd, .vsub] : List (Guard → XT → Bool → VReg → VReg → VSrc → Instr)), ReadsBack (mk g x sat d a b) := by
  simp only [Bool.and_eq_true] at h
  obtain ⟨hx, hs⟩ := h
  intro mk hmk
  fin_cases hmk <;> rintro e ⟨⟩ <;>
    simp (disch := omega) [-Nat.reducePow, decodeFields, decVArith, decV3_mkEnc (s := true) hx hs]

theorem vectorForm {x : XT} (h : x.isVArith = true) (g : Guard) (d a : VReg) (b : VSrc) :
    ∀ mk ∈ ([.vmul, .vmin, .vmax] : List (Guard → XT → VReg → VReg → VSrc → Instr)), ReadsBack (mk g x d a b) := by
  intro mk hmk
  fin_cases hmk <;> rintro e ⟨⟩ <;> simp (disch := omega) [-Nat.reducePow, decodeFields, decVArith, decV3_mkEnc_plain h]

theorem vectorIntForm {x : XT} (h : x.isVInt = true) (g : Guard) (d a : VReg) (b : VSrc) :
    ∀ mk ∈ ([.vand, .vor, .vxor, .vshl, .vshr, .vsra] : List (Guard → XT → VReg → VReg → VSrc → Instr)),
      ReadsBack (mk g x d a b) := by
  intro mk hmk
  fin_cases hmk <;> rintro e ⟨⟩ <;> simp (disch := omega) [-Nat.reducePow, decodeFields, decVArith, decV3_mkEnc_plain h]

theorem vectorSign {x : XT} (h : (x.isVSigned || x.isFp) = true) (g : Guard) (d a : VReg) :
    ∀ mk ∈ ([.vabs, .vneg] : List (Guard → XT → VReg → VReg → Instr)), ReadsBack (mk g x d a) := by
  intro mk hmk
  fin_cases hmk <;> rintro e ⟨⟩ <;>
    simp (disch := omega) [-Nat.reducePow, decodeFields, decVArith, decV2_mkEnc (ok := fun x => x.isVSigned || x.isFp) h]

theorem vfma {x : XT} (h : x.isFp = true) (g : Guard) (d a : VReg) (b : VSrc) (c : VReg) :
    ReadsBack (.vfma g x d a b c) := by
  rintro e ⟨⟩
  have := b.kind_lt
  have := b.sb_lt
  simp (disch := omega) [-Nat.reducePow, decodeFields, decVArith, h]

theorem vcmp {x : XT} {cc : VCond} (h : cc.fits x = true) (g : Guard) (kd : Fin 8) (a : VReg) (b : VSrc) :
    ReadsBack (.vcmp g x kd cc a b) := by
  rintro e ⟨⟩
  have := b.kind_lt
  have := b.sb_lt
  have := cc.code_lt
  simp (disch := omega) [-Nat.reducePow, decodeFields, decVMisc, toVCond_code h, VCond.isVArith_of_fits h]

theorem vsel (g : Guard) (d a b : VReg) (kc : Fin 8) : ReadsBack (.vsel g d a b kc) := by
  rintro e ⟨⟩
  simp (disch := omega) [-Nat.reducePow, decodeFields, decVMisc]

theorem vcvt {x fr : XT} {half : Bool}
    (h : (x.isVElem && fr.isVElem && !(x.isInt && fr.isInt) && (!half || ((x == .f64) != (fr == .f64)))) = true)
      (g : Guard) (d a : VReg) : ReadsBack (.vcvt g x fr half d a) := by
  rintro e ⟨⟩
  simp only [Bool.and_eq_true] at h
  obtain ⟨⟨⟨hx, hf⟩, hi⟩, hh⟩ := h
  have := fr.code_lt
  have := b2n_lt half
  simp (disch := omega) [-Nat.reducePow, decodeFields, decVMisc, -Bool.not_and, hx, hf, hi, hh]

theorem vsplit {d : VReg} (h : d.val ≤ 29) (g : Guard) (a : VReg) : ReadsBack (.vsplit g d a) := by
  rintro e ⟨⟩
  simp (disch := omega) [-Nat.reducePow, decodeFields, decVMisc, h]

theorem vbcastScalar {x : XT} (h : (x.isVElem && true) = true) (g : Guard) (d : VReg) (o : Opnd) :
    ReadsBack (.vbcast g x d (.sca o)) := by
  rintro e ⟨⟩
  simp only [Bool.and_eq_true] at h
  obtain ⟨hx, -⟩ := h
  have := o.kind_lt
  simp (disch := omega) [-Nat.reducePow, decodeFields, decVMisc, hx]

theorem vbcastLane {x : XT} {l : Fin 32} (h : (x.isVElem && laneWf x l) = true) (g : Guard) (d v : VReg) :
    ReadsBack (.vbcast g x d (.lane v l)) := by
  rintro e ⟨⟩
  simp only [Bool.and_eq_true] at h
  obtain ⟨hx, hl⟩ := h
  simp (disch := omega) [-Nat.reducePow, decodeFields, decVMisc, hx, hl]

theorem vmov (g : Guard) (d a : VReg) : ReadsBack (.vmov g d a) := by
  rintro e ⟨⟩
  simp (disch := omega) [-Nat.reducePow, decodeFields, decVMisc]

theorem vmovLaneToScalar {x : XT} {d : Opnd} {l : Fin 32} (h : (x.isVElem && d.isL && laneWf x l) = true)
    (g : Guard) (a : VReg) : ReadsBack (.vmovLaneToScalar g x d a l) := by
  rintro e ⟨⟩
  simp only [Bool.and_eq_true] at h
  obtain ⟨⟨hx, hd⟩, hl⟩ := h
  have := d.kind_lt
  simp (disch := omega) [-Nat.reducePow, decodeFields, decVMisc, hx, hd, hl]

/-- SUB holds 2 in its top bits where an element is written (12 R174). -/
theorem bitsAt_two_at_ten {n : Nat} (h : n < 2 ^ 10) : bitsAt (n + 2 ^ 11) 10 2 = 2 :=
  bitsAt_add_above (b := 2) h (Nat.le_refl 10)

theorem vmovScalarToLane {x : XT} {l : Fin 32} (h : (x.isVElem && laneWf x l) = true) (g : Guard) (d : VReg)
    (a : Opnd) : ReadsBack (.vmovScalarToLane g x d l a) := by
  rintro e ⟨⟩
  simp only [Bool.and_eq_true] at h
  obtain ⟨hx, hl⟩ := h
  have := a.kind_lt
  simp (disch := omega) [-Nat.reducePow, decodeFields, decVMisc, bitsAt_two_at_ten, hx, hl]

/-! OP 0x0F and 0x10: vector memory, permutations and reductions. -/

theorem vld {x : XT} (h : x.isVElem = true) (g : Guard) (cm : Bool) (d : VReg) (a : Reg) (disp : BitVec 10) :
    ReadsBack (.vld g x cm d a disp) := by
  rintro e ⟨⟩
  have := b2n_lt cm
  simp (disch := omega) [-Nat.reducePow, decodeFields, decVMem, h]

theorem vst {x : XT} (h : x.isVElem = true) (g : Guard) (cm : Bool) (a : Reg) (b : VReg) (disp : BitVec 10) :
    ReadsBack (.vst g x cm a b disp) := by
  rintro e ⟨⟩
  have := b2n_lt cm
  simp (disch := omega) [-Nat.reducePow, decodeFields, decVMem, h]

theorem vgath {x : XT} (h : x.isVElem = true) (g : Guard) (cm : Bool) (d : VReg) (a : Reg) (b : VReg) :
    ReadsBack (.vgath g x cm d a b) := by
  rintro e ⟨⟩
  have := b2n_lt cm
  simp (disch := omega) [-Nat.reducePow, decodeFields, decVMem, h]

theorem vscat {x : XT} (h : x.isVElem = true) (g : Guard) (cm : Bool) (a : Reg) (b c : VReg) :
    ReadsBack (.vscat g x cm a b c) := by
  rintro e ⟨⟩
  have := b2n_lt cm
  simp (disch := omega) [-Nat.reducePow, decodeFields, decVMem, h]

theorem vstream {x : XT} (h : (x == .i32 || x == .z32 || x == .f32) = true) (g : Guard) (d : Fin 8) (a : Reg) :
    ReadsBack (.vstream g x d a) := by
  rintro e ⟨⟩
  simp (disch := omega) [-Nat.reducePow, decodeFields, decVMem, h, show 24 + d.val < 32 by omega]

theorem vstop (g : Guard) (d : Fin 8) : ReadsBack (.vstop g d) := by
  rintro e ⟨⟩
  simp (disch := omega) [-Nat.reducePow, decodeFields, decVMem, show 24 + d.val < 32 by omega]

theorem vshuf (g : Guard) (d a b : VReg) : ReadsBack (.vshuf g d a b) := by
  rintro e ⟨⟩
  simp (disch := omega) [-Nat.reducePow, decodeFields, decVRed]

theorem vred {x : XT} {op : RedOp} {d : Opnd} (h : (x.isVArith && d.isL && redOk x op) = true) (g : Guard) (a : VReg) :
    ReadsBack (.vred g x op d a) := by
  rintro e ⟨⟩
  simp only [Bool.and_eq_true] at h
  obtain ⟨⟨hx, hd⟩, ho⟩ := h
  have := d.kind_lt
  have := op.code_lt
  simp (disch := omega) [-Nat.reducePow, decodeFields, decVRed, hx, hd, ho]

theorem vscan {x : XT} {op : RedOp} (h : (x.isVArith && redOk x op) = true) (g : Guard) (d a : VReg) :
    ReadsBack (.vscan g x op d a) := by
  rintro e ⟨⟩
  simp only [Bool.and_eq_true] at h
  obtain ⟨hx, ho⟩ := h
  have := op.code_lt
  simp (disch := omega) [-Nat.reducePow, decodeFields, decVRed, hx, ho]

/-! OP 0x11: the matrix array. -/

theorem product {f : MFmt} (h : f.wf = true) (g : Guard) (d : Fin 4) :
    ∀ mk ∈ ([.mma, .mmaz] : List (Guard → MFmt → Fin 4 → Instr)), ReadsBack (mk g f d) := by
  have := f.pspec_lt
  intro mk hmk
  fin_cases hmk <;> rintro e ⟨⟩ <;> simp (disch := omega) [-Nat.reducePow, decodeFields, decMatrix, mfmt_mkEnc_pspec h]

theorem latchLoad {f : MFmt} {c : Reg} (h : (f.wf && f.strideWf c) = true) (g : Guard) (cm : Bool) (a b : Reg) :
    ∀ mk ∈ ([.mlda, .mldb] : List (Guard → MFmt → Bool → Reg → Reg → Reg → Instr)), ReadsBack (mk g f cm a b c) := by
  intro mk hmk
  fin_cases hmk <;> rintro e ⟨⟩ <;> simp (disch := omega) [-Nat.reducePow, decodeFields, decMatrix, decLatch_mkEnc h]

theorem mgath {f : MFmt} {c : Reg} (h : (f.wf && f.strideWf c) = true) (g : Guard) (cm : Bool) (a : Reg) (b : VReg) :
    ReadsBack (.mgath g f cm a b c) := by
  rintro e ⟨⟩
  simp only [Bool.and_eq_true] at h
  obtain ⟨hf, hc⟩ := h
  have := f.pspec_lt
  have := b2n_lt cm
  simp (disch := omega) [-Nat.reducePow, decodeFields, decMatrix, mfmt_mkEnc hf, hc]

theorem mldacc {x : XT} (h : x.isAccMem = true) (g : Guard) (cm : Bool) (d : Fin 4) (a b : Reg) :
    ReadsBack (.mldacc g x cm d a b) := by
  rintro e ⟨⟩
  have := b2n_lt cm
  simp (disch := omega) [-Nat.reducePow, decodeFields, decMatrix, h]

theorem mstacc {x : XT} (h : x.isAccMem = true) (g : Guard) (cm : Bool) (d : Fin 4) (a b : Reg) (e : BitVec 8)
    (f : Fin 4) : ReadsBack (.mstacc g x cm d a b e f) := by
  rintro e ⟨⟩
  have := b2n_lt cm
  simp (disch := omega) [-Nat.reducePow, decodeFields, decMatrix, h]

theorem mclr (g : Guard) (d : Fin 4) : ReadsBack (.mclr g d) := by
  rintro e ⟨⟩
  simp (disch := omega) [-Nat.reducePow, decodeFields, decMatrix]

theorem mmask (g : Guard) (mm nm : Fin 32) (km : BitVec 8) : ReadsBack (.mmask g mm nm km) := by
  rintro e ⟨⟩
  simp (disch := omega) [-Nat.reducePow, decodeFields, decMatrix]

/-! OP 0x12 to 0x14: barriers and semaphores. -/

theorem localBarrier (g : Guard) (a : Reg) (lb : Fin 64) :
    ∀ mk ∈ ([.lbinit, .lbarr, .lbdrop, .lbjoin, .lbexp] : List (Guard → Reg → Fin 64 → Instr)),
      ReadsBack (mk g a lb) := by
  intro mk hmk
  fin_cases hmk <;> rintro e ⟨⟩ <;> simp (disch := omega) [-Nat.reducePow, decodeFields, decLb]

theorem lbwait {a : Reg} {t : BitVec 17} (h : tmoWf a t = true) (g : Guard) (d : Reg) (par : Bool) (lb : Fin 64) :
    ReadsBack (.lbwait g d a t par lb) := by
  rintro e ⟨⟩
  have := b2n_lt par
  simp (disch := omega) [-Nat.reducePow, decodeFields, decLb, h]

theorem lbtest (g : Guard) (d : Reg) (lb : Fin 64) : ReadsBack (.lbtest g d lb) := by
  rintro e ⟨⟩
  simp (disch := omega) [-Nat.reducePow, decodeFields, decLb]

theorem mshcfg (g : Guard) (a : Reg) (m : Fin 16) : ReadsBack (.mshcfg g a m) := by
  rintro e ⟨⟩
  simp (disch := omega) [-Nat.reducePow, decodeFields, decMsh]

theorem mshar (g : Guard) (m : Fin 16) : ReadsBack (.mshar g m) := by
  rintro e ⟨⟩
  simp (disch := omega) [-Nat.reducePow, decodeFields, decMsh]

theorem mshwait {a : Reg} {t : BitVec 19} (h : tmoWf a t = true) (g : Guard) (d : Reg) (par : Bool) (m : Fin 16) :
    ReadsBack (.mshwait g d a t par m) := by
  rintro e ⟨⟩
  have := b2n_lt par
  simp (disch := omega) [-Nat.reducePow, decodeFields, decMsh, h]

theorem mshstat (g : Guard) (d : Reg) (sel : Fin 4) (m : Fin 16) : ReadsBack (.mshstat g d sel m) := by
  rintro e ⟨⟩
  simp (disch := omega) [-Nat.reducePow, decodeFields, decMsh]

theorem semwait {a : Reg} {t : BitVec 16} (h : tmoWf a t = true) (g : Guard) (d b : Reg) (s : BitVec 8) :
    ReadsBack (.semwait g d a b t s) := by
  rintro e ⟨⟩
  simp (disch := omega) [-Nat.reducePow, decodeFields, decSem, h]

theorem semsig (g : Guard) (a b : Reg) (s : BitVec 8) : ReadsBack (.semsig g a b s) := by
  rintro e ⟨⟩
  simp (disch := omega) [-Nat.reducePow, decodeFields, decSem]

theorem semset (g : Guard) (a : Reg) (s : BitVec 8) : ReadsBack (.semset g a s) := by
  rintro e ⟨⟩
  simp (disch := omega) [-Nat.reducePow, decodeFields, decSem]

theorem semget (g : Guard) (d : Reg) (s : BitVec 8) : ReadsBack (.semget g d s) := by
  rintro e ⟨⟩
  simp (disch := omega) [-Nat.reducePow, decodeFields, decSem]

/-! OP 0x15 to 0x17: holds, fences and tasks. -/

theorem holdSource (g : Guard) (a : Reg) :
    ∀ mk ∈ ([.declare, .dline, .dlineRel] : List (Guard → Reg → Instr)), ReadsBack (mk g a) := by
  intro mk hmk
  fin_cases hmk <;> rintro e ⟨⟩ <;> simp (disch := omega) [-Nat.reducePow, decodeFields, decHold]

theorem hold (g : Guard) : ReadsBack (.hold g) := by
  rintro e ⟨⟩
  simp (disch := omega) [-Nat.reducePow, decodeFields, decHold]

theorem holdForm (g : Guard) (d a : Reg) :
    ∀ mk ∈ ([.holdx, .rel, .relEnd, .holdst, .holdstObj] : List (Guard → Reg → Reg → Instr)), ReadsBack (mk g d a) := by
  intro mk hmk
  fin_cases hmk <;> rintro e ⟨⟩ <;> simp (disch := omega) [-Nat.reducePow, decodeFields, decHold]

theorem fence (g : Guard) (fr tt : FenceClass) (sc : FenceScope) : ReadsBack (.fence g fr tt sc) := by
  rintro e ⟨⟩
  have := fr.code_lt
  have := tt.code_lt
  have := sc.code_lt
  simp (disch := omega) [-Nat.reducePow, decodeFields, decFence]

theorem twoSources (g : Guard) (a b : Reg) :
    ∀ mk ∈ ([.spawn, .trigd] : List (Guard → Reg → Reg → Instr)), ReadsBack (mk g a b) := by
  intro mk hmk
  fin_cases hmk <;> rintro e ⟨⟩ <;> simp (disch := omega) [-Nat.reducePow, decodeFields, decTask]

theorem dist (g : Guard) (d : Reg) : ReadsBack (.dist g d) := by
  rintro e ⟨⟩
  simp (disch := omega) [-Nat.reducePow, decodeFields, decTask]

theorem widx (g : Guard) (d a : Reg) (fld : Fin 6) : ReadsBack (.widx g d a fld) := by
  rintro e ⟨⟩
  simp (disch := omega) [-Nat.reducePow, decodeFields, decTask]

theorem trig {a : Reg} (h : (a.val != 0) = true) (g : Guard) (tc : Fin 16) : ReadsBack (.trig g a tc) := by
  rintro e ⟨⟩
  simp (disch := omega) [-Nat.reducePow, decodeFields, decTask, show a.val ≠ 0 by simpa using h]

theorem trigDisarm (g : Guard) (tc : Fin 16) : ReadsBack (.trigDisarm g tc) := by
  rintro e ⟨⟩
  simp (disch := omega) [-Nat.reducePow, decodeFields, decTask]

/-! OP 0x18 to 0x1C: engines, the GMU and the refinement loop. -/

theorem engine {e : Eng} (h : e.wf = true) (g : Guard) :
    ∀ mk ∈ ([.cpy, .cpyr, .cpym, .bte, .coll, .xfer, .rlcrun] : List (Guard → Eng → Instr)), ReadsBack (mk g e) := by
  intro mk hmk
  fin_cases hmk <;> rintro e ⟨⟩ <;>
    simp (disch := omega) [-Nat.reducePow, decodeFields, decCopy, decEdge, decRlc, decEng_mkEnc h]

theorem streamer {e : Eng} (h : e.wf = true) (g : Guard) (rg : Fin 16) :
    ∀ mk ∈ ([.subscribe, .drain, .unsub] : List (Guard → Fin 16 → Eng → Instr)), ReadsBack (mk g rg e) := by
  intro mk hmk
  fin_cases hmk <;> rintro e ⟨⟩ <;>
    simp (disch := omega) [-Nat.reducePow, decodeFields, decStreamer, decEngRing_mkEnc h]

theorem rlcForm (g : Guard) (d : Reg) :
    ∀ mk ∈ ([.rlcstat, .rlcabort] : List (Guard → Reg → Instr)), ReadsBack (mk g d) := by
  intro mk hmk
  fin_cases hmk <;> rintro e ⟨⟩ <;> simp (disch := omega) [-Nat.reducePow, decodeFields, decRlc]

theorem gcfg (g : Guard) (d a b : Reg) : ReadsBack (.gcfg g d a b) := by
  rintro e ⟨⟩
  simp (disch := omega) [-Nat.reducePow, decodeFields, decGmu]

theorem gld (g : Guard) (d : Fin 4) (a : Reg) (n : Fin 32) (cm : Bool) : ReadsBack (.gld g d a n cm) := by
  rintro e ⟨⟩
  have := b2n_lt cm
  simp (disch := omega) [-Nat.reducePow, decodeFields, decGmu]

theorem gldHdr (g : Guard) (d : Fin 4) (a : Reg) (cm : Bool) : ReadsBack (.gldHdr g d a cm) := by
  rintro e ⟨⟩
  have := b2n_lt cm
  simp (disch := omega) [-Nat.reducePow, decodeFields, decGmu]

theorem gst (g : Guard) (a : Reg) (b : Fin 4) (n : Fin 32) (cm : Bool) : ReadsBack (.gst g a b n cm) := by
  rintro e ⟨⟩
  have := b2n_lt cm
  simp (disch := omega) [-Nat.reducePow, decodeFields, decGmu]

theorem gzero (g : Guard) (d : Fin 4) : ReadsBack (.gzero g d) := by
  rintro e ⟨⟩
  simp (disch := omega) [-Nat.reducePow, decodeFields, decGmu]

theorem gaddp {n o : Fin 32} (h : o.val + n.val + 1 ≤ 32) (g : Guard) (d a : Fin 4) :
    ReadsBack (.gaddp g d a n o) := by
  rintro e ⟨⟩
  simp (disch := omega) [-Nat.reducePow, decodeFields, decGmu, h]

theorem gschur {n o : Fin 32} {k : Fin 8}
    (h : (decide (o.val + k.val + 1 ≤ n.val + 1) && decide (n.val + 1 - (k.val + 1) ≤ 24)) = true) (g : Guard)
        (d a : Fin 4) : ReadsBack (.gschur g d a n o k) := by
  rintro e ⟨⟩
  simp only [Bool.and_eq_true] at h
  obtain ⟨ho, hn⟩ := h
  have := of_decide_eq_true hn
  simp (disch := omega) [-Nat.reducePow, decodeFields, decGmu, of_decide_eq_true ho, show n.val ≤ 24 + k.val by omega]

theorem gdamp (g : Guard) (d a : Fin 4) (n : Fin 32) (mb : Fin 64) : ReadsBack (.gdamp g d a n mb) := by
  rintro e ⟨⟩
  simp (disch := omega) [-Nat.reducePow, decodeFields, decGmu]

theorem gres (g : Guard) (d : Reg) (a b : Fin 4) (n : Fin 32) : ReadsBack (.gres g d a b n) := by
  rintro e ⟨⟩
  simp (disch := omega) [-Nat.reducePow, decodeFields, decGmu]

theorem gsend {n : Fin 32} (h : n.val ≤ 13) (g : Guard) (d a : Reg) (b : Fin 4) (c : Reg) (once : Bool) (mb : Fin 64) :
    ReadsBack (.gsend g d a b c once mb n) := by
  rintro e ⟨⟩
  have := b2n_lt once
  simp (disch := omega) [-Nat.reducePow, decodeFields, decGmu, h]

theorem gsolve (g : Guard) (d a : Fin 4) (n : Fin 32) : ReadsBack (.gsolve g d a n) := by
  rintro e ⟨⟩
  simp (disch := omega) [-Nat.reducePow, decodeFields, decGmu]

/-! OP 0x1D and 0x1E: pipeline stages and the system instructions. -/

theorem stgdecl {sg : BitVec 8} (h : (sg != 0) = true) (g : Guard) (d a : Reg) : ReadsBack (.stgdecl g d a sg) := by
  rintro e ⟨⟩
  simp (disch := omega) [-Nat.reducePow, decodeFields, decStage, show (sg != 0#8) = true from h]

theorem stgq {sg : BitVec 8} (h : (sg != 0) = true) (g : Guard) (mb : Fin 64) (bm1 : Fin 16) :
    ReadsBack (.stgq g mb sg bm1) := by
  rintro e ⟨⟩
  simp (disch := omega) [-Nat.reducePow, decodeFields, decStage, show (sg != 0#8) = true from h]

theorem stgqClr (g : Guard) (mb : Fin 64) : ReadsBack (.stgqClr g mb) := by
  rintro e ⟨⟩
  simp (disch := omega) [-Nat.reducePow, decodeFields, decStage]

theorem stshal (g : Guard) (d : Reg) (ss : Fin 64) : ReadsBack (.stshal g d ss) := by
  rintro e ⟨⟩
  simp (disch := omega) [-Nat.reducePow, decodeFields, decStage]

theorem stashFree (g : Guard) (a : Reg) (ss : Fin 64) :
    ∀ mk ∈ ([.stshfr, .stshfrInit] : List (Guard → Reg → Fin 64 → Instr)), ReadsBack (mk g a ss) := by
  intro mk hmk
  fin_cases hmk <;> rintro e ⟨⟩ <;> simp (disch := omega) [-Nat.reducePow, decodeFields, decStage]

theorem stgstat (g : Guard) (d : Reg) (sg : BitVec 8) : ReadsBack (.stgstat g d sg) := by
  rintro e ⟨⟩
  simp (disch := omega) [-Nat.reducePow, decodeFields, decStage]

theorem stgstatStash (g : Guard) (d : Reg) (ss : Fin 64) : ReadsBack (.stgstatStash g d ss) := by
  rintro e ⟨⟩
  simp (disch := omega) [-Nat.reducePow, decodeFields, decStage]

theorem trap (g : Guard) (code : BitVec 24) : ReadsBack (.trap g code) := by
  rintro e ⟨⟩
  simp (disch := omega) [-Nat.reducePow, decodeFields, decSystem]

theorem eret (g : Guard) : ReadsBack (.eret g) := by
  rintro e ⟨⟩
  simp (disch := omega) [-Nat.reducePow, decodeFields, decSystem]

theorem csrr (g : Guard) (d : Reg) (n : Csr) : ReadsBack (.csrr g d n) := by
  rintro e ⟨⟩
  have := n.number_lt
  simp (disch := omega) [-Nat.reducePow, decodeFields, decSystem]

theorem csrw {n : Csr} (h : (n != .icinv && n != .deadline) = true) (g : Guard) (a : Reg) :
    ReadsBack (.csrw g a n) := by
  rintro e ⟨⟩
  simp only [Bool.and_eq_true] at h
  obtain ⟨hi, hd⟩ := h
  have := n.number_lt
  simp (disch := omega)
      [-Nat.reducePow, decodeFields, decSystem, show n ≠ .icinv by simpa using hi,
      show n ≠ .deadline by simpa using hd]

theorem ownRowWrite (g : Guard) (a : Reg) :
    ∀ mk ∈ ([.icinvWrite, .deadlineWrite] : List (Guard → Reg → Instr)), ReadsBack (mk g a) := by
  intro mk hmk
  fin_cases hmk <;> rintro e ⟨⟩ <;> simp (disch := omega) [-Nat.reducePow, decodeFields, decSystem, Csr.ofNumber]

theorem csrx (g : Guard) (d a : Reg) (n : Csr) : ReadsBack (.csrx g d a n) := by
  rintro e ⟨⟩
  have := n.number_lt
  simp (disch := omega) [-Nat.reducePow, decodeFields, decSystem]

theorem query (g : Guard) (d a : Reg) :
    ∀ mk ∈ ([.wdog, .feat, .speed] : List (Guard → Reg → Reg → Instr)), ReadsBack (mk g d a) := by
  intro mk hmk
  fin_cases hmk <;> rintro e ⟨⟩ <;> simp (disch := omega) [-Nat.reducePow, decodeFields, decSystem]

theorem tableWrite (g : Guard) (d a b : Reg) :
    ∀ mk ∈ ([.plsetPlace, .plsetPerm] : List (Guard → Reg → Reg → Reg → Instr)), ReadsBack (mk g d a b) := by
  intro mk hmk
  fin_cases hmk <;> rintro e ⟨⟩ <;> simp (disch := omega) [-Nat.reducePow, decodeFields, decSystem]

end ReadsBack

open ReadsBack in
/-- The decoder reads every well-formed instruction from the fields that the encoder made of it. -/
theorem readsBack_of_wf (i : Instr) (h : i.wf = true) : ReadsBack i := by
  cases i with
  | endPart g => exact endPart g
  | add g x d a b | sub g x d a b | mul g x d a b | and g x d a b | or g x d a b | xor g x d a b | andn g x d a b
  | shl g x d a b | shr g x d a b | sra g x d a b | rol g x d a b => exact intForm h g a b _ (by simp)
  | mulh g x d a b | div g x d a b | rem g x d a b | min g x d a b | max g x d a b =>
    exact signedForm h g a b _ (by simp)
  | mulhz g x d a b | divz g x d a b | remz g x d a b | minz g x d a b | maxz g x d a b =>
    exact unsignedForm h g a b _ (by simp)
  | addi g x d a i | andi g x d a i | ori g x d a i | xori g x d a i | shli g x d a i | shri g x d a i
  | srai g x d a i | roli g x d a i | muli g x d a i => exact immForm h g d a i _ (by simp)
  | movi g d j | movw g d j => exact longMove g d j _ (by simp)
  | mov g x d a | clz g x d a | ctz g x d a | popc g x d a => exact oneSource h g a _ (by simp)
  | sext g x d a => exact sext h g a
  | zext g x d a => exact zext h g a
  | lea g d a b sc disp => exact lea h g a b sc disp
  | rdtick g d => exact rdtick g d
  | cmp g x kd cc a b => exact cmp h g kd cc a b
  | sel g d a b kc => exact sel h g a b kc
  | bfx g x d a pos lm1 => exact bfx h g a
  | bfi g d a pos lm1 => exact bfi h g d a
  | fadd g x d a b | fsub g x d a b | fmul g x d a b | fdiv g x d a b | fmin g x d a b | fmax g x d a b =>
    exact fpForm h g a b _ (by simp)
  | fma g x d a b c => exact fma h g a b c
  | fsqrt g x d a => exact fsqrt h g a
  | fclass g x d a => exact fclass h g a
  | fcmp g x kd cc a b => exact fcmp h g kd cc a b
  | fcvt g x fr d a => exact fcvt h g a
  | fsgn g x m d a b => exact fsgn h g m a b
  | br g i => exact br g i
  | jmp g d a i => exact jmp g d a i
  | call g d i => exact call g d i
  | ret g a => exact ret g a
  | loop g lc a i => exact loop (of_decide_eq_true h) g lc a
  | tret g => exact tret g
  | pause g a i => exact pause h g
  | bqpush g k => exact bqpush g k
  | bqbr g sense i => exact bqbr g sense i
  | ld g x cm d a c disp => exact ld h g cm d a c disp
  | st g x cm sq a b c disp => exact st h g cm sq a b c disp
  | ldo g x d a c disp | ldg g x d a c disp => exact remoteLoad h g d a c disp _ (by simp)
  | sto g x sq a b c disp | stg g x sq a b c disp => exact remoteStore h g sq a b c disp _ (by simp)
  | pf g a c disp => exact pf g a c disp
  | atom g x sp op acq rel d a b => exact atom h g sp acq rel d a b
  | atomcas g x sp acq rel d a b c => exact atomcas h g sp acq rel d a b c
  | atomincw g x sp acq rel d a c => exact atomincw h g sp acq rel d a c
  | atomfaddb g x sp acq rel d pk a b c => exact atomfaddb h g sp acq rel d pk a b c
  | enq g sp acq rel pk a b => exact enq g sp acq rel pk a b
  | deq g sp acq rel d pk a => exact deq g sp acq rel d pk a
  | send g d a b hidx gen | sendt g d a b hidx gen => exact activeSend g d a b hidx gen _ (by simp)
  | reply g d => exact reply g d
  | msend g d a mb | msendt g d a mb => exact mailboxSend g d a mb _ (by simp)
  | mcfg g a mb | mrel g a mb => exact mailboxSource g a mb _ (by simp)
  | mrecv g d a t mb => exact mrecv h g d mb
  | mpeek g d mb => exact mpeek g d mb
  | nlink g fe fw clr => exact nlink g fe fw clr
  | vadd g x sat d a b | vsub g x sat d a b => exact saturating h g d a b _ (by simp)
  | vmul g x d a b | vmin g x d a b | vmax g x d a b => exact vectorForm h g d a b _ (by simp)
  | vand g x d a b | vor g x d a b | vxor g x d a b | vshl g x d a b | vshr g x d a b | vsra g x d a b =>
    exact vectorIntForm h g d a b _ (by simp)
  | vabs g x d a | vneg g x d a => exact vectorSign h g d a _ (by simp)
  | vfma g x d a b c => exact vfma h g d a b c
  | vcmp g x kd cc a b => exact vcmp h g kd a b
  | vsel g d a b kc => exact vsel g d a b kc
  | vcvt g x fr half d a => exact vcvt h g d a
  | vsplit g d a => exact vsplit (of_decide_eq_true h) g a
  | vbcast g x d src =>
    cases src with
    | sca o => exact vbcastScalar h g d o
    | lane v l => exact vbcastLane h g d v
  | vmov g d a => exact vmov g d a
  | vmovLaneToScalar g x d a l => exact vmovLaneToScalar h g a
  | vmovScalarToLane g x d l a => exact vmovScalarToLane h g d a
  | vld g x cm d a disp => exact vld h g cm d a disp
  | vst g x cm a b disp => exact vst h g cm a b disp
  | vgath g x cm d a b => exact vgath h g cm d a b
  | vscat g x cm a b c => exact vscat h g cm a b c
  | vstream g x d a => exact vstream h g d a
  | vstop g d => exact vstop g d
  | vshuf g d a b => exact vshuf g d a b
  | vred g x op d a => exact vred h g a
  | vscan g x op d a => exact vscan h g d a
  | mma g f d | mmaz g f d => exact product h g d _ (by simp)
  | mlda g f cm a b c | mldb g f cm a b c => exact latchLoad h g cm a b _ (by simp)
  | mgath g f cm a b c => exact mgath h g cm a b
  | mldacc g x cm d a b => exact mldacc h g cm d a b
  | mstacc g x cm d a b e f => exact mstacc h g cm d a b e f
  | mclr g d => exact mclr g d
  | mmask g mm nm km => exact mmask g mm nm km
  | lbinit g a lb | lbarr g a lb | lbdrop g a lb | lbjoin g a lb | lbexp g a lb => exact localBarrier g a lb _ (by simp)
  | lbwait g d a t par lb => exact lbwait h g d par lb
  | lbtest g d lb => exact lbtest g d lb
  | mshcfg g a m => exact mshcfg g a m
  | mshar g m => exact mshar g m
  | mshwait g d a t par m => exact mshwait h g d par m
  | mshstat g d sel m => exact mshstat g d sel m
  | semwait g d a b t s => exact semwait h g d b s
  | semsig g a b s => exact semsig g a b s
  | semset g a s => exact semset g a s
  | semget g d s => exact semget g d s
  | declare g a | dline g a | dlineRel g a => exact holdSource g a _ (by simp)
  | hold g => exact hold g
  | holdx g d a | rel g d a | relEnd g d a | holdst g d a | holdstObj g d a => exact holdForm g d a _ (by simp)
  | fence g fr tt sc => exact fence g fr tt sc
  | spawn g a b | trigd g a b => exact twoSources g a b _ (by simp)
  | dist g d => exact dist g d
  | widx g d a fld => exact widx g d a fld
  | trig g a tc => exact trig h g tc
  | trigDisarm g tc => exact trigDisarm g tc
  | cpy g e | cpyr g e | cpym g e | bte g e | coll g e | xfer g e | rlcrun g e => exact engine h g _ (by simp)
  | subscribe g rg e | drain g rg e | unsub g rg e => exact streamer h g rg _ (by simp)
  | rlcstat g d | rlcabort g d => exact rlcForm g d _ (by simp)
  | gcfg g d a b => exact gcfg g d a b
  | gld g d a n cm => exact gld g d a n cm
  | gldHdr g d a cm => exact gldHdr g d a cm
  | gst g a b n cm => exact gst g a b n cm
  | gzero g d => exact gzero g d
  | gaddp g d a n o => exact gaddp (of_decide_eq_true h) g d a
  | gschur g d a n o k => exact gschur h g d a
  | gdamp g d a n mb => exact gdamp g d a n mb
  | gres g d a b n => exact gres g d a b n
  | gsend g d a b c once mb n => exact gsend (of_decide_eq_true h) g d a b c once mb
  | gsolve g d a n => exact gsolve g d a n
  | stgdecl g d a sg => exact stgdecl h g d a
  | stgq g mb sg bm1 => exact stgq h g mb bm1
  | stgqClr g mb => exact stgqClr g mb
  | stshal g d ss => exact stshal g d ss
  | stshfr g a ss | stshfrInit g a ss => exact stashFree g a ss _ (by simp)
  | stgstat g d sg => exact stgstat g d sg
  | stgstatStash g d ss => exact stgstatStash g d ss
  | trap g code => exact trap g code
  | eret g => exact eret g
  | csrr g d n => exact csrr g d n
  | csrw g a n => exact csrw h g a
  | csrx g d a n => exact csrx g d a n
  | icinvWrite g a | deadlineWrite g a => exact ownRowWrite g a _ (by simp)
  | wdog g d a | feat g d a | speed g d a => exact query g d a _ (by simp)
  | plsetPlace g d a b | plsetPerm g d a b => exact tableWrite g d a b _ (by simp)
  | _ => exact fun _ h => nomatch h

open Laws.EncodingsFit in
/-- Every field that the encoder makes is in its range. -/
theorem encodeFields_bounded (i : Instr) : Statement i := by
  cases i with
  | endPart g => exact endPart g
  | add g x d a b => exact add g x d a b
  | sub g x d a b => exact sub g x d a b
  | mul g x d a b => exact mul g x d a b
  | mulh g x d a b => exact mulh g x d a b
  | mulhz g x d a b => exact mulhz g x d a b
  | div g x d a b => exact div g x d a b
  | divz g x d a b => exact divz g x d a b
  | rem g x d a b => exact rem g x d a b
  | remz g x d a b => exact remz g x d a b
  | and g x d a b => exact and g x d a b
  | or g x d a b => exact or g x d a b
  | xor g x d a b => exact xor g x d a b
  | andn g x d a b => exact andn g x d a b
  | shl g x d a b => exact shl g x d a b
  | shr g x d a b => exact shr g x d a b
  | sra g x d a b => exact sra g x d a b
  | rol g x d a b => exact rol g x d a b
  | min g x d a b => exact min g x d a b
  | max g x d a b => exact max g x d a b
  | minz g x d a b => exact minz g x d a b
  | maxz g x d a b => exact maxz g x d a b
  | addi g x d a i => exact addi g x d a i
  | andi g x d a i => exact andi g x d a i
  | ori g x d a i => exact ori g x d a i
  | xori g x d a i => exact xori g x d a i
  | shli g x d a i => exact shli g x d a i
  | shri g x d a i => exact shri g x d a i
  | srai g x d a i => exact srai g x d a i
  | roli g x d a i => exact roli g x d a i
  | muli g x d a i => exact muli g x d a i
  | movi g d j => exact movi g d j
  | movw g d j => exact movw g d j
  | mov g x d a => exact mov g x d a
  | lea g d a b sc disp => exact lea g d a b sc disp
  | rdtick g d => exact rdtick g d
  | cmp g x kd cc a b => exact cmp g x kd cc a b
  | sel g d a b kc => exact sel g d a b kc
  | clz g x d a => exact clz g x d a
  | ctz g x d a => exact ctz g x d a
  | popc g x d a => exact popc g x d a
  | bfx g x d a pos lm1 => exact bfx g x d a pos lm1
  | bfi g d a pos lm1 => exact bfi g d a pos lm1
  | sext g x d a => exact sext g x d a
  | zext g x d a => exact zext g x d a
  | fadd g x d a b => exact fadd g x d a b
  | fsub g x d a b => exact fsub g x d a b
  | fmul g x d a b => exact fmul g x d a b
  | fma g x d a b c => exact fma g x d a b c
  | fdiv g x d a b => exact fdiv g x d a b
  | fsqrt g x d a => exact fsqrt g x d a
  | fmin g x d a b => exact fmin g x d a b
  | fmax g x d a b => exact fmax g x d a b
  | fcmp g x kd cc a b => exact fcmp g x kd cc a b
  | fcvt g x fr d a => exact fcvt g x fr d a
  | fsgn g x m d a b => exact fsgn g x m d a b
  | fclass g x d a => exact fclass g x d a
  | br g i => exact br g i
  | jmp g d a i => exact jmp g d a i
  | call g d i => exact call g d i
  | ret g a => exact ret g a
  | loop g lc a i => exact loop g lc a i
  | tret g => exact tret g
  | pause g a i => exact pause g a i
  | bqpush g k => exact bqpush g k
  | bqbr g sense i => exact bqbr g sense i
  | ld g x cm d a c disp => exact ld g x cm d a c disp
  | st g x cm sq a b c disp => exact st g x cm sq a b c disp
  | ldo g x d a c disp => exact ldo g x d a c disp
  | sto g x sq a b c disp => exact sto g x sq a b c disp
  | ldg g x d a c disp => exact ldg g x d a c disp
  | stg g x sq a b c disp => exact stg g x sq a b c disp
  | pf g a c disp => exact pf g a c disp
  | atom g x sp op acq rel d a b => exact atom g x sp op acq rel d a b
  | atomcas g x sp acq rel d a b c => exact atomcas g x sp acq rel d a b c
  | atomincw g x sp acq rel d a c => exact atomincw g x sp acq rel d a c
  | atomfaddb g x sp acq rel d pk a b c => exact atomfaddb g x sp acq rel d pk a b c
  | enq g sp acq rel pk a b => exact enq g sp acq rel pk a b
  | deq g sp acq rel d pk a => exact deq g sp acq rel d pk a
  | send g d a b hidx gen => exact send g d a b hidx gen
  | sendt g d a b hidx gen => exact sendt g d a b hidx gen
  | reply g d => exact reply g d
  | msend g d a mb => exact msend g d a mb
  | msendt g d a mb => exact msendt g d a mb
  | mcfg g a mb => exact mcfg g a mb
  | mrecv g d a tmo mb => exact mrecv g d a tmo mb
  | mpeek g d mb => exact mpeek g d mb
  | mrel g a mb => exact mrel g a mb
  | nlink g fe fw clr => exact nlink g fe fw clr
  | vadd g x sat d a b => exact vadd g x sat d a b
  | vsub g x sat d a b => exact vsub g x sat d a b
  | vmul g x d a b => exact vmul g x d a b
  | vfma g x d a b c => exact vfma g x d a b c
  | vmin g x d a b => exact vmin g x d a b
  | vmax g x d a b => exact vmax g x d a b
  | vabs g x d a => exact vabs g x d a
  | vneg g x d a => exact vneg g x d a
  | vand g x d a b => exact vand g x d a b
  | vor g x d a b => exact vor g x d a b
  | vxor g x d a b => exact vxor g x d a b
  | vshl g x d a b => exact vshl g x d a b
  | vshr g x d a b => exact vshr g x d a b
  | vsra g x d a b => exact vsra g x d a b
  | vcmp g x kd cc a b => exact vcmp g x kd cc a b
  | vsel g d a b kc => exact vsel g d a b kc
  | vcvt g x fr half d a => exact vcvt g x fr half d a
  | vsplit g d a => exact vsplit g d a
  | vbcast g x d src => exact vbcast g x d src
  | vmov g d a => exact vmov g d a
  | vmovLaneToScalar g x d a lane => exact vmovLaneToScalar g x d a lane
  | vmovScalarToLane g x d lane a => exact vmovScalarToLane g x d lane a
  | vld g x cm d a disp => exact vld g x cm d a disp
  | vst g x cm a b disp => exact vst g x cm a b disp
  | vgath g x cm d a b => exact vgath g x cm d a b
  | vscat g x cm a b c => exact vscat g x cm a b c
  | vstream g x d a => exact vstream g x d a
  | vstop g d => exact vstop g d
  | vshuf g d a b => exact vshuf g d a b
  | vred g x op d a => exact vred g x op d a
  | vscan g x op d a => exact vscan g x op d a
  | mma g f d => exact mma g f d
  | mmaz g f d => exact mmaz g f d
  | mlda g f cm a b c => exact mlda g f cm a b c
  | mldb g f cm a b c => exact mldb g f cm a b c
  | mgath g f cm a b c => exact mgath g f cm a b c
  | mldacc g x cm d a b => exact mldacc g x cm d a b
  | mstacc g x cm d a b e f => exact mstacc g x cm d a b e f
  | mclr g d => exact mclr g d
  | mmask g mm nm km => exact mmask g mm nm km
  | lbinit g a lb => exact lbinit g a lb
  | lbarr g a lb => exact lbarr g a lb
  | lbdrop g a lb => exact lbdrop g a lb
  | lbjoin g a lb => exact lbjoin g a lb
  | lbexp g a lb => exact lbexp g a lb
  | lbwait g d a tmo par lb => exact lbwait g d a tmo par lb
  | lbtest g d lb => exact lbtest g d lb
  | mshcfg g a m => exact mshcfg g a m
  | mshar g m => exact mshar g m
  | mshwait g d a tmo par m => exact mshwait g d a tmo par m
  | mshstat g d sel m => exact mshstat g d sel m
  | semwait g d a b tmo sem => exact semwait g d a b tmo sem
  | semsig g a b sem => exact semsig g a b sem
  | semset g a sem => exact semset g a sem
  | semget g d sem => exact semget g d sem
  | declare g a => exact declare g a
  | hold g => exact hold g
  | holdx g d a => exact holdx g d a
  | rel g d a => exact rel g d a
  | relEnd g d a => exact relEnd g d a
  | holdst g d a => exact holdst g d a
  | holdstObj g d a => exact holdstObj g d a
  | dline g a => exact dline g a
  | dlineRel g a => exact dlineRel g a
  | fence g src dst scope => exact fence g src dst scope
  | spawn g a b => exact spawn g a b
  | dist g d => exact dist g d
  | widx g d a fld => exact widx g d a fld
  | trig g a tc => exact trig g a tc
  | trigDisarm g tc => exact trigDisarm g tc
  | trigd g a b => exact trigd g a b
  | cpy g e => exact cpy g e
  | cpyr g e => exact cpyr g e
  | cpym g e => exact cpym g e
  | subscribe g rg e => exact subscribe g rg e
  | drain g rg e => exact drain g rg e
  | unsub g rg e => exact unsub g rg e
  | bte g e => exact bte g e
  | coll g e => exact coll g e
  | xfer g e => exact xfer g e
  | gcfg g d a b => exact gcfg g d a b
  | gld g d a nm1 cm => exact gld g d a nm1 cm
  | gldHdr g d a cm => exact gldHdr g d a cm
  | gst g a b nm1 cm => exact gst g a b nm1 cm
  | gzero g d => exact gzero g d
  | gaddp g d a nm1 off => exact gaddp g d a nm1 off
  | gschur g d a nm1 off km1 => exact gschur g d a nm1 off km1
  | gdamp g d a nm1 mb => exact gdamp g d a nm1 mb
  | gres g d a b nm1 => exact gres g d a b nm1
  | gsend g d a b c once mb nm1 => exact gsend g d a b c once mb nm1
  | gsolve g d a nm1 => exact gsolve g d a nm1
  | rlcrun g e => exact rlcrun g e
  | rlcstat g d => exact rlcstat g d
  | rlcabort g d => exact rlcabort g d
  | stgdecl g d a stage => exact stgdecl g d a stage
  | stgq g mb stage bm1 => exact stgq g mb stage bm1
  | stgqClr g mb => exact stgqClr g mb
  | stshal g d ss => exact stshal g d ss
  | stshfr g a ss => exact stshfr g a ss
  | stshfrInit g a ss => exact stshfrInit g a ss
  | stgstat g d stage => exact stgstat g d stage
  | stgstatStash g d ss => exact stgstatStash g d ss
  | trap g code => exact trap g code
  | eret g => exact eret g
  | csrr g d n => exact csrr g d n
  | csrw g a n => exact csrw g a n
  | csrx g d a n => exact csrx g d a n
  | icinvWrite g a => exact icinvWrite g a
  | deadlineWrite g a => exact deadlineWrite g a
  | wdog g d a => exact wdog g d a
  | feat g d a => exact feat g d a
  | speed g d a => exact speed g d a
  | plsetPlace g d a b => exact plsetPlace g d a b
  | plsetPerm g d a b => exact plsetPerm g d a b
  | _ => exact fun _ h => nomatch h

/-- The length code of an encoding, the bits that its second part may have, and its OP and FN. -/
theorem encodeFields_len (i : Instr) : ∀ e, encodeFields i = some e →
    (e.w.len = 0 ∧ e.hi < 2 ^ 0 ∧ i.len = 8 ∨ e.w.len = 1 ∧ e.hi < 2 ^ 32 ∧ i.len = 12
        ∨ e.w.len = 2 ∧ e.hi < 2 ^ 64 ∧ i.len = 16)
      ∧ lenAllowed e.w.op e.w.fn = some e.w.len ∧ (e.w.op != 0 || e.w.fn != 0) = true := by
  cases i with
  | movi g d j | movw g d j => rintro e ⟨⟩; exact ⟨.inr (.inl ⟨rfl, j.isLt, rfl⟩), rfl, rfl⟩
  | cpy g e | cpyr g e | cpym g e | subscribe g r e | drain g r e | unsub g r e | bte g e | coll g e | xfer g e
  | rlcrun g e => rintro _ ⟨⟩; exact ⟨.inr (.inr ⟨rfl, e.toNat_lt, rfl⟩), rfl, rfl⟩
  | vbcast g x d src =>
    cases src with
    | sca o => rintro e ⟨⟩; exact ⟨.inl ⟨rfl, Nat.one_pos, rfl⟩, rfl, rfl⟩
    | lane v l => rintro e ⟨⟩; exact ⟨.inl ⟨rfl, Nat.one_pos, rfl⟩, rfl, rfl⟩
  | _ => rintro e ⟨⟩ <;> exact ⟨.inl ⟨rfl, Nat.one_pos, rfl⟩, rfl, rfl⟩

/-- The two words of zeros are a sequencer's only instructions without fields. -/
theorem eq_nop_of_encodeFields_eq_none (i : Instr) :
    encodeFields i = none → i.ofSequencer = true → i = .nop ∨ i = .shortNop := by
  cases i with
  | nop => exact fun _ _ => .inl rfl
  | shortNop => exact fun _ _ => .inr rfl
  | vbcast g x d src =>
    cases src with
    | sca o => exact fun h => nomatch h
    | lane v l => exact fun h => nomatch h
  | _ => exact fun h hs => nomatch h, hs

/-! ### Words -/

theorem encode_eq {i : Instr} {e : Enc} (h : encodeFields i = some e) :
    encode i = some (8 * i.len, e.w.toNat + 2 ^ 64 * e.hi) := by
  cases i with
  | nop => cases h
  | shortNop => cases h
  | _ => simp only [encode, h]

theorem W0.toNat_lt {f : W0} (h : f.Bounded) : f.toNat < 2 ^ 64 := by
  simp only [W0.Bounded] at h
  simp only [W0.toNat]
  omega

/-- Word 0 is zero only with OP and FN zero. -/
theorem W0.toNat_ne_zero {f : W0} (h : (f.op != 0 || f.fn != 0) = true) : f.toNat ≠ 0 := by
  simp only [Bool.or_eq_true, bne_iff_ne] at h
  simp only [W0.toNat]
  omega

/-- What follows word 0, as `decode` takes it for the length code: nothing of it is cut off. -/
theorem secondPart_eq {f : W0} {hi : Nat} (hf : f.Bounded) (h : hi < 2 ^ 64) (h1 : f.len = 1 → hi < 2 ^ 32) :
    (if f.len = 1 then bitsAt (f.toNat + 2 ^ 64 * hi) 64 32 else bitsAt (f.toNat + 2 ^ 64 * hi) 64 64) = hi := by
  have hw := W0.toNat_lt hf
  split
  · next hl =>
    have := h1 hl
    simp (disch := omega) only [bitsAt_add_above, Nat.sub_self, bitsAt_low]
  · simp (disch := omega) only [bitsAt_add_above, Nat.sub_self, bitsAt_low]

/-- A word put together from fields with an assigned length is decoded from those fields. -/
theorem decode_toNat {f : W0} {hi : Nat} (hf : f.Bounded) (hne : (f.op != 0 || f.fn != 0) = true)
    (hlen : lenAllowed f.op f.fn = some f.len) (h3 : f.len ≠ 3) (h : hi < 2 ^ 64) (h1 : f.len = 1 → hi < 2 ^ 32) :
    decode false (f.toNat + 2 ^ 64 * hi) = decodeFields f hi := by
  have hz : bitsAt (f.toNat + 2 ^ 64 * hi) 0 64 ≠ 0 := by
    rw [bitsAt_add_below (by decide), bitsAt_low (W0.toNat_lt hf)]
    exact W0.toNat_ne_zero hne
  simp only [decode, W0.ofNat_toNat hf, secondPart_eq hf h h1, hz, h3, hlen]
  simp

/-- Every instruction with fields has an encoding of its own length, from which the decoder reads it. -/
theorem decode_encode {i : Instr} {e : Enc} (hwf : i.wf = true) (he : encodeFields i = some e) :
    e.w.toNat + 2 ^ 64 * e.hi < 2 ^ (8 * i.len) ∧ decode false (e.w.toNat + 2 ^ 64 * e.hi) = .ok i := by
  obtain ⟨hb, -⟩ := encodeFields_bounded i e he
  obtain ⟨hl, ha, hn⟩ := encodeFields_len i e he
  have hw := W0.toNat_lt hb
  have hd : ∀ h3 h h1, decode false (e.w.toNat + 2 ^ 64 * e.hi) = .ok i := fun h3 h h1 =>
    (decode_toNat hb hn ha h3 h h1).trans (readsBack_of_wf i hwf e he)
  rcases hl with ⟨hl, hh, hi⟩ | ⟨hl, hh, hi⟩ | ⟨hl, hh, hi⟩ <;> rw [hi] <;>
    exact ⟨by omega, hd (by omega) (by omega) (by omega)⟩

end Sys2Proof

namespace Sys2Proof.Proofs

open Sys2Proof Sys2Proof.Machine

/-- Settles O3: every field of an instruction reads back from where the encoder puts it, so each OP's decoder gives the
instruction from its fields; `decode` finds these in the words by the length that its OP and FN allow. -/
theorem decodeReadsBackEveryEncoding : Obligations.DecodeReadsBackEveryEncoding := by
  intro i hwf hs
  cases he : encodeFields i with
  | none =>
    -- the words of zeros
    obtain rfl | rfl := eq_nop_of_encodeFields_eq_none i he hs
    · exact ⟨64, 0, rfl, rfl, by decide, by decide⟩
    · exact ⟨32, 0, rfl, rfl, by decide, by decide⟩
  | some e =>
    have hn : i ≠ .shortNop := fun h => nomatch h ▸ he
    obtain ⟨hlt, hd⟩ := decode_encode hwf he
    exact ⟨_, _, encode_eq he, rfl, hlt, by rw [decide_eq_false hn]; exact hd⟩

end Sys2Proof.Proofs
end


section
/-! A step performs the instruction at the pc or takes the agenda's first turn (07 R82, R83, R96; log entry 2). -/

namespace Sys2Proof.Machine

theorem step_of_agenda_nil {s : State} (h : s.agenda = []) :
    step s = afterTurn ({ s with slowTurn := false } : State).runSeq := by
  rw [step, h]

/-- A sequencer with something to run and nothing pending performs the bytes at its pc. -/
theorem State.runSeq_of_block {s : State} {bs : List Byte} {last : Bool} (hi : s.idle = false)
    (hb : s.boundary s.cur.1 s.cur.2 = none)
    (hf : let a := s.passDeadline s.cur.1
      let s0 := a.freshen.takeLater a.cur.1 a.cur.2
      s0.fetched s0.cur.1 s0.cur.2 = (.block bs, last)) :
    s.runSeq = (let a := s.passDeadline s.cur.1; (a.freshen.takeLater a.cur.1 a.cur.2).performBytes bs last) := by
  dsimp only at hf
  simp only [State.runSeq, hi, hb, hf, Bool.false_eq_true, if_false]

theorem State.performBytes_of_straddling {s : State} {bs : List Byte} {last : Bool}
    (h : (s.keepFetched s.cur.1 s.cur.2 bs).straddling bs last = true) :
    s.performBytes bs last = (let s1 := s.keepFetched s.cur.1 s.cur.2 bs
      .next (s1.takeTrap .fetchStraddle (some (s1.fullAddress s1.cur.1 s1.seq.level s1.seq.pc)) .none)) := by
  simp only [State.performBytes, h, if_true]

theorem State.performBytes_of_not_straddling {s : State} {bs : List Byte} {last : Bool}
    (h : (s.keepFetched s.cur.1 s.cur.2 bs).straddling bs last = false) :
    s.performBytes bs last = exec (orIllegal (decodeBytes last bs)) (s.keepFetched s.cur.1 s.cur.2 bs) := by
  simp only [State.performBytes, h, Bool.false_eq_true, if_false]

end Sys2Proof.Machine

namespace Sys2Proof.Proofs

open Sys2Proof Sys2Proof.Machine

theorem stepPerformsTheInstructionAtThePc : Claims.StepPerformsTheInstructionAtThePc := by
  intro s bs last hag hslow hidle hbound a s0 hf s1
  have hs : ({ s with slowTurn := false } : State) = s := by rw [← hslow]
  have hstep : step s = afterTurn (s0.performBytes bs last) := by
    rw [step_of_agenda_nil hag, State.runSeq_of_block (hs.symm ▸ hidle) (hs.symm ▸ hbound) hf]
  refine ⟨fun hst i hd => ?_, fun hst e hd => ?_, fun hst => ?_⟩
  · rw [hstep, State.performBytes_of_not_straddling hst, hd, orIllegal]
  · rw [hstep, State.performBytes_of_not_straddling hst, hd, orIllegal]
  · rw [hstep, State.performBytes_of_straddling hst]

/-- Each clause is `step` at an agenda that begins with one kind of turn. -/
theorem stepTakesTheFirstTurn : Claims.StepTakesTheFirstTurn := by
  intro s ts
  refine ⟨?_, ?_, ?_, ?_, ?_, ?_, ?_, ?_, ?_, ?_, ?_, ?_, ?_, ?_, ?_, ?_, ?_⟩
  all_goals
    intros
    rename_i h
    rw [step, h]

/-- Settles O1, from the step's own equations for an empty agenda and for each kind of turn. -/
theorem stepsPerformTheirTurns : Obligations.StepsPerformTheirTurns :=
  ⟨stepPerformsTheInstructionAtThePc, stepTakesTheFirstTurn⟩

end Sys2Proof.Proofs
end

section
/-! The written-out words of the encoding tables, decoded. -/

namespace Sys2Proof.Proofs

open Sys2Proof Sys2Proof.Machine

/-- Settles O2: the decoder runs on each of the ten words. -/
theorem writtenWordsDecode : Obligations.WrittenWordsDecode :=
  ⟨rfl, rfl, rfl, rfl, rfl, rfl, rfl, rfl, rfl, rfl⟩

end Sys2Proof.Proofs
end

section
/-! The checks of every instruction with demands, in order, before its effect (07 R96), and the two nops (08 R111, 07 R83). -/

namespace Sys2Proof.Machine

/-! ### Needs and demands of the other groups (`Fits.any`, `Fits.ops` and `Fits.xs` stand in the laws) -/

theorem Fits.store (s : State) (g : Guard) (sq : Bool) (b : Opnd) :
    Fits s (storeNeed sq b) (s.seq.passes g) ⟨.bit g, if sq then some .xs else none, .user, 0, [b], []⟩ :=
  ⟨by cases sq <;> simp [storeNeed, State.seqOk, and_comm], rfl, rfl, Iff.rfl⟩

/-- A vector instruction: its guard is the mask of its lanes. -/
theorem Fits.vec (s : State) (g : Guard) (ss ds : List Opnd) (f : BitVec 16) :
    Fits s (needVec ss ds f) (s.seq.mask g != 0) ⟨.lanes g, some .xs, .user, 2 ||| f, ss, ds⟩ :=
  ⟨(Fits.xs s g ss ds f).seqs, rfl, rfl, bne_iff_ne⟩

/-- A move of one element: its guard is the element's. -/
theorem Fits.lane (s : State) (g : Guard) (x : XT) (l : Fin 32) (ss ds : List Opnd) (f : BitVec 16) :
    Fits s (needVec ss ds f) (laneOpen g x l s) ⟨.lane g x l, some .xs, .user, 2 ||| f, ss, ds⟩ :=
  ⟨(Fits.xs s g ss ds f).seqs, rfl, rfl, Iff.rfl⟩

/-- The XS with a feature of its core, without operands: the matrix unit and the GMU. -/
theorem Fits.onXs (s : State) (g : Guard) (f : BitVec 16) :
    Fits s ⟨fun q => q == .xs, .user, f⟩ (s.seq.passes g) ⟨.bit g, some .xs, .user, f, [], []⟩ :=
  ⟨by simp [State.seqOk], rfl, rfl, Iff.rfl⟩

/-- Either sequencer at a level and with a feature, without operands. -/
theorem Fits.bare (s : State) (g : Guard) (l : Level) (f : BitVec 16) :
    Fits s ⟨fun _ => true, l, f⟩ (s.seq.passes g) ⟨.bit g, none, l, f, [], []⟩ :=
  ⟨by simp [State.seqOk], rfl, rfl, Iff.rfl⟩

/-- Completing alone changes no register but the pc, the loop counters and what the instruction in progress keeps. -/
theorem OnlyRegisters.of_retire (s : State) (len : Nat) (n : Next) : OnlyRegisters s (s.retire len n) [] [] := by
  obtain ⟨-, -, -, -, -, hshelf, -⟩ := s.seq.retire_fields len n
  refine ⟨?_, by simp, by simp, by simp, by simpa using hshelf, fun a => by simp⟩
  rw [State.retire, State.modSeq_eq, State.modMy, State.modMy]
  exact State.modStrand_congr _ _ (by simp [State.seq, State.seqAt])

/-- With no loop counted, and outside a trap handler, an instruction falls through to the next one. -/
theorem Seq.retire_fall_pc {c : Seq} (ht : c.inTrap = false) (h0 : c.lc0.count = 0) (h1 : c.lc1.count = 0) (len : Nat) :
    (c.retire len .fall).pc = c.pc + len := by
  simp [Seq.retire, Seq.settle, Seq.endRule, ht, h0, h1]

end Sys2Proof.Machine

namespace Sys2Proof.Proofs

open Sys2Proof Sys2Proof.Machine

/-- Every instruction with demands performs its body by `performWith` with a need that says the same, so its checks come in
that operation's order. -/
theorem checksComeInOrderBeforeTheEffect : Claims.ChecksComeInOrderBeforeTheEffect := by
  intro i d s
  cases i with
  | endPart | addi | andi | ori | xori | shli | shri | srai | roli | muli | movi | movw | rdtick | br | jmp | call |
  ret | loop | tret | pause | bqpush | bqbr | pf | atomincw | deq | send | sendt | reply | msend | msendt | mcfg |
  mrecv | mpeek | mrel | nlink | lbinit | lbarr | lbdrop | lbjoin | lbexp | lbwait | lbtest | mshcfg | mshar | mshwait
  | mshstat | semwait | semsig | semset | semget | declare | hold | holdst | holdstObj | dline | dlineRel | fence |
  spawn | dist | widx | trig | trigDisarm | trigd | cpy | cpyr | cpym | subscribe | drain | unsub | bte | coll | xfer
  | stgdecl | stgq | stgqClr | stshal | stshfr | stshfrInit | stgstat | stgstatStash | wdog | feat | speed =>
    rintro ⟨⟩
    exact (Fits.any s _).checks _ _
  | add | sub | mul | mulh | mulhz | div | divz | rem | remz | and | or | xor | andn | shl | shr | sra | rol | min |
  max | minz | maxz | lea | sel | mov | clz | ctz | popc | bfx | sext | zext | cmp | bfi | ld | ldo | ldg | atom |
  atomcas | atomfaddb | enq =>
    rintro ⟨⟩
    exact (Fits.ops s _ _ _ _).checks _ _
  | fadd | fsub | fmul | fma | fdiv | fmin | fmax | fsgn | fsqrt | fclass | fcmp | fcvt =>
    rintro ⟨⟩
    exact (Fits.xs s _ _ _ _).checks _ _
  | st | sto | stg =>
    rintro ⟨⟩
    exact (Fits.store s _ _ _).checks _ _
  | vadd | vsub | vmul | vfma | vmin | vmax | vand | vor | vxor | vshl | vshr | vsra | vcmp | vabs | vneg | vld |
  vst | vgath | vscat | vscan | vsel | vsplit | vmov | vstream | vstop | vshuf | vcvt | vbcast | vred =>
    rintro ⟨⟩
    exact (Fits.vec s _ _ _ _).checks _ _
  | vmovLaneToScalar | vmovScalarToLane =>
    rintro ⟨⟩
    exact (Fits.lane s _ _ _ _ _ _).checks _ _
  | mma | mmaz | mlda | mldb | mgath | mldacc | mstacc | mclr | mmask | gcfg | gld | gldHdr | gst | gzero | gaddp |
  gschur | gdamp | gres | gsend | gsolve =>
    rintro ⟨⟩
    exact (Fits.onXs s _ _).checks _ _
  | holdx | rel | relEnd | plsetPlace | plsetPerm | rlcrun | rlcstat | rlcabort =>
    rintro ⟨⟩
    exact (Fits.bare s _ _ _).checks _ _
  | trap g code =>
    rintro ⟨⟩
    exact (Fits.any s _).checks 8
      fun s => .error (.own ((s.retire 8 .fall).trapTo s.cur.1 s.cur.2 .brk (code.setWidth 64)))
  | _ => exact nofun

theorem nopsHaveNoEffect : Claims.NopsHaveNoEffect := by
  have hf : ∀ s : State, Need.any.feat &&& ~~~ s.me.feat = 0 := fun s => BitVec.zero_and
  refine fun s => ⟨performWith_ok rfl (Nat.zero_le _) (hf s) rfl rfl, performWith_ok rfl (Nat.zero_le _) (hf s) rfl rfl, fun ht h0 h1 => ⟨OnlyRegisters.of_retire s 8 .fall, ?_, ?_⟩⟩ <;>
    rw [State.retire_seq, Seq.retire_fall_pc ht h0 h1]

/-- Settles O9: the four checks from the need of each instruction, the nops by completing alone. -/
theorem checksPrecedeTheEffect : Obligations.ChecksPrecedeTheEffect :=
  ⟨checksComeInOrderBeforeTheEffect, nopsHaveNoEffect⟩

end Sys2Proof.Proofs
end

section
/-! Queue and link operands (07 R87, 08 R107, 10 R161): what a pop or a push makes of the queue and of the receive buffers. -/

namespace Sys2Proof.Machine

theorem waitFor_run {α : Type} (w : Why) {s : State} (h : s.seq.used = 0) :
    (waitFor w : M α) s = .error (.wait ⟨w, 0, none, none⟩ none) := by simp [waitFor, h]

/-! ### Load queues -/

theorem popLq_full {i : Fin 4} {w : Word} {es : List LqEntry} {s : State} (h : s.my.q.lq[i.val] = .full w :: es) :
    popLq i s = .ok (w, s.modMy fun t => { t with
      q := { t.q with lq := t.q.lq.set i.val es }, act := { t.act with seen := s.fab.nextNum } }) := by
  simp only [popLq, h]

theorem popLq_nil_gone {i : Fin 4} {s : State} (h : s.my.q.lq[i.val] = []) (hg : s.my.as.gone = true) :
    popLq i s = .error (.trap .queueMisuse (some (BitVec.ofNat 64 i.val)) .none) := by
  simp only [popLq, h, hg, if_true]; rfl

theorem popLq_nil_wait {i : Fin 4} {s : State} (h : s.my.q.lq[i.val] = []) (hg : s.my.as.gone = false)
    (hu : s.seq.used = 0) : popLq i s = .error (.wait ⟨.queue i.val, 0, none, none⟩ none) := by
  simp only [popLq, h, hg, Bool.false_eq_true, if_false, waitFor_run _ hu]

theorem popLq_marked {i : Fin 4} {c : Cause} {v : Word} {r : LoadReq} {es : List LqEntry} {s : State}
    (h : s.my.q.lq[i.val] = .marked c v r :: es) : popLq i s = .error (.trap c (some v) (.redo i)) := by
  simp only [popLq, h]

theorem popLq_unanswered {i : Fin 4} {e : LqEntry} {es : List LqEntry} {s : State} (h : s.my.q.lq[i.val] = e :: es)
    (he : ∃ n r, e = .pending n r ∨ e = .redo r) (hu : s.seq.used = 0) :
    popLq i s = .error (.wait ⟨.queue i.val, 0, none, none⟩ none) := by
  obtain ⟨n, r, rfl | rfl⟩ := he <;> simp only [popLq, h, waitFor_run _ hu]

/-- Only the strand differs after an update of it. -/
theorem OnlyStrand.of_modMy (s : State) (f : Strand → Strand) : OnlyStrand s (s.modMy f) := by
  rw [OnlyStrand, State.my_modMy]
  exact State.modStrand_congr _ _ rfl

/-! ### Receive buffers -/

/-- A core with another receive buffer at one end. -/
def Core.setBuffer (c : Core) (east : Bool) (ws : List Word) : Core :=
  if east then { c with nE := ws } else { c with nW := ws }

@[simp] theorem Core.buffer_setBuffer_same (c : Core) (east : Bool) (ws : List Word) :
    (c.setBuffer east ws).buffer east = ws := by cases east <;> rfl
@[simp] theorem Core.buffer_setBuffer_not (c : Core) (east : Bool) (ws : List Word) :
    (c.setBuffer east ws).buffer (!east) = c.buffer (!east) := by cases east <;> rfl
@[simp] theorem Core.buffer_setBuffer_of_not (c : Core) (east : Bool) (ws : List Word) :
    (c.setBuffer (!east) ws).buffer east = c.buffer east := by cases east <;> rfl
@[simp] theorem Core.setBuffer_part (c : Core) (east : Bool) (ws : List Word) : (c.setBuffer east ws).part = c.part := by
  cases east <;> rfl

/-- Which cores the links join depends on no receive buffer. -/
theorem State.neighbour_modCore_setBuffer (s : State) (p q : Place) (e east : Bool) (ws : List Word) :
    (s.modCore p fun c => c.setBuffer e ws).neighbour q east = s.neighbour q east := by
  have hpart : ((s.modCore p fun c => c.setBuffer e ws).core q).part = (s.core q).part := by
    rw [State.core_modCore]
    split
    · next h => rw [h, Core.setBuffer_part]
    · rfl
  unfold State.neighbour
  rw [hpart]
  rfl

/-- The value of a PLACE-INVALID at an end that is joined to no core (01 R15). -/
def linkTval (east : Bool) : Word := if east then 4 else 5

theorem pushLink_unjoined {east : Bool} {v : Word} {s : State} (h : s.neighbour s.cur.1 east = none) :
    pushLink east v s = .error (.trap .placeInvalid (some (linkTval east)) .none) := by
  simp only [pushLink, h]; rfl

theorem pushLink_full {east : Bool} {v : Word} {q : Place} {s : State} (h : s.neighbour s.cur.1 east = some q)
    (hl : 4 ≤ ((s.core q).buffer (!east)).length) (hu : s.seq.used = 0) :
    pushLink east v s = .error (.wait ⟨.link, 0, none, none⟩ none) := by
  have hw : pushLink east v s = waitFor .link s := by cases east <;> simp only [pushLink, h] <;> exact if_pos hl
  rw [hw, waitFor_run _ hu]

theorem pushLink_joins {east : Bool} {v : Word} {q : Place} {s : State} (h : s.neighbour s.cur.1 east = some q)
    (hl : ((s.core q).buffer (!east)).length < 4) :
    pushLink east v s
      = .ok ((), s.modCore q fun c => c.setBuffer (!east) ((s.core q).buffer (!east) ++ [v])) := by
  cases east <;> simp only [pushLink, h] <;> exact if_neg (Nat.not_le.mpr hl)

theorem popLink_unjoined {east : Bool} {s : State} (h : s.neighbour s.cur.1 east = none) :
    popLink east s = .error (.trap .placeInvalid (some (linkTval east)) .none) := by
  simp only [popLink, h]; rfl

theorem popLink_empty {east : Bool} {q : Place} {s : State} (h : s.neighbour s.cur.1 east = some q)
    (hb : s.me.buffer east = []) (hu : s.seq.used = 0) :
    popLink east s = .error (.wait ⟨.link, 0, none, none⟩ none) := by
  rw [Core.buffer] at hb
  simp only [popLink, h, hb, waitFor_run _ hu]

theorem popLink_pops {east : Bool} {w : Word} {ws : List Word} {q : Place} {s : State}
    (h : s.neighbour s.cur.1 east = some q) (hb : s.me.buffer east = w :: ws) :
    popLink east s = (let s' := s.modMe fun c => c.setBuffer east ws
      if s.me.forwards east then (pushLink (!east) w s').map fun r => (w, r.2) else .ok (w, s')) := by
  rw [Core.buffer] at hb
  simp only [popLink, h, hb]
  rfl

end Sys2Proof.Machine

namespace Sys2Proof.Proofs

open Sys2Proof Sys2Proof.Machine Sys2Proof.Claims

theorem src_linkEnd (east : Bool) : src (linkEnd east) = popLink east := by cases east <;> rfl
theorem dst_linkEnd (east : Bool) (v : Word) : dst (linkEnd east) v = pushLink east v := by cases east <;> rfl

/-- A pop that `nlink` does not forward takes the word and touches no other core and no other buffer. -/
theorem popLink_keeps {east : Bool} {w : Word} {ws : List Word} {q : Place} {s : State}
    (h : s.neighbour s.cur.1 east = some q) (hb : s.me.buffer east = w :: ws) (hf : s.me.forwards east = false) :
    ∃ t, popLink east s = .ok (w, t) ∧ t.me.buffer east = ws ∧ t.me.buffer (!east) = s.me.buffer (!east)
      ∧ ∀ p, p ≠ s.cur.1 → t.core p = s.core p := by
  refine ⟨s.modMe fun c => c.setBuffer east ws, ?_, ?_, ?_, fun p hp => ?_⟩
  · rw [popLink_pops h hb, hf]; rfl
  · simp [State.me, State.modMe]
  · simp [State.me, State.modMe]
  · simp [State.modMe, hp]

/-- A pop that `nlink` forwards pushes the word to the core beyond the other end (10 R161). -/
theorem popLink_forwards {east : Bool} {w : Word} {ws : List Word} {q r : Place} {s : State}
    (h : s.neighbour s.cur.1 east = some q) (hb : s.me.buffer east = w :: ws) (hf : s.me.forwards east = true)
    (hr : s.neighbour s.cur.1 (!east) = some r) (hne : r ≠ s.cur.1) (hl : ((s.core r).buffer east).length < 4) :
    ∃ t, popLink east s = .ok (w, t) ∧ t.me.buffer east = ws
      ∧ (t.core r).buffer east = (s.core r).buffer east ++ [w] ∧ ∀ p, p ≠ s.cur.1 → p ≠ r → t.core p = s.core p := by
  have hcore : ∀ p, p ≠ s.cur.1 → (s.modMe fun c => c.setBuffer east ws).core p = s.core p := fun p hp => by
    simp [State.modMe, hp]
  have hpush := pushLink_joins (east := !east) (v := w) (s := s.modMe fun c => c.setBuffer east ws)
    ((s.neighbour_modCore_setBuffer ..).trans hr) (by rwa [hcore r hne, Bool.not_not])
  rw [hcore r hne, Bool.not_not] at hpush
  refine ⟨(s.modMe fun c => c.setBuffer east ws).modCore r fun c => c.setBuffer east ((s.core r).buffer east ++ [w]),
    ?_, ?_, ?_, fun p hp hpr => ?_⟩
  · rw [popLink_pops h hb, hf, if_pos rfl, hpush]; rfl
  · simp [State.me, State.modMe, hne.symm]
  · simp
  · simp [State.modMe, hp, hpr]

theorem pushLink_appends {east : Bool} {v : Word} {q : Place} {s : State} (h : s.neighbour s.cur.1 east = some q)
    (hl : ((s.core q).buffer (!east)).length < 4) :
    ∃ t, pushLink east v s = .ok ((), t) ∧ (t.core q).buffer (!east) = (s.core q).buffer (!east) ++ [v]
      ∧ (t.core q).buffer east = (s.core q).buffer east ∧ ∀ p, p ≠ q → t.core p = s.core p :=
  ⟨_, pushLink_joins h hl, by simp, by simp, fun p hp => by simp [hp]⟩

/-- A register destination writes the sequencer's file alone, and s0 not at all. -/
theorem dst_reg_writes (r : Reg) (v : Word) (s : State) :
    ∃ t, dst (.reg r) v s = .ok ((), t) ∧ t = s.modMy (fun m => m.setSeq s.cur.2 t.seq)
      ∧ (r.val ≠ 0 → t.seq.readS r = v) ∧ (∀ q, q ≠ r → t.seq.readS q = s.seq.readS q) ∧ (r.val = 0 → t.seq = s.seq)
      ∧ ∀ k, t.seq.readK k = s.seq.readK k := by
  refine ⟨_, dst_reg r v s, ?_, fun hr => ?_, fun q hq => ?_, fun hr => ?_, fun k => ?_⟩
  · rw [State.seq_modSeq, State.modSeq_eq]
    exact State.modStrand_congr _ _ rfl
  · simp [Seq.readS_writeS, hr]
  · simp [Seq.readS_writeS, hq]
  · obtain rfl : r = 0 := Fin.ext hr
    simp
  · simp

/-- Settles O5: a lemma for each outcome of a pop and of a push. -/
theorem operandsReadAndWriteTheirFiles : Obligations.OperandsReadAndWriteTheirFiles := by
  refine ⟨src_reg, dst_reg_writes, fun s => ⟨s.seq.readS_zero, s.seq.readK_zero⟩, fun i w es s h => ?_,
    fun i s => popLq_nil_gone, fun i s => popLq_nil_wait, fun i e es s h => ⟨fun c v r he => ?_, popLq_unanswered h⟩,
    fun east s h => ?_, fun east q s h hu => ?_, fun east w ws q s h hb hf => ?_, fun east w ws q r s h hb hf hr hne hl => ?_,
    fun east v q s h hl => ?_⟩
  · exact ⟨_, popLq_full h, by simp, OnlyStrand.of_modMy _ _⟩
  · exact popLq_marked (he ▸ h)
  · rw [src_linkEnd]
    exact ⟨popLink_unjoined h, fun v => by rw [dst_linkEnd]; exact pushLink_unjoined h⟩
  · rw [src_linkEnd]
    exact ⟨fun hb => popLink_empty h hb hu, fun hl v => by rw [dst_linkEnd]; exact pushLink_full h hl hu⟩
  · rw [src_linkEnd]; exact popLink_keeps h hb hf
  · rw [src_linkEnd]; exact popLink_forwards h hb hf hr hne hl
  · rw [dst_linkEnd]; exact pushLink_appends h hl

end Sys2Proof.Proofs
end

section
/-! Control registers: the fields of each, and the level at which each is read and written (07 R100, R101, 22 R319). -/

namespace Sys2Proof.Machine

/-- An instruction that either sequencer performs at any level: nothing under a guard of 0, else its body. -/
theorem perform_any_runs {g : Guard} {body : M Next} {s t : State} {nx : Next} (hb : body s = .ok (nx, t)) :
    (s.seq.passes g = false → perform 8 Need.any g body s = .next (s.retire 8 .fall))
      ∧ (s.seq.passes g = true → perform 8 Need.any g body s = .next (t.retire 8 nx)) := by
  have hf : Need.any.feat &&& ~~~ s.me.feat = 0 := BitVec.zero_and
  refine ⟨fun h => ?_, fun h => perform_ok rfl (Nat.zero_le _) hf h hb⟩
  obtain ⟨-, -, -, hclosed⟩ := (Fits.any s g).checks 8 body
  exact hclosed ((Fits.any s g).seqs.mp rfl) (Nat.zero_le _) hf (by simp [State.guardOpen, h])

theorem performCsr_runs {ok : Level → Bool} {g : Guard} {body : M Next} {s t : State} {nx : Next}
    (h : ok s.seq.level = true) (hb : body s = .ok (nx, t)) :
    (s.seq.passes g = false → performCsr ok g body s = .next (s.retire 8 .fall))
      ∧ (s.seq.passes g = true → performCsr ok g body s = .next (t.retire 8 nx)) := by
  rw [performCsr, if_pos h]
  exact perform_any_runs hb

theorem performCsr_denied {ok : Level → Bool} {g : Guard} {body : M Next} {s : State} (h : ok s.seq.level = false) :
    performCsr ok g body s = .next (s.takeTrap .privileged none .none) := by
  rw [performCsr, if_neg (by simp [h])]

/-- The one column with a dash: STVEC at user level. -/
theorem csrAllowed_eq (n : Csr) (l : Level) : csrAllowed n l = true ↔ ¬ (n = .stvec ∧ l = .user) := by
  cases n <;> simp [csrAllowed]

theorem csrAllowed_eq_false (n : Csr) (l : Level) : csrAllowed n l = false ↔ n = .stvec ∧ l = .user := by
  rw [← Bool.not_eq_true, csrAllowed_eq, not_not]

/-- The registers that are RO at every level, and those that are RO at user level. -/
theorem csrWritable_eq_false (n : Csr) (l : Level) : csrWritable n l = false ↔
    n ∈ [Csr.hid, .wid, .wfw, .self, .part, .speed, .feat, .xferid, .holdst, .wdog]
      ∨ (n ∈ [Csr.lostcnt, .cause, .epc, .tval] ∧ l = .user) ∨ (n = .stvec ∧ l = .user) := by
  cases n <;> simp [csrWritable]

theorem b2n_mul (b : Bool) (k : Nat) : b2n b * 2 ^ k = if b then 2 ^ k else 0 := by cases b <;> simp [b2n]

theorem HoldSt.word_eq (h : HoldSt) : h.word = BitVec.ofNat 64 (h.late.toNat * 2 ^ 32 + h.holdid.toNat * 2 ^ 16
    + h.stat.toNat * 16 + (if h.pois then 2 ^ 3 else 0) + (if h.w then 2 ^ 2 else 0) + (if h.rsm then 2 ^ 1 else 0)
    + (if h.dlmiss then 2 ^ 0 else 0)) := by
  simp only [← b2n_mul, pow_zero]; rfl

theorem CauseReg.word_eq (c : CauseReg) : c.word = BitVec.ofNat 64 ((if c.pprv then 2 ^ 10 else 0)
    + (if c.udel then 2 ^ 9 else 0) + (if c.seq then 2 ^ 8 else 0) + c.code.toNat) := by simp only [← b2n_mul]; rfl

theorem execCsrr_body (d : Reg) (n : Csr) (s : State) :
    (do let s ← getState; writeS d (s.readCsr n); pure .fall : M Next) s
      = .ok (.fall, s.modSeq (·.writeS d (s.readCsr n))) := rfl

theorem csrwBody_run (a : Reg) (n : Csr) (s : State) :
    csrwBody a n s = .ok (.fall, s.writeCsr n (s.seq.readS a)) := rfl

theorem execCsrx_body (d a : Reg) (n : Csr) (s : State) :
    (do let w ← readS a; let s ← getState; setState (s.writeCsr n w); writeS d (s.readCsr n); pure .fall : M Next) s
      = .ok (.fall, (s.writeCsr n (s.seq.readS a)).modSeq (·.writeS d (s.readCsr n))) := rfl

end Sys2Proof.Machine

namespace Sys2Proof.Proofs

open Sys2Proof Sys2Proof.Machine

theorem controlRegistersReadAndWrite : Claims.ControlRegistersReadAndWrite := by
  intro s g d a n user never guarded denies discards w r me o bit value csr written denied runs read
  have hread : BitVec.ofNat 64 value = s.readCsr n := by
    cases n with
    | self | part | speed | wdog | icinv | epc => rfl
    | hid | wid | wfw | deadline | utvec | utmask | tval | stvec =>
      exact (BitVec.ofNat_toNat _ _).trans (BitVec.setWidth_eq _)
    | feat | fpstat | fpmode | xferid | lostcnt => exact BitVec.ofNat_toNat _ _
    | holdst => exact (HoldSt.word_eq _).symm
    | cause => exact (CauseReg.word_eq _).symm
  have hset : s.setCsr n w = written := by
    cases n with
    | fpstat | fpmode | lostcnt | epc => simp only [State.setCsr, ← BitVec.setWidth_ushiftRight_eq_extractLsb]; rfl
    | cause => simp only [State.setCsr, CauseReg.ofWord, ← BitVec.setWidth_ushiftRight_eq_extractLsb]; rfl
    | _ => rfl
  have hallowed : ¬ denies → csrAllowed n s.seq.level = true := (csrAllowed_eq n _).mpr
  have hkeeps : discards → s.writeCsr n w = s := fun h => by
    rw [State.writeCsr, (csrWritable_eq_false n _).mpr (h.imp id .inl), if_neg (by decide)]
  have hwrites : ¬ denies → ¬ discards → s.writeCsr n w = written := fun h h' => by
    have : csrWritable n s.seq.level = true := by
      rw [← Bool.not_eq_false, csrWritable_eq_false]
      exact fun e => e.elim (h' ∘ .inl) fun e => e.elim (h' ∘ .inr) h
    rw [State.writeCsr, this, if_pos rfl, hset]
  have hapart : discards → ¬ denies := by
    rintro h ⟨rfl, -⟩
    simp [discards, never, guarded] at h
  have hfree : n = .icinv ∨ n = .deadline → s.writeCsr n w = written := by
    rintro (rfl | rfl) <;> exact hwrites (by simp [denies]) (by simp [discards, never, guarded])
  have hr (t : State) : read t = t.modSeq (·.writeS d (s.readCsr n)) := by rw [← hread]
  refine ⟨fun h => ?_, fun h => ?_, fun h => ?_, fun h h' => ?_, fun h => ?_, fun h => ?_⟩
  · have hno := (csrAllowed_eq_false n s.seq.level).mpr h
    exact ⟨performCsr_denied hno, performCsr_denied hno, performCsr_denied hno⟩
  · rw [hr]
    exact performCsr_runs (hallowed h) (execCsrr_body d n s)
  · have ha := hallowed (hapart h)
    have hw := csrwBody_run a n s
    have hx := execCsrx_body d a n s
    rw [hkeeps h] at hw hx
    rw [hr]
    exact ⟨performCsr_runs ha hw, performCsr_runs ha hx⟩
  · have hw := csrwBody_run a n s
    have hx := execCsrx_body d a n s
    rw [hwrites h h'] at hw hx
    rw [hr]
    exact ⟨performCsr_runs (hallowed h) hw, performCsr_runs (hallowed h) hx⟩
  · rw [← hfree (.inl h), h]
    exact performCsr_runs (ok := csrAllowed .icinv) rfl (csrwBody_run a .icinv s)
  · rw [← hfree (.inr h), h]
    exact performCsr_runs (ok := csrAllowed .deadline) rfl (csrwBody_run a .deadline s)

end Sys2Proof.Proofs
end

section
/-! Queries and the watchdog's budget (22 R320; log entry 48) -/

namespace Sys2Proof.Machine

@[simp] theorem State.partNo_modSeq (s : State) (f : Seq → Seq) (p : Place) : (s.modSeq f).partNo p = s.partNo p := by
  simp only [State.partNo, State.modSeq, State.modSeqAt, State.core_modStrand]
  split
  · next h => rw [h]
  · rfl

theorem waitAnswer_finish (len : Nat) (s t : State) :
    finish len s (.error (waitAnswer t)) = .next (t.stall (s.seq.carry ⟨.answer, 0, none, none⟩)) := rfl

/-- An answer that the current sequencer awaits is kept with its instruction. -/
theorem State.receive_eq {s : State} {n : Nat} (h : s.seq.out = some n) (ans : Answer) :
    s.receive s.cur.1 n ans = s.modMy fun t => t.receive n ans := by
  have hm : (s.strand s.cur.1).awaits n = true := by
    have hs : (s.seq.awaits n) = true := by simp [Seq.awaits, h]
    revert hs
    simp only [State.seq, State.seqAt, Strand.awaits]
    cases s.cur.2 <;> simp +contextual [Strand.seq]
  rw [State.receive, State.modOwner, if_pos hm]
  rfl

theorem Strand.seq_receive (t : Strand) (q : SeqId) (n : Nat) (ans : Answer) :
    (t.receive n ans).seq q = (t.seq q).receive n ans := by cases q <;> rfl

theorem ask_kept {put : State → Nat → State} {s : State} {v : Word} {z : Bool} (hu : s.seq.used = 0)
    (hk : s.seq.kept = [.word v z]) :
    ask put s = .ok (.word v z, s.modSeq fun c => { c with used := c.used + 1 }) := by
  simp only [ask, hu, hk]
  rfl

/-- The current sequencer has put a question and awaits its answer. -/
def State.asking (s : State) : State := s.nextNumber.modSeq fun c => { c with out := some s.fab.nextNum }

@[simp] theorem State.asking_seq (s : State) : s.asking.seq = { s.seq with out := some s.fab.nextNum } :=
  State.seq_modSeq _ _
@[simp] theorem State.asking_partNo (s : State) (p : Place) : s.asking.partNo p = s.partNo p :=
  State.partNo_modSeq _ _ _
theorem State.asking_core (s : State) {p : Place} (h : p ≠ s.cur.1) : s.asking.core p = s.core p :=
  (State.core_modStrand _ _ _ _).trans (if_neg h)

theorem ask_puts {put : State → Nat → State} {s : State} (hk : s.seq.kept = []) (ho : s.seq.out = none) :
    ask put s = .error (waitAnswer (put s.asking s.fab.nextNum)) := by
  simp only [ask, hk, List.getElem?_nil, ho]
  rfl

section
variable {a d : Reg} {s : State}

theorem askedCore_own (h : a.val = 0) : askedCore a s = .ok (s.cur.1, s) := by
  simp [-bind_pure_comp, askedCore, M.bind_run, M.pure_run, h]

theorem askedCore_ok {p : Place} (h : a.val ≠ 0) (hc : s.checkCore (s.seq.readS a).toNat = .ok p) :
    askedCore a s = .ok (p, s) := by
  simp [askedCore, M.bind_run, h, corePlace, hc]

theorem askedCore_error {c : Cause} (h : a.val ≠ 0) (hc : s.checkCore (s.seq.readS a).toNat = .error c) :
    askedCore a s = .error (.trap c none .none) := by
  simp [askedCore, M.bind_run, h, corePlace, hc, trapOpen]

variable {word : Core → Nat}

theorem queryBody_own (h : askedCore a s = .ok (s.cur.1, s)) :
    queryBody d a word s = .ok (.fall, s.modSeq (·.writeS d (BitVec.ofNat 64 (word s.me)))) := by
  simp [-bind_pure_comp, queryBody, M.bind_run, M.pure_run, h]

theorem queryBody_error {e : Stop} (h : askedCore a s = .error e) : queryBody d a word s = .error e := by
  simp [queryBody, M.bind_run, h]

theorem queryBody_answered {p : Place} {v : Word} {z : Bool} (h : askedCore a s = .ok (p, s)) (hp : p ≠ s.cur.1)
    (hu : s.seq.used = 0) (hk : s.seq.kept = [.word v z]) :
    queryBody d a word s
      = .ok (.fall, (s.modSeq fun c => { c with used := c.used + 1 }).modSeq (·.writeS d v)) := by
  simp [-bind_pure_comp, queryBody, M.bind_run, M.pure_run, h, hp, ask_kept hu hk, Answer.num]

/-- The state in which a query waits: its question is put, and its answer has come. -/
def State.queried (s : State) (p : Place) (word : Core → Nat) : State :=
  (s.asking.meterMesh (s.partNo s.cur.1) (Config.accessBytes 4 8)).modMy
    (·.receive s.fab.nextNum (.word (BitVec.ofNat 64 (word (s.core p))) true))

theorem queryBody_asks {p : Place} (h : askedCore a s = .ok (p, s)) (hp : p ≠ s.cur.1)
    (hk : s.seq.kept = []) (ho : s.seq.out = none) :
    queryBody d a word s = .error (waitAnswer (s.queried p word)) := by
  have hreceive := State.receive_eq (s := s.asking.meterMesh (s.partNo s.cur.1) (Config.accessBytes 4 8))
    (congrArg Seq.out s.asking_seq) (.word (BitVec.ofNat 64 (word (s.core p))) true)
  simp only [queryBody, M.bind_run, h, getState_run, if_neg hp, ask_puts hk ho, s.asking_core hp]
  rw [State.queried, ← hreceive, ← s.asking_partNo]
  rfl

theorem State.queried_seq {p : Place} (hk : s.seq.kept = []) :
    (s.queried p word).seq = { s.seq with out := none, kept := [.word (BitVec.ofNat 64 (word (s.core p))) true] } := by
  rw [State.queried, State.seq_modMy, Strand.seq_receive]
  show Seq.receive s.asking.seq _ _ = _
  simp [Seq.receive, hk]

end

end Sys2Proof.Machine
end

section
/-! `plset`: its checks, the cluster at a physical number, and the tables that cores keep (22 R310, R321; log
entry 49) -/

namespace Sys2Proof.Machine

/-- The clusters of a die column, by physical number, are distinct. -/
theorem State.standing_nodup (s : State) (die col : Nat) : (s.standing die col).Nodup := by
  refine List.Nodup.filter _ (List.Nodup.map (fun a b h => ?_) List.nodup_range)
  have h' : (9 * die + a) * 64 + col = (9 * die + b) * 64 + col := h
  omega

/-- A physical number tells the die and the column. -/
theorem State.die_of_pcnOf {s : State} {clu n : Nat} (h : s.pcnOf clu = some n) :
    n / 576 = clu / 512 ∧ n % 64 = clu % 64 := by
  have hm := List.mem_of_getElem? h
  simp only [State.standing, List.mem_filter, List.mem_map, List.mem_range] at hm
  obtain ⟨⟨k, hk, rfl⟩, -⟩ := hm
  omega

/-- No two logical clusters are held by one physical cluster. -/
theorem State.pcnOf_injective {s : State} {a b n : Nat} (ha : s.pcnOf a = some n) (hb : s.pcnOf b = some n) :
    a = b := by
  obtain ⟨ha1, ha2⟩ := State.die_of_pcnOf ha
  obtain ⟨hb1, hb2⟩ := State.die_of_pcnOf hb
  have hd : a / 512 = b / 512 := ha1.symm.trans hb1
  have hc : a % 64 = b % 64 := ha2.symm.trans hb2
  have hi : a / 64 % 8 = b / 64 % 8 := by
    obtain ⟨hl, -⟩ := List.getElem?_eq_some_iff.mp ha
    refine (List.getElem?_inj hl (s.standing_nodup _ _)).mp (ha.trans ?_)
    rw [hd, hc]
    exact hb.symm
  omega

theorem State.clusterAt_eq_some {s : State} {clu n : Nat} (h : s.pcnOf clu = some n) : s.clusterAt n = some clu := by
  obtain ⟨hd, hc⟩ := State.die_of_pcnOf h
  cases hf : s.clusterAt n with
  | none =>
    refine absurd (beq_iff_eq.mpr h) (List.find?_eq_none.mp hf clu (List.mem_map.mpr ⟨clu / 64 % 8, ?_, ?_⟩))
    · exact List.mem_range.mpr (Nat.mod_lt _ (by decide))
    · omega
  | some c => rw [State.pcnOf_injective (beq_iff_eq.mp (List.find?_some (p := fun c => s.pcnOf c == some n) hf)) h]

theorem State.clusterAt_eq_none {s : State} {n : Nat} (h : ∀ c, s.pcnOf c ≠ some n) : s.clusterAt n = none :=
  List.find?_eq_none.mpr fun c _ => by simp [h c]

/-! The bits of a selecting register that no field has. -/

theorem and_not_eq_zero_iff (w m : Word) : w &&& ~~~ m = 0 ↔ ∀ i < 64, m.getLsbD i = false → w.getLsbD i = false := by
  refine ⟨fun h i hi hm => ?_, fun h => BitVec.eq_of_getLsbD_eq fun i hi => ?_⟩
  · have hb := congrArg (BitVec.getLsbD · i) h
    simpa only [BitVec.getLsbD_and, BitVec.getLsbD_not, hi, hm, decide_true, Bool.not_false, Bool.and_true,
      BitVec.ofNat_eq_ofNat, BitVec.getLsbD_zero] using hb
  · cases hm : m.getLsbD i with
    | true => simp [hm]
    | false => simp [h i hi hm]

theorem field_eq_zero_iff (w : Word) (lo n : Nat) :
    w.toNat / 2 ^ lo % 2 ^ n = 0 ↔ ∀ i, lo ≤ i → i < lo + n → w.getLsbD i = false := by
  refine ⟨fun h i hl hu => ?_, fun h => Nat.eq_of_testBit_eq fun j => ?_⟩
  · have := congrArg (Nat.testBit · (i - lo)) h
    simpa [Nat.testBit_mod_two_pow, Nat.testBit_div_two_pow, hl, show i - lo < n by omega, BitVec.getLsbD] using this
  · by_cases hj : j < n
    · have := h (j + lo) (by omega) (by omega)
      simpa [Nat.testBit_mod_two_pow, Nat.testBit_div_two_pow, hj, BitVec.getLsbD] using this
    · simp [Nat.testBit_mod_two_pow, hj]

/-- What lies above a bit is a field of the bits up to 63. -/
theorem div_eq_zero_iff_field (w : Word) (lo : Nat) : w.toNat / 2 ^ lo = 0 ↔ w.toNat / 2 ^ lo % 2 ^ 64 = 0 := by
  rw [Nat.mod_eq_of_lt (Nat.lt_of_le_of_lt (Nat.div_le_self _ _) w.isLt)]

/-- The fields of `plset`'s selecting register: bits 11:0 and `k` bits from 16; the others are zero. -/
theorem plset_bits_iff {m w : Word} {k : Nat} (hm : ∀ i < 64, m.getLsbD i = false ↔ (12 ≤ i ∧ i < 16) ∨ 16 + k ≤ i) :
    w &&& ~~~ m = 0 ↔ w.toNat / 4096 % 16 = 0 ∧ w.toNat / 2 ^ (16 + k) = 0 := by
  rw [and_not_eq_zero_iff, div_eq_zero_iff_field, field_eq_zero_iff,
    show w.toNat / 4096 % 16 = w.toNat / 2 ^ 12 % 2 ^ 4 from rfl, field_eq_zero_iff]
  refine ⟨fun h => ⟨fun i hl hu => h i (by omega) ((hm i (by omega)).mpr (.inl ⟨hl, hu⟩)), fun i hl hu => ?_⟩,
    fun ⟨h1, h2⟩ i hi hz => ?_⟩
  · by_cases hi : i < 64
    · exact h i hi ((hm i hi).mpr (.inr hl))
    · exact BitVec.getLsbD_of_ge _ _ (by omega)
  · rcases (hm i hi).mp hz with ⟨ha, hb⟩ | ha
    · exact h1 i ha hb
    · exact h2 i ha (by omega)

theorem plsetPlace_bits (w : Word) : w &&& ~~~ 0x07FF0FFF = 0 ↔ w.toNat / 4096 % 16 = 0 ∧ w.toNat / 2 ^ (16 + 11) = 0 :=
  plset_bits_iff (by decide)
theorem plsetPerm_bits (w : Word) : w &&& ~~~ 0x001F0FFF = 0 ↔ w.toNat / 4096 % 16 = 0 ∧ w.toNat / 2 ^ (16 + 5) = 0 :=
  plset_bits_iff (by decide)

/-- The two forms of `plset`: the fields that exist, and what a table becomes. -/
def plsetBody (a b d : Reg) (bits : Word) (put : Word → Word → Cluster → Cluster) : M Next := do
  let (pcn, w) ← plsetTarget a bits
  let v ← readS b
  modState fun s => s.plset pcn (put w v)
  writeS d 0
  pure .fall

section
variable {a b d : Reg} {s : State} {bits : Word} {put : Word → Word → Cluster → Cluster}

theorem plsetBody_reserved (h : s.seq.readS a &&& ~~~ bits ≠ 0) :
    plsetBody a b d bits put s = .error (.trap .windowBounds (some (s.seq.readS a)) .none) := by
  have hb : (s.seq.readS a &&& ~~~ bits != 0) = true := bne_iff_ne.mpr h
  simp only [plsetBody, plsetTarget, M.bind_run, readS_run, hb]
  rfl

theorem plsetBody_beyond (h : s.seq.readS a &&& ~~~ bits = 0) (hp : 2303 < (s.seq.readS a).toNat % 4096) :
    plsetBody a b d bits put s = .error (.trap .placeInvalid none .none) := by
  simp [-bind_pure_comp, plsetBody, plsetTarget, M.bind_run, h, bitsAt, hp, trapOpen]

theorem plsetBody_puts (h : s.seq.readS a &&& ~~~ bits = 0) (hp : (s.seq.readS a).toNat % 4096 ≤ 2303) :
    plsetBody a b d bits put s
      = .ok (.fall, (s.plset ((s.seq.readS a).toNat % 4096)
          (put (s.seq.readS a) (s.seq.readS b))).modSeq (·.writeS d 0)) := by
  simp [-bind_pure_comp, plsetBody, plsetTarget, M.bind_run, M.pure_run, h, bitsAt, Nat.not_lt.mpr hp]

end

/-! The tables that cores keep. -/

/-- What one core of a cluster keeps when the cluster's tables are written. -/
def State.tabKept (s : State) (f : Cluster → Cluster) (p : Place) : Core :=
  if (s.core p).running = true ∧ (s.partOf p).paused = false then { s.core p with oldTabs := some (s.tabsOf p) }
  else { s.core p with oldTabs := (s.core p).oldTabs.map fun o =>
    let k := f { Cluster.reset with place := o.1, perm := o.2 }
    (k.place, k.perm) }

def State.keepTab (f : Cluster → Cluster) (s : State) (p : Place) : State := s.setCore p (s.tabKept f p)

theorem State.keepTabs_eq (s : State) (clu : Nat) (f : Cluster → Cluster) :
    s.keepTabs clu f = ((List.range 8).map (clu * 8 + ·)).foldl (State.keepTab f) s := by
  rw [State.keepTabs, List.foldl_map]
  congr 1
  funext s k
  simp only [State.keepTab, State.tabKept, Bool.and_eq_true, Bool.not_eq_true']
  split <;> rfl

/-- What a core keeps does not depend on the other cores. -/
theorem State.tabKept_keepTab (s : State) (f : Cluster → Cluster) {p q : Place} (h : q ≠ p) :
    (s.keepTab f p).tabKept f q = s.tabKept f q := by
  have hc : (s.keepTab f p).core q = s.core q := (State.core_setCore _ _ _ _).trans (if_neg h)
  simp only [State.tabKept, State.tabsOf, State.partOf, State.partNo, hc]
  rfl

theorem State.core_foldl_keepTab (f : Cluster → Cluster) (q : Place) (ps : List Place) :
    ∀ s : State, ps.Nodup → (ps.foldl (State.keepTab f) s).core q = if q ∈ ps then s.tabKept f q else s.core q := by
  induction ps with
  | nil => exact fun s _ => rfl
  | cons p ps ih =>
    intro s hn
    obtain ⟨hp, hn⟩ := List.nodup_cons.mp hn
    rw [List.foldl_cons, ih _ hn]
    by_cases hq : q = p
    · subst hq
      simp [hp, State.keepTab]
    · rw [State.tabKept_keepTab s f hq]
      simp [hq, State.keepTab]

theorem State.core_keepTabs (s : State) (clu : Nat) (f : Cluster → Cluster) (q : Nat) :
    (s.keepTabs clu f).core q = if q / 8 = clu then s.tabKept f q else s.core q := by
  have hn : ((List.range 8).map (clu * 8 + ·)).Nodup :=
    List.Nodup.map (fun _ _ h => Nat.add_left_cancel h) List.nodup_range
  have hm : q ∈ (List.range 8).map (clu * 8 + ·) ↔ q / 8 = clu := by
    rw [List.mem_map]
    refine ⟨fun ⟨k, hk, (h : clu * 8 + k = q)⟩ => ?_, fun h => ⟨q % 8, ?_, ?_⟩⟩
    · have := List.mem_range.mp hk
      omega
    · exact List.mem_range.mpr (Nat.mod_lt _ (by decide))
    · show clu * 8 + q % 8 = q
      omega
  rw [State.keepTabs_eq, State.core_foldl_keepTab f q _ s hn]
  simp only [hm]

end Sys2Proof.Machine
end

section
/-! The clauses of queries and table writes, each from its body. -/

namespace Sys2Proof.Machine

/-- An instruction whose demands are met does what its body does. -/
theorem Fits.runs {s : State} {n : Need} {o : Bool} {d : Demand} (h : Fits s n o d) {i : Instr}
    (hd : i.demands = some d) (hm : s.meets i) (len : Nat) (body : M Next) :
    performWith len n o body s = finish len s (body s) := by
  obtain ⟨d', hd', h1, h2, h3, h4⟩ := hm
  obtain rfl : d = d' := by simpa [hd] using hd'
  have hl : ¬ s.seq.level.rank < n.level.rank := by rw [h.level]; exact Nat.not_lt.mpr h2
  have hf : n.feat &&& ~~~ s.me.feat = 0 := by rw [h.feat]; exact h3
  simp [performWith, h.seqs.mpr h1, hl, hf, h.opens.mpr h4]

/-- No level is above management's. -/
theorem Level.eq_management {l : Level} (h : Level.rank .management ≤ l.rank) : l = .management := by
  cases l with
  | management => rfl
  | user | supervisor => exact absurd h (by decide)

theorem State.stall_seq (s : State) (w : Wait) : (s.stall w).seq = { s.seq with wait := some w, used := 0 } :=
  State.seq_modSeq _ _

end Sys2Proof.Machine

namespace Sys2Proof.Proofs

open Sys2Proof Sys2Proof.Machine Sys2Proof.Claims

/-- What `feat` and `speed` do, for the word `f` that they read of a core. -/
theorem query_answers {i : Instr} {g : Guard} {a d : Reg} {word : Core → Nat} {f : Core → Word} {s : State}
    (hd : i.demands = some ⟨.bit g, none, .user, 0, [], []⟩)
    (he : exec i s = perform i.len Need.any g (queryBody d a word) s) (hf : ∀ c, BitVec.ofNat 64 (word c) = f c)
    (p : Place) (v : Word) (z : Bool) :
    (a.val = 0 → Completes i s (s.modSeq (·.writeS d (f s.me))))
      ∧ (a.val ≠ 0 → ∀ c, s.checkCore (s.seq.readS a).toNat = .error c → TrapsOpen i s c)
      ∧ (a.val ≠ 0 → s.checkCore (s.seq.readS a).toNat = .ok s.cur.1 → Completes i s (s.modSeq (·.writeS d (f s.me))))
      ∧ (a.val ≠ 0 → s.checkCore (s.seq.readS a).toNat = .ok p → p ≠ s.cur.1 → s.seq.used = 0 →
          (s.seq.kept = [] → s.seq.out = none → s.meets i → ∃ t, exec i s = .next t ∧ t.seq.pc = s.seq.pc
              ∧ t.seq.kept = [.word (f (s.core p)) true] ∧ t.seq.out = none ∧ t.mem = s.mem)
            ∧ (s.seq.kept = [.word v z] → Completes i s
                ((s.modSeq fun c => { c with used := c.used + 1 }).modSeq (·.writeS d v)))) := by
  have hown (h : askedCore a s = .ok (s.cur.1, s)) : Completes i s (s.modSeq (·.writeS d (f s.me))) := fun hm => by
    rw [he, ← hf]
    exact (Fits.any s g).completes hd hm (queryBody_own h)
  refine ⟨fun h => hown (askedCore_own h), fun h c hc hm => ?_, fun h hc => hown (askedCore_ok h hc),
    fun h hc hp hu => ⟨fun hk ho hm => ?_, fun hk hm => ?_⟩⟩
  · rw [he]
    exact (Fits.any s g).traps hd hm (queryBody_error (askedCore_error h hc))
  · have hrun := (Fits.any s g).runs hd hm i.len (queryBody d a word)
    rw [queryBody_asks (askedCore_ok h hc) hp hk ho, waitAnswer_finish] at hrun
    refine ⟨_, he.trans hrun, ?_⟩
    rw [State.stall_seq, State.queried_seq hk, ← hf]
    exact ⟨rfl, rfl, rfl, rfl⟩
  · rw [he]
    exact (Fits.any s g).completes hd hm (queryBody_answered (askedCore_ok h hc) hp hu hk)

/-- `wdog` of a running strand: the old LEFT, and the new one where a register names it. -/
theorem wdog_of_running {s : State} {g : Guard} {d a : Reg} (h : s.me.running = true) :
    Completes (.wdog g d a) s ((if a.val = 0 then s else
      s.modMy fun t => { t with
        csr := { t.csr with left := newLeft s.seq.level s.my.csr.left (s.seq.readS a) } }).modSeq
        (·.writeS d (s.my.csr.left.setWidth 64))) := fun hm => by
  refine (Fits.any s g).completes rfl hm ?_
  by_cases ha : a.val = 0 <;> simp [-bind_pure_comp, M.bind_run, M.pure_run, h, ha]

theorem wdog_of_idle {s : State} {g : Guard} {d a : Reg} (h : s.me.running = false) :
    Completes (.wdog g d a) s (s.modSeq (·.writeS d 0)) := fun hm => by
  refine (Fits.any s g).completes rfl hm ?_
  simp [-bind_pure_comp, M.bind_run, M.pure_run, h]

theorem plset_below_management {i : Instr} {g : Guard} {a b d : Reg} {bits : Word}
    {put : Word → Word → Cluster → Cluster} {s : State}
    (he : exec i s = perform i.len Need.management g (plsetBody a b d bits put) s) (h : s.seq.level ≠ .management) :
    exec i s = .next (s.takeTrap .privileged none .none) := by
  obtain ⟨-, hp, -⟩ := (Fits.bare s g .management 0).checks i.len (plsetBody a b d bits put)
  refine he.trans (hp ⟨nofun, nofun, nofun⟩ fun hl => h (Level.eq_management hl))

section
variable {i : Instr} {g : Guard} {a b d : Reg} {bits : Word} {put : Word → Word → Cluster → Cluster} {s : State}
  (hd : i.demands = some ⟨.bit g, none, .management, 0, [], []⟩)
  (he : exec i s = perform i.len Need.management g (plsetBody a b d bits put) s)
include hd he

theorem plset_reserved (h : s.seq.readS a &&& ~~~ bits ≠ 0) : Traps i s .windowBounds (s.seq.readS a) := fun hm => by
  rw [he]
  exact (Fits.bare s g .management 0).traps hd hm (plsetBody_reserved h)

theorem plset_beyond (h : s.seq.readS a &&& ~~~ bits = 0) (hp : 2303 < (s.seq.readS a).toNat % 4096) :
    TrapsOpen i s .placeInvalid := fun hm => by
  rw [he]
  exact (Fits.bare s g .management 0).traps hd hm (plsetBody_beyond h hp)

theorem plset_puts (h : s.seq.readS a &&& ~~~ bits = 0) (hp : (s.seq.readS a).toNat % 4096 ≤ 2303) :
    Completes i s ((s.plset ((s.seq.readS a).toNat % 4096)
      (put (s.seq.readS a) (s.seq.readS b))).modSeq (·.writeS d 0)) :=
  fun hm => by
    rw [he]
    exact (Fits.bare s g .management 0).completes hd hm (plsetBody_puts h hp)

end

end Sys2Proof.Proofs
end

section
/-! What `plset` makes of a cluster's tables or a spare's, and the whole of the system instructions' obligation. -/

namespace Sys2Proof.Machine

/-- The index that a selecting register names in a table of `2 ^ k` entries, where no bit above it is set. -/
theorem bitsAt_of_div_eq_zero {w k : Nat} (h : w / 2 ^ (16 + k) = 0) : bitsAt w 16 k = w / 65536 := by
  rw [pow_add, ← Nat.div_div_eq_div_mul] at h
  exact Nat.mod_eq_of_lt ((Nat.div_eq_zero_iff_lt (by positivity)).mp h)

theorem State.plset_of_pcnOf {s : State} {clu n : Nat} (h : s.pcnOf clu = some n) (f : Cluster → Cluster) :
    s.plset n f = (s.keepTabs clu f).modClus clu f := by simp only [State.plset, State.clusterAt_eq_some h]

theorem State.plset_of_spare {s : State} {n : Nat} (h : ∀ c, s.pcnOf c ≠ some n) (f : Cluster → Cluster) :
    s.plset n f = { s with spares := Table.set s.spares n (f (Table.get Cluster.reset s.spares n)) } := by
  simp only [State.plset, State.clusterAt_eq_none h]

/-- What `plset` makes of a place table and of a permission table. -/
def putPlace (w v : Word) (k : Cluster) : Cluster :=
  { k with place := Table.set k.place (bitsAt w.toNat 16 11) (v.extractLsb' 0 16) }
def putPerm (w v : Word) (k : Cluster) : Cluster := { k with perm := Table.set k.perm (bitsAt w.toNat 16 5) v }

theorem putPlace_eq {w : Word} (h : w.toNat / 2 ^ (16 + 11) = 0) (v : Word) :
    putPlace w v = fun k => { k with place := Table.set k.place (w.toNat / 65536) (v.setWidth 16) } := by
  funext k
  rw [putPlace, bitsAt_of_div_eq_zero h, ← BitVec.setWidth_eq_extractLsb' (by decide)]

theorem putPerm_eq {w : Word} (h : w.toNat / 2 ^ (16 + 5) = 0) (v : Word) :
    putPerm w v = fun k => { k with perm := Table.set k.perm (w.toNat / 65536) v } := by
  funext k
  rw [putPerm, bitsAt_of_div_eq_zero h]

end Sys2Proof.Machine

namespace Sys2Proof.Proofs

open Sys2Proof Sys2Proof.Machine Sys2Proof.Claims

theorem queriesAndTableWrites : Claims.QueriesAndTableWrites := by
  intro s g d a b p v z clu w self left low next speed queries tables pcn asPlace asPerm fits
  have hplace : exec (.plsetPlace g d a b) s =
      perform 8 Need.management g (plsetBody a b d 0x07FF0FFF putPlace) s := rfl
  have hperm : exec (.plsetPerm g d a b) s =
      perform 8 Need.management g (plsetBody a b d 0x001F0FFF putPerm) s := rfl
  have hfeat : exec (.feat g d a) s = perform 8 Need.any g (queryBody d a fun c => c.feat.toNat) s := rfl
  have hspeed : exec (.speed g d a) s = perform 8 Need.any g (queryBody d a Core.speedEntry) s := rfl
  have hentry : ∀ c, BitVec.ofNat 64 (Core.speedEntry c) = speed c := fun _ => rfl
  refine ⟨wdog_of_running, wdog_of_idle, ?_, ?_, ?_, ?_, fun hp hc => ⟨fun hf => ?_, fun hf => ?_⟩,
    fun hp hc => ⟨fun hf => ?_, fun hf => ?_⟩, fun q f hq => ?_, fun q f hq => ?_, fun _ _ => rfl⟩
  · simp only [queries, List.forall_mem_cons]
    exact ⟨query_answers rfl hfeat (fun c => BitVec.ofNat_toNat 64 c.feat) p v z,
      query_answers rfl hspeed hentry p v z, List.forall_mem_nil _⟩
  · simp only [tables, List.forall_mem_cons]
    exact ⟨plset_below_management hplace, plset_below_management hperm, List.forall_mem_nil _⟩
  · simp only [tables, List.forall_mem_cons]
    exact ⟨fun h => plset_reserved rfl hplace ((plsetPlace_bits w).not.mpr h),
      fun h => plset_reserved rfl hperm ((plsetPerm_bits w).not.mpr h), List.forall_mem_nil _⟩
  · simp only [tables, List.forall_mem_cons]
    exact ⟨fun h => plset_beyond rfl hplace ((plsetPlace_bits w).mpr h),
      fun h => plset_beyond rfl hperm ((plsetPerm_bits w).mpr h), List.forall_mem_nil _⟩
  · have h := plset_puts rfl hplace ((plsetPlace_bits w).mpr hf) hp
    rwa [State.plset_of_pcnOf hc, putPlace_eq hf.2] at h
  · have h := plset_puts rfl hperm ((plsetPerm_bits w).mpr hf) hp
    rwa [State.plset_of_pcnOf hc, putPerm_eq hf.2] at h
  · have h := plset_puts rfl hplace ((plsetPlace_bits w).mpr hf) hp
    rwa [State.plset_of_spare hc, putPlace_eq hf.2] at h
  · have h := plset_puts rfl hperm ((plsetPerm_bits w).mpr hf) hp
    rwa [State.plset_of_spare hc, putPerm_eq hf.2] at h
  · rw [State.core_keepTabs, if_pos hq]
    rfl
  · rw [State.core_keepTabs, if_neg hq]

/-- Settles O43: each clause from the body of its instruction; a physical number finds one cluster, since the clusters
of a die column are distinct. -/
theorem controlRegistersQueriesAndTables : Obligations.ControlRegistersQueriesAndTables :=
  ⟨controlRegistersReadAndWrite, queriesAndTableWrites⟩

end Sys2Proof.Proofs
end

section
/-! Control (08 R123 to R132): what a met instruction makes of its body's outcome, the end rule, targets, loops, pauses, the
branch queues, the return from a user handler and the end of a part. -/

namespace Sys2Proof.Machine

open Sys2Proof.Claims

/-- An instruction whose demands are met ends as its body does. -/
theorem Fits.performs {s : State} {n : Need} {o : Bool} {d : Demand} (h : Fits s n o d) {i : Instr}
    (hd : i.demands = some d) (hm : s.meets i) (len : Nat) (body : M Next) :
    performWith len n o body s = finish len s (body s) := by
  obtain ⟨d', hd', hseq, hlevel, hfeat, hopen⟩ := hm
  obtain rfl : d = d' := by simpa [hd] using hd'
  have hl : ¬ s.seq.level.rank < n.level.rank := by rw [h.level]; exact Nat.not_lt.mpr hlevel
  have hf : n.feat &&& ~~~ s.me.feat = 0 := by rw [h.feat]; exact hfeat
  simp [performWith, h.seqs.mpr hseq, hl, hf, h.opens.mpr hopen]

/-- The instruction `i` hands `body` to `performWith` with a need that says what its demands say. -/
structure Performs (s : State) (i : Instr) (body : M Next) : Prop where
  ends : s.meets i → exec i s = finish i.len s (body s)

section
variable {s t : State} {i : Instr} {body : M Next} (h : Performs s i body)
include h

theorem Performs.completes (hb : body s = .ok (.fall, t)) : Completes i s t := fun hm => by rw [h.ends hm, hb]; rfl

theorem Performs.jumps {pc : Nat} (hb : body s = .ok (.to pc, t)) : Jumps i s t pc := fun hm => by rw [h.ends hm, hb]; rfl

theorem Performs.traps {c : Cause} {v : Word} (hb : body s = .error (.trap c (some v) .none)) : Traps i s c v :=
  fun hm => by rw [h.ends hm, hb]; rfl

theorem Performs.waits {w : Wait} {s' : Option State} (hb : body s = .error (.wait w s')) :
    Ends i s ((s'.getD s).stall (s.seq.carry w)) := fun hm => by rw [h.ends hm, hb]; rfl

theorem Performs.own (hb : body s = .error (.own t)) : Ends i s t := fun hm => by rw [h.ends hm, hb]; rfl

end

/-- Instructions of either sequencer without queue operands. -/
theorem Performs.any {s : State} {i : Instr} {g : Guard} {body : M Next}
    (hd : i.demands = some ⟨.bit g, none, .user, 0, [], []⟩)
    (he : exec i s = performWith i.len Need.any (s.seq.passes g) body s) : Performs s i body :=
  ⟨fun hm => he.trans ((Fits.any s g).performs hd hm _ _)⟩

/-! ### The end rule (08 R126) -/

/-- The counter is live and the sequencer stands at the last instruction of its body. -/
abbrev LoopCtr.ends (l : LoopCtr) (pc : Nat) : Prop := l.count ≠ 0 ∧ pc = l.stop

theorem Seq.endRule_of_inTrap {c : Seq} (ht : c.inTrap = true) (len : Nat) :
    c.endRule len = { c with pc := c.pc + len } := by
  rw [Seq.endRule, if_pos ht]

/-- The end rule outside a trap handler, by which bodies end and which counters stand at 1. -/
theorem Seq.endRule_eq {c : Seq} (ht : c.inTrap = false) (len : Nat) : c.endRule len =
    if c.lc0.ends c.pc then
      if c.lc0.count = 1 then
        if c.lc1.ends c.pc then
          if c.lc1.count = 1 then
            { c with lc0 := { c.lc0 with count := 0 }, lc1 := { c.lc1 with count := 0 }, pc := c.pc + len }
          else { c with lc0 := { c.lc0 with count := c.lc0.saved }, lc1 := { c.lc1 with count := c.lc1.count - 1 },
                        pc := c.lc1.start }
        else { c with lc0 := { c.lc0 with count := 0 }, pc := c.pc + len }
      else { c with lc0 := { c.lc0 with count := c.lc0.count - 1 }, pc := c.lc0.start }
    else if c.lc1.ends c.pc then
      { c with lc1 := { c.lc1 with count := c.lc1.count - 1 },
               pc := if c.lc1.count = 1 then c.pc + len else c.lc1.start }
    else { c with pc := c.pc + len } := by
  have hends (l : LoopCtr) : ((l.count != 0 && c.pc == l.stop) = true) = l.ends c.pc := by simp [LoopCtr.ends]
  have hlast (n : BitVec 32) : ((n - 1 != 0) = true) = (n ≠ 1) := by rw [bne_iff_ne, sub_ne_zero]
  simp only [Seq.endRule, ht, Bool.false_eq_true, if_false, hends, hlast, ite_not]

/-- The end rule moves no loop's bounds. -/
theorem Seq.endRule_bounds (c : Seq) (len : Nat) : let t := c.endRule len
    t.lc0.start = c.lc0.start ∧ t.lc0.stop = c.lc0.stop ∧ t.lc0.saved = c.lc0.saved
      ∧ t.lc1.start = c.lc1.start ∧ t.lc1.stop = c.lc1.stop ∧ t.lc1.saved = c.lc1.saved := by
  simp only [Seq.endRule]
  repeat' split
  all_goals simp

/-- Settling what an instruction leaves behind touches neither the pc nor a counter. -/
theorem Seq.retire_fall_eq (c : Seq) (len : Nat) : (c.retire len .fall).pc = (c.endRule len).pc
    ∧ (c.retire len .fall).lc0 = (c.endRule len).lc0 ∧ (c.retire len .fall).lc1 = (c.endRule len).lc1 := ⟨rfl, rfl, rfl⟩

end Sys2Proof.Machine

namespace Sys2Proof.Proofs

open Sys2Proof Sys2Proof.Machine Sys2Proof.Claims

/-- Settles O4: the branches of the end rule are the arrangements of the two counters. -/
theorem endRuleCountsTheLoops : Obligations.EndRuleCountsTheLoops := by
  intro c len n
  obtain ⟨hpc, h0, h1⟩ := c.retire_fall_eq len
  refine ⟨fun _ => ⟨rfl, rfl, rfl⟩, fun ht => ?_, fun ht => ?_⟩
  · rw [hpc, h0, h1, Seq.endRule_of_inTrap ht]
    exact ⟨rfl, rfl, rfl⟩
  intro t at0 at1
  simp only [t, hpc, h0, h1]
  have heq := Seq.endRule_eq ht len
  refine ⟨fun a0 n0 => ?_, fun a0 n0 a1 n1 => ?_, fun a0 n0 a1 n1 => ?_, fun a0 n0 a1 => ?_, fun a0 a1 n1 => ?_,
    fun a0 a1 n1 => ?_, fun a0 a1 => ?_, c.endRule_bounds len⟩
  · rw [if_pos a0, if_neg n0] at heq; rw [heq]; exact ⟨rfl, rfl, rfl⟩
  · rw [if_pos a0, if_pos n0, if_pos a1, if_neg n1] at heq; rw [heq]; exact ⟨rfl, rfl, rfl⟩
  · rw [if_pos a0, if_pos n0, if_pos a1, if_pos n1] at heq; rw [heq]; exact ⟨rfl, rfl, rfl⟩
  · rw [if_pos a0, if_pos n0, if_neg a1] at heq; rw [heq]; exact ⟨rfl, rfl, rfl⟩
  · rw [if_neg a0, if_pos a1, if_neg n1] at heq; rw [heq]; exact ⟨rfl, rfl, rfl⟩
  · rw [if_neg a0, if_pos a1, if_pos n1] at heq; rw [heq]; exact ⟨rfl, rfl, by rw [n1]; rfl⟩
  · rw [if_neg a0, if_neg a1] at heq; rw [heq]; exact ⟨rfl, rfl, rfl⟩

end Sys2Proof.Proofs
end

section
/-! Control transfers, loops, pauses, branch queues and the ends of parts (08 R111, R124 to R132). -/

namespace Sys2Proof.Machine

open Sys2Proof.Claims

/-! ### Targets (08 R124) -/

theorem boundTarget_run (t : Int) (s : State) : boundTarget t s =
    if t < 0 ∨ (s.regionSize s.cur.1 s.seq.level : Int) ≤ t then .error (.trap .windowBounds (some (tvalInt t)) .none)
    else .ok ((), s) := rfl

theorem checkTarget_run (t : Int) (s : State) : checkTarget t s =
    if t % 4 ≠ 0 then .error (.trap .misalignedTarget (some (tvalInt t)) .none) else boundTarget t s := by
  by_cases h : t % 4 = 0
  · have hb : (t % 4 != 0) = false := by simp [h]
    rw [if_neg (not_not.mpr h), checkTarget, hb]
    rfl
  · have hb : (t % 4 != 0) = true := by simp [h]
    rw [if_pos h, checkTarget, hb]
    rfl

/-- What an instruction does that checks the target `e` and then goes there, its other effects made in `t`. -/
def TransfersTo (i : Instr) (s : State) (e : Int) (t : State) : Prop :=
  let size : Int := s.regionSize s.cur.1 s.seq.level
  (e % 4 ≠ 0 → Traps i s .misalignedTarget (BitVec.ofInt 64 e))
    ∧ (e % 4 = 0 → (e < 0 ∨ size ≤ e) → Traps i s .windowBounds (BitVec.ofInt 64 e))
    ∧ (e % 4 = 0 → 0 ≤ e → e < size → Jumps i s t e.toNat)

theorem Performs.transfers {s t : State} {i : Instr} {body : M Next} {k : Unit → M Next} {e : Int}
    (h : Performs s i body) (hb : body s = (checkTarget e >>= k) s) (hk : k () s = .ok (.to e.toNat, t)) :
    TransfersTo i s e t := by
  rw [M.bind_run, checkTarget_run, boundTarget_run] at hb
  refine ⟨fun ha => h.traps ?_, fun ha hout => h.traps ?_, fun ha hlo hhi => h.jumps ?_⟩
  · rw [hb, if_pos ha]; rfl
  · rw [hb, if_neg (not_not.mpr ha), if_pos hout]; rfl
  · rw [hb, if_neg (not_not.mpr ha), if_neg (by omega)]; exact hk

/-! ### `loop` (08 R125) -/

section
variable {lc : Fin 2} {a : Reg} {i : BitVec 24} {s : State}

/-- The state with the counter armed. -/
def State.armed (s : State) (lc : Fin 2) (a : Reg) (i : BitVec 24) : State :=
  let n := (s.seq.readS a).extractLsb' 0 32
  s.modSeq fun c => c.setLoop lc ⟨n, n, c.pc + 8, ((s.seq.pc : Int) + 4 * i.toInt).toNat⟩

theorem loopBody_outside
    (h : ¬ (0 ≤ (s.seq.pc : Int) + 4 * i.toInt ∧ (s.seq.pc : Int) + 4 * i.toInt < s.regionSize s.cur.1 s.seq.level)) :
    loopBody lc a i s = .error (.trap .windowBounds (some (tvalInt ((s.seq.pc : Int) + 4 * i.toInt))) .none) := by
  rw [loopBody, if_pos (by omega)]; rfl

theorem loopBody_arms
    (h : 0 ≤ (s.seq.pc : Int) + 4 * i.toInt ∧ (s.seq.pc : Int) + 4 * i.toInt < s.regionSize s.cur.1 s.seq.level)
    (hn : (s.seq.readS a).extractLsb' 0 32 ≠ 0) : loopBody lc a i s = .ok (.fall, s.armed lc a i) := by
  rw [loopBody, if_neg (by omega)]
  exact if_pos hn

theorem loopBody_passes {k : Nat}
    (h : 0 ≤ (s.seq.pc : Int) + 4 * i.toInt ∧ (s.seq.pc : Int) + 4 * i.toInt < s.regionSize s.cur.1 s.seq.level)
    (hn : (s.seq.readS a).extractLsb' 0 32 = 0) (hk : s.lenAt ((s.seq.pc : Int) + 4 * i.toInt).toNat = .len k) :
    loopBody lc a i s = .ok (.to (((s.seq.pc : Int) + 4 * i.toInt).toNat + k), s.armed lc a i) := by
  rw [loopBody, if_neg (by omega)]
  simp only [hn, ne_eq, not_true_eq_false, if_false, hk]
  rw [State.armed, hn]

end

/-! ### `pause` (08 R129) -/

theorem pauseBody_over {a : Reg} {i : BitVec 24} {s : State} {n : Nat}
    (hn : (if a.val ≠ 0 then ((s.seq.readS a).extractLsb' 0 32).toNat else i.toNat) = n) (h : s.pauseEnd n ≤ s.tick) :
    pauseBody a i s = .ok (.fall, s) := by
  rw [pauseBody, hn]; exact if_pos h

theorem pauseBody_waits {a : Reg} {i : BitVec 24} {s : State} {n : Nat}
    (hn : (if a.val ≠ 0 then ((s.seq.readS a).extractLsb' 0 32).toNat else i.toNat) = n) (h : ¬ s.pauseEnd n ≤ s.tick) :
    pauseBody a i s = .error (.wait ⟨.pausing, s.pauseEnd n, none, none⟩ none) := by
  rw [pauseBody, hn]; exact if_neg h

theorem State.pauseEnd_begins {s : State} (h : s.seq.wait = none) (n : Nat) : s.pauseEnd n = s.tick + n := by
  rw [State.pauseEnd, h]

theorem State.pauseEnd_goes_on {s : State} {w : Wait} (h : s.seq.wait = some w) (hw : w.why = .pausing) (n : Nat) :
    s.pauseEnd n = w.till := by
  rw [State.pauseEnd, h]; exact if_pos hw

theorem Seq.carry_of_no_wait {c : Seq} (h : c.wait = none) (w : Wait) : c.carry w = w := by rw [Seq.carry, h]

/-! ### A wait of a body keeps the state it began in, whether or not it has been answered -/

theorem Performs.waitsFor {s : State} {i : Instr} {body : M Next} (h : Performs s i body) {w : Why}
    (hb : body s = (waitFor w : M Next) s) : Ends i s (s.stall (s.seq.carry ⟨w, 0, none, none⟩)) := by
  intro hm
  rw [h.ends hm, hb, waitFor]
  by_cases hu : s.seq.used = 0 <;> simp [hu, finish]

end Sys2Proof.Machine

namespace Sys2Proof.Machine

/-! ### Returning from a user handler (08 R128) -/

/-- A return gives the sequencer its target and level, and leaves its registers. -/
theorem Seq.comeBack_fields (c : Seq) (l : Level) (t : Nat) : (c.comeBack l t).pc = t ∧ (c.comeBack l t).level = l
    ∧ (c.comeBack l t).s = c.s ∧ (c.comeBack l t).k = c.k := by
  unfold Seq.comeBack
  split
  · split <;> exact ⟨rfl, rfl, rfl, rfl⟩
  · exact ⟨rfl, rfl, rfl, rfl⟩

theorem Strand.seq_eq_of {t u : Strand} (has : t.as = u.as) (hxs : t.xs = u.xs) {q : SeqId} : t.seq q = u.seq q := by
  cases q
  · exact has
  · exact hxs

/-- The other sequencer's EPC field. -/
def Csrs.otherEpc (r : Csrs) (q : SeqId) : BitVec 32 := if q = .xs then r.apc else r.xpc

/-- What a return makes of the strand. -/
theorem State.strand_comeBack (s : State) (p : Place) (q : SeqId) (l : Level) (t : Nat) :
    let m := s.strand p
    let u := (s.comeBack p q l t).strand p
    u.seq q = (m.seq q).comeBack l t ∧ u.seq (otherSeq q) = (m.seq (otherSeq q)).goOn (m.csr.otherEpc q)
      ∧ u.csr = m.csr ∧ u.q = m.q ∧ u.vec.v = m.vec.v ∧ u.mat = m.mat := by
  cases q <;> simp [State.comeBack, Csrs.otherEpc, Vec.unmark, otherSeq, Strand.seq, Strand.setSeq]

theorem State.my_comeBack {s : State} {l : Level} {t : Nat} : let u := s.comeBack s.cur.1 s.cur.2 l t
    u.seq = s.seq.comeBack l t ∧ u.my.seq (otherSeq s.cur.2) = (s.my.seq (otherSeq s.cur.2)).goOn (s.my.csr.otherEpc s.cur.2)
      ∧ u.my.csr = s.my.csr ∧ u.my.q = s.my.q ∧ u.my.vec.v = s.my.vec.v ∧ u.my.mat = s.my.mat :=
  s.strand_comeBack s.cur.1 s.cur.2 l t

/-- The strand with its user trap closed. -/
def State.udelCleared (s : State) : State :=
  s.modMy fun m => { m with csr := { m.csr with cause := { m.csr.cause with udel := false } } }

theorem State.my_udelCleared (s : State) : s.udelCleared.my =
    { s.my with csr := { s.my.csr with cause := { s.my.csr.cause with udel := false } } } := s.my_modMy _

theorem State.seq_udelCleared (s : State) : s.udelCleared.seq = s.seq := by
  rw [State.udelCleared, State.seq_modMy]
  exact (Strand.seq_eq_of rfl rfl : _ = s.my.seq s.cur.2)

theorem tretBody_run (s : State) : tretBody s =
    let r := s.my.csr
    let t := r.epcOf s.cur.2
    if r.cause.udel = false then .error (.trap .illegalEncoding (some 0) .none)
    else if t % 4 ≠ 0 then .error (.trap .misalignedTarget (some (BitVec.ofNat 64 t)) .none)
    else if s.codeSize s.cur.1 ≤ t then .error (.trap .windowBounds (some (BitVec.ofNat 64 t)) .none)
    else .error (.own (s.udelCleared.comeBack s.cur.1 s.cur.2 .user t)) := by
  simp only [tretBody, Bool.not_eq_true', trap]
  rfl

end Sys2Proof.Machine

namespace Sys2Proof.Proofs

open Sys2Proof Sys2Proof.Machine Sys2Proof.Claims

/-- Settles O17: each transfer is a checked target with its link. -/
theorem controlTransfersGoToTheirTargets : Obligations.ControlTransfersGoToTheirTargets := by
  intro s g d a i ps
  have hbr : Performs s (.br g i) _ := .any rfl rfl
  have hjmp : Performs s (.jmp g d a i) _ := .any rfl rfl
  have hcall : Performs s (.call g d i) _ := .any rfl rfl
  have hret : Performs s (.ret g a) _ := .any rfl rfl
  simp only [ps, List.forall_mem_cons]
  have hpc : branchTarget i s = .ok (s.seq.pc + 4 * i.toInt, s) := rfl
  exact ⟨hbr.transfers (M.bind_ok hpc) rfl, hjmp.transfers (M.bind_ok (readS_run a s)) rfl,
    hcall.transfers (M.bind_ok hpc) rfl, hret.transfers (M.bind_ok (readS_run a s)) rfl, List.forall_mem_nil _⟩

/-- Settles O7: the checks are the branches of the body, the return is that of the strand with UDEL cleared. -/
theorem tretReturnsFromTheUserHandler : Obligations.TretReturnsFromTheUserHandler := by
  intro s g hm r t o
  have hexec := (Performs.any (i := .tret g) (g := g) (body := tretBody) rfl rfl : Performs s _ _).ends hm
  have ht : r.epcOf s.cur.2 = t := by cases h : s.cur.2 <;> simp [t, h, Csrs.epcOf]
  rw [tretBody_run] at hexec
  dsimp only at hexec
  rw [ht] at hexec
  refine ⟨fun hu => ?_, fun hu ha => ?_, fun hu ha hb => ?_, fun hu ha hb => ?_⟩
  · rw [hexec, if_pos hu]; rfl
  · rw [hexec, if_neg (ne_false_of_eq_true hu), if_pos ha]; rfl
  · rw [hexec, if_neg (ne_false_of_eq_true hu), if_neg (not_not.mpr ha), if_pos hb]; rfl
  rw [if_neg (ne_false_of_eq_true hu), if_neg (not_not.mpr ha), if_neg (Nat.not_le.mpr hb)] at hexec
  obtain ⟨hseq, hother, hcsr, hq, hvec, hmat⟩ := State.my_comeBack (s := s.udelCleared) (l := .user) (t := t)
  obtain ⟨hpc, hlevel, hs, hk⟩ := s.seq.comeBack_fields .user t
  rw [s.seq_udelCleared] at hseq
  rw [s.my_udelCleared] at hother hcsr hq hvec hmat
  refine ⟨_, hexec, hcsr, hseq ▸ hpc, hseq ▸ hlevel, hseq ▸ hs, hseq ▸ hk, fun ho => ?_, fun ho => ?_, rfl, hq, hvec, hmat⟩
  · have := hother.trans (if_neg ho)
    exact ⟨congrArg Seq.stopped this, congrArg Seq.pc this⟩
  · exact (hother.trans (if_pos ho)).trans (Strand.seq_eq_of rfl rfl)

end Sys2Proof.Proofs
end

section
/-! Branch queues and the end of a part (08 R111, R131, R132; 01 R17; 16 R244, R245), and the statement about them. -/

namespace Sys2Proof.Machine

open Sys2Proof.Claims

/-! ### Branch queues -/

/-- The branch queue that a sequencer pushes to, and its number. -/
def Queues.pushed (q : Queues) : SeqId → List Bool
  | .as => q.bqx
  | .xs => q.bqa

/-- The branch queue that a sequencer pops. -/
def Queues.popped (q : Queues) : SeqId → List Bool
  | .as => q.bqa
  | .xs => q.bqx

/-- The numbers of the branch queues (01 R17): that of the AS is 5, that of the XS is 6. -/
def bqNumber : SeqId → Nat
  | .as => 5
  | .xs => 6

/-- The strand with a bit joined to the queue that `q` pushes to. -/
def Strand.joinBit (t : Strand) (q : SeqId) (b : Bool) : Strand :=
  match q with
  | .as => { t with q := { t.q with bqx := t.q.bqx ++ [b] } }
  | .xs => { t with q := { t.q with bqa := t.q.bqa ++ [b] } }

/-- The strand with the rest of the queue that `q` pops, and the number of the next access noted. -/
def Strand.takeBit (t : Strand) (q : SeqId) (bs : List Bool) (n : Nat) : Strand :=
  match q with
  | .as => { t with q := { t.q with bqa := bs }, act := { t.act with seenX := n } }
  | .xs => { t with q := { t.q with bqx := bs }, act := { t.act with seen := n } }

section
variable {s : State} {k : Fin 8}

theorem bqpushBody_run : bqpushBody k s =
    if 16 ≤ (s.my.q.pushed s.cur.2).length then
      if (s.my.seq (otherSeq s.cur.2)).gone = true then
        .error (.trap .queueMisuse (some (BitVec.ofNat 64 (bqNumber (otherSeq s.cur.2)))) .none)
      else (waitFor (.queue (bqNumber (otherSeq s.cur.2))) : M Next) s
    else .ok (.fall, s.modMy fun t => t.joinBit s.cur.2 ((s.seq.readK k).getLsbD 0)) := by
  rw [bqpushBody]
  cases s.cur.2 <;> simp only [decide_eq_true_eq] <;> rfl

theorem bqPop_nil (h : s.my.q.popped s.cur.2 = []) : bqPop s =
    if (s.my.seq (otherSeq s.cur.2)).gone = true then
      .error (.trap .queueMisuse (some (BitVec.ofNat 64 (bqNumber s.cur.2))) .none)
    else waitFor (.queue (bqNumber s.cur.2)) s := by
  rw [bqPop]
  cases hq : s.cur.2 <;> rw [hq] at h <;> simp only [Queues.popped] at h <;> simp only [h] <;> rfl

theorem bqPop_cons {b : Bool} {bs : List Bool} (h : s.my.q.popped s.cur.2 = b :: bs) :
    bqPop s = .ok (b, s.modMy fun t => t.takeBit s.cur.2 bs s.fab.nextNum) := by
  rw [bqPop]
  cases hq : s.cur.2 <;> rw [hq] at h <;> simp only [Queues.popped] at h <;> simp only [h] <;> rfl

end

/-- What `bqbr` does once its target has passed the check. -/
def bqbrTail (sense : Bool) (t : Int) : M Next := do
  let b ← bqPop
  pure (if b != sense then .to t.toNat else .fall)

def bqbrBody (sense : Bool) (i : BitVec 24) : M Next := do
  let t ← branchTarget i
  boundTarget t
  bqbrTail sense t

theorem bqbrBody_run (sense : Bool) (i : BitVec 24) (s : State) : bqbrBody sense i s =
    (let t : Int := s.seq.pc + 4 * i.toInt
     if 0 ≤ t ∧ t < s.regionSize s.cur.1 s.seq.level then bqbrTail sense t s
     else .error (.trap .windowBounds (some (tvalInt t)) .none)) := by
  have hpc : branchTarget i s = .ok (s.seq.pc + 4 * i.toInt, s) := rfl
  rw [bqbrBody, M.bind_ok hpc, M.bind_run, boundTarget_run]
  dsimp only
  by_cases h : 0 ≤ (s.seq.pc : Int) + 4 * i.toInt ∧ (s.seq.pc : Int) + 4 * i.toInt < s.regionSize s.cur.1 s.seq.level
  · rw [if_pos h, if_neg (by omega)]
  · rw [if_neg h, if_pos (by omega)]

theorem bqbrTail_stops {sense : Bool} {t : Int} {s : State} {e : Stop} (h : bqPop s = .error e) :
    bqbrTail sense t s = .error e := by rw [bqbrTail, M.bind_run, h]

theorem bqbrTail_takes {sense b : Bool} {t : Int} {s u : State} (h : bqPop s = .ok (b, u)) :
    bqbrTail sense t s = .ok (if b != sense then .to t.toNat else .fall, u) := by rw [bqbrTail, M.bind_ok h]; rfl

/-! ### The end of a part -/

theorem Queues.left_eq (q : Queues) : q.left = (if q.lq[0] = [] then 0 else 1) + (if q.lq[1] = [] then 0 else 2)
      + (if q.lq[2] = [] then 0 else 4) + (if q.lq[3] = [] then 0 else 8) + (if q.sq = [] then 0 else 16)
      + (if q.bqa = [] then 0 else 32) + (if q.bqx = [] then 0 else 64) := by
  have hbit {α : Type} (l : List α) : b2n (!l.isEmpty) = if l = [] then 0 else 1 := by cases l <;> rfl
  simp only [Queues.left, hbit, mul_ite, mul_zero, mul_one]

section
variable {s : State}

theorem endBody_one (hsq : s.cur.2 = .as → s.my.q.sq = []) (ho : (s.my.seq (otherSeq s.cur.2)).gone = false) :
    endBody s = .error (.own (((s.closeInterval s.cur.1).modSeq fun _ => Seq.finished).stopStreams)) := by
  have hno : ¬ (decide (s.cur.2 = .as) && !s.my.q.sq.isEmpty) = true := by
    simpa using hsq
  rw [endBody, if_neg hno, if_pos (by rw [ho]; rfl)]

theorem endBody_left (hsq : s.cur.2 = .as → s.my.q.sq = []) (ho : (s.my.seq (otherSeq s.cur.2)).gone = true)
    (hl : s.my.q.left ≠ 0) : endBody s = .error (.own ((s.modMy fun t => { t with q := Queues.reset }).takeTrap .queueMisuse
      (some (BitVec.ofNat 64 (256 + s.my.q.left))) .none)) := by
  have hno : ¬ (decide (s.cur.2 = .as) && !s.my.q.sq.isEmpty) = true := by
    simpa using hsq
  rw [endBody, if_neg hno, if_neg (by rw [ho]; decide), if_pos (by simpa using hl)]

/-- The last part's end, once the release is made. -/
def State.endsNow (s : State) : State := (s.publish (.launch (s.partNo s.cur.1))).endStrand s.cur.1 false

theorem endBody_last (hsq : s.cur.2 = .as → s.my.q.sq = []) (ho : (s.my.seq (otherSeq s.cur.2)).gone = true)
    (hl : s.my.q.left = 0) : endBody s = (release >>= fun _ t => .error (.own t.endsNow)) s := by
  have hno : ¬ (decide (s.cur.2 = .as) && !s.my.q.sq.isEmpty) = true := by
    simpa using hsq
  rw [endBody, if_neg hno, if_neg (by rw [ho]; decide), if_neg (by simp [hl])]
  rfl

/-! The outcomes of a release (16 R245). -/

theorem release_shut (h : s.seq.shut = true) (hc : s.closing s.cur.1 = false) : release s = .ok ((), s) := by
  simp [release, h, hc]

theorem release_unready (h : s.seq.shut = false) (hr : s.released s.cur.1 s.cur.2 = false) :
    release s = .error (waitRelease (if s.seq.used = 0 then none else some s)) := by
  simp [release, h, hr]

theorem release_closing (h : s.seq.shut = false) (hr : s.released s.cur.1 s.cur.2 = true)
    (hc : (s.releases s.cur.1 s.cur.2).closing s.cur.1 = true) : release s
      = .error (waitRelease (some ((s.releases s.cur.1 s.cur.2).modSeq fun c => { c with passed := c.passed + 4 }))) := by
  simp [release, h, hr, hc]

theorem release_done (h : s.seq.shut = false) (hr : s.released s.cur.1 s.cur.2 = true)
    (hc : (s.releases s.cur.1 s.cur.2).closing s.cur.1 = false) : release s = .ok ((), s.releases s.cur.1 s.cur.2) := by
  simp [release, h, hr, hc]

/-! The closes of an interval leave the current sequencer where it is. -/

theorem State.cur_noteInjection (s : State) (pn : Nat) (src : Place) (vn : Vn) : (s.noteInjection pn src vn).cur = s.cur := by
  unfold State.noteInjection; split <;> rfl

theorem State.cur_meterAccess (s : State) (a : Access) : (s.meterAccess a).cur = s.cur := by
  unfold State.meterAccess; split <;> rfl

theorem State.cur_departed (s : State) (a : Access) : (s.departed a).cur = s.cur := by
  unfold State.departed
  split
  · exact (State.cur_meterAccess _ _).trans (s.cur_noteInjection (s.partNo a.src) a.src a.vn)
  · rfl

theorem State.cur_returned (s : State) (a : Access) : (s.returned a).cur = s.cur := by
  unfold State.returned
  split
  · exact s.cur_noteInjection _ _ _
  · rfl

theorem State.cur_sendClose (s : State) (p : Place) (h : Home) : (s.sendClose p h).cur = s.cur := by
  have hclose : ((s.closeFor p h).party = .core (s.closeFor p h).src ∧ (!(s.closeFor p h).isClose) = true) ↔ False := by
    simp [State.closeFor, Access.isClose]
  simp only [State.sendClose, State.send, hclose, if_false,
    State.applyAccess_close _ (show (s.closeFor p h).op = .close (s.core p).interval from rfl)]
  split
  · next heq => split at heq <;> cases heq; rfl
  · next heq =>
    split at heq <;> cases heq
    exact (State.cur_returned _ _).trans (State.cur_departed _ _)
  · rfl

theorem State.cur_closeInterval (s : State) (p : Place) : (s.closeInterval p).cur = s.cur := by
  rw [s.closeInterval_eq, State.modCore_cur, State.sendCloses]
  exact List.foldlRecOn (motive := fun u : State => u.cur = s.cur) _ _ rfl fun u hu h _ => (u.cur_sendClose p h).trans hu

end

/-- The strand after the end of its sequencer's part, the XS's with its streams. -/
def Strand.partEnded (t : Strand) (q : SeqId) : Strand :=
  match q with
  | .as => { t with as := Seq.finished }
  | .xs => { t with xs := Seq.finished, vec := { t.vec with streams := [] } }

theorem State.stopStreams_finished (s : State) :
    (s.modSeq fun _ => Seq.finished).stopStreams = s.modMy fun t => t.partEnded s.cur.2 := by
  rw [State.stopStreams, State.modSeq_cur, State.modSeq_eq, State.modMy_modMy]
  cases s.cur.2 <;> rfl

/-- The end of a part leaves the other part, the queues and memory. -/
theorem State.partEnds (s : State) : ∃ t, ((s.closeInterval s.cur.1).modSeq fun _ => Seq.finished).stopStreams = t
    ∧ t.seq = Seq.finished ∧ t.my.seq (otherSeq s.cur.2) = s.my.seq (otherSeq s.cur.2) ∧ t.my.q = s.my.q
    ∧ t.me.running = s.me.running ∧ t.mem = s.mem := by
  have hcur := s.cur_closeInterval s.cur.1
  have hme : (s.closeInterval s.cur.1).me = (s.closeInterval s.cur.1).core s.cur.1 := by rw [State.me, hcur]
  have hmy : (s.closeInterval s.cur.1).my = ((s.closeInterval s.cur.1).core s.cur.1).st := congrArg Core.st hme
  refine ⟨_, rfl, ?_⟩
  rw [State.stopStreams_finished, State.seq_modMy, State.my_modMy, State.me_modMy, State.modMy_mem, hme, hmy, hcur,
    s.mem_closeInterval, s.core_closeInterval]
  cases s.cur.2 <;> exact ⟨rfl, rfl, rfl, rfl, rfl⟩

end Sys2Proof.Machine

namespace Sys2Proof.Proofs

open Sys2Proof Sys2Proof.Machine Sys2Proof.Claims

theorem loopArmsItsCounter : LoopArmsItsCounter := by
  intro s g lc a i e n armed inside
  have h : Performs s (.loop g lc a i) (loopBody lc a i) := .any rfl rfl
  have harmed : s.armed lc a i = armed := by
    simp only [State.armed, armed, Seq.setLoop, Fin.ext_iff, e, n]
    rfl
  exact ⟨fun hi => h.traps (loopBody_outside hi), fun hi hn => h.completes (harmed ▸ loopBody_arms hi hn),
    fun hi hn k hk => h.jumps (harmed ▸ loopBody_passes hi hn hk)⟩

theorem pauseWaitsItsTicks : PauseWaitsItsTicks := by
  intro s g a i p q w n
  have h : Performs s (.pause g a i) (pauseBody a i) := .any rfl rfl
  have hn : (if a.val ≠ 0 then ((s.seq.readS a).extractLsb' 0 32).toNat else i.toNat) = n := by
    simp only [n, ite_not, BitVec.extractLsb'_toNat, Nat.shiftRight_zero, Fin.ext_iff]
    rfl
  refine ⟨fun hw h0 => h.completes (pauseBody_over hn ?_), fun hw h0 hm => ?_, fun hw hy ht => h.completes (pauseBody_over hn ?_),
    fun hw hy ht => ?_⟩
  · rw [State.pauseEnd_begins hw, h0]; exact le_rfl
  · have hend := State.pauseEnd_begins hw n
    have := h.waits (pauseBody_waits hn (by omega)) hm
    rwa [Seq.carry_of_no_wait hw, hend] at this
  · rwa [State.pauseEnd_goes_on hw hy]
  · have hexp : exec (.pauseExpiry p q) s = .next ((s.boundary p q).getD (s.modSeqAt p q fun c => c.retire 8 .fall)) := by
      show execPauseExpiry p q s = _
      rw [execPauseExpiry, hw]
      exact if_pos ⟨hy, ht⟩
    exact ⟨fun hb => by rw [hexp, hb]; rfl, fun u hb => by rw [hexp, hb]; rfl⟩

theorem branchQueuesPassTheirBits : BranchQueuesPassTheirBits := by
  intro s g k sense i b bs bit pushA pushX popA popX waits t inside
  have hpush : Performs s (.bqpush g k) (bqpushBody k) := .any rfl rfl
  have hbr : Performs s (.bqbr g sense i) (bqbrBody sense i) := .any rfl rfl
  have hin : inside → bqbrBody sense i s = bqbrTail sense t s := fun hi => by rw [bqbrBody_run]; exact if_pos hi
  have hstop {e : Stop} (hi : inside) (hp : bqPop s = .error e) : bqbrBody sense i s = .error e :=
    (hin hi).trans (bqbrTail_stops hp)
  have hnil (hi : inside) (he : s.my.q.popped s.cur.2 = []) :
      ((s.my.seq (otherSeq s.cur.2)).gone = false → Ends (.bqbr g sense i) s (waits (bqNumber s.cur.2)))
        ∧ ((s.my.seq (otherSeq s.cur.2)).gone = true →
            Traps (.bqbr g sense i) s .queueMisuse (BitVec.ofNat 64 (bqNumber s.cur.2))) := by
    refine ⟨fun hg => hbr.waitsFor (hstop hi ?_), fun hg => hbr.traps (hstop hi ?_)⟩
    · rw [bqPop_nil he, if_neg (by simp [hg])]; rfl
    · rw [bqPop_nil he, if_pos hg]
  have hcons (hi : inside) (he : s.my.q.popped s.cur.2 = b :: bs) :
      (b ≠ sense → Jumps (.bqbr g sense i) s (s.modMy fun t => t.takeBit s.cur.2 bs s.fab.nextNum) t.toNat)
        ∧ (b = sense → Completes (.bqbr g sense i) s (s.modMy fun t => t.takeBit s.cur.2 bs s.fab.nextNum)) := by
    have hrun := (hin hi).trans (bqbrTail_takes (sense := sense) (t := t) (bqPop_cons he))
    exact ⟨fun hne => hbr.jumps (by rw [hrun, if_pos (by simpa using hne)]),
      fun heq => hbr.completes (by rw [hrun, if_neg (by simpa using heq)])⟩
  have hjoin (hl : (s.my.q.pushed s.cur.2).length < 16) :
      Completes (.bqpush g k) s (s.modMy fun t => t.joinBit s.cur.2 bit) :=
    hpush.completes (by rw [bqpushBody_run, if_neg (Nat.not_le.mpr hl)])
  have hfull (hl : 16 ≤ (s.my.q.pushed s.cur.2).length) :
      ((s.my.seq (otherSeq s.cur.2)).gone = true →
          Traps (.bqpush g k) s .queueMisuse (BitVec.ofNat 64 (bqNumber (otherSeq s.cur.2))))
        ∧ ((s.my.seq (otherSeq s.cur.2)).gone = false → Ends (.bqpush g k) s (waits (bqNumber (otherSeq s.cur.2)))) :=
    ⟨fun hg => hpush.traps (by rw [bqpushBody_run, if_pos hl, if_pos hg]),
      fun hg => hpush.waitsFor (by rw [bqpushBody_run, if_pos hl, if_neg (by simp [hg])])⟩
  refine ⟨fun hq => ?_, fun hq => ?_, fun hq => ?_, fun hq => ?_, fun hq => ?_, fun hq => ?_, fun hi hq => ?_, fun hi hq => ?_,
    fun hi => hbr.traps ?_, fun hi hq => ?_, fun hi hq => ?_⟩
  case refine_9 => rw [bqbrBody_run]; exact if_neg hi
  all_goals rw [hq] at hnil hcons hjoin hfull
  · exact hjoin
  · exact hjoin
  · exact fun hl => (hfull hl).1
  · exact fun hl => (hfull hl).1
  · exact fun hl => (hfull hl).2
  · exact fun hl => (hfull hl).2
  · exact hnil hi
  · exact hnil hi
  · exact hcons hi
  · exact hcons hi

theorem endFinishesItsPart : EndFinishesItsPart := by
  intro s g o left endsNow hm hsq
  have h : Performs s (.endPart g) endBody := .any rfl rfl
  have hleft : s.my.q.left = left := s.my.q.left_eq
  refine ⟨fun hp he => ?_, fun ho hl => ?_, fun ho hl hs => ?_, fun ho hl hs hc => ?_⟩
  · obtain ⟨t, ht, hseq, hother, hq, hrun, hmem⟩ := s.partEnds
    have hgone : o.gone = false := by simp [Seq.gone, hp, he]
    refine ⟨t, ht ▸ h.own (endBody_one hsq hgone) hm, ?_, ?_, fun r => ?_, ?_, ?_, hother, hq, hrun, fun a => by rw [hmem]⟩
    all_goals rw [hseq]
    · rfl
    · rfl
    · simp [Seq.finished, Seq.reset, Seq.readS, Seq.file]
    · rfl
    · rfl
  · rw [← hleft] at hl ⊢
    exact h.own (endBody_left hsq ho hl) hm
  · intro u w
    have hlast := endBody_last hsq ho (hleft.trans hl)
    have hwait {s' : Option State} (hr : release s = .error (waitRelease s')) :
        exec (.endPart g) s = .next ((s'.getD s).stall w) := h.waits (by rw [hlast, M.bind_run, hr]; rfl) hm
    refine ⟨fun hr hc => h.own ?_ hm, fun hr hc => hwait (release_closing hs hr hc), fun hr => ?_⟩
    · rw [hlast, M.bind_ok (release_done hs hr hc)]; rfl
    · rw [hwait (release_unready hs hr)]; split <;> rfl
  · have hlast := endBody_last hsq ho (hleft.trans hl)
    exact h.own (by rw [hlast, M.bind_ok (release_shut hs hc)]; rfl) hm

/-- Settles O18: each clause from the body of its instruction. -/
theorem loopsPausesBranchQueuesAndEnds : Obligations.LoopsPausesBranchQueuesAndEnds :=
  ⟨loopArmsItsCounter, pauseWaitsItsTicks, branchQueuesPassTheirBits, endFinishesItsPart⟩

end Sys2Proof.Proofs
end

section
/-! Integer instructions, moves, addresses, compares and bits (08 R108 to R116): their results as numbers. -/

namespace Sys2Proof.Machine

open Sys2Proof.Claims

/-- Instructions of either sequencer with queue operands. -/
theorem Performs.ops {s : State} {i : Instr} {g : Guard} {ss ds : List Opnd} {f : BitVec 16} {body : M Next}
    (hd : i.demands = some ⟨.bit g, none, .user, f, ss, ds⟩)
    (he : exec i s = performWith i.len (needOps ss ds f) (s.seq.passes g) body s) : Performs s i body :=
  ⟨fun hm => he.trans ((Fits.ops s g ss ds f).performs hd hm _ _)⟩

/-- Instructions of the XS with queue operands. -/
theorem Performs.xs {s : State} {i : Instr} {g : Guard} {ss ds : List Opnd} {f : BitVec 16} {body : M Next}
    (hd : i.demands = some ⟨.bit g, some .xs, .user, f, ss, ds⟩)
    (he : exec i s = performWith i.len (needXs ss ds f) (s.seq.passes g) body s) : Performs s i body :=
  ⟨fun hm => he.trans ((Fits.xs s g ss ds f).performs hd hm _ _)⟩

/-- An instruction whose body, after its sources, writes `v` to `D` and does nothing more. -/
theorem Performs.gives {s s2 : State} {i : Instr} {body : M Next} {d : Opnd} {v : Word} (h : Performs s i body)
    (hb : body s = (dst d v >>= fun _ => pure .fall) s2) : Gives i s s2 d v := fun s3 hd =>
  h.completes (by rw [hb, M.bind_ok hd]; rfl)

/-! ### Widths and the values of w-bit numbers (08 R108) -/

theorem widthOf_pos (x : XT) : 0 < widthOf x := by cases x <;> decide
theorem widthOf_le (x : XT) : widthOf x ≤ 64 := by cases x <;> decide

theorem lt_two_pow_64 {x : XT} {a : Nat} (h : a < 2 ^ widthOf x) : a < 2 ^ 64 :=
  h.trans_le (Nat.pow_le_pow_right (by decide) (widthOf_le x))

theorem mod_two_pow_lt (a w : Nat) : a % 2 ^ w < 2 ^ w := Nat.mod_lt _ (Nat.two_pow_pos w)

/-- The two's-complement value of a w-bit number. -/
theorem sval_eq {w a : Nat} (h : a < 2 ^ w) : sval w a = if a < 2 ^ (w - 1) then (a : Int) else (a : Int) - 2 ^ w := by
  rw [sval, Nat.mod_eq_of_lt h]
  push_cast
  rfl

theorem sval_mod (w v : Nat) : sval w v = sval w (v % 2 ^ w) := by rw [sval, sval, Nat.mod_mod]

theorem sval_eq_zero {w a : Nat} (h : a < 2 ^ w) : sval w a = 0 ↔ a = 0 := by
  have hcast : ((2 ^ w : Nat) : Int) = 2 ^ w := by push_cast; rfl
  have := Nat.two_pow_pos (w - 1)
  rw [sval_eq h]
  split <;> omega

/-! ### Results before reduction (08 R113) -/

section
variable {x : XT} {a b k : Nat} (ha : a < 2 ^ widthOf x) (hb : b < 2 ^ widthOf x)

theorem divideInt_zero (w : Nat) (sg : Bool) (a : Int) : divideInt w sg a 0 = (2 ^ w - 1, a) := by
  rw [divideInt, if_pos rfl]; push_cast; rfl

theorem divideInt_corner (w : Nat) : divideInt w true (-2 ^ (w - 1)) (-1) = (-2 ^ (w - 1), 0) := by
  rw [divideInt, if_neg (by decide), if_pos (by simp)]
  push_cast; rfl

theorem divideInt_signed {w : Nat} {a b : Int} (hb : b ≠ 0) (h : ¬ (a = -2 ^ (w - 1) ∧ b = -1)) :
    divideInt w true a b = (a.tdiv b, a.tmod b) := by
  rw [divideInt, if_neg hb, if_neg (by simpa using h), Int.tmod_def, mul_comm]

theorem divideInt_unsigned {w a b : Nat} (hb : b ≠ 0) : divideInt w false a b = ((a : Int) / b, (a : Int) % b) := by
  rw [divideInt, if_neg (by exact_mod_cast hb), if_neg (by simp), Int.tdiv_eq_ediv_of_nonneg (Int.natCast_nonneg a),
    Int.emod_def, mul_comm]

include ha in
theorem toNat_ofNat_of_width : (BitVec.ofNat 64 a).toNat = a := by
  rw [BitVec.toNat_ofNat, Nat.mod_eq_of_lt (lt_two_pow_64 ha)]

include ha hb

theorem bitwise_and : bitwise (· &&& ·) a b = (a &&& b : Nat) := by
  rw [bitwise, BitVec.toNat_and, toNat_ofNat_of_width ha, toNat_ofNat_of_width hb]

theorem bitwise_or : bitwise (· ||| ·) a b = (a ||| b : Nat) := by
  rw [bitwise, BitVec.toNat_or, toNat_ofNat_of_width ha, toNat_ofNat_of_width hb]

theorem bitwise_xor : bitwise (· ^^^ ·) a b = (a ^^^ b : Nat) := by
  rw [bitwise, BitVec.toNat_xor, toNat_ofNat_of_width ha, toNat_ofNat_of_width hb]

/-- Above the width the first operand has no bits, so it does not matter how far the second one is complemented. -/
theorem bitwise_andn : bitwise (fun u v => u &&& ~~~ v) a b = (a &&& (2 ^ widthOf x - 1 - b) : Nat) := by
  rw [bitwise, BitVec.toNat_and, BitVec.toNat_not, toNat_ofNat_of_width ha, toNat_ofNat_of_width hb]
  congr 1
  refine Nat.eq_of_testBit_eq fun i => ?_
  rw [Nat.testBit_and, Nat.testBit_and, Nat.sub_sub, Nat.sub_sub, Nat.add_comm 1 b,
    Nat.testBit_two_pow_sub_succ (lt_two_pow_64 hb), Nat.testBit_two_pow_sub_succ hb]
  by_cases hi : i < widthOf x
  · have := widthOf_le x
    simp [hi, show i < 64 by omega]
  · rw [Nat.testBit_lt_two_pow (ha.trans_le (Nat.pow_le_pow_right (by decide) (by omega)))]
    rfl

end

/-! ### The shared bodies -/

/-- An integer body writes its result, reduced to w bits and extended. -/
theorem integerOp_run {x : XT} {d : Opnd} {ra rb : M Word} {f : Nat → Nat → Nat → Nat → Int} {s s1 s2 : State} {va vb : Word}
    (ha : ra s = .ok (va, s1)) (hb : rb s1 = .ok (vb, s2)) : integerOp x d ra rb f s =
      (let w := widthOf x
       let r := f w (va.toNat % 2 ^ w) (vb.toNat % 2 ^ w) (vb.toNat % 2 ^ w % w)
       (dst d (extendAs x w (r % (2 ^ w : Nat)).toNat) >>= fun _ => pure .fall) s2) := by
  rw [integerOp]
  dsimp only
  rw [M.bind_ok ha, M.bind_ok hb]

/-- An instruction with an integer body gives a number that is equal to its result. -/
theorem Performs.givesInt {s s1 s2 : State} {i : Instr} {x : XT} {d : Opnd} {ra rb : M Word}
    {f : Nat → Nat → Nat → Nat → Int} {va vb : Word} {r : Int} (h : Performs s i (integerOp x d ra rb f))
    (ha : ra s = .ok (va, s1)) (hb : rb s1 = .ok (vb, s2))
    (hr : f (widthOf x) (va.toNat % 2 ^ widthOf x) (vb.toNat % 2 ^ widthOf x) (vb.toNat % 2 ^ widthOf x % widthOf x) = r) :
    GivesInt i s s2 d x r := by
  subst hr
  exact h.gives (integerOp_run ha hb)

/-- The low w bits of the sign-extended immediate. -/
theorem signExtend_toNat_mod (x : XT) (i : BitVec 24) :
    (i.signExtend 64).toNat % 2 ^ widthOf x = (i.toInt % 2 ^ widthOf x).toNat := by
  have hdvd : ((2 : Int) ^ widthOf x) ∣ ((2 ^ 64 : Nat) : Int) := by
    push_cast; exact pow_dvd_pow 2 (widthOf_le x)
  have h0 : (0 : Int) ≤ i.toInt % ((2 ^ 64 : Nat) : Int) := Int.emod_nonneg _ (by decide)
  have hw : (2 ^ widthOf x : Int) = ((2 ^ widthOf x : Nat) : Int) := by push_cast; rfl
  rw [BitVec.signExtend, BitVec.toNat_ofInt, ← Int.emod_emod_of_dvd i.toInt hdvd, hw]
  generalize i.toInt % ((2 ^ 64 : Nat) : Int) = v at h0
  rw [Int.toNat_emod h0 (Int.natCast_nonneg _), Int.toNat_natCast]

end Sys2Proof.Machine

namespace Sys2Proof.Proofs

open Sys2Proof Sys2Proof.Machine Sys2Proof.Claims

theorem integerRegisterResults : IntegerRegisterResults := by
  intro s s1 s2 g x d oa ob va vb hsa hsb w a b k sa sb
  have ha : a < 2 ^ w := mod_two_pow_lt _ _
  have hb : b < 2 ^ w := mod_two_pow_lt _ _
  have hva : sval w a = sa := sval_eq ha
  have hvb : sval w b = sb := sval_eq hb
  have gives {i : Instr} {f : Nat → Nat → Nat → Nat → Int} {r : Int}
      (h : Performs s i (integerOp x d (src oa) (src ob) f)) (hr : f w a b k = r) : GivesInt i s s2 d x r :=
    h.givesInt hsa hsb hr
  have hpow : ((2 ^ w : Nat) : Int) = 2 ^ w := by push_cast; rfl
  have hb0 : sval w b = 0 ↔ b = 0 := sval_eq_zero hb
  have hz : b = 0 → divideInt w true (sval w a) (sval w b) = (2 ^ w - 1, sa) := fun h0 => by
    rw [hb0.mpr h0, divideInt_zero, hva]
  have huz : b = 0 → divideInt w false a b = (2 ^ w - 1, (a : Int)) := fun h0 => by
    rw [h0]; exact divideInt_zero w false a
  have hcorner : sa = -2 ^ (w - 1) → sb = -1 → divideInt w true (sval w a) (sval w b) = (-2 ^ (w - 1), 0) :=
    fun h1 h2 => by rw [hva, hvb, h1, h2, divideInt_corner]
  have hdiv : b ≠ 0 → ¬ (sa = -2 ^ (w - 1) ∧ sb = -1) →
      divideInt w true (sval w a) (sval w b) = (sa.tdiv sb, sa.tmod sb) := fun h0 h1 => by
    rw [hva, hvb]; exact divideInt_signed (hvb ▸ hb0.not.mpr h0) h1
  refine ⟨gives (.ops rfl rfl) rfl, gives (.ops rfl rfl) rfl, gives (.ops rfl rfl) rfl, gives (.ops rfl rfl) ?mulh,
    gives (.ops rfl rfl) ?mulhz,
    fun h0 => ⟨gives (.ops rfl rfl) (congrArg Prod.fst (hz h0)), gives (.ops rfl rfl) (congrArg Prod.fst (huz h0)),
      gives (.ops rfl rfl) (congrArg Prod.snd (hz h0)), gives (.ops rfl rfl) (congrArg Prod.snd (huz h0))⟩,
    fun h1 h2 => ⟨gives (.ops rfl rfl) (congrArg Prod.fst (hcorner h1 h2)),
      gives (.ops rfl rfl) (congrArg Prod.snd (hcorner h1 h2))⟩,
    fun h0 h1 => ⟨gives (.ops rfl rfl) (congrArg Prod.fst (hdiv h0 h1)),
      gives (.ops rfl rfl) (congrArg Prod.snd (hdiv h0 h1))⟩,
    fun h0 => ⟨gives (.ops rfl rfl) (congrArg Prod.fst (divideInt_unsigned h0)),
      gives (.ops rfl rfl) (congrArg Prod.snd (divideInt_unsigned h0))⟩,
    gives (.ops rfl rfl) (bitwise_and ha hb), gives (.ops rfl rfl) (bitwise_or ha hb),
    gives (.ops rfl rfl) (bitwise_xor ha hb), gives (.ops rfl rfl) (bitwise_andn ha hb), gives (.ops rfl rfl) rfl,
    gives (.ops rfl rfl) ?shr, gives (.ops rfl rfl) ?sra, gives (.ops rfl rfl) ?rol, gives (.ops rfl rfl) ?min,
    gives (.ops rfl rfl) ?max, gives (.ops rfl rfl) ?minz, gives (.ops rfl rfl) ?maxz⟩
  case mulh => rw [resMulh, hva, hvb, hpow]
  case mulhz => rw [resMulhz]; push_cast; rfl
  case shr => rw [resShr]; push_cast; rfl
  case sra => rw [resSra, hva]; push_cast; rfl
  case rol => rw [resRol]; push_cast; rfl
  case min => rw [resMin, hva, hvb, min_def]
  case max => rw [resMax, hva, hvb, max_def]
  case minz => rw [resMinz, ← Nat.cast_min, min_def]
  case maxz => rw [resMaxz, ← Nat.cast_max, max_def]

theorem integerImmediateResults : IntegerImmediateResults := by
  intro s g x d ra i w a b k sa
  have hb : (i.signExtend 64).toNat % 2 ^ w = b := signExtend_toNat_mod x i
  have ha : a < 2 ^ w := mod_two_pow_lt _ _
  have hb' : b < 2 ^ w := hb ▸ mod_two_pow_lt _ _
  have hva : sval w a = sa := sval_eq ha
  have gives {j : Instr} {f : Nat → Nat → Nat → Nat → Int} {r : Int}
      (h : Performs s j (integerOp x (.reg d) (readS ra) (pure (i.signExtend 64)) f)) (hr : f w a b k = r) :
      GivesInt j s s (.reg d) x r :=
    h.givesInt (readS_run ra s) (M.pure_run _ s) (by rw [hb]; exact hr)
  refine ⟨gives (.any rfl rfl) rfl, gives (.any rfl rfl) (bitwise_and ha hb'), gives (.any rfl rfl) (bitwise_or ha hb'),
    gives (.any rfl rfl) (bitwise_xor ha hb'), gives (.any rfl rfl) rfl, gives (.any rfl rfl) ?shr,
    gives (.any rfl rfl) ?sra, gives (.any rfl rfl) ?rol, gives (.any rfl rfl) rfl⟩
  case shr => rw [resShr]; push_cast; rfl
  case sra => rw [resSra, hva]; push_cast; rfl
  case rol => rw [resRol]; push_cast; rfl

/-- The two halves of a word, joined. -/
theorem append_extract_eq (j : BitVec 32) (v : Word) :
    j ++ v.extractLsb' 0 32 = BitVec.ofNat 64 (j.toNat * 2 ^ 32 + v.toNat % 2 ^ 32) := by
  apply BitVec.eq_of_toNat_eq
  have hj := j.isLt
  have hv := mod_two_pow_lt v.toNat 32
  have hlt : j.toNat * 2 ^ 32 + v.toNat % 2 ^ 32 < 2 ^ 64 := by omega
  rw [BitVec.toNat_append, BitVec.extractLsb'_toNat, Nat.shiftRight_zero, ← Nat.shiftLeft_add_eq_or_of_lt hv,
    Nat.shiftLeft_eq, BitVec.toNat_ofNat, Nat.mod_eq_of_lt hlt]

/-- An address is exact before it is reduced to 64 bits. -/
theorem address_eq (u v : Word) (k : Nat) (disp : BitVec 10) :
    u + v * BitVec.ofNat 64 (2 ^ k) + disp.signExtend 64 = BitVec.ofInt 64 (u.toNat + v.toNat * 2 ^ k + disp.toInt) := by
  have hk : ((2 : Int) ^ k) = ((2 ^ k : Nat) : Int) := by push_cast; rfl
  rw [hk, BitVec.ofInt_add, BitVec.ofInt_add, BitVec.ofInt_mul, BitVec.ofInt_natCast, BitVec.ofInt_natCast,
    BitVec.ofInt_natCast, BitVec.ofNat_toNat, BitVec.ofNat_toNat, BitVec.setWidth_eq, BitVec.setWidth_eq]
  rfl

theorem movesAndAddresses : MovesAndAddresses := by
  intro s s1 s2 g x d oa ob rd va vb j sc disp ha hb
  have extended {i : Instr} (h : Performs s i (extendOp x d oa)) : Gives i s s1 d (extendAs x (widthOf x) va.toNat) :=
    h.gives (M.bind_ok ha)
  refine ⟨(Performs.any rfl rfl).gives rfl, (Performs.any rfl rfl).gives ?_, extended (.ops rfl rfl), extended (.ops rfl rfl),
    extended (.ops rfl rfl), (Performs.ops rfl rfl).gives ?_, (Performs.any rfl rfl).gives rfl⟩
  · rw [← append_extract_eq]; rfl
  · rw [M.bind_ok ha, M.bind_ok hb, address_eq]

theorem resultsAreExtended : ResultsAreExtended := by
  intro x v w u
  have hu : sval w v = if u < 2 ^ (w - 1) then (u : Int) else u - 2 ^ w := (sval_mod w v).trans (sval_eq (mod_two_pow_lt v w))
  exact ⟨fun hs => by rw [extendAs, if_pos hs, hu], fun hs => by rw [extendAs, if_neg (by simp [hs])]⟩

/-- Settles O10: each result before its reduction, and the extension of the reduced one. -/
theorem integerResults : Obligations.IntegerResults :=
  ⟨integerRegisterResults, integerImmediateResults, movesAndAddresses, resultsAreExtended⟩

end Sys2Proof.Proofs
end

section
/-! Compare, select, counts and bit fields (08 R115). -/

namespace Sys2Proof.Machine

open Sys2Proof.Claims

/-- A body with one source. -/
theorem Performs.gives_of_src {s s1 : State} {i : Instr} {oa d : Opnd} {va v : Word} {k : Word → M Next}
    (h : Performs s i (src oa >>= k)) (ha : src oa s = .ok (va, s1)) (hk : k va s1 = (dst d v >>= fun _ => pure .fall) s1) :
    Gives i s s1 d v := h.gives (by rw [M.bind_ok ha]; exact hk)

theorem intValue_eq (x : XT) (v : Nat) : intValue x v =
    if x.isSigned ∧ ¬ v % 2 ^ widthOf x < 2 ^ (widthOf x - 1) then ((v % 2 ^ widthOf x : Nat) : Int) - 2 ^ widthOf x
    else (v % 2 ^ widthOf x : Nat) := by
  rw [intValue, sval_mod, sval_eq (mod_two_pow_lt _ _)]
  cases x.isSigned
  · simp
  · simp only [if_true, true_and, ite_not]

theorem bitLen_eq_size (n : Nat) : bitLen n = n.size := by
  rw [bitLen]
  split
  · next h => rw [h, Nat.size_zero]
  · next h =>
    apply le_antisymm
    · exact Nat.lt_size.mpr (Nat.log2_self_le h)
    · exact Nat.size_le.mpr Nat.lt_log2_self

/-- The count of zero bits below the lowest one bit. -/
theorem trailing_eq {w v n : Nat} (hn : n < w) (h0 : v % 2 ^ n = 0) (h1 : v / 2 ^ n % 2 = 1) : trailing w v = n := by
  induction w generalizing v n with
  | zero => omega
  | succ w ih =>
    cases n with
    | zero => simpa [trailing] using h1
    | succ n =>
      have heven : v % 2 = 0 := by
        have hdvd : 2 ∣ v := (Dvd.intro_left (2 ^ n) (pow_succ 2 n).symm).trans (Nat.dvd_of_mod_eq_zero h0)
        exact Nat.mod_eq_zero_of_dvd hdvd
      have hhalf : v / 2 % 2 ^ n = 0 := by
        rw [pow_succ'] at h0
        rw [← Nat.mod_mul_right_div_self, h0]
      rw [pow_succ', ← Nat.div_div_eq_div_mul] at h1
      rw [trailing, if_neg (by omega), ih (by omega) hhalf h1, Nat.add_comm]

theorem trailing_zero (w : Nat) : trailing w 0 = w := by
  induction w with
  | zero => rfl
  | succ w ih => rw [trailing, if_neg (by decide), Nat.zero_div, ih, Nat.add_comm]

theorem ones_eq (w v : Nat) : ones w v = (List.range w).countP fun i => v.testBit i := by
  induction w generalizing v with
  | zero => rfl
  | succ w ih =>
    rw [ones, ih, List.range_succ_eq_map, List.countP_cons, List.countP_map, Nat.add_comm]
    congr 1
    · simp [Function.comp_def, Nat.testBit_succ]
    · rcases Nat.mod_two_eq_zero_or_one v with h | h <;> simp [Nat.testBit_zero, h]

/-- A bit of a word with a field replaced. -/
theorem testBit_insertField (old new : Nat) (p l i : Nat) : (insertField old new p l).testBit i =
    if p ≤ i ∧ i < p + l then new.testBit (i - p) else old.testBit i := by
  have hlow : old % 2 ^ p + new % 2 ^ l * 2 ^ p < 2 ^ (p + l) := by
    calc old % 2 ^ p + new % 2 ^ l * 2 ^ p < 2 ^ p + new % 2 ^ l * 2 ^ p := by
          exact Nat.add_lt_add_right (mod_two_pow_lt old p) _
      _ = (new % 2 ^ l + 1) * 2 ^ p := by ring
      _ ≤ 2 ^ l * 2 ^ p := Nat.mul_le_mul_right _ (mod_two_pow_lt new l)
      _ = 2 ^ (p + l) := by rw [pow_add, mul_comm]
  have hsplit : insertField old new p l = 2 ^ (p + l) * (old / 2 ^ (p + l)) + (2 ^ p * (new % 2 ^ l) + old % 2 ^ p) := by
    rw [insertField]; ring
  rw [hsplit, Nat.testBit_two_pow_mul_add _ (by rw [← Nat.add_comm (old % 2 ^ p), mul_comm]; exact hlow)]
  by_cases hi : i < p + l
  · rw [if_pos hi, Nat.testBit_two_pow_mul_add _ (mod_two_pow_lt old p)]
    by_cases hp : i < p
    · rw [if_pos hp, if_neg (by omega), Nat.testBit_mod_two_pow]; simp [hp]
    · rw [if_neg hp, if_pos (by omega), Nat.testBit_mod_two_pow]; simp [show i - p < l by omega]
  · rw [if_neg hi, if_neg (by omega), Nat.testBit_div_two_pow]
    congr 1
    omega

end Sys2Proof.Machine

namespace Sys2Proof.Proofs

open Sys2Proof Sys2Proof.Machine Sys2Proof.Claims

/-- Settles O11. -/
theorem comparesSelectsAndBits : Obligations.ComparesSelectsAndBits := by
  intro s s1 s2 g x d oa ob rd kd kc va vb pos lm1 hsa hsb w a b u v f flag
  have ha : a < 2 ^ w := mod_two_pow_lt _ _
  have hu : intValue x va.toNat = u := intValue_eq x _
  have hv : intValue x vb.toNat = v := intValue_eq x _
  have compares (cc : Cond) : Completes (.cmp g x kd cc oa ob) s (flag (Machine.Cond.holds cc u v)) := by
    rw [← hu, ← hv]
    exact (Performs.ops rfl rfl).completes ((M.bind_ok hsa).trans ((M.bind_ok hsb).trans rfl))
  have counts {i : Instr} {fn : Nat → Nat → Nat} {n : Nat} (h : Performs s i (countOp x d oa fn)) (hn : fn w a = n) :
      Gives i s s1 d (extendAs x w n) := by
    subst hn
    exact h.gives_of_src hsa rfl
  have hfield : f < 2 ^ (lm1.val + 1) := mod_two_pow_lt _ _
  refine ⟨compares .eq, compares .ne, compares .lt, compares .ge, compares .le, compares .gt, (Performs.ops rfl rfl).gives ?_,
    fun n hn hs => counts (.ops rfl rfl) ?_, fun h0 n hz h1 => counts (.ops rfl rfl) (trailing_eq ?_ hz h1),
    fun h0 => counts (.ops rfl rfl) ?_, counts (.ops rfl rfl) (ones_eq w a),
    fun hx => (Performs.ops rfl rfl).gives_of_src hsa ?_, fun hx => (Performs.ops rfl rfl).gives_of_src hsa ?_, fun hp => ?_⟩
  · rw [M.bind_ok hsa, M.bind_ok hsb]; rfl
  · rw [bitLen_eq_size]; omega
  · have hle : 2 ^ n ≤ a := Nat.le_of_dvd (Nat.pos_of_ne_zero h0) (Nat.dvd_of_mod_eq_zero hz)
    exact (Nat.pow_lt_pow_iff_right (by decide)).mp (hle.trans_lt ha)
  · rw [h0, trailing_zero]
  · have hf : sval (lm1.val + 1) f = if f < 2 ^ lm1.val then (f : Int) else f - 2 ^ (lm1.val + 1) := sval_eq hfield
    rw [← hf, hx]; rfl
  · have hx' : extendAs .z64 (lm1.val + 1) f = BitVec.ofNat 64 f := by
      rw [extendAs, if_neg (by decide), Nat.mod_eq_of_lt hfield]
    rw [← hx', hx]; rfl
  · refine ⟨BitVec.ofNat 64 (insertField (s1.seq.readS rd).toNat va.toNat pos.val (lm1.val + 1)),
      (Performs.ops rfl rfl).completes ((M.bind_ok hsa).trans rfl), fun i hi => ?_⟩
    rw [BitVec.getLsbD_ofNat, testBit_insertField]
    have hlast : i < pos.val + (lm1.val + 1) ↔ i ≤ pos.val + lm1.val := by omega
    simp only [hi, decide_true, Bool.true_and, hlast, BitVec.getLsbD]

end Sys2Proof.Proofs
end

section
/-! Exact values (05 R64, R65): the numbers that finite values are, their sums, products and order. -/

namespace Sys2Proof.Machine

namespace FVal

theorem rational_fin (n : Bool) (m : Nat) (e : Int) : (FVal.fin n m e).rational = (if n then -1 else 1) * (m : ℚ) * 2 ^ e := rfl

/-- The number of a mantissa brought to a lower exponent. -/
theorem scaled_mul {e e0 : Int} (h : e0 ≤ e) (n : Bool) (m : Nat) :
    (scaled n m e e0 : ℚ) * 2 ^ e0 = (FVal.fin n m e).rational := by
  have hp : (2 : ℚ) ^ (e - e0).toNat * 2 ^ e0 = 2 ^ e := by
    rw [← zpow_natCast, Int.toNat_of_nonneg (by omega), ← zpow_add₀ two_ne_zero, sub_add_cancel]
  rw [rational_fin, ← hp]
  cases n <;> simp [scaled, mul_assoc]

theorem rational_eq_zero_iff {u : FVal} (h : u.isFinite = true) : u.rational = 0 ↔ u.isZero = true := by
  cases u with
  | fin n m e =>
    have h2 : (2 : ℚ) ^ e ≠ 0 := zpow_ne_zero e two_ne_zero
    cases n <;> simp [rational_fin, isZero, h2]
  | nan _ => nomatch h
  | inf _ => nomatch h

theorem rational_of_isZero {u : FVal} (h : u.isZero = true) : u.rational = 0 := by
  cases u with
  | fin n m e => exact (rational_eq_zero_iff rfl).mpr h
  | nan _ => rfl
  | inf _ => rfl

theorem isFinite_of_isZero {u : FVal} (h : u.isZero = true) : u.isFinite = true := by
  cases u with
  | fin n m e => rfl
  | nan _ => nomatch h
  | inf _ => nomatch h

/-! ### Order (08 R119) -/

theorem cmp_fin (n1 n2 : Bool) (m1 m2 : Nat) (e1 e2 : Int) : (FVal.fin n1 m1 e1).cmp (.fin n2 m2 e2)
    = some (compare (FVal.fin n1 m1 e1).rational (FVal.fin n2 m2 e2).rational) := by
  have h0 : (0 : ℚ) < 2 ^ min e1 e2 := zpow_pos two_pos _
  rw [← scaled_mul (min_le_left e1 e2), ← scaled_mul (min_le_right e1 e2)]
  show some (compare (scaled n1 m1 e1 (min e1 e2)) (scaled n2 m2 e2 (min e1 e2))) = _
  congr 1
  rcases lt_trichotomy (scaled n1 m1 e1 (min e1 e2)) (scaled n2 m2 e2 (min e1 e2)) with h | h | h
  · rw [compare_lt_iff_lt.mpr h, compare_lt_iff_lt.mpr (mul_lt_mul_of_pos_right (by exact_mod_cast h) h0)]
  · rw [h, compare_eq_iff_eq.mpr rfl, compare_eq_iff_eq.mpr rfl]
  · rw [compare_gt_iff_gt.mpr h, compare_gt_iff_gt.mpr (mul_lt_mul_of_pos_right (by exact_mod_cast h) h0)]

/-- Ordered values compare as the numbers with both infinities do. -/
theorem cmp_eq {u v : FVal} (hu : u.isNan = false) (hv : v.isNan = false) :
    (u.cmp v = some .lt ↔ u.extended < v.extended) ∧ (u.cmp v = some .eq ↔ u.extended = v.extended) := by
  cases u with
  | nan _ => nomatch hu
  | inf a =>
    cases v with
    | nan _ => nomatch hv
    | inf b => cases a <;> cases b <;> simp [cmp, extended]
    | fin n m e => cases a <;> simp [cmp, extended]
  | fin n m e =>
    cases v with
    | nan _ => nomatch hv
    | inf b =>
      have htop (q : ℚ) : ((q : WithTop ℚ) : WithBot (WithTop ℚ)) < ⊤ :=
        WithBot.coe_lt_coe.mpr (WithTop.coe_lt_top q)
      cases b <;> simp [cmp, extended, htop]
    | fin n' m' e' => simp [cmp_fin, extended, compare_lt_iff_lt]

theorem lt_iff {u v : FVal} (hu : u.isNan = false) (hv : v.isNan = false) : u.lt v = true ↔ u.extended < v.extended := by
  rw [lt, beq_iff_eq, (cmp_eq hu hv).1]

theorem eqv_iff {u v : FVal} (hu : u.isNan = false) (hv : v.isNan = false) : u.eqv v = true ↔ u.extended = v.extended := by
  rw [eqv, beq_iff_eq, (cmp_eq hu hv).2]

theorem cmp_of_nan {u v : FVal} (h : u.isNan = true ∨ v.isNan = true) : u.cmp v = none := by
  cases u <;> cases v <;> simp_all [cmp, isNan]

end FVal

end Sys2Proof.Machine
end

section
/-! Scalar FP instructions (08 R117 to R122): what their bodies make of their sources, and what scalar instructions leave
unchanged. -/

namespace Sys2Proof.Machine

open Sys2Proof.Claims

/-- A state with an instruction's flags in FPSTAT. -/
def State.raised (s : State) (f : Flags) : State :=
  s.modMy fun t => { t with csr := { t.csr with fpstat := t.csr.fpstat ||| f } }

theorem raise_run (f : Flags) (s : State) : raise f s = .ok ((), s.raised f) := rfl

/-- No flag raised leaves a completed instruction's state as it is. -/
theorem State.retire_raised_zero (s : State) (len : Nat) (n : Next) : (s.raised 0).retire len n = s.retire len n := by
  rw [State.retire, State.retire, State.modSeq_eq, State.modSeq_eq, State.raised, State.modMy_modMy]
  refine State.modStrand_congr _ _ ?_
  have h (x : Flags) : x ||| 0 = x := BitVec.or_zero
  simp only [h]
  rfl

theorem completes_raised_zero {i : Instr} {s t : State} : Completes i s (t.raised 0) ↔ Completes i s t := by
  rw [Completes, Completes, State.retire_raised_zero]

section
variable {x : XT} {oa ob d : Opnd} {s s1 s2 s3 : State} {va vb : Word}

theorem fpSource_run (h : src oa s = .ok (va, s1)) : fpSource x oa s = .ok (va.toNat % 2 ^ widthOf x, s1) := by
  rw [fpSource, M.bind_ok h]; rfl

theorem roundMode_run (s : State) : roundMode s = .ok (s.my.csr.fpmode.toNat, s) := rfl

theorem fpResult_run {r : Nat × Flags} (h : dst d (BitVec.ofNat 64 (r.1 % 2 ^ widthOf x)) s = .ok ((), s3)) :
    fpResult x d r s = .ok (.fall, s3.raised r.2) := by
  rw [fpResult, M.bind_ok h]; rfl

/-- A two-operand body: `A` is read before `B`, and then the rounding direction. -/
theorem fpBinary_body {f : XT → Nat → Nat → Nat → Nat × Flags} (ha : src oa s = .ok (va, s1)) (hb : src ob s1 = .ok (vb, s2)) :
    (do let u ← fpSource x oa; let v ← fpSource x ob; let rm ← roundMode; fpResult x d (f x rm u v) : M Next) s
      = fpResult x d (f x s2.my.csr.fpmode.toNat (va.toNat % 2 ^ widthOf x) (vb.toNat % 2 ^ widthOf x)) s2 := by
  rw [M.bind_ok (fpSource_run ha), M.bind_ok (fpSource_run hb), M.bind_ok (roundMode_run s2)]

end

/-! ### Comparisons (08 R119) -/

theorem fCmp_nan {x : XT} {a b : Nat} (h : (decodeF x a).isNan = true ∨ (decodeF x b).isNan = true) (cc : FCond) :
    (fCmp x cc a b).1 = (match cc with | .eq | .lt | .le => false | .un | .ne => true) := by
  have hun : ((decodeF x a).isNan || (decodeF x b).isNan) = true := by simpa using h
  cases cc <;> simp [fCmp, FVal.eqv, FVal.lt, FVal.cmp_of_nan h, hun]

theorem isSNan_iff (u : FVal) : u.isSNan = true ↔ u = .nan true := by cases u <;> simp [FVal.isSNan]

theorem isNan_of_isSNan {u : FVal} (h : u.isSNan = true) : u.isNan = true := by
  rw [(isSNan_iff u).mp h]; rfl

theorem fCmp_flags_nan {x : XT} {a b : Nat} (h : (decodeF x a).isNan = true ∨ (decodeF x b).isNan = true) (cc : FCond) :
    (fCmp x cc a b).2
      = if decodeF x a = .nan true ∨ decodeF x b = .nan true ∨ cc = .lt ∨ cc = .le then 16 else 0 := by
  have hun : ((decodeF x a).isNan || (decodeF x b).isNan) = true := by simpa using h
  simp [fCmp, hun, ← isSNan_iff, Flag.nv, or_assoc]

theorem fCmp_ordered {x : XT} {a b : Nat} (ha : (decodeF x a).isNan = false) (hb : (decodeF x b).isNan = false) (cc : FCond) :
    (fCmp x cc a b).2 = 0 ∧ ((fCmp x cc a b).1 = true ↔ (match cc with
      | .eq => (decodeF x a).extended = (decodeF x b).extended
      | .lt => (decodeF x a).extended < (decodeF x b).extended
      | .le => (decodeF x a).extended ≤ (decodeF x b).extended
      | .un => False
      | .ne => (decodeF x a).extended ≠ (decodeF x b).extended)) := by
  have hs {u : FVal} (hu : u.isNan = false) : u.isSNan = false := by
    rw [Bool.eq_false_iff]
    exact fun h => Bool.eq_false_iff.mp hu (isNan_of_isSNan h)
  have hlt := FVal.lt_iff ha hb
  have heq := FVal.eqv_iff ha hb
  refine ⟨by simp [fCmp, ha, hb, hs ha, hs hb], ?_⟩
  cases cc with
  | eq => exact heq
  | lt => exact hlt
  | le => rw [le_iff_lt_or_eq, ← hlt, ← heq]; simp [fCmp]
  | un => simp [fCmp, ha, hb]
  | ne => rw [ne_eq, ← heq]; simp [fCmp]

/-! ### Frames -/

theorem OnlyRegisters.of_writeK (s : State) (k : Fin 8) (v : Lane) (len : Nat) (n : Next) :
    OnlyRegisters s ((s.modSeq (·.writeK k v)).retire len n) [] [k] := by
  obtain ⟨-, -, -, -, -, hshelf, -⟩ := (s.seq.writeK k v).retire_fields len n
  refine ⟨?_, fun r _ => by simp, fun j hj => ?_, by simp, ?_, fun a => by simp [State.retire]⟩
  · rw [State.retire, State.modSeq_modSeq, State.modSeq_eq, State.modMy, State.modMy]
    exact State.modStrand_congr _ _ (by simp [State.seq, State.seqAt])
  · simp only [List.mem_singleton] at hj
    simp [Seq.readK_writeK, hj]
  · rw [State.retire_seq, State.seq_modSeq, hshelf]
    unfold Seq.writeK; split
    · rfl
    · split <;> rfl

/-- An instruction that gives a value to a register destination changes that register alone. -/
theorem onlyRegisters_of_gives {s : State} {i : Instr} {d : Reg} {v : Word} (h : Gives i s s (.reg d) v) (hm : s.meets i) :
    ∃ t, exec i s = .next t ∧ OnlyRegisters s t [d] [] :=
  ⟨_, h _ (dst_reg d v s) hm, OnlyRegisters.of_writeS s d v _ _⟩

/-- An instruction that changes registers by `f` and raises `fl` changes, but for FPSTAT, no more than that, and FPSTAT
loses no flag. -/
theorem onlyRegisters_of_raised {s : State} {i : Instr} {f : Seq → Seq} {fl : Flags} {ds : List Reg} {ks : List (Fin 8)}
    (h : Completes i s ((s.modSeq f).raised fl)) (hm : s.meets i) (hr : OnlyRegisters s ((s.modSeq f).retire i.len .fall) ds ks) :
    ∃ t, exec i s = .next t
      ∧ OnlyRegisters s (t.modMy fun n => { n with csr := { n.csr with fpstat := s.my.csr.fpstat } }) ds ks
      ∧ s.my.csr.fpstat &&& ~~~ t.my.csr.fpstat = 0 := by
  refine ⟨_, h hm, ?_, ?_⟩
  · have : (((s.modSeq f).raised fl).retire i.len .fall).modMy
        (fun n => { n with csr := { n.csr with fpstat := s.my.csr.fpstat } }) = (s.modSeq f).retire i.len .fall := by
      simp only [State.retire, State.raised, State.modSeq_eq, State.modMy_modMy]
      refine State.modStrand_congr _ _ ?_
      simp only [State.modMy_cur]
      cases s.cur.2 <;> rfl
    rwa [this]
  · simp only [State.retire, State.raised, State.my_modSeq, State.my_modMy, Strand.setSeq_csr]
    ext j
    simp +contextual

end Sys2Proof.Machine

namespace Sys2Proof.Proofs

open Sys2Proof Sys2Proof.Machine Sys2Proof.Claims

/-- Settles O12: the sources are read in order, then the direction, and the result's flags are raised. -/
theorem scalarFloatResults : Obligations.ScalarFloatResults := by
  intro s s1 s2 s3 g x d oa ob c va vb ha hb w a b e gives
  have binary {i : Instr} {f : XT → Nat → Nat → Nat → Nat × Flags}
      (h : Performs s i (do let u ← fpSource x oa; let v ← fpSource x ob; let rm ← roundMode; fpResult x d (f x rm u v))) :
      gives i s2 (f x s2.my.csr.fpmode.toNat a b) := fun hd =>
    h.completes ((fpBinary_body ha hb).trans (fpResult_run hd))
  refine ⟨binary (.xs rfl rfl), binary (.xs rfl rfl), binary (.xs rfl rfl), binary (.xs rfl rfl),
    fun hd => (Performs.xs rfl rfl).completes ?_, fun hd => (Performs.xs rfl rfl).completes ?_,
    binary (f := fun x _ => fMinMax x false) (.xs rfl rfl), binary (f := fun x _ => fMinMax x true) (.xs rfl rfl)⟩
  · rw [M.bind_ok (fpSource_run ha), M.bind_ok (fpSource_run hb), M.bind_ok (fpSource_run (src_reg c s2)),
      M.bind_ok (roundMode_run s2)]
    exact fpResult_run hd
  · rw [M.bind_ok (fpSource_run ha), M.bind_ok (roundMode_run s1)]
    exact fpResult_run hd

/-- Settles O13: the model's comparison, with a NaN and between ordered operands. -/
theorem fcmpSetsItsRelation : Obligations.FcmpSetsItsRelation := by
  intro s s1 s2 g x kd cc oa ob va vb hsa hsb hm a b
  refine ⟨(fCmp x cc (va.toNat % 2 ^ widthOf x) (vb.toNat % 2 ^ widthOf x)).1,
    (fCmp x cc (va.toNat % 2 ^ widthOf x) (vb.toNat % 2 ^ widthOf x)).2, (Performs.xs rfl rfl).completes ?_ hm, fun hn => ?_,
    fun ha hb => fCmp_ordered ha hb cc⟩
  · rw [M.bind_ok (fpSource_run hsa), M.bind_ok (fpSource_run hsb)]; rfl
  · rw [fCmp_nan hn, fCmp_flags_nan hn]
    exact ⟨rfl, fun h => if_pos h, fun h => if_neg h⟩

theorem scalarInstructionsChangeTheirDestinationAlone : ScalarInstructionsChangeTheirDestinationAlone := by
  intro s g x d a b i j kc sc disp pos lm1
  have gives {ins : Instr} {body : M Next} {v : Word} (h : Performs s ins body)
      (hb : body s = (dst (.reg d) v >>= fun _ => pure .fall) s) :
      s.meets ins → ∃ t, exec ins s = .next t ∧ OnlyRegisters s t [d] [] := onlyRegisters_of_gives (h.gives hb)
  have int {ins : Instr} {f : Nat → Nat → Nat → Nat → Int}
      (h : Performs s ins (integerOp x (.reg d) (src (.reg a)) (src (.reg b)) f)) :=
    gives h (integerOp_run (src_reg a s) (src_reg b s))
  have imm {ins : Instr} {f : Nat → Nat → Nat → Nat → Int}
      (h : Performs s ins (integerOp x (.reg d) (readS a) (pure (i.signExtend 64)) f)) :=
    gives h (integerOp_run (readS_run a s) (M.pure_run _ s))
  simp only [List.forall_mem_cons]
  refine ⟨int (.ops rfl rfl), int (.ops rfl rfl), int (.ops rfl rfl), int (.ops rfl rfl), int (.ops rfl rfl), int (.ops rfl rfl),
    int (.ops rfl rfl), int (.ops rfl rfl), int (.ops rfl rfl), int (.ops rfl rfl), int (.ops rfl rfl), int (.ops rfl rfl),
    int (.ops rfl rfl), int (.ops rfl rfl), int (.ops rfl rfl), int (.ops rfl rfl), int (.ops rfl rfl), int (.ops rfl rfl),
    int (.ops rfl rfl), int (.ops rfl rfl), int (.ops rfl rfl), imm (.any rfl rfl), imm (.any rfl rfl), imm (.any rfl rfl),
    imm (.any rfl rfl), imm (.any rfl rfl), imm (.any rfl rfl), imm (.any rfl rfl), imm (.any rfl rfl), imm (.any rfl rfl),
    gives (.any rfl rfl) rfl, gives (.any rfl rfl) rfl, gives (.ops rfl rfl) rfl, gives (.ops rfl rfl) rfl, gives (.any rfl rfl) rfl,
    gives (.ops rfl rfl) rfl, gives (.ops rfl rfl) rfl, gives (.ops rfl rfl) rfl, gives (.ops rfl rfl) rfl, gives (.ops rfl rfl) rfl,
    gives (.ops rfl rfl) rfl, gives (.ops rfl rfl) rfl, gives (.ops rfl rfl) rfl, List.forall_mem_nil _⟩

theorem floatInstructionsChangeDestinationAndFlags : FloatInstructionsChangeDestinationAndFlags := by
  intro s g x fr m kd cc d a b c
  have writes {i : Instr} {body : M Next} {v : Word} {fl : Flags} (h : Performs s i body)
      (hb : body s = .ok (.fall, (s.modSeq (·.writeS d v)).raised fl)) (hm : s.meets i) :=
    onlyRegisters_of_raised (h.completes hb) hm (OnlyRegisters.of_writeS s d v _ _)
  simp only [List.forall_mem_cons]
  refine ⟨writes (.xs rfl rfl) rfl, writes (.xs rfl rfl) rfl, writes (.xs rfl rfl) rfl, writes (.xs rfl rfl) rfl, writes (.xs rfl rfl) rfl,
    writes (.xs rfl rfl) rfl, writes (.xs rfl rfl) rfl, writes (.xs rfl rfl) rfl,
    fun hm => onlyRegisters_of_raised ((Performs.xs rfl rfl).completes rfl) hm (OnlyRegisters.of_writeK s kd _ _ _),
    writes (.xs rfl rfl) rfl, writes (.xs rfl rfl) rfl, fun hm => onlyRegisters_of_raised
      (completes_raised_zero.mpr ((Performs.xs rfl rfl).completes rfl)) hm (OnlyRegisters.of_writeS s d _ _ _),
    List.forall_mem_nil _⟩

/-- Settles O16: each instruction writes its destination, an FP one its flags besides. -/
theorem scalarFrames : Obligations.ScalarFrames :=
  ⟨scalarInstructionsChangeTheirDestinationAlone, floatInstructionsChangeDestinationAndFlags⟩

end Sys2Proof.Proofs
end

section
/-! `fcvt`, `fsgn` and `fclass` (08 R121, R122). -/

namespace Sys2Proof.Machine

open Sys2Proof.Claims

theorem isIntCode_eq (x : XT) : isIntCode x = x.isInt := by cases x <;> rfl
theorem xwidth_eq (x : XT) : xwidth x = widthOf x := by cases x <;> rfl

theorem bitAt_eq (w i : Nat) : bitAt w i = w.testBit i := by
  rw [bitAt, Nat.testBit_eq_decide_div_mod_eq]; rfl

/-- A code whose encodings can be NaNs is wide enough for its canonical NaN. -/
theorem canonNan_lt {x : XT} {a : Nat} (ha : a < 2 ^ widthOf x) (h : (decodeF x a).isNan = true) : canonNan x < 2 ^ widthOf x := by
  cases x with
  | i16 | i8 | z16 | z8 =>
    have he : bitsAt a 23 8 = 0 := by
      rw [bitsAt, Nat.div_eq_of_lt (ha.trans_le (Nat.pow_le_pow_right (by decide) (by decide))), Nat.zero_mod]
    simp [decodeF, fmtOf, he, FVal.isNan] at h
  | i64 | i32 | z64 | z32 | f32 | f16 | bf16 | f64 | e4m3 | e5m2 => decide

theorem signResult_nan {x : XT} {m : SignMode} {a b : Nat} (h : (decodeF x a).isNan = true) :
    signResult x m a b = canonNan x := if_pos h

theorem signResult_eq {x : XT} {m : SignMode} {a b : Nat} (h : (decodeF x a).isNan = false) : signResult x m a b =
    a % 2 ^ (widthOf x - 1) + if (match m with
      | .cpy => b.testBit (widthOf x - 1)
      | .neg => !b.testBit (widthOf x - 1)
      | .xor => xor (a.testBit (widthOf x - 1)) (b.testBit (widthOf x - 1))) then 2 ^ (widthOf x - 1) else 0 := by
  unfold signResult
  dsimp only
  rw [if_neg (by simp [h])]
  simp only [bitAt_eq, b2n_mul] <;> cases m <;> rfl

theorem signResult_lt {x : XT} {m : SignMode} {a b : Nat} (h : (decodeF x a).isNan = false) :
    signResult x m a b < 2 ^ widthOf x := by
  have hw : 2 ^ widthOf x = 2 ^ (widthOf x - 1) + 2 ^ (widthOf x - 1) := by
    rw [← two_mul, ← pow_succ', Nat.sub_add_cancel (widthOf_pos x)]
  have hlow := mod_two_pow_lt a (widthOf x - 1)
  have hif (c : Bool) : (if c = true then 2 ^ (widthOf x - 1) else 0) ≤ 2 ^ (widthOf x - 1) := by split <;> omega
  rw [signResult_eq h, hw]
  exact Nat.add_lt_add_of_lt_of_le hlow (hif _)

/-- A finite value's exponent field is zero where its mantissa is that of a zero. -/
theorem decodeF_fin {x : XT} {a : Nat} {n : Bool} {k : Nat} {e : Int} (h : decodeF x a = .fin n k e)
    (he : bitsAt a (fmtOf x).mb (fmtOf x).eb ≠ 0) : k ≠ 0 := by
  unfold decodeF at h
  dsimp only at h
  rw [if_neg he] at h
  split at h
  · split at h
    · cases h
    · split at h <;> cases h
  · injection h with _ hk
    have := Nat.two_pow_pos (fmtOf x).mb
    omega

end Sys2Proof.Machine

namespace Sys2Proof.Proofs

open Sys2Proof Sys2Proof.Machine Sys2Proof.Claims

theorem scalarConversionsSignsAndClasses : ScalarConversionsSignsAndClasses := by
  intro s s1 s2 g x fr m d oa ob va vb hsa hsb w a b sa sb sign cv bit
  have ha : a < 2 ^ w := mod_two_pow_lt _ _
  have signs {v : Nat} (hv : signResult x m a b = v) (hlt : signResult x m a b < 2 ^ w) :
      Gives (.fsgn g x m d oa ob) s s2 d (BitVec.ofNat 64 v) := fun s3 hd => by
    refine completes_raised_zero.mp ((Performs.xs rfl rfl).completes ?_)
    rw [M.bind_ok (fpSource_run hsa), M.bind_ok (fpSource_run hsb)]
    exact fpResult_run (r := (signResult x m a b, 0)) (by rwa [Nat.mod_eq_of_lt hlt, hv])
  have classes {n : Nat} (hn : classBit x a = n) : bit n :=
    hn ▸ (Performs.xs rfl rfl).gives (by rw [M.bind_ok (fpSource_run hsa)])
  refine ⟨fun hn => signs (signResult_nan hn) ((signResult_nan hn).trans_lt (canonNan_lt ha hn)),
    fun hn => signs (signResult_eq hn) (signResult_lt hn), fun s3 hd => (Performs.xs rfl rfl).completes ?_,
    fun n h => classes ?_, fun n h => classes ?_, fun n k e h hk => classes ?_, fun n k e h hk he => classes ?_,
    fun n k e h he => classes ?_⟩
  · rw [← isIntCode_eq] at hd
    rw [M.bind_ok (fpSource_run hsa), M.bind_ok (roundMode_run s1), M.bind_ok hd]
    rfl
  · rw [classBit, h]
  · rw [classBit, h]
  · rw [classBit, h]; exact if_pos hk
  · have he' : (bitsAt a (fmtOf x).mb (fmtOf x).eb != 0) = false := bne_eq_false_iff_eq.mpr he
    rw [classBit, h]
    simp only [he', if_neg hk, Bool.false_eq_true, if_false]
  · have hk := decodeF_fin h he
    have he' : (bitsAt a (fmtOf x).mb (fmtOf x).eb != 0) = true := bne_iff_ne.mpr he
    rw [classBit, h]
    simp only [he', if_neg hk, if_true]

end Sys2Proof.Proofs
end

section
/-! Rounding to a grid of numbers (05 R75): a number between two neighbours of a grid is rounded to one of them, and no
other value meets the definition. -/

namespace Sys2Proof.Machine

/-! ### The four directions, spelt out -/

section
variable {grid : ℝ → Prop} {q v : ℝ}

theorem rounded_nearest : Rounded 0 grid q v ↔ grid v ∧ ∀ g, grid g → |q - v| ≤ |q - g|
    ∧ (g ≠ v → |q - g| = |q - v| → ∃ k : ℤ, v = 2 * k * |v - g|) := Iff.rfl

theorem rounded_toZero : Rounded 1 grid q v ↔ grid v ∧ |v| ≤ |q| ∧ ∀ g, grid g → |g| ≤ |q| → |q - v| ≤ |q - g| := Iff.rfl

theorem rounded_up : Rounded 2 grid q v ↔ grid v ∧ q ≤ v ∧ ∀ g, grid g → q ≤ g → v ≤ g := Iff.rfl

theorem rounded_down : Rounded 3 grid q v ↔ grid v ∧ v ≤ q ∧ ∀ g, grid g → g ≤ q → g ≤ v := Iff.rfl

theorem Rounded.mem {rm : Nat} (h : Rounded rm grid q v) : grid v := h.1

/-- What holds of the four directions holds of each direction below 4. -/
theorem forall_attribute {P : Nat → Prop} (h0 : P 0) (h1 : P 1) (h2 : P 2) (h3 : P 3) {rm : Nat} (h : rm < 4) : P rm := by
  interval_cases rm <;> assumption

/-- A value of the grid is its own rounding. -/
theorem Rounded.self {rm : Nat} (hrm : rm < 4) (h : grid q) : Rounded rm grid q q := by
  refine forall_attribute (P := fun rm => Rounded rm grid q q) ?_ ?_ ?_ ?_ hrm
  · refine rounded_nearest.mpr ⟨h, fun g _ => ⟨by simp, fun hne heq => absurd ?_ hne⟩⟩
    rw [sub_self, abs_zero, abs_eq_zero, sub_eq_zero] at heq
    exact heq.symm
  · exact rounded_toZero.mpr ⟨h, le_rfl, fun g _ _ => by simp⟩
  · exact rounded_up.mpr ⟨h, le_rfl, fun _ _ hg => hg⟩
  · exact rounded_down.mpr ⟨h, le_rfl, fun _ _ hg => hg⟩

/-- Two values at one distance from a number lie on its two sides. -/
theorem add_eq_of_abs_sub_eq {v v' : ℝ} (h : |q - v| = |q - v'|) (hne : v ≠ v') : v + v' = 2 * q := by
  rcases abs_eq_abs.mp h with h | h
  · exact absurd (by linarith) hne
  · linarith

/-- A rounding is determined by its definition. -/
theorem Rounded.unique {rm : Nat} (hrm : rm < 4) {v v' : ℝ} (h : Rounded rm grid q v) (h' : Rounded rm grid q v') : v = v' := by
  refine forall_attribute (P := fun rm => Rounded rm grid q v → Rounded rm grid q v' → v = v') ?_ ?_ ?_ ?_ hrm h h'
  · intro h h'
    obtain ⟨hv, hmin⟩ := rounded_nearest.mp h
    obtain ⟨hv', hmin'⟩ := rounded_nearest.mp h'
    by_contra hne
    have heq := le_antisymm (hmin v' hv').1 (hmin' v hv).1
    obtain ⟨k, hk⟩ := (hmin v' hv').2 (Ne.symm hne) heq.symm
    obtain ⟨k', hk'⟩ := (hmin' v hv).2 hne heq
    -- both are even multiples of their distance, so their difference is one too
    rw [abs_sub_comm v' v] at hk'
    have hpos : 0 < |v - v'| := abs_pos.mpr (sub_ne_zero.mpr hne)
    have hdiff : v - v' = ((2 * (k - k') : ℤ) : ℝ) * |v - v'| := by push_cast; linarith
    have hone : |((2 * (k - k') : ℤ) : ℝ)| = 1 := by
      have := congrArg abs hdiff
      rw [abs_mul, abs_abs] at this
      exact (mul_right_cancel₀ hpos.ne' ((one_mul _).trans this)).symm
    rw [← Int.cast_abs] at hone
    have hint : |2 * (k - k')| = 1 := by exact_mod_cast hone
    rcases abs_eq (by decide : (0 : ℤ) ≤ 1) |>.mp hint with h | h <;> omega
  · intro h h'
    obtain ⟨hv, hle, hmin⟩ := rounded_toZero.mp h
    obtain ⟨hv', hle', hmin'⟩ := rounded_toZero.mp h'
    by_contra hne
    have hsum := add_eq_of_abs_sub_eq (le_antisymm (hmin v' hv' hle') (hmin' v hv hle)) hne
    rcases abs_cases q with ⟨hq, _⟩ | ⟨hq, _⟩ <;> rw [hq] at hle hle' <;>
      exact hne (by linarith [le_abs_self v, le_abs_self v', neg_abs_le v, neg_abs_le v'])
  · intro h h'
    obtain ⟨hv, hle, hmin⟩ := rounded_up.mp h
    obtain ⟨hv', hle', hmin'⟩ := rounded_up.mp h'
    exact le_antisymm (hmin v' hv' hle') (hmin' v hv hle)
  · intro h h'
    obtain ⟨hv, hle, hmin⟩ := rounded_down.mp h
    obtain ⟨hv', hle', hmin'⟩ := rounded_down.mp h'
    exact le_antisymm (hmin' v hv hle) (hmin v' hv' hle')

/-- The opposite direction. -/
def mirror : Nat → Nat
  | 2 => 3
  | 3 => 2
  | rm => rm

/-- On a symmetric grid the rounding of the opposite number is the opposite of the rounding under the mirrored direction. -/
theorem Rounded.neg {rm : Nat} (hrm : rm < 4) (hs : ∀ g, grid g → grid (-g)) (h : Rounded (mirror rm) grid q v) :
    Rounded rm grid (-q) (-v) := by
  have hflip (a b : ℝ) : |-a - b| = |a - -b| := by rw [← abs_neg]; congr 1; ring
  refine forall_attribute (P := fun rm => Rounded (mirror rm) grid q v → Rounded rm grid (-q) (-v)) ?_ ?_ ?_ ?_ hrm h
  · intro h
    obtain ⟨hv, hmin⟩ := rounded_nearest.mp h
    refine rounded_nearest.mpr ⟨hs v hv, fun g hg => ?_⟩
    obtain ⟨hle, htie⟩ := hmin (-g) (hs g hg)
    rw [hflip q (-v), hflip q g, hflip v g, neg_neg]
    refine ⟨hle, fun hne heq => ?_⟩
    obtain ⟨k, hk⟩ := htie (fun e => hne (by rw [← e, neg_neg])) heq
    exact ⟨-k, by push_cast; linarith⟩
  · intro h
    obtain ⟨hv, hle, hmin⟩ := rounded_toZero.mp h
    refine rounded_toZero.mpr ⟨hs v hv, by rwa [abs_neg, abs_neg], fun g hg hgq => ?_⟩
    rw [hflip q (-v), hflip q g, neg_neg]
    exact hmin (-g) (hs g hg) (by rwa [abs_neg, ← abs_neg q])
  · intro h
    obtain ⟨hv, hle, hmin⟩ := rounded_down.mp h
    exact rounded_up.mpr ⟨hs v hv, neg_le_neg hle, fun g hg hgq => by linarith [hmin (-g) (hs g hg) (by linarith)]⟩
  · intro h
    obtain ⟨hv, hle, hmin⟩ := rounded_up.mp h
    exact rounded_down.mpr ⟨hs v hv, neg_le_neg hle, fun g hg hgq => by linarith [hmin (-g) (hs g hg) (by linarith)]⟩

end

/-! ### A number between two neighbours -/

/-- `r` and `r + 1` units are neighbours of a symmetric grid. -/
structure Neighbours (grid : ℝ → Prop) (r : Nat) (unit : ℝ) : Prop where
  pos : 0 < unit
  low : grid (r * unit)
  high : grid ((r + 1 : Nat) * unit)
  symm : ∀ g, grid g → grid (-g)
  gap : ∀ g, grid g → |g| ≤ r * unit ∨ (r + 1 : Nat) * unit ≤ |g|

/-- Whether a rounding direction takes a magnitude of `r` units and a part `t` of one away from zero. -/
def roundsUp (rm : Nat) (neg : Bool) (r : Nat) (t : ℝ) : Prop :=
  match rm with
  | 0 => 1 / 2 < t ∨ (t = 1 / 2 ∧ r % 2 = 1)
  | 1 => False
  | 2 => t ≠ 0 ∧ neg = false
  | _ => t ≠ 0 ∧ neg = true

namespace Neighbours

variable {grid : ℝ → Prop} {r : Nat} {unit t : ℝ} (h : Neighbours grid r unit) (h0 : 0 ≤ t) (h1 : t < 1)
include h h0 h1

theorem bounds : 0 ≤ (r : ℝ) * unit ∧ (r : ℝ) * unit ≤ (r + t) * unit ∧ (r + t) * unit < (r + 1 : Nat) * unit := by
  have hu := h.pos
  have hr : (0 : ℝ) ≤ r := Nat.cast_nonneg r
  push_cast
  exact ⟨by positivity, by nlinarith, by nlinarith⟩

/-- The magnitudes of the grid up to the number are those up to the lower neighbour. -/
theorem abs_le_low {g : ℝ} (hg : grid g) (hle : |g| ≤ (r + t) * unit) : |g| ≤ r * unit := by
  obtain ⟨_, _, hlt⟩ := h.bounds h0 h1
  rcases h.gap g hg with hg | hg
  · exact hg
  · linarith

theorem toZero : Rounded 1 grid ((r + t) * unit) (r * unit) := by
  obtain ⟨hlo, hle, _⟩ := h.bounds h0 h1
  refine rounded_toZero.mpr ⟨h.low, by rwa [abs_of_nonneg hlo, abs_of_nonneg (hlo.trans hle)], fun g hg hgq => ?_⟩
  rw [abs_of_nonneg (hlo.trans hle)] at hgq
  have := h.abs_le_low h0 h1 hg hgq
  rw [abs_of_nonneg (by linarith)]
  linarith [le_abs_self ((r + t) * unit - g), le_abs_self g]

theorem down : Rounded 3 grid ((r + t) * unit) (r * unit) := by
  obtain ⟨hlo, hle, hlt⟩ := h.bounds h0 h1
  refine rounded_down.mpr ⟨h.low, hle, fun g hg hgq => ?_⟩
  rcases le_total g 0 with hneg | hpos
  · exact hneg.trans hlo
  · exact (le_abs_self g).trans (h.abs_le_low h0 h1 hg (by rwa [abs_of_nonneg hpos]))

theorem up (ht : t ≠ 0) : Rounded 2 grid ((r + t) * unit) ((r + 1 : Nat) * unit) := by
  obtain ⟨hlo, hle, hlt⟩ := h.bounds h0 h1
  refine rounded_up.mpr ⟨h.high, hlt.le, fun g hg hgq => ?_⟩
  have hpos : 0 ≤ g := (hlo.trans hle).trans hgq
  rcases h.gap g hg with hle' | hge
  · have hu := h.pos
    have : (r : ℝ) * unit < (r + t) * unit := by nlinarith [lt_of_le_of_ne h0 ht.symm]
    linarith [le_abs_self g]
  · rwa [abs_of_nonneg hpos] at hge

/-- No value of the grid is nearer to the number than both neighbours. -/
theorem dist_ge {g : ℝ} (hg : grid g) : t * unit ≤ |(r + t) * unit - g| ∨ (1 - t) * unit ≤ |(r + t) * unit - g| := by
  rcases h.gap g hg with hle | hge
  · left
    linarith [le_abs_self ((r + t) * unit - g), le_abs_self g]
  · right
    push_cast at hge
    rcases abs_cases g with ⟨he, _⟩ | ⟨he, _⟩ <;> rw [he] at hge
    · linarith [neg_abs_le ((r + t) * unit - g)]
    · obtain ⟨hlo, hle, _⟩ := h.bounds h0 h1
      linarith [le_abs_self ((r + t) * unit - g)]

/-- A tie is with the neighbour on the other side, one unit away. -/
theorem tie {g : ℝ} (hg : grid g) (hd : |(r + t) * unit - g| = min t (1 - t) * unit) :
    (g = r * unit ∧ t ≤ 1 / 2) ∨ (g = (r + 1 : Nat) * unit ∧ 1 / 2 ≤ t) := by
  have hu := h.pos
  have hr : (0 : ℝ) ≤ r := Nat.cast_nonneg r
  obtain ⟨hlo, -, -⟩ := h.bounds h0 h1
  have hge : 0 ≤ g := by
    have : min t (1 - t) * unit ≤ (r + t) * unit := by nlinarith [min_le_left t (1 - t)]
    linarith [le_abs_self ((r + t) * unit - g)]
  have hgap := h.gap g hg
  rw [abs_of_nonneg hge] at hgap
  push_cast at hgap ⊢
  rcases le_total t (1 - t) with ht | ht
  · rw [min_eq_left ht] at hd
    rcases abs_eq (by positivity) |>.mp hd with hd | hd
    · exact .inl ⟨by linarith, by linarith⟩
    · rcases hgap with hg | hg
      · have : t = 0 := by nlinarith
        subst this
        exact .inl ⟨by linarith, by norm_num⟩
      · have : t = 1 / 2 := by nlinarith
        subst this
        exact .inr ⟨by linarith, le_rfl⟩
  · rw [min_eq_right ht] at hd
    rcases abs_eq (mul_nonneg (by linarith) hu.le) |>.mp hd with hd | hd
    · rcases hgap with hg | hg
      · have : t = 1 / 2 := by nlinarith
        subst this
        exact .inl ⟨by linarith, le_rfl⟩
      · nlinarith
    · exact .inr ⟨by linarith, by linarith⟩

theorem nearest_low (ht : t ≤ 1 / 2) (heven : t = 1 / 2 → r % 2 = 0) : Rounded 0 grid ((r + t) * unit) (r * unit) := by
  have hu := h.pos
  have hdist : |(r + t) * unit - r * unit| = t * unit := by
    rw [abs_of_nonneg] <;> nlinarith
  refine rounded_nearest.mpr ⟨h.low, fun g hg => ⟨?_, fun hne heq => ?_⟩⟩
  · rw [hdist]
    rcases h.dist_ge h0 h1 hg with hd | hd <;> nlinarith
  · rcases h.tie h0 h1 hg (by rw [heq, hdist, min_eq_left (by linarith)]) with ⟨he, _⟩ | ⟨he, ht'⟩
    · exact absurd he hne
    · obtain ⟨j, hj⟩ := Nat.dvd_of_mod_eq_zero (heven (le_antisymm ht ht'))
      refine ⟨j, ?_⟩
      rw [he, hj, abs_sub_comm, abs_of_nonneg] <;> push_cast <;> nlinarith

theorem nearest_high (ht : 1 / 2 ≤ t) (hodd : t = 1 / 2 → r % 2 = 1) :
    Rounded 0 grid ((r + t) * unit) ((r + 1 : Nat) * unit) := by
  have hu := h.pos
  have hdist : |(r + t) * unit - (r + 1 : Nat) * unit| = (1 - t) * unit := by
    rw [abs_sub_comm, abs_of_nonneg] <;> push_cast <;> nlinarith
  refine rounded_nearest.mpr ⟨h.high, fun g hg => ⟨?_, fun hne heq => ?_⟩⟩
  · rw [hdist]
    rcases h.dist_ge h0 h1 hg with hd | hd <;> nlinarith
  · rcases h.tie h0 h1 hg (by rw [heq, hdist, min_eq_right (by linarith)]) with ⟨he, ht'⟩ | ⟨he, _⟩
    · have hodd := hodd (le_antisymm ht' ht)
      obtain ⟨j, hj⟩ := Nat.dvd_of_mod_eq_zero (show (r + 1) % 2 = 0 by omega)
      refine ⟨j, ?_⟩
      have hr : (r : ℝ) + 1 = 2 * j := by exact_mod_cast hj
      rw [he, abs_of_nonneg] <;> push_cast <;> nlinarith
    · exact absurd he hne

omit h0 h1 in
/-- A number without a part of a unit is its own rounding. -/
theorem exactly {rm : Nat} (hrm : rm < 4) : Rounded rm grid ((r + (0 : ℝ)) * unit) (r * unit) := by
  rw [add_zero]
  exact Rounded.self hrm h.low

open Classical in
/-- The rounding of a non-negative number that lies `t` units above `r` of them. -/
theorem rounded_of_nonneg {rm : Nat} (hrm : rm < 4) : Rounded rm grid ((r + t) * unit)
    ((if roundsUp rm false r t then r + 1 else r : Nat) * unit) := by
  refine forall_attribute (P := fun rm => Rounded rm grid ((r + t) * unit)
    ((if roundsUp rm false r t then r + 1 else r : Nat) * unit)) ?_ ?_ ?_ ?_ hrm
  · split
    · next hup =>
      rcases hup with hup | ⟨hup, hodd⟩
      · exact h.nearest_high h0 h1 hup.le fun e => absurd e hup.ne'
      · exact h.nearest_high h0 h1 hup.ge fun _ => hodd
    · next hup =>
      have hup : ¬ (1 / 2 < t) ∧ ¬ (t = 1 / 2 ∧ r % 2 = 1) := not_or.mp hup
      exact h.nearest_low h0 h1 (not_lt.mp hup.1) fun e => by
        have := not_and.mp hup.2 e
        omega
  · rw [if_neg (show ¬ roundsUp 1 false r t from id)]
    exact h.toZero h0 h1
  · split
    · next hup => exact h.up h0 h1 hup.1
    · next hup =>
      have ht : t = 0 := by_contra fun ht => hup ⟨ht, rfl⟩
      subst ht
      exact h.exactly (by decide)
  · rw [if_neg (show ¬ roundsUp 3 false r t from fun hup => nomatch hup.2)]
    exact h.down h0 h1

end Neighbours

/-- A sign as a factor. -/
def signOf (neg : Bool) : ℝ := if neg then -1 else 1

theorem roundsUp_mirror {rm : Nat} (hrm : rm < 4) (r : Nat) (t : ℝ) :
    roundsUp (mirror rm) false r t ↔ roundsUp rm true r t := by
  refine forall_attribute (P := fun rm => roundsUp (mirror rm) false r t ↔ roundsUp rm true r t) ?_ ?_ ?_ ?_ hrm
  · exact Iff.rfl
  · exact Iff.rfl
  · exact ⟨fun h => (nomatch h.2), fun h => (nomatch h.2)⟩
  · exact ⟨fun h => ⟨h.1, rfl⟩, fun h => ⟨h.1, rfl⟩⟩

theorem mirror_lt {rm : Nat} (h : rm < 4) : mirror rm < 4 :=
  forall_attribute (P := fun rm => mirror rm < 4) (by decide) (by decide) (by decide) (by decide) h

open Classical in
/-- The rounding of a number of either sign. -/
theorem Neighbours.rounded {grid : ℝ → Prop} {r : Nat} {unit t : ℝ} (h : Neighbours grid r unit) (h0 : 0 ≤ t) (h1 : t < 1)
    {rm : Nat} (hrm : rm < 4) (neg : Bool) : Rounded rm grid (signOf neg * ((r + t) * unit))
      (signOf neg * ((if roundsUp rm neg r t then r + 1 else r : Nat) * unit)) := by
  cases neg with
  | false =>
    simp only [signOf, Bool.false_eq_true, if_false, one_mul]
    exact h.rounded_of_nonneg h0 h1 hrm
  | true =>
    have := Rounded.neg hrm h.symm (h.rounded_of_nonneg h0 h1 (mirror_lt hrm))
    simp only [roundsUp_mirror hrm] at this
    simpa only [signOf, if_true, neg_one_mul] using this

end Sys2Proof.Machine
end

section
/-! Rounding in units (05 R75): the neighbours of a number among the values of a format, and the integer that `roundUnits`
takes. -/

namespace Sys2Proof.Machine

/-! ### Neighbours in a format -/

theorem natCast_abs_lt {r n : Nat} (h : r < n) : |(r : ℤ)| < (n : ℤ) := by
  rw [abs_of_nonneg (Int.natCast_nonneg r)]; exact_mod_cast h

/-- Multiples of a unit whose magnitude lies in one binade, or that are as fine as the format has them, are neighbours. -/
theorem Fmt.neighbours (f : Fmt) {lo : Option Int} {Q : Int} {r : Nat} (hr : r < 2 ^ (f.mb + 1))
    (hlo : ∀ m, lo = some m → m ≤ Q) (h : lo = some Q ∨ 2 ^ f.mb ≤ r) : Neighbours (f.has lo) r ((2 : ℝ) ^ Q) where
  pos := zpow_pos two_pos Q
  low := ⟨r, Q, by exact_mod_cast natCast_abs_lt hr, hlo, by push_cast; rfl⟩
  high := by
    rcases Nat.lt_or_ge (r + 1) (2 ^ (f.mb + 1)) with hr' | hr'
    · exact ⟨(r + 1 : Nat), Q, by exact_mod_cast natCast_abs_lt hr', hlo, by push_cast; rfl⟩
    · have hlt : 2 ^ f.mb < 2 ^ (f.mb + 1) := Nat.pow_lt_pow_right (by decide) (Nat.lt_succ_self _)
      refine ⟨(2 ^ f.mb : Nat), Q + 1, by exact_mod_cast natCast_abs_lt hlt, fun m hm => (hlo m hm).trans (by omega), ?_⟩
      rw [show r + 1 = 2 ^ (f.mb + 1) from le_antisymm hr hr', zpow_add_one₀ two_ne_zero]
      push_cast
      ring
  symm := by
    rintro g ⟨k, e, hk, he, rfl⟩
    exact ⟨-k, e, by rwa [abs_neg], he, by push_cast; ring⟩
  gap := by
    rintro g ⟨k, e, hk, he, rfl⟩
    have hpos (e : ℤ) : (0 : ℝ) < 2 ^ e := zpow_pos two_pos e
    have hmul : |(k : ℝ) * 2 ^ e| = k.natAbs * 2 ^ e := by
      rw [abs_mul, abs_of_pos (hpos e), Nat.cast_natAbs, Int.cast_abs]
    rw [hmul]
    rcases le_or_gt Q e with hQ | hQ
    · -- the value is a multiple of the unit
      have hsplit : (k.natAbs : ℝ) * 2 ^ e = (k.natAbs * 2 ^ (e - Q).toNat : Nat) * 2 ^ Q := by
        have : (2 : ℝ) ^ e = 2 ^ (e - Q).toNat * 2 ^ Q := by
          rw [← zpow_natCast, Int.toNat_of_nonneg (by omega), ← zpow_add₀ two_ne_zero, sub_add_cancel]
        rw [this]; push_cast; ring
      rw [hsplit]
      rcases le_or_gt (k.natAbs * 2 ^ (e - Q).toNat) r with hle | hgt
      · exact .inl (mul_le_mul_of_nonneg_right (by exact_mod_cast hle) (hpos Q).le)
      · exact .inr (mul_le_mul_of_nonneg_right (by exact_mod_cast hgt) (hpos Q).le)
    · -- it is finer, so it lies in a lower binade
      left
      have hr' : 2 ^ f.mb ≤ r := h.resolve_left fun hQ' => absurd (he Q hQ') (by omega)
      have hk' : k.natAbs ≤ 2 ^ (f.mb + 1) := by
        have : (k.natAbs : ℤ) < 2 ^ (f.mb + 1) := by rwa [Int.natCast_natAbs]
        exact_mod_cast this.le
      calc (k.natAbs : ℝ) * 2 ^ e ≤ 2 ^ (f.mb + 1) * 2 ^ e :=
            mul_le_mul_of_nonneg_right (by exact_mod_cast hk') (hpos e).le
        _ = 2 ^ f.mb * 2 ^ (e + 1) := by rw [zpow_add_one₀ two_ne_zero]; ring
        _ ≤ r * 2 ^ Q := by
            refine mul_le_mul (by exact_mod_cast hr') (zpow_le_zpow_right₀ one_le_two (by omega)) (hpos _).le (Nat.cast_nonneg r)

/-- Integers are a grid with neighbours one apart. -/
theorem neighbours_int (r : Nat) : Neighbours (fun g => ∃ j : ℤ, g = j) r 1 where
  pos := one_pos
  low := ⟨r, by simp⟩
  high := ⟨(r + 1 : Nat), by push_cast; ring⟩
  symm := by rintro g ⟨j, rfl⟩; exact ⟨-j, by push_cast; rfl⟩
  gap := by
    rintro g ⟨j, rfl⟩
    rw [mul_one, mul_one, ← Int.cast_abs, Int.abs_eq_natAbs, Int.cast_natCast]
    rcases le_or_gt j.natAbs r with h | h
    · exact .inl (by exact_mod_cast h)
    · exact .inr (by exact_mod_cast h)

/-! ### `roundUnits` -/

theorem not_roundsUp_zero (rm : Nat) (neg : Bool) (r : Nat) : ¬ roundsUp rm neg r 0 := by
  unfold roundsUp
  split
  · norm_num
  · exact id
  · simp
  · simp

/-- The part of a unit that a remainder and a sticky part below it make. -/
theorem part_of_unit {d rest : Nat} {s : ℝ} (hd : 1 ≤ d) (hrest : rest < 2 ^ d) (h0 : 0 ≤ s) (h1 : s < 1) :
    let t : ℝ := (rest + s) / 2 ^ d
    0 ≤ t ∧ t < 1 ∧ (t ≠ 0 ↔ rest ≠ 0 ∨ s ≠ 0)
      ∧ (1 / 2 < t ↔ 2 ^ (d - 1) < rest ∨ (rest = 2 ^ (d - 1) ∧ s ≠ 0)) ∧ (t = 1 / 2 ↔ rest = 2 ^ (d - 1) ∧ s = 0) := by
  intro t
  have hp : (0 : ℝ) < 2 ^ d := by positivity
  have hhalf : (2 : ℝ) ^ d = 2 * 2 ^ (d - 1) := by rw [← pow_succ', Nat.sub_add_cancel hd]
  have hr0 : (0 : ℝ) ≤ rest := Nat.cast_nonneg rest
  have hr1 : (rest : ℝ) + 1 ≤ 2 ^ d := by exact_mod_cast hrest
  have hcases : rest < 2 ^ (d - 1) ∨ rest = 2 ^ (d - 1) ∨ 2 ^ (d - 1) < rest := lt_trichotomy _ _
  have hlt : rest < 2 ^ (d - 1) → (rest : ℝ) + 1 ≤ 2 ^ (d - 1) := fun h => by exact_mod_cast h
  have hgt : 2 ^ (d - 1) < rest → (2 : ℝ) ^ (d - 1) < rest := fun h => by exact_mod_cast h
  have heq : rest = 2 ^ (d - 1) → (rest : ℝ) = 2 ^ (d - 1) := fun h => by exact_mod_cast h
  refine ⟨by positivity, (div_lt_one hp).mpr (by linarith), ?_, ?_, ?_⟩
  · rw [div_ne_zero_iff, ← Nat.cast_ne_zero (R := ℝ)]
    constructor
    · rintro ⟨h, -⟩
      by_contra hc
      push Not at hc
      exact h (by rw [hc.1, hc.2, add_zero])
    · rintro (h | h)
      · exact ⟨by have := lt_of_le_of_ne hr0 h.symm; positivity, hp.ne'⟩
      · exact ⟨by have := lt_of_le_of_ne h0 h.symm; positivity, hp.ne'⟩
  · rw [lt_div_iff₀ hp]
    constructor
    · intro h
      rcases hcases with hc | hc | hc
      · linarith [hlt hc]
      · exact .inr ⟨hc, fun hs => by linarith [heq hc]⟩
      · exact .inl hc
    · rintro (h | ⟨h, hs⟩)
      · linarith [hgt h]
      · linarith [heq h, lt_of_le_of_ne h0 hs.symm]
  · rw [div_eq_iff hp.ne']
    constructor
    · intro h
      rcases hcases with hc | hc | hc
      · linarith [hlt hc]
      · exact ⟨hc, by linarith [heq hc]⟩
      · linarith [hgt hc]
    · rintro ⟨h, hs⟩
      linarith [heq h]

open Classical in
/-- `m + s` units of `2^e`, with a sticky part `s` below one, in units of `2^Q`: a whole number of them and a part, which
`roundUnits` rounds up or drops as the direction says, inexact where there is a part. -/
theorem roundUnits_spec (rm : Nat) (neg : Bool) {m : Nat} {e Q : Int} {sticky : Bool} {s : ℝ} (h0 : 0 ≤ s) (h1 : s < 1)
    (hs : sticky = true ↔ s ≠ 0) (hQ : sticky = true → e < Q) :
    ∃ (r : Nat) (t : ℝ), 0 ≤ t ∧ t < 1 ∧ ((m : ℝ) + s) * 2 ^ e = (r + t) * 2 ^ Q
      ∧ roundUnits rm neg m e Q sticky = (if roundsUp rm neg r t then r + 1 else r, decide (t ≠ 0)) := by
  rcases le_or_gt Q e with hle | hlt
  · have hsticky : sticky = false := by
      rw [Bool.eq_false_iff]
      exact fun h => absurd (hQ h) (by omega)
    have hs0 : s = 0 := by_contra fun h => by simp [hs.mpr h] at hsticky
    refine ⟨m * 2 ^ (e - Q).toNat, 0, le_rfl, one_pos, ?_, ?_⟩
    · have : (2 : ℝ) ^ e = 2 ^ (e - Q).toNat * 2 ^ Q := by
        rw [← zpow_natCast, Int.toNat_of_nonneg (by omega), ← zpow_add₀ two_ne_zero, sub_add_cancel]
      rw [hs0, this]; push_cast; ring
    · rw [roundUnits, if_pos hle, hsticky, if_neg (not_roundsUp_zero _ _ _)]
      simp
  · have hd : 1 ≤ (Q - e).toNat := by omega
    have hpow : (2 : ℝ) ^ Q = 2 ^ (Q - e).toNat * 2 ^ e := by
      rw [← zpow_natCast, Int.toNat_of_nonneg (by omega), ← zpow_add₀ two_ne_zero, sub_add_cancel]
    generalize hdef : (Q - e).toNat = d at hd hpow
    have hrest : m % 2 ^ d < 2 ^ d := mod_two_pow_lt m d
    obtain ⟨ht0, ht1, hne, hhalf, htie⟩ := part_of_unit hd hrest h0 h1
    refine ⟨m / 2 ^ d, _, ht0, ht1, ?_, ?_⟩
    · have hm : (m : ℝ) = 2 ^ d * (m / 2 ^ d : Nat) + (m % 2 ^ d : Nat) := by exact_mod_cast (Nat.div_add_mod m (2 ^ d)).symm
      have hp : (2 : ℝ) ^ d ≠ 0 := by positivity
      rw [hpow]
      field_simp
      linarith
    · have hinexact : (m % 2 ^ d != 0 || sticky) = decide (((m % 2 ^ d : Nat) + s) / 2 ^ d ≠ 0) := by
        rw [Bool.eq_iff_iff, decide_eq_true_eq, hne, Bool.or_eq_true, bne_iff_ne, hs]
      rw [roundUnits, if_neg (by omega)]
      simp only [hdef, hinexact]
      generalize ((m % 2 ^ d : Nat) + s) / 2 ^ d = t at *
      generalize m / 2 ^ d = r
      refine Prod.ext ?_ rfl
      match rm with
      | 0 =>
        refine if_congr ?_ rfl rfl
        simp only [roundsUp, hhalf, htie, Bool.or_eq_true, decide_eq_true_eq, Bool.and_eq_true, beq_iff_eq, hs]
        tauto
      | 1 => simp [roundsUp]
      | 2 => exact if_congr (by simp [roundsUp]) rfl rfl
      | _ + 3 => exact if_congr (by simp [roundsUp]) rfl rfl

end Sys2Proof.Machine
end

section
/-! The magnitudes of the encodings of a float format (05 R64): each finite encoding is a sign and a number that counts the
values of the format upwards from zero. -/

namespace Sys2Proof.Machine

/-! ### The magnitude of an encoding without its sign -/

/-- The biased exponent that an encoding's unit has; the subnormal numbers share that of the first binade. -/
def Fmt.binade (f : Fmt) (n : Nat) : Nat := max 1 (n / 2 ^ f.mb)

/-- The magnitude of the `n`th value of a format from zero upwards. -/
noncomputable def Fmt.mag (f : Fmt) (n : Nat) : ℝ :=
  (n + 2 ^ f.mb - f.binade n * 2 ^ f.mb : Nat) * (2 : ℝ) ^ ((f.binade n : ℤ) - f.bias - f.mb)

/-- The magnitude of `r` units in a binade; the number past the last unit opens the next one. -/
theorem Fmt.mag_eq (f : Fmt) {E r : Nat} (hE : 1 ≤ E) (hr : r ≤ 2 ^ (f.mb + 1)) (h : E = 1 ∨ 2 ^ f.mb ≤ r) :
    f.mag (E * 2 ^ f.mb + r - 2 ^ f.mb) = r * (2 : ℝ) ^ ((E : ℤ) - f.bias - f.mb) := by
  have hP : 0 < 2 ^ f.mb := Nat.two_pow_pos _
  rw [pow_succ] at hr
  unfold mag binade
  generalize 2 ^ f.mb = P at *
  obtain ⟨k, rfl⟩ : ∃ k, E = k + 1 := ⟨E - 1, by omega⟩
  rw [show (k + 1) * P + r - P = r + k * P by rw [add_mul, one_mul]; omega, Nat.add_mul_div_right _ _ hP]
  have hunit : (k + 1) * P = k * P + P := by ring
  rcases Nat.lt_or_ge r P with hlt | hge
  · have hk : k = 0 := by omega
    subst hk
    rw [Nat.div_eq_of_lt hlt]
    simp
  · rcases eq_or_lt_of_le hr with heq | hlt
    · have hdiv : r / P = 2 := by rw [heq, Nat.mul_div_cancel_left _ hP]
      rw [hdiv, max_eq_right (by omega), show r + k * P + P - (2 + k) * P = P by rw [heq]; ring_nf; omega, heq,
        show ((2 + k : Nat) : ℤ) - f.bias - f.mb = ((k + 1 : Nat) : ℤ) - f.bias - f.mb + 1 by push_cast; ring,
        zpow_add_one₀ two_ne_zero]
      push_cast
      ring
    · have hdiv : r / P = 1 := (Nat.div_eq_iff hP).mpr ⟨by omega, by omega⟩
      rw [hdiv, max_eq_right (by omega), show r + k * P + P - (1 + k) * P = r by rw [add_comm 1 k, hunit]; omega, add_comm 1 k]

/-- Each number is `r` units in its binade. -/
theorem Fmt.exists_binade (f : Fmt) (n : Nat) : ∃ E r, 1 ≤ E ∧ r < 2 ^ (f.mb + 1) ∧ (E = 1 ∨ 2 ^ f.mb ≤ r)
    ∧ n = E * 2 ^ f.mb + r - 2 ^ f.mb := by
  have hP : 0 < 2 ^ f.mb := Nat.two_pow_pos _
  rw [pow_succ]
  generalize 2 ^ f.mb = P at *
  have hdiv := Nat.div_add_mod' n P
  have hmod := Nat.mod_lt n hP
  rcases Nat.eq_zero_or_pos (n / P) with h0 | hpos
  · exact ⟨1, n % P, le_rfl, by omega, .inl rfl, by rw [h0] at hdiv; omega⟩
  · exact ⟨n / P, n % P + P, hpos, by omega, .inr (by omega), by omega⟩

theorem Fmt.mag_strictMono (f : Fmt) : StrictMono f.mag := by
  refine strictMono_nat_of_lt_succ fun n => ?_
  obtain ⟨E, r, hE, hr, h, rfl⟩ := f.exists_binade n
  have hn : E * 2 ^ f.mb + r - 2 ^ f.mb + 1 = E * 2 ^ f.mb + (r + 1) - 2 ^ f.mb := by
    have := Nat.le_mul_of_pos_left (2 ^ f.mb) hE
    omega
  rw [hn, f.mag_eq hE hr.le h, f.mag_eq hE hr (h.imp_right fun h => h.trans (Nat.le_succ r))]
  exact mul_lt_mul_of_pos_right (by push_cast; linarith) (zpow_pos two_pos _)

theorem Fmt.mag_zero (f : Fmt) : f.mag 0 = 0 := by
  have := f.mag_eq (E := 1) (r := 0) le_rfl (Nat.zero_le _) (.inl rfl)
  simpa using this

theorem Fmt.mag_nonneg (f : Fmt) (n : Nat) : 0 ≤ f.mag n := f.mag_zero ▸ f.mag_strictMono.monotone (Nat.zero_le n)

theorem Fmt.mag_eq_zero_iff (f : Fmt) {n : Nat} : f.mag n = 0 ↔ n = 0 := by
  rw [← f.mag_zero, f.mag_strictMono.injective.eq_iff]

/-- A magnitude is a value of the format. -/
theorem Fmt.has_mag (f : Fmt) (n : Nat) : f.has (some (f.emin - f.mb)) (f.mag n) := by
  obtain ⟨E, r, hE, hr, h, rfl⟩ := f.exists_binade n
  rw [f.mag_eq hE hr.le h]
  refine ⟨r, (E : ℤ) - f.bias - f.mb, by exact_mod_cast natCast_abs_lt hr, ?_, by push_cast; rfl⟩
  rintro _ ⟨⟩
  unfold emin
  omega

theorem Fmt.has_neg (f : Fmt) {lo : Option Int} {v : ℝ} (h : f.has lo v) : f.has lo (-v) := by
  obtain ⟨k, e, hk, he, rfl⟩ := h
  exact ⟨-k, e, by rwa [abs_neg], he, by push_cast; ring⟩

/-! ### Decoding -/

theorem widthOf_eq {x : XT} (h : x.isInt = false) : widthOf x = (fmtOf x).eb + (fmtOf x).mb + 1 := by
  cases x with
  | f64 | f32 | f16 | bf16 | e4m3 | e5m2 => rfl
  | _ => nomatch h

theorem topBits_eq (x : XT) : topBits x = if x = .e4m3 then 0x7E else (2 ^ (fmtOf x).eb - 1) * 2 ^ (fmtOf x).mb - 1 := by
  cases x <;> rfl

theorem topInf_eq {x : XT} (h : x ≠ .e4m3) : topInf x = (2 ^ (fmtOf x).eb - 1) * 2 ^ (fmtOf x).mb := by
  cases x with
  | e4m3 => exact absurd rfl h
  | _ => rfl

theorem topBits_lt (x : XT) : topBits x < 2 ^ ((fmtOf x).eb + (fmtOf x).mb) := by cases x <;> decide

/-- Beyond the largest finite encoding the exponent field is all ones; in E4M3 the fraction field is too. -/
theorem topBits_lt_iff (x : XT) {c : Nat} (hc : c < 2 ^ ((fmtOf x).eb + (fmtOf x).mb)) :
    topBits x < c ↔ c / 2 ^ (fmtOf x).mb = 2 ^ (fmtOf x).eb - 1 ∧ (x ≠ .e4m3 ∨ c % 2 ^ (fmtOf x).mb = 7) := by
  by_cases hx : x = .e4m3
  · subst hx
    simp only [topBits, fmtOf, ne_eq, not_true, false_or] at *
    omega
  · have hE : 1 < 2 ^ (fmtOf x).eb := by cases x <;> decide
    have hP := Nat.two_pow_pos (fmtOf x).mb
    rw [pow_add] at hc
    rw [topBits_eq, if_neg hx]
    generalize 2 ^ (fmtOf x).mb = P at *
    generalize 2 ^ (fmtOf x).eb = T at *
    have hpos : 0 < (T - 1) * P := Nat.mul_pos (by omega) hP
    have hdiv : c / P < T := Nat.div_lt_of_lt_mul (by rwa [mul_comm])
    calc (T - 1) * P - 1 < c ↔ (T - 1) * P ≤ c := by omega
      _ ↔ T - 1 ≤ c / P := (Nat.le_div_iff_mul_le hP).symm
      _ ↔ c / P = T - 1 ∧ (x ≠ .e4m3 ∨ c % P = 7) := by simp only [ne_eq, hx, not_false_iff, true_or, and_true]; omega

theorem bitsAt_exponent (x : XT) (n : Nat) : bitsAt n (fmtOf x).mb (fmtOf x).eb
    = n % 2 ^ ((fmtOf x).eb + (fmtOf x).mb) / 2 ^ (fmtOf x).mb := by
  rw [bitsAt, add_comm, pow_add, Nat.mod_mul_right_div_self]

theorem bitsAt_fraction (x : XT) (n : Nat) : bitsAt n 0 (fmtOf x).mb
    = n % 2 ^ ((fmtOf x).eb + (fmtOf x).mb) % 2 ^ (fmtOf x).mb := by
  rw [bitsAt, pow_zero, Nat.div_one, Nat.mod_mod_of_dvd _ (pow_dvd_pow 2 (Nat.le_add_left _ _))]

/-- An encoding beyond the largest finite one is an infinity or a NaN. -/
theorem not_isFinite_of_topBits_lt {x : XT} {n : Nat} (h : topBits x < n % 2 ^ ((fmtOf x).eb + (fmtOf x).mb)) :
    (decodeF x n).isFinite = false := by
  obtain ⟨hef, hmf⟩ := (topBits_lt_iff x (mod_two_pow_lt _ _)).mp h
  have hE : 2 ^ (fmtOf x).eb - 1 ≠ 0 := by cases x <;> decide
  unfold decodeF
  simp only [bitsAt_exponent, bitsAt_fraction, hef]
  rw [if_neg hE, if_pos (by simpa using hmf)]
  split
  · rfl
  · split <;> rfl

/-- Up to the largest finite one an encoding is a sign and a magnitude. -/
theorem decodeF_of_le {x : XT} {n : Nat} (h : n % 2 ^ ((fmtOf x).eb + (fmtOf x).mb) ≤ topBits x) :
    ∃ m e, decodeF x n = .fin (n.testBit ((fmtOf x).eb + (fmtOf x).mb)) m e
      ∧ (m : ℝ) * 2 ^ e = (fmtOf x).mag (n % 2 ^ ((fmtOf x).eb + (fmtOf x).mb)) := by
  have hnot := mt (topBits_lt_iff x (mod_two_pow_lt n _)).mpr (not_lt.mpr h)
  unfold decodeF
  simp only [bitsAt_exponent, bitsAt_fraction, bitAt_eq]
  generalize n % 2 ^ ((fmtOf x).eb + (fmtOf x).mb) = c at *
  have hP := Nat.two_pow_pos (fmtOf x).mb
  have hdiv := Nat.div_add_mod' c (2 ^ (fmtOf x).mb)
  by_cases h0 : c / 2 ^ (fmtOf x).mb = 0
  · rw [if_pos h0]
    refine ⟨_, _, rfl, ?_⟩
    unfold Fmt.mag Fmt.binade Fmt.emin
    rw [h0, show c % 2 ^ (fmtOf x).mb = c by rw [h0] at hdiv; omega]
    simp
  · rw [if_neg h0, if_neg (by simpa using hnot)]
    refine ⟨_, _, rfl, ?_⟩
    unfold Fmt.mag Fmt.binade
    rw [max_eq_right (Nat.pos_of_ne_zero h0), show 2 ^ (fmtOf x).mb + c % 2 ^ (fmtOf x).mb
      = c + 2 ^ (fmtOf x).mb - c / 2 ^ (fmtOf x).mb * 2 ^ (fmtOf x).mb by omega]

theorem isFinite_decodeF_iff (x : XT) (n : Nat) :
    (decodeF x n).isFinite = true ↔ n % 2 ^ ((fmtOf x).eb + (fmtOf x).mb) ≤ topBits x := by
  constructor
  · intro h
    by_contra hc
    rw [not_isFinite_of_topBits_lt (not_le.mp hc)] at h
    cases h
  · intro h
    obtain ⟨m, e, hd, -⟩ := decodeF_of_le h
    rw [hd]; rfl

/-- The sign of a finite encoding. -/
theorem neg?_decodeF {x : XT} {n : Nat} (h : (decodeF x n).isFinite = true) :
    (decodeF x n).neg? = n.testBit ((fmtOf x).eb + (fmtOf x).mb) := by
  obtain ⟨m, e, hd, -⟩ := decodeF_of_le ((isFinite_decodeF_iff x n).mp h)
  rw [hd]; rfl

theorem FVal.rational_cast (n : Bool) (m : Nat) (e : Int) : ((FVal.fin n m e).rational : ℝ) = signOf n * (m * 2 ^ e) := by
  rw [rational_fin, signOf]
  push_cast
  cases n <;> simp

/-- The number of a finite encoding. -/
theorem rational_decodeF {x : XT} {n : Nat} (h : (decodeF x n).isFinite = true) : ((decodeF x n).rational : ℝ)
    = signOf (n.testBit ((fmtOf x).eb + (fmtOf x).mb)) * (fmtOf x).mag (n % 2 ^ ((fmtOf x).eb + (fmtOf x).mb)) := by
  obtain ⟨m, e, hd, hm⟩ := decodeF_of_le ((isFinite_decodeF_iff x n).mp h)
  rw [hd, FVal.rational_cast, hm]

/-! ### An encoding with its sign -/

/-- An encoding of a format from its sign and the rest. -/
def signed (x : XT) (neg : Bool) (c : Nat) : Nat := b2n neg * 2 ^ ((fmtOf x).eb + (fmtOf x).mb) + c

section
variable {x : XT} {neg : Bool} {c : Nat}

theorem signed_mod (h : c < 2 ^ ((fmtOf x).eb + (fmtOf x).mb)) : signed x neg c % 2 ^ ((fmtOf x).eb + (fmtOf x).mb) = c := by
  rw [signed, mul_comm, Nat.mul_add_mod, Nat.mod_eq_of_lt h]

theorem signed_testBit (h : c < 2 ^ ((fmtOf x).eb + (fmtOf x).mb)) :
    (signed x neg c).testBit ((fmtOf x).eb + (fmtOf x).mb) = neg := by
  rw [signed, mul_comm, Nat.testBit_two_pow_mul_add _ h]
  cases neg <;> simp

theorem signed_lt (hx : x.isInt = false) (h : c < 2 ^ ((fmtOf x).eb + (fmtOf x).mb)) : signed x neg c < 2 ^ widthOf x := by
  rw [widthOf_eq hx, pow_succ, signed]
  cases neg <;> simp <;> omega

/-- The encoding that a sign and a magnitude have. -/
theorem signed_eq (hx : x.isInt = false) {n : Nat} (h : n < 2 ^ widthOf x) :
    signed x (n.testBit ((fmtOf x).eb + (fmtOf x).mb)) (n % 2 ^ ((fmtOf x).eb + (fmtOf x).mb)) = n := by
  rw [widthOf_eq hx, pow_succ] at h
  have hdiv := Nat.div_add_mod' n (2 ^ ((fmtOf x).eb + (fmtOf x).mb))
  have hlt : n / 2 ^ ((fmtOf x).eb + (fmtOf x).mb) < 2 := Nat.div_lt_of_lt_mul h
  rw [signed, ← bitAt_eq, bitAt, Nat.mod_eq_of_lt hlt]
  rcases Nat.lt_or_ge (n / 2 ^ ((fmtOf x).eb + (fmtOf x).mb)) 1 with h0 | h1
  · simpa [Nat.lt_one_iff.mp h0] using hdiv
  · simpa [show n / 2 ^ ((fmtOf x).eb + (fmtOf x).mb) = 1 by omega] using hdiv

theorem isFinite_signed (h : c ≤ topBits x) : (decodeF x (signed x neg c)).isFinite = true := by
  rw [isFinite_decodeF_iff, signed_mod (h.trans_lt (topBits_lt x))]
  exact h

theorem rational_signed (h : c ≤ topBits x) :
    ((decodeF x (signed x neg c)).rational : ℝ) = signOf neg * (fmtOf x).mag c := by
  have hlt := h.trans_lt (topBits_lt x)
  rw [rational_decodeF (isFinite_signed h), signed_mod hlt, signed_testBit hlt]

theorem neg?_signed (h : c ≤ topBits x) : (decodeF x (signed x neg c)).neg? = neg := by
  rw [neg?_decodeF (isFinite_signed h), signed_testBit (h.trans_lt (topBits_lt x))]

/-- The largest finite value of a format. -/
theorem rational_topBits (x : XT) : ((decodeF x (topBits x)).rational : ℝ) = (fmtOf x).mag (topBits x) := by
  have := rational_signed (x := x) (neg := false) le_rfl
  simpa [signed, signOf] using this

end

end Sys2Proof.Machine
end

section
/-! `roundTo` rounds a number to a format (05 R75, R76, R77). -/

namespace Sys2Proof.Machine

/-! ### The length of a mantissa -/

theorem bitLen_pos {m : Nat} (h : m ≠ 0) : 0 < bitLen m := by
  rw [bitLen, if_neg h]; omega

theorem lt_two_pow_bitLen (m : Nat) : m < 2 ^ bitLen m := bitLen_eq_size m ▸ Nat.lt_size_self m

theorem two_pow_bitLen_le {m : Nat} (h : m ≠ 0) : 2 ^ (bitLen m - 1) ≤ m := by
  have := bitLen_pos h
  rw [← Nat.lt_size, ← bitLen_eq_size]
  omega

/-- A mantissa with a part below its last bit lies in the binade of its length. -/
theorem binade_of_bitLen {m : Nat} {e : Int} {s : ℝ} (hm : m ≠ 0) (h0 : 0 ≤ s) (h1 : s < 1) :
    (2 : ℝ) ^ ((bitLen m : ℤ) - 1 + e) ≤ (m + s) * 2 ^ e ∧ (m + s) * 2 ^ e < (2 : ℝ) ^ ((bitLen m : ℤ) + e) := by
  have hp : (0 : ℝ) < 2 ^ e := zpow_pos two_pos e
  have hpos := bitLen_pos hm
  rw [zpow_add₀ two_ne_zero, zpow_add₀ two_ne_zero, show (bitLen m : ℤ) - 1 = (bitLen m - 1 : Nat) by omega, zpow_natCast,
    zpow_natCast]
  have hlow : (2 : ℝ) ^ (bitLen m - 1) ≤ m := by exact_mod_cast two_pow_bitLen_le hm
  have hhigh : (m : ℝ) + 1 ≤ 2 ^ bitLen m := by exact_mod_cast lt_two_pow_bitLen m
  exact ⟨mul_le_mul_of_nonneg_right (by linarith) hp.le, mul_lt_mul_of_pos_right (by linarith) hp⟩

/-- The leading bit tells whether a number lies below a power of two. -/
theorem bitLen_lt_iff {m : Nat} {e j : Int} (hm : m ≠ 0) : (bitLen m : ℤ) - 1 + e < j ↔ (m : ℝ) * 2 ^ e < 2 ^ j := by
  obtain ⟨hlow, hhigh⟩ := binade_of_bitLen (e := e) hm le_rfl one_pos
  rw [add_zero] at hlow hhigh
  constructor
  · intro h
    exact hhigh.trans_le (zpow_le_zpow_right₀ one_le_two (by omega))
  · intro h
    by_contra hc
    exact absurd (h.trans_le ((zpow_le_zpow_right₀ one_le_two (not_lt.mp hc)).trans hlow)) (lt_irrefl _)

/-! ### Rounding to a format's precision -/

theorem signOf_mul_inj {neg : Bool} {a b : ℝ} : signOf neg * a = signOf neg * b ↔ a = b := by
  cases neg <;> simp [signOf]

theorem abs_signOf_mul {neg : Bool} {a : ℝ} (h : 0 ≤ a) : |signOf neg * a| = a := by
  cases neg <;> simp [signOf, abs_of_nonneg h]

theorem signOf_mul_neg_iff {neg : Bool} {a : ℝ} (h : 0 < a) : signOf neg * a < 0 ↔ neg = true := by
  cases neg <;> simp [signOf, h, h.le]

theorem signOf_mul_pos_iff {neg : Bool} {a : ℝ} (h : 0 < a) : 0 < signOf neg * a ↔ neg = false := by
  cases neg <;> simp [signOf, h, h.le]

open Classical in
/-- The units that a rounding takes differ from the number where there is a part. -/
theorem roundedUnits_ne_iff {rm r : Nat} {neg : Bool} {t unit : ℝ} (hunit : 0 < unit) (ht1 : t < 1) : decide (t ≠ 0) = true
    ↔ signOf neg * ((if roundsUp rm neg r t then r + 1 else r : Nat) * unit) ≠ signOf neg * ((r + t) * unit) := by
  rw [decide_eq_true_eq, ne_eq, ne_eq, not_iff_not, signOf_mul_inj, mul_left_inj' hunit.ne']
  constructor
  · rintro rfl
    simp [not_roundsUp_zero]
  · intro h
    split at h
    · push_cast at h; linarith
    · linarith

/-- A mantissa, its exponent and the part `s` below its last bit, that `sticky` tells of; the part lies below the last bit
that a format keeps. -/
structure Guarded (f : Fmt) (m : Nat) (e : Int) (sticky : Bool) (s : ℝ) : Prop where
  ne_zero : m ≠ 0
  nonneg : 0 ≤ s
  lt_one : s < 1
  sticky_iff : sticky = true ↔ s ≠ 0
  guard : sticky = true → f.mb + 1 < bitLen m

theorem Guarded.exact {f : Fmt} {m : Nat} {e : Int} (h : m ≠ 0) : Guarded f m e false 0 :=
  ⟨h, le_rfl, one_pos, by simp, by simp⟩

/-- A number in units that keep the format's precision: `roundUnits` takes its rounding on the format's grid, at most one binade
of units, and tells whether it differs from the number. -/
theorem Guarded.roundUnits {f : Fmt} {m : Nat} {e Q : Int} {sticky : Bool} {s : ℝ} (h : Guarded f m e sticky s) {rm : Nat}
    (hrm : rm < 4) (neg : Bool) {lo : Option Int} (hQ : (bitLen m : ℤ) - 1 + e - f.mb ≤ Q) (hlo : ∀ k, lo = some k → k ≤ Q)
    (hfine : lo = some Q ∨ (bitLen m : ℤ) - 1 + e - f.mb = Q) :
    let R := (roundUnits rm neg m e Q sticky).1
    let q := signOf neg * ((m + s) * 2 ^ e)
    let v := signOf neg * (R * 2 ^ Q)
    Rounded rm (f.has lo) q v ∧ ((Machine.roundUnits rm neg m e Q sticky).2 = true ↔ v ≠ q) ∧ R ≤ 2 ^ (f.mb + 1)
      ∧ ((bitLen m : ℤ) - 1 + e - f.mb = Q → 2 ^ f.mb ≤ R) := by
  obtain ⟨r, t, ht0, ht1, hq, heq⟩ := roundUnits_spec rm neg h.nonneg h.lt_one h.sticky_iff
    (e := e) (Q := Q) fun hst => by have := h.guard hst; omega
  obtain ⟨hlow, hhigh⟩ := binade_of_bitLen (e := e) h.ne_zero h.nonneg h.lt_one
  have hp : (0 : ℝ) < 2 ^ Q := zpow_pos two_pos Q
  have hr : r < 2 ^ (f.mb + 1) := by
    have : (r : ℝ) * 2 ^ Q < 2 ^ (f.mb + 1) * 2 ^ Q := by
      calc (r : ℝ) * 2 ^ Q ≤ (r + t) * 2 ^ Q := mul_le_mul_of_nonneg_right (by linarith) hp.le
        _ < 2 ^ ((bitLen m : ℤ) + e) := hq ▸ hhigh
        _ ≤ 2 ^ (((f.mb + 1 : Nat) : ℤ) + Q) := zpow_le_zpow_right₀ one_le_two (by push_cast; omega)
        _ = 2 ^ (f.mb + 1) * 2 ^ Q := by rw [zpow_add₀ two_ne_zero, zpow_natCast]
    exact_mod_cast lt_of_mul_lt_mul_right this hp.le
  have hr' : (bitLen m : ℤ) - 1 + e - f.mb = Q → 2 ^ f.mb ≤ r := by
    intro hQ'
    have : (2 : ℝ) ^ f.mb * 2 ^ Q < (r + 1 : Nat) * 2 ^ Q := by
      calc (2 : ℝ) ^ f.mb * 2 ^ Q = 2 ^ ((bitLen m : ℤ) - 1 + e) := by
            rw [← zpow_natCast, ← zpow_add₀ two_ne_zero]; congr 1; omega
        _ ≤ (r + t) * 2 ^ Q := hq ▸ hlow
        _ < (r + 1 : Nat) * 2 ^ Q := mul_lt_mul_of_pos_right (by push_cast; linarith) hp
    exact Nat.lt_succ_iff.mp (by exact_mod_cast lt_of_mul_lt_mul_right this hp.le)
  have hround := (f.neighbours hr hlo (hfine.imp_right hr')).rounded ht0 ht1 hrm neg
  rw [← hq] at hround
  rw [heq]
  dsimp only
  refine ⟨hround, ?_, ?_, fun h => (hr' h).trans ?_⟩
  · rw [hq]
    exact roundedUnits_ne_iff hp ht1
  · split <;> omega
  · split <;> omega

/-! ### `roundTo` -/

theorem maxBits_eq (x : XT) (neg : Bool) : maxBits x neg = signed x neg (topBits x) := by
  cases x <;> cases neg <;> rfl

theorem infBits_eq {x : XT} (h : x ≠ .e4m3) (neg : Bool) : infBits x neg = signed x neg (topInf x) := by
  cases x with
  | e4m3 => exact absurd rfl h
  | _ => cases neg <;> rfl

theorem signed_false (x : XT) (c : Nat) : signed x false c = c := by simp [signed]

theorem signed_true {x : XT} (hx : x.isInt = false) (c : Nat) : signed x true c = 2 ^ (widthOf x - 1) + c := by
  rw [widthOf_eq hx]; simp [signed]

/-- What an overflow gives: the largest finite value where the direction is towards zero, else the infinity. -/
def overflow (x : XT) (rm : Nat) (neg : Bool) : Nat :=
  if rm = (if neg then 2 else 3) then topBits x else if x ≠ .e4m3 ∧ rm ≠ 1 then topInf x else topBits x

theorem signed_overflow (x : XT) (rm : Nat) (neg : Bool) : rm < 4 → (if x = .e4m3 then maxBits x neg else
    match rm with
    | 0 => infBits x neg
    | 1 => maxBits x neg
    | 2 => if neg then maxBits x neg else infBits x neg
    | _ => if neg then infBits x neg else maxBits x neg) = signed x neg (overflow x rm neg) := by
  intro hrm
  by_cases hx : x = .e4m3
  · simp [hx, maxBits_eq, overflow]
  · rw [if_neg hx, maxBits_eq, infBits_eq hx]
    unfold overflow
    interval_cases rm <;> cases neg <;> simp [hx]

/-- `roundTo` of a mantissa that is not zero, through the two grids that it rounds on: that of the format, and that of the
format's precision alone, which tells whether the number is tiny. -/
theorem roundTo_eq (x : XT) {rm : Nat} (hrm : rm < 4) (neg : Bool) {m : Nat} (hm : m ≠ 0) (e : Int) (sticky : Bool) :
    let f := fmtOf x
    let qu := (bitLen m : ℤ) - 1 + e - f.mb
    let q := max qu (f.emin - f.mb)
    let R := roundUnits rm neg m e q sticky
    let tiny := decide ((bitLen (roundUnits rm neg m e qu sticky).1 : ℤ) - 1 + qu < f.emin)
    let enc := (q + f.mb + f.bias).toNat * 2 ^ f.mb + R.1 - 2 ^ f.mb
    roundTo x rm neg m e sticky = if topBits x < enc then (signed x neg (overflow x rm neg), 5)
      else (signed x neg enc, (if R.2 then 1 else 0) ||| if tiny && R.2 then 2 else 0) := by
  intro f qu q R tiny enc
  unfold roundTo
  rw [if_neg (by simp [hm]), ← signed_overflow x rm neg hrm, topBits_eq]
  rfl

/-- `roundTo` rounds a guarded number of a sign to a format. -/
theorem Guarded.roundsTo {x : XT} (hx : x.isInt = false) {m : Nat} {e : Int} {sticky : Bool} {s : ℝ}
    (h : Guarded (fmtOf x) m e sticky s) {rm : Nat} (hrm : rm < 4) (neg : Bool) :
    RoundsTo x rm (signOf neg * ((m + s) * 2 ^ e)) (roundTo x rm neg m e sticky) := by
  have heq := roundTo_eq x hrm neg h.ne_zero e sticky
  dsimp only at heq
  generalize hqu : (bitLen m : ℤ) - 1 + e - (fmtOf x).mb = qu at heq
  obtain ⟨hv, hinexact, hR, hlow⟩ := h.roundUnits hrm neg (lo := some ((fmtOf x).emin - (fmtOf x).mb))
    (Q := max qu ((fmtOf x).emin - (fmtOf x).mb)) (hqu ▸ le_max_left _ _) (by rintro _ ⟨⟩; exact le_max_right _ _)
    (by rw [hqu]; rcases max_choice qu ((fmtOf x).emin - (fmtOf x).mb) with h | h <;> rw [h] <;> simp)
  obtain ⟨hu, -, -, hulow⟩ := h.roundUnits hrm neg (lo := none) (Q := qu) hqu.le (by simp) (.inr hqu)
  rw [hqu] at hlow
  have hU := hulow hqu
  generalize (Machine.roundUnits rm neg m e qu sticky).1 = U at heq hu hU
  generalize hQ : max qu ((fmtOf x).emin - (fmtOf x).mb) = Q at heq hv hinexact hR hlow
  generalize Machine.roundUnits rm neg m e Q sticky = R at heq hv hinexact hR hlow
  have hmin : (fmtOf x).emin - (fmtOf x).mb ≤ Q := hQ ▸ le_max_right _ _
  have hE : ((Q + (fmtOf x).mb + (fmtOf x).bias).toNat : ℤ) = Q + (fmtOf x).mb + (fmtOf x).bias :=
    Int.toNat_of_nonneg (by unfold Fmt.emin at hmin; omega)
  generalize (Q + (fmtOf x).mb + (fmtOf x).bias).toNat = E at heq hE
  have hmag := (fmtOf x).mag_eq (E := E) (r := R.1) (by unfold Fmt.emin at hmin; omega) hR (by
    rcases max_choice qu ((fmtOf x).emin - (fmtOf x).mb) with h | h
    · exact .inr (hlow (by omega))
    · unfold Fmt.emin at h hQ; exact .inl (by omega))
  rw [hE, show Q + (fmtOf x).mb + (fmtOf x).bias - (fmtOf x).bias - (fmtOf x).mb = Q by ring] at hmag
  generalize E * 2 ^ (fmtOf x).mb + R.1 - 2 ^ (fmtOf x).mb = enc at heq hmag
  rw [← hmag] at hv hinexact
  have htiny : ((bitLen U : ℤ) - 1 + qu < (fmtOf x).emin) ↔ |signOf neg * (U * (2 : ℝ) ^ qu)| < 2 ^ (fmtOf x).emin := by
    rw [abs_signOf_mul (by positivity), bitLen_lt_iff (by have := Nat.two_pow_pos (fmtOf x).mb; omega)]
  have hpos : 0 < (m + s) * (2 : ℝ) ^ e := by
    have := h.nonneg
    have : (0 : ℝ) < m := by exact_mod_cast Nat.pos_of_ne_zero h.ne_zero
    positivity
  refine ⟨_, _, hv, hu, ?_, ?_⟩
  all_goals rw [rational_topBits, abs_signOf_mul (Fmt.mag_nonneg _ _)]
  · intro hle
    have hle := (Fmt.mag_strictMono _).le_iff_le.mp hle
    rw [heq, if_neg (not_lt.mpr hle)]
    refine ⟨signed_lt hx (hle.trans_lt (topBits_lt x)), isFinite_signed hle, rational_signed hle, ?_, ?_, ?_⟩
    · rw [neg?_signed hle, signOf_mul_neg_iff hpos]
    · intro hvq
      have := mt hinexact.mp (not_not.mpr hvq)
      simp [this]
    · intro hvq
      rw [hinexact.mpr hvq]
      constructor
      · intro h; simp [htiny.mpr h]
      · intro h; simp [mt htiny.mp (not_lt.mpr h)]
  · intro hlt
    have hlt := (Fmt.mag_strictMono _).lt_iff_lt.mp hlt
    rw [heq, if_pos hlt]
    refine ⟨rfl, fun hq => ?_, fun hq => ?_⟩
    · rw [(signOf_mul_pos_iff hpos).mp hq, signed_false]; rfl
    · rw [(signOf_mul_neg_iff hpos).mp hq, signed_true hx]; rfl

end Sys2Proof.Machine
end

section
/-! Exact arithmetic on values (05 R65): sums, products, quotients and roots are the numbers that they are named for, and what
`roundF` makes of them. -/

namespace Sys2Proof.Machine

namespace FVal

theorem exists_of_isFinite {u : FVal} (h : u.isFinite = true) : ∃ n m e, u = .fin n m e := by
  cases u with
  | fin n m e => exact ⟨n, m, e, rfl⟩
  | nan _ => nomatch h
  | inf _ => nomatch h

theorem exists_of_isZero {u : FVal} (h : u.isZero = true) : ∃ n e, u = .fin n 0 e := by
  obtain ⟨n, m, e, rfl⟩ := exists_of_isFinite (isFinite_of_isZero h)
  exact ⟨n, e, by rw [isZero, beq_iff_eq] at h; rw [h]⟩

theorem isNan_of_isFinite {u : FVal} (h : u.isFinite = true) : u.isNan = false := by
  obtain ⟨n, m, e, rfl⟩ := exists_of_isFinite h
  rfl

theorem isInf_of_isFinite {u : FVal} (h : u.isFinite = true) : u.isInf = false := by
  obtain ⟨n, m, e, rfl⟩ := exists_of_isFinite h
  rfl

theorem isSNan_of_not_isNan {u : FVal} (h : u.isNan = false) : u.isSNan = false := by
  cases u with
  | nan _ => nomatch h
  | inf _ => rfl
  | fin _ _ _ => rfl

/-! ### Signs -/

theorem rational_negate (u : FVal) : u.negate.rational = -u.rational := by
  cases u with
  | fin n m e => cases n <;> simp [negate, rational_fin]
  | nan _ => rfl
  | inf _ => rfl

theorem isFinite_negate (u : FVal) : u.negate.isFinite = u.isFinite := by cases u <;> rfl
theorem isZero_negate (u : FVal) : u.negate.isZero = u.isZero := by cases u <;> rfl
theorem isNan_negate (u : FVal) : u.negate.isNan = u.isNan := by cases u <;> rfl

theorem neg?_negate {u : FVal} (h : u.isFinite = true) : u.negate.neg? = !u.neg? := by
  obtain ⟨n, m, e, rfl⟩ := exists_of_isFinite h
  rfl

/-! ### Products -/

theorem isFinite_mul {u v : FVal} (hu : u.isFinite = true) (hv : v.isFinite = true) : (u.mul v).isFinite = true := by
  obtain ⟨n, m, e, rfl⟩ := exists_of_isFinite hu
  obtain ⟨n', m', e', rfl⟩ := exists_of_isFinite hv
  rfl

theorem rational_mul {u v : FVal} (hu : u.isFinite = true) (hv : v.isFinite = true) :
    (u.mul v).rational = u.rational * v.rational := by
  obtain ⟨n, m, e, rfl⟩ := exists_of_isFinite hu
  obtain ⟨n', m', e', rfl⟩ := exists_of_isFinite hv
  show (FVal.fin (n != n') (m * m') (e + e')).rational = _
  simp only [rational_fin, zpow_add₀ (two_ne_zero : (2 : ℚ) ≠ 0)]
  push_cast
  cases n <;> cases n' <;> simp <;> ring

theorem neg?_mul {u v : FVal} (hu : u.isFinite = true) (hv : v.isFinite = true) : (u.mul v).neg? = (u.neg? != v.neg?) := by
  obtain ⟨n, m, e, rfl⟩ := exists_of_isFinite hu
  obtain ⟨n', m', e', rfl⟩ := exists_of_isFinite hv
  rfl

theorem isZero_mul {u v : FVal} (hu : u.isFinite = true) (hv : v.isFinite = true) :
    (u.mul v).isZero = (u.isZero || v.isZero) := by
  obtain ⟨n, m, e, rfl⟩ := exists_of_isFinite hu
  obtain ⟨n', m', e', rfl⟩ := exists_of_isFinite hv
  show (m * m' == 0) = (m == 0 || m' == 0)
  rw [Bool.eq_iff_iff]
  simp

/-! ### Sums -/

theorem rational_fin_natAbs (k e : Int) : (FVal.fin (decide (k < 0)) k.natAbs e).rational = k * 2 ^ e := by
  rw [rational_fin]
  congr 1
  rcases lt_or_ge k 0 with h | h
  · rw [decide_eq_true h, if_pos rfl, Nat.cast_natAbs, abs_of_neg h]; push_cast; ring
  · rw [decide_eq_false (not_lt.mpr h), if_neg (by decide), Nat.cast_natAbs, abs_of_nonneg h, one_mul]

/-- The sum of finite values is a zero of the sign that 08 R118 gives it, or the number that the sum is. -/
theorem add_finite (rm : Nat) {u v : FVal} (hu : u.isFinite = true) (hv : v.isFinite = true) :
    (u.add rm v).isFinite = true ∧ (u.add rm v).rational = u.rational + v.rational
      ∧ (u.rational + v.rational = 0 →
          u.add rm v = .fin (if (u.isZero && v.isZero) && u.neg? == v.neg? then u.neg? else rm == 3) 0 0) := by
  obtain ⟨n1, m1, e1, rfl⟩ := exists_of_isFinite hu
  obtain ⟨n2, m2, e2, rfl⟩ := exists_of_isFinite hv
  have hsum : (FVal.fin n1 m1 e1).rational + (FVal.fin n2 m2 e2).rational
      = ((scaled n1 m1 e1 (min e1 e2) + scaled n2 m2 e2 (min e1 e2) : ℤ) : ℚ) * 2 ^ min e1 e2 := by
    rw [← scaled_mul (min_le_left e1 e2), ← scaled_mul (min_le_right e1 e2)]
    push_cast
    ring
  have h2 : (2 : ℚ) ^ min e1 e2 ≠ 0 := zpow_ne_zero _ two_ne_zero
  unfold add
  dsimp only
  rw [hsum]
  split
  · next hk =>
    have hif : (if m1 = 0 ∧ m2 = 0 ∧ n1 = n2 then FVal.fin n1 0 0 else .fin (rm == 3) 0 0)
        = .fin (if ((m1 == 0 && m2 == 0) && n1 == n2) = true then n1 else rm == 3) 0 0 := by
      simp only [Bool.and_eq_true, beq_iff_eq, and_assoc]
      split <;> rfl
    rw [hif, hk]
    exact ⟨rfl, by rw [rational_fin]; simp, fun _ => rfl⟩
  · next hk =>
    exact ⟨rfl, rational_fin_natAbs _ _, fun h0 => absurd h0 (mul_ne_zero (Int.cast_ne_zero.mpr hk) h2)⟩

end FVal

/-! ### `roundF` of an exact value -/

/-- A zero of a format. -/
theorem roundF_zero {x : XT} (hx : x.isInt = false) (rm : Nat) (n : Bool) (e : Int) :
    roundF x rm ⟨.fin n 0 e, false⟩ = (if n then 2 ^ (widthOf x - 1) else 0, 0) := by
  rw [widthOf_eq hx]
  show (b2n n * 2 ^ ((fmtOf x).eb + (fmtOf x).mb), (0 : Flags)) = _
  cases n <;> simp

theorem roundF_of_isZero {x : XT} (hx : x.isInt = false) (rm : Nat) {u : FVal} (h : u.isZero = true) :
    roundF x rm ⟨u, false⟩ = (if u.neg? then 2 ^ (widthOf x - 1) else 0, 0) := by
  obtain ⟨n, e, rfl⟩ := FVal.exists_of_isZero h
  exact roundF_zero hx rm n e

/-- An infinity of a format. -/
theorem roundF_inf {x : XT} (hx : x.isInt = false) (h : x ≠ .e4m3) (rm : Nat) (n : Bool) :
    roundF x rm ⟨.inf n, false⟩ = (topInf x + if n then 2 ^ (widthOf x - 1) else 0, 0) := by
  show (infBits x n, if x = .e4m3 then Flag.nv else 0) = _
  rw [infBits_eq h, if_neg h, widthOf_eq hx, signed]
  cases n <;> simp [add_comm]

/-- A finite number that is not zero is rounded. -/
theorem roundF_rounds {x : XT} (hx : x.isInt = false) {rm : Nat} (hrm : rm < 4) {u : FVal} (hu : u.isFinite = true)
    (h0 : (u.rational : ℝ) ≠ 0) : RoundsTo x rm u.rational (roundF x rm ⟨u, false⟩) := by
  obtain ⟨n, m, e, rfl⟩ := FVal.exists_of_isFinite hu
  have hm : m ≠ 0 := by
    rintro rfl
    exact h0 (by rw [FVal.rational_cast]; simp)
  have := (Guarded.exact (f := fmtOf x) (e := e) hm).roundsTo hx hrm n
  rwa [add_zero, ← FVal.rational_cast] at this

/-! ### Quotients -/

theorem le_bitLen {m k : Nat} (h : 2 ^ k ≤ m) : k < bitLen m := by
  rw [bitLen_eq_size]
  exact Nat.lt_size.mpr h

theorem mb_le (x : XT) : (fmtOf x).mb ≤ 52 := by cases x <;> decide

/-- A mantissa of more than 60 bits keeps every format's precision above its sticky part. -/
theorem Guarded.of_long {m : Nat} {e : Int} {sticky : Bool} {s : ℝ} (x : XT) (hm : 2 ^ 60 ≤ m) (h0 : 0 ≤ s) (h1 : s < 1)
    (hs : sticky = true ↔ s ≠ 0) : Guarded (fmtOf x) m e sticky s where
  ne_zero := by omega
  nonneg := h0
  lt_one := h1
  sticky_iff := hs
  guard := fun _ => by have := le_bitLen hm; have := mb_le x; omega

/-- The quotient of finite numbers that are not zero, rounded. -/
theorem roundF_div {x : XT} (hx : x.isInt = false) {rm : Nat} (hrm : rm < 4) {u v : FVal} (hu : u.isFinite = true)
    (hv : v.isFinite = true) (hu0 : u.isZero = false) (hv0 : v.isZero = false) :
    RoundsTo x rm ((u.rational : ℝ) / v.rational) (roundF x rm (divExact guardBits u v)) := by
  obtain ⟨n1, m1, e1, rfl⟩ := FVal.exists_of_isFinite hu
  obtain ⟨n2, m2, e2, rfl⟩ := FVal.exists_of_isFinite hv
  have hm1 : m1 ≠ 0 := by simpa [FVal.isZero] using hu0
  have hm2 : m2 ≠ 0 := by simpa [FVal.isZero] using hv0
  rw [divExact, if_neg hm2, if_neg hm1]
  dsimp only
  generalize hk : guardBits + bitLen m2 = k
  have hm2' : (0 : ℝ) < m2 := by exact_mod_cast Nat.pos_of_ne_zero hm2
  have hmod : ((m1 * 2 ^ k % m2 : Nat) : ℝ) < m2 := by exact_mod_cast Nat.mod_lt _ (Nat.pos_of_ne_zero hm2)
  have hlong : 2 ^ 60 ≤ m1 * 2 ^ k / m2 := by
    rw [Nat.le_div_iff_mul_le (Nat.pos_of_ne_zero hm2), ← hk, show guardBits = 60 from rfl, pow_add]
    calc 2 ^ 60 * m2 ≤ 2 ^ 60 * 2 ^ bitLen m2 := Nat.mul_le_mul_left _ (lt_two_pow_bitLen m2).le
      _ ≤ m1 * (2 ^ 60 * 2 ^ bitLen m2) := Nat.le_mul_of_pos_left _ (Nat.pos_of_ne_zero hm1)
  have hround := (Guarded.of_long (e := e1 - e2 - k) (sticky := m1 * 2 ^ k % m2 != 0) (s := (m1 * 2 ^ k % m2 : Nat) / m2) x hlong
    (by positivity) ((div_lt_one hm2').mpr hmod) (by simp [hm2])).roundsTo hx hrm (n1 != n2)
  have hdiv : ((m1 * 2 ^ k / m2 : Nat) : ℝ) + ((m1 * 2 ^ k % m2 : Nat) : ℝ) / m2 = m1 * 2 ^ k / m2 := by
    have : (m2 : ℝ) * (m1 * 2 ^ k / m2 : Nat) + (m1 * 2 ^ k % m2 : Nat) = m1 * 2 ^ k := by
      exact_mod_cast Nat.div_add_mod (m1 * 2 ^ k) m2
    field_simp
    linarith
  have hval : ((FVal.fin n1 m1 e1).rational : ℝ) / (FVal.fin n2 m2 e2).rational
      = signOf (n1 != n2) * ((m1 * 2 ^ k / m2) * 2 ^ (e1 - e2 - k)) := by
    have h1 : (2 : ℝ) ^ e1 ≠ 0 := zpow_ne_zero e1 two_ne_zero
    have h2 : (2 : ℝ) ^ e2 ≠ 0 := zpow_ne_zero e2 two_ne_zero
    rw [FVal.rational_cast, FVal.rational_cast, zpow_sub₀ two_ne_zero, zpow_sub₀ two_ne_zero, zpow_natCast]
    cases n1 <;> cases n2 <;> simp [signOf] <;> field_simp
  rw [hdiv, ← hval] at hround
  exact hround

/-! ### Roots -/

/-- Bit by bit, `sqrtBits` reaches the integer square root. -/
theorem sqrtBits_spec (i m r : Nat) (hlow : r * r ≤ m) (hhigh : m < (r + 2 ^ i) * (r + 2 ^ i)) :
    sqrtBits i m r = Nat.sqrt m := by
  induction i generalizing r with
  | zero => exact Nat.eq_sqrt.mpr ⟨hlow, hhigh⟩
  | succ i ih =>
    rw [sqrtBits]
    split
    · next h =>
      refine ih _ h ?_
      rwa [add_assoc, ← two_mul, ← pow_succ']
    · next h => exact ih _ hlow (not_le.mp h)

theorem sqrtBits_eq (m : Nat) : sqrtBits (bitLen m / 2 + 1) m 0 = Nat.sqrt m := by
  refine sqrtBits_spec _ _ _ (Nat.zero_le _) ?_
  rw [zero_add, ← pow_add]
  exact (lt_two_pow_bitLen m).trans_le (Nat.pow_le_pow_right (by decide) (by omega))

/-- The root of a positive number, rounded. -/
theorem roundF_sqrt {x : XT} (hx : x.isInt = false) {rm : Nat} (hrm : rm < 4) {u : FVal} (hu : u.isFinite = true)
    (h0 : (0 : ℝ) < u.rational) : RoundsTo x rm (Real.sqrt u.rational) (roundF x rm (sqrtExact guardBits u)) := by
  obtain ⟨n, m, e, rfl⟩ := FVal.exists_of_isFinite hu
  have hm : m ≠ 0 := by
    rintro rfl
    rw [FVal.rational_cast] at h0
    simp at h0
  have hp : (0 : ℝ) < m * 2 ^ e := mul_pos (by exact_mod_cast Nat.pos_of_ne_zero hm) (zpow_pos two_pos e)
  rw [FVal.rational_cast] at h0 ⊢
  obtain rfl : n = false := (signOf_mul_pos_iff hp).mp h0
  rw [sqrtExact, if_neg hm, if_neg (by decide), show guardBits = 60 from rfl]
  dsimp only
  obtain ⟨j, hj, hk0⟩ : ∃ j : ℤ, e - ((2 * 60 + if (e - 2 * ((60 : Nat) : ℤ)) % 2 = 0 then 0 else 1 : Nat) : ℤ) = 2 * j
      ∧ 120 ≤ 2 * 60 + if (e - 2 * ((60 : Nat) : ℤ)) % 2 = 0 then 0 else 1 := by
    split
    · exact ⟨(e - 120) / 2, by omega, by omega⟩
    · exact ⟨(e - 121) / 2, by omega, by omega⟩
  generalize (2 * 60 + if (e - 2 * ((60 : Nat) : ℤ)) % 2 = 0 then 0 else 1) = k at *
  rw [sqrtBits_eq, hj, Int.mul_ediv_cancel_left _ two_ne_zero]
  generalize hmm : m * 2 ^ k = mm
  have hlong : 2 ^ 60 ≤ Nat.sqrt mm := by
    rw [Nat.le_sqrt, ← hmm, ← pow_add]
    calc 2 ^ (60 + 60) ≤ 2 ^ k := Nat.pow_le_pow_right (by decide) hk0
      _ ≤ m * 2 ^ k := Nat.le_mul_of_pos_left _ (Nat.pos_of_ne_zero hm)
  have hle : (Nat.sqrt mm : ℝ) ≤ Real.sqrt mm := Real.nat_sqrt_le_real_sqrt
  have hlt : Real.sqrt mm < Nat.sqrt mm + 1 := Real.real_sqrt_lt_nat_sqrt_succ
  have hround := (Guarded.of_long (e := j) (sticky := Nat.sqrt mm * Nat.sqrt mm != mm) (s := Real.sqrt mm - Nat.sqrt mm) x hlong
    (by linarith) (by linarith) (by
      rw [bne_iff_ne, ne_eq, ne_eq, not_iff_not, sub_eq_zero, Real.sqrt_eq_iff_mul_self_eq (by positivity) (by positivity)]
      exact_mod_cast eq_comm)).roundsTo hx hrm false
  have hval : (m : ℝ) * 2 ^ e = mm * (2 ^ j) ^ 2 := by
    rw [← hmm, ← zpow_natCast ((2 : ℝ) ^ j), ← zpow_mul, show j * (2 : Nat) = e - k by push_cast; omega, zpow_sub₀ two_ne_zero,
      zpow_natCast]
    push_cast
    field_simp
  have hroot : Real.sqrt (signOf false * (m * 2 ^ e)) = signOf false * ((Nat.sqrt mm + (Real.sqrt mm - Nat.sqrt mm)) * 2 ^ j) := by
    rw [signOf, if_neg (by decide), one_mul, one_mul, hval, Real.sqrt_mul (by positivity), Real.sqrt_sq (zpow_pos two_pos j).le,
      add_sub_cancel]
  rw [hroot]
  exact hround

end Sys2Proof.Machine
end

section
/-! The scalar operations on encodings (08 R118, 05 R65, R66): NaNs and invalid operations, infinities, zeros, and results that
are rounded. -/

namespace Sys2Proof.Machine

namespace FVal

/-! ### Operations with an infinity or a NaN -/

theorem exists_of_isInf {u : FVal} (h : u.isInf = true) : ∃ n, u = .inf n := by
  cases u with
  | inf n => exact ⟨n, rfl⟩
  | nan _ => nomatch h
  | fin _ _ _ => nomatch h

theorem inf_add (rm : Nat) {n : Bool} {v : FVal} (h : v.isFinite = true ∨ v = .inf n) : (FVal.inf n).add rm v = .inf n := by
  rcases h with h | rfl
  · obtain ⟨n', m, e, rfl⟩ := exists_of_isFinite h
    rfl
  · exact if_pos rfl

theorem add_inf (rm : Nat) {n : Bool} {v : FVal} (h : v.isFinite = true ∨ v = .inf n) : v.add rm (.inf n) = .inf n := by
  rcases h with h | rfl
  · obtain ⟨n', m, e, rfl⟩ := exists_of_isFinite h
    rfl
  · exact if_pos rfl

theorem inf_add_opposite (rm : Nat) (n : Bool) : (FVal.inf n).add rm (.inf !n) = .nan false := if_neg (by cases n <;> decide)

theorem inf_mul {n : Bool} {v : FVal} (hv : v.isNan = false) (h0 : v.isZero = false) :
    (FVal.inf n).mul v = .inf (n != v.neg?) := by
  cases v with
  | nan _ => nomatch hv
  | inf n' => rfl
  | fin n' m e => exact if_neg (by simpa [isZero] using h0)

theorem mul_inf {n : Bool} {v : FVal} (hv : v.isNan = false) (h0 : v.isZero = false) :
    v.mul (.inf n) = .inf (n != v.neg?) := by
  rw [bne_comm]
  cases v with
  | nan _ => nomatch hv
  | inf n' => rfl
  | fin n' m e => exact if_neg (by simpa [isZero] using h0)

theorem inf_mul_zero {n : Bool} {v : FVal} (h0 : v.isZero = true) : (FVal.inf n).mul v = .nan false := by
  obtain ⟨n', e, rfl⟩ := exists_of_isZero h0
  rfl

theorem nan_add (rm : Nat) {s : Bool} {w : FVal} (h : w.isNan = false) : (FVal.nan s).add rm w = .nan s := by
  cases w with
  | nan _ => nomatch h
  | inf _ => rfl
  | fin _ _ _ => rfl

/-! ### The order of minimum and maximum -/

theorem below_iff {u v : FVal} (hu : u.isNan = false) (hv : v.isNan = false) : u.below v = true ↔ u.extended < v.extended
    ∨ (u.isZero = true ∧ v.isZero = true ∧ u.neg? = true ∧ v.neg? = false) := by
  simp only [below, Bool.or_eq_true, lt_iff hu hv, Bool.and_eq_true, Bool.not_eq_true', and_assoc]

theorem extended_of_isZero {u : FVal} (h : u.isZero = true) : u.extended = 0 := by
  obtain ⟨n, e, rfl⟩ := exists_of_isZero h
  show (((FVal.fin n 0 e).rational : WithTop ℚ) : WithBot (WithTop ℚ)) = 0
  rw [rational_of_isZero rfl]
  rfl

end FVal

theorem divExact_by_zero (bits : Nat) {u v : FVal} (hu : u.isFinite = true) (hu0 : u.isZero = false) (hv : v.isZero = true) :
    divExact bits u v = ⟨.inf (u.neg? != v.neg?), false⟩ := by
  obtain ⟨n, m, e, rfl⟩ := FVal.exists_of_isFinite hu
  obtain ⟨n', e', rfl⟩ := FVal.exists_of_isZero hv
  exact if_neg (by simpa [FVal.isZero] using hu0)

theorem divExact_zero (bits : Nat) {u v : FVal} (hu : u.isZero = true) (hv : v.isFinite = true) (hv0 : v.isZero = false) :
    divExact bits u v = ⟨.fin (u.neg? != v.neg?) 0 0, false⟩ := by
  obtain ⟨n, e, rfl⟩ := FVal.exists_of_isZero hu
  obtain ⟨n', m, e', rfl⟩ := FVal.exists_of_isFinite hv
  exact if_neg (by simpa [FVal.isZero] using hv0)

theorem sqrtExact_negative (bits : Nat) {u : FVal} (hneg : u.neg? = true) (hu : u.isNan = false) (hu0 : u.isZero = false) :
    sqrtExact bits u = ⟨.nan false, false⟩ := by
  cases u with
  | nan _ => nomatch hu
  | inf n => exact if_pos hneg
  | fin n m e => exact (if_neg (by simpa [FVal.isZero] using hu0)).trans (if_pos hneg)

/-! ### `arith` -/

/-- What an operation on operands without a NaN answers. -/
def outcome (x : XT) (rm : Nat) (r : Exact) : Nat × Flags := if r.v.isNan then (canonNan x, 16) else roundF x rm r

theorem outcome_nan (x : XT) (rm : Nat) (s k : Bool) : outcome x rm ⟨.nan s, k⟩ = (canonNan x, 16) := rfl

theorem outcome_of_isFinite {x : XT} {rm : Nat} {r : Exact} (h : r.v.isFinite = true) : outcome x rm r = roundF x rm r :=
  if_neg (by rw [FVal.isNan_of_isFinite h]; decide)

theorem arith_of_nan (x : XT) (rm : Nat) {ops : List FVal} (h : ops.any FVal.isNan = true) (r : Exact) :
    arith x rm ops r = (canonNan x, if ops.any FVal.isSNan then 16 else 0) := if_pos h

theorem arith_of_ordered (x : XT) (rm : Nat) {ops : List FVal} (h : ops.any FVal.isNan = false) (r : Exact) :
    arith x rm ops r = outcome x rm r := if_neg (by rw [h]; decide)

section
variable {x : XT} {rm a b c : Nat} {u v w : FVal} (ha : decodeF x a = u) (hb : decodeF x b = v) (hc : decodeF x c = w)
include ha

theorem fSqrt_ordered (hu : u.isNan = false) : fSqrt x rm a = outcome x rm (sqrtExact guardBits u) := by
  subst ha
  exact arith_of_ordered x rm (by simp [hu]) _

include hb

theorem fAdd_ordered (hu : u.isNan = false) (hv : v.isNan = false) : fAdd x rm a b = outcome x rm ⟨u.add rm v, false⟩ := by
  subst ha hb
  exact arith_of_ordered x rm (by simp [hu, hv]) _

theorem fSub_ordered (hu : u.isNan = false) (hv : v.isNan = false) :
    fSub x rm a b = outcome x rm ⟨u.add rm v.negate, false⟩ := by
  subst ha hb
  exact arith_of_ordered x rm (by simp [hu, hv]) _

theorem fMul_ordered (hu : u.isNan = false) (hv : v.isNan = false) : fMul x rm a b = outcome x rm ⟨u.mul v, false⟩ := by
  subst ha hb
  exact arith_of_ordered x rm (by simp [hu, hv]) _

/-- A division raises DZ besides where a finite number that is not zero is divided by zero. -/
theorem fDiv_ordered (hu : u.isNan = false) (hv : v.isNan = false) :
    fDiv x rm a b = ((outcome x rm (divExact guardBits u v)).1, (outcome x rm (divExact guardBits u v)).2
      ||| if v.isZero && u.isFinite && !u.isZero then 8 else 0) := by
  subst ha hb
  unfold fDiv
  dsimp only
  rw [arith_of_ordered x rm (by simp [hu, hv])]
  rfl

theorem fDiv_without_dz (hu : u.isNan = false) (hv : v.isNan = false) (h : (v.isZero && u.isFinite && !u.isZero) = false) :
    fDiv x rm a b = outcome x rm (divExact guardBits u v) := by
  rw [fDiv_ordered ha hb hu hv, h, if_neg (by decide)]
  exact Prod.ext rfl BitVec.or_zero

include hc

theorem fMa_ordered (hu : u.isNan = false) (hv : v.isNan = false) (hw : w.isNan = false) :
    fMa x rm a b c = outcome x rm ⟨(u.mul v).add rm w, false⟩ := by
  subst ha hb hc
  exact arith_of_ordered x rm (by simp [hu, hv, hw]) _

end

end Sys2Proof.Machine

namespace Sys2Proof.Proofs

open Sys2Proof Sys2Proof.Machine Sys2Proof.Claims

theorem binary_nan (x : XT) (rm a b : Nat) (h : (decodeF x a).isNan = true ∨ (decodeF x b).isNan = true) :
    ∀ f ∈ [fAdd, fSub, fMul, fDiv], f x rm a b
      = (canonNan x, if (decodeF x a).isSNan || (decodeF x b).isSNan then 16 else 0) := by
  have harith (r : Exact) : arith x rm [decodeF x a, decodeF x b] r
      = (canonNan x, if (decodeF x a).isSNan || (decodeF x b).isSNan then 16 else 0) := by
    rw [arith_of_nan x rm (by simpa using h)]; simp
  have hdiv : ((decodeF x b).isZero && (decodeF x a).isFinite && !(decodeF x a).isZero) = false := by
    rcases h with h | h
    · rw [show (decodeF x a).isFinite = false by rw [Bool.eq_false_iff]; intro hf; simp [FVal.isNan_of_isFinite hf] at h]; simp
    · rw [show (decodeF x b).isZero = false by
        rw [Bool.eq_false_iff]; intro hz; simp [FVal.isNan_of_isFinite (FVal.isFinite_of_isZero hz)] at h]
      rfl
  simp only [List.forall_mem_cons, List.not_mem_nil, false_imp_iff, implies_true, and_true]
  refine ⟨harith _, harith _, harith _, ?_⟩
  unfold fDiv
  dsimp only
  rw [harith, hdiv, if_neg Bool.false_ne_true]
  exact Prod.ext rfl BitVec.or_zero

theorem floatCornersFollowTheRules : FloatCornersFollowTheRules := by
  intro x rm a b c hx u v w nv
  refine ⟨binary_nan x rm a b, fun h => ?_, fun h => ?_, fun n hu hv => ?_, fun n hu hv => ?_, fun hu hv => ?_, fun hu hv hw => ?_,
    fun hu hv => ?_, fun hu hv => ?_, fun hu hu0 hv => ?_, fun hneg hu hu0 => ?_⟩
  · exact (arith_of_nan x rm (ops := [u]) (by simpa using h) _).trans (by simp [nv])
  · exact (arith_of_nan x rm (ops := [u, v, w]) (by simpa using h) _).trans (by simp [nv, or_assoc])
  · rw [fSub_ordered hu hv rfl rfl, FVal.negate, FVal.inf_add_opposite, outcome_nan]
  · rw [fAdd_ordered hu hv rfl rfl, FVal.inf_add_opposite, outcome_nan]
  · obtain ⟨n, hu⟩ := FVal.exists_of_isInf hu
    rw [fMul_ordered hu rfl rfl (FVal.isNan_of_isFinite (FVal.isFinite_of_isZero hv)), FVal.inf_mul_zero hv, outcome_nan]
  · obtain ⟨n, hu⟩ := FVal.exists_of_isInf hu
    rw [fMa_ordered hu rfl rfl rfl (FVal.isNan_of_isFinite (FVal.isFinite_of_isZero hv)) hw, FVal.inf_mul_zero hv,
      FVal.nan_add rm hw, outcome_nan]
  · obtain ⟨n, e, hu⟩ := FVal.exists_of_isZero hu
    obtain ⟨n', e', hv⟩ := FVal.exists_of_isZero hv
    rw [fDiv_without_dz hu hv rfl rfl rfl]
    rfl
  · obtain ⟨n, hu⟩ := FVal.exists_of_isInf hu
    obtain ⟨n', hv⟩ := FVal.exists_of_isInf hv
    rw [fDiv_without_dz hu hv rfl rfl rfl]
    rfl
  · have hx' : x ≠ .e4m3 := by rintro rfl; nomatch hx
    rw [fDiv_ordered rfl rfl (FVal.isNan_of_isFinite hu) (FVal.isNan_of_isFinite (FVal.isFinite_of_isZero hv)),
      divExact_by_zero _ hu hu0 hv, show (v.isZero && u.isFinite && !u.isZero) = true by rw [hu, hu0, hv]; rfl]
    show (infBits x _, (if x = .e4m3 then Flag.nv else 0) ||| 8) = _
    rw [if_neg hx']
    rfl
  · rw [fSqrt_ordered rfl hu, sqrtExact_negative _ hneg hu hu0, outcome_nan]

end Sys2Proof.Proofs
end

section
/-! Every scalar operation rounds its exact value once (08 R118, 05 R65, R75), and a result that its format holds is exact. -/

namespace Sys2Proof.Machine

theorem isInt_of_isFp {x : XT} (h : x.isFp = true) : x.isInt = false ∧ x ≠ .e4m3 := by
  cases x with
  | f32 | f16 | bf16 | f64 => exact ⟨rfl, by decide⟩
  | _ => nomatch h

/-! ### Outcomes -/

section
variable {x : XT} (hx : x.isFp = true) {rm : Nat}
include hx

theorem outcome_inf (n : Bool) : outcome x rm ⟨.inf n, false⟩ = (topInf x + if n then 2 ^ (widthOf x - 1) else 0, 0) :=
  roundF_inf (isInt_of_isFp hx).1 (isInt_of_isFp hx).2 rm n

theorem outcome_of_isZero {u : FVal} (h : u.isZero = true) :
    outcome x rm ⟨u, false⟩ = (if u.neg? then 2 ^ (widthOf x - 1) else 0, 0) := by
  rw [outcome_of_isFinite (FVal.isFinite_of_isZero h), roundF_of_isZero (isInt_of_isFp hx).1 rm h]

theorem outcome_rounds (hrm : rm < 4) {u : FVal} (hu : u.isFinite = true) {q : ℝ} (hq : (u.rational : ℝ) = q) (h0 : q ≠ 0) :
    RoundsTo x rm q (outcome x rm ⟨u, false⟩) := by
  subst hq
  rw [outcome_of_isFinite hu]
  exact roundF_rounds (isInt_of_isFp hx).1 hrm hu h0

/-- The outcome of a sum of finite values. -/
theorem outcome_add (hrm : rm < 4) {u v : FVal} (hu : u.isFinite = true) (hv : v.isFinite = true) {A B : ℝ}
    (hA : (u.rational : ℝ) = A) (hB : (v.rational : ℝ) = B) :
    (A + B ≠ 0 → RoundsTo x rm (A + B) (outcome x rm ⟨u.add rm v, false⟩))
      ∧ (A + B = 0 → outcome x rm ⟨u.add rm v, false⟩
        = (if (if (u.isZero && v.isZero) && u.neg? == v.neg? then u.neg? else rm == 3) then 2 ^ (widthOf x - 1) else 0, 0)) := by
  subst hA hB
  obtain ⟨hfin, hsum, hzero⟩ := FVal.add_finite rm hu hv
  refine ⟨outcome_rounds hx hrm hfin (by rw [hsum]; push_cast; rfl), fun h0 => ?_⟩
  rw [hzero (by exact_mod_cast h0), outcome_of_isZero hx rfl]
  rfl

end

theorem FVal.isZero_of_rational {u : FVal} (hu : u.isFinite = true) (h : (u.rational : ℝ) = 0) : u.isZero = true :=
  (FVal.rational_eq_zero_iff hu).mp (by exact_mod_cast h)

theorem FVal.not_isZero_of_rational {u : FVal} (h : (u.rational : ℝ) ≠ 0) : u.isZero = false := by
  rw [Bool.eq_false_iff]
  exact fun h0 => h (by rw [FVal.rational_of_isZero h0]; simp)

theorem isFinite_divExact (bits : Nat) {u v : FVal} (hu : u.isFinite = true) (hv : v.isFinite = true) (hv0 : v.isZero = false) :
    (divExact bits u v).v.isFinite = true := by
  obtain ⟨n, m, e, rfl⟩ := FVal.exists_of_isFinite hu
  obtain ⟨n', m', e', rfl⟩ := FVal.exists_of_isFinite hv
  rw [divExact, if_neg (by simpa [FVal.isZero] using hv0)]
  split <;> rfl

theorem isFinite_sqrtExact (bits : Nat) {u : FVal} (hu : u.isFinite = true) (h0 : (0 : ℝ) < u.rational) :
    (sqrtExact bits u).v.isFinite = true := by
  obtain ⟨n, m, e, rfl⟩ := FVal.exists_of_isFinite hu
  rw [FVal.rational_cast] at h0
  cases n with
  | true =>
    have : (0 : ℝ) ≤ m * 2 ^ e := by positivity
    rw [signOf, if_pos rfl] at h0
    linarith
  | false =>
    rw [sqrtExact, if_neg Bool.false_ne_true]
    split <;> rfl

/-! ### Finite operands -/

section
variable {x : XT} (hx : x.isFp = true) {rm : Nat} (hrm : rm < 4) {a b c : Nat} (hu : (decodeF x a).isFinite = true)
include hx hu

theorem fSqrt_finite (hrm : rm < 4) :
    ((0 : ℝ) < (decodeF x a).rational → RoundsTo x rm (Real.sqrt (decodeF x a).rational) (fSqrt x rm a))
      ∧ (((decodeF x a).rational : ℝ) = 0 → fSqrt x rm a = (if (decodeF x a).neg? then 2 ^ (widthOf x - 1) else 0, 0)) := by
  rw [fSqrt_ordered rfl (FVal.isNan_of_isFinite hu)]
  constructor
  · intro hpos
    rw [outcome_of_isFinite (isFinite_sqrtExact _ hu hpos)]
    exact roundF_sqrt (isInt_of_isFp hx).1 hrm hu hpos
  · intro h0
    obtain ⟨n, e, hz⟩ := FVal.exists_of_isZero (FVal.isZero_of_rational hu h0)
    rw [hz]
    exact outcome_of_isZero hx rfl

variable (hv : (decodeF x b).isFinite = true)
include hv hrm

theorem fAdd_finite {A B : ℝ} (hA : ((decodeF x a).rational : ℝ) = A) (hB : ((decodeF x b).rational : ℝ) = B) :
    (A + B ≠ 0 → RoundsTo x rm (A + B) (fAdd x rm a b)) ∧ (A + B = 0 → fAdd x rm a b
      = (if (if ((decodeF x a).isZero && (decodeF x b).isZero) && (decodeF x a).neg? == (decodeF x b).neg?
          then (decodeF x a).neg? else rm == 3) then 2 ^ (widthOf x - 1) else 0, 0)) := by
  rw [fAdd_ordered rfl rfl (FVal.isNan_of_isFinite hu) (FVal.isNan_of_isFinite hv)]
  exact outcome_add hx hrm hu hv hA hB

theorem fSub_finite {A B : ℝ} (hA : ((decodeF x a).rational : ℝ) = A) (hB : ((decodeF x b).rational : ℝ) = B) :
    (A - B ≠ 0 → RoundsTo x rm (A - B) (fSub x rm a b)) ∧ (A - B = 0 → fSub x rm a b
      = (if (if ((decodeF x a).isZero && (decodeF x b).isZero) && (decodeF x a).neg? == (!(decodeF x b).neg?)
          then (decodeF x a).neg? else rm == 3) then 2 ^ (widthOf x - 1) else 0, 0)) := by
  rw [fSub_ordered rfl rfl (FVal.isNan_of_isFinite hu) (FVal.isNan_of_isFinite hv), sub_eq_add_neg]
  have := outcome_add hx hrm hu ((FVal.isFinite_negate _).trans hv) hA (B := -B) (by rw [FVal.rational_negate]; push_cast; rw [hB])
  rwa [FVal.isZero_negate, FVal.neg?_negate hv] at this

theorem fMul_finite {A B : ℝ} (hA : ((decodeF x a).rational : ℝ) = A) (hB : ((decodeF x b).rational : ℝ) = B) :
    (A * B ≠ 0 → RoundsTo x rm (A * B) (fMul x rm a b)) ∧ (A * B = 0 → fMul x rm a b
      = (if (decodeF x a).neg? != (decodeF x b).neg? then 2 ^ (widthOf x - 1) else 0, 0)) := by
  rw [fMul_ordered rfl rfl (FVal.isNan_of_isFinite hu) (FVal.isNan_of_isFinite hv)]
  have hfin := FVal.isFinite_mul hu hv
  have hprod : (((decodeF x a).mul (decodeF x b)).rational : ℝ) = A * B := by
    rw [FVal.rational_mul hu hv, ← hA, ← hB]; push_cast; rfl
  refine ⟨outcome_rounds hx hrm hfin hprod, fun h0 => ?_⟩
  rw [outcome_of_isZero hx (FVal.isZero_of_rational hfin (hprod.trans h0)), FVal.neg?_mul hu hv]

theorem fMa_finite (hw : (decodeF x c).isFinite = true) {A B C : ℝ} (hA : ((decodeF x a).rational : ℝ) = A)
    (hB : ((decodeF x b).rational : ℝ) = B) (hC : ((decodeF x c).rational : ℝ) = C) :
    (A * B + C ≠ 0 → RoundsTo x rm (A * B + C) (fMa x rm a b c)) ∧ (A * B + C = 0 → fMa x rm a b c
      = (if (if (((decodeF x a).isZero || (decodeF x b).isZero) && (decodeF x c).isZero)
            && ((decodeF x a).neg? != (decodeF x b).neg?) == (decodeF x c).neg?
          then (decodeF x a).neg? != (decodeF x b).neg? else rm == 3) then 2 ^ (widthOf x - 1) else 0, 0)) := by
  rw [fMa_ordered rfl rfl rfl (FVal.isNan_of_isFinite hu) (FVal.isNan_of_isFinite hv) (FVal.isNan_of_isFinite hw)]
  have := outcome_add hx hrm (FVal.isFinite_mul hu hv) hw (A := A * B) (by
    rw [FVal.rational_mul hu hv, ← hA, ← hB]; push_cast; rfl) hC
  rwa [FVal.isZero_mul hu hv, FVal.neg?_mul hu hv] at this

theorem fDiv_finite {A B : ℝ} (hA : ((decodeF x a).rational : ℝ) = A) (hB : ((decodeF x b).rational : ℝ) = B) (hB0 : B ≠ 0) :
    (A ≠ 0 → RoundsTo x rm (A / B) (fDiv x rm a b)) ∧ (A = 0 → fDiv x rm a b
      = (if (decodeF x a).neg? != (decodeF x b).neg? then 2 ^ (widthOf x - 1) else 0, 0)) := by
  subst hA hB
  have hv0 := FVal.not_isZero_of_rational hB0
  rw [fDiv_without_dz rfl rfl (FVal.isNan_of_isFinite hu) (FVal.isNan_of_isFinite hv) (by rw [hv0]; rfl)]
  constructor
  · intro hA0
    rw [outcome_of_isFinite (isFinite_divExact _ hu hv hv0)]
    exact roundF_div (isInt_of_isFp hx).1 hrm hu hv (FVal.not_isZero_of_rational hA0) hv0
  · intro hA0
    rw [divExact_zero _ (FVal.isZero_of_rational hu hA0) hv hv0]
    exact outcome_of_isZero hx rfl

end

/-! ### Minimum and maximum -/

section
variable {x : XT} {a b : Nat}

theorem fMinMax_ordered (hu : (decodeF x a).isNan = false) (hv : (decodeF x b).isNan = false) (up : Bool) : fMinMax x up a b
    = (if up then (if (decodeF x a).below (decodeF x b) then b else a) else if (decodeF x b).below (decodeF x a) then b else a, 0) := by
  unfold fMinMax
  simp only [hu, hv, FVal.isSNan_of_not_isNan hu, FVal.isSNan_of_not_isNan hv, Bool.and_self, Bool.or_self, Bool.false_eq_true,
    if_false]
  cases up <;> rfl

/-- The lower of two operands is their minimum, the other their maximum. -/
theorem fMinMax_of_below (hu : (decodeF x a).isNan = false) (hv : (decodeF x b).isNan = false)
    (h : (decodeF x a).below (decodeF x b) = true) (h' : (decodeF x b).below (decodeF x a) = false) :
    fMinMax x false a b = (a, 0) ∧ fMinMax x false b a = (a, 0) ∧ fMinMax x true a b = (b, 0) ∧ fMinMax x true b a = (b, 0) := by
  simp [fMinMax_ordered, hu, hv, h, h']

theorem fMinMax_of_lt (hu : (decodeF x a).isNan = false) (hv : (decodeF x b).isNan = false)
    (h : (decodeF x a).extended < (decodeF x b).extended) :
    fMinMax x false a b = (a, 0) ∧ fMinMax x false b a = (a, 0) ∧ fMinMax x true a b = (b, 0) ∧ fMinMax x true b a = (b, 0) := by
  refine fMinMax_of_below hu hv ((FVal.below_iff hu hv).mpr (.inl h)) ?_
  rw [Bool.eq_false_iff, ne_eq, FVal.below_iff hv hu]
  rintro (h' | ⟨h0, h0', -⟩)
  · exact lt_asymm h h'
  · rw [FVal.extended_of_isZero h0, FVal.extended_of_isZero h0'] at h
    exact lt_irrefl _ h

theorem fMinMax_of_zeros (hu : (decodeF x a).isZero = true) (hv : (decodeF x b).isZero = true)
    (hn : (decodeF x a).neg? = true) (hp : (decodeF x b).neg? = false) :
    fMinMax x false a b = (a, 0) ∧ fMinMax x false b a = (a, 0) ∧ fMinMax x true a b = (b, 0) ∧ fMinMax x true b a = (b, 0) := by
  have hu' := FVal.isNan_of_isFinite (FVal.isFinite_of_isZero hu)
  have hv' := FVal.isNan_of_isFinite (FVal.isFinite_of_isZero hv)
  refine fMinMax_of_below hu' hv' ((FVal.below_iff hu' hv').mpr (.inr ⟨hu, hv, hn, hp⟩)) ?_
  rw [Bool.eq_false_iff, ne_eq, FVal.below_iff hv' hu', FVal.extended_of_isZero hu, FVal.extended_of_isZero hv, hp]
  simp

theorem fMinMax_nan_both (up : Bool) (hu : (decodeF x a).isNan = true) (hv : (decodeF x b).isNan = true) : fMinMax x up a b
    = (canonNan x, if (decodeF x a).isSNan || (decodeF x b).isSNan then 16 else 0) := if_pos (by simp [hu, hv])

/-- Beside one NaN the other operand is taken. -/
theorem fMinMax_nan_one (up : Bool) (hu : (decodeF x a).isNan = true) (hv : (decodeF x b).isNan = false) :
    fMinMax x up a b = (b, if (decodeF x a).isSNan then 16 else 0) ∧ fMinMax x up b a = (b, if (decodeF x a).isSNan then 16 else 0) := by
  simp [fMinMax, hu, hv, FVal.isSNan_of_not_isNan hv, Flag.nv]

end

/-! ### Infinite operands -/

theorem FVal.isNan_of_isFinite_or_inf {v : FVal} {n : Bool} (h : v.isFinite = true ∨ v = .inf n) : v.isNan = false := by
  rcases h with h | rfl
  · exact isNan_of_isFinite h
  · rfl

section
variable {x : XT} (hx : x.isFp = true) {rm a b c : Nat} {n : Bool} (hu : decodeF x a = .inf n)
include hx hu

theorem fAdd_inf (hv : (decodeF x b).isFinite = true ∨ decodeF x b = .inf n) :
    fAdd x rm a b = (topInf x + if n then 2 ^ (widthOf x - 1) else 0, 0)
      ∧ fAdd x rm b a = (topInf x + if n then 2 ^ (widthOf x - 1) else 0, 0) := by
  have hnan := FVal.isNan_of_isFinite_or_inf hv
  rw [fAdd_ordered hu rfl rfl hnan, fAdd_ordered rfl hu hnan rfl, FVal.inf_add rm hv, FVal.add_inf rm hv]
  exact ⟨outcome_inf hx n, outcome_inf hx n⟩

theorem fSub_inf (hv : (decodeF x b).isFinite = true ∨ decodeF x b = .inf (!n)) :
    fSub x rm a b = (topInf x + if n then 2 ^ (widthOf x - 1) else 0, 0)
      ∧ fSub x rm b a = (topInf x + if !n then 2 ^ (widthOf x - 1) else 0, 0) := by
  have hnan := FVal.isNan_of_isFinite_or_inf hv
  have hneg : (decodeF x b).negate.isFinite = true ∨ (decodeF x b).negate = .inf n :=
    hv.imp (FVal.isFinite_negate _).trans fun h => by rw [h, FVal.negate, Bool.not_not]
  rw [fSub_ordered hu rfl rfl hnan, fSub_ordered rfl hu hnan rfl, FVal.inf_add rm hneg, FVal.negate, FVal.add_inf rm hv]
  exact ⟨outcome_inf hx n, outcome_inf hx !n⟩

theorem fMul_inf (hv : (decodeF x b).isNan = false) (hv0 : (decodeF x b).isZero = false) :
    fMul x rm a b = (topInf x + if n != (decodeF x b).neg? then 2 ^ (widthOf x - 1) else 0, 0)
      ∧ fMul x rm b a = (topInf x + if n != (decodeF x b).neg? then 2 ^ (widthOf x - 1) else 0, 0) := by
  rw [fMul_ordered hu rfl rfl hv, fMul_ordered rfl hu hv rfl, FVal.inf_mul hv hv0, FVal.mul_inf hv hv0]
  exact ⟨outcome_inf hx _, outcome_inf hx _⟩

theorem fDiv_inf (hv : (decodeF x b).isFinite = true) :
    fDiv x rm a b = (topInf x + if n != (decodeF x b).neg? then 2 ^ (widthOf x - 1) else 0, 0)
      ∧ fDiv x rm b a = (if n != (decodeF x b).neg? then 2 ^ (widthOf x - 1) else 0, 0) := by
  obtain ⟨n', m, e, hv⟩ := FVal.exists_of_isFinite hv
  rw [fDiv_without_dz hu hv rfl rfl (by simp [FVal.isFinite]), fDiv_without_dz hv hu rfl rfl rfl, hv]
  refine ⟨outcome_inf hx _, ?_⟩
  rw [bne_comm]
  exact outcome_of_isZero hx rfl

theorem fMa_inf (hv : (decodeF x b).isNan = false) (hv0 : (decodeF x b).isZero = false)
    (hw : (decodeF x c).isFinite = true ∨ decodeF x c = .inf (n != (decodeF x b).neg?)) :
    fMa x rm a b c = (topInf x + if n != (decodeF x b).neg? then 2 ^ (widthOf x - 1) else 0, 0)
      ∧ fMa x rm b a c = (topInf x + if n != (decodeF x b).neg? then 2 ^ (widthOf x - 1) else 0, 0) := by
  have hnan := FVal.isNan_of_isFinite_or_inf hw
  rw [fMa_ordered hu rfl rfl rfl hv hnan, fMa_ordered rfl hu rfl hv rfl hnan, FVal.inf_mul hv hv0, FVal.mul_inf hv hv0,
    FVal.inf_add rm hw]
  exact ⟨outcome_inf hx _, outcome_inf hx _⟩

omit hx in
/-- A fused product that is an infinity and an opposite addend are invalid. -/
theorem fMa_invalid (hv : (decodeF x b).isNan = false) (hv0 : (decodeF x b).isZero = false)
    (hw : decodeF x c = .inf (n == (decodeF x b).neg?)) : fMa x rm a b c = (canonNan x, 16) := by
  rw [fMa_ordered hu rfl hw rfl hv rfl, FVal.inf_mul hv hv0,
    show (n == (decodeF x b).neg?) = !(n != (decodeF x b).neg?) by simp [bne], FVal.inf_add_opposite, outcome_nan]

end

theorem fMa_addend_inf {x : XT} (hx : x.isFp = true) {rm a b c : Nat} {n : Bool} (hu : (decodeF x a).isFinite = true)
    (hv : (decodeF x b).isFinite = true) (hw : decodeF x c = .inf n) :
    fMa x rm a b c = (topInf x + if n then 2 ^ (widthOf x - 1) else 0, 0) := by
  rw [fMa_ordered rfl rfl hw (FVal.isNan_of_isFinite hu) (FVal.isNan_of_isFinite hv) rfl,
    FVal.add_inf rm (.inl (FVal.isFinite_mul hu hv))]
  exact outcome_inf hx n

/-! ### Results that the format holds -/

theorem signOf_mul_mag_inj (f : Fmt) {p q : Bool} {m n : Nat} (h : signOf p * f.mag m = signOf q * f.mag n)
    (h0 : signOf p * f.mag m ≠ 0) : p = q ∧ m = n := by
  have habs := congrArg (fun v : ℝ => |v|) h
  simp only [abs_signOf_mul (f.mag_nonneg _)] at habs
  obtain rfl := f.mag_strictMono.injective habs
  refine ⟨?_, rfl⟩
  have hm : f.mag m ≠ 0 := (mul_ne_zero_iff.mp h0).2
  have hsign := mul_right_cancel₀ hm h
  cases p <;> cases q
  case true.true | false.false => rfl
  all_goals norm_num [signOf] at hsign

/-- Finite encodings of one number that is not zero are equal. -/
theorem decodeF_inj {x : XT} (hx : x.isInt = false) {a b : Nat} (ha : a < 2 ^ widthOf x) (hb : b < 2 ^ widthOf x)
    (hu : (decodeF x a).isFinite = true) (hv : (decodeF x b).isFinite = true)
    (h : ((decodeF x a).rational : ℝ) = (decodeF x b).rational) (h0 : ((decodeF x a).rational : ℝ) ≠ 0) : a = b := by
  rw [rational_decodeF hu] at h h0
  rw [rational_decodeF hv] at h
  obtain ⟨hsign, hmag⟩ := signOf_mul_mag_inj _ h h0
  rw [← signed_eq hx ha, ← signed_eq hx hb, hsign, hmag]

theorem Fmt.has_signOf_mag (f : Fmt) (neg : Bool) (c : Nat) : f.has (some (f.emin - f.mb)) (signOf neg * f.mag c) := by
  cases neg with
  | false => simpa [signOf] using f.has_mag c
  | true => simpa [signOf] using f.has_neg (f.has_mag c)

/-- A number that the format holds is rounded to its encoding, with no flag. -/
theorem RoundsTo.exact {x : XT} (hx : x.isInt = false) {rm : Nat} (hrm : rm < 4) {n : Nat} {r : Nat × Flags} {q : ℝ}
    (h : RoundsTo x rm q r) (hn : n < 2 ^ widthOf x) (hu : (decodeF x n).isFinite = true)
    (hq : ((decodeF x n).rational : ℝ) = q) (h0 : q ≠ 0) : r = (n, 0) := by
  obtain ⟨v, u, hv, -, hfits, -⟩ := h
  have hval := rational_decodeF hu
  rw [hq] at hval
  obtain rfl : v = q := hv.unique hrm (Rounded.self hrm (hval ▸ (fmtOf x).has_signOf_mag _ _))
  have hle := (isFinite_decodeF_iff x n).mp hu
  obtain ⟨hlt, hfin, hrat, -, hflags, -⟩ := hfits (by
    rw [rational_topBits, hval, abs_signOf_mul (Fmt.mag_nonneg _ _)]
    exact (Fmt.mag_strictMono _).monotone hle)
  exact Prod.ext (decodeF_inj hx hlt hn hfin hu (hrat.trans hq.symm) (hrat ▸ h0)) (hflags rfl)

end Sys2Proof.Machine

namespace Sys2Proof.Proofs

open Sys2Proof Sys2Proof.Machine Sys2Proof.Claims

theorem arithmeticRoundsTheExactValue : ArithmeticRoundsTheExactValue := by
  intro x rm a b c hx hrm _ _ _ u v w A B C nv zero inf sum
  refine ⟨fun hu hv => ?_, fun hu => fSqrt_finite hx hu hrm, fun n hu hv => fAdd_inf hx hu hv, fun n hu hv => fSub_inf hx hu hv,
    fun n hu hv hv0 => fMul_inf hx hu hv hv0, fun n hu hv => fDiv_inf hx hu hv, fun hu => ?_,
    fun n hu hv hv0 hw => fMa_inf hx hu hv hv0 hw, fun n hu hv hw => fMa_addend_inf hx hu hv hw,
    fun n hu hv hv0 hw => fMa_invalid hu hv hv0 hw, fun up hu hv => fMinMax_nan_both up hu hv,
    fun up hu hv => fMinMax_nan_one up hu hv, fun hu hv h => fMinMax_of_lt hu hv h,
    fun hu hv hn hp => fMinMax_of_zeros hu hv hn hp, fun up hu => ?_⟩
  · obtain ⟨hadd, hadd0⟩ := fAdd_finite hx hrm hu hv (A := A) (B := B) rfl rfl
    obtain ⟨hsub, hsub0⟩ := fSub_finite hx hrm hu hv (A := A) (B := B) rfl rfl
    obtain ⟨hmul, hmul0⟩ := fMul_finite hx hrm hu hv (A := A) (B := B) rfl rfl
    have hdiv (hB : B ≠ 0) := fDiv_finite hx hrm hu hv (A := A) (B := B) rfl rfl hB
    have hma (hw : w.isFinite = true) := fMa_finite hx hrm hu hv hw (A := A) (B := B) (C := C) rfl rfl rfl
    exact ⟨hadd, hsub, hmul, fun hA hB => (hdiv hB).1 hA, fun hw => (hma hw).1, hadd0, hsub0, hmul0,
      fun hA hB => (hdiv hB).2 hA, fun hw => (hma hw).2⟩
  · rw [fSqrt_ordered hu rfl]
    exact outcome_inf hx false
  · rw [fMinMax_ordered hu hu]
    simp

theorem representableResultsAreExact : RepresentableResultsAreExact := by
  intro x rm a b r hx hrm hr hu hv hfin h0
  have hx' := (isInt_of_isFp hx).1
  have hne : ((decodeF x r).rational : ℝ) ≠ 0 := fun h => by simp [FVal.isZero_of_rational hfin h] at h0
  constructor
  · intro h
    have hq : ((decodeF x r).rational : ℝ) = (decodeF x a).rational + (decodeF x b).rational := by exact_mod_cast h
    exact ((fAdd_finite hx hrm hu hv rfl rfl).1 (hq ▸ hne)).exact hx' hrm hr hfin hq (hq ▸ hne)
  · intro h
    have hq : ((decodeF x r).rational : ℝ) = (decodeF x a).rational * (decodeF x b).rational := by exact_mod_cast h
    exact ((fMul_finite hx hrm hu hv rfl rfl).1 (hq ▸ hne)).exact hx' hrm hr hfin hq (hq ▸ hne)

/-- Settles O14: the corners are read off the exact arithmetic, and every other result is one rounding of an exact value. -/
theorem floatCornersAndExactResults : Obligations.FloatCornersAndExactResults :=
  ⟨floatCornersFollowTheRules, arithmeticRoundsTheExactValue, representableResultsAreExact⟩

end Sys2Proof.Proofs
end

section
/-! Conversions between codes (05 R75, R77; 08 R121). -/

namespace Sys2Proof.Machine

/-! ### The operand of a conversion -/

theorem FVal.rational_ofInt (i : Int) : ((FVal.ofInt i).rational : ℝ) = i := by
  have := FVal.rational_fin_natAbs i 0
  rw [zpow_zero, mul_one] at this
  exact_mod_cast this

theorem valueOf_float {fr : XT} (h : fr.isInt = false) (n : Nat) : valueOf fr n = decodeF fr n :=
  if_neg (by rw [isIntCode_eq, h]; decide)

theorem valueOf_int {fr : XT} (h : fr.isInt = true) (n : Nat) : valueOf fr n = FVal.ofInt
    (if fr.isSigned ∧ ¬ n % 2 ^ widthOf fr < 2 ^ (widthOf fr - 1) then ((n % 2 ^ widthOf fr : Nat) : Int) - 2 ^ widthOf fr
      else (n % 2 ^ widthOf fr : Nat)) := by
  refine (if_pos ((isIntCode_eq fr).trans h)).trans ?_
  cases fr with
  | i64 | i32 | i16 | i8 =>
    refine congrArg FVal.ofInt ?_
    simp only [XT.isSigned, true_and, ite_not]
    exact if_congr Iff.rfl rfl (by norm_num [xwidth, widthOf])
  | z64 | z32 | z16 | z8 => rfl
  | _ => nomatch h

theorem intRange_eq {x : XT} (h : x.isInt = true) : intRange x = (if x.isSigned then -2 ^ (widthOf x - 1) else 0,
    if x.isSigned then 2 ^ (widthOf x - 1) - 1 else 2 ^ widthOf x - 1) := by
  cases x with
  | i64 | i32 | i16 | i8 | z64 | z32 | z16 | z8 => rfl
  | _ => nomatch h

/-! ### Conversions to the integers -/

/-- The integer that `roundInt` takes is the rounding of the number on the integers, and it tells whether they differ. -/
theorem roundInt_spec {rm : Nat} (hrm : rm < 4) (neg : Bool) (m : Nat) (e : Int) :
    Rounded rm (fun g => ∃ j : ℤ, g = j) (signOf neg * (m * 2 ^ e)) (roundInt rm neg m e false).1
      ∧ ((roundInt rm neg m e false).2 = true ↔ ((roundInt rm neg m e false).1 : ℝ) ≠ signOf neg * (m * 2 ^ e)) := by
  obtain ⟨r, t, ht0, ht1, hq, heq⟩ := roundUnits_spec rm neg (m := m) (e := e) (Q := 0) (sticky := false) le_rfl one_pos
    (by simp) (by simp)
  rw [add_zero, zpow_zero] at hq
  have hint : ((roundInt rm neg m e false).1 : ℝ) = signOf neg * ((roundUnits rm neg m e 0 false).1 * 1) := by
    show ((if neg then -((roundUnits rm neg m e 0 false).1 : ℤ) else (roundUnits rm neg m e 0 false).1 : ℤ) : ℝ) = _
    cases neg <;> simp [signOf]
  have hix : (roundInt rm neg m e false).2 = (roundUnits rm neg m e 0 false).2 := rfl
  rw [hint, hix, hq, heq]
  refine ⟨(neighbours_int r).rounded ht0 ht1 hrm neg, ?_⟩
  exact roundedUnits_ne_iff one_pos ht1

/-- A finite value converted to a range of integers: the rounded integer, or the end of the range beyond which it lies. -/
theorem toIntRange_finite {rm : Nat} (hrm : rm < 4) (low high : Int) {u : FVal} (hu : u.isFinite = true) {m : Int}
    (h : Rounded rm (fun g => ∃ j : ℤ, g = j) (u.rational : ℝ) m) :
    toIntRange rm low high ⟨u, false⟩ = if m < low then (low, 16) else if high < m then (high, 16)
      else (m, if (m : ℝ) = u.rational then 0 else 1) := by
  obtain ⟨n, k, e, rfl⟩ := FVal.exists_of_isFinite hu
  obtain ⟨hr, hix⟩ := roundInt_spec hrm n k e
  rw [FVal.rational_cast] at h ⊢
  have hm : (roundInt rm n k e false).1 = m := by exact_mod_cast hr.unique hrm h
  rw [hm] at hix
  have hflag : (if (roundInt rm n k e false).2 then Flag.nx else 0) = if (m : ℝ) = signOf n * (k * 2 ^ e) then (0 : Flags) else 1 := by
    rw [if_congr hix rfl rfl, ite_not]
    rfl
  show (if (roundInt rm n k e false).1 < low then (low, Flag.nv) else if high < (roundInt rm n k e false).1 then (high, Flag.nv)
    else ((roundInt rm n k e false).1, if (roundInt rm n k e false).2 then Flag.nx else 0)) = _
  rw [hm, hflag]
  rfl

/-! ### NaNs -/

theorem roundF_nan (x : XT) (rm : Nat) {v : FVal} (h : v.isNan = true) :
    roundF x rm ⟨v, false⟩ = (canonNan x, if v.isSNan then 16 else 0) := by
  cases v with
  | nan s => rfl
  | inf _ => nomatch h
  | fin _ _ _ => nomatch h

theorem toIntRange_nan (rm : Nat) (low high : Int) {v : FVal} (h : v.isNan = true) :
    toIntRange rm low high ⟨v, false⟩ = (0, 16) := by
  cases v with
  | nan s => rfl
  | inf _ => nomatch h
  | fin _ _ _ => nomatch h

/-! ### `convertElem` -/

section
variable {x fr : XT} {rm n : Nat}

theorem convertElem_float (hx : x.isInt = false) {v : FVal} (hv : valueOf fr n = v) (h : x ≠ fr ∨ v.isNan = true) :
    convertElem x fr rm n = roundF x rm ⟨v, false⟩ := by
  subst hv
  have hnot : ¬ ((decide (x = fr) && !isIntCode x && !(valueOf fr n).isNan) = true) := by
    rcases h with h | h <;> simp [h]
  have hcode : ¬ isIntCode x = true := by rw [isIntCode_eq, hx]; decide
  exact (if_neg hnot).trans (if_neg hcode)

/-- An equal float code leaves an operand that is no NaN. -/
theorem convertElem_same (hx : x.isInt = false) (hv : (decodeF x n).isNan = false) :
    convertElem x x rm n = (n % 2 ^ widthOf x, 0) := by
  rw [← xwidth_eq]
  exact if_pos (by rw [isIntCode_eq, valueOf_float hx, hv, hx]; simp)

/-- A conversion to an integer code takes the integer of the code's range. -/
theorem convertElem_int (hx : x.isInt = true) (hfr : fr.isInt = false) {low high : Int}
    (hlow : low = if x.isSigned then -2 ^ (widthOf x - 1) else 0)
    (hhigh : high = if x.isSigned then 2 ^ (widthOf x - 1) - 1 else 2 ^ widthOf x - 1) : convertElem x fr rm n
      = (((toIntRange rm low high ⟨decodeF fr n, false⟩).1 % 2 ^ widthOf x).toNat, (toIntRange rm low high ⟨decodeF fr n, false⟩).2) := by
  subst hlow hhigh
  have hcode : isIntCode x = true := (isIntCode_eq x).trans hx
  refine (if_neg (by simp [hcode])).trans ((if_pos hcode).trans ?_)
  rw [intRange_eq hx, valueOf_float hfr, xwidth_eq]
  push_cast
  rfl

end

/-- The range of an integer code is not empty. -/
theorem low_le_high (x : XT) : (if x.isSigned then -2 ^ (widthOf x - 1) else 0 : ℤ)
    ≤ if x.isSigned then 2 ^ (widthOf x - 1) - 1 else 2 ^ widthOf x - 1 := by
  have h1 : (0 : ℤ) < 2 ^ (widthOf x - 1) := by positivity
  have h2 : (0 : ℤ) < 2 ^ widthOf x := by positivity
  split <;> omega

end Sys2Proof.Machine
end

section
/-! The split of an FP32 value into three BF16 parts (05 R80). -/

namespace Sys2Proof.Machine

/-! ### How far a rounding moves a number -/

/-- A number no greater than a value of the grid is rounded to one no greater. -/
theorem Rounded.abs_le_of_abs_le {grid : ℝ → Prop} {q v g : ℝ} (h : Rounded 0 grid q v) (hg : grid g) (hg' : grid (-g))
    (hq : |q| ≤ g) : |v| ≤ g := by
  obtain ⟨-, hmin⟩ := rounded_nearest.mp h
  obtain ⟨hlow, hhigh⟩ := abs_le.mp hq
  have h1 := (hmin g hg).1
  have h2 := (hmin (-g) hg').1
  rw [abs_of_nonpos (show q - g ≤ 0 by linarith)] at h1
  rw [abs_of_nonneg (show 0 ≤ q - -g by linarith)] at h2
  exact abs_le.mpr ⟨by linarith [le_abs_self (q - v)], by linarith [neg_abs_le (q - v)]⟩

theorem Fmt.has_zero (f : Fmt) : f.has (some (f.emin - f.mb)) 0 := f.mag_zero ▸ f.has_mag 0

/-- The largest finite BF16 value. -/
noncomputable def topBf16 : ℝ := (fmtOf .bf16).mag (topBits .bf16)

theorem topBf16_eq : topBf16 = 255 * 2 ^ (120 : ℤ) := by
  have := (fmtOf .bf16).mag_eq (E := 254) (r := 255) (by decide) (by decide) (.inr (by decide))
  norm_num [fmtOf, Fmt.bias] at this
  norm_num [topBf16, topBits, fmtOf, this]

/-- Every finite FP32 value lies within twice the largest finite BF16 value. -/
theorem abs_fv32_le {l : Lane} (h : (fv32 l).isFinite = true) : |((fv32 l).rational : ℝ)| ≤ 2 * topBf16 := by
  have htop : (fmtOf .f32).mag (topBits .f32) = 16777215 * 2 ^ (104 : ℤ) := by
    have := (fmtOf .f32).mag_eq (E := 254) (r := 16777215) (by decide) (by decide) (.inr (by decide))
    norm_num [fmtOf, Fmt.bias] at this
    norm_num [topBits, fmtOf, this]
  unfold fv32 at *
  rw [rational_decodeF h, abs_signOf_mul (Fmt.mag_nonneg _ _)]
  calc _ ≤ (fmtOf .f32).mag (topBits .f32) := (Fmt.mag_strictMono _).monotone ((isFinite_decodeF_iff _ _).mp h)
    _ ≤ 2 * topBf16 := by rw [htop, topBf16_eq]; norm_num

/-! ### One part -/

theorem FVal.neg?_iff {u : FVal} (hu : u.isFinite = true) (h0 : (u.rational : ℝ) ≠ 0) :
    u.neg? = true ↔ (u.rational : ℝ) < 0 := by
  obtain ⟨n, m, e, rfl⟩ := FVal.exists_of_isFinite hu
  rw [rational_cast] at h0 ⊢
  have hne : (m : ℝ) * 2 ^ e ≠ 0 := (mul_ne_zero_iff.mp h0).2
  exact (signOf_mul_neg_iff (lt_of_le_of_ne (by positivity) hne.symm)).symm

/-- The BF16 rounding of a finite value, to the nearest. -/
def toBf16 (u : FVal) : Nat × Flags := roundF .bf16 0 ⟨u, false⟩

theorem toBf16_rounds {u : FVal} (hu : u.isFinite = true) (h0 : (u.rational : ℝ) ≠ 0) : RoundsTo .bf16 0 u.rational (toBf16 u) :=
  roundF_rounds rfl (by decide) hu h0

/-- A value within the range of BF16 is rounded within it, and no further than its own magnitude. -/
theorem toBf16_within {u : FVal} (hu : u.isFinite = true) (h : |(u.rational : ℝ)| ≤ topBf16) :
    (decodeF .bf16 (toBf16 u).1).isFinite = true
      ∧ |(u.rational : ℝ) - (decodeF .bf16 (toBf16 u).1).rational| ≤ |(u.rational : ℝ)| ∧ (toBf16 u).2 &&& 3 = (toBf16 u).2 := by
  by_cases h0 : (u.rational : ℝ) = 0
  · obtain ⟨n, e, rfl⟩ := FVal.exists_of_isZero (FVal.isZero_of_rational hu h0)
    have hz : toBf16 (.fin n 0 e) = (signed .bf16 n 0, 0) := by cases n <;> rfl
    rw [hz, rational_signed (Nat.zero_le _), Fmt.mag_zero, mul_zero, sub_zero]
    exact ⟨isFinite_signed (Nat.zero_le _), le_rfl, BitVec.zero_and⟩
  · obtain ⟨v, w, hv, -, hfits, -⟩ := toBf16_rounds hu h0
    have hle := hv.abs_le_of_abs_le ((fmtOf .bf16).has_mag (topBits .bf16)) ((fmtOf .bf16).has_neg ((fmtOf .bf16).has_mag _)) h
    obtain ⟨-, hfin, hval, -, hexact, hinexact⟩ := hfits (by rwa [rational_topBits])
    refine ⟨hfin, ?_, ?_⟩
    · rw [hval]
      simpa using ((rounded_nearest.mp hv).2 0 (Fmt.has_zero _)).1
    · by_cases hvq : v = u.rational
      · rw [hexact hvq]; rfl
      · rcases lt_or_ge |w| ((2 : ℝ) ^ (fmtOf .bf16).emin) with hlt | hge
        · rw [(hinexact hvq).1 hlt]; rfl
        · rw [(hinexact hvq).2 hge]; rfl

/-! ### The first part -/

/-- The first part: the rounding, clamped to the largest finite value. -/
def splitHigh (u : FVal) : Nat :=
  if (decodeF .bf16 (toBf16 u).1).isInf then 0x7F7F + b2n u.neg? * 2 ^ 15 else (toBf16 u).1

/-- A number between the largest finite value and twice that lies no further from it than its magnitude. -/
theorem abs_sub_top_le {q top : ℝ} {neg : Bool} (hneg : neg = true ↔ q < 0) (hgt : top < |q|) (hle : |q| ≤ 2 * top) :
    |q - signOf neg * top| ≤ top := by
  cases neg with
  | true =>
    rw [abs_of_neg (hneg.mp rfl)] at hgt hle
    rw [signOf, if_pos rfl]
    exact abs_le.mpr ⟨by linarith, by linarith⟩
  | false =>
    rw [abs_of_nonneg (not_lt.mp fun h => Bool.false_ne_true (hneg.mpr h))] at hgt hle
    rw [signOf, if_neg Bool.false_ne_true]
    exact abs_le.mpr ⟨by linarith, by linarith⟩

theorem splitHigh_spec {u : FVal} (hu : u.isFinite = true) (h0 : (u.rational : ℝ) ≠ 0) (h : |(u.rational : ℝ)| ≤ 2 * topBf16) :
    (decodeF .bf16 (splitHigh u)).isFinite = true ∧ |(u.rational : ℝ) - (decodeF .bf16 (splitHigh u)).rational| ≤ topBf16
      ∧ splitHigh u = if (toBf16 u).1 % 2 ^ 15 = 0x7F80 then 0x7F7F + (if u.neg? then 2 ^ 15 else 0) else (toBf16 u).1 := by
  obtain ⟨v, w, hv, -, hfits, hover⟩ := toBf16_rounds hu h0
  rw [rational_topBits] at hfits hover
  have htop := topBf16_eq ▸ (by positivity : (0 : ℝ) < 255 * 2 ^ (120 : ℤ))
  have hgrid := (fmtOf .bf16).has_mag (topBits .bf16)
  have hgrid' := (fmtOf .bf16).has_neg hgrid
  unfold splitHigh
  rcases le_or_gt |v| topBf16 with hle | hgt
  · -- the rounding is finite and stands
    obtain ⟨hlt, hfin, hval, -⟩ := hfits hle
    have hnot : (toBf16 u).1 % 2 ^ 15 ≠ 0x7F80 := by
      have : (toBf16 u).1 % 2 ^ 15 ≤ 0x7F7F := (isFinite_decodeF_iff .bf16 _).mp hfin
      omega
    rw [if_neg (by rw [FVal.isInf_of_isFinite hfin]; decide), if_neg hnot, hval]
    refine ⟨hfin, ?_, rfl⟩
    rcases le_or_gt |(u.rational : ℝ)| topBf16 with hin | hbeyond
    · exact ((rounded_nearest.mp hv).2 0 (Fmt.has_zero _)).1.trans (by simpa using hin)
    · exact ((rounded_nearest.mp hv).2 _ (Fmt.has_signOf_mag _ u.neg? (topBits .bf16))).1.trans
        (abs_sub_top_le (u.neg?_iff hu h0) hbeyond h)
  · -- it overflows, so the number lies beyond the largest finite value
    have hbeyond : topBf16 < |(u.rational : ℝ)| := by
      by_contra hc
      exact absurd (hv.abs_le_of_abs_le hgrid hgrid' (not_lt.mp hc)) (not_le.mpr hgt)
    obtain ⟨-, hpos, hneg⟩ := hover hgt
    have hbits : (toBf16 u).1 = signed .bf16 u.neg? 0x7F80 := by
      cases hn : u.neg? with
      | true => exact hneg ((u.neg?_iff hu h0).mp hn)
      | false =>
        refine hpos (lt_of_le_of_ne (not_lt.mp fun hlt => ?_) h0.symm)
        rw [(u.neg?_iff hu h0).mpr hlt] at hn
        nomatch hn
    have hinf : (decodeF .bf16 (signed .bf16 u.neg? 0x7F80)).isInf = true ∧ signed .bf16 u.neg? 0x7F80 % 2 ^ 15 = 0x7F80 := by
      cases u.neg? <;> decide
    have hclamp : 0x7F7F + b2n u.neg? * 2 ^ 15 = signed .bf16 u.neg? (topBits .bf16) := by cases u.neg? <;> rfl
    rw [hbits, if_pos hinf.1, if_pos hinf.2, hclamp, rational_signed le_rfl]
    refine ⟨isFinite_signed le_rfl, abs_sub_top_le (u.neg?_iff hu h0) hbeyond h, ?_⟩
    rw [← hclamp]
    cases u.neg? <;> rfl

/-! ### The parts that are left -/

/-- What a part leaves of a value. -/
def remainder (u : FVal) (n : Nat) : FVal := u.add 0 (decodeF .bf16 n).negate

section
variable {u : FVal} {n : Nat} (hu : u.isFinite = true) (hn : (decodeF .bf16 n).isFinite = true)
include hu hn

theorem remainder_finite : (remainder u n).isFinite = true
    ∧ ((remainder u n).rational : ℝ) = u.rational - (decodeF .bf16 n).rational := by
  obtain ⟨hfin, hsum, -⟩ := FVal.add_finite 0 hu ((FVal.isFinite_negate (decodeF .bf16 n)).trans hn)
  refine ⟨hfin, ?_⟩
  rw [remainder, hsum, FVal.rational_negate]
  push_cast
  ring

/-- Nothing left is a zero without a sign. -/
theorem remainder_zero (h : u.isZero = true → u.neg? = false) (h0 : ((remainder u n).rational : ℝ) = 0) :
    remainder u n = .fin false 0 0 := by
  obtain ⟨-, hsum, hzero⟩ := FVal.add_finite 0 hu ((FVal.isFinite_negate (decodeF .bf16 n)).trans hn)
  refine (hzero (by rw [← hsum]; exact_mod_cast h0)).trans ?_
  cases hz : u.isZero with
  | false => rfl
  | true => rw [h hz]; split <;> rfl

end

theorem splitLane_nan {l : Lane} (h : (fv32 l).isNan = true) :
    splitLane l = ((0x7FC0, 0, 0), if (fv32 l).isSNan then 16 else 0) := by
  unfold splitLane
  cases hv : fv32 l with
  | nan s => rfl
  | inf _ | fin _ _ _ => rw [hv] at h; nomatch h

theorem splitLane_inf {l : Lane} {s : Bool} (h : fv32 l = .inf s) :
    splitLane l = ((0x7F80 + if s then 2 ^ 15 else 0, 0, 0), 0) := by
  unfold splitLane
  rw [h]
  cases s <;> rfl

theorem splitLane_zero {l : Lane} (h : (fv32 l).isZero = true) :
    splitLane l = ((if (fv32 l).neg? then 2 ^ 15 else 0, 0, 0), 0) := by
  have hval := rational_decodeF (FVal.isFinite_of_isZero h)
  rw [show ((decodeF .f32 l.toNat).rational : ℝ) = 0 by exact_mod_cast FVal.rational_of_isZero h] at hval
  have hmag : l.toNat % 2 ^ 31 = 0 := by
    have hsign (neg : Bool) : signOf neg ≠ 0 := by cases neg <;> norm_num [signOf]
    exact (Fmt.mag_eq_zero_iff _).mp ((mul_eq_zero.mp hval.symm).resolve_left (hsign _))
  have hl : l = 0 ∨ l = 0x80000000 := by bv_omega
  rcases hl with rfl | rfl <;> decide

theorem splitLane_finite {l : Lane} (h : (fv32 l).isFinite = true) :
    let hi := splitHigh (fv32 l)
    let mid := (toBf16 (remainder (fv32 l) hi)).1
    let lo := toBf16 (remainder (remainder (fv32 l) hi) mid)
    splitLane l = ((hi, mid, lo.1), lo.2 &&& 3) := by
  obtain ⟨n, m, e, hv⟩ := FVal.exists_of_isFinite h
  unfold splitLane
  rw [hv]
  rfl

/-- A part is nothing where nothing is left, else the rounding of what is left. -/
theorem toBf16_part {u : FVal} (hu : u.isFinite = true) (hzero : (u.rational : ℝ) = 0 → u = .fin false 0 0) :
    ((u.rational : ℝ) = 0 → toBf16 u = (0, 0)) ∧ ((u.rational : ℝ) ≠ 0 → RoundsTo .bf16 0 u.rational (toBf16 u)) :=
  ⟨fun h => by rw [hzero h]; rfl, toBf16_rounds hu⟩

end Sys2Proof.Machine

namespace Sys2Proof.Proofs

open Sys2Proof Sys2Proof.Machine Sys2Proof.Claims

theorem conversionsTakeTheirValues : ConversionsTakeTheirValues := by
  constructor
  case left =>
    intro x fr rm n hrm hne w k v i q low high r
    have hfloat (h : fr.isInt = false) : valueOf fr n = v ∧ q = v.rational := ⟨valueOf_float h n, if_neg (by rw [h]; decide)⟩
    have hint (h : fr.isInt = true) : valueOf fr n = FVal.ofInt i ∧ q = (FVal.ofInt i).rational :=
      ⟨valueOf_int h n, by rw [FVal.rational_ofInt]; exact if_pos h⟩
    have hfr (h : x.isInt = true) : fr.isInt = false := by
      rw [Bool.eq_false_iff]; exact fun h' => hne ⟨h, h'⟩
    have hr (h : x.isInt = true) := convertElem_int (rm := rm) (n := n) h (hfr h) (low := low) (high := high) rfl rfl
    refine ⟨fun hx hxf hv hq => ?_, fun hx hf hq => ?_, fun hx hf hxf hv => ?_, fun hx hf hxf s hv => ?_, fun hx hf hv => ?_,
      fun hx hf hv => ?_, fun hx hv m hm => ?_, fun hx s hv => ?_, fun hx hv => ?_⟩
    · obtain ⟨u, hu, hfin, hqu⟩ : ∃ u, valueOf fr n = u ∧ u.isFinite = true ∧ q = u.rational := by
        cases hf : fr.isInt with
        | true => exact ⟨_, (hint hf).1, rfl, (hint hf).2⟩
        | false => exact ⟨v, (hfloat hf).1, hv.resolve_left (by simp [hf]), (hfloat hf).2⟩
      rw [show r = roundF x rm ⟨u, false⟩ from convertElem_float hx hu (.inl hxf), hqu]
      exact roundF_rounds hx hrm hfin (hqu ▸ hq)
    · have hi : i = 0 := by
        rw [(hint hf).2, FVal.rational_ofInt] at hq
        exact_mod_cast hq
      have hr := convertElem_float (rm := rm) hx (hint hf).1 (.inl (by rintro rfl; simp [hx] at hf))
      rw [hi] at hr
      exact hr.trans (roundF_zero hx rm false 0)
    · exact (convertElem_float hx (hfloat hf).1 (.inl hxf)).trans (roundF_of_isZero hx rm hv)
    · refine (convertElem_float hx ((hfloat hf).1.trans hv) (.inl hxf)).trans ?_
      split
      · next h => subst h; rfl
      · next h => exact roundF_inf hx h rm s
    · exact (convertElem_float hx (hfloat hf).1 (.inr hv)).trans (roundF_nan x rm hv)
    · subst hf
      exact convertElem_same hx hv
    · rw [(hfloat (hfr hx)).2] at hm ⊢
      have := toIntRange_finite hrm low high hv hm
      have hlh : low ≤ high := low_le_high x
      rw [show r = _ from hr hx, this]
      refine ⟨fun hlow => by rw [if_pos hlow], fun hhigh => by rw [if_neg (by omega), if_pos hhigh], fun hlow hhigh => ?_⟩
      rw [if_neg (by omega), if_neg (by omega)]
      exact ⟨fun h => by rw [if_pos h], fun h => by rw [if_neg h]⟩
    · rw [show r = _ from hr hx, show decodeF fr n = _ from hv]
      rfl
    · rw [show r = _ from hr hx, toIntRange_nan rm low high hv]
      exact Prod.ext (by simp) rfl
  case right =>
    intro l v r val part
    refine ⟨fun hv => ?_, fun s hv => ?_, fun hv => ?_, fun hv hv0 => ?_⟩
    · exact splitLane_nan hv
    · exact splitLane_inf hv
    · exact splitLane_zero hv
    · have hq : (v.rational : ℝ) ≠ 0 := fun h => by simp [FVal.isZero_of_rational hv h] at hv0
      obtain ⟨hhi, hd1, heq⟩ := splitHigh_spec hv hq (abs_fv32_le hv)
      obtain ⟨hf1, hr1⟩ := remainder_finite hv hhi
      have hz1 := remainder_zero hv hhi fun h => by rw [h] at hv0; nomatch hv0
      rw [← hr1] at hd1
      obtain ⟨hmid, hd2, -⟩ := toBf16_within hf1 hd1
      obtain ⟨hf2, hr2⟩ := remainder_finite hf1 hmid
      have hz2 := remainder_zero hf1 hmid fun h => by
        rw [hz1 (by exact_mod_cast FVal.rational_of_isZero h)]; rfl
      rw [← hr2] at hd2
      obtain ⟨-, -, hflags⟩ := toBf16_within hf2 (hd2.trans hd1)
      have hr := splitLane_finite hv
      dsimp only at hr
      rw [hflags] at hr
      obtain ⟨hmid0, hmid1⟩ := toBf16_part hf1 hz1
      obtain ⟨hlo0, hlo1⟩ := toBf16_part hf2 hz2
      rw [hr1] at hmid0 hmid1 hr2
      rw [hr2] at hlo0 hlo1
      have hparts : r = _ := hr
      dsimp only
      rw [hparts]
      exact ⟨⟨_, _, toBf16_rounds hv hq, heq⟩, ⟨fun h => by rw [hmid0 h], fun h => ⟨_, hmid1 h⟩⟩,
        ⟨fun h => by rw [hlo0 h], fun h => ⟨_, hlo1 h⟩⟩, fun h => by rw [hlo0 h], hlo1⟩

/-- Settles O15: a conversion is one rounding of its operand, and each part of a split one of what the parts before it leave. -/
theorem floatConversionsSignsAndClasses : Obligations.FloatConversionsSignsAndClasses :=
  ⟨scalarConversionsSignsAndClasses, conversionsTakeTheirValues⟩

end Sys2Proof.Proofs
end

section
/-! Requests (10 R141, R347): what becomes of the first request of an instruction that has sent nothing yet, and the checks of
loads and stores before it. -/

namespace Sys2Proof.Machine

open Sys2Proof.Claims

/-! ### Instructions that have sent nothing -/

theorem Seq.begun_eq_false_iff {c : Seq} : c.begun = false ↔ c.out = none ∧ c.kept = [] := by
  simp [Seq.begun]

theorem State.begins.not_begun {s : State} (h : s.begins) : s.seq.begun = false := by
  obtain ⟨-, hkept, -, hout, -⟩ := h
  exact Seq.begun_eq_false_iff.mpr ⟨hout, hkept⟩

theorem State.begins.shut {s : State} (h : s.begins) : s.seq.shut = false := by
  obtain ⟨-, -, -, -, -, hpassed, -⟩ := h
  rw [Seq.shut, hpassed]; rfl

section
variable {s : State} (h : s.seq.begun = false)
include h

/-- The first request of an instruction is sent; its answer comes at once, or it is waited for. -/
theorem access_answered {a : State → Access} {u : State} {ans : Answer} (latch : Option Word)
    (hs : s.nextNumber.send (a s) s.slowTurn = .answered u ans) :
    access a latch s = takeAnswer (latch.or s.seq.latch) ans (answered u ans) := by
  obtain ⟨hout, hkept⟩ := Seq.begun_eq_false_iff.mp h
  simp only [access, hout, hkept, List.getElem?_nil, Option.isSome_none, Bool.false_eq_true, if_false, hs]
  rfl

theorem access_waits {a : State → Access} {u : State} (latch : Option Word)
    (hs : s.nextNumber.send (a s) s.slowTurn = .waits u) : access a latch s
      = .error (waitAnswer (u.modSeq fun c => { c with out := some (a s).num, latch := latch.or c.latch })) := by
  obtain ⟨hout, hkept⟩ := Seq.begun_eq_false_iff.mp h
  simp only [access, hout, hkept, List.getElem?_nil, Option.isSome_none, Bool.false_eq_true, if_false, hs]

/-- A source of an instruction that has sent nothing is read or popped. -/
theorem srcOnce_eq_src (hl : s.seq.latch = none) (o : Opnd) : srcOnce o s = src o s := by
  simp only [srcOnce, hl, h, Bool.false_eq_true, if_false]

end

/-- What a source leaves of the state: the current sequencer, its registers and its instruction in progress. -/
theorem pushLink_cur_seq {east : Bool} {v : Word} {s t : State} {u : Unit} (h : pushLink east v s = .ok (u, t)) :
    t.cur = s.cur ∧ t.seq = s.seq := by
  unfold pushLink at h
  split at h
  · cases h
  · dsimp only at h
    generalize (if east = true then _ else _ : List Word) = far at h
    split at h
    · cases h
    · cases h
      refine ⟨rfl, ?_⟩
      simp only [State.seq, State.seqAt, State.strand, State.modCore_cur, State.core_modCore]
      split
      · next he => rw [he]; split <;> rfl
      · rfl

theorem popLink_cur_seq {east : Bool} {v : Word} {s t : State} (h : popLink east s = .ok (v, t)) :
    t.cur = s.cur ∧ t.seq = s.seq := by
  have hpop (ws : List Word) : (s.modMe fun c => c.setBuffer east ws).seq = s.seq := by
    simp only [State.modMe, State.seq, State.seqAt, State.strand, State.modCore_cur, State.core_modCore, if_pos]
    cases east <;> rfl
  cases hn : s.neighbour s.cur.1 east with
  | none => rw [popLink_unjoined hn] at h; cases h
  | some q =>
    cases hb : s.me.buffer east with
    | nil =>
      rw [Core.buffer] at hb
      simp only [popLink, hn, hb] at h
      cases h
    | cons w ws =>
      rw [popLink_pops hn hb] at h
      dsimp only at h
      split at h
      · cases hp : pushLink (!east) w (s.modMe fun c => c.setBuffer east ws) with
        | error e => rw [hp] at h; cases h
        | ok r =>
          rw [hp] at h
          cases h
          obtain ⟨hcur, hseq⟩ := pushLink_cur_seq hp
          exact ⟨hcur, hseq.trans (hpop ws)⟩
      · cases h
        exact ⟨rfl, hpop ws⟩

/-- What a source leaves of the state: the current sequencer, its registers and its instruction in progress. -/
theorem src_cur_seq {o : Opnd} {v : Word} {s t : State} (h : src o s = .ok (v, t)) : t.cur = s.cur ∧ t.seq = s.seq := by
  cases o with
  | reg r => cases h; exact ⟨rfl, rfl⟩
  | lq i =>
    replace h : popLq i s = .ok (v, t) := h
    unfold popLq at h
    split at h
    · split at h <;> cases h
    · cases h
      exact ⟨rfl, (s.seq_modMy _).trans (Strand.seq_eq_of rfl rfl)⟩
    all_goals cases h
  | nE => exact popLink_cur_seq h
  | nW => exact popLink_cur_seq h

/-! ### Addresses and their checks (10 R141) -/

theorem memAddress_run (a c : Reg) (disp : BitVec 10) (n : Nat) (s : State) :
    memAddress a c disp n s = .ok (address s a c disp n, s) := by
  have heq : s.seq.readS a + s.seq.readS c * BitVec.ofNat 64 n + disp.signExtend 64 * BitVec.ofNat 64 n
      = BitVec.ofInt 64 (((s.seq.readS a).toNat + (s.seq.readS c).toNat * n : Nat) + disp.toInt * n) := by
    rw [Nat.cast_add, Nat.cast_mul, BitVec.ofInt_add, BitVec.ofInt_add, BitVec.ofInt_mul, BitVec.ofInt_mul,
      BitVec.ofInt_natCast, BitVec.ofInt_natCast, BitVec.ofInt_natCast, BitVec.ofNat_toNat, BitVec.ofNat_toNat,
      BitVec.setWidth_eq, BitVec.setWidth_eq]
    rfl
  show Except.ok _ = _
  rw [heq, BitVec.toNat_ofInt]
  rfl

section
variable {s : State} {sp : Space} {addr n align : Nat} {kind : AccKind}

theorem check_misaligned (h : addr % align ≠ 0) :
    check sp addr n align kind s = .error (.trap .misalignedData (some (BitVec.ofNat 64 addr)) .none) := by
  rw [check, if_pos h]; rfl

theorem check_refused (h : addr % align = 0) {e : Cause} {v : Nat} (hl : s.locate sp addr n kind = .error (e, v)) :
    check sp addr n align kind s = .error (.trap e (some (BitVec.ofNat 64 v)) .none) := by
  simp only [check, h, ne_eq, not_true_eq_false, if_false, hl]; rfl

theorem check_passes (h : addr % align = 0) {l : Loc} (hl : s.locate sp addr n kind = .ok l) :
    check sp addr n align kind s = .ok (l, s) := by
  simp only [check, h, ne_eq, not_true_eq_false, if_false, hl]

end

/-! ### Loads and stores as their bodies -/

/-- Stores: onto sq the XS alone. -/
theorem Performs.store {s : State} {i : Instr} {g : Guard} {sq : Bool} {b : Opnd} {body : M Next}
    (hd : i.demands = some ⟨.bit g, if sq then some .xs else none, .user, 0, [b], []⟩)
    (he : exec i s = performWith i.len (storeNeed sq b) (s.seq.passes g) body s) : Performs s i body :=
  ⟨fun hm => he.trans ((Fits.store s g sq b).performs hd hm _ _)⟩

theorem performs_loadOf (s : State) (sp : Space) (g : Guard) (x : XT) (d : Opnd) (a c : Reg) (disp : BitVec 10) :
    Performs s (loadOf sp g x d a c disp) (loadBody sp x d a c disp) := by
  cases sp <;> exact .ops rfl rfl

theorem performs_storeOf (s : State) (sp : Space) (sq : Bool) (g : Guard) (x : XT) (a : Reg) (b : Opnd) (c : Reg)
    (disp : BitVec 10) : Performs s (storeOf sp sq g x a b c disp) (storeBody sp x sq a b c disp) := by
  cases sp <;> exact .store rfl rfl

/-- What a load does once its address has passed its checks. -/
def loadFrom (sp : Space) (x : XT) (d : Opnd) (addr : Nat) (l : Loc) : M Next :=
  match d with
  | .lq i => do
    loadQueue i ⟨sp, addr, x⟩ l
    pure .fall
  | _ => do
    let bs ← readAt l
    dst d (loadValue x bs)
    pure .fall

/-- What a store does once its address has passed its checks. -/
def storeTo (sp : Space) (x : XT) (sq : Bool) (b : Opnd) (addr : Nat) (l : Loc) : M Next := do
  let n := widthOf x / 8
  if sq then
    let v ← src b
    sqPush ⟨sp, addr, n, v⟩
  else
    let v ← srcOnce b
    writeAt l (leBytesOf n v.toNat) (latchOf b v)
  pure .fall

theorem loadBody_run (sp : Space) (x : XT) (d : Opnd) (a c : Reg) (disp : BitVec 10) (s : State) :
    loadBody sp x d a c disp s = (let n := widthOf x / 8
      let addr := address s a c disp n
      check sp addr n n .r >>= loadFrom sp x d addr) s := by
  rw [loadBody, M.bind_ok (memAddress_run a c disp _ s)]
  cases d <;> rfl

theorem storeBody_run (sp : Space) (x : XT) (sq : Bool) (a : Reg) (b : Opnd) (c : Reg) (disp : BitVec 10) (s : State) :
    storeBody sp x sq a b c disp s = (let n := widthOf x / 8
      let addr := address s a c disp n
      check sp addr n n .w >>= storeTo sp x sq b addr) s := by
  rw [storeBody, M.bind_ok (memAddress_run a c disp _ s)]
  rfl

section
variable {s : State} {l : Loc}

/-- The request of a load in a state in which nothing has been sent: a trap, the bytes, or a wait. -/
theorem readAt_traps (hs : s.begins) {u : State} {e : Cause} {v : Word}
    (h : s.nextNumber.send (s.coreAccess l.home .r .read l.tgt l.base) false = .answered u (.trap e v)) :
    readAt l s = .error (.trap e (some v) .none) := by
  obtain ⟨hslow, -, -, -, hlatch, -⟩ := id hs
  rw [readAt, M.bind_run, access_answered hs.not_begun none (hslow ▸ h), hlatch]
  rfl

theorem readAt_data (hs : s.begins) {u : State} {bs : List Byte}
    (h : s.nextNumber.send (s.coreAccess l.home .r .read l.tgt l.base) false = .answered u (.data bs)) :
    readAt l s = .ok (bs, answered u (.data bs)) := by
  obtain ⟨hslow, -⟩ := id hs
  rw [readAt, M.bind_run, access_answered hs.not_begun none (hslow ▸ h)]
  rfl

theorem readAt_waits (hs : s.begins) {u : State}
    (h : s.nextNumber.send (s.coreAccess l.home .r .read l.tgt l.base) false = .waits u) :
    readAt l s = .error (waitAnswer (u.modSeq fun c => { c with out := some s.fab.nextNum })) := by
  obtain ⟨hslow, -⟩ := id hs
  rw [readAt, M.bind_run, access_waits hs.not_begun none (hslow ▸ h)]
  rfl

/-- The request of a store in a state in which nothing has been sent, once its home has written the bytes. -/
theorem writeAt_done (hb : s.seq.begun = false) (hslow : s.slowTurn = false) {bs : List Byte} {u : State} (latch : Option Word)
    (h : s.nextNumber.send (s.coreAccess l.home .w (.write bs) l.tgt l.base) false = .answered u (.data [])) :
    writeAt l bs latch s = .ok ((), answered u (.data [])) := by
  rw [writeAt, M.bind_run, access_answered hb latch (hslow ▸ h)]
  rfl

end

end Sys2Proof.Machine
end

section
/-! Stores and loads (10 R141 to R145, 01 R17): their checks, what the home answers, sq and its entries, loads into queues, and
prefetches. -/

namespace Sys2Proof.Machine

open Sys2Proof.Claims

theorem sqPush_joins {s : State} (e : SqEntry) (h : s.my.q.sq.length < 8) :
    sqPush e s = .ok ((), s.modMy fun t => { t with q := { t.q with sq := t.q.sq ++ [e] } }) := by
  rw [sqPush, if_neg (Nat.not_le.mpr h)]

theorem sqPush_gone {s : State} (e : SqEntry) (h : 8 ≤ s.my.q.sq.length) (hg : s.my.as.gone = true) :
    sqPush e s = .error (.trap .queueMisuse (some 4) .none) := by
  rw [sqPush, if_pos h, if_pos hg]; rfl

theorem sqPush_waits {s : State} (e : SqEntry) (h : 8 ≤ s.my.q.sq.length) (hg : s.my.as.gone = false) (hu : s.seq.used = 0) :
    sqPush e s = .error (.wait ⟨.queue 4, 0, none, none⟩ none) := by
  rw [sqPush, if_pos h, if_neg (by simp [hg]), waitFor_run _ hu]

/-! ### sq entries (10 R143) -/

/-- The store of an entry at sq's head. -/
def State.sqAccess (s : State) (p : Place) (e : SqEntry) (l : Loc) : Access :=
  { num := s.fab.nextNum, src := p, party := .core p, path := .core, home := l.home, kind := .w,
    op := .write (leBytesOf e.n e.data.toNat), tgt := l.tgt, base := l.base, interval := (s.core p).interval,
    dest := .sq p (s.strand p).act.sid, range := none, way := Way.done, lost := false }

/-- An answer to a strand on the core whose number it bears. -/
theorem State.answerSq_eq {s : State} {p : Place} {sid : Nat} (h : (s.strand p).act.sid = sid) (ans : Answer) :
    s.answerSq p sid ans = s.modStrand p (·.answerSq ans) := by
  simp [State.answerSq, State.modOwner, h]

section
variable {s : State} {p : Place} {e : SqEntry}

theorem performSq_refused {c : Cause} {v : Nat}
    (h : ({ s with cur := (p, .as) } : State).locate e.win e.addr e.n .w = .error (c, v)) :
    s.performSq p e = .ok (s.modStrand p (·.answerSq (.trap c (BitVec.ofNat 64 v)))) := by
  simp only [State.performSq, h, State.answerSq_eq rfl]

theorem performSq_waits {l : Loc} {u : State} (h : ({ s with cur := (p, .as) } : State).locate e.win e.addr e.n .w = .ok l)
    (hs : s.nextNumber.send (s.sqAccess p e l) false = .waits u) : s.performSq p e = .ok u := by
  rw [State.sqAccess] at hs
  simp only [State.performSq, h, hs]

theorem performSq_answered {l : Loc} {u : State} {ans : Answer}
    (h : ({ s with cur := (p, .as) } : State).locate e.win e.addr e.n .w = .ok l)
    (hs : s.nextNumber.send (s.sqAccess p e l) false = .answered u ans)
    (hsid : (u.strand p).act.sid = (s.strand p).act.sid) : s.performSq p e = .ok (u.modStrand p (·.answerSq ans)) := by
  rw [State.sqAccess] at hs
  simp only [State.performSq, h, hs, State.answerSq_eq hsid]

/-- The event at a core whose AS may perform the entry at sq's head. -/
theorem exec_sqStorePerform {es : List SqEntry} {u : State} (hrun : s.coreRuns p = true) (has : (s.strand p).as.gone = false)
    (hpend : (s.strand p).sqTrapPending = false) (hfly : s.sqInFlight p = false) (hq : (s.strand p).q.sq = e :: es)
    (hu : s.performSq p e = .ok u) : exec (.sqStorePerform p) s = .next u := by
  show execSqStorePerform p s = _
  rw [execSqStorePerform, hrun, has, hpend, hfly]
  simp only [Bool.not_false, Bool.and_self, if_true, hq, hu]

end

/-! ### Loads into queues (10 R142) -/

section
variable {s : State} {q : Fin 4} {req : LoadReq} {l : Loc}

theorem loadQueue_waits (h : 8 ≤ (s.my.q.lq[q.val]).length) (hg : s.my.xs.gone = false) :
    loadQueue q req l s = (waitFor (.queue q.val) : M Unit) s := by
  rw [loadQueue]
  exact (if_pos h).trans (if_neg (by simp [hg]))

theorem loadQueue_gone (h : 8 ≤ (s.my.q.lq[q.val]).length) (hg : s.my.xs.gone = true) :
    loadQueue q req l s = .error (.trap .queueMisuse (some (BitVec.ofNat 64 q.val)) .none) := by
  rw [loadQueue]
  exact (if_pos h).trans (if_pos hg)

/-- An entry joins the queue, of a load that was issued. -/
theorem loadQueue_joins {e : LqEntry} {u : State} (h : (s.my.q.lq[q.val]).length < 8)
    (hi : s.issueLq s.cur.1 q req l s.slowTurn = .ok (u, e)) : loadQueue q req l s
      = .ok ((), u.modMy fun t => { t with q := { t.q with lq := t.q.lq.set q.val (t.q.lq[q.val] ++ [e]) } }) := by
  rw [loadQueue]
  refine (if_neg (Nat.not_le.mpr h)).trans ?_
  simp only [hi]

theorem issueLq_data {u : State} {bs : List Byte}
    (h : s.nextNumber.send (lqAccess s l q) s.slowTurn = .answered u (.data bs)) :
    s.issueLq s.cur.1 q req l s.slowTurn = .ok (u, .full (loadValue req.x bs)) := by
  rw [lqAccess, State.coreAccess, State.me] at h
  simp only [State.issueLq, h]

theorem issueLq_traps {u : State} {c : Cause} {v : Word}
    (h : s.nextNumber.send (lqAccess s l q) s.slowTurn = .answered u (.trap c v)) :
    s.issueLq s.cur.1 q req l s.slowTurn = .ok (u, .marked c v req) := by
  rw [lqAccess, State.coreAccess, State.me] at h
  simp only [State.issueLq, h]

theorem issueLq_waits {u : State} (h : s.nextNumber.send (lqAccess s l q) s.slowTurn = .waits u) :
    s.issueLq s.cur.1 q req l s.slowTurn = .ok (u, .pending s.fab.nextNum req) := by
  rw [lqAccess, State.coreAccess, State.me] at h
  simp only [State.issueLq, h]

end

/-! ### Loads and stores that have passed their checks -/

section
variable {s : State} {sp : Space} {g : Guard} {x : XT} {a c : Reg} {disp : BitVec 10} {l : Loc}

/-- A load whose address passes its checks. -/
theorem loadBody_checked {d : Opnd} (h : address s a c disp (widthOf x / 8) % (widthOf x / 8) = 0)
    (hl : s.locate sp (address s a c disp (widthOf x / 8)) (widthOf x / 8) .r = .ok l) :
    loadBody sp x d a c disp s = loadFrom sp x d (address s a c disp (widthOf x / 8)) l s := by
  rw [loadBody_run]
  exact M.bind_ok (check_passes h hl)

/-- A store whose address passes its checks. -/
theorem storeBody_checked {sq : Bool} {b : Opnd} (h : address s a c disp (widthOf x / 8) % (widthOf x / 8) = 0)
    (hl : s.locate sp (address s a c disp (widthOf x / 8)) (widthOf x / 8) .w = .ok l) :
    storeBody sp x sq a b c disp s = storeTo sp x sq b (address s a c disp (widthOf x / 8)) l s := by
  rw [storeBody_run]
  exact M.bind_ok (check_passes h hl)

theorem loadFrom_isL {d : Opnd} (hd : d.isL = true) (addr : Nat) (l : Loc) :
    loadFrom sp x d addr l = (do
      let bs ← readAt l
      dst d (loadValue x bs)
      pure .fall) := by
  cases d with
  | lq => cases hd
  | _ => rfl

/-- A store of the value that B gives, once the home has written it. -/
theorem storeTo_done {b : Opnd} {v : Word} {s0 u : State} (addr : Nat) (hs : s.begins) (hb : src b s = .ok (v, s0))
    (hslow : s0.slowTurn = false) (h : s0.nextNumber.send (s0.coreAccess l.home .w
      (.write (leBytesOf (widthOf x / 8) v.toNat)) l.tgt l.base) false = .answered u (.data [])) :
    storeTo sp x false b addr l s = .ok (.fall, answered u (.data [])) := by
  obtain ⟨-, -, -, -, hlatch, -⟩ := id hs
  have hbegun : s0.seq.begun = false := by rw [(src_cur_seq hb).2]; exact hs.not_begun
  have hsrc : srcOnce b s = .ok (v, s0) := by rw [srcOnce_eq_src hs.not_begun hlatch]; exact hb
  rw [storeTo, if_neg Bool.false_ne_true, M.bind_ok hsrc, M.bind_ok (writeAt_done hbegun hslow _ h)]
  rfl

/-- A store onto sq is what the push of its entry is, after B. -/
theorem storeTo_sq {b : Opnd} {v : Word} {s0 : State} (addr : Nat) (hb : src b s = .ok (v, s0)) :
    storeTo sp x true b addr l s = (sqPush ⟨sp, addr, widthOf x / 8, v⟩ >>= fun _ => pure .fall) s0 := by
  rw [storeTo, if_pos rfl, M.bind_ok hb]

end

end Sys2Proof.Machine

namespace Sys2Proof.Proofs

open Sys2Proof Sys2Proof.Machine Sys2Proof.Claims

theorem storesWriteTheirBytes : StoresWriteTheirBytes := by
  intro s s0 sp g x a c b disp v n addr i req
  have hi (sq : Bool) : Performs s (i sq) (storeBody sp x sq a b c disp) := performs_storeOf s sp sq g x a b c disp
  refine ⟨fun sq hmis => (hi sq).traps ?_, fun sq hal e w hl => (hi sq).traps ?_, fun hal l hl hb => ?_⟩
  · rw [storeBody_run, M.bind_run, check_misaligned hmis]
  · rw [storeBody_run, M.bind_run, check_refused hal hl]
  have hbody (sq : Bool) : storeBody sp x sq a b c disp s = storeTo sp x sq b addr l s := storeBody_checked hal hl
  have hsq : storeBody sp x true a b c disp s = (sqPush ⟨sp, addr, n, v⟩ >>= fun _ => pure .fall) s0 :=
    (hbody true).trans (storeTo_sq addr hb)
  refine ⟨fun hfull => ⟨fun hg hu => (hi true).waits (s' := none) ?_, fun hg => (hi true).traps ?_⟩, fun hroom => (hi true).completes ?_,
    fun hs hslow s1 h => (hi false).completes ?_⟩
  · rw [hsq, M.bind_run, sqPush_waits _ hfull hg hu]
  · rw [hsq, M.bind_run, sqPush_gone _ hfull hg]
  · rw [hsq, M.bind_ok (sqPush_joins _ hroom)]; rfl
  · rw [hbody]; exact storeTo_done addr hs hb hslow h

theorem sqEntriesArePerformedInOrder : SqEntriesArePerformedInOrder := by
  intro s s1 p e es l s0 a hrun has hpend hfly hq
  have hexec {u : State} (hu : s.performSq p e = .ok u) : exec (.sqStorePerform p) s = .next u :=
    exec_sqStorePerform hrun has hpend hfly hq hu
  exact ⟨fun hl => ⟨fun h => hexec (performSq_waits hl h),
    fun hsid => ⟨fun h => hexec (performSq_answered hl h hsid), fun c v h => hexec (performSq_answered hl h hsid)⟩⟩,
    fun c v hl => hexec (performSq_refused hl)⟩

/-- Settles O19: a store as its checks, its source and its request or push; an sq entry as its request. -/
theorem storesAndTheStoreQueue : Obligations.StoresAndTheStoreQueue :=
  ⟨storesWriteTheirBytes, sqEntriesArePerformedInOrder⟩

theorem loadsTakeTheHomesAnswer : LoadsTakeTheHomesAnswer := by
  intro s sp g x d a c disp n addr i req
  have hi : Performs s i (loadBody sp x d a c disp) := performs_loadOf s sp g x d a c disp
  refine ⟨fun hmis => hi.traps ?_, fun hal e v hl => hi.traps ?_, fun hal l hl hd hs => ?_⟩
  · rw [loadBody_run, M.bind_run, check_misaligned hmis]
  · rw [loadBody_run, M.bind_run, check_refused hal hl]
  have hbody := (loadBody_checked (d := d) hal hl).trans (congrFun (loadFrom_isL hd addr l) s)
  refine ⟨fun s1 e v h => hi.traps ?_, fun s1 s2 bs h h2 => hi.completes ?_, fun s1 h => hi.waits (s' := some _) ?_⟩
  · rw [hbody, M.bind_run, readAt_traps hs h]
  · rw [hbody, M.bind_ok (readAt_data hs h), M.bind_run, loadValue, h2]; rfl
  · rw [hbody, M.bind_run, readAt_waits hs h]; rfl

theorem queueLoadsFillAnEntry : QueueLoadsFillAnEntry := by
  intro s s1 sp g x q a c disp l n addr i hal hl
  have hi : Performs s i (loadBody sp x (.lq q) a c disp) := performs_loadOf s sp g x (.lq q) a c disp
  have hbody : loadBody sp x (.lq q) a c disp s = (loadQueue q ⟨sp, addr, x⟩ l >>= fun _ => pure .fall) s :=
    loadBody_checked hal hl
  refine ⟨fun hroom => ?_, fun hfull hg => hi.waitsFor ?_, fun hfull hg => hi.traps ?_⟩
  · intro sent joins
    have hjoins {e : LqEntry} (he : s.issueLq s.cur.1 q ⟨sp, addr, x⟩ l s.slowTurn = .ok (s1, e)) : joins e :=
      hi.completes (by rw [hbody, M.bind_ok (loadQueue_joins hroom he)]; rfl)
    exact ⟨fun bs h => hjoins (issueLq_data h), fun cs v h => hjoins (issueLq_traps h), fun h => hjoins (issueLq_waits h)⟩
  · rw [hbody, M.bind_run, loadQueue_waits hfull hg]; rfl
  · rw [hbody, M.bind_run, loadQueue_gone hfull hg]

theorem prefetchChangesNothing : PrefetchChangesNothing := by
  intro s g a c disp addr
  have hi : Performs s (.pf g a c disp) _ := .any rfl rfl
  have hbody := M.bind_ok (f := fun addr =>
    trapIf (decide (2 ^ 57 ≤ addr)) .windowBounds (BitVec.ofNat 64 addr) >>= fun _ => (pure .fall : M Next))
    (memAddress_run a c disp 1 s)
  refine ⟨fun h => hi.completes (hbody.trans ?_), fun h => hi.traps (hbody.trans ?_)⟩
  · rw [decide_eq_false (Nat.not_le.mpr h)]; rfl
  · rw [decide_eq_true h]; rfl

/-- Settles O20: a load as its checks and its request, into a register or a queue's entry; a prefetch as its check. -/
theorem loadsTakeTheirAnswers : Obligations.LoadsTakeTheirAnswers :=
  ⟨loadsTakeTheHomesAnswer, queueLoadsFillAnEntry, prefetchChangesNothing⟩

end Sys2Proof.Proofs
end

section
/-! Atomic units (10 R163): the statement about them takes `fadd` under every code, and under a narrow one the FP32 sum does not
fit the width. -/

namespace Sys2Proof.Machine

/-- The FP32 sum of the bits 255 and 255, two subnormals, answered to an 8-bit `fadd`: an encoding no instruction has, since
`Instr.wf` gives `fadd` the code f32 alone. -/
theorem atomicOn_fadd_i8 : (atomicOn (.op .fadd .i8 255) 255).1 = 510 := by decide

end Sys2Proof.Machine

namespace Sys2Proof.Proofs

open Sys2Proof Sys2Proof.Machine Sys2Proof.Claims

/-- Refutes O49: its clause on atomic units bounds the new contents by the width of every code, and an 8-bit `fadd` of 255 to 255
stores 510. -/
theorem not_atomicsAndRings : ¬ Obligations.AtomicsAndRings := by
  rintro ⟨-, hunits, -⟩
  obtain ⟨hwidth, -⟩ := hunits .i8 255 255 0
  have hlt : (atomicOn (.op .fadd .i8 255) 255).1 < 2 ^ widthOf .i8 := (hwidth (.op .fadd .i8 255) (by simp)).2
  rw [atomicOn_fadd_i8] at hlt
  exact absurd hlt (by decide)

end Sys2Proof.Proofs
end

section
/-! Accesses over known bytes that are answered at once (16 R234, R238): what a home makes of a read and of a write, and what a load
or store of the scratchpads changes (10 R136, R141). -/

namespace Sys2Proof.Machine

open Sys2Proof.Claims

/-! ### Bytes -/

theorem leBytesOf_length (n v : Nat) : (leBytesOf n v).length = n := by
  induction n generalizing v with
  | zero => rfl
  | succ n ih => rw [leBytesOf, List.length_cons, ih]

theorem leBytesOf_getElem (n v j : Nat) (h : j < (leBytesOf n v).length) : (leBytesOf n v)[j] = BitVec.ofNat 8 (v / 256 ^ j) := by
  induction n generalizing v j with
  | zero => exact absurd h (Nat.not_lt_zero j)
  | succ n ih =>
    cases j with
    | zero => simp [leBytesOf]
    | succ j => simp only [leBytesOf, List.getElem_cons_succ, ih, Nat.div_div_eq_div_mul, pow_succ, mul_comm]

theorem span_length (a n : Nat) : (span a n).length = n := by simp [span]

theorem span_nodup (a n : Nat) : (span a n).Nodup :=
  (List.nodup_range).map fun _ _ h => Nat.add_left_cancel h

/-- Each of distinct keys holds the byte written for it. -/
theorem Memory.get_setAll_zip {m : Memory} (hm : Memory.wf m = true) {ks : List Nat} {bs : List Byte} (hk : ks.Nodup) {j : Nat}
    (hj : j < ks.length) (hb : j < bs.length) : Memory.get (Memory.setAll m (ks.zip bs)) ks[j] = bs[j] := by
  induction ks generalizing m bs j with
  | nil => exact absurd hj (Nat.not_lt_zero j)
  | cons k ks ih =>
    obtain ⟨hnot, hk'⟩ := List.nodup_cons.mp hk
    cases bs with
    | nil => exact absurd hb (Nat.not_lt_zero j)
    | cons b bs =>
      show Memory.get (Memory.setAll (Memory.set m k b) (ks.zip bs)) _ = _
      cases j with
      | zero =>
        have hout : k ∉ (ks.zip bs).map (·.1) := fun h => by
          obtain ⟨e, he, rfl⟩ := List.mem_map.mp h
          exact hnot (List.of_mem_zip he).1
        simp only [List.getElem_cons_zero]
        rw [Memory.get_setAll_of_not_mem (Memory.wf_set hm k b) hout, Memory.get_set hm, if_pos rfl]
      | succ j => exact ih (Memory.wf_set hm k b) hk' (Nat.lt_of_succ_lt_succ hj) (Nat.lt_of_succ_lt_succ hb)

/-! ### What an access leaves of its core -/

/-- The close filter alone takes note of a touch. -/
theorem Core.st_touch (c : Core) (h : Home) : (c.touch h).st = c.st := by
  unfold Core.touch
  split
  · rfl
  · split <;> rfl

theorem State.strand_touched (s : State) (a : Access) (p : Place) : (s.touched a).strand p = s.strand p := by
  have hst (hs : List Home) (c : Core) : (hs.foldl Core.touch c).st = c.st :=
    List.foldlRecOn (motive := fun d : Core => d.st = c.st) hs Core.touch rfl fun d hd h _ => (d.st_touch h).trans hd
  simp only [State.touched, State.strand, State.core_modCore]
  split
  · next he => rw [hst, he]
  · rfl

/-- A check that passes changes the recorders alone. -/
theorem State.checked_passes {s t : State} {a : Access} {ks : List Nat} (h : s.checked a ks = .ok (some t)) :
    s.MeshOnly t ∧ t.cur = s.cur := by
  unfold State.checked at h
  split at h
  · cases h
  · cases hr : s.record a (ks.filter fun k => !inBarrierArea k) with
    | none => rw [hr] at h; cases h
    | some u =>
      rw [hr] at h
      cases h
      unfold State.record at hr
      split at hr
      all_goals
        obtain ⟨es, -, rfl⟩ := Option.map_eq_some_iff.mp hr
        exact ⟨.of_fab s _, rfl⟩

theorem State.meshOnly_meterHbm (s : State) (pn : Nat) (ks : List Nat) : s.MeshOnly (s.meterHbm pn ks) := by
  unfold State.meterHbm
  dsimp only
  split
  · exact .refl s
  · refine ⟨rfl, rfl, rfl, rfl, rfl, fun m => ?_⟩
    rw [State.part_modPart]
    split
    · next e => subst e; exact ⟨_, rfl⟩
    · exact ⟨_, rfl⟩

theorem State.cur_meterHbm (s : State) (pn : Nat) (ks : List Nat) : (s.meterHbm pn ks).cur = s.cur := by
  unfold State.meterHbm
  dsimp only
  split <;> rfl

/-- What an access that was answered leaves of the state it was sent in: the current sequencer, and every strand. -/
structure State.KeepsStrands (s t : State) : Prop where
  cur : t.cur = s.cur
  strand : ∀ p, t.strand p = s.strand p

namespace State.KeepsStrands

variable {s t u : State}

theorem trans (h : s.KeepsStrands t) (k : t.KeepsStrands u) : s.KeepsStrands u :=
  ⟨k.cur.trans h.cur, fun p => (k.strand p).trans (h.strand p)⟩

theorem of_meshOnly (h : s.MeshOnly t) (hc : t.cur = s.cur) : s.KeepsStrands t := ⟨hc, h.strand⟩

theorem my (h : s.KeepsStrands t) : t.my = s.my := by rw [State.my, State.my, h.cur, h.strand]

theorem seq (h : s.KeepsStrands t) : t.seq = s.seq := by rw [State.seq, State.seq, State.seqAt, State.seqAt, h.cur, h.strand]

end State.KeepsStrands

theorem State.keepsStrands_checked {s t : State} {a : Access} {ks : List Nat} (h : s.checked a ks = .ok (some t)) :
    s.KeepsStrands t := .of_meshOnly (State.checked_passes h).1 (State.checked_passes h).2

theorem State.keepsStrands_meterHbm (s : State) (pn : Nat) (ks : List Nat) : s.KeepsStrands (s.meterHbm pn ks) :=
  .of_meshOnly (s.meshOnly_meterHbm pn ks) (s.cur_meterHbm pn ks)

theorem State.keepsStrands_returned (s : State) (a : Access) : s.KeepsStrands (s.returned a) :=
  .of_meshOnly (s.meshOnly_returned a) (s.cur_returned a)

theorem State.keepsStrands_setMem (s : State) (m : Memory) : s.KeepsStrands { s with mem := m } := ⟨rfl, fun _ => rfl⟩

/-- The state in which a home takes an access that passes to it at once. -/
def State.atHome (s : State) (a : Access) : State := (s.touched a).departed a

theorem State.keepsStrands_atHome (s : State) (a : Access) : s.KeepsStrands (s.atHome a) :=
  .trans (t := s.touched a) ⟨rfl, s.strand_touched a⟩ (.of_meshOnly (State.meshOnly_departed _ a) (State.cur_departed _ a))

theorem State.mem_atHome (s : State) (a : Access) : (s.atHome a).mem = s.mem := (State.meshOnly_departed _ _).mem

/-- Stamped writes do not move when an access leaves its source. -/
theorem State.repl_atHome (s : State) (a : Access) : (s.atHome a).fab.repl = s.fab.repl := by
  unfold State.atHome State.departed
  split
  · have hnote : ∀ (u : State) (pn : Nat), (u.noteInjection pn a.src a.vn).fab.repl = u.fab.repl := fun u pn => by
      unfold State.noteInjection; split <;> rfl
    unfold State.meterAccess
    split
    · exact hnote _ _
    · exact hnote _ _
  · rfl

/-- An access of a core that may pass to its home is answered as the home answers it. -/
theorem State.send_atHome {s t : State} {a : Access} {ans : Answer} (hparty : a.party = .core a.src) (hclose : a.isClose = false)
    (hp : (s.touched a).passes a = true) (h : (s.atHome a).applyAccess a = .done t ans) :
    s.send a false = .answered (t.returned a) ans := by
  rw [State.atHome] at h
  simp only [State.send, hparty, hclose, Bool.not_false, and_self, if_true, hp, Bool.not_true, Bool.or_self,
    Bool.false_eq_true, if_false, h]

section
variable {s u : State} {a : Access} {ks : List Nat} (htgt : a.tgt = .keys ks) (hc : s.checked a ks = .ok (some u))
include htgt hc

/-- A home reads bytes that no stamped write has pending, once the conflict check has passed. -/
theorem State.applyAccess_read (hop : a.op = .read) (hpend : ks.any s.pendingKey = false) :
    s.applyAccess a = .done (u.meterHbm (s.partNo a.src) ks) (.data (Memory.getAll u.mem ks)) := by
  simp only [State.applyAccess, State.applyBare, hop, htgt, State.resolve, hpend, Bool.and_false, Bool.false_eq_true, if_false,
    Bool.not_true, hc, State.performOn]

/-- A home writes bytes, once the conflict check has passed. -/
theorem State.applyAccess_write {bs : List Byte} (hop : a.op = .write bs) :
    s.applyAccess a = .done { u.meterHbm (s.partNo a.src) ks with mem := Memory.setAll u.mem (ks.zip bs) } (.data []) := by
  simp only [State.applyAccess, State.applyBare, hop, htgt, State.resolve, reduceCtorEq, decide_false, Bool.false_and,
    Bool.false_eq_true, if_false, Bool.not_true, hc, State.performOn]

end

/-! ### Requests over known bytes -/

section
variable {s v : State} {a : Access} {ks : List Nat} (hparty : a.party = .core a.src) (htgt : a.tgt = .keys ks)
  (hp : (s.touched a).passes a = true) (hc : (s.atHome a).checked a ks = .ok (some v))
include hparty htgt hp hc

/-- A core's read of known bytes that finds its way clear and no conflict. -/
theorem State.send_read (hop : a.op = .read) (hpend : ks.any s.pendingKey = false) :
    ∃ t, s.send a false = .answered t (.data (Memory.getAll s.mem ks)) ∧ s.KeepsStrands t ∧ t.mem = s.mem := by
  have hclose : a.isClose = false := by rw [Access.isClose, hop]
  have hpend' : ks.any (s.atHome a).pendingKey = false := by
    have : (s.atHome a).pendingKey = s.pendingKey := funext fun k => by rw [State.pendingKey, s.repl_atHome a, State.pendingKey]
    rwa [this]
  have hmem : v.mem = s.mem := (State.checked_passes hc).1.mem.trans (s.mem_atHome a)
  refine ⟨_, (State.send_atHome hparty hclose hp (State.applyAccess_read htgt hc hop hpend')).trans (by rw [hmem]), ?_, ?_⟩
  · exact (s.keepsStrands_atHome a).trans <| (State.keepsStrands_checked hc).trans <|
      (State.keepsStrands_meterHbm _ _ _).trans (State.keepsStrands_returned _ a)
  · rw [(State.meshOnly_returned _ a).mem, (State.meshOnly_meterHbm _ _ _).mem, hmem]

/-- A core's write of known bytes that finds its way clear and no conflict. -/
theorem State.send_write {bs : List Byte} (hop : a.op = .write bs) :
    ∃ t, s.send a false = .answered t (.data []) ∧ s.KeepsStrands t ∧ t.mem = Memory.setAll s.mem (ks.zip bs) := by
  have hclose : a.isClose = false := by rw [Access.isClose, hop]
  have hmem : v.mem = s.mem := (State.checked_passes hc).1.mem.trans (s.mem_atHome a)
  refine ⟨_, State.send_atHome hparty hclose hp (State.applyAccess_write htgt hc hop), ?_, ?_⟩
  · exact (s.keepsStrands_atHome a).trans <| (State.keepsStrands_checked hc).trans <|
      (State.keepsStrands_meterHbm v _ _).trans <| (State.keepsStrands_setMem _ _).trans (State.keepsStrands_returned _ a)
  · rw [(State.meshOnly_returned _ a).mem, hmem]

end

/-! ### Where the bytes of a window lie (10 R135, R136) -/

/-- The bytes of a scratchpad access are consecutive. -/
theorem State.locate_keys {s : State} {sp : Space} {addr n : Nat} {kind : AccKind} {h : Home} {ks : List Nat} {base : Nat}
    (hl : s.locate sp addr n kind = .ok ⟨h, .keys ks, base⟩) : ∃ k, ks = span k n := by
  cases sp with
  | cp =>
    simp only [State.locate, State.locateCp] at hl
    repeat' split at hl
    all_goals cases hl
    exact ⟨_, rfl⟩
  | cm =>
    simp only [State.locate, State.locateCm] at hl
    repeat' split at hl
    all_goals cases hl
    exact ⟨_, rfl⟩
  | gv =>
    simp only [State.locate, State.locateGv] at hl
    repeat' split at hl
    all_goals cases hl
  | oc =>
    simp only [State.locate, State.locateOc] at hl
    repeat' split at hl
    all_goals cases hl
    all_goals exact ⟨_, rfl⟩

/-! ### Answers taken -/

@[simp] theorem answered_readS (s : State) (a : Answer) (r : Reg) : (answered s a).seq.readS r = s.seq.readS r := by
  rw [answered, State.seq_modSeq]; rfl

@[simp] theorem answered_readK (s : State) (a : Answer) (k : Fin 8) : (answered s a).seq.readK k = s.seq.readK k := by
  rw [answered, State.seq_modSeq]; rfl

end Sys2Proof.Machine

namespace Sys2Proof.Proofs

open Sys2Proof Sys2Proof.Machine Sys2Proof.Claims

/-- Settles O21: the request of the access is answered at once, by a home that reads or writes its bytes. -/
theorem localAccessesTouchTheirBytesAlone : Obligations.LocalAccessesTouchTheirBytesAlone := by
  intro s s1 sp g x d b a c disp h ks base n addr hwf hs hal
  refine ⟨fun hl => ?_, fun hl => ?_⟩
  · intro r u hp hpend hc hm
    obtain ⟨v, hsend, hkeep, hmem⟩ := State.send_read (s := s.nextNumber) rfl rfl hp hc rfl hpend
    obtain ⟨-, -, hload⟩ := loadsTakeTheHomesAnswer s sp g x (.reg d) a c disp
    obtain ⟨-, hdata, -⟩ := hload hal ⟨h, .keys ks, base⟩ hl rfl hs
    have hseq : v.seq = s.seq := hkeep.seq
    have hmy : v.my = s.my := hkeep.my
    refine ⟨_, hdata v _ _ hsend (dst_reg d _ _) hm, fun k => ?_, fun hd => ?_, fun q hq => ?_, fun k => ?_, ?_, ?_⟩
    · exact congrArg (Memory.get · k) hmem
    · simp [Seq.readS_writeS, hd, Memory.getAll]
    · simp [Seq.readS_writeS, hq, hseq]
    · simp [hseq]
    · simp [State.retire, answered, hmy]
    · simp [State.retire, answered, hmy]
  · intro r u hp hc hm
    obtain ⟨v, hsend, hkeep, hmem⟩ := State.send_write (s := s.nextNumber) rfl rfl hp hc rfl
    obtain ⟨-, -, hstore⟩ := storesWriteTheirBytes s s sp g x a c (.reg b) disp (s.seq.readS b)
    obtain ⟨-, -, hdone⟩ := hstore hal ⟨h, .keys ks, base⟩ hl rfl
    have hseq : v.seq = s.seq := hkeep.seq
    have hmy : v.my = s.my := hkeep.my
    obtain ⟨k0, rfl⟩ := State.locate_keys hl
    have hget (k : Nat) : Memory.get (((answered v (.data [])).retire
        (storeOf sp false g x a (.reg b) c disp).len .fall).mem) k
          = Memory.get (Memory.setAll s.mem ((span k0 n).zip (leBytesOf n (s.seq.readS b).toNat))) k :=
      congrArg (Memory.get · k) hmem
    refine ⟨_, hdone hs hs.1 v hsend hm, fun k hk => ?_, fun j hj => ?_, fun q => ?_, fun k => ?_, ?_, ?_⟩
    · rw [hget]
      refine Memory.get_setAll_of_not_mem hwf fun hin => hk ?_
      obtain ⟨e, he, rfl⟩ := List.mem_map.mp hin
      exact (List.of_mem_zip he).1
    · have hj' : j < (span k0 n).length := (span_length k0 n).symm ▸ hj
      have hb : j < (leBytesOf n (s.seq.readS b).toNat).length := (leBytesOf_length n _).symm ▸ hj
      rw [hget, List.getD_eq_getElem _ _ hj', Memory.get_setAll_zip hwf (span_nodup k0 n) hj' hb, leBytesOf_getElem]
    · simp [hseq]
    · simp [hseq]
    · simp [State.retire, answered, hmy]
    · simp [State.retire, answered, hmy]

end Sys2Proof.Proofs
end

section
/-! Mailbox instructions and `nlink` (10 R157, R159, R161). -/

namespace Sys2Proof.Machine

open Sys2Proof.Claims

theorem trapIf_true (c : Cause) (v : Word) (s : State) : trapIf true c v s = .error (.trap c (some v) .none) := rfl

/-- A part without entries in sq, or the XS, performs a synchronising instruction at once (10 R143). -/
theorem drainSq_empty {s : State} (h : s.cur.2 = .as → s.my.q.sq = []) : drainSq s = .ok ((), s) := by
  rw [drainSq, if_neg]
  rintro ⟨hq, hne⟩
  rw [h hq] at hne
  exact absurd hne (by decide)

theorem Seq.carry_carry (c : Seq) (w : Wait) : c.carry (c.carry w) = c.carry w := by
  unfold Seq.carry
  cases c.wait with
  | none => rfl
  | some v => by_cases h : v.why = w.why <;> simp [h]

/-! ### Waits on objects (03 R57, R60, R63) -/

section
variable {s : State} {o : ObjRef} {l : List ObjRef} {tmo : Nat}

/-- The wait on an object as it stands at the sequencer's turn. -/
def State.objectWait (s : State) (o : ObjRef) (tmo : Nat) : Wait :=
  s.seq.carry ⟨.object o, 0, if tmo = 0 then none else some tmo, none⟩

theorem waitOn_poisoned (h : ¬ ∀ r ∈ o :: l, s.poisoned (s.partNo s.cur.1) r = false) :
    waitOn o (o :: l) tmo s = .error (.trap .withheldAbort (some (objEntry s.cur.1 o)) .none) := by
  rw [waitOn]
  refine if_pos ?_
  rw [← List.any_cons, ← Bool.not_eq_false, List.any_eq_false]
  simpa using h

theorem waitOn_over (h : ∀ r ∈ o :: l, s.poisoned (s.partNo s.cur.1) r = false) (hw : (s.objectWait o tmo).left = some 0) :
    waitOn o (o :: l) tmo s = .ok (true, s) := by
  rw [waitOn]
  refine (if_neg ?_).trans (if_pos hw)
  simpa using h

theorem waitOn_waits (h : ∀ r ∈ o :: l, s.poisoned (s.partNo s.cur.1) r = false) (hw : (s.objectWait o tmo).left ≠ some 0)
    (hh : ∀ r ∈ o :: l, s.withheld (s.partNo s.cur.1) r = false) :
    waitOn o (o :: l) tmo s = .error (.wait (s.objectWait o tmo) (if s.seq.used = 0 then none else some s)) := by
  rw [waitOn]
  refine (if_neg ?_).trans ((if_neg hw).trans (if_neg ?_))
  · simpa using h
  · rw [Bool.not_eq_true, List.any_eq_false]
    intro r hr
    rw [hh r hr]
    exact Bool.false_ne_true

end

/-! ### `mcfg` (10 R157) -/

section
variable {s u : State} {a : Reg} {mb : Fin 64} {n : Nat}

theorem mcfgBody_misplaced (h : (s.seq.readS a).toNat % 32 ≠ 0 ∨ 65536 < (s.seq.readS a).toNat + 32) :
    mcfgBody a mb s = .error (.trap .windowBounds (some (s.seq.readS a)) .none) := by
  have hb : ((s.seq.readS a).toNat % 32 != 0 || decide (65536 < (s.seq.readS a).toNat + 32)) = true := by simpa using h
  rw [mcfgBody, M.bind_ok (readS_run a s), M.bind_run, hb, trapIf_true]

/-- Whether a block is good is decided in the state in which it has been read. -/
def State.mcfgGood (s : State) (mb : Fin 64) (n : Nat) : Bool :=
  mcfgOk n (s.mbx s.cur.1 mb.val).reservations.length (s.partOf s.cur.1).attrs.scount

theorem mcfgBody_read (h0 : (s.seq.readS a).toNat % 32 = 0) (h1 : (s.seq.readS a).toNat + 32 ≤ 65536)
    (hr : readBlock (s.seq.readS a).toNat 32 s = .ok (n, u)) : mcfgBody a mb s =
      (trapIf (!u.mcfgGood mb n) .windowBounds (s.seq.readS a) >>= fun _ => do
        setState ((u.setMbx u.cur.1 mb.val ((u.mbx u.cur.1 mb.val).configure n)).unpoison (u.partNo u.cur.1) ⟨.mbx, u.cur.1, mb.val⟩)
        pure .fall) u := by
  have hb : ((s.seq.readS a).toNat % 32 != 0 || decide (65536 < (s.seq.readS a).toNat + 32)) = false := by simp [h0, h1]
  have hpart : ∀ m, (u.setMbx u.cur.1 mb.val m).partNo u.cur.1 = u.partNo u.cur.1 := fun m => by
    rw [State.partNo, State.setMbx, State.modObjs, State.core_modCore, if_pos rfl]; rfl
  rw [mcfgBody, M.bind_ok (readS_run a s), M.bind_ok (by rw [hb]; rfl), M.bind_ok hr, M.bind_ok (getState_run u), ← hpart]
  rfl

end

/-! ### `mrecv` (10 R159) -/

/-- The ticks of a time-out operand. -/
def State.ticksOf (s : State) {n : Nat} (a : Reg) (tmo : BitVec n) : Nat := if a.val = 0 then tmo.toNat else (s.seq.readS a).toNat

theorem timeOut_run (s : State) {n : Nat} (a : Reg) (tmo : BitVec n) : timeOut a tmo s = .ok (s.ticksOf a tmo, s) := rfl

section
variable {s : State} {d a : Reg} {tmo : BitVec 18} {mb : Fin 64}

theorem mrecvBody_disabled (h : (s.mbx s.cur.1 mb.val).enabled = false) :
    mrecvBody d a tmo mb s = .error (.trap .windowBounds (some (BitVec.ofNat 64 mb.val)) .none) := by
  rw [mrecvBody, M.bind_ok (timeOut_run s a tmo), M.bind_ok (getState_run s), M.bind_run, h]
  rfl

variable (hen : (s.mbx s.cur.1 mb.val).enabled = true) (hsq : s.cur.2 = .as → s.my.q.sq = [])
include hen

theorem trapIf_enabled : trapIf (!(s.mbx s.cur.1 mb.val).enabled) .windowBounds (BitVec.ofNat 64 mb.val) s = .ok ((), s) := by
  rw [hen]; rfl

include hsq

theorem mrecvBody_takes {i : Nat} {x : Slot} (h : (s.mbx s.cur.1 mb.val).head = some (i, x)) : mrecvBody d a tmo mb s =
    (let m := s.mbx s.cur.1 mb.val
     let t := ((s.setMbx s.cur.1 mb.val (m.take i)).takeDeposit x (.strand s.my.act.sid)).modSeq
       (·.writeS d (BitVec.ofNat 64 (m.offset i)))
     .ok (.fall, t.closeInterval t.cur.1)) := by
  rw [mrecvBody, M.bind_ok (timeOut_run s a tmo), M.bind_ok (getState_run s), M.bind_ok (trapIf_enabled hen),
    M.bind_ok (drainSq_empty hsq)]
  simp only [h]
  rfl

theorem mrecvBody_awaits (h : (s.mbx s.cur.1 mb.val).head = none) : mrecvBody d a tmo mb s =
    (let o : ObjRef := ⟨.mbx, s.cur.1, mb.val⟩
     waitOn o (o :: s.mbxReplies o) (s.ticksOf a tmo) >>= fun _ => do
       writeS d (BitVec.allOnes 64)
       syncPoint
       pure .fall) s := by
  rw [mrecvBody, M.bind_ok (timeOut_run s a tmo), M.bind_ok (getState_run s), M.bind_ok (trapIf_enabled hen),
    M.bind_ok (drainSq_empty hsq)]
  simp only [h]
  rfl

end

/-! ### `nlink` (10 R161) -/

/-- The core with the forwarding that `nlink` sets. -/
def Core.setForwarding (fe fw clr : Bool) (c : Core) : Core :=
  { c with fe := fe, fw := fw, nE := if clr then [] else c.nE, nW := if clr then [] else c.nW }

theorem State.core_retire (s : State) (len : Nat) (n : Next) (p : Place) : (s.retire len n).core p =
    if p = s.cur.1 then { s.core s.cur.1 with st := s.my.setSeq s.cur.2 (s.seq.retire len n) } else s.core p :=
  s.core_modStrand _ _ _

end Sys2Proof.Machine

namespace Sys2Proof.Proofs

open Sys2Proof Sys2Proof.Machine Sys2Proof.Claims

theorem mailboxInstructionsTakeAndFreeSlots : MailboxInstructionsTakeAndFreeSlots := by
  intro s s1 g d a mb tmo i x n m w o setW
  have hcfg : Performs s (.mcfg g a mb) (mcfgBody a mb) := .any rfl rfl
  have hrecv : Performs s (.mrecv g d a tmo mb) (mrecvBody d a tmo mb) := .any rfl rfl
  have hpeek : Performs s (.mpeek g d mb) _ := .any rfl rfl
  have hrel : Performs s (.mrel g a mb) _ := .any rfl rfl
  refine ⟨fun hbad => hcfg.traps (mcfgBody_misplaced hbad), fun h0 h1 hr => ?_, fun hdis => hrecv.traps (mrecvBody_disabled hdis),
    fun hen hsq hh => hrecv.completes (mrecvBody_takes hen hsq hh), fun hen hsq hh => ?_, fun hh => hpeek.completes ?_,
    fun hh => hpeek.completes ?_, fun ht => hrel.completes ?_, fun ht => hrel.traps ?_⟩
  · intro m1 ok
    have hrun := mcfgBody_read (mb := mb) h0 h1 hr
    refine ⟨fun hok => hcfg.traps ?_, fun hok => hcfg.completes ?_⟩
    · rw [hrun, show s1.mcfgGood mb n = false from hok]; rfl
    · rw [hrun, show s1.mcfgGood mb n = true from hok]; rfl
  · intro pn n wt whole
    have hrun := mrecvBody_awaits (d := d) (a := a) (tmo := tmo) hen hsq hh
    have hwt : s.objectWait o (s.ticksOf a tmo) = wt := by
      simp only [State.objectWait, State.ticksOf, wt, n, Fin.ext_iff]; rfl
    refine ⟨fun hw => hrecv.traps ?_, fun hw hl => hrecv.completes ?_, fun hw hl hheld => ?_⟩
    · rw [hrun, M.bind_run, waitOn_poisoned hw]
    · rw [hrun, M.bind_ok (waitOn_over hw (hwt ▸ hl))]; rfl
    · have := hrecv.waits (by rw [hrun, M.bind_run, waitOn_waits hw (hwt ▸ hl) hheld])
      rw [hwt, s.seq.carry_carry] at this
      split at this
      · exact this
      · exact this
  · change (s.mbx s.cur.1 mb.val).head = _ at hh
    rw [M.bind_ok (getState_run s)]; simp only [hh]; rfl
  · change (s.mbx s.cur.1 mb.val).head = _ at hh
    rw [M.bind_ok (getState_run s)]; simp only [hh]; rfl
  · change (s.mbx s.cur.1 mb.val).takenAt (s.seq.readS a).toNat = _ at ht
    rw [M.bind_ok (readS_run a s), M.bind_ok (getState_run s)]; simp only [ht]; rfl
  · change (s.mbx s.cur.1 mb.val).takenAt (s.seq.readS a).toNat = _ at ht
    rw [M.bind_ok (readS_run a s), M.bind_ok (getState_run s)]; simp only [ht]; rfl

theorem nlinkSetsForwarding : NlinkSetsForwarding := by
  intro s g fe fw clr hm
  let s' := s.modMe (Core.setForwarding fe fw clr)
  have hlink : Performs s (.nlink g fe fw clr) (modState (·.modMe (Core.setForwarding fe fw clr)) >>= fun _ => pure .fall) := .any rfl rfl
  have hstep : exec (.nlink g fe fw clr) s = .next (s'.retire 8 .fall) := hlink.completes (M.bind_ok (modState_run _ s)) hm
  have hown : s'.core s.cur.1 = s.me.setForwarding fe fw clr := by simp [s', State.modMe, State.me]
  have hme : (s'.retire 8 .fall).me = _ := (s'.core_retire 8 .fall s.cur.1).trans ((if_pos rfl).trans (by rw [State.modMe_cur, hown]))
  refine ⟨_, hstep, ?_, ?_, ?_, ?_, fun p hp => ?_, fun r => ?_, fun _ => rfl⟩
  · rw [hme]; rfl
  · rw [hme]; rfl
  · rw [hme]; rfl
  · rw [hme]; rfl
  · rw [s'.core_retire 8 .fall p, State.modMe_cur, if_neg hp]
    exact (s.core_modCore _ _ _).trans (if_neg hp)
  · rw [State.retire_seq, Seq.retire_readS]
    simp [s', State.seq, State.seqAt, State.strand, State.modMe, Core.setForwarding]

/-- Settles O23: each instruction from its body. -/
theorem mailboxesAndLinks : Obligations.MailboxesAndLinks :=
  ⟨mailboxInstructionsTakeAndFreeSlots, nlinkSetsForwarding⟩

end Sys2Proof.Proofs
end

section
/-! What arrives at a core: active messages, plain deposits, replies and Gaussian deposits (03 R38; 10 R149 to R158; 18 R255). -/

namespace Sys2Proof.Machine

/-! ### Active messages at an inbox (03 R38) -/

section
variable {s u : State} {p : Place} {m : Msg} {d : Desc}

/-- A message for a handler whose features the core has is refused by a full inbox. -/
theorem State.offered_refused (a n : Nat) (hd : s.handler (s.partNo p) p (hdrHidx m.hdr) (hdrGen m.hdr) = some d)
    (hf : Machine.meets (s.core p).feat d.freq = true) (hfull : 64 ≤ (s.core p).work.inbox.length) :
    s.offered p m a n = (s, .refused (s.core p).hint) := by
  have hoffer : s.offer p m = .refused (s.core p).hint := by
    simp only [State.offer, hd, hf, Bool.not_true, Bool.false_eq_true, if_false, if_pos hfull]
  simp only [State.offered, hoffer]

/-- An offer that is not sent on is answered to the sender. -/
theorem State.arriveActive_answered {k : Packet} {q : SeqId} {r : Offer} (ho : (s.dropPacket k.num).offered k.dst m k.src k.num = (u, r))
    (hr : ∀ q, r ≠ .forward q) : s.arriveActive k m (some q) none = u.answerTo k q (.msg r.answer.1 r.answer.2) := by
  simp only [State.arriveActive, Option.getD_none, ho]

theorem State.inbox_enterInbox (s : State) (p : Place) (m : Msg) (a n : Nat) : ((s.enterInbox p m a n).core p).work.inbox =
    (s.core p).work.inbox ++ [⟨m, a, n, s.tick, s.fab.nextNum, m.pass, m.up⟩] := by
  rw [State.enterInbox, State.modWork, State.core_modCore, if_pos rfl]; rfl

end

/-! ### Mailboxes after updates of other parts -/

@[simp] theorem State.mbx_setMbx_same (s : State) (p : Place) (i : Nat) (m : Mbx) : (s.setMbx p i m).mbx p i = m := by
  simp [State.mbx, State.setMbx, State.objs, State.modObjs]

theorem State.mbx_modWork (s : State) (p q : Place) (i : Nat) (f : Work → Work) : (s.modWork p f).mbx q i = s.mbx q i := by
  rw [State.mbx, State.objs, State.modWork, State.core_modCore]
  split
  next h => rw [h]; rfl
  next => rfl

theorem State.refuses_modWork (s : State) (p q : Place) (m : Mbx) (f : Work → Work) : (s.modWork p f).refuses q m = s.refuses q m := by
  have hobjs : (s.modWork p f).objs q = s.objs q := by
    rw [State.objs, State.modWork, State.core_modCore]
    split
    next h => rw [h]; rfl
    next => rfl
  simp only [State.refuses, State.gated, State.stash, hobjs]

/-! ### Plain deposits (10 R158) -/

section
variable {s : State} {p src : Place} {mb : Nat} {pays : List Word}

theorem State.depositPlain_kind (h : (s.mbx p mb).enabled = false ∨ (s.mbx p mb).gaussian = true) : s.depositPlain p mb pays src = (s, 4, 0) := by
  rw [State.depositPlain, if_pos]
  simpa using h

variable (he : (s.mbx p mb).enabled = true) (hg : (s.mbx p mb).gaussian = false)
include he hg

theorem State.depositPlain_refused (hr : s.refuses p (s.mbx p mb) = true) :
    s.depositPlain p mb pays src = (s.setMbx p mb (s.mbx p mb).refuse, 1, (s.core p).hint) := by
  rw [State.depositPlain, if_neg (by simp [he, hg]), if_pos hr]

theorem State.depositPlain_fills {i : Nat} {is : List Nat} (hr : s.refuses p (s.mbx p mb) = false) (hf : (s.mbx p mb).freeFromWix = i :: is) :
    s.depositPlain p mb pays src =
      ((s.nextNumber.setMbx p mb { (s.mbx p mb).putSlot i (.filled s.tick s.fab.nextNum src 0 0 0 false) with
          wix := (i + 1) % (s.mbx p mb).depth }).writeCp p ((s.mbx p mb).offset i) (plainSlot pays src 0 s.tick), 0, 0) := by
  rw [State.depositPlain, if_neg (by simp [he, hg]), if_neg (by simp [hr])]
  simp only [hf]

end

/-! ### Gaussian deposits (18 R255) -/

/-- The lowest-numbered free slot. -/
theorem find_isFree_zipIdx {l : List Slot} {i : Nat} (hi : l[i]? = some .free) (hlow : ∀ j < i, l[j]? ≠ some .free) :
    (l.zipIdx.find? fun e => e.1.isFree) = some (.free, i) := by
  obtain ⟨hlt, hget⟩ := List.getElem?_eq_some_iff.1 hi
  refine List.find?_eq_some_iff_getElem.2 ⟨rfl, i, by simpa using hlt, by simp [hget], fun j hj => ?_⟩
  have hne : l[j] ≠ .free := fun h => hlow j hj (List.getElem?_eq_some_iff.2 ⟨_, h⟩)
  rw [List.getElem_zipIdx]
  cases hx : l[j] with
  | free => exact absurd hx hne
  | _ => rfl

/-- A slot of a mailbox with an image in it, and its bytes. -/
def State.fillGauss (s : State) (p : Place) (mb i tick order : Nat) (res ver : Lane) (src : Place) (n : Nat) (img : List Lane) : State :=
  (s.setMbx p mb ((s.mbx p mb).putSlot i (.filled tick order src res ver n false))).writeCp p ((s.mbx p mb).offset i)
    (gaussSlot res ver src n tick img)

section
variable {s : State} {p src : Place} {mb n i : Nat} {res ver : Lane} {img : List Lane}

theorem State.depositGauss_kind
    (h : (s.mbx p mb).enabled = false ∨ (s.mbx p mb).gaussian = false ∨ (s.mbx p mb).slotSize < 32 + 2 * n * (n + 3)) :
    s.depositGauss p mb res ver n img src = (s, 4, 0) := by
  replace h : _ ∨ _ ∨ (s.mbx p mb).slotSize < 32 + imageSize n := h
  rw [State.depositGauss, if_pos]
  simpa [or_assoc] using h

variable (he : (s.mbx p mb).enabled = true) (hg : (s.mbx p mb).gaussian = true) (hs : 32 + 2 * n * (n + 3) ≤ (s.mbx p mb).slotSize)

include he hg hs in
/-- A Gaussian mailbox whose slots hold the image. -/
theorem State.holdsImage :
    ¬ (!(s.mbx p mb).enabled || !(s.mbx p mb).gaussian || decide ((s.mbx p mb).slotSize < 32 + imageSize n)) = true := by
  rw [he, hg, imageSize, decide_eq_false (Nat.not_lt.2 hs)]
  exact Bool.false_ne_true

section
variable {tick order n' : Nat} {c : Place} {r' old : Lane} {fl : Bool} (hv : ver ≠ 0)
  (hx : (s.mbx p mb).versioned src = some (i, .filled tick order c r' old n' fl))
include hv hx

theorem State.gaussOrder_versioned : s.gaussOrder (s.mbx p mb) src ver = order := by
  simp only [State.gaussOrder, hx, if_neg hv]

include he hg hs

/-- A newer version takes the place of the older one of its source; one that is not newer stores nothing. -/
theorem State.depositGauss_versioned : s.depositGauss p mb res ver n img src =
    if 1 ≤ (ver - old).toNat ∧ (ver - old).toNat < 2 ^ 31 then (s.fillGauss p mb i tick order res ver src n img, 0, 0) else (s, 0, 0) := by
  rw [State.depositGauss, if_neg (State.holdsImage he hg hs)]
  simp only [if_neg hv, hx]
  rfl

end

section
variable (hv : ver = 0 ∨ (s.mbx p mb).versioned src = none)
include hv

theorem State.gaussOrder_new : s.gaussOrder (s.mbx p mb) src ver = s.fab.nextNum := by
  rw [State.gaussOrder]
  obtain hv | hv := hv
  · split
    · exact if_pos hv
    · rfl
  · rw [hv]

theorem unversioned : (if ver = 0 then none else (s.mbx p mb).versioned src) = none := by
  obtain hv | hv := hv
  · exact if_pos hv
  · rw [hv, ite_self]

include he hg hs

theorem State.depositGauss_refused (hr : s.refuses p (s.mbx p mb) = true) :
    s.depositGauss p mb res ver n img src = (s.setMbx p mb (s.mbx p mb).refuse, 1, (s.core p).hint) := by
  rw [State.depositGauss, if_neg (State.holdsImage he hg hs)]
  simp only [unversioned hv, hr, if_true]

variable (hr : s.refuses p (s.mbx p mb) = false)
include hr

theorem State.depositGauss_circular (hm : (s.mbx p mb).rmode = 0) (hf : (s.mbx p mb).freeFromWix.head? = some i) :
    s.depositGauss p mb res ver n img src =
      ((s.nextNumber.fillGauss p mb i s.tick s.fab.nextNum res ver src n img).setMbx p mb
        { (s.mbx p mb).putSlot i (.filled s.tick s.fab.nextNum src res ver n false) with wix := (i + 1) % (s.mbx p mb).depth }, 0, 0) := by
  have hfree : (s.mbx p mb).gaussFree = some i := (if_pos hm).trans hf
  have hfill (u : State) (m : Mbx) (off : Nat) (bs : List Byte) : ((u.setMbx p mb m).writeCp p off bs).mbx p mb = m := u.mbx_setMbx_same p mb m
  rw [State.depositGauss, if_neg (State.holdsImage he hg hs)]
  simp only [unversioned hv, hr, Bool.false_eq_true, if_false, hfree, if_pos hm, hfill]
  rfl

theorem State.depositGauss_lowest (hm : (s.mbx p mb).rmode ≠ 0) (hi : (s.mbx p mb).slots[i]? = some .free)
    (hlow : ∀ j < i, (s.mbx p mb).slots[j]? ≠ some .free) :
    s.depositGauss p mb res ver n img src = (s.nextNumber.fillGauss p mb i s.tick s.fab.nextNum res ver src n img, 0, 0) := by
  have hfree : (s.mbx p mb).gaussFree = some i := (if_neg hm).trans (by rw [find_isFree_zipIdx hi hlow]; rfl)
  rw [State.depositGauss, if_neg (State.holdsImage he hg hs)]
  simp only [unversioned hv, hr, Bool.false_eq_true, if_false, hfree, if_neg hm]
  rfl

end

end

end Sys2Proof.Machine

namespace Sys2Proof.Proofs

open Sys2Proof Sys2Proof.Machine Sys2Proof.Claims

theorem activeMessagesArriveAtTheInbox : ActiveMessagesArriveAtTheInbox := by
  intro s src dst k m q d s0 hk hb he hdst hd hf
  subst hdst
  have hstep : exec (.activeMessageArrival src k.dst) s = .next (s.arriveActive k m (some q) none) := by
    change execActiveMessageArrival src k.dst s = _
    simp only [execActiveMessageArrival, hk, hb, he]
  refine ⟨fun hroom => ?_, fun hfull => ?_⟩
  · have ho := State.offered_accepted k.src k.num hd (beq_iff_eq.1 hf) hroom
    rw [State.arriveActive_answered ho (fun _ => Offer.noConfusion)] at hstep
    obtain ⟨r, hr, -, hrd, hrv, hrb, hrs⟩ := State.mem_net_answerTo _ k q _
    exact ⟨_, _, hstep, by rw [State.core_answerTo]; exact s0.inbox_enterInbox k.dst m k.src k.num, rfl, rfl, rfl, r, hr, hrd, hrv, hrb, hrs⟩
  · have ho := State.offered_refused k.src k.num hd hf hfull
    rw [State.arriveActive_answered ho (fun _ => Offer.noConfusion)] at hstep
    obtain ⟨r, hr, -, hrd, hrv, hrb, hrs⟩ := State.mem_net_answerTo _ k q _
    exact ⟨_, hstep, by rw [State.core_answerTo]; rfl, r, hr, hrd, hrv, hrb, hrs⟩

theorem depositsFillAFreeSlot : DepositsFillAFreeSlot := by
  intro s src dst k mb pays q i is s0 m hk hb he
  have hstep {u : State} {st h : Nat} (hd : s0.depositPlain dst mb pays src = (u, st, h)) : exec (.mailboxDeposit src dst) s =
      .next ((if st = 0 then u.movePub (.packet k.num) (.deposit s.fab.nextNum) else u).answerDeposit k mb q st h) := by
    change execMailboxDeposit src dst s = _
    simp only [execMailboxDeposit, hk, hb, he]
    rw [hd]
  exact ⟨fun hkind => hstep (State.depositPlain_kind (s := s0) hkind), fun hen hg hr => hstep (State.depositPlain_refused (s := s0) hen hg hr),
    fun hen hg hr hf => hstep (State.depositPlain_fills (s := s0) hen hg hr hf)⟩

theorem repliesLandInTheirReservedSlot : RepliesLandInTheirReservedSlot := by
  intro s src dst k mb num i abort pays m hk hb he hi
  have hstep : exec (.replyArrival src dst) s =
      .next (((s.dropPacket k.num).depositReply dst mb num abort pays src).movePub (.packet k.num) (.deposit s.fab.nextNum)) := by
    change execReplyArrival src dst s = _
    simp only [execReplyArrival, hk, hb, he]
    rw [if_pos (by rw [hi]; rfl)]
  have hland : (s.dropPacket k.num).depositReply dst mb num abort pays src =
      ((s.dropPacket k.num).nextNumber.setMbx dst mb (m.putSlot i (.filled s.tick s.fab.nextNum src 0 0 0 false))).writeCp dst
        (m.offset i) (plainSlot pays src (if abort then 2 else 1) s.tick) := by
    simp only [State.depositReply]
    rw [show ((s.dropPacket k.num).mbx dst mb).reservedAt num = some i from hi]
    rfl
  rw [hland] at hstep
  exact ⟨_, hstep, (s.dropPacket k.num).nextNumber.mbx_setMbx_same dst mb _, rfl⟩

theorem gaussianDepositsAssembleAndLand : GaussianDepositsAssembleAndLand := by
  intro s src dst k mb n i res ver old r' img q started tick order n' c fl hk hb m s0
  have hm : s0.mbx dst mb = m := State.mbx_modWork _ _ _ _ _
  have hrefuses : s0.refuses dst m = s.refuses dst m := State.refuses_modWork _ _ _ _ _
  have hhint : (s0.core dst).hint = (s.core dst).hint := by
    simp only [s0, State.modWork, State.core_modCore, if_true]; rfl
  have hstep {u : State} {st h o : Nat} (hst : started = true) (ho : s0.gaussOrder (s0.mbx dst mb) src ver = o)
      (hd : s0.depositGauss dst mb res ver n img src = (u, st, h)) : exec (.gaussianDeposit src dst) s =
        .next ((if st = 0 then u.movePub (.packet k.num) (.deposit o) else u).answerDeposit k mb q st h) := by
    change execGaussianDeposit src dst s = _
    subst ho
    simp only [execGaussianDeposit, hk, hb, hst, Bool.not_true, Bool.false_eq_true, if_false]
    rw [hd]
  rw [← hm] at hrefuses ⊢
  rw [← hhint, ← hrefuses]
  refine ⟨fun hst hroom => ?_, fun hst hfull => ?_, fun hst hkind => hstep hst rfl (State.depositGauss_kind hkind),
    fun hst he hg hs => ⟨fun hv hx => ⟨fun hnew => ?_, fun hold => ?_⟩,
      fun hv => ⟨fun hr => ?_, fun hr => ⟨fun hrm hf => ?_, fun hrm hi hlow => ?_⟩⟩⟩⟩
  · subst hst
    have hfirst : exec (.gaussianFirstPacket src dst) s = .next ((s.setBody k.num (.gauss mb res ver n img true q)).modWork dst fun w =>
        { w with asm := w.asm ++ [(src, k.num)] }) := by
      change execGaussianFirstPacket src dst s = _
      simp only [execGaussianFirstPacket, hk, hb, if_neg (Nat.not_le.2 hroom)]
    refine ⟨_, hfirst, ?_, rfl⟩
    rw [State.modWork, State.core_modCore, if_pos rfl]
    rfl
  · subst hst
    change execGaussianFirstPacket src dst s = _
    simp only [execGaussianFirstPacket, hk, hb, if_pos hfull]
    rw [hhint]
  · exact hstep hst (State.gaussOrder_versioned hv hx) ((State.depositGauss_versioned he hg hs hv hx).trans (if_pos hnew))
  · exact hstep hst (State.gaussOrder_versioned hv hx) ((State.depositGauss_versioned he hg hs hv hx).trans (if_neg hold))
  · exact hstep hst rfl (State.depositGauss_refused he hg hs hv hr)
  · exact hstep hst (State.gaussOrder_new hv) (State.depositGauss_circular he hg hs hv hr hrm hf)
  · exact hstep hst (State.gaussOrder_new hv) (State.depositGauss_lowest he hg hs hv hr hrm hi hlow)

/-- Settles O24: each arrival by the branch of its arbiter that its hypotheses choose. -/
theorem messagesArrive : Obligations.MessagesArrive :=
  ⟨activeMessagesArriveAtTheInbox, depositsFillAFreeSlot, repliesLandInTheirReservedSlot, gaussianDepositsAssembleAndLand⟩

end Sys2Proof.Proofs
end

section
/-! The header of a `send` from a core whose place has more than 16 bits (10 R150): its source field carries into the bit that asks
for a reply. -/

namespace Sys2Proof.Machine

/-- The header bit that asks for a reply is clear in every active message on the mesh. -/
def State.asksNoReply (s : State) : Bool :=
  s.fab.net.all fun k =>
    match k.body with
    | .active m _ _ => !hdrRw m.hdr
    | _ => true

/-- A core that may send to core 0, with mailbox 0 of two free plain slots; its s2 asks for a reply into that mailbox. -/
def askingCore : Core :=
  { Core.reset with
    oldTabs := some ([(0, 0x8000)], [(0, 1)])
    objs := { Objs.reset with mbs := [(0, Mbx.reset.configure (1 + 2 ^ 10 + 2 ^ 14 + 2 ^ 21))] }
    st := { Strand.reset with as := Seq.reset.writeS 2 (2 ^ 14) } }

/-- The core stands at place 2^47, which the state's type allows and the 16 bits of a place (01 R10) do not. -/
def farSender : State := { State.reset with cores := [(2 ^ 47, askingCore)], cur := (2 ^ 47, .as) }

/-- The packet that the far core's `send` puts on the mesh asks for no reply. -/
theorem send_farSender_asksNoReply :
    (match exec (.send ⟨false, 0⟩ 0 0 2 0 0) farSender with | .next t => t.asksNoReply | _ => true) = true := by
  decide +kernel

end Sys2Proof.Machine

namespace Sys2Proof.Proofs

open Sys2Proof Sys2Proof.Machine Sys2Proof.Claims

/-- `farSender` meets the conditions under which a message leaves. -/
theorem farSender_clearToSend : Claims.State.clearToSend farSender :=
  ⟨⟨rfl, rfl, rfl, rfl, rfl, rfl, rfl⟩, rfl, fun _ => rfl, by decide +kernel, by decide +kernel⟩

theorem farSender_meets_send : farSender.meets (.send ⟨false, 0⟩ 0 0 2 0 0) := by
  have hopen : farSender.seq.passes ⟨false, 0⟩ = true := by decide +kernel
  exact ⟨_, rfl, (Fits.any farSender ⟨false, 0⟩).seqs.mp rfl, Nat.zero_le _, BitVec.zero_and, hopen⟩

/-- Refutes O22: `MessagesLeaveAsOnePacket` speaks of every current place, and a header word is the sum of its fields. From place
2^47 a `send` that asks for a reply adds the source 2^47 to the reply bit 2^47, so that bit 47 of the header is 0. -/
theorem not_messagesAreSentAndAnswered : ¬ Obligations.MessagesAreSentAndAnswered := by
  rintro ⟨-, hleave, -⟩
  have hplace : farSender.checkCore (farSender.seq.readS 0).toNat = .ok 0 := by decide +kernel
  obtain ⟨-, -, -, hreply⟩ := hleave farSender ⟨false, 0⟩ 0 0 2 0 0 0 0 0 0 false 0 farSender_clearToSend hplace
  obtain ⟨-, hsend⟩ := hreply (by decide +kernel) (.send ⟨false, 0⟩ 0 0 2 0 0) List.mem_cons_self
  obtain ⟨t, k, m, num, ht, -, hk, -, hbody, -, hbit, -⟩ := hsend (by decide +kernel) (by decide +kernel) 0 [1] (by decide +kernel)
    farSender_meets_send
  have hnone : t.asksNoReply = true := by
    have h := send_farSender_asksNoReply
    rwa [ht] at h
  have hclear := List.all_eq_true.1 hnone k hk
  rw [hbody] at hclear
  replace hclear : (!m.hdr.getLsbD 47) = true := hclear
  rw [hbit] at hclear
  exact Bool.false_ne_true hclear

end Sys2Proof.Proofs
end

section
/-! Elements of a vector register (12 R168): what an element reads after elements are replaced, one slot of bits for each element
whatever its width, and the claims about whole registers in those terms. -/

namespace Sys2Proof.Machine

open Sys2Proof.Claims

/-! ### Numbered cells written one after another -/

section
variable {σ β γ : Type} {set : σ → Nat → β → σ} {get : σ → Nat → γ} {val : β → γ} {n : Nat}
  (hset : ∀ v, ∀ i < n, ∀ b j, get (set v i b) j = if j = i then val b else get v j)
  {l : List (Nat × β)} (hl : ∀ p ∈ l, p.1 < n)
include hset hl

theorem get_foldl_set_of_not_mem (v : σ) {j : Nat} (hj : ∀ p ∈ l, p.1 ≠ j) :
    get (l.foldl (fun v p => set v p.1 p.2) v) j = get v j := by
  induction l generalizing v with
  | nil => rfl
  | cons p l ih =>
    rw [List.forall_mem_cons] at hl hj
    rw [List.foldl_cons, ih hl.2 _ hj.2, hset _ _ hl.1, if_neg hj.1.symm]

/-- Of cells with distinct numbers each holds what was written to it. -/
theorem get_foldl_set_of_mem (hn : (l.map Prod.fst).Nodup) (v : σ) {j : Nat} {b : β} (hj : (j, b) ∈ l) :
    get (l.foldl (fun v p => set v p.1 p.2) v) j = val b := by
  induction l generalizing v with
  | nil => nomatch hj
  | cons p l ih =>
    rw [List.forall_mem_cons] at hl
    rw [List.map_cons, List.nodup_cons] at hn
    rw [List.foldl_cons]
    obtain rfl | hj := List.mem_cons.mp hj
    · have hp : ∀ q ∈ l, q.1 ≠ j := fun q hq he => hn.1 (List.mem_map.mpr ⟨q, hq, he⟩)
      rw [get_foldl_set_of_not_mem hset hl.2 _ hp, hset _ _ hl.1, if_pos rfl]
    · exact ih hl.2 hn.2 _ hj

end

/-! ### Lanes -/

theorem laneAt_setLane {v : Lanes} {i : Nat} (hi : i < 32) (w : Lane) (j : Nat) :
    laneAt (setLane v i w) j = if j = i then w else laneAt v j := by
  simp only [laneAt, setLane, hi, dif_pos, Vector.getElem?_set, eq_comm (a := i)]
  split <;> rfl

theorem laneAt_mapLanes (m : Lane) (d : Lanes) (f : Nat → Lane) {e : Nat} (he : e < 32) :
    laneAt (mapLanes m d f) e = if m.getLsbD e then f e else laneAt d e := by
  simp [laneAt, mapLanes, he]

theorem laneOf_eq (x : XT) (r : Nat) : laneOf x r = (extendAs x (widthOf x) r).setWidth 32 := by
  unfold laneOf extendAs
  split
  · refine BitVec.eq_of_toNat_eq ?_
    rw [BitVec.toNat_setWidth, BitVec.toNat_ofInt, BitVec.toNat_ofInt]
    omega
  · exact (BitVec.setWidth_ofNat_of_le (by decide) _).symm

/-! ### One slot of bits for each element -/

theorem elemAt_lt (x : XT) (v : Lanes) (e : Nat) : elemAt x v e < 2 ^ widthOf x := by
  unfold elemAt
  split
  · next h => subst h; have := (laneAt v (2 * e)).isLt; have := (laneAt v (2 * e + 1)).isLt; simp only [widthOf]; omega
  · exact mod_two_pow_lt _ _

/-- The bits that element `e` occupies: its two lanes under FP64, its lane under any other code. -/
def slotAt (x : XT) (v : Lanes) (e : Nat) : Nat := if x = .f64 then elemAt x v e else (laneAt v e).toNat

/-- What an element's slot holds once the element is replaced by `r`. -/
def slotBits (x : XT) (r : Nat) : Nat := if x = .f64 then r % 2 ^ 64 else (laneOf x r).toNat

theorem slotAt_setElem {x : XT} {e : Nat} (he : e < elemCount x) (v : Lanes) (r j : Nat) :
    slotAt x (setElem x v e r) j = if j = e then slotBits x r else slotAt x v j := by
  by_cases hx : x = .f64
  · subst hx
    have he' : e < 16 := he
    simp only [slotAt, slotBits, setElem, elemAt, if_true]
    rw [laneAt_setLane (by omega), laneAt_setLane (by omega), laneAt_setLane (by omega), laneAt_setLane (by omega)]
    by_cases hj : j = e
    · subst hj; simp; omega
    · simp [hj, show 2 * j ≠ 2 * e + 1 by omega, show 2 * j + 1 ≠ 2 * e by omega]
  · have he' : e < 32 := by simpa [elemCount, hx] using he
    simp only [slotAt, slotBits, setElem, hx, if_false, laneAt_setLane he']
    split <;> rfl

/-- Elements replaced one after another. -/
def setElems (x : XT) (v : Lanes) (l : List (Nat × Nat)) : Lanes := l.foldl (fun v p => setElem x v p.1 p.2) v

theorem slotAt_setElems_of_not_mem {x : XT} {l : List (Nat × Nat)} (hl : ∀ p ∈ l, p.1 < elemCount x) (v : Lanes) {j : Nat}
    (hj : ∀ p ∈ l, p.1 ≠ j) : slotAt x (setElems x v l) j = slotAt x v j :=
  get_foldl_set_of_not_mem (fun v _ he r j => slotAt_setElem he v r j) hl v hj

/-- The elements of distinct numbers hold what replaced them. -/
theorem slotAt_setElems_of_mem {x : XT} {l : List (Nat × Nat)} (hl : ∀ p ∈ l, p.1 < elemCount x)
    (hn : (l.map Prod.fst).Nodup) (v : Lanes) {j r : Nat} (hj : (j, r) ∈ l) : slotAt x (setElems x v l) j = slotBits x r :=
  get_foldl_set_of_mem (fun v _ he r j => slotAt_setElem he v r j) hl hn v hj

/-! ### Active elements -/

theorem mem_activeElems {x : XT} {m : Lane} {e : Nat} : e ∈ activeElems x m ↔ e < elemCount x ∧ activeElem x m e = true := by
  rw [activeElems, List.mem_filter, List.mem_range]

theorem activeElems_nodup (x : XT) (m : Lane) : (activeElems x m).Nodup := List.nodup_range.filter _

/-- VECOP's count of active elements. -/
theorem activeElems_length (x : XT) (m : Lane) : (activeElems x m).length = (List.range (elemCount x)).countP (activeElem x m) :=
  List.countP_eq_length_filter.symm

/-- The claim about a register's active elements, slot by slot. -/
theorem elemsAre_iff {x : XT} {m : Lane} {old v : Lanes} {f : Nat → Nat} : elemsAre x m old v f ↔
    ∀ e < elemCount x, slotAt x v e = if activeElem x m e then slotBits x (f e) else slotAt x old e := by
  unfold elemsAre slotAt slotBits elemCount activeElem
  by_cases hx : x = .f64
  · simp only [hx, if_true]
  · simp only [hx, if_false, laneOf_eq, ← BitVec.toNat_inj, apply_ite BitVec.toNat]

theorem elemsAre_setElems (x : XT) (m : Lane) (old : Lanes) (f : Nat → Nat) :
    elemsAre x m old (setElems x old ((activeElems x m).map fun e => (e, f e))) f := by
  have hl : ∀ p ∈ (activeElems x m).map fun e => (e, f e), p.1 < elemCount x := by
    rintro p hp
    obtain ⟨e, he, rfl⟩ := List.mem_map.mp hp
    exact (mem_activeElems.mp he).1
  refine elemsAre_iff.mpr fun e he => ?_
  by_cases ha : activeElem x m e = true
  · rw [if_pos ha]
    refine slotAt_setElems_of_mem hl ?_ old (List.mem_map.mpr ⟨e, mem_activeElems.mpr ⟨he, ha⟩, rfl⟩)
    rw [List.map_map]
    exact (List.map_id _).symm ▸ activeElems_nodup x m
  · rw [if_neg ha]
    refine slotAt_setElems_of_not_mem hl old fun p hp hpe => ha ?_
    obtain ⟨e', he', rfl⟩ := List.mem_map.mp hp
    exact hpe ▸ (mem_activeElems.mp he').2

/-! ### Flags gathered beside elements -/

/-- Two folds side by side. -/
theorem foldl_pair {α β ι : Type} (g : α → ι → α) (h : β → ι → β) (l : List ι) (a : α) (b : β) :
    l.foldl (fun r e => (g r.1 e, h r.2 e)) (a, b) = (l.foldl g a, l.foldl h b) := by
  induction l generalizing a b with
  | nil => rfl
  | cons e l ih => exact ih _ _

theorem getLsbD_foldl_or {ι : Type} (f : ι → Flags) (l : List ι) (a : Flags) (b : Nat) :
    (l.foldl (fun a e => a ||| f e) a).getLsbD b = (a.getLsbD b || l.any fun e => (f e).getLsbD b) := by
  induction l generalizing a with
  | nil => simp
  | cons e l ih => simp [ih, Bool.or_assoc]

theorem raised_foldl (x : XT) (m : Lane) (f : Nat → Flags) : raised x m ((activeElems x m).foldl (fun a e => a ||| f e) 0) f := by
  intro b _
  rw [getLsbD_foldl_or]
  simp [mem_activeElems, and_assoc]

theorem mapActive_eq (x : XT) (m : Lane) (d : Lanes) (f : Nat → Nat × Flags) : mapActive x m d f =
    (setElems x d ((activeElems x m).map fun e => (e, (f e).1)), (activeElems x m).foldl (fun a e => a ||| (f e).2) 0) := by
  rw [mapActive, setElems, List.foldl_map]
  exact foldl_pair (fun v e => setElem x v e (f e).1) (fun a e => a ||| (f e).2) _ d 0

theorem elemsAre_mapActive (x : XT) (m : Lane) (d : Lanes) (f : Nat → Nat × Flags) :
    elemsAre x m d (mapActive x m d f).1 fun e => (f e).1 := by
  rw [mapActive_eq]
  exact elemsAre_setElems x m d _

theorem raised_mapActive (x : XT) (m : Lane) (d : Lanes) (f : Nat → Nat × Flags) :
    raised x m (mapActive x m d f).2 fun e => (f e).2 := by
  rw [mapActive_eq]
  exact raised_foldl x m _

end Sys2Proof.Machine
end

section
/-! Vector instructions as their bodies (12 R168 to R175): their demands, the check of the destination, the sources, and the
instructions that replace the active elements of one register. -/

namespace Sys2Proof.Machine

open Sys2Proof.Claims

/-! ### Demands -/

/-- Vector instructions. -/
theorem Performs.vec {s : State} {i : Instr} {g : Guard} {ss ds : List Opnd} {f : BitVec 16} {body : M Next}
    (hd : i.demands = some ⟨.lanes g, some .xs, .user, 2 ||| f, ss, ds⟩)
    (hlen : i.len = 8) (he : exec i s = performVec (needVec ss ds f) g body s) : Performs s i body :=
  ⟨fun hm => hlen ▸ he.trans ((Fits.vec s g ss ds f).performs hd hm _ _)⟩

/-- Moves of one element. -/
theorem Performs.lane {s : State} {i : Instr} {g : Guard} {x : XT} {l : Fin 32} {ss ds : List Opnd} {f : BitVec 16} {body : M Next}
    (hd : i.demands = some ⟨.lane g x l, some .xs, .user, 2 ||| f, ss, ds⟩)
    (he : exec i s = performWith i.len (needVec ss ds f) (laneOpen g x l s) body s) : Performs s i body :=
  ⟨fun hm => he.trans ((Fits.lane s g x l ss ds f).performs hd hm _ _)⟩

/-! ### Registers -/

theorem checkVDst_free {r : VReg} {s : State} (h : Table.find s.my.vec.streams r.val = none) : checkVDst r s = .ok ((), s) := by
  rw [checkVDst, h]; rfl

theorem checkVDst_streams {r : VReg} {s : State} (h : (Table.find s.my.vec.streams r.val).isSome = true) :
    checkVDst r s = .error (.trap .streamFault (some (BitVec.ofNat 64 r.val)) .none) := by
  rw [checkVDst, if_pos h]; rfl

theorem guardMask_run (g : Guard) (s : State) : guardMask g s = .ok (s.seq.mask g, s) := rfl

theorem oldV_run (d : VReg) (s : State) : oldV d s = .ok (s.my.vec.v[d.val], s) := rfl

theorem readVSrc_lt {x : XT} {b : VSrc} {s t : State} {v : Nat → Nat} (h : readVSrc x b s = .ok (v, t)) (e : Nat) :
    v e < 2 ^ widthOf x := by
  cases b with
  | vec r =>
    rw [readVSrc, M.bind_run] at h
    split at h
    · cases h; exact elemAt_lt _ _ _
    · cases h
  | sca o =>
    rw [readVSrc, M.bind_run] at h
    split at h
    · cases h; exact mod_two_pow_lt _ _
    · cases h

/-! ### One register written -/

theorem State.partNo_modMy (s : State) (f : Strand → Strand) (p : Place) : (s.modMy f).partNo p = s.partNo p := by
  simp only [State.partNo, State.modMy, State.core_modStrand]
  split
  · next h => rw [h]
  · rfl

/-- The end of a vector instruction: its register, its operations metered, its flags. -/
def vecTail (d : VReg) (v : Lanes) (n : Nat) (f : Flags) : M Next := do
  writeV d v
  meterOps n
  raise f
  pure .fall

theorem vecTail_run (d : VReg) (v : Lanes) (n : Nat) (f : Flags) (s : State) :
    vecTail d v n f s = .ok (.fall, vecState s d v n f) := by
  have hpart := s.partNo_modMy (fun t => { t with vec := { t.vec with v := t.vec.v.set d.val v } }) s.cur.1
  rw [vecState, ← hpart]
  rfl

/-- What an element-wise instruction does once its sources are read. -/
def elemTail (g : Guard) (x : XT) (d : VReg) (f : Nat → Nat × Flags) : M Next := do
  let m ← guardMask g
  let old ← oldV d
  let r := mapActive x m old f
  vecTail d r.1 (activeElems x m).length r.2

/-- An instruction whose body ends by replacing the active elements of `vD`. -/
theorem Performs.givesElems {s s2 : State} {i : Instr} {g : Guard} {x : XT} {d : VReg} {body : M Next} {f r : Nat → Nat × Flags}
    (h : Performs s i body) (hb : body s = elemTail g x d f s2) (hr : ∀ e, f e = r e) : GivesElems i s s2 g x d r := by
  obtain rfl : f = r := funext hr
  refine ⟨_, _, h.completes ?_, elemsAre_mapActive x _ _ f, raised_mapActive x _ s2.my.vec.v[d.val] f⟩
  rw [hb, elemTail, M.bind_ok (guardMask_run g s2), M.bind_ok (oldV_run d s2), ← activeElems_length]
  exact vecTail_run _ _ _ _ s2

section
variable {s s1 s2 s3 : State} {i : Instr} {g : Guard} {x : XT} {d a c : VReg} {b : VSrc} {va vc : Lanes} {v : Nat → Nat}
  {r : Nat → Nat × Flags} (hfree : Table.find s.my.vec.streams d.val = none) (ha : readV a s = .ok (va, s1))
include hfree ha

/-- Instructions of one vector source. -/
theorem givesElems_vecUnary {f : Nat → Nat × Flags} (hd : i.demands = some ⟨.lanes g, some .xs, .user, 2 ||| fp64Bit x, [], []⟩)
    (hlen : i.len = 8) (he : exec i s = vecUnary g x d a f s) (hr : ∀ e, f (elemAt x va e) = r e) : GivesElems i s s1 g x d r := by
  refine Performs.givesElems (.vec hd hlen he) ?_ hr
  rw [M.bind_ok (checkVDst_free hfree), M.bind_ok ha]
  rfl

/-- Instructions of two sources. -/
theorem givesElems_vecBinary {f : Nat → Nat → Nat → Nat × Flags} (hb : readVSrc x b s1 = .ok (v, s2))
    (hd : i.demands = some ⟨.lanes g, some .xs, .user, 2 ||| fp64Bit x, vsrcOpnds b, []⟩) (hlen : i.len = 8)
    (he : exec i s = vecBinary g x d a b f s) (hr : ∀ e, f s2.my.csr.fpmode.toNat (elemAt x va e) (v e) = r e) :
    GivesElems i s s2 g x d r := by
  refine Performs.givesElems (.vec hd hlen he) ?_ hr
  rw [M.bind_ok (checkVDst_free hfree), M.bind_ok ha, M.bind_ok hb, M.bind_ok (roundMode_run s2)]
  rfl

theorem givesElems_vfma (hb : readVSrc x b s1 = .ok (v, s2)) (hc : readV c s2 = .ok (vc, s3)) : GivesElems (.vfma g x d a b c) s s3
    g x d fun e => fMa x s3.my.csr.fpmode.toNat (elemAt x va e) (v e) (elemAt x vc e) := by
  refine Performs.givesElems (.vec rfl rfl rfl) ?_ fun _ => rfl
  rw [M.bind_ok (checkVDst_free hfree), M.bind_ok ha, M.bind_ok hb, M.bind_ok hc, M.bind_ok (roundMode_run s3)]
  rfl

end

/-! ### The meanings of the arithmetic instructions -/

section
variable (g : Guard) (x : XT) (d a : VReg) (b : VSrc) (s : State)

theorem exec_vmul : exec (.vmul g x d a b) s = execVmul g x d a b s := rfl
theorem exec_vmin : exec (.vmin g x d a b) s = execVmin g x d a b s := rfl
theorem exec_vmax : exec (.vmax g x d a b) s = execVmax g x d a b s := rfl
theorem exec_vabs : exec (.vabs g x d a) s = execVabs g x d a s := rfl
theorem exec_vneg : exec (.vneg g x d a) s = execVneg g x d a s := rfl
theorem exec_vshl : exec (.vshl g x d a b) s = execVshl g x d a b s := rfl
theorem exec_vshr : exec (.vshr g x d a b) s = execVshr g x d a b s := rfl
theorem exec_vsra : exec (.vsra g x d a b) s = execVsra g x d a b s := rfl

end

/-! ### Results of one element (12 R173) -/

section
variable {x : XT} {a b : Nat} (ha : a < 2 ^ widthOf x) (hb : b < 2 ^ widthOf x)

theorem intElem_of_lt (ha : a < 2 ^ widthOf x) : intElem x a = (a, 0) := by
  rw [intElem, Int.emod_eq_of_lt (by omega) (by exact_mod_cast ha)]; rfl

include ha hb

theorem bitElem_and : bitElem (· &&& ·) a b = intElem x (a &&& b : Nat) := by
  rw [intElem_of_lt (Nat.and_lt_two_pow _ hb), bitElem, BitVec.toNat_and, toNat_ofNat_of_width ha, toNat_ofNat_of_width hb]

theorem bitElem_or : bitElem (· ||| ·) a b = intElem x (a ||| b : Nat) := by
  rw [intElem_of_lt (Nat.or_lt_two_pow ha hb), bitElem, BitVec.toNat_or, toNat_ofNat_of_width ha, toNat_ofNat_of_width hb]

theorem bitElem_xor : bitElem (· ^^^ ·) a b = intElem x (a ^^^ b : Nat) := by
  rw [intElem_of_lt (Nat.xor_lt_two_pow ha hb), bitElem, BitVec.toNat_xor, toNat_ofNat_of_width ha, toNat_ofNat_of_width hb]

end

theorem elemInt_eq {x : XT} {n : Nat} (h : n < 2 ^ widthOf x) : elemInt x n =
    if x.isSigned then (if n < 2 ^ (widthOf x - 1) then (n : Int) else (n : Int) - 2 ^ widthOf x) else n := by
  rw [elemInt, sval_eq h]

/-- A clamp spelt out. -/
theorem clampTo_eq {x : XT} (hx : x.isInt = true) (r : Int) : clampTo x r =
    (let lo : Int := if x.isSigned then -2 ^ (widthOf x - 1) else 0
     let hi : Int := if x.isSigned then 2 ^ (widthOf x - 1) - 1 else 2 ^ widthOf x - 1
     if r < lo then lo else if hi < r then hi else r) := by
  have hle := low_le_high x
  rw [clampTo, intRange_eq hx]
  dsimp only at *
  generalize (if x.isSigned then -2 ^ (widthOf x - 1) else 0 : Int) = lo at *
  generalize (if x.isSigned then 2 ^ (widthOf x - 1) - 1 else 2 ^ widthOf x - 1 : Int) = hi at *
  split
  · omega
  · split <;> omega

/-- A float element with its sign cleared or inverted. -/
theorem vSignElem_eq (x : XT) (invert : Bool) (n : Nat) : vSignElem x invert n =
    if (decodeF x n).isNan then (canonNan x, if (decodeF x n).isSNan then 16 else 0)
    else (n % 2 ^ (widthOf x - 1) + (if invert && !n.testBit (widthOf x - 1) then 2 ^ (widthOf x - 1) else 0), 0) := by
  have hb (b : Bool) (k : Nat) : b2n b * k = if b then k else 0 := by cases b <;> simp
  unfold vSignElem
  simp only [bitAt_eq, hb]
  cases decodeF x n <;> rfl

end Sys2Proof.Machine

namespace Sys2Proof.Proofs

open Sys2Proof Sys2Proof.Machine Sys2Proof.Claims

/-- Settles O25: the sources are read in order, then the active elements of the destination are replaced. -/
theorem vectorArithmeticResults : Obligations.VectorArithmeticResults := by
  intro s s1 s2 s3 g x d a c b va vc v hfree ha hb w u S V lo hi sat k rm
  have hu (e : Nat) : u e < 2 ^ w := elemAt_lt x va e
  have hv (e : Nat) : v e < 2 ^ w := readVSrc_lt hb e
  have hpow (n : Nat) : ((2 ^ n : Nat) : Int) = 2 ^ n := by push_cast; rfl
  have habs (n : Int) : (n.natAbs : Int) = if n < 0 then -n else n := by split <;> omega
  have hS (e : Nat) : sval w (u e) = S (u e) := sval_eq (hu e)
  have hV {n : Nat} (h : n < 2 ^ w) : elemInt x n = V n := elemInt_eq h
  have one {i : Instr} {f r : Nat → Nat × Flags} := givesElems_vecUnary (i := i) (g := g) (x := x) (f := f) (r := r) hfree ha
  have two {i : Instr} {f : Nat → Nat → Nat → Nat × Flags} {r : Nat → Nat × Flags} :=
    givesElems_vecBinary (i := i) (g := g) (f := f) (r := r) hfree ha hb
  refine ⟨fun hx => ?_, fun hx => ?_⟩
  · have hsat (r : Int) : clampTo x r = sat r := clampTo_eq hx r
    refine ⟨two rfl rfl rfl fun e => ?add, two rfl rfl rfl fun e => ?sub, two rfl rfl rfl fun e => ?adds,
      two rfl rfl rfl fun e => ?subs, two rfl rfl (exec_vmul ..) fun e => ?mul, two rfl rfl (exec_vmin ..) fun e => ?min,
      two rfl rfl (exec_vmax ..) fun e => ?max, one rfl rfl (exec_vabs ..) fun e => ?abs, one rfl rfl (exec_vneg ..) fun e => ?neg,
      two rfl rfl rfl fun e => bitElem_and (hu e) (hv e), two rfl rfl rfl fun e => bitElem_or (hu e) (hv e),
      two rfl rfl rfl fun e => bitElem_xor (hu e) (hv e), two rfl rfl (exec_vshl ..) fun e => ?shl,
      two rfl rfl (exec_vshr ..) fun e => ?shr, two rfl rfl (exec_vsra ..) fun e => ?sra⟩
    case add => rw [vAddElem, if_pos hx]; rfl
    case sub => rw [vSubElem, if_pos hx]; rfl
    case adds => rw [vAddElem, if_pos hx, if_pos rfl, hV (hu e), hV (hv e), hsat]; rfl
    case subs => rw [vSubElem, if_pos hx, if_pos rfl, hV (hu e), hV (hv e), hsat]; rfl
    case mul => rw [if_pos hx]; rfl
    case min => rw [if_pos hx, hV (hu e), hV (hv e), min_def]; rfl
    case max => rw [if_pos hx, hV (hu e), hV (hv e), max_def]; rfl
    case abs => rw [if_pos hx, hS, habs]; rfl
    case neg => rw [if_pos hx, hS]; rfl
    case shl => push_cast; rfl
    case shr => rfl
    case sra => dsimp only; rw [hS, hpow]; rfl
  · refine ⟨two rfl rfl rfl fun e => ?add, two rfl rfl rfl fun e => ?sub, two rfl rfl (exec_vmul ..) fun e => ?mul,
      two rfl rfl (exec_vmin ..) fun e => ?min, two rfl rfl (exec_vmax ..) fun e => ?max, givesElems_vfma hfree ha hb,
      one rfl rfl (exec_vabs ..) fun e => ?abs, one rfl rfl (exec_vneg ..) fun e => ?neg⟩
    case add => rw [vAddElem, hx]; rfl
    case sub => rw [vSubElem, hx]; rfl
    case mul | min | max => rw [hx]; rfl
    case abs | neg => rw [hx]; exact vSignElem_eq x _ _

end Sys2Proof.Proofs
end

section
/-! Vector compares, selects, conversions, broadcasts, moves and permutes (12 R170, R175, R181): what their bodies make of their
sources. -/

namespace Sys2Proof.Machine

open Sys2Proof.Claims

/-! ### A destination in stream mode (12 R170) -/

theorem Performs.streamFault {s : State} {i : Instr} {d : VReg} {k : Unit → M Next} (h : Performs s i (checkVDst d >>= k))
    (hs : (Table.find s.my.vec.streams d.val).isSome = true) : Traps i s .streamFault (BitVec.ofNat 64 d.val) :=
  h.traps (by rw [M.bind_run, checkVDst_streams hs])

/-! ### Predicates of compares -/

/-- The `k` bits of each of the first `n` elements that hold `p`. -/
def bitsOf (k : Nat) (p : Nat → Bool) : Nat → Nat
  | 0 => 0
  | n + 1 => bitsOf k p n + 2 ^ (k * n) * if p n then 2 ^ k - 1 else 0

theorem bitsOf_lt (k : Nat) (p : Nat → Bool) (n : Nat) : bitsOf k p n < 2 ^ (k * n) := by
  induction n with
  | zero => simp [bitsOf]
  | succ n ih =>
    have hk := Nat.two_pow_pos k
    have hle : (if p n then 2 ^ k - 1 else 0) + 1 ≤ 2 ^ k := by split <;> omega
    calc bitsOf k p (n + 1) < 2 ^ (k * n) * ((if p n then 2 ^ k - 1 else 0) + 1) := by rw [bitsOf]; linarith
      _ ≤ 2 ^ (k * n) * 2 ^ k := Nat.mul_le_mul_left _ hle
      _ = 2 ^ (k * (n + 1)) := by rw [← pow_add]; rfl

theorem testBit_bitsOf {k : Nat} (hk : 0 < k) (p : Nat → Bool) (n j : Nat) :
    (bitsOf k p n).testBit j = (decide (j < k * n) && p (j / k)) := by
  induction n with
  | zero => simp [bitsOf]
  | succ n ih =>
    rw [bitsOf, Nat.add_comm, Nat.testBit_two_pow_mul_add _ (bitsOf_lt k p n), ih, Nat.mul_succ]
    by_cases hj : j < k * n
    · simp [hj, show j < k * n + k by omega]
    · rw [if_neg hj]
      by_cases hlt : j < k * n + k
      · have hdiv : j / k = n := Nat.div_eq_of_lt_le (by rw [Nat.mul_comm]; omega) (by rw [Nat.mul_comm, Nat.mul_succ]; omega)
        rw [hdiv]
        cases p n <;> simp [Nat.testBit_two_pow_sub_one, hlt, show j - k * n < k by omega]
      · cases p n <;> simp [Nat.testBit_two_pow_sub_one, hlt, show ¬ j - k * n < k by omega]

/-- A relation of integers. -/
def condHolds (c : Cond) (u v : Int) : Bool :=
  match c with
  | .eq => decide (u = v)
  | .ne => decide (u ≠ v)
  | .lt => decide (u < v)
  | .ge => decide (v ≤ u)
  | .le => decide (u ≤ v)
  | .gt => decide (v < u)

theorem vCmpElem_int (x : XT) (c : Cond) (a b : Nat) :
    vCmpElem x (.int c) a b = (condHolds c (elemInt x a) (elemInt x b), 0) := by cases c <;> rfl

/-- The bits of one element in a predicate. -/
def predBits (x : XT) : Nat := if x = .f64 then 2 else 1

theorem vCmpMask_eq (x : XT) (cc : VCond) (m : Lane) (a b : Nat → Nat) : vCmpMask x cc m a b =
    (bitsOf (predBits x) (fun e => activeElem x m e && (vCmpElem x cc (a e) (b e)).1) (elemCount x),
      (activeElems x m).foldl (fun fl e => fl ||| (vCmpElem x cc (a e) (b e)).2) 0) := by
  rw [vCmpMask]
  refine (foldl_pair (fun n e => n + b2n (vCmpElem x cc (a e) (b e)).1 * if x = .f64 then 3 * 4 ^ e else 2 ^ e)
    (fun fl e => fl ||| (vCmpElem x cc (a e) (b e)).2) _ 0 0).trans (congrArg (·, _) ?_)
  rw [activeElems]
  induction elemCount x with
  | zero => rfl
  | succ n ih =>
    have hunit : (if x = .f64 then 3 * 4 ^ n else 2 ^ n) = 2 ^ (predBits x * n) * (2 ^ predBits x - 1) := by
      unfold predBits
      split
      · rw [pow_mul]; norm_num; ring
      · simp
    rw [List.range_succ, List.filter_append, List.foldl_append, ih, bitsOf]
    cases hact : activeElem x m n with
    | false => simp [hact]
    | true => cases h : (vCmpElem x cc (a n) (b n)).1 <;> simp [-mul_ite, hact, h, hunit]

/-- The predicate of a compare, bit by bit. -/
theorem getLsbD_vCmpMask (x : XT) (cc : VCond) (m : Lane) (a b : Nat → Nat) {j : Nat} (hj : j < 32) :
    (BitVec.ofNat 32 (vCmpMask x cc m a b).1).getLsbD j =
      (let e := if x = .f64 then j / 2 else j
       activeElem x m e && (vCmpElem x cc (a e) (b e)).1) := by
  have hk : 0 < predBits x := by unfold predBits; split <;> decide
  have hall : predBits x * elemCount x = 32 := by unfold predBits elemCount; split <;> rfl
  have hdiv : j / predBits x = if x = .f64 then j / 2 else j := by unfold predBits; split <;> simp
  rw [vCmpMask_eq, BitVec.getLsbD_ofNat, testBit_bitsOf hk, hall, hdiv]
  simp [hj]

theorem vcmp_sets {s s1 s2 : State} {g : Guard} {x : XT} {kd : Fin 8} {cc : VCond} {a : VReg} {b : VSrc} {la : Lanes}
    {v : Nat → Nat} {p : Nat → Bool} {q : Nat → Flags} (ha : readV a s = .ok (la, s1)) (hb : readVSrc x b s1 = .ok (v, s2))
    (hp : ∀ e, vCmpElem x cc (elemAt x la e) (v e) = (p e, q e)) : ∃ (r : Lane) (n : Nat) (fl : Flags),
    Completes (.vcmp g x kd cc a b) s (((s2.modSeq (·.writeK kd r)).modPart (s2.partNo s2.cur.1) fun t =>
        { t with meter := { t.meter with vecop := t.meter.vecop + n } }).raised fl)
      ∧ (∀ j < 32, r.getLsbD j = (let e := if x = .f64 then j / 2 else j
          activeElem x (s2.seq.mask g) e && p e))
      ∧ raised x (s2.seq.mask g) fl q := by
  let r := vCmpMask x cc (s2.seq.mask g) (elemAt x la) v
  refine ⟨BitVec.ofNat 32 r.1, (activeElems x (s2.seq.mask g)).length, r.2, Performs.completes (.vec rfl rfl rfl) ?_,
    fun j hj => ?_, ?_⟩
  · rw [M.bind_ok ha, M.bind_ok hb, M.bind_ok (guardMask_run g s2), ← State.partNo_modSeq s2 (·.writeK kd (BitVec.ofNat 32 r.1))]
    rfl
  · rw [getLsbD_vCmpMask x cc _ _ _ hj]
    simp only [hp]
  · simp only [r, vCmpMask_eq, hp]
    exact raised_foldl x _ q

/-! ### Lanes and elements replaced without flags -/

/-- A state in which `vD` is `v`. -/
def State.putV (s : State) (d : VReg) (v : Lanes) : State :=
  s.modMy fun t => { t with vec := { t.vec with v := t.vec.v.set d.val v } }

/-- The active lanes of `vD` replaced. -/
def laneTail (g : Guard) (d : VReg) (f : Nat → Lane) : M Next := do
  let m ← guardMask g
  let old ← oldV d
  writeV d (mapLanes m old f)
  pure .fall

theorem Performs.givesLanes {s s2 : State} {i : Instr} {g : Guard} {d : VReg} {body : M Next} {f : Nat → Lane}
    (h : Performs s i body) (hb : body s = laneTail g d f s2) : GivesLanes i s s2 g d f :=
  ⟨mapLanes (s2.seq.mask g) s2.my.vec.v[d.val] f, h.completes (by rw [hb]; rfl), fun _ he => laneAt_mapLanes _ _ _ he⟩

section
variable {s s1 s2 : State} {g : Guard} {x fr : XT} {d a b : VReg} {la lb : Lanes} {o : Opnd} {val : Word} {l : Fin 32}
  (hfree : Table.find s.my.vec.streams d.val = none)
include hfree

theorem vsel_givesLanes (ha : readV a s = .ok (la, s1)) (hb : readV b s1 = .ok (lb, s2)) (kc : Fin 8) :
    GivesLanes (.vsel g d a b kc) s s2 g d
      (fun e => if (s2.seq.readK kc).getLsbD e then laneAt la e else laneAt lb e) := by
  refine Performs.givesLanes (.vec rfl rfl rfl) ?_
  rw [M.bind_ok (checkVDst_free hfree), M.bind_ok ha, M.bind_ok hb, M.bind_ok (readK_run kc s2)]
  rfl

theorem vshuf_givesLanes (ha : readV a s = .ok (la, s1)) (hb : readV b s1 = .ok (lb, s2)) : GivesLanes (.vshuf g d a b) s s2 g d
    (fun e => if (laneAt lb e).getLsbD 5 then 0 else laneAt la ((laneAt lb e).toNat % 32)) := by
  refine Performs.givesLanes (.vec rfl rfl rfl) ?_
  rw [M.bind_ok (checkVDst_free hfree), M.bind_ok ha, M.bind_ok hb]
  simp only [bitAt_eq]
  rfl

theorem vmov_givesLanes (ha : readV a s = .ok (la, s1)) : GivesLanes (.vmov g d a) s s1 g d (laneAt la) := by
  refine Performs.givesLanes (.vec rfl rfl rfl) ?_
  rw [M.bind_ok (checkVDst_free hfree), M.bind_ok ha]
  rfl

theorem vbcastLane_completes (ha : readV a s = .ok (la, s1)) : ∃ t, Completes (.vbcast g x d (.lane a l)) s (s1.putV d t)
    ∧ elemsAre x (s1.seq.mask g) s1.my.vec.v[d.val] t (fun _ => elemAt x la l.val) := by
  refine ⟨_, Performs.completes (.vec rfl rfl rfl) ?_, elemsAre_mapActive x _ _ fun _ => (elemAt x la l.val, 0)⟩
  rw [M.bind_ok (checkVDst_free hfree)]
  dsimp only
  rw [M.bind_run, M.bind_ok ha]
  rfl

theorem vbcastScalar_completes (ho : src o s = .ok (val, s1)) : ∃ t, Completes (.vbcast g x d (.sca o)) s (s1.putV d t)
    ∧ elemsAre x (s1.seq.mask g) s1.my.vec.v[d.val] t (fun _ => val.toNat % 2 ^ widthOf x) := by
  refine ⟨_, Performs.completes (.vec rfl rfl rfl) ?_, elemsAre_mapActive x _ _ fun _ => (val.toNat % 2 ^ widthOf x, 0)⟩
  rw [M.bind_ok (checkVDst_free hfree)]
  dsimp only
  rw [M.bind_run, M.bind_ok ho]
  rfl

theorem vmovScalarToLane_completes (ho : src o s = .ok (val, s1)) (hl : l.val < elemCount x) :
    ∃ t, Completes (.vmovScalarToLane g x d l o) s (s1.putV d t)
      ∧ elemsAre x (BitVec.ofNat 32 (if x = .f64 then 4 ^ l.val else 2 ^ l.val)) s1.my.vec.v[d.val] t
          (fun _ => val.toNat % 2 ^ widthOf x) := by
  refine ⟨setElem x s1.my.vec.v[d.val] l.val (val.toNat % 2 ^ widthOf x), Performs.completes (.lane rfl rfl) ?_,
    elemsAre_iff.mpr fun e he => ?_⟩
  · rw [M.bind_ok (checkVDst_free hfree), M.bind_ok ho]
    rfl
  · have hact : activeElem x (BitVec.ofNat 32 (if x = .f64 then 4 ^ l.val else 2 ^ l.val)) e = decide (e = l.val) := by
      unfold activeElem
      unfold elemCount at he
      by_cases hx : x = .f64
      · rw [if_pos hx] at he
        rw [if_pos hx, if_pos hx, show 4 ^ l.val = 2 ^ (2 * l.val) by rw [pow_mul]; norm_num, BitVec.getLsbD_ofNat,
          Nat.testBit_two_pow]
        simp [show 2 * e < 32 by omega, eq_comm]
      · rw [if_neg hx] at he
        rw [if_neg hx, if_neg hx, BitVec.getLsbD_ofNat, Nat.testBit_two_pow]
        simp [he, eq_comm]
    rw [slotAt_setElem hl, hact]
    simp only [decide_eq_true_eq]

end

end Sys2Proof.Machine
end

section
/-! `vcvt` and `vsplit` (12 R175): the elements that conversions go from and to, and the three registers of a split. -/

namespace Sys2Proof.Machine

open Sys2Proof.Claims

/-! ### Conversions -/

theorem cvtLanes_eq (x fr : XT) (half : Bool) (rm : Nat) (m : Lane) (a d : Lanes) : (cvtLanes x fr half rm m a d).1 =
    setElems x d (((cvtPairs x fr half).filter fun p => m.getLsbD p.2.2).map fun p =>
      (p.2.1, (convertElem x fr rm (elemAt fr a p.1)).1)) := by
  have hpush (r : Lanes × Flags) (p : Nat × Nat × Nat) : (if m.getLsbD p.2.2 then
        (setElem x r.1 p.2.1 (convertElem x fr rm (elemAt fr a p.1)).1, r.2 ||| (convertElem x fr rm (elemAt fr a p.1)).2)
      else r) = (if m.getLsbD p.2.2 then setElem x r.1 p.2.1 (convertElem x fr rm (elemAt fr a p.1)).1 else r.1,
        if m.getLsbD p.2.2 then r.2 ||| (convertElem x fr rm (elemAt fr a p.1)).2 else r.2) := by split <;> rfl
  rw [cvtLanes, setElems, List.foldl_map, List.foldl_filter]
  simp only [hpush]
  exact congrArg Prod.fst (foldl_pair
    (fun v (p : Nat × Nat × Nat) => if m.getLsbD p.2.2 then setElem x v p.2.1 (convertElem x fr rm (elemAt fr a p.1)).1 else v)
    (fun fl (p : Nat × Nat × Nat) => if m.getLsbD p.2.2 then fl ||| (convertElem x fr rm (elemAt fr a p.1)).2 else fl) _ d 0)

/-- The elements that conversions go to: all of a register, or a half of it. -/
theorem cvtPairs_dests (x fr : XT) (half : Bool) : (cvtPairs x fr half).map (·.2.1) =
    if x ≠ .f64 ∧ fr = .f64 then List.range' (if half then 16 else 0) 16 else List.range (elemCount x) := by
  unfold cvtPairs elemCount
  by_cases hx : x = .f64 <;> by_cases hf : fr = .f64 <;> cases half <;> simp [hx, hf] <;> rfl

theorem cvtPairs_nodup (x fr : XT) (half : Bool) : ((cvtPairs x fr half).map (·.2.1)).Nodup := by
  rw [cvtPairs_dests]
  split
  · exact List.nodup_range'
  · exact List.nodup_range

theorem cvtPairs_lt {x fr : XT} {half : Bool} {p : Nat × Nat × Nat} (hp : p ∈ cvtPairs x fr half) : p.2.1 < elemCount x := by
  have h : p.2.1 ∈ (cvtPairs x fr half).map (·.2.1) := List.mem_map_of_mem hp
  rw [cvtPairs_dests] at h
  split at h
  · next hx =>
    rw [List.mem_range'_1] at h
    rw [elemCount, if_neg hx.1]
    split at h <;> omega
  · exact List.mem_range.mp h

section
variable {x fr : XT} {half : Bool} {rm : Nat} {m : Lane} {a d : Lanes}

/-- An element that a conversion goes to is converted where its guard bit is 1. -/
theorem slotAt_cvtLanes {j e b : Nat} (hp : (j, e, b) ∈ cvtPairs x fr half) :
    slotAt x (cvtLanes x fr half rm m a d).1 e =
      if m.getLsbD b then slotBits x (convertElem x fr rm (elemAt fr a j)).1 else slotAt x d e := by
  have hlt : ∀ q ∈ ((cvtPairs x fr half).filter fun p => m.getLsbD p.2.2).map fun p =>
      (p.2.1, (convertElem x fr rm (elemAt fr a p.1)).1), q.1 < elemCount x := by
    intro q hq
    obtain ⟨p, hp, rfl⟩ := List.mem_map.mp hq
    exact cvtPairs_lt (List.mem_of_mem_filter hp)
  have hn := cvtPairs_nodup x fr half
  rw [cvtLanes_eq]
  split
  · next hb =>
    refine slotAt_setElems_of_mem hlt ?_ d (List.mem_map.mpr ⟨_, List.mem_filter.mpr ⟨hp, hb⟩, rfl⟩)
    rw [List.map_map]
    exact hn.sublist (List.filter_sublist.map _)
  · next hb =>
    refine slotAt_setElems_of_not_mem hlt d fun q hq he => hb ?_
    obtain ⟨p, hpm, rfl⟩ := List.mem_map.mp hq
    obtain ⟨hpm, hact⟩ := List.mem_filter.mp hpm
    rwa [List.inj_on_of_nodup_map hn hpm hp he] at hact

theorem slotAt_cvtLanes_of_not_mem {e : Nat} (he : ∀ p ∈ cvtPairs x fr half, p.2.1 ≠ e) :
    slotAt x (cvtLanes x fr half rm m a d).1 e = slotAt x d e := by
  rw [cvtLanes_eq]
  refine slotAt_setElems_of_not_mem (fun q hq => ?_) d fun q hq => ?_
  · obtain ⟨p, hp, rfl⟩ := List.mem_map.mp hq
    exact cvtPairs_lt (List.mem_of_mem_filter hp)
  · obtain ⟨p, hp, rfl⟩ := List.mem_map.mp hq
    exact he p (List.mem_of_mem_filter hp)

/-- The four ways that conversions pair elements (12 R175): each register has 32 elements, or 16 under FP64. -/
theorem cvtLanes_lanes (x fr : XT) (half : Bool) (rm : Nat) (m : Lane) (a old : Lanes) :
    let t := (cvtLanes x fr half rm m a old).1
    let h := if half then 16 else 0
    let cv (e : Nat) : Nat := (convertElem x fr rm (elemAt fr a e)).1
    (x ≠ .f64 → fr ≠ .f64 → ∀ e < 32,
        laneAt t e = if m.getLsbD e then (extendAs x (widthOf x) (cv e)).setWidth 32 else laneAt old e)
      ∧ (x ≠ .f64 → fr = .f64 → ∀ e < 32, laneAt t e =
          if h ≤ e ∧ e < h + 16 ∧ m.getLsbD e then (extendAs x (widthOf x) (cv (e - h))).setWidth 32 else laneAt old e)
      ∧ (x = .f64 → fr ≠ .f64 → ∀ e < 16,
          elemAt x t e = if m.getLsbD (h + e) then cv (h + e) % 2 ^ 64 else elemAt x old e)
      ∧ (x = .f64 → fr = .f64 → ∀ e < 16, elemAt x t e = if m.getLsbD (2 * e) then cv e % 2 ^ 64 else elemAt x old e) := by
  intro t h cv
  have narrow (hx : x ≠ .f64) {e r : Nat} {c : Prop} [Decidable c]
      (hs : slotAt x t e = if c then slotBits x r else slotAt x old e) :
      laneAt t e = if c then (extendAs x (widthOf x) r).setWidth 32 else laneAt old e := by
    rw [← laneOf_eq, ← BitVec.toNat_inj, apply_ite BitVec.toNat]
    simpa only [slotAt, slotBits, if_neg hx] using hs
  have wide (hx : x = .f64) {e r : Nat} {c : Prop} [Decidable c]
      (hs : slotAt x t e = if c then slotBits x r else slotAt x old e) :
      elemAt x t e = if c then r % 2 ^ 64 else elemAt x old e := by
    simpa only [slotAt, slotBits, if_pos hx] using hs
  refine ⟨fun hx hf e he => narrow hx (slotAt_cvtLanes ?_), fun hx hf e he => narrow hx ?_,
    fun hx hf e he => wide hx (slotAt_cvtLanes ?_), fun hx hf e he => wide hx (slotAt_cvtLanes ?_)⟩
  · simpa [cvtPairs, hx, hf] using he
  · by_cases hin : h ≤ e ∧ e < h + 16
    · have hp : (e - h, e, e) ∈ cvtPairs x fr half := by
        rw [cvtPairs, if_neg (by simp [hx]), if_pos hf]
        exact List.mem_map.mpr ⟨e - h, List.mem_range.mpr (by omega), by simp; omega⟩
      rw [slotAt_cvtLanes hp]
      simp only [hin, true_and]
      rfl
    · rw [if_neg fun hc => hin ⟨hc.1, hc.2.1⟩]
      refine slotAt_cvtLanes_of_not_mem fun p hp hpe => hin ?_
      rw [cvtPairs, if_neg (by simp [hx]), if_pos hf] at hp
      obtain ⟨j, hj, rfl⟩ := List.mem_map.mp hp
      have := List.mem_range.mp hj
      exact hpe ▸ ⟨Nat.le_add_right _ _, by dsimp only; omega⟩
  · simpa [cvtPairs, hx, hf, h] using he
  · simpa [cvtPairs, hx, hf] using he

end

section
variable {s s1 : State} {g : Guard} {d a : VReg} {la : Lanes} (ha : readV a s = .ok (la, s1))
include ha

theorem vcvt_completes (hfree : Table.find s.my.vec.streams d.val = none) (x fr : XT) (half : Bool) : ∃ n fl,
    Completes (.vcvt g x fr half d a) s
      (vecState s1 d (cvtLanes x fr half s1.my.csr.fpmode.toNat (s1.seq.mask g) la s1.my.vec.v[d.val]).1 n fl) := by
  let r := cvtLanes x fr half s1.my.csr.fpmode.toNat (s1.seq.mask g) la s1.my.vec.v[d.val]
  let n := ((cvtPairs x fr half).filter fun p => (s1.seq.mask g).getLsbD p.2.2).length
  refine ⟨n, r.2, Performs.completes (.vec rfl rfl rfl) ?_⟩
  rw [M.bind_ok (checkVDst_free hfree), M.bind_ok ha, M.bind_ok (roundMode_run s1), M.bind_ok (guardMask_run g s1),
    M.bind_ok (oldV_run d s1)]
  exact vecTail_run d r.1 n r.2 s1

/-- A source leaves the vector registers as they are. -/
theorem readV_keeps_v : s1.my.vec.v = s.my.vec.v := by
  unfold readV popStream at ha
  repeat' split at ha
  all_goals cases ha
  · simp
  · rfl

end

/-! ### The vector registers of a completed state -/

/-- `n` vector operations metered. -/
def State.metered (s : State) (n : Nat) : State :=
  s.modPart (s.partNo s.cur.1) fun t => { t with meter := { t.meter with vecop := t.meter.vecop + n } }

@[simp] theorem State.metered_my (s : State) (n : Nat) : (s.metered n).my = s.my := rfl

@[simp] theorem State.retire_vec (s : State) (len : Nat) (n : Next) : (s.retire len n).my.vec = s.my.vec := by
  simp [State.retire]

@[simp] theorem State.raised_vec (s : State) (f : Flags) : (s.raised f).my.vec = s.my.vec := by simp [State.raised]

@[simp] theorem State.putV_v (s : State) (d : VReg) (v : Lanes) : (s.putV d v).my.vec.v = s.my.vec.v.set d.val v := by
  simp [State.putV]

/-! ### Splits -/

/-- The `j`-th of the three parts of a lane. -/
def splitPart (j : Fin 3) (w : Lane) : Lane :=
  BitVec.ofNat 32 (match j with
    | 0 => (splitLane w).1.1
    | 1 => (splitLane w).1.2.1
    | 2 => (splitLane w).1.2.2)

/-- A register after the `j`-th parts of a split. -/
def splitReg (j : Fin 3) (m : Lane) (la old : Lanes) : Lanes := mapLanes m old fun e => splitPart j (laneAt la e)

theorem vsplit_ends {s s1 : State} {g : Guard} {d d1 d2 a : VReg} {la : Lanes} (ha : readV a s = .ok (la, s1))
    (hd1 : d1.val = d.val + 1) (hd2 : d2.val = d.val + 2) (h0 : Table.find s.my.vec.streams d.val = none)
    (h1 : Table.find s.my.vec.streams d1.val = none) (h2 : Table.find s.my.vec.streams d2.val = none)
    (hm : s.meets (.vsplit g d a)) : ∃ t, exec (.vsplit g d a) s = .next t ∧ t.my.vec.v =
      (let v := s.my.vec.v
       let part (j : Fin 3) (r : VReg) : Lanes := splitReg j (s1.seq.mask g) la v[r.val]
       ((v.set d.val (part 0 d)).set d1.val (part 1 d1)).set d2.val (part 2 d2)) := by
  obtain rfl : Fin.ofNat 32 (d.val + 1) = d1 := Fin.ext (by rw [Fin.val_ofNat]; omega)
  obtain rfl : Fin.ofNat 32 (d.val + 2) = d2 := Fin.ext (by rw [Fin.val_ofNat]; omega)
  let m := s1.seq.mask g
  let fl : Flags := (List.range 32).foldl (fun f i => if m.getLsbD i then f ||| (splitLane (laneAt la i)).2 else f) 0
  let put (u : State) (j : Fin 3) (r : VReg) : State := u.putV r (splitReg j m la s1.my.vec.v[r.val])
  let t := put (put (put s1 0 d) 1 (Fin.ofNat 32 (d.val + 1))) 2 (Fin.ofNat 32 (d.val + 2))
  refine ⟨((t.metered (activeElems .f32 m).length).raised fl).retire 8 .fall, Performs.completes (.vec rfl rfl rfl) ?_ hm, ?_⟩
  · rw [M.bind_ok (checkVDst_free h0), M.bind_ok (checkVDst_free h1), M.bind_ok (checkVDst_free h2), M.bind_ok ha]
    rfl
  · simp only [t, put, m, State.retire_vec, State.raised_vec, State.metered_my, State.putV_v, readV_keeps_v ha]

/-- The lanes of the registers of a split. -/
theorem laneAt_splitReg (j : Fin 3) (m : Lane) (la old : Lanes) {e : Nat} (he : e < 32) : laneAt (splitReg j m la old) e =
    if m.getLsbD e then splitPart j (laneAt la e) else laneAt old e := laneAt_mapLanes m old _ he

end Sys2Proof.Machine

namespace Sys2Proof.Proofs

open Sys2Proof Sys2Proof.Machine Sys2Proof.Claims

/-- Settles O26: each instruction from its body, its sources read in order. -/
theorem vectorMovesComparesAndConversions : Obligations.VectorMovesComparesAndConversions := by
  intro s s1 s2 g x fr d a b vb kd kc la lb v o val l half w free
  refine ⟨fun hs => ?_, fun ha => ⟨fun hb => ?_, fun hfree hb => ⟨vsel_givesLanes hfree ha hb kc, vshuf_givesLanes hfree ha hb⟩,
    fun hfree => vmov_givesLanes hfree ha, fun hfree _ => ?_, ?_, fun hfree => ?_, fun hd h0 h1 h2 hm => ?_⟩,
    fun hfree ho => ⟨vbcastScalar_completes hfree ho, vmovScalarToLane_completes hfree ho⟩⟩
  · have stops {i : Instr} {k : Unit → M Next} (h : Performs s i (checkVDst d >>= k)) : Traps i s .streamFault (BitVec.ofNat 64 d.val) :=
      h.streamFault hs
    have vec {i : Instr} {k : Unit → M Next} {ss ds : List Opnd} {f : BitVec 16}
        (hd : i.demands = some ⟨.lanes g, some .xs, .user, 2 ||| f, ss, ds⟩) (hlen : i.len = 8)
        (he : exec i s = performVec (needVec ss ds f) g (checkVDst d >>= k) s) : Traps i s .streamFault (BitVec.ofNat 64 d.val) :=
      stops (.vec hd hlen he)
    simp only [List.forall_mem_cons]
    exact ⟨vec rfl rfl rfl, vec rfl rfl rfl, vec rfl rfl rfl, vec rfl rfl rfl, vec rfl rfl rfl, vec rfl rfl rfl, vec rfl rfl rfl,
      vec rfl rfl rfl, vec rfl rfl rfl, vec rfl rfl rfl, vec rfl rfl rfl, vec rfl rfl rfl, vec rfl rfl rfl, vec rfl rfl rfl,
      vec rfl rfl rfl, vec rfl rfl rfl, vec rfl rfl rfl, vec rfl rfl rfl, vec rfl rfl rfl, stops (.lane rfl rfl),
      vec rfl rfl rfl, vec rfl rfl rfl, vec rfl rfl rfl, vec rfl rfl rfl, List.forall_mem_nil _⟩
  · have hS {n : Nat} (h : n < 2 ^ w) : elemInt x n = if x.isSigned ∧ ¬ n < 2 ^ (w - 1) then (n : Int) - 2 ^ w else n := by
      rw [elemInt_eq h]
      cases x.isSigned with
      | false => simp
      | true => simp only [if_true, true_and, ite_not, w]
    intro u S m sets
    have ints (c : Cond) (e : Nat) : vCmpElem x (.int c) (u e) (v e) = (condHolds c (S (u e)) (S (v e)), 0) := by
      rw [vCmpElem_int, hS (elemAt_lt x la e), hS (readVSrc_lt hb e)]
    exact ⟨vcmp_sets ha hb (ints .eq), vcmp_sets ha hb (ints .ne), vcmp_sets ha hb (ints .lt), vcmp_sets ha hb (ints .ge),
      vcmp_sets ha hb (ints .le), vcmp_sets ha hb (ints .gt), fun cc => vcmp_sets ha hb fun e => rfl⟩
  · obtain ⟨t, hdone, helems⟩ := vbcastLane_completes (g := g) (x := x) (l := l) hfree ha
    exact ⟨_, hdone, t, rfl, helems⟩
  · exact Performs.gives (.lane rfl rfl) (M.bind_ok ha)
  · obtain ⟨n, fl, hdone⟩ := vcvt_completes (g := g) ha hfree x fr half
    exact ⟨_, n, fl, hdone, cvtLanes_lanes x fr half _ _ la _⟩
  · obtain ⟨t, ht, hv⟩ := vsplit_ends (d1 := ⟨d.val + 1, by omega⟩) (d2 := ⟨d.val + 2, by omega⟩) ha rfl rfl h0 h1 h2 hm
    refine ⟨t, ht, fun r hr => ?_, fun j e he => ?_⟩
    · rw [hv, Vector.getElem_set_ne _ _ (by dsimp only; omega), Vector.getElem_set_ne _ _ (by dsimp only; omega),
        Vector.getElem_set_ne _ _ (by omega)]
    · have hget (k : Nat) (hk : d.val + k < 32) (q : Vector Lanes 32) :
          (q[d.val + k]?).getD (Vector.replicate 32 0) = q[d.val + k] := by simp [hk]
      rw [hget j (by omega), hget j (by omega), hv]
      match j with
      | 0 | 1 | 2 => simp [laneAt_splitReg _ _ _ _ he, splitPart]

end Sys2Proof.Proofs
end

section
/-! Reductions and scans (12 R181, 05 R79): the tree level by level, the prefixes in order. -/

namespace Sys2Proof.Machine

open Sys2Proof.Claims

/-- The result of one step. -/
def redFn (x : XT) (op : RedOp) (rm a b : Nat) : Nat := (redStep x op rm a b).1

theorem redIdentity_eq (x : XT) (op : RedOp) : redIdentity x op =
    match op with
    | .add | .or | .xor => 0
    | .and => 2 ^ widthOf x - 1
    | .min => if x.isInt then (if x.isSigned then 2 ^ (widthOf x - 1) - 1 else 2 ^ widthOf x - 1) else infBits x false
    | .max => if x.isInt then (if x.isSigned then 2 ^ (widthOf x - 1) else 0) else infBits x true := by
  cases op <;> cases x <;> rfl

/-! ### The tree -/

/-- A level of the tree pairs each of the first half of its inputs with the one a half on. -/
theorem map_zip_halves (h : Nat → Nat) (step : Nat × Nat → Nat) (w : Nat) :
    ((((List.range (2 * w)).map h).take w).zip (((List.range (2 * w)).map h).drop w)).map step
      = (List.range w).map fun e => step (h e, h (e + w)) := by
  refine List.ext_getElem (by simp; omega) fun e h1 h2 => ?_
  simp [Nat.add_comm w e]

/-- What is left of the tree from the level `k` on, over the entries of that level. -/
theorem redTree_level (x : XT) (op : RedOp) (rm : Nat) (v : Nat → Nat) {E n k : Nat} (hE : E = 2 ^ (n + k)) (fl : Flags) :
    let level (j : Nat) : Nat → Nat := treeLevel (redFn x op rm) E v j
    (redTree x op rm n ((List.range (2 ^ n)).map (level k)) fl).1 = level (n + k) 0 := by
  induction n generalizing k fl with
  | zero => simp [redTree]
  | succ n ih =>
    intro level
    have hhalf : E / 2 ^ (k + 1) = 2 ^ n := by
      rw [hE, show n + 1 + k = n + (k + 1) by omega, pow_add]; exact Nat.mul_div_cancel _ (Nat.two_pow_pos _)
    have hstep : ((((List.range (2 ^ (n + 1))).map (level k)).take (2 ^ n)).zip
          (((List.range (2 ^ (n + 1))).map (level k)).drop (2 ^ n))).map (fun p => redFn x op rm p.1 p.2)
        = (List.range (2 ^ n)).map (level (k + 1)) := by
      rw [show 2 ^ (n + 1) = 2 * 2 ^ n by ring, map_zip_halves]
      simp only [level, treeLevel, hhalf]
    rw [redTree, List.map_map]
    refine (congrArg (fun t => (redTree x op rm n t _).1) hstep).trans ?_
    rw [ih (k := k + 1) (by rw [hE]; congr 1; omega), show n + 1 + k = n + (k + 1) by omega]

/-- The levels of the tree over the elements of a register. -/
def treeDepth (x : XT) : Nat := if x = .f64 then 4 else 5

/-- An element, or the identity where it is inactive. -/
def redInput (x : XT) (op : RedOp) (m : Lane) (v : Lanes) (e : Nat) : Nat :=
  if activeElem x m e then elemAt x v e else redIdentity x op

theorem redTree_inputs (x : XT) (op : RedOp) (rm : Nat) (m : Lane) (v : Lanes) :
    (redTree x op rm (treeDepth x) (redInputs x op m v) 0).1 =
      treeLevel (redFn x op rm) (elemCount x) (redInput x op m v) (treeDepth x) 0 := by
  have hE : elemCount x = 2 ^ treeDepth x := by unfold elemCount treeDepth; split <;> rfl
  have h := redTree_level x op rm (redInput x op m v) (n := treeDepth x) (k := 0) hE 0
  rwa [← hE] at h

/-! ### The prefixes -/

theorem prefixAt_succ (f : Nat → Nat → Nat) (one : Nat) (v : Nat → Nat) (e : Nat) :
    prefixAt f one v (e + 1) = prefixAt f (f one (v 0)) (fun i => v (i + 1)) e := by
  induction e with
  | zero => rfl
  | succ e ih => rw [prefixAt, ih]; rfl

theorem scanList_getD (x : XT) (op : RedOp) (rm : Nat) (v : Nat → Nat) (one : Nat) {n e : Nat} (he : e < n) :
    ((scanList x op rm one ((List.range n).map v)).getD e (0, 0)).1 = prefixAt (redFn x op rm) one v e := by
  induction n generalizing v one e with
  | zero => exact absurd he (Nat.not_lt_zero e)
  | succ n ih =>
    rw [List.range_succ_eq_map, List.map_cons, List.map_map, scanList]
    cases e with
    | zero => rfl
    | succ e => exact (ih _ _ (by omega)).trans (prefixAt_succ _ _ _ _).symm

theorem elemsAre_congr {x : XT} {m : Lane} {old v : Lanes} {f f' : Nat → Nat} (h : ∀ e < elemCount x, f e = f' e)
    (hv : elemsAre x m old v f) : elemsAre x m old v f' :=
  elemsAre_iff.mpr fun e he => h e he ▸ elemsAre_iff.mp hv e he

/-! ### Integer steps -/

section
variable {x : XT} (hx : x.isInt = true) (rm : Nat) {p q : Nat} (hp : p < 2 ^ widthOf x) (hq : q < 2 ^ widthOf x)
include hx

theorem redStep_add : redStep x .add rm p q = ((p + q) % 2 ^ widthOf x, 0) := by
  rw [redStep, if_pos hx]
  exact congrArg (·, 0) (Int.toNat_natCast _)

include hp hq

theorem redStep_and : redStep x .and rm p q = (p &&& q, 0) := by
  rw [redStep, if_pos hx]
  exact (bitElem_and hp hq).trans (intElem_of_lt (Nat.and_lt_two_pow _ hq))

theorem redStep_or : redStep x .or rm p q = (p ||| q, 0) := by
  rw [redStep, if_pos hx]
  exact (bitElem_or hp hq).trans (intElem_of_lt (Nat.or_lt_two_pow hp hq))

theorem redStep_xor : redStep x .xor rm p q = (p ^^^ q, 0) := by
  rw [redStep, if_pos hx]
  exact (bitElem_xor hp hq).trans (intElem_of_lt (Nat.xor_lt_two_pow hp hq))

end

/-! ### The two instructions -/

theorem vred_ends {s s1 s2 : State} {g : Guard} {x : XT} {op : RedOp} {o : Opnd} {a : VReg} {la : Lanes}
    (ha : readV a s = .ok (la, s1))
    (ho : dst o (extendAs x (widthOf x) (redTree x op s1.my.csr.fpmode.toNat (treeDepth x)
      (redInputs x op (s1.seq.mask g) la) 0).1) s1 = .ok ((), s2)) :
    ∃ n fl, Completes (.vred g x op o a) s ((s2.metered n).raised fl) := by
  let m := s1.seq.mask g
  let r := redTree x op s1.my.csr.fpmode.toNat (treeDepth x) (redInputs x op m la) 0
  refine ⟨(activeElems x m).length, r.2, Performs.completes (.vec rfl rfl rfl) ?_⟩
  rw [M.bind_ok ha, M.bind_ok (roundMode_run s1), M.bind_ok (guardMask_run g s1)]
  exact M.bind_ok ho

theorem vscan_completes {s s1 : State} {g : Guard} {x : XT} {op : RedOp} {d a : VReg} {la : Lanes}
    (hfree : Table.find s.my.vec.streams d.val = none) (ha : readV a s = .ok (la, s1)) :
    ∃ t n fl, Completes (.vscan g x op d a) s (vecState s1 d t n fl)
      ∧ elemsAre x (s1.seq.mask g) s1.my.vec.v[d.val] t (prefixAt (redFn x op s1.my.csr.fpmode.toNat) (redIdentity x op)
          (redInput x op (s1.seq.mask g) la)) := by
  let m := s1.seq.mask g
  let ps := scanList x op s1.my.csr.fpmode.toNat (redIdentity x op) (redInputs x op m la)
  let old : Lanes := s1.my.vec.v[d.val]
  refine ⟨(mapActive x m old fun e => ps.getD e (0, 0)).1, (activeElems x m).length, ps.foldl (fun f r => f ||| r.2) 0,
    Performs.completes (.vec rfl rfl rfl) ?_, elemsAre_congr (fun e he => scanList_getD x op _ _ _ he)
      (elemsAre_mapActive x m old fun e => ps.getD e (0, 0))⟩
  rw [M.bind_ok (checkVDst_free hfree), M.bind_ok ha, M.bind_ok (roundMode_run s1), M.bind_ok (guardMask_run g s1),
    M.bind_ok (oldV_run d s1)]
  exact vecTail_run _ _ _ _ s1

end Sys2Proof.Machine

namespace Sys2Proof.Proofs

open Sys2Proof Sys2Proof.Machine Sys2Proof.Claims

/-- Settles O27: the tree by induction over its levels, the prefixes over the elements. -/
theorem reductionsFollowTheTree : Obligations.ReductionsFollowTheTree := by
  intro s s1 g x op d o a la w E m rm one v f ha
  have hone : redIdentity x op = one := redIdentity_eq x op
  have hv : redInput x op m la = v := by funext e; rw [redInput, hone]
  refine ⟨fun s2 ho hm => ?_, fun hfree => ?_, fun hx p q hp hq => ⟨redStep_add hx rm, redStep_and hx rm hp hq,
    redStep_or hx rm hp hq, redStep_xor hx rm hp hq⟩⟩
  · have htree : (redTree x op rm (treeDepth x) (redInputs x op m la) 0).1 = treeLevel f E v (treeDepth x) 0 := by
      rw [redTree_inputs, hv]; rfl
    obtain ⟨n, fl, hdone⟩ := vred_ends (g := g) ha (htree ▸ ho)
    exact ⟨_, n, fl, hdone hm, rfl⟩
  · obtain ⟨t, n, fl, hdone, helems⟩ := vscan_completes (g := g) (x := x) (op := op) hfree ha
    exact ⟨t, n, fl, hdone, hone ▸ hv ▸ helems⟩

end Sys2Proof.Proofs
end

section
/-! Vector loads, stores, gathers and scatters (12 R177): the addresses of the active elements, their checks in order, the one
request, and the elements that the answered bytes are. -/

namespace Sys2Proof.Machine

open Sys2Proof.Claims

/-! ### Checks -/

theorem trapFirst_some {as : List Nat} {bad : Nat → Bool} {a : Nat} (h : as.find? bad = some a) (c : Cause) (s : State) :
    trapFirst as bad c s = .error (.trap c (some (BitVec.ofNat 64 a)) .none) := by rw [trapFirst, h]; rfl

theorem trapFirst_none {as : List Nat} {bad : Nat → Bool} (h : ∀ a ∈ as, bad a = false) (c : Cause) (s : State) :
    trapFirst as bad c s = .ok ((), s) := by
  rw [trapFirst, List.find?_eq_none.mpr fun a ha => by simp [h a ha]]; rfl

section
variable {s : State} {cm : Bool} {as : List Nat} {n : Nat}

theorem checkElems_misaligned {a : Nat} (h : as.find? (fun a => a % n != 0) = some a) :
    checkElems cm as n s = .error (.trap .misalignedData (some (BitVec.ofNat 64 a)) .none) := by
  rw [checkElems, M.bind_run, trapFirst_some h]

theorem checkElems_aligned (hal : ∀ a ∈ as, a % n = 0) : checkElems cm as n s =
    (do trapFirst as (fun a => decide (windowOf cm < a + n)) .windowBounds
        let s ← getState
        trapFirst as (fun a => !cm && s.seq.level == .user && decide (reservedFrom < a + n)) .accessRights : M Unit) s := by
  rw [checkElems, M.bind_ok (trapFirst_none (fun a ha => by simp [hal a ha]) _ s)]

theorem checkElems_beyond (hal : ∀ a ∈ as, a % n = 0) {a : Nat}
    (h : as.find? (fun a => decide (windowSizeOf cm < a + n)) = some a) :
    checkElems cm as n s = .error (.trap .windowBounds (some (BitVec.ofNat 64 a)) .none) := by
  rw [checkElems_aligned hal, M.bind_run, trapFirst_some (bad := fun a => decide (windowOf cm < a + n)) h]

theorem checkElems_inside (hin : ∀ a ∈ as, a % n = 0 ∧ a + n ≤ windowSizeOf cm) : checkElems cm as n s =
    trapFirst as (fun a => !cm && s.seq.level == .user && decide (reservedFrom < a + n)) .accessRights s := by
  have hwin : ∀ a ∈ as, decide (windowOf cm < a + n) = false := fun a ha => decide_eq_false (Nat.not_lt.mpr (hin a ha).2)
  rw [checkElems_aligned fun a ha => (hin a ha).1, M.bind_ok (trapFirst_none hwin _ s), M.bind_ok (getState_run s)]

theorem checkElems_denied (hin : ∀ a ∈ as, a % n = 0 ∧ a + n ≤ windowSizeOf cm) (hcm : cm = false)
    (hl : s.seq.level = .user) {a : Nat} (h : as.find? (fun a => decide (0xEC00 < a + n)) = some a) :
    checkElems cm as n s = .error (.trap .accessRights (some (BitVec.ofNat 64 a)) .none) := by
  rw [checkElems_inside hin, hcm, hl]
  exact trapFirst_some h _ s

theorem checkElems_fine (h : fine s cm n as) : checkElems cm as n s = .ok ((), s) := by
  rw [checkElems_inside fun a ha => ⟨(h a ha).1, (h a ha).2.1⟩]
  refine trapFirst_none (fun a ha => ?_) _ s
  obtain ⟨-, -, hrights⟩ := h a ha
  cases cm with
  | true => rfl
  | false =>
    by_cases hl : s.seq.level = .user
    · rw [hl]
      exact decide_eq_false (Nat.not_lt.mpr (hrights rfl hl))
    · simp [hl]

end

/-- An instruction whose body begins with the checks of its addresses. -/
theorem Performs.addressTraps {s : State} {i : Instr} {cm : Bool} {n : Nat} {as : List Nat} {k : Unit → M Next}
    (h : Performs s i (checkElems cm as n >>= k)) : addressTraps i s cm n as := by
  have stops {c : Cause} {v : Word} (hc : checkElems cm as n s = .error (.trap c (some v) .none)) : Traps i s c v :=
    h.traps (by rw [M.bind_run, hc])
  exact ⟨fun _ hf => stops (checkElems_misaligned hf), fun hal _ hf => stops (checkElems_beyond hal hf),
    fun hin hcm hl _ hf => stops (checkElems_denied hin hcm hl hf)⟩

/-! ### Addresses -/

/-- A base with its displacement in elements. -/
theorem toNat_add_disp (w : Word) (disp : BitVec 10) (n : Nat) :
    (w + disp.signExtend 64 * BitVec.ofNat 64 n).toNat = ((w.toNat + disp.toInt * n) % 2 ^ 64).toNat := by
  have heq : w + disp.signExtend 64 * BitVec.ofNat 64 n = BitVec.ofInt 64 (w.toNat + disp.toInt * n) := by
    rw [BitVec.ofInt_add, BitVec.ofInt_mul, BitVec.ofInt_natCast, BitVec.ofInt_natCast, BitVec.ofNat_toNat, BitVec.setWidth_eq]
    rfl
  rw [heq, BitVec.toNat_ofInt]
  rfl

/-! ### The request -/

theorem ghost_run {α : Type} {m : M α} {s t : State} {a : α} (h : m s = .ok (a, t)) : ghost m s = .ok (a, s) := by
  rw [ghost, h]; rfl

section
variable {s s1 : State} {cm : Bool} {as : List Nat} {bs : List Byte} (hs : s.begins)
include hs

theorem readLocal_data (h : answersLocal s cm .r .read as s1 (.data bs)) :
    readLocal cm as s = .ok (bs, answered s1 (.data bs)) := by
  obtain ⟨hslow, -⟩ := id hs
  rw [readLocal, M.bind_run, access_answered hs.not_begun none (u := s1) (ans := .data bs) (hslow.symm ▸ h)]
  rfl

theorem writeLocal_done (h : answersLocal s cm .w (.write bs) as s1 (.data [])) :
    writeLocal cm as bs s = .ok ((), answered s1 (.data [])) := by
  obtain ⟨hslow, -⟩ := id hs
  rw [writeLocal, M.bind_run, access_answered hs.not_begun none (u := s1) (ans := .data []) (hslow.symm ▸ h)]
  rfl

end

@[simp] theorem answered_my_vec (s : State) (a : Answer) : (answered s a).my.vec = s.my.vec := by simp [answered]

/-! ### The elements that the answered bytes are -/

theorem chunks_length (n k : Nat) (bs : List Byte) : (chunks n k bs).length = k := by
  induction k generalizing bs with
  | zero => rfl
  | succ k ih => rw [chunks, List.length_cons, ih]

theorem chunks_getElem (n k : Nat) (bs : List Byte) (i : Nat) (h : i < (chunks n k bs).length) :
    (chunks n k bs)[i] = (bs.drop (i * n)).take n := by
  induction k generalizing bs i with
  | zero => exact absurd h (Nat.not_lt_zero i)
  | succ k ih =>
    cases i with
    | zero => simp [chunks]
    | succ i => simp [chunks, ih, Nat.succ_mul, Nat.add_comm]

/-- The number of an active element among the active ones is the count of those before it. -/
theorem countP_range_getElem {p : Nat → Bool} {n i : Nat} (h : i < ((List.range n).filter p).length) :
    (List.range ((List.range n).filter p)[i]).countP p = i := by
  induction n with
  | zero => exact absurd h (Nat.not_lt_zero i)
  | succ n ih =>
    simp only [List.range_succ, List.filter_append] at h ⊢
    by_cases hi : i < ((List.range n).filter p).length
    · rw [List.getElem_append_left hi, ih hi]
    · have hp : p n = true := by
        by_contra hp
        simp [hp] at h
        omega
      have hlast : i = ((List.range n).filter p).length := by simp [hp] at h; omega
      subst hlast
      simp [hp, List.countP_eq_length_filter]

/-- A register with its active elements loaded, each from its own bytes of the answer. -/
theorem elemsAre_loadElems (x : XT) (m : Lane) (d : Lanes) (bs : List Byte) : elemsAre x m d (loadElems x m d bs) fun e =>
    leOf ((bs.drop ((List.range e).countP (activeElem x m) * (widthOf x / 8))).take (widthOf x / 8)) := by
  have hzip : (activeElems x m).zip (chunks (widthOf x / 8) (activeElems x m).length bs) = (activeElems x m).map fun e =>
      (e, (bs.drop ((List.range e).countP (activeElem x m) * (widthOf x / 8))).take (widthOf x / 8)) := by
    refine List.ext_getElem (by simp [chunks_length]) fun i h1 h2 => ?_
    simp only [List.getElem_zip, List.getElem_map, chunks_getElem, activeElems, countP_range_getElem]
  have hload : loadElems x m d bs = setElems x d ((activeElems x m).map fun e =>
      (e, leOf ((bs.drop ((List.range e).countP (activeElem x m) * (widthOf x / 8))).take (widthOf x / 8)))) := by
    rw [loadElems, hzip, setElems, List.foldl_map, List.foldl_map]
  exact hload ▸ elemsAre_setElems x m d _

/-! ### The four instructions -/

/-- Bodies that do the same in the state in which an instruction begins. -/
theorem Performs.congr {s : State} {i : Instr} {body body' : M Next} (h : Performs s i body) (hb : body s = body' s) :
    Performs s i body' := ⟨fun hm => hb ▸ h.ends hm⟩

section
variable {s s0 s1 s2 s3 : State} {g : Guard} {x : XT} {cm : Bool} {d b c : VReg} {a : Reg} {disp : BitVec 10} {ix u u' : Lanes}
  {bs : List Byte}

/-- What `vld` does once its addresses have passed their checks. -/
def vldTail (x : XT) (m : Lane) (cm : Bool) (d : VReg) (as : List Nat) : M Next := do
  let bs ← readLocal cm (elemSpans as (widthOf x / 8))
  let old ← oldV d
  writeV d (loadElems x m old bs)
  pure .fall

/-- What `vst` does then. -/
def vstTail (x : XT) (m : Lane) (cm : Bool) (b : VReg) (as : List Nat) : M Next := do
  let v ← ghost (readV b)
  writeLocal cm (elemSpans as (widthOf x / 8)) (storeElems x m v)
  let _ ← readV b
  pure .fall

/-- What `vgath` does then. -/
def vgathTail (x : XT) (m : Lane) (cm : Bool) (d b : VReg) (as : List Nat) : M Next := do
  let bs ← readLocal cm (elemSpans as (widthOf x / 8))
  let _ ← readV b
  let old ← oldV d
  writeV d (loadElems x m old bs)
  pure .fall

/-- What `vscat` does then. -/
def vscatTail (x : XT) (m : Lane) (cm : Bool) (b c : VReg) (as : List Nat) : M Next := do
  let v ← ghost (readAfter b c)
  writeLocal cm (elemSpans as (widthOf x / 8)) (storeElems x m v)
  let _ ← readAfter b c
  pure .fall

theorem performs_vld {as : List Nat} (has : denseAddrs x (s.seq.mask g) (s.seq.readS a) disp = as)
    (hfree : Table.find s.my.vec.streams d.val = none) : Performs s (.vld g x cm d a disp)
    (checkElems cm as (widthOf x / 8) >>= fun _ => vldTail x (s.seq.mask g) cm d as) :=
  Performs.congr (.vec rfl rfl rfl) (by subst has; rw [M.bind_ok (checkVDst_free hfree)]; rfl)

theorem performs_vst {as : List Nat} (has : denseAddrs x (s.seq.mask g) (s.seq.readS a) disp = as) :
    Performs s (.vst g x cm a b disp) (checkElems cm as (widthOf x / 8) >>= fun _ => vstTail x (s.seq.mask g) cm b as) :=
  Performs.congr (.vec rfl rfl rfl) (by subst has; rfl)

theorem performs_vgath (hfree : Table.find s.my.vec.streams d.val = none) (hb : readV b s = .ok (ix, s0)) :
    Performs s (.vgath g x cm d a b)
      (let m := s.seq.mask g
       let as := indexAddrs x m (s.seq.readS a) ix
       checkElems cm as (widthOf x / 8) >>= fun _ => vgathTail x m cm d b as) :=
  Performs.congr (.vec rfl rfl rfl) (by
    rw [M.bind_ok (checkVDst_free hfree), M.bind_ok (readS_run a s), M.bind_ok (guardMask_run g s), M.bind_ok (ghost_run hb)]
    rfl)

theorem performs_vscat (hb : readV b s = .ok (ix, s0)) : Performs s (.vscat g x cm a b c)
    (let m := s.seq.mask g
     let as := indexAddrs x m (s.seq.readS a) ix
     checkElems cm as (widthOf x / 8) >>= fun _ => vscatTail x m cm b c as) :=
  Performs.congr (.vec rfl rfl rfl) (by
    rw [M.bind_ok (readS_run a s), M.bind_ok (guardMask_run g s), M.bind_ok (ghost_run hb)]
    rfl)

theorem readAfter_run {v1 v2 : Lanes} (hb : readV b s = .ok (v1, s1)) (hc : readV c s1 = .ok (v2, s2)) :
    readAfter b c s = .ok (v2, s2) := by rw [readAfter, M.bind_ok hb, hc]

section
variable {m : Lane} {as : List Nat} (hs : s.begins)
include hs

theorem vldTail_run (hr : answersLocal s cm .r .read (elemSpans as (widthOf x / 8)) s1 (.data bs)) :
    vldTail x m cm d as s = .ok (.fall, (answered s1 (.data bs)).putV d (loadElems x m s1.my.vec.v[d.val] bs)) := by
  rw [vldTail, M.bind_ok (readLocal_data hs hr), M.bind_ok (oldV_run d _), answered_my_vec]
  rfl

theorem vstTail_run (hb : readV b s = .ok (u, s0))
    (hw : answersLocal s cm .w (.write (storeElems x m u)) (elemSpans as (widthOf x / 8)) s1 (.data []))
    (hb' : readV b (answered s1 (.data [])) = .ok (u', s2)) : vstTail x m cm b as s = .ok (.fall, s2) := by
  rw [vstTail, M.bind_ok (ghost_run hb), M.bind_ok (writeLocal_done hs hw), M.bind_ok hb']
  rfl

theorem vgathTail_run (hr : answersLocal s cm .r .read (elemSpans as (widthOf x / 8)) s1 (.data bs))
    (hb' : readV b (answered s1 (.data bs)) = .ok (u', s2)) :
    vgathTail x m cm d b as s = .ok (.fall, s2.putV d (loadElems x m s2.my.vec.v[d.val] bs)) := by
  rw [vgathTail, M.bind_ok (readLocal_data hs hr), M.bind_ok hb', M.bind_ok (oldV_run d s2)]
  rfl

theorem vscatTail_run {t1 t2 t3 : State} {v1 v2 : Lanes} (hb : readV b s = .ok (ix, s0)) (hc : readV c s0 = .ok (u, s1))
    (hw : answersLocal s cm .w (.write (storeElems x m u)) (elemSpans as (widthOf x / 8)) t1 (.data []))
    (hb' : readV b (answered t1 (.data [])) = .ok (v1, t2)) (hc' : readV c t2 = .ok (v2, t3)) :
    vscatTail x m cm b c as s = .ok (.fall, t3) := by
  rw [vscatTail, M.bind_ok (ghost_run (readAfter_run hb hc)), M.bind_ok (writeLocal_done hs hw), M.bind_ok (readAfter_run hb' hc')]
  rfl

end

end

end Sys2Proof.Machine

namespace Sys2Proof.Proofs

open Sys2Proof Sys2Proof.Machine Sys2Proof.Claims

/-- Settles O28: the checks come before the request, the request before the pops. -/
theorem vectorAccessesTouchActiveElements : Obligations.VectorAccessesTouchActiveElements := by
  intro s s0 s1 s2 g x cm d b c a disp bs u ix u' n es base dense indexed spans bytes loaded put free
  have hdense : denseAddrs x (s.seq.mask g) (s.seq.readS a) disp = dense := by rw [denseAddrs, toNat_add_disp]; rfl
  have vld (hfree : free) := performs_vld (cm := cm) hdense hfree
  have vst := performs_vst (cm := cm) (b := b) hdense
  refine ⟨fun hfree => (vld hfree).addressTraps, vst.addressTraps, fun hfree hb => (performs_vgath hfree hb).addressTraps,
    fun hb => (performs_vscat hb).addressTraps, fun hs hfree hfine hr _ => ⟨_, (vld hfree).completes ?_, elemsAre_loadElems ..⟩,
    fun hs hfine hb hw hb' => vst.completes ?_,
    fun hs hfree hb hfine hr _ hb' => ⟨_, (performs_vgath hfree hb).completes ?_, elemsAre_loadElems ..⟩,
    fun hs hb hc hfine t1 t2 t3 v1 v2 hw hb' hc' => (performs_vscat hb).completes ?_⟩
  · exact (M.bind_ok (checkElems_fine hfine)).trans (vldTail_run hs hr)
  · exact (M.bind_ok (checkElems_fine hfine)).trans (vstTail_run hs hb hw hb')
  · exact (M.bind_ok (checkElems_fine hfine)).trans (vgathTail_run hs hr hb')
  · exact (M.bind_ok (checkElems_fine hfine)).trans (vscatTail_run hs hb hc hw hb' hc')

end Sys2Proof.Proofs
end

section
/-! Stream mode (12 R178 to R180): the descriptor and its checks, reads in order, the end of the mode, the refill. -/

namespace Sys2Proof.Machine

open Sys2Proof.Claims

/-! ### Tables without a key -/

theorem Table.find_drop {α : Type} (t : Table α) (k j : Nat) :
    Table.find (Table.drop t k) j = if j = k then none else Table.find t j := by
  induction t with
  | nil => simp [Table.drop]
  | cons e t ih =>
    obtain ⟨k', v⟩ := e
    rw [Table.drop] at ih ⊢
    by_cases hk : k' = k
    · rw [List.filter_cons_of_neg (by simpa using hk), ih, Table.find]
      split
      · rfl
      · next hj => rw [if_neg (hk ▸ hj)]
    · rw [List.filter_cons_of_pos (by simpa using hk), Table.find, Table.find, ih]
      by_cases hj : j = k'
      · rw [if_pos hj, if_pos hj, if_neg (hj ▸ hk)]
      · rw [if_neg hj, if_neg hj]

/-! ### `vstream` (12 R178) -/

/-- A descriptor's reserved fields are zero and its counts are not. -/
def descFits (n : Nat) : Prop :=
  n % 2 ^ 17 = 0 ∧ n / 2 ^ 24 % 2 ^ 232 = 0 ∧ n / 2 ^ 416 % 2 ^ 32 ≠ 0 ∧ n / 2 ^ 352 % 2 ^ 32 ≠ 0 ∧ n / 2 ^ 288 % 2 ^ 32 ≠ 0

theorem streamDescOk_iff (n : Nat) : streamDescOk n = true ↔ descFits n := by
  simp only [streamDescOk, descFits, bitsAt, Bool.and_eq_true, beq_iff_eq, bne_iff_ne, pow_zero, Nat.div_one]
  tauto

/-- A state in which the register `r` is in stream mode. -/
def State.setStream (s : State) (r : Nat) (t : Stream) : State :=
  s.modMy fun k => { k with vec := { k.vec with streams := Table.set k.vec.streams r t } }

/-- What `vstream` does with the value of its register. -/
def vstreamBody (x : XT) (d : Fin 8) (w : Word) : M Next := do
  trapIf (w.toNat % 64 != 0) .windowBounds w
  let n ← readBlock w.toNat 64
  trapIf (!streamDescOk n) .windowBounds w
  trapIf (!streamFmt x (bitsAt n 20 4) (bitAt n 17)) .format w
  modState fun s => s.setStream (streamReg d) { desc := BitVec.ofNat 512 n, x := x, next := 0, buf := [], stopped := false }
  pure .fall

theorem performs_vstream (s : State) (g : Guard) (x : XT) (d : Fin 8) (a : Reg) :
    Performs s (.vstream g x d a) (vstreamBody x d (s.seq.readS a)) := Performs.congr (.vec (f := 0) rfl rfl rfl) rfl

theorem trapIf_eq (b : Bool) (c : Cause) (v : Word) (s : State) :
    trapIf b c v s = if b then .error (.trap c (some v) .none) else .ok ((), s) := by cases b <;> rfl

section
variable {s s1 : State} {x : XT} {d : Fin 8} {w : Word} {n : Nat}

theorem vstreamBody_misaligned (h : w.toNat % 64 ≠ 0) :
    vstreamBody x d w s = .error (.trap .windowBounds (some w) .none) := by
  rw [vstreamBody, M.bind_run, trapIf_eq, if_pos (by simpa using h)]

variable (hal : w.toNat % 64 = 0) (hn : readBlock w.toNat 64 s = .ok (n, s1))
include hal hn

theorem vstreamBody_read : vstreamBody x d w s = (do
    trapIf (!streamDescOk n) .windowBounds w
    trapIf (!streamFmt x (bitsAt n 20 4) (bitAt n 17)) .format w
    modState fun s => s.setStream (streamReg d) { desc := BitVec.ofNat 512 n, x := x, next := 0, buf := [], stopped := false }
    pure .fall : M Next) s1 := by
  have hpass : trapIf (w.toNat % 64 != 0) .windowBounds w s = .ok ((), s) := by rw [trapIf_eq, if_neg (by simp [hal])]
  rw [vstreamBody, M.bind_ok hpass, M.bind_ok hn]

theorem vstreamBody_reserved (h : ¬ descFits n) : vstreamBody x d w s = .error (.trap .windowBounds (some w) .none) := by
  rw [vstreamBody_read hal hn, M.bind_run, trapIf_eq, if_pos (by simpa [← streamDescOk_iff] using h)]

variable (hfit : descFits n)
include hfit

theorem vstreamBody_format (h : streamFmt x (n / 2 ^ 20 % 16) (n.testBit 17) = false) :
    vstreamBody x d w s = .error (.trap .format (some w) .none) := by
  rw [vstreamBody_read hal hn, (streamDescOk_iff n).mpr hfit, Bool.not_true, M.bind_ok (trapIf_false _ _ s1), M.bind_run,
    trapIf_eq, bitAt_eq, if_pos]
  exact congrArg (!·) h

theorem vstreamBody_begins (h : streamFmt x (n / 2 ^ 20 % 16) (n.testBit 17) = true) : vstreamBody x d w s =
    .ok (.fall, s1.setStream (streamReg d) { desc := BitVec.ofNat 512 n, x := x, next := 0, buf := [], stopped := false }) := by
  have hfmt : (!streamFmt x (bitsAt n 20 4) (bitAt n 17)) = false := by rw [bitAt_eq]; exact congrArg (!·) h
  rw [vstreamBody_read hal hn, (streamDescOk_iff n).mpr hfit, hfmt, Bool.not_true, M.bind_ok (trapIf_false _ _ s1),
    M.bind_ok (trapIf_false _ _ s1)]
  rfl

end

/-! ### Reads (12 R179) -/

section
variable {s : State} {q : VReg} {r : Nat} {t : Stream} (h : Table.find s.my.vec.streams r = some t) (hq : q.val = r)
include h hq

theorem readV_pops : readV q s = popStream q t s := by subst hq; rw [readV, h]

theorem readV_over (hover : t.total ≤ t.next) : readV q s = .error (.trap .streamFault (some (BitVec.allOnes 64)) .none) := by
  rw [readV_pops h hq, popStream, if_pos hover]
  rfl

variable (hmore : t.next < t.total)
include hmore

theorem readV_next {v : Lanes} {rest : List StreamVec} (hbuf : t.buf = .lanes v :: rest) :
    readV q s = .ok (v, s.setStream r { t with buf := rest, next := t.next + 1 }) := by
  rw [readV_pops h hq, popStream, if_neg (Nat.not_le.mpr hmore), hbuf, hq]
  rfl

theorem readV_marked {c : Cause} {z : Word} {rest : List StreamVec} (hbuf : t.buf = .fault c z :: rest) :
    readV q s = .error (.trap (if c = .memoryConflict then c else .streamFault) (some z) (.stream r)) := by
  rw [readV_pops h hq, popStream, if_neg (Nat.not_le.mpr hmore), hbuf, hq]

end

/-! ### `vstop` (12 R180) -/

theorem streamReg_lt (d : Fin 8) : streamReg d < 32 := by have := d.isLt; unfold streamReg; omega

/-- The vector registers after the end of a register's mode. -/
def Vec.stopped (v : Vec) (d : Fin 8) : Vec :=
  { v := v.v.set (streamReg d) (Vector.replicate 32 0) (streamReg_lt d), streams := Table.drop v.streams (streamReg d) }

/-- An update that leaves the strand as it is leaves a completed instruction's state as it is. -/
theorem State.retire_modMy_of_eq {s : State} {f : Strand → Strand} (h : f s.my = s.my) (len : Nat) (n : Next) :
    (s.modMy f).retire len n = s.retire len n := by
  rw [State.retire, State.retire, State.modSeq_eq, State.modSeq_eq, State.modMy_modMy]
  exact State.modStrand_congr _ _ (congrArg (fun t : Strand => t.setSeq s.cur.2 ((t.seq s.cur.2).retire len n)) h)

section
variable {s : State} {g : Guard} {d : Fin 8}

theorem performs_vstop : Performs s (.vstop g d) (do
    modState fun s => s.modMy fun k =>
      if (Table.find k.vec.streams (streamReg d)).isSome then { k with vec := k.vec.stopped d } else k
    pure .fall) := Performs.congr (.vec (f := 0) rfl rfl rfl) rfl

theorem vstop_completes {t : Stream} (h : Table.find s.my.vec.streams (streamReg d) = some t) :
    Completes (.vstop g d) s (s.modMy fun k => { k with vec := k.vec.stopped d }) := by
  have hstop : s.modMy (fun k =>
      if (Table.find k.vec.streams (streamReg d)).isSome then { k with vec := k.vec.stopped d } else k)
        = s.modMy fun k => { k with vec := k.vec.stopped d } :=
    State.modStrand_congr _ _ (if_pos (by rw [← State.my, h]; rfl))
  exact hstop ▸ performs_vstop.completes rfl

theorem vstop_idle (h : Table.find s.my.vec.streams (streamReg d) = none) : Completes (.vstop g d) s s := fun hm => by
  have hnot : ¬ (Table.find s.my.vec.streams (streamReg d)).isSome = true := by rw [h]; decide
  exact (performs_vstop.completes rfl hm).trans (congrArg _ (State.retire_modMy_of_eq (if_neg hnot) _ _))

/-- The registers and streams that the end of a register's mode leaves. -/
theorem Vec.stopped_spec (v : Vec) : Table.find (v.stopped d).streams (streamReg d) = none
    ∧ (∀ q : VReg, q.val = streamReg d → (v.stopped d).v[q.val] = Vector.replicate 32 0)
    ∧ ∀ q : VReg, q.val ≠ streamReg d → (v.stopped d).v[q.val] = v.v[q.val]
        ∧ Table.find (v.stopped d).streams q.val = Table.find v.streams q.val := by
  refine ⟨?_, fun q hq => ?_, fun q hq => ⟨?_, ?_⟩⟩
  · rw [Vec.stopped, Table.find_drop, if_pos rfl]
  · simp [Vec.stopped, hq]
  · rw [Vec.stopped, Vector.getElem_set_ne _ _ hq.symm]
  · rw [Vec.stopped, Table.find_drop, if_neg hq]

end

/-! ### The refill (12 R179) -/

section
variable {s : State} {p : Place} {d : Fin 8} {t t' : Stream} (h : Table.find (s.strand p).vec.streams (streamReg d) = some t)
  (hrun : s.coreRuns p = true) (hdue : t.due (s.strand p).xs.inTrap = some t')
include h hrun hdue

/-- A stream kept after a fetch that left the state `u`. -/
def State.keepStream (s u : State) (p : Place) (r : Nat) (t : Stream) : State :=
  ({ u with cur := s.cur } : State).modStrand p fun k => { k with vec := { k.vec with streams := Table.set k.vec.streams r t } }

/-- The fetch of the next point of the next vector. -/
def State.fetchNext (s : State) (p : Place) (r : Nat) (t : Stream) : VecRead :=
  ({ s with cur := (p, .xs) } : State).fetchPoint r t ((t.points (t.next + t.buf.length)).getD t.read 0) t.lanes

theorem exec_streamRefill : exec (.streamRefill p d) s =
    match s.fetchNext p (streamReg d) t' with
    | .lanes u l => .next (s.keepStream u p (streamReg d) (t'.took (t'.points (t'.next + t'.buf.length)).length l))
    | .fault u c w => .next (s.keepStream u p (streamReg d) { t' with
        buf := t'.buf ++ [.fault c w], stopped := true, read := 0, lanes := Vector.replicate 32 0 })
    | .blocked => .next s
    | .stop f => .fault f := by
  show execStreamRefill p d s = _
  simp only [execStreamRefill, h, hrun, hdue, Bool.not_true, Bool.false_eq_true, if_false]
  rfl

end

/-- The element index of a point by its three coordinates. -/
theorem pointIndex_eq (n pt : Nat) : pointIndex n pt =
    (let f (lo : Nat) : Nat := n / 2 ^ lo % 2 ^ 32
     let S (lo : Nat) : Int := if f lo < 2 ^ 31 then f lo else (f lo : Int) - 2 ^ 32
     (pt % f 416 : Nat) * S 384 + (pt / f 416 % f 352 : Nat) * S 320 + (pt / (f 416 * f 352) : Nat) * S 256) := by
  have hS (lo : Nat) : sfield n lo = if n / 2 ^ lo % 2 ^ 32 < 2 ^ 31 then ((n / 2 ^ lo % 2 ^ 32 : Nat) : Int)
      else ((n / 2 ^ lo % 2 ^ 32 : Nat) : Int) - 2 ^ 32 := sval_eq (Nat.mod_lt _ (by decide))
  rw [pointIndex, hS, hS, hS, Nat.div_div_eq_div_mul]
  rfl

end Sys2Proof.Machine

namespace Sys2Proof.Proofs

open Sys2Proof Sys2Proof.Machine Sys2Proof.Claims

/-- Settles O29: `vstream` by its checks in order, a read by the head of the buffer, a refill by what its fetch finds. -/
theorem streamsDeliverTheirVectors : Obligations.StreamsDeliverTheirVectors := by
  intro s s1 g x d a n p t t' v w r f zero setS pts zeros fetch keep
  have begins := performs_vstream s g x d a
  refine ⟨fun hal => begins.traps (vstreamBody_misaligned hal), fun hal hn hz => begins.traps (vstreamBody_reserved hal hn hz),
    fun hal hn hz hf => begins.traps (vstreamBody_format hal hn hz hf),
    fun hal hn hz hf => begins.completes (vstreamBody_begins hal hn hz hf), fun ht => ⟨fun hover q hq => readV_over ht hq hover,
      fun hmore rest hbuf q hq => readV_next ht hq hmore hbuf, fun hmore c z rest hbuf q hq => readV_marked ht hq hmore hbuf,
      fun hm => ⟨_, vstop_completes ht hm, ?_⟩⟩, vstop_idle, fun ht hrun hdue => ?_, fun pt _ => pointIndex_eq n pt⟩
  · simp only [State.retire_vec, State.my_modMy]
    exact Vec.stopped_spec s.my.vec
  · have hfetch : s.fetchNext p (streamReg d) t' = fetch := rfl
    rw [exec_streamRefill ht hrun hdue, hfetch]
    refine ⟨fun u hu => ⟨fun hlt => ?_, fun hge => ?_⟩, fun hb => ?_, fun u c z hf => ?_⟩
    · rw [hu]
      exact congrArg (fun t => Host.Outcome.next (keep u t)) (if_pos hlt)
    · rw [hu]
      exact congrArg (fun t => Host.Outcome.next (keep u t)) (if_neg (Nat.not_lt.mpr hge))
    · rw [hb]
    · rw [hf]
      rfl

end Sys2Proof.Proofs
end

section
/-! Accumulators of the matrix array (12 R182) with elements replaced, and exact sums of products (05 R78). -/

namespace Sys2Proof.Machine

open Sys2Proof.Claims

/-- Instructions of the matrix unit. -/
theorem Performs.mat {s : State} {i : Instr} {g : Guard} {body : M Next} (hd : i.demands = some ⟨.bit g, some .xs, .user, 4, [], []⟩)
    (hlen : i.len = 8) (he : exec i s = perform 8 needMat g body s) : Performs s i body :=
  ⟨fun hm => hlen ▸ he.trans ((Fits.onXs s g 4).performs hd hm _ _)⟩

/-! ### Elements of an accumulator -/

/-- The number of the element at a position. -/
def accKey (p : Nat × Nat) : Nat := p.1 * 32 + p.2

/-- One element replaced, by its number. -/
def accPut (a : Vector Lane 1024) (k : Nat) (v : Lane) : Vector Lane 1024 := if h : k < 1024 then a.set k v h else a

theorem accSet_eq (a : Vector Lane 1024) (p : Nat × Nat) (v : Lane) : accSet a p.1 p.2 v = accPut a (accKey p) v := rfl

theorem accPut_getElem? (a : Vector Lane 1024) (i : Nat) (hi : i < 1024) (v : Lane) (k : Nat) :
    (accPut a i v)[k]? = if k = i then some v else a[k]? := by
  rw [accPut, dif_pos hi, Vector.getElem?_set]
  simp only [eq_comm]

/-- Elements replaced one after another. -/
def accPuts (a : Vector Lane 1024) (l : List (Nat × Lane)) : Vector Lane 1024 := l.foldl (fun a e => accPut a e.1 e.2) a

theorem accPuts_getElem?_of_not_mem {l : List (Nat × Lane)} (hl : ∀ e ∈ l, e.1 < 1024) (a : Vector Lane 1024) {k : Nat}
    (hk : ∀ e ∈ l, e.1 ≠ k) : (accPuts a l)[k]? = a[k]? :=
  get_foldl_set_of_not_mem (get := fun a k => a[k]?) accPut_getElem? hl a hk

theorem accPuts_getElem?_of_mem {l : List (Nat × Lane)} (hl : ∀ e ∈ l, e.1 < 1024) (hn : (l.map Prod.fst).Nodup)
    (a : Vector Lane 1024) {k : Nat} {v : Lane} (hm : (k, v) ∈ l) : (accPuts a l)[k]? = some v :=
  get_foldl_set_of_mem (get := fun a k => a[k]?) accPut_getElem? hl hn a hm

theorem Mat.mem_outputs {m : Mat} {p : Nat × Nat} : p ∈ m.outputs ↔ p.1 < m.mm ∧ p.2 < m.nm := by
  obtain ⟨i, j⟩ := p
  simp [Mat.outputs]

theorem Mat.outputs_nodup (m : Mat) : m.outputs.Nodup := by
  refine List.nodup_flatMap.mpr ⟨fun i _ => List.nodup_range.map fun _ _ h => (Prod.ext_iff.mp h).2, ?_⟩
  refine List.nodup_range.imp fun {i i'} hne p hp hp' => hne ?_
  obtain ⟨_, -, rfl⟩ := List.mem_map.mp hp
  obtain ⟨_, -, h⟩ := List.mem_map.mp hp'
  exact (Prod.ext_iff.mp h).1.symm

/-- Positions in row order. -/
theorem grid_getElem? {h w i j : Nat} (hi : i < h) (hj : j < w) :
    ((List.range h).flatMap fun i => (List.range w).map fun j => (i, j))[i * w + j]? = some (i, j) := by
  induction h with
  | zero => omega
  | succ h ih =>
    have hlen : ((List.range h).flatMap fun i => (List.range w).map fun j => (i, j)).length = h * w := by simp
    rw [List.range_succ, List.flatMap_append, List.flatMap_singleton]
    obtain hlt | rfl := Nat.lt_succ_iff_lt_or_eq.mp hi
    · rw [List.getElem?_append_left, ih hlt]
      rw [hlen]
      calc i * w + j < (i + 1) * w := by rw [Nat.succ_mul]; omega
        _ ≤ h * w := Nat.mul_le_mul_right w hlt
    · rw [List.getElem?_append_right (by omega), hlen]
      simp [hj]

theorem Mat.outputs_getElem? {m : Mat} {i j : Nat} (hi : i < m.mm) (hj : j < m.nm) : m.outputs[i * m.nm + j]? = some (i, j) :=
  grid_getElem? hi hj

/-- An accumulator whose unmasked elements become some values, in row order. -/
def Mat.written (m : Mat) (ws : List Lane) (a : Vector Lane 1024) : Vector Lane 1024 := accPuts a ((m.outputs.map accKey).zip ws)

section
variable {m : Mat} (hmm : m.mm ≤ 32) (hnm : m.nm ≤ 32)

include hnm in
theorem Mat.accKey_inj {i j : Nat} (hj : j < 32) {p : Nat × Nat} (hp : p ∈ m.outputs) (h : accKey p = i * 32 + j) : p = (i, j) := by
  obtain ⟨-, hc⟩ := Mat.mem_outputs.mp hp
  unfold accKey at h
  exact Prod.ext (by dsimp only; omega) (by dsimp only; omega)

include hnm in
theorem Mat.keys_nodup : (m.outputs.map accKey).Nodup := by
  refine m.outputs_nodup.map_on fun p hp q hq he => Mat.accKey_inj hnm ?_ hp he
  have := (Mat.mem_outputs.mp hq).2
  omega

include hmm hnm

theorem Mat.written_keys {ws : List Lane} : ∀ e ∈ (m.outputs.map accKey).zip ws, e.1 < 1024 := by
  intro e he
  obtain ⟨p, hp, hpe⟩ := List.mem_map.mp (List.of_mem_zip he).1
  obtain ⟨hr, hc⟩ := Mat.mem_outputs.mp hp
  unfold accKey at hpe
  omega

theorem Mat.written_unmasked {ws : List Lane} (hlen : ws.length = m.outputs.length) (a : Vector Lane 1024) {i j : Nat}
    (hi : i < m.mm) (hj : j < m.nm) : (m.written ws a)[i * 32 + j]? = ws[i * m.nm + j]? := by
  have hpos := Mat.outputs_getElem? hi hj
  obtain ⟨hk, -⟩ := List.getElem?_eq_some_iff.mp hpos
  have hw : ws[i * m.nm + j]? = some ws[i * m.nm + j] := List.getElem?_eq_getElem (hlen ▸ hk)
  rw [hw]
  refine accPuts_getElem?_of_mem (Mat.written_keys hmm hnm) ?_ a (List.mem_of_getElem? (List.getElem?_zip_eq_some.mpr ⟨?_, hw⟩))
  · rw [List.map_fst_zip (by rw [List.length_map, hlen])]
    exact Mat.keys_nodup hnm
  · rw [List.getElem?_map, hpos]
    rfl

theorem Mat.written_masked (ws : List Lane) (a : Vector Lane 1024) {i j : Nat} (hj : j < 32) (hmask : ¬ (i < m.mm ∧ j < m.nm)) :
    (m.written ws a)[i * 32 + j]? = a[i * 32 + j]? := by
  refine accPuts_getElem?_of_not_mem (Mat.written_keys hmm hnm) a fun e he hpos => hmask ?_
  obtain ⟨p, hp, hpe⟩ := List.mem_map.mp (List.of_mem_zip he).1
  obtain rfl := Mat.accKey_inj hnm hj hp (hpe.trans hpos)
  exact Mat.mem_outputs.mp hp

end

/-! ### Exact sums -/

namespace FVal

theorem isNan_add_left (rm : Nat) {u : FVal} (h : u.isNan = true) (v : FVal) : (u.add rm v).isNan = true := by
  cases u with
  | nan => cases v <;> rfl
  | inf | fin => cases h

theorem isNan_add_right (rm : Nat) (u : FVal) {v : FVal} (h : v.isNan = true) : (u.add rm v).isNan = true := by
  cases v with
  | nan => cases u <;> rfl
  | inf | fin => cases h

theorem isNan_mul {u v : FVal} (h : u.isNan = true ∨ v.isNan = true) : (u.mul v).isNan = true := by
  rcases h with h | h
  · cases u with
    | nan => cases v <;> rfl
    | inf | fin => cases h
  · cases v with
    | nan => cases u <;> rfl
    | inf | fin => cases h

end FVal

theorem foldl_add_nan {u : FVal} (h : u.isNan = true) (ts : List FVal) : (ts.foldl (fun s t => s.add 0 t) u).isNan = true := by
  induction ts generalizing u with
  | nil => exact h
  | cons t ts ih => exact ih (FVal.isNan_add_left 0 h t)

theorem foldl_add_finite {u : FVal} (h : u.isFinite = true) {ts : List FVal} (ht : ∀ t ∈ ts, t.isFinite = true) :
    (ts.foldl (fun s t => s.add 0 t) u).isFinite = true
      ∧ (ts.foldl (fun s t => s.add 0 t) u).rational = u.rational + (ts.map FVal.rational).sum := by
  induction ts generalizing u with
  | nil => simp [h]
  | cons t ts ih =>
    rw [List.forall_mem_cons] at ht
    obtain ⟨hfin, hsum, -⟩ := FVal.add_finite 0 h ht.1
    obtain ⟨hfin', hsum'⟩ := ih hfin ht.2
    exact ⟨hfin', by rw [List.foldl_cons, hsum', hsum, List.map_cons, List.sum_cons, add_assoc]⟩

/-- Beside the sign of a zero, the sum is what adding the terms one after another gives. -/
theorem sumExact_cases (u : FVal) (ts : List FVal) : let r := ts.foldl (fun s t => s.add 0 t) u
    sumExact u ts = r ∨ r.isZero = true ∧ ∃ n, sumExact u ts = .fin n 0 0 := by
  intro r
  unfold sumExact
  dsimp only
  split
  · next h => exact .inr ⟨by simp only [r, h]; rfl, _, rfl⟩
  · exact .inl rfl

theorem sumExact_finite {u : FVal} (h : u.isFinite = true) {ts : List FVal} (ht : ∀ t ∈ ts, t.isFinite = true) :
    (sumExact u ts).isFinite = true ∧ (sumExact u ts).rational = u.rational + (ts.map FVal.rational).sum := by
  obtain ⟨hfin, hsum⟩ := foldl_add_finite h ht
  obtain he | ⟨hz, n, he⟩ := sumExact_cases u ts
  · rw [he]; exact ⟨hfin, hsum⟩
  · rw [he, ← hsum, FVal.rational_of_isZero hz]
    exact ⟨rfl, FVal.rational_of_isZero rfl⟩

theorem sumExact_nan {u : FVal} {ts : List FVal} (h : u.isNan = true ∨ ∃ t ∈ ts, t.isNan = true) :
    (sumExact u ts).isNan = true := by
  have hr : (ts.foldl (fun s t => s.add 0 t) u).isNan = true := by
    obtain h | ⟨t, ht, hnan⟩ := h
    · exact foldl_add_nan h ts
    · obtain ⟨l, l', rfl⟩ := List.append_of_mem ht
      rw [List.foldl_append, List.foldl_cons]
      exact foldl_add_nan (FVal.isNan_add_right 0 _ hnan) l'
  obtain he | ⟨hz, -⟩ := sumExact_cases u ts
  · rwa [he]
  · rw [FVal.isNan_of_isFinite (FVal.isFinite_of_isZero hz)] at hr
    cases hr

theorem rne32_nan {v : FVal} (h : v.isNan = true) : (rne32 v).1 = 0x7FC00000 := by
  cases v with
  | nan => rfl
  | inf | fin => cases h

end Sys2Proof.Machine
end

section
/-! Matrix products (12 R186): the elements that `mma` and `mmaz` write. -/

namespace Sys2Proof.Machine

open Sys2Proof.Claims

/-! ### Parts of a strand that a completed instruction keeps -/

@[simp] theorem State.retire_mat (s : State) (len : Nat) (n : Next) : (s.retire len n).my.mat = s.my.mat := by
  simp [State.retire]

@[simp] theorem State.retire_fpstat (s : State) (len : Nat) (n : Next) : (s.retire len n).my.csr.fpstat = s.my.csr.fpstat := by
  simp [State.retire]

@[simp] theorem State.raised_mat (s : State) (f : Flags) : (s.raised f).my.mat = s.my.mat := by simp [State.raised]

@[simp] theorem State.raised_seq (s : State) (f : Flags) : (s.raised f).seq = s.seq := by
  rw [State.raised, State.seq_modMy]
  exact (Strand.seq_eq_of rfl rfl : _ = s.my.seq s.cur.2)

/-- FPSTAT only gathers flags. -/
theorem State.raised_fpstat (s : State) (f : Flags) {j : Nat} (h : s.my.csr.fpstat.getLsbD j = true) :
    (s.raised f).my.csr.fpstat.getLsbD j = true := by
  simp [State.raised, h]

/-- A state with the matrix array's registers replaced. -/
def State.setMat (s : State) (q : Mat) : State := s.modMy fun t => { t with mat := q }

theorem State.modMy_eq_setMat {s : State} {f : Strand → Strand} {q : Mat} (h : f s.my = { s.my with mat := q }) :
    s.modMy f = s.setMat q := State.modStrand_congr (g := fun t => { t with mat := q }) s s.cur.1 h

@[simp] theorem State.setMat_mat (s : State) (q : Mat) : (s.setMat q).my.mat = q := by simp [State.setMat]

@[simp] theorem State.setMat_vec (s : State) (q : Mat) : (s.setMat q).my.vec = s.my.vec := by simp [State.setMat]

@[simp] theorem State.setMat_csr (s : State) (q : Mat) : (s.setMat q).my.csr = s.my.csr := by simp [State.setMat]

@[simp] theorem State.setMat_seq (s : State) (q : Mat) : (s.setMat q).seq = s.seq := by
  rw [State.setMat, State.seq_modMy]
  exact (Strand.seq_eq_of rfl rfl : _ = s.my.seq s.cur.2)

/-- The matrix array's registers with an accumulator replaced. -/
def Mat.setAcc (m : Mat) (d : Fin 4) (a : Vector Lane 1024) : Mat := { m with acc := m.acc.set d.val a }

/-! ### One element of a product -/

/-- The exact sum that an element of a product rounds: its start and the products of its row and column. -/
def Mat.exactSum (m : Mat) (n : Nat) (start : Lane) (r c : Nat) : FVal :=
  sumExact (fv32 start) ((List.range n).map fun k =>
    (Table.get FVal.zero m.la.vals (r * 256 + k)).mul (Table.get FVal.zero m.lb.vals (c * 256 + k)))

theorem accElem_lines (m : Mat) (n : Nat) (start : Lane) (r c : Nat) :
    (accElem start (m.la.line r n) (m.lb.line c n)).1 = (rne32 (m.exactSum n start r c)).1 := by
  rw [accElem, Latch.line, Latch.line, List.zip_map', List.map_map]
  rfl

section
variable {m : Mat} {n : Nat} {start : Lane} {r c : Nat}

theorem Mat.exactSum_finite (hs : (fv32 start).isFinite = true) (hf : ∀ k < n,
      (Table.get FVal.zero m.la.vals (r * 256 + k)).isFinite = true ∧ (Table.get FVal.zero m.lb.vals (c * 256 + k)).isFinite = true) :
    (m.exactSum n start r c).isFinite = true ∧ (m.exactSum n start r c).rational = (fv32 start).rational
      + ((List.range n).map fun k => (Table.get FVal.zero m.la.vals (r * 256 + k)).rational
          * (Table.get FVal.zero m.lb.vals (c * 256 + k)).rational).sum := by
  obtain ⟨hfin, hsum⟩ := sumExact_finite hs (ts := (List.range n).map fun k =>
    (Table.get FVal.zero m.la.vals (r * 256 + k)).mul (Table.get FVal.zero m.lb.vals (c * 256 + k))) <| by
    intro t ht
    obtain ⟨k, hk, rfl⟩ := List.mem_map.mp ht
    obtain ⟨ha, hb⟩ := hf k (List.mem_range.mp hk)
    exact FVal.isFinite_mul ha hb
  refine ⟨hfin, hsum.trans (congrArg _ ?_)⟩
  rw [List.map_map]
  refine congrArg List.sum (List.map_congr_left fun k hk => ?_)
  obtain ⟨ha, hb⟩ := hf k (List.mem_range.mp hk)
  exact FVal.rational_mul ha hb

theorem Mat.exactSum_nan (h : (fv32 start).isNan = true ∨ ∃ k < n,
      (Table.get FVal.zero m.la.vals (r * 256 + k)).isNan = true ∨ (Table.get FVal.zero m.lb.vals (c * 256 + k)).isNan = true) :
    (m.exactSum n start r c).isNan = true := by
  refine sumExact_nan (h.imp_right ?_)
  rintro ⟨k, hk, hnan⟩
  exact ⟨_, List.mem_map.mpr ⟨k, List.mem_range.mpr hk, rfl⟩, FVal.isNan_mul hnan⟩

end

/-! ### The accumulator of a product -/

/-- The FP32 value that an output element of a product starts from. -/
def accStart (z : Bool) (a : Vector Lane 1024) (p : Nat × Nat) : Lane := if z then 0 else accGet a p.1 p.2

/-- An output element of a product as `Mat.product` forms it: its FP32 value and flags. -/
def Mat.productElem (m : Mat) (f : MFmt) (z : Bool) (a : Vector Lane 1024) (p : Nat × Nat) : Lane × Flags :=
  accElem (accStart z a p) (((List.range m.mm).map fun i => m.la.line i (min m.km (kOf f))).getD p.1 [])
    (((List.range m.nm).map fun j => m.lb.line j (min m.km (kOf f))).getD p.2 [])

theorem Mat.productElem_eq {m : Mat} {p : Nat × Nat} (hp : p ∈ m.outputs) (f : MFmt) (z : Bool) (a : Vector Lane 1024) :
    (m.productElem f z a p).1 = (rne32 (m.exactSum (min m.km (kOf f)) (accStart z a p) p.1 p.2)).1 := by
  obtain ⟨hr, hc⟩ := Mat.mem_outputs.mp hp
  have hline (l : Latch) {h r n : Nat} (hr : r < h) : ((List.range h).map fun i => l.line i n).getD r [] = l.line r n := by simp [hr]
  rw [productElem, hline m.la hr, hline m.lb hc, accElem_lines]

/-- What a product writes at a position. -/
def Mat.productValue (m : Mat) (f : MFmt) (z : Bool) (a : Vector Lane 1024) (p : Nat × Nat) : Lane :=
  (rne32 (m.exactSum (min m.km (kOf f)) (accStart z a p) p.1 p.2)).1

theorem Mat.product_acc (m : Mat) (f : MFmt) (z : Bool) (a : Vector Lane 1024) :
    (m.product f z a).1 = m.written (m.outputs.map (m.productValue f z a)) a := by
  have hvalues : m.outputs.map (m.productValue f z a) = m.outputs.map fun p => (m.productElem f z a p).1 :=
    List.map_congr_left fun p hp => (Mat.productElem_eq hp f z a).symm
  rw [hvalues, written, accPuts, List.zip_map', List.foldl_map]
  exact congrArg Prod.fst (foldl_pair (fun b p => accPut b (accKey p) (m.productElem f z a p).1)
    (fun fl p => fl ||| (m.productElem f z a p).2) m.outputs a 0)

section
variable {m : Mat} (hmm : m.mm ≤ 32) (hnm : m.nm ≤ 32) (f : MFmt) (z : Bool) (a : Vector Lane 1024) {r c : Nat}
include hmm hnm

theorem Mat.product_unmasked (hr : r < m.mm) (hc : c < m.nm) :
    (m.product f z a).1[r * 32 + c]? = some (m.productValue f z a (r, c)) := by
  rw [product_acc, written_unmasked hmm hnm (List.length_map _) _ hr hc, List.getElem?_map, outputs_getElem? hr hc]
  rfl

theorem Mat.product_masked (hc : c < 32) (hmask : ¬ (r < m.mm ∧ c < m.nm)) : (m.product f z a).1[r * 32 + c]? = a[r * 32 + c]? := by
  rw [product_acc, written_masked hmm hnm _ _ hc hmask]

end

/-! ### `mma` and `mmaz` -/

section
variable {s : State} {f : MFmt} {d : Fin 4} {z : Bool}

theorem mmaBody_rowTag (h : s.my.mat.la.tag ≠ some f) : mmaBody f d z s = .error (.trap .format (some 1) .none) := by
  rw [mmaBody, M.bind_ok (getState_run s), M.bind_run, trapIf_eq, if_pos (by simpa using h)]

theorem mmaBody_colTag (ha : s.my.mat.la.tag = some f) (h : s.my.mat.lb.tag ≠ some f) :
    mmaBody f d z s = .error (.trap .format (some 2) .none) := by
  rw [mmaBody, M.bind_ok (getState_run s), ha, bne_self_eq_false, M.bind_ok (trapIf_false _ _ s), M.bind_run, trapIf_eq,
    if_pos (by simpa using h)]

theorem mmaBody_run (ha : s.my.mat.la.tag = some f) (hb : s.my.mat.lb.tag = some f) :
    let r := s.my.mat.product f z s.my.mat.acc[d.val]
    mmaBody f d z s = .ok (.fall, ((s.setMat (s.my.mat.setAcc d r.1)).meterMac (s.partNo s.cur.1) s.my.mat f).raised r.2) := by
  intro r
  have hput : s.modMy (fun t => { t with mat := { t.mat with acc := t.mat.acc.set d.val r.1 } }) = s.setMat (s.my.mat.setAcc d r.1) :=
    State.modMy_eq_setMat rfl
  rw [← hput, mmaBody, M.bind_ok (getState_run s), ha, hb, bne_self_eq_false, M.bind_ok (trapIf_false _ _ s),
    M.bind_ok (trapIf_false _ _ s)]
  rfl

theorem performs_mma (s : State) (g : Guard) (f : MFmt) (d : Fin 4) (z : Bool) :
    Performs s (if z then .mmaz g f d else .mma g f d) (mmaBody f d z) := by
  cases z
  · exact .mat rfl rfl rfl
  · exact .mat rfl rfl rfl

end

end Sys2Proof.Machine

namespace Sys2Proof.Proofs

open Sys2Proof Sys2Proof.Machine Sys2Proof.Claims

/-- Settles O30: each output element is rounded once, from `sumExact`, which is exact on finite operands. -/
theorem matrixProductsRoundTheExactSum : Obligations.MatrixProductsRoundTheExactSum := by
  intro s g f d z i m n A B at_ start
  have begins : Performs s i (mmaBody f d z) := performs_mma s g f d z
  refine ⟨fun ha => begins.traps (mmaBody_rowTag ha), fun ha hb => begins.traps (mmaBody_colTag ha hb),
    fun ha hb hmm hnm hmeets => ⟨_, (m.product f z m.acc[d.val]).1, begins.completes (mmaBody_run ha hb) hmeets, ?_⟩⟩
  have hvalue (r c : Nat) (hr : r < m.mm) (hc : c < m.nm) : at_ (m.product f z m.acc[d.val]).1 r c
      = (rne32 (m.exactSum n (accStart z m.acc[d.val] (r, c)) r c)).1 :=
    congrArg (·.getD 0) (Mat.product_unmasked hmm hnm f z m.acc[d.val] hr hc)
  refine ⟨?_, fun r c _ hc hmask => congrArg (·.getD 0) (Mat.product_masked hmm hnm f z _ hc hmask), fun r c hr hc hs hf => ?_,
    fun r c hr hc hnan => (hvalue r c hr hc).trans (rne32_nan (Mat.exactSum_nan hnan)), ?_, ?_, fun r => ?_, fun j _ hj => ?_⟩
  · rw [State.retire_mat, State.raised_mat]
    exact State.setMat_mat s _
  · obtain ⟨hfin, hsum⟩ := Mat.exactSum_finite hs hf
    exact ⟨_, hfin, hsum, hvalue r c hr hc⟩
  · rfl
  · rw [State.retire_vec, State.raised_vec]
    exact State.setMat_vec s _
  · rw [State.retire_seq, Seq.retire_readS, State.raised_seq]
    exact congrArg (·.readS r) (State.setMat_seq s _)
  · rw [State.retire_fpstat]
    refine State.raised_fpstat _ _ ?_
    exact (congrArg (·.fpstat.getLsbD j) (State.setMat_csr s _)).trans hj

end Sys2Proof.Proofs
end

section
/-! Latch loads, accumulator loads and stores, clears and masks of the matrix array (12 R185, R187, R188). -/

namespace Sys2Proof.Machine

open Sys2Proof.Claims

theorem orgOf_eq (w : Word) : orgOf w = w.toNat / 2 ^ 32 :=
  Nat.mod_eq_of_lt (by have := w.isLt; omega)

theorem strideOf_eq (w : Word) : strideOf w = w.toNat % 2 ^ 32 := by simp [strideOf, bitsAt]

/-! ### Latch loads (R185) -/

section
variable {s s1 s2 : State} {g : Guard} {f : MFmt} {cm : Bool} {a b c : Reg} {v : VReg} {vs : List FVal}

theorem misaligned_traps {w : Word} (h : w.toNat % 64 ≠ 0) (s : State) :
    trapIf (w.toNat % 64 != 0) .misalignedData w s = .error (.trap .misalignedData (some w) .none) := by
  rw [trapIf_eq, if_pos (by simpa using h)]

theorem aligned_passes {w : Word} (h : w.toNat % 64 = 0) (s : State) :
    trapIf (w.toNat % 64 != 0) .misalignedData w s = .ok ((), s) := by rw [h]; rfl

theorem latchLoad_misaligned {base : Word} (h : base.toNat % 64 ≠ 0) (stride : Word) (ps : List (Nat × Nat)) :
    latchLoad f cm base stride ps s = .error (.trap .misalignedData (some base) .none) := by
  rw [latchLoad, M.bind_run, misaligned_traps h]

theorem latchLoad_loads {base stride : Word} {ps : List (Nat × Nat)} (h : base.toNat % 64 = 0)
    (hr : readTensor f cm base.toNat stride.toNat (ps.map (·.2)) s = .ok (vs, s1)) :
    latchLoad f cm base stride ps s = .ok (⟨some f, (ps.map (·.1)).zip vs⟩, s1) := by
  rw [latchLoad, M.bind_ok (aligned_passes h s), M.bind_ok hr]
  rfl

/-- A body ends by an update of the matrix array's registers alone. -/
theorem modMat_run {f : Strand → Strand} {q : Mat} (h : f s.my = { s.my with mat := q }) :
    modState (·.modMy f) s = .ok ((), s.setMat q) := by
  rw [← State.modMy_eq_setMat h]
  rfl

theorem setLa_run (l : Latch) (s : State) : setLa l s = .ok ((), s.setMat { s.my.mat with la := l }) := modMat_run rfl

theorem setLb_run (l : Latch) (s : State) : setLb l s = .ok ((), s.setMat { s.my.mat with lb := l }) := modMat_run rfl

theorem setAcc_run (d : Fin 4) (q : Vector Lane 1024) (s : State) : setAcc d q s = .ok ((), s.setMat (s.my.mat.setAcc d q)) :=
  modMat_run rfl

theorem performs_mlda : Performs s (.mlda g f cm a b c) (mldaBody f cm (s.seq.readS a) (s.seq.readS b) (s.seq.readS c)) :=
  Performs.congr (.mat rfl rfl rfl) rfl

theorem performs_mldb : Performs s (.mldb g f cm a b c) (mldbBody f cm (s.seq.readS a) (s.seq.readS b) (s.seq.readS c)) :=
  Performs.congr (.mat rfl rfl rfl) rfl

/-- `mgath` once its registers are read. -/
def mgathBody (f : MFmt) (cm : Bool) (base stride : Word) (v : VReg) : M Next := do
  trapIf (base.toNat % 64 != 0) .misalignedData base
  let ix ← ghost (readV v)
  let s ← getState
  let l ← latchLoad f cm base stride (latchPositions s.my.mat.mm (min s.my.mat.km (kOf f)) fun r k => (laneAt ix r).toNat + k)
  let _ ← readV v
  setLa l
  pure .fall

theorem performs_mgath : Performs s (.mgath g f cm a v c) (mgathBody f cm (s.seq.readS a) (s.seq.readS c) v) :=
  Performs.congr (.mat rfl rfl rfl) rfl

theorem mlda_misaligned (h : (s.seq.readS a).toNat % 64 ≠ 0) : Traps (.mlda g f cm a b c) s .misalignedData (s.seq.readS a) :=
  performs_mlda.traps (by rw [mldaBody, M.bind_ok (getState_run s), M.bind_run, latchLoad_misaligned h])

theorem mldb_misaligned (h : (s.seq.readS a).toNat % 64 ≠ 0) : Traps (.mldb g f cm a b c) s .misalignedData (s.seq.readS a) :=
  performs_mldb.traps (by rw [mldbBody, M.bind_ok (getState_run s), M.bind_run, latchLoad_misaligned h])

theorem mgath_misaligned (h : (s.seq.readS a).toNat % 64 ≠ 0) : Traps (.mgath g f cm a v c) s .misalignedData (s.seq.readS a) :=
  performs_mgath.traps (by rw [mgathBody, M.bind_run, misaligned_traps h])

section
variable {org rs : Nat} (horg : orgOf (s.seq.readS b) = org) (hrs : strideOf (s.seq.readS b) = rs) (hal : (s.seq.readS a).toNat % 64 = 0)
include horg hrs hal

theorem mlda_completes {ps : List (Nat × Nat)}
    (hps : ps = latchPositions s.my.mat.mm (min s.my.mat.km (kOf f)) fun r k => org + r * rs + k)
    (hr : readTensor f cm (s.seq.readS a).toNat (s.seq.readS c).toNat (ps.map (·.2)) s = .ok (vs, s1)) :
    Completes (.mlda g f cm a b c) s (s1.setMat { s1.my.mat with la := ⟨some f, (ps.map (·.1)).zip vs⟩ }) := by
  refine performs_mlda.completes ?_
  rw [mldaBody, M.bind_ok (getState_run s), horg, hrs, ← hps, M.bind_ok (latchLoad_loads hal hr), M.bind_ok (setLa_run _ s1)]
  rfl

theorem mldb_completes {ps : List (Nat × Nat)}
    (hps : ps = latchPositions s.my.mat.nm (min s.my.mat.km (kOf f)) fun r k => org + k * rs + r)
    (hr : readTensor f cm (s.seq.readS a).toNat (s.seq.readS c).toNat (ps.map (·.2)) s = .ok (vs, s1)) :
    Completes (.mldb g f cm a b c) s (s1.setMat { s1.my.mat with lb := ⟨some f, (ps.map (·.1)).zip vs⟩ }) := by
  refine performs_mldb.completes ?_
  rw [mldbBody, M.bind_ok (getState_run s), horg, hrs, ← hps, M.bind_ok (latchLoad_loads hal hr), M.bind_ok (setLb_run _ s1)]
  rfl

end

theorem mgath_completes {t : State} {ix u : Lanes} {ps : List (Nat × Nat)} (hal : (s.seq.readS a).toNat % 64 = 0)
    (hix : readV v s = .ok (ix, t)) (hps : ps = latchPositions s.my.mat.mm (min s.my.mat.km (kOf f)) fun r k => (laneAt ix r).toNat + k)
    (hr : readTensor f cm (s.seq.readS a).toNat (s.seq.readS c).toNat (ps.map (·.2)) s = .ok (vs, s1))
    (hpop : readV v s1 = .ok (u, s2)) :
    Completes (.mgath g f cm a v c) s (s2.setMat { s2.my.mat with la := ⟨some f, (ps.map (·.1)).zip vs⟩ }) := by
  refine performs_mgath.completes ?_
  rw [mgathBody, M.bind_ok (aligned_passes hal s), M.bind_ok (ghost_run hix), M.bind_ok (getState_run s), ← hps,
    M.bind_ok (latchLoad_loads hal hr), M.bind_ok hpop, M.bind_ok (setLa_run _ s2)]
  rfl

end

/-! ### Accumulator loads (R187) -/

theorem loadFlags_value (y : FVal) : (loadFlags y).1 = if y.isNan then 0x7FC00000 else (rne32 y).1 := by
  cases y with
  | nan | inf | fin => rfl

/-- An accumulator after a load of its unmasked elements. -/
def Mat.loaded (m : Mat) (vs : List FVal) (a : Vector Lane 1024) : Vector Lane 1024 := m.written (vs.map fun y => (loadFlags y).1) a

theorem Mat.loaded_eq (m : Mat) (vs : List FVal) (a : Vector Lane 1024) :
    (m.outputs.zip vs).foldl (fun r e => accSet r e.1.1 e.1.2 (loadFlags e.2).1) a = m.loaded vs a := by
  simp only [accSet_eq, Mat.loaded, Mat.written, accPuts, List.zip_map, List.foldl_map]
  rfl

theorem Mat.loaded_unmasked {m : Mat} {vs : List FVal} (hmm : m.mm ≤ 32) (hnm : m.nm ≤ 32) (hlen : vs.length = m.outputs.length)
    (a : Vector Lane 1024) {i j : Nat} (hi : i < m.mm) (hj : j < m.nm) : ∃ y, vs[i * m.nm + j]? = some y
      ∧ (m.loaded vs a)[i * 32 + j]? = some (if y.isNan then 0x7FC00000 else (rne32 y).1) := by
  obtain ⟨hk, -⟩ := List.getElem?_eq_some_iff.mp (Mat.outputs_getElem? hi hj)
  have hvs : vs[i * m.nm + j]? = some vs[i * m.nm + j] := List.getElem?_eq_getElem (hlen ▸ hk)
  refine ⟨_, hvs, ?_⟩
  rw [Mat.loaded, Mat.written_unmasked hmm hnm (by rw [List.length_map, hlen]) a hi hj, List.getElem?_map, hvs, ← loadFlags_value]
  rfl

section
variable {s s1 : State} {g : Guard} {x : XT} {cm : Bool} {d : Fin 4} {a b : Reg} {vs : List FVal}

theorem performs_mldacc : Performs s (.mldacc g x cm d a b) (mldaccBody x cm d (s.seq.readS a) (s.seq.readS b)) :=
  Performs.congr (.mat rfl rfl rfl) rfl

theorem mldacc_misaligned (h : (s.seq.readS a).toNat % 64 ≠ 0) : Traps (.mldacc g x cm d a b) s .misalignedData (s.seq.readS a) :=
  performs_mldacc.traps (by rw [mldaccBody, M.bind_run, misaligned_traps h])

theorem mldacc_completes {org rs : Nat} (horg : orgOf (s.seq.readS b) = org) (hrs : strideOf (s.seq.readS b) = rs)
    (hal : (s.seq.readS a).toNat % 64 = 0)
    (hr : readTensor (.plain x) cm (s.seq.readS a).toNat 0 (s.my.mat.outputs.map fun p => org + p.1 * rs + p.2) s = .ok (vs, s1)) :
    Completes (.mldacc g x cm d a b) s
      ((s1.setMat (s1.my.mat.setAcc d (s.my.mat.loaded vs s.my.mat.acc[d.val]))).raised
        (vs.foldl (fun f v => f ||| (loadFlags v).2) 0)) := by
  refine performs_mldacc.completes ?_
  rw [mldaccBody, M.bind_ok (aligned_passes hal s), M.bind_ok (getState_run s), horg, hrs, M.bind_ok hr, Mat.loaded_eq,
    M.bind_ok (setAcc_run d _ s1)]
  rfl

end

/-! ### Accumulator stores (R187) -/

section
variable {s s1 : State} {g : Guard} {x : XT} {cm : Bool} {d f2 : Fin 4} {a b : Reg} {e : BitVec 8}

theorem performs_mstacc : Performs s (.mstacc g x cm d a b e f2) (mstaccBody x cm d (s.seq.readS a) (s.seq.readS b) e f2) :=
  Performs.congr (.mat rfl rfl rfl) rfl

theorem mstacc_scale : Traps (.mstacc g x cm d a b 0xFF f2) s .format 0 := performs_mstacc.traps rfl

theorem scale_passes (he : e ≠ 0xFF) (s : State) : trapIf (e == 0xFF) .format 0 s = .ok ((), s) := by
  rw [trapIf_eq, if_neg (by simpa using he)]

theorem mstacc_misaligned (he : e ≠ 0xFF) (h : (s.seq.readS a).toNat % 64 ≠ 0) :
    Traps (.mstacc g x cm d a b e f2) s .misalignedData (s.seq.readS a) :=
  performs_mstacc.traps (by rw [mstaccBody, M.bind_ok (scale_passes he s), M.bind_run, misaligned_traps h])

/-- An accumulator element as a store converts it. -/
def stored (x : XT) (e : BitVec 8) (f2 : Fin 4) (a : Vector Lane 1024) (p : Nat × Nat) : Nat × Flags :=
  convertTo x 0 (unscaled e.toNat f2.val (fv32 (accGet a p.1 p.2)))

theorem mstacc_completes {org rs : Nat} (horg : orgOf (s.seq.readS b) = org) (hrs : strideOf (s.seq.readS b) = rs)
    (he : e ≠ 0xFF) (hal : (s.seq.readS a).toNat % 64 = 0) {index : Nat × Nat → Nat} (hindex : index = fun p => org + p.1 * rs + p.2)
    (hblocks : checkBlocks cm (blockAddrs (.plain x) (s.seq.readS a).toNat 0 (s.my.mat.outputs.map index)) s = .ok ((), s))
    (hs : s.begins) {cells : List (Nat × Byte)} (hcells : cells = tensorStore x (s.seq.readS a).toNat e.toNat f2.val
      (s.my.mat.outputs.map fun p => (index p, (stored x e f2 s.my.mat.acc[d.val] p).1)))
    (hw : answersLocal s cm .w (.write (cells.map (·.2))) (cells.map (·.1)) s1 (.data [])) :
    Completes (.mstacc g x cm d a b e f2) s ((answered s1 (.data [])).raised
      ((s.my.mat.outputs.map (stored x e f2 s.my.mat.acc[d.val])).foldl (fun f r => f ||| r.2) 0)) := by
  have hzip : (s.my.mat.outputs.map index).zip ((s.my.mat.outputs.map (stored x e f2 s.my.mat.acc[d.val])).map (·.1))
      = s.my.mat.outputs.map fun p => (index p, (stored x e f2 s.my.mat.acc[d.val] p).1) := by
    rw [List.map_map, List.zip_map']
    rfl
  have hcells' : tensorStore x (s.seq.readS a).toNat e.toNat f2.val
      ((s.my.mat.outputs.map index).zip ((s.my.mat.outputs.map (stored x e f2 s.my.mat.acc[d.val])).map (·.1))) = cells := by
    rw [hzip, hcells]
  refine performs_mstacc.completes ?_
  rw [mstaccBody, M.bind_ok (scale_passes he s), M.bind_ok (aligned_passes hal s), M.bind_ok (getState_run s), horg, hrs, ← hindex,
    M.bind_ok hblocks]
  show (do
    let cells := tensorStore x (s.seq.readS a).toNat e.toNat f2.val
      ((s.my.mat.outputs.map index).zip ((s.my.mat.outputs.map (stored x e f2 s.my.mat.acc[d.val])).map (·.1)))
    writeLocal cm (cells.map (·.1)) (cells.map (·.2))
    raise ((s.my.mat.outputs.map (stored x e f2 s.my.mat.acc[d.val])).foldl (fun f r => f ||| r.2) 0)
    pure .fall : M Next) s = _
  rw [hcells', M.bind_ok (writeLocal_done hs hw)]
  rfl

end

/-! ### Clears and masks (R187, R188) -/

section
variable {s : State} {g : Guard}

theorem mclr_completes (d : Fin 4) : Completes (.mclr g d) s (s.setMat (s.my.mat.setAcc d (Vector.replicate 1024 0))) := by
  refine (Performs.mat (body := mclrBody d) rfl rfl rfl).completes ?_
  rw [mclrBody, M.bind_ok (setAcc_run d _ s)]
  rfl

theorem mmask_completes (mm nm : Fin 32) (km : BitVec 8) : Completes (.mmask g mm nm km) s
    (s.setMat { s.my.mat with mm := mm.val + 1, nm := nm.val + 1, km := km.toNat + 1 }) := by
  refine (Performs.mat (body := mmaskBody mm nm km) rfl rfl rfl).completes ?_
  rw [mmaskBody, M.bind_ok (modMat_run rfl)]
  rfl

end

end Sys2Proof.Machine

namespace Sys2Proof.Proofs

open Sys2Proof Sys2Proof.Machine Sys2Proof.Claims

/-- Settles O31: each body by its checks, its one request and the update of the array's registers. -/
theorem matrixLoadsStoresAndMasks : Obligations.MatrixLoadsStoresAndMasks := by
  intro s s1 s2 g f x cm a b c v d f2 e mm nm km vs ix u base m org rs ps n la lb lg out setMat
  have horg : orgOf (s.seq.readS b) = org := orgOf_eq _
  have hrs : strideOf (s.seq.readS b) = rs := strideOf_eq _
  refine ⟨fun h => ⟨?_, fun he => mstacc_misaligned he h⟩, mstacc_scale, fun hal => ⟨mlda_completes horg hrs hal rfl,
    mldb_completes horg hrs hal rfl, fun t hix => mgath_completes hal hix rfl, fun hr hmeets hmm hnm hlen => ?_, fun he
    hblocks hs hw => ⟨_, mstacc_completes horg hrs he hal rfl hblocks hs rfl hw⟩⟩, mclr_completes d, mmask_completes mm nm km⟩
  · simp only [List.forall_mem_cons]
    exact ⟨mlda_misaligned h, mldb_misaligned h, mgath_misaligned h, mldacc_misaligned h, List.forall_mem_nil _⟩
  · refine ⟨_, _, mldacc_completes horg hrs hal hr hmeets, ?_, fun i j hi hj => Mat.loaded_unmasked hmm hnm hlen _ hi hj,
      fun i j _ hj hmask => Mat.written_masked hmm hnm _ _ hj hmask⟩
    rw [State.retire_mat, State.raised_mat, State.setMat_mat]
    rfl

end Sys2Proof.Proofs
end
